-- ==== Sys2Proof/Word.lean ====
section
/-! DEFINITION. The word types of the machine and their plainest arithmetic (R4, R6, R10). -/

namespace Sys2Proof

/-- A byte of memory. -/
abbrev Byte := BitVec 8

/-- A 64-bit scalar register, rule word or memory doubleword (R10, R113). -/
abbrev Word := BitVec 64

/-- A vector payload of 512 bits (R10, R143). -/
abbrev V512 := BitVec 512

/-- A 52-bit stamp (R231). -/
abbrev Stamp := BitVec 52

/-- A format tag (R89). -/
abbrev Tag := BitVec 6

/-- The scale sidecar that stands for scale 2^0 in every byte (R91). -/
def unitSide : Word := 0x7F7F7F7F7F7F7F7F

end Sys2Proof
end

