-- ==== Sys2Proof/Config.lean ====
section
/-! DEFINITION. What a grade fixes (R1, R2) and the free values (log 6): opaque constants that no proof can evaluate. -/

namespace Sys2Proof

/-- The grades of Table 0.1. -/
inductive Grade
  | nmt7204 | nmt7203 | nmt7202
  deriving DecidableEq, Repr

/-- Live compute dies, each with two stacks (Table 0.1). -/
def Grade.dies : Grade → Nat
  | .nmt7204 => 4 | .nmt7203 => 3 | .nmt7202 => 2

/-- GRADE of the enumeration table (Table 1.6). -/
def Grade.code : Grade → Nat
  | .nmt7204 => 0x04 | .nmt7203 => 0x03 | .nmt7202 => 0x02

/-- The module power limit in W (Table 0.1). -/
def Grade.watts : Grade → Nat
  | .nmt7204 => 3600 | .nmt7203 => 2750 | .nmt7202 => 1900

end Sys2Proof

namespace Sys2Proof.Config

/-- Frames of one fully live stack (R31). -/
def stackFrames : Nat := 1220703
/-- Plat columns and rows of a die (R15). -/
def platCols : Nat := 14
def platRows : Nat := 10

/-- A choice that the device makes among `n + 1` candidates (arrival orders, victims, dispatch stations): any natural number (log 6). -/
opaque freeChoice : Nat → Nat
/-- A mapping check drawn by the device generator (R245, log 6). -/
opaque freeMchk : Nat → BitVec 16
/-- A value of a register whose contents are at the device's latitude: PWRNOW, THR, die shares (R458, log 6). -/
opaque freeWord : Nat → BitVec 64
/-- The byte a discarded line may read instead of its last value (R280, log 6): true keeps the write. -/
opaque freeKeep : Nat → Bool
/-- The signature of the device identity key over a digest, r and then s (R457, log 13). -/
opaque deviceSign : List Byte → BitVec 256 × BitVec 256
/-- Whether an ECDSA P-256 signature verifies a firmware image against the fused key (R455, log 13). -/
opaque firmwareOk : List Byte → Bool
/-- The digest input of the ROM stage (R455). -/
opaque romImage : List Byte
/-- The device's own id, which a join flit carries (Table 23.8). -/
opaque deviceId : BitVec 64

/-- Latencies that the spec leaves open, in cycles (timing only, log 9). -/
def netLatency : Nat := 8
def homeLatency : Nat := 8
def replyLatency : Nat := 8
def barrierLatency : Nat := 8
def spillLatency : Nat := 800

end Sys2Proof.Config
end

