-- ==== Sys2Proof/Machine/Bytes.lean ====
section
/-! DEFINITION. Sparse byte stores: device memory, host memory, local stores and banks (R4, R246; logs 4 and 5).
A store lists (address, byte) pairs with strictly rising addresses and no zero byte: an unlisted address reads 0. -/

namespace Sys2Proof.Machine

open Sys2Proof

/-- The canonical form of a byte store. -/
def Memory.wf : List Host.Cell → Bool
  | [] => true
  | c :: r => decide (c.2 ≠ 0) && r.all (fun e => decide (c.1 < e.1)) && Memory.wf r

/-- The byte at an address. -/
def Memory.get : List Host.Cell → Nat → Byte
  | [], _ => 0
  | c :: r, a => if c.1 = a then c.2 else Memory.get r a

/-- Write one byte. -/
def Memory.set : List Host.Cell → Nat → Byte → List Host.Cell
  | [], a, b => if b = 0 then [] else [(a, b)]
  | c :: r, a, b =>
    if a < c.1 then (if b = 0 then c :: r else (a, b) :: c :: r)
    else if a = c.1 then (if b = 0 then r else (a, b) :: r)
    else c :: Memory.set r a b

/-- `n` bytes from `a`, little-endian (R4). -/
def Memory.read (m : List Host.Cell) (a : Nat) : Nat → Nat
  | 0 => 0
  | n + 1 => (Memory.get m a).toNat + 256 * Memory.read m (a + 1) n

/-- Write the low `n` bytes of `x` at `a`, little-endian. -/
def Memory.write (m : List Host.Cell) (a : Nat) : Nat → Nat → List Host.Cell
  | 0, _ => m
  | n + 1, x => Memory.write (Memory.set m a (BitVec.ofNat 8 x)) (a + 1) n (x / 256)

/-- Exchange the bytes [a, a + n) of two stores. -/
def Memory.exchange (l r : List Host.Cell) (a n : Nat) : List Host.Cell × List Host.Cell :=
  let pick (m : List Host.Cell) (c : Host.Cell) : List Host.Cell := Memory.set m c.1 c.2
  let inside (c : Host.Cell) : Bool := decide (a ≤ c.1 ∧ c.1 < a + n)
  ((r.filter inside).foldl pick (l.filter (fun c => !inside c)),
   (l.filter inside).foldl pick (r.filter (fun c => !inside c)))

/-- The bytes of a number, lowest first. -/
def bytesOf : Nat → Nat → List Byte
  | 0, _ => []
  | n + 1, x => BitVec.ofNat 8 x :: bytesOf n (x / 256)

/-- The number of a byte string, lowest first. -/
def ofBytes : List Byte → Nat
  | [] => 0
  | b :: bs => b.toNat + 256 * ofBytes bs

end Sys2Proof.Machine
end

