-- ==== Sys2Proof/Machine/Formats.lean ====
section
/-! DEFINITION. Format tags: sets, lane widths and lane counts (Tables 4.1 and 4.2, R202). -/

namespace Sys2Proof

/-- binary8 tags: 1-7, 9-15, 17-23, 25-31. -/
def Tag.isB8 (t : Tag) : Bool := decide (t.toNat < 32) && decide (t.toNat % 8 ≠ 0)

/-- FW: binary16, bfloat16, binary32. -/
def Tag.isFW (t : Tag) : Bool := decide (32 ≤ t.toNat ∧ t.toNat ≤ 34)

/-- IN: the integer formats. -/
def Tag.isIN (t : Tag) : Bool := decide (36 ≤ t.toNat ∧ t.toNat ≤ 43)

/-- FL: B8 and FW. -/
def Tag.isFL (t : Tag) : Bool := t.isB8 || t.isFW

/-- The formats a register may carry (Table 4.1): none, B8, FW, IN, x320. -/
def Tag.isReg (t : Tag) : Bool := t.isFL || t.isIN || decide (t.toNat = 44) || decide (t.toNat = 0)

/-- The tags that are not reserved (Table 4.1): the register formats, k4 and k6. -/
def Tag.isLegal (t : Tag) : Bool := t.isReg || decide (t.toNat = 45) || decide (t.toNat = 46)

/-- Lane width in bits (Table 4.1); 512 for tags without lanes of their own. -/
def Tag.width (t : Tag) : Nat :=
  if t.isB8 then 8
  else match t.toNat with
    | 32 | 33 | 38 | 39 => 16
    | 34 | 40 | 41 => 32
    | 36 | 37 => 8
    | 42 | 43 => 64
    | _ => 512

/-- Lane count n(f) = 512 / w(f). -/
def Tag.lanes (t : Tag) : Nat := 512 / t.width

/-- A signed integer format (i8, i16, i32, i64: even tags). -/
def Tag.isSigned (t : Tag) : Bool := t.isIN && decide (t.toNat % 2 = 0)

/-- Precision P of a binary8 tag (R92). -/
def Tag.prec (t : Tag) : Nat := t.toNat % 8

/-- A binary8 tag without sign bit. -/
def Tag.isUns (t : Tag) : Bool := decide (16 ≤ t.toNat)

/-- A binary8 tag of the extended domain (it has Inf). -/
def Tag.isExt (t : Tag) : Bool := decide (t.toNat / 8 % 2 = 0)

end Sys2Proof
end

