-- ==== Sys2Proof/Syntax.lean ====
section
/-! DEFINITION. The instructions and events of the machine: one constructor per row of spec/opcode_table.json.
A rule word (R113) is decoded into operands here; the machine never sees raw encodings.
An event has no word: what it acts on (a station, a request, a queue) stands in the state as its argument (Machine/State.lean, EvArg). -/

namespace Sys2Proof

/-- Station kinds that hold rule words (R128, Table 5.14). -/
inductive Kind
  | m | c | s | sd | ss
  deriving DecidableEq, Repr

/-- The read-only specials (Table 5.5). -/
inductive Special
  | zero | one | lane | sx | sy | ctx | slk | clk | wave | tstamp | seed | stoplvl
  deriving DecidableEq, Repr

/-- A register operand (Table 5.4). -/
inductive Opd
  | d (n : Fin 8) | v (n : Fin 8) | c (n : Fin 8) | o (n : Fin 8) | h (n : Fin 16)
  | t (n : Fin 4) | a (n : Fin 2) | g (n : Fin 2) | z (n : Fin 16) | sp (s : Special)
  deriving DecidableEq, Repr

/-- Guards (Table 5.7). -/
inductive Guard
  | always | pset (n : Fin 8) | pclr (n : Fin 8) | chan (n : Fin 8) | chanStop (n : Fin 8)
  | fill (n : Fin 16) | free (n : Fin 16) | init
  deriving DecidableEq, Repr

/-- What every rule word carries: its guard and the slack SL of the tokens it emits (Table 5.1). -/
structure Hdr where
  guard : Guard
  sl    : BitVec 6
  deriving DecidableEq, Repr

/-- A B operand that may be the immediate IMM19 (R115). -/
inductive BOp
  | reg (r : Opd) | imm (i : BitVec 19)
  deriving DecidableEq, Repr

/-- A B operand that may be the AUX byte (R116). -/
inductive NOp
  | reg (r : Opd) | aux (i : BitVec 8)
  deriving DecidableEq, Repr

/-- Rounding modes (Table 4.4). -/
inductive RM
  | rne | rz | ru | rd | sr
  deriving DecidableEq, Repr

/-- Overflow policies (Table 4.4). -/
inductive OV
  | sat | inf | nan
  deriving DecidableEq, Repr

/-- Handle field codes (Table 7.8). -/
inductive HField
  | base | size | pcnt | ccnt | dcnt | flags
  deriving DecidableEq, Repr

/-- Scopes (Table 5.8). -/
inductive Scope
  | lane | station | quad | die | pkg | pod
  deriving DecidableEq, Repr

/-- Scale source of an accumulator operand (Table 15.1). -/
inductive ScaleSrc
  | tile | g0 | g1
  deriving DecidableEq, Repr

/-! ### Operand shapes of the rule words -/

/-- `D, A, B` of the scalar class (R171). -/
structure RBin where
  hdr : Hdr
  d : Opd
  a : Opd
  b : BOp
  deriving DecidableEq, Repr

/-- `D, A` (R172). -/
structure RUn where
  hdr : Hdr
  d : Opd
  a : Opd
  deriving DecidableEq, Repr

/-- `D, A, pos, len` (R172); `len` is held as len - 1. -/
structure RField where
  hdr : Hdr
  d : Opd
  a : Opd
  pos : BitVec 6
  len1 : BitVec 6
  deriving DecidableEq, Repr

/-- `pN, A, B` (R174). -/
structure RCmp where
  hdr : Hdr
  n : Fin 8
  a : Opd
  b : BOp
  deriving DecidableEq, Repr

/-- `pN, pA, pB` (R174). -/
structure PBin where
  hdr : Hdr
  n : Fin 8
  a : Fin 8
  b : Fin 8
  deriving DecidableEq, Repr

/-- `pN, pA` (R174). -/
structure PUn where
  hdr : Hdr
  n : Fin 8
  a : Fin 8
  deriving DecidableEq, Repr

/-- `hN, n` (Table 7.7). -/
structure HAdv where
  hdr : Hdr
  n : Fin 16
  b : BOp
  deriving DecidableEq, Repr

/-- `D, hN` (Table 7.7). -/
structure HRead where
  hdr : Hdr
  d : Opd
  n : Fin 16
  deriving DecidableEq, Repr

/-- A system instruction with one B operand (Table 7.7). -/
structure SysB where
  hdr : Hdr
  b : BOp
  deriving DecidableEq, Repr

/-- A vector instruction with two sources, a format, a rounding mode and an overflow policy (Table 8.2). -/
structure VBin where
  hdr : Hdr
  fmt : Tag
  rm : RM
  ov : OV
  d : Opd
  a : Opd
  b : Opd
  deriving DecidableEq, Repr

/-- The same with one source. -/
structure VUn where
  hdr : Hdr
  fmt : Tag
  rm : RM
  ov : OV
  d : Opd
  a : Opd
  deriving DecidableEq, Repr

/-- A lane reduction: source format s and an optional mask (R212). -/
structure VRed where
  hdr : Hdr
  fmt : Tag
  rm : RM
  ov : OV
  d : Opd
  a : Opd
  mask : Option Opd
  s : Tag
  deriving DecidableEq, Repr

/-- A conversion: source format s, part k, optional random operand, `sat` (R213). -/
structure VConv where
  hdr : Hdr
  fmt : Tag
  rm : RM
  ov : OV
  d : Opd
  a : Opd
  rand : Option Opd
  s : Tag
  k : BitVec 2
  sat : Bool
  deriving DecidableEq, Repr

/-- A vector instruction without rounding (compares, bitwise). -/
structure VCmp where
  hdr : Hdr
  fmt : Tag
  d : Opd
  a : Opd
  b : Opd
  deriving DecidableEq, Repr

/-- Integer lanes: B may be AUX, F1 is `sat` (R209). -/
structure VInt where
  hdr : Hdr
  fmt : Tag
  d : Opd
  a : Opd
  b : NOp
  sat : Bool
  deriving DecidableEq, Repr

/-- `vext`, `vins`: a lane operand (R219). -/
structure VLane where
  hdr : Hdr
  fmt : Tag
  d : Opd
  a : Opd
  n : NOp
  deriving DecidableEq, Repr

/-- `vpark` and `vunpark` (R224): unit u, first register, count - 1, first row, `m1`, `keep`. -/
structure VPark where
  hdr : Hdr
  u : BitVec 3
  cnt1 : BitVec 3
  v : Fin 8
  row : BitVec 6
  m1 : Bool
  keep : Bool
  deriving DecidableEq, Repr

/-- A step rule (R343). -/
structure MStep where
  hdr : Hdr
  acc : Fin 2
  a : Fin 4
  b : Fin 4
  keepa : Bool
  keepb : Bool
  deriving DecidableEq, Repr

/-- What every memory rule carries (Table 5.3). -/
structure MHdr where
  hdr : Hdr
  mf : BitVec 4
  pred : BitVec 7
  own : BitVec 7
  succ : BitVec 7
  deriving DecidableEq, Repr

/-- The load shape (Table 11.1). -/
structure MLoad where
  m : MHdr
  d : Opd
  h : Fin 16
  a : Opd
  deriving DecidableEq, Repr

/-- The store shape (Table 11.1). -/
structure MStore where
  m : MHdr
  h : Fin 16
  a : Opd
  s : Opd
  deriving DecidableEq, Repr

/-- The request shape with a literal operation (`updw`, `red`). -/
structure MUpd where
  m : MHdr
  op : BitVec 6
  h : Fin 16
  r : Opd
  deriving DecidableEq, Repr

/-- The copy shape (`cpy`, `cpyw`). -/
structure MCopy where
  m : MHdr
  dst : Fin 16
  src : Fin 16
  q : Opd
  deriving DecidableEq, Repr

/-- The line shape with a count (`pref`, `disc`); the count is held as n - 1. -/
structure MLine where
  m : MHdr
  n1 : BitVec 6
  h : Fin 16
  a : Opd
  deriving DecidableEq, Repr

/-- `bar`, `bars`: the phase handle is used by `bars` only (Table 11.8). -/
structure SBar where
  hdr : Hdr
  scope : Scope
  id : BitVec 6
  n : BOp
  h : Fin 16
  deriving DecidableEq, Repr

/-- A sounding instruction with destination, query register and scalar sources (Table 18.3). -/
structure TOp where
  hdr : Hdr
  d : Opd
  q : Fin 4
  a : Opd
  b : Opd
  deriving DecidableEq, Repr

/-- A stochastic instruction with two z sources (Table 20.4). -/
structure ZBin where
  hdr : Hdr
  d : Fin 16
  a : Fin 16
  b : Fin 16
  deriving DecidableEq, Repr

/-- A stochastic instruction with one z source. -/
structure ZUn where
  hdr : Hdr
  d : Fin 16
  a : Fin 16
  deriving DecidableEq, Repr

/-- A node word of a pattern's node list or of an edge list (R120, Tables 11.7 and 15.6).
`pass` words live in route extension words (R351). -/
inductive NodeWord
  | ctn (i o : Fin 8) (ifmt ofmt : Tag) (rm : RM) (ov : OV)
  | nrm (i o : Fin 8)
  | agl (dim : BitVec 4) (nm1 : BitVec 32)
  | agb (part : Bool) (va : BitVec 28)
  | ags (dim : BitVec 4) (stride : BitVec 45)
  | agx (cw : Bool) (op : BitVec 3) (ndm1 : BitVec 4) (wide : Bool) (hidx : Fin 16) (ch : Fin 8)
      (sl dy dx : BitVec 6)
  | prime (c : Fin 8) (tag : BitVec 3) (stop : BitVec 2) (imm : BitVec 20) (sl : BitVec 6)
  deriving DecidableEq, Repr

/-- The rule words and events of the opcode table, in its order. -/
inductive Instr
  | add (r : RBin) | sub (r : RBin) | mul (r : RBin) | mulh (r : RBin) | mulhn (r : RBin)
  | div (r : RBin) | divn (r : RBin) | rem (r : RBin) | remn (r : RBin)
  | min (r : RBin) | max (r : RBin) | minn (r : RBin) | maxn (r : RBin)
  | and (r : RBin) | or (r : RBin) | xor (r : RBin) | andn (r : RBin) | orn (r : RBin)
  | shl (r : RBin) | shr (r : RBin) | sra (r : RBin) | rol (r : RBin)
  | clz (r : RUn) | ctz (r : RUn) | popc (r : RUn)
  | sel (r : RBin) (p : Fin 8)
  | mov (r : RUn)
  | movi (hdr : Hdr) (d : Opd) (imm : BitVec 19)
  | movhi (r : RUn) (imm : BitVec 19)
  | ext (r : RField) | extn (r : RField) | ins (r : RField)
  | ceq (r : RCmp) | cne (r : RCmp) | clt (r : RCmp) | cle (r : RCmp) | cltn (r : RCmp) | clen (r : RCmp)
  | cbit (r : RCmp) | ctst (r : RCmp)
  | pand (r : PBin) | por (r : PBin) | pxor (r : PBin) | pandn (r : PBin)
  | pnot (r : PUn) | pmov (r : PUn)
  | pset (hdr : Hdr) (n : Fin 8) | pclr (hdr : Hdr) (n : Fin 8)
  | send (hdr : Hdr) (o : Fin 8) (src : Opd) (addend : BitVec 20) (tag : BitVec 3)
  | dup (hdr : Hdr) (mask : BitVec 8) (src : Opd) (tag : BitVec 3)
  | steer (hdr : Hdr) (mask : BitVec 8) (src sel : Opd) (tag : BitVec 3)
  | merge (hdr : Hdr) (o a b n : Fin 8) (tag : BitVec 3)
  | gate (hdr : Hdr) (o : Fin 8) (src ctl : Opd) (tag : BitVec 3)
  | drop (hdr : Hdr) (src : Opd)
  | stop (hdr : Hdr) (o : Fin 8) (level : BitVec 2) (tag : BitVec 3)
  | retag (hdr : Hdr) (n : Fin 8) (v : BitVec 4)
  | repeat (hdr : Hdr) (o c : Fin 8) (n : Option Opd) (imm : BitVec 20) (tag : BitVec 3)
  | count (hdr : Hdr) (o c : Fin 8) (tag : BitVec 3)
  | isect (hdr : Hdr) (o a b : Fin 8) (tag : BitVec 3)
  | split (hdr : Hdr) (o : Fin 8) (src : Opd) (tag : BitVec 3)
  | advp (r : HAdv) | advc (r : HAdv)
  | hfill (r : HRead) | hfree (r : HRead)
  | hset (r : HAdv) (f : HField)
  | hget (r : HRead) (f : HField)
  | pub (hdr : Hdr) (n : Fin 16)
  | nop (hdr : Hdr)
  | trap (r : SysB) | halt (r : SysB) | brk (r : SysB)
  | yield (hdr : Hdr) (n : BitVec 10)
  | slk (r : SysB)
  | rdslk (hdr : Hdr) (d : Opd) (c : Fin 8)
  | rdtime (hdr : Hdr) (d : Opd)
  | ckpt (hdr : Hdr) (d : Opd)
  | vadd (r : VBin) | vsub (r : VBin) | vmul (r : VBin) | vfma (r : VBin) | vfms (r : VBin) | vnfma (r : VBin)
  | vmax (r : VBin) | vmin (r : VBin)
  | vabs (r : VUn) | vneg (r : VUn) | vrcp (r : VUn) | vrsq (r : VUn) | vexp2 (r : VUn) | vlog2 (r : VUn)
  | vsqrt (r : VUn)
  | vdot (r : VBin) (s : Tag)
  | vsum (r : VRed) | vrmax (r : VRed) | vrmin (r : VRed)
  | vcvt (r : VConv) | vqnt (r : VConv) | vdqt (r : VConv)
  | vrot (r : VBin) (split : Bool)
  | vsscl (hdr : Hdr) (d a : Opd) (n : NOp)
  | vgscl (r : RUn)
  | vtag (hdr : Hdr) (fmt : Tag) (d a : Opd)
  | vmov (r : RUn)
  | vbcst (hdr : Hdr) (fmt : Tag) (d a : Opd) (lane : Option NOp)
  | vshuf (r : VBin)
  | vext (r : VLane) | vins (r : VLane)
  | vceq (r : VCmp) | vclt (r : VCmp) | vcle (r : VCmp)
  | vsel (r : VBin)
  | viadd (r : VInt) | visub (r : VInt) | vimul (r : VInt)
  | vishl (r : VInt) | vishr (r : VInt) | vand (r : VInt) | vor (r : VInt) | vxor (r : VInt)
  | xadd (hdr : Hdr) (d a b : Opd)
  | xcvt (r : VLane)
  | vclr (hdr : Hdr) (fmt : Tag) (d : Opd)
  | vpark (r : VPark) | vunpark (r : VPark)
  | mcfg (hdr : Hdr) (acc : Fin 2) (o : Fin 8) (c : Option (Fin 8)) (sa sb : ScaleSrc) (kt : BitVec 16)
  | tfill (hdr : Hdr) (t : Fin 4) (c : Option (Fin 8)) (fmt : Tag)
  | tmark (hdr : Hdr) (t : Fin 4) (full : Bool)
  | tdrain (hdr : Hdr) (acc : Fin 2)
  | mma (r : MStep) | mmat (r : MStep)
  | mclr (hdr : Hdr) (acc : Fin 2)
  | mnorm (hdr : Hdr) (acc : Fin 2) (e : Option (BitVec 10))
  | mexp (hdr : Hdr) (acc : Fin 2) (e : BitVec 10)
  | mscap (hdr : Hdr) (g : Fin 2) (src : Opd) (row : BitVec 6) (all : Bool)
  | mpstat (hdr : Hdr) (o : Fin 8)
  | mrow (hdr : Hdr) (o : Fin 8) (u : Opd) (row : BitVec 6) (part : BitVec 3)
  | ld (r : MLoad) | ldv (r : MLoad)
  | st (r : MStore) | stv (r : MStore)
  | ldt (r : MLoad) | lds (r : MLoad)
  | stw (r : MStore)
  | updw (r : MUpd)
  | reclaim (m : MHdr) (h : Fin 16) (a : Opd)
  | settle (m : MHdr) (h : Fin 16)
  | atom (r : MLoad)
  | red (r : MUpd)
  | mcst (r : MLoad)
  | cpy (r : MCopy) | cpyw (r : MCopy)
  | pref (r : MLine) | disc (r : MLine)
  | mnop (m : MHdr) (h : Fin 16)
  | xlat (r : MLoad)
  | fence (m : MHdr) (s : Scope) | acq (m : MHdr) (s : Scope) | rel (m : MHdr) (s : Scope)
  | ldk (r : MLoad)
  | stk (r : MStore)
  | xred (r : MStore)
  | bar (r : SBar)
  | barw (hdr : Hdr) (d : Opd) (s : Scope) (id : BitVec 6)
  | bard (hdr : Hdr) (s : Scope) (id : BitVec 6)
  | bars (r : SBar)
  | monw (hdr : Hdr) (d : Opd) (h : Fin 16) (a : Opd)
  | monc (hdr : Hdr) (d : Fin 8) (h : Fin 16) (a : Opd)
  | tspawn (hdr : Hdr) (n : BitVec 6) (ts args : Opd)
  | tdone (hdr : Hdr)
  | tins (r : TOp) | tseal (r : TOp) | tdrop (r : TOp)
  | tforkPages (hdr : Hdr) (d : Opd) (hd hs : Fin 16) (n : Opd)
  | tforkTree (hdr : Hdr) (d : Opd) (hd he : Fin 16) (n : Opd) (q : Fin 4)
  | twalk (hdr : Hdr) (d : Opd) (q : Fin 4) (v : Fin 8) (screen : Bool)
  | tres (hdr : Hdr) (d : Opd) (q : Fin 4) (p : BitVec 3)
  | tsum (hdr : Hdr) (d : Opd) (q : Fin 4) (delta : Bool)
  | tstat (hdr : Hdr) (d : Opd) (q : Fin 4) (w : BitVec 2)
  | tpar (hdr : Hdr) (q : Fin 4) (a : Opd) (hn ht : Fin 16) (head : BitVec 4)
  | tscr (hdr : Hdr) (q : Fin 4) (a : Opd)
  | tchkQuery (hdr : Hdr) (d : Opd) (q : Fin 4)
  | tchkAbort (hdr : Hdr) (d : Opd) (q : Fin 4)
  | sgen (hdr : Hdr) (d : Fin 16) (src : Opd) (g : BitVec 4) (n1 : BitVec 4) (bipolar : Bool)
  | sand (r : ZBin) | sxnor (r : ZBin) | sor (r : ZBin)
  | smux (r : ZBin) (sel : Fin 16)
  | snot (r : ZUn)
  | smin (r : ZBin) | smax (r : ZBin)
  | scnt (hdr : Hdr) (o : Fin 8) (a : Fin 16) (n1 : BitVec 4)
  | sregen (r : ZUn) (g : BitVec 4)
  | sdly (r : ZUn) (k : BitVec 12) (g : BitVec 4)
  | slen (hdr : Hdr) (code : BitVec 2)
  | scls (r : ZUn) (mask : BitVec 16)
  | sout (hdr : Hdr) (o : Fin 8) (a : Fin 16)
  | sin (hdr : Hdr) (d : Fin 16) (c : Fin 8)
  | stationCycle | resultLands | yieldExpiry | sinPart | soutPart | linkHop | busDeliver | dieLinkTransfer
  | flowForward | tokenOverdue | backgroundPromote | faultTokenRequeue | regionRetire | qwridxWrite | queueReenable
  | noOpPacket | voyageLaunchPacket | dependencyWaitPacket | malformedPacket | dependencyRecheck | acqPacketRelease
  | placement | launchStarveBlock | agxWalkElement | memoryRequestIssue | portRelease | homePerform | historyOverflow
  | memoryReplyLands | rehashBounce | windowAccess | mirrorRead | markPropagate | settledLoadRelease | monitorComplete
  | copyWrite | copyComplete | firstTouch | copyOnWrite | decompress | poolBorrow | pageCompress | slabCompaction
  | timeLimitExpiry | barrierEntryUpdate | taskDispatch | taskCommit | taskAbort | treeOpComplete | treeLockRetry
  | tileFillAccept | matrixStepComplete | accDrainToken | carryInToken | normaliserToken | cornerTurnToken
  | quietDeadlock | deadlockHalt | regionHalt | drain | snapshot | imageSaveDone | resumePlace | dieLinkDown
  | sliceRetire | dieFailure | rowHammerRefresh | remapSwap | unitReady | deviceReset | fwFetchTimeout | startTimeout
  | ownclaim | claimWindowEnd | ownhand | ownerLapse | devctlReset | devctlClrfail | sbqueryWrite | pwrlimWrite
  | registerWrite | apertureAccess | powerRedivide | loadFw | attest | setRoot | setSavebase | release | frames
  | resume | discard | bindPeer | mailboxUnknown | flitIdle | flitToken | flitRequest | flitReply | flitNack | flitJoin
  | flitBoot | retransmitTimeout | traverseLinkDown | flitCrcFail | pilotCoreFault
  deriving DecidableEq, Repr

end Sys2Proof
end

