-- ==== Sys2Proof/Machine/Num.lean ====
section
/-! DEFINITION. Exact values, rounding and format conversion, block scales, packed blocks, x320 and the lane tree (chapter 04). -/

namespace Sys2Proof

/-! ### Exact values -/

/-- What a positive real is before scaling: `p/q`, `√(p/q)`, `2^(n/2^s)` or `log2 (p/q)` with `p > q`. -/
inductive MagCore
  | rat (p q : Nat)
  | sqrt (p q : Nat)
  | exp2 (n : Int) (s : Nat)
  | log2 (p q : Nat)
  deriving DecidableEq, Repr

/-- A nonnegative real: a core times a power of two. -/
structure Mag where
  core : MagCore
  sc   : Int
  deriving DecidableEq, Repr

/-- An exact source or result value (R98): a signed real (with the sign of zero), an infinity or NaN. -/
inductive Num
  | nan
  | inf (neg : Bool)
  | fin (neg : Bool) (m : Mag)
  deriving DecidableEq, Repr

/-- `p * 2^e`. -/
def Mag.dy (p : Nat) (e : Int) : Mag := ⟨.rat p 1, e⟩

def Mag.isZero (m : Mag) : Bool :=
  match m.core with
  | .rat p _ => p == 0
  | _ => false

/-- `n * 2^e` as a natural number, rounded down. -/
def scaleFloor (n : Nat) (e : Int) : Nat := if 0 ≤ e then n <<< e.toNat else n >>> (-e).toNat

/-- `floor (n * 2^e)` for a signed `n`. -/
def scaleFloorI (n : Int) (e : Int) : Int := if 0 ≤ e then n * (2 ^ e.toNat : Nat) else n >>> (-e).toNat

/-- `floor (p/q * 2^e)` and whether it is inexact. -/
def ratFloor (p q : Nat) (e : Int) : Nat × Bool :=
  let n := if 0 ≤ e then p <<< e.toNat else p
  let d := if 0 ≤ e then q else q <<< (-e).toNat
  (n / d, n % d != 0)

/-- `floor (log2 (p/q))` for positive `p` and `q`. -/
def ratLog2 (p q : Nat) : Int :=
  let l : Int := (p.log2 : Int) - (q.log2 : Int)
  if (if 0 ≤ l then decide (q <<< l.toNat ≤ p) else decide (q ≤ p <<< (-l).toNat)) then l else l - 1

/-- Newton steps toward the integer square root from above. -/
def isqrtLoop (n : Nat) : Nat → Nat → Nat
  | 0, x => x
  | k + 1, x =>
    let y := (x + n / x) / 2
    if y < x then isqrtLoop n k y else x

/-- Integer square root. -/
def isqrt (n : Nat) : Nat := if n = 0 then 0 else isqrtLoop n (n.log2 + 4) (2 ^ (n.log2 / 2 + 1))

/-- The bits of precision of the transcendental approximations. -/
def approxBits : Nat := 256

/-- `ln 2` in units of 2^-approxBits, from below: sum of 1 / (i * 2^i). -/
def ln2Sum : Nat → Nat → Nat
  | 0, _ => 0
  | k + 1, i => (2 ^ approxBits >>> i) / i + ln2Sum k (i + 1)

def ln2Fix : Nat := ln2Sum approxBits 1

/-- The terms of exp t, t in units of 2^-approxBits: the sum of t^i / i!. -/
def expSum (t : Nat) : Nat → Nat → Nat → Nat
  | 0, _, _ => 0
  | k + 1, i, term => term + expSum t k (i + 1) (((term * t) >>> approxBits) / (i + 1))

/-- `2^(f / 2^s)` for 0 ≤ f < 2^s, in units of 2^-approxBits, within 2^16 units. -/
def exp2Fix (f s : Nat) : Nat := expSum ((f * ln2Fix) >>> s) 80 0 (2 ^ approxBits)

/-- The terms of atanh z: the sum of z^(2i+1) / (2i+1), `zz` the square of z. -/
def atanhSum (zz : Nat) : Nat → Nat → Nat → Nat
  | 0, _, _ => 0
  | k + 1, i, term => term / i + atanhSum zz k (i + 2) ((term * zz) >>> approxBits)

/-- `log2 (p/q)` for p > q, in units of 2^-approxBits, within 2^16 units. -/
def log2Fix (p q : Nat) : Nat :=
  let e := (ratLog2 p q).toNat
  let q' := q <<< e
  let z := ((p - q') <<< approxBits) / (p + q')
  let ln := 2 * atanhSum ((z * z) >>> approxBits) 100 1 z
  (e <<< approxBits) + (ln <<< approxBits) / ln2Fix

/-- The error bound of the approximations, in units of 2^-approxBits. -/
def approxErr : Nat := 2 ^ 16

/-- `floor (m / 2^k)` and whether it is inexact.
The transcendental cores are irrational here, and `approxBits` leaves the floor no doubt for the grids of R98. -/
def Mag.floorAt (m : Mag) (k : Int) : Nat × Bool :=
  let j := m.sc - k
  match m.core with
  | .rat p q => ratFloor p q j
  | .sqrt p q =>
    let (n, r) := ratFloor p q (2 * j)
    let x := isqrt n
    (x, r || x * x != n)
  | .exp2 n s =>
    let i := n >>> s
    let f := (n - i * (2 ^ s : Nat)).toNat
    if f = 0 then ratFloor 1 1 (j + i)
    else (scaleFloor (exp2Fix f s - approxErr) (j + i - approxBits), true)
  | .log2 p q => (scaleFloor (log2Fix p q - approxErr) (j - approxBits), true)

/-- `floor (log2 m)` of a positive magnitude. -/
def Mag.log2 (m : Mag) : Int :=
  m.sc + match m.core with
    | .rat p q => ratLog2 p q
    | .sqrt p q => ratLog2 p q / 2
    | .exp2 n s => n >>> s
    | .log2 p q => ((log2Fix p q - approxErr).log2 : Int) - approxBits

/-- `x * 2^j`. -/
def Num.scale (x : Num) (j : Int) : Num :=
  match x with
  | .fin s m => .fin s { m with sc := m.sc + j }
  | x => x

/-- A signed dyadic: `n * 2^e`; zero takes the sign given. -/
def Num.ofDy (n : Int) (e : Int) (zneg : Bool) : Num := .fin (if n = 0 then zneg else n < 0) (Mag.dy n.natAbs e)

def Num.zero (neg : Bool) : Num := .fin neg (Mag.dy 0 0)
def Num.ofInt (n : Int) : Num := Num.ofDy n 0 false

/-- The dyadic that a finite value with a rational core is (every decoded lane is one). -/
def Mag.toDy (m : Mag) : Nat × Int :=
  match m.core with
  | .rat p _ => (p, m.sc)
  | _ => (0, 0)

/-- Signed numerator and exponent of a finite value. -/
def sdy (neg : Bool) (m : Mag) : Int × Int :=
  let (p, e) := m.toDy
  (if neg then -(p : Int) else p, e)

/-- The exact sum of two dyadics over the lesser exponent. -/
def dyAdd (a b : Int × Int) : Int × Int :=
  let e := min a.2 b.2
  (a.1 * (2 ^ (a.2 - e).toNat : Nat) + b.1 * (2 ^ (b.2 - e).toNat : Nat), e)

def dyMul (a b : Int × Int) : Int × Int := (a.1 * b.1, a.2 + b.2)

/-- `a < b` for dyadics. -/
def dyLt (a b : Int × Int) : Bool :=
  let e := min a.2 b.2
  decide (a.1 * (2 ^ (a.2 - e).toNat : Nat) < b.1 * (2 ^ (b.2 - e).toNat : Nat))

def Num.neg : Num → Num
  | .nan => .nan
  | .inf s => .inf (!s)
  | .fin s m => .fin (!s) m

def Num.abs : Num → Num
  | .nan => .nan
  | .inf _ => .inf false
  | .fin _ m => .fin false m

def Num.isNaN : Num → Bool | .nan => true | _ => false
def Num.isNeg : Num → Bool | .inf s => s | .fin s _ => s | .nan => false
/-- Zero of either sign. -/
def Num.isZero : Num → Bool | .fin _ m => m.isZero | _ => false

/-- Exact sum with the signs of zero of R111 and the special results of Table 8.5.
`rd` says that the rounding is toward -∞. -/
def Num.add (rd : Bool) (x y : Num) : Num :=
  match x, y with
  | .nan, _ => .nan
  | _, .nan => .nan
  | .inf a, .inf b => if a = b then .inf a else .nan
  | .inf a, .fin _ _ => .inf a
  | .fin _ _, .inf b => .inf b
  | .fin a m, .fin b n =>
    let r := dyAdd (sdy a m) (sdy b n)
    Num.ofDy r.1 r.2 (if m.isZero && n.isZero then a && b else rd)

/-- Exact product; a zero product takes the exclusive or of the signs. -/
def Num.mul (x y : Num) : Num :=
  match x, y with
  | .nan, _ => .nan
  | _, .nan => .nan
  | .inf a, .inf b => .inf (a != b)
  | .inf a, .fin b m => if m.isZero then .nan else .inf (a != b)
  | .fin a m, .inf b => if m.isZero then .nan else .inf (a != b)
  | .fin a m, .fin b n => .fin (a != b) (Mag.dy (m.toDy.1 * n.toDy.1) (m.toDy.2 + n.toDy.2))

/-- `x < y`; false with NaN; zeros compare equal (R210). -/
def Num.lt (x y : Num) : Bool :=
  match x, y with
  | .nan, _ => false
  | _, .nan => false
  | .inf a, .inf b => a && !b
  | .inf a, .fin _ _ => a
  | .fin _ _, .inf b => !b
  | .fin a m, .fin b n => dyLt (sdy a m) (sdy b n)

/-- Equality of values (R210). -/
def Num.eq (x y : Num) : Bool := !x.isNaN && !y.isNaN && !x.lt y && !y.lt x

/-- The greater value: NaN if either is NaN, +0 above -0 (Table 8.5). -/
def Num.max (x y : Num) : Num :=
  if x.isNaN || y.isNaN then .nan
  else if x.lt y then y
  else if y.lt x then x
  else if x.isNeg then y else x

/-- The lesser value: NaN if either is NaN, -0 below +0. -/
def Num.min (x y : Num) : Num :=
  if x.isNaN || y.isNaN then .nan
  else if x.lt y then x
  else if y.lt x then y
  else if x.isNeg then x else y

/-- `1 / a` (Table 8.5). -/
def Num.rcp : Num → Num
  | .nan => .nan
  | .inf s => .zero s
  | .fin s m => if m.isZero then .inf s else .fin s ⟨.rat 1 m.toDy.1, -m.toDy.2⟩

/-- The magnitude of √(p 2^e), and of its reciprocal: the odd bit of the exponent goes under the root. -/
def sqrtMag (p q : Nat) (e : Int) : Mag :=
  if e % 2 = 0 then ⟨.sqrt p q, e / 2⟩ else ⟨.sqrt (2 * p) q, (e - 1) / 2⟩

/-- `√a` (Table 8.5). -/
def Num.sqrt : Num → Num
  | .nan => .nan
  | .inf s => if s then .nan else .inf false
  | .fin s m => if m.isZero then .zero s else if s then .nan else .fin false (sqrtMag m.toDy.1 1 m.toDy.2)

/-- `1 / √a` (Table 8.5). -/
def Num.rsq : Num → Num
  | .nan => .nan
  | .inf s => if s then .nan else .zero false
  | .fin s m =>
    if m.isZero then .inf s else if s then .nan else .fin false (sqrtMag 1 m.toDy.1 (-m.toDy.2))

/-- `2^a`: beyond 2^20 the value lies outside every grid and the clamp keeps its rounding. -/
def Num.exp2 : Num → Num
  | .nan => .nan
  | .inf s => if s then .zero false else .inf false
  | .fin s m =>
    let (n, e) := sdy s m
    if dyLt (2 ^ 20, 0) (n, e) then .fin false ⟨.exp2 (2 ^ 20) 0, 0⟩
    else if dyLt (n, e) (-(2 ^ 20), 0) then .fin false ⟨.exp2 (-(2 ^ 20)) 0, 0⟩
    else if 0 ≤ e then .fin false ⟨.exp2 (n * (2 ^ e.toNat : Nat)) 0, 0⟩
    else .fin false ⟨.exp2 n (-e).toNat, 0⟩

/-- `log2 a` (Table 8.5); exact at the powers of two. -/
def Num.log2 : Num → Num
  | .nan => .nan
  | .inf s => if s then .nan else .inf false
  | .fin s m =>
    if m.isZero then .inf true
    else if s then .nan
    else
      let (p, e) := m.toDy
      if p = 2 ^ p.log2 then Num.ofInt (p.log2 + e)
      else
        let (n, d) := if 0 ≤ e then (p <<< e.toNat, 1) else (p, 1 <<< (-e).toNat)
        if d < n then .fin false ⟨.log2 n d, 0⟩ else .fin true ⟨.log2 d n, 0⟩

/-! ### Floating formats -/

/-- The parameters of a rounded format: precision, bias, greatest finite magnitude code, sign bit (none: unsigned), Inf and NaN codes,
and whether it has a negative zero. -/
structure FloatFmt where
  prec    : Nat
  bias    : Int
  maxCode : Nat
  sign    : Option Nat
  inf     : Option Nat
  nan     : Option Nat
  negZero : Bool
  deriving DecidableEq, Repr

/-- binary8 (R92, Table 4.2). -/
def b8Fmt (t : Tag) : FloatFmt :=
  { prec := t.prec, bias := (2 ^ (7 - t.prec) : Nat),
    maxCode := if t.isUns then (if t.isExt then 0xFD else 0xFE) else (if t.isExt then 0x7E else 0x7F),
    sign := if t.isUns then none else some 7,
    inf := if t.isExt then some (if t.isUns then 0xFE else 0x7F) else none,
    nan := some (if t.isUns then 0xFF else 0x80), negZero := false }

def f16Fmt : FloatFmt := ⟨11, 15, 0x7BFF, some 15, some 0x7C00, some 0x7E00, true⟩
def bf16Fmt : FloatFmt := ⟨8, 127, 0x7F7F, some 15, some 0x7F80, some 0x7FC0, true⟩
def f32Fmt : FloatFmt := ⟨24, 127, 0x7F7FFFFF, some 31, some 0x7F800000, some 0x7FC00000, true⟩
/-- The elements of k4 and k6 blocks (R103). -/
def k4Fmt : FloatFmt := ⟨2, 1, 0x7, some 3, none, none, false⟩
def k6Fmt : FloatFmt := ⟨4, 1, 0x1F, some 5, none, none, false⟩

/-- The format of a tag with floating elements. -/
def Tag.float (t : Tag) : FloatFmt :=
  match t.toNat with
  | 32 => f16Fmt | 33 => bf16Fmt | 34 => f32Fmt | 45 => k4Fmt | 46 => k6Fmt
  | _ => b8Fmt t

/-- The exponent of the least grid spacing (R98). -/
def FloatFmt.gmin (f : FloatFmt) : Int := 2 - f.bias - f.prec

/-- The value of a magnitude code (R93): subnormals at exponent 0. -/
def FloatFmt.magOf (f : FloatFmt) (c : Nat) : Mag :=
  let e := c >>> (f.prec - 1)
  let t := c % 2 ^ (f.prec - 1)
  if e = 0 then Mag.dy t f.gmin else Mag.dy (2 ^ (f.prec - 1) + t) (e - 1 + f.gmin)

/-- floor (log2 max): the top binade T (R94). -/
def FloatFmt.top (f : FloatFmt) : Int := (f.magOf f.maxCode).log2

/-- The magnitude code of `n * 2^k`, its exponent range unbounded above. -/
def FloatFmt.codeOf (f : FloatFmt) (n : Nat) (k : Int) : Nat :=
  if n < 2 ^ (f.prec - 1) then n
  else if n = 2 ^ f.prec then ((k + 1 - f.gmin + 1).toNat <<< (f.prec - 1))
  else ((k - f.gmin + 1).toNat <<< (f.prec - 1)) + (n - 2 ^ (f.prec - 1))

/-- Round `m / 2^k` to an integer under a rounding mode (R98); `u` is the random operand of `sr`. -/
def roundMag (neg : Bool) (m : Mag) (k : Int) (rm : RM) (u : Nat) : Nat :=
  let (q, inexact) := m.floorAt k
  match rm with
  | .rne =>
    let (h, st) := m.floorAt (k - 1)
    if h % 2 = 1 && (st || q % 2 = 1) then q + 1 else q
  | .rz => q
  | .ru => if inexact && !neg then q + 1 else q
  | .rd => if inexact && neg then q + 1 else q
  | .sr => if 2 ^ 16 ≤ (m.floorAt (k - 16)).1 % 2 ^ 16 + u then q + 1 else q

/-- The code with its sign. -/
def FloatFmt.signed (f : FloatFmt) (neg : Bool) (c : Nat) : Nat :=
  match f.sign with
  | some b => if neg then c + 2 ^ b else c
  | none => c

/-- NaN's code; a format without one (k4, k6) has 0 there and its block becomes NaN (R101). -/
def FloatFmt.nanCode (f : FloatFmt) : Nat := f.nan.getD 0

/-- `±max`. -/
def FloatFmt.maxSigned (f : FloatFmt) (neg : Bool) : Nat := f.signed neg f.maxCode

/-- Conversion of an exact value into a floating format (R98, R99, Table 4.5), and whether the result is NaN. -/
def convertF (x : Num) (f : FloatFmt) (rm : RM) (ov : OV) (u : Nat) : Nat × Bool :=
  let nan := (f.nanCode, true)
  match x with
  | .nan => nan
  | .inf neg =>
    if neg && f.sign.isNone then (if ov = .nan then nan else (0, false))
    else match f.inf with
      | some c => (f.signed neg c, false)
      | none => if ov = .nan then nan else (f.maxSigned neg, false)
  | .fin neg m =>
    if m.isZero then (if f.negZero then f.signed neg 0 else 0, false)
    else if neg && f.sign.isNone then (if ov = .nan then nan else (0, false))
    else
      let k := max (m.log2 - f.prec + 1) f.gmin
      let c := f.codeOf (roundMag neg m k rm u) k
      if c = 0 then (if f.negZero then f.signed neg 0 else 0, false)
      else if f.maxCode < c then
        match ov with
        | .nan => nan
        | .sat => (f.maxSigned neg, false)
        | .inf =>
          match f.inf with
          | none => (f.maxSigned neg, false)
          | some i =>
            if rm = .rz || (rm = .rd && !neg) || (rm = .ru && neg) then (f.maxSigned neg, false)
            else (f.signed neg i, false)
      else (f.signed neg c, false)

/-- The range of an integer format (R96). -/
def Tag.intMin (t : Tag) : Int := if t.isSigned then -(2 ^ (t.width - 1) : Nat) else 0
def Tag.intMax (t : Tag) : Int := if t.isSigned then (2 ^ (t.width - 1) : Nat) - 1 else (2 ^ t.width : Nat) - 1

/-- Clamp to the range of an integer format. -/
def Tag.clamp (t : Tag) (n : Int) : Int := max t.intMin (min t.intMax n)

/-- The code of an integer: its low bits. -/
def Tag.intCode (t : Tag) (n : Int) : Nat := (n % (2 ^ t.width : Nat)).toNat

/-- Conversion into an integer format (Table 4.5, last column). -/
def convertI (x : Num) (t : Tag) (rm : RM) (u : Nat) : Nat :=
  match x with
  | .nan => 0
  | .inf neg => t.intCode (if neg then t.intMin else t.intMax)
  | .fin neg m =>
    if neg && !t.isSigned then 0
    else
      let n : Int := roundMag neg m 0 rm u
      t.intCode (t.clamp (if neg then -n else n))

/-- Conversion of an exact value into the code of a format (R98, R99). -/
def convert (x : Num) (t : Tag) (rm : RM) (ov : OV) (u : Nat) : Nat :=
  if t.isIN then convertI x t rm u else (convertF x t.float rm ov u).1

/-- The value of a floating code (R93, R95): sign, special codes, magnitude. -/
def FloatFmt.decode (f : FloatFmt) (c : Nat) : Num :=
  let neg := match f.sign with | some b => c.testBit b | none => false
  let m := match f.sign with | some b => c % 2 ^ b | none => c
  if f.negZero then
    if m = f.inf.getD 0 then .inf neg else if f.inf.getD 0 < m then .nan else .fin neg (f.magOf m)
  else if f.nan = some c then .nan
  else if f.inf = some m then .inf neg
  else if m = 0 then .zero false
  else .fin neg (f.magOf m)

/-- The integer a code of an integer format holds (R96). -/
def Tag.intVal (t : Tag) (c : Nat) : Int := if t.isSigned && c.testBit (t.width - 1) then (c : Int) - (2 ^ t.width : Nat) else c

/-- The value of a code without a block scale. -/
def Tag.decode (t : Tag) (c : Nat) : Num := if t.isIN then Num.ofInt (t.intVal c) else t.float.decode c

/-- The element of a block: the code's value times 2^(E-127); E = 0xFF makes it NaN (R100). -/
def blockVal (f : FloatFmt) (e : Nat) (c : Nat) : Num := if e = 0xFF then .nan else (f.decode c).scale ((e : Int) - 127)

/-- The amax rule (R101): a scale byte and the codes.
A format without a NaN code turns the whole block into NaN when some code would be NaN. -/
def quantBlock (xs : List Num) (f : FloatFmt) (rm : RM) (ov : OV) (us : List Nat) : Nat × List Nat :=
  if xs.any Num.isNaN then (0xFF, xs.map fun _ => 0)
  else
    let logs := xs.filterMap fun x =>
      match x with
      | .fin _ m => if m.isZero then none else some m.log2
      | _ => none
    let e : Int := match logs with
      | [] => 127
      | l :: ls => max 0 (min 254 (127 + (ls.foldl max l) - f.top))
    let codes := (xs.zip (us ++ List.replicate xs.length 0)).map fun (x, u) => convertF (x.scale (127 - e)) f rm ov u
    if f.nan.isNone && codes.any (·.2) then (0xFF, xs.map fun _ => 0)
    else (e.toNat, codes.map (·.1))

/-! ### Lanes -/

/-- Lane `i` of width `w`. -/
def laneAt (x : Nat) (w i : Nat) : Nat := (x >>> (w * i)) % 2 ^ w

/-- Lanes to bits, lane 0 lowest. -/
def packLanes (w : Nat) : List Nat → Nat
  | [] => 0
  | c :: cs => c % 2 ^ w + (packLanes w cs) <<< w

/-- The lanes of a payload. -/
def lanesOf (x : Nat) (w n : Nat) : List Nat := (List.range n).map (laneAt x w)

/-- A vector value: payload, sidecar, tag. -/
structure VReg where
  data : V512
  side : Word
  tag  : Tag
  deriving DecidableEq, Repr

/-- A register of launch: zero, tag 0, sidecar 0 (R163). -/
def VReg.zero : VReg := ⟨0, 0, 0⟩

/-- A vector outside B8 carries the unit sidecar (R91). -/
def VReg.plain (t : Tag) (x : Nat) : VReg := ⟨BitVec.ofNat 512 (if t = 44 then x % 2 ^ 352 else x), unitSide, t⟩

/-- What a register holds of a vector: bits [511:352] of an x320 read as zero (R106). -/
def VReg.held (v : VReg) : VReg := if v.tag = 44 then { v with data := (v.data.setWidth 352).setWidth 512 } else v

/-- The codes of a vector's lanes under a tag. -/
def VReg.codes (v : VReg) (t : Tag) : List Nat := lanesOf v.data.toNat t.width t.lanes

/-- val(s, i) for every lane (R203). -/
def VReg.vals (v : VReg) (t : Tag) : List Num :=
  if t.isB8 then
    (v.codes t).zipIdx.map fun (c, i) => blockVal t.float (laneAt v.side.toNat 8 (i / 8)) c
  else (v.codes t).map t.decode

/-- Cut a list into pieces of `k`. -/
def chunks (k : Nat) : Nat → List α → List (List α)
  | 0, _ => []
  | n + 1, xs => match xs with
    | [] => []
    | _ => xs.take k :: chunks k n (xs.drop k)

/-- set_lanes (R204): B8 results are quantised per block, FW results are rounded per lane. -/
def setLanes (f : Tag) (ys : List Num) (rm : RM) (ov : OV) : VReg :=
  if f.isB8 then
    let bs := (chunks 8 64 ys).map fun b => quantBlock b f.float rm ov []
    ⟨BitVec.ofNat 512 (packLanes 8 (bs.flatMap (·.2))), BitVec.ofNat 64 (packLanes 8 (bs.map (·.1))), f⟩
  else VReg.plain f (packLanes f.width (ys.map fun y => convert y f rm ov 0))

/-- set_lanes for exact integers: the low bits of each (R204). -/
def setLanesI (f : Tag) (ys : List Int) : VReg := VReg.plain f (packLanes f.width (ys.map f.intCode))

/-! ### The lane tree (R108) -/

/-- One level of the tree: an absent lane passes its neighbour on. -/
def treeLevel (op : α → α → α) : List (Option α) → List (Option α)
  | some a :: some b :: r => some (op a b) :: treeLevel op r
  | some a :: none :: r => some a :: treeLevel op r
  | none :: b :: r => b :: treeLevel op r
  | [a] => [a]
  | [] => []

/-- The tree over at most 2^k lanes; none when no lane is present. -/
def treeReduce (op : α → α → α) : Nat → List (Option α) → Option α
  | 0, xs => xs.headD none
  | k + 1, xs => treeReduce op k (treeLevel op xs)

/-! ### Packed blocks (R102-R105) -/

/-- Bits of an element and bytes of a block: k4 or k6. -/
def Tag.packBits (t : Tag) : Nat := if t.toNat = 46 then 6 else 4
def Tag.blockBytes (t : Tag) : Nat := if t.toNat = 46 then 7 else 5

/-- `ldk`: 8 blocks expanded into b8p4 with their scales (R104, R270). -/
def expandBlocks (t : Tag) (bytes : Nat) : VReg :=
  let bl := (List.range 8).map fun j =>
    let b := laneAt bytes (8 * t.blockBytes) j
    let e := b % 256
    (e, (List.range 8).map fun i =>
      if e = 0xFF then 0x80 else (convertF (t.float.decode (laneAt (b / 256) t.packBits i)) (b8Fmt 4) .rne .sat 0).1)
  ⟨BitVec.ofNat 512 (packLanes 8 (bl.flatMap (·.2))), BitVec.ofNat 64 (packLanes 8 (bl.map (·.1))), 4⟩

/-- `stk`: the 8 blocks of a B8 vector, requantised and packed (R105, R270). -/
def packBlocks (t : Tag) (v : VReg) : Nat :=
  let bs := (chunks 8 8 (v.vals v.tag)).map fun b =>
    let (e, cs) := quantBlock b t.float .rne .sat []
    e + packLanes t.packBits cs * 256
  packLanes (8 * t.blockBytes) bs

/-! ### x320 (R106, R107) -/

/-- An x320 value: W as a signed integer and the status flags of Table 4.7. -/
structure X320 where
  w : Int
  t : Bool
  n : Bool
  p : Bool
  m : Bool
  q : Bool
  v : Bool
  deriving DecidableEq, Repr

/-- The empty sum. -/
def X320.empty : X320 := ⟨0, false, false, false, false, false, false⟩

/-- Reduce to 328 bits, two's complement. -/
def wrap328 (x : Int) : Int :=
  let y := x % (2 ^ 328 : Nat)
  if y < (2 ^ 327 : Nat) then y else y - (2 ^ 328 : Nat)

/-- x320_from_f32 of an exact value (R107). -/
def X320.ofNum : Num → X320
  | .nan => { X320.empty with t := true, q := true }
  | .inf false => { X320.empty with t := true, p := true }
  | .inf true => { X320.empty with t := true, m := true }
  | .fin neg m =>
    let n : Int := (m.floorAt (-160)).1
    { X320.empty with w := if neg then -n else n, t := true, n := neg && m.isZero }

/-- x320_add (R107). -/
def X320.add (a b : X320) : X320 :=
  let s := a.w + b.w
  { w := wrap328 s,
    v := a.v || b.v || !decide (-(2 ^ 327 : Nat) ≤ s ∧ s < (2 ^ 327 : Nat)),
    p := a.p || b.p, m := a.m || b.m, q := a.q || b.q, t := a.t || b.t,
    n := if a.t && b.t then a.n && b.n else if a.t then a.n else b.n }

/-- The exact value that `xcvt` rounds once (R107). -/
def X320.toNum (x : X320) : Num :=
  if x.q || x.v || (x.p && x.m) then .nan
  else if x.p then .inf false
  else if x.m then .inf true
  else if x.w = 0 then .zero (x.t && x.n)
  else Num.ofDy x.w (-160) false

/-- The 48 bytes of an x320 (R106): VAL, status word. -/
def X320.toBits (x : X320) : Nat :=
  let w := (x.w % (2 ^ 328 : Nat)).toNat
  let b (c : Bool) (i : Nat) : Nat := if c then 2 ^ i else 0
  w % 2 ^ 320 + (w / 2 ^ 320 + b x.t 8 + b x.n 9 + b x.p 10 + b x.m 11 + b x.q 12 + b x.v 13) * 2 ^ 320

/-- The x320 in the low 352 bits. -/
def X320.ofBits (n : Nat) : X320 :=
  let st := n >>> 320
  { w := wrap328 (n % 2 ^ 320 + (st % 256) * 2 ^ 320 : Nat),
    t := st.testBit 8, n := st.testBit 9, p := st.testBit 10, m := st.testBit 11, q := st.testBit 12, v := st.testBit 13 }

/-- A vector register tagged x320. -/
def X320.toVReg (x : X320) : VReg := VReg.plain 44 x.toBits

/-! ### Matrix accumulator rows (R109, R325) -/

/-- A row: 64 values S, the shared exponent E, the flags. -/
structure AccRow where
  s : List Int
  e : Int
  p : Bool
  m : Bool
  q : Bool
  deriving DecidableEq, Repr

/-- A cleared row (R109): no S listed reads as 64 zeros. -/
def AccRow.clear : AccRow := ⟨[], -512, false, false, false⟩

/-- S of column `j`. -/
def AccRow.col (r : AccRow) (j : Nat) : Int := r.s.getD j 0

/-- The 64 columns. -/
def AccRow.cols (r : AccRow) : List Int := (List.range 64).map r.col

/-- The window of R109. -/
def inWindow (v : Int) : Bool := decide (-(2 ^ 62 : Nat) ≤ v) && decide (v < (2 ^ 62 : Nat))

/-- The row after one shift: floor(S / 2^k) + floor(bs 2^(62 - E - k)). -/
def shiftRow (s : List Int) (bs : List (Int × Int)) (e : Int) (k : Nat) : List Int :=
  (s.zip bs).map fun (x, b) => (x >>> k) + scaleFloorI b.1 (b.2 + 62 - e - k)

/-- The least k whose row lies in the window. -/
def fitShift (s : List Int) (bs : List (Int × Int)) (e : Int) : Nat → Nat → Nat
  | 0, k => k
  | fuel + 1, k => if (shiftRow s bs e k).all inWindow then k else fitShift s bs e fuel (k + 1)

/-- row_add_block (R325) of 64 exact finite block sums, after the special products have set the flags. -/
def AccRow.addBlock (r : AccRow) (bs : List (Int × Int)) : AccRow :=
  if r.p || r.m || r.q then r
  else if r.e = -512 then
    let logs := bs.filterMap fun b => if b.1 = 0 then none else some ((b.1.natAbs.log2 : Int) + b.2)
    match logs with
    | [] => r
    | l :: ls =>
      let e := ls.foldl max l + 1
      if e ≤ 511 then
        { r with e := e, s := shiftRow (r.cols.map fun _ => 0) bs e 0 }
      else
        let vs := shiftRow (r.cols.map fun _ => 0) bs 511 0
        { r with e := 511, s := (vs.zip r.cols).map (fun (v, o) => if inWindow v then v else o),
                 p := vs.any (fun v => !inWindow v && decide (0 < v)),
                 m := vs.any (fun v => !inWindow v && decide (v < 0)) }
  else
    let k := fitShift r.cols bs r.e 2048 0
    if r.e + k ≤ 511 then { r with s := shiftRow r.cols bs r.e k, e := r.e + k }
    else
      let vs := shiftRow r.cols bs r.e (511 - r.e).toNat
      { r with p := vs.any (fun v => !inWindow v && decide (0 ≤ v)), m := vs.any (fun v => !inWindow v && decide (v < 0)) }

/-- A block sum: the exact finite part and the special products (R109). -/
structure BlockSum where
  v : Int × Int
  p : Bool
  m : Bool
  q : Bool
  deriving DecidableEq, Repr

/-- The products of one block, summed without rounding. -/
def blockSum (xs ys : List Num) : BlockSum :=
  (xs.zip ys).foldl
    (fun (acc : BlockSum) (xy : Num × Num) =>
      match Num.mul xy.1 xy.2 with
      | .nan => { acc with q := true }
      | .inf neg => if neg then { acc with m := true } else { acc with p := true }
      | .fin neg m => { acc with v := dyAdd acc.v (sdy neg m) })
    ⟨(0, 0), false, false, false⟩

/-- One K block into a row: special products set the row's flags first. -/
def AccRow.add (r : AccRow) (bs : List BlockSum) : AccRow :=
  AccRow.addBlock { r with p := r.p || bs.any (·.p), m := r.m || bs.any (·.m), q := r.q || bs.any (·.q) } (bs.map (·.v))

/-- The normaliser's conversion of one element to binary32 (R110). -/
def normElem (s e : Int) (p m q : Bool) : Nat :=
  if q || (p && m) then 0x7FC00000
  else if p then 0x7F800000
  else if m then 0xFF800000
  else if e = -512 || s = 0 then 0
  else (convertF (Num.ofDy s (e - 62) false) f32Fmt .rne .inf 0).1

end Sys2Proof
end

