-- ==== Sys2Proof/Machine/State.lean ====
section
/-! DEFINITION. The state of the machine: plain data, holding every piece of state the spec names, and its value after reset.
INVENTORY.md lists each field with its rule. -/

namespace Sys2Proof.Machine

open Sys2Proof

/-! ### What the events name -/

/-- An interior station by logical die and absolute coordinates (R8). -/
structure StId where
  die : Nat
  x : Nat
  y : Nat
  deriving DecidableEq, Repr

/-- Who keeps an overdue counter (R56). -/
inductive Holder
  | station (st : StId) | port (die i : Nat) | slice (die i : Nat)
  deriving DecidableEq, Repr

/-- Where a token stands: an input channel, a hop FIFO of a route, a memory request, the output queue of an address generator, a region's events that
wait for its monitor channel, or a normaliser or corner-turn node of a station. -/
inductive TokLoc
  | chan (st : StId) (c : Fin 8) (i : Nat) | hop (route hop i : Nat) | req (id : Nat) | agen (k i : Nat) | event (voy reg i : Nat) | node (st : StId) (i : Nat)
  deriving DecidableEq, Repr

/-- The arbiters of R54: row and column buses, die-link channel multiplexers, port request queues and slice queues. -/
inductive Arb
  | row (die y : Nat) | col (die x : Nat) | dieLink (die : Nat) (cw : Bool) | port (die i : Nat) | slice (die i : Nat)
  deriving DecidableEq, Repr

/-- Units with a ready bit (R29, R30). -/
inductive HwUnit
  | pilot (k : Nat) | arbiter | traverse (k : Nat) | die (d : Nat) | stack (d : Nat) (upper : Bool)
  | link (d : Nat) (ccw half : Bool) | helm (d : Nat)
  deriving DecidableEq, Repr

/-- A participant of a versioned space: a domain of a voyage, or the task sequencer of a die (R252). -/
inductive Participant
  | domain (voy : Nat) (n : BitVec 12) | sequencer (voy die : Nat)
  deriving DecidableEq, Repr

/-- A barrier entry (R287): voyage, scope, scope instance, id. -/
structure BarKey where
  voy : Nat
  scope : Scope
  inst : Nat
  id : BitVec 6
  deriving DecidableEq, Repr

/-- What a traverse-link flit holds beside its CRC: header fields and the 116 body bytes (R464). -/
structure Flit where
  typ : BitVec 4
  seq : BitVec 12
  key : BitVec 16
  ack : BitVec 12
  body : List Byte
  deriving DecidableEq, Repr

/-- What an event acts on. -/
inductive EvArg
  | none
  | st (i : StId)
  | flight (i : StId) (id : Nat)
  | ctx (i : StId) (c : Fin 8)
  | chan (i : StId) (c : Fin 8)
  | tile (i : StId) (t : Fin 4)
  | acc (i : StId) (a : Fin 2)
  | hop (route hop : Nat)
  | route (route : Nat)
  | tok (l : TokLoc)
  | region (voy reg : Nat)
  | halt (voy reg : Nat) (code : Byte) (payload : BitVec 128)
  | drain (voy : Nat) (reason : Byte)
  | voyage (voy : Nat)
  | queue (q : Nat)
  | qwr (q : Nat) (v : BitVec 32) (master : Nat)
  | launch (l : Nat)
  | agen (a : Nat)
  | req (r : Nat)
  | mark (asid : BitVec 16) (p : Participant)
  | copy (k : Nat)
  | die (d : Nat)
  | page (asid : BitVec 16) (va : Nat) (scls : BitVec 3) (slot : BitVec 22)
  | frame (f : Nat) (slot : BitVec 22)
  | bar (k : BarKey)
  | task (die task : Nat)
  | save (s : Nat)
  | slice (die slice : Nat)
  | row (r : Nat)
  | line (l : Nat)
  | cell (i : StId) (shadow : Bool) (a : Nat)
  | swap (hot cold : Nat)
  | unit (u : HwUnit)
  | claim (master : Nat) (prio : BitVec 8) (nonce : BitVec 32)
  | master (m : Nat) (v : Word)
  | reg (master off : Nat) (v : Word)
  | access (master off n : Nat) (write : Bool) (data : List Byte)
  | fw (box : Nat) (tag : Byte) (off : Nat) (chunk : List Byte) (last : Bool)
  | box (box : Nat) (tag : Byte) (code : Byte) (asid : BitVec 16) (a b : Nat) (fs : List Nat)
  | nonce (box : Nat) (tag : Byte) (n : BitVec 256)
  | peer (box : Nat) (tag : Byte) (asid : BitVec 16) (peer : Nat) (links : BitVec 16) (device : Word)
  | flit (link : Nat) (w : List Byte)
  | link (l : Nat)
  | core (k : Nat)
  deriving DecidableEq, Repr

/-! ### Tokens and FIFOs -/

/-- A token (Table 6.2). `slack` is the counter, or the age of a background token (R52). -/
structure Token where
  data  : V512
  side  : Word
  fmt   : Tag
  tag   : BitVec 3
  stop  : BitVec 2
  f     : Bool
  bg    : Bool
  slack : Nat
  deriving DecidableEq, Repr

/-- A FIFO entry: claimed and not yet filled when `tok` is none (R161); `new` until the end of the cycle it was written in;
`wait` cycles before it may leave (die links); `stood` cycles it has been at the head (R54). -/
structure Entry where
  id   : Nat
  tok  : Option Token
  new  : Bool
  wait : Nat
  stood : Nat
  deriving DecidableEq, Repr

/-- A FIFO: capacity, entries head first, entries freed in this cycle (usable from the next, R146). -/
structure Fifo where
  cap   : Nat
  q     : List Entry
  freed : Nat
  deriving DecidableEq, Repr

/-! ### Handles -/

inductive HKind
  | plain | ring | phase
  deriving DecidableEq, Repr

/-- SPACE of a handle (Table 6.3). -/
inductive Space
  | loc | win | dev | host | peer
  deriving DecidableEq, Repr

/-- A handle entry (Table 6.3). -/
structure HEntry where
  base  : Word
  size  : BitVec 40
  kind  : HKind
  space : Space
  fmt   : Tag
  alloc : Bool
  last  : Bool
  vers  : Bool
  comp  : Bool
  port  : BitVec 7
  pcnt  : BitVec 32
  ccnt  : BitVec 32
  dcnt  : BitVec 16
  peer  : BitVec 7
  deriving DecidableEq, Repr

/-- The empty entry (R152). -/
def HEntry.empty : HEntry :=
  ⟨0, 0, .plain, .loc, 0, false, false, false, false, 0, 0, 0, 0, 0⟩

/-- A ring or phase slot claimed by a rule and not yet counted (R161). -/
structure HClaim where
  h      : Fin 16
  id     : Nat
  slot   : BitVec 32
  landed : Bool
  deriving DecidableEq, Repr

/-! ### Destinations and faults -/

/-- A pending destination (R159 condition 4). -/
inductive PReg
  | d (n : Fin 8) | v (n : Fin 8) | z (n : Fin 16) | acc (n : Fin 2)
  deriving DecidableEq, Repr

/-- Where the result of a request or a long operation goes. -/
inductive Dest
  | none
  | d (n : Fin 8)
  | v (n : Fin 8)
  | out (o : Fin 8) (id : Nat)
  deriving DecidableEq, Repr

/-- A fault as raised: CODE, INFO, ADDR (Table 6.7). -/
structure FaultC where
  code : Nat
  info : Nat
  addr : Nat
  deriving DecidableEq, Repr

/-- Starting slack of a token or request (R51): background, or the counter. -/
structure Slack where
  bg : Bool
  n  : Nat
  deriving DecidableEq, Repr

/-! ### Matrix stations (chapter 14) -/

inductive TileSt
  | empty | filling | full | reading
  deriving DecidableEq, Repr

/-- A park record (R223): the row, its owner, the register with its tag, and whether the park has landed (R206). A tile's bits and sidecar
stand in its row; an accumulator's in the record. -/
structure Park where
  row   : Nat
  owner : StId
  reg   : VReg
  landed : Bool
  deriving DecidableEq, Repr

/-- A tile: rows, scales, declared format, state, next fill row, fill channel (`fresh`: bound in this cycle, R341), parked rows. -/
structure Tile where
  rows   : Vector V512 64
  scales : Vector Word 64
  fmt    : Tag
  st     : TileSt
  pos    : Nat
  fill   : Option (Fin 8)
  fresh  : Bool
  parks  : List Park
  deriving DecidableEq, Repr

/-- The configuration of an accumulator (R339). -/
structure AccCfg where
  kt    : BitVec 16
  o     : Fin 8
  carry : Option (Fin 8)
  sa    : ScaleSrc
  sb    : ScaleSrc
  deriving DecidableEq, Repr

inductive AccSt
  | opened | closed | draining
  deriving DecidableEq, Repr

/-- An accumulator: rows, step counter, state, the cycle it closed in (R339), carry-in and drain positions, slack of its drain, parked rows. -/
structure Acc where
  rows  : Vector AccRow 64
  cnt   : BitVec 16
  st    : AccSt
  cfg   : Option AccCfg
  closed : Nat
  cin   : Nat
  pos   : Nat
  slack : Slack
  parks : List Park
  deriving DecidableEq, Repr

/-- The step in progress (R324): operands, mode, scales captured at firing, cycles left. -/
structure MatStep where
  acc   : Fin 2
  ta    : Fin 4
  tb    : Fin 4
  mmat  : Bool
  keepa : Bool
  keepb : Bool
  sa    : Vector Word 64
  sb    : Vector Word 64
  left  : Nat
  slack : Slack
  deriving DecidableEq, Repr

/-- The matrix state (Table 14.1). -/
structure Mat where
  t    : Vector Tile 4
  a    : Vector Acc 2
  g    : Vector (Vector Word 64) 2
  step : Option MatStep
  deriving DecidableEq, Repr

/-! ### Stream stations (chapter 20) -/

/-- A stream register (Table 20.1). -/
structure ZReg where
  bits : BitVec 4096
  mask : BitVec 16
  lc   : BitVec 3
  deriving DecidableEq, Repr

/-- A `sout` or `sin` in progress (R426). -/
inductive StreamIo
  | sout (o : Fin 8) (z : ZReg) (part : Nat) (slack : Slack)
  | sin (z : Fin 16) (c : Fin 8) (part : Nat) (acc : ZReg) (ctx : Fin 8) (slot : Fin 32) (slack : Slack)
  deriving DecidableEq, Repr

structure Ss where
  z  : Vector ZReg 16
  io : Option StreamIo
  deriving DecidableEq, Repr

/-- Why an access is withheld (Table 10.8). -/
inductive Held
  | notPresent | firstTouch | copyOnWrite | decompress | noFrame (die : Nat) | noPeer
  deriving DecidableEq, Repr

/-! ### Sounding stations (chapters 17, 18) -/

/-- A frontier or path entry (R379, Table 18.6): binary32 codes; the value centroid that its estimate weighs. -/
structure FEntry where
  node : Nat
  unref : Bool
  leaf : Bool
  lo   : BitVec 32
  hi   : BitVec 32
  mid  : BitVec 32
  delta : BitVec 32
  lamLo : BitVec 32
  mu   : BitVec 32
  cv   : List Nat
  deriving DecidableEq, Repr

/-- A walk (R378-R385). In exact mode `frontier` is the path stack, deepest level first, `kids` the entries that each level, and the root's own, has
still to reach, and `done` the unrefinable entries met (R381). -/
structure Walk where
  exact    : Bool
  screen   : Bool
  frontier : List FEntry
  kids     : List (List FEntry)
  done     : List FEntry
  l        : X320
  acc      : List X320
  m        : Int
  ver      : Word
  hints    : List Nat
  cands    : List FEntry
  paused   : Bool
  locked   : Bool
  resumed  : Bool
  leaves   : Nat
  deriving DecidableEq, Repr

/-- A query register (Table 18.1). -/
structure QReg where
  param  : V512
  head   : BitVec 4
  hn     : BitVec 4
  ht     : BitVec 4
  qp     : List (BitVec 32)
  lam    : BitVec 32
  nu     : BitVec 32
  walk   : Option Walk
  out    : List (BitVec 32)
  usum   : BitVec 32
  dsum   : BitVec 32
  m      : BitVec 32
  llo    : BitVec 32
  state  : BitVec 4
  pauses : BitVec 4
  rstrt  : BitVec 3
  stop   : BitVec 3
  visits : BitVec 32
  rootver : Word
  deriving DecidableEq, Repr

/-- The long operations of the tree engine (R389). -/
inductive TreeOp
  | tins (t : Nat) | tseal (x : Nat) | tdrop (t0 t1 : Nat)
  | forkPages (n : Nat) | forkTree (n : Nat) | walk
  deriving DecidableEq, Repr

/-- What a request of the tree engine is for (R383, R384, R390): 64 bytes at a multiple of 64, read again where `again` (a LOCK after its record); the
LOCK of a node before a writer takes it, and the taking; a write. -/
inductive TreeKey
  | data (chunk : Nat) (again : Bool) | lock (node : Nat) | take (node : Nat) | put
  deriving DecidableEq, Repr

/-- How far a writer is: it reads and takes locks, its writes perform, its locks are released (R383, R390). -/
inductive TreeStep
  | plan | write | unlock
  deriving DecidableEq, Repr

/-- The operation the engine runs: the cycle it fired in, its query register, handles as captured, destination, the locks it holds (node indices with the
even version, root first), what its requests have brought, how far it is, its payload and the pages that it releases, the fault of a request, cycles before
its next action, what withholds its access and at which address. -/
structure TreeJob where
  time  : Nat
  q     : Fin 4
  op    : TreeOp
  ctx   : Fin 8
  slot  : Fin 32
  dest  : Dest
  slack : Slack
  h1    : HEntry
  h2    : HEntry
  h3    : HEntry
  h4    : HEntry
  major : BitVec 32
  locks : List (Nat × Word)
  memo  : List (TreeKey × Nat)
  step  : TreeStep
  res   : Nat
  pages : List Nat
  bad   : Option FaultC
  left  : Nat
  wait  : Option (Held × Nat)
  held  : Nat
  deriving DecidableEq, Repr

structure Sd where
  q   : Vector QReg 4
  eng : Option TreeJob
  deriving DecidableEq, Repr

/-! ### Memory requests (chapters 10, 11) -/

/-- What a request does where it performs. -/
inductive ReqOp
  | load (w : Nat) (sext : Bool)
  | loadV (w : Nat)
  | loadK
  | store (w : Nat)
  | ldt (w : Nat) (sext settled : Bool)
  | upd (op : BitVec 6) (w : Nat)
  | reclaim | settle
  | atom (op : BitVec 6) (w : Nat)
  | red (op : BitVec 6) (w : Nat)
  | xred
  | pref (n : Nat) | disc (n : Nat)
  | mnop | xlat
  | copy (k : Nat)
  | agLoad (wide : Bool)
  | monw | monc (w : Word)
  | part (k n : Nat) (wr : Bool)
  | tree (job : Nat) (key : TreeKey) (n : Nat) (wr : Bool)
  deriving DecidableEq, Repr

/-- The result of a request: a value, a fault token, or nothing. -/
inductive Reply
  | ok (v : VReg) | fault (t : Token) | silent
  deriving DecidableEq, Repr

/-- Where a request stands. -/
inductive Stage
  | net (left : Nat)
  | port
  | translate
  | withheld (why : Held)
  | bounced
  | home (left : Nat)
  | settle
  | room (held : Nat)
  | armed
  | hit (w : Word)
  | peer (entry : Nat)
  | reply (left : Nat) (r : Reply)
  deriving DecidableEq, Repr

/-- A PA token captured as an address operand (Table 10.3). -/
structure PaTok where
  frame : Nat
  mchk  : BitVec 16
  asid  : BitVec 16
  perm  : BitVec 6
  vpn   : Nat
  deriving DecidableEq, Repr

/-- The owner of an ordered domain beside its region and port (R231, R237, R390). -/
inductive DomSrc
  | rules | agen (side off : Nat) | tree (st : StId)
  deriving DecidableEq, Repr

/-- A memory request (R444). `arrived`: its place in the order of arrival at its port (R232); `way`: the die links still to cross, each by the die that sends over it and its direction (R22); `queued`, `stood`: cycles it
has stood at an arbiter's input, and at its head (R54). -/
structure Req where
  id    : Nat
  voy   : Nat
  reg   : Nat
  src   : DomSrc
  st    : StId
  ctx   : Fin 8
  slot  : Fin 32
  time  : Nat
  op    : ReqOp
  h     : HEntry
  va    : Nat
  pa    : Option PaTok
  data  : V512
  y     : Word
  stamp : Stamp
  pred  : BitVec 7
  own   : BitVec 7
  succ  : BitVec 7
  mf    : BitVec 4
  pass  : Nat
  port  : Option (Nat × Nat)
  dest  : Dest
  slack : Slack
  epoch : Nat
  parts : List (Nat × Nat × Nat)
  acc   : Nat
  released : Bool
  credit : Bool
  asid  : BitVec 16
  vers  : Bool
  task  : Option Nat
  held  : Nat
  arrived : Nat
  way   : List (Nat × Bool)
  queued : Nat
  stood : Nat
  stage : Stage
  deriving DecidableEq, Repr

/-- The direction that the flow of a port's requests to another die, and their replies, keeps (R22). -/
structure FlowPath where
  port : Nat × Nat
  far  : Nat
  cw   : Bool
  deriving DecidableEq, Repr

/-- One endpoint of a copy. -/
structure CopyEnd where
  h    : HEntry
  addr : Int
  deriving DecidableEq, Repr

/-- A copy (R278, R279): runs of `l0` bytes over the dimensions (count, source stride, destination stride); `pos` bytes done. -/
structure Copy where
  id   : Nat
  req  : Nat
  voy  : Nat
  reg  : Nat
  st   : StId
  ctx  : Fin 8
  slot : Fin 32
  time : Nat
  src  : CopyEnd
  dst  : CopyEnd
  l0   : Nat
  dims : List (Nat × Int × Int)
  ch   : Option (Fin 16)
  pos  : Nat
  run  : Bool
  wait : Option Held
  held : Nat
  asid : BitVec 16
  slack : Slack
  task : Option Nat
  stamp : Stamp
  deriving DecidableEq, Repr

/-- An ordered domain at its port (R232): pass count, next state, arrivals per OWN, settle bookkeeping; `links`: the traverse link it keeps to
for each peer (R465). -/
inductive NextSt
  | start | own (n : BitVec 7) | after (n : BitVec 7)
  deriving DecidableEq, Repr

structure Domain where
  voy  : Nat
  reg  : Nat
  die  : Nat
  port : Nat
  src  : DomSrc
  num  : BitVec 12
  pass : Nat
  next : NextSt
  arrivals : List (BitVec 7 × Nat)
  repairs : BitVec 32
  relMajor : Nat
  versioned : Bool
  links : List (Nat × Nat)
  deriving DecidableEq, Repr

/-! ### Barriers, tasks -/

/-- A barrier operation travelling to its entry (R289); `look`: the phase is read at another device's walker (R288). -/
inductive BarOp
  | arrive (n : Nat) | arriveSwap (n : Nat) (h : Fin 16) | drop | look
  deriving DecidableEq, Repr

/-- Such an operation on its way; `away`: the number of the request flit that carries it to another device's walker (R288). -/
structure BarMsg where
  key  : BarKey
  op   : BarOp
  st   : StId
  ctx  : Fin 8
  slot : Fin 32
  time : Nat
  slack : Slack
  left : Nat
  away : Option Nat
  deriving DecidableEq, Repr

/-- A barrier entry (R287). -/
structure BarEntry where
  key : BarKey
  exp : BitVec 32
  arr : BitVec 32
  ph  : BitVec 32
  swaps : List (StId × Fin 16)
  spilled : Bool
  deriving DecidableEq, Repr

/-- A context's arrival record of an entry (R289). -/
structure ArrRec where
  key : BarKey
  pending : Bool
  ph  : Option (BitVec 32)
  deriving DecidableEq, Repr

inductive TaskSt
  | held | ready | running (st : StId) (ctx : Fin 8) | done
  deriving DecidableEq, Repr

/-- A task of a sequencer (R62-R64). `seen` is one above the greatest stamp that it has read tentatively, 0 before it has (R251). -/
structure Task where
  id   : Nat
  voy  : Nat
  die  : Nat
  ts   : BitVec 32
  handler : Nat
  args : VReg
  parent : Option Nat
  st   : TaskSt
  spoiled : Bool
  seen : Nat
  deriving DecidableEq, Repr

/-! ### Effects of a rule -/

/-- What a memory-ordering instruction holds back (R282). -/
inductive HoldKind
  | fence | rel | acq
  deriving DecidableEq, Repr

structure Hold where
  kind  : HoldKind
  scope : Scope
  time  : Nat
  slot  : Fin 32
  deriving DecidableEq, Repr

/-- Functional units (Table 6.5, R335); `walk` and `hint` are the vector unit as `tsum` and `tchk abort`, and `tscr`, take it: one of each may share a
cycle (R404). -/
inductive FUnit
  | alu | vector | walk | hint | send | control | step | stream
  deriving DecidableEq, Repr

/-- The effects that a firing rule or a landing result has, in order (R161). -/
inductive Effect
  | pop (c : Fin 8)
  | popRing (h : Fin 16)
  | setD (n : Fin 8) (w : Word)
  | setV (n : Fin 8) (v : VReg)
  | setP (n : Fin 8) (b : Bool)
  | emit (o : Fin 8) (t : Token)
  | claimOut (o : Fin 8) (id : Nat)
  | fillOut (o : Fin 8) (id : Nat) (t : Token)
  | claimElem (h : Fin 16) (id : Nat)
  | landElem (h : Fin 16) (id : Nat) (x : V512)
  | pend (r : PReg)
  | unpend (r : PReg)
  | setH (n : Fin 16) (f : HField) (w : Word)
  | addPcnt (n : Fin 16) (k : BitVec 32)
  | addCcnt (n : Fin 16) (k : BitVec 32)
  | exchange (base size : Nat)
  | retag (n : Fin 8) (v : Option (Fin 8))
  | setCnt (n : Fin 8) (w : BitVec 32)
  | setRep (w : BitVec 32)
  | setBase (b : BitVec 6)
  | yield (n : BitVec 10)
  | faultq (t : Token)
  | brk (v : BitVec 32)
  | halt (v : BitVec 32)
  | ckpt
  | busy (u : FUnit) (n : Nat)
  | setZ (n : Fin 16) (z : ZReg)
  | slen (c : BitVec 2)
  | stream (io : StreamIo)
  | setTile (t : Fin 4) (x : Tile)
  | setAcc (a : Fin 2) (x : Acc)
  | setG (g : Fin 2) (row : Option (Fin 64)) (w : Word)
  | unbind (c : Fin 8)
  | step (x : MatStep)
  | park (dx dy : Int) (u : Nat) (row : Nat) (v : VReg)
  | parkLands (dx dy : Int) (u : Nat) (row : Nat)
  | unpark (dx dy : Int) (u : Nat) (row : Nat)
  | writeLocal (shadow : Bool) (a : Nat) (w : Nat) (x : V512)
  | req (r : Req)
  | copy (c : Copy)
  | hold (h : Hold)
  | dropCache (s : Scope)
  | bar (m : BarMsg)
  | spawn (ts : BitVec 32) (handler : Nat) (args : VReg)
  | taskDone
  | taskFault (t : Token)
  | setQ (q : Fin 4) (x : QReg)
  | hints (q : Fin 4) (lanes : List Nat)
  | engine (j : Option TreeJob)
  deriving DecidableEq, Repr

/-- What a firing does: effects at the end of its cycle, and effects that land after a latency (R161, R170). -/
structure Fire where
  now   : List Effect
  later : Option (Nat × List Effect)
  deriving DecidableEq, Repr

/-- A result in flight: cycles left and the effects that land. -/
structure Flight where
  id   : Nat
  ctx  : Fin 8
  slot : Fin 32
  left : Nat
  effs : List Effect
  deriving DecidableEq, Repr

/-! ### Contexts and stations -/

/-- A context (Table 6.4). -/
structure Ctx where
  rules   : List Word
  conf    : List (BitVec 32)
  cls     : BitVec 2
  task    : Bool
  base    : BitVec 6
  wave    : BitVec 32
  stoplvl : BitVec 3
  wait    : Nat
  aged    : Bool
  fired   : BitVec 32
  reps    : Vector (BitVec 32) 32
  yield   : Nat
  len     : BitVec 2
  ts      : BitVec 32
  running : Option Nat
  holds   : List Hold
  arrs    : List ArrRec
  deriving DecidableEq, Repr

/-- A corner-turn node (R331, R352): rows of the block being filled, output tokens with the cycles before each may leave,
blocks held. -/
structure Ctn where
  i    : Fin 8
  o    : Fin 8
  ifmt : Tag
  ofmt : Tag
  rm   : RM
  ov   : OV
  rows : List Token
  outs : List (Nat × Token × Bool)
  deriving DecidableEq, Repr

/-- A normaliser node (R330, R353): expected ROW and PART, the first half, outputs with their delay. -/
structure Nrm where
  i    : Fin 8
  o    : Fin 8
  row  : Nat
  part : Nat
  half : Option Token
  outs : List (Nat × Token)
  deriving DecidableEq, Repr

/-- A station of a region (Table 6.1). `worn` names the 8-byte words of its storage, the shadow bank's with true, that hold an uncorrectable error; `matPre` is the matrix state at the start of the cycle (R225, R346). -/
structure Station where
  id    : StId
  kind  : Kind
  voy   : Nat
  reg   : Nat
  rx    : Nat
  ry    : Nat
  d     : Vector Word 8
  v     : Vector VReg 8
  p     : BitVec 8
  h     : Vector HEntry 16
  claims : List HClaim
  c     : Vector Fifo 8
  hctx  : Vector (Option (Fin 8)) 8
  cnt   : Vector (BitVec 32) 8
  ctx   : Vector Ctx 8
  store : List Host.Cell
  shadow : List Host.Cell
  worn  : List (Bool × Nat)
  flights : List Flight
  pend  : List PReg
  busy  : List (FUnit × Nat)
  overdue : BitVec 32
  credits : Nat
  copies : Nat
  mons  : Nat
  mat   : Option Mat
  matPre : Option Mat
  ss    : Option Ss
  sd    : Option Sd
  cache : List (Nat × Nat)
  ctn   : Option Ctn
  nrm   : Option Nrm
  handler : List (Fin 8 × Nat)
  fctx  : Option (Fin 8)
  deriving DecidableEq, Repr

/-- What carries a route between two hops. -/
inductive HopKind
  | mesh | bus | dieLink | forward | stream | cross
  deriving DecidableEq, Repr

/-- A FIFO of a route: the die whose link or bus carries the token out of it, the direction of a die link, and who counts its overdue tokens. -/
structure Hop where
  kind : HopKind
  fifo : Fifo
  die  : Nat
  cw   : Bool
  holder : Option Holder
  deriving DecidableEq, Repr

/-- A route (R139): source output, FIFOs on the way before the destination channels, destinations; `cross` of a cross-device edge: peer, inbound, key
(R467), whether it has joined, whether it has delivered its level-3 stop (R60), the traverse link it keeps to, and for how many cycles a token has stood
at its end with no link of the set left (R465). -/
structure Route where
  id   : Nat
  voy  : Nat
  reg  : Nat
  src  : StId
  out  : Fin 8
  hops : List Hop
  dests : List (StId × Fin 8)
  bus  : Bool
  cross : Option (Nat × Bool × BitVec 16)
  joined : Bool
  closed : Bool
  link : Nat
  held : Nat
  deriving DecidableEq, Repr

/-- A port station (R235, R242): TLB entries (ASID, page, entry), overdue counter, held requests by arrival. -/
structure Port where
  die  : Nat
  idx  : Nat
  tlb  : List (BitVec 16 × Nat × Word)
  overdue : BitVec 32
  epoch : Nat
  deriving DecidableEq, Repr

/-- An address generator (R237, R283). -/
structure Agen where
  die  : Nat
  side : Nat
  off  : Nat
  voy  : Nat
  reg  : Nat
  base : Nat
  dims : List (Nat × Int)
  pos  : Nat
  done : Bool
  pref : Bool
  wide : Bool
  h    : HEntry
  c    : Fin 8
  dst  : StId
  sl   : BitVec 6
  port : Nat
  outq : List (Nat × Option Token)
  deriving DecidableEq, Repr

/-! ### Regions, voyages, queues -/

inductive RSt
  | waiting | running | retired | halted | drained
  deriving DecidableEq, Repr

/-- The progress of a snapshot or drain (R199, R440): cycles since the freeze of one that is pending, cycles that its save still takes. -/
inductive Snap
  | none | pending (n : Nat) | saving (left : Nat)
  deriving DecidableEq, Repr

/-- A region (R135). `px`, `py` is the origin plat. -/
structure Region where
  idx   : Nat
  die   : Nat
  px    : Nat
  py    : Nat
  pw    : Nat
  ph    : Nat
  rpx   : Nat
  rpy   : Nat
  par   : BitVec 2
  slotNo : Nat
  dn    : Fin 64 × Fin 64 × Fin 8
  flt   : Option (Nat × Nat × Fin 8)
  mon   : Option (Nat × Nat × Fin 8 × Bool)
  tlim  : Nat
  clk   : Nat
  st    : RSt
  frozen : Bool
  gen   : Nat
  snap  : Snap
  events : List Token
  discards : List (Nat × Nat × Nat)
  htab  : Vector HEntry 16
  code  : Byte
  haltRec : BitVec 128
  slotImg : Option Nat
  imgGen : Nat
  deriving DecidableEq, Repr

/-- The packet of a launch: eight words (R39, R40). -/
abbrev Packet := Vector Word 8

/-- A write of a Helm that is still to perform: the Helm's die, address space, VA, bytes, value (R469). -/
structure Owed where
  die  : Nat
  asid : BitVec 16
  va   : Nat
  n    : Nat
  x    : Nat
  deriving DecidableEq, Repr

/-- A voyage (R36). `start` is the cycles until its start signal (R47); `owed` the writes of its Helms that wait. -/
structure Voyage where
  id    : Nat
  queue : Nat
  asid  : BitVec 16
  pkt   : Packet
  save  : Nat
  regions : List Region
  quiet : Nat
  moved : Bool
  dead  : Bool
  pool  : List (Nat × Nat × Nat)
  frozen : Bool
  drain : Option (Byte × Nat)
  requeue : Bool
  start : Nat
  ended : Bool
  bars  : List BarKey
  owed  : List Owed
  deriving DecidableEq, Repr

/-- A launch waiting for space (R44-R46), or a saved voyage waiting to resume. -/
structure Launch where
  id    : Nat
  queue : Nat
  idx   : Nat
  asid  : BitVec 16
  pkt   : Packet
  time  : Nat
  front : Option Nat
  resume : Option Nat
  starve : Bool
  deriving DecidableEq, Repr

/-- What holds a queue. -/
inductive QWait
  | none | dep | acq | placing (launch : Nat)
  deriving DecidableEq, Repr

/-- A queue's registers (Table 2.1) and its processing state. -/
structure Queue where
  n     : Nat
  base  : Word
  wr    : BitVec 32
  rd    : BitVec 32
  en    : Bool
  asid  : BitVec 16
  stop  : Bool
  err   : Byte
  fail  : BitVec 23
  wait  : QWait
  live  : List Nat
  poll  : Nat
  deriving DecidableEq, Repr

/-- A history entry of a repair cell (R250): stamp, operation, its width in bytes, byte offset in the line, operand, and the task that wrote it. -/
structure Hist where
  stamp : Stamp
  op    : BitVec 6
  w     : Nat
  off   : Nat
  x     : Word
  task  : Option Nat
  deriving DecidableEq, Repr

/-- A tracked reader: stamp, word read, width, value returned, the domain and the task. -/
structure Reader where
  stamp : Stamp
  off   : Nat
  w     : Nat
  dom   : BitVec 12
  task  : Option Nat
  deriving DecidableEq, Repr

/-- An active line of a repair cell (R250, R251). -/
structure VLine where
  asid  : BitVec 16
  line  : Nat
  hist  : List Hist
  readers : List Reader
  allLater : Bool
  doms  : List (BitVec 12)
  many  : Bool
  deriving DecidableEq, Repr

/-- A participant's settle mark, and the mark as the slices know it with the cycles until it arrives (R252). -/
structure Mark where
  asid  : BitVec 16
  who   : Participant
  mark  : Nat
  known : Nat
  sent  : Option Nat
  deriving DecidableEq, Repr

/-- A frame descriptor (Table 10.5). -/
structure Desc where
  frame : Nat
  w     : Word
  deriving DecidableEq, Repr

/-- A saved voyage (R442): the image kept by content. -/
structure Saved where
  voy   : Voyage
  stations : List Station
  routes : List Route
  reqs  : List Req
  copies : List Copy
  domains : List Domain
  bars  : List BarEntry
  msgs  : List BarMsg
  tasks : List Task
  agens : List Agen
  complete : Bool
  held  : Bool
  deriving DecidableEq, Repr

/-! ### The device -/

/-- A die's record (R30-R32). `failed`: an uncorrectable failure at run time, until the host resets the device (R35); `alone`: reset by itself since
(code 0x04 of Table 1.8); `refused`: the host has answered the pool's request with no frames (R461). -/
structure Die where
  live  : Bool
  failed : Bool
  alone : Bool
  ready : BitVec 8
  rsn   : Byte
  slices : BitVec 96
  phys  : Nat
  cw    : BitVec 2
  ccw   : BitVec 2
  pool  : List Nat
  refused : Bool
  epoch : Nat
  deriving DecidableEq, Repr

/-- A mailbox (Table 23.5): `code`, `tag`: of the command that CMD was last written with; `out`: the bytes of the payload. -/
structure Mailbox where
  busy  : Bool
  done  : Bool
  code  : Byte
  tag   : Byte
  result : Byte
  lost  : Bool
  out   : List Byte
  deriving DecidableEq, Repr

/-- A traverse link (R463, R464). `unacked`: flits sent and not acknowledged; `waiting`: type, key and body of those that wait for a place among them;
`outbox`: the flits, each 128 bytes, that have left in this cycle. -/
structure TLink where
  up    : Bool
  seq   : BitVec 12
  acked : BitVec 12
  expect : BitVec 12
  unacked : List Flit
  nacked : Bool
  timer : Nat
  outbox : List (List Byte)
  waiting : List (BitVec 4 × BitVec 16 × List Byte)
  deriving DecidableEq, Repr

/-- A peer binding (R465). -/
structure Peer where
  asid  : BitVec 16
  peer  : Nat
  links : BitVec 16
  device : Word
  deriving DecidableEq, Repr

/-- A claim of the owner election (R452). -/
structure Claim where
  master : Nat
  prio  : BitVec 8
  nonce : BitVec 32
  deriving DecidableEq, Repr

/-- The stage of the pilot cores' start (R455). -/
inductive Boot
  | fetch | verify | train | running | failed
  deriving DecidableEq, Repr

/-- The firing of a station's cycle: the chosen slots still to execute, and the station as it stood at the start of the cycle (R161). -/
structure Firing where
  st   : StId
  ctx  : Fin 8
  pre  : Station
  todo : List (Fin 32)
  deriving DecidableEq, Repr

/-- The machine. -/
structure State where
  grade    : Grade
  time     : Nat
  free     : Nat
  nextId   : Nat
  agenda   : List (Instr × EvArg)
  ev       : EvArg
  inputs   : List (Nat × Instr × EvArg)
  firing   : Option Firing
  stations : List Station
  routes   : List Route
  ports    : List Port
  agens    : List Agen
  voyages  : List Voyage
  launches : List Launch
  queues   : List Queue
  reqs     : List Req
  paths    : List FlowPath
  copies   : List Copy
  domains  : List Domain
  bars     : List BarEntry
  barMsgs  : List BarMsg
  tasks    : List Task
  marks    : List Mark
  watermarks : List (BitVec 16 × Nat)
  cells    : List VLine
  mem      : List Host.Cell
  host     : List Host.Cell
  descs    : List Desc
  roots    : List (BitVec 16 × Nat)
  saveBases : List (BitVec 16 × Word)
  saved    : List (Nat × Saved)
  l2       : List (Nat × Nat)
  bad      : List (Nat × Nat)
  remap    : List (Nat × Nat)
  sliceOver : List (Nat × BitVec 32)
  dies     : Vector Die 4
  state    : BitVec 4
  bootrsn  : Byte
  failcnt  : Byte
  boot     : Boot
  bootTime : Nat
  tlboot   : Bool
  fw       : List Byte
  log      : List (List Byte)
  pilots   : BitVec 16
  arbiter  : Bool
  owned    : Bool
  owner    : BitVec 4
  herr     : Bool
  attached : BitVec 9
  claims   : List Claim
  window   : Option Nat
  apbase   : BitVec 10
  sbquery  : BitVec 16
  pwrlim   : BitVec 16
  pwrnow   : BitVec 16
  shares   : Vector (BitVec 40) 4
  pwrmir   : Word
  pwrseq   : Word
  mailboxes : Vector Mailbox 16
  asks     : List Nat
  vectors  : List (Nat × Nat)
  answer   : List Byte
  links    : Vector TLink 16
  bindings : List Peer
  joins    : List (Nat × Flit)
  rots     : List (Arb × Nat)
  deriving DecidableEq, Repr

/-! ### Why a step stops -/

/-- A fault stops the machine.
`undecodable` is raised by the step when the chosen slot holds no word its station accepts: no station that passed configuration load holds one
(R130), so it is safe. -/
inductive Fault
  | undecodable
  deriving DecidableEq, Repr

/-- No meaning. `notModelled` is answered by an arm of Dispatch.lean for an instruction that the model does not give a meaning: safe. -/
inductive Refusal
  | notModelled (mnemonic : String)
  deriving DecidableEq, Repr

/-! ### Reset -/

/-- A die before its units are ready (R21, R30, R33): a logical number that the grade does not have is a dead die. -/
def Die.reset (g : Grade) (n phys : Nat) : Die :=
  let live := decide (n < g.dies)
  { live := live, failed := false, alone := false, ready := 0, rsn := 0, slices := if live then BitVec.allOnes 96 else 0, phys := phys, cw := 0, ccw := 0,
    pool := [], refused := false, epoch := 0 }

def Mailbox.reset : Mailbox := ⟨false, false, 0, 0, 0, false, []⟩

/-- A traverse link before training: the first flit carries SEQ 0, and the last SEQ received in order is the one before 0. -/
def TLink.reset : TLink := ⟨false, 0, 0xFFF, 0, [], false, 0, [], []⟩

/-- A device of a grade right after reset; its logical die 0 stands at physical position `p`, and the live dies follow clockwise (R21). -/
def State.resetFor (g : Grade) (p : Nat) : State :=
  { grade := g, time := 0, free := 0, nextId := 0, agenda := [], ev := .none, inputs := [], firing := none, stations := [], routes := [], ports := [], agens := [],
    voyages := [], launches := [], queues := [], reqs := [], paths := [], copies := [], domains := [], bars := [], barMsgs := [], tasks := [],
    marks := [], watermarks := [], cells := [], mem := [], host := [], descs := [], roots := [], saveBases := [], saved := [],
    l2 := [], bad := [], remap := [], sliceOver := [], dies := #v[Die.reset g 0 (p % 4), Die.reset g 1 ((p + 1) % 4), Die.reset g 2 ((p + 2) % 4), Die.reset g 3 ((p + 3) % 4)], state := 0, bootrsn := 0,
    failcnt := 0, boot := .fetch, bootTime := 0, tlboot := false, fw := [], log := [], pilots := 0, arbiter := false,
    owned := false, owner := 0, herr := false, attached := BitVec.allOnes 9, claims := [], window := none, apbase := 0, sbquery := 0,
    pwrlim := 0, pwrnow := 0, shares := Vector.replicate 4 0, pwrmir := 0, pwrseq := 0, mailboxes := Vector.replicate 16 Mailbox.reset,
    asks := [], vectors := [], answer := [], links := Vector.replicate 16 TLink.reset, bindings := [], joins := [], rots := [] }

/-- The machine right after reset: an NMT-7204, whose logical numbers are its physical positions (R21, log 7). -/
def State.reset : State := State.resetFor .nmt7204 0

end Sys2Proof.Machine
end

