-- ==== Sys2Proof/Machine/Ops.lean ====
section
/-! DEFINITION. Named operations on the state: FIFOs, stations, routes, ring slots, fault tokens and the fault queue (R146-R167),
and the application of effects (R161). -/

namespace Sys2Proof.Machine

open Sys2Proof

/-! ### FIFOs (R146, R147) -/

def Fifo.empty (cap : Nat) : Fifo := ⟨cap, [], 0⟩

/-- Free entries, an entry freed in this cycle counting from the next (R146). -/
def Fifo.room (f : Fifo) : Nat := f.cap - f.q.length - f.freed

/-- The head, once it has stood since the start of the cycle. -/
def Fifo.head (f : Fifo) : Option Token :=
  match f.q with
  | [] => none
  | e :: _ => if e.new || decide (e.wait ≠ 0) then none else e.tok

def Fifo.pop (f : Fifo) : Fifo := { f with q := f.q.tail, freed := f.freed + 1 }

def Fifo.push (f : Fifo) (id : Nat) (t : Option Token) (wait : Nat) : Fifo :=
  { f with q := f.q ++ [⟨id, t, true, wait, 0⟩] }

/-- Put a token in front (`prime`, task arguments). -/
def Fifo.pushFront (f : Fifo) (id : Nat) (t : Token) : Fifo := { f with q := ⟨id, some t, false, 0, 0⟩ :: f.q }

def Fifo.fill (f : Fifo) (id : Nat) (t : Token) : Fifo :=
  { f with q := f.q.map fun e => if e.id = id ∧ e.tok = none then { e with tok := some t, new := true } else e }

/-- The start of the next cycle: written entries become visible, freed ones usable, link delays count down, the head has stood a cycle longer. -/
def Fifo.tick (f : Fifo) : Fifo :=
  let q := f.q.map fun e => { e with new := false, wait := e.wait - 1 }
  { f with q := match q with | [] => [] | e :: r => { e with stood := if e.wait = 0 then e.stood + 1 else 0 } :: r, freed := 0 }

/-! ### Tokens -/

/-- A data token (R143). -/
def Token.data? (t : Token) : Bool := t.stop == 0 && !t.f

/-- A scalar token (R169). -/
def Token.scalar (w : Word) (sl : Slack) : Token := ⟨w.setWidth 512, unitSide, 0, 0, 0, false, sl.bg, sl.n⟩

/-- A token with a vector's bits, tag and sidecar (R143). -/
def Token.vec (v : VReg) (sl : Slack) : Token := ⟨v.data, v.side, v.tag, 0, 0, false, sl.bg, sl.n⟩

/-- A stop token (R180). -/
def Token.stopTok (l : BitVec 2) (sl : Slack) : Token := { Token.scalar 0 sl with stop := l }

/-- The vector that a token carries (R144). -/
def Token.vreg (t : Token) : VReg := ⟨t.data, t.side, t.fmt⟩

def Token.slk (t : Token) : Slack := ⟨t.bg, t.slack⟩

/-- The starting slack of a token that a rule emits (R51). -/
def slackStart (sl base : BitVec 6) : Slack :=
  if sl = 63 then ⟨true, 0⟩
  else if sl = 0 then ⟨false, 0⟩
  else ⟨false, 16 * Nat.min (sl.toNat + base.toNat) 62⟩

/-- One cycle of a token's counter (R52): it counts down to 0; a background token counts its age. -/
def Token.age (t : Token) : Token := if t.bg then { t with slack := t.slack + 1 } else { t with slack := t.slack - 1 }

/-- A background token of 4,096 cycles becomes an ordinary one with counter 992 (R52). -/
def Slack.promote (t : Slack) : Slack := if t.bg && decide (4096 ≤ t.n) then ⟨false, 992⟩ else t

/-! ### Lookups -/

def State.station? (s : State) (i : StId) : Option Station := s.stations.find? (fun t => t.id == i)

def State.setStation (s : State) (t : Station) : State :=
  { s with stations := s.stations.map fun u => if u.id = t.id then t else u }

/-- Change the station with an id. -/
def State.modStation (s : State) (i : StId) (f : Station → Station) : State :=
  { s with stations := s.stations.map fun u => if u.id = i then f u else u }

def State.voyage? (s : State) (v : Nat) : Option Voyage := s.voyages.find? (fun t => t.id == v)

def State.modVoyage (s : State) (v : Nat) (f : Voyage → Voyage) : State :=
  { s with voyages := s.voyages.map fun u => if u.id = v then f u else u }

def Voyage.region? (v : Voyage) (r : Nat) : Option Region := v.regions.find? (fun t => t.idx == r)

def State.region? (s : State) (v r : Nat) : Option Region := (s.voyage? v).bind (·.region? r)

/-- Whether a voyage or a region is frozen (R440, R441). -/
def State.voyageStill (s : State) (v : Nat) : Bool := match s.voyage? v with | some v => v.frozen | none => false

def State.still (s : State) (v r : Nat) : Bool :=
  s.voyageStill v || match s.region? v r with | some r => r.frozen | none => false

def State.modRegion (s : State) (v r : Nat) (f : Region → Region) : State :=
  s.modVoyage v fun u => { u with regions := u.regions.map fun t => if t.idx = r then f t else t }

/-- The route of an output. DESIGN CHOICE (log 107): of two route words for one output, which R84 calls an error of the assembly and no rule a failure of
the load, the first in the order of the image. -/
def State.route? (s : State) (st : StId) (o : Fin 8) : Option Route :=
  s.routes.find? (fun r => r.src == st && r.out == o)

/-- The absolute station of a region's place (R8, R9). -/
def Region.at (r : Region) (x y : Nat) : StId := ⟨r.die, 4 * r.px + x, 4 * r.py + y⟩

/-- A fresh identifier. -/
def State.fresh (s : State) : State := { s with nextId := s.nextId + 1 }

/-- A free value is drawn: the counter advances (log 6). -/
def State.draw (s : State) : State := { s with free := s.free + 1 }

/-- Put an event in front of the agenda, or at its end. -/
def State.soon (s : State) (i : Instr) (a : EvArg) : State := { s with agenda := (i, a) :: s.agenda }
/-- The accesses of a cycle's boundary, which stand last in its agenda: what performs at a home or in a window, and a copy engine's writes (R248). -/
def boundary (e : Instr × EvArg) : Bool := match e.1 with | .homePerform | .copyWrite | .windowAccess | .mirrorRead => true | _ => false
/-- Put a landing at the end of the cycle, before the accesses of its boundary: a window write of the same register stands (R248). -/
def State.lands (s : State) (i : Instr) (a : EvArg) : State :=
  { s with agenda := s.agenda.takeWhile (fun e => !boundary e) ++ (i, a) :: s.agenda.dropWhile fun e => !boundary e }
def State.later (s : State) (i : Instr) (a : EvArg) : State := { s with agenda := s.agenda ++ [(i, a)] }

/-! ### Homes and scopes (R31, R282) -/

/-- Frames of one die (R31). -/
def dieFrames : Nat := 2 * Config.stackFrames

/-- HOME of a frame: the die whose stacks hold it (R31). -/
def frameHome (f : Nat) : Nat := f / dieFrames
/-- The die on which a line is homed. -/
def lineHome (l : Nat) : Nat := frameHome (l / 512)

/-- Whether a home on die d lies within a scope of a station (R282). -/
def homeIn (sc : Scope) (i : StId) (d : Nat) : Bool :=
  match sc with
  | .pkg | .pod => true
  | .die => d == i.die
  | _ => false

/-! ### Channels and routes -/

def Station.modC (t : Station) (c : Fin 8) (f : Fifo → Fifo) : Station := { t with c := t.c.set c (f t.c[c]) }

/-- The first-hop FIFO of a route (R147): its first hop, or the destination's input channel. -/
def State.firstHop? (s : State) (st : StId) (o : Fin 8) : Option Fifo :=
  match s.route? st o with
  | none => none
  | some r =>
    match r.hops with
    | h :: _ => some h.fifo
    | [] =>
      match r.dests with
      | (d, c) :: _ => (s.station? d).map (fun t => t.c[c])
      | [] => none

/-- Change the first-hop FIFO of a route. -/
def State.modFirstHop (s : State) (st : StId) (o : Fin 8) (f : Fifo → Fifo) : State :=
  match s.route? st o with
  | none => s
  | some r =>
    match r.hops with
    | h :: hs =>
      { s with routes := s.routes.map fun q => if q.id = r.id then { q with hops := { h with fifo := f h.fifo } :: hs } else q }
    | [] =>
      match r.dests with
      | (d, c) :: _ => s.modStation d (fun t => t.modC c f)
      | [] => s

/-- Room for `n` tokens on an output (R159 condition 3). -/
def State.outRoom (s : State) (st : StId) (o : Fin 8) (n : Nat) : Bool :=
  match s.firstHop? st o with
  | none => false
  | some f => decide (n ≤ f.room)

/-! ### Handles (R151-R153) -/

/-- NSLOT = SIZE / 64. -/
def HEntry.nslot (h : HEntry) : Nat := h.size.toNat / 64

/-- fill of a ring or phase handle; 0 for a plain one (R153, R189). -/
def HEntry.fill (h : HEntry) : Nat :=
  match h.kind with
  | .plain => 0
  | .ring => (h.pcnt - h.ccnt).toNat
  | .phase => Nat.min h.pcnt.toNat h.nslot

/-- Slots claimed and not yet counted (R161). -/
def Station.claimed (t : Station) (n : Fin 16) : Nat := (t.claims.filter (fun c => c.h = n)).length

/-- free of a ring or phase handle, counted modulo 2^32 (R153). -/
def Station.hfree (t : Station) (n : Fin 16) : Nat :=
  match t.h[n].kind with
  | .plain => 0
  | .ring => (BitVec.ofNat 32 t.h[n].nslot - (t.h[n].pcnt - t.h[n].ccnt) - BitVec.ofNat 32 (t.claimed n)).toNat
  | .phase => (t.h[n].nslot - t.h[n].fill) % 2 ^ 32

/-- Byte offset of the slot with a counter value. -/
def HEntry.slotAt (h : HEntry) (k : BitVec 32) : Nat := h.base.toNat + 64 * (k.toNat % h.nslot)

/-- The element at a counter value: a ring or phase consume reads the local store or the live bank (R153). -/
def Station.element (t : Station) (n : Fin 16) (k : BitVec 32) : V512 :=
  BitVec.ofNat 512 (Memory.read t.store (t.h[n].slotAt k) 64)

/-- Write an element: a ring's store or live bank, a phase's shadow bank (R153). -/
def Station.putElement (t : Station) (n : Fin 16) (k : BitVec 32) (x : V512) : Station :=
  match t.h[n].kind with
  | .phase => { t with shadow := Memory.write t.shadow (t.h[n].slotAt k) 64 x.toNat }
  | _ => { t with store := Memory.write t.store (t.h[n].slotAt k) 64 x.toNat }

def Station.modH (t : Station) (n : Fin 16) (f : HEntry → HEntry) : Station := { t with h := t.h.set n (f t.h[n]) }

/-- The field that a field code names (Table 7.8). -/
def HEntry.setField (h : HEntry) (f : HField) (x : Word) : HEntry :=
  match f with
  | .base => { h with base := x }
  | .size => { h with size := x.setWidth 40 }
  | .pcnt => { h with pcnt := x.setWidth 32 }
  | .ccnt => { h with ccnt := x.setWidth 32 }
  | .dcnt => { h with dcnt := x.setWidth 16 }
  | .flags => h

/-- Claim the slot at PCNT + w (R161). -/
def Station.claimElem (t : Station) (n : Fin 16) (id : Nat) : Station :=
  { t with claims := t.claims ++ [⟨n, id, t.h[n].pcnt + BitVec.ofNat 32 (t.claimed n), false⟩] }

/-- Count the landed claims that no earlier claim of the same handle precedes: PCNT advances past each. -/
def Station.settleClaims (t : Station) (n : Fin 16) : List HClaim → Station
  | [] => { t with claims := [] }
  | c :: r =>
    if c.h = n then
      if c.landed then Station.settleClaims (t.modH n fun h => { h with pcnt := h.pcnt + 1 }) n r
      else { t with claims := c :: r }
    else
      let u := Station.settleClaims t n r
      { u with claims := c :: u.claims }

/-- An element lands in its claimed slot. -/
def Station.landElem (t : Station) (n : Fin 16) (id : Nat) (x : V512) : Station :=
  match t.claims.find? (fun c => c.h = n && c.id == id) with
  | none => t
  | some c =>
    let t := t.putElement n c.slot x
    t.settleClaims n (t.claims.map fun c => if c.h = n ∧ c.id = id then { c with landed := true } else c)

/-! ### Fault tokens and the fault queue (R164-R167) -/

/-- The payload of a fault token (Table 6.7). -/
def faultPayload (t : Station) (ctx : Fin 8) (slot : Fin 32) (f : FaultC) : V512 :=
  BitVec.ofNat 512
    (f.code % 256 + t.rx % 64 * 2 ^ 8 + t.ry % 64 * 2 ^ 14 + ctx.val * 2 ^ 20 + slot.val * 2 ^ 23 + t.id.die % 4 * 2 ^ 28 +
      f.info % 2 ^ 32 * 2 ^ 32 + f.addr % 2 ^ 64 * 2 ^ 64)

/-- A fault token (R164). -/
def faultToken (t : Station) (ctx : Fin 8) (slot : Fin 32) (sl : Slack) (f : FaultC) : Token :=
  ⟨faultPayload t ctx slot f, unitSide, 0, 0, 0, true, sl.bg, sl.n⟩

/-- Corrupt data read from a station's storage (R435). -/
def storageFault : FaultC := ⟨0x0A, 2, 0⟩

/-- Whether an uncorrectable error stands in the bytes [a, a + n) of a station's local store or live bank, or of its shadow bank. -/
def Station.wornIn (t : Station) (shadow : Bool) (a n : Nat) : Bool :=
  t.worn.any fun w => w.1 == shadow && decide (a / 8 ≤ w.2) && decide (w.2 ≤ (a + n - 1) / 8)

/-- CODE of a fault token. -/
def Token.code (t : Token) : Byte := t.data.extractLsb' 0 8

/-- Taking a fault: the token enters the region's fault queue, c7 of the station that `.fault` names;
with the queue full, or in a region without one, the region halts (R167). -/
def State.pushFault (s : State) (voy reg : Nat) (t : Token) : State :=
  match s.region? voy reg with
  | none => s
  | some r =>
    match r.flt with
    | none => s.later .regionHalt (.halt voy reg t.code (t.data.extractLsb' 0 128))
    | some (x, y, _) =>
      match s.station? (r.at x y) with
      | none => s
      | some q =>
        if 0 < q.c[7].room then (s.modStation q.id fun u => u.modC 7 (·.push s.nextId (some t) 0)).fresh
        else s.later .regionHalt (.halt voy reg t.code (t.data.extractLsb' 0 128))

/-- A pending event for the region's monitor channel: the path holds 16 (R194); an event that finds it full is lost (log 76). -/
def State.pushEvent (s : State) (voy reg : Nat) (t : Token) : State :=
  s.modRegion voy reg fun r => if r.events.length < 16 then { r with events := r.events ++ [t] } else r

/-- The overdue counter of a station adds 1: every 256th increment is an event, or each is a fault under trapping (R56). DESIGN CHOICE (log 86): the slack
counter of the event token (992), and the slack (0), context (0) and slot (0) of the fault token, which the spec does not give. -/
def State.countOverdue (s : State) (i : StId) : State :=
  match s.station? i with
  | none => s
  | some t =>
    let n := t.overdue + 1
    let s := s.modStation i fun u => { u with overdue := n }
    match (s.region? t.voy t.reg).bind (·.mon) with
    | none => s
    | some (_, _, _, trap) =>
      let x := BitVec.ofNat 64 (t.rx % 64 + t.ry % 64 * 2 ^ 6 + n.toNat * 2 ^ 32)
      if trap then
        s.pushFault t.voy t.reg (faultToken t 0 0 ⟨false, 0⟩ ⟨0x08, n.toNat, 0⟩)
      else if n.toNat % 256 = 0 then s.pushEvent t.voy t.reg (Token.scalar x ⟨false, 992⟩)
      else s

/-! ### Effects -/

/-- The nodes that a hint vector lists: positions up to the first 0xFF, those beyond K or listed before skipped (R399). -/
def hintList (cands : List FEntry) (lanes : List Nat) : List Nat :=
  (lanes.takeWhile (· ≠ 0xFF)).foldl (fun acc p => match cands[p]? with | some f => if acc.contains f.node then acc else acc ++ [f.node] | none => acc) []

/-- What `pub` does at the end of its cycle (R191): the banks exchange the range that the handle had, and its counters are 0. -/
def pubEffects (n : Fin 16) (h : HEntry) : List Effect := [.exchange h.base.toNat h.size.toNat, .setH n .pcnt 0, .setH n .ccnt 0]

/-- The counter of a handle that an effect writes at once: a lower slot's write of it in the same cycle does not stand (R190). -/
def Effect.counter? : Effect → Option (Fin 16 × HField)
  | .addPcnt n _ => some (n, .pcnt)
  | .landElem n _ _ => some (n, .pcnt)
  | .addCcnt n _ => some (n, .ccnt)
  | .popRing n => some (n, .ccnt)
  | _ => none

/-- A station without the writes of handle counters that are to land in this cycle and that these effects replace. -/
def Station.dropCounters (t : Station) (es : List Effect) : Station :=
  let gone : List (Fin 16 × HField) := es.filterMap Effect.counter?
  let keep : Effect → Bool | .setH n f _ => !gone.contains (n, f) | _ => true
  { t with flights := t.flights.map fun f => if f.left = 0 then { f with effs := f.effs.filter keep } else f }

/-- Who has an effect: station, context, slot. -/
structure Who where
  st   : StId
  ctx  : Fin 8
  slot : Fin 32
  deriving DecidableEq, Repr

def Station.modCtx (t : Station) (c : Fin 8) (f : Ctx → Ctx) : Station := { t with ctx := t.ctx.set c (f t.ctx[c]) }

/-- A counter that stands at 0 (R52). -/
def Token.overdue (t : Token) : Bool := !t.bg && t.slack == 0

/-- A token enters the first hop of an output (R147). -/
def State.place (s : State) (st : StId) (o : Fin 8) (t : Token) : State := (s.modFirstHop st o (·.push s.nextId (some t) 0)).fresh

/-- A token that a station emits: one emitted overdue counts (R56). -/
def State.emit (s : State) (st : StId) (o : Fin 8) (t : Token) : State :=
  let s := s.place st o t
  if t.overdue then s.countOverdue st else s

/-- A result fills its claimed entry. -/
def State.fillOut (s : State) (st : StId) (o : Fin 8) (id : Nat) (t : Token) : State :=
  let s := s.modFirstHop st o (·.fill id t)
  if t.overdue then s.countOverdue st else s

/-- A write to a pending register by a higher slot of the same cycle replaces the write still in flight, with the end of its pending (R161). -/
def Station.cancelFlights (t : Station) (r : PReg) (keep : Effect → Bool) : Station :=
  { t with flights := t.flights.map (fun f => { f with effs := f.effs.filter fun x => keep x && decide (x ≠ .unpend r) }),
           pend := t.pend.filter (fun q => q ≠ r) }

/-- The destination that a pending register stands for. -/
def PReg.dest : PReg → Dest
  | .d n => .d n
  | .v n => .v n
  | _ => .none

/-- The same for a result still owed by the memory system or by the tree engine. -/
def State.cancelDest (s : State) (st : StId) (r : PReg) : State :=
  if r.dest = .none then s
  else
    { s with reqs := s.reqs.map fun (q : Req) => if q.st = st ∧ q.dest = r.dest then { q with dest := .none } else q }.modStation st fun t =>
      { t with sd := t.sd.map fun (d : Sd) => { d with eng := d.eng.map fun (j : TreeJob) => if j.dest = r.dest then { j with dest := .none } else j } }

/-- An identifier has been used. -/
def State.useId (s : State) (id : Nat) : State := { s with nextId := Nat.max s.nextId (id + 1) }

def Effect.notD (n : Fin 8) : Effect → Bool | .setD m _ => m ≠ n | _ => true
def Effect.notV (n : Fin 8) : Effect → Bool | .setV m _ => m ≠ n | _ => true

/-- A d, v or p register, an accumulator row, a tile, a z register: what an effect does inside its own station. -/
def Station.apply (t : Station) (w : Who) : Effect → Station
  | .pop c => t.modC c Fifo.pop
  | .popRing h => t.modH h fun e => { e with ccnt := e.ccnt + 1 }
  | .setD n x => let t := t.cancelFlights (.d n) (Effect.notD n); { t with d := t.d.set n x }
  | .setV n x => let t := t.cancelFlights (.v n) (Effect.notV n); { t with v := t.v.set n x.held }
  | .setP n b => { t with p := if b then t.p ||| BitVec.twoPow 8 n.val else t.p &&& ~~~(BitVec.twoPow 8 n.val) }
  | .claimElem h id => t.claimElem h id
  | .landElem h id x => t.landElem h id x
  | .pend (.d n) => let t := t.cancelFlights (.d n) (Effect.notD n); { t with pend := .d n :: t.pend }
  | .pend (.v n) => let t := t.cancelFlights (.v n) (Effect.notV n); { t with pend := .v n :: t.pend }
  | .pend r => { t with pend := r :: t.pend }
  | .unpend r => { t with pend := t.pend.filter (fun q => q ≠ r) }
  | .setH n f x => t.modH n fun e => e.setField f x
  | .addPcnt n k => t.modH n fun e => { e with pcnt := e.pcnt + k }
  | .addCcnt n k => t.modH n fun e => { e with ccnt := e.ccnt + k }
  | .exchange b n => let (l, r) := Memory.exchange t.store t.shadow b n; { t with store := l, shadow := r }
  | .retag n v => { t with hctx := t.hctx.set n v }
  | .setCnt n x => { t with cnt := t.cnt.set n x }
  | .setRep x => t.modCtx w.ctx fun c => { c with reps := c.reps.set w.slot x }
  | .setBase b => t.modCtx w.ctx fun c => { c with base := b }
  | .yield n => t.modCtx w.ctx fun c => { c with yield := if n = 0 then 0 else n.toNat + 1 }
  | .busy u n => { t with busy := (u, n) :: t.busy }
  | .setZ n z => { t with ss := t.ss.map fun x => { x with z := x.z.set n z } }
  | .slen c => t.modCtx w.ctx fun x => { x with len := c }
  | .stream io => { t with ss := t.ss.map fun x => { x with io := some io } }
  | .setTile k x => { t with mat := t.mat.map fun m => { m with t := m.t.set k { x with parks := m.t[k].parks } } }
  | .setAcc k x => { t with mat := t.mat.map fun m => { m with a := m.a.set k { x with parks := m.a[k].parks } } }
  | .setG g row x =>
    { t with mat := t.mat.map fun m =>
        { m with g := m.g.set g (match row with | some r => m.g[g].set r x | none => Vector.replicate 64 x) } }
  | .unbind c =>
    { t with mat := t.mat.map fun m =>
        { m with t := m.t.map fun x => if x.fill = some c then { x with fill := none } else x } }
  | .step x => { t with mat := t.mat.map fun m => { m with step := some x } }
  | .writeLocal sh a n x =>
    if sh then { t with shadow := Memory.write t.shadow a n x.toNat } else { t with store := Memory.write t.store a n x.toNat }
  | .hold h => t.modCtx w.ctx fun c => { c with holds := c.holds ++ [h] }
  | .hints q lanes =>
    { t with sd := t.sd.map fun d =>
        let y := d.q[q]
        match y.walk with
        | some w =>
          if y.state = 2 then
            { d with q := d.q.set q { y with state := 1, walk := some { w with paused := false, hints := hintList w.cands lanes, cands := [] } } }
          else d
        | none => d }
  | .setQ q x => { t with sd := t.sd.map fun d => { d with q := d.q.set q x } }
  | .engine j => { t with sd := t.sd.map fun d => { d with eng := j } }
  | _ => t

/-- Add or change the arrival record of an entry (R289). -/
def setArr (k : BarKey) (f : ArrRec → ArrRec) : List ArrRec → List ArrRec
  | [] => [f ⟨k, false, none⟩]
  | a :: r => if a.key = k then f a :: r else a :: setArr k f r

/-- A park takes its slot (R223-R225): the row is parked from the end of the firing cycle, and pending until the park lands. -/
def Mat.park (m : Mat) (u row : Nat) (owner : StId) (v : VReg) : Mat :=
  let p : Park := ⟨row, owner, v, false⟩
  if hu : u < 4 then
    let x := m.t[u]
    { m with t := m.t.set u { x with parks := p :: x.parks.filter (fun q => q.row ≠ row) } }
  else if ha : u - 4 < 2 then
    let x := m.a[u - 4]
    { m with a := m.a.set (u - 4) { x with parks := p :: x.parks.filter (fun q => q.row ≠ row) } }
  else m

/-- A park lands: the register's bits and sidecar stand in the row (R206, R224). -/
def Mat.parkLands (m : Mat) (u row : Nat) : Mat :=
  let land (q : Park) : Park := if q.row = row then { q with landed := true } else q
  if hu : u < 4 then
    let x := m.t[u]
    match x.parks.find? (fun q => q.row == row) with
    | none => m
    | some p =>
      { m with t := m.t.set u { x with
          rows := if h : row < 64 then x.rows.set row p.reg.data else x.rows,
          scales := if h : row < 64 then x.scales.set row p.reg.side else x.scales,
          parks := x.parks.map land } }
  else if ha : u - 4 < 2 then
    { m with a := m.a.set (u - 4) { m.a[u - 4] with parks := m.a[u - 4].parks.map land } }
  else m

/-- What a slot holds: a tile's row and scale as they stand, with the tag of the record (R224). -/
def Mat.slotReg (m : Mat) (u : Nat) (p : Park) : VReg :=
  if hu : u < 4 then
    if h : p.row < 64 then { p.reg with data := m.t[u].rows[p.row], side := m.t[u].scales[p.row] } else p.reg
  else p.reg

/-- Release a parked row. -/
def Mat.unpark (m : Mat) (u row : Nat) : Mat :=
  if hu : u < 4 then
    { m with t := m.t.set u { m.t[u] with parks := m.t[u].parks.filter (fun q => q.row ≠ row) } }
  else if ha : u - 4 < 2 then
    { m with a := m.a.set (u - 4) { m.a[u - 4] with parks := m.a[u - 4].parks.filter (fun q => q.row ≠ row) } }
  else m

/-- The parks of a unit. -/
def Mat.parks (m : Mat) (u : Nat) : List Park :=
  if hu : u < 4 then m.t[u].parks else if ha : u - 4 < 2 then m.a[u - 4].parks else []

/-- A station displaced within its quad. -/
def shiftSt (i : StId) (dx dy : Int) : StId := ⟨i.die, ((i.x : Int) + dx).toNat, ((i.y : Int) + dy).toNat⟩

/-- A task's voyage-wide effects end: the task is done (R63, R291). -/
def State.taskDone (s : State) (w : Who) : State :=
  match (s.station? w.st).bind (fun t => t.ctx[w.ctx].running) with
  | none => s
  | some id =>
    { s with tasks := s.tasks.map fun (k : Task) => if k.id = id then { k with st := .done } else k }.modStation w.st fun t =>
      (t.modC 6 fun f => { f with q := f.q.filter (fun e => e.id ≠ id) }).modCtx w.ctx fun c => { c with running := none, ts := 0 }

/-- A monitor (R290). -/
def ReqOp.monitor : ReqOp → Bool
  | .monw => true
  | .monc _ => true
  | _ => false

/-- Effects with a footprint outside the registers of the firing station. -/
def State.apply (w : Who) (s : State) : Effect → State
  | .emit o t => s.emit w.st o t
  | .setD n x => (s.cancelDest w.st (.d n)).modStation w.st fun t => t.apply w (.setD n x)
  | .setV n x => (s.cancelDest w.st (.v n)).modStation w.st fun t => t.apply w (.setV n x)
  | .pend r => (s.cancelDest w.st r).modStation w.st fun t => t.apply w (.pend r)
  | .claimOut o id => (s.modFirstHop w.st o (·.push id none 0)).useId id
  | .fillOut o id t => s.fillOut w.st o id t
  | .faultq t =>
    match s.station? w.st with
    | none => s
    | some u => s.pushFault u.voy u.reg t
  | .brk v =>
    match s.station? w.st with
    | none => s
    | some u =>
      let x := u.rx % 64 + u.ry % 64 * 2 ^ 6 + w.ctx.val * 2 ^ 14 + w.slot.val * 2 ^ 17 + 2 ^ 22 + v.toNat * 2 ^ 32
      s.pushEvent u.voy u.reg (Token.scalar (BitVec.ofNat 64 x) ⟨false, 992⟩)
  | .halt v =>
    match s.station? w.st with
    | none => s
    | some u =>
      s.later .regionHalt (.halt u.voy u.reg 0x0C ((faultPayload u w.ctx w.slot ⟨0x0C, v.toNat, 0⟩).extractLsb' 0 128))
  | .ckpt =>
    match s.station? w.st with
    | none => s
    | some u => s.modRegion u.voy u.reg fun r => { r with snap := .pending 0, gen := r.gen + 1 }
  | .park dx dy u row v => s.modStation (shiftSt w.st dx dy) fun t => { t with mat := t.mat.map (·.park u row w.st v) }
  | .parkLands dx dy u row => s.modStation (shiftSt w.st dx dy) fun t => { t with mat := t.mat.map (·.parkLands u row) }
  | .unpark dx dy u row => s.modStation (shiftSt w.st dx dy) fun t => { t with mat := t.mat.map (·.unpark u row) }
  | .req r =>
    let s := { s with reqs := s.reqs ++ [r] }.useId r.id
    let s := if !r.slack.bg && r.slack.n = 0 then s.countOverdue w.st else s
    let s := if r.credit then s.modStation w.st fun t => { t with credits := t.credits + 1 } else s
    if r.op.monitor then s.modStation w.st fun t => { t with mons := t.mons + 1 } else s
  | .copy c => ({ s with copies := s.copies ++ [c] }.useId c.id).modStation w.st fun t => { t with copies := t.copies + 1 }
  | .bar m =>
    match m.op with
    | .drop | .look => { s with barMsgs := s.barMsgs ++ [m] }
    | _ =>
      { s with barMsgs := s.barMsgs ++ [m] }.modStation w.st fun t =>
        t.modCtx w.ctx fun c => { c with arrs := setArr m.key (fun a => { a with pending := true }) c.arrs }
  | .spawn ts h args =>
    match s.station? w.st with
    | none => s
    | some u =>
      let parent := u.ctx[w.ctx].running
      let pts := if parent.isSome then u.ctx[w.ctx].ts else 0
      let ts' := if parent.isSome && decide (ts.toNat < pts.toNat) then pts else ts
      { s with tasks := s.tasks ++
          [(⟨s.nextId, u.voy, w.st.die, ts', h, args, parent, if parent.isSome then .held else .ready, false, 0⟩ : Task)] }.fresh
  | .taskDone => s.taskDone w
  | .taskFault t =>
    match s.station? w.st with
    | none => s
    | some u =>
      let s := match u.ctx[w.ctx].running with
        | none => s
        | some id => { s with tasks := s.tasks.map fun (k : Task) => if k.id = id then { k with spoiled := true } else k }
      s.pushFault u.voy u.reg t
  | .dropCache sc =>
    s.modStation w.st fun t =>
      { t with cache := t.cache.filter fun e => !homeIn sc t.id (lineHome e.1) }
  | .claimElem h id => (s.useId id).modStation w.st fun t => t.apply w (.claimElem h id)
  | e => s.modStation w.st fun t => t.apply w e

/-- Effects in order. -/
def State.applyAll (w : Who) (s : State) (es : List Effect) : State := es.foldl (State.apply w) s

end Sys2Proof.Machine
end

