-- ==== Sys2Proof/Machine/Pages.lean ====
section
/-! DEFINITION. Frames, page tables, the Cadastre's resolutions, the physical map, homes, the enumeration table and the accesses of the Helm
(R240-R249, R256-R260, R468, R469; R26-R31). -/

namespace Sys2Proof.Machine

open Sys2Proof

/-! ### Bit fields of a 64-bit word -/

/-- Bits [lo + n - 1 : lo]. -/
def fld (w lo n : Nat) : Nat := w / 2 ^ lo % 2 ^ n

/-- The word with those bits replaced. -/
def setFld (w lo n x : Nat) : Nat := w - fld w lo n * 2 ^ lo + x % 2 ^ n * 2 ^ lo

/-- The number with its byte i replaced. -/
def setByte (x i : Nat) (b : Byte) : Nat := setFld x (8 * i) 8 b.toNat

/-! ### Device memory -/

/-- Frames of a device of the largest grade: the map has no device memory above them (Table 10.6). -/
def deviceFrames : Nat := Grade.nmt7204.dies * dieFrames

/-- Frames of this device (R2, R31). -/
def State.frames (s : State) : Nat := s.grade.dies * dieFrames

/-- Store bytes in device memory, remembering for each line what the memory behind L2 last held (R280). -/
def State.storeDev (s : State) (pa n x : Nat) : State :=
  let old := (List.range ((pa % 128 + n + 127) / 128)).filterMap fun i =>
    if s.l2.any (fun e => e.1 == pa / 128 + i) then none else some (pa / 128 + i, Memory.read s.mem ((pa / 128 + i) * 128) 128)
  { s with mem := Memory.write s.mem pa n x, l2 := old ++ s.l2 }

def State.loadDev (s : State) (pa n : Nat) : Nat := Memory.read s.mem pa n

/-- Drop a line without writing it back: each byte keeps its value or takes the one device memory last held (R280). -/
def State.discardLine (s : State) (line : Nat) : State :=
  match s.l2.find? (fun e => e.1 == line) with
  | none => s
  | some (_, x) =>
    (List.range 128).foldl (fun s i =>
      let s' := s.draw
      if Config.freeKeep s.free then s' else { s' with mem := Memory.set s'.mem (line * 128 + i) (BitVec.ofNat 8 (x / 2 ^ (8 * i))) })
      { s with l2 := s.l2.filter (fun e => e.1 ≠ line) }

/-- The uncorrectable error that stands in the bytes [pa, pa + n): the corrupt-data fault with its INFO (R262, R435). -/
def State.spoilt (s : State) (pa n : Nat) : Option FaultC :=
  (s.bad.find? fun l => pa / 128 ≤ l.1 && decide (l.1 ≤ (pa + n - 1) / 128)).map fun l => ⟨0x0A, l.2, pa⟩

def State.corrupt (s : State) (pa n : Nat) : Bool := (s.spoilt pa n).isSome

/-- Why an access does not go on: it fails, it waits for a frame of a pool, or an uncorrectable error stands in what it reads. -/
inductive Miss
  | fail | frames (die : Nat) | corrupt (f : FaultC)
  deriving DecidableEq, Repr

/-! ### Frame descriptors and pools (R245, R258, R259, R468) -/

/-- The descriptor of a frame; one that nothing has written reads REFS 1 (R468). -/
def State.desc (s : State) (f : Nat) : Nat :=
  match s.descs.find? (fun d => d.frame == f) with
  | some d => d.w.toNat
  | none => 1 + frameHome f % 4 * 2 ^ 16

def State.setDesc (s : State) (f w : Nat) : State :=
  { s with descs := ⟨f, BitVec.ofNat 64 w⟩ :: s.descs.filter (fun d => d.frame ≠ f) }

def State.modDesc (s : State) (f : Nat) (g : Nat → Nat) : State := s.setDesc f (g (s.desc f))

def descRefs (w : Nat) : Nat := fld w 0 16
def descHome (w : Nat) : Nat := fld w 16 2
def descScls (w : Nat) : Nat := fld w 21 3
def descMchk (w : Nat) : Nat := fld w 24 16

def State.modDie (s : State) (d : Nat) (f : Die → Die) : State :=
  if h : d < 4 then { s with dies := s.dies.set d (f s.dies[d]) } else s

def State.die? (s : State) (d : Nat) : Option Die := if h : d < 4 then some s.dies[d] else none

/-- A die that is live and ready. -/
def State.dieLive (s : State) (d : Nat) : Bool := match s.die? d with | some x => x.live | none => false

/-- A new mapping check, drawn from the device generator (R245, log 6). -/
def State.remark (s : State) (f : Nat) : State := (s.modDesc f fun w => setFld w 24 16 (Config.freeMchk s.free).toNat).draw

/-- Take a frame from the pool of a die: REFS 1 and a new mapping check (R468). -/
def State.takeFrame (s : State) (d : Nat) : Option (Nat × State) :=
  match (s.die? d).map (·.pool) with
  | some (f :: r) =>
    let s := s.modDie d fun x => { x with pool := r }
    some (f, (s.modDesc f fun w => setFld (setFld (setFld w 0 16 1) 21 3 0) 40 22 0).remark f)
  | _ => none

/-- A mapping of a frame goes: a new mapping check (R257), and a frame whose REFS reaches 0 returns to the pool of its HOME die, the lender's when it was
lent (R259, R468). -/
def State.dropRef (s : State) (f : Nat) : State :=
  let s := s.remark f
  let w := s.desc f
  let n := descRefs w - 1
  let s := s.setDesc f (setFld w 0 16 n)
  if n = 0 then
    let s := s.modDesc f fun w => setFld (setFld (setFld (setFld w 18 1 0) 19 2 0) 21 3 0) 40 22 0
    s.modDie (descHome w) fun x => { x with pool := x.pool ++ [f] }
  else s

/-- The dies that a pool asks, in order: the next live die clockwise, the next counter-clockwise, the rest (R258). -/
def State.borrowOrder (s : State) (d : Nat) : List Nat :=
  let cw := [(d + 1) % 4, (d + 2) % 4, (d + 3) % 4].filter s.dieLive
  (cw.take 1 ++ cw.reverse.take 1 ++ cw).eraseDups

/-- An MSI-X vector of the owner's function; the board controller has no function (R449, R460). -/
def State.raise (s : State) (k : Nat) : State :=
  if s.owned ∧ s.owner.toNat < 8 then { s with vectors := s.vectors ++ [(s.owner.toNat, k)] } else s

/-- Borrow up to 64 frames for an empty pool; with none to be had the host driver is asked, through mailbox 15, and its vector
raised, once, and not again for accesses that it has answered with none (R258, R461). -/
def State.borrow (s : State) (d : Nat) : State :=
  match (s.borrowOrder d).find? (fun k => match s.die? k with | some x => !x.pool.isEmpty | none => false) with
  | some k =>
    let batch := match s.die? k with | some x => x.pool.take 64 | none => []
    let s := s.modDie k fun x => { x with pool := x.pool.drop 64 }
    let s := batch.foldl (fun s f => s.modDesc f fun w => setFld (setFld w 18 1 1) 19 2 d) s
    s.modDie d fun x => { x with pool := x.pool ++ batch }
  | none =>
    if s.asks.contains d || (s.die? d).any (·.refused) then s else ({ s with asks := s.asks ++ [d] } : State).raise 15

/-! ### Page tables (R242-R244) -/

def pteV (e : Nat) : Bool := e.testBit 0
def pteKind (e : Nat) : Nat := fld e 1 2
def pteR (e : Nat) : Bool := e.testBit 3
def pteW (e : Nat) : Bool := e.testBit 4
def pteC (e : Nat) : Bool := e.testBit 5
def pteVers (e : Nat) : Bool := e.testBit 6
def pteComp (e : Nat) : Bool := e.testBit 7
def pteFrame (e : Nat) : Nat := fld e 16 30

/-- What a walk finds: a level-2 entry and where it stands; or an uncorrectable error in a table (R262). -/
inductive Walked
  | absent | malformed | corrupt (f : FaultC) | leaf (at' : Nat) (e : Nat)
  deriving DecidableEq, Repr

/-- A table entry of level 0 or 1: V and the next frame, other bits 0. -/
def nextTable (e : Nat) : Except Walked Nat :=
  if !pteV e then .error .absent
  else if e ≠ 1 + pteFrame e * 2 ^ 16 then .error .malformed
  else .ok (pteFrame e)

/-- An entry of a table, unless its row has an uncorrectable error. -/
def State.entryAt (s : State) (a : Nat) : Except Walked Nat :=
  match s.spoilt a 8 with | some f => .error (.corrupt f) | none => .ok (s.loadDev a 8)

def State.rootOf (s : State) (asid : BitVec 16) : Option Nat := (s.roots.find? (fun r => r.1 == asid)).map (·.2)

/-- The walk of three levels (R242). -/
def State.walk (s : State) (asid : BitVec 16) (va : Nat) : Walked :=
  match s.rootOf asid with
  | none => .absent
  | some root =>
    match (s.entryAt (root * 2 ^ 16 + 8 * fld va 42 13)).bind nextTable with
    | .error x => x
    | .ok t1 =>
      match (s.entryAt (t1 * 2 ^ 16 + 8 * fld va 29 13)).bind nextTable with
      | .error x => x
      | .ok t2 =>
        let a := t2 * 2 ^ 16 + 8 * fld va 16 13
        match s.entryAt a with
        | .error x => x
        | .ok e =>
        if !pteV e then .absent
        else if fld e 9 7 ≠ 0 ∨ fld e 46 18 ≠ 0 ∨ pteKind e = 3 ∨ (pteKind e = 1 ∧ 4 ≤ pteFrame e) then .malformed
        else .leaf a e

/-- The level-2 entry that a walk finds exists, present or not: its address (R358). -/
def State.leafSlot (s : State) (asid : BitVec 16) (va : Nat) : Option Nat :=
  match s.rootOf asid with
  | none => none
  | some root =>
    match (s.entryAt (root * 2 ^ 16 + 8 * fld va 42 13)).bind nextTable with
    | .error _ => none
    | .ok t1 =>
      match (s.entryAt (t1 * 2 ^ 16 + 8 * fld va 29 13)).bind nextTable with
      | .error _ => none
      | .ok t2 => some (t2 * 2 ^ 16 + 8 * fld va 16 13)

/-- The result of a translation. -/
inductive Trans
  | pa (pa : Nat) (e : Nat) | fault (kind : Nat) | corrupt (f : FaultC) | held (why : Held)
  deriving DecidableEq, Repr

/-- Translate through a walked entry (R243, R244, R256). -/
def State.useEntry (s : State) (w : Walked) (va : Nat) (rd wr : Bool) : Trans :=
  match w with
  | .absent => .held .notPresent
  | .malformed => .fault 2
  | .corrupt f => .corrupt f
  | .leaf _ e =>
    if (rd && !pteR e) || (wr && !pteW e) then .fault 0
    else if pteKind e = 1 then .held .firstTouch
    else if pteKind e = 2 ∧ wr then .held .copyOnWrite
    else if wr ∧ descScls (s.desc (pteFrame e)) ≠ 0 then .held .decompress
    else .pa (pteFrame e * 2 ^ 16 + va % 2 ^ 16) e

def State.translate (s : State) (asid : BitVec 16) (va : Nat) (rd wr : Bool) : Trans := s.useEntry (s.walk asid va) va rd wr

/-! ### Resolutions (Table 10.8, R257) -/

/-- Every TLB drops a page (R257). -/
def State.shootdown (s : State) (asid : BitVec 16) (va : Nat) : State :=
  { s with ports := s.ports.map fun p => { p with tlb := p.tlb.filter fun t => !(t.1 == asid && t.2.1 == va / 2 ^ 16) } }

/-- Write a level-2 entry. -/
def State.setEntry (s : State) (asid : BitVec 16) (va at' e : Nat) : State := (s.storeDev at' 8 e).shootdown asid va

/-- The bytes of a frame become zero. -/
def State.zeroFrame (s : State) (f : Nat) : State :=
  { s with mem := s.mem.filter (fun c => c.1 / 2 ^ 16 != f), l2 := s.l2.filter (fun e => e.1 / 512 != f) }

/-- A frame of a pool, for an access that needs one. -/
def State.frameFor (s : State) (d : Nat) : Except Miss (Nat × State) :=
  match s.takeFrame d with | some x => .ok x | none => .error (.frames d)

/-- Copy the 64 KiB of one frame into another. -/
def State.copyFrame (s : State) (src dst : Nat) : State :=
  let cells := s.mem.filter (fun c => c.1 / 2 ^ 16 == src)
  let s := s.zeroFrame dst
  { s with mem := cells.foldl (fun m c => Memory.set m (dst * 2 ^ 16 + c.1 % 2 ^ 16) c.2) s.mem }

/-- First touch: a zeroed frame from the pool of the die in FRAME[17:16], or of the fallback die. -/
def State.firstTouch (s : State) (asid : BitVec 16) (va fallback : Nat) (comp : Bool) : Except Miss State :=
  match s.walk asid va with
  | .leaf a e =>
    if pteKind e ≠ 1 then .ok s
    else
      let d := pteFrame e % 4
      let d := if s.dieLive d then d else fallback
      match s.frameFor d with
      | .error m => .error m
      | .ok (f, s) =>
        let e := setFld (setFld e 1 2 0) 16 30 f
        .ok ((s.zeroFrame f).setEntry asid va a (if comp then setFld e 7 1 1 else e))
  | _ => .ok s

/-- A store to a shared page: a private copy while REFS is above 1, else the entry becomes normal in place. -/
def State.copyOnWrite (s : State) (asid : BitVec 16) (va : Nat) : Except Miss State :=
  match s.walk asid va with
  | .leaf a e =>
    if pteKind e ≠ 2 then .ok s
    else
      let f := pteFrame e
      let w := s.desc f
      if descRefs w ≤ 1 then .ok ((s.setEntry asid va a (setFld e 1 2 0)).remark f)
      else
        match s.spoilt (f * 2 ^ 16) (2 ^ 16), s.frameFor (descHome w) with
        | some c, _ => .error (.corrupt c)
        | none, .error m => .error m
        | none, .ok (g, s) =>
          let s := (s.copyFrame f g).dropRef f
          .ok (s.setEntry asid va a (setFld (setFld e 1 2 0) 16 30 g))
  | _ => .ok s

/-- A store to a compressed page: the page moves into a full frame, and its slot is free. -/
def State.decompress (s : State) (asid : BitVec 16) (va : Nat) : Except Miss State :=
  match s.walk asid va with
  | .leaf a e =>
    let f := pteFrame e
    if descScls (s.desc f) = 0 then .ok s
    else
      match s.spoilt (f * 2 ^ 16) (2 ^ 16), s.frameFor (descHome (s.desc f)) with
      | some c, _ => .error (.corrupt c)
      | none, .error m => .error m
      | none, .ok (g, s) => .ok (((s.copyFrame f g).dropRef f).setEntry asid va a (setFld e 16 30 g))
  | _ => .ok s

/-- The TLB of a port, which holds none before its first entry, and the rest of its record (R242). -/
def State.modPort (s : State) (d i : Nat) (f : Port → Port) : State :=
  let own (p : Port) : Bool := p.die == d && p.idx == i
  let p := (s.ports.find? own).getD ⟨d, i, [], 0, 0⟩
  { s with ports := f p :: s.ports.filter fun p => !own p }

/-! ### The physical map (R246, R247) -/

/-- What a physical address names. -/
inductive PaCls
  | dev | window (st : StId) (off : Nat) | desc (frame : Nat) (byte : Nat) | mmio (off : Nat) | bad
  deriving DecidableEq, Repr

def paCls (pa : Nat) : PaCls :=
  if pa < deviceFrames * 2 ^ 16 then .dev
  else if 0x3C0000000000 ≤ pa ∧ pa < 0x3E0000000000 then
    let o := pa - 0x3C0000000000
    let slot := o % 2 ^ 39 / 2 ^ 27
    if 1 ≤ slot % 64 ∧ slot % 64 ≤ 56 ∧ 1 ≤ slot / 64 ∧ slot / 64 ≤ 40 then
      .window ⟨o / 2 ^ 39, slot % 64 - 1, slot / 64 - 1⟩ (o % 2 ^ 27)
    else .bad
  else if 0x3E0000000000 ≤ pa ∧ pa < 0x3E0200000000 then .desc ((pa - 0x3E0000000000) / 8) ((pa - 0x3E0000000000) % 8)
  else if 0x3FFFFFFF0000 ≤ pa ∧ pa < 0x400000000000 then .mmio (pa - 0x3FFFFFFF0000)
  else .bad

/-- What a physical address names on this device: a smaller grade has no memory above its last frame. -/
def State.cls (s : State) (pa : Nat) : PaCls := if s.frames * 2 ^ 16 ≤ pa ∧ pa < deviceFrames * 2 ^ 16 then .bad else paCls pa

/-- The window slot address of a station. -/
def slotAddr (i : StId) : Nat := 0x3C0000000000 + i.die * 2 ^ 39 + ((i.y + 1) * 64 + (i.x + 1)) * 2 ^ 27

/-! ### Homes (R20, R249) -/

def Die.sliceCount (d : Die) : Nat := ((List.range 96).filter (fun i => d.slices.getLsbD i)).length

/-- The home of an address of device memory: its die and the port index of its slice. -/
def State.home (s : State) (pa : Nat) : Nat × Nat :=
  let d := frameHome (pa / 2 ^ 16)
  match s.die? d with
  | none => (d, 0)
  | some x =>
    let live := (List.range 96).filter (fun i => x.slices.getLsbD i)
    let h := pa / 128
    (d, live.getD ((h ^^^ (h / 2 ^ 13) ^^^ (h / 2 ^ 26)) % live.length) 0)

/-! ### The enumeration table (R26-R31) -/

/-- Both ends of a link are trained: the clockwise link of a die is the counter-clockwise link of the next. -/
def linkUp (c : BitVec 2) (e : BitVec 2) : Bool := decide (2 ≤ c.toNat) && decide (2 ≤ e.toNat)

/-- Whether the clockwise link out of a die is up. -/
def State.linkUpCw (s : State) (d : Nat) : Bool :=
  match s.die? (d % 4), s.die? ((d + 1) % 4) with | some a, some b => linkUp a.cw b.ccw | _, _ => false

/-- Latency class between two logical dies: 2 across a down link or a diagonal, 0xF for a number that the grade does not have (R22, R24, R25). -/
def State.latClass (s : State) (i j : Nat) : Nat :=
  if s.grade.dies ≤ i ∨ s.grade.dies ≤ j then 0xF
  else if i = j then 0
  else match s.die? i, s.die? j with
    | some x, some y =>
      if j = (i + 1) % 4 then (if linkUp x.cw y.ccw then 1 else 2)
      else if i = (j + 1) % 4 then (if linkUp x.ccw y.cw then 1 else 2)
      else 2
    | _, _ => 0xF

/-- Live compute dies (Table 1.6). -/
def State.liveDies (s : State) : Nat := ((List.range 4).filter s.dieLive).length

/-- The state of a die's two links, as both their ends show it (R31). -/
def State.setLinks (s : State) (d : Nat) (cw ccw : BitVec 2) : State :=
  ((s.modDie d fun x => { x with cw := cw, ccw := ccw }).modDie ((d + 1) % 4) fun x => { x with ccw := cw }).modDie ((d + 3) % 4) fun x => { x with cw := ccw }

/-- An aligned 64-bit field of the table. The ready bit of a traverse link is its present state: it falls when the link goes down (DESIGN CHOICE, log 82:
R29 does not say). -/
def State.enumField (s : State) (off : Nat) : Nat :=
  if off = 0 then
    1 + s.grade.code * 2 ^ 24 + s.state.toNat * 2 ^ 32 + s.liveDies * 2 ^ 36 + s.failcnt.toNat * 2 ^ 40 + s.bootrsn.toNat * 2 ^ 48
  else if off = 8 then
    s.pilots.toNat + (if s.arbiter then 2 ^ 16 else 0) + packLanes 1 (s.links.toList.map fun l => if l.up then 1 else 0) * 2 ^ 32
  else if off = 0x10 then
    packLanes 4 ((List.range 16).map fun k => s.latClass (k / 4) (k % 4))
  else if 0x40 ≤ off ∧ off < 0x40 + 0x80 * s.grade.dies then
    match s.die? ((off - 0x40) / 0x80) with
    | none => 0
    | some d =>
      match (off - 0x40) % 0x80 with
      | 0 => (if d.live then 1 else 0) + 14 * 2 ^ 8 + 10 * 2 ^ 16 + d.phys * 2 ^ 24 + d.ready.toNat * 2 ^ 32 + d.rsn.toNat * 2 ^ 40 +
          (if d.live then d.sliceCount * 2 ^ 48 else 0)
      | 0x08 => d.cw.toNat + d.ccw.toNat * 2 ^ 8
      | 0x10 => if d.live then d.slices.toNat % 2 ^ 64 else 0
      | 0x18 => if d.live then d.slices.toNat / 2 ^ 64 else 0
      | 0x20 => Config.stackFrames + Config.stackFrames * 2 ^ 32
      | 0x28 => (off - 0x40) / 0x80 * dieFrames
      | _ => 0
  else 0

/-- A byte of the table. -/
def State.enumByte (s : State) (off : Nat) : Byte := BitVec.ofNat 8 (s.enumField (off / 8 * 8) / 2 ^ (8 * (off % 8)))

/-! ### Accesses of the Helm (R469) -/

/-- A Helm access: a result, or why there is none. -/
abbrev Helm (α : Type) : Type := Except Miss α

/-- The die whose Helm reads packets and images, and so takes frames for a first touch that names no live die: the lowest ready one (DESIGN CHOICE,
log 16). -/
def State.helmDie (s : State) : Nat := ((List.range 4).find? fun d => match s.die? d with | some x => x.live && x.ready.getLsbD 5 | none => false).getD 0

/-- The address that an access of a die's Helm reaches, after the Cadastre has resolved what it must. `c` asks for the C permission of an image. While no
frame can be had the Helm waits; an uncorrectable error makes the access fail (log 16). -/
def State.helmPage (s : State) (die : Nat) (asid : BitVec 16) (va : Nat) (wr c : Bool) : Helm (Nat × State) :=
  let rec go : Nat → State → Helm (Nat × State)
    | 0, _ => .error .fail
    | n + 1, s =>
      match s.walk asid va with
      | .leaf a e =>
        if c && !pteC e then .error .fail
        else
          let again (r : Except Miss State) : Helm (Nat × State) :=
            match r with | .ok s => go n s | .error (.frames d) => .error (.frames d) | .error _ => .error .fail
          match s.useEntry (.leaf a e) va (!wr) wr with
          | .pa pa _ => if s.cls pa = .dev then .ok (pa, s) else .error .fail
          | .held .firstTouch => again (s.firstTouch asid va die false)
          | .held .copyOnWrite => again (s.copyOnWrite asid va)
          | .held .decompress => again (s.decompress asid va)
          | _ => .error .fail
      | _ => .error .fail
  if 2 ^ 55 ≤ va then .error .fail else go 4 s

/-- The pieces of [va, va + n) on single pages: address and bytes. -/
def pageParts (va n : Nat) : List (Nat × Nat) :=
  let rec go : Nat → Nat → Nat → List (Nat × Nat)
    | 0, _, _ => []
    | k + 1, va, n =>
      if n = 0 then []
      else
        let m := Nat.min n (2 ^ 16 - va % 2 ^ 16)
        (va, m) :: go k (va + m) (n - m)
  go (n / 2 ^ 16 + 2) va n

/-- Read n bytes through an address space. -/
def State.helmRead (s : State) (die : Nat) (asid : BitVec 16) (va n : Nat) (c : Bool) : Helm (Nat × State) :=
  (pageParts va n).foldlM (fun (x, (s : State)) (a, m) => do
    let (pa, s) ← s.helmPage die asid a false c
    if s.corrupt pa m then .error .fail else .ok (x + s.loadDev pa m * 2 ^ (8 * (a - va)), s)) (0, s)

/-- Write n bytes; `put` says how they reach device memory. A write into what has an uncorrectable error fails (R262, log 16). -/
def State.helmWriteBy (put : State → Nat → Nat → Nat → State) (s : State) (die : Nat) (asid : BitVec 16) (va n x : Nat) : Helm State :=
  (pageParts va n).foldlM (fun (s : State) (a, m) => do
    let (pa, s) ← s.helmPage die asid a true false
    if s.corrupt pa m then .error .fail else .ok (put s pa m (x / 2 ^ (8 * (a - va))))) s

end Sys2Proof.Machine
end

