-- ==== Sys2Proof/Machine/Home.lean ====
section
/-! DEFINITION. A write that performs at its home: what it wakes (R41, R290, R308). -/

namespace Sys2Proof.Machine

open Sys2Proof

/-- What a write to the bytes [pa, pa + n) of device memory wakes: armed monitors of the same line, and the dependency waits,
which the processor evaluates again. -/
def State.wake (s : State) (pa n : Nat) : State :=
  let hit (q : Req) : Req :=
    match q.stage, q.parts with
    | .armed, [(_, a, _)] =>
      if pa / 128 ≤ a / 128 ∧ a / 128 ≤ (pa + n - 1) / 128 then
        let w : Word := BitVec.ofNat 64 (s.loadDev a 8)
        match q.op with
        | .monc x => if w = x then q else { q with stage := .hit w }
        | _ => { q with stage := .hit w }
      else q
    | _, _ => q
  { s with reqs := s.reqs.map hit, queues := s.queues.map fun k => if k.wait = .dep then { k with poll := 0 } else k }

/-- A store of n bytes performs in device memory. -/
def State.storeHome (s : State) (pa n x : Nat) : State := if n = 0 then s else (s.storeDev pa n x).wake pa n

/-- A write of a Helm performs at its home: monitors and dependency waits see it (R41, R290, R469). -/
def State.helmStore (s : State) (die : Nat) (asid : BitVec 16) (va n x : Nat) : Helm State := s.helmWriteBy State.storeHome die asid va n x

end Sys2Proof.Machine
end

