-- ==== Sys2Proof/Machine/Cells.lean ====
section
/-! DEFINITION. Update operations (R274, R275), repair cells (R250, R251, R253, R254), settle marks and the watermark (R252).
A mark m is held as m + 1, the least stamp that it does not cover, so that a mark below every stamp is 0 (log 12). -/

namespace Sys2Proof.Machine

open Sys2Proof

/-! ### apply_op (R275) -/

/-- A binary32 operation on codes. -/
def f32Op (f : Num → Num → Num) (a b : Nat) : Nat := convert (f (Tag.decode 34 (a % 2 ^ 32)) (Tag.decode 34 (b % 2 ^ 32))) 34 .rne .inf 0

def signed64 (x : Nat) : Int := (BitVec.ofNat 64 x).toInt

/-- apply_op(op, w, x, y), before the width of the operation is taken. -/
def applyOp (op : Nat) (w x y : Nat) : Nat :=
  match op with
  | 0 => x
  | 1 => (w + x) % 2 ^ 64
  | 2 => f32Op (Num.add false) w x
  | 3 => f32Op Num.mul w x
  | 4 => f32Op Num.max w x
  | 5 => w &&& x
  | 6 => w ||| x
  | 7 => w ^^^ x
  | 8 => if signed64 x < signed64 w then x else w
  | 9 => if signed64 w < signed64 x then x else w
  | 10 => Nat.min w x
  | 11 => Nat.max w x
  | 12 => (w + x) % 2 ^ 32
  | 13 => if w = y then x else w
  | _ => w

/-! ### Lines (R250) -/

def State.vline? (s : State) (asid : BitVec 16) (line : Nat) : Option VLine := s.cells.find? (fun l => l.asid == asid && l.line == line)

/-- Replace a line's record; a line without entries and readers is no longer active. -/
def State.setVline (s : State) (l : VLine) : State :=
  let rest := s.cells.filter (fun k => !(k.asid == l.asid && k.line == l.line))
  { s with cells := if l.hist.isEmpty && l.readers.isEmpty then rest else l :: rest }

/-- One entry applied to the 128 bytes of a line. -/
def Hist.apply (x : Nat) (e : Hist) : Nat := setFld x (8 * e.off) (8 * e.w) (applyOp e.op.toNat (fld x (8 * e.off) (8 * e.w)) e.x.toNat 0)

/-- value_at(line, stamp), all 128 bytes; the history stands in stamp order. -/
def State.lineAt (s : State) (asid : BitVec 16) (line : Nat) (st : Stamp) : Nat :=
  let base := s.loadDev (128 * line) 128
  match s.vline? asid line with
  | none => base
  | some l => (l.hist.filter (fun e => e.stamp ≤ st)).foldl Hist.apply base

/-- value_at of n bytes at a physical address. -/
def State.valueAt (s : State) (asid : BitVec 16) (pa n : Nat) (st : Stamp) : Nat :=
  fld (s.lineAt asid (pa / 128) st) (8 * (pa % 128)) (8 * n)

/-- An entry goes in among the others in stamp order, after those of its own stamp (R233, R250). -/
def insertHist (e : Hist) : List Hist → List Hist
  | [] => [e]
  | h :: r => if e.stamp < h.stamp then e :: h :: r else h :: insertHist e r

/-- Fold the entries below a limit into the base (R253): not into one with an uncorrectable error, whose data goes nowhere (R262). -/
def State.foldLine (s : State) (l : VLine) (limit : Nat) : State :=
  match (if s.corrupt (128 * l.line) 128 then [] else l.hist.filter (fun e => e.stamp.toNat < limit)) with
  | [] => s
  | es =>
    let x := es.foldl Hist.apply (s.loadDev (128 * l.line) 128)
    (s.storeHome (128 * l.line) 128 x).setVline { l with hist := l.hist.filter fun e => limit ≤ e.stamp.toNat }

/-! ### The watermark (R252) -/

/-- The watermark of a space as the least stamp that it does not cover; a space without participants holds nothing back. -/
def State.watermark (s : State) (asid : BitVec 16) : Nat :=
  match s.watermarks.find? (fun w => w.1 == asid) with
  | some w => w.2
  | none => if s.marks.any (fun m => m.asid == asid) then 0 else 2 ^ 52

/-- The active lines of the cell that holds a line. -/
def State.cellLines (s : State) (line : Nat) : List VLine := s.cells.filter fun l => s.home (128 * l.line) == s.home (128 * line)

def cellSize : Nat := 4096
def histSize : Nat := 8
def readerSize : Nat := 4

/-- Make room for a new active line: fold what lies at or below the watermark first. -/
def State.lineRoom (s : State) (asid : BitVec 16) (line : Nat) : Option State :=
  if (s.vline? asid line).isSome ∨ (s.cellLines line).length < cellSize then some s
  else
    let s := (s.cellLines line).foldl (fun s l => s.foldLine l (s.watermark l.asid)) s
    if (s.cellLines line).length < cellSize then some s else none

/-! ### Repair events (R251, R254) -/

/-- An event adds 1 to the repair counter of each domain it names. -/
def State.countRepairs (s : State) (asid : BitVec 16) (ds : List (BitVec 12)) : State :=
  { s with domains := s.domains.map fun (d : Domain) =>
      if (match s.voyage? d.voy with | some v => v.asid == asid | none => false) && ds.contains d.num then { d with repairs := d.repairs + 1 } else d }

/-- Every domain of a versioned space. -/
def State.spaceDomains (s : State) (asid : BitVec 16) : List (BitVec 12) :=
  s.marks.filterMap fun m => match m.who with | .domain _ n => if m.asid = asid then some n else none | .sequencer .. => none

/-- The tasks that an event names abort (R64). -/
def State.abortAll (s : State) (ts : List Nat) : State :=
  ts.eraseDups.foldl (fun s id =>
    match s.tasks.find? (fun t => t.id == id) with
    | some t => s.later .taskAbort (.task t.die id)
    | none => s) s

/-- The task's stamps may lie above a. -/
def Task.above (t : Task) (a : Stamp) : Bool := decide ((a.extractLsb' 20 32).toNat ≤ t.ts.toNat) && (match t.st with | .running .. => true | .done => true | _ => false)

/-- An event that names readers: those of ordered domains count, tasks abort. -/
def State.repair (s : State) (asid : BitVec 16) (rs : List Reader) : State :=
  let s := s.countRepairs asid ((rs.filter (fun r => r.task.isNone)).map (·.dom)).eraseDups
  s.abortAll (rs.filterMap (·.task))

/-- An event that names all stamps above a: of the inserting task itself those of its readers (R251, log 98). -/
def State.repairAll (s : State) (l : VLine) (a : Stamp) (own : Option Nat) : State :=
  if l.allLater then
    let s := s.countRepairs l.asid (if l.many then s.spaceDomains l.asid else l.doms)
    s.abortAll ((s.tasks.filter (fun t => t.above a && (some t.id != own || decide (a.toNat + 1 < t.seen)) && (match s.voyage? t.voy with | some v => v.asid == l.asid | none => false))).map (·.id))
  else s.repair l.asid (l.readers.filter (fun r => decide (a < r.stamp)))

/-! ### Insertion (R250, R253, R254) -/

/-- The line's record, or a new one. -/
def State.vlineOf (s : State) (asid : BitVec 16) (line : Nat) : VLine :=
  (s.vline? asid line).getD { asid := asid, line := line, hist := [], readers := [], allLater := false, doms := [], many := false }

/-- The tracked readers above a stamp whose value an insertion changes. -/
def changedReaders (s s' : State) (l : VLine) (a : Stamp) : List Reader :=
  l.readers.filter fun r => decide (a < r.stamp) &&
    fld (s.lineAt l.asid l.line r.stamp) (8 * r.off) (8 * r.w) != fld (s'.lineAt l.asid l.line r.stamp) (8 * r.off) (8 * r.w)

/-- An entry arrives; none while there is no room. -/
def State.insertEntry (s : State) (asid : BitVec 16) (line : Nat) (e : Hist) : Option State :=
  if e.stamp.toNat < s.watermark asid then
    let x := Hist.apply (s.loadDev (128 * line) 128) e
    let l := s.vlineOf asid line
    some ((s.storeHome (128 * line) 128 x).repairAll l e.stamp e.task)
  else
    match s.lineRoom asid line with
    | none => none
    | some s =>
      let l := s.vlineOf asid line
      let s := if histSize ≤ l.hist.length then s.foldLine l (s.watermark asid) else s
      let l := s.vlineOf asid line
      if histSize ≤ l.hist.length then none
      else
        let s' := s.setVline { l with hist := insertHist e l.hist }
        if l.allLater then some (s'.repairAll l e.stamp e.task)
        else some (s'.repair asid (changedReaders s s' l e.stamp))

/-! ### Tracked readers (R251) -/

/-- Record a domain that has read a line marked all later. -/
def VLine.record (l : VLine) (d : BitVec 12) : VLine :=
  if l.doms.contains d then l else if l.doms.length < 8 then { l with doms := l.doms ++ [d] } else { l with many := true }

/-- A task has read tentatively at a stamp. -/
def State.taskReads (s : State) (r : Reader) : State :=
  if r.task.isNone then s
  else { s with tasks := s.tasks.map fun (t : Task) => if some t.id = r.task then { t with seen := Nat.max t.seen (r.stamp.toNat + 1) } else t }

/-- A tentative load becomes a tracked reader; none while its line finds no room. -/
def State.track (s : State) (asid : BitVec 16) (line : Nat) (r : Reader) : Option State :=
  if r.stamp.toNat < s.watermark asid then some s
  else
    match s.lineRoom asid line with
    | none => none
    | some s =>
      let s := s.taskReads r
      let l := s.vlineOf asid line
      if l.allLater then some (s.setVline (l.record r.dom))
      else if l.readers.contains r then some s
      else if ((r :: l.readers).map (·.stamp)).eraseDups.length ≤ readerSize then some (s.setVline { l with readers := l.readers ++ [r] })
      else some (s.setVline ((l.readers ++ [r]).foldl (fun l r => l.record r.dom) { l with allLater := true }))

/-- Readers at or below the watermark are dropped; a line with nothing left stops being active. -/
def State.dropReaders (s : State) (asid : BitVec 16) : State :=
  let w := s.watermark asid
  (s.cells.filter (fun l => l.asid == asid)).foldl (fun s l =>
    let rs := l.readers.filter fun r => decide (w ≤ r.stamp.toNat)
    s.setVline { l with readers := rs }) s

/-- The entries of an aborted task are withdrawn: later readers whose values change are repaired in turn (R64). -/
def State.withdraw (s : State) (task : Nat) : State :=
  s.cells.foldl (fun s l =>
    match l.hist.filter (fun e => e.task == some task) with
    | [] =>
      if l.readers.any (fun r => r.task == some task) then s.setVline { l with readers := l.readers.filter fun r => r.task != some task } else s
    | e :: es =>
      let l' := { l with hist := l.hist.filter fun e => e.task != some task, readers := l.readers.filter fun r => r.task != some task }
      let s' := s.setVline l'
      let a := es.foldl (fun a e => if e.stamp < a then e.stamp else a) e.stamp
      if l.allLater then s'.repairAll l' a (some task) else s'.repair l.asid (changedReaders s s' l' a)) s

/-! ### Settle marks (R252, R272) -/

/-- Cycles until a mark has reached every slice: at most 512. -/
def markDelay (n : Nat) : Nat := n % 512

/-- Raise a participant's mark: it never falls. -/
def State.raiseMark (s : State) (asid : BitVec 16) (p : Participant) (v : Nat) : State :=
  if s.marks.any (fun m => m.asid == asid && m.who == p && decide (m.mark < v)) then
    { s with marks := s.marks.map fun (m : Mark) =>
        if m.asid = asid ∧ m.who = p then
          { m with mark := v, sent := match m.sent with | some n => some n | none => some (markDelay (Config.freeChoice s.free)) } else m }.draw
  else s

/-- Register a participant with every slice. -/
def State.join (s : State) (asid : BitVec 16) (p : Participant) : State :=
  let s := if s.watermarks.any (fun w => w.1 == asid) then s else { s with watermarks := (asid, 0) :: s.watermarks }
  if s.marks.any (fun m => m.asid == asid && m.who == p) then s else { s with marks := s.marks ++ [⟨asid, p, 0, 0, none⟩] }

/-- All ones: the mark of a participant whose region has retired. -/
def markAll : Nat := 2 ^ 52

/-- The watermark becomes the least mark that the slices know, and never falls; the readers it passes are dropped. -/
def State.raiseWatermark (s : State) (asid : BitVec 16) : State :=
  let low := ((s.marks.filter (fun m => m.asid == asid)).map (·.known)).foldl Nat.min markAll
  let s := { s with watermarks := s.watermarks.map fun (w : BitVec 16 × Nat) => if w.1 = asid then (asid, Nat.max w.2 low) else w }
  s.dropReaders asid

/-- MARK_PROPAGATE (R252): a mark reaches the slices; a participant at all ones is done. -/
def execMarkPropagate (s : State) : Host.Outcome State Fault Refusal :=
  match s.ev with
  | .mark asid p =>
    let s := { s with marks := s.marks.map fun (m : Mark) => if m.asid = asid ∧ m.who = p then { m with known := m.mark, sent := none } else m }
    let s := s.raiseWatermark asid
    .next { s with marks := s.marks.filter fun m => !(m.asid == asid && m.who == p && m.known == markAll) }
  | _ => .next s

end Sys2Proof.Machine
end

