-- ==== Sys2Proof/Machine/LoadCheck.lean ====
section
/-! DEFINITION. The configuration-load checks of one rule word (R130, Table 5.11): which instructions a station kind accepts,
and what each instruction's description demands of its guard, operands and literals.
Bits that an instruction leaves unused are checked by re-encoding (Decode.lean). -/

namespace Sys2Proof

/-- The named reasons for which a word fails at configuration load (Table 5.11). -/
inductive LoadFail
  | reservedOpcode | notAccepted | badGuard | badOperand | badLiteral | badFormat | badRounding
  | badOrder | badFlags | badLane | badRange | unusedBits | notRuleWord
  deriving DecidableEq, Repr

/-- The kinds that have d, v and p registers and take the scalar classes (Table 5.9). -/
def Kind.isCSSD : Kind → Bool
  | .c | .s | .sd => true
  | _ => false

/-- Kinds with handles: all but SS (R128). -/
def Kind.hasHandles : Kind → Bool
  | .ss => false
  | _ => true

/-- The register exists in a station of this kind (Table 5.4). -/
def Opd.inKind (k : Kind) : Opd → Bool
  | .d _ | .v _ => k.isCSSD
  | .c _ | .o _ | .sp _ => true
  | .h _ => k.hasHandles
  | .t _ | .a _ | .g _ => k == .m
  | .z _ => k == .ss

def Opd.isD : Opd → Bool | .d _ => true | _ => false
def Opd.isV : Opd → Bool | .v _ => true | _ => false
def Opd.isC : Opd → Bool | .c _ => true | _ => false
def Opd.isO : Opd → Bool | .o _ => true | _ => false
def Opd.isH : Opd → Bool | .h _ => true | _ => false
def Opd.isSp : Opd → Bool | .sp _ => true | _ => false
def Opd.isT : Opd → Bool | .t _ => true | _ => false
def Opd.isA : Opd → Bool | .a _ => true | _ => false

/-- Scalar source A or B: d, c, h, special (Table 7.1). -/
def Opd.scalarSrc (k : Kind) (o : Opd) : Bool := o.inKind k && (o.isD || o.isC || o.isH || o.isSp)

/-- Source without a handle: d, c, special (Table 8.1 S). -/
def Opd.plainSrc (k : Kind) (o : Opd) : Bool := o.inKind k && (o.isD || o.isC || o.isSp)

/-- Vector source V: v, c, h (Table 8.1). -/
def Opd.vecSrc (k : Kind) (o : Opd) : Bool := o.inKind k && (o.isV || o.isC || o.isH)

/-- Vector source v or c. -/
def Opd.vcSrc (k : Kind) (o : Opd) : Bool := o.inKind k && (o.isV || o.isC)

/-- Value source of a stochastic instruction: channel or special (R418). -/
def Opd.valueSrc (k : Kind) (o : Opd) : Bool := o.inKind k && (o.isC || o.isSp)

/-- Token source: d, special, v, c, h (R176). -/
def Opd.tokenSrc (k : Kind) (o : Opd) : Bool := o.inKind k && (o.isD || o.isSp || o.isV || o.isC || o.isH)

/-- Scalar result: d, o, h (Table 7.1). -/
def Opd.scalarDst (k : Kind) (o : Opd) : Bool := o.inKind k && (o.isD || o.isO || o.isH)

/-- Destination d or o. -/
def Opd.doDst (k : Kind) (o : Opd) : Bool := o.inKind k && (o.isD || o.isO)

/-- Destination v or o. -/
def Opd.voDst (k : Kind) (o : Opd) : Bool := o.inKind k && (o.isV || o.isO)

/-- Vector destination W: v, o, h (Table 8.1). -/
def Opd.vecDst (k : Kind) (o : Opd) : Bool := o.inKind k && (o.isV || o.isO || o.isH)

/-- Reduction destination Wr: v, o, d (Table 8.1). -/
def Opd.redDst (k : Kind) (o : Opd) : Bool := o.inKind k && (o.isV || o.isO || o.isD)

/-- Address operand: d, c, special, or v (R264). -/
def Opd.addrSrc (k : Kind) (o : Opd) : Bool := o.inKind k && (o.isD || o.isC || o.isSp || o.isV)

def BOp.scalarSrc (k : Kind) : BOp → Bool | .reg o => o.scalarSrc k | .imm _ => true
def BOp.plainSrc (k : Kind) : BOp → Bool | .reg o => o.plainSrc k | .imm _ => true
def NOp.laneSrc (k : Kind) : NOp → Bool | .reg o => o.plainSrc k | .aux _ => true
def NOp.vecSrc (k : Kind) : NOp → Bool | .reg o => o.vecSrc k | .aux _ => true

/-- An AUX lane index must be below n(f) (R217, R219, R222). -/
def NOp.laneOk (f : Tag) : NOp → Bool | .reg _ => true | .aux i => decide (i.toNat < f.lanes)

/-- An AUX lane of `xcvt` into d or o must be 0 (R222). -/
def NOp.auxZero : NOp → Bool | .reg _ => true | .aux i => decide (i = 0)

/-- A guard is valid for the station kind (Table 5.7). -/
def Guard.valid (k : Kind) : Guard → Bool
  | .pset _ | .pclr _ => k.isCSSD
  | .fill _ | .free _ => k.hasHandles
  | .always | .chan _ | .chanStop _ | .init => true

/-- The header of any rule word. -/
def Hdr.checks (k : Kind) (h : Hdr) (accepted : Bool) : List (LoadFail × Bool) :=
  [(.notAccepted, accepted), (.badGuard, h.guard.valid k)]

def RBin.checks (k : Kind) (r : RBin) : List (LoadFail × Bool) :=
  r.hdr.checks k k.isCSSD ++
    [(.badOperand, r.d.scalarDst k && r.a.scalarSrc k && r.b.scalarSrc k)]

def RUn.checks (k : Kind) (r : RUn) : List (LoadFail × Bool) :=
  r.hdr.checks k k.isCSSD ++ [(.badOperand, r.d.scalarDst k && r.a.scalarSrc k)]

def RField.checks (k : Kind) (r : RField) (ins : Bool) : List (LoadFail × Bool) :=
  r.hdr.checks k k.isCSSD ++
    [(.badOperand, (if ins then r.d.inKind k && r.d.isD else r.d.scalarDst k) && r.a.scalarSrc k),
     (.badLiteral, decide (r.pos.toNat + r.len1.toNat + 1 ≤ 64))]

def RCmp.checks (k : Kind) (r : RCmp) : List (LoadFail × Bool) :=
  r.hdr.checks k k.isCSSD ++ [(.badOperand, r.a.scalarSrc k && r.b.scalarSrc k)]

def PBin.checks (k : Kind) (r : PBin) : List (LoadFail × Bool) := r.hdr.checks k k.isCSSD
def PUn.checks (k : Kind) (r : PUn) : List (LoadFail × Bool) := r.hdr.checks k k.isCSSD

/-- A token instruction: accepted by every kind (Table 5.9). -/
def tokChecks (k : Kind) (h : Hdr) (ops : Bool) : List (LoadFail × Bool) :=
  h.checks k true ++ [(.badOperand, ops)]

/-- Guards of GK 4 are refused by `repeat`, `split` and `isect` (R175). -/
def Guard.isStop : Guard → Bool | .chanStop _ => true | _ => false

def HAdv.checks (k : Kind) (r : HAdv) : List (LoadFail × Bool) :=
  r.hdr.checks k k.hasHandles ++ [(.badOperand, r.b.plainSrc k)]

def HRead.checks (k : Kind) (r : HRead) : List (LoadFail × Bool) :=
  r.hdr.checks k k.hasHandles ++ [(.badOperand, r.d.doDst k)]

def SysB.checks (k : Kind) (r : SysB) : List (LoadFail × Bool) :=
  r.hdr.checks k true ++ [(.badOperand, r.b.plainSrc k)]

/-- The vector class is accepted by C and SD stations. -/
def vecKind : Kind → Bool
  | .c | .sd => true
  | _ => false

def VBin.checks (k : Kind) (r : VBin) (fmt wv : Bool) : List (LoadFail × Bool) :=
  r.hdr.checks k (vecKind k) ++
    [(.badOperand, (if wv then r.d.inKind k && r.d.isV else r.d.vecDst k) && r.a.vecSrc k && r.b.vecSrc k),
     (.badFormat, fmt), (.badRounding, decide (r.rm ≠ .sr))]

def VUn.checks (k : Kind) (r : VUn) : List (LoadFail × Bool) :=
  r.hdr.checks k (vecKind k) ++
    [(.badOperand, r.d.vecDst k && r.a.vecSrc k), (.badFormat, r.fmt.isFL), (.badRounding, decide (r.rm ≠ .sr))]

/-- The legal format pairs of a reduction (R212): s in FL with f in FW, or integers of one signedness, f in 40-43 and
w(s) at most w(f). -/
def redPair (f s : Tag) : Bool :=
  (f.isFW && s.isFL) ||
    (decide (40 ≤ f.toNat ∧ f.toNat ≤ 43) && s.isIN && (f.isSigned == s.isSigned) && decide (s.width ≤ f.width))

def VRed.checks (k : Kind) (r : VRed) : List (LoadFail × Bool) :=
  r.hdr.checks k (vecKind k) ++
    [(.badOperand, r.d.redDst k && r.a.vecSrc k && (match r.mask with | none => true | some m => m.vecSrc k)),
     (.badFormat, redPair r.fmt r.s), (.badRounding, decide (r.rm ≠ .sr))]

/-- Part k of a conversion (R213): its range, and a v destination where lanes are kept. -/
def partOk (f s : Tag) (k : BitVec 2) (dIsV : Bool) : Bool :=
  if s.lanes < f.lanes then decide (k.toNat * s.lanes < f.lanes) && dIsV
  else if f.lanes < s.lanes then decide (k.toNat * f.lanes < s.lanes)
  else decide (k.toNat = 0)

/-- Conversions: `fmt` says that the format pair is listed; `sr` needs at most 32 converted lanes (R215). -/
def VConv.checks (k : Kind) (r : VConv) (fmt srOk satOk : Bool) : List (LoadFail × Bool) :=
  r.hdr.checks k (vecKind k) ++
    [(.badOperand, r.d.vecDst k && r.a.vecSrc k && (match r.rand with | none => true | some m => m.vecSrc k)),
     (.badFormat, fmt),
     (.badRounding, if r.rm = .sr then srOk && decide (Nat.min r.s.lanes r.fmt.lanes ≤ 32) && r.rand.isSome
        else r.rand.isNone),
     (.badLane, partOk r.fmt r.s r.k r.d.isV), (.badFlags, satOk || !r.sat)]

def VCmp.checks (k : Kind) (r : VCmp) : List (LoadFail × Bool) :=
  r.hdr.checks k (vecKind k) ++
    [(.badOperand, r.d.vecDst k && r.a.vecSrc k && r.b.vecSrc k), (.badFormat, r.fmt.isFL || r.fmt.isIN)]

def VInt.checks (k : Kind) (r : VInt) (satOk : Bool) : List (LoadFail × Bool) :=
  r.hdr.checks k (vecKind k) ++
    [(.badOperand, r.d.vecDst k && r.a.vecSrc k && r.b.vecSrc k), (.badFormat, r.fmt.isIN), (.badFlags, satOk || !r.sat)]

/-- `vpark` and `vunpark` (R223, R224): the unit and both register ranges. -/
def VPark.checks (k : Kind) (r : VPark) (keepOk : Bool) : List (LoadFail × Bool) :=
  r.hdr.checks k (vecKind k) ++
    [(.badLiteral, decide (r.u.toNat < 6)),
     (.badRange, decide (r.v.val + r.cnt1.toNat < 8) && decide (r.row.toNat + r.cnt1.toNat < 64)),
     (.badFlags, keepOk || !r.keep)]

/-- The matrix class is accepted by M stations. -/
def matChecks (k : Kind) (h : Hdr) (ops lit : Bool) : List (LoadFail × Bool) :=
  h.checks k (k == .m) ++ [(.badOperand, ops), (.badLiteral, lit)]

/-- Step words: with A = B both keep flags must agree (R337). -/
def MStep.checks (k : Kind) (r : MStep) : List (LoadFail × Bool) :=
  matChecks k r.hdr true (if r.a = r.b then r.keepa == r.keepb else true)

/-- The ordering fields of the M form (R117). -/
def MHdr.orderOk (m : MHdr) : Bool :=
  decide (m.own.toNat ≤ 125) && !(m.own == m.pred) && !(m.own == m.succ)

/-- A memory instruction: accepted kinds, operands, and the MF bits it accepts (R118, Table 11.2). -/
def MHdr.checks (k : Kind) (m : MHdr) (kinds ops mf : Bool) : List (LoadFail × Bool) :=
  m.hdr.checks k kinds ++ [(.badOperand, ops), (.badOrder, m.orderOk), (.badFlags, mf)]

/-- The kinds of Table 11.2: C, S, SD and, where listed, M. -/
def memKind (k : Kind) (m : Bool) : Bool := k.isCSSD || (m && k == .m)

/-- Only the bits of `mask` may be set in MF. -/
def MHdr.mfWithin (m : MHdr) (mask : BitVec 4) : Bool := m.mf &&& ~~~mask == 0

/-- Fence scopes are 1-5 (Table 11.2). -/
def Scope.fenceOk (s : Scope) : Bool := decide (s ≠ .lane)

/-- Barrier scopes are 2-5 (R286). -/
def Scope.barOk (s : Scope) : Bool := decide (s ≠ .lane) && decide (s ≠ .station)

/-- Barrier ids: 0-3 at quad scope, 0-63 elsewhere (R287). -/
def barIdOk (s : Scope) (id : BitVec 6) : Bool := if s = .quad then decide (id.toNat < 4) else true

def SBar.checks (k : Kind) (r : SBar) : List (LoadFail × Bool) :=
  r.hdr.checks k true ++
    [(.badOperand, r.n.plainSrc k), (.badLiteral, r.scope.barOk && barIdOk r.scope r.id)]

/-- The sounding class is accepted by SD stations. -/
def sndChecks (k : Kind) (h : Hdr) (ops : Bool) : List (LoadFail × Bool) :=
  h.checks k (k == .sd) ++ [(.badOperand, ops)]

/-- The stochastic class is accepted by SS stations. -/
def ssChecks (k : Kind) (h : Hdr) (lit : Bool) : List (LoadFail × Bool) :=
  h.checks k (k == .ss) ++ [(.badLiteral, lit)]

/-- The checks of a rule word, in the order of Table 5.11. Events are no rule words. DESIGN CHOICE (log 112): `merge` is accepted in M and SS stations, as
its class is (R128), though they have no predicates: a predicate reads 0 there. -/
def loadChecks (k : Kind) : Instr → List (LoadFail × Bool)
  | .add r | .sub r | .mul r | .mulh r | .mulhn r | .div r | .divn r | .rem r | .remn r
  | .min r | .max r | .minn r | .maxn r | .and r | .or r | .xor r | .andn r | .orn r
  | .shl r | .shr r | .sra r | .rol r => r.checks k
  | .clz r | .ctz r | .popc r | .mov r => r.checks k
  | .sel r _ => r.checks k
  | .movi h d _ => h.checks k k.isCSSD ++ [(.badOperand, d.scalarDst k)]
  | .movhi r _ => r.checks k
  | .ext r | .extn r => r.checks k false
  | .ins r => r.checks k true
  | .ceq r | .cne r | .clt r | .cle r | .cltn r | .clen r | .cbit r | .ctst r => r.checks k
  | .pand r | .por r | .pxor r | .pandn r => r.checks k
  | .pnot r | .pmov r => r.checks k
  | .pset h _ | .pclr h _ => h.checks k k.isCSSD
  | .send h _ src addend _ =>
      tokChecks k h (src.tokenSrc k) ++
        [(.badLiteral, if addend = 0 then true else src.isD || src.isSp)]
  | .dup h mask src _ => tokChecks k h (src.tokenSrc k) ++ [(.badLiteral, decide (mask ≠ 0))]
  | .steer h mask src s _ =>
      tokChecks k h (src.tokenSrc k && s.plainSrc k) ++ [(.badLiteral, decide (mask ≠ 0))]
  | .merge h _ a b _ _ => tokChecks k h (decide (a ≠ b))
  | .gate h _ src ctl _ => tokChecks k h (src.tokenSrc k && ctl.plainSrc k)
  | .drop h src => tokChecks k h (src.inKind k && (src.isC || src.isH))
  | .stop h _ level _ => tokChecks k h true ++ [(.badLiteral, decide (level ≠ 0))]
  | .retag h _ v => tokChecks k h true ++ [(.badLiteral, decide (v.toNat ≤ 8))]
  | .repeat h _ _ n imm _ =>
      tokChecks k h (match n with | none => true | some o => o.inKind k && (o.isD || o.isSp)) ++
        [(.badLiteral, if imm = 0 then n.isSome else n.isNone), (.badGuard, !h.guard.isStop)]
  | .count h _ _ _ => tokChecks k h true
  | .isect h _ a b _ => tokChecks k h (decide (a ≠ b)) ++ [(.badGuard, !h.guard.isStop)]
  | .split h o src _ =>
      tokChecks k h (src.tokenSrc k && decide (o.val < 7)) ++ [(.badGuard, !h.guard.isStop)]
  | .advp r | .advc r => r.checks k
  | .hfill r | .hfree r => r.checks k
  | .hset r f => r.checks k ++ [(.badLiteral, decide (f ≠ .flags))]
  | .hget r _ => r.checks k
  | .pub h _ => h.checks k k.hasHandles
  | .nop h => h.checks k true
  | .trap r | .halt r | .brk r | .slk r => r.checks k
  | .yield h n => h.checks k true ++ [(.badLiteral, decide (n ≠ 0))]
  | .rdslk h d _ | .rdtime h d | .ckpt h d => h.checks k true ++ [(.badOperand, d.doDst k)]
  | .vadd r | .vsub r | .vmul r => r.checks k r.fmt.isFL false
  | .vfma r | .vfms r | .vnfma r => r.checks k r.fmt.isFL true
  | .vmax r | .vmin r => r.checks k (r.fmt.isFL || r.fmt.isIN) false
  | .vabs r | .vneg r | .vrcp r | .vrsq r | .vexp2 r | .vlog2 r | .vsqrt r => r.checks k
  | .vdot r s =>
      r.hdr.checks k (vecKind k) ++
        [(.badOperand, r.d.redDst k && r.a.vecSrc k && r.b.vecSrc k),
         (.badFormat, redPair r.fmt s), (.badRounding, decide (r.rm ≠ .sr))]
  | .vsum r | .vrmax r | .vrmin r => r.checks k
  | .vcvt r => r.checks k ((r.fmt.isFL || r.fmt.isIN) && (r.s.isFL || r.s.isIN)) true true
  | .vqnt r => r.checks k (r.fmt.isB8 && (r.s.isFL || r.s.isIN)) true false
  | .vdqt r => r.checks k ((r.fmt.isFW || r.fmt.isIN) && r.s.isB8) false false
  | .vrot r _ => r.checks k r.fmt.isFL false
  | .vsscl h d a n => h.checks k (vecKind k) ++ [(.badOperand, d.vecDst k && a.vecSrc k && n.laneSrc k)]
  | .vgscl r => r.hdr.checks k (vecKind k) ++ [(.badOperand, r.d.doDst k && r.a.vecSrc k)]
  | .vtag h f d a =>
      h.checks k (vecKind k) ++ [(.badOperand, d.vecDst k && a.vecSrc k), (.badFormat, f.isReg)]
  | .vmov r => r.hdr.checks k (vecKind k) ++ [(.badOperand, r.d.vecDst k && r.a.vecSrc k)]
  | .vbcst h f d a lane =>
      h.checks k (vecKind k) ++
        [(.badOperand, d.vecDst k && (match lane with
            | none => a.plainSrc k
            | some n => a.vecSrc k && n.laneSrc k)),
         (.badFormat, f.isFL || f.isIN),
         (.badLane, match lane with | none => true | some n => n.laneOk f)]
  | .vshuf r => r.checks k (r.fmt.isFL || r.fmt.isIN) false
  | .vext r =>
      r.hdr.checks k (vecKind k) ++
        [(.badOperand, r.d.doDst k && r.a.vecSrc k && r.n.laneSrc k),
         (.badFormat, r.fmt.isFL || r.fmt.isIN), (.badLane, r.n.laneOk r.fmt)]
  | .vins r =>
      r.hdr.checks k (vecKind k) ++
        [(.badOperand, r.d.inKind k && r.d.isV && r.a.plainSrc k && r.n.laneSrc k),
         (.badFormat, r.fmt.isFL || r.fmt.isIN), (.badLane, r.n.laneOk r.fmt)]
  | .vceq r | .vclt r | .vcle r => r.checks k
  | .vsel r => r.checks k (r.fmt.isFL || r.fmt.isIN) true
  | .viadd r | .visub r | .vimul r => r.checks k true
  | .vishl r | .vishr r | .vand r | .vor r | .vxor r => r.checks k false
  | .xadd h d a b => h.checks k (vecKind k) ++ [(.badOperand, d.vecDst k && a.vecSrc k && b.vecSrc k)]
  | .xcvt r =>
      r.hdr.checks k (vecKind k) ++
        [(.badOperand, r.d.redDst k && r.a.vecSrc k && r.n.laneSrc k), (.badFormat, r.fmt.isFW),
         (.badLane, if r.d.isV then r.n.laneOk r.fmt else r.n.auxZero)]
  | .vclr h f d => h.checks k (vecKind k) ++ [(.badOperand, d.vecDst k), (.badFormat, f.isReg)]
  | .vpark r => r.checks k false
  | .vunpark r => r.checks k true
  | .mcfg h _ _ _ _ _ kt => matChecks k h true (decide (kt ≠ 0))
  | .tfill h _ c f =>
      matChecks k h true true ++
        [(.badFormat, match c with
          | some _ => f.isB8 || decide (f.toNat = 32) || decide (f.toNat = 33)
          | none => decide (f.toNat = 0))]
  | .tmark h _ _ | .tdrain h _ | .mclr h _ | .mpstat h _ => matChecks k h true true
  | .mma r | .mmat r => r.checks k
  | .mnorm h _ e => matChecks k h true (match e with | none => true | some e => decide (e ≠ 0x200))
  | .mexp h _ e => matChecks k h true (decide (e ≠ 0x200))
  | .mscap h _ src row all =>
      matChecks k h (src.inKind k && (src.isC || src.isH || src.isSp)) (if all then decide (row = 0) else true)
  | .mrow h _ u _ part => matChecks k h (u.inKind k && (u.isT || u.isA)) (u.isA || decide (part = 0))
  | .ld r =>
      r.m.checks k (memKind k true) (r.d.doDst k && r.a.addrSrc k)
        (r.m.mfWithin 0b1110#4 && (r.m.mf.getLsbD 2 || !r.m.mf.getLsbD 1))
  | .ldv r => r.m.checks k (memKind k true) (r.d.voDst k && r.a.addrSrc k) (r.m.mfWithin 0b1000#4)
  | .st r => r.m.checks k (memKind k false) (r.a.addrSrc k && r.s.plainSrc k) (r.m.mfWithin 0b0100#4)
  | .stv r => r.m.checks k (memKind k false) (r.a.addrSrc k && r.s.vcSrc k) (r.m.mfWithin 0#4)
  | .ldt r | .lds r =>
      r.m.checks k (memKind k false) (r.d.doDst k && r.a.addrSrc k) (r.m.mfWithin 0#4)
  | .stw r => r.m.checks k (memKind k false) (r.a.addrSrc k && r.s.plainSrc k) (r.m.mfWithin 0#4)
  | .updw r =>
      r.m.checks k (memKind k false) (r.r.vcSrc k) (r.m.mfWithin 0#4) ++ [(.badLiteral, decide (r.op.toNat ≤ 4))]
  | .reclaim m _ a => m.checks k (memKind k false) (a.addrSrc k) (m.mfWithin 0#4)
  | .settle m _ => m.checks k (memKind k false) true (m.mfWithin 0#4)
  | .atom r => r.m.checks k (memKind k false) (r.d.doDst k && r.a.vcSrc k) (r.m.mfWithin 0#4)
  | .red r =>
      r.m.checks k (memKind k false) (r.r.vcSrc k) (r.m.mfWithin 0b0101#4) ++
        [(.badLiteral, decide (r.op.toNat ≤ 12))]
  | .mcst r => r.m.checks k (memKind k false) (r.d.isO && r.a.vcSrc k) (r.m.mfWithin 0#4)
  | .cpy r => r.m.checks k (memKind k true) (r.q.vcSrc k) (r.m.mfWithin 0#4)
  | .cpyw r =>
      r.m.checks k (memKind k false)
        (r.q.inKind k && (match r.q with | .v n => decide (n.val ≤ 4) | _ => false)) (r.m.mfWithin 0#4)
  | .pref r | .disc r => r.m.checks k (memKind k true) (r.a.addrSrc k) (r.m.mfWithin 0#4)
  | .mnop m _ => m.checks k (memKind k true) true (m.mfWithin 0#4)
  | .xlat r => r.m.checks k (memKind k false) (r.d.voDst k && r.a.plainSrc k) (r.m.mfWithin 0#4)
  | .fence m s | .acq m s | .rel m s =>
      m.checks k (memKind k true) true (m.mfWithin 0#4) ++ [(.badLiteral, s.fenceOk)]
  | .ldk r => r.m.checks k (memKind k false) (r.d.voDst k && r.a.addrSrc k) (r.m.mfWithin 0b1000#4)
  | .stk r => r.m.checks k (vecKind k) (r.a.addrSrc k && r.s.vcSrc k) (r.m.mfWithin 0#4)
  | .xred r => r.m.checks k (memKind k false) (r.a.addrSrc k && r.s.vcSrc k) (r.m.mfWithin 0#4)
  | .bar r => r.checks k ++ [(.badLiteral, decide (r.h.val = 0))]
  | .bars r => r.checks k
  | .barw h d s id =>
      h.checks k true ++ [(.badOperand, d.doDst k), (.badLiteral, s.barOk && barIdOk s id)]
  | .bard h s id => h.checks k true ++ [(.badLiteral, s.barOk && barIdOk s id)]
  | .monw h d _ a => h.checks k true ++ [(.badOperand, d.doDst k && a.plainSrc k)]
  | .monc h d _ a => h.checks k true ++ [(.badOperand, (Opd.d d).inKind k && a.plainSrc k)]
  | .tspawn h _ ts args => h.checks k (decide (k ≠ .s)) ++ [(.badOperand, ts.plainSrc k && args.vecSrc k)]
  | .tdone h => h.checks k true
  | .tins r | .tseal r => sndChecks k r.hdr (r.d.doDst k && r.a.plainSrc k && decide (r.b = .d 0))
  | .tdrop r => sndChecks k r.hdr (r.d.doDst k && r.a.plainSrc k && r.b.plainSrc k)
  | .tforkPages h d _ _ n => sndChecks k h (d.doDst k && n.plainSrc k)
  | .tforkTree h d _ _ n _ => sndChecks k h (d.doDst k && n.plainSrc k)
  | .twalk h d _ _ _ => sndChecks k h (d.doDst k)
  | .tres h d _ _ | .tsum h d _ _ => sndChecks k h (d.voDst k)
  | .tstat h d _ _ => sndChecks k h (d.doDst k)
  | .tpar h _ a _ _ _ | .tscr h _ a => sndChecks k h (a.vcSrc k)
  | .tchkQuery h d _ | .tchkAbort h d _ => sndChecks k h (d.doDst k)
  | .sgen h d src _ n1 _ =>
      ssChecks k h true ++ [(.badOperand, src.valueSrc k), (.badRange, decide (d.val + n1.toNat < 16))]
  | .sand r | .sxnor r | .sor r | .smin r | .smax r => ssChecks k r.hdr true
  | .smux r _ => ssChecks k r.hdr true
  | .snot r => ssChecks k r.hdr true
  | .scnt h _ a n1 => ssChecks k h true ++ [(.badRange, decide (a.val + n1.toNat < 16))]
  | .sregen r _ => ssChecks k r.hdr true
  | .sdly r n _ => ssChecks k r.hdr (decide (n ≠ 0))
  | .slen h _ => ssChecks k h true
  | .scls r m => ssChecks k r.hdr (decide (m ≠ 0))
  | .sout h _ _ => ssChecks k h true
  | .sin h _ _ => ssChecks k h true
  | .stationCycle | .resultLands | .yieldExpiry | .sinPart | .soutPart | .linkHop | .busDeliver | .dieLinkTransfer
  | .flowForward | .tokenOverdue | .backgroundPromote | .faultTokenRequeue | .regionRetire | .qwridxWrite
  | .queueReenable | .noOpPacket | .voyageLaunchPacket | .dependencyWaitPacket | .malformedPacket | .dependencyRecheck
  | .acqPacketRelease | .placement | .launchStarveBlock | .agxWalkElement | .memoryRequestIssue | .portRelease
  | .homePerform | .historyOverflow | .memoryReplyLands | .rehashBounce | .windowAccess | .mirrorRead | .markPropagate
  | .settledLoadRelease | .monitorComplete | .copyWrite | .copyComplete | .firstTouch | .copyOnWrite | .decompress
  | .poolBorrow | .pageCompress | .slabCompaction | .timeLimitExpiry | .barrierEntryUpdate | .taskDispatch
  | .taskCommit | .taskAbort | .treeOpComplete | .treeLockRetry | .tileFillAccept | .matrixStepComplete
  | .accDrainToken | .carryInToken | .normaliserToken | .cornerTurnToken | .quietDeadlock | .deadlockHalt | .regionHalt
  | .drain | .snapshot | .imageSaveDone | .resumePlace | .dieLinkDown | .sliceRetire | .dieFailure | .rowHammerRefresh
  | .remapSwap | .unitReady | .deviceReset | .fwFetchTimeout | .startTimeout | .ownclaim | .claimWindowEnd | .ownhand
  | .ownerLapse | .devctlReset | .devctlClrfail | .sbqueryWrite | .pwrlimWrite | .registerWrite | .apertureAccess
  | .powerRedivide | .loadFw | .attest | .setRoot | .setSavebase | .release | .frames | .resume | .discard | .bindPeer
  | .mailboxUnknown | .flitIdle | .flitToken | .flitRequest | .flitReply | .flitNack | .flitJoin | .flitBoot
  | .retransmitTimeout | .traverseLinkDown | .flitCrcFail | .pilotCoreFault =>
      [(.notRuleWord, false)]

/-- The first failing check. -/
def loadFailure (k : Kind) (i : Instr) : Option LoadFail :=
  ((loadChecks k i).find? (fun c => !c.2)).map (·.1)

end Sys2Proof
end

