-- ==== Sys2Proof/WellFormed.lean ====
section
/-! DEFINITION. Well-formed rule words: the instructions that a station of a kind accepts at configuration load (R130). -/

namespace Sys2Proof

/-- The instruction passes every configuration-load check of a station of kind `k`. -/
def WellFormed (k : Kind) (i : Instr) : Prop := loadFailure k i = none

end Sys2Proof
end

