-- ==== Sys2Proof/Decode.lean ====
section
/-! DEFINITION. Rule words and node words: fields (Table 5.1), decoding, encoding (R113-R120).
A word decodes when the fields parse, every check of the instruction's description passes, and the instruction encodes back
to the same word: so a bit that the instruction leaves unused must be 0. -/

namespace Sys2Proof

/-- The fields of a rule word (Table 5.1). -/
structure Raw where
  gk : BitVec 3
  ga : BitVec 4
  op : BitVec 8
  d  : BitVec 6
  a  : BitVec 6
  b  : BitVec 6
  sl : BitVec 6
  x  : BitVec 25
  deriving DecidableEq, Repr

/-- Bits [63:61], [60:57], [56:49], [48:43], [42:37], [36:31], [30:25], [24:0]. -/
def Raw.ofWord (w : Word) : Raw :=
  { gk := w.extractLsb' 61 3, ga := w.extractLsb' 57 4, op := w.extractLsb' 49 8, d := w.extractLsb' 43 6,
    a := w.extractLsb' 37 6, b := w.extractLsb' 31 6, sl := w.extractLsb' 25 6, x := w.extractLsb' 0 25 }

/-- The word with these fields. -/
def Raw.toWord (r : Raw) : Word := r.gk ++ r.ga ++ r.op ++ r.d ++ r.a ++ r.b ++ r.sl ++ r.x

/-- F, bits [24:19] of X in the R form (R115). -/
def Raw.f (r : Raw) : BitVec 6 := r.x.extractLsb' 19 6
/-- F bit `i`. -/
def Raw.fbit (r : Raw) (i : Nat) : Bool := r.x.getLsbD (19 + i)
/-- IMM19, bits [18:0] of X. -/
def Raw.imm19 (r : Raw) : BitVec 19 := r.x.extractLsb' 0 19
/-- FMT of the vector layout (Table 5.2). -/
def Raw.fmt (r : Raw) : Tag := r.x.extractLsb' 13 6
/-- AUX of the vector layout (Table 5.2). -/
def Raw.aux (r : Raw) : BitVec 8 := r.x.extractLsb' 0 8
/-- TAG of the T form (R119). -/
def Raw.tag (r : Raw) : BitVec 3 := r.x.extractLsb' 22 3
/-- STOP of the T form. -/
def Raw.stop (r : Raw) : BitVec 2 := r.x.extractLsb' 20 2
/-- IMM20 of the T form. -/
def Raw.imm20 (r : Raw) : BitVec 20 := r.x.extractLsb' 0 20

/-- A register number from the low bits of a specifier. -/
def fin8 (x : BitVec 6) : Fin 8 := ⟨x.toNat % 8, Nat.mod_lt _ (by decide)⟩
def fin16 (x : BitVec 6) : Fin 16 := ⟨x.toNat % 16, Nat.mod_lt _ (by decide)⟩
def fin4 (x : BitVec 6) : Fin 4 := ⟨x.toNat % 4, Nat.mod_lt _ (by decide)⟩
def fin2 (x : BitVec 6) : Fin 2 := ⟨x.toNat % 2, Nat.mod_lt _ (by decide)⟩

/-- Codes of the specials (Table 5.5). -/
def Special.code : Special → BitVec 6
  | .zero => 0x30 | .one => 0x31 | .lane => 0x32 | .sx => 0x33 | .sy => 0x34 | .ctx => 0x35
  | .slk => 0x36 | .clk => 0x37 | .wave => 0x38 | .tstamp => 0x39 | .seed => 0x3A | .stoplvl => 0x3B

/-- The special with code 0x30 + n. -/
def Special.ofIdx : Nat → Option Special
  | 0 => some .zero | 1 => some .one | 2 => some .lane | 3 => some .sx | 4 => some .sy | 5 => some .ctx
  | 6 => some .slk | 7 => some .clk | 8 => some .wave | 9 => some .tstamp | 10 => some .seed
  | 11 => some .stoplvl | _ => none

/-- Specifier codes (Table 5.4). -/
def Opd.code : Opd → BitVec 6
  | .d n => BitVec.ofNat 6 n.val
  | .v n => BitVec.ofNat 6 (0x08 + n.val)
  | .c n => BitVec.ofNat 6 (0x10 + n.val)
  | .o n => BitVec.ofNat 6 (0x18 + n.val)
  | .h n => BitVec.ofNat 6 (0x20 + n.val)
  | .t n => BitVec.ofNat 6 (0x08 + n.val)
  | .a n => BitVec.ofNat 6 (0x0C + n.val)
  | .g n => BitVec.ofNat 6 (0x0E + n.val)
  | .z n => BitVec.ofNat 6 (0x20 + n.val)
  | .sp s => s.code

/-- The register a specifier names in a station of kind `k` (Table 5.4). -/
def Opd.ofCode (k : Kind) (x : BitVec 6) : Option Opd :=
  let n := x.toNat
  if n < 0x08 then if k.isCSSD then some (.d (fin8 x)) else none
  else if n < 0x10 then
    if k.isCSSD then some (.v (fin8 x))
    else if k = .m then
      if n < 0x0C then some (.t (fin4 x)) else if n < 0x0E then some (.a (fin2 x)) else some (.g (fin2 x))
    else none
  else if n < 0x18 then some (.c (fin8 x))
  else if n < 0x20 then some (.o (fin8 x))
  else if n < 0x30 then if k = .ss then some (.z (fin16 x)) else some (.h (fin16 x))
  else (Special.ofIdx (n - 0x30)).map Opd.sp

def RM.code : RM → BitVec 3 | .rne => 0 | .rz => 1 | .ru => 2 | .rd => 3 | .sr => 4
def RM.ofCode (x : BitVec 3) : Option RM :=
  match x.toNat with | 0 => some .rne | 1 => some .rz | 2 => some .ru | 3 => some .rd | 4 => some .sr | _ => none
def OV.code : OV → BitVec 2 | .sat => 0 | .inf => 1 | .nan => 2
def OV.ofCode (x : BitVec 2) : Option OV :=
  match x.toNat with | 0 => some .sat | 1 => some .inf | 2 => some .nan | _ => none
def HField.code : HField → BitVec 3 | .base => 0 | .size => 1 | .pcnt => 2 | .ccnt => 3 | .dcnt => 4 | .flags => 5
def HField.ofCode (x : BitVec 3) : Option HField :=
  match x.toNat with
  | 0 => some .base | 1 => some .size | 2 => some .pcnt | 3 => some .ccnt | 4 => some .dcnt | 5 => some .flags
  | _ => none
def Scope.code : Scope → BitVec 3 | .lane => 0 | .station => 1 | .quad => 2 | .die => 3 | .pkg => 4 | .pod => 5
def Scope.ofCode (x : BitVec 3) : Option Scope :=
  match x.toNat with
  | 0 => some .lane | 1 => some .station | 2 => some .quad | 3 => some .die | 4 => some .pkg | 5 => some .pod
  | _ => none
def ScaleSrc.code : ScaleSrc → BitVec 2 | .tile => 0 | .g0 => 1 | .g1 => 2
def ScaleSrc.ofCode (x : BitVec 2) : Option ScaleSrc :=
  match x.toNat with | 0 => some .tile | 1 => some .g0 | 2 => some .g1 | _ => none

/-- Guard kind and argument (Table 5.7). -/
def Guard.code : Guard → BitVec 3 × BitVec 4
  | .always => (0, 0) | .pset n => (1, BitVec.ofNat 4 n.val) | .pclr n => (2, BitVec.ofNat 4 n.val)
  | .chan n => (3, BitVec.ofNat 4 n.val) | .chanStop n => (4, BitVec.ofNat 4 n.val)
  | .fill n => (5, BitVec.ofNat 4 n.val) | .free n => (6, BitVec.ofNat 4 n.val) | .init => (7, 0)

def Guard.ofCode (gk : BitVec 3) (ga : BitVec 4) : Guard :=
  let n8 : Fin 8 := ⟨ga.toNat % 8, Nat.mod_lt _ (by decide)⟩
  let n16 : Fin 16 := ⟨ga.toNat % 16, Nat.mod_lt _ (by decide)⟩
  match gk.toNat with
  | 0 => .always | 1 => .pset n8 | 2 => .pclr n8 | 3 => .chan n8 | 4 => .chanStop n8
  | 5 => .fill n16 | 6 => .free n16 | _ => .init

/-- Guard and SL of a word. -/
def Raw.hdr (r : Raw) : Hdr := { guard := Guard.ofCode r.gk r.ga, sl := r.sl }

/-- A word with the header and the other fields given. -/
def Hdr.raw (h : Hdr) (op : BitVec 8) (d a b : BitVec 6) (x : BitVec 25) : Raw :=
  { gk := h.guard.code.1, ga := h.guard.code.2, op := op, d := d, a := a, b := b, sl := h.sl, x := x }

/-! ### X by form -/

/-- The R form: F and IMM19. -/
def xR (f : BitVec 6) (imm : BitVec 19) : BitVec 25 := f ++ imm
/-- The vector layout: F, FMT, RM, OV, AUX. -/
def xV (f : BitVec 6) (fmt : Tag) (rm : BitVec 3) (ov : BitVec 2) (aux : BitVec 8) : BitVec 25 :=
  f ++ fmt ++ rm ++ ov ++ aux
/-- The T form: TAG, STOP, IMM20. -/
def xT (tag : BitVec 3) (stop : BitVec 2) (imm : BitVec 20) : BitVec 25 := tag ++ stop ++ imm
/-- The M form: MF, PRED, OWN, SUCC. -/
def MHdr.x (m : MHdr) : BitVec 25 := m.mf ++ m.pred ++ m.own ++ m.succ

/-- A flag at bit `i` of F. -/
def fb (c : Bool) (i : Nat) : BitVec 6 := if c then BitVec.twoPow 6 i else 0

def BOp.f0 : BOp → BitVec 6 | .reg _ => 0 | .imm _ => 1
def BOp.bcode : BOp → BitVec 6 | .reg o => o.code | .imm _ => 0
def BOp.imm19 : BOp → BitVec 19 | .reg _ => 0 | .imm i => i
def NOp.f0 : NOp → BitVec 6 | .reg _ => 0 | .aux _ => 1
def NOp.bcode : NOp → BitVec 6 | .reg o => o.code | .aux _ => 0
def NOp.aux8 : NOp → BitVec 8 | .reg _ => 0 | .aux i => i
def optCode : Option Opd → BitVec 6 | none => 0 | some o => o.code

/-- Specifier codes of registers held as numbers. -/
def cCode (n : Fin 8) : BitVec 6 := (Opd.c n).code
def oCode (n : Fin 8) : BitVec 6 := (Opd.o n).code
def vCode (n : Fin 8) : BitVec 6 := (Opd.v n).code
def dCode (n : Fin 8) : BitVec 6 := (Opd.d n).code
def hCode (n : Fin 16) : BitVec 6 := (Opd.h n).code
def zCode (n : Fin 16) : BitVec 6 := (Opd.z n).code
def tCode (n : Fin 4) : BitVec 6 := (Opd.t n).code
def aCode (n : Fin 2) : BitVec 6 := (Opd.a n).code
def gCode (n : Fin 2) : BitVec 6 := (Opd.g n).code
/-- A literal field. -/
def lit8 (n : Fin 8) : BitVec 6 := BitVec.ofNat 6 n.val
def lit16 (n : Fin 16) : BitVec 6 := BitVec.ofNat 6 n.val

/-! ### Shapes: encoding -/

def RBin.enc (op : BitVec 8) (r : RBin) : Raw := r.hdr.raw op r.d.code r.a.code r.b.bcode (xR r.b.f0 r.b.imm19)
def RUn.enc (op : BitVec 8) (r : RUn) : Raw := r.hdr.raw op r.d.code r.a.code 0 0
def RField.enc (op : BitVec 8) (r : RField) : Raw :=
  r.hdr.raw op r.d.code r.a.code 0 (xR 0 (0#7 ++ r.len1 ++ r.pos))
def RCmp.enc (op : BitVec 8) (r : RCmp) : Raw := r.hdr.raw op (lit8 r.n) r.a.code r.b.bcode (xR r.b.f0 r.b.imm19)
def PBin.enc (op : BitVec 8) (r : PBin) : Raw := r.hdr.raw op (lit8 r.n) (lit8 r.a) (lit8 r.b) 0
def PUn.enc (op : BitVec 8) (r : PUn) : Raw := r.hdr.raw op (lit8 r.n) (lit8 r.a) 0 0
def HAdv.enc (op : BitVec 8) (r : HAdv) (f : BitVec 6) : Raw :=
  r.hdr.raw op (lit16 r.n) 0 r.b.bcode (xR (r.b.f0 ||| f) r.b.imm19)
def HRead.enc (op : BitVec 8) (r : HRead) (f : BitVec 6) : Raw := r.hdr.raw op r.d.code (lit16 r.n) 0 (xR f 0)
def SysB.enc (op : BitVec 8) (r : SysB) : Raw := r.hdr.raw op 0 0 r.b.bcode (xR r.b.f0 r.b.imm19)
def VBin.enc (op : BitVec 8) (r : VBin) (f : BitVec 6) : Raw :=
  r.hdr.raw op r.d.code r.a.code r.b.code (xV f r.fmt r.rm.code r.ov.code 0)
def VUn.enc (op : BitVec 8) (r : VUn) : Raw := r.hdr.raw op r.d.code r.a.code 0 (xV 0 r.fmt r.rm.code r.ov.code 0)
def VRed.enc (op : BitVec 8) (r : VRed) : Raw :=
  r.hdr.raw op r.d.code r.a.code (optCode r.mask)
    (xV (fb r.mask.isSome 1) r.fmt r.rm.code r.ov.code (0#2 ++ r.s))
def VConv.enc (op : BitVec 8) (r : VConv) : Raw :=
  r.hdr.raw op r.d.code r.a.code (optCode r.rand) (xV (fb r.sat 1) r.fmt r.rm.code r.ov.code (r.k ++ r.s))
def VCmp.enc (op : BitVec 8) (r : VCmp) : Raw := r.hdr.raw op r.d.code r.a.code r.b.code (xV 0 r.fmt 0 0 0)
def VInt.enc (op : BitVec 8) (r : VInt) : Raw :=
  r.hdr.raw op r.d.code r.a.code r.b.bcode (xV (r.b.f0 ||| fb r.sat 1) r.fmt 0 0 r.b.aux8)
def VLane.enc (op : BitVec 8) (r : VLane) : Raw :=
  r.hdr.raw op r.d.code r.a.code r.n.bcode (xV r.n.f0 r.fmt 0 0 r.n.aux8)
def MStep.enc (op : BitVec 8) (r : MStep) : Raw :=
  r.hdr.raw op (aCode r.acc) (tCode r.a) (tCode r.b) (xR (fb r.keepa 1 ||| fb r.keepb 2) 0)
def MLoad.enc (op : BitVec 8) (r : MLoad) : Raw := r.m.hdr.raw op r.d.code (hCode r.h) r.a.code r.m.x
def MStore.enc (op : BitVec 8) (r : MStore) : Raw := r.m.hdr.raw op (hCode r.h) r.a.code r.s.code r.m.x
def MUpd.enc (op : BitVec 8) (r : MUpd) : Raw := r.m.hdr.raw op r.op (hCode r.h) r.r.code r.m.x
def MCopy.enc (op : BitVec 8) (r : MCopy) : Raw := r.m.hdr.raw op (hCode r.dst) (hCode r.src) r.q.code r.m.x
def MLine.enc (op : BitVec 8) (r : MLine) : Raw := r.m.hdr.raw op r.n1 (hCode r.h) r.a.code r.m.x
/-- A scope code at F[3:1]. -/
def scopeF (s : Scope) : BitVec 6 := 0#2 ++ s.code ++ 0#1
def SBar.enc (op : BitVec 8) (r : SBar) (d : BitVec 6) : Raw :=
  r.hdr.raw op d r.id r.n.bcode (xR (r.n.f0 ||| scopeF r.scope) r.n.imm19)
def TOp.enc (op : BitVec 8) (r : TOp) (b : BitVec 6) : Raw :=
  r.hdr.raw op r.d.code r.a.code b (xR 0 (BitVec.ofNat 19 r.q.val))
def ZBin.enc (op : BitVec 8) (r : ZBin) (imm : BitVec 19) : Raw :=
  r.hdr.raw op (zCode r.d) (zCode r.a) (zCode r.b) (xR 0 imm)
def ZUn.enc (op : BitVec 8) (r : ZUn) (b : BitVec 6) (imm : BitVec 19) : Raw :=
  r.hdr.raw op (zCode r.d) (zCode r.a) b (xR 0 imm)
/-- The literal fields of the sounding class in IMM19 (R392). -/
def sndImm (q : Fin 4) (sel : BitVec 4) (h1 h2 : BitVec 4) : BitVec 19 :=
  0#3 ++ h2 ++ h1 ++ sel ++ BitVec.ofNat 4 q.val
/-- A selector at bits [6:4]. -/
def sel3 (p : BitVec 3) : BitVec 4 := 0#1 ++ p

/-! ### Shapes: parsing -/

def Raw.bop (k : Kind) (r : Raw) : Option BOp :=
  if r.fbit 0 then some (.imm r.imm19) else (Opd.ofCode k r.b).map BOp.reg
def Raw.nop (k : Kind) (r : Raw) : Option NOp :=
  if r.fbit 0 then some (.aux r.aux) else (Opd.ofCode k r.b).map NOp.reg
def Raw.optB (k : Kind) (r : Raw) (present : Bool) : Option (Option Opd) :=
  if present then (Opd.ofCode k r.b).map some else some none

def Raw.rbin (k : Kind) (r : Raw) : Option RBin := do
  some { hdr := r.hdr, d := ← Opd.ofCode k r.d, a := ← Opd.ofCode k r.a, b := ← r.bop k }
def Raw.run (k : Kind) (r : Raw) : Option RUn := do
  some { hdr := r.hdr, d := ← Opd.ofCode k r.d, a := ← Opd.ofCode k r.a }
def Raw.rfield (k : Kind) (r : Raw) : Option RField := do
  some { hdr := r.hdr, d := ← Opd.ofCode k r.d, a := ← Opd.ofCode k r.a,
         pos := r.x.extractLsb' 0 6, len1 := r.x.extractLsb' 6 6 }
def Raw.rcmp (k : Kind) (r : Raw) : Option RCmp := do
  some { hdr := r.hdr, n := fin8 r.d, a := ← Opd.ofCode k r.a, b := ← r.bop k }
def Raw.pbin (r : Raw) : PBin := { hdr := r.hdr, n := fin8 r.d, a := fin8 r.a, b := fin8 r.b }
def Raw.pun (r : Raw) : PUn := { hdr := r.hdr, n := fin8 r.d, a := fin8 r.a }
def Raw.hadv (k : Kind) (r : Raw) : Option HAdv := do
  some { hdr := r.hdr, n := fin16 r.d, b := ← r.bop k }
def Raw.hread (k : Kind) (r : Raw) : Option HRead := do
  some { hdr := r.hdr, d := ← Opd.ofCode k r.d, n := fin16 r.a }
def Raw.sysb (k : Kind) (r : Raw) : Option SysB := do
  some { hdr := r.hdr, b := ← r.bop k }
def Raw.rm (r : Raw) : Option RM := RM.ofCode (r.x.extractLsb' 10 3)
def Raw.ov (r : Raw) : Option OV := OV.ofCode (r.x.extractLsb' 8 2)
def Raw.vbin (k : Kind) (r : Raw) : Option VBin := do
  some { hdr := r.hdr, fmt := r.fmt, rm := ← r.rm, ov := ← r.ov, d := ← Opd.ofCode k r.d,
         a := ← Opd.ofCode k r.a, b := ← Opd.ofCode k r.b }
def Raw.vun (k : Kind) (r : Raw) : Option VUn := do
  some { hdr := r.hdr, fmt := r.fmt, rm := ← r.rm, ov := ← r.ov, d := ← Opd.ofCode k r.d, a := ← Opd.ofCode k r.a }
def Raw.vred (k : Kind) (r : Raw) : Option VRed := do
  some { hdr := r.hdr, fmt := r.fmt, rm := ← r.rm, ov := ← r.ov, d := ← Opd.ofCode k r.d, a := ← Opd.ofCode k r.a,
         mask := ← r.optB k (r.fbit 1), s := r.x.extractLsb' 0 6 }
def Raw.vconv (k : Kind) (r : Raw) : Option VConv := do
  let rm ← r.rm
  some { hdr := r.hdr, fmt := r.fmt, rm := rm, ov := ← r.ov, d := ← Opd.ofCode k r.d, a := ← Opd.ofCode k r.a,
         rand := ← r.optB k (rm == .sr), s := r.x.extractLsb' 0 6, k := r.x.extractLsb' 6 2, sat := r.fbit 1 }
def Raw.vcmp (k : Kind) (r : Raw) : Option VCmp := do
  some { hdr := r.hdr, fmt := r.fmt, d := ← Opd.ofCode k r.d, a := ← Opd.ofCode k r.a, b := ← Opd.ofCode k r.b }
def Raw.vint (k : Kind) (r : Raw) : Option VInt := do
  some { hdr := r.hdr, fmt := r.fmt, d := ← Opd.ofCode k r.d, a := ← Opd.ofCode k r.a, b := ← r.nop k, sat := r.fbit 1 }
def Raw.vlane (k : Kind) (r : Raw) : Option VLane := do
  some { hdr := r.hdr, fmt := r.fmt, d := ← Opd.ofCode k r.d, a := ← Opd.ofCode k r.a, n := ← r.nop k }
def Raw.mstep (r : Raw) : MStep :=
  { hdr := r.hdr, acc := fin2 r.d, a := fin4 r.a, b := fin4 r.b, keepa := r.fbit 1, keepb := r.fbit 2 }
def Raw.mhdr (r : Raw) : MHdr :=
  { hdr := r.hdr, mf := r.x.extractLsb' 21 4, pred := r.x.extractLsb' 14 7, own := r.x.extractLsb' 7 7,
    succ := r.x.extractLsb' 0 7 }
def Raw.mload (k : Kind) (r : Raw) : Option MLoad := do
  some { m := r.mhdr, d := ← Opd.ofCode k r.d, h := fin16 r.a, a := ← Opd.ofCode k r.b }
def Raw.mstore (k : Kind) (r : Raw) : Option MStore := do
  some { m := r.mhdr, h := fin16 r.d, a := ← Opd.ofCode k r.a, s := ← Opd.ofCode k r.b }
def Raw.mupd (k : Kind) (r : Raw) : Option MUpd := do
  some { m := r.mhdr, op := r.d, h := fin16 r.a, r := ← Opd.ofCode k r.b }
def Raw.mcopy (k : Kind) (r : Raw) : Option MCopy := do
  some { m := r.mhdr, dst := fin16 r.d, src := fin16 r.a, q := ← Opd.ofCode k r.b }
def Raw.mline (k : Kind) (r : Raw) : Option MLine := do
  some { m := r.mhdr, n1 := r.d, h := fin16 r.a, a := ← Opd.ofCode k r.b }
/-- The scope at F[3:1]. -/
def Raw.scopeF (r : Raw) : Option Scope := Scope.ofCode (r.x.extractLsb' 20 3)
def Raw.sbar (k : Kind) (r : Raw) (h : Fin 16) : Option SBar := do
  some { hdr := r.hdr, scope := ← r.scopeF, id := r.a, n := ← r.bop k, h := h }
def Raw.q (r : Raw) : Fin 4 := fin4 (r.x.extractLsb' 0 6)
def Raw.h1 (r : Raw) : Fin 16 := ⟨(r.x.extractLsb' 8 4).toNat % 16, Nat.mod_lt _ (by decide)⟩
def Raw.h2 (r : Raw) : Fin 16 := ⟨(r.x.extractLsb' 12 4).toNat % 16, Nat.mod_lt _ (by decide)⟩
def Raw.top (k : Kind) (r : Raw) (two : Bool) : Option TOp := do
  some { hdr := r.hdr, d := ← Opd.ofCode k r.d, q := r.q, a := ← Opd.ofCode k r.a,
         b := ← (if two then Opd.ofCode k r.b else some (.d 0)) }
def Raw.zbin (r : Raw) : ZBin := { hdr := r.hdr, d := fin16 r.d, a := fin16 r.a, b := fin16 r.b }
def Raw.zun (r : Raw) : ZUn := { hdr := r.hdr, d := fin16 r.d, a := fin16 r.a }
/-- A 4-bit literal in B. -/
def Raw.b4 (r : Raw) : BitVec 4 := r.b.extractLsb' 0 4
/-- An optional channel in A or B: code 0x00 or 0x30 stands for none. -/
def optChan (x none' : BitVec 6) : Option (Fin 8) := if x = none' then none else some (fin8 x)


/-! ### Parsing by opcode (Table 5.10) -/

/-- Opcodes 0x00-0x2F. -/
def parseScalar (k : Kind) (r : Raw) : Option Instr :=
  match r.op.toNat with
  | 0x00 => (r.rbin k).map .add
  | 0x01 => (r.rbin k).map .sub
  | 0x02 => (r.rbin k).map .mul
  | 0x03 => (r.rbin k).map .mulh
  | 0x04 => (r.rbin k).map .mulhn
  | 0x05 => (r.rbin k).map .div
  | 0x06 => (r.rbin k).map .divn
  | 0x07 => (r.rbin k).map .rem
  | 0x08 => (r.rbin k).map .remn
  | 0x09 => (r.rbin k).map .min
  | 0x0A => (r.rbin k).map .max
  | 0x0B => (r.rbin k).map .minn
  | 0x0C => (r.rbin k).map .maxn
  | 0x0D => (r.rbin k).map .and
  | 0x0E => (r.rbin k).map .or
  | 0x0F => (r.rbin k).map .xor
  | 0x10 => (r.rbin k).map .andn
  | 0x11 => (r.rbin k).map .orn
  | 0x12 => (r.rbin k).map .shl
  | 0x13 => (r.rbin k).map .shr
  | 0x14 => (r.rbin k).map .sra
  | 0x15 => (r.rbin k).map .rol
  | 0x16 => (r.run k).map .clz
  | 0x17 => (r.run k).map .ctz
  | 0x18 => (r.run k).map .popc
  | 0x19 => (r.rbin k).map (.sel · (fin8 (0#3 ++ r.x.extractLsb' 20 3)))
  | 0x1A => (r.run k).map .mov
  | 0x1B => (Opd.ofCode k r.d).map (.movi r.hdr · r.imm19)
  | 0x1C => (r.run k).map (.movhi · r.imm19)
  | 0x1D => (r.rfield k).map .ext
  | 0x1E => (r.rfield k).map .extn
  | 0x1F => (r.rfield k).map .ins
  | 0x20 => (r.rcmp k).map .ceq
  | 0x21 => (r.rcmp k).map .cne
  | 0x22 => (r.rcmp k).map .clt
  | 0x23 => (r.rcmp k).map .cle
  | 0x24 => (r.rcmp k).map .cltn
  | 0x25 => (r.rcmp k).map .clen
  | 0x26 => (r.rcmp k).map .cbit
  | 0x27 => (r.rcmp k).map .ctst
  | 0x28 => some (.pand r.pbin)
  | 0x29 => some (.por r.pbin)
  | 0x2A => some (.pxor r.pbin)
  | 0x2B => some (.pandn r.pbin)
  | 0x2C => some (.pnot r.pun)
  | 0x2D => some (.pmov r.pun)
  | 0x2E => some (.pset r.hdr (fin8 r.d))
  | 0x2F => some (.pclr r.hdr (fin8 r.d))
  | _ => none

/-- Opcodes 0x30-0x4F. -/
def parseToken (k : Kind) (r : Raw) : Option Instr :=
  match r.op.toNat with
  | 0x30 => (Opd.ofCode k r.a).map (.send r.hdr (fin8 r.d) · r.imm20 r.tag)
  | 0x31 => (Opd.ofCode k r.a).map (.dup r.hdr (r.x.extractLsb' 0 8) · r.tag)
  | 0x32 => do some (.steer r.hdr (r.x.extractLsb' 0 8) (← Opd.ofCode k r.a) (← Opd.ofCode k r.b) r.tag)
  | 0x33 => some (.merge r.hdr (fin8 r.d) (fin8 r.a) (fin8 r.b) (fin8 (r.x.extractLsb' 0 6)) r.tag)
  | 0x34 => do some (.gate r.hdr (fin8 r.d) (← Opd.ofCode k r.a) (← Opd.ofCode k r.b) r.tag)
  | 0x35 => (Opd.ofCode k r.a).map (.drop r.hdr ·)
  | 0x36 => some (.stop r.hdr (fin8 r.d) r.stop r.tag)
  | 0x37 => some (.retag r.hdr (fin8 r.d) (r.x.extractLsb' 0 4))
  | 0x38 => (r.optB k (r.imm20 == 0)).map (.repeat r.hdr (fin8 r.d) (fin8 r.a) · r.imm20 r.tag)
  | 0x39 => some (.count r.hdr (fin8 r.d) (fin8 r.a) r.tag)
  | 0x3A => some (.isect r.hdr (fin8 r.d) (fin8 r.a) (fin8 r.b) r.tag)
  | 0x3B => (Opd.ofCode k r.a).map (.split r.hdr (fin8 r.d) · r.tag)
  | 0x40 => (r.hadv k).map .advp
  | 0x41 => (r.hadv k).map .advc
  | 0x42 => (r.hread k).map .hfill
  | 0x43 => (r.hread k).map .hfree
  | 0x44 => do some (.hset (← r.hadv k) (← HField.ofCode (r.x.extractLsb' 20 3)))
  | 0x45 => do some (.hget (← r.hread k) (← HField.ofCode (r.x.extractLsb' 20 3)))
  | 0x46 => some (.pub r.hdr (fin16 r.d))
  | 0x47 => some (.nop r.hdr)
  | 0x48 => (r.sysb k).map .trap
  | 0x49 => (r.sysb k).map .halt
  | 0x4A => some (.yield r.hdr (r.x.extractLsb' 0 10))
  | 0x4B => (r.sysb k).map .brk
  | 0x4C => (r.sysb k).map .slk
  | 0x4D => (Opd.ofCode k r.d).map (.rdslk r.hdr · (fin8 r.a))
  | 0x4E => (Opd.ofCode k r.d).map (.rdtime r.hdr ·)
  | 0x4F => (Opd.ofCode k r.d).map (.ckpt r.hdr ·)
  | _ => none

/-- Opcodes 0x50-0x7F. -/
def parseVector (k : Kind) (r : Raw) : Option Instr :=
  match r.op.toNat with
  | 0x50 => (r.vbin k).map .vadd
  | 0x51 => (r.vbin k).map .vsub
  | 0x52 => (r.vbin k).map .vmul
  | 0x53 => (r.vbin k).map .vfma
  | 0x54 => (r.vbin k).map .vfms
  | 0x55 => (r.vbin k).map .vnfma
  | 0x56 => (r.vbin k).map .vmax
  | 0x57 => (r.vbin k).map .vmin
  | 0x58 => (r.vun k).map .vabs
  | 0x59 => (r.vun k).map .vneg
  | 0x5A => (r.vun k).map .vrcp
  | 0x5B => (r.vun k).map .vrsq
  | 0x5C => (r.vun k).map .vexp2
  | 0x5D => (r.vun k).map .vlog2
  | 0x5E => (r.vun k).map .vsqrt
  | 0x5F => (r.vbin k).map (.vdot · (r.x.extractLsb' 0 6))
  | 0x60 => (r.vred k).map .vsum
  | 0x61 => (r.vred k).map .vrmax
  | 0x62 => (r.vred k).map .vrmin
  | 0x63 => (r.vconv k).map .vcvt
  | 0x64 => (r.vconv k).map .vqnt
  | 0x65 => (r.vconv k).map .vdqt
  | 0x66 => (r.vbin k).map (.vrot · (r.fbit 1))
  | 0x67 => do some (.vsscl r.hdr (← Opd.ofCode k r.d) (← Opd.ofCode k r.a) (← r.nop k))
  | 0x68 => (r.run k).map .vgscl
  | 0x69 => do some (.vtag r.hdr r.fmt (← Opd.ofCode k r.d) (← Opd.ofCode k r.a))
  | 0x6A => (r.run k).map .vmov
  | 0x6B => do some (.vbcst r.hdr r.fmt (← Opd.ofCode k r.d) (← Opd.ofCode k r.a) (← if r.fbit 1 then (r.nop k).map some else some none))
  | 0x6C => (r.vbin k).map .vshuf
  | 0x6D => (r.vlane k).map .vext
  | 0x6E => (r.vlane k).map .vins
  | 0x6F => (r.vcmp k).map .vceq
  | 0x70 => (r.vcmp k).map .vclt
  | 0x71 => (r.vcmp k).map .vcle
  | 0x72 => (r.vbin k).map .vsel
  | 0x73 => (r.vint k).map .viadd
  | 0x74 => (r.vint k).map .visub
  | 0x75 => (r.vint k).map .vimul
  | 0x76 => (r.vint k).map .vishl
  | 0x77 => (r.vint k).map .vishr
  | 0x78 => (r.vint k).map .vand
  | 0x79 => (r.vint k).map .vor
  | 0x7A => (r.vint k).map .vxor
  | 0x7B => do some (.xadd r.hdr (← Opd.ofCode k r.d) (← Opd.ofCode k r.a) (← Opd.ofCode k r.b))
  | 0x7C => (r.vlane k).map .xcvt
  | 0x7D => (Opd.ofCode k r.d).map (.vclr r.hdr r.fmt ·)
  | 0x7E => some (.vpark { hdr := r.hdr, u := r.d.extractLsb' 3 3, cnt1 := r.d.extractLsb' 0 3, v := fin8 r.a, row := r.b, m1 := r.x.getLsbD 0, keep := false })
  | 0x7F => some (.vunpark { hdr := r.hdr, u := r.a.extractLsb' 3 3, cnt1 := r.a.extractLsb' 0 3, v := fin8 r.d, row := r.b, m1 := r.x.getLsbD 0, keep := r.fbit 1 })
  | _ => none

/-- Opcodes 0x80-0xBF. -/
def parseMemory (k : Kind) (r : Raw) : Option Instr :=
  match r.op.toNat with
  | 0x80 => do some (.mcfg r.hdr (fin2 r.d) (fin8 r.a) (optChan r.b 0) (← ScaleSrc.ofCode (r.x.extractLsb' 20 2)) (← ScaleSrc.ofCode (r.x.extractLsb' 22 2)) (r.x.extractLsb' 0 16))
  | 0x81 => some (.tfill r.hdr (fin4 r.d) (optChan r.a 0x30) (r.x.extractLsb' 0 6))
  | 0x82 => some (.tmark r.hdr (fin4 r.d) (r.x.getLsbD 0))
  | 0x83 => some (.tdrain r.hdr (fin2 r.d))
  | 0x84 => some (.mma r.mstep)
  | 0x85 => some (.mmat r.mstep)
  | 0x86 => some (.mclr r.hdr (fin2 r.d))
  | 0x87 => some (.mnorm r.hdr (fin2 r.d) (if r.fbit 1 then some (r.x.extractLsb' 0 10) else none))
  | 0x88 => some (.mexp r.hdr (fin2 r.d) (r.x.extractLsb' 0 10))
  | 0x89 => (Opd.ofCode k r.a).map (.mscap r.hdr (fin2 r.d) · (r.x.extractLsb' 0 6) (r.fbit 1))
  | 0x8A => some (.mpstat r.hdr (fin8 r.d))
  | 0x8B => (Opd.ofCode k r.a).map (.mrow r.hdr (fin8 r.d) · (r.x.extractLsb' 0 6) (r.x.extractLsb' 6 3))
  | 0x90 => (r.mload k).map .ld
  | 0x91 => (r.mload k).map .ldv
  | 0x92 => (r.mstore k).map .st
  | 0x93 => (r.mstore k).map .stv
  | 0x94 => (r.mload k).map .ldt
  | 0x95 => (r.mload k).map .lds
  | 0x96 => (r.mstore k).map .stw
  | 0x97 => (r.mupd k).map .updw
  | 0x98 => (Opd.ofCode k r.b).map (.reclaim r.mhdr (fin16 r.a) ·)
  | 0x99 => some (.settle r.mhdr (fin16 r.a))
  | 0x9A => (r.mload k).map .atom
  | 0x9B => (r.mupd k).map .red
  | 0x9C => (r.mload k).map .mcst
  | 0x9D => (r.mcopy k).map .cpy
  | 0x9E => (r.mcopy k).map .cpyw
  | 0x9F => (r.mline k).map .pref
  | 0xA0 => (r.mline k).map .disc
  | 0xA1 => some (.mnop r.mhdr (fin16 r.a))
  | 0xA2 => (r.mload k).map .xlat
  | 0xA3 => (Scope.ofCode (r.d.extractLsb' 0 3)).map (.fence r.mhdr ·)
  | 0xA4 => (Scope.ofCode (r.d.extractLsb' 0 3)).map (.acq r.mhdr ·)
  | 0xA5 => (Scope.ofCode (r.d.extractLsb' 0 3)).map (.rel r.mhdr ·)
  | 0xA6 => (r.mload k).map .ldk
  | 0xA7 => (r.mstore k).map .stk
  | 0xA8 => (r.mstore k).map .xred
  | 0xB0 => (r.sbar k 0).map .bar
  | 0xB1 => do some (.barw r.hdr (← Opd.ofCode k r.d) (← r.scopeF) r.a)
  | 0xB2 => r.scopeF.map (.bard r.hdr · r.a)
  | 0xB3 => (r.sbar k (fin16 r.d)).map .bars
  | 0xB4 => do some (.monw r.hdr (← Opd.ofCode k r.d) (fin16 r.a) (← Opd.ofCode k r.b))
  | 0xB5 => (Opd.ofCode k r.b).map (.monc r.hdr (fin8 r.d) (fin16 r.a) ·)
  | 0xB6 => do some (.tspawn r.hdr r.d (← Opd.ofCode k r.a) (← Opd.ofCode k r.b))
  | 0xB7 => some (.tdone r.hdr)
  | _ => none

/-- Opcodes 0xC0-0xDF. -/
def parseTree (k : Kind) (r : Raw) : Option Instr :=
  match r.op.toNat with
  | 0xC0 => (r.top k false).map .tins
  | 0xC1 => (r.top k false).map .tseal
  | 0xC2 => (r.top k true).map .tdrop
  | 0xC3 => if r.fbit 1 then do some (.tforkTree r.hdr (← Opd.ofCode k r.d) r.h1 r.h2 (← Opd.ofCode k r.a) r.q)
      else do some (.tforkPages r.hdr (← Opd.ofCode k r.d) r.h1 r.h2 (← Opd.ofCode k r.a))
  | 0xC4 => (Opd.ofCode k r.d).map (.twalk r.hdr · r.q (fin8 r.a) (r.fbit 1))
  | 0xC5 => (Opd.ofCode k r.d).map (.tres r.hdr · r.q (r.x.extractLsb' 4 3))
  | 0xC6 => (Opd.ofCode k r.d).map (.tsum r.hdr · r.q (r.x.getLsbD 4))
  | 0xC7 => (Opd.ofCode k r.d).map (.tstat r.hdr · r.q (r.x.extractLsb' 4 2))
  | 0xC8 => (Opd.ofCode k r.a).map (.tpar r.hdr r.q · r.h1 r.h2 (r.x.extractLsb' 4 4))
  | 0xC9 => (Opd.ofCode k r.a).map (.tscr r.hdr r.q ·)
  | 0xCA => if r.x.getLsbD 4 then (Opd.ofCode k r.d).map (.tchkAbort r.hdr · r.q) else (Opd.ofCode k r.d).map (.tchkQuery r.hdr · r.q)
  | 0xD0 => (Opd.ofCode k r.a).map (.sgen r.hdr (fin16 r.d) · r.b4 (r.x.extractLsb' 0 4) (r.fbit 1))
  | 0xD1 => some (.sand r.zbin)
  | 0xD2 => some (.sxnor r.zbin)
  | 0xD3 => some (.sor r.zbin)
  | 0xD4 => some (.smux r.zbin (fin16 (r.x.extractLsb' 0 6)))
  | 0xD5 => some (.snot r.zun)
  | 0xD6 => some (.smin r.zbin)
  | 0xD7 => some (.smax r.zbin)
  | 0xD8 => some (.scnt r.hdr (fin8 r.d) (fin16 r.a) (r.x.extractLsb' 0 4))
  | 0xD9 => some (.sregen r.zun r.b4)
  | 0xDA => some (.sdly r.zun (r.x.extractLsb' 0 12) r.b4)
  | 0xDB => some (.slen r.hdr (r.x.extractLsb' 0 2))
  | 0xDC => some (.scls r.zun (r.x.extractLsb' 0 16))
  | 0xDD => some (.sout r.hdr (fin8 r.d) (fin16 r.a))
  | 0xDE => some (.sin r.hdr (fin16 r.d) (fin8 r.a))
  | _ => none

/-- The instruction that the fields of a word name, before the checks. -/
def parse (k : Kind) (r : Raw) : Option Instr :=
  if r.op.toNat < 0x30 then parseScalar k r
  else if r.op.toNat < 0x50 then parseToken k r
  else if r.op.toNat < 0x80 then parseVector k r
  else if r.op.toNat < 0xC0 then parseMemory k r
  else parseTree k r

/-- The opcode is assigned to a rule word (Table 5.10). -/
def opAssigned (op : BitVec 8) : Bool :=
  let n := op.toNat
  decide (n ≤ 0x3B) || decide (0x40 ≤ n ∧ n ≤ 0x8B) || decide (0x90 ≤ n ∧ n ≤ 0xA8) || decide (0xB0 ≤ n ∧ n ≤ 0xB7) || decide (0xC0 ≤ n ∧ n ≤ 0xCA) || decide (0xD0 ≤ n ∧ n ≤ 0xDE)

/-! ### Encoding -/

/-- The fields of a rule word; none for an event. -/
def encodeRaw : Instr → Option Raw
  | .add r => some (RBin.enc 0x00 r)
  | .sub r => some (RBin.enc 0x01 r)
  | .mul r => some (RBin.enc 0x02 r)
  | .mulh r => some (RBin.enc 0x03 r)
  | .mulhn r => some (RBin.enc 0x04 r)
  | .div r => some (RBin.enc 0x05 r)
  | .divn r => some (RBin.enc 0x06 r)
  | .rem r => some (RBin.enc 0x07 r)
  | .remn r => some (RBin.enc 0x08 r)
  | .min r => some (RBin.enc 0x09 r)
  | .max r => some (RBin.enc 0x0A r)
  | .minn r => some (RBin.enc 0x0B r)
  | .maxn r => some (RBin.enc 0x0C r)
  | .and r => some (RBin.enc 0x0D r)
  | .or r => some (RBin.enc 0x0E r)
  | .xor r => some (RBin.enc 0x0F r)
  | .andn r => some (RBin.enc 0x10 r)
  | .orn r => some (RBin.enc 0x11 r)
  | .shl r => some (RBin.enc 0x12 r)
  | .shr r => some (RBin.enc 0x13 r)
  | .sra r => some (RBin.enc 0x14 r)
  | .rol r => some (RBin.enc 0x15 r)
  | .clz r => some (RUn.enc 0x16 r)
  | .ctz r => some (RUn.enc 0x17 r)
  | .popc r => some (RUn.enc 0x18 r)
  | .sel r p => some (r.hdr.raw 0x19 r.d.code r.a.code r.b.bcode (xR (r.b.f0 ||| (lit8 p) <<< 1) r.b.imm19))
  | .mov r => some (RUn.enc 0x1A r)
  | .movi h d i => some (h.raw 0x1B d.code 0 0 (xR 1 i))
  | .movhi r i => some (r.hdr.raw 0x1C r.d.code r.a.code 0 (xR 1 i))
  | .ext r => some (RField.enc 0x1D r)
  | .extn r => some (RField.enc 0x1E r)
  | .ins r => some (RField.enc 0x1F r)
  | .ceq r => some (RCmp.enc 0x20 r)
  | .cne r => some (RCmp.enc 0x21 r)
  | .clt r => some (RCmp.enc 0x22 r)
  | .cle r => some (RCmp.enc 0x23 r)
  | .cltn r => some (RCmp.enc 0x24 r)
  | .clen r => some (RCmp.enc 0x25 r)
  | .cbit r => some (RCmp.enc 0x26 r)
  | .ctst r => some (RCmp.enc 0x27 r)
  | .pand r => some (PBin.enc 0x28 r)
  | .por r => some (PBin.enc 0x29 r)
  | .pxor r => some (PBin.enc 0x2A r)
  | .pandn r => some (PBin.enc 0x2B r)
  | .pnot r => some (PUn.enc 0x2C r)
  | .pmov r => some (PUn.enc 0x2D r)
  | .pset h n => some (h.raw 0x2E (lit8 n) 0 0 0)
  | .pclr h n => some (h.raw 0x2F (lit8 n) 0 0 0)
  | .send h o s i t => some (h.raw 0x30 (oCode o) s.code 0 (xT t 0 i))
  | .dup h m s t => some (h.raw 0x31 0 s.code 0 (xT t 0 (0#12 ++ m)))
  | .steer h m s j t => some (h.raw 0x32 0 s.code j.code (xT t 0 (0#12 ++ m)))
  | .merge h o a b n t => some (h.raw 0x33 (oCode o) (cCode a) (cCode b) (xT t 0 (BitVec.ofNat 20 n.val)))
  | .gate h o s c t => some (h.raw 0x34 (oCode o) s.code c.code (xT t 0 0))
  | .drop h s => some (h.raw 0x35 0 s.code 0 0)
  | .stop h o l t => some (h.raw 0x36 (oCode o) 0 0 (xT t l 0))
  | .retag h n v => some (h.raw 0x37 (lit8 n) 0 0 (xT 0 0 (0#16 ++ v)))
  | .repeat h o c n i t => some (h.raw 0x38 (oCode o) (cCode c) (optCode n) (xT t 0 i))
  | .count h o c t => some (h.raw 0x39 (oCode o) (cCode c) 0 (xT t 0 0))
  | .isect h o a b t => some (h.raw 0x3A (oCode o) (cCode a) (cCode b) (xT t 0 0))
  | .split h o s t => some (h.raw 0x3B (oCode o) s.code 0 (xT t 0 0))
  | .advp r => some (HAdv.enc 0x40 r 0)
  | .advc r => some (HAdv.enc 0x41 r 0)
  | .hfill r => some (HRead.enc 0x42 r 0)
  | .hfree r => some (HRead.enc 0x43 r 0)
  | .hset r f => some (HAdv.enc 0x44 r (0#2 ++ f.code ++ 0#1))
  | .hget r f => some (HRead.enc 0x45 r (0#2 ++ f.code ++ 0#1))
  | .pub h n => some (h.raw 0x46 (lit16 n) 0 0 0)
  | .nop h => some (h.raw 0x47 0 0 0 0)
  | .trap r => some (SysB.enc 0x48 r)
  | .halt r => some (SysB.enc 0x49 r)
  | .yield h n => some (h.raw 0x4A 0 0 0 (xR 0 (0#9 ++ n)))
  | .brk r => some (SysB.enc 0x4B r)
  | .slk r => some (SysB.enc 0x4C r)
  | .rdslk h d c => some (h.raw 0x4D d.code (lit8 c) 0 0)
  | .rdtime h d => some (h.raw 0x4E d.code 0 0 0)
  | .ckpt h d => some (h.raw 0x4F d.code 0 0 0)
  | .vadd r => some (VBin.enc 0x50 r 0)
  | .vsub r => some (VBin.enc 0x51 r 0)
  | .vmul r => some (VBin.enc 0x52 r 0)
  | .vfma r => some (VBin.enc 0x53 r 0)
  | .vfms r => some (VBin.enc 0x54 r 0)
  | .vnfma r => some (VBin.enc 0x55 r 0)
  | .vmax r => some (VBin.enc 0x56 r 0)
  | .vmin r => some (VBin.enc 0x57 r 0)
  | .vabs r => some (VUn.enc 0x58 r)
  | .vneg r => some (VUn.enc 0x59 r)
  | .vrcp r => some (VUn.enc 0x5A r)
  | .vrsq r => some (VUn.enc 0x5B r)
  | .vexp2 r => some (VUn.enc 0x5C r)
  | .vlog2 r => some (VUn.enc 0x5D r)
  | .vsqrt r => some (VUn.enc 0x5E r)
  | .vdot r s => some (r.hdr.raw 0x5F r.d.code r.a.code r.b.code (xV 0 r.fmt r.rm.code r.ov.code (0#2 ++ s)))
  | .vsum r => some (VRed.enc 0x60 r)
  | .vrmax r => some (VRed.enc 0x61 r)
  | .vrmin r => some (VRed.enc 0x62 r)
  | .vcvt r => some (VConv.enc 0x63 r)
  | .vqnt r => some (VConv.enc 0x64 r)
  | .vdqt r => some (VConv.enc 0x65 r)
  | .vrot r s => some (VBin.enc 0x66 r (fb s 1))
  | .vsscl h d a n => some (h.raw 0x67 d.code a.code n.bcode (xV n.f0 0 0 0 n.aux8))
  | .vgscl r => some (RUn.enc 0x68 r)
  | .vtag h f d a => some (h.raw 0x69 d.code a.code 0 (xV 0 f 0 0 0))
  | .vmov r => some (RUn.enc 0x6A r)
  | .vbcst h f d a n => some (h.raw 0x6B d.code a.code (match n with | none => 0 | some n => n.bcode)
      (xV (match n with | none => 0 | some n => n.f0 ||| 2) f 0 0 (match n with | none => 0 | some n => n.aux8)))
  | .vshuf r => some (VBin.enc 0x6C r 0)
  | .vext r => some (VLane.enc 0x6D r)
  | .vins r => some (VLane.enc 0x6E r)
  | .vceq r => some (VCmp.enc 0x6F r)
  | .vclt r => some (VCmp.enc 0x70 r)
  | .vcle r => some (VCmp.enc 0x71 r)
  | .vsel r => some (VBin.enc 0x72 r 0)
  | .viadd r => some (VInt.enc 0x73 r)
  | .visub r => some (VInt.enc 0x74 r)
  | .vimul r => some (VInt.enc 0x75 r)
  | .vishl r => some (VInt.enc 0x76 r)
  | .vishr r => some (VInt.enc 0x77 r)
  | .vand r => some (VInt.enc 0x78 r)
  | .vor r => some (VInt.enc 0x79 r)
  | .vxor r => some (VInt.enc 0x7A r)
  | .xadd h d a b => some (h.raw 0x7B d.code a.code b.code (xV 0 44 0 0 0))
  | .xcvt r => some (VLane.enc 0x7C r)
  | .vclr h f d => some (h.raw 0x7D d.code 0 0 (xV 0 f 0 0 0))
  | .vpark r => some (r.hdr.raw 0x7E (r.u ++ r.cnt1) (vCode r.v) r.row (xV 0 0 0 0 (if r.m1 then 1 else 0)))
  | .vunpark r => some (r.hdr.raw 0x7F (vCode r.v) (r.u ++ r.cnt1) r.row (xV (fb r.keep 1) 0 0 0 (if r.m1 then 1 else 0)))
  | .mcfg h q o c sa sb kt => some (h.raw 0x80 (aCode q) (oCode o) (match c with | none => 0 | some c => cCode c)
      (xR (0#1 ++ sb.code ++ sa.code ++ 0#1) (0#3 ++ kt)))
  | .tfill h t c f => some (h.raw 0x81 (tCode t) (match c with | none => 0x30 | some c => cCode c) 0 (xR 0 (0#13 ++ f)))
  | .tmark h t f => some (h.raw 0x82 (tCode t) 0 0 (xR 0 (if f then 1 else 0)))
  | .tdrain h q => some (h.raw 0x83 (aCode q) 0 0 0)
  | .mma r => some (MStep.enc 0x84 r)
  | .mmat r => some (MStep.enc 0x85 r)
  | .mclr h q => some (h.raw 0x86 (aCode q) 0 0 0)
  | .mnorm h q e => some (h.raw 0x87 (aCode q) 0 0 (xR (fb e.isSome 1) (0#9 ++ e.getD 0)))
  | .mexp h q e => some (h.raw 0x88 (aCode q) 0 0 (xR 0 (0#9 ++ e)))
  | .mscap h g s row all => some (h.raw 0x89 (gCode g) s.code 0 (xR (fb all 1) (0#13 ++ row)))
  | .mpstat h o => some (h.raw 0x8A (oCode o) 0 0 0)
  | .mrow h o u row p => some (h.raw 0x8B (oCode o) u.code 0 (xR 0 (0#10 ++ p ++ row)))
  | .ld r => some (MLoad.enc 0x90 r)
  | .ldv r => some (MLoad.enc 0x91 r)
  | .st r => some (MStore.enc 0x92 r)
  | .stv r => some (MStore.enc 0x93 r)
  | .ldt r => some (MLoad.enc 0x94 r)
  | .lds r => some (MLoad.enc 0x95 r)
  | .stw r => some (MStore.enc 0x96 r)
  | .updw r => some (MUpd.enc 0x97 r)
  | .reclaim m h a => some (m.hdr.raw 0x98 0 (hCode h) a.code m.x)
  | .settle m h => some (m.hdr.raw 0x99 0 (hCode h) 0 m.x)
  | .atom r => some (MLoad.enc 0x9A r)
  | .red r => some (MUpd.enc 0x9B r)
  | .mcst r => some (MLoad.enc 0x9C r)
  | .cpy r => some (MCopy.enc 0x9D r)
  | .cpyw r => some (MCopy.enc 0x9E r)
  | .pref r => some (MLine.enc 0x9F r)
  | .disc r => some (MLine.enc 0xA0 r)
  | .mnop m h => some (m.hdr.raw 0xA1 0 (hCode h) 0 m.x)
  | .xlat r => some (MLoad.enc 0xA2 r)
  | .fence m s => some (m.hdr.raw 0xA3 (0#3 ++ s.code) 0 0 m.x)
  | .acq m s => some (m.hdr.raw 0xA4 (0#3 ++ s.code) 0 0 m.x)
  | .rel m s => some (m.hdr.raw 0xA5 (0#3 ++ s.code) 0 0 m.x)
  | .ldk r => some (MLoad.enc 0xA6 r)
  | .stk r => some (MStore.enc 0xA7 r)
  | .xred r => some (MStore.enc 0xA8 r)
  | .bar r => some (SBar.enc 0xB0 r 0)
  | .barw h d s i => some (h.raw 0xB1 d.code i 0 (xR (scopeF s) 0))
  | .bard h s i => some (h.raw 0xB2 0 i 0 (xR (scopeF s) 0))
  | .bars r => some (SBar.enc 0xB3 r (lit16 r.h))
  | .monw h d n a => some (h.raw 0xB4 d.code (lit16 n) a.code 0)
  | .monc h d n a => some (h.raw 0xB5 (dCode d) (lit16 n) a.code 0)
  | .tspawn h n t a => some (h.raw 0xB6 n t.code a.code 0)
  | .tdone h => some (h.raw 0xB7 0 0 0 0)
  | .tins r => some (TOp.enc 0xC0 r 0)
  | .tseal r => some (TOp.enc 0xC1 r 0)
  | .tdrop r => some (TOp.enc 0xC2 r r.b.code)
  | .tforkPages h d hd hs n => some (h.raw 0xC3 d.code n.code 0 (xR 0 (sndImm 0 0 (BitVec.ofNat 4 hd.val) (BitVec.ofNat 4 hs.val))))
  | .tforkTree h d hd he n q => some (h.raw 0xC3 d.code n.code 0 (xR 2 (sndImm q 0 (BitVec.ofNat 4 hd.val) (BitVec.ofNat 4 he.val))))
  | .twalk h d q v s => some (h.raw 0xC4 d.code (vCode v) 0 (xR (fb s 1) (sndImm q 0 0 0)))
  | .tres h d q p => some (h.raw 0xC5 d.code 0 0 (xR 0 (sndImm q (sel3 p) 0 0)))
  | .tsum h d q p => some (h.raw 0xC6 d.code 0 0 (xR 0 (sndImm q (if p then 1 else 0) 0 0)))
  | .tstat h d q w => some (h.raw 0xC7 d.code 0 0 (xR 0 (sndImm q (0#2 ++ w) 0 0)))
  | .tpar h q a hn ht hd => some (h.raw 0xC8 0 a.code 0 (xR 0 (sndImm q hd (BitVec.ofNat 4 hn.val) (BitVec.ofNat 4 ht.val))))
  | .tscr h q a => some (h.raw 0xC9 0 a.code 0 (xR 0 (sndImm q 0 0 0)))
  | .tchkQuery h d q => some (h.raw 0xCA d.code 0 0 (xR 0 (sndImm q 0 0 0)))
  | .tchkAbort h d q => some (h.raw 0xCA d.code 0 0 (xR 0 (sndImm q 1 0 0)))
  | .sgen h d s g n b => some (h.raw 0xD0 (zCode d) s.code (0#2 ++ g) (xR (fb b 1) (0#15 ++ n)))
  | .sand r => some (ZBin.enc 0xD1 r 0)
  | .sxnor r => some (ZBin.enc 0xD2 r 0)
  | .sor r => some (ZBin.enc 0xD3 r 0)
  | .smux r s => some (ZBin.enc 0xD4 r (BitVec.ofNat 19 s.val))
  | .snot r => some (ZUn.enc 0xD5 r 0 0)
  | .smin r => some (ZBin.enc 0xD6 r 0)
  | .smax r => some (ZBin.enc 0xD7 r 0)
  | .scnt h o a n => some (h.raw 0xD8 (oCode o) (zCode a) 0 (xR 0 (0#15 ++ n)))
  | .sregen r g => some (ZUn.enc 0xD9 r (0#2 ++ g) 0)
  | .sdly r n g => some (ZUn.enc 0xDA r (0#2 ++ g) (0#7 ++ n))
  | .slen h c => some (h.raw 0xDB 0 0 0 (xR 0 (0#17 ++ c)))
  | .scls r m => some (ZUn.enc 0xDC r 0 (0#3 ++ m))
  | .sout h o a => some (h.raw 0xDD (oCode o) (zCode a) 0 0)
  | .sin h d c => some (h.raw 0xDE (zCode d) (cCode c) 0 0)
  | _ => none

/-- The word of a rule instruction (0 for an event, which has no word). -/
def encode (i : Instr) : Word :=
  match encodeRaw i with
  | some r => r.toWord
  | none => 0

/-! ### Decoding -/

/-- The instruction that a word is in a station of kind `k`, or the first reason for which it fails at configuration load (R130). -/
def decode (k : Kind) (w : Word) : Except LoadFail Instr :=
  let r := Raw.ofWord w
  if opAssigned r.op then
    match parse k r with
    | none => .error .badOperand
    | some i =>
      match loadFailure k i with
      | some f => .error f
      | none => if encode i = w then .ok i else .error .unusedBits
  else .error .reservedOpcode

/-- `decode` without the reason. -/
def decode? (k : Kind) (w : Word) : Option Instr :=
  match decode k w with
  | .ok i => some i
  | .error _ => none

/-- The station kinds in the order in which a word of the opcode table is tried: a word means the same in every kind that accepts it,
but for register codes that name other registers in other kinds. -/
def tableKinds : List Kind := [.c, .sd, .m, .ss, .s]

/-- The instruction of a word of the opcode table: a rule word is one 64-bit word, numbered from its least significant bit. -/
def decodeTableWord (nbits w : Nat) : Option Instr :=
  tableKinds.findSome? (fun k => decode? k (BitVec.ofNat 64 (w % 2 ^ nbits)))

/-! ### Node words -/

/-- The word of a node (R120, Tables 11.7 and 15.6). -/
def NodeWord.encode : NodeWord → Word
  | .ctn i o f g rm ov =>
      (Raw.mk 0 0 0xE1 (cCode i) (oCode o) 0 0 (0#8 ++ ov.code ++ rm.code ++ g ++ f)).toWord
  | .nrm i o => (Raw.mk 0 0 0xE2 (cCode i) (oCode o) 0 0 0).toWord
  | .prime c t st imm sl => (Raw.mk 0 0 0xE7 (cCode c) 0 0 sl (xT t st imm)).toWord
  | .agl dim n => 0#7 ++ 0xE3#8 ++ dim ++ 0#13 ++ n
  | .agb p va => 0#7 ++ 0xE4#8 ++ BitVec.ofBool p ++ 0#20 ++ va
  | .ags dim st => 0#7 ++ 0xE5#8 ++ dim ++ st
  | .agx cw op nd wide hi ch sl dy dx =>
      0#7 ++ 0xE6#8 ++ BitVec.ofBool cw ++ op ++ nd ++ BitVec.ofBool wide ++ BitVec.ofNat 4 hi.val ++
        BitVec.ofNat 3 ch.val ++ 0#2 ++ sl ++ dy ++ dx ++ 0#13

/-- The node that a word's fields name. -/
def NodeWord.parse (w : Word) : Option NodeWord :=
  let r := Raw.ofWord w
  match r.op.toNat with
  | 0xE1 => do
      some (.ctn (fin8 r.d) (fin8 r.a) (w.extractLsb' 0 6) (w.extractLsb' 6 6)
        (← RM.ofCode (w.extractLsb' 12 3)) (← OV.ofCode (w.extractLsb' 15 2)))
  | 0xE2 => some (.nrm (fin8 r.d) (fin8 r.a))
  | 0xE3 => some (.agl (w.extractLsb' 45 4) (w.extractLsb' 0 32))
  | 0xE4 => some (.agb (w.getLsbD 48) (w.extractLsb' 0 28))
  | 0xE5 => some (.ags (w.extractLsb' 45 4) (w.extractLsb' 0 45))
  | 0xE6 =>
      some (.agx (w.getLsbD 48) (w.extractLsb' 45 3) (w.extractLsb' 41 4) (w.getLsbD 40)
        ⟨(w.extractLsb' 36 4).toNat % 16, Nat.mod_lt _ (by decide)⟩
        ⟨(w.extractLsb' 33 3).toNat % 8, Nat.mod_lt _ (by decide)⟩
        (w.extractLsb' 25 6) (w.extractLsb' 19 6) (w.extractLsb' 13 6))
  | 0xE7 => some (.prime (fin8 r.d) r.tag r.stop r.imm20 r.sl)
  | _ => none

/-- The station kinds that accept the node (R133), its format and literal fields (R284, R352, R354). -/
def NodeWord.wellFormed (k : Option Kind) : NodeWord → Bool
  | .ctn _ _ f g rm ov =>
      (k == some .c || k == some .s) &&
        (if f.isB8 then g.isB8 && decide (rm ≠ .sr)
         else (f.isFW || decide (36 ≤ f.toNat ∧ f.toNat ≤ 41)) && (g == f) && (rm == .rne) && (ov == .sat))
  | .nrm _ _ => k == some .c
  | .prime _ _ st imm _ => k.isSome && (st == 0 || imm == 0)
  | .agl dim _ => k == none && decide (dim.toNat < 12)
  | .agb p va => k == none && !(p && va.getLsbD 27)
  | .ags dim _ => k == none && decide (dim.toNat < 12)
  | .agx _ op nd _ _ ch _ dy dx =>
      k == none && decide (nd.toNat < 12) &&
        (op == 0 || (op == 1 && decide (ch.val = 0) && dy == 0 && dx == 0))

/-- A node word without its SL field, which `ctn` and `nrm` ignore (R131, R350). -/
def NodeWord.known (n : NodeWord) (w : Word) : Word :=
  match n with
  | .ctn .. | .nrm .. => w &&& ~~~(0x3F#64 <<< 25)
  | _ => w

/-- A node word of a station of kind `k`, or (`none`) of an address-generator position. -/
def NodeWord.decode (k : Option Kind) (w : Word) : Option NodeWord :=
  match NodeWord.parse w with
  | some n => if n.wellFormed k && n.encode == n.known w then some n else none
  | none => none

end Sys2Proof
end

