-- ==== Sys2Proof/Machine/Flags.lean ====
section
/-! DEFINITION. Guards (R126, R158), predicates computed from values (R174), and what a consumed stop changes in its context (R145, R158). -/

namespace Sys2Proof.Machine

open Sys2Proof

/-- The compares of Table 7.4 over two scalars. -/
def cmpEq (a b : Word) : Bool := a == b
def cmpNe (a b : Word) : Bool := a != b
def cmpLt (a b : Word) : Bool := a.slt b
def cmpLe (a b : Word) : Bool := a.sle b
def cmpLtn (a b : Word) : Bool := a.ult b
def cmpLen (a b : Word) : Bool := a.ule b
def cmpBit (a b : Word) : Bool := a.getLsbD (b.toNat % 64)
def cmpTst (a b : Word) : Bool := a &&& b != 0

/-- Predicate N of a station. -/
def Station.pred (t : Station) (n : Fin 8) : Bool := t.p.getLsbD n.val

/-- A channel that a fill or a carry-in binding owns (R340). -/
def Station.bound (t : Station) (n : Fin 8) : Bool :=
  match t.mat with
  | none => false
  | some m => m.t.toList.any (fun x => x.fill == some n) ||
      m.a.toList.any (fun x => match x.cfg with | some k => k.carry == some n | none => false)

/-- The input channel of a node (R333). -/
def Station.nodeInput (t : Station) (n : Fin 8) : Bool :=
  (match t.ctn with | some x => x.i == n | none => false) || (match t.nrm with | some x => x.i == n | none => false)

/-- A channel that a binding or a node owns: its heads select no context (R333, R340). -/
def Station.owned (t : Station) (n : Fin 8) : Bool := t.bound n || t.nodeInput n

/-- Whether an entry at the head of cN selects a context (R156); the argument token of a task selects the context that runs it (R291), and what
stands in the fault queue selects the fault context (R167). -/
def Station.selects (t : Station) (c n : Fin 8) (id : Nat) (k : Token) : Bool :=
  if t.owned n then false
  else if n = 7 ∧ t.fctx.isSome then t.fctx == some c
  else if n = 6 ∧ t.ctx.toList.any (fun x => x.running == some id) then t.ctx[c].running == some id
  else if k.tag ≠ 0 then k.tag.toNat == c.val
  else match t.hctx[n] with | none => true | some x => x == c

/-- The head of cN that a context sees. -/
def Station.seen (t : Station) (c n : Fin 8) : Option Token :=
  match t.c[n].q with
  | [] => none
  | e :: _ =>
    if e.new || decide (e.wait ≠ 0) then none
    else match e.tok with
      | none => none
      | some k => if t.selects c n e.id k then some k else none

/-- A guard on the state at the start of the cycle (R158). -/
def Station.guard (t : Station) (c : Fin 8) (sl : Fin 32) : Guard → Bool
  | .always => true
  | .pset n => t.pred n
  | .pclr n => !t.pred n
  | .chan n => match t.seen c n with | some k => k.data? | none => false
  | .chanStop n => match t.seen c n with | some k => !k.data? | none => false
  | .fill n => decide (t.h[n].dcnt.toNat ≤ t.h[n].fill)
  | .free n => decide (t.h[n].dcnt.toNat ≤ t.hfree n)
  | .init => !t.ctx[c].fired.getLsbD sl.val

/-- A context after consuming a stop or fault token: stoplvl, and the wave number for levels 2 and 3. -/
def Ctx.stopped (c : Ctx) (k : Token) : Ctx :=
  if k.data? then c
  else { c with
    stoplvl := if k.f then 4 else k.stop.setWidth 3,
    wave := if decide (2 ≤ k.stop.toNat) && !k.f then c.wave + 1 else c.wave }

/-- A context after the rule of a slot has fired under a guard (R161). -/
def Ctx.markFired (c : Ctx) (g : Guard) (sl : Fin 32) : Ctx :=
  match g with
  | .init => { c with fired := c.fired ||| BitVec.twoPow 32 sl.val }
  | _ => c

end Sys2Proof.Machine
end

