-- ==== Sys2Proof/Machine/Operands.lean ====
section
/-! DEFINITION. What a firing rule reads and writes: operands (R121-R124, R168, R169, R176), readiness (R159), the path of a fault (R165),
and the commit of a firing (R160, R161, R170). -/

namespace Sys2Proof.Machine

open Sys2Proof

/-- The entry at the head of a channel, once it has stood since the start of the cycle. -/
def Station.headEntry (t : Station) (c : Fin 8) : Option Token := t.c[c].head

/-- Consume the head of a channel. -/
def Station.popC (t : Station) (c : Fin 8) : Station := t.modC c Fifo.pop

/-- What a rule sees when it fires: the machine and its station as they are now (claims of earlier slots included),
the firing with the station at the start of the cycle, its slot and header. -/
structure Env where
  s    : State
  live : Station
  f    : Firing
  slot : Fin 32
  hdr  : Hdr

def Env.pre (e : Env) : Station := e.f.pre
def Env.ctx (e : Env) : Ctx := e.f.pre.ctx[e.f.ctx]
def Env.who (e : Env) : Who := ⟨e.f.st, e.f.ctx, e.slot⟩
/-- The counter of every token that the rule emits (R51); the base is the one before the cycle (R196). -/
def Env.sl (e : Env) : Slack := slackStart e.hdr.sl e.ctx.base
def Env.region (e : Env) : Option Region := e.s.region? e.pre.voy e.pre.reg
def Env.pending (e : Env) (r : PReg) : Bool := e.pre.pend.contains r

/-- The value of a special (Table 5.5); `lane` as a scalar. -/
def Env.special (e : Env) : Special → Word
  | .zero => 0
  | .one => 1
  | .lane => 0
  | .sx => BitVec.ofNat 64 e.pre.rx
  | .sy => BitVec.ofNat 64 e.pre.ry
  | .ctx => BitVec.ofNat 64 e.f.ctx.val
  | .slk => e.ctx.base.setWidth 64
  | .clk => match e.region with | some r => BitVec.ofNat 64 r.clk | none => 0
  | .wave => e.ctx.wave.setWidth 64
  | .tstamp => if e.ctx.running.isSome then e.ctx.ts.setWidth 64 else 0
  | .seed => match e.s.voyage? e.pre.voy with | some v => v.pkt[4] | none => 0
  | .stoplvl => e.ctx.stoplvl.setWidth 64

/-- Whether a `repeat` in another slot has reserved the head of cN (R181). -/
def Station.reserved (t : Station) (n c : Fin 8) (sl : Fin 32) : Bool :=
  (List.finRange 8).any fun i =>
    (List.finRange 32).any fun j =>
      t.ctx[i].reps[j] != 0 && !(i == c && j == sl) &&
        (match decode t.kind (t.ctx[i].rules.getD j.val 0) with
          | .ok (.repeat _ _ k _ _ _) => k == n
          | _ => false)

/-- The head of cN that the rule can consume (R159 condition 1). -/
def Env.take (e : Env) (n : Fin 8) : Option Token :=
  match e.pre.seen e.f.ctx n with
  | none => none
  | some k =>
    if e.live.c[n].freed ≠ e.pre.c[n].freed then none
    else if e.live.reserved n e.f.ctx e.slot then none
    else if k.data? || e.hdr.guard == .chanStop n then some k
    else none

/-- What an operand gives: the token that stands for it, whether it is a plain handle (R154), and what its consumption does. -/
structure Val where
  tok : Token
  bad : Bool
  eff : List Effect
  deriving DecidableEq, Repr

def Val.word (v : Val) : Word := v.tok.data.setWidth 64

/-- Elements of a ring that the rule can still consume, and slots it can still fill, after the claims of this cycle (R159 condition 2). -/
def Env.ringFill (e : Env) (n : Fin 16) : Nat := (e.pre.h[n].pcnt - e.live.h[n].ccnt).toNat
def Env.ringFree (e : Env) (n : Fin 16) : Nat :=
  (BitVec.ofNat 32 e.pre.h[n].nslot - (e.live.h[n].pcnt - e.pre.h[n].ccnt) - BitVec.ofNat 32 (e.live.claimed n)).toNat

/-- Read a source operand, consuming a channel head or an element (Table 5.6, R168, R176); none while it is not ready. -/
def Env.read (e : Env) : Opd → Option Val
  | .d n => if e.pending (.d n) then none else some ⟨Token.scalar e.pre.d[n] e.sl, false, []⟩
  | .v n => if e.pending (.v n) then none else some ⟨Token.vec e.pre.v[n] e.sl, false, []⟩
  | .c n => (e.take n).map fun k => ⟨k, false, [.pop n]⟩
  | .h n =>
    let h := e.pre.h[n]
    let x : Token := ⟨e.pre.element n e.live.h[n].ccnt, unitSide, h.fmt, 0, 0, false, e.sl.bg, e.sl.n⟩
    match h.kind with
    | .plain => some ⟨Token.scalar 0 e.sl, true, []⟩
    | .ring => if 1 ≤ e.ringFill n then some ⟨x, false, [.popRing n]⟩ else none
    | .phase => some ⟨x, false, [.popRing n]⟩
  | .sp x => some ⟨Token.scalar (e.special x) e.sl, false, []⟩
  | _ => none

/-- Two sources: one channel or handle named twice is read and consumed once (R124). -/
def Env.read2 (e : Env) (a b : Opd) : Option (Val × Val × List Effect) :=
  match e.read a with
  | none => none
  | some x =>
    if a = b then some (x, x, x.eff)
    else match e.read b with
      | none => none
      | some y => some (x, y, x.eff ++ y.eff)

/-- A B operand of the R form: a register, or sext(IMM19) (R115). -/
def Env.readB (e : Env) (a : Opd) (b : BOp) : Option (Val × Val × List Effect) :=
  match b with
  | .reg r => e.read2 a r
  | .imm i => (e.read a).map fun x => (x, ⟨Token.scalar (i.signExtend 64) e.sl, false, []⟩, x.eff)

/-- A single B operand (handle and system instructions). -/
def Env.readOne (e : Env) : BOp → Option Val
  | .reg r => e.read r
  | .imm i => some ⟨Token.scalar (i.signExtend 64) e.sl, false, []⟩

/-- An accumulator bound to the output holds back the rules that emit on it (R328). -/
def Station.drainHeld (t : Station) (o : Fin 8) : Bool :=
  match t.mat with
  | none => false
  | some m => m.a.toList.any fun x => match x.cfg with | some k => k.o == o && (x.cnt != 0 || x.st != .opened) | none => false

/-- Room for n tokens on an output (R159 condition 3). -/
def Env.room (e : Env) (o : Fin 8) (n : Nat) : Bool := e.s.outRoom e.f.st o n && !e.pre.drainHeld o

/-- Whether a destination can be written (R159 conditions 2 to 4). -/
def Env.destReady (e : Env) : Opd → Bool
  | .d n => !e.pending (.d n)
  | .v n => !e.pending (.v n)
  | .o n => e.room n 1
  | .h n => match e.pre.h[n].kind with | .ring => decide (1 ≤ e.ringFree n) | _ => true
  | _ => false

/-- A plain handle as destination raises the bounds fault (R154). -/
def Env.destBad (e : Env) : Opd → Bool
  | .h n => e.pre.h[n].kind == .plain
  | _ => false

/-- What writing a result does at the firing and where it lands, for a result of a latency (R169, R170). -/
def Env.write (e : Env) (lat : Nat) (d : Opd) (k : Token) : Fire :=
  let id := e.s.nextId
  match d, lat with
  | .d n, 1 => ⟨[.setD n (k.data.setWidth 64)], none⟩
  | .v n, 1 => ⟨[.setV n k.vreg], none⟩
  | .o n, 1 => ⟨[.emit n k], none⟩
  | .h n, 1 => ⟨[.claimElem n id, .landElem n id k.data], none⟩
  | .d n, l => ⟨[.pend (.d n)], some (l, [.setD n (k.data.setWidth 64), .unpend (.d n)])⟩
  | .v n, l => ⟨[.pend (.v n)], some (l, [.setV n k.vreg, .unpend (.v n)])⟩
  | .o n, l => ⟨[.claimOut n id], some (l, [.fillOut n id k])⟩
  | .h n, l => ⟨[.claimElem n id], some (l, [.landElem n id k.data])⟩
  | _, _ => ⟨[], none⟩

def Fire.after (x : List Effect) (f : Fire) : Fire := { f with now := x ++ f.now }

/-- The path of a fault (R165): what was claimed is consumed; the fault token goes out on an output destination, else to the fault queue. -/
def Env.fault (e : Env) (lat : Nat) (eff : List Effect) (d : Option (Fin 8)) (f : FaultC) : Fire :=
  let k := faultToken e.pre e.f.ctx e.slot e.sl f
  match d with
  | some o => (e.write lat (.o o) k).after eff
  | none => ⟨eff ++ [.faultq k], none⟩

/-- The output that a destination names. -/
def Opd.out? : Opd → Option (Fin 8)
  | .o n => some n
  | _ => none

/-- Fault codes (Table 22.1). -/
def fcFormat : Nat := 0x01
def fcBounds : Nat := 0x02
def bounds : FaultC := ⟨fcBounds, 0, 0⟩
/-- The format fault names the offending tag. -/
def badTag (t : Tag) : FaultC := ⟨fcFormat, t.toNat, 0⟩

/-- A result: not ready while the destination is not; a plain handle faults; else the value is written or the fault taken. -/
def Env.result (e : Env) (lat : Nat) (bad : Bool) (eff : List Effect) (d : Opd) (v : Except FaultC Token) : Option Fire :=
  if e.destReady d then
    if bad || e.destBad d then some (e.fault lat eff (Opd.out? d) bounds)
    else match v with
      | .ok k => some ((e.write lat d k).after eff)
      | .error f => some (e.fault lat eff (Opd.out? d) f)
  else none

/-- A scalar result (R169). -/
def Env.scalar (e : Env) (lat : Nat) (bad : Bool) (eff : List Effect) (d : Opd) (w : Word) : Option Fire :=
  e.result lat bad eff d (.ok (Token.scalar w e.sl))

/-- Put a result in flight: it lands at the end of the cycle `lat - 1` after this one (R170). -/
def State.launch (w : Who) (s : State) (lat : Nat) (effs : List Effect) : State :=
  let id := s.nextId
  let s := (s.modStation w.st fun t => { t with flights := t.flights ++ [⟨id, w.ctx, w.slot, lat - 1, effs⟩] }).fresh
  if lat - 1 = 0 then s.lands .resultLands (.flight w.st id) else s

/-- What consuming the heads of a firing does to its context (R145, R158). -/
def State.consumeStops (w : Who) (pre : Station) (s : State) (es : List Effect) : State :=
  es.foldl (fun s x =>
    match x with
    | .pop n =>
      match pre.seen w.ctx n with
      | some k => if k.data? then s else s.modStation w.st fun t => t.modCtx w.ctx fun c => c.stopped k
      | none => s
    | _ => s) s

/-- Commit a firing (R161). -/
def commit (e : Env) (s : State) (x : Fire) : State :=
  let w := e.who
  let s := (s.applyAll w x.now).modStation w.st fun t => t.dropCounters x.now
  let s := s.consumeStops w e.pre x.now
  let s := s.modStation w.st fun t => t.modCtx w.ctx fun c => c.markFired e.hdr.guard e.slot
  match x.later with
  | none => s
  | some (l, effs) => s.launch w l effs

/-- The outputs that a firing emits on. -/
def Fire.outs (x : Fire) : List (Fin 8) := x.now.filterMap fun y => match y with | .emit o _ => some o | .claimOut o _ => some o | _ => none

/-- Whether a route leaves its region (R65). -/
def Route.leaves (r : Route) : Bool := r.cross.isSome || r.hops.any (fun h => h.kind == .dieLink)

/-- What a firing consumes. -/
def Fire.taken (x : Fire) : List Effect := x.now.filter fun y => match y with | .pop _ => true | .popRing _ => true | _ => false

/-- A firing that consumes an element of its local store or live bank in which an uncorrectable error stands raises the corrupt-data fault (R165, R435). -/
def Env.sound (e : Env) (x : Fire) : Fire :=
  if x.now.any fun y => match y with | .popRing n => e.pre.wornIn false (e.pre.h[n].slotAt e.live.h[n].ccnt) 64 | _ => false then
    e.fault (match x.later with | some (n, _) => n | none => 1) x.taken x.outs.head? storageFault
  else x

/-- The firing of a task handler that would send outside its region: nothing is sent, and the task raises its fault (R65); and no firing passes on
corrupt data. -/
def Env.keepInside (e : Env) (x : Fire) : Fire :=
  if e.ctx.running.isSome && x.outs.any (fun o => match e.s.route? e.f.st o with | some r => r.leaves | none => false) then
    ⟨x.taken ++
      [.taskFault (faultToken e.pre e.f.ctx e.slot e.sl ⟨0x07, e.ctx.ts.toNat, 0⟩)], none⟩
  else e.sound x

/-- The state once the slot that comes next has been taken from the firing. -/
def State.slotTaken (s : State) (f : Firing) (rest : List (Fin 32)) : State :=
  { s with firing := match rest with | [] => none | _ => some { f with todo := rest } }

/-- Fire a rule in the slot that comes next: nothing happens if its guard does not hold or it is not ready. -/
def fireRule (h : Hdr) (rule : Env → Option Fire) (s : State) : State :=
  match s.firing with
  | none => s
  | some f =>
    match f.todo with
    | [] => { s with firing := none }
    | sl :: rest =>
      match s.station? f.st with
      | none => s.slotTaken f rest
      | some t =>
        let e : Env := ⟨s, t, f, sl, h⟩
        if f.pre.guard f.ctx sl h.guard then
          match rule e with
          | none => s.slotTaken f rest
          | some x => commit e (s.slotTaken f rest) (e.keepInside x)
        else s.slotTaken f rest

/-- The meaning of a rule word: one firing. -/
def runRule (h : Hdr) (rule : Env → Option Fire) (s : State) : Host.Outcome State Fault Refusal :=
  .next (fireRule h rule s)

end Sys2Proof.Machine
end

