-- ==== Sys2Proof/Machine/HandleSys.lean ====
section
/-! DEFINITION. Handle and system rules (Tables 7.7 to 7.9, R187-R200). -/

namespace Sys2Proof.Machine

open Sys2Proof

/-- `advp hN, n`: PCNT advances by n once the ring has room (R188). -/
def ruleAdvp (r : HAdv) (e : Env) : Option Fire :=
  match e.readOne r.b with
  | none => none
  | some x =>
    let h := e.pre.h[r.n]
    let n := x.word.toNat
    if h.kind == .plain || decide (h.nslot < n) then some (e.fault 1 x.eff none bounds)
    else if h.kind == .ring && decide (e.ringFree r.n < n) then none
    else some ⟨x.eff ++ [.addPcnt r.n (BitVec.ofNat 32 n)], none⟩
def execAdvp (r : HAdv) (s : State) : Host.Outcome State Fault Refusal := runRule r.hdr (ruleAdvp r) s

/-- `advc hN, n`: CCNT advances by n once the ring holds as many (R188). -/
def ruleAdvc (r : HAdv) (e : Env) : Option Fire :=
  match e.readOne r.b with
  | none => none
  | some x =>
    let h := e.pre.h[r.n]
    let n := x.word.toNat
    if h.kind == .plain || decide (h.nslot < n) then some (e.fault 1 x.eff none bounds)
    else if h.kind == .ring && decide (e.ringFill r.n < n) then none
    else some ⟨x.eff ++ [.addCcnt r.n (BitVec.ofNat 32 n)], none⟩
def execAdvc (r : HAdv) (s : State) : Host.Outcome State Fault Refusal := runRule r.hdr (ruleAdvc r) s

/-- `hfill D, hN`: the count at the start of the cycle (R189). -/
def ruleHfill (r : HRead) (e : Env) : Option Fire := e.scalar 1 false [] r.d (BitVec.ofNat 64 e.pre.h[r.n].fill)
def execHfill (r : HRead) (s : State) : Host.Outcome State Fault Refusal := runRule r.hdr (ruleHfill r) s

/-- `hfree D, hN` (R189). -/
def ruleHfree (r : HRead) (e : Env) : Option Fire := e.scalar 1 false [] r.d (BitVec.ofNat 64 (e.pre.hfree r.n))
def execHfree (r : HRead) (s : State) : Host.Outcome State Fault Refusal := runRule r.hdr (ruleHfree r) s

/-- The bytes that a local handle may span: the C station's store or an S station's bank; other kinds have none (R142, R152). -/
def storeSize : Kind → Nat
  | .c => 0x10000
  | .s => 0x40000
  | _ => 0

/-- The field code of Table 7.8. -/
def hfieldCode : HField → Nat
  | .base => 0 | .size => 1 | .pcnt => 2 | .ccnt => 3 | .dcnt => 4 | .flags => 5

/-- Writes that `hset` refuses (Table 7.9). -/
def hsetRefused (k : Kind) (h : HEntry) (f : HField) (v : Word) : Bool :=
  let past (base size : Nat) : Bool := h.space == .loc && decide (storeSize k < base + size)
  match f with
  | .base => ((h.space == .dev || h.space == .peer) && decide (2 ^ 55 ≤ v.toNat)) || past v.toNat h.size.toNat
  | .size =>
    decide (2 ^ 40 ≤ v.toNat) ||
    (h.kind != .plain && (decide (v.toNat = 0) || decide (v.toNat % 64 ≠ 0) || decide (64 * 65536 < v.toNat))) || past h.base.toNat v.toNat
  | .pcnt => h.kind == .ring && decide (h.nslot < ((v.setWidth 32 : BitVec 32) - h.ccnt).toNat)
  | .ccnt => h.kind == .ring && decide (h.nslot < (h.pcnt - (v.setWidth 32 : BitVec 32)).toNat)
  | .dcnt => false
  | .flags => true

/-- `hset hN, field, v`: written at the end of the cycle, or refused with the bounds fault (R190). -/
def ruleHset (r : HAdv) (f : HField) (e : Env) : Option Fire :=
  match e.readOne r.b with
  | none => none
  | some x =>
    if hsetRefused e.pre.kind e.pre.h[r.n] f x.word then some (e.fault 1 x.eff none ⟨fcBounds, hfieldCode f, 0⟩)
    else some ⟨x.eff, some (1, [.setH r.n f x.word])⟩
def execHset (r : HAdv) (f : HField) (s : State) : Host.Outcome State Fault Refusal := runRule r.hdr (ruleHset r f) s

/-- KIND and SPACE codes (Table 6.3). -/
def HKind.num : HKind → Nat
  | .plain => 0 | .ring => 1 | .phase => 2
def Space.num : Space → Nat
  | .loc => 0 | .win => 1 | .dev => 2 | .host => 3 | .peer => 4

/-- Entry bits [127:64] (Table 6.3). -/
def HEntry.flagsWord (h : HEntry) : Word :=
  BitVec.ofNat 64
    (h.size.toNat + h.kind.num * 2 ^ 40 + h.space.num * 2 ^ 42 + h.fmt.toNat * 2 ^ 45 + h.alloc.toNat * 2 ^ 51 + h.last.toNat * 2 ^ 52 +
      h.vers.toNat * 2 ^ 53 + h.comp.toNat * 2 ^ 54 + h.port.toNat * 2 ^ 56)

def HEntry.field (h : HEntry) : HField → Word
  | .base => h.base
  | .size => h.size.setWidth 64
  | .pcnt => h.pcnt.setWidth 64
  | .ccnt => h.ccnt.setWidth 64
  | .dcnt => h.dcnt.setWidth 64
  | .flags => h.flagsWord

/-- `hget D, hN, field` (Table 7.8). -/
def ruleHget (r : HRead) (f : HField) (e : Env) : Option Fire := e.scalar 1 false [] r.d (e.pre.h[r.n].field f)
def execHget (r : HRead) (f : HField) (s : State) : Host.Outcome State Fault Refusal := runRule r.hdr (ruleHget r f) s

/-- `pub hN`: the banks are exchanged at the end of the cycle; only a phase handle has them (R191). -/
def rulePub (n : Fin 16) (e : Env) : Option Fire :=
  if e.pre.h[n].kind == .phase then some ⟨[], some (1, pubEffects n e.pre.h[n])⟩ else some (e.fault 1 [] none bounds)
def execPub (hdr : Hdr) (n : Fin 16) (s : State) : Host.Outcome State Fault Refusal := runRule hdr (rulePub n) s

/-- `nop` (R192). -/
def ruleNop (_ : Env) : Option Fire := some ⟨[], none⟩
def execNop (hdr : Hdr) (s : State) : Host.Outcome State Fault Refusal := runRule hdr ruleNop s

/-- The 32-bit value of a system instruction. -/
def Val.low (v : Val) : BitVec 32 := v.word.setWidth 32

/-- `trap v`: the program trap goes to the fault queue (R193). -/
def ruleTrap (r : SysB) (e : Env) : Option Fire :=
  match e.readOne r.b with
  | none => none
  | some x => some (e.fault 1 x.eff none ⟨0x0B, x.low.toNat, 0⟩)
def execTrap (r : SysB) (s : State) : Host.Outcome State Fault Refusal := runRule r.hdr (ruleTrap r) s

/-- `halt v`: the region halts after the writes of its cycle (R193). -/
def ruleHalt (r : SysB) (e : Env) : Option Fire :=
  match e.readOne r.b with
  | none => none
  | some x => some ⟨x.eff ++ [.halt x.low], none⟩
def execHalt (r : SysB) (s : State) : Host.Outcome State Fault Refusal := runRule r.hdr (ruleHalt r) s

/-- `brk v`: a break event; not ready while 16 are pending; without a monitor a `nop` (R194). -/
def ruleBrk (r : SysB) (e : Env) : Option Fire :=
  match e.readOne r.b with
  | none => none
  | some x =>
    match e.region with
    | none => some ⟨x.eff, none⟩
    | some g =>
      if g.mon.isNone then some ⟨x.eff, none⟩
      else if 16 ≤ g.events.length then none
      else some ⟨x.eff ++ [.brk x.low], none⟩
def execBrk (r : SysB) (s : State) : Host.Outcome State Fault Refusal := runRule r.hdr (ruleBrk r) s

/-- `yield n` (R195). -/
def ruleYield (n : BitVec 10) (_ : Env) : Option Fire := some ⟨[.yield n], none⟩
def execYield (hdr : Hdr) (n : BitVec 10) (s : State) : Host.Outcome State Fault Refusal := runRule hdr (ruleYield n) s

/-- `slk v`: the slack base becomes min(v, 62) (R196). -/
def ruleSlk (r : SysB) (e : Env) : Option Fire :=
  match e.readOne r.b with
  | none => none
  | some x => some ⟨x.eff ++ [.setBase (BitVec.ofNat 6 (Nat.min x.word.toNat 62))], none⟩
def execSlk (r : SysB) (s : State) : Host.Outcome State Fault Refusal := runRule r.hdr (ruleSlk r) s

/-- `rdslk D, cN`: the counter of a head, 2^63 + age for a background head (R197). -/
def ruleRdslk (d : Opd) (c : Fin 8) (e : Env) : Option Fire :=
  match e.pre.seen e.f.ctx c with
  | none => none
  | some k => e.scalar 1 false [] d (BitVec.ofNat 64 (if k.bg then 2 ^ 63 + k.slack else k.slack))
def execRdslk (hdr : Hdr) (d : Opd) (c : Fin 8) (s : State) : Host.Outcome State Fault Refusal := runRule hdr (ruleRdslk d c) s

/-- `rdtime D`: cycles since the device left reset (R198). -/
def ruleRdtime (d : Opd) (e : Env) : Option Fire := e.scalar 1 false [] d (BitVec.ofNat 64 e.s.time)
def execRdtime (hdr : Hdr) (d : Opd) (s : State) : Host.Outcome State Fault Refusal := runRule hdr (ruleRdtime d) s

/-- `ckpt D`: the generation that the snapshot will carry; not ready while one is pending or being saved (R199). -/
def ruleCkpt (d : Opd) (e : Env) : Option Fire :=
  match e.region with
  | none => none
  | some g =>
    let base := (e.s.voyage? e.pre.voy).any fun v => e.s.saveBases.any fun b => b.1 == v.asid
    if g.snap = .none ∧ base then e.scalar 1 false [.ckpt] d (BitVec.ofNat 64 (g.gen + 1)) else none
def execCkpt (hdr : Hdr) (d : Opd) (s : State) : Host.Outcome State Fault Refusal := runRule hdr (ruleCkpt d) s

end Sys2Proof.Machine
end

