-- ==== Sys2Proof/Machine/Vector.lean ====
section
/-! DEFINITION. Vector rules (Tables 8.2 to 8.6, R201-R226). -/

namespace Sys2Proof.Machine

open Sys2Proof

/-! ### Sources, results and shapes -/

/-- A vector source (Table 8.1); a stop or fault head is read with tag 0. -/
def Val.vreg (v : Val) : VReg := { v.tok.vreg with tag := if v.tok.data? then v.tok.fmt else 0 }

/-- A source must carry the tag, or the format fault is raised (R202). -/
def need (f : Tag) (v : VReg) : Except FaultC Unit := if v.tag = f then .ok () else .error (badTag v.tag)

/-- A source must satisfy a condition on its tag. -/
def needTag (p : Tag → Bool) (v : VReg) : Except FaultC Unit := if p v.tag then .ok () else .error (badTag v.tag)

/-- An index or mask vector: an integer tag of the lane width (R211, R212, R218). -/
def needMask (f : Tag) (v : VReg) : Except FaultC Unit := needTag (fun t => t.isIN && t.width == f.width) v

/-- D read before it is written (Wv). -/
def Env.wv (e : Env) (d : Opd) : VReg := match d with | .v n => e.pre.v[n] | _ => VReg.zero

/-- A vector result. -/
def Env.vector (e : Env) (lat : Nat) (bad : Bool) (eff : List Effect) (d : Opd) (v : Except FaultC VReg) : Option Fire :=
  e.result lat bad eff d (v.map fun x => Token.vec x e.sl)

/-- A scalar result of a vector instruction (Ws). -/
def Env.vscalar (e : Env) (lat : Nat) (bad : Bool) (eff : List Effect) (d : Opd) (v : Except FaultC Word) : Option Fire :=
  e.result lat bad eff d (v.map fun x => Token.scalar x e.sl)

/-- Two vector sources and D. -/
def vrule2 (lat : Nat) (d a b : Opd) (f : VReg → VReg → VReg → Except FaultC VReg) (e : Env) : Option Fire :=
  match e.read2 a b with
  | none => none
  | some (x, y, eff) => e.vector lat (x.bad || y.bad) eff d (f x.vreg y.vreg (e.wv d))

/-- One vector source and D. -/
def vrule1 (lat : Nat) (d a : Opd) (f : VReg → VReg → Except FaultC VReg) (e : Env) : Option Fire :=
  match e.read a with
  | none => none
  | some x => e.vector lat x.bad x.eff d (f x.vreg (e.wv d))

/-- A lane or count operand: a scalar read as unsigned, or AUX (Table 8.1). -/
def Env.readN (e : Env) (a : Opd) (n : NOp) : Option (Val × Val × List Effect) :=
  match n with
  | .reg r => e.read2 a r
  | .aux i => (e.read a).map fun x => (x, ⟨Token.scalar (i.setWidth 64) e.sl, false, []⟩, x.eff)

/-! ### Floating-point lanes (R208, Tables 8.4 and 8.5) -/

def isRd (rm : RM) : Bool := rm == .rd

/-- Lane-wise on two sources tagged f. -/
def lanes2 (r : VBin) (op : Num → Num → Num) (a b _d : VReg) : Except FaultC VReg := do
  need r.fmt a
  need r.fmt b
  return setLanes r.fmt (((a.vals r.fmt).zip (b.vals r.fmt)).map fun (x, y) => op x y) r.rm r.ov

/-- Lane-wise on two sources and D, all tagged f. -/
def lanes3 (r : VBin) (op : Num → Num → Num → Num) (a b d : VReg) : Except FaultC VReg := do
  need r.fmt a
  need r.fmt b
  need r.fmt d
  return setLanes r.fmt (((a.vals r.fmt).zip ((b.vals r.fmt).zip (d.vals r.fmt))).map fun (x, y, z) => op x y z) r.rm r.ov

/-- Lane-wise on one source tagged f. -/
def lanes1 (r : VUn) (op : Num → Num) (a _d : VReg) : Except FaultC VReg := do
  need r.fmt a
  return setLanes r.fmt ((a.vals r.fmt).map op) r.rm r.ov

/-- `vadd.f D, A, B`: a + b per lane (R208). -/
def ruleVadd (r : VBin) (e : Env) : Option Fire := vrule2 4 r.d r.a r.b (lanes2 r (Num.add (isRd r.rm))) e
def execVadd (r : VBin) (s : State) : Host.Outcome State Fault Refusal := runRule r.hdr (ruleVadd r) s

/-- `vsub.f D, A, B`: a - b per lane (R208). -/
def ruleVsub (r : VBin) (e : Env) : Option Fire := vrule2 4 r.d r.a r.b (lanes2 r (fun x y => Num.add (isRd r.rm) x y.neg)) e
def execVsub (r : VBin) (s : State) : Host.Outcome State Fault Refusal := runRule r.hdr (ruleVsub r) s

/-- `vmul.f D, A, B`: a × b per lane (R208). -/
def ruleVmul (r : VBin) (e : Env) : Option Fire := vrule2 4 r.d r.a r.b (lanes2 r (Num.mul)) e
def execVmul (r : VBin) (s : State) : Host.Outcome State Fault Refusal := runRule r.hdr (ruleVmul r) s

/-- `vmax.f D, A, B`: the greater per lane (R208). -/
def ruleVmax (r : VBin) (e : Env) : Option Fire := vrule2 2 r.d r.a r.b (lanes2 r (Num.max)) e
def execVmax (r : VBin) (s : State) : Host.Outcome State Fault Refusal := runRule r.hdr (ruleVmax r) s

/-- `vmin.f D, A, B`: the lesser per lane (R208). -/
def ruleVmin (r : VBin) (e : Env) : Option Fire := vrule2 2 r.d r.a r.b (lanes2 r (Num.min)) e
def execVmin (r : VBin) (s : State) : Host.Outcome State Fault Refusal := runRule r.hdr (ruleVmin r) s

/-- `vfma.f D, A, B`: a × b + c per lane with one rounding, c from D (R208). -/
def ruleVfma (r : VBin) (e : Env) : Option Fire := vrule2 4 r.d r.a r.b (lanes3 r (fun x y z => Num.add (isRd r.rm) (x.mul y) z)) e
def execVfma (r : VBin) (s : State) : Host.Outcome State Fault Refusal := runRule r.hdr (ruleVfma r) s

/-- `vfms.f D, A, B`: a × b - c per lane with one rounding, c from D (R208). -/
def ruleVfms (r : VBin) (e : Env) : Option Fire := vrule2 4 r.d r.a r.b (lanes3 r (fun x y z => Num.add (isRd r.rm) (x.mul y) z.neg)) e
def execVfms (r : VBin) (s : State) : Host.Outcome State Fault Refusal := runRule r.hdr (ruleVfms r) s

/-- `vnfma.f D, A, B`: c - a × b per lane with one rounding, c from D (R208). -/
def ruleVnfma (r : VBin) (e : Env) : Option Fire := vrule2 4 r.d r.a r.b (lanes3 r (fun x y z => Num.add (isRd r.rm) z (x.mul y).neg)) e
def execVnfma (r : VBin) (s : State) : Host.Outcome State Fault Refusal := runRule r.hdr (ruleVnfma r) s

/-- `vabs.f D, A`: |a| per lane (R208). -/
def ruleVabs (r : VUn) (e : Env) : Option Fire := vrule1 2 r.d r.a (lanes1 r Num.abs) e
def execVabs (r : VUn) (s : State) : Host.Outcome State Fault Refusal := runRule r.hdr (ruleVabs r) s

/-- `vneg.f D, A`: -a per lane (R208). -/
def ruleVneg (r : VUn) (e : Env) : Option Fire := vrule1 2 r.d r.a (lanes1 r Num.neg) e
def execVneg (r : VUn) (s : State) : Host.Outcome State Fault Refusal := runRule r.hdr (ruleVneg r) s

/-- `vrcp.f D, A`: 1 / a per lane (R208). -/
def ruleVrcp (r : VUn) (e : Env) : Option Fire := vrule1 8 r.d r.a (lanes1 r Num.rcp) e
def execVrcp (r : VUn) (s : State) : Host.Outcome State Fault Refusal := runRule r.hdr (ruleVrcp r) s

/-- `vrsq.f D, A`: 1 / √a per lane (R208). -/
def ruleVrsq (r : VUn) (e : Env) : Option Fire := vrule1 8 r.d r.a (lanes1 r Num.rsq) e
def execVrsq (r : VUn) (s : State) : Host.Outcome State Fault Refusal := runRule r.hdr (ruleVrsq r) s

/-- `vexp2.f D, A`: 2^a per lane (R208). -/
def ruleVexp2 (r : VUn) (e : Env) : Option Fire := vrule1 8 r.d r.a (lanes1 r Num.exp2) e
def execVexp2 (r : VUn) (s : State) : Host.Outcome State Fault Refusal := runRule r.hdr (ruleVexp2 r) s

/-- `vlog2.f D, A`: log2 a per lane (R208). -/
def ruleVlog2 (r : VUn) (e : Env) : Option Fire := vrule1 8 r.d r.a (lanes1 r Num.log2) e
def execVlog2 (r : VUn) (s : State) : Host.Outcome State Fault Refusal := runRule r.hdr (ruleVlog2 r) s

/-- `vsqrt.f D, A`: √a per lane (R208). -/
def ruleVsqrt (r : VUn) (e : Env) : Option Fire := vrule1 8 r.d r.a (lanes1 r Num.sqrt) e
def execVsqrt (r : VUn) (s : State) : Host.Outcome State Fault Refusal := runRule r.hdr (ruleVsqrt r) s

/-! ### Reductions (R212) -/

/-- `round_to(x, f)` of an exact value into a floating f, read back. -/
def roundTo (f : Tag) (rm : RM) (ov : OV) (x : Num) : Num := f.decode (convert x f rm ov 0)

/-- An integer reduced modulo 2^w(f) and read as f. -/
def wrapTo (f : Tag) (n : Int) : Int := f.intVal (f.intCode n)

/-- The exact integers of the lanes. -/
def laneInts (v : VReg) (t : Tag) : List Int := (v.codes t).map t.intVal

/-- Terms present under a mask. -/
def maskTerms (present : List Bool) (ts : List α) : List (Option α) := (ts.zip present).map fun (t, p) => if p then some t else none

/-- The code of a reduction in a floating f: the terms rounded, then the lane tree. -/
def reduceF (f : Tag) (rm : RM) (ov : OV) (op : Num → Num → Num) (empty : Num) (present : List Bool) (ts : List Num) : Nat :=
  let x := treeReduce (fun a b => roundTo f rm ov (op a b)) 6 (maskTerms present (ts.map (roundTo f rm ov)))
  convert (x.getD empty) f rm ov 0

/-- The code of a reduction in an integer f. -/
def reduceI (f : Tag) (op : Int → Int → Int) (empty : Int) (present : List Bool) (ts : List Int) : Nat :=
  let x := treeReduce (fun a b => wrapTo f (op a b)) 6 (maskTerms present (ts.map (wrapTo f)))
  f.intCode (x.getD empty)

/-- The place of a reduction's result (Wr): lane 0 of a vector, or the bits zero-extended into a d register. -/
def Env.reduced (e : Env) (bad : Bool) (eff : List Effect) (d : Opd) (f : Tag) (c : Except FaultC Nat) : Option Fire :=
  match d with
  | .d _ => e.vscalar 6 bad eff d (c.map fun x => BitVec.ofNat 64 x)
  | _ => e.vector 6 bad eff d (c.map fun x => VReg.plain f x)

/-- Lanes present: all, or those whose mask lane is nonzero. -/
def presentLanes (s : Tag) (mask : Option VReg) : Except FaultC (List Bool) :=
  match mask with
  | none => .ok (List.replicate s.lanes true)
  | some m => do
    needMask s m
    return (m.codes s).map (· != 0)

/-- A reduction of A under an optional mask. -/
def vred (opF : RM → Num → Num → Num) (opI : Int → Int → Int) (emptyF : Num) (emptyI : Tag → Int) (r : VRed) (e : Env) : Option Fire :=
  let go (a : VReg) (m : Option VReg) : Except FaultC Nat := do
    need r.s a
    let p ← presentLanes r.s m
    return if r.fmt.isIN then reduceI r.fmt opI (emptyI r.fmt) p (laneInts a r.s) else reduceF r.fmt r.rm r.ov (opF r.rm) emptyF p (a.vals r.s)
  match r.mask with
  | none =>
    match e.read r.a with
    | none => none
    | some x => e.reduced x.bad x.eff r.d r.fmt (go x.vreg none)
  | some m =>
    match e.read2 r.a m with
    | none => none
    | some (x, y, eff) => e.reduced (x.bad || y.bad) eff r.d r.fmt (go x.vreg (some y.vreg))

/-- `vdot.f D, A, B, s`: products rounded once into f, then the lane tree. -/
def ruleVdot (r : VBin) (s : Tag) (e : Env) : Option Fire :=
  match e.read2 r.a r.b with
  | none => none
  | some (x, y, eff) =>
    e.reduced (x.bad || y.bad) eff r.d r.fmt (do
      need s x.vreg
      need s y.vreg
      let p := List.replicate s.lanes true
      return if r.fmt.isIN then
        reduceI r.fmt (· + ·) 0 p (((laneInts x.vreg s).zip (laneInts y.vreg s)).map fun (a, b) => a * b)
      else
        reduceF r.fmt r.rm r.ov (Num.add (isRd r.rm)) (.zero false) p (((x.vreg.vals s).zip (y.vreg.vals s)).map fun (a, b) => a.mul b))
def execVdot (r : VBin) (s : Tag) (st : State) : Host.Outcome State Fault Refusal := runRule r.hdr (ruleVdot r s) st

/-- `vsum.f D, A [, B], s`. -/
def ruleVsum (r : VRed) (e : Env) : Option Fire := vred (fun rm => Num.add (isRd rm)) (· + ·) (.zero false) (fun _ => 0) r e
def execVsum (r : VRed) (s : State) : Host.Outcome State Fault Refusal := runRule r.hdr (ruleVsum r) s

/-- `vrmax.f D, A [, B], s`. -/
def ruleVrmax (r : VRed) (e : Env) : Option Fire := vred (fun _ => Num.max) max (.inf true) Tag.intMin r e
def execVrmax (r : VRed) (s : State) : Host.Outcome State Fault Refusal := runRule r.hdr (ruleVrmax r) s

/-- `vrmin.f D, A [, B], s`. -/
def ruleVrmin (r : VRed) (e : Env) : Option Fire := vred (fun _ => Num.min) min (.inf false) Tag.intMax r e
def execVrmin (r : VRed) (s : State) : Host.Outcome State Fault Refusal := runRule r.hdr (ruleVrmin r) s

/-! ### Conversion (R213-R215) -/

/-- The random operand of converted lane i. -/
def randAt (v : Option VReg) (i : Nat) : Nat := match v with | some b => laneAt b.data.toNat 16 i | none => 0

/-- The places of m converted lanes in D: part k of D, or all of D (R213). -/
def placeLanes (f s : Tag) (k : Nat) (d : VReg) (codes : List Nat) (scales : List Nat) : VReg :=
  let ns := s.lanes
  let nd := f.lanes
  if ns < nd then
    let keep := d.tag == f
    let oldC := if keep then d.codes f else List.replicate nd 0
    let oldS := if keep then lanesOf d.side.toNat 8 8 else List.replicate 8 0x7F
    let cs := oldC.take (k * ns) ++ codes ++ oldC.drop (k * ns + ns)
    let ss := oldS.take (k * ns / 8) ++ scales ++ oldS.drop (k * ns / 8 + ns / 8)
    if f.isB8 then ⟨BitVec.ofNat 512 (packLanes 8 cs), BitVec.ofNat 64 (packLanes 8 ss), f⟩ else VReg.plain f (packLanes f.width cs)
  else if f.isB8 then ⟨BitVec.ofNat 512 (packLanes 8 codes), BitVec.ofNat 64 (packLanes 8 scales), f⟩
  else VReg.plain f (packLanes f.width codes)

/-- The source lanes of part k. -/
def partLanes (f s : Tag) (k : Nat) (xs : List α) : List α := if f.lanes < s.lanes then (xs.drop (k * f.lanes)).take f.lanes else xs

/-- One converted lane of `vcvt` and `vdqt`: integers wrap, or clamp under `sat`. -/
def cvtLane (r : VConv) (x : Num × Int) (u : Nat) : Nat :=
  if r.s.isIN && r.fmt.isIN then r.fmt.intCode (if r.sat then r.fmt.clamp x.2 else x.2) else convert x.1 r.fmt r.rm r.ov u

/-- A conversion with its optional random operand. -/
def vconv (f : VReg → Option VReg → VReg → Except FaultC VReg) (r : VConv) (e : Env) : Option Fire :=
  match r.rand with
  | none => vrule1 4 r.d r.a (fun a d => f a none d) e
  | some b => vrule2 4 r.d r.a b (fun a u d => f a (some u) d) e

/-- `vcvt.f D, A [, B], s, k`: a binary8 source lane is its code's value with scale 2^0. -/
def ruleVcvt (r : VConv) (e : Env) : Option Fire :=
  vconv (fun a u d => do
    need r.s a
    let xs := partLanes r.fmt r.s r.k.toNat ((a.codes r.s).map fun c => (r.s.decode c, r.s.intVal c))
    let cs := xs.zipIdx.map fun (x, i) => cvtLane r x (randAt u i)
    return placeLanes r.fmt r.s r.k.toNat d cs (List.replicate (cs.length / 8) 0x7F)) r e
def execVcvt (r : VConv) (s : State) : Host.Outcome State Fault Refusal := runRule r.hdr (ruleVcvt r) s

/-- `vqnt.f D, A [, B], s, k`: quant_block over each written block. -/
def ruleVqnt (r : VConv) (e : Env) : Option Fire :=
  vconv (fun a u d => do
    need r.s a
    let xs := partLanes r.fmt r.s r.k.toNat (a.vals r.s)
    let bs := (chunks 8 8 xs.zipIdx).map fun b => quantBlock (b.map (·.1)) r.fmt.float r.rm r.ov (b.map fun x => randAt u x.2)
    return placeLanes r.fmt r.s r.k.toNat d (bs.flatMap (·.2)) (bs.map (·.1))) r e
def execVqnt (r : VConv) (s : State) : Host.Outcome State Fault Refusal := runRule r.hdr (ruleVqnt r) s

/-- `vdqt.f D, A, s, k`: block scales applied. -/
def ruleVdqt (r : VConv) (e : Env) : Option Fire :=
  vconv (fun a _ d => do
    need r.s a
    let cs := (partLanes r.fmt r.s r.k.toNat (a.vals r.s)).map fun x => convert x r.fmt r.rm r.ov 0
    return placeLanes r.fmt r.s r.k.toNat d cs []) r e
def execVdqt (r : VConv) (s : State) : Host.Outcome State Fault Refusal := runRule r.hdr (ruleVdqt r) s

/-! ### Rotation (R220) -/

/-- The lanes of pair p. -/
def pairOf (split : Bool) (n p : Nat) : Nat × Nat := if split then (p, p + n / 2) else (2 * p, 2 * p + 1)

/-- `vrot.f D, A, B [, split]`. -/
def ruleVrot (r : VBin) (split : Bool) (e : Env) : Option Fire :=
  vrule2 4 r.d r.a r.b (fun a b _ => do
    need r.fmt a
    need r.fmt b
    let n := r.fmt.lanes
    let x := a.vals r.fmt
    let y := b.vals r.fmt
    let at' (l : List Num) (i : Nat) : Num := l.getD i .nan
    let ys := (List.range n).map fun l =>
      let p := if split then l % (n / 2) else l / 2
      let (i, j) := pairOf split n p
      if l = i then Num.add (isRd r.rm) ((at' x i).mul (at' y i)) ((at' x j).mul (at' y j)).neg
      else Num.add (isRd r.rm) ((at' x i).mul (at' y j)) ((at' x j).mul (at' y i))
    return setLanes r.fmt ys r.rm r.ov) e
def execVrot (r : VBin) (split : Bool) (s : State) : Host.Outcome State Fault Refusal := runRule r.hdr (ruleVrot r split) s

/-! ### Scales, tags and moves (R216) -/

/-- A byte in all eight bytes of a sidecar. -/
def repByte (b : BitVec 8) : Word := BitVec.ofNat 64 (packLanes 8 (List.replicate 8 b.toNat))

/-- `vsscl D, A, B`. -/
def ruleVsscl (d a : Opd) (n : NOp) (e : Env) : Option Fire :=
  match e.readN a n with
  | none => none
  | some (x, y, eff) =>
    let b := match n with | .aux i => repByte i | .reg _ => y.word
    e.vector 2 (x.bad || y.bad) eff d (do
      needTag Tag.isB8 x.vreg
      return { x.vreg with side := b })
def execVsscl (hdr : Hdr) (d a : Opd) (n : NOp) (s : State) : Host.Outcome State Fault Refusal := runRule hdr (ruleVsscl d a n) s

/-- `vgscl D, A`. -/
def ruleVgscl (r : RUn) (e : Env) : Option Fire :=
  match e.read r.a with
  | none => none
  | some x =>
    e.vscalar 2 x.bad x.eff r.d (do
      needTag Tag.isB8 x.vreg
      return x.vreg.side)
def execVgscl (r : RUn) (s : State) : Host.Outcome State Fault Refusal := runRule r.hdr (ruleVgscl r) s

/-- The sidecar under a new tag: kept when both tags lie in B8. -/
def keepSide (old : VReg) (f : Tag) : Word := if old.tag.isB8 && f.isB8 then old.side else unitSide

/-- `vtag.f D, A`. -/
def ruleVtag (fmt : Tag) (d a : Opd) (e : Env) : Option Fire :=
  vrule1 2 d a (fun x _ => .ok (VReg.held ⟨x.data, keepSide x fmt, fmt⟩)) e
def execVtag (hdr : Hdr) (fmt : Tag) (d a : Opd) (s : State) : Host.Outcome State Fault Refusal := runRule hdr (ruleVtag fmt d a) s

/-- `vmov D, A`: bits, tag and sidecar as they are, whatever the tag (R90; DEDUCED against R91, log 94). -/
def ruleVmov (r : RUn) (e : Env) : Option Fire := vrule1 2 r.d r.a (fun x _ => .ok x) e
def execVmov (r : RUn) (s : State) : Host.Outcome State Fault Refusal := runRule r.hdr (ruleVmov r) s

/-! ### Lane movement (R217-R219) -/

/-- Every lane with one code. -/
def allLanes (f : Tag) (c : Nat) : Nat := packLanes f.width (List.replicate f.lanes c)

/-- `vbcst.f D, A [, B]`: a scalar, or lane N of a vector. -/
def ruleVbcst (fmt : Tag) (d a : Opd) (lane : Option NOp) (e : Env) : Option Fire :=
  match lane with
  | none =>
    match e.read a with
    | none => none
    | some x => e.vector 2 x.bad x.eff d (.ok (VReg.plain fmt (allLanes fmt x.word.toNat)))
  | some n =>
    match e.readN a n with
    | none => none
    | some (x, y, eff) =>
      e.vector 2 (x.bad || y.bad) eff d (do
        need fmt x.vreg
        let j := y.word.toNat % fmt.lanes
        let v := VReg.plain fmt (allLanes fmt (laneAt x.vreg.data.toNat fmt.width j))
        return if fmt.isB8 then { v with side := repByte (BitVec.ofNat 8 (laneAt x.vreg.side.toNat 8 (j / 8))) } else v)
def execVbcst (hdr : Hdr) (fmt : Tag) (d a : Opd) (lane : Option NOp) (s : State) : Host.Outcome State Fault Refusal :=
  runRule hdr (ruleVbcst fmt d a lane) s

/-- `vshuf.f D, A, B`. -/
def ruleVshuf (r : VBin) (e : Env) : Option Fire :=
  vrule2 4 r.d r.a r.b (fun a b _ => do
    need r.fmt a
    needMask r.fmt b
    let xs := a.vals r.fmt
    return setLanes r.fmt ((b.codes r.fmt).map fun i => xs.getD (i % r.fmt.lanes) .nan) r.rm r.ov) e
def execVshuf (r : VBin) (s : State) : Host.Outcome State Fault Refusal := runRule r.hdr (ruleVshuf r) s

/-- `vext.f D, A, B`: sign-extended for an i format, zero-extended for every other. -/
def ruleVext (r : VLane) (e : Env) : Option Fire :=
  match e.readN r.a r.n with
  | none => none
  | some (x, y, eff) =>
    e.vscalar 2 (x.bad || y.bad) eff r.d (do
      need r.fmt x.vreg
      let c := laneAt x.vreg.data.toNat r.fmt.width (y.word.toNat % r.fmt.lanes)
      return BitVec.ofInt 64 (if r.fmt.isSigned then r.fmt.intVal c else c))
def execVext (r : VLane) (s : State) : Host.Outcome State Fault Refusal := runRule r.hdr (ruleVext r) s

/-- A register with one lane replaced. -/
def setLane (v : VReg) (f : Tag) (j c : Nat) : V512 := BitVec.ofNat 512 (packLanes f.width ((v.codes f).set j c))

/-- `vins.f D, A, B`. -/
def ruleVins (r : VLane) (e : Env) : Option Fire :=
  match e.readN r.a r.n with
  | none => none
  | some (x, y, eff) =>
    let d := e.wv r.d
    e.vector 2 (x.bad || y.bad) eff r.d
      (.ok ⟨setLane d r.fmt (y.word.toNat % r.fmt.lanes) (x.word.toNat % 2 ^ r.fmt.width), keepSide d r.fmt, r.fmt⟩)
def execVins (r : VLane) (s : State) : Host.Outcome State Fault Refusal := runRule r.hdr (ruleVins r) s

/-! ### Comparison and selection (R210, R211) -/

/-- The mask format of a lane width: n8, n16, n32, n64. -/
def maskTag (f : Tag) : Tag := match f.width with | 8 => 37 | 16 => 39 | 32 => 41 | _ => 43

/-- All ones where a relation holds. -/
def vcmp (rel : Num → Num → Bool) (r : VCmp) (e : Env) : Option Fire :=
  vrule2 2 r.d r.a r.b (fun a b _ => do
    need r.fmt a
    need r.fmt b
    let ms := ((a.vals r.fmt).zip (b.vals r.fmt)).map fun (x, y) => if rel x y then 2 ^ r.fmt.width - 1 else 0
    return VReg.plain (maskTag r.fmt) (packLanes r.fmt.width ms)) e

/-- `vceq.f D, A, B`. -/
def ruleVceq (r : VCmp) (e : Env) : Option Fire := vcmp Num.eq r e
def execVceq (r : VCmp) (s : State) : Host.Outcome State Fault Refusal := runRule r.hdr (ruleVceq r) s

/-- `vclt.f D, A, B`. -/
def ruleVclt (r : VCmp) (e : Env) : Option Fire := vcmp Num.lt r e
def execVclt (r : VCmp) (s : State) : Host.Outcome State Fault Refusal := runRule r.hdr (ruleVclt r) s

/-- `vcle.f D, A, B`. -/
def ruleVcle (r : VCmp) (e : Env) : Option Fire := vcmp (fun x y => x.lt y || x.eq y) r e
def execVcle (r : VCmp) (s : State) : Host.Outcome State Fault Refusal := runRule r.hdr (ruleVcle r) s

/-- `vsel.f D, A, B`: D is the mask. -/
def ruleVsel (r : VBin) (e : Env) : Option Fire :=
  vrule2 2 r.d r.a r.b (fun a b d => do
    need r.fmt a
    need r.fmt b
    needMask r.fmt d
    let ys := ((d.codes r.fmt).zip ((a.vals r.fmt).zip (b.vals r.fmt))).map fun (m, x, y) => if m ≠ 0 then x else y
    return setLanes r.fmt ys r.rm r.ov) e
def execVsel (r : VBin) (s : State) : Host.Outcome State Fault Refusal := runRule r.hdr (ruleVsel r) s

/-! ### Integer and bitwise lanes (R209) -/

/-- Integer lanes of two sources tagged f, or of A and AUX. -/
def vint (lat : Nat) (op : Nat → Nat → Nat) (r : VInt) (e : Env) : Option Fire :=
  match r.b with
  | .reg b =>
    vrule2 lat r.d r.a b (fun x y _ => do
      need r.fmt x
      need r.fmt y
      return VReg.plain r.fmt (packLanes r.fmt.width (((x.codes r.fmt).zip (y.codes r.fmt)).map fun (c, k) => op c k))) e
  | .aux i =>
    vrule1 lat r.d r.a (fun x _ => do
      need r.fmt x
      return VReg.plain r.fmt (packLanes r.fmt.width ((x.codes r.fmt).map fun c => op c i.toNat))) e

/-- An exact integer result: reduced modulo 2^w(f), or clamped under `sat`. -/
def intOp (r : VInt) (op : Int → Int → Int) (x y : Nat) : Nat :=
  let n := op (r.fmt.intVal x) (match r.b with | .reg _ => r.fmt.intVal y | .aux _ => (y : Int))
  r.fmt.intCode (if r.sat then r.fmt.clamp n else n)

/-- `viadd.f D, A, B [, sat]`. -/
def ruleViadd (r : VInt) (e : Env) : Option Fire := vint 2 (intOp r (· + ·)) r e
def execViadd (r : VInt) (s : State) : Host.Outcome State Fault Refusal := runRule r.hdr (ruleViadd r) s

/-- `visub.f D, A, B [, sat]`. -/
def ruleVisub (r : VInt) (e : Env) : Option Fire := vint 2 (intOp r (· - ·)) r e
def execVisub (r : VInt) (s : State) : Host.Outcome State Fault Refusal := runRule r.hdr (ruleVisub r) s

/-- `vimul.f D, A, B [, sat]`. -/
def ruleVimul (r : VInt) (e : Env) : Option Fire := vint 4 (intOp r (· * ·)) r e
def execVimul (r : VInt) (s : State) : Host.Outcome State Fault Refusal := runRule r.hdr (ruleVimul r) s

/-- `vishl.f D, A, B`. -/
def ruleVishl (r : VInt) (e : Env) : Option Fire := vint 2 (fun x y => x <<< (y % r.fmt.width)) r e
def execVishl (r : VInt) (s : State) : Host.Outcome State Fault Refusal := runRule r.hdr (ruleVishl r) s

/-- `vishr.f D, A, B`: arithmetic for an i format. -/
def ruleVishr (r : VInt) (e : Env) : Option Fire := vint 2 (fun x y => r.fmt.intCode (r.fmt.intVal x >>> (y % r.fmt.width))) r e
def execVishr (r : VInt) (s : State) : Host.Outcome State Fault Refusal := runRule r.hdr (ruleVishr r) s

/-- All 512 bits of sources with any integer tag; AUX repeated into every byte. -/
def vbits (op : V512 → V512 → V512) (r : VInt) (e : Env) : Option Fire :=
  match r.b with
  | .reg b =>
    vrule2 2 r.d r.a b (fun x y _ => do
      needTag Tag.isIN x
      needTag Tag.isIN y
      return ⟨op x.data y.data, unitSide, r.fmt⟩) e
  | .aux i =>
    vrule1 2 r.d r.a (fun x _ => do
      needTag Tag.isIN x
      return ⟨op x.data (BitVec.ofNat 512 (packLanes 8 (List.replicate 64 i.toNat))), unitSide, r.fmt⟩) e

/-- `vand.f D, A, B`. -/
def ruleVand (r : VInt) (e : Env) : Option Fire := vbits (· &&& ·) r e
def execVand (r : VInt) (s : State) : Host.Outcome State Fault Refusal := runRule r.hdr (ruleVand r) s

/-- `vor.f D, A, B`. -/
def ruleVor (r : VInt) (e : Env) : Option Fire := vbits (· ||| ·) r e
def execVor (r : VInt) (s : State) : Host.Outcome State Fault Refusal := runRule r.hdr (ruleVor r) s

/-- `vxor.f D, A, B`. -/
def ruleVxor (r : VInt) (e : Env) : Option Fire := vbits (· ^^^ ·) r e
def execVxor (r : VInt) (s : State) : Host.Outcome State Fault Refusal := runRule r.hdr (ruleVxor r) s

/-! ### x320 (R221, R222) -/

/-- The x320 that a register holds. -/
def regX320 (v : VReg) : X320 := X320.ofBits (v.data.toNat % 2 ^ 352)

/-- `xadd D, A, B`: an x320 plus an x320, or plus every lane of a floating-point vector. -/
def ruleXadd (d a b : Opd) (e : Env) : Option Fire :=
  vrule2 3 d a b (fun x y _ => do
    need 44 x
    if y.tag = 44 then return ((regX320 x).add (regX320 y)).toVReg
    else do
      needTag Tag.isFW y
      return ((y.vals y.tag).foldl (fun (acc : X320) t => acc.add (X320.ofNum t)) (regX320 x)).toVReg) e
def execXadd (hdr : Hdr) (d a b : Opd) (s : State) : Host.Outcome State Fault Refusal := runRule hdr (ruleXadd d a b) s

/-- `xcvt.f D, A, B`: one rounding into f; lane N of a vector, or the bits zero-extended. -/
def ruleXcvt (r : VLane) (e : Env) : Option Fire :=
  match e.readN r.a r.n with
  | none => none
  | some (x, y, eff) =>
    let code : Except FaultC Nat := do
      need 44 x.vreg
      return (convertF (regX320 x.vreg).toNum r.fmt.float .rne .inf 0).1
    match r.d with
    | .v n =>
      let d := e.pre.v[n]
      let old : VReg := if d.tag = r.fmt then d else VReg.plain r.fmt 0
      e.vector 4 (x.bad || y.bad) eff r.d (code.map fun c => ⟨setLane old r.fmt (y.word.toNat % r.fmt.lanes) c, unitSide, r.fmt⟩)
    | _ => e.vscalar 4 (x.bad || y.bad) eff r.d (code.map fun c => BitVec.ofNat 64 c)
def execXcvt (r : VLane) (s : State) : Host.Outcome State Fault Refusal := runRule r.hdr (ruleXcvt r) s

/-- `vclr.f D` (R216). -/
def ruleVclr (fmt : Tag) (d : Opd) (e : Env) : Option Fire := e.vector 2 false [] d (.ok (VReg.plain fmt 0))
def execVclr (hdr : Hdr) (fmt : Tag) (d : Opd) (s : State) : Host.Outcome State Fault Refusal := runRule hdr (ruleVclr fmt d) s

/-! ### Parking (R223-R225) -/

/-- The displacement to the matrix station of a station's quad (Table 1.2); `m1` names the second of the north-east quad. -/
def quadMatrix (x y : Nat) (m1 : Bool) : Int × Int :=
  let (mx, my) : Nat × Nat :=
    match decide (x % 4 < 2), decide (y % 4 < 2) with
    | true, true => (0, 0)
    | false, true => if m1 then (3, 1) else (2, 0)
    | true, false => (0, 2)
    | false, false => (3, 3)
  ((mx : Int) - (x % 4 : Nat), (my : Int) - (y % 4 : Nat))

/-- An accumulator without contents: its counter is 0 and every row is cleared. -/
def Acc.isClear (a : Acc) : Bool := a.cnt == 0 && a.st == .opened && a.rows.toList.all (fun r => r.e == -512 && !r.p && !r.m && !r.q)

/-- Whether the state checks of R225 let a park into unit u; `pend`: the accumulator awaits a step or `mnorm`. -/
def Mat.parkable (m : Mat) (pend : List PReg) (u : Nat) : Bool :=
  if h : u < 4 then !m.t[u].parks.isEmpty || m.t[u].st == .empty
  else if h : u - 4 < 2 then
    let a := m.a[u - 4]
    (!a.parks.isEmpty || a.isClear) && !pend.contains (.acc ⟨u - 4, h⟩)
  else false

/-- The registers of a group with their rows. -/
def parkGroup (r : VPark) : List (Fin 8 × Nat) :=
  (List.range (r.cnt1.toNat + 1)).map fun i => (⟨(r.v.val + i) % 8, Nat.mod_lt _ (by decide)⟩, r.row.toNat + i)

/-- The matrix station that a park reaches, as it stands now: parks of this cycle are served in station order (R225). -/
def Env.quadMat (e : Env) (m1 : Bool) : Option (Int × Int × Station × Mat) :=
  let (dx, dy) := quadMatrix e.f.st.x e.f.st.y m1
  match e.s.station? (shiftSt e.f.st dx dy) with
  | none => none
  | some t => t.mat.map fun m => (dx, dy, t, m)

/-- `vpark u, row, vA, count`: the state checks of R225 on the start of the cycle and on the parks served before; the rows land after 3 + count cycles. -/
def ruleVpark (r : VPark) (e : Env) : Option Fire :=
  if (parkGroup r).any (fun g => e.pending (.v g.1)) then none
  else match e.quadMat r.m1 with
    | none => none
    | some (dx, dy, t, m) =>
      let u := r.u.toNat
      if !(m.parkable t.pend u && (match t.matPre with | some m0 => m0.parkable t.pend u | none => true)) then none
      else if (parkGroup r).any (fun g => (m.parks u).any fun p => p.row == g.2 && p.owner == e.f.st && !p.landed) then none
      else match (parkGroup r).find? (fun g => (m.parks r.u.toNat).any fun p => p.row == g.2 && p.owner != e.f.st) with
        | some g => some (e.fault 1 [] none ⟨fcBounds, g.2, 0⟩)
        | none =>
          some ⟨.busy .vector (parkGroup r).length :: (parkGroup r).map (fun g => .park dx dy u g.2 e.pre.v[g.1]),
            some (3 + (parkGroup r).length, (parkGroup r).map fun g => .parkLands dx dy u g.2)⟩
def execVpark (r : VPark) (s : State) : Host.Outcome State Fault Refusal := runRule r.hdr (ruleVpark r) s

/-- `vunpark vD, u, row, count [, keep]`: the rows are released at the firing unless kept, the registers land after 3 + count cycles. -/
def ruleVunpark (r : VPark) (e : Env) : Option Fire :=
  if (parkGroup r).any (fun g => e.pending (.v g.1)) then none
  else match e.quadMat r.m1 with
    | none => none
    | some (dx, dy, _, m) =>
      let slot (g : Fin 8 × Nat) : Option Park := (m.parks r.u.toNat).find? fun p => p.row == g.2 && p.owner == e.f.st
      match (parkGroup r).find? (fun g => (slot g).isNone) with
      | some g => some (e.fault 1 [] none ⟨fcBounds, g.2, 0⟩)
      | none =>
        if (parkGroup r).any (fun g => match slot g with | some p => !p.landed | none => false) then none else
        let out := (parkGroup r).flatMap fun g =>
          match slot g with | some p => [Effect.setV g.1 (m.slotReg r.u.toNat p), .unpend (.v g.1)] | none => []
        let rel := if r.keep then [] else (parkGroup r).map fun g => Effect.unpark dx dy r.u.toNat g.2
        some ⟨.busy .vector (parkGroup r).length :: (parkGroup r).map (fun g => .pend (.v g.1)) ++ rel, some (3 + (parkGroup r).length, out)⟩
def execVunpark (r : VPark) (s : State) : Host.Outcome State Fault Refusal := runRule r.hdr (ruleVunpark r) s

end Sys2Proof.Machine
end

