-- ==== Sys2Proof/Machine/Matrix.lean ====
section
/-! DEFINITION. Matrix station words (chapter 15), and the matrix engine, normaliser and corner turn (chapter 14). -/

namespace Sys2Proof.Machine

open Sys2Proof

/-! ### Helpers -/

/-- A unit scale in every byte. -/
def Tag.is16 (t : Tag) : Bool := t == 32 || t == 33

/-- The matrix state of a firing station at the start of the cycle: a park or release of another station in this cycle does not show (R161, R334). -/
def Env.mat (e : Env) : Option Mat := e.pre.matPre

/-- Open: configured or not, without parked rows, and not awaiting a step or `mnorm`. -/
def Env.accOpen (e : Env) (m : Mat) (a : Fin 2) : Bool := m.a[a].st == .opened && m.a[a].parks.isEmpty && !e.pending (.acc a)

/-- An accumulator closes in a cycle (R327). -/
def Acc.close (x : Acc) (now : Nat) (sl : Slack) : Acc := { x with st := .closed, closed := now, cin := 0, pos := 0, slack := sl }

/-- The cleared state of R109, open, counter 0; the configuration is kept. -/
def Acc.cleared (x : Acc) : Acc := { x with rows := Vector.replicate 64 AccRow.clear, cnt := 0, st := .opened, cin := 0, pos := 0 }

/-- A partial-row token (R327, Table 14.3). -/
def partialRow (r : AccRow) (row part : Nat) (sl : Slack) : Token :=
  let hdr := (r.e % 1024).toNat + (if r.p then 2 ^ 10 else 0) + (if r.m then 2 ^ 11 else 0) + (if r.q then 2 ^ 12 else 0) + row * 2 ^ 13 + part * 2 ^ 19
  let cols := (List.range 8).map fun i => (r.col (8 * part + i) % (2 ^ 64 : Nat)).toNat
  ⟨BitVec.ofNat 512 (packLanes 64 cols), BitVec.ofNat 64 hdr, 42, 0, 0, false, sl.bg, sl.n⟩

/-! ### Matrix words (R335-R349) -/

/-- `mcfg aK, oD, cC, kt` (R339). -/
def ruleMcfg (acc : Fin 2) (o : Fin 8) (c : Option (Fin 8)) (sa sb : ScaleSrc) (kt : BitVec 16) (e : Env) : Option Fire :=
  match e.mat with
  | none => none
  | some m =>
    let x := m.a[acc]
    if !(x.cfg.isNone || (e.accOpen m acc && x.cnt == 0)) then none
    else
      let bound := match c with
        | none => false
        | some k => m.t.toList.any (fun t => t.fill == some k) ||
            (match m.a[acc + 1].cfg with | some q => q.carry == some k | none => false)
      if bound then some (e.fault 1 [] none ⟨fcBounds, 5, 0⟩)
      else some ⟨[.setAcc acc { x with cfg := some ⟨kt, o, c, sa, sb⟩ }], none⟩
def execMcfg (hdr : Hdr) (acc : Fin 2) (o : Fin 8) (c : Option (Fin 8)) (sa sb : ScaleSrc) (kt : BitVec 16) (s : State) :
    Host.Outcome State Fault Refusal :=
  runRule hdr (ruleMcfg acc o c sa sb kt) s

/-- `tfill.f tK, cN`, or `tfill tK, zero` (R341). -/
def ruleTfill (t : Fin 4) (c : Option (Fin 8)) (fmt : Tag) (e : Env) : Option Fire :=
  match e.mat with
  | none => none
  | some m =>
    let x := m.t[t]
    match c with
    | none => some ⟨[.setTile t { x with fill := none }], none⟩
    | some k =>
      if !(x.st == .empty && x.parks.isEmpty) then none
      else if m.a.toList.any (fun a => match a.cfg with | some q => q.carry == some k | none => false) then
        some (e.fault 1 [] none ⟨fcBounds, 5, 0⟩)
      else some ⟨[.unbind k, .setTile t { x with fill := some k, fresh := true, fmt := fmt, pos := 0 }], none⟩
def execTfill (hdr : Hdr) (t : Fin 4) (c : Option (Fin 8)) (fmt : Tag) (s : State) : Host.Outcome State Fault Refusal :=
  runRule hdr (ruleTfill t c fmt) s

/-- `tmark tK, empty|full` (R342). -/
def ruleTmark (t : Fin 4) (full : Bool) (e : Env) : Option Fire :=
  match e.mat with
  | none => none
  | some m =>
    let x := m.t[t]
    if x.st == .reading || !x.parks.isEmpty then none
    else if full then
      if x.fmt = 0 then some (e.fault 1 [] none (badTag 0)) else some ⟨[.setTile t { x with st := .full, pos := 0 }], none⟩
    else some ⟨[.setTile t { x with st := .empty, pos := 0 }], none⟩
def execTmark (hdr : Hdr) (t : Fin 4) (full : Bool) (s : State) : Host.Outcome State Fault Refusal := runRule hdr (ruleTmark t full) s

/-- `tdrain aK` (R344). -/
def ruleTdrain (acc : Fin 2) (e : Env) : Option Fire :=
  match e.mat with
  | none => none
  | some m => if e.accOpen m acc && m.a[acc].cfg.isSome then some ⟨[.setAcc acc (m.a[acc].close e.s.time e.sl)], none⟩ else none
def execTdrain (hdr : Hdr) (acc : Fin 2) (s : State) : Host.Outcome State Fault Refusal := runRule hdr (ruleTdrain acc) s

/-- The scales that a step captures for an operand (R326, R339). -/
def Mat.capture (m : Mat) (t : Fin 4) (src : ScaleSrc) : Vector Word 64 :=
  if Tag.is16 m.t[t].fmt then Vector.replicate 64 unitSide
  else match src with | .tile => m.t[t].scales | .g0 => m.g[0] | .g1 => m.g[1]

/-- A tile after its step: full when kept, else empty (R322). -/
def Tile.after (x : Tile) (keep : Bool) : Tile := if keep then { x with st := .full } else { x with st := .empty, pos := 0 }

/-- A standing step rule (R324, R343). Mixed operand widths raise the format fault, naming tB's format (log 22), and take the engine for the firing
cycle. -/
def stepRule (r : MStep) (mmat : Bool) (e : Env) : Option Fire :=
  match e.mat with
  | none => none
  | some m =>
    let a := m.t[r.a]
    let b := m.t[r.b]
    match m.a[r.acc].cfg with
    | none => none
    | some k =>
      if !(a.st == .full && b.st == .full && e.accOpen m r.acc && m.step.isNone) then none
      else if Tag.is16 a.fmt ≠ Tag.is16 b.fmt then
        some ((e.fault 1 [] none (badTag b.fmt)).after [.setTile r.a (a.after r.keepa), .setTile r.b (b.after r.keepb), .busy .step 1])
      else
        let lat := if Tag.is16 a.fmt then 256 else 128
        some ⟨[.setTile r.a { a with st := .reading }, .setTile r.b { b with st := .reading }, .pend (.acc r.acc),
          .step ⟨r.acc, r.a, r.b, mmat, r.keepa, r.keepb, m.capture r.a k.sa, m.capture r.b k.sb, lat - 1, e.sl⟩], none⟩

/-- `mma aK, tA, tB`. -/
def ruleMma (r : MStep) (e : Env) : Option Fire := stepRule r false e
def execMma (r : MStep) (s : State) : Host.Outcome State Fault Refusal := runRule r.hdr (ruleMma r) s

/-- `mmat aK, tA, tB`. -/
def ruleMmat (r : MStep) (e : Env) : Option Fire := stepRule r true e
def execMmat (r : MStep) (s : State) : Host.Outcome State Fault Refusal := runRule r.hdr (ruleMmat r) s

/-- `mclr aK` (R344). -/
def ruleMclr (acc : Fin 2) (e : Env) : Option Fire :=
  match e.mat with
  | none => none
  | some m => if e.accOpen m acc then some ⟨[.setAcc acc m.a[acc].cleared], none⟩ else none
def execMclr (hdr : Hdr) (acc : Fin 2) (s : State) : Host.Outcome State Fault Refusal := runRule hdr (ruleMclr acc) s

/-- A row that `mnorm` may raise. -/
def normable (r : AccRow) : Bool := r.e != -512 && !r.p && !r.m && !r.q

/-- The rows after `mnorm` (R344). -/
def mnormRows (rows : Vector AccRow 64) (e : Option Int) : Vector AccRow 64 :=
  match (rows.toList.filter normable).map (·.e) with
  | [] => rows
  | l :: ls =>
    let t0 := ls.foldl max l
    let t := match e with | some x => max t0 x | none => t0
    rows.map fun r => if normable r && decide (r.e < t) then { r with s := r.cols.map fun (x : Int) => x >>> (t - r.e).toNat, e := t } else r

/-- `mnorm aK [, e]`: the accumulator is pending for 64 cycles. -/
def ruleMnorm (acc : Fin 2) (x : Option (BitVec 10)) (e : Env) : Option Fire :=
  match e.mat with
  | none => none
  | some m =>
    if e.accOpen m acc && m.a[acc].cfg.isSome then
      some ⟨[.pend (.acc acc)], some (64, [.setAcc acc { m.a[acc] with rows := mnormRows m.a[acc].rows (x.map (·.toInt)) }, .unpend (.acc acc)])⟩
    else none
def execMnorm (hdr : Hdr) (acc : Fin 2) (x : Option (BitVec 10)) (s : State) : Host.Outcome State Fault Refusal :=
  runRule hdr (ruleMnorm acc x) s

/-- `mexp aK, e`: E of every empty row (R344). -/
def ruleMexp (acc : Fin 2) (x : BitVec 10) (e : Env) : Option Fire :=
  match e.mat with
  | none => none
  | some m =>
    if e.accOpen m acc && m.a[acc].cnt == 0 then
      some ⟨[.setAcc acc { m.a[acc] with rows := m.a[acc].rows.map fun r => if r.e = -512 then { r with e := x.toInt } else r }], none⟩
    else none
def execMexp (hdr : Hdr) (acc : Fin 2) (x : BitVec 10) (s : State) : Host.Outcome State Fault Refusal := runRule hdr (ruleMexp acc x) s

/-- `mscap gK, row, src [, all]` (R345). -/
def ruleMscap (g : Fin 2) (src : Opd) (row : BitVec 6) (all : Bool) (e : Env) : Option Fire :=
  match e.read src with
  | none => none
  | some x =>
    if x.bad then some (e.fault 1 x.eff none bounds)
    else some ⟨x.eff ++ [.setG g (if all then none else some row.toFin) x.word], none⟩
def execMscap (hdr : Hdr) (g : Fin 2) (src : Opd) (row : BitVec 6) (all : Bool) (s : State) : Host.Outcome State Fault Refusal :=
  runRule hdr (ruleMscap g src row all) s

/-- State codes of Table 15.4. -/
def Tile.code (x : Tile) : Nat :=
  if !x.parks.isEmpty then 4 else match x.st with | .empty => 0 | .filling => 1 | .full => 2 | .reading => 3
def Acc.code (x : Acc) : Nat :=
  if !x.parks.isEmpty then 4
  else if x.cfg.isNone then 5
  else match x.st with | .opened => if x.cnt = 0 then 0 else 1 | .closed => 2 | .draining => 3

def parkBits (ps : List Park) : Nat := (BitVec.ofNat 64 ((List.range 64).foldl (fun n r => if ps.any (fun p => p.row == r) then n + 2 ^ r else n) 0)).toNat

/-- The payload of `mpstat` (Table 15.4). -/
def Mat.statLanes (m : Mat) (pend : List PReg) : List Nat :=
  m.t.toList.map (fun t => parkBits t.parks) ++ m.a.toList.map (fun a => parkBits a.parks) ++
    [m.t[0].code + m.t[1].code * 2 ^ 3 + m.t[2].code * 2 ^ 6 + m.t[3].code * 2 ^ 9 + m.a[0].code * 2 ^ 12 + m.a[1].code * 2 ^ 15 +
        m.a[0].cnt.toNat * 2 ^ 32 + m.a[1].cnt.toNat * 2 ^ 48,
      (List.range 6).foldl (fun n u => if m.parkable pend u then n + 2 ^ u else n) 0]

/-- `mpstat oK` (R346): the values at the start of the cycle. -/
def ruleMpstat (o : Fin 8) (e : Env) : Option Fire :=
  match e.mat with
  | none => none
  | some m => e.result 1 false [] (.o o) (.ok (Token.vec (VReg.plain 43 (packLanes 64 (m.statLanes e.pre.pend))) e.sl))
def execMpstat (hdr : Hdr) (o : Fin 8) (s : State) : Host.Outcome State Fault Refusal := runRule hdr (ruleMpstat o) s

/-- `mrow oK, u, row [, part]` (R347). -/
def ruleMrow (o : Fin 8) (u : Opd) (row : BitVec 6) (part : BitVec 3) (e : Env) : Option Fire :=
  match e.mat with
  | none => none
  | some m =>
    let parked (ps : List Park) : Bool := ps.any fun p => p.row == row.toNat
    let fault : Option Fire := e.result 1 false [] (.o o) (.error ⟨fcBounds, row.toNat, 0⟩)
    match u with
    | .t n =>
      let x := m.t[n]
      if parked x.parks then fault
      else if !x.parks.isEmpty then none
      else e.result 1 false [] (.o o)
        (.ok (Token.vec ⟨x.rows[row.toFin], if Tag.is16 x.fmt then unitSide else x.scales[row.toFin], x.fmt⟩ e.sl))
    | .a n =>
      if e.pending (.acc n) then none
      else if parked m.a[n].parks then fault
      else e.result 1 false [] (.o o) (.ok (partialRow m.a[n].rows[row.toFin] row.toNat part.toNat e.sl))
    | _ => none
def execMrow (hdr : Hdr) (o : Fin 8) (u : Opd) (row : BitVec 6) (part : BitVec 3) (s : State) : Host.Outcome State Fault Refusal :=
  runRule hdr (ruleMrow o u row part) s

/-! ### Tile fills (R323) -/

/-- A format fault that a unit of a station raises: context and slot read as 0. -/
def unitFault (t : Station) (k : Token) (f : FaultC) : Token := faultToken t 0 0 k.slk f

/-- What a fill does with a token: the tile after it, and whether the token's format fault is raised; none when it is not taken, as in the cycle of its
`tfill` (R341). -/
def Tile.accept (x : Tile) (k : Token) : Option (Tile × Bool) :=
  if x.fresh || !x.parks.isEmpty || !(x.st == .empty || x.st == .filling) then none
  else if k.data? then
    let ok := k.fmt == x.fmt
    let row : V512 := if ok then k.data else 0
    let side : Word := if ok && !Tag.is16 x.fmt then k.side else unitSide
    if h : x.pos < 64 then
      let y := { x with rows := x.rows.set x.pos row, scales := x.scales.set x.pos side }
      some (if x.pos = 63 then { y with st := .full, pos := 0 } else { y with st := .filling, pos := x.pos + 1 }, !ok)
    else none
  else if k.stop = 1 ∧ k.f = false ∧ x.st = .filling then
    some ({ x with
      rows := Vector.ofFn fun i => if i.val < x.pos then x.rows[i] else 0,
      scales := Vector.ofFn fun i => if i.val < x.pos then x.scales[i] else unitSide,
      st := .full, pos := 0 }, false)
  else none

/-- A fill takes its token as the tile stood at the start of the cycle (R334). Where a rule of the cycle has marked the tile, the state that the rule
gives stands; a binding of the cycle takes nothing (R341, log 28). -/
def Tile.taken (old x : Tile) (k : Token) : Option (Tile × Bool) :=
  if x.fill ≠ old.fill ∨ x.fresh then none
  else
    let start : Tile := { x with st := old.st, pos := old.pos, fmt := old.fmt, parks := old.parks }
    (start.accept k).map fun (y, bad) =>
      let marked := x.st != old.st || x.pos != old.pos
      ({ y with parks := x.parks, fmt := x.fmt, st := if marked then x.st else y.st, pos := if marked then x.pos else y.pos }, bad)

/-- TILE_FILL_ACCEPT (R323): a binding accepts one token. -/
def execTileFillAccept (s : State) : Host.Outcome State Fault Refusal :=
  match s.ev with
  | .tile i n =>
    match s.station? i with
    | none => .next s
    | some t =>
      match t.mat with
      | none => .next s
      | some m =>
        match m.t[n].fill with
        | none => .next s
        | some c =>
          match t.headEntry c with
          | none => .next s
          | some k =>
            let old := match t.matPre with | some m0 => m0.t[n] | none => m.t[n]
            match old.taken m.t[n] k with
            | none => .next s
            | some (y, bad) =>
              let s := s.modStation i fun t => { t.popC c with mat := some { m with t := m.t.set n y } }
              .next (if bad then s.pushFault t.voy t.reg (unitFault t k (badTag k.fmt)) else s)
  | _ => .next s

/-! ### Steps (R325, R343) -/

/-- The values of a tile's rows with captured scales (R321, R325). -/
def Tile.operand (x : Tile) (scales : Vector Word 64) : List (List Num) :=
  (List.finRange 64).map fun r => (VReg.mk x.rows[r] scales[r] x.fmt).vals x.fmt

/-- step() of R325: the accumulator's rows after it. -/
def stepRows (rows : Vector AccRow 64) (a b : List (List Num)) (mmat : Bool) : Vector AccRow 64 :=
  let cut (l : List (List Num)) : List (List (List Num)) := l.map (chunks 8 8)
  let ca := cut a
  let cb := cut b
  Vector.ofFn fun i =>
    let blocks := ((if mmat then cb else ca).getD i.val []).length
    (List.range blocks).foldl (fun (r : AccRow) k =>
      r.add (if mmat then ca.map fun x => blockSum (x.getD k []) ((cb.getD i.val []).getD k [])
             else cb.map fun y => blockSum ((ca.getD i.val []).getD k []) (y.getD k []))) rows[i]

/-- A step that has run its cycles: the accumulator, its counter, the tiles. -/
def Mat.complete (m : Mat) (now : Nat) (x : MatStep) : Mat :=
  let acc := m.a[x.acc]
  let rows := stepRows acc.rows (m.t[x.ta].operand x.sa) (m.t[x.tb].operand x.sb) x.mmat
  let acc := { acc with rows := rows, cnt := acc.cnt + 1 }
  let acc := match acc.cfg with | some k => if acc.cnt = k.kt then acc.close now x.slack else acc | none => acc
  let t := m.t.set x.ta (m.t[x.ta].after x.keepa)
  let t := t.set x.tb (t[x.tb].after x.keepb)
  { m with a := m.a.set x.acc acc, t := t, step := none }

/-- MATRIX_STEP_COMPLETE (R343). -/
def execMatrixStepComplete (s : State) : Host.Outcome State Fault Refusal :=
  match s.ev with
  | .st i =>
    .next (s.modStation i fun t =>
      match t.mat with
      | none => t
      | some m =>
        match m.step with
        | none => t
        | some x => if x.left = 0 then { t with mat := some (m.complete s.time x), pend := t.pend.filter (fun q => q ≠ .acc x.acc) } else t)
  | _ => .next s

/-! ### Drains and carry-in (R327-R329) -/

/-- Whether an accumulator's carry-in is done. -/
def Acc.carried (x : Acc) : Bool := match x.cfg with | some k => k.carry.isNone || decide (512 ≤ x.cin) | none => true

/-- Whether accumulator n may emit its next drain token (R339): drains that share an output never interleave, and of two that closed in one cycle a0 goes
first. -/
def Mat.drains (m : Mat) (n : Fin 2) : Option (Fin 8) :=
  let x := m.a[n]
  let y := m.a[n + 1]
  match x.cfg with
  | none => none
  | some k =>
    let other := match y.cfg with | some q => q.o == k.o | none => false
    if x.st = .draining then some k.o
    else if x.st = .closed ∧ x.carried then
      if other && (y.st == .draining || (n == 1 && y.st == .closed && (y.carried || y.closed == x.closed))) then none else some k.o
    else none

/-- ACC_DRAIN_TOKEN (R327): one partial-row token. -/
def execAccDrainToken (s : State) : Host.Outcome State Fault Refusal :=
  match s.ev with
  | .acc i n =>
    match (s.station? i).bind (·.mat) with
    | none => .next s
    | some m =>
      match m.drains n with
      | none => .next s
      | some o =>
        if !s.outRoom i o 1 then .next s
        else
          let x := m.a[n]
          let k := partialRow (x.rows.toList.getD (x.pos / 8) AccRow.clear) (x.pos / 8) (x.pos % 8) x.slack
          let y := if 511 ≤ x.pos then x.cleared else { x with st := .draining, pos := x.pos + 1 }
          .next ((s.modStation i fun t => { t with mat := t.mat.map fun m => { m with a := m.a.set n y } }).emit i o k)
  | _ => .next s

/-- The header of a partial-row token: E, P, M, Q, ROW, PART (Table 14.3). -/
structure RowHdr where
  e : Int
  p : Bool
  m : Bool
  q : Bool
  row : Nat
  part : Nat

def rowHdr (k : Token) : RowHdr :=
  ⟨(k.side.extractLsb' 0 10).toInt, k.side.getLsbD 10, k.side.getLsbD 11, k.side.getLsbD 12, (k.side.extractLsb' 13 6).toNat,
    (k.side.extractLsb' 19 3).toNat⟩

/-- S of the 8 columns of a partial-row token. -/
def rowCols (k : Token) : List Int := (lanesOf k.data.toNat 64 8).map fun c => (BitVec.ofNat 64 c).toInt

/-- A carry-in token into its row (R329). -/
def carryRow (r : AccRow) (k : Token) : AccRow :=
  let h := rowHdr k
  let r := { r with p := r.p || h.p, m := r.m || h.m, q := r.q || h.q }
  if h.e = -512 then r
  else AccRow.addBlock r ((List.range 64).map fun j =>
    (if j / 8 = h.part then (rowCols k).getD (j % 8) 0 else 0, h.e - 62))

/-- CARRY_IN_TOKEN (R329): a closing accumulator consumes one partial row; the matrix unit is busy for the cycle. -/
def execCarryInToken (s : State) : Host.Outcome State Fault Refusal :=
  match s.ev with
  | .acc i n =>
    match s.station? i with
    | none => .next s
    | some t =>
      match t.mat with
      | none => .next s
      | some m =>
        let x := m.a[n]
        match x.cfg.bind (·.carry) with
        | none => .next s
        | some c =>
          if !(x.st == .closed && !x.carried && m.step.isNone) || t.busy.any (·.1 == .step) then .next s
          else
            match t.headEntry c with
            | none => .next s
            | some k =>
              if !k.data? then .next s
              else
                let h := rowHdr k
                let ok := k.fmt == 42 && h.row == x.cin / 8 && h.part == x.cin % 8
                let rows := if ok then (if hr : h.row < 64 then x.rows.set h.row (carryRow x.rows[h.row] k) else x.rows) else x.rows
                let y := { x with rows := rows, cin := x.cin + 1 }
                let s := s.modStation i fun t => { t.popC c with mat := t.mat.map fun m => { m with a := m.a.set n y } }
                .next (if ok then s else s.pushFault t.voy t.reg (unitFault t k (badTag k.fmt)))
  | _ => .next s

/-! ### The normaliser (R330) -/

/-- The lesser of two counters: a background token comes last. -/
def minSlack (a b : Slack) : Slack :=
  if a.bg then (if b.bg then (if a.n ≤ b.n then b else a) else b)
  else if b.bg then a else if a.n ≤ b.n then a else b

/-- The eight lanes of a part; a part in error yields +0. -/
def normPart (k : Token) (ok : Bool) : List Nat :=
  let h := rowHdr k
  if ok then (rowCols k).map fun x => normElem x h.e h.p h.m h.q else List.replicate 8 0

/-- A normaliser after taking a token, and whether it raises the format fault. -/
def Nrm.take (x : Nrm) (k : Token) : Nrm × Bool :=
  if k.data? then
    let h := rowHdr k
    let ok := k.fmt == 42 && h.row == x.row && h.part == x.part
    let lanes := normPart k ok
    match x.half with
    | none =>
      ({ x with half := some { k with data := BitVec.ofNat 512 (packLanes 32 lanes) }, part := x.part + 1 }, !ok)
    | some f =>
      let sl := minSlack f.slk k.slk
      let out := Token.vec (VReg.plain 34 (f.data.toNat + packLanes 32 lanes * 2 ^ 256)) sl
      let (row, part) := if x.part = 7 then ((x.row + 1) % 64, 0) else (x.row, x.part + 1)
      ({ x with half := none, row := row, part := part, outs := x.outs ++ [(4, out)] }, !ok)
  else
    let outs := match x.half with
      | none => x.outs
      | some f => x.outs ++ [(4, Token.vec (VReg.plain 34 f.data.toNat) f.slk)]
    ({ x with half := none, row := 0, part := 0, outs := outs ++ [(4, k)] }, false)

/-- Whether the node takes a token: with the outputs that it adds it holds at most 4 (R330). -/
def Nrm.takes (x : Nrm) (k : Token) : Bool :=
  decide (x.outs.length + (if x.half.isSome && !k.data? then 2 else 1) ≤ 4)

/-- Tokens that a node makes: one made overdue counts as it is emitted (R56, log 96). -/
def State.countMade (s : State) (i : StId) (ks : List Token) : State :=
  (ks.filter fun k => k.data? && k.overdue).foldl (fun s _ => s.countOverdue i) s

/-- NORMALISER_TOKEN (R330): one cycle of the node, an output leaves and an input is taken. -/
def execNormaliserToken (s : State) : Host.Outcome State Fault Refusal :=
  match s.ev with
  | .st i =>
    match s.station? i with
    | none => .next s
    | some t =>
      match t.nrm with
      | none => .next s
      | some x =>
        let room := match t.headEntry x.i with | some k => x.takes k | none => false
        let (x', out) := match x.outs with
          | (0, k) :: r => if s.outRoom i x.o 1 then ({ x with outs := r }, some k) else (x, none)
          | _ => (x, none)
        let s := match out with | some k => s.place i x.o k | none => s
        match (if room then t.headEntry x.i else none) with
        | none => .next (s.modStation i fun t => { t with nrm := some x' })
        | some k =>
          let (y, bad) := x'.take k
          let s := (s.modStation i fun t => { t.popC x.i with nrm := some y }).countMade i ((y.outs.drop x'.outs.length).map (·.2))
          .next (if bad then s.pushFault t.voy t.reg (unitFault t k (badTag k.fmt)) else s)
  | _ => .next s

/-! ### Corner turns (R331, R332) -/

/-- A zero row of a block. -/
def zeroRow (t : Tag) (sl : Slack) : Token := ⟨0, unitSide, t, 0, 0, false, sl.bg, sl.n⟩

/-- The rows of a block turned: output row j holds lane j of the input rows. -/
def turnBlock (x : Ctn) (rows : List Token) : List Token :=
  let n := x.ifmt.lanes
  let sl := match rows with | [] => ⟨false, 0⟩ | r :: rs => rs.foldl (fun a k => minSlack a k.slk) r.slk
  let emit (v : VReg) : Token := Token.vec v sl
  if x.ifmt.isB8 then
    let vals := rows.map fun k => k.vreg.vals x.ifmt
    (List.range n).map fun j =>
      let bs := (chunks 8 8 (vals.map fun r => r.getD j .nan)).map fun b => quantBlock b x.ofmt.float x.rm x.ov []
      emit ⟨BitVec.ofNat 512 (packLanes 8 (bs.flatMap (·.2))), BitVec.ofNat 64 (packLanes 8 (bs.map (·.1))), x.ofmt⟩
  else
    let codes := rows.map fun k => k.vreg.codes x.ifmt
    (List.range n).map fun j => emit (VReg.plain x.ofmt (packLanes x.ifmt.width (codes.map fun r => r.getD j 0)))

/-- The outputs of a block: the last row marks its end. -/
def blockOuts (ks : List Token) : List (Nat × Token × Bool) := ks.zipIdx.map fun (k, i) => (4, k, i + 1 == ks.length)

/-- Blocks not yet emitted. -/
def Ctn.blocks (x : Ctn) : Nat := (x.outs.filter (·.2.2)).length

/-- A corner turn after taking a token, and whether it raises the format fault. -/
def Ctn.take (x : Ctn) (k : Token) : Ctn × Bool :=
  let n := x.ifmt.lanes
  if k.data? then
    let ok := k.fmt == x.ifmt
    let row := if ok then k else zeroRow x.ifmt k.slk
    let rows := x.rows ++ [row]
    (if rows.length = n then { x with rows := [], outs := x.outs ++ blockOuts (turnBlock x rows) } else { x with rows := rows }, !ok)
  else if k.stop = 1 ∧ k.f = false ∧ x.rows ≠ [] then
    let rows := x.rows ++ List.replicate (n - x.rows.length) (zeroRow x.ifmt ⟨true, 0⟩)
    ({ x with rows := [], outs := x.outs ++ blockOuts (turnBlock x rows) ++ [(4, k, false)] }, false)
  else ({ x with outs := x.outs ++ [(4, k, false)] }, false)

/-- CORNER_TURN_TOKEN (R331): one cycle of the node, a turned row or a stop leaves and an input is taken. -/
def execCornerTurnToken (s : State) : Host.Outcome State Fault Refusal :=
  match s.ev with
  | .st i =>
    match s.station? i with
    | none => .next s
    | some t =>
      match t.ctn with
      | none => .next s
      | some x =>
        let room := decide (x.blocks < 2)
        let (x', out) := match x.outs with
          | (0, k, _) :: r => if s.outRoom i x.o 1 then ({ x with outs := r }, some k) else (x, none)
          | _ => (x, none)
        let s := match out with | some k => s.place i x.o k | none => s
        match (if room then t.headEntry x.i else none) with
        | none => .next (s.modStation i fun t => { t with ctn := some x' })
        | some k =>
          let (y, bad) := x'.take k
          let s := (s.modStation i fun t => { t.popC x.i with ctn := some y }).countMade i ((y.outs.drop x'.outs.length).map (·.2.1))
          .next (if bad then s.pushFault t.voy t.reg (unitFault t k (badTag k.fmt)) else s)
  | _ => .next s

end Sys2Proof.Machine
end

