-- ==== Sys2Proof/Machine/MemRules.lean ====
section
/-! DEFINITION. Memory rules (Table 11.2, R263-R282): what a rule checks at its station, what it does in local storage,
and the request it sends. What a request does beyond its station is in MemSys.lean. -/

namespace Sys2Proof.Machine

open Sys2Proof

/-! ### Access kinds and faults (Table 22.1) -/

def accLoad : Nat := 0
def accStore : Nat := 1
def accUpd : Nat := 2
def accAtom : Nat := 3
def accCopy : Nat := 4
def accTree : Nat := 5

/-- The translation fault: kind 0 permission, 1 not present, 2 malformed, 3 versioned. -/
def transFault (kind acc va : Nat) : FaultC := ⟨0x03, kind + 16 * acc, va⟩
def boundsAt (info va : Nat) : FaultC := ⟨fcBounds, info, va⟩

/-! ### Widths (R266) -/

/-- W(f). -/
def fmtWidth (t : Tag) : Nat :=
  if t.isB8 then 1
  else match t.toNat with
    | 32 | 33 | 38 | 39 => 2
    | 34 | 40 | 41 => 4
    | 36 | 37 => 1
    | _ => 8

/-- "4 or 8": the width of a versioned word. -/
def wordWidth (t : Tag) : Except FaultC Nat :=
  match t.toNat with
  | 34 | 40 | 41 => .ok 4
  | 0 | 42 | 43 => .ok 8
  | _ => .error (badTag t)

/-- Width and alignment of `ldv` and `stv`: 48 bytes for x320; packed formats have none. -/
def vecWidth (t : Tag) : Except FaultC (Nat × Nat) :=
  match t.toNat with
  | 44 => .ok (48, 16)
  | 45 | 46 => .error (badTag t)
  | _ => .ok (64, 64)

/-- Bytes of 8 packed blocks (R270). -/
def packWidth (t : Tag) : Except FaultC Nat :=
  match t.toNat with
  | 45 => .ok 40
  | 46 => .ok 56
  | _ => .error (badTag t)

/-- The width of an update operation (Table 11.4). -/
def opWidth (op : BitVec 6) : Nat :=
  match op.toNat with
  | 2 | 3 | 4 | 12 => 4
  | _ => 8

/-! ### Address operands (R240, R264, R265) -/

/-- The PA token that lanes 1 to 3 hold, when it is translated. -/
def paTok (l1 l2 l3 : Nat) : Option PaTok :=
  if l2.testBit 63 then
    some ⟨l1 / 2 ^ 16 % 2 ^ 30, BitVec.ofNat 16 l2, BitVec.ofNat 16 (l2 / 2 ^ 16), BitVec.ofNat 6 (l2 / 2 ^ 32), l3 % 2 ^ 39⟩
  else none

def lane64 (v : VReg) (i : Nat) : Nat := laneAt v.data.toNat 64 i

/-- The address of an address operand. -/
def addrOf (a : Opd) (x : Val) : Except FaultC (Nat × Option PaTok) :=
  let v := x.vreg
  if v.tag = 43 then .ok (lane64 v 0, paTok (lane64 v 1) (lane64 v 2) (lane64 v 3))
  else match a with
    | .v _ => .error (badTag v.tag)
    | _ => .ok (x.word.toNat, none)

/-- The range and alignment checks of R264. -/
def HEntry.check (h : HEntry) (va n align : Nat) : Except FaultC Unit :=
  if ((h.space == .dev || h.space == .peer) && decide (2 ^ 55 ≤ va)) || decide (va < h.base.toNat) ||
      decide (h.base.toNat + h.size.toNat < va + n) then .error (boundsAt 0 va)
  else if va % align ≠ 0 then .error (boundsAt 1 va)
  else .ok ()

/-- An instruction that acts in SPACE 2 only (R267). -/
def HEntry.only2 (h : HEntry) (acc va : Nat) : Except FaultC Unit := if h.space = .dev then .ok () else .error (transFault 0 acc va)

/-! ### Requests (R230-R232, R268) -/

/-- Whether requests through a handle belong to an ordered domain (R267). -/
def HEntry.ordered (h : HEntry) : Bool := h.space == .dev || h.space == .host || h.space == .peer

/-- The number of an ordered domain (R231); rules of no domain use 0. -/
def State.domainNum (s : State) (voy reg die port : Nat) : BitVec 12 :=
  match s.domains.find? (fun d => d.voy == voy && d.reg == reg && d.die == die && d.port == port && d.src == .rules) with
  | some d => d.num
  | none => 0

/-- stamp(MAJOR, DOMAIN, MINOR) (Table 10.1). -/
def mkStamp (major : BitVec 32) (dom : BitVec 12) (minor : BitVec 8) : Stamp := major ++ dom ++ minor

/-- MAJOR of the firing context: its wave number, or its task's timestamp (R231). -/
def Env.major (e : Env) : BitVec 32 := if e.ctx.running.isSome then e.ctx.ts else e.ctx.wave

/-- The request that a memory rule sends. -/
def Env.req (e : Env) (m : MHdr) (h : HEntry) (op : ReqOp) (acc va : Nat) (pa : Option PaTok) (data : V512) (y : Word) (dest : Dest) : Req :=
  let die := e.f.st.die
  { id := e.s.nextId, voy := e.pre.voy, reg := e.pre.reg, src := .rules, st := e.f.st, ctx := e.f.ctx, slot := e.slot, time := e.s.time,
    op := op, h := h, va := va, pa := pa, data := data, y := y,
    stamp := mkStamp e.major (e.s.domainNum e.pre.voy e.pre.reg die h.port.toNat) (m.own.setWidth 8),
    pred := m.pred, own := m.own, succ := m.succ, mf := m.mf, pass := 0,
    port := if h.ordered then some (die, h.port.toNat) else none,
    dest := dest, slack := e.sl, epoch := 0, parts := [], acc := acc, released := false, credit := true,
    asid := (match e.s.voyage? e.pre.voy with | some v => v.asid | none => 0), vers := false, task := e.ctx.running, held := 0, arrived := 0, way := [], queued := 0, stood := 0, stage := .net Config.netLatency }

/-- A free request credit, which local accesses do not take (R230). -/
def Env.credit (e : Env) (h : HEntry) : Bool := h.space == .loc || decide (e.live.credits < 8)

/-- A rule that faults at its station still sends a placeholder to the port of its domain (R232). -/
def Env.placeholder (e : Env) (m : MHdr) (h : HEntry) : List Effect :=
  if h.ordered then [.req (e.req m h .mnop accLoad 0 none 0 0 .none)] else []

/-- The path of a fault at the station. -/
def Env.memFault (e : Env) (m : MHdr) (h : HEntry) (eff : List Effect) (d : Option (Fin 8)) (f : FaultC) : Fire :=
  let x := e.fault 1 eff d f
  ⟨x.now ++ e.placeholder m h, x.later⟩

/-- A destination owed by the memory system: pending, or an entry claimed. -/
def Env.owed (e : Env) (d : Opd) : List Effect × Dest :=
  match d with
  | .d n => ([.pend (.d n)], .d n)
  | .v n => ([.pend (.v n)], .v n)
  | .o n => ([.claimOut n (e.s.nextId + 1)], .out n (e.s.nextId + 1))
  | _ => ([], .none)

/-- The fault of a task handler that stores outside versioned memory (R65, R273). -/
def Env.taskFault (e : Env) (m : MHdr) (h : HEntry) (eff : List Effect) (va : Nat) : Fire :=
  ⟨eff ++ [.taskFault (faultToken e.pre e.f.ctx e.slot e.sl ⟨0x07, e.ctx.ts.toNat, va⟩)] ++ e.placeholder m h, none⟩

/-! ### Loads -/

/-- Bytes, alignment, request, whether it acts in SPACE 2 only, and the value of the bytes read. -/
structure LoadSpec where
  n     : Nat
  align : Nat
  op    : ReqOp
  only2 : Bool
  view  : Nat → VReg

/-- A scalar as a register value (R143). -/
def scalarReg (w : Word) : VReg := ⟨w.setWidth 512, unitSide, 0⟩

/-- Bytes sign-extended or zero-extended to 64 bits. -/
def extend (sext : Bool) (w x : Nat) : Word := if sext && x.testBit (8 * w - 1) then BitVec.ofInt 64 ((x : Int) - (2 ^ (8 * w) : Nat)) else BitVec.ofNat 64 x

/-- A load (R263). -/
def loadRule (spec : HEntry → Except FaultC LoadSpec) (r : MLoad) (e : Env) : Option Fire :=
  match e.read r.a with
  | none => none
  | some x =>
    let h := e.pre.h[r.h]
    if !(e.credit h && e.destReady r.d) then none
    else
      let chk : Except FaultC (LoadSpec × Nat × Option PaTok) := do
        let sp ← spec h
        let (va, pa) ← addrOf r.a x
        if sp.only2 then h.only2 accLoad va
        h.check va sp.n sp.align
        return (sp, va, pa)
      match chk with
      | .error f => some (e.memFault r.m h x.eff (Opd.out? r.d) f)
      | .ok (sp, va, pa) =>
        if h.space = .loc ∧ e.pre.wornIn false va sp.n then some (e.memFault r.m h x.eff (Opd.out? r.d) storageFault)
        else if h.space = .loc then some ((e.write 2 r.d (Token.vec (sp.view (Memory.read e.pre.store va sp.n)) e.sl)).after x.eff)
        else
          let (eff, dest) := e.owed r.d
          some ⟨x.eff ++ eff ++ [.req (e.req r.m h sp.op accLoad va pa 0 0 dest)], none⟩

/-- Whether an access is versioned by MF2 or by the handle's VERS (R239). -/
def MHdr.versioned (m : MHdr) (h : HEntry) : Bool := m.mf.getLsbD 2 || h.vers

/-- A versioned word (R271). -/
def wordSpec (settled : Bool) (h : HEntry) : Except FaultC LoadSpec := do
  let w ← wordWidth h.fmt
  return ⟨w, w, .ldt w h.fmt.isSigned settled, true, fun x => scalarReg (extend h.fmt.isSigned w x)⟩

/-- `ld D, hN, a` (R269). -/
def ruleLd (r : MLoad) (e : Env) : Option Fire :=
  loadRule (fun h =>
    if MHdr.versioned r.m h then wordSpec (r.m.mf.getLsbD 1) h
    else
      let w := fmtWidth h.fmt
      .ok ⟨w, w, .load w h.fmt.isSigned, false, fun x => scalarReg (extend h.fmt.isSigned w x)⟩) r e
def execLd (r : MLoad) (s : State) : Host.Outcome State Fault Refusal := runRule r.m.hdr (ruleLd r) s

/-- `ldv D, hN, a` (R269). -/
def ruleLdv (r : MLoad) (e : Env) : Option Fire :=
  loadRule (fun h => do
    let (n, al) ← vecWidth h.fmt
    return ⟨n, al, .loadV n, false, fun x => VReg.plain h.fmt x⟩) r e
def execLdv (r : MLoad) (s : State) : Host.Outcome State Fault Refusal := runRule r.m.hdr (ruleLdv r) s

/-- `ldt D, hN, a` (R271). -/
def ruleLdt (r : MLoad) (e : Env) : Option Fire := loadRule (wordSpec false) r e
def execLdt (r : MLoad) (s : State) : Host.Outcome State Fault Refusal := runRule r.m.hdr (ruleLdt r) s

/-- `lds D, hN, a` (R271). -/
def ruleLds (r : MLoad) (e : Env) : Option Fire := loadRule (wordSpec true) r e
def execLds (r : MLoad) (s : State) : Host.Outcome State Fault Refusal := runRule r.m.hdr (ruleLds r) s

/-- `ldk D, hN, a` (R270). -/
def ruleLdk (r : MLoad) (e : Env) : Option Fire :=
  loadRule (fun h => do
    let n ← packWidth h.fmt
    return ⟨n, 1, .loadK, false, fun x => expandBlocks h.fmt x⟩) r e
def execLdk (r : MLoad) (s : State) : Host.Outcome State Fault Refusal := runRule r.m.hdr (ruleLdk r) s

/-- `xlat D, hN, a` (R281). -/
def ruleXlat (r : MLoad) (e : Env) : Option Fire :=
  loadRule (fun _ => .ok ⟨1, 1, .xlat, true, fun _ => VReg.zero⟩) r e
def execXlat (r : MLoad) (s : State) : Host.Outcome State Fault Refusal := runRule r.m.hdr (ruleXlat r) s

/-! ### Stores -/

/-- Bytes, alignment, request, whether SPACE 2 only, and the bytes stored. -/
structure StoreSpec where
  n     : Nat
  align : Nat
  op    : ReqOp
  only2 : Bool
  data  : Nat

/-- A store (R263). -/
def storeRule (spec : HEntry → VReg → Except FaultC StoreSpec) (acc : Nat) (r : MStore) (e : Env) : Option Fire :=
  match e.read2 r.a r.s with
  | none => none
  | some (x, y, eff) =>
    let h := e.pre.h[r.h]
    if !e.credit h then none
    else
      let chk : Except FaultC (StoreSpec × Nat × Option PaTok) := do
        let sp ← spec h y.vreg
        let (va, pa) ← addrOf r.a x
        if sp.only2 then h.only2 acc va
        h.check va sp.n sp.align
        return (sp, va, pa)
      match chk with
      | .error f => some (e.memFault r.m h eff none f)
      | .ok (sp, va, pa) =>
        if e.ctx.running.isSome && h.space != .dev then some (e.taskFault r.m h eff va)
        else if h.space = .loc then some ⟨eff ++ [.writeLocal (h.kind == .phase) va sp.n (BitVec.ofNat 512 sp.data)], none⟩
        else some ⟨eff ++ [.req (e.req r.m h sp.op acc va pa (BitVec.ofNat 512 sp.data) 0 .none)], none⟩

/-- The low bytes of a source. -/
def lowBytes (v : VReg) (n : Nat) : Nat := v.data.toNat % 2 ^ (8 * n)

/-- A versioned store: the store operation in the history (R271). -/
def storeWord (h : HEntry) (v : VReg) : Except FaultC StoreSpec := do
  let w ← wordWidth h.fmt
  return ⟨w, w, .upd 0 w, true, lowBytes v w⟩

/-- `st hN, a, s` (R269). -/
def ruleSt (r : MStore) (e : Env) : Option Fire :=
  storeRule (fun h v =>
    if MHdr.versioned r.m h then storeWord h v
    else
      let w := fmtWidth h.fmt
      .ok ⟨w, w, .store w, false, lowBytes v w⟩) accStore r e
def execSt (r : MStore) (s : State) : Host.Outcome State Fault Refusal := runRule r.m.hdr (ruleSt r) s

/-- `stv hN, a, vB` (R269). -/
def ruleStv (r : MStore) (e : Env) : Option Fire :=
  storeRule (fun h v => do
    let (n, al) ← vecWidth h.fmt
    return ⟨n, al, .store n, false, lowBytes v n⟩) accStore r e
def execStv (r : MStore) (s : State) : Host.Outcome State Fault Refusal := runRule r.m.hdr (ruleStv r) s

/-- `stw hN, a, s` (R271). -/
def ruleStw (r : MStore) (e : Env) : Option Fire := storeRule storeWord accUpd r e
def execStw (r : MStore) (s : State) : Host.Outcome State Fault Refusal := runRule r.m.hdr (ruleStw r) s

/-- `stk hN, a, vB` (R270). -/
def ruleStk (r : MStore) (e : Env) : Option Fire :=
  storeRule (fun h v => do
    let n ← packWidth h.fmt
    needTag Tag.isB8 v
    return ⟨n, 1, .store n, false, packBlocks h.fmt v⟩) accStore r e
def execStk (r : MStore) (s : State) : Host.Outcome State Fault Refusal := runRule r.m.hdr (ruleStk r) s

/-- `xred hN, a, vB` (R276). -/
def ruleXred (r : MStore) (e : Env) : Option Fire :=
  storeRule (fun _ v => do
    need 44 v
    return ⟨48, 16, .xred, true, lowBytes v 48⟩) accUpd r e
def execXred (r : MStore) (s : State) : Host.Outcome State Fault Refusal := runRule r.m.hdr (ruleXred r) s

/-! ### Request vectors (R265, R274-R277) -/

/-- The fields of a request vector. -/
structure RVec where
  va : Nat
  pa : Option PaTok
  x  : Nat
  y  : Nat
  op : Nat
  deriving DecidableEq, Repr

def rvecOf (v : VReg) : Except FaultC RVec := do
  need 43 v
  let l := lane64 v
  return ⟨l 0, paTok (l 1) (l 2) (l 3), l 4, l 5, l 6 % 256⟩

/-- An update without a result (`updw`, `red`). -/
def updRule (op : BitVec 6 → Nat → ReqOp) (r : MUpd) (e : Env) : Option Fire :=
  match e.read r.r with
  | none => none
  | some x =>
    let h := e.pre.h[r.h]
    if !e.credit h then none
    else
      let w := opWidth r.op
      let chk : Except FaultC RVec := do
        let v ← rvecOf x.vreg
        h.only2 accUpd v.va
        h.check v.va w w
        return v
      match chk with
      | .error f => some (e.memFault r.m h x.eff none f)
      | .ok v => some ⟨x.eff ++ [.req (e.req r.m h (op r.op w) accUpd v.va v.pa (BitVec.ofNat 512 v.x) (BitVec.ofNat 64 v.y) .none)], none⟩

/-- `updw op, hN, r` (R271). -/
def ruleUpdw (r : MUpd) (e : Env) : Option Fire := updRule .upd r e
def execUpdw (r : MUpd) (s : State) : Host.Outcome State Fault Refusal := runRule r.m.hdr (ruleUpdw r) s

/-- `red op, hN, r` (R275); MF2 or the handle's VERS makes it versioned. -/
def ruleRed (r : MUpd) (e : Env) : Option Fire := updRule .red r e
def execRed (r : MUpd) (s : State) : Host.Outcome State Fault Refusal := runRule r.m.hdr (ruleRed r) s

/-- `atom D, hN, r` (R275). A task handler never performs it (R273). -/
def ruleAtom (r : MLoad) (e : Env) : Option Fire :=
  match e.read r.a with
  | none => none
  | some x =>
    let h := e.pre.h[r.h]
    if !(e.credit h && e.destReady r.d) then none
    else
      let chk : Except FaultC RVec := do
        let v ← rvecOf x.vreg
        if 13 < v.op then throw ⟨fcFormat, v.op, 0⟩
        h.only2 accAtom v.va
        let w := opWidth (BitVec.ofNat 6 v.op)
        h.check v.va w w
        return v
      match chk with
      | .error f => some (e.memFault r.m h x.eff (Opd.out? r.d) f)
      | .ok v =>
        if e.ctx.running.isSome then some (e.taskFault r.m h x.eff v.va)
        else
          let (eff, dest) := e.owed r.d
          let op := BitVec.ofNat 6 v.op
          some ⟨x.eff ++ eff ++
            [.req (e.req r.m h (.atom op (opWidth op)) accAtom v.va v.pa (BitVec.ofNat 512 v.x) (BitVec.ofNat 64 v.y) dest)], none⟩
def execAtom (r : MLoad) (s : State) : Host.Outcome State Fault Refusal := runRule r.m.hdr (ruleAtom r) s

/-- `mcst oK, hN, r`: the replicas travel as one request and separate at their port; the token leaves at the firing (R277). -/
def ruleMcst (r : MLoad) (e : Env) : Option Fire :=
  match e.read r.a with
  | none => none
  | some x =>
    let h := e.pre.h[r.h]
    if !(e.credit h && e.destReady r.d) then none
    else
      let n := Nat.max h.dcnt.toNat 1
      let chk : Except FaultC RVec := do
        let v ← rvecOf x.vreg
        h.only2 accStore v.va
        if 16 < n then throw (boundsAt 2 v.va)
        h.check v.va 8 8
        return v
      match chk with
      | .error f => some (e.memFault r.m h x.eff (Opd.out? r.d) f)
      | .ok v =>
        let q := e.req r.m h (.store 8) accStore v.va v.pa (BitVec.ofNat 512 (v.x % 2 ^ 64)) 0 .none
        let parts := (List.range n).map fun k => (v.va + k * h.size.toNat, 0, 8)
        let k := Token.vec (VReg.plain 43 (v.va + v.x % 2 ^ 64 * 2 ^ 64)) e.sl
        some ((e.write 1 r.d k).after (x.eff ++ [.req { q with parts := parts }]))
def execMcst (r : MLoad) (s : State) : Host.Outcome State Fault Refusal := runRule r.m.hdr (ruleMcst r) s

/-! ### Lines (R272, R280) -/

/-- `reclaim hN, a` (R272). -/
def ruleReclaim (m : MHdr) (n : Fin 16) (a : Opd) (e : Env) : Option Fire :=
  match e.read a with
  | none => none
  | some x =>
    let h := e.pre.h[n]
    if !e.credit h then none
    else
      let chk : Except FaultC (Nat × Option PaTok) := do
        let (va, pa) ← addrOf a x
        h.only2 accUpd va
        h.check va 128 1
        return (va, pa)
      match chk with
      | .error f => some (e.memFault m h x.eff none f)
      | .ok (va, pa) => some ⟨x.eff ++ [.req (e.req m h .reclaim accUpd va pa 0 0 .none)], none⟩
def execReclaim (m : MHdr) (h : Fin 16) (a : Opd) (s : State) : Host.Outcome State Fault Refusal := runRule m.hdr (ruleReclaim m h a) s

/-- `settle hN` (R272). -/
def ruleSettle (m : MHdr) (n : Fin 16) (e : Env) : Option Fire :=
  let h := e.pre.h[n]
  if !e.credit h then none
  else match h.only2 accUpd 0 with
    | .error f => some (e.memFault m h [] none f)
    | .ok _ => some ⟨[.req (e.req m h .settle accUpd 0 none 0 0 .none)], none⟩
def execSettle (m : MHdr) (h : Fin 16) (s : State) : Host.Outcome State Fault Refusal := runRule m.hdr (ruleSettle m h) s

/-- A hint over n lines: it never faults; where the handle has no domain it does nothing (R280). -/
def lineRule (op : Nat → ReqOp) (r : MLine) (e : Env) : Option Fire :=
  match e.read r.a with
  | none => none
  | some x =>
    let h := e.pre.h[r.h]
    if !e.credit h then none
    else if !h.ordered then some ⟨x.eff, none⟩
    else
      let va := lane64 x.vreg 0
      let pa := match addrOf r.a x with | .ok (_, p) => p | .error _ => none
      some ⟨x.eff ++ [.req (e.req r.m h (op (r.n1.toNat + 1)) accLoad va pa 0 0 .none)], none⟩

/-- `pref n, hN, a`. -/
def rulePref (r : MLine) (e : Env) : Option Fire := lineRule .pref r e
def execPref (r : MLine) (s : State) : Host.Outcome State Fault Refusal := runRule r.m.hdr (rulePref r) s

/-- `disc n, hN, a`. -/
def ruleDisc (r : MLine) (e : Env) : Option Fire := lineRule .disc r e
def execDisc (r : MLine) (s : State) : Host.Outcome State Fault Refusal := runRule r.m.hdr (ruleDisc r) s

/-- `mnop hN` (R232, R280). -/
def ruleMnop (m : MHdr) (n : Fin 16) (e : Env) : Option Fire :=
  let h := e.pre.h[n]
  if !e.credit h then none
  else some ⟨e.placeholder m h, none⟩
def execMnop (m : MHdr) (h : Fin 16) (s : State) : Host.Outcome State Fault Refusal := runRule m.hdr (ruleMnop m h) s

/-! ### Copies (R278, R279) -/

/-- The lanes of a descriptor as 32-bit pairs. -/
def lo32 (x : Nat) : Nat := x % 2 ^ 32
def hi32 (x : Nat) : Nat := x / 2 ^ 32 % 2 ^ 32
def s32 (x : Nat) : Int := (BitVec.ofNat 32 x).toInt

/-- A descriptor: DST, SRC, L0, CH, and the dimensions beyond the run. -/
structure CopyDesc where
  dst  : Int
  src  : Int
  l0   : Nat
  ch   : Nat
  dims : List (Nat × Int × Int)
  deriving DecidableEq, Repr

/-- Reserved fields, ND and Nk (INFO 2). -/
def copyDesc (lanes : List Nat) (ndMax : Nat) : Except FaultC CopyDesc :=
  let l (i : Nat) : Nat := lanes.getD i 0
  let nd := l 3 % 16
  let bad : FaultC := boundsAt 2 0
  if l 2 / 2 ^ 38 ≠ 0 ∨ l 3 / 16 ≠ 0 ∨ nd = 0 ∨ ndMax < nd then .error bad
  else
    let ks := List.range (nd - 1)
    if ks.any (fun k => hi32 (l (2 * k + 4)) != 0 || lo32 (l (2 * k + 4)) == 0) then .error bad
    else .ok ⟨l 0, l 1, lo32 (l 2), l 2 / 2 ^ 32 % 32,
      ks.map fun k => (lo32 (l (2 * k + 4)), s32 (l (2 * k + 5)), s32 (hi32 (l (2 * k + 5))))⟩

/-- The byte extent of one side: least address and the one past the greatest. -/
def copyExtent (a : Int) (l0 : Nat) (dims : List (Nat × Int)) : Int × Int :=
  let lo := dims.foldl (fun x (n, s) => if s < 0 then x + ((n : Int) - 1) * s else x) a
  let hi := dims.foldl (fun x (n, s) => if 0 < s then x + ((n : Int) - 1) * s else x) a
  (lo, hi + l0)

def HEntry.holds (h : HEntry) (x : Int × Int) : Bool :=
  decide ((h.base.toNat : Int) ≤ x.1) && decide (x.2 ≤ (h.base.toNat + h.size.toNat : Nat)) &&
    !((h.space == .dev || h.space == .peer) && decide ((2 ^ 55 : Nat) < x.2))

/-- The checks of R279 in their order. -/
def copyChecks (t : Station) (hd hs : HEntry) (c : CopyDesc) : Except FaultC Unit :=
  let es := copyExtent c.src c.l0 (c.dims.map fun x => (x.1, x.2.1))
  let ed := copyExtent c.dst c.l0 (c.dims.map fun x => (x.1, x.2.2))
  if c.l0 ≠ 0 ∧ !(hs.holds es && hd.holds ed) then .error (boundsAt 0 0)
  else if c.l0 ≠ 0 ∧ hd.space = hs.space ∧ hd.peer = hs.peer ∧ es.1 < ed.2 ∧ ed.1 < es.2 then .error (boundsAt 3 0)
  else if h : c.ch < 16 then (if t.h[c.ch].kind = .ring then .ok () else .error (boundsAt 4 0))
  else if c.ch = 31 then .ok ()
  else .error (boundsAt 4 0)

/-- The handle whose port runs a copy: the destination's, or the source's when the destination has none (R279). -/
def copyHandle (hd hs : HEntry) : HEntry := if hd.port = 127 then hs else hd

/-- A copy rule over the vectors of its descriptor. -/
def copyRule (r : MCopy) (ndMax : Nat) (vs : List VReg) (eff : List Effect) (e : Env) : Option Fire :=
  let hd := e.pre.h[r.dst]
  let hs := e.pre.h[r.src]
  let h := copyHandle hd hs
  if !(decide (e.live.credits < 8) && decide (e.live.copies < 128)) then none
  else
    let chk : Except FaultC CopyDesc := do
      vs.forM (need 43)
      let c ← copyDesc (vs.flatMap fun v => (List.range 8).map (lane64 v)) ndMax
      copyChecks e.pre hd hs c
      return c
    match chk with
    | .error f => some (e.memFault r.m h eff none f)
    | .ok c =>
      if e.ctx.running.isSome && hd.space != .dev then some (e.taskFault r.m h eff c.dst.toNat)
      else
        let id := e.s.nextId + 1
        let q := e.req r.m h (.copy id) accCopy c.dst.toNat none 0 0 .none
        let k : Copy :=
          { id := id, req := q.id, voy := q.voy, reg := q.reg, st := q.st, ctx := q.ctx, slot := q.slot, time := q.time, src := ⟨hs, c.src⟩, dst := ⟨hd, c.dst⟩,
            l0 := c.l0, dims := c.dims, ch := if h : c.ch < 16 then some ⟨c.ch, h⟩ else none, pos := 0, run := false, wait := none,
            held := 0, asid := q.asid, slack := q.slack, task := q.task, stamp := q.stamp }
        some ⟨eff ++ [.req q, .copy k], none⟩

/-- `cpy hD, hS, q`. -/
def ruleCpy (r : MCopy) (e : Env) : Option Fire :=
  match e.read r.q with
  | none => none
  | some x => copyRule r 3 [x.vreg] x.eff e
def execCpy (r : MCopy) (s : State) : Host.Outcome State Fault Refusal := runRule r.m.hdr (ruleCpy r) s

/-- `cpyw hD, hS, vB`: the group vB to vB+3 is read whole (R112). -/
def ruleCpyw (r : MCopy) (e : Env) : Option Fire :=
  match r.q with
  | .v n =>
    let g : List (Fin 8) := [n, n + 1, n + 2, n + 3]
    if g.any (fun k => e.pending (.v k)) then none else copyRule r 12 (g.map fun k => e.pre.v[k]) [] e
  | _ => none
def execCpyw (r : MCopy) (s : State) : Host.Outcome State Fault Refusal := runRule r.m.hdr (ruleCpyw r) s

/-! ### Fences (R282) -/

/-- A hold on the later rules of its context until it completes. -/
def Env.hold (e : Env) (k : HoldKind) (s : Scope) : Hold := ⟨k, s, e.s.time, e.slot⟩

/-- `fence s`. -/
def ruleFence (s : Scope) (e : Env) : Option Fire := some ⟨[.hold (e.hold .fence s)], none⟩
def execFence (m : MHdr) (sc : Scope) (s : State) : Host.Outcome State Fault Refusal := runRule m.hdr (ruleFence sc) s

/-- `acq s`. -/
def ruleAcq (s : Scope) (e : Env) : Option Fire := some ⟨[.hold (e.hold .acq s)], none⟩
def execAcq (m : MHdr) (sc : Scope) (s : State) : Host.Outcome State Fault Refusal := runRule m.hdr (ruleAcq sc) s

/-- `rel s`. -/
def ruleRel (s : Scope) (e : Env) : Option Fire := some ⟨[.hold (e.hold .rel s)], none⟩
def execRel (m : MHdr) (sc : Scope) (s : State) : Host.Outcome State Fault Refusal := runRule m.hdr (ruleRel sc) s

end Sys2Proof.Machine
end

