-- ==== Sys2Proof/Machine/Pred.lean ====
section
/-! DEFINITION. Compare and predicate rules (Table 7.4, R174). -/

namespace Sys2Proof.Machine

open Sys2Proof

/-- `pN, A, B`: a predicate computed from two scalars. A predicate written is no output: a bounds fault of a plain handle goes to the fault queue. -/
def rcmp (f : Word → Word → Bool) (r : RCmp) (e : Env) : Option Fire :=
  match e.readB r.a r.b with
  | none => none
  | some (x, y, eff) =>
    if x.bad || y.bad then some (e.fault 1 eff none bounds) else some ⟨eff ++ [.setP r.n (f x.word y.word)], none⟩

/-- `pN, pA, pB`. -/
def pbin (f : Bool → Bool → Bool) (r : PBin) (e : Env) : Option Fire := some ⟨[.setP r.n (f (e.pre.pred r.a) (e.pre.pred r.b))], none⟩

/-- `pN, pA`. -/
def pun (f : Bool → Bool) (r : PUn) (e : Env) : Option Fire := some ⟨[.setP r.n (f (e.pre.pred r.a))], none⟩

/-- `ceq pN, A, B`: a = b (R174). -/
def ruleCeq (r : RCmp) (e : Env) : Option Fire := rcmp cmpEq r e
def execCeq (r : RCmp) (s : State) : Host.Outcome State Fault Refusal := runRule r.hdr (ruleCeq r) s

/-- `cne pN, A, B`: a ≠ b (R174). -/
def ruleCne (r : RCmp) (e : Env) : Option Fire := rcmp cmpNe r e
def execCne (r : RCmp) (s : State) : Host.Outcome State Fault Refusal := runRule r.hdr (ruleCne r) s

/-- `clt pN, A, B`: a < b, signed (R174). -/
def ruleClt (r : RCmp) (e : Env) : Option Fire := rcmp cmpLt r e
def execClt (r : RCmp) (s : State) : Host.Outcome State Fault Refusal := runRule r.hdr (ruleClt r) s

/-- `cle pN, A, B`: a ≤ b, signed (R174). -/
def ruleCle (r : RCmp) (e : Env) : Option Fire := rcmp cmpLe r e
def execCle (r : RCmp) (s : State) : Host.Outcome State Fault Refusal := runRule r.hdr (ruleCle r) s

/-- `cltn pN, A, B`: a < b, unsigned (R174). -/
def ruleCltn (r : RCmp) (e : Env) : Option Fire := rcmp cmpLtn r e
def execCltn (r : RCmp) (s : State) : Host.Outcome State Fault Refusal := runRule r.hdr (ruleCltn r) s

/-- `clen pN, A, B`: a ≤ b, unsigned (R174). -/
def ruleClen (r : RCmp) (e : Env) : Option Fire := rcmp cmpLen r e
def execClen (r : RCmp) (s : State) : Host.Outcome State Fault Refusal := runRule r.hdr (ruleClen r) s

/-- `cbit pN, A, B`: bit (b & 63) of a (R174). -/
def ruleCbit (r : RCmp) (e : Env) : Option Fire := rcmp cmpBit r e
def execCbit (r : RCmp) (s : State) : Host.Outcome State Fault Refusal := runRule r.hdr (ruleCbit r) s

/-- `ctst pN, A, B`: (a & b) ≠ 0 (R174). -/
def ruleCtst (r : RCmp) (e : Env) : Option Fire := rcmp cmpTst r e
def execCtst (r : RCmp) (s : State) : Host.Outcome State Fault Refusal := runRule r.hdr (ruleCtst r) s

/-- `pand pN, pA, pB`: pA and pB (R174). -/
def rulePand (r : PBin) (e : Env) : Option Fire := pbin (fun a b => a && b) r e
def execPand (r : PBin) (s : State) : Host.Outcome State Fault Refusal := runRule r.hdr (rulePand r) s

/-- `por pN, pA, pB`: pA or pB (R174). -/
def rulePor (r : PBin) (e : Env) : Option Fire := pbin (fun a b => a || b) r e
def execPor (r : PBin) (s : State) : Host.Outcome State Fault Refusal := runRule r.hdr (rulePor r) s

/-- `pxor pN, pA, pB`: pA xor pB (R174). -/
def rulePxor (r : PBin) (e : Env) : Option Fire := pbin (fun a b => a != b) r e
def execPxor (r : PBin) (s : State) : Host.Outcome State Fault Refusal := runRule r.hdr (rulePxor r) s

/-- `pandn pN, pA, pB`: pA and not pB (R174). -/
def rulePandn (r : PBin) (e : Env) : Option Fire := pbin (fun a b => a && !b) r e
def execPandn (r : PBin) (s : State) : Host.Outcome State Fault Refusal := runRule r.hdr (rulePandn r) s

/-- `pnot pN, pA`: not pA (R174). -/
def rulePnot (r : PUn) (e : Env) : Option Fire := pun (fun a => !a) r e
def execPnot (r : PUn) (s : State) : Host.Outcome State Fault Refusal := runRule r.hdr (rulePnot r) s

/-- `pmov pN, pA`: pA (R174). -/
def rulePmov (r : PUn) (e : Env) : Option Fire := pun (fun a => a) r e
def execPmov (r : PUn) (s : State) : Host.Outcome State Fault Refusal := runRule r.hdr (rulePmov r) s

/-- `pset pN` (R174). -/
def rulePset (n : Fin 8) (_ : Env) : Option Fire := some ⟨[.setP n true], none⟩
def execPset (hdr : Hdr) (n : Fin 8) (s : State) : Host.Outcome State Fault Refusal := runRule hdr (rulePset n) s

/-- `pclr pN` (R174). -/
def rulePclr (n : Fin 8) (_ : Env) : Option Fire := some ⟨[.setP n false], none⟩
def execPclr (hdr : Hdr) (n : Fin 8) (s : State) : Host.Outcome State Fault Refusal := runRule hdr (rulePclr n) s

end Sys2Proof.Machine
end

