-- ==== Sys2Proof/Machine/Scalar.lean ====
section
/-! DEFINITION. Scalar integer rules (Tables 7.2 and 7.3, R171-R173). -/

namespace Sys2Proof.Machine

open Sys2Proof

/-! ### Results of Table 7.3 -/

def aluMulh (a b : Word) : Word := BitVec.ofInt 64 (a.toInt * b.toInt / 2 ^ 64)
def aluMulhn (a b : Word) : Word := BitVec.ofNat 64 (a.toNat * b.toNat / 2 ^ 64)
/-- Signed quotient toward zero; all ones on division by zero; -2^63 / -1 gives -2^63. -/
def aluDiv (a b : Word) : Word := if b = 0 then BitVec.allOnes 64 else BitVec.ofInt 64 (a.toInt.tdiv b.toInt)
def aluDivn (a b : Word) : Word := if b = 0 then BitVec.allOnes 64 else BitVec.ofNat 64 (a.toNat / b.toNat)
/-- Signed remainder with the sign of a; a on division by zero. -/
def aluRem (a b : Word) : Word := if b = 0 then a else BitVec.ofInt 64 (a.toInt.tmod b.toInt)
def aluRemn (a b : Word) : Word := if b = 0 then a else BitVec.ofNat 64 (a.toNat % b.toNat)
def aluMin (a b : Word) : Word := if a.toInt ≤ b.toInt then a else b
def aluMax (a b : Word) : Word := if a.toInt ≤ b.toInt then b else a
def aluMinn (a b : Word) : Word := if a.toNat ≤ b.toNat then a else b
def aluMaxn (a b : Word) : Word := if a.toNat ≤ b.toNat then b else a
def aluShl (a b : Word) : Word := a <<< (b.toNat % 64)
def aluShr (a b : Word) : Word := a >>> (b.toNat % 64)
def aluSra (a b : Word) : Word := a.sshiftRight (b.toNat % 64)
def aluRol (a b : Word) : Word := a.rotateLeft (b.toNat % 64)
/-- Leading zeros, 64 for zero. -/
def aluClz (a : Word) : Word := if a = 0 then 64 else BitVec.ofNat 64 (63 - a.toNat.log2)
/-- Trailing zeros, 64 for zero. -/
def aluCtz (a : Word) : Word := BitVec.ofNat 64 (((List.range 64).find? (fun i => a.getLsbD i)).getD 64)
def aluPopc (a : Word) : Word := BitVec.ofNat 64 ((List.range 64).countP (fun i => a.getLsbD i))
/-- The mask of a field: len ones. -/
def fieldMask (len : Nat) : Word := BitVec.ofNat 64 (2 ^ len - 1)
def aluExtn (a : Word) (pos len : Nat) : Word := (a >>> pos) &&& fieldMask len
/-- The field sign-extended from bit len - 1. -/
def aluExt (a : Word) (pos len : Nat) : Word :=
  let f := aluExtn a pos len
  if f.getLsbD (len - 1) then f ||| ~~~(fieldMask len) else f
def aluIns (d a : Word) (pos len : Nat) : Word :=
  let m := fieldMask len <<< pos
  (d &&& ~~~m) ||| ((a <<< pos) &&& m)

/-! ### Rules of the three shapes -/

/-- `D, A, B` with a result of some latency, and unit occupancy beyond the firing cycle. -/
def rbin (lat : Nat) (busy : List Effect) (f : Word → Word → Word) (r : RBin) (e : Env) : Option Fire :=
  match e.readB r.a r.b with
  | none => none
  | some (x, y, eff) => e.scalar lat (x.bad || y.bad) (eff ++ busy) r.d (f x.word y.word)

/-- `D, A`. -/
def run1 (f : Word → Word) (r : RUn) (e : Env) : Option Fire :=
  match e.read r.a with
  | none => none
  | some x => e.scalar 1 x.bad x.eff r.d (f x.word)

/-- `D, A, pos, len`. -/
def rfield (f : Word → Nat → Nat → Word) (r : RField) (e : Env) : Option Fire :=
  match e.read r.a with
  | none => none
  | some x => e.scalar 1 x.bad x.eff r.d (f x.word r.pos.toNat (r.len1.toNat + 1))

/-- The `div` family keeps its ALU busy for 20 cycles (Table 7.2). -/
def divBusy : List Effect := [.busy .alu 20]

/-- `add D, A, B`: a + b modulo 2^64 (R171). -/
def ruleAdd (r : RBin) (e : Env) : Option Fire := rbin 1 [] (fun a b => a + b) r e
def execAdd (r : RBin) (s : State) : Host.Outcome State Fault Refusal := runRule r.hdr (ruleAdd r) s

/-- `sub D, A, B`: a - b modulo 2^64 (R171). -/
def ruleSub (r : RBin) (e : Env) : Option Fire := rbin 1 [] (fun a b => a - b) r e
def execSub (r : RBin) (s : State) : Host.Outcome State Fault Refusal := runRule r.hdr (ruleSub r) s

/-- `mul D, A, B`: the low 64 bits of a × b (R171). -/
def ruleMul (r : RBin) (e : Env) : Option Fire := rbin 3 [] (fun a b => a * b) r e
def execMul (r : RBin) (s : State) : Host.Outcome State Fault Refusal := runRule r.hdr (ruleMul r) s

/-- `mulh D, A, B`: the high 64 bits of the signed product (R171). -/
def ruleMulh (r : RBin) (e : Env) : Option Fire := rbin 3 [] aluMulh r e
def execMulh (r : RBin) (s : State) : Host.Outcome State Fault Refusal := runRule r.hdr (ruleMulh r) s

/-- `mulhn D, A, B`: the high 64 bits of the unsigned product (R171). -/
def ruleMulhn (r : RBin) (e : Env) : Option Fire := rbin 3 [] aluMulhn r e
def execMulhn (r : RBin) (s : State) : Host.Outcome State Fault Refusal := runRule r.hdr (ruleMulhn r) s

/-- `div D, A, B`: the signed quotient (R171). -/
def ruleDiv (r : RBin) (e : Env) : Option Fire := rbin 20 divBusy aluDiv r e
def execDiv (r : RBin) (s : State) : Host.Outcome State Fault Refusal := runRule r.hdr (ruleDiv r) s

/-- `divn D, A, B`: the unsigned quotient (R171). -/
def ruleDivn (r : RBin) (e : Env) : Option Fire := rbin 20 divBusy aluDivn r e
def execDivn (r : RBin) (s : State) : Host.Outcome State Fault Refusal := runRule r.hdr (ruleDivn r) s

/-- `rem D, A, B`: the signed remainder (R171). -/
def ruleRem (r : RBin) (e : Env) : Option Fire := rbin 20 divBusy aluRem r e
def execRem (r : RBin) (s : State) : Host.Outcome State Fault Refusal := runRule r.hdr (ruleRem r) s

/-- `remn D, A, B`: the unsigned remainder (R171). -/
def ruleRemn (r : RBin) (e : Env) : Option Fire := rbin 20 divBusy aluRemn r e
def execRemn (r : RBin) (s : State) : Host.Outcome State Fault Refusal := runRule r.hdr (ruleRemn r) s

/-- `min D, A, B`: the signed minimum (R171). -/
def ruleMin (r : RBin) (e : Env) : Option Fire := rbin 1 [] aluMin r e
def execMin (r : RBin) (s : State) : Host.Outcome State Fault Refusal := runRule r.hdr (ruleMin r) s

/-- `max D, A, B`: the signed maximum (R171). -/
def ruleMax (r : RBin) (e : Env) : Option Fire := rbin 1 [] aluMax r e
def execMax (r : RBin) (s : State) : Host.Outcome State Fault Refusal := runRule r.hdr (ruleMax r) s

/-- `minn D, A, B`: the unsigned minimum (R171). -/
def ruleMinn (r : RBin) (e : Env) : Option Fire := rbin 1 [] aluMinn r e
def execMinn (r : RBin) (s : State) : Host.Outcome State Fault Refusal := runRule r.hdr (ruleMinn r) s

/-- `maxn D, A, B`: the unsigned maximum (R171). -/
def ruleMaxn (r : RBin) (e : Env) : Option Fire := rbin 1 [] aluMaxn r e
def execMaxn (r : RBin) (s : State) : Host.Outcome State Fault Refusal := runRule r.hdr (ruleMaxn r) s

/-- `and D, A, B`: a & b (R171). -/
def ruleAnd (r : RBin) (e : Env) : Option Fire := rbin 1 [] (fun a b => a &&& b) r e
def execAnd (r : RBin) (s : State) : Host.Outcome State Fault Refusal := runRule r.hdr (ruleAnd r) s

/-- `or D, A, B`: a | b (R171). -/
def ruleOr (r : RBin) (e : Env) : Option Fire := rbin 1 [] (fun a b => a ||| b) r e
def execOr (r : RBin) (s : State) : Host.Outcome State Fault Refusal := runRule r.hdr (ruleOr r) s

/-- `xor D, A, B`: a ^ b (R171). -/
def ruleXor (r : RBin) (e : Env) : Option Fire := rbin 1 [] (fun a b => a ^^^ b) r e
def execXor (r : RBin) (s : State) : Host.Outcome State Fault Refusal := runRule r.hdr (ruleXor r) s

/-- `andn D, A, B`: a & ~b (R171). -/
def ruleAndn (r : RBin) (e : Env) : Option Fire := rbin 1 [] (fun a b => a &&& ~~~b) r e
def execAndn (r : RBin) (s : State) : Host.Outcome State Fault Refusal := runRule r.hdr (ruleAndn r) s

/-- `orn D, A, B`: a | ~b (R171). -/
def ruleOrn (r : RBin) (e : Env) : Option Fire := rbin 1 [] (fun a b => a ||| ~~~b) r e
def execOrn (r : RBin) (s : State) : Host.Outcome State Fault Refusal := runRule r.hdr (ruleOrn r) s

/-- `shl D, A, B`: a << (b & 63) (R171). -/
def ruleShl (r : RBin) (e : Env) : Option Fire := rbin 1 [] aluShl r e
def execShl (r : RBin) (s : State) : Host.Outcome State Fault Refusal := runRule r.hdr (ruleShl r) s

/-- `shr D, A, B`: logical a >> (b & 63) (R171). -/
def ruleShr (r : RBin) (e : Env) : Option Fire := rbin 1 [] aluShr r e
def execShr (r : RBin) (s : State) : Host.Outcome State Fault Refusal := runRule r.hdr (ruleShr r) s

/-- `sra D, A, B`: arithmetic a >> (b & 63) (R171). -/
def ruleSra (r : RBin) (e : Env) : Option Fire := rbin 1 [] aluSra r e
def execSra (r : RBin) (s : State) : Host.Outcome State Fault Refusal := runRule r.hdr (ruleSra r) s

/-- `rol D, A, B`: a rotated left by b & 63 (R171). -/
def ruleRol (r : RBin) (e : Env) : Option Fire := rbin 1 [] aluRol r e
def execRol (r : RBin) (s : State) : Host.Outcome State Fault Refusal := runRule r.hdr (ruleRol r) s

/-- `clz D, A`: leading zeros of a (R171). -/
def ruleClz (r : RUn) (e : Env) : Option Fire := run1 aluClz r e
def execClz (r : RUn) (s : State) : Host.Outcome State Fault Refusal := runRule r.hdr (ruleClz r) s

/-- `ctz D, A`: trailing zeros of a (R171). -/
def ruleCtz (r : RUn) (e : Env) : Option Fire := run1 aluCtz r e
def execCtz (r : RUn) (s : State) : Host.Outcome State Fault Refusal := runRule r.hdr (ruleCtz r) s

/-- `popc D, A`: number of ones in a (R171). -/
def rulePopc (r : RUn) (e : Env) : Option Fire := run1 aluPopc r e
def execPopc (r : RUn) (s : State) : Host.Outcome State Fault Refusal := runRule r.hdr (rulePopc r) s

/-- `sel D, A, B, pN`: a if pN was set at the start of the cycle, else b (R172). -/
def ruleSel (r : RBin) (p : Fin 8) (e : Env) : Option Fire :=
  if e.pre.pred p then rbin 1 [] (fun a _ => a) r e else rbin 1 [] (fun _ b => b) r e
def execSel (r : RBin) (p : Fin 8) (s : State) : Host.Outcome State Fault Refusal := runRule r.hdr (ruleSel r p) s

/-- `mov D, A`: a (R171). -/
def ruleMov (r : RUn) (e : Env) : Option Fire := run1 (fun a => a) r e
def execMov (r : RUn) (s : State) : Host.Outcome State Fault Refusal := runRule r.hdr (ruleMov r) s

/-- `movi D, imm`: sext(IMM19) (R172). -/
def ruleMovi (d : Opd) (imm : BitVec 19) (e : Env) : Option Fire := e.scalar 1 false [] d (imm.signExtend 64)
def execMovi (hdr : Hdr) (d : Opd) (imm : BitVec 19) (s : State) : Host.Outcome State Fault Refusal := runRule hdr (ruleMovi d imm) s

/-- `movhi D, A, imm`: (a << 19) + sext(IMM19) (R172). -/
def ruleMovhi (r : RUn) (imm : BitVec 19) (e : Env) : Option Fire := run1 (fun a => (a <<< 19) + imm.signExtend 64) r e
def execMovhi (r : RUn) (imm : BitVec 19) (s : State) : Host.Outcome State Fault Refusal := runRule r.hdr (ruleMovhi r imm) s

/-- `ext D, A, pos, len`: a bit field, sign-extended (R172). -/
def ruleExt (r : RField) (e : Env) : Option Fire := rfield aluExt r e
def execExt (r : RField) (s : State) : Host.Outcome State Fault Refusal := runRule r.hdr (ruleExt r) s

/-- `extn D, A, pos, len`: a bit field, zero-extended (R172). -/
def ruleExtn (r : RField) (e : Env) : Option Fire := rfield aluExtn r e
def execExtn (r : RField) (s : State) : Host.Outcome State Fault Refusal := runRule r.hdr (ruleExtn r) s

/-- `ins D, A, pos, len`: the destination register with a field replaced by the low bits of a (R172). -/
def ruleIns (r : RField) (e : Env) : Option Fire :=
  match r.d with
  | .d n => rfield (aluIns e.pre.d[n]) r e
  | _ => none
def execIns (r : RField) (s : State) : Host.Outcome State Fault Refusal := runRule r.hdr (ruleIns r) s

end Sys2Proof.Machine
end

