-- ==== Sys2Proof/Machine/Reply.lean ====
section
/-! DEFINITION. How a result owed by the memory system or the tree engine lands (R165, R268). -/

namespace Sys2Proof.Machine

open Sys2Proof

/-- The token that a result becomes on an output. -/
def Reply.token (r : Reply) (sl : Slack) : Option Token := match r with | .ok v => some (Token.vec v sl) | .fault t => some t | .silent => none

/-- A result lands in its destination; its counter has counted on its way (R56, log 96). -/
def State.land (w : Who) (s : State) (d : Dest) (sl : Slack) (r : Reply) : State :=
  let un : List Effect := match d with | .d n => [.unpend (.d n)] | .v n => [.unpend (.v n)] | _ => []
  match r with
  | .ok v =>
    match d with
    | .none => s
    | .d n => s.applyAll w ([.setD n (v.data.setWidth 64)] ++ un)
    | .v n => s.applyAll w ([.setV n v] ++ un)
    | .out o id => s.modFirstHop w.st o (·.fill id (Token.vec v sl))
  | .fault t =>
    match d with
    | .out o id => s.modFirstHop w.st o (·.fill id t)
    | _ => s.applyAll w (un ++ [.faultq t])
  | .silent => s.applyAll w un

/-- A reply as it arrives: a fault token has the counter of the reply (R52, R53). -/
def Reply.aged (r : Reply) (sl : Slack) : Reply := match r with | .fault t => .fault { t with bg := sl.bg, slack := sl.n } | r => r

/-- A result that its unit emits as it lands: a token emitted overdue counts (R56). -/
def State.landNew (w : Who) (s : State) (d : Dest) (sl : Slack) (r : Reply) : State :=
  let s := s.land w d sl r
  match d, r.token sl with
  | .out .., some t => if t.overdue then s.countOverdue w.st else s
  | _, _ => s

/-- The same for a fault: its token carries the station, context and slot that fired. -/
def State.landFault (w : Who) (s : State) (d : Dest) (sl : Slack) (f : FaultC) : State :=
  match s.station? w.st with
  | none => s
  | some t => s.landNew w d sl (.fault (faultToken t w.ctx w.slot sl f))

end Sys2Proof.Machine
end

