-- ==== Sys2Proof/Machine/SyncRules.lean ====
section
/-! DEFINITION. Synchronisation and task rules (Table 11.8, R286-R291). -/

namespace Sys2Proof.Machine

open Sys2Proof

/-- The scope instance of a station: its quad, die, package or pod (R287). -/
def scopeInst (sc : Scope) (i : StId) : Nat :=
  match sc with
  | .quad => (i.die * 64 + i.x / 2) * 64 + i.y / 2
  | .die => i.die
  | _ => 0

def Env.barKey (e : Env) (sc : Scope) (id : BitVec 6) : BarKey := ⟨e.pre.voy, sc, scopeInst sc e.f.st, id⟩

/-- `left` of a message that has not left its station (R289). -/
def barHeld : Nat := 2 ^ 16

/-- A message to a barrier entry. -/
def Env.barMsg (e : Env) (sc : Scope) (id : BitVec 6) (op : BarOp) : BarMsg :=
  ⟨e.barKey sc id, op, e.f.st, e.f.ctx, e.slot, e.s.time, e.sl, barHeld, none⟩

/-- PH of an entry: 0 at launch (R287). -/
def State.phase (s : State) (k : BarKey) : BitVec 32 :=
  match s.bars.find? (fun b => b.key == k) with | some b => b.ph | none => 0

/-- `bar s, id, n`. -/
def ruleBar (r : SBar) (e : Env) : Option Fire :=
  match e.readOne r.n with
  | none => none
  | some x => some ⟨x.eff ++ [.bar (e.barMsg r.scope r.id (.arrive x.word.toNat))], none⟩
def execBar (r : SBar) (s : State) : Host.Outcome State Fault Refusal := runRule r.hdr (ruleBar r) s

/-- `bars s, id, n, hK`: the handle swaps when the phase completes. -/
def ruleBars (r : SBar) (e : Env) : Option Fire :=
  match e.readOne r.n with
  | none => none
  | some x => some ⟨x.eff ++ [.bar (e.barMsg r.scope r.id (.arriveSwap x.word.toNat r.h))], none⟩
def execBars (r : SBar) (s : State) : Host.Outcome State Fault Refusal := runRule r.hdr (ruleBars r) s

/-- Whether `barw` may fire on an arrival record (R289). -/
def ArrRec.passed (a : ArrRec) (ph : BitVec 32) : Bool :=
  !a.pending && match a.ph with | none => true | some n => decide (n.toNat < ph.toNat)

/-- `barw D, s, id`: PH of the next phase; it acts as `acq s` (R289). -/
def ruleBarw (d : Opd) (sc : Scope) (id : BitVec 6) (e : Env) : Option Fire :=
  let k := e.barKey sc id
  let ph := e.s.phase k
  let ok := match e.ctx.arrs.find? (fun a => a.key == k) with | none => true | some a => a.passed ph
  if ok then e.scalar 1 false [.hold (e.hold .acq sc)] d (ph.setWidth 64) else none
def execBarw (hdr : Hdr) (d : Opd) (sc : Scope) (id : BitVec 6) (s : State) : Host.Outcome State Fault Refusal :=
  runRule hdr (ruleBarw d sc id) s

/-- `bard s, id`. -/
def ruleBard (sc : Scope) (id : BitVec 6) (e : Env) : Option Fire := some ⟨[.bar (e.barMsg sc id .drop)], none⟩
def execBard (hdr : Hdr) (sc : Scope) (id : BitVec 6) (s : State) : Host.Outcome State Fault Refusal := runRule hdr (ruleBard sc id) s

/-- The fields of a request outside every chain. -/
def loneHdr (h : Hdr) : MHdr := ⟨h, 0, 0x7F, 0, 0x7F⟩

/-- A monitor (R290): at most 8 are armed at a station. -/
def monRule (op : ReqOp) (d : Opd) (n : Fin 16) (a : Opd) (e : Env) : Option Fire :=
  match e.read a with
  | none => none
  | some x =>
    let h := e.pre.h[n]
    if !(decide (e.live.mons < 8) && e.destReady d) then none
    else
      let chk : Except FaultC (Nat × Option PaTok) := do
        let (va, pa) ← addrOf a x
        h.only2 accLoad va
        h.check va 8 8
        return (va, pa)
      match chk with
      | .error f => some (e.fault 1 x.eff (Opd.out? d) f)
      | .ok (va, pa) =>
        let (eff, dest) := e.owed d
        some ⟨x.eff ++ eff ++ [.req { e.req (loneHdr e.hdr) h op accLoad va pa 0 0 dest with credit := false }], none⟩

/-- `monw D, hN, a`. -/
def ruleMonw (d : Opd) (n : Fin 16) (a : Opd) (e : Env) : Option Fire := monRule .monw d n a e
def execMonw (hdr : Hdr) (d : Opd) (h : Fin 16) (a : Opd) (s : State) : Host.Outcome State Fault Refusal := runRule hdr (ruleMonw d h a) s

/-- `monc dK, hN, a`: dK as it stood at the start of the cycle. -/
def ruleMonc (d : Fin 8) (n : Fin 16) (a : Opd) (e : Env) : Option Fire := monRule (.monc e.pre.d[d]) (.d d) n a e
def execMonc (hdr : Hdr) (d : Fin 8) (h : Fin 16) (a : Opd) (s : State) : Host.Outcome State Fault Refusal := runRule hdr (ruleMonc d h a) s

/-- Entries that a sequencer holds. -/
def State.sequenced (s : State) (die : Nat) : Nat := (s.tasks.filter (fun t => t.die == die)).length

/-- Whether some station of the die hosts a handler of the voyage (R291). -/
def State.hosts (s : State) (voy die n : Nat) : Bool :=
  s.stations.any fun t => t.voy == voy && t.id.die == die && t.handler.any (fun p => p.2 == n)

/-- `tspawn n, ts, args`: not ready while the sequencer's 4,096 entries are taken (R62). -/
def ruleTspawn (n : BitVec 6) (ts args : Opd) (e : Env) : Option Fire :=
  match e.read2 ts args with
  | none => none
  | some (x, y, eff) =>
    if 4096 ≤ e.s.sequenced e.f.st.die then none
    else if x.bad || y.bad then some (e.fault 1 eff none bounds)
    else if !e.s.hosts e.pre.voy e.f.st.die n.toNat then some (e.fault 1 eff none ⟨fcBounds, n.toNat, 0⟩)
    else some ⟨eff ++ [.spawn (x.word.setWidth 32) n.toNat y.vreg], none⟩
def execTspawn (hdr : Hdr) (n : BitVec 6) (ts args : Opd) (s : State) : Host.Outcome State Fault Refusal := runRule hdr (ruleTspawn n ts args) s

/-- `tdone` (R291). -/
def ruleTdone (_ : Env) : Option Fire := some ⟨[.taskDone], none⟩
def execTdone (hdr : Hdr) (s : State) : Host.Outcome State Fault Refusal := runRule hdr ruleTdone s

end Sys2Proof.Machine
end

