-- ==== Sys2Proof/Machine/Tree.lean ====
section
/-! DEFINITION. Summary trees: parameters, records, and what the writers compute (R362-R377, R383, R390-R396, R405, R406).
A writer reads what it needs through requests (R390), computes its whole result, and writes it at the end. -/

namespace Sys2Proof.Machine

open Sys2Proof

/-! ### Parameters (Tables 17.1, 18.2) -/

structure TPar where
  b : Nat
  d : Nat
  f : Int
  fmt : Tag
  tau : Nat
  budget : Nat
  sigma : Nat
  deriving DecidableEq, Repr

/-- The record, if every field is in its range and every reserved bit is 0 (R391). -/
def tparOf (v : V512) : Option TPar :=
  let w0 := laneAt v.toNat 64 0
  let w1 := laneAt v.toNat 64 1
  let p : TPar := ⟨fld w0 0 8, fld w0 8 8, (BitVec.ofNat 8 (fld w0 16 8)).toInt, BitVec.ofNat 6 (fld w0 24 6), fld w0 32 16, fld w1 0 32, fld w1 32 32⟩
  let ok := (p.b == 4 || p.b == 8 || p.b == 16) && (p.d == 64 || p.d == 128) && decide (-64 ≤ p.f ∧ p.f ≤ 63) &&
    (p.fmt.isB8 && !p.fmt.isUns) && decide (p.tau ≤ 0x3C00) && decide (0 < p.sigma ∧ p.sigma < 0x7F800000) &&
    decide (fld w0 30 2 = 0) && decide (fld w0 48 16 = 0) && decide (v.toNat / 2 ^ 128 = 0)
  if ok then some p else none

/-- Record and slot sizes (R363, R364). -/
def TPar.s (p : TPar) : Nat := if p.d = 64 then 2048 else 4096
def TPar.z (p : TPar) : Nat := if p.d = 64 then 256 else 512
/-- Bytes of d codes and their scales. -/
def TPar.a (p : TPar) : Nat := 9 * p.d / 8

/-- slot(t, head, d). -/
def TPar.slot (p : TPar) (t head : Nat) : Nat := t * 4096 + head * p.z

/-! ### Numbers -/

def f32 : Tag := 34
def b16 : Tag := 32
/-- A value rounded to binary32. -/
def to32 (rm : RM) (x : Num) : BitVec 32 := BitVec.ofNat 32 (convert x f32 rm .inf 0)
def of32 (c : BitVec 32) : Num := f32.decode c.toNat
def ofB16 (c : Nat) : Num := b16.decode c
def sq (x y : Num) : Num := let d := Num.add false x y.neg; d.mul d
def isFin : Num → Bool | .fin _ _ => true | _ => false

/-- dist2 (R369). -/
def dist2 (d : Nat) (x y : List Num) : Num :=
  let t := (x.zip y).map fun (a, b) => roundTo f32 .rne .inf (sq a b)
  let red (k : List Num) : Num := (treeReduce (fun a b => roundTo f32 .rne .inf (Num.add false a b)) 6 (k.map some)).getD (.zero false)
  if d = 64 then red t else roundTo f32 .rne .inf (Num.add false (red (t.take 64)) (red (t.drop 64)))

/-- norm_up: the exact Euclidean distance, rounded up once (R369). -/
def normUp (x y : List Num) : BitVec 32 :=
  to32 .ru ((x.zip y).foldl (fun s (a, b) => Num.add false s (sq a b)) (.zero false)).sqrt

/-- f32_up(a + b). -/
def addUp (a b : BitVec 32) : BitVec 32 := to32 .ru (Num.add false (of32 a) (of32 b))

/-- The greater of two nonnegative binary32 codes. -/
def max32 (a b : BitVec 32) : BitVec 32 := if a.toNat < b.toNat then b else a

/-! ### Codes with block scales -/

/-- d codes and d/8 scales. -/
structure Enc where
  codes  : List Nat
  scales : List Nat
  deriving DecidableEq, Repr

def Enc.zero (d : Nat) : Enc := ⟨List.replicate d 0, List.replicate (d / 8) 0⟩
def Enc.ofBytes (d x : Nat) : Enc := ⟨lanesOf x 8 d, lanesOf (x / 2 ^ (8 * d)) 8 (d / 8)⟩
def Enc.bits (d : Nat) (e : Enc) : Nat := packLanes 8 e.codes + packLanes 8 e.scales * 2 ^ (8 * d)
/-- Exact element values. -/
def Enc.vals (f : Tag) (e : Enc) : List Num := e.codes.zipIdx.map fun (c, i) => blockVal f.float (e.scales.getD (i / 8) 0) c

/-- The amax rule, RNE, `ovsat` (R101, R372). -/
def Enc.quant (f : Tag) (xs : List Num) : Enc :=
  let bs := (chunks 8 (xs.length / 8) xs).map fun b => quantBlock b f.float .rne .sat []
  ⟨bs.flatMap (·.2), bs.map (·.1)⟩

/-- The scales in the order of R373. -/
def scaleOrder : List Nat := (List.range 256).filterMap fun k =>
  let e : Int := if k % 2 = 0 then 127 + (k / 2 : Nat) else 127 - ((k + 1) / 2 : Nat)
  if 0 ≤ e ∧ e ≤ 254 then some e.toNat else none

/-- A block at the first scale at which every element is exact without overflow (R373). -/
def encodeBlock (f : Tag) (xs : List Num) : Nat × List Nat :=
  let at' (e : Nat) : List Nat := xs.map fun x => (convertF (x.scale (127 - (e : Int))) f.float .rne .sat 0).1
  match scaleOrder.find? (fun e => ((at' e).zip xs).all fun (c, x) => (blockVal f.float e c).eq x) with
  | some e => (e, at' e)
  | none => (127, at' 127)

def Enc.exact (f : Tag) (xs : List Num) : Enc :=
  let bs := (chunks 8 (xs.length / 8) xs).map (encodeBlock f)
  ⟨bs.flatMap (·.2), bs.map (·.1)⟩

/-! ### Records (Tables 17.2-17.4) -/

structure TNode where
  n : Nat
  rad : BitVec 32
  parent : Nat
  link : Nat
  lock : Word
  leaf : Bool
  sealed : Bool
  f : Nat
  height : Nat
  nused : Nat
  ak : Enc
  av : Enc
  sk : List Int
  sv : List Int
  ck : List Nat
  cv : List Nat
  ch : List (Nat × Bool)
  deriving DecidableEq, Repr

def TNode.zero (p : TPar) : TNode :=
  ⟨0, 0, 0, 0, 0, false, false, 0, 0, 0, Enc.zero p.d, Enc.zero p.d, List.replicate p.d 0, List.replicate p.d 0,
    List.replicate p.d 0, List.replicate p.d 0, []⟩

def i64 (x : Nat) : Int := (BitVec.ofNat 64 x).toInt
def u64 (x : Int) : Nat := (x % (2 ^ 64 : Nat)).toNat

def TNode.ofBits (p : TPar) (x : Nat) : TNode :=
  let d := p.d
  let at' (off n : Nat) : Nat := fld x (8 * off) (8 * n)
  let a := p.a
  let o := 0x40 + 2 * a
  let nch := Nat.min (at' 0x19 1) 16
  { n := at' 0 4, rad := BitVec.ofNat 32 (at' 4 4), parent := at' 8 4, link := at' 0xC 4, lock := BitVec.ofNat 64 (at' 0x10 8),
    leaf := x.testBit (8 * 0x18), sealed := x.testBit (8 * 0x18 + 1), f := at' 0x1A 1, height := at' 0x1B 1, nused := at' 0x1C 4,
    ak := Enc.ofBytes d (at' 0x40 a), av := Enc.ofBytes d (at' (0x40 + a) a),
    sk := (lanesOf (at' o (8 * d)) 64 d).map i64, sv := (lanesOf (at' (o + 8 * d) (8 * d)) 64 d).map i64,
    ck := lanesOf (at' (o + 16 * d) (2 * d)) 16 d, cv := lanesOf (at' (o + 18 * d) (2 * d)) 16 d,
    ch := (lanesOf (at' (o + 20 * d) 128) 64 nch).map fun e => (e % 2 ^ 32, e.testBit 63) }

def TNode.bits (p : TPar) (r : TNode) : Nat :=
  let d := p.d
  let a := p.a
  let o := 0x40 + 2 * a
  let put (off x : Nat) : Nat := x * 2 ^ (8 * off)
  r.n + put 4 r.rad.toNat + put 8 r.parent + put 0xC r.link + put 0x10 r.lock.toNat +
    put 0x18 (bitAt r.leaf 0 + bitAt r.sealed 1) + put 0x19 r.ch.length + put 0x1A r.f + put 0x1B r.height + put 0x1C r.nused +
    put 0x40 (r.ak.bits d) + put (0x40 + a) (r.av.bits d) + put o (packLanes 64 (r.sk.map u64)) + put (o + 8 * d) (packLanes 64 (r.sv.map u64)) +
    put (o + 16 * d) (packLanes 16 r.ck) + put (o + 18 * d) (packLanes 16 r.cv) +
    put (o + 20 * d) (packLanes 64 (r.ch.map fun e => e.1 + bitAt e.2 63))
where
  bitAt (b : Bool) (i : Nat) : Nat := if b then 2 ^ i else 0

structure TSlot where
  key : Enc
  val : Enc
  leaf : Nat
  pos : Nat
  raw : Bool
  present : Bool
  sealed : Bool
  deriving DecidableEq, Repr

def TSlot.ofBits (p : TPar) (x : Nat) : TSlot :=
  let a := p.a
  let fl := fld x (8 * (2 * a + 5)) 8
  ⟨Enc.ofBytes p.d (fld x 0 (8 * a)), Enc.ofBytes p.d (fld x (8 * a) (8 * a)), fld x (16 * a) 32, fld x (16 * a + 32) 8,
    fl.testBit 0, fl.testBit 1, fl.testBit 2⟩

def TSlot.bits (p : TPar) (t : TSlot) : Nat :=
  let a := p.a
  let b (c : Bool) (i : Nat) : Nat := if c then 2 ^ i else 0
  t.key.bits p.d + t.val.bits p.d * 2 ^ (8 * a) + (t.leaf + t.pos * 2 ^ 32 + (b t.raw 0 + b t.present 1 + b t.sealed 2) * 2 ^ 40) * 2 ^ (16 * a)

/-! ### The work of a writer -/

/-- A request that the engine is to issue: what for, the handle whose port it takes, where, how many bytes, what it writes, and what a taken LOCK must
hold. -/
structure TAsk where
  key : TreeKey
  h   : HEntry
  va  : Nat
  n   : Nat
  x   : Nat
  y   : Nat
  wr  : Bool
  deriving DecidableEq, Repr

/-- Why the engine does not go on: a fault, an access withheld, one that waits for a frame of a die's pool (with the event that needs it, Table 10.8),
a lock that another writer holds, or requests that it has to wait for. -/
inductive TErr
  | fault (f : FaultC) | held (why : Held) (va : Nat) | frames (die : Nat) (why : Held) (va : Nat) | retry | ask (s : State) (l : List TAsk)

/-- What a request of the engine has brought. -/
def memoAt (memo : List (TreeKey × Nat)) (k : TreeKey) : Option Nat := (memo.find? fun e => e.1 == k).map (·.2)

/-- The 64-byte pieces of [pa, pa + n). -/
def chunksOf (pa n : Nat) : List Nat := (List.range ((pa + n - 1) / 64 - pa / 64 + 1)).map fun i => pa / 64 + i

/-- The request that reads a piece of what stands at va and pa. -/
def readAsk (h : HEntry) (va pa : Nat) (again : Bool) (c : Nat) : TAsk := ⟨.data c again, h, va - pa % 64 + 64 * (c - pa / 64), 64, 0, 0, false⟩

/-- n bytes as the engine's requests have brought them, or the requests that are still to be made. -/
def chunkRead (memo : List (TreeKey × Nat)) (h : HEntry) (va pa n : Nat) (again : Bool) : Except (List TAsk) Nat :=
  let cs := chunksOf pa n
  match cs.filter fun c => (memoAt memo (.data c again)).isNone with
  | [] => .ok (packLanes 512 (cs.map fun c => (memoAt memo (.data c again)).getD 0) / 2 ^ (8 * (pa % 64)) % 2 ^ (8 * n))
  | miss => .error (miss.map (readAsk h va pa again))

/-- The binding of an operation (R393) and its address space. -/
structure TBind where
  p    : TPar
  asid : BitVec 16
  hn   : HEntry
  ht   : HEntry
  head : Nat
  st   : StId

/-- The machine as the engine has left it, what its requests have brought, the records and slots read with their first contents, working copies, nodes
created and freed. -/
structure TW where
  st    : State
  memo  : List (TreeKey × Nat)
  nodes : List (Nat × TNode)
  orig  : List (Nat × TNode)
  slots : List (Nat × TSlot)
  sorig : List (Nat × TSlot)
  new   : List Nat
  freed : List Nat
  lockAlso : List Nat

abbrev TM (α : Type) := StateT TW (Except TErr) α

def tbounds (i : Nat) : FaultC := boundsAt i 0

/-- The page of an address that a handle of the tree reaches, the Cadastre having resolved what it can (R390) under the handle's policy (R239); VERS pages
are refused (R362). -/
def State.treePage (s : State) (b : TBind) (h : HEntry) (va : Nat) (wr : Bool) : Except TErr (Nat × State) :=
  let rec go : Nat → State → Except TErr (Nat × State)
    | 0, _ => .error .retry
    | n + 1, s =>
      let w := s.walk b.asid va
      let again (why : Held) (r : Except Miss State) : Except TErr (Nat × State) :=
        match r with
        | .ok s => go n s
        | .error (.frames d) => .error (.frames d why va)
        | .error (.corrupt f) => .error (.fault f)
        | .error .fail => .error .retry
      match w with
      | .leaf _ e =>
        if pteVers e then .error (.fault (transFault 3 accTree va))
        else match s.useEntry w va (!wr) wr with
          | .pa pa _ =>
            if s.cls pa ≠ .dev then .error (.fault (transFault 0 accTree va)) else .ok (pa, s)
          | .fault k => .error (.fault (transFault k accTree va))
          | .corrupt f => .error (.fault f)
          | .held .firstTouch => again .firstTouch (s.firstTouch b.asid va b.st.die h.comp)
          | .held .copyOnWrite => again .copyOnWrite (s.copyOnWrite b.asid va)
          | .held .decompress => again .decompress (s.decompress b.asid va)
          | .held x => .error (.held x va)
      | .corrupt f => .error (.fault f)
      | .absent => .error (.held .notPresent va)
      | .malformed => .error (.fault (transFault 2 accTree va))
  go 4 s

/-- Read n bytes of one page. -/
def tread (b : TBind) (h : HEntry) (va n : Nat) : TM Nat := fun w =>
  match w.st.treePage b h va false with
  | .ok (pa, s) =>
    match chunkRead w.memo h va pa n false with
    | .ok x => .ok (x, { w with st := s })
    | .error l => .error (.ask s l)
  | .error e => .error e

/-- A node record, read once. -/
def tnode (b : TBind) (i : Nat) : TM TNode := do
  let w ← get
  match w.nodes.find? (fun e => e.1 == i) with
  | some (_, r) => return r
  | none =>
    let x ← tread b b.hn (b.hn.base.toNat + i * b.p.s) b.p.s
    let r := TNode.ofBits b.p x
    modify fun w => { w with nodes := (i, r) :: w.nodes, orig := (i, r) :: w.orig }
    return r

def setAssoc (i : Nat) (x : α) (l : List (Nat × α)) : List (Nat × α) := (i, x) :: l.filter (fun e => e.1 ≠ i)

def tput (i : Nat) (r : TNode) : TM Unit := modify fun w => { w with nodes := setAssoc i r w.nodes }

def tslot (b : TBind) (t : Nat) : TM TSlot := do
  let w ← get
  match w.slots.find? (fun e => e.1 == t) with
  | some (_, r) => return r
  | none =>
    let x ← tread b b.ht (b.ht.base.toNat + b.p.slot t b.head) b.p.z
    let r := TSlot.ofBits b.p x
    modify fun w => { w with slots := (t, r) :: w.slots, sorig := (t, r) :: w.sorig }
    return r

def tputSlot (t : Nat) (r : TSlot) : TM Unit := modify fun w => { w with slots := setAssoc t r w.slots }

/-- Allocate a node (R366). -/
def talloc (b : TBind) : TM Nat := do
  let root ← tnode b 0
  let i := if root.link ≠ 0 then root.link else root.nused
  if b.hn.size.toNat < (i + 1) * b.p.s then throw (.fault (tbounds 2))
  if root.link ≠ 0 then
    let r ← tnode b i
    tput 0 { root with link := r.link }
  else tput 0 { root with nused := i + 1 }
  tput i (TNode.zero b.p)
  modify fun w => { w with new := i :: w.new, freed := w.freed.filter (· ≠ i) }
  return i

/-- Free a node (R366). -/
def tfree (b : TBind) (i : Nat) : TM Unit := do
  let root ← tnode b 0
  tput i { TNode.zero b.p with link := root.link }
  tput 0 { root with link := i }
  modify fun w => { w with freed := i :: w.freed, new := w.new.filter (· ≠ i) }

/-! ### Sums, centroids, radii (R367-R370) -/

/-- c(k): trunc(k × 2^(32 - F)) of each element; none for an element that is not finite or a contribution out of range. -/
def contrib (p : TPar) (xs : List Num) : Option (List Int) :=
  xs.mapM fun x =>
    match x with
    | .fin neg m =>
      let n := (({ m with sc := m.sc + (32 - p.f) } : Mag).floorAt 0).1
      if n < 2 ^ 31 then some (if neg then -(n : Int) else n) else none
    | _ => none

/-- CK and CV from the sums (R368). -/
def TNode.center (p : TPar) (r : TNode) : TNode :=
  let c (s : Int) : Nat :=
    if s = 0 then 0 else convert (.fin (decide (s < 0)) ⟨.rat s.natAbs r.n, p.f - 32⟩) b16 .rne .sat 0
  if r.n = 0 then r else { r with ck := r.sk.map c, cv := r.sv.map c }

def TNode.ckv (r : TNode) : List Num := r.ck.map ofB16
def zipAdd (f : Int → Int → Int) (a b : List Int) : List Int := (a.zip b).map fun (x, y) => f x y

/-- The reconstructed key of a member of a leaf (R372). -/
def TSlot.keyVals (p : TPar) (t : TSlot) (leaf : TNode) : List Num :=
  let r := t.key.vals p.fmt
  if t.raw then r else ((leaf.ak.vals p.fmt).zip r).map fun (a, x) => Num.add false a x

/-- KEY and RAW of a key against an anchor: the residual where it is exact, else the raw key (R372). -/
def residual (p : TPar) (k a : List Num) (raw : Option Enc) : Enc × Bool :=
  let e := Enc.quant p.fmt ((k.zip a).map fun (x, y) => Num.add false x y.neg)
  if ((a.zip (e.vals p.fmt)).zip k).all fun ((x, r), y) => (Num.add false x r).eq y then (e, false)
  else (raw.getD (Enc.exact p.fmt k), true)

/-! ### Insertion and splits (R371-R373) -/

/-- The path from the root to the leaf that takes a key: node indices, root first. -/
def troute (b : TBind) (k : List Num) : Nat → Nat → TM (List Nat)
  | 0, _ => throw (.fault (tbounds 12))
  | n + 1, i => do
    let r ← tnode b i
    if r.sealed then throw (.fault (tbounds 12))
    if r.leaf then return [i]
    let mut best : Option (Num × Nat) := none
    for (c, _) in r.ch do
      let q ← tnode b c
      if !q.sealed then
        let d := dist2 b.p.d q.ckv k
        match best with
        | none => best := some (d, c)
        | some (e, _) => if d.lt e then best := some (d, c)
    match best with
    | none => throw (.fault (tbounds 12))
    | some (_, c) => return i :: (← troute b k n c)

/-- A member or child of a node being split: its index, the order that ties use, its point, and for members key, value and raw codes. -/
structure SplitEnt where
  idx : Nat
  ord : Nat
  pt  : List Num
  val : Enc
  raw : Option Enc

/-- The seeds: the pair with the greatest dist2, ties to the least pair. -/
def seeds (d : Nat) (es : List SplitEnt) : Option (SplitEnt × SplitEnt) :=
  let pairs := es.flatMap fun x => (es.filter (fun y => decide (x.ord < y.ord))).map fun y => (x, y)
  let better (a c : (SplitEnt × SplitEnt) × Num) : (SplitEnt × SplitEnt) × Num :=
    if a.2.lt c.2 then c
    else if c.2.lt a.2 then a
    else if c.1.1.ord < a.1.1.ord ∨ (c.1.1.ord = a.1.1.ord ∧ c.1.2.ord < a.1.2.ord) then c else a
  match pairs.map (fun x => (x, dist2 d x.1.pt x.2.pt)) with
  | [] => none
  | x :: r => some (r.foldl better x).1

/-- Fill a leaf made by a split (R373). -/
def tfillLeaf (b : TBind) (i : Nat) (base : TNode) (g : List SplitEnt) (seed : SplitEnt) : TM Unit := do
  let p := b.p
  let ak := Enc.exact p.fmt seed.pt
  let anchor := ak.vals p.fmt
  let sum (f : SplitEnt → List Num) : List Int :=
    g.foldl (fun s x => zipAdd (· + ·) s ((contrib p (f x)).getD (List.replicate p.d 0))) (List.replicate p.d 0)
  let r : TNode := { base with
    n := g.length, leaf := true, ak := ak, av := seed.val, sk := sum (·.pt), sv := sum (fun x => x.val.vals p.fmt), ch := g.map fun x => (x.idx, true) }
  let r := r.center p
  let r := { r with rad := g.foldl (fun m x => max32 m (normUp x.pt r.ckv)) 0 }
  tput i r
  for (x, pos) in g.zipIdx do
    let t ← tslot b x.idx
    let (key, raw) := residual p x.pt anchor x.raw
    tputSlot x.idx { t with key := key, raw := raw, leaf := i, pos := pos }

/-- Fill an internal node made by a split (R373). -/
def tfillNode (b : TBind) (i : Nat) (base : TNode) (g : List SplitEnt) : TM Unit := do
  let p := b.p
  let mut kids : List TNode := []
  for x in g do
    let c ← tnode b x.idx
    if c.parent ≠ i then tput x.idx { c with parent := i }
    kids := kids ++ [c]
  let z := List.replicate p.d (0 : Int)
  let r : TNode := { base with
    n := kids.foldl (fun s c => s + c.n) 0, leaf := false, ak := Enc.zero p.d, av := Enc.zero p.d,
    sk := kids.foldl (fun s c => zipAdd (· + ·) s c.sk) z, sv := kids.foldl (fun s c => zipAdd (· + ·) s c.sv) z,
    height := 1 + kids.foldl (fun m c => Nat.max m c.height) 0, ch := g.map fun x => (x.idx, false) }
  let r := r.center p
  tput i { r with rad := kids.foldl (fun m c => max32 m (addUp (normUp c.ckv r.ckv) c.rad)) 0 }

/-- Split a node that holds B + 1 entries; the parent is answered. -/
def tsplit (b : TBind) (i : Nat) : TM Nat := do
  let p := b.p
  let r ← tnode b i
  let mut es : List SplitEnt := []
  for ((c, _), pos) in r.ch.zipIdx do
    if r.leaf then
      let t ← tslot b c
      let w ← get
      let given := match w.sorig.find? (fun o => o.1 == c) with | some (_, o) => if o.present then none else some o.key | none => none
      es := es ++ [⟨c, c, t.keyVals p r, t.val, if t.raw then some t.key else given⟩]
    else
      let q ← tnode b c
      es := es ++ [⟨c, pos, q.ckv, q.av, none⟩]
  match seeds p.d es with
  | none => throw .retry
  | some (s1, s2) =>
    let first (x : SplitEnt) : Bool := x.ord = s1.ord || (x.ord ≠ s2.ord && !(dist2 p.d x.pt s2.pt).lt (dist2 p.d x.pt s1.pt))
    let g1 := es.filter first
    let g2 := es.filter (fun x => !first x)
    let fill (k : Nat) (base : TNode) (g : List SplitEnt) (s : SplitEnt) : TM Unit :=
      if r.leaf then tfillLeaf b k base g s else tfillNode b k base g
    let fresh : TNode := { TNode.zero p with f := r.f }
    if i = 0 then
      if 15 < r.height + 1 then throw (.fault (tbounds 4))
      let n1 ← talloc b
      let n2 ← talloc b
      fill n1 fresh g1 s1
      fill n2 fresh g2 s2
      let root ← tnode b 0
      tput 0 { root with leaf := false, ak := Enc.zero p.d, av := Enc.zero p.d, height := r.height + 1, ch := [(n1, false), (n2, false)] }
      return 0
    else
      let n2 ← talloc b
      fill i { r with ch := [] } g1 s1
      fill n2 { fresh with parent := r.parent } g2 s2
      let q ← tnode b r.parent
      tput r.parent { q with ch := q.ch.flatMap fun e => if e.1 = i then [e, (n2, false)] else [e] }
      return r.parent

/-- Split upward while a node holds more than B entries; whether any split happened. -/
def tsplits (b : TBind) : Nat → Nat → Bool → TM Bool
  | 0, _, done => return done
  | n + 1, i, done => do
    let r ← tnode b i
    if r.ch.length ≤ b.p.b then return done
    else
      let q ← tsplit b i
      if i = 0 then return true else tsplits b n q true

/-- `tins` of token t (R371): the completion payload. -/
def tinsert (b : TBind) (t : Nat) : TM Nat := do
  let p := b.p
  if 2 ^ 32 ≤ t ∨ b.ht.size.toNat < p.slot t b.head + p.z then throw (.fault (tbounds 5))
  let root ← tnode b 0
  let sl ← tslot b t
  if sl.present then throw (.fault (tbounds 7))
  let k := sl.key.vals p.fmt
  let v := sl.val.vals p.fmt
  match contrib p k, contrib p v with
  | some ck, some cv =>
    let path ← if root.n = 0 ∧ !root.sealed then pure [0] else troute b k 17 0
    if root.n = 0 then
      tput 0 { root with leaf := true, f := (p.f % 256).toNat, height := 0, nused := Nat.max root.nused 1, ak := sl.key, av := sl.val, parent := 0 }
    for i in path do
      let r ← tnode b i
      let old := r.ckv
      let r1 := ({ r with n := r.n + 1, sk := zipAdd (· + ·) r.sk ck, sv := zipAdd (· + ·) r.sv cv } : TNode).center p
      let far := normUp k r1.ckv
      tput i { r1 with rad := if r.n = 0 then far else max32 (addUp r.rad (normUp r1.ckv old)) far }
    let leaf := path.getLastD 0
    let r ← tnode b leaf
    tput leaf { r with ch := r.ch ++ [(t, true)] }
    let (key, raw) := residual p k (r.ak.vals p.fmt) (some sl.key)
    tputSlot t { sl with key := key, raw := raw, leaf := leaf, pos := r.ch.length, present := true }
    let split ← tsplits b 17 leaf false
    let fin ← tslot b t
    return fin.leaf + (if fin.raw then 2 ^ 32 else 0) + (if split then 2 ^ 33 else 0)
  | _, _ => throw (.fault (tbounds 3))

/-! ### Drop (R376) -/

/-- Whether a page is absent to a drop, which reads no presence from it: V = 0, or not yet touched. A VERS page is refused (R362). -/
def tgone (b : TBind) (va : Nat) : TM Bool := do
  let w ← get
  match w.st.walk b.asid va with
  | .absent => return true
  | .leaf _ e => if pteVers e then throw (.fault (transFault 3 accTree va)) else return pteKind e == 1
  | .malformed => throw (.fault (transFault 2 accTree va))
  | .corrupt f => throw (.fault f)

/-- Remove a node that holds nothing from its parent, upward. -/
def tcascade (b : TBind) : Nat → Nat → TM Unit
  | 0, _ => pure ()
  | n + 1, i => do
    let r ← tnode b i
    if i = 0 then
      if r.n = 0 then tput 0 { TNode.zero b.p with link := r.link, nused := r.nused, lock := r.lock }
    else
      if r.n = 0 then
        let q ← tnode b r.parent
        tput r.parent { q with ch := q.ch.filter (fun e => e.1 ≠ i) }
        tfree b i
      tcascade b n r.parent

/-- Drop one member. -/
def tdropOne (b : TBind) (t : Nat) (sl : TSlot) : TM Unit := do
  let p := b.p
  let leaf ← tnode b sl.leaf
  let k := sl.keyVals p leaf
  let ck := (contrib p k).getD (List.replicate p.d 0)
  let cv := (contrib p (sl.val.vals p.fmt)).getD (List.replicate p.d 0)
  let mut i := sl.leaf
  for _ in List.range 17 do
    let r ← tnode b i
    let old := r.ckv
    let r1 := ({ r with n := r.n - 1, sk := zipAdd (· - ·) r.sk ck, sv := zipAdd (· - ·) r.sv cv } : TNode).center p
    tput i { r1 with rad := if r1.n = 0 then r1.rad else addUp r.rad (normUp r1.ckv old) }
    if i = 0 then break
    i := r.parent
  tputSlot t { sl with present := false }
  let r ← tnode b sl.leaf
  tput sl.leaf { r with ch := r.ch.filter (fun e => e.1 ≠ t) }
  for (c, _) in r.ch.drop (sl.pos + 1) do
    let q ← tslot b c
    tputSlot c { q with pos := q.pos - 1 }
  tcascade b 17 sl.leaf

/-- Whether the engine of another station has the insertion of the token in hand: one that has not released first leaves the token not dropped
(R386). -/
def State.inserting (s : State) (b : TBind) (t : Nat) : Bool :=
  s.stations.any fun y => match y.sd.bind (·.eng) with
    | some j =>
      y.id != b.st && j.op == .tins t && (s.voyage? y.voy).any (fun v => v.asid == b.asid) && j.h2.base == b.ht.base &&
        (match y.sd with | some d => d.q[j.q].head.toNat == b.head | none => false)
    | none => false

/-- `tdrop` of [t0, t1): tokens dropped, and tokens that are not (R376, R386, Table 18.4). -/
def tdropRange (b : TBind) (t0 t1 : Nat) : TM Nat := do
  let p := b.p
  let top := Nat.min (Nat.min t1 (2 ^ 32)) (b.ht.size.toNat / 4096 + 1)
  let mut gone := 0
  let mut kept := 0
  for j in List.range (top - t0) do
    let t := t0 + j
    if p.slot t b.head + p.z ≤ b.ht.size.toNat then
      if ← tgone b (b.ht.base.toNat + p.slot t b.head) then kept := kept + 1
      else
        let sl ← tslot b t
        if sl.present then
          if sl.sealed then kept := kept + 1
          else
            tdropOne b t sl
            gone := gone + 1
        else if (← get).st.inserting b t then kept := kept + 1
  return gone % 2 ^ 32 + kept % 2 ^ 32 * 2 ^ 32

/-! ### Seal (R374, R375) -/

/-- The subtree below a node that a seal frees: nodes below, tokens of unsealed leaves, tokens of leaves sealed before. -/
def tbelow (b : TBind) : Nat → List Nat → List Nat × List Nat × List Nat → TM (List Nat × List Nat × List Nat)
  | 0, _, acc => return acc
  | _, [], acc => return acc
  | n + 1, y :: st, (nodes, toks, was) => do
    let r ← tnode b y
    let kids := r.ch.map (·.1)
    if r.leaf then
      if r.sealed then tbelow b n st (nodes, toks, was ++ kids) else tbelow b n st (nodes, toks ++ kids, was)
    else if r.sealed then tbelow b n st (nodes, toks, was)
    else tbelow b n (kids ++ st) (nodes ++ kids, toks, was)

/-- FLAGS of any head's slot, as the writer leaves it. -/
def tflags (b : TBind) (t h : Nat) : TM (Bool × Bool) := do
  let w ← get
  match (if h = b.head then w.slots.find? (fun e => e.1 == t) else none) with
  | some (_, sl) => return (sl.present, sl.sealed)
  | none =>
    let x ← tread b b.ht (b.ht.base.toNat + b.p.slot t h + 2 * b.p.a + 5) 1
    return (x.testBit 1, x.testBit 2)

/-- Whether a token page can be released: it lies whole within hT, and no slot of any head is present and unsealed. -/
def tfreePage (b : TBind) (pg : Nat) : TM Bool := do
  if b.ht.size.toNat < (pg + 1) * 2 ^ 16 then return false
  for t in List.range 16 do
    for h in List.range (4096 / b.p.z) do
      let (pr, se) ← tflags b (16 * pg + t) h
      if pr && !se then return false
  return true

def dedup (l : List Nat) : List Nat := l.foldl (fun acc x => if acc.contains x then acc else acc ++ [x]) []

/-- `tseal` of node x: slots newly sealed, and the pages to release. -/
def tsealNode (b : TBind) (x : Nat) : TM (Nat × List Nat) := do
  let root ← tnode b 0
  if root.nused ≤ x then throw (.fault (tbounds 10))
  if b.hn.size.toNat < (x + 1) * b.p.s then throw (.fault (tbounds 10))
  let r ← tnode b x
  if x ≠ 0 ∧ r.n = 0 then throw (.fault (tbounds 10))
  modify fun w => { w with lockAlso := [x] }
  let (nodes, toks, was) ←
    if r.sealed then pure ([], [], if r.leaf then r.ch.map (·.1) else [])
    else tbelow b (b.hn.size.toNat / b.p.s + 2) [x] ([], [], [])
  for i in nodes.mergeSort do tfree b i
  let r ← tnode b x
  tput x { r with sealed := true, ch := if r.leaf then r.ch else [] }
  let mut n := 0
  for t in toks do
    let sl ← tslot b t
    if !sl.sealed then
      tputSlot t { sl with sealed := true }
      n := n + 1
  let mut pages : List Nat := []
  for pg in (dedup ((toks ++ was).map (· / 16))).mergeSort do
    if !(← tgone b (b.ht.base.toNat + pg * 2 ^ 16)) then
      if ← tfreePage b pg then pages := pages ++ [pg]
  return (n, pages)

/-! ### Writing back (R383, R390) -/

/-- The nodes that a writer writes, root first, in increasing index. -/
def TW.dirty (w : TW) : List (Nat × TNode) :=
  let changed (e : Nat × TNode) : Bool :=
    e.1 = 0 || w.lockAlso.contains e.1 || (match w.orig.find? (fun o => o.1 == e.1) with | some o => o.2 != e.2 | none => true)
  (w.nodes.filter changed).mergeSort (fun a b => decide (a.1 ≤ b.1))

def TW.dirtySlots (w : TW) : List (Nat × TSlot) :=
  (w.slots.filter fun e => match w.sorig.find? (fun o => o.1 == e.1) with | some o => o.2 != e.2 | none => true).mergeSort
    (fun a b => decide (a.1 ≤ b.1))

/-- The LOCK of a node as it stands in device memory. -/
def lockVa (b : TBind) (i : Nat) : Nat := b.hn.base.toNat + i * b.p.s + 0x10

/-- Take LOCK of a node (R383): it is read, and an even version v swapped for v + 1. -/
def State.lockNode (s : State) (b : TBind) (memo : List (TreeKey × Nat)) (i : Nat) : Except TErr (Word × State) := do
  let va := lockVa b i
  let (_, s) ← s.treePage b b.hn va true
  match memoAt memo (.lock i), memoAt memo (.take i) with
  | none, _ => throw (.ask s [⟨.lock i, b.hn, va, 8, 0, 0, false⟩])
  | some v, old =>
    if v % 2 = 1 then throw .retry
    match old with
    | none => throw (.ask s [⟨.take i, b.hn, va, 8, v + 1, v, true⟩])
    | some x => if x = v then return (BitVec.ofNat 64 v, s) else throw .retry

/-- The request that stores LOCK of a node. -/
def State.lockAsk (s : State) (b : TBind) (i : Nat) (v : Word) : Except TErr (TAsk × State) := do
  let (_, s) ← s.treePage b b.hn (lockVa b i) true
  return (⟨.put, b.hn, lockVa b i, 8, v.toNat, 0, true⟩, s)

/-- HEIGHT of a node as it was read. -/
def TW.height (w : TW) (i : Nat) : Nat := match w.orig.find? (fun o => o.1 == i) with | some o => o.2.height | none => 0

/-- Whether node x comes before node y from the root down. -/
def TW.above (w : TW) (x y : Nat) : Bool := decide (w.height y < w.height x) || (w.height x == w.height y && decide (x ≤ y))

/-- The nodes whose LOCK a writer takes, from the root down: the root, and every existing node that it changes. One that it creates, or that a sealing
frees, is not locked (R383). -/
def TW.lockSet (w : TW) (sealing : Bool) : List Nat :=
  let ns := (w.dirty.map (·.1)).filter fun i =>
    i ≠ 0 && w.orig.any (fun o => o.1 == i) && !w.new.contains i && !(sealing && w.freed.contains i)
  0 :: ns.mergeSort w.above

/-- Take the locks that a writer does not have yet, in order; those it has then, and why it stops short. -/
def State.takeLocks (b : TBind) (memo : List (TreeKey × Nat)) : List Nat → State → List (Nat × Word) → State × List (Nat × Word) × Option TErr
  | [], s, ls => (s, ls, none)
  | i :: r, s, ls =>
    if ls.any (fun l => l.1 == i) then State.takeLocks b memo r s ls
    else match s.lockNode b memo i with
      | .error e => (s, ls, some e)
      | .ok (v, s) => State.takeLocks b memo r s (ls ++ [(i, v)])

/-- The requests that release locks from the leaf up, each by its version plus 2 (R383). -/
def State.releaseAsks (s : State) (b : TBind) (ls : List (Nat × Word)) : Except TErr (List TAsk × State) :=
  ls.reverse.foldlM (fun (as, s) (i, v) => do
    let (a, s) ← State.lockAsk s b i (v + 2)
    return (as ++ [a], s)) ([], s)

/-- The requests that write a record or a slot, where it changes. -/
def writeAsks (memo : List (TreeKey × Nat)) (h : HEntry) (va pa n x : Nat) : List TAsk :=
  (chunksOf pa n).filterMap fun c =>
    let y := laneAt x 512 (c - pa / 64)
    if memoAt memo (.data c false) = some y then none else some { readAsk h va pa false c with key := .put, x := y, wr := true }

/-- What planning the writes comes to: the requests that perform them, or the machine so far, the locks held and why the writer waits or fails. -/
inductive TEnd
  | go (s : State) (locks : List (Nat × Word)) (l : List TAsk) | wait (s : State) (locks : List (Nat × Word)) (e : TErr)

/-- Every page a writer is to write is translated first, so that a fault leaves the tree unchanged. It then takes its locks, waits with them for pages
that are withheld, and writes every record and slot (R383, R390). A freed record holds no lock to release. -/
def TW.plan (b : TBind) (sealing : Bool) (locks : List (Nat × Word)) (w : TW) : TEnd :=
  let gone (i : Nat) : Bool := w.new.contains i || w.freed.contains i
  let ns (ls : List (Nat × Word)) : List (HEntry × Nat × Nat × Nat) := w.dirty.map fun (i, r) =>
    let v : Word := match ls.find? (fun l => l.1 == i) with | some l => l.2 + 1 | none => r.lock
    (b.hn, b.hn.base.toNat + i * b.p.s, b.p.s, ({ r with lock := if gone i then 0 else v } : TNode).bits b.p)
  let ss : List (HEntry × Nat × Nat × Nat) := w.dirtySlots.map fun (t, r) => (b.ht, b.ht.base.toNat + b.p.slot t b.head, b.p.z, r.bits b.p)
  let asks (s : State) (l : List (HEntry × Nat × Nat × Nat)) : Except TErr (List TAsk × State) :=
    l.foldlM (fun (as, s) (h, va, n, x) => do
      let (pa, s) ← State.treePage s b h va true
      return (as ++ writeAsks w.memo h va pa n x, s)) ([], s)
  match asks w.st (ns [] ++ ss) with
  | .error (.fault f) => .wait w.st locks (.fault f)
  | _ =>
    match State.takeLocks b w.memo (w.lockSet sealing) w.st locks with
    | (s, ls, some e) => .wait s ls e
    | (s, ls, none) =>
      match asks s (ns ls ++ ss) with
      | .error e => .wait s ls e
      | .ok (as, s) => .go s (ls.filter fun l => sealing || !w.freed.contains l.1) as

def TW.start (s : State) (memo : List (TreeKey × Nat)) : TW := ⟨s, memo, [], [], [], [], [], [], []⟩

/-- Clear V of a page and drop the reference of the frame that it maps (R361, R375): a reserved-grow page maps none, nor does a malformed entry. -/
def State.releasePage (s : State) (asid : BitVec 16) (va : Nat) : State :=
  match s.walk asid va with
  | .leaf a e =>
    let s := s.setEntry asid va a (setFld e 0 1 0)
    if pteKind e = 1 then s else s.dropRef (pteFrame e)
  | .malformed =>
    match s.leafSlot asid va with
    | some a => s.setEntry asid va a (setFld (s.loadDev a 8) 0 1 0)
    | none => s
  | _ => s

/-! ### Forks (R358, R396) -/

/-- Check one page pair of a fork: source pages that are not present or KIND 1 are skipped (R358). -/
def State.forkCheck (s : State) (asid : BitVec 16) (src dst : Nat) : Except TErr Unit := do
  match s.walk asid src with
  | .malformed => throw (.fault (transFault 2 accTree src))
  | .corrupt f => throw (.fault f)
  | .leaf _ e => if pteVers e && pteKind e != 1 then throw (.fault (transFault 3 accTree src))
  | .absent => pure ()
  match s.leafSlot asid dst with
  | none => throw (.fault (tbounds 9))
  | some _ =>
    match s.walk asid dst with
    | .malformed => throw (.fault (transFault 2 accTree dst))
    | .corrupt f => throw (.fault f)
    | .leaf _ e => if pteKind e ≠ 1 then throw (.fault (tbounds 8))
    | .absent => pure ()

/-- Share or copy one page: whether it was shared, copied or skipped is counted. -/
def State.forkPage (asid : BitVec 16) (acc : State × Nat × Nat) (src dst : Nat) : Except TErr (State × Nat × Nat) :=
  let (s, n, c) := acc
  match s.walk asid src, s.leafSlot asid dst with
  | .leaf a e, some d =>
    if pteKind e = 1 then .ok acc
    else
      let f := pteFrame e
      let shared := setFld e 1 2 2
      if descRefs (s.desc f) < 65535 then
        let s := (s.setEntry asid src a shared).setEntry asid dst d shared
        .ok ((s.modDesc f fun w => setFld w 0 16 (descRefs w + 1)).remark f, n + 1, c)
      else
        match s.spoilt (f * 2 ^ 16) (2 ^ 16), s.takeFrame (descHome (s.desc f)) with
        | some c, _ => .error (.fault c)
        | none, none => .error (.frames (descHome (s.desc f)) .copyOnWrite src)
        | none, some (g, s) => .ok ((s.copyFrame f g).setEntry asid dst d (setFld (setFld e 1 2 0) 16 30 g), n, c + 1)
  | _, _ => .ok acc

/-- The pages of a range. -/
def pagePairs (src dst n : Nat) : List (Nat × Nat) := (List.range n).map fun i => (src + i * 2 ^ 16, dst + i * 2 ^ 16)

/-- Fork ranges: all entries are checked before any is written. -/
def State.fork (s : State) (asid : BitVec 16) (pairs : List (Nat × Nat)) : Except TErr (State × Nat) := do
  pairs.forM fun (a, d) => s.forkCheck asid a d
  let (s, n, c) ← pairs.foldlM (fun acc (a, d) => State.forkPage asid acc a d) (s, 0, 0)
  return (s, n % 2 ^ 32 + c % 2 ^ 32 * 2 ^ 32)

end Sys2Proof.Machine
end

