-- ==== Sys2Proof/Machine/Window.lean ====
section
/-! DEFINITION. The station window (R247, R248, R320, R326, R327, R402, R414) and the image form of a handle entry (R151, R152). -/

namespace Sys2Proof.Machine

open Sys2Proof

/-! ### Handle entries as 32 bytes (Table 6.3) -/

def bitAt (b : Bool) (i : Nat) : Nat := if b then 2 ^ i else 0

/-- The 256 bits of an entry. The model keeps an entry of all zeros as the empty one, whose PORT field reads 0. -/
def HEntry.bits (h : HEntry) : Nat :=
  h.base.toNat + h.size.toNat * 2 ^ 64 + h.kind.num * 2 ^ 104 + h.space.num * 2 ^ 106 + h.fmt.toNat * 2 ^ 109 +
    bitAt h.alloc 115 + bitAt h.last 116 + bitAt h.vers 117 + bitAt h.comp 118 + h.port.toNat * 2 ^ 120 + h.pcnt.toNat * 2 ^ 128 +
    h.ccnt.toNat * 2 ^ 160 + h.dcnt.toNat * 2 ^ 192 + h.peer.toNat * 2 ^ 208

/-- An entry from its 256 bits: none for a reserved code, tag or nonzero reserved field. -/
def HEntry.ofBits? (n : Nat) : Option HEntry :=
  let kind : Option HKind := match fld n 104 2 with | 0 => some .plain | 1 => some .ring | 2 => some .phase | _ => none
  let space : Option Space :=
    match fld n 106 3 with | 0 => some .loc | 1 => some .win | 2 => some .dev | 3 => some .host | 4 => some .peer | _ => none
  match kind, space with
  | some k, some sp =>
    if fld n 119 1 ≠ 0 ∨ fld n 127 1 ≠ 0 ∨ fld n 215 41 ≠ 0 ∨ (96 ≤ fld n 120 7 ∧ fld n 120 7 ≠ 127) ∨
        !(Tag.isLegal (BitVec.ofNat 6 (fld n 109 6))) then none
    else some
      { base := BitVec.ofNat 64 n, size := BitVec.ofNat 40 (fld n 64 40), kind := k, space := sp, fmt := BitVec.ofNat 6 (fld n 109 6),
        alloc := n.testBit 115, last := n.testBit 116, vers := n.testBit 117, comp := n.testBit 118, port := BitVec.ofNat 7 (fld n 120 7),
        pcnt := BitVec.ofNat 32 (fld n 128 32), ccnt := BitVec.ofNat 32 (fld n 160 32), dcnt := BitVec.ofNat 16 (fld n 192 16),
        peer := BitVec.ofNat 7 (fld n 208 7) }
  | _, _ => none

/-- The load checks of a handle entry (R152); the empty entry never fails. -/
def HEntry.loadOk (k : Kind) (h : HEntry) : Bool :=
  h == HEntry.empty ||
  ((h.space == .peer || h.peer == 0) &&
    ((h.space == .loc || h.space == .win) == decide (h.port = 127)) &&
    (h.kind == .plain || h.space == .loc) &&
    (h.kind != .phase || k == .s) &&
    (h.kind == .plain || (decide (h.size ≠ 0) && decide (h.size.toNat % 64 = 0) && decide (h.size.toNat ≤ 64 * 65536))) &&
    (h.space != .loc || decide (h.base.toNat + h.size.toNat ≤ storeSize k)) &&
    ((h.space != .dev && h.space != .peer) || decide (h.base.toNat < 2 ^ 55)))

/-! ### Items of a window slot (Table 10.7) -/

/-- An item of the window: where it stands, what it reads as, and what a write of its whole value gives; none where it takes none. -/
structure WItem where
  base : Nat
  size : Nat
  val  : Nat
  put  : Nat → Option Station

def Station.hasCore (t : Station) : Bool := t.kind == .c || t.kind == .s || t.kind == .sd

/-- Bits of a predicate register file as a byte. -/
def Station.item (t : Station) (off : Nat) : Option WItem :=
  if off < 0x40 ∧ t.hasCore then
    let i : Fin 8 := Fin.ofNat 8 (off / 8)
    some ⟨8 * i.val, 8, t.d[i].toNat, fun x => some { t with d := t.d.set i (BitVec.ofNat 64 x) }⟩
  else if 0x40 ≤ off ∧ off < 0x48 ∧ t.hasCore then
    some ⟨0x40, 8, t.p.toNat, fun x => some { t with p := BitVec.ofNat 8 x }⟩
  else if 0x100 ≤ off ∧ off < 0x300 ∧ t.hasCore then
    let i : Fin 8 := Fin.ofNat 8 ((off - 0x100) / 64)
    some ⟨0x100 + 64 * i.val, 64, t.v[i].data.toNat, fun x => some { t with v := t.v.set i (VReg.held { t.v[i] with data := BitVec.ofNat 512 x }) }⟩
  else if 0x300 ≤ off ∧ off < 0x308 ∧ t.hasCore then
    some ⟨0x300, 8, packLanes 8 (t.v.toList.map fun v => v.tag.toNat), fun x =>
      if (List.range 8).all (fun i => decide (laneAt x 8 i < 64) && Tag.isReg (BitVec.ofNat 6 (laneAt x 8 i))) then
        some { t with v := Vector.ofFn fun i : Fin 8 => VReg.held { t.v[i] with tag := BitVec.ofNat 6 (laneAt x 8 i) } }
      else none⟩
  else if 0x340 ≤ off ∧ off < 0x380 ∧ t.hasCore then
    let i : Fin 8 := Fin.ofNat 8 ((off - 0x340) / 8)
    some ⟨0x340 + 8 * i.val, 8, t.v[i].side.toNat, fun x => some { t with v := t.v.set i { t.v[i] with side := BitVec.ofNat 64 x } }⟩
  else if 0x400 ≤ off ∧ off < 0x600 ∧ t.kind ≠ .ss then
    let i : Fin 16 := Fin.ofNat 16 ((off - 0x400) / 32)
    some ⟨0x400 + 32 * i.val, 32, t.h[i].bits, fun x => (HEntry.ofBits? x).map fun h => { t with h := t.h.set i h }⟩
  else if 0x100000 ≤ off ∧ off < 0x100000 + storeSize t.kind then
    let a := off - 0x100000
    let sh := t.h.toList.any fun h => h.kind == .phase && decide (h.base.toNat ≤ a ∧ a < h.base.toNat + h.size.toNat)
    some ⟨off, 1, (Memory.get t.store a).toNat, fun x =>
      some (if sh then { t with shadow := Memory.set t.shadow a (BitVec.ofNat 8 x) } else { t with store := Memory.set t.store a (BitVec.ofNat 8 x) })⟩
  else if 0x140000 ≤ off ∧ off < 0x180000 ∧ t.kind = .s then
    let a := off - 0x140000
    some ⟨off, 1, (Memory.get t.shadow a).toNat, fun x => some { t with shadow := Memory.set t.shadow a (BitVec.ofNat 8 x) }⟩
  else
    match t.mat, t.ss with
    | some m, _ => matItem m off
    | _, some z => ssItem z off
    | _, _ => none
where
  /-- Tiles, accumulators and scale registers. -/
  matItem (m : Mat) (off : Nat) : Option WItem :=
    if 0x200000 ≤ off ∧ off < 0x208000 then
      let k : Fin 4 := Fin.ofNat 4 ((off - 0x200000) / 0x2000)
      let o := (off - 0x200000) % 0x2000
      let b := 0x200000 + 0x2000 * k.val
      if o < 0x1000 then
        let r : Fin 64 := Fin.ofNat 64 (o / 64)
        some ⟨b + 64 * r.val, 64, m.t[k].rows[r].toNat, fun x =>
          some { t with mat := some { m with t := m.t.set k { m.t[k] with rows := m.t[k].rows.set r (BitVec.ofNat 512 x) } } }⟩
      else if o < 0x1200 then
        let r : Fin 64 := Fin.ofNat 64 ((o - 0x1000) / 8)
        some ⟨b + 0x1000 + 8 * r.val, 8, m.t[k].scales[r].toNat, fun x =>
          some { t with mat := some { m with t := m.t.set k { m.t[k] with scales := m.t[k].scales.set r (BitVec.ofNat 64 x) } } }⟩
      else none
    else if 0x280000 ≤ off ∧ off < 0x2A0000 then
      let k : Fin 2 := Fin.ofNat 2 ((off - 0x280000) / 0x10000)
      let o := (off - 0x280000) % 0x10000
      let b := 0x280000 + 0x10000 * k.val
      let put (r : Fin 64) (f : AccRow → AccRow) : Option Station :=
        some { t with mat := some { m with a := m.a.set k { m.a[k] with rows := m.a[k].rows.set r (f m.a[k].rows[r]) } } }
      if o < 0x8000 then
        let r : Fin 64 := Fin.ofNat 64 (o / 512)
        let j := o % 512 / 8
        some ⟨b + 512 * r.val + 8 * j, 8, (m.a[k].rows[r].col j % (2 ^ 64 : Nat)).toNat, fun x =>
          put r fun q => { q with s := q.cols.set j (BitVec.ofNat 64 x).toInt }⟩
      else if o < 0x8080 then
        let r : Fin 64 := Fin.ofNat 64 ((o - 0x8000) / 2)
        some ⟨b + 0x8000 + 2 * r.val, 2, (m.a[k].rows[r].e % (2 ^ 16 : Nat)).toNat, fun x =>
          put r fun q => { q with e := (BitVec.ofNat 10 x).toInt }⟩
      else if o < 0x80C0 then
        let r : Fin 64 := Fin.ofNat 64 (o - 0x8080)
        let q := m.a[k].rows[r]
        some ⟨b + 0x8080 + r.val, 1, bitAt q.p 0 + bitAt q.m 1 + bitAt q.q 2, fun x =>
          put r fun q => { q with p := x.testBit 0, m := x.testBit 1, q := x.testBit 2 }⟩
      else none
    else if 0x2C0000 ≤ off ∧ off < 0x2C0400 then
      let k : Fin 2 := Fin.ofNat 2 ((off - 0x2C0000) / 0x200)
      let r : Fin 64 := Fin.ofNat 64 ((off - 0x2C0000) % 0x200 / 8)
      some ⟨0x2C0000 + 0x200 * k.val + 8 * r.val, 8, m.g[k][r].toNat, fun x =>
        some { t with mat := some { m with g := m.g.set k (m.g[k].set r (BitVec.ofNat 64 x)) } }⟩
    else none
  /-- Streams, masks and lengths. -/
  ssItem (z : Ss) (off : Nat) : Option WItem :=
    if 0x300000 ≤ off ∧ off < 0x302000 then
      let k : Fin 16 := Fin.ofNat 16 ((off - 0x300000) / 0x200)
      let o := (off - 0x300000) % 0x200 / 64
      some ⟨0x300000 + 0x200 * k.val + 64 * o, 64, laneAt z.z[k].bits.toNat 512 o, fun x =>
        some { t with ss := some { z with z := z.z.set k { z.z[k] with
          bits := BitVec.ofNat 4096 (setFld z.z[k].bits.toNat (512 * o) 512 x) } } }⟩
    else if 0x302000 ≤ off ∧ off < 0x302020 then
      let k : Fin 16 := Fin.ofNat 16 ((off - 0x302000) / 2)
      some ⟨0x302000 + 2 * k.val, 2, z.z[k].mask.toNat, fun x =>
        some { t with ss := some { z with z := z.z.set k { z.z[k] with mask := BitVec.ofNat 16 x } } }⟩
    else if 0x302020 ≤ off ∧ off < 0x302030 then
      let k : Fin 16 := Fin.ofNat 16 (off - 0x302020)
      some ⟨off, 1, z.z[k].lc.toNat, fun x =>
        if x ≤ 4 then some { t with ss := some { z with z := z.z.set k { z.z[k] with lc := BitVec.ofNat 3 x } } } else none⟩
    else none

/-! ### Query registers (Table 18.6): read only -/

/-- Status words of a query register (Table 18.5). -/
def QReg.word (q : QReg) (w : Nat) : Nat :=
  match w with
  | 0 => q.dsum.toNat + q.usum.toNat * 2 ^ 32
  | 1 => q.llo.toNat + q.m.toNat * 2 ^ 32
  | 2 => q.visits.toNat + q.stop.toNat * 2 ^ 32 + q.rstrt.toNat * 2 ^ 36 + q.pauses.toNat * 2 ^ 40 + q.state.toNat * 2 ^ 44
  | _ => q.rootver.toNat

/-- A frontier entry as 32 bytes. -/
def FEntry.bits (f : FEntry) : Nat :=
  packLanes 32 [f.node, 1 + bitAt f.unref 1 + bitAt f.leaf 2, f.lo.toNat, f.hi.toNat, f.mid.toNat, f.delta.toNat, f.lamLo.toNat, f.mu.toNat]

/-- d of a query register's tree. -/
def QReg.dim (q : QReg) : Nat := let d := fld q.param.toNat 8 8; if d = 128 then 128 else 64

/-- A byte of a query register's window; there are d accumulators (Table 18.6). -/
def QReg.byteAt (q : QReg) (o : Nat) : Option Byte :=
  let pick (x i : Nat) : Option Byte := some (BitVec.ofNat 8 (x / 2 ^ (8 * i)))
  let w := q.walk
  if o < 0x40 then pick q.param.toNat o
  else if o < 0x48 then pick (q.head.toNat * 2 ^ 4 + q.hn.toNat * 2 ^ 8 + q.ht.toNat * 2 ^ 12) (o - 0x40)
  else if 0x100 ≤ o ∧ o < 0x300 then pick ((q.qp.getD ((o - 0x100) / 4) 0).toNat) (o % 4)
  else if 0x300 ≤ o ∧ o < 0x500 then pick ((q.out.getD ((o - 0x300) / 4) 0).toNat) (o % 4)
  else if 0x500 ≤ o ∧ o < 0x520 then pick (q.word ((o - 0x500) / 8)) (o % 8)
  else if 0x540 ≤ o ∧ o < 0x570 then pick ((match w with | some w => w.l | none => X320.empty).toBits) (o - 0x540)
  else if 0x580 ≤ o ∧ o < 0x580 + q.dim * 48 then
    pick ((match w with | some w => w.acc.getD ((o - 0x580) / 48) X320.empty | none => X320.empty).toBits) ((o - 0x580) % 48)
  else if 0x2000 ≤ o ∧ o < 0x2800 then
    pick (match w with | some w => (match (if w.exact then w.frontier.reverse else w.frontier)[(o - 0x2000) / 32]? with | some f => f.bits | none => 0) | none => 0) (o % 32)
  else none

/-! ### Reads, writes and holds -/

/-- Whether an uncorrectable error stands in n bytes of a station's storage as its window shows it (R435). -/
def Station.wornAt (t : Station) (off n : Nat) : Bool :=
  (decide (0x100000 ≤ off ∧ off < 0x140000) && t.wornIn false (off - 0x100000) n) || (decide (0x140000 ≤ off) && t.wornIn true (off - 0x140000) n)

/-- Read n bytes; none at an offset that the tables do not list. -/
def Station.winRead (t : Station) (off n : Nat) : Option Nat :=
  (List.range n).foldl (fun r i =>
    match r with
    | none => none
    | some x =>
      let a := off + i
      if 0x400000 ≤ a ∧ a < 0x410000 then
        match t.sd with
        | none => none
        | some d => (d.q[Fin.ofNat 4 ((a - 0x400000) / 0x4000)].byteAt ((a - 0x400000) % 0x4000)).map fun b => x + b.toNat * 2 ^ (8 * i)
      else (t.item a).map fun w => x + w.val / 2 ^ (8 * (a - w.base)) % 256 * 2 ^ (8 * i)) (some 0)

/-- Write n bytes, whole or not at all. -/
def Station.winWrite (t : Station) (off n x : Nat) : Option Station :=
  let rec go : Nat → Station → Nat → Nat → Nat → Option Station
    | 0, t, _, _, _ => some t
    | k + 1, t, off, n, x =>
      if n = 0 then some t
      else
        match t.item off with
        | none => none
        | some w =>
          let o := off - w.base
          let m := Nat.min n (w.size - o)
          match w.put (setFld w.val (8 * o) (8 * m) x) with
          | none => none
          | some t => go k t (off + m) (n - m) (x / 2 ^ (8 * m))
  go n t off n x

/-- An access that waits: tiles being read by a step, accumulators that a step, `mnorm` or a drain holds (R326, R327),
a read of a query register whose walk is running (R402). -/
def Station.winHeld (t : Station) (off : Nat) (wr : Bool) : Bool :=
  match t.mat, t.sd with
  | some m, _ =>
    if 0x200000 ≤ off ∧ off < 0x208000 then wr && m.t[Fin.ofNat 4 ((off - 0x200000) / 0x2000)].st == .reading
    else if 0x280000 ≤ off ∧ off < 0x2A0000 then
      let k : Fin 2 := Fin.ofNat 2 ((off - 0x280000) / 0x10000)
      let busy := t.pend.contains (.acc k) || (match m.step with | some x => x.acc == k | none => false)
      busy || (wr && m.a[k].st != .opened)
    else false
  | _, some d => !wr && decide (0x400000 ≤ off ∧ off < 0x410000) && d.q[Fin.ofNat 4 ((off - 0x400000) / 0x4000)].state == 1
  | _, _ => false

end Sys2Proof.Machine
end

