-- ==== Sys2Proof/Machine/Sounding.lean ====
section
/-! DEFINITION. Sounding instructions, the tree engine and the walk (R378-R404). -/

namespace Sys2Proof.Machine

open Sys2Proof

/-! ### Firing: the long operations (R389, R393-R397) -/

/-- The conditions on a binding (R393). -/
def bindingOk (p : TPar) (hn ht : HEntry) (head : Nat) : Bool :=
  hn.kind == .plain && hn.space == .dev && ht.kind == .plain && ht.space == .dev && decide (ht.base.toNat % 65536 = 0) &&
    decide (hn.base.toNat % p.s = 0) && decide (head < (if p.d = 64 then 16 else 8))

def Env.qreg (e : Env) (n : Fin 4) : Option QReg := e.pre.sd.map fun d => d.q[n]

/-- The parameters and handles of a query register, or the bounds fault with INFO 1. -/
def Env.binding (e : Env) (q : QReg) : Except FaultC (TPar × HEntry × HEntry) :=
  let hn := e.pre.h[Fin.ofNat 16 q.hn.toNat]
  let ht := e.pre.h[Fin.ofNat 16 q.ht.toNat]
  match tparOf q.param with
  | none => .error (tbounds 1)
  | some p => if bindingOk p hn ht q.head.toNat then .ok (p, hn, ht) else .error (tbounds 1)

def Env.engineFree (e : Env) : Bool := match e.live.sd with | some d => d.eng.isNone | none => false

/-- Hand an operation to the engine. -/
def Env.handOver (e : Env) (d : Opd) (q : Fin 4) (op : TreeOp) (h1 h2 h3 h4 : HEntry) (eff : List Effect) : Fire :=
  let (own, dest) := e.owed d
  let j : TreeJob :=
    { time := e.s.time, q := q, op := op, ctx := e.f.ctx, slot := e.slot, dest := dest, slack := e.sl, h1 := h1, h2 := h2, h3 := h3, h4 := h4,
      major := e.major, locks := [], memo := [], step := .plan, res := 0, pages := [], bad := none, left := Config.netLatency, wait := none, held := 0 }
  ⟨eff ++ own ++ [.engine (some j)], none⟩

/-- A writer of the tree of qN. -/
def writerRule (op : TreeOp) (d : Opd) (q : Fin 4) (eff : List Effect) (e : Env) : Option Fire :=
  match e.qreg q with
  | none => none
  | some x =>
    if !(e.engineFree && e.destReady d) then none
    else match e.binding x with
      | .error f => some (e.fault 1 eff (Opd.out? d) f)
      | .ok (_, hn, ht) => some (e.handOver d q op hn ht HEntry.empty HEntry.empty eff)

/-- `tins D, qN, t`. -/
def ruleTins (r : TOp) (e : Env) : Option Fire :=
  match e.read r.a with
  | none => none
  | some x => writerRule (.tins x.word.toNat) r.d r.q x.eff e
def execTins (r : TOp) (s : State) : Host.Outcome State Fault Refusal := runRule r.hdr (ruleTins r) s

/-- `tseal D, qN, x`. -/
def ruleTseal (r : TOp) (e : Env) : Option Fire :=
  match e.read r.a with
  | none => none
  | some x => writerRule (.tseal x.word.toNat) r.d r.q x.eff e
def execTseal (r : TOp) (s : State) : Host.Outcome State Fault Refusal := runRule r.hdr (ruleTseal r) s

/-- `tdrop D, qN, t0, t1`. -/
def ruleTdrop (r : TOp) (e : Env) : Option Fire :=
  match e.read2 r.a r.b with
  | none => none
  | some (x, y, eff) => writerRule (.tdrop x.word.toNat y.word.toNat) r.d r.q eff e
def execTdrop (r : TOp) (s : State) : Host.Outcome State Fault Refusal := runRule r.hdr (ruleTdrop r) s

/-- A fork handle: plain, SPACE 2, its BASE on a page (R396). -/
def HEntry.forkable (h : HEntry) : Bool := h.kind == .plain && h.space == .dev && decide (h.base.toNat % 65536 = 0)

/-- n whole pages lie in a handle. -/
def HEntry.holdsPages (h : HEntry) (n : Nat) : Bool := decide (n * 65536 ≤ h.size.toNat)

/-- `tfork D, hD, hS, n`: the page effect alone. -/
def ruleTforkPages (d : Opd) (hd hs : Fin 16) (n : Opd) (e : Env) : Option Fire :=
  match e.read n with
  | none => none
  | some x =>
    let a := e.pre.h[hd]
    let b := e.pre.h[hs]
    let k := x.word.toNat
    if !(e.engineFree && e.destReady d) then none
    else if !(a.forkable && b.forkable && a.holdsPages k && b.holdsPages k) then some (e.fault 1 x.eff (Opd.out? d) (tbounds 6))
    else some (e.handOver d 0 (.forkPages k) a b HEntry.empty HEntry.empty x.eff)
def execTforkPages (hdr : Hdr) (d : Opd) (hd hs : Fin 16) (n : Opd) (s : State) : Host.Outcome State Fault Refusal :=
  runRule hdr (ruleTforkPages d hd hs n) s

/-- `tfork D, hD, hE, n, qN`: the tree of qN. -/
def ruleTforkTree (d : Opd) (hd he : Fin 16) (n : Opd) (q : Fin 4) (e : Env) : Option Fire :=
  match e.read n, e.qreg q with
  | some x, some y =>
    let a := e.pre.h[hd]
    let b := e.pre.h[he]
    let k := x.word.toNat
    if !(e.engineFree && e.destReady d) then none
    else match e.binding y with
      | .error f => some (e.fault 1 x.eff (Opd.out? d) f)
      | .ok (_, hn, ht) =>
        if !(a.forkable && b.forkable && hn.forkable && ht.forkable && a.holdsPages (hn.size.toNat / 65536) && b.holdsPages k && ht.holdsPages k) then
          some (e.fault 1 x.eff (Opd.out? d) (tbounds 6))
        else some (e.handOver d q (.forkTree k) hn ht a b x.eff)
  | _, _ => none
def execTforkTree (hdr : Hdr) (d : Opd) (hd he : Fin 16) (n : Opd) (q : Fin 4) (s : State) : Host.Outcome State Fault Refusal :=
  runRule hdr (ruleTforkTree d hd he n q) s

/-- log2(e) rounded to 2^-200 (R378): λ is rounded once from the product with σ. -/
def log2e : Num := .fin false ⟨.rat (2 ^ (200 + approxBits) / ln2Fix) 1, -200⟩

/-- The registers of a query group (R112). -/
def queryGroup (v : Fin 8) (n : Nat) : List (Fin 8) := (List.range n).map fun i => Fin.ofNat 8 (v.val + i)

/-- A walk before its first step. -/
def Walk.fresh (p : TPar) (exact screen : Bool) : Walk :=
  { exact := exact, screen := screen, frontier := [], kids := [], done := [], l := X320.empty, acc := List.replicate p.d X320.empty, m := 0, ver := 0,
    hints := [], cands := [], paused := false, locked := false, resumed := false, leaves := 0 }

/-- `twalk D, qN, vA [, screen]`: the query is read whole and prepared; STATE becomes 1 (R397). -/
def ruleTwalk (d : Opd) (q : Fin 4) (v : Fin 8) (screen : Bool) (e : Env) : Option Fire :=
  match e.qreg q with
  | none => none
  | some x =>
    if !(e.engineFree && e.destReady d) then none
    else match e.binding x with
      | .error f => some (e.fault 1 [] (Opd.out? d) f)
      | .ok (p, hn, ht) =>
        if 8 < v.val + p.d / 16 then some (e.fault 1 [] (Opd.out? d) (tbounds 11))
        else
          let g := queryGroup v (p.d / 16)
          if g.any (fun k => e.pending (.v k)) then none
          else match g.find? (fun k => e.pre.v[k].tag ≠ f32) with
            | some k => some (e.fault 1 [] (Opd.out? d) (badTag e.pre.v[k].tag))
            | none =>
              let lam := to32 .rne (log2e.mul (of32 (BitVec.ofNat 32 p.sigma)))
              let qp := (g.flatMap fun k => e.pre.v[k].codes f32).map fun c => to32 .rne ((of32 (BitVec.ofNat 32 c)).mul (of32 lam))
              let nu := normUp (qp.map of32) (qp.map fun _ => .zero false)
              let ex := (match e.s.voyage? e.pre.voy with | some y => y.pkt[0].getLsbD 8 | none => false) || (p.tau == 0 && p.budget == 0)
              let x := { x with
                qp := qp, lam := lam, nu := nu, walk := some (Walk.fresh p ex screen), state := 1, pauses := 0, rstrt := 0, stop := 0,
                visits := 0, rootver := 0 }
              some ((e.handOver d q .walk hn ht HEntry.empty HEntry.empty []).after [.setQ q x])
def execTwalk (hdr : Hdr) (d : Opd) (q : Fin 4) (v : Fin 8) (screen : Bool) (s : State) : Host.Outcome State Fault Refusal :=
  runRule hdr (ruleTwalk d q v screen) s

/-! ### Firing: set-up, read-out, hints (R393, R398-R401) -/

/-- Whether the engine is busy with an operation on qN. -/
def Env.onQ (e : Env) (q : Fin 4) : Bool :=
  match e.pre.sd with
  | some d => (match d.eng with | some j => j.q == q && (match j.op with | .forkPages _ => false | _ => true) | none => false)
  | none => false

/-- `tpar qN, vA, hN, hT, head`. -/
def ruleTpar (q : Fin 4) (a : Opd) (hn ht : Fin 16) (head : BitVec 4) (e : Env) : Option Fire :=
  match e.read a, e.qreg q with
  | some x, some y =>
    if e.onQ q then none
    else some ⟨x.eff ++ [.setQ q { y with param := x.tok.data, head := head, hn := BitVec.ofNat 4 hn.val, ht := BitVec.ofNat 4 ht.val }], none⟩
  | _, _ => none
def execTpar (hdr : Hdr) (q : Fin 4) (a : Opd) (hn ht : Fin 16) (head : BitVec 4) (s : State) : Host.Outcome State Fault Refusal :=
  runRule hdr (ruleTpar q a hn ht head) s

/-- `tres D, qN, p`: lanes 16p to 16p + 15 of the output (R400). -/
def ruleTres (d : Opd) (q : Fin 4) (p : BitVec 3) (e : Env) : Option Fire :=
  match e.qreg q with
  | none => none
  | some y =>
    if y.state = 1 then none
    else if y.dim / 16 ≤ p.toNat then e.result 1 false [] d (.error (tbounds 11))
    else
      let lanes := (List.range 16).map fun i => (y.out.getD (16 * p.toNat + i) 0).toNat
      e.result 1 false [] d (.ok (Token.vec (VReg.plain f32 (packLanes 32 lanes)) e.sl))
def execTres (hdr : Hdr) (d : Opd) (q : Fin 4) (p : BitVec 3) (s : State) : Host.Outcome State Fault Refusal := runRule hdr (ruleTres d q p) s

/-- `tstat D, qN, w` (Table 18.5). -/
def ruleTstat (d : Opd) (q : Fin 4) (w : BitVec 2) (e : Env) : Option Fire :=
  match e.qreg q with
  | none => none
  | some y =>
    if y.state = 1 then none
    else
      let x : Nat := match w.toNat with
        | 0 => y.dsum.toNat + y.usum.toNat * 2 ^ 32
        | 1 => y.llo.toNat + y.m.toNat * 2 ^ 32
        | 2 => y.visits.toNat + y.stop.toNat * 2 ^ 32 + y.rstrt.toNat * 2 ^ 36 + y.pauses.toNat * 2 ^ 40 + y.state.toNat * 2 ^ 44
        | _ => y.rootver.toNat
      e.scalar 1 false [] d (BitVec.ofNat 64 x)
def execTstat (hdr : Hdr) (d : Opd) (q : Fin 4) (w : BitVec 2) (s : State) : Host.Outcome State Fault Refusal := runRule hdr (ruleTstat d q w) s

/-- min(0xFFFF, floor(2^16 × x / max)) of nonnegative values; a maximum of 0 gives 0 (R399). -/
def share16 (x mx : Num) : Nat :=
  match x, mx with
  | .fin _ a, .fin _ b =>
    if b.isZero then 0
    else
      let (p, e) := a.toDy
      let (q, g) := b.toDy
      Nat.min 0xFFFF (ratFloor p q (16 + e - g)).1
  | .inf _, _ => 0xFFFF
  | _, _ => 0

/-- `tsum D, qN, p`: the candidates' shares of the greatest μ or δ (R399). -/
def ruleTsum (d : Opd) (q : Fin 4) (delta : Bool) (e : Env) : Option Fire :=
  match e.qreg q with
  | none => none
  | some y =>
    match y.walk with
    | none => none
    | some w =>
      if y.state ≠ 2 then none
      else
        let xs := w.cands.map fun f => of32 (if delta then f.delta else f.mu)
        let mx := xs.foldl Num.max (.zero false)
        let lanes := (xs.map fun x => share16 x mx) ++ List.replicate (16 - xs.length) 0 ++ [xs.length]
        e.result 1 false [] d (.ok (Token.vec (VReg.plain 39 (packLanes 16 lanes)) e.sl))
def execTsum (hdr : Hdr) (d : Opd) (q : Fin 4) (delta : Bool) (s : State) : Host.Outcome State Fault Refusal := runRule hdr (ruleTsum d q delta) s

/-- `tscr qN, src`: hints; the walk resumes at the end of the cycle, unless a `tchk abort` of the cycle ends it (R399, R404). -/
def ruleTscr (q : Fin 4) (a : Opd) (e : Env) : Option Fire :=
  match e.read a, e.qreg q with
  | some x, some y =>
    if y.walk.isNone || y.state != 2 then none
    else if x.vreg.tag ≠ 37 then some (e.fault 1 x.eff none (badTag x.vreg.tag))
    else some ⟨x.eff ++ [.hints q ((List.range 16).map fun i => laneAt x.vreg.data.toNat 8 i)], none⟩
  | _, _ => none
def execTscr (hdr : Hdr) (q : Fin 4) (a : Opd) (s : State) : Host.Outcome State Fault Refusal := runRule hdr (ruleTscr q a) s

/-- `tchk D, qN, query` (R401). -/
def ruleTchkQuery (d : Opd) (q : Fin 4) (e : Env) : Option Fire :=
  match e.qreg q with
  | none => none
  | some y =>
    let (n, l, r) := match y.walk with | some w => (w.frontier.length, w.leaves, w.resumed) | none => (0, 0, false)
    let b (c : Bool) (i : Nat) : Nat := if c then 2 ^ i else 0
    e.scalar 1 false [] d (BitVec.ofNat 64 (b (y.state == 1) 0 + b (y.state == 2) 1 + b r 2 + n % 256 * 2 ^ 8 + l % 2 ^ 32 * 2 ^ 32))
def execTchkQuery (hdr : Hdr) (d : Opd) (q : Fin 4) (s : State) : Host.Outcome State Fault Refusal := runRule hdr (ruleTchkQuery d q) s

/-- `tchk D, qN, abort`: the walk ends without a completion; its claimed entry is filled with a zero token, its d register is written 0 (R401). -/
def ruleTchkAbort (d : Opd) (q : Fin 4) (e : Env) : Option Fire :=
  match e.qreg q, (e.pre.sd.bind (·.eng)) with
  | none, _ => none
  | some y, j =>
    match j with
    | some j =>
      if (y.state = 1 ∨ y.state = 2) ∧ j.q = q ∧ j.op = .walk then
        let free : List Effect := match j.dest with
          | .out o id => [.fillOut o id (Token.scalar 0 j.slack)]
          | .d n => [.setD n 0, .unpend (.d n)]
          | _ => []
        let unlock : List Effect := match j.locks with
          | [] => []
          | (_, v) :: _ =>
            [.req { e.req (loneHdr e.hdr) j.h1 (.store 8) accTree (j.h1.base.toNat + 0x10) none (BitVec.ofNat 512 (v + 2).toNat) 0 .none with
              credit := false, src := .tree e.f.st }]
        let y' := { y with out := List.replicate y.dim 0, stop := 5, state := 3 }
        (e.scalar 1 false (free ++ unlock ++ [.setQ q y', .engine none]) d (y.visits.setWidth 64))
      else e.scalar 1 false [] d 0
    | none => e.scalar 1 false [] d 0
def execTchkAbort (hdr : Hdr) (d : Opd) (q : Fin 4) (s : State) : Host.Outcome State Fault Refusal := runRule hdr (ruleTchkAbort d q) s

/-! ### The walk's reads (R380, R384, R308) -/

/-- Lines that the node cache keeps: 128 KiB of lines homed on other dies (R308); the oldest leaves first. -/
def cacheLines : Nat := 1024

/-- A line of another die that the node cache holds; a line of the cache's own die is read where it is, so it is never stale. -/
def State.cached (s : State) (st : StId) (line : Nat) : Option Nat :=
  if lineHome line = st.die then none else (s.station? st).bind fun t => (t.cache.find? fun e => e.1 == line).map (·.2)

/-- Why a walk does not go on: a fault, a record whose LOCK a writer holds or has moved, which is read again (R384), or requests that it waits for. -/
inductive WStop
  | fault (f : FaultC) | busy | ask (l : List TAsk)
  deriving DecidableEq, Repr

/-- The address of a probe in one page: none where a load would be withheld. -/
def State.probePage (s : State) (b : TBind) (va : Nat) : Except WStop (Option Nat) :=
  match s.walk b.asid va with
  | .absent => .ok none
  | .malformed => .error (.fault (transFault 2 accTree va))
  | .corrupt f => .error (.fault f)
  | .leaf a e =>
    if pteVers e then .error (.fault (transFault 3 accTree va))
    else match s.useEntry (.leaf a e) va true false with
      | .held _ => .ok none
      | .fault k => .error (.fault (transFault k accTree va))
      | .corrupt f => .error (.fault f)
      | .pa pa _ => if s.cls pa ≠ .dev then .error (.fault (transFault 0 accTree va)) else .ok (some pa)

/-- A probe of n bytes in one page, through the node cache and the requests that have come back (R308, R390). -/
def State.probe (s : State) (b : TBind) (memo : List (TreeKey × Nat)) (h : HEntry) (va n : Nat) (again : Bool) : Except WStop (Option Nat) := do
  match ← s.probePage b va with
  | none => return none
  | some pa =>
    let hits := (chunksOf pa n).filterMap fun c => (s.cached b.st (c / 2)).map fun x => (TreeKey.data c again, laneAt x 512 (c % 2))
    match chunkRead (hits ++ memo) h va pa n again with
    | .ok x => return some x
    | .error l => throw (.ask l)

/-- A node record, LOCK before and after it: one whose LOCK is held, or moves, is busy, but for the root that the walk itself has locked (R384, R385). -/
def State.probeNode (s : State) (b : TBind) (memo : List (TreeKey × Nat)) (own : Bool) (i : Nat) : Except WStop (Option TNode) := do
  if b.hn.size.toNat < (i + 1) * b.p.s then return none
  match ← s.probe b memo b.hn (lockVa b i) 8 false with
  | none => return none
  | some v =>
    if v % 2 = 1 ∧ !(own && i == 0) then throw .busy
    match ← s.probe b memo b.hn (b.hn.base.toNat + i * b.p.s) b.p.s false, ← s.probe b memo b.hn (lockVa b i) 8 true with
    | some x, some v' => if v' ≠ v then throw .busy else return some (TNode.ofBits b.p x)
    | _, _ => return none

/-- All of several, or none of them. -/
def probeAll {α : Type} (f : Nat → Except WStop (Option α)) : List Nat → Except WStop (Option (List (Nat × α)))
  | [] => return some []
  | i :: r => do
    match ← f i, ← probeAll f r with
    | some x, some xs => return some ((i, x) :: xs)
    | _, _ => return none

def State.probeSlot (s : State) (b : TBind) (memo : List (TreeKey × Nat)) (t : Nat) : Except WStop (Option TSlot) := do
  return (← s.probe b memo b.ht (b.ht.base.toNat + b.p.slot t b.head) b.p.z false).map (TSlot.ofBits b.p)

/-! ### Bounds and estimates (R378, R379) -/

/-- The exact sum of terms, with the signs of zero of R111. -/
def sumNum : List Num → Num
  | [] => .zero false
  | x :: r => r.foldl (Num.add false) x

def dotNum (x y : List Num) : Num := sumNum ((x.zip y).map fun (a, b) => a.mul b)
def sub (a b : Num) : Num := Num.add false a b.neg
def exp2At (rm : RM) (c : BitVec 32) : BitVec 32 := to32 rm (of32 c).exp2

/-- lo, mid, hi of a node. -/
def interval (q : QReg) (r : TNode) : BitVec 32 × BitVec 32 × BitVec 32 × BitVec 32 :=
  let s := dotNum (q.qp.map of32) r.ckv
  let a := to32 .ru ((of32 q.nu).mul (of32 r.rad))
  (a, to32 .rd (Num.add true s (of32 a).neg), to32 .rne s, to32 .ru (Num.add false s (of32 a)))

/-- The frontier entry of a node under the reference m. -/
def mkEntry (q : QReg) (m : Int) (i : Nat) (r : TNode) : FEntry :=
  let (_, lo, mid, hi) := interval q r
  let n := Num.ofInt r.n
  let mm := Num.ofInt m
  let up := exp2At .ru (to32 .ru (sub (of32 hi) mm))
  let dn := exp2At .rd (to32 .rd (sub (of32 lo) mm))
  { node := i, unref := r.sealed, leaf := r.leaf, lo := lo, hi := hi, mid := mid,
    delta := to32 .ru (n.mul (of32 (to32 .ru (sub (of32 up) (of32 dn))))),
    lamLo := to32 .rd (n.mul (of32 dn)),
    mu := to32 .rne (n.mul (of32 (exp2At .rne (to32 .rne (sub (of32 mid) mm))))), cv := r.cv }

/-- Add a term p and its value terms to L and the N_i. -/
def Walk.addTerm (w : Walk) (p : BitVec 32) (v : List Num) : Walk :=
  { w with l := w.l.add (X320.ofNum (of32 p)),
           acc := (w.acc.zip v).map fun (a, x) => a.add (X320.ofNum (of32 (to32 .rne ((of32 p).mul x)))) }

/-- Score the members of a leaf (R379). -/
def Walk.score (p : TPar) (q : QReg) (w : Walk) (leaf : TNode) (ts : List TSlot) : Walk :=
  let w := ts.foldl (fun w t =>
    let s := dotNum (q.qp.map of32) (t.keyVals p leaf)
    w.addTerm (exp2At .rne (to32 .rne (sub s (Num.ofInt w.m)))) (t.val.vals p.fmt)) w
  { w with leaves := w.leaves + 1 }

/-- The least integer at or above a finite value. -/
def ceilNum : Num → Int
  | .fin neg m =>
    let (n, e) := sdy neg m
    if 0 ≤ e then n * (2 ^ e.toNat : Nat) else -((-n) / (2 ^ (-e).toNat : Nat))
  | _ => 0

/-- The quotient of an accumulator by L. -/
def quotNum (a l : Num) : Num :=
  match a, l with
  | .fin na m, .fin _ k =>
    if k.isZero then .zero false
    else if m.isZero then .zero na
    else .fin na ⟨.rat m.toDy.1 k.toDy.1, m.toDy.2 - k.toDy.2⟩
  | .inf n, .fin _ _ => .inf n
  | _, _ => .nan

def sumOf (f : FEntry → BitVec 32) (l : List FEntry) : Num := l.foldl (fun s x => Num.add false s (of32 (f x))) (.zero false)

/-- End a walk: the estimates of the remaining nodes, the output and the status (R380, R381). Their records are read again: one that is gone keeps the
centroid that its entry was made with, a fault ends the walk without an output (R387). -/
def finishWalk (s : State) (b : TBind) (memo : List (TreeKey × Nat)) (q : QReg) (w : Walk) (code : BitVec 3) (d : Num) (rest : List FEntry) :
    Except WStop QReg := do
  let llo := Num.add false w.l.toNum (sumOf (·.lamLo) rest)
  let us := sumOf (·.delta) (rest.filter (·.unref))
  let _ ← probeAll (s.probeNode b memo w.locked) (rest.map (·.node))
  let w' := rest.foldl (fun (w : Walk) x => w.addTerm x.mu (x.cv.map ofB16)) w
  return { q with
      walk := some w', state := 3, stop := code, dsum := to32 .ru d, usum := to32 .ru us, llo := to32 .rd llo,
      m := to32 .rne (Num.ofInt w.m), out := w'.acc.map fun a => to32 .rne (quotNum a.toNum w'.l.toNum) }

/-- The walk of an empty tree. -/
def emptyWalk (p : TPar) (q : QReg) : QReg :=
  { q with state := 3, stop := 2, visits := 0, dsum := 0, usum := 0, llo := 0, m := 0, out := List.replicate p.d 0 }

/-- The walk of a tree whose root record is not present: nothing is refinable and nothing is scored. The spec states neither its reference nor its sums
nor its output: they are free values (log 91). -/
def blindWalk (p : TPar) (free : Nat) (q : QReg) : QReg :=
  let x (i : Nat) : BitVec 32 := (Config.freeWord (free + i)).setWidth 32
  { q with state := 3, stop := 2, visits := 0, dsum := 0, usum := x 0, llo := x 1, m := x 2, out := (List.range p.d).map fun i => x (i + 3) }

/-! ### The walk's loop -/

/-- What a step of the walk comes to: its end, a pause, the next step, a record that is read again, requests, or a fault with the register it left. -/
inductive WOut
  | stop (q : QReg) | pause (q : QReg) | more (q : QReg) | busy | ask (l : List TAsk) | fault (q : QReg) (f : FaultC)
  deriving DecidableEq, Repr

/-- What a step comes to where the walk of q does not go on. -/
def WOut.halt (q : QReg) : WStop → WOut
  | .fault f => .fault q f
  | .busy => .busy
  | .ask l => .ask l

/-- What a step comes to at the walk's end. -/
def WOut.ofEnd (q : QReg) : Except WStop QReg → WOut
  | .ok q => .stop q
  | .error x => .halt q x

/-- The entry with the greatest δ; ties go to the least node index. -/
def bestEntry : List FEntry → Option FEntry
  | [] => none
  | x :: r => some (r.foldl (fun a c =>
      if (of32 a.delta).lt (of32 c.delta) then c
      else if (of32 c.delta).lt (of32 a.delta) then a
      else if c.node < a.node then c else a) x)

/-- The 16 entries of greatest δ, in that order. -/
def candidates : Nat → List FEntry → List FEntry
  | 0, _ => []
  | n + 1, l =>
    match bestEntry l with
    | none => []
    | some x => x :: candidates n (l.filter (fun y => y.node ≠ x.node))

/-- The choice of x: a hinted node, a pause for hints, or the greatest δ (R380, R398). -/
inductive Choice
  | node (x : FEntry) (hints : List Nat) | pause

def Walk.choose (w : Walk) (pauses : Nat) (r : List FEntry) : Option Choice :=
  match bestEntry r with
  | none => none
  | some x =>
    if w.screen && !w.exact then
      match w.hints.findSome? (fun n => r.find? (fun f => f.node == n)) with
      | some f => some (.node f (w.hints.filter (fun n => n ≠ f.node)))
      | none => if 2 ≤ r.length ∧ pauses < 8 then some .pause else some (.node x [])
    else some (.node x w.hints)

/-- Expand a node: its children's entries, or its members scored; none when a record or a token page is not present. -/
def expand (s : State) (b : TBind) (memo : List (TreeKey × Nat)) (q : QReg) (w : Walk) (r : TNode) : Except WStop (Option (List FEntry × Walk)) := do
  let kids := r.ch.map (·.1)
  if r.leaf then return (← probeAll (s.probeSlot b memo) kids).map fun ts => ([], w.score b.p q r (ts.map (·.2)))
  else return (← probeAll (s.probeNode b memo w.locked) kids).map fun ns => (ns.map fun (k, n) => mkEntry q w.m k n, w)

/-- A turn of the loop of R380. -/
def walkStep (s : State) (b : TBind) (memo : List (TreeKey × Nat)) (q : QReg) (w : Walk) : WOut :=
  let r := w.frontier.filter (fun f => !f.unref)
  let d := sumOf (·.delta) r
  let llo := Num.add false w.l.toNum (sumOf (·.lamLo) w.frontier)
  let here : QReg := { q with walk := some w }
  let stop (code : BitVec 3) : WOut := .ofEnd here (finishWalk s b memo q w code d w.frontier)
  if r.isEmpty then stop 2
  else if !(((ofB16 b.p.tau).mul llo).lt d) then stop 0
  else if b.p.budget ≠ 0 ∧ q.visits.toNat = b.p.budget then stop 1
  else match w.choose q.pauses.toNat r with
    | none => stop 2
    | some .pause => .pause { q with state := 2, pauses := q.pauses + 1, walk := some { w with paused := true, hints := [], cands := candidates 16 r } }
    | some (.node x hints) =>
      let visit : QReg := { here with visits := q.visits + 1 }
      let w := { w with hints := hints }
      let gone : WOut := .more { visit with walk := some { w with frontier := w.frontier.map fun f => if f.node = x.node then { f with unref := true } else f } }
      match s.probeNode b memo w.locked x.node with
      | .error e => .halt (if x.leaf then visit else here) e
      | .ok none => gone
      | .ok (some n) =>
        if !x.leaf && decide (64 < w.frontier.length - 1 + n.ch.length) then stop 3
        else
          match expand s b memo q w n with
          | .error e => .halt visit e
          | .ok none => gone
          | .ok (some (kids, w)) => .more { visit with walk := some { w with frontier := w.frontier.filter (fun f => f.node ≠ x.node) ++ kids } }

/-- Levels of the path stack (R381). -/
def pathLevels : Nat := 16

/-- A turn of exact mode: depth first, in CH order (R381). An internal node below the last level is not refined: no tree of a legal height has one. -/
def exactStep (s : State) (b : TBind) (memo : List (TreeKey × Nat)) (q : QReg) (w : Walk) : WOut :=
  let here : QReg := { q with walk := some w }
  match w.kids with
  | [] => .ofEnd here (finishWalk s b memo q w 4 (.zero false) w.done)
  | [] :: up => .more { q with walk := some { w with kids := up, frontier := w.frontier.tail } }
  | (x :: rest) :: up =>
    let left : Walk := { w with kids := rest :: up, done := w.done ++ [{ x with unref := true }] }
    if x.unref || (!x.leaf && pathLevels ≤ w.frontier.length) then .more { q with walk := some left }
    else
      let visit : QReg := { here with visits := q.visits + 1 }
      match (do match ← s.probeNode b memo w.locked x.node with | some n => expand s b memo q w n | none => return none) with
      | .error e => .halt visit e
      | .ok none => .more { visit with walk := some left }
      | .ok (some (kids, w)) =>
        let w : Walk := if x.leaf then { w with kids := rest :: up } else { w with frontier := x :: w.frontier, kids := kids :: rest :: up }
        .more { visit with walk := some w }

def runWalk (s : State) (b : TBind) (memo : List (TreeKey × Nat)) (q : QReg) (w : Walk) : WOut :=
  if w.exact then exactStep s b memo q w else walkStep s b memo q w

/-- Every element of the query, λ and ν are finite (R378). -/
def QReg.finite (q : QReg) : Bool := (q.qp ++ [q.lam, q.nu]).all fun c => isFin (of32 c)

/-- A walk that has nothing left of what it reached: no frontier, accumulators, hints or leaves (R385). -/
def Walk.discard (p : TPar) (w : Walk) : Walk := { Walk.fresh p w.exact w.screen with ver := w.ver, locked := w.locked, resumed := w.resumed }

/-- A walk that stands at its start. -/
def Walk.atStart (w : Walk) : Bool := w.frontier.isEmpty && w.kids.isEmpty && w.done.isEmpty && w.leaves == 0

/-- Start a walk at the root (R378, R385). -/
def startWalk (p : TPar) (q : QReg) (w : Walk) (root : TNode) : WOut :=
  let (a, lo, mid, hi) := interval q root
  let w := w.discard p
  if !(q.finite && [a, lo, mid, hi].all fun c => isFin (of32 c)) then .fault { q with walk := some w } (tbounds 13)
  else
    let m := ceilNum (of32 hi)
    let e := mkEntry q m 0 root
    .more { q with visits := 0, walk := some { w with m := m, frontier := if w.exact then [] else [e], kids := if w.exact then [[e]] else [] } }

/-! ### The engine's events -/

/-- The binding of the job's query register. -/
def jobBind (s : State) (t : Station) (q : QReg) (j : TreeJob) : TBind :=
  { p := (tparOf q.param).getD ⟨4, 64, 0, 1, 0, 0, 1⟩, asid := (match s.voyage? t.voy with | some v => v.asid | none => 0),
    hn := j.h1, ht := j.h2, head := q.head.toNat, st := t.id }

/-- The station's engine becomes j. -/
def State.setEngine (s : State) (i : StId) (j : Option TreeJob) : State :=
  s.modStation i fun t => { t with sd := t.sd.map fun d => { d with eng := j } }

def State.setQuery (s : State) (i : StId) (n : Fin 4) (q : QReg) : State :=
  s.modStation i fun t => { t with sd := t.sd.map fun d => { d with q := d.q.set n q } }

def TreeJob.who (j : TreeJob) (i : StId) : Who := ⟨i, j.ctx, j.slot⟩

/-- The operation ends with a completion payload. -/
def State.treeDone (s : State) (i : StId) (j : TreeJob) (x : Nat) : State :=
  (s.setEngine i none).landNew (j.who i) j.dest j.slack (.ok (scalarReg (BitVec.ofNat 64 x)))

def State.treeFault (s : State) (i : StId) (j : TreeJob) (f : FaultC) : State :=
  (s.setEngine i none).landFault (j.who i) j.dest j.slack f

/-- A request of the engine, through the port of its handle, in the engine's own domain there, with the slack of the rule's SL (R51, R390). -/
def State.treeReq (s : State) (t : Station) (j : TreeJob) (a : TAsk) : Req :=
  let port := (t.id.die, a.h.port.toNat)
  let num := match s.domains.find? (fun d => d.voy == t.voy && d.reg == t.reg && d.src == .tree t.id && d.die == port.1 && d.port == port.2) with
    | some d => d.num
    | none => 0
  { id := s.nextId, voy := t.voy, reg := t.reg, src := .tree t.id, st := t.id, ctx := j.ctx, slot := j.slot, time := j.time,
    op := .tree j.time a.key a.n a.wr, h := a.h, va := a.va, pa := none, data := BitVec.ofNat 512 a.x, y := BitVec.ofNat 64 a.y,
    stamp := mkStamp j.major num 0, pred := 0x7F, own := 0, succ := 0x7F, mf := 0, pass := 0, port := some port, dest := .none, slack := j.slack, epoch := 0,
    parts := [], acc := accTree, released := false, credit := false,
    asid := (match s.voyage? t.voy with | some v => v.asid | none => 0), vers := false, task := none, held := 0, arrived := 0, way := [], queued := 0,
    stood := 0, stage := .net Config.netLatency }

/-- The engine issues requests, in order; each emitted with SL 0 counts (R56). -/
def State.askAll (s : State) (i : StId) (j : TreeJob) (l : List TAsk) : State :=
  match s.station? i with
  | none => s
  | some t =>
    l.foldl (fun s a =>
      let s := { s with reqs := s.reqs ++ [s.treeReq t j a] }.fresh
      if !j.slack.bg && j.slack.n = 0 then s.countOverdue i else s) s

/-- Whether requests of a station's engine are on their way. -/
def State.treeBusy (s : State) (i : StId) : Bool :=
  s.reqs.any fun q => q.src == .tree i && match q.op with | .tree .. => true | _ => false

/-- A reply to the engine: what it brings, for the operation that asked, or its fault. A line of another die that a walk has read whole goes into the node
cache (R308). -/
def State.treeReply (s : State) (i : StId) (job : Nat) (key : TreeKey) (r : Reply) : State :=
  s.modStation i fun t =>
    match t.sd.bind fun d => d.eng.map fun j => (d, j) with
    | none => t
    | some (d, j) =>
      if j.time ≠ job then t
      else
        match r with
        | .fault k =>
          let f : FaultC := ⟨k.code.toNat, (k.data.extractLsb' 32 32).toNat, (k.data.extractLsb' 64 64).toNat⟩
          { t with sd := some { d with eng := some { j with bad := some (j.bad.getD f) } } }
        | .silent => t
        | .ok v =>
          let memo := match key with | .put => j.memo | _ => (key, v.data.toNat) :: j.memo.filter fun e => e.1 ≠ key
          let t := { t with sd := some { d with eng := some { j with memo := memo } } }
          match key with
          | .data c false =>
            let l := c / 2
            if j.op ≠ .walk ∨ lineHome l = i.die then t
            else match memoAt memo (.data (2 * l) false), memoAt memo (.data (2 * l + 1) false) with
              | some x, some y => { t with cache := ((l, x + y * 2 ^ 512) :: t.cache.filter fun e => e.1 ≠ l).take cacheLines }
              | _, _ => t
          | _ => t

/-- A LOCK that has been tried is read again the next time. -/
def TreeJob.again (j : TreeJob) : TreeJob :=
  { j with memo := j.memo.filter fun e => (match e.1 with | .lock _ => false | .take _ => false | _ => true), left := 64 }

/-- What an error of the engine comes to: a fault, a wait for the Cadastre or the driver, another attempt 64 cycles later, or requests to wait for. -/
def State.treeErr (s : State) (i : StId) (j : TreeJob) : TErr → State
  | .fault f => s.treeFault i j f
  | .frames d why va => (s.borrow d).setEngine i (some { j with wait := some (why, va), left := 64 })
  | .held why va => s.setEngine i (some { j with wait := some (why, va), left := 64 })
  | .retry => s.setEngine i (some j.again)
  | .ask s l => (s.setEngine i (some j)).askAll i j l

/-- The locks that a writer holds are released, and the engine goes on as j; one that cannot be given back is left (R383). -/
def State.treeUnlock (s : State) (i : StId) (j : TreeJob) (b : TBind) (locks : List (Nat × Word)) : State :=
  match s.releaseAsks b locks with
  | .ok (as, s) => (s.setEngine i (some j)).askAll i j as
  | .error (.fault _) => s.setEngine i (some j)
  | .error e => s.treeErr i { j with locks := locks } e

/-- A writer fails: its locks are given back first. -/
def State.treeFail (s : State) (i : StId) (j : TreeJob) (b : TBind) (f : FaultC) : State :=
  if j.locks.isEmpty then s.treeFault i j f else s.treeUnlock i { j with locks := [], bad := some f } b j.locks

/-- A fork of a tree: the page effect, then the released value in the roots of both trees (R396). -/
def State.forkBoth (s : State) (j : TreeJob) (b : TBind) (n : Nat) : Except TErr (Nat × List TAsk × State) := do
  let (s, x) ← s.fork b.asid
    (pagePairs j.h1.base.toNat j.h3.base.toNat (j.h1.size.toNat / 65536) ++ pagePairs j.h2.base.toNat j.h4.base.toNat n)
  let (a1, s) ← s.releaseAsks b j.locks
  let (a2, s) ← s.releaseAsks { b with hn := j.h3 } j.locks
  return (x, a1 ++ a2, s)

/-- What a writer does first: it reads what it needs, computes everything, takes its locks and issues its writes (R371, R383, R390). -/
def State.treePlan (s : State) (i : StId) (j : TreeJob) (b : TBind) : State :=
  let fail (s : State) (locks : List (Nat × Word)) (e : TErr) : State :=
    let j := { j with locks := locks }
    match e with
    | .fault f => s.treeFail i j b f
    | e => s.treeErr i j e
  let write (w : TW) (sealing : Bool) (x : Nat) (pages : List Nat) : State :=
    match w.plan b sealing j.locks with
    | .go s locks as =>
      let j := { j with locks := locks, step := .write, res := x, pages := pages }
      (s.setEngine i (some j)).askAll i j as
    | .wait s locks e => fail s locks e
  match j.op with
  | .tins t =>
    match (tinsert b t).run (TW.start s j.memo) with
    | .error e => fail s j.locks e
    | .ok (x, w) => write w false x []
  | .tdrop t0 t1 =>
    match (tdropRange b t0 t1).run (TW.start s j.memo) with
    | .error e => fail s j.locks e
    | .ok (x, w) => write w false x []
  | .tseal x =>
    match (tsealNode b x).run (TW.start s j.memo) with
    | .error e => fail s j.locks e
    | .ok ((n, pages), w) => write w true (n % 2 ^ 32 + pages.length % 2 ^ 32 * 2 ^ 32) pages
  | .forkPages n =>
    match s.fork b.asid (pagePairs j.h2.base.toNat j.h1.base.toNat n) with
    | .error e => fail s j.locks e
    | .ok (s, x) => s.treeDone i j x
  | .forkTree n =>
    match s.forkBoth j b n with
    | .error e => fail s j.locks e
    | .ok (x, as, s) => let j := { j with step := .unlock, res := x }; (s.setEngine i (some j)).askAll i j as
  | .walk => s

/-- A writer goes on: it plans and writes, releases its locks once every write has performed, and completes once they have been released; a seal's pages go
last (R375, R383, R395). -/
def State.treeWrite (s : State) (i : StId) (j : TreeJob) (b : TBind) : State :=
  match j.bad, j.step with
  | some f, _ => s.treeFail i j b f
  | none, .plan => s.treePlan i j b
  | none, .write => s.treeUnlock i { j with locks := [], step := .unlock } b j.locks
  | none, .unlock => (j.pages.foldl (fun s pg => s.releasePage b.asid (b.ht.base.toNat + pg * 2 ^ 16)) s).treeDone i j j.res

/-- The lock of a walk is given back as it ends (R385). -/
def State.unlock (s : State) (i : StId) (j : TreeJob) (b : TBind) : State :=
  match s.releaseAsks b j.locks with | .ok (as, s) => s.askAll i j as | .error _ => s

/-- A walk ends with a fault: STOP 6, no output, the lock given back (R387, R403). -/
def State.walkFault (s : State) (i : StId) (j : TreeJob) (b : TBind) (q : QReg) (f : FaultC) : State :=
  ((s.unlock i j b).setQuery i j.q { q with state := 3, stop := 6 }).treeFault i j f

/-- A walk whose tree holds no root to score ends at once with the register `e` gives; a query that is not finite raises its fault first (R378). -/
def State.walkNone (s : State) (i : StId) (j : TreeJob) (b : TBind) (q : QReg) (e : QReg → QReg) : State :=
  if q.finite then ((s.unlock i j b).setQuery i j.q (e q)).treeDone i j (2 * 2 ^ 32 + q.rstrt.toNat * 2 ^ 36)
  else s.walkFault i j b q (tbounds 13)

/-- A step of the walk: its end, a pause, the next step, which reads anew, a record that is read again 64 cycles later, requests to wait for. -/
def State.walkEnd (s : State) (i : StId) (j : TreeJob) (b : TBind) : WOut → State
  | .fault q f => s.walkFault i j b q f
  | .pause q => (s.setQuery i j.q q).setEngine i (some { j with memo := [] })
  | .more q => (s.setQuery i j.q q).setEngine i (some { j with memo := [], left := 1 })
  | .busy => s.setEngine i (some { j with memo := [], left := 64 })
  | .ask l => (s.setEngine i (some j)).askAll i j l
  | .stop q =>
    let x := q.visits.toNat + q.stop.toNat * 2 ^ 32 + q.rstrt.toNat * 2 ^ 36
    ((s.unlock i j b).setQuery i j.q q).treeDone i j x

/-- Whether the root's version is the one that the walk has read (R385); a walk that holds the lock makes no comparison, and while the root's page is not
present no version can be compared (log 91). -/
def State.sameRoot (s : State) (b : TBind) (memo : List (TreeKey × Nat)) (w : Walk) (again : Bool) : Except WStop Bool := do
  if w.locked then return true
  match ← s.probe b memo b.hn (lockVa b 0) 8 again with
  | none => return true
  | some v => if v % 2 = 1 then throw .busy else return v == w.ver.toNat

/-- The root's version has moved: the walk discards what it has and starts again; after four times it takes the root's lock first (R385). -/
def State.restartWalk (s : State) (i : StId) (j : TreeJob) (b : TBind) (q : QReg) (w : Walk) : State :=
  let q := { q with rstrt := q.rstrt + 1, visits := 0, walk := some (w.discard b.p) }
  if q.rstrt = 4 then
    match s.lockNode b j.memo 0 with
    | .error (.fault f) => s.walkFault i j b q f
    | .error e => s.treeErr i j e
    | .ok (v, s) =>
      (s.setQuery i j.q { q with walk := some { w.discard b.p with ver := v, locked := true } }).setEngine i
        (some { j with locks := [(0, v)], memo := [], left := 1 })
  else (s.setQuery i j.q q).setEngine i (some { j with memo := [], left := 1 })

/-- A walk starts at its root: one whose tree is empty ends, and one whose root's page is not present ends blind (log 91). -/
def State.beginWalk (s : State) (i : StId) (j : TreeJob) (b : TBind) (q : QReg) (w : Walk) : State :=
  match s.probeNode b j.memo w.locked 0 with
  | .error e => s.walkEnd i j b (.halt q e)
  | .ok none => { s with free := s.free + b.p.d + 3 }.walkNone i j b q (blindWalk b.p s.free)
  | .ok (some root) =>
    let ver := if w.locked then w.ver else root.lock
    let w := { w.discard b.p with ver := ver }
    let q := { q with rootver := ver, walk := some w }
    if root.n = 0 then s.walkNone i j b q (emptyWalk b.p) else s.walkEnd i j b (startWalk b.p q w root)

/-- A walk starts, goes on, or starts again. Its root's version is compared before an expansion, and again once its reads have come back, so that what it
commits is of one moment (R384, R385). -/
def State.treeWalk (s : State) (i : StId) (j : TreeJob) (b : TBind) (q : QReg) (w : Walk) : State :=
  match j.bad with
  | some f => s.walkFault i j b q f
  | none =>
    if w.atStart then s.beginWalk i j b q w
    else
      match s.sameRoot b j.memo w false with
      | .error e => s.walkEnd i j b (.halt q e)
      | .ok false => s.restartWalk i j b q w
      | .ok true =>
        let commit (o : WOut) : State :=
          match s.sameRoot b j.memo w true with
          | .error e => s.walkEnd i j b (.halt q e)
          | .ok false => s.restartWalk i j b q w
          | .ok true => s.walkEnd i j b o
        match runWalk s b j.memo q w with
        | .stop q => commit (.stop q)
        | .pause q => commit (.pause q)
        | .more q => commit (.more q)
        | o => s.walkEnd i j b o

/-- TREE_OP_COMPLETE (R395): the engine of a station acts on its operation, once its requests have come back. -/
def execTreeOpComplete (s : State) : Host.Outcome State Fault Refusal :=
  match s.ev with
  | .st i =>
    match s.station? i with
    | none => .next s
    | some t =>
      match t.sd.bind (fun d => d.eng.map fun j => (j, d.q[j.q])) with
      | none => .next s
      | some (j, q) =>
        let j := { j with wait := none }
        let b := jobBind s t q j
        if s.treeBusy i then .next s
        else match j.op with
          | .walk => match q.walk with | some w => .next (if q.state = 1 then s.treeWalk i j b q w else s) | none => .next s
          | _ => .next (s.treeWrite i j b)
  | _ => .next s

/-- TREE_LOCK_RETRY (R383): a writer tries LOCK of the root, again every 64 cycles while another holds it: it is read, and taken with a
compare-and-swap. -/
def execTreeLockRetry (s : State) : Host.Outcome State Fault Refusal :=
  match s.ev with
  | .st i =>
    match s.station? i with
    | none => .next s
    | some t =>
      match t.sd.bind (fun d => d.eng.map fun j => (j, d.q[j.q])) with
      | none => .next s
      | some (j, q) =>
        let j := { j with wait := none }
        let b := jobBind s t q j
        if s.treeBusy i then .next s
        else match j.bad, s.lockNode b j.memo 0 with
          | some f, _ => .next (s.treeFault i j f)
          | none, .error e => .next (s.treeErr i j e)
          | none, .ok (v, s) => .next (s.setEngine i (some { j with locks := [(0, v)], memo := [], left := Config.homeLatency }))
  | _ => .next s

/-- Whether the engine's next action is to take the root lock. -/
def TreeJob.needsLock (j : TreeJob) : Bool :=
  j.locks.isEmpty && j.step == .plan && j.bad.isNone && (match j.op with | .forkPages _ => false | .walk => false | _ => true)

end Sys2Proof.Machine
end

