-- ==== Sys2Proof/Machine/Stream.lean ====
section
/-! DEFINITION. Stochastic-stream rules and the parts of `sin` and `sout` (chapter 20). -/

namespace Sys2Proof.Machine

open Sys2Proof

/-! ### Generators (R415) -/

/-- The seed state of class g. -/
def lfsrInit (seed : Word) (g : Nat) : Nat :=
  let k := (g + 1) * 0x9E3779 % 2 ^ 24
  let s := (seed.toNat % 2 ^ 24) ^^^ (seed.toNat / 2 ^ 24 % 2 ^ 24) ^^^ (seed.toNat / 2 ^ 48) ^^^ k
  if s = 0 then 1 else s

def lfsrStep (s : Nat) : Nat := if s % 2 = 1 then (s / 2) ^^^ 0xE10000 else s / 2

/-- The stream of a value against the outputs of a generator: bit i is x > r_i. -/
def genBits (x : Nat) : Nat → Nat → List Bool
  | 0, _ => []
  | n + 1, s =>
    let t := lfsrStep s
    decide (t / 2 ^ 8 % 2 ^ 16 < x) :: genBits x n t

/-- Bits to a number, bit 0 first. -/
def ofBits : List Bool → Nat
  | [] => 0
  | b :: bs => b.toNat + 2 * ofBits bs

/-- The length of a length code 1-4. -/
def lcLen (lc : BitVec 3) : Nat := if lc = 0 then 0 else 64 * 4 ^ (lc.toNat - 1)

/-- A stream of a value (R420). -/
def genStream (seed : Word) (g : BitVec 4) (len : BitVec 2) (x : Nat) : ZReg :=
  ⟨BitVec.ofNat 4096 (ofBits (genBits x (64 * 4 ^ len.toNat) (lfsrInit seed g.toNat))), BitVec.twoPow 16 g.toNat, len.setWidth 3 + 1⟩

/-- The ones of a stream below its length. -/
def ZReg.count (z : ZReg) : Nat := (List.range (lcLen z.lc)).countP (fun i => z.bits.getLsbD i)

/-- c(L) of Table 20.5. -/
def streamCost (l : Nat) : Nat := Nat.max 1 (l / 256)

/-! ### Sources and results -/

def zeroZ : ZReg := ⟨0, 0, 0⟩

/-- A stream register at the start of the cycle. -/
def Env.z (e : Env) (n : Fin 16) : ZReg := match e.pre.ss with | some x => x.z[n] | none => zeroZ

/-- No stream register named awaits a write. -/
def Env.zReady (e : Env) (ns : List (Fin 16)) : Bool := ns.all fun n => !e.pending (.z n)

def Env.seed (e : Env) : Word := e.special .seed

/-- The correlated-stream fault (Table 20.3). -/
def correlated (a b : BitVec 16) : FaultC := ⟨0x06, a.toNat + b.toNat * 2 ^ 16, 0⟩

/-- The format fault of an empty register or of unequal lengths. -/
def zFormat : FaultC := ⟨fcFormat, 0, 0⟩

/-- Stream results: the unit is occupied, the destinations are pending and land after the latency (R419). -/
def Env.zResult (e : Env) (occ lat : Nat) (eff : List Effect) (r : Except FaultC (List (Fin 16 × ZReg))) : Option Fire :=
  match r with
  | .error f => some (e.fault 1 eff none f)
  | .ok zs =>
    some ⟨eff ++ .busy .stream occ :: zs.map (fun z => .pend (.z z.1)),
      some (lat, zs.flatMap fun z => [.setZ z.1 z.2, .unpend (.z z.1)])⟩

/-- A source that must not be empty (R413). -/
def ZReg.need (z : ZReg) : Except FaultC Unit := if z.lc = 0 then .error zFormat else .ok ()

/-- Bits below a length. -/
def maskLen (lc : BitVec 3) (x : BitVec 4096) : BitVec 4096 := BitVec.ofNat 4096 (x.toNat % 2 ^ lcLen lc)

/-- The register range zD to zD + n. -/
def zRange (d : Fin 16) (n1 : Nat) : List (Fin 16) := (List.range (n1 + 1)).map fun j => ⟨(d.val + j) % 16, Nat.mod_lt _ (by decide)⟩

/-! ### Rules -/

/-- `sgen zD, src, g [, n] [, bipolar]` (R420). -/
def ruleSgen (d : Fin 16) (src : Opd) (g n1 : BitVec 4) (bipolar : Bool) (e : Env) : Option Fire :=
  match e.read src with
  | none => none
  | some x =>
    let ds := zRange d n1.toNat
    if !e.zReady ds then none
    else
      let len := e.ctx.len
      let occ := ds.length * streamCost (64 * 4 ^ len.toNat)
      let v := x.vreg
      let chk : Except FaultC Unit := if n1 = 0 then .ok () else need 39 v
      e.zResult occ (occ + 2) x.eff (chk.map fun _ => ds.zipIdx.map fun (k, j) =>
        let y := laneAt v.data.toNat 16 j
        (k, genStream e.seed g len (if bipolar then y ^^^ 0x8000 else y)))
def execSgen (hdr : Hdr) (d : Fin 16) (src : Opd) (g n1 : BitVec 4) (bipolar : Bool) (s : State) : Host.Outcome State Fault Refusal :=
  runRule hdr (ruleSgen d src g n1 bipolar) s

/-- Two streams of one length combined (R413, R417). -/
def zbin (op : BitVec 4096 → BitVec 4096 → BitVec 4096) (masks : BitVec 16 → BitVec 16 → Except FaultC (BitVec 16)) (r : ZBin) (e : Env) : Option Fire :=
  if !e.zReady [r.d, r.a, r.b] then none
  else
    let a := e.z r.a
    let b := e.z r.b
    let c := streamCost (lcLen a.lc)
    e.zResult c (c + 1) [] (do
      a.need
      b.need
      if a.lc ≠ b.lc then throw zFormat
      let m ← masks a.mask b.mask
      return [(r.d, ⟨maskLen a.lc (op a.bits b.bits), m, a.lc⟩)])

/-- Disjoint masks (Table 20.3). -/
def disjoint (a b : BitVec 16) : Except FaultC (BitVec 16) := if a &&& b = 0 then .ok (a ||| b) else .error (correlated a b)

/-- One common class (Table 20.3). -/
def oneClass (a b : BitVec 16) : Except FaultC (BitVec 16) :=
  if a = b ∧ (List.range 16).countP (fun i => a.getLsbD i) = 1 then .ok a else .error (correlated a b)

/-- `sand zD, zA, zB` (R421). -/
def ruleSand (r : ZBin) (e : Env) : Option Fire := zbin (· &&& ·) disjoint r e
def execSand (r : ZBin) (s : State) : Host.Outcome State Fault Refusal := runRule r.hdr (ruleSand r) s

/-- `sxnor zD, zA, zB` (R421). -/
def ruleSxnor (r : ZBin) (e : Env) : Option Fire := zbin (fun a b => ~~~(a ^^^ b)) disjoint r e
def execSxnor (r : ZBin) (s : State) : Host.Outcome State Fault Refusal := runRule r.hdr (ruleSxnor r) s

/-- `sor zD, zA, zB` (R421). -/
def ruleSor (r : ZBin) (e : Env) : Option Fire := zbin (· ||| ·) disjoint r e
def execSor (r : ZBin) (s : State) : Host.Outcome State Fault Refusal := runRule r.hdr (ruleSor r) s

/-- `smin zD, zA, zB` (R421). -/
def ruleSmin (r : ZBin) (e : Env) : Option Fire := zbin (· &&& ·) oneClass r e
def execSmin (r : ZBin) (s : State) : Host.Outcome State Fault Refusal := runRule r.hdr (ruleSmin r) s

/-- `smax zD, zA, zB` (R421). -/
def ruleSmax (r : ZBin) (e : Env) : Option Fire := zbin (· ||| ·) oneClass r e
def execSmax (r : ZBin) (s : State) : Host.Outcome State Fault Refusal := runRule r.hdr (ruleSmax r) s

/-- `smux zD, zA, zB, zS` (R421). -/
def ruleSmux (r : ZBin) (sel : Fin 16) (e : Env) : Option Fire :=
  if !e.zReady [r.d, r.a, r.b, sel] then none
  else
    let a := e.z r.a
    let b := e.z r.b
    let c := e.z sel
    let n := streamCost (lcLen a.lc)
    e.zResult n (n + 1) [] (do
      a.need
      b.need
      c.need
      if a.lc ≠ b.lc ∨ a.lc ≠ c.lc then throw zFormat
      if c.mask &&& (a.mask ||| b.mask) ≠ 0 then throw (correlated (a.mask ||| b.mask) c.mask)
      return [(r.d, ⟨maskLen a.lc ((c.bits &&& a.bits) ||| (~~~c.bits &&& b.bits)), a.mask ||| b.mask ||| c.mask, a.lc⟩)])
def execSmux (r : ZBin) (sel : Fin 16) (s : State) : Host.Outcome State Fault Refusal := runRule r.hdr (ruleSmux r sel) s

/-- One stream changed. -/
def zun (f : ZReg → Except FaultC ZReg) (r : ZUn) (e : Env) : Option Fire :=
  if !e.zReady [r.d, r.a] then none
  else
    let a := e.z r.a
    let c := streamCost (lcLen a.lc)
    e.zResult c (c + 1) [] (do
      a.need
      let z ← f a
      return [(r.d, z)])

/-- `snot zD, zA` (R421). -/
def ruleSnot (r : ZUn) (e : Env) : Option Fire := zun (fun a => .ok { a with bits := maskLen a.lc (~~~a.bits) }) r e
def execSnot (r : ZUn) (s : State) : Host.Outcome State Fault Refusal := runRule r.hdr (ruleSnot r) s

/-- Rotation: out[i] is a[(i - k) mod L]. -/
def rotBits (l k : Nat) (x : BitVec 4096) : BitVec 4096 :=
  let n := x.toNat % 2 ^ l
  BitVec.ofNat 4096 ((n <<< k) % 2 ^ l + n >>> (l - k))

/-- `sdly zD, zA, k, g` (R421). -/
def ruleSdly (r : ZUn) (k : BitVec 12) (g : BitVec 4) (e : Env) : Option Fire :=
  zun (fun a =>
    let l := lcLen a.lc
    let m : BitVec 16 := BitVec.twoPow 16 g.toNat
    if l ≤ k.toNat then .error ⟨fcBounds, k.toNat, 0⟩
    else if a.mask.getLsbD g.toNat then .error (correlated a.mask m)
    else .ok { a with bits := rotBits l k.toNat a.bits, mask := m }) r e
def execSdly (r : ZUn) (k : BitVec 12) (g : BitVec 4) (s : State) : Host.Outcome State Fault Refusal := runRule r.hdr (ruleSdly r k g) s

/-- `scls zD, zA, m` (R421). -/
def ruleScls (r : ZUn) (mask : BitVec 16) (e : Env) : Option Fire := zun (fun a => .ok { a with bits := maskLen a.lc a.bits, mask := mask }) r e
def execScls (r : ZUn) (mask : BitVec 16) (s : State) : Host.Outcome State Fault Refusal := runRule r.hdr (ruleScls r mask) s

/-- `scnt oK, zA [, n]` (R422). -/
def ruleScnt (o : Fin 8) (a : Fin 16) (n1 : BitVec 4) (e : Env) : Option Fire :=
  let zs := zRange a n1.toNat
  if !(e.zReady zs && e.room o 1) then none
  else
    let rs := zs.map e.z
    if rs.any (fun z => z.lc == 0) then some (e.fault 1 [] (some o) zFormat)
    else
      let occ := (rs.map fun z => streamCost (lcLen z.lc)).foldl (· + ·) 0
      some ((e.write (occ + 2) (.o o) (Token.vec (VReg.plain 39 (packLanes 16 (rs.map ZReg.count))) e.sl)).after [.busy .stream occ])
def execScnt (hdr : Hdr) (o : Fin 8) (a : Fin 16) (n1 : BitVec 4) (s : State) : Host.Outcome State Fault Refusal :=
  runRule hdr (ruleScnt o a n1) s

/-- `sregen zD, zA, g` (R423). -/
def ruleSregen (r : ZUn) (g : BitVec 4) (e : Env) : Option Fire :=
  if !e.zReady [r.d, r.a] then none
  else
    let a := e.z r.a
    let l := lcLen a.lc
    let occ := streamCost l + streamCost (64 * 4 ^ e.ctx.len.toNat)
    e.zResult occ (occ + 2) [] (do
      a.need
      return [(r.d, genStream e.seed g e.ctx.len (Nat.min 65535 (a.count * 65536 / l)))])
def execSregen (r : ZUn) (g : BitVec 4) (s : State) : Host.Outcome State Fault Refusal := runRule r.hdr (ruleSregen r g) s

/-- `slen L` (R424). -/
def ruleSlen (code : BitVec 2) (_ : Env) : Option Fire := some ⟨[.slen code], none⟩
def execSlen (hdr : Hdr) (code : BitVec 2) (s : State) : Host.Outcome State Fault Refusal := runRule hdr (ruleSlen code) s

/-! ### Streams on channels (R425, R426) -/

/-- Parts of a stream. -/
def partCount (lc : BitVec 3) : Nat := Nat.max 1 (lcLen lc / 512)

/-- The stream token of a part (Table 20.6). -/
def streamToken (z : ZReg) (p : Nat) (sl : Slack) : Token :=
  ⟨(maskLen z.lc z.bits).extractLsb' (512 * p) 512, BitVec.ofNat 64 (z.mask.toNat + p * 2 ^ 16 + z.lc.toNat * 2 ^ 19), 43, 0, 0, false, sl.bg, sl.n⟩

/-- `sout oK, zA`: part 0 leaves in the firing cycle, the unit is busy until the last part has left. -/
def ruleSout (o : Fin 8) (a : Fin 16) (e : Env) : Option Fire :=
  if !(e.zReady [a] && e.room o 1) then none
  else
    let z := e.z a
    if z.lc = 0 then some (e.fault 1 [] (some o) zFormat)
    else some ⟨.emit o (streamToken z 0 e.sl) :: (if partCount z.lc = 1 then [] else [.stream (.sout o z 1 e.sl)]), none⟩
def execSout (hdr : Hdr) (o : Fin 8) (a : Fin 16) (s : State) : Host.Outcome State Fault Refusal := runRule hdr (ruleSout o a) s

/-- Whether a token is part p of a stream, with the LC and MASK of the parts before when there are some. -/
def partOk (k : Token) (p : Nat) (acc : Option ZReg) : Bool :=
  let lc := k.side.extractLsb' 19 3
  k.data? && k.fmt == 43 && k.side.extractLsb' 22 42 == 0 && decide (1 ≤ lc.toNat ∧ lc.toNat ≤ 4) &&
    (k.side.extractLsb' 16 3).toNat == p &&
    match acc with | none => true | some z => z.lc == lc && z.mask == k.side.extractLsb' 0 16

/-- A stream with one more part. -/
def addPart (z : ZReg) (k : Token) (p : Nat) : ZReg :=
  { bits := z.bits ||| BitVec.ofNat 4096 (k.data.toNat <<< (512 * p)), mask := k.side.extractLsb' 0 16, lc := k.side.extractLsb' 19 3 }

/-- A whole stream as a register: bits beyond its length are zero (R412). -/
def ZReg.trim (z : ZReg) : ZReg := { z with bits := maskLen z.lc z.bits }

/-- `sin zD, cA`: part 0 is consumed at the firing. -/
def ruleSin (d : Fin 16) (c : Fin 8) (e : Env) : Option Fire :=
  match e.take c with
  | none => none
  | some k =>
    if !e.zReady [d] then none
    else if !partOk k 0 none then some (e.fault 1 [.pop c] none (badTag k.fmt))
    else
      let z := addPart zeroZ k 0
      if partCount z.lc = 1 then some ⟨[.pop c, .pend (.z d)], some (2, [.setZ d z.trim, .unpend (.z d)])⟩
      else some ⟨[.pop c, .pend (.z d), .stream (.sin d c 1 z e.f.ctx e.slot e.sl)], none⟩
def execSin (hdr : Hdr) (d : Fin 16) (c : Fin 8) (s : State) : Host.Outcome State Fault Refusal := runRule hdr (ruleSin d c) s

/-- The stream unit is freed. -/
def Station.freeStream (t : Station) : Station := { t with ss := t.ss.map fun x => { x with io := none } }

/-- SIN_PART (R426): a later part reaches the head of the context's channel and is taken or rejected. -/
def execSinPart (s : State) : Host.Outcome State Fault Refusal :=
  match s.ev with
  | .st i =>
    match s.station? i with
    | none => .next s
    | some t =>
      match t.ss.bind (·.io) with
      | some (.sin d c p acc ctx slot sl) =>
        match t.seen ctx c with
        | none => .next s
        | some k =>
          let w : Who := ⟨i, ctx, slot⟩
          if partOk k p (some acc) then
            let z := addPart acc k p
            let s := s.modStation i (·.popC c)
            if p + 1 = partCount z.lc then
              .next ((s.modStation i (·.freeStream)).launch w 2 [.setZ d z.trim, .unpend (.z d)])
            else .next (s.modStation i fun t => { t with ss := t.ss.map fun x => { x with io := some (.sin d c (p + 1) z ctx slot sl) } })
          else
            let s := if k.data? then s.modStation i (·.popC c) else s
            let s := s.modStation i fun t => { t.freeStream with pend := t.pend.filter (fun q => q ≠ .z d) }
            .next (s.pushFault t.voy t.reg (faultToken t ctx slot sl (badTag k.fmt)))
      | _ => .next s
  | _ => .next s

/-- SOUT_PART (R426): a further part leaves once its first hop has room. -/
def execSoutPart (s : State) : Host.Outcome State Fault Refusal :=
  match s.ev with
  | .st i =>
    match (s.station? i).bind (fun t => t.ss.bind (·.io)) with
    | some (.sout o z p sl) =>
      if s.outRoom i o 1 then
        let s := s.emit i o (streamToken z p sl)
        .next (s.modStation i fun t =>
          { t with ss := t.ss.map fun x => { x with io := if p + 1 = partCount z.lc then none else some (.sout o z (p + 1) sl) } })
      else .next s
    | _ => .next s
  | _ => .next s

end Sys2Proof.Machine
end

