-- ==== Sys2Proof/Machine/TokenRules.lean ====
section
/-! DEFINITION. Token and channel rules (Table 7.5, R175-R186). -/

namespace Sys2Proof.Machine

open Sys2Proof

/-- The token that a rule emits from a source: payload, FMT, sidecar, STOP and F of the source, TAG and slack of the rule (R175, R176). -/
def Token.fwd (k : Token) (tag : BitVec 3) (sl : Slack) : Token := { k with tag := tag, bg := sl.bg, slack := sl.n }

/-- The outputs of a mask (Table 7.5). -/
def maskOuts (m : BitVec 8) : List (Fin 8) := (List.finRange 8).filter (fun i => m.getLsbD i.val)

/-- `send oK, src` (R177). -/
def ruleSend (o : Fin 8) (src : Opd) (addend : BitVec 20) (tag : BitVec 3) (e : Env) : Option Fire :=
  match e.read src with
  | none => none
  | some x =>
    let k := if addend = 0 then x.tok else Token.scalar (x.word + addend.signExtend 64) e.sl
    e.result 1 x.bad x.eff (.o o) (.ok (k.fwd tag e.sl))
def execSend (hdr : Hdr) (o : Fin 8) (src : Opd) (addend : BitVec 20) (tag : BitVec 3) (s : State) : Host.Outcome State Fault Refusal :=
  runRule hdr (ruleSend o src addend tag) s

/-- A copy on every output of a mask, or none while one has no room (R178); the bounds fault of a plain handle goes out in every claimed entry (R165,
R200, log 15). -/
def emitAll (m : BitVec 8) (x : Val) (eff : List Effect) (tag : BitVec 3) (e : Env) : Option Fire :=
  if (maskOuts m).all (fun o => e.room o 1) then
    let k := if x.bad then faultToken e.pre e.f.ctx e.slot e.sl bounds else x.tok.fwd tag e.sl
    some ⟨eff ++ (maskOuts m).map (fun o => .emit o k), none⟩
  else none

/-- `dup mask, src` (R178). -/
def ruleDup (mask : BitVec 8) (src : Opd) (tag : BitVec 3) (e : Env) : Option Fire :=
  match e.read src with
  | none => none
  | some x => emitAll mask x x.eff tag e
def execDup (hdr : Hdr) (mask : BitVec 8) (src : Opd) (tag : BitVec 3) (s : State) : Host.Outcome State Fault Refusal :=
  runRule hdr (ruleDup mask src tag) s

/-- `steer mask, src, sel` (R179); the bounds fault of a plain handle goes out on the output that `sel` names, when the mask has it (R200). -/
def ruleSteer (mask : BitVec 8) (src sel : Opd) (tag : BitVec 3) (e : Env) : Option Fire :=
  match e.read2 src sel with
  | none => none
  | some (x, y, eff) =>
    if x.tok.data? then
      let j : Fin 8 := ⟨y.word.toNat % 8, Nat.mod_lt _ (by decide)⟩
      if mask.getLsbD j.val then e.result 1 x.bad eff (.o j) (.ok (x.tok.fwd tag e.sl))
      else some (e.fault 1 eff none ⟨fcBounds, j.val, 0⟩)
    else emitAll mask x eff tag e
def execSteer (hdr : Hdr) (mask : BitVec 8) (src sel : Opd) (tag : BitVec 3) (s : State) : Host.Outcome State Fault Refusal :=
  runRule hdr (ruleSteer mask src sel tag) s

/-- `merge oK, cA, cB, pN`: only the selected channel is tested and consumed (R180). -/
def ruleMerge (o a b n : Fin 8) (tag : BitVec 3) (e : Env) : Option Fire :=
  match e.read (.c (if e.pre.pred n then a else b)) with
  | none => none
  | some x => e.result 1 false x.eff (.o o) (.ok (x.tok.fwd tag e.sl))
def execMerge (hdr : Hdr) (o a b n : Fin 8) (tag : BitVec 3) (s : State) : Host.Outcome State Fault Refusal :=
  runRule hdr (ruleMerge o a b n tag) s

/-- `gate oK, src, ctl`: room is needed even in a firing that discards (R180). DESIGN CHOICE (log 95): such a firing takes no room from the slots after it. -/
def ruleGate (o : Fin 8) (src ctl : Opd) (tag : BitVec 3) (e : Env) : Option Fire :=
  match e.read2 src ctl with
  | none => none
  | some (x, y, eff) =>
    if x.tok.data? && !x.bad && y.word == 0 then
      if e.room o 1 then some ⟨eff, none⟩ else none
    else e.result 1 x.bad eff (.o o) (.ok (x.tok.fwd tag e.sl))
def execGate (hdr : Hdr) (o : Fin 8) (src ctl : Opd) (tag : BitVec 3) (s : State) : Host.Outcome State Fault Refusal :=
  runRule hdr (ruleGate o src ctl tag) s

/-- `drop src` (R180). -/
def ruleDrop (src : Opd) (e : Env) : Option Fire :=
  match e.read src with
  | none => none
  | some x => if x.bad then some (e.fault 1 x.eff none bounds) else some ⟨x.eff, none⟩
def execDrop (hdr : Hdr) (src : Opd) (s : State) : Host.Outcome State Fault Refusal := runRule hdr (ruleDrop src) s

/-- `stop oK, level` (R180). -/
def ruleStop (o : Fin 8) (level : BitVec 2) (tag : BitVec 3) (e : Env) : Option Fire :=
  e.result 1 false [] (.o o) (.ok ((Token.stopTok level e.sl).fwd tag e.sl))
def execStop (hdr : Hdr) (o : Fin 8) (level : BitVec 2) (tag : BitVec 3) (s : State) : Host.Outcome State Fault Refusal :=
  runRule hdr (ruleStop o level tag) s

/-- `retag cN, n`: 0-7 a context, 8 free (R185). -/
def ruleRetag (n : Fin 8) (v : BitVec 4) (_ : Env) : Option Fire :=
  some ⟨[.retag n (if h : v.toNat < 8 then some ⟨v.toNat, h⟩ else none)], none⟩
def execRetag (hdr : Hdr) (n : Fin 8) (v : BitVec 4) (s : State) : Host.Outcome State Fault Refusal := runRule hdr (ruleRetag n v) s

/-- The count that a `repeat` starts with (R181). -/
def Env.repeatStart (e : Env) (n : Option Opd) (imm : BitVec 20) : Option (BitVec 32) :=
  if imm ≠ 0 then some (imm.setWidth 32)
  else match n with
    | none => some 0
    | some b => (e.read b).map fun y => BitVec.ofNat 32 (Nat.min y.word.toNat (2 ^ 32 - 1))

/-- `repeat oK, src, n` (R181). -/
def ruleRepeat (o c : Fin 8) (n : Option Opd) (imm : BitVec 20) (tag : BitVec 3) (e : Env) : Option Fire :=
  match e.take c with
  | none => none
  | some k =>
    let cnt := e.ctx.reps[e.slot]
    let go (m : BitVec 32) : Option Fire :=
      e.result 1 false (.setRep (m - 1) :: (if m = 1 then [.pop c] else [])) (.o o) (.ok (k.fwd tag e.sl))
    if cnt = 0 then
      match e.repeatStart n imm with
      | none => none
      | some m => if m = 0 then some ⟨[.pop c], none⟩ else go m
    else go cnt
def execRepeat (hdr : Hdr) (o c : Fin 8) (n : Option Opd) (imm : BitVec 20) (tag : BitVec 3) (s : State) :
    Host.Outcome State Fault Refusal :=
  runRule hdr (ruleRepeat o c n imm tag) s

/-- `count oK, cN` (R182). -/
def ruleCount (o c : Fin 8) (tag : BitVec 3) (e : Env) : Option Fire :=
  match e.take c with
  | none => none
  | some k =>
    if k.data? then some ⟨[.pop c, .setCnt c (e.pre.cnt[c] + 1)], none⟩
    else
      let w := BitVec.ofNat 64 (e.pre.cnt[c].toNat + k.stop.toNat * 2 ^ 32 + (if k.f then 2 ^ 34 else 0))
      e.result 1 false [.pop c, .setCnt c 0] (.o o) (.ok ((Token.scalar w e.sl).fwd tag e.sl))
def execCount (hdr : Hdr) (o c : Fin 8) (tag : BitVec 3) (s : State) : Host.Outcome State Fault Refusal := runRule hdr (ruleCount o c tag) s

/-- `isect oK, cA, cB` (R183): data heads on both and a free entry are needed in every case. -/
def ruleIsect (o a b : Fin 8) (tag : BitVec 3) (e : Env) : Option Fire :=
  match e.take a, e.take b with
  | some x, some y =>
    let u : Word := x.data.setWidth 64
    let v : Word := y.data.setWidth 64
    if !e.room o 1 then none
    else if u = v then e.result 1 false [.pop a, .pop b] (.o o) (.ok (x.fwd tag e.sl))
    else if u.toNat < v.toNat then some ⟨[.pop a], none⟩
    else some ⟨[.pop b], none⟩
  | _, _ => none
def execIsect (hdr : Hdr) (o a b : Fin 8) (tag : BitVec 3) (s : State) : Host.Outcome State Fault Refusal :=
  runRule hdr (ruleIsect o a b tag) s

/-- Half of a token's payload and sidecar (R184). -/
def Token.half (k : Token) (hi : Bool) : Token :=
  let n := if hi then 1 else 0
  { k with
    data := (k.data.extractLsb' (256 * n) 256).setWidth 512,
    side := (k.side.extractLsb' (32 * n) 32).setWidth 64 ||| 0x7F7F7F7F00000000 }

/-- `split oK, src` (R184). -/
def ruleSplit (o : Fin 8) (src : Opd) (tag : BitVec 3) (e : Env) : Option Fire :=
  match e.read src with
  | none => none
  | some x =>
    let o1 : Fin 8 := o + 1
    if !(e.room o 1 && e.room o1 1) then none
    else if x.bad then some (e.fault 1 x.eff (some o) bounds)
    else if x.tok.fmt = 44 then some (e.fault 1 x.eff (some o) (badTag 44))
    else some ⟨x.eff ++ [.emit o ((x.tok.half false).fwd tag e.sl), .emit o1 ((x.tok.half true).fwd tag e.sl)], none⟩
def execSplit (hdr : Hdr) (o : Fin 8) (src : Opd) (tag : BitVec 3) (s : State) : Host.Outcome State Fault Refusal :=
  runRule hdr (ruleSplit o src tag) s

end Sys2Proof.Machine
end

