-- ==== Sys2Proof/Machine/Uses.lean ====
section
/-! DEFINITION. What a rule word names: the channels it reads or tests, the outputs it can emit on, the handles it names (R84, R147, R333),
the domains it accesses (R267), and whether its accesses are versioned (R252). -/

namespace Sys2Proof

/-- What a word names. `dom` lists the handles through which it sends requests, `vers` says that these are versioned by themselves. -/
structure Uses where
  chans : List (Fin 8)
  outs  : List (Fin 8)
  dom   : List (Fin 16)
  vers  : Bool

def Opd.chan : Opd → List (Fin 8) | .c n => [n] | _ => []
def Opd.output : Opd → List (Fin 8) | .o n => [n] | _ => []
def BOp.chan : BOp → List (Fin 8) | .reg r => r.chan | .imm _ => []
def NOp.chan : NOp → List (Fin 8) | .reg r => r.chan | .aux _ => []
def optReads : Option Opd → List (Fin 8) | some r => r.chan | none => []

/-- The channels in a mask. -/
def maskOuts (m : BitVec 8) : List (Fin 8) := (List.finRange 8).filter fun i => m.getLsbD i.val

/-- Operands, by position: destinations and sources. -/
def usesOf (ds ss : List Opd) : Uses := ⟨ss.flatMap Opd.chan, ds.flatMap Opd.output, [], false⟩

def Uses.read (u : Uses) (cs : List (Fin 8)) : Uses := { u with chans := cs ++ u.chans }
def Uses.emit (u : Uses) (os : List (Fin 8)) : Uses := { u with outs := os ++ u.outs }
def Uses.via (u : Uses) (hs : List (Fin 16)) (v : Bool) : Uses := { u with dom := hs, vers := v }

def MLoad.uses (r : MLoad) (v : Bool) : Uses := (usesOf [r.d] [r.a]).via [r.h] v
def MStore.uses (r : MStore) (v : Bool) : Uses := (usesOf [] [r.a, r.s]).via [r.h] v
def MUpd.uses (r : MUpd) (v : Bool) : Uses := (usesOf [] [r.r]).via [r.h] v
def MCopy.uses (r : MCopy) : Uses := (usesOf [] [r.q]).via [r.dst, r.src] false
def MLine.uses (r : MLine) : Uses := (usesOf [] [r.a]).via [r.h] false
def SBar.uses (r : SBar) : Uses := (usesOf [] []).read r.n.chan
def TOp.uses (r : TOp) : Uses := usesOf [r.d] [r.a, r.b]

/-- The header of a rule word; none for an event. -/
def Instr.hdr? : Instr → Option Hdr
  | .add r | .sub r | .mul r | .mulh r | .mulhn r | .div r | .divn r | .rem r | .remn r | .min r | .max r | .minn r | .maxn r
  | .and r | .or r | .xor r | .andn r | .orn r | .shl r | .shr r | .sra r | .rol r | .sel r _ => some r.hdr
  | .clz r | .ctz r | .popc r | .mov r | .movhi r _ | .vgscl r | .vmov r => some r.hdr
  | .ext r | .extn r | .ins r => some r.hdr
  | .ceq r | .cne r | .clt r | .cle r | .cltn r | .clen r | .cbit r | .ctst r => some r.hdr
  | .pand r | .por r | .pxor r | .pandn r => some r.hdr
  | .pnot r | .pmov r => some r.hdr
  | .movi h .. | .pset h _ | .pclr h _ | .send h .. | .dup h .. | .steer h .. | .merge h .. | .gate h .. | .drop h _ | .stop h .. | .retag h ..
  | .repeat h .. | .count h .. | .isect h .. | .split h .. | .pub h _ | .nop h | .yield h _ | .rdslk h .. | .rdtime h _ | .ckpt h _
  | .vsscl h .. | .vtag h .. | .vbcst h .. | .xadd h .. | .vclr h .. | .mcfg h .. | .tfill h .. | .tmark h .. | .tdrain h _ | .mclr h _
  | .mnorm h .. | .mexp h .. | .mscap h .. | .mpstat h _ | .mrow h .. | .barw h .. | .bard h .. | .monw h .. | .monc h .. | .tspawn h ..
  | .tdone h | .tforkPages h .. | .tforkTree h .. | .twalk h .. | .tres h .. | .tsum h .. | .tstat h .. | .tpar h .. | .tscr h ..
  | .tchkQuery h .. | .tchkAbort h .. | .sgen h .. | .scnt h .. | .slen h _ | .sout h .. | .sin h .. => some h
  | .advp r | .advc r | .hset r _ => some r.hdr
  | .hfill r | .hfree r | .hget r _ => some r.hdr
  | .trap r | .halt r | .brk r | .slk r => some r.hdr
  | .vadd r | .vsub r | .vmul r | .vfma r | .vfms r | .vnfma r | .vmax r | .vmin r | .vdot r _ | .vrot r _ | .vshuf r | .vsel r => some r.hdr
  | .vabs r | .vneg r | .vrcp r | .vrsq r | .vexp2 r | .vlog2 r | .vsqrt r => some r.hdr
  | .vsum r | .vrmax r | .vrmin r => some r.hdr
  | .vcvt r | .vqnt r | .vdqt r => some r.hdr
  | .vext r | .vins r | .xcvt r => some r.hdr
  | .vceq r | .vclt r | .vcle r => some r.hdr
  | .viadd r | .visub r | .vimul r | .vishl r | .vishr r | .vand r | .vor r | .vxor r => some r.hdr
  | .vpark r | .vunpark r => some r.hdr
  | .mma r | .mmat r => some r.hdr
  | .ld r | .ldv r | .ldt r | .lds r | .atom r | .mcst r | .xlat r | .ldk r => some r.m.hdr
  | .st r | .stv r | .stw r | .stk r | .xred r => some r.m.hdr
  | .updw r | .red r => some r.m.hdr
  | .reclaim m .. | .settle m _ | .mnop m _ | .fence m _ | .acq m _ | .rel m _ => some m.hdr
  | .cpy r | .cpyw r => some r.m.hdr
  | .pref r | .disc r => some r.m.hdr
  | .bar r | .bars r => some r.hdr
  | .tins r | .tseal r | .tdrop r => some r.hdr
  | .sand r | .sxnor r | .sor r | .smin r | .smax r | .smux r _ => some r.hdr
  | .snot r | .sregen r _ | .sdly r .. | .scls r _ => some r.hdr
  | _ => none

/-- The channel that a guard tests. -/
def Guard.chanOf : Guard → List (Fin 8) | .chan n => [n] | .chanStop n => [n] | _ => []

/-- What the operands of a word name. -/
def Instr.named : Instr → Uses
  | .add r | .sub r | .mul r | .mulh r | .mulhn r | .div r | .divn r | .rem r | .remn r | .min r | .max r | .minn r | .maxn r
  | .and r | .or r | .xor r | .andn r | .orn r | .shl r | .shr r | .sra r | .rol r | .sel r _ => (usesOf [r.d] [r.a]).read r.b.chan
  | .clz r | .ctz r | .popc r | .mov r | .movhi r _ | .vgscl r | .vmov r => usesOf [r.d] [r.a]
  | .movi _ d _ => usesOf [d] []
  | .ext r | .extn r | .ins r => usesOf [r.d] [r.a]
  | .ceq r | .cne r | .clt r | .cle r | .cltn r | .clen r | .cbit r | .ctst r => (usesOf [] [r.a]).read r.b.chan
  | .send _ o src _ _ => (usesOf [] [src]).emit [o]
  | .dup _ m src _ => (usesOf [] [src]).emit (maskOuts m)
  | .steer _ m src k _ => (usesOf [] [src, k]).emit (maskOuts m)
  | .merge _ o a b _ _ => ((usesOf [] []).read [a, b]).emit [o]
  | .gate _ o src ctl _ => (usesOf [] [src, ctl]).emit [o]
  | .drop _ src => usesOf [] [src]
  | .stop _ o _ _ => (usesOf [] []).emit [o]
  | .retag _ n _ => (usesOf [] []).read [n]
  | .repeat _ o c n _ _ => ((usesOf [] []).read (c :: optReads n)).emit [o]
  | .count _ o c _ => ((usesOf [] []).read [c]).emit [o]
  | .isect _ o a b _ => ((usesOf [] []).read [a, b]).emit [o]
  | .split _ o src _ => (usesOf [] [src]).emit [o, o + 1]
  | .advp r | .advc r | .hset r _ => (usesOf [] []).read r.b.chan
  | .hfill r | .hfree r | .hget r _ => usesOf [r.d] []
  | .trap r | .halt r | .brk r | .slk r => (usesOf [] []).read r.b.chan
  | .rdslk _ d c => (usesOf [d] []).read [c]
  | .rdtime _ d | .ckpt _ d => usesOf [d] []
  | .vadd r | .vsub r | .vmul r | .vfma r | .vfms r | .vnfma r | .vmax r | .vmin r | .vdot r _ | .vrot r _ | .vshuf r | .vsel r =>
    usesOf [r.d] [r.a, r.b]
  | .vabs r | .vneg r | .vrcp r | .vrsq r | .vexp2 r | .vlog2 r | .vsqrt r => usesOf [r.d] [r.a]
  | .vsum r | .vrmax r | .vrmin r => (usesOf [r.d] [r.a]).read (optReads r.mask)
  | .vcvt r | .vqnt r | .vdqt r => (usesOf [r.d] [r.a]).read (optReads r.rand)
  | .vsscl _ d a n => (usesOf [d] [a]).read n.chan
  | .vtag _ _ d a => usesOf [d] [a]
  | .vbcst _ _ d a l => (usesOf [d] [a]).read (match l with | some n => n.chan | none => [])
  | .vext r | .vins r | .xcvt r => (usesOf [r.d] [r.a]).read r.n.chan
  | .vceq r | .vclt r | .vcle r => usesOf [r.d] [r.a, r.b]
  | .viadd r | .visub r | .vimul r | .vishl r | .vishr r | .vand r | .vor r | .vxor r => (usesOf [r.d] [r.a]).read r.b.chan
  | .xadd _ d a b => usesOf [d] [a, b]
  | .vclr _ _ d => usesOf [d] []
  | .mcfg _ _ o c _ _ _ => ((usesOf [] []).read c.toList).emit [o]
  | .tfill _ _ c _ => (usesOf [] []).read c.toList
  | .mscap _ _ src _ _ => usesOf [] [src]
  | .mpstat _ o => (usesOf [] []).emit [o]
  | .mrow _ o _ _ _ => (usesOf [] []).emit [o]
  | .ld r | .ldv r | .atom r | .mcst r | .xlat r | .ldk r => r.uses false
  | .ldt r | .lds r => r.uses true
  | .st r | .stv r | .stk r | .xred r => r.uses false
  | .stw r => r.uses true
  | .updw r => r.uses true
  | .red r => r.uses false
  | .reclaim _ h a => (usesOf [] [a]).via [h] true
  | .settle _ h => (usesOf [] []).via [h] true
  | .mnop _ h => (usesOf [] []).via [h] false
  | .cpy r | .cpyw r => r.uses
  | .pref r | .disc r => r.uses
  | .bar r | .bars r => r.uses
  | .barw _ d _ _ => usesOf [d] []
  | .monw _ d _ a => usesOf [d] [a]
  | .monc _ _ _ a => usesOf [] [a]
  | .tspawn _ _ ts args => usesOf [] [ts, args]
  | .tins r | .tseal r | .tdrop r => r.uses
  | .tforkPages _ d _ _ n => usesOf [d] [n]
  | .tforkTree _ d _ _ n _ => usesOf [d] [n]
  | .twalk _ d _ _ _ | .tres _ d _ _ | .tsum _ d _ _ | .tstat _ d _ _ | .tchkQuery _ d _ | .tchkAbort _ d _ => usesOf [d] []
  | .tpar _ _ a _ _ _ => usesOf [] [a]
  | .tscr _ _ a => usesOf [] [a]
  | .sgen _ _ src _ _ _ => usesOf [] [src]
  | .scnt _ o _ _ => (usesOf [] []).emit [o]
  | .sout _ o _ => (usesOf [] []).emit [o]
  | .sin _ _ c => (usesOf [] []).read [c]
  | _ => usesOf [] []

/-- The same with the channel that the guard tests. -/
def Instr.uses (i : Instr) : Uses := i.named.read (match i.hdr? with | some h => h.guard.chanOf | none => [])

/-- The scope and id of a barrier instruction. -/
def Instr.barrier? : Instr → Option (Scope × BitVec 6)
  | .bar r | .bars r => some (r.scope, r.id)
  | .barw _ _ s id => some (s, id)
  | .bard _ s id => some (s, id)
  | _ => none

/-- The handles whose ports a tree engine uses: those of a binding or of a fork (R390). -/
def Instr.treeHandles : Instr → List (Fin 16)
  | .tpar _ _ _ hn ht _ => [hn, ht]
  | .tforkPages _ _ hd hs _ => [hd, hs]
  | .tforkTree _ _ hd he _ _ => [hd, he]
  | _ => []

/-- A memory instruction that asks for a versioned access by MF2 (R118). -/
def Instr.flagged : Instr → Bool
  | .ld r => r.m.mf.getLsbD 2
  | .st r => r.m.mf.getLsbD 2
  | .red r => r.m.mf.getLsbD 2
  | _ => false

/-- An instruction that a handle with VERS makes versioned (R239). -/
def Instr.byHandle : Instr → Bool
  | .ld _ => true | .st _ => true | .red _ => true | _ => false

/-- An instruction whose loads, stores or reductions a page with VERS makes versioned accesses (R244): a copy's reads are among them. -/
def Instr.byPage : Instr → Bool
  | .ld _ | .ldv _ | .ldk _ | .st _ | .stv _ | .stk _ | .red _ | .mcst _ | .cpy _ | .cpyw _ => true
  | _ => false

end Sys2Proof
end

