-- ==== Sys2Proof/Machine/RuleTable.lean ====
section
/-! DEFINITION. What the choice of rules needs to know of each instruction (R157, R159, R282): its class, whether it is a write or an arrival
that `rel` holds back, and its firing. -/

namespace Sys2Proof.Machine

open Sys2Proof

/-- The classes of Table 6.5, with handle instructions apart from system instructions. -/
inductive RClass
  | scalar | token | handle | system | vector | matrix | memory | sync | sounding | walk | hint | stream
  deriving DecidableEq, Repr

/-- A rule as the choice sees it. -/
structure Rule where
  hdr   : Hdr
  cls   : RClass
  write : Bool
  fire  : Env → Option Fire

def ruleOf : Instr → Option Rule
  | .add r => some ⟨r.hdr, .scalar, false, (ruleAdd r)⟩
  | .sub r => some ⟨r.hdr, .scalar, false, (ruleSub r)⟩
  | .mul r => some ⟨r.hdr, .scalar, false, (ruleMul r)⟩
  | .mulh r => some ⟨r.hdr, .scalar, false, (ruleMulh r)⟩
  | .mulhn r => some ⟨r.hdr, .scalar, false, (ruleMulhn r)⟩
  | .div r => some ⟨r.hdr, .scalar, false, (ruleDiv r)⟩
  | .divn r => some ⟨r.hdr, .scalar, false, (ruleDivn r)⟩
  | .rem r => some ⟨r.hdr, .scalar, false, (ruleRem r)⟩
  | .remn r => some ⟨r.hdr, .scalar, false, (ruleRemn r)⟩
  | .min r => some ⟨r.hdr, .scalar, false, (ruleMin r)⟩
  | .max r => some ⟨r.hdr, .scalar, false, (ruleMax r)⟩
  | .minn r => some ⟨r.hdr, .scalar, false, (ruleMinn r)⟩
  | .maxn r => some ⟨r.hdr, .scalar, false, (ruleMaxn r)⟩
  | .and r => some ⟨r.hdr, .scalar, false, (ruleAnd r)⟩
  | .or r => some ⟨r.hdr, .scalar, false, (ruleOr r)⟩
  | .xor r => some ⟨r.hdr, .scalar, false, (ruleXor r)⟩
  | .andn r => some ⟨r.hdr, .scalar, false, (ruleAndn r)⟩
  | .orn r => some ⟨r.hdr, .scalar, false, (ruleOrn r)⟩
  | .shl r => some ⟨r.hdr, .scalar, false, (ruleShl r)⟩
  | .shr r => some ⟨r.hdr, .scalar, false, (ruleShr r)⟩
  | .sra r => some ⟨r.hdr, .scalar, false, (ruleSra r)⟩
  | .rol r => some ⟨r.hdr, .scalar, false, (ruleRol r)⟩
  | .clz r => some ⟨r.hdr, .scalar, false, (ruleClz r)⟩
  | .ctz r => some ⟨r.hdr, .scalar, false, (ruleCtz r)⟩
  | .popc r => some ⟨r.hdr, .scalar, false, (rulePopc r)⟩
  | .sel r p => some ⟨r.hdr, .scalar, false, (ruleSel r p)⟩
  | .mov r => some ⟨r.hdr, .scalar, false, (ruleMov r)⟩
  | .movi hdr d imm => some ⟨hdr, .scalar, false, (ruleMovi d imm)⟩
  | .movhi r imm => some ⟨r.hdr, .scalar, false, (ruleMovhi r imm)⟩
  | .ext r => some ⟨r.hdr, .scalar, false, (ruleExt r)⟩
  | .extn r => some ⟨r.hdr, .scalar, false, (ruleExtn r)⟩
  | .ins r => some ⟨r.hdr, .scalar, false, (ruleIns r)⟩
  | .ceq r => some ⟨r.hdr, .scalar, false, (ruleCeq r)⟩
  | .cne r => some ⟨r.hdr, .scalar, false, (ruleCne r)⟩
  | .clt r => some ⟨r.hdr, .scalar, false, (ruleClt r)⟩
  | .cle r => some ⟨r.hdr, .scalar, false, (ruleCle r)⟩
  | .cltn r => some ⟨r.hdr, .scalar, false, (ruleCltn r)⟩
  | .clen r => some ⟨r.hdr, .scalar, false, (ruleClen r)⟩
  | .cbit r => some ⟨r.hdr, .scalar, false, (ruleCbit r)⟩
  | .ctst r => some ⟨r.hdr, .scalar, false, (ruleCtst r)⟩
  | .pand r => some ⟨r.hdr, .scalar, false, (rulePand r)⟩
  | .por r => some ⟨r.hdr, .scalar, false, (rulePor r)⟩
  | .pxor r => some ⟨r.hdr, .scalar, false, (rulePxor r)⟩
  | .pandn r => some ⟨r.hdr, .scalar, false, (rulePandn r)⟩
  | .pnot r => some ⟨r.hdr, .scalar, false, (rulePnot r)⟩
  | .pmov r => some ⟨r.hdr, .scalar, false, (rulePmov r)⟩
  | .pset hdr n => some ⟨hdr, .scalar, false, (rulePset n)⟩
  | .pclr hdr n => some ⟨hdr, .scalar, false, (rulePclr n)⟩
  | .send hdr o src addend tag => some ⟨hdr, .token, false, (ruleSend o src addend tag)⟩
  | .dup hdr mask src tag => some ⟨hdr, .token, false, (ruleDup mask src tag)⟩
  | .steer hdr mask src sel tag => some ⟨hdr, .token, false, (ruleSteer mask src sel tag)⟩
  | .merge hdr o a b n tag => some ⟨hdr, .token, false, (ruleMerge o a b n tag)⟩
  | .gate hdr o src ctl tag => some ⟨hdr, .token, false, (ruleGate o src ctl tag)⟩
  | .drop hdr src => some ⟨hdr, .token, false, (ruleDrop src)⟩
  | .stop hdr o level tag => some ⟨hdr, .token, false, (ruleStop o level tag)⟩
  | .retag hdr n v => some ⟨hdr, .token, false, (ruleRetag n v)⟩
  | .repeat hdr o c n imm tag => some ⟨hdr, .token, false, (ruleRepeat o c n imm tag)⟩
  | .count hdr o c tag => some ⟨hdr, .token, false, (ruleCount o c tag)⟩
  | .isect hdr o a b tag => some ⟨hdr, .token, false, (ruleIsect o a b tag)⟩
  | .split hdr o src tag => some ⟨hdr, .token, false, (ruleSplit o src tag)⟩
  | .advp r => some ⟨r.hdr, .handle, false, (ruleAdvp r)⟩
  | .advc r => some ⟨r.hdr, .handle, false, (ruleAdvc r)⟩
  | .hfill r => some ⟨r.hdr, .handle, false, (ruleHfill r)⟩
  | .hfree r => some ⟨r.hdr, .handle, false, (ruleHfree r)⟩
  | .hset r f => some ⟨r.hdr, .handle, false, (ruleHset r f)⟩
  | .hget r f => some ⟨r.hdr, .handle, false, (ruleHget r f)⟩
  | .pub hdr n => some ⟨hdr, .handle, false, (rulePub n)⟩
  | .nop hdr => some ⟨hdr, .system, false, ruleNop⟩
  | .trap r => some ⟨r.hdr, .system, false, (ruleTrap r)⟩
  | .halt r => some ⟨r.hdr, .system, false, (ruleHalt r)⟩
  | .brk r => some ⟨r.hdr, .system, false, (ruleBrk r)⟩
  | .yield hdr n => some ⟨hdr, .system, false, (ruleYield n)⟩
  | .slk r => some ⟨r.hdr, .system, false, (ruleSlk r)⟩
  | .rdslk hdr d c => some ⟨hdr, .system, false, (ruleRdslk d c)⟩
  | .rdtime hdr d => some ⟨hdr, .system, false, (ruleRdtime d)⟩
  | .ckpt hdr d => some ⟨hdr, .system, false, (ruleCkpt d)⟩
  | .vadd r => some ⟨r.hdr, .vector, false, (ruleVadd r)⟩
  | .vsub r => some ⟨r.hdr, .vector, false, (ruleVsub r)⟩
  | .vmul r => some ⟨r.hdr, .vector, false, (ruleVmul r)⟩
  | .vfma r => some ⟨r.hdr, .vector, false, (ruleVfma r)⟩
  | .vfms r => some ⟨r.hdr, .vector, false, (ruleVfms r)⟩
  | .vnfma r => some ⟨r.hdr, .vector, false, (ruleVnfma r)⟩
  | .vmax r => some ⟨r.hdr, .vector, false, (ruleVmax r)⟩
  | .vmin r => some ⟨r.hdr, .vector, false, (ruleVmin r)⟩
  | .vabs r => some ⟨r.hdr, .vector, false, (ruleVabs r)⟩
  | .vneg r => some ⟨r.hdr, .vector, false, (ruleVneg r)⟩
  | .vrcp r => some ⟨r.hdr, .vector, false, (ruleVrcp r)⟩
  | .vrsq r => some ⟨r.hdr, .vector, false, (ruleVrsq r)⟩
  | .vexp2 r => some ⟨r.hdr, .vector, false, (ruleVexp2 r)⟩
  | .vlog2 r => some ⟨r.hdr, .vector, false, (ruleVlog2 r)⟩
  | .vsqrt r => some ⟨r.hdr, .vector, false, (ruleVsqrt r)⟩
  | .vdot r s => some ⟨r.hdr, .vector, false, (ruleVdot r s)⟩
  | .vsum r => some ⟨r.hdr, .vector, false, (ruleVsum r)⟩
  | .vrmax r => some ⟨r.hdr, .vector, false, (ruleVrmax r)⟩
  | .vrmin r => some ⟨r.hdr, .vector, false, (ruleVrmin r)⟩
  | .vcvt r => some ⟨r.hdr, .vector, false, (ruleVcvt r)⟩
  | .vqnt r => some ⟨r.hdr, .vector, false, (ruleVqnt r)⟩
  | .vdqt r => some ⟨r.hdr, .vector, false, (ruleVdqt r)⟩
  | .vrot r split => some ⟨r.hdr, .vector, false, (ruleVrot r split)⟩
  | .vsscl hdr d a n => some ⟨hdr, .vector, false, (ruleVsscl d a n)⟩
  | .vgscl r => some ⟨r.hdr, .vector, false, (ruleVgscl r)⟩
  | .vtag hdr fmt d a => some ⟨hdr, .vector, false, (ruleVtag fmt d a)⟩
  | .vmov r => some ⟨r.hdr, .vector, false, (ruleVmov r)⟩
  | .vbcst hdr fmt d a lane => some ⟨hdr, .vector, false, (ruleVbcst fmt d a lane)⟩
  | .vshuf r => some ⟨r.hdr, .vector, false, (ruleVshuf r)⟩
  | .vext r => some ⟨r.hdr, .vector, false, (ruleVext r)⟩
  | .vins r => some ⟨r.hdr, .vector, false, (ruleVins r)⟩
  | .vceq r => some ⟨r.hdr, .vector, false, (ruleVceq r)⟩
  | .vclt r => some ⟨r.hdr, .vector, false, (ruleVclt r)⟩
  | .vcle r => some ⟨r.hdr, .vector, false, (ruleVcle r)⟩
  | .vsel r => some ⟨r.hdr, .vector, false, (ruleVsel r)⟩
  | .viadd r => some ⟨r.hdr, .vector, false, (ruleViadd r)⟩
  | .visub r => some ⟨r.hdr, .vector, false, (ruleVisub r)⟩
  | .vimul r => some ⟨r.hdr, .vector, false, (ruleVimul r)⟩
  | .vishl r => some ⟨r.hdr, .vector, false, (ruleVishl r)⟩
  | .vishr r => some ⟨r.hdr, .vector, false, (ruleVishr r)⟩
  | .vand r => some ⟨r.hdr, .vector, false, (ruleVand r)⟩
  | .vor r => some ⟨r.hdr, .vector, false, (ruleVor r)⟩
  | .vxor r => some ⟨r.hdr, .vector, false, (ruleVxor r)⟩
  | .xadd hdr d a b => some ⟨hdr, .vector, false, (ruleXadd d a b)⟩
  | .xcvt r => some ⟨r.hdr, .vector, false, (ruleXcvt r)⟩
  | .vclr hdr fmt d => some ⟨hdr, .vector, false, (ruleVclr fmt d)⟩
  | .vpark r => some ⟨r.hdr, .vector, false, (ruleVpark r)⟩
  | .vunpark r => some ⟨r.hdr, .vector, false, (ruleVunpark r)⟩
  | .mcfg hdr acc o c sa sb kt => some ⟨hdr, .matrix, false, (ruleMcfg acc o c sa sb kt)⟩
  | .tfill hdr t c fmt => some ⟨hdr, .matrix, false, (ruleTfill t c fmt)⟩
  | .tmark hdr t full => some ⟨hdr, .matrix, false, (ruleTmark t full)⟩
  | .tdrain hdr acc => some ⟨hdr, .matrix, false, (ruleTdrain acc)⟩
  | .mma r => some ⟨r.hdr, .matrix, false, (ruleMma r)⟩
  | .mmat r => some ⟨r.hdr, .matrix, false, (ruleMmat r)⟩
  | .mclr hdr acc => some ⟨hdr, .matrix, false, (ruleMclr acc)⟩
  | .mnorm hdr acc x => some ⟨hdr, .matrix, false, (ruleMnorm acc x)⟩
  | .mexp hdr acc x => some ⟨hdr, .matrix, false, (ruleMexp acc x)⟩
  | .mscap hdr g src row all => some ⟨hdr, .matrix, false, (ruleMscap g src row all)⟩
  | .mpstat hdr o => some ⟨hdr, .matrix, false, (ruleMpstat o)⟩
  | .mrow hdr o u row part => some ⟨hdr, .matrix, false, (ruleMrow o u row part)⟩
  | .ld r => some ⟨r.m.hdr, .memory, false, (ruleLd r)⟩
  | .ldv r => some ⟨r.m.hdr, .memory, false, (ruleLdv r)⟩
  | .st r => some ⟨r.m.hdr, .memory, true, (ruleSt r)⟩
  | .stv r => some ⟨r.m.hdr, .memory, true, (ruleStv r)⟩
  | .ldt r => some ⟨r.m.hdr, .memory, false, (ruleLdt r)⟩
  | .lds r => some ⟨r.m.hdr, .memory, false, (ruleLds r)⟩
  | .stw r => some ⟨r.m.hdr, .memory, true, (ruleStw r)⟩
  | .updw r => some ⟨r.m.hdr, .memory, true, (ruleUpdw r)⟩
  | .reclaim m h a => some ⟨m.hdr, .memory, true, (ruleReclaim m h a)⟩
  | .settle m h => some ⟨m.hdr, .memory, false, (ruleSettle m h)⟩
  | .atom r => some ⟨r.m.hdr, .memory, true, (ruleAtom r)⟩
  | .red r => some ⟨r.m.hdr, .memory, true, (ruleRed r)⟩
  | .mcst r => some ⟨r.m.hdr, .memory, true, (ruleMcst r)⟩
  | .cpy r => some ⟨r.m.hdr, .memory, true, (ruleCpy r)⟩
  | .cpyw r => some ⟨r.m.hdr, .memory, true, (ruleCpyw r)⟩
  | .pref r => some ⟨r.m.hdr, .memory, false, (rulePref r)⟩
  | .disc r => some ⟨r.m.hdr, .memory, false, (ruleDisc r)⟩
  | .mnop m h => some ⟨m.hdr, .memory, false, (ruleMnop m h)⟩
  | .xlat r => some ⟨r.m.hdr, .memory, false, (ruleXlat r)⟩
  | .fence m sc => some ⟨m.hdr, .memory, false, (ruleFence sc)⟩
  | .acq m sc => some ⟨m.hdr, .memory, false, (ruleAcq sc)⟩
  | .rel m sc => some ⟨m.hdr, .memory, false, (ruleRel sc)⟩
  | .ldk r => some ⟨r.m.hdr, .memory, false, (ruleLdk r)⟩
  | .stk r => some ⟨r.m.hdr, .memory, true, (ruleStk r)⟩
  | .xred r => some ⟨r.m.hdr, .memory, true, (ruleXred r)⟩
  | .bar r => some ⟨r.hdr, .sync, true, (ruleBar r)⟩
  | .barw hdr d sc id => some ⟨hdr, .sync, false, (ruleBarw d sc id)⟩
  | .bard hdr sc id => some ⟨hdr, .sync, false, (ruleBard sc id)⟩
  | .bars r => some ⟨r.hdr, .sync, true, (ruleBars r)⟩
  | .monw hdr d h a => some ⟨hdr, .sync, false, (ruleMonw d h a)⟩
  | .monc hdr d h a => some ⟨hdr, .sync, false, (ruleMonc d h a)⟩
  | .tspawn hdr n ts args => some ⟨hdr, .sync, false, (ruleTspawn n ts args)⟩
  | .tdone hdr => some ⟨hdr, .sync, false, ruleTdone⟩
  | .tins r => some ⟨r.hdr, .sounding, true, (ruleTins r)⟩
  | .tseal r => some ⟨r.hdr, .sounding, true, (ruleTseal r)⟩
  | .tdrop r => some ⟨r.hdr, .sounding, true, (ruleTdrop r)⟩
  | .tforkPages hdr d hd hs n => some ⟨hdr, .sounding, true, (ruleTforkPages d hd hs n)⟩
  | .tforkTree hdr d hd he n q => some ⟨hdr, .sounding, true, (ruleTforkTree d hd he n q)⟩
  | .twalk hdr d q v screen => some ⟨hdr, .sounding, false, (ruleTwalk d q v screen)⟩
  | .tres hdr d q p => some ⟨hdr, .sounding, false, (ruleTres d q p)⟩
  | .tsum hdr d q delta => some ⟨hdr, .walk, false, (ruleTsum d q delta)⟩
  | .tstat hdr d q w => some ⟨hdr, .sounding, false, (ruleTstat d q w)⟩
  | .tpar hdr q a hn ht head => some ⟨hdr, .sounding, false, (ruleTpar q a hn ht head)⟩
  | .tscr hdr q a => some ⟨hdr, .hint, false, (ruleTscr q a)⟩
  | .tchkQuery hdr d q => some ⟨hdr, .sounding, false, (ruleTchkQuery d q)⟩
  | .tchkAbort hdr d q => some ⟨hdr, .walk, false, (ruleTchkAbort d q)⟩
  | .sgen hdr d src g n1 bipolar => some ⟨hdr, .stream, false, (ruleSgen d src g n1 bipolar)⟩
  | .sand r => some ⟨r.hdr, .stream, false, (ruleSand r)⟩
  | .sxnor r => some ⟨r.hdr, .stream, false, (ruleSxnor r)⟩
  | .sor r => some ⟨r.hdr, .stream, false, (ruleSor r)⟩
  | .smux r sel => some ⟨r.hdr, .stream, false, (ruleSmux r sel)⟩
  | .snot r => some ⟨r.hdr, .stream, false, (ruleSnot r)⟩
  | .smin r => some ⟨r.hdr, .stream, false, (ruleSmin r)⟩
  | .smax r => some ⟨r.hdr, .stream, false, (ruleSmax r)⟩
  | .scnt hdr o a n1 => some ⟨hdr, .stream, false, (ruleScnt o a n1)⟩
  | .sregen r g => some ⟨r.hdr, .stream, false, (ruleSregen r g)⟩
  | .sdly r k g => some ⟨r.hdr, .stream, false, (ruleSdly r k g)⟩
  | .slen hdr code => some ⟨hdr, .stream, false, (ruleSlen code)⟩
  | .scls r mask => some ⟨r.hdr, .stream, false, (ruleScls r mask)⟩
  | .sout hdr o a => some ⟨hdr, .stream, false, (ruleSout o a)⟩
  | .sin hdr d c => some ⟨hdr, .stream, false, (ruleSin d c)⟩
  | .stationCycle | .resultLands | .yieldExpiry | .sinPart | .soutPart | .linkHop | .busDeliver | .dieLinkTransfer
  | .flowForward | .tokenOverdue | .backgroundPromote | .faultTokenRequeue | .regionRetire | .qwridxWrite | .queueReenable
  | .noOpPacket | .voyageLaunchPacket | .dependencyWaitPacket | .malformedPacket | .dependencyRecheck | .acqPacketRelease
  | .placement | .launchStarveBlock | .agxWalkElement | .memoryRequestIssue | .portRelease | .homePerform | .historyOverflow
  | .memoryReplyLands | .rehashBounce | .windowAccess | .mirrorRead | .markPropagate | .settledLoadRelease
  | .monitorComplete | .copyWrite | .copyComplete | .firstTouch | .copyOnWrite | .decompress | .poolBorrow | .pageCompress
  | .slabCompaction | .timeLimitExpiry | .barrierEntryUpdate | .taskDispatch | .taskCommit | .taskAbort | .treeOpComplete
  | .treeLockRetry | .tileFillAccept | .matrixStepComplete | .accDrainToken | .carryInToken | .normaliserToken
  | .cornerTurnToken | .quietDeadlock | .deadlockHalt | .regionHalt | .drain | .snapshot | .imageSaveDone | .resumePlace
  | .dieLinkDown | .sliceRetire | .dieFailure | .rowHammerRefresh | .remapSwap | .unitReady | .deviceReset | .fwFetchTimeout
  | .startTimeout | .ownclaim | .claimWindowEnd | .ownhand | .ownerLapse | .devctlReset | .devctlClrfail | .sbqueryWrite
  | .pwrlimWrite | .registerWrite | .apertureAccess | .powerRedivide | .loadFw | .attest | .setRoot | .setSavebase
  | .release | .frames | .resume | .discard | .bindPeer | .mailboxUnknown | .flitIdle | .flitToken | .flitRequest
  | .flitReply | .flitNack | .flitJoin | .flitBoot | .retransmitTimeout | .traverseLinkDown | .flitCrcFail | .pilotCoreFault => none

/-- The functional unit of a class in a station kind (Table 6.5, R335). -/
def RClass.unit (k : Kind) : RClass → FUnit
  | .scalar => .alu
  | .handle | .system => if k = .m ∨ k = .ss then .control else .alu
  | .vector | .sounding => .vector
  | .walk => .walk
  | .hint => .hint
  | .matrix => .step
  | .stream => .stream
  | .token | .memory | .sync => .send

/-- A channel whose head a rule reads without consuming it: `rdslk`, a `repeat` before its last copy and the side that `isect` keeps (R57). -/
def peeks : Instr → List (Fin 8)
  | .rdslk _ _ c => [c]
  | .repeat h o c n i m => (Instr.named (.repeat h o c n i m)).chans
  | .isect h o a b i => (Instr.named (.isect h o a b i)).chans
  | _ => []

/-- Units that may not be taken beside a unit in one cycle: the vector unit in each of its uses. -/
def FUnit.clash : FUnit → List FUnit
  | .vector => [.vector, .walk, .hint]
  | .walk => [.vector, .walk]
  | .hint => [.vector, .hint]
  | u => [u]

/-- Units of a kind that a station has. -/
def FUnit.count : FUnit → Nat | .alu => 2 | _ => 1

end Sys2Proof.Machine
end

