-- ==== Sys2Proof/Machine/Cycle.lean ====
section
/-! DEFINITION. A station's cycle: runnable contexts, the choice of a context (R57, R58), the choice of rules (R159, R160), results that land (R161, R170)
and the end of a `yield` (R195). -/

namespace Sys2Proof.Machine

open Sys2Proof

/-- The instruction in a slot, and its rule. -/
def Station.instrAt (t : Station) (c : Fin 8) (i : Fin 32) : Option Instr :=
  match t.ctx[c].rules[i.val]? with
  | none => none
  | some w => match decode t.kind w with | .ok x => some x | .error _ => none

def Station.ruleAt (t : Station) (c : Fin 8) (i : Fin 32) : Option Rule := (t.instrAt c i).bind ruleOf

/-- A unit that neither an earlier rule's long operation nor a rule already chosen occupies (R157). -/
def Station.unitFree (t : Station) (u : FUnit) (used : List FUnit) : Bool :=
  let busy := (t.busy.filter (fun b => u.clash.contains b.1)).length + (used.filter u.clash.contains).length
  let io := match t.ss with | some x => x.io.isSome && u == .stream | none => false
  decide (busy < u.count) && !io

/-- What a fence, an acquire or a release that has not completed holds back (R282); a tree operation, which reads memory, as a memory rule (R308, R315,
log 97). -/
def HoldKind.blocks (k : HoldKind) (r : Rule) (x : Fire) : Bool :=
  let tree := x.now.any fun y => match y with | .engine (some _) => true | _ => false
  match k with
  | .fence => tree || r.cls == .memory || r.cls == .sync || r.cls == .token || r.cls == .handle
  | .acq => tree || r.cls == .memory
  | .rel => r.write || !x.outs.isEmpty

/-- A rule that is ready and finds a free unit, after the claims of the rules already chosen: what it would do (R159, R160). -/
def State.tryRule (s : State) (f : Firing) (used : List FUnit) (i : Fin 32) : Option (Env × Rule × Fire) :=
  match s.station? f.st with
  | none => none
  | some t =>
    match f.pre.ruleAt f.ctx i with
    | none => none
    | some r =>
      let e : Env := ⟨s, t, f, i, r.hdr⟩
      if f.pre.guard f.ctx i r.hdr.guard && f.pre.unitFree (r.cls.unit t.kind) used then
        match r.fire e with
        | none => none
        | some x => if t.ctx[f.ctx].holds.any (fun h => h.kind.blocks r x) then none else some (e, r, x)
      else none

/-- Whether two slots conflict in the matrix of a context. -/
def Ctx.conflicts (c : Ctx) (i j : Fin 32) : Bool := (c.conf.getD i.val 0).getLsbD j.val

/-- A station fires at most 4 rules in a cycle (R157). -/
def maxFire : Nat := 4

/-- The choice of R160: slots in increasing order, each after the claims of those before it. -/
def chooseRules (f : Firing) : List (Fin 32) → State → List (Fin 32) → List FUnit → List (Fin 32)
  | [], _, got, _ => got
  | i :: is, s, got, used =>
    if got.length < maxFire && !(got.any fun j => f.pre.ctx[f.ctx].conflicts i j) then
      match s.tryRule f used i with
      | some (e, r, x) => chooseRules f is (commit e s (e.keepInside x)) (got ++ [i]) (r.cls.unit f.pre.kind :: used)
      | none => chooseRules f is s got used
    else chooseRules f is s got used

/-- The slots of a context. -/
def Ctx.slots (c : Ctx) : List (Fin 32) := (List.finRange 32).filter (fun i => i.val < c.rules.length)

/-- The channels whose heads the rule in a slot reads: those it consumes, those it reads and leaves, and the one its guard tests. -/
def Station.reads (t : Station) (c : Fin 8) (i : Fin 32) (x : Fire) : List (Fin 8) :=
  x.now.filterMap (fun y => match y with | .pop n => some n | _ => none) ++
    (match t.instrAt c i with | some w => peeks w ++ (match w.hdr? with | some h => h.guard.chanOf | none => []) | none => [])

/-- The head slack of a context over the channels that its runnable rules read: the least counter, 1,023 with no head and for a background head (R57). -/
def headSlack (t : Station) (c : Fin 8) (chans : List (Fin 8)) : Nat :=
  chans.foldl (fun m n => match t.seen c n with | some k => if k.bg then m else Nat.min m k.slack | none => m) 1023

/-- A context that may run in this cycle: it has not yielded, and a task context has a task (R195, R291). -/
def Ctx.awake (c : Ctx) : Bool := c.yield == 0 && (!c.task || c.running.isSome)

/-- The runnable contexts, each with the channels that the rules which make it so read. -/
def State.runnable (s : State) (t : Station) : List (Fin 8 × List (Fin 8)) :=
  (List.finRange 8).filterMap fun c =>
    if t.ctx[c].awake then
      match t.ctx[c].slots.filterMap fun i => (s.tryRule ⟨t.id, c, t, []⟩ [] i).map fun (_, _, x) => t.reads c i x with
      | [] => none
      | rs => some (c, rs.flatten)
    else none

/-- The rank of a runnable context: the least is selected (R57). -/
def ctxRank (t : Station) (x : Fin 8 × List (Fin 8)) : List Nat :=
  let c := t.ctx[x.1]
  if c.aged then [0, 2 ^ 32 - c.wait, x.1.val]
  else [1, 3 - c.cls.toNat, headSlack t x.1 x.2, 2 ^ 32 - c.wait, x.1.val]

/-- The first of two in lexicographic order. -/
def lexLt : List Nat → List Nat → Bool
  | a :: as, b :: bs => decide (a < b) || (a == b && lexLt as bs)
  | _, _ => false

/-- Insertion in increasing rank, after equals. -/
def insertBy {α : Type} (rank : α → List Nat) (x : α) : List α → List α
  | [] => [x]
  | y :: ys => if lexLt (rank x) (rank y) then x :: y :: ys else y :: insertBy rank x ys

/-- Stable sort in increasing rank. -/
def sortBy {α : Type} (rank : α → List Nat) (l : List α) : List α := l.foldl (fun r x => insertBy rank x r) []

/-- The element of least rank. -/
def leastBy {α : Type} (rank : α → List Nat) : List α → Option α
  | [] => none
  | x :: xs => some (xs.foldl (fun a b => if lexLt (rank b) (rank a) then b else a) x)

/-- Waiting counts after a cycle: a runnable context that was not selected waits, the selected one starts again (R58). -/
def Station.countWaits (t : Station) (run : List (Fin 8)) (sel : Fin 8) : Station :=
  run.foldl (fun t c => t.modCtx c fun x =>
    if c = sel then { x with wait := 0, aged := false } else { x with wait := x.wait + 1, aged := x.aged || decide (256 ≤ x.wait + 1) }) t

/-- A voyage is not quiet in this cycle (R60). -/
def State.stir (s : State) (v : Nat) : State := s.modVoyage v fun x => { x with moved := true }

/-- Whether a station may fire: its region runs and is not frozen (R47, R160). -/
def State.stationRuns (s : State) (t : Station) : Bool :=
  match s.voyage? t.voy with
  | none => false
  | some v => !v.frozen && match v.region? t.reg with | some r => r.st == .running && !r.frozen | none => false

/-- Whether the tree engine of a station works: that of a retired region ends what it has begun (log 88). -/
def State.engineRuns (s : State) (t : Station) : Bool :=
  match s.voyage? t.voy with
  | none => false
  | some v => !v.frozen && match v.region? t.reg with | some r => (r.st == .running || r.st == .retired) && !r.frozen | none => false

/-- STATION_CYCLE (R160): the station selects a context and chooses its rules; they execute in slot order. -/
def execStationCycle (s : State) : Host.Outcome State Fault Refusal :=
  match s.ev with
  | .st i =>
    match s.station? i with
    | none => .next s
    | some t =>
      if !s.stationRuns t then .next s
      else
        let run := s.runnable t
        match leastBy (ctxRank t) run with
        | none => .next s
        | some (c, _) =>
          let todo := chooseRules ⟨i, c, t, []⟩ t.ctx[c].slots s [] []
          let s := (s.modStation i fun t => t.countWaits (run.map (·.1)) c).stir t.voy
          .next (match todo with | [] => s | _ => { s with firing := some ⟨i, c, t, todo⟩ })
  | _ => .next s

/-- RESULT_LANDS (R161, R170): a result in flight is written at its destination. -/
def execResultLands (s : State) : Host.Outcome State Fault Refusal :=
  match s.ev with
  | .flight i id =>
    match (s.station? i).bind (fun t => t.flights.find? (fun f => f.id == id)) with
    | none => .next s
    | some f =>
      let s := s.modStation i fun t => { t with flights := t.flights.filter (fun g => g.id ≠ id) }
      .next (s.applyAll ⟨i, f.ctx, f.slot⟩ f.effs)
  | _ => .next s

/-- YIELD_EXPIRY (R195): the context may be selected again. -/
def execYieldExpiry (s : State) : Host.Outcome State Fault Refusal :=
  match s.ev with
  | .ctx i c => .next (s.modStation i fun t => t.modCtx c fun x => { x with yield := 0 })
  | _ => .next s

end Sys2Proof.Machine
end

