-- ==== Sys2Proof/Machine/Blank.lean ====
section
/-! DEFINITION. A station as a launch clears it (R163, Table 6.4, R320, R338, R388, R412). -/

namespace Sys2Proof.Machine

open Sys2Proof

/-- A context without rules: the slack base is the packet's SLB (Table 6.4). -/
def Ctx.blank (slb : BitVec 6) : Ctx :=
  { rules := [], conf := [], cls := 0, task := false, base := slb, wave := 0, stoplvl := 0, wait := 0, aged := false, fired := 0,
    reps := Vector.replicate 32 0, yield := 0, len := 0, ts := 0, running := none, holds := [], arrs := [] }

def Tile.blank : Tile :=
  { rows := Vector.replicate 64 0, scales := Vector.replicate 64 0, fmt := 0, st := .empty, pos := 0, fill := none, fresh := false, parks := [] }

def Acc.blank : Acc :=
  { rows := Vector.replicate 64 AccRow.clear, cnt := 0, st := .opened, cfg := none, closed := 0, cin := 0, pos := 0, slack := ⟨false, 0⟩, parks := [] }

def Mat.blank : Mat :=
  { t := Vector.replicate 4 Tile.blank, a := Vector.replicate 2 Acc.blank, g := Vector.replicate 2 (Vector.replicate 64 0), step := none }

def Ss.blank : Ss := { z := Vector.replicate 16 ⟨0, 0, 0⟩, io := none }

def QReg.blank : QReg :=
  { param := 0, head := 0, hn := 0, ht := 0, qp := [], lam := 0, nu := 0, walk := none, out := [], usum := 0, dsum := 0, m := 0, llo := 0, state := 0,
    pauses := 0, rstrt := 0, stop := 0, visits := 0, rootver := 0 }

def Sd.blank : Sd := { q := Vector.replicate 4 QReg.blank, eng := none }

/-- A cleared station of a region. -/
def Station.blank (i : StId) (k : Kind) (voy reg rx ry : Nat) (slb : BitVec 6) : Station :=
  { id := i, kind := k, voy := voy, reg := reg, rx := rx, ry := ry, d := Vector.replicate 8 0, v := Vector.replicate 8 VReg.zero, p := 0,
    h := Vector.replicate 16 HEntry.empty, claims := [], c := Vector.replicate 8 (Fifo.empty 4), hctx := Vector.replicate 8 none,
    cnt := Vector.replicate 8 0, ctx := Vector.replicate 8 (Ctx.blank slb), store := [], shadow := [], worn := [], flights := [], pend := [], busy := [],
    overdue := 0, credits := 0, copies := 0, mons := 0, mat := if k = .m then some Mat.blank else none,
    matPre := if k = .m then some Mat.blank else none,
    ss := if k = .ss then some Ss.blank else none, sd := if k = .sd then some Sd.blank else none, cache := [], ctn := none, nrm := none,
    handler := [], fctx := none }

/-! ### The plat layout (R15) and the edge (R17, R18) -/

/-- The kind of an interior station (Table 1.2). -/
def stationKind (x y : Nat) : Kind :=
  match y % 4, x % 4 with
  | 0, 0 => .m | 0, 1 => .c | 0, 2 => .m | 0, _ => .c
  | 1, 0 => .c | 1, 1 => .s | 1, 2 => .c | 1, _ => .m
  | 2, 0 => .m | 2, 1 => .c | 2, 2 => if (x / 4 + y / 4) % 2 = 0 then .sd else .ss | 2, _ => .c
  | _, 0 => .c | _, 1 => .s | _, 2 => .c | _, _ => .m

/-- The coordinates of the port station with an index (R18). -/
def portXY (i : Nat) : Int × Int :=
  if i < 28 then (2 * i + 1, -1)
  else if i < 48 then (56, 2 * (i - 28 : Nat))
  else if i < 76 then (54 - 2 * (i - 48 : Nat), 40)
  else (-1, 39 - 2 * (i - 76 : Nat))

/-- The edge positions clockwise from the north-west corner: the place of a side's offset. -/
def ringPos (side off : Nat) : Nat :=
  match side with
  | 0 => off
  | 1 => 56 + off
  | 2 => 96 + (55 - off)
  | _ => 152 + (39 - off)

/-- Whether a ring position holds a port station (R17). -/
def ringIsPort (p : Nat) : Bool :=
  if p < 56 then p % 2 == 1
  else if p < 96 then p % 2 == 0
  else if p < 152 then p % 2 == 1
  else p % 2 == 0

/-- The port index at a ring position. -/
def ringPort (p : Nat) : Nat := ((List.range p).filter ringIsPort).length

/-- The nearest port on the edge ring from an address generator, in one direction (R237). -/
def agenPort (side off : Nat) (cw : Bool) : Nat :=
  let p := ringPos side off
  let at' (k : Nat) : Nat := if cw then (p + k) % 192 else (p + 192 - k) % 192
  match [1, 2, 3].find? (fun k => ringIsPort (at' k)) with
  | some k => ringPort (at' k)
  | none => 0

/-- Mesh hops between two places. -/
def meshDist (a b : Int × Int) : Nat := (a.1 - b.1).natAbs + (a.2 - b.2).natAbs

end Sys2Proof.Machine
end

