-- ==== Sys2Proof/Machine/Image.lean ====
section
/-! DEFINITION. The configuration image (R133-R141): its layout, read from the bytes that the Helm has fetched. -/

namespace Sys2Proof.Machine

open Sys2Proof

/-- The image's bytes as one number, and how many there are. -/
structure Img where
  x   : Nat
  len : Nat

/-- The 64-bit word at an offset inside the image. -/
def Img.word? (m : Img) (o : Nat) : Option Nat := if o + 8 ≤ m.len then some (fld m.x (8 * o) 64) else none

def Img.words? (m : Img) (o n : Nat) : Option (List Nat) := (List.range n).mapM fun i => m.word? (o + 8 * i)

/-- Parse n records that follow one another. -/
def Img.many? {α : Type} (f : Nat → Option (α × Nat)) : Nat → Nat → Option (List α × Nat)
  | 0, o => some ([], o)
  | n + 1, o => do
    let (a, o) ← f o
    let (as, o) ← Img.many? f n o
    return (a :: as, o)

/-- A condition that an image field must meet. -/
def must (b : Bool) : Option Unit := if b then some () else none

/-! ### Patterns (R136-R138) -/

/-- A context block: index, ON, class, task flag, conflict matrix, rule words; `sym` where the matrix is symmetric. -/
structure PCtx where
  ctx   : Fin 8
  on    : BitVec 8
  prio  : BitVec 2
  task  : Bool
  conf  : List (BitVec 32)
  rules : List Word
  sym   : Bool

/-- A data section. -/
structure PData where
  off    : Nat
  shadow : Bool
  len    : Nat
  x      : Nat

/-- A pattern: kind, rectangles (x′, y′, width, height), contexts, declared handle entries, node words, data sections. -/
structure Pat where
  kind  : Kind
  rects : List (Nat × Nat × Nat × Nat)
  ctxs  : List PCtx
  hs    : List (Nat × Nat)
  nodes : List Word
  data  : List PData
  bytes : Nat

/-- Kinds as Table 5.14 codes them. -/
def Kind.ofCode? : Nat → Option Kind
  | 0 => some .m | 1 => some .c | 2 => some .s | 3 => some .sd | 4 => some .ss | _ => none

/-- Rows of a conflict matrix below n are symmetric off the diagonal (R137). -/
def symmetric (conf : List (BitVec 32)) (n : Nat) : Bool :=
  (List.range n).all fun i => (List.range n).all fun j => i == j || (conf.getD i 0).getLsbD j == (conf.getD j 0).getLsbD i

def Img.ctx? (m : Img) (c o : Nat) : Option (PCtx × Nat) := do
  let h ← m.word? o
  let n := fld h 3 6
  must (fld h 0 3 == c && decide (1 ≤ n ∧ n ≤ 32) && fld h 20 44 == 0)
  let rows ← m.words? (o + 8) 16
  let conf := rows.flatMap fun w => [BitVec.ofNat 32 w, BitVec.ofNat 32 (w / 2 ^ 32)]
  let rules ← m.words? (o + 136) n
  return (⟨Fin.ofNat 8 c, BitVec.ofNat 8 (h / 2 ^ 9), BitVec.ofNat 2 (h / 2 ^ 17), h.testBit 19, conf, rules.map (BitVec.ofNat 64), symmetric conf n⟩,
    o + 136 + 8 * n)

def Img.rect? (m : Img) (o : Nat) : Option ((Nat × Nat × Nat × Nat) × Nat) := do
  let h ← m.word? o
  let w := fld h 12 6
  let k := fld h 18 6
  must (decide (1 ≤ w ∧ w ≤ 56 ∧ 1 ≤ k ∧ k ≤ 40) && fld h 24 40 == 0)
  return ((fld h 0 6, fld h 6 6, w, k), o + 8)

/-- A data section (R138). DESIGN CHOICE (log 110): bits [63:41] of its header, which R138 gives no field, are 0. -/
def Img.data? (m : Img) (o : Nat) : Option (PData × Nat) := do
  let h ← m.word? o
  let n := fld h 21 20
  let p := (n + 7) / 8 * 8
  must (fld h 41 23 == 0 && decide (o + 8 + p ≤ m.len))
  return (⟨fld h 0 20, h.testBit 20, n, fld m.x (8 * (o + 8)) (8 * n)⟩, o + 8 + p)

/-- The indices of the bits set in an n-bit field. -/
def bitsSet (x n : Nat) : List Nat := (List.range n).filter fun i => x.testBit i

def Img.pat? (m : Img) (o : Nat) : Option (Pat × Nat) := do
  let h ← m.word? o
  let kind ← Kind.ofCode? (fld h 0 3)
  let nr := fld h 3 8
  must (fld h 51 13 == 0 && decide (1 ≤ nr))
  let (rects, p) ← Img.many? m.rect? nr (o + 8)
  let (ctxs, p) ← (bitsSet (fld h 11 8) 8).foldlM (fun (cs, p) c => do let (x, p) ← m.ctx? c p; return (cs ++ [x], p)) (([] : List PCtx), p)
  let (hs, p) ← (bitsSet (fld h 19 16) 16).foldlM
    (fun (hs, p) i => do must (decide (p + 32 ≤ m.len)); return (hs ++ [(i, fld m.x (8 * p) 256)], p + 32)) (([] : List (Nat × Nat)), p)
  let nodes ← m.words? p (fld h 43 8)
  let (data, q) ← Img.many? m.data? (fld h 35 8) (p + 8 * nodes.length)
  return (⟨kind, rects, ctxs, hs, nodes.map (BitVec.ofNat 64), data, q - o⟩, q)

/-! ### Routes, edge lists, discards (R139-R141) -/

/-- Where a route goes. -/
inductive RouteTo
  | mesh (x y c : Nat)
  | bus (ds : List (Nat × Nat × Nat))
  | die (reg x y c : Nat)
  | cross (inbound : Bool) (peer key : Nat)

/-- A route: output, source, destination, waypoints, pass words (x′, y′, BUF); `ok` where every field is in range. -/
structure RouteI where
  out    : Nat
  x      : Nat
  y      : Nat
  dest   : RouteTo
  via    : List (Nat × Nat)
  passes : List (Nat × Nat × Nat)
  ok     : Bool

/-- A route word with its extension words (R139). DESIGN CHOICE (log 111): an extension word of a type that the route's KIND has no use for is a failure,
and bits [31:17] of a KIND 2 route word, whose far end stands in an extension word, are not looked at. -/
def Img.route? (m : Img) (o : Nat) : Option (RouteI × Nat) := do
  let h ← m.word? o
  let out := fld h 0 3
  let x := fld h 3 6
  let y := fld h 9 6
  let n := fld h 32 8
  let ext ← m.words? (o + 8) n
  let typ (w : Nat) : Nat := fld w 62 2
  let xy (w : Nat) : Nat × Nat := (fld w 0 6, fld w 6 6)
  let via := (ext.filter (typ · == 0)).map xy
  let more := (ext.filter (typ · == 1)).map fun w => (fld w 0 6, fld w 6 6, fld w 12 3)
  let passes := (ext.filter (typ · == 2)).map fun w => (fld w 0 6, fld w 6 6, fld w 12 3)
  let far := (ext.filter (typ · == 3)).map fun w => (fld w 0 8, fld w 8 6, fld w 14 6, fld w 20 3)
  let clean := ext.all fun w =>
    match typ w with | 0 => fld w 12 50 == 0 | 1 => fld w 15 47 == 0 | 2 => fld w 15 47 == 0 | _ => fld w 23 39 == 0
  let plain := fld h 40 24 == 0 && clean
  let mk (goal : RouteTo) (ok : Bool) : RouteI := ⟨out, x, y, goal, via, passes, ok⟩
  let r : RouteI :=
    match fld h 15 2 with
    | 0 => mk (.mesh (fld h 17 6) (fld h 23 6) (fld h 29 3)) (plain && more.isEmpty && far.isEmpty)
    | 1 => mk (.bus ((fld h 17 6, fld h 23 6, fld h 29 3) :: more)) (plain && far.isEmpty && via.isEmpty && passes.isEmpty)
    | 2 =>
      match far with
      | [(r, fx, fy, fc)] => mk (.die r fx fy fc) (plain && more.isEmpty)
      | _ => mk (.die 0 0 0 0) false
    | _ => mk (.cross (h.testBit 17) (fld h 18 7) (fld h 40 16)) (fld h 25 7 == 0 && n == 0 && fld h 56 8 == 0)
  return (r, o + 8 + 8 * n)

/-- An entry of the edge list: side, offset, node words; `ok` where its fields are in range. -/
structure EdgeI where
  side  : Nat
  off   : Nat
  words : List Word
  ok    : Bool

def Img.edge? (m : Img) (o : Nat) : Option (EdgeI × Nat) := do
  let h ← m.word? o
  let n := fld h 8 8
  let ws ← m.words? (o + 8) n
  return (⟨fld h 0 2, fld h 2 6, ws.map (BitVec.ofNat 64), fld h 16 48 == 0 && decide (1 ≤ n ∧ n ≤ 64)⟩, o + 8 + 8 * n)

/-! ### Regions and the header (R134, R135) -/

/-- A region of the image. -/
structure RegI where
  slot : Nat
  px   : Nat
  py   : Nat
  pw   : Nat
  ph   : Nat
  par  : BitVec 2
  dn   : Fin 64 × Fin 64 × Fin 8
  flt  : Option (Nat × Nat × Fin 8)
  mon  : Option (Nat × Nat × Fin 8 × Bool)
  tlim : Nat
  pats : List Pat
  routes : List RouteI
  edges : List EdgeI
  discards : List (Nat × Nat × Nat)
  bytes : Nat

structure Image where
  kslot : Nat
  pwmin : Nat
  phmin : Nat
  regs  : List RegI

/-- An offset and a count (R135). -/
def span (w : Nat) : Nat × Nat := (fld w 0 32, fld w 32 16)

/-- A region record (R135). DESIGN CHOICE (log 109): the bits that R135 gives no field, [31:17] of word 1 and [63:48] of words 2 to 5, are 0, as reserved
ones are, a list stands at a multiple of 8, and the coordinates of a fault station or a monitor have to lie in the region only where it is declared. -/
def Img.region? (m : Img) (kslot o : Nat) : Option RegI := do
  let w0 ← m.word? o
  let w1 ← m.word? (o + 8)
  let ps ← m.word? (o + 16)
  let rs ← m.word? (o + 24)
  let ds ← m.word? (o + 32)
  let es ← m.word? (o + 40)
  let w6 ← m.word? (o + 48)
  let w7 ← m.word? (o + 56)
  let pw := fld w0 13 4
  let ph := fld w0 17 4
  let tl := fld w1 32 32
  let inside (x y : Nat) : Bool := decide (x < 4 * pw ∧ y < 4 * ph)
  must (fld w0 54 10 == 0 && fld w0 2 3 == 0 && decide (fld w0 0 2 < kslot) && decide (1 ≤ pw ∧ 1 ≤ ph ∧ pw ≤ 14 ∧ ph ≤ 10) && fld w0 21 2 != 3 &&
    inside (fld w0 23 6) (fld w0 29 6) && (!w0.testBit 38 || inside (fld w0 39 6) (fld w0 45 6)) &&
    fld w1 17 15 == 0 && (!w1.testBit 15 || inside (fld w1 0 6) (fld w1 6 6)) &&
    (tl == 0 || decide (21000 ≤ tl ∧ tl ≤ 210000000)) && w6 == 0 && w7 == 0 &&
    [ps, rs, ds, es].all fun w => fld w 48 16 == 0 && fld w 0 3 == 0)
  let (pats, _) ← Img.many? m.pat? (span ps).2 (span ps).1
  let (routes, _) ← Img.many? m.route? (span rs).2 (span rs).1
  let dis ← m.words? (span ds).1 (span ds).2
  let (edges, _) ← Img.many? m.edge? (span es).2 (span es).1
  return {
    slot := fld w0 0 2, px := fld w0 5 4, py := fld w0 9 4, pw := pw, ph := ph, par := BitVec.ofNat 2 (fld w0 21 2),
    dn := (Fin.ofNat 64 (fld w0 23 6), Fin.ofNat 64 (fld w0 29 6), Fin.ofNat 8 (fld w0 35 3)),
    flt := if w0.testBit 38 then some (fld w0 39 6, fld w0 45 6, Fin.ofNat 8 (fld w0 51 3)) else none,
    mon := if w1.testBit 15 then some (fld w1 0 6, fld w1 6 6, Fin.ofNat 8 (fld w1 12 3), w1.testBit 16) else none,
    tlim := if tl = 0 then 2100000 else tl, pats := pats, routes := routes, edges := edges,
    discards := dis.map fun w => (fld w 0 4, fld w 4 28, fld w 32 32),
    bytes := (pats.map (·.bytes)).foldl (· + ·) 0 }

/-- The image, or none where a field of its header, of a region record or of a pattern is out of range. -/
def Img.parse (m : Img) : Option Image := do
  let w0 ← m.word? 0
  let w2 ← m.word? 0x10
  let rest ← m.words? 0x18 5
  let n := fld w0 40 8
  let pwmin := fld w0 20 4
  let phmin := fld w0 24 4
  let kslot := fld w0 16 4
  must (fld w0 0 16 == 1 && decide (1 ≤ kslot ∧ kslot ≤ 4) && decide (1 ≤ pwmin ∧ pwmin ≤ 14) && decide (1 ≤ phmin ∧ phmin ≤ 10) &&
    decide (fld w0 32 7 ≤ 62) && decide (1 ≤ n ∧ n ≤ 56) && fld w0 48 16 == 0 && rest.all (· == 0) && fld w2 0 3 == 0)
  let regs ← (List.range n).mapM fun i => m.region? kslot (fld w2 0 32 + 64 * i)
  return ⟨kslot, pwmin, phmin, regs⟩

/-- Read an image through the queue's address space: its header gives the length (R134, R469). -/
def State.readImage (s : State) (asid : BitVec 16) (va : Nat) : Helm (Img × State) := do
  let (h, s) ← s.helmRead s.helmDie asid va 64 true
  let n := fld h (8 * 0x10 + 32) 32
  let (x, s) ← s.helmRead s.helmDie asid va (Nat.max n 64) true
  return (⟨x, n⟩, s)

end Sys2Proof.Machine
end

