-- ==== Sys2Proof/Machine/Link.lean ====
section
/-! DEFINITION. Traverse links: saved tokens (R443), numbered flits, acknowledgements, nacks, resending, and
the links that flows keep to (R463-R465). -/

namespace Sys2Proof.Machine

open Sys2Proof

/-! ### Tokens in their saved form (R443) -/

/-- The 80 bytes of a saved token as a number. -/
def Token.bits (k : Token) : Nat :=
  let b (c : Bool) (i : Nat) : Nat := if c then 2 ^ i else 0
  k.data.toNat + k.side.toNat * 2 ^ 512 + k.fmt.toNat * 2 ^ 576 + (k.tag.toNat + k.stop.toNat * 16 + b k.f 6 + b k.bg 7) * 2 ^ 584 +
    k.slack % 2 ^ 16 * 2 ^ 592

def Token.bytes (k : Token) : List Byte := bytesOf 80 k.bits

/-- A token from its saved form. -/
def Token.ofBits (n : Nat) : Token :=
  { data := BitVec.ofNat 512 n, side := BitVec.ofNat 64 (n / 2 ^ 512), fmt := BitVec.ofNat 6 (n / 2 ^ 576), tag := BitVec.ofNat 3 (n / 2 ^ 584),
    stop := BitVec.ofNat 2 (n / 2 ^ 588), f := n.testBit 590, bg := n.testBit 591, slack := n / 2 ^ 592 % 2 ^ 16 }

/-! ### Flits as they travel (R464) -/

/-- The CRC-32 of IEEE 802.3, one bit further, the bits of a byte from the lowest on. PRESUMED (log 106): the order of the bits, the initial value and the
final complement are those of that standard's frame check sequence. -/
def crcBit (r : BitVec 32) (b : Bool) : BitVec 32 := if r.getLsbD 0 == b then r >>> 1 else r >>> 1 ^^^ 0xEDB88320

def crc32 (l : List Byte) : BitVec 32 := ~~~(l.foldl (fun r x => (List.range 8).foldl (fun r i => crcBit r (x.getLsbD i)) r) (BitVec.allOnes 32))

/-- Header and body, 124 bytes (Tables 23.7, 23.8). -/
def Flit.front (f : Flit) : List Byte :=
  bytesOf 8 (f.typ.toNat + f.seq.toNat * 2 ^ 4 + f.key.toNat * 2 ^ 16 + f.ack.toNat * 2 ^ 32) ++ bytesOf 116 (ofBytes f.body)

/-- The 128 bytes of a flit. -/
def Flit.wire (f : Flit) : List Byte := f.front ++ bytesOf 4 (crc32 f.front).toNat

/-- The flit of 128 bytes, none where the CRC fails. -/
def Flit.ofWire (w : List Byte) : Option Flit :=
  let n := ofBytes (w.take 8)
  if w.length = 128 ∧ ofBytes (w.drop 124) = (crc32 (w.take 124)).toNat then
    some ⟨BitVec.ofNat 4 n, BitVec.ofNat 12 (n / 2 ^ 4), BitVec.ofNat 16 (n / 2 ^ 16), BitVec.ofNat 12 (n / 2 ^ 32), (w.take 124).drop 8⟩
  else none

/-! ### Sending -/

/-- Flits that a sender may keep unacknowledged (R464). -/
def flitWindow : Nat := 1024

/-- A flit takes the next number, leaves, and is kept until it is acknowledged. -/
def TLink.number (l : TLink) (typ : BitVec 4) (key : BitVec 16) (body : List Byte) : TLink :=
  let f : Flit := ⟨typ, l.seq, key, l.expect - 1, body ++ List.replicate (116 - body.length) 0⟩
  { l with seq := l.seq + 1, unacked := l.unacked ++ [f], outbox := l.outbox ++ [f.wire] }

/-- As many of those that wait as the window has room for leave, in their order. -/
def TLink.pump (l : TLink) : TLink :=
  let n := if l.up then flitWindow - l.unacked.length else 0
  (l.waiting.take n).foldl (fun l (t, k, b) => l.number t k b) { l with waiting := l.waiting.drop n }

/-- A flit is sent, behind those that wait. -/
def TLink.send (l : TLink) (typ : BitVec 4) (key : BitVec 16) (body : List Byte) : TLink :=
  ({ l with waiting := l.waiting ++ [(typ, key, body)] } : TLink).pump

/-- Room for one more unacknowledged flit. -/
def TLink.room (l : TLink) : Bool := l.up && decide (l.unacked.length + l.waiting.length < flitWindow)

/-- Resend from the first unacknowledged flit, in order, with the present ACK. -/
def TLink.resend (l : TLink) : TLink :=
  { l with outbox := l.outbox ++ l.unacked.map fun f => ({ f with ack := l.expect - 1 } : Flit).wire, timer := 0 }

/-- An idle flit: the SEQ of the next flit to be sent, not numbered itself (R464). -/
def TLink.idle (l : TLink) : Flit := ⟨0, l.seq, 0, l.expect - 1, List.replicate 116 0⟩

def State.modLink (s : State) (n : Nat) (f : TLink → TLink) : State :=
  if h : n < 16 then { s with links := s.links.set n (f s.links[n]) } else s

def State.link? (s : State) (n : Nat) : Option TLink := if h : n < 16 then some s.links[n] else none

/-! ### Receiving -/

/-- Drop what an ACK covers; the timer starts again when it advances, and flits that wait may leave. -/
def TLink.acknowledge (l : TLink) (ack : BitVec 12) : TLink :=
  if l.unacked.any (fun f => f.seq == ack) then
    ({ l with acked := ack, unacked := (l.unacked.dropWhile fun f => f.seq ≠ ack).tail, timer := 0 } : TLink).pump
  else l

/-- Take a flit that is in sequence: an idle flit is not numbered. -/
def TLink.take (l : TLink) (f : Flit) : TLink :=
  { l with expect := if f.typ = 0 then l.expect else l.expect + 1, nacked := false }.acknowledge f.ack

/-- A flit is discarded: the first of a gap is answered with a nack that carries the expected SEQ. -/
def TLink.discard (l : TLink) : TLink :=
  if l.nacked then l
  else
    let body := bytesOf 2 l.expect.toNat
    { (if l.up then l.send 4 0 body else l.number 4 0 body) with nacked := true }

/-- A link carries flits: once it is up, and link 0 while the pilot cores fetch their image over it, before the links train (R455, log 92). -/
def State.linkOpen (s : State) (n : Nat) (l : TLink) : Bool := l.up || (n == 0 && s.tlboot && s.boot == .fetch)

/-- A flit in sequence, of a type that is not reserved. -/
def State.accepts (s : State) (n : Nat) (f : Flit) : Bool :=
  match s.link? n with
  | some l => s.linkOpen n l && decide (f.typ.toNat < 7) && f.seq == l.expect
  | none => false

/-- A flit that fails, is reserved or is out of sequence is discarded. -/
def State.discardFlit (s : State) (n : Nat) : State := s.modLink n fun l => if s.linkOpen n l then l.discard else l

/-! ### Flows and their links (R465) -/

/-- The links bound to a peer number in an address space (R465). -/
def State.bound (s : State) (asid : BitVec 16) (p : Nat) : List Nat :=
  match s.bindings.find? (fun b => b.asid == asid && b.peer == p) with
  | none => []
  | some b => (List.range 16).filter fun i => b.links.getLsbD i

/-- The bound links that are up. -/
def State.boundUp (s : State) (asid : BitVec 16) (p : Nat) : List Nat :=
  (s.bound asid p).filter fun i => match s.link? i with | some l => l.up | none => false

/-- The link that takes over the flows of link n that run in a binding. -/
def State.takeover (s : State) (n : Nat) (b : Peer) : Option Nat := if b.links.getLsbD n then (s.boundUp b.asid b.peer).head? else none

/-- The address space of a voyage. -/
def State.asidOf (s : State) (v : Nat) : Option (BitVec 16) := (s.voyage? v).map (·.asid)

/-- The edges that leave over a link. -/
def State.edgeOver (s : State) (n : Nat) (key : BitVec 16) : Option Route :=
  s.routes.find? fun r => r.link == n && match r.cross with | some (_, false, k) => k == key | _ => false

/-- The bindings that a flit of link n may belong to: those of its peer number, and for a token or a request those of its voyage's address space. -/
def State.flitBindings (s : State) (n : Nat) (typ : BitVec 4) (key : BitVec 16) (body : List Byte) : List Peer :=
  let b := ofBytes body
  let of (p : Nat) (asid : Option (BitVec 16)) : List Peer :=
    s.bindings.filter fun x => x.links.getLsbD n && x.peer == p && (asid.isNone || asid == some x.asid)
  match typ.toNat with
  | 1 => (match s.edgeOver n key with
    | some r => (match r.cross with | some (p, _, _) => of p (s.asidOf r.voy) | none => [])
    | none => s.bindings.filter fun x => x.links.getLsbD n)
  | 2 => of (fld key.toNat 0 7) ((s.reqs.find? fun q => q.stage == .peer (fld b 200 8) && q.port == some (fld b 208 2, fld b 192 7)).map (·.asid))
  | 3 => of (fld key.toNat 0 7) none
  | 5 => of (fld b 88 8) none
  | _ => []

/-- The flows of a link that is down move to another link of their set, what has not been acknowledged first and in its order; where no link of the set is
up they stay (R465). DESIGN CHOICE (log 105). -/
def State.moveFlows (s : State) (n : Nat) : State :=
  match s.link? n with
  | none => s
  | some l =>
    if l.up then s
    else
      let way (x : BitVec 4 × BitVec 16 × List Byte) : Option Nat := (s.flitBindings n x.1 x.2.1 x.2.2).findSome? (s.takeover n)
      let all := (l.unacked.map fun f => (f.typ, f.key, f.body)) ++ l.waiting
      let to' (asid : Option (BitVec 16)) (p m : Nat) : Nat :=
        if m ≠ n then m else (((s.bindings.find? fun b => some b.asid == asid && b.peer == p).bind (s.takeover n)).getD m)
      let t := all.foldl (fun t x => match way x with | some m => t.modLink m fun k => k.send x.1 x.2.1 x.2.2 | none => t) s
      { t.modLink n fun l => { l with seq := l.acked + 1, unacked := [], outbox := [], waiting := all.filter fun x => x.1 ≠ 4 && (way x).isNone } with
        routes := s.routes.map fun (r : Route) => match r.cross with | some (p, _, _) => { r with link := to' (s.asidOf r.voy) p r.link } | none => r
        domains := s.domains.map fun (d : Domain) => { d with links := d.links.map fun (p, m) => (p, to' (s.asidOf d.voy) p m) } }

end Sys2Proof.Machine
end

