-- ==== Sys2Proof/Machine/Net.lean ====
section
/-! DEFINITION. How tokens travel: mesh links, buses, die links (R22, R146-R150), arbitration (R54), slack counters that reach 0 (R56),
background tokens that age (R52), and fault tokens that no rule handles (R166). -/

namespace Sys2Proof.Machine

open Sys2Proof

/-! ### Arbitration (R54) -/

/-- The order of heads at an arbiter, the least first: overdue by standing time, then the least counter, then the greatest age. -/
def arbKey (sl : Slack) (stood : Nat) : List Nat :=
  let late (n : Nat) : Nat := 2 ^ 40 - n
  if !sl.bg && sl.n = 0 then [0, 0, late stood]
  else if !sl.bg then [1, sl.n, late stood]
  else [2, late sl.n, late stood]

/-- Inputs of an arbiter (Table 2.6). -/
def Arb.inputs : Arb → Nat
  | .row .. => 56 | .col .. => 40 | .dieLink .. => 64 | .port .. => 16 | .slice .. => 96

/-- A head at an arbiter: its rank, its input and what a grant does. -/
structure Bid where
  arb : Arb
  key : List Nat
  inp : Nat
  ev  : Instr × EvArg
  deriving DecidableEq, Repr

/-- Where an arbiter's count of inputs starts. -/
def arbStart (rots : List (Arb × Nat)) (a : Arb) : Nat := match rots.find? (fun e => e.1 == a) with | some e => e.2 | none => 0

/-- One grant: of the heads of least rank the lowest input counted from the rotating start, which advances when this last step has decided (R54). -/
def arbitrate (rots : List (Arb × Nat)) (a : Arb) (l : List Bid) : Option Bid × List (Arb × Nat) :=
  match leastBy Bid.key l with
  | none => (none, rots)
  | some b =>
    match l.filter (fun x => x.key == b.key) with
    | [] => (none, rots)
    | [x] => (some x, rots)
    | xs =>
      let st := arbStart rots a
      (leastBy (fun x => [(x.inp % a.inputs + a.inputs - st) % a.inputs]) xs, (a, (st + 1) % a.inputs) :: rots.filter (fun e => e.1 != a))

/-- One grant for each arbiter. -/
def grants (rots : List (Arb × Nat)) (l : List Bid) : List (Instr × EvArg) × List (Arb × Nat) :=
  ((l.map (·.arb)).eraseDups).foldl (fun (got, rots) a =>
    match arbitrate rots a (l.filter (fun x => x.arb == a)) with
    | (some x, rots) => (got ++ [x.ev], rots)
    | (none, rots) => (got, rots)) ([], rots)

/-! ### The ring of dies (R21, R22, R25) -/

/-- The dies on the way round the ring in one direction, the far die last. -/
def ringDies (a b : Nat) (cw : Bool) : List Nat :=
  (List.range (if cw then (b + 4 - a) % 4 else (a + 4 - b) % 4)).map fun k => if cw then (a + k + 1) % 4 else (a + 3 - k) % 4

/-- The links of that way, each by the die whose clockwise link it is. -/
def ringLinks (a b : Nat) (cw : Bool) : List Nat := (ringDies a b cw).map fun d => if cw then (d + 3) % 4 else d

/-- The way in one direction; none where a link is down. -/
def State.ringWay (s : State) (a b : Nat) (cw : Bool) : Option (List Nat) :=
  if (ringLinks a b cw).all s.linkUpCw then some (ringDies a b cw) else none

/-- A link between live dies that has not become ready yet (R33). -/
def State.linkPending (s : State) (d : Nat) : Bool :=
  match s.die? (d % 4), s.die? ((d + 1) % 4) with
  | some a, some b => a.live && b.live && !(a.ready.getLsbD 3 && b.ready.getLsbD 4)
  | _, _ => false

/-- Two dies have no way between them, nor will one come up with a link that still trains (R25). -/
def State.apart (s : State) (a b : Nat) : Bool :=
  [true, false].all fun cw => (ringLinks a b cw).any fun d => !s.linkUpCw d && !s.linkPending d

/-- The way between two dies: the shorter, and either where both are as long (R22). -/
def State.dieWay (s : State) (a b : Nat) : Option (Bool × List Nat) :=
  match s.ringWay a b true, s.ringWay a b false with
  | some u, some v =>
    if u.length < v.length ∨ (u.length = v.length ∧ Config.freeChoice s.free % 2 = 0) then some (true, u) else some (false, v)
  | some u, none => some (true, u)
  | none, some v => some (false, v)
  | none, none => none

/-- The links of a way, each by the die that sends over it. -/
def linksOf (a : Nat) (cw : Bool) (way : List Nat) : List (Nat × Bool) := (a :: way.dropLast).map fun d => (d, cw)

/-- The same there or, each link from its other end, back. -/
def wayLinks (a : Nat) (cw : Bool) (w : List Nat) (back : Bool) : List (Nat × Bool) :=
  if back then (linksOf a cw w).reverse.map fun l => ((if cw then (l.1 + 1) % 4 else (l.1 + 3) % 4), !cw) else linksOf a cw w

def Req.die (q : Req) : Nat := match q.port with | some (d, _) => d | none => q.st.die

/-- The die that holds what a physical address names, for an access from a die: the MMIO page is that of the die's own Helm (R246, R267). -/
def paDie (pa die : Nat) : Nat :=
  match paCls pa with | .dev => frameHome (pa / 2 ^ 16) | .window st _ => st.die | .desc f _ => frameHome f | _ => die

/-- The die of a request's home, that of its first part; one that has not left its port is answered there. -/
def Req.homeDie (q : Req) : Nat :=
  match q.h.space, q.parts with
  | .dev, (_, pa, _) :: _ => if q.released then paDie pa q.die else q.die
  | .win, _ => paDie q.va q.die
  | _, _ => q.die

/-- Whether a link is the first of a leg of a request's way: there, back, or there again after a rehash (R261). -/
def Req.legStart (q : Req) (d : Nat) : Bool := d == q.die || d == q.homeDie

/-- The direction of a flow between two dies: the one it keeps while the links of that path stay up, else one whose links are up (R22). With no way left it
keeps to its direction, or takes the shorter one, and waits at a link that is down (R25, log 73). -/
def State.keptWay (s : State) (a b : Nat) (kept : Option Bool) : Bool :=
  match kept, s.dieWay a b with
  | some cw, some (c, _) => if (s.ringWay a b cw).isSome then cw else c
  | none, some (c, _) => c
  | some cw, none => cw
  | none, none => decide ((ringDies a b true).length ≤ (ringDies a b false).length)

/-- The links that a request to its home, or its reply, has to cross: those of the path that its flow keeps (R22). -/
def State.flowWay (s : State) (q : Req) (back : Bool) : List (Nat × Bool) × State :=
  let a := q.die
  let b := q.homeDie
  if a = b then ([], s)
  else
    let p := match q.port with | some p => p | none => (a, 0)
    let kept := (s.paths.find? fun k => k.port == p && k.far == b).map (·.cw)
    let cw := s.keptWay a b kept
    let s := if kept = some cw then s else { s with paths := ⟨p, b, cw⟩ :: s.paths.filter fun k => !(k.port == p && k.far == b), free := s.free + 1 }
    (wayLinks a cw (ringDies a b cw) back, s)

/-! ### Hops (R146-R150) -/

/-- The visible head of a FIFO with the cycles it has stood there. -/
def Fifo.bid (f : Fifo) : Option (Token × Nat) :=
  match f.head, f.q with
  | some k, e :: _ => some (k, e.stood)
  | _, _ => none

def State.routeId? (s : State) (id : Nat) : Option Route := s.routes.find? (fun r => r.id == id)

/-- Tokens in the die-link channel of a route (R150). -/
def Route.inChannel (r : Route) : Nat :=
  (r.hops.filter (fun h => h.kind == .dieLink || h.kind == .forward)).foldl (fun n h => n + h.fifo.q.length + h.fifo.freed) 0

/-- Room for a token that leaves hop k: in the next FIFO, in every destination channel (R149), or on the traverse link of a joined edge (R466). -/
def State.roomAfter (s : State) (r : Route) (k : Nat) : Bool :=
  match r.hops[k + 1]? with
  | some h =>
    match h.kind with
    | .dieLink => s.linkUpCw (if h.cw then h.die else h.die + 3) && decide (r.inChannel < 64)
    | .forward => s.linkUpCw (if h.cw then h.die else h.die + 3)
    | _ => decide (0 < h.fifo.room)
  | none =>
    match r.cross with
    | some (_, false, _) => r.joined && (match s.link? r.link with | some l => l.room | none => false)
    | _ => r.dests.all fun (d, c) => match s.station? d with | some t => decide (0 < t.c[c].room) | none => false

/-- Cycles that a token spends on the way into a hop: 64 over one die link, 144 over two (R23); over a third, which R25 allows and R23 gives no figure
for, 80 more, as over the second (log 77). -/
def HopKind.delay : HopKind → Nat
  | .dieLink => 64
  | .forward => 80
  | _ => 0

/-- What an uncorrectable error on a link makes of a token: the corrupt-data fault in its place, which names the route's source (log 84). -/
def State.linkFault (s : State) (id : Nat) (k : Token) : Token :=
  match (s.routeId? id).bind fun r => (r.src :: r.dests.map (·.1)).findSome? s.station? with
  | some t => faultToken t 0 0 k.slk ⟨0x0A, 3, 0⟩
  | none => k

def State.modHop (s : State) (id k : Nat) (f : Hop → Hop) : State :=
  { s with routes := s.routes.map fun (r : Route) => if r.id = id then { r with hops := r.hops.modify k f } else r }

/-- A route whose regions, that of its source and those of its destinations, are not frozen (R440). -/
def State.flows (s : State) (r : Route) : Bool :=
  (s.voyage? r.voy).isSome && !s.still r.voy r.reg &&
    r.dests.all fun d => match s.station? d.1 with | some t => !s.still t.voy t.reg | none => true

/-- An outbound edge whose next token finds no link of the set up: it is withheld (R465). -/
def State.cutEdge (s : State) (r : Route) : Bool :=
  match r.cross, s.asidOf r.voy with
  | some (p, false, _), some asid => r.joined && (s.boundUp asid p).isEmpty && r.hops.getLast?.any fun h => h.fifo.bid.isSome
  | _, _ => false

/-- The head of hop k moves on, when it stands there and has room after it. -/
def State.moveHop (s : State) (id k : Nat) : State :=
  match s.routeId? id with
  | none => s
  | some r =>
    match (r.hops[k]?).bind (fun h => h.fifo.bid) with
    | none => s
    | some (t, _) =>
      if !(s.flows r && s.roomAfter r k) then s
      else
        let n := s.nextId
        let s := ((s.modHop id k fun h => { h with fifo := h.fifo.pop }).fresh).stir r.voy
        match r.hops[k + 1]? with
        | some h => s.modHop id (k + 1) fun g => { g with fifo := g.fifo.push n (some t) h.kind.delay }
        | none =>
          match r.cross with
          | some (_, false, key) => s.modLink r.link fun l => l.send 1 key t.bytes
          | _ =>
            let s := r.dests.foldl (fun s (d, c) => s.modStation d fun u => u.modC c (·.push n (some t) 0)) s
            if t.stop = 3 then { s with routes := s.routes.map fun (q : Route) => if q.id = id then { q with closed := true } else q } else s

/-- A request or a reply crosses the next die link of its way (R22, R23). -/
def State.crossLink (s : State) (id : Nat) : State :=
  { s with reqs := s.reqs.map fun (q : Req) =>
      if q.id ≠ id then q
      else match q.way with
        | [] => q
        | (d, cw) :: rest =>
          if !s.linkUpCw (if cw then d else d + 3) then q
          else
            let n := if q.legStart d then 64 else 80
            match q.stage with
            | .net 0 => { q with way := rest, stage := .net n }
            | .home 0 => { q with way := rest, stage := .home n }
            | .reply 0 r => { q with way := rest, stage := .reply n r }
            | _ => q }

/-- LINK_HOP (R146): one hop of a mesh link, of a stream port's output or onto a traverse link. -/
def execLinkHop (s : State) : Host.Outcome State Fault Refusal :=
  match s.ev with
  | .hop r k => .next (s.moveHop r k)
  | _ => .next s

/-- BUS_DELIVER (R149): all subscribers in one cycle, or none. -/
def execBusDeliver (s : State) : Host.Outcome State Fault Refusal :=
  match s.ev with
  | .hop r k => .next (s.moveHop r k)
  | _ => .next s

/-- DIE_LINK_TRANSFER (R150): into the die-link channel at the send port, or out of it at the stream port; a request leaves its die. -/
def execDieLinkTransfer (s : State) : Host.Outcome State Fault Refusal :=
  match s.ev with
  | .hop r k => .next (s.moveHop r k)
  | .req id => .next (s.crossLink id)
  | _ => .next s

/-- FLOW_FORWARD (R22): an intermediate die's switch sends a forwarded flow on. -/
def execFlowForward (s : State) : Host.Outcome State Fault Refusal :=
  match s.ev with
  | .hop r k => .next (s.moveHop r k)
  | .req id => .next (s.crossLink id)
  | _ => .next s

/-! ### Which hops move in a cycle -/

/-- The bus of a bus route: a row when source and subscriber share it, else a column. DESIGN CHOICE (log 108): a route with subscribers in both, of which
R84 says nothing, is granted with the bus of its first subscriber. -/
def Route.busOf (r : Route) : Nat × Bool × Nat :=
  match r.dests with
  | (d, _) :: _ => if d.y = r.src.y then (r.src.die, true, r.src.y) else (r.src.die, false, r.src.x)
  | [] => (r.src.die, true, r.src.y)

/-- The hops of the routes that can move: each with its arbiter, or as a move that needs no grant (log 8). -/
def State.movers (s : State) : List (Bid ⊕ (Instr × EvArg)) :=
  (s.routes.filter s.flows).flatMap fun r =>
    r.hops.zipIdx.filterMap fun (h, k) =>
      match h.fifo.bid with
      | none => none
      | some (t, stood) =>
        if !s.roomAfter r k then none
        else
          let key := arbKey t.slk stood
          let own (i : Instr) := some (Sum.inr (i, EvArg.hop r.id k))
          let out (a : Arb) (n : Nat) (i : Instr) := some (Sum.inl (⟨a, key, n, (i, EvArg.hop r.id k)⟩ : Bid))
          match h.kind, (r.hops[k + 1]?).map (fun g => (g.kind, g.die, g.cw)) with
          | .bus, _ => let (d, row, n) := r.busOf; if row then out (.row d n) r.src.x .busDeliver else out (.col d n) r.src.y .busDeliver
          | _, some (.dieLink, d, cw) => out (.dieLink d cw) r.id .dieLinkTransfer
          | _, some (.forward, d, cw) => out (.dieLink d cw) r.id .flowForward
          | .dieLink, _ => own .dieLinkTransfer
          | .forward, _ => own .dieLinkTransfer
          | _, _ => own .linkHop

/-- The flow that a request or its reply belongs to at a die-link multiplexer (R22). -/
def Req.flow (q : Req) : Option (Option (Nat × Nat) × List (Nat × Bool) × Bool) :=
  match q.way, q.stage with
  | _ :: _, .net 0 => some (q.port, q.way, true)
  | _ :: _, .home 0 => some (q.port, q.way, true)
  | _ :: _, .reply 0 _ => some (q.port, q.way, false)
  | _, _ => none

/-- Requests and replies at a die-link multiplexer: of each flow the one that has come first (R22). -/
def State.linkHeads (s : State) : List Req :=
  let at' := s.reqs.filter fun q => q.flow.isSome
  at'.filter fun q => match leastBy (fun r : Req => [2 ^ 40 - r.queued]) (at'.filter fun r => r.flow == q.flow) with | some r => r.id == q.id | none => false

/-- Their bids, where the link is up. -/
def State.linkBids (s : State) : List Bid :=
  s.linkHeads.filterMap fun q =>
    match q.way with
    | (d, cw) :: _ =>
      if s.linkUpCw (if cw then d else d + 3) then
        some ⟨.dieLink d cw, arbKey q.slack q.stood, (match q.port with | some (_, i) => i | none => 0),
          (if q.legStart d then .dieLinkTransfer else .flowForward, .req q.id)⟩
      else none
    | [] => none

/-- The moves of a cycle: every move that needs no grant, and one grant for each bus and each die-link multiplexer. -/
def State.netEvents (s : State) : List (Instr × EvArg) × List (Arb × Nat) :=
  let m := s.movers
  let own := m.filterMap fun x => match x with | .inr e => some e | .inl _ => none
  let (got, rots) := grants s.rots ((m.filterMap fun x => match x with | .inl b => some b | .inr _ => none) ++ s.linkBids)
  (own ++ got, rots)

/-! ### Slack (R52, R56) -/

def Fifo.modAt (f : Fifo) (i : Nat) (g : Token → Token) : Fifo := { f with q := f.q.modify i fun e => { e with tok := e.tok.map g } }

/-- The tokens that a station's nodes hold, and a change of the one at a place among them. -/
def Station.nodeToks (t : Station) : List Token :=
  (match t.nrm with | some x => x.half.toList ++ x.outs.map (·.2) | none => []) ++ (match t.ctn with | some x => x.rows ++ x.outs.map (·.2.1) | none => [])

def Station.modNodeTok (t : Station) (i : Nat) (g : Token → Token) : Station :=
  let h := match t.nrm.bind (·.half) with | some _ => 1 | none => 0
  let n := h + match t.nrm with | some x => x.outs.length | none => 0
  if i < h then { t with nrm := t.nrm.map fun x => { x with half := x.half.map g } }
  else if i < n then { t with nrm := t.nrm.map fun x => { x with outs := x.outs.modify (i - h) fun e => (e.1, g e.2) } }
  else { t with ctn := t.ctn.map fun x =>
    { x with rows := x.rows.modify (i - n) g, outs := if i - n < x.rows.length then x.outs else x.outs.modify (i - n - x.rows.length) fun e => (e.1, g e.2.1, e.2.2) } }

/-- The slack of what stands at a place. -/
def State.slackAt (s : State) : TokLoc → Option Slack
  | .chan st c i => (s.station? st).bind fun t => (t.c[c].q[i]?).bind fun e => e.tok.map Token.slk
  | .hop r k i => (s.routeId? r).bind fun r => (r.hops[k]?).bind fun h => (h.fifo.q[i]?).bind fun e => e.tok.map Token.slk
  | .req id => (s.reqs.find? (fun q => q.id == id)).map (·.slack)
  | .agen k i => (s.agens[k]?).bind fun g => (g.outq[i]?).bind fun e => e.2.map Token.slk
  | .event v r i => (s.region? v r).bind fun g => (g.events[i]?).map Token.slk
  | .node st i => (s.station? st).bind fun t => (t.nodeToks[i]?).map Token.slk

def State.setSlackAt (s : State) (l : TokLoc) (x : Slack) : State :=
  let g (t : Token) : Token := { t with bg := x.bg, slack := x.n }
  match l with
  | .chan st c i => s.modStation st fun t => t.modC c (·.modAt i g)
  | .hop r k i => s.modHop r k fun h => { h with fifo := h.fifo.modAt i g }
  | .req id => { s with reqs := s.reqs.map fun (q : Req) => if q.id = id then { q with slack := x } else q }
  | .agen k i => { s with agens := s.agens.modify k fun h => { h with outq := h.outq.modify i fun e => (e.1, e.2.map g) } }
  | .event v r i => s.modRegion v r fun h => { h with events := h.events.modify i g }
  | .node st i => s.modStation st fun t => t.modNodeTok i g

/-- Where a SPACE 1 request goes. -/
def winTarget (va : Nat) : Option StId := match paCls va with | .window st _ => some st | _ => none

/-- Who holds what stands at a place: on a link or a network, the receiver (R56); a Helm keeps no counter (log 96). -/
def State.holderAt (s : State) : TokLoc → Option Holder
  | .chan st _ _ => some (.station st)
  | .hop r k _ => (s.routeId? r).bind fun r => (r.hops[k]?).bind (·.holder)
  | .req id => (s.reqs.find? (fun q => q.id == id)).bind fun q =>
      match q.stage, q.port, q.parts with
      | .reply .., _, _ => some (.station q.st)
      | .net _, some (d, i), _ => some (.port d i)
      | .net _, none, _ => some (.station (if q.h.space = .win then (winTarget q.va).getD q.st else q.st))
      | .home _, _, (_, pa, _) :: _ => (match paCls pa with | .dev => let (d, i) := s.home pa; some (.slice d i) | _ => some (.station q.st))
      | _, some (d, i), _ => some (.port d i)
      | _, none, _ => some (.station q.st)
  | .agen k _ => (s.agens[k]?).map fun g => .station g.dst
  | .event v r _ => (s.region? v r).bind fun g => g.mon.map fun (x, y, _, _) => .station (g.at x y)
  | .node st _ => some (.station st)

/-- One more overdue token at its holder. -/
def State.countAt (s : State) : Holder → State
  | .station st => s.countOverdue st
  | .port d i => s.modPort d i fun p => { p with overdue := p.overdue + 1 }
  | .slice d i =>
    let k := 96 * d + i
    let old := match s.sliceOver.find? (fun e => e.1 == k) with | some e => e.2 | none => 0
    { s with sliceOver := (k, old + 1) :: s.sliceOver.filter (fun e => e.1 ≠ k) }

/-- TOKEN_OVERDUE (R56): a counter has reached 0 at its holder. -/
def execTokenOverdue (s : State) : Host.Outcome State Fault Refusal :=
  match s.ev with
  | .tok l =>
    match s.slackAt l, s.holderAt l with
    | some x, some h => .next (if !x.bg && x.n = 0 then s.countAt h else s)
    | _, _ => .next s
  | _ => .next s

/-- BACKGROUND_PROMOTE (R52). -/
def execBackgroundPromote (s : State) : Host.Outcome State Fault Refusal :=
  match s.ev with
  | .tok l => .next (match s.slackAt l with | some x => s.setSlackAt l x.promote | none => s)
  | _ => .next s

/-! ### Fault tokens at a head (R166) -/

/-- Whether some context that the head of cN selects has a rule guarded `(cN.stop)`. -/
def Station.handles (t : Station) (n : Fin 8) : Bool :=
  (List.finRange 8).any fun c => (t.seen c n).isSome && t.ctx[c].slots.any fun i =>
    match t.ruleAt c i with | some r => r.hdr.guard == .chanStop n | none => false

/-- A fault token at the head of cN that moves to the fault queue: the queue itself keeps its own. -/
def State.strayFault (s : State) (t : Station) (n : Fin 8) : Option Token :=
  match t.headEntry n with
  | none => none
  | some k =>
    let queue := match s.region? t.voy t.reg with
      | some r => (match r.flt with | some (x, y, _) => r.at x y == t.id && n == 7 | none => false)
      | none => true
    if k.f && !queue && !t.nodeInput n && (t.bound n || !t.handles n) then some k else none

/-- FAULT_TOKEN_REQUEUE (R166). -/
def execFaultTokenRequeue (s : State) : Host.Outcome State Fault Refusal :=
  match s.ev with
  | .chan i n =>
    match s.station? i with
    | none => .next s
    | some t =>
      match s.strayFault t n with
      | none => .next s
      | some k => .next (((s.modStation i fun t => t.popC n).stir t.voy).pushFault t.voy t.reg k)
  | _ => .next s

end Sys2Proof.Machine
end

