-- ==== Sys2Proof/Machine/MemPort.lean ====
section
/-! DEFINITION. Requests at their port (R230-R237, R240-R244, R256, R257, R264-R273, R281): arrival, the chain of a domain, translation,
what the Cadastre resolves, and the way to the home. -/

namespace Sys2Proof.Machine

open Sys2Proof

/-! ### Requests -/

def State.req? (s : State) (id : Nat) : Option Req := s.reqs.find? (fun q => q.id == id)
def State.modReq (s : State) (id : Nat) (f : Req → Req) : State := { s with reqs := s.reqs.map fun q => if q.id = id then f q else q }
def State.dropReq (s : State) (id : Nat) : State := { s with reqs := s.reqs.filter fun q => q.id ≠ id }
def Req.who (q : Req) : Who := ⟨q.st, q.ctx, q.slot⟩

/-- The counter of a reply: the request's when it was served, minus 32 (R53). -/
def Slack.served (x : Slack) : Slack := if x.bg then x else ⟨false, x.n - 32⟩

/-- Bytes that an operation accesses. -/
def Req.bytes (q : Req) : Nat :=
  match q.op with
  | .load w _ => w
  | .loadV n => n
  | .loadK => if q.h.fmt.toNat = 46 then 56 else 40
  | .store w => w
  | .ldt w _ _ => w
  | .upd _ w => w
  | .atom _ w => w
  | .red _ w => w
  | .xred => 48
  | .monw | .monc _ => 8
  | .agLoad wide => if wide then 64 else 8
  | .part _ n _ => n
  | .tree _ _ n _ => n
  | _ => 1

/-- Whether an operation reads, and whether it writes (R244). -/
def ReqOp.reads : ReqOp → Bool
  | .load .. | .loadV .. | .loadK | .ldt .. | .atom .. | .agLoad .. | .monw | .monc _ => true
  | .tree _ k _ wr => !wr || (match k with | .take _ => true | _ => false)
  | _ => false
def ReqOp.writes : ReqOp → Bool
  | .store .. | .upd .. | .atom .. | .red .. | .xred => true
  | .tree _ _ _ wr => wr
  | _ => false

/-- A request that owes a reply, whatever becomes of it: an element of an address generator, a piece of a copy, what a tree engine has asked. -/
def Req.always (q : Req) : Bool :=
  (match q.src with | .agen .. => true | _ => false) || match q.op with | .part .. => true | .tree .. => true | _ => false

/-- A reply that starts overdue counts where its request was served, unless the request has counted (R53, R56, log 96). -/
def State.countServed (s : State) (q : Req) : State :=
  if !q.slack.bg && q.slack.n != 0 && q.slack.served.n == 0 then (match s.holderAt (.req q.id) with | some h => s.countAt h | none => s) else s

/-- Served: a result, a fault token or an element of an address generator goes back; a write that owes nothing is done. -/
def State.respond (s : State) (q : Req) (r : Reply) : State :=
  let owes := q.always || (match r with | .fault _ => true | _ => false) || q.dest ≠ .none
  if owes then
    let (way, s) := (s.countServed q).flowWay q true
    s.modReq q.id fun q =>
      { q with stage := .reply Config.replyLatency r, way := way, slack := q.slack.served, credit := false, released := true }
  else s.dropReq q.id

/-- A request that faults (R165, R268). -/
def State.faultReq (s : State) (q : Req) (f : FaultC) : State :=
  match s.station? q.st with
  | none => s.dropReq q.id
  | some t => s.respond q (.fault (faultToken t q.ctx q.slot q.slack.served f))

/-! ### Domains and chains (R231, R232) -/

def Domain.holds (d : Domain) (q : Req) : Bool := d.voy == q.voy && d.reg == q.reg && q.port == some (d.die, d.port) && d.src == q.src

def State.domain? (s : State) (q : Req) : Option Domain := s.domains.find? (fun d => d.holds q)

def State.modDomain (s : State) (q : Req) (f : Domain → Domain) : State := { s with domains := s.domains.map fun d => if d.holds q then f d else d }

/-- A domain before its first request. -/
def Domain.fresh (voy reg die port : Nat) (src : DomSrc) (num : BitVec 12) (versioned : Bool) : Domain :=
  { voy := voy, reg := reg, die := die, port := port, src := src, num := num, pass := 0, next := .start, arrivals := [], repairs := 0, relMajor := 0,
    versioned := versioned, links := [] }

/-- The domain of a request exists: one that no launch has numbered has number 0. -/
def State.withDomain (s : State) (q : Req) : State :=
  match s.domain? q, q.port with
  | none, some (d, p) => { s with domains := s.domains ++ [Domain.fresh q.voy q.reg d p q.src 0 false] }
  | _, _ => s

/-- Requests with a given OWN that have arrived. -/
def Domain.arrived (d : Domain) (own : BitVec 7) : Nat := match d.arrivals.find? (fun a => a.1 == own) with | some a => a.2 | none => 0

def Domain.arrive (d : Domain) (own : BitVec 7) : Domain :=
  { d with arrivals := (own, d.arrived own + 1) :: d.arrivals.filter (fun a => a.1 ≠ own) }

/-- Whether the chain lets a request of a pass go next. -/
def Domain.lets (d : Domain) (q : Req) (pass : Nat) : Bool :=
  pass == d.pass &&
    match d.next with
    | .start => q.pred == 0x7F
    | .own n => q.own == n
    | .after n => q.pred == n

/-- The chain after a release. -/
def Domain.after (d : Domain) (q : Req) : Domain :=
  { d with
    relMajor := Nat.max d.relMajor (q.stamp.extractLsb' 20 32).toNat,
    pass := if q.succ = 0x7F then d.pass + 1 else d.pass,
    next := if q.succ = 0x7F then .start else if q.succ = 0x7E then .after q.own else .own q.succ }

/-- Requests in the reorder buffer of a port (R235). -/
def State.buffered (s : State) (p : Nat × Nat) : Nat :=
  (s.reqs.filter fun q => q.port == some p && !q.released && match q.stage with | .port => true | .withheld _ => true | _ => false).length

/-- Whether a request that has reached its port finds room: 16 of the 256 entries are kept for those that can be released on arrival. -/
def State.portRoom (s : State) (q : Req) : Bool :=
  match q.port with
  | none => true
  | some p =>
    let n := s.buffered p
    decide (n < 240) || (decide (n < 256) && match s.domain? q with | some d => d.lets q (d.arrived q.own) | none => q.pred == 0x7F)

/-- A SPACE 1 request to a station of another die takes its way over the die links (R22). -/
def State.sendWindow (s : State) (q : Req) : State :=
  if q.released then s
  else
    let (way, s) := s.flowWay q false
    s.modReq q.id fun q => { q with way := way, released := true }

/-- MEMORY_REQUEST_ISSUE (R230, R232): the port takes a request into its buffer, counts its pass and returns its credit. -/
def execMemoryRequestIssue (s : State) : Host.Outcome State Fault Refusal :=
  match s.ev with
  | .req id =>
    match s.req? id with
    | none => .next s
    | some q =>
      if q.stage ≠ .net 0 then .next s
      else if q.h.space = .win then .next (s.sendWindow q)
      else if q.op.monitor then .next (s.modReq id fun q => { q with stage := .translate })
      else if !s.portRoom q then .next s
      else
        let s := s.withDomain q
        let pass := match s.domain? q with | some d => d.arrived q.own | none => 0
        let s := s.modDomain q fun d => d.arrive q.own
        let s := if q.credit then s.modStation q.st fun t => { t with credits := t.credits - 1 } else s
        .next (s.modReq id fun q => { q with stage := .port, pass := pass, credit := false, arrived := s.nextId }).fresh
  | _ => .next s

/-! ### Translation (R240-R244) -/

/-- A PA token that its port may use without a walk (R241). -/
def State.tokenUse (s : State) (asid : BitVec 16) (va : Nat) (rd wr : Bool) (t : PaTok) : Bool :=
  decide (t.vpn = va / 2 ^ 16 % 2 ^ 39) && t.asid == asid && decide (descMchk (s.desc t.frame) = t.mchk.toNat) &&
    (!rd || t.perm.getLsbD 0) && (!wr || (t.perm.getLsbD 1 && decide (descScls (s.desc t.frame) = 0)))

/-- The TLB entry of a page at a port (R242). -/
def State.tlbEntry (s : State) (p : Nat × Nat) (asid : BitVec 16) (va : Nat) : Option Word :=
  (s.ports.find? (fun k => k.die == p.1 && k.idx == p.2)).bind fun k =>
    (k.tlb.find? (fun e => e.1 == asid && e.2.1 == va / 2 ^ 16)).map (·.2.2)

/-- A port keeps an entry that it has walked to: at most 512. -/
def State.tlbFill (s : State) (p : Nat × Nat) (asid : BitVec 16) (va e : Nat) : State :=
  s.modPort p.1 p.2 fun k =>
    { k with tlb := ((asid, va / 2 ^ 16, BitVec.ofNat 64 e) :: k.tlb.filter fun t => !(t.1 == asid && t.2.1 == va / 2 ^ 16)).take 512 }

/-- Translate at a port: through a PA token, the TLB, or a walk. -/
def State.portTrans (s : State) (p : Nat × Nat) (asid : BitVec 16) (va : Nat) (rd wr : Bool) (tok : Option PaTok) : Trans × State :=
  let walked : Trans × State :=
    match s.walk asid va with
    | .leaf a e =>
      match s.useEntry (.leaf a e) va rd wr with
      | .pa pa e => (.pa pa e, s.tlbFill p asid va e)
      | x => (x, s)
    | w => (s.useEntry w va rd wr, s)
  let cached : Trans × State :=
    match s.tlbEntry p asid va with
    | some e => match s.useEntry (.leaf 0 e.toNat) va rd wr with | .pa pa e => (.pa pa e, s) | _ => walked
    | none => walked
  match tok with
  | some t => if s.tokenUse asid va rd wr t then (.pa (t.frame * 2 ^ 16 + va % 2 ^ 16) (bitAt (t.perm.getLsbD 3) 6), s) else cached
  | none => cached

/-- The pieces of [va, va + n) on single lines. -/
def lineParts (va n : Nat) : List (Nat × Nat) :=
  let rec go : Nat → Nat → Nat → List (Nat × Nat)
    | 0, _, _ => []
    | k + 1, va, n => if n = 0 then [] else let m := Nat.min n (128 - va % 128); (va, m) :: go k (va + m) (n - m)
  go (n / 128 + 2) va n

/-- The operation on a page with or without VERS (R239, R244, R269, R273, R290); none for the versioned fault. -/
def Req.onPage (q : Req) (vers : Bool) : Option ReqOp :=
  let flagged := q.mf.getLsbD 2 || q.h.vers
  match q.op, vers with
  | .load w sx, true => some (.ldt w sx false)
  | .ldt .., false => none
  | .upd .., false => none
  | .store w, true => if w ≤ 8 then some (.upd 0 w) else none
  | .red op w, true => if op.toNat ≤ 4 then some (.upd op w) else none
  | .red op w, false => if flagged then none else some (.red op w)
  | .atom .., true => none
  | .xred, true => none
  | .monw, true => none
  | .monc _, true => none
  | op, _ => some op

/-- An effect that a task must not have on an unversioned page (R273). -/
def Req.unversioned (q : Req) (vers : Bool) : Bool :=
  q.task.isSome && !vers && match q.op with | .store _ => true | .red .. => true | .xred => true | _ => false

/-- Whether a physical address may be accessed so (R246, R247). -/
def State.paOk (s : State) (voy pa : Nat) (op : ReqOp) : Bool :=
  let plain := match op with | .load .. | .loadV .. | .loadK | .agLoad .. | .store .. => true | _ => false
  match s.cls pa with
  | .dev => true
  | .window st _ => plain && (match s.station? st with | some t => t.voy == voy | none => false)
  | .desc .. => plain && !op.writes
  | .mmio o => plain && !op.writes && decide (o < 0x240)
  | .bad => false

/-- What translating a whole access comes to. -/
inductive Whole
  | ok (parts : List (Nat × Nat × Nat)) (op : ReqOp) (vers : Bool)
  | fault (f : FaultC) | task (va : Nat) | held (why : Held) (va : Nat)

/-- All of an access is translated before any byte moves (R270): a faulting part comes before a withheld one. -/
def State.transWhole (s : State) (q : Req) (p : Nat × Nat) (pieces : List (Nat × Nat)) : Whole × State :=
  pieces.foldl (fun (r, s) (va, n) =>
    match r with
    | .fault f => (.fault f, s)
    | _ =>
      let (x, s) := s.portTrans p q.asid va q.op.reads q.op.writes (if va = q.va then q.pa else none)
      match x with
      | .fault k => (.fault (transFault k q.acc va), s)
      | .corrupt f => (.fault f, s)
      | .held w => (match r with | .held w a => .held w a | _ => .held w va, s)
      | .pa pa e =>
        match q.onPage (pteVers e) with
        | none => (.fault (transFault 3 q.acc va), s)
        | some op =>
          if q.unversioned (pteVers e) then (match r with | .ok .. => .task va | r => r, s)
          else if !s.paOk q.voy pa q.op then (.fault (transFault 0 q.acc va), s)
          else (match r with | .ok ps _ v => .ok (ps ++ [(va, pa, n)]) op (v || pteVers e) | r => r, s)) (.ok [] q.op false, s)

/-! ### `xlat` (R281) -/

/-- A PA token, or XL = 0 where nothing is present. -/
def State.xlatToken (s : State) (asid : BitVec 16) (va : Nat) : Except FaultC VReg :=
  match s.walk asid va with
  | .malformed => .error (transFault 2 accLoad va)
  | .corrupt f => .error f
  | .absent => .ok (VReg.plain 43 va)
  | .leaf _ e =>
    if pteKind e = 1 then .ok (VReg.plain 43 va)
    else
      let f := pteFrame e
      let perm := if pteKind e = 2 then setFld (fld e 3 6) 1 1 0 else fld e 3 6
      .ok (VReg.plain 43 (packLanes 64 [va, f * 2 ^ 16,
        descMchk (s.desc f) + asid.toNat * 2 ^ 16 + perm * 2 ^ 32 + 2 ^ 63, va / 2 ^ 16 % 2 ^ 39]))

/-! ### Release (R232, R236) -/

/-- A request leaves its port: the last of those that are out (R236). -/
def State.sendOut (s : State) (q : Req) : State := { s with reqs := (s.reqs.filter fun r => r.id ≠ q.id) ++ [q] }

/-- The domain of a versioned access is a participant of its space: one that is so only by its page's VERS joins with its first access (R244, R252,
log 83). -/
def State.joinBy (s : State) (q : Req) (vers : Bool) : State :=
  match s.domain? q with
  | some d => if vers && !d.versioned && !q.op.monitor then (s.modDomain q fun d => { d with versioned := true }).join q.asid (.domain q.voy d.num) else s
  | none => s

/-- The way to the home: the die links to cross (R22), and a part that the device does not fix (R236, log 6). -/
def State.sendHome (s : State) (q : Req) (parts : List (Nat × Nat × Nat)) (op : ReqOp) (vers : Bool) : State :=
  let s := s.joinBy q vers
  let q' := { q with parts := parts, op := op, vers := vers, released := true, credit := false, held := 0 }
  let epoch := match s.die? q'.homeDie with | some d => d.epoch | none => 0
  let (way, s) := s.flowWay q' false
  (s.sendOut { q' with stage := .home (Config.homeLatency + Config.freeChoice s.free % 64), way := way, epoch := epoch }).draw

/-- The chain goes on after a request; a monitor belongs to no chain. -/
def State.goOn (s : State) (q : Req) : State := if q.released || q.op.monitor then s else s.modDomain q fun d => d.after q

/-- The unversioned effect of a task at its port (R65, R273): not performed, its task is spoiled. -/
def State.spoil (s : State) (q : Req) (va : Nat) : State :=
  let ts := match q.task.bind (fun id => s.tasks.find? (fun t => t.id == id)) with | some t => t.ts.toNat | none => 0
  { s with tasks := s.tasks.map fun (t : Task) => if some t.id = q.task then { t with spoiled := true } else t }.faultReq q ⟨0x07, ts, va⟩

/-- The lines of a `disc` that are dropped: in the handle's range, present, with W and VERS = 0 (R280). Only device memory has slices to drop them from. -/
def State.discLines (s : State) (q : Req) (p : Nat × Nat) (n : Nat) : List (Nat × Nat × Nat) :=
  (List.range n).filterMap fun i =>
    let va := q.va / 128 * 128 + 128 * i
    if va < q.h.base.toNat ∨ q.h.base.toNat + q.h.size.toNat < va + 128 ∨ 2 ^ 55 ≤ va then none
    else match (s.portTrans p q.asid va false true none).1 with
      | .pa pa e => if pteVers e ∨ s.cls pa ≠ .dev then none else some (va, pa, 128)
      | _ => none

/-- A multicast sends its replicas one by one; the rest waits at the first withheld one (R277). -/
def State.sendReplicas (q : Req) (p : Nat × Nat) : List (Nat × Nat × Nat) → State → State
  | [], s => (s.dropReq q.id).goOn q
  | (va, _, n) :: rest, s =>
    let r := { q with va := va, parts := [], pa := if va = q.va then q.pa else none }
    let (x, s) := s.transWhole r p (lineParts va n)
    let add (s : State) : State × Req :=
      let r := { r with id := s.nextId, stage := .port, credit := false }
      ({ s with reqs := s.reqs ++ [r] }.fresh, r)
    match x with
    | .ok ps op v => let (s, r) := add s; State.sendReplicas q p rest (s.sendHome r ps op v)
    | .fault f => let (s, r) := add s; State.sendReplicas q p rest (s.faultReq r f)
    | .task a => let (s, r) := add s; State.sendReplicas q p rest (s.spoil r a)
    | .held w a => s.modReq q.id fun q => { q with stage := .withheld w, va := a, parts := (va, 0, n) :: rest }

/-- A request that its chain lets go: discarded, answered at the port, sent to its home, or withheld in its place. -/
def State.release (s : State) (q : Req) (p : Nat × Nat) : State :=
  match q.op with
  | .mnop => (s.dropReq q.id).goOn q
  | .pref _ => (s.dropReq q.id).goOn q
  | .settle => (s.sendOut { q with stage := .settle, released := true, credit := false }).goOn q
  | .copy _ => (s.sendOut { q with stage := .settle, released := true, credit := false }).goOn q
  | .disc n => if q.h.space = .dev then (s.sendHome q (s.discLines q p n) q.op false).goOn q else (s.dropReq q.id).goOn q
  | .xlat =>
    match s.xlatToken q.asid q.va with
    | .ok v => (s.respond q (.ok v)).goOn q
    | .error f => (s.faultReq q f).goOn q
  | _ =>
    match q.h.space with
    | .peer =>
      if (s.boundUp q.asid q.h.peer.toNat).isEmpty then s.modReq q.id fun q => { q with stage := .withheld .noPeer }
      else (s.sendHome q [(q.va, q.va, q.bytes)] q.op false).goOn q
    | .dev =>
      if !q.parts.isEmpty && !q.released then State.sendReplicas q p q.parts s
      else
        match s.transWhole q p (lineParts q.va q.bytes) with
        | (.ok ps op v, s) => (s.sendHome q ps op v).goOn q
        | (.fault f, s) => (s.faultReq q f).goOn q
        | (.task a, s) => (s.spoil q a).goOn q
        | (.held w _, s) => s.modReq q.id fun q => { q with stage := .withheld w }
    | _ => (s.sendHome q ((lineParts q.va q.bytes).map fun (va, n) => (va, va, n)) q.op false).goOn q

/-- Whether the next thing that a request needs is its port: its place in the chain has come, or it needs no place. -/
def State.canRelease (s : State) (q : Req) : Bool :=
  match q.stage with
  | .port => (match s.domain? q with | some d => d.lets q q.pass | none => false)
  | .translate => true
  | .withheld .notPresent =>
    (lineParts q.va q.bytes).all fun (va, _) => s.walk q.asid va ≠ .absent
  | .withheld .noPeer => !(s.boundUp q.asid q.h.peer.toNat).isEmpty
  | _ => false

/-- PORT_RELEASE (R232, R236, R440): the request that comes next in its chain, unless its region has frozen. -/
def execPortRelease (s : State) : Host.Outcome State Fault Refusal :=
  match s.ev with
  | .req id =>
    match s.req? id with
    | none => .next s
    | some q =>
      if !s.canRelease q || s.still q.voy q.reg then .next s
      else
        let p := match q.port with | some p => p | none => (q.st.die, 0)
        .next (s.release q p)
  | _ => .next s

/-! ### What the Cadastre resolves (R256-R259) -/

/-- Resolve what withholds an access to [va, va + n): the pages in order; an empty pool leaves the access withheld for frames. -/
def State.resolve (s : State) (why : Held) (asid : BitVec 16) (va n die : Nat) (comp rd wr : Bool) : Except Miss State :=
  (lineParts va n).foldl (fun r (a, _) =>
    match r with
    | .error m => .error m
    | .ok s =>
      if s.translate asid a rd wr = .held why then
        match why with
        | .firstTouch => s.firstTouch asid a die comp
        | .copyOnWrite => s.copyOnWrite asid a
        | .decompress => s.decompress asid a
        | _ => .ok s
      else .ok s) (.ok s)

/-- A resolved request goes back to its place at the port. -/
def Req.back (q : Req) : Req := { q with stage := if q.op.monitor then .translate else .port, held := 0 }

def State.resolveReq (s : State) (why : Held) (id : Nat) : State :=
  match s.req? id with
  | none => s
  | some q =>
    if q.stage ≠ .withheld why then s
    else
      let n := match q.parts with | (_, _, n) :: _ => n | [] => q.bytes
      match s.resolve why q.asid q.va n q.die q.h.comp q.op.reads q.op.writes with
      | .error (.frames d) => s.modReq id fun q => { q with stage := .withheld (.noFrame d) }
      | .error (.corrupt f) => (s.faultReq q f).goOn q
      | .error .fail => s.modReq id Req.back
      | .ok s => s.modReq id Req.back

/-- The bytes of a copy's next piece: source and destination addresses, and how many. -/
def Copy.piece (k : Copy) : Int × Int × Nat :=
  let r := k.pos / k.l0
  let j := k.pos % k.l0
  let (_, a, b) := k.dims.foldl (fun (r, a, b) (n, x, y) => (r / n, a + (r % n : Nat) * x, b + (r % n : Nat) * y)) (r, k.src.addr + j, k.dst.addr + j)
  let room (x : Int) : Nat := 128 - (x % 128).toNat
  let m := Nat.min (k.l0 - j) (Nat.min (room a) (room b))
  (a, b, if k.src.h.space = .peer ∨ k.dst.h.space = .peer then Nat.min m 64 else m)

def Copy.total (k : Copy) : Nat := k.dims.foldl (fun n d => n * d.1) k.l0

/-- The first addresses of a copy's runs, in the source and in the destination. -/
def Copy.runs (k : Copy) : List (Nat × Nat) :=
  (List.range (k.total / k.l0)).map fun r => let (a, b, _) := { k with pos := r * k.l0 }.piece; (a.toNat, b.toNat)

def State.copy? (s : State) (id : Nat) : Option Copy := s.copies.find? (fun k => k.id == id)
def State.modCopy (s : State) (id : Nat) (f : Copy → Copy) : State := { s with copies := s.copies.map fun k => if k.id = id then f k else k }

/-- Copies whose every write has performed stand last, in the order of their completion (R279). -/
def State.rankCopy (s : State) (id : Nat) : State :=
  match s.copy? id with
  | some k => if k.run && decide (k.total ≤ k.pos) then { s with copies := s.copies.filter (fun c => c.id ≠ id) ++ [k] } else s
  | none => s

/-- A copy is over, and with it its request. -/
def State.endCopy (s : State) (k : Copy) : State := { s with copies := s.copies.filter fun c => c.id ≠ k.id }.dropReq k.req

/-- A copy ends with a fault: it writes nothing more and counts no completion. -/
def State.failCopy (s : State) (k : Copy) (f : FaultC) : State :=
  let s := (s.endCopy k).modStation k.st fun t => { t with copies := t.copies - 1 }
  let s := if f.code = 0x07 then { s with tasks := s.tasks.map fun (t : Task) => if some t.id = k.task then { t with spoiled := true } else t } else s
  s.landFault ⟨k.st, k.ctx, k.slot⟩ .none k.slack.served f

def State.resolveCopy (s : State) (why : Held) (id : Nat) : State :=
  match s.copy? id with
  | none => s
  | some k =>
    if k.wait ≠ some why then s
    else
      let (a, b, n) := k.piece
      let side (s : State) (e : CopyEnd) (x : Int) (rd wr : Bool) : Except Miss State :=
        if e.h.space = .dev then s.resolve why k.asid x.toNat n k.st.die e.h.comp rd wr else .ok s
      match (side s k.src a true false).bind (fun s => side s k.dst b false true) with
      | .error (.frames d) => s.modCopy id fun k => { k with wait := some (.noFrame d) }
      | .error (.corrupt f) => s.failCopy k f
      | .error .fail => s.modCopy id fun k => { k with wait := none, held := 0 }
      | .ok s => s.modCopy id fun k => { k with wait := none, held := 0 }

/-- FIRST_TOUCH (R256): a zeroed frame for a reserved-grow page. -/
def execFirstTouch (s : State) : Host.Outcome State Fault Refusal :=
  match s.ev with
  | .req id => .next (s.resolveReq .firstTouch id)
  | .copy id => .next (s.resolveCopy .firstTouch id)
  | _ => .next s

/-- COPY_ON_WRITE (R257): a private copy of a shared page, or the entry converted in place. -/
def execCopyOnWrite (s : State) : Host.Outcome State Fault Refusal :=
  match s.ev with
  | .req id => .next (s.resolveReq .copyOnWrite id)
  | .copy id => .next (s.resolveCopy .copyOnWrite id)
  | _ => .next s

/-- DECOMPRESS (R256): a compressed page moves into a full frame. -/
def execDecompress (s : State) : Host.Outcome State Fault Refusal :=
  match s.ev with
  | .req id => .next (s.resolveReq .decompress id)
  | .copy id => .next (s.resolveCopy .decompress id)
  | _ => .next s

/-- An access that waited for frames tries again. -/
def Held.tries : Held → Bool | .noFrame _ => true | _ => false

/-- POOL_BORROW (R258): an empty pool borrows 64 frames, or asks the host. The accesses that wait for a frame of a pool that has one try again. -/
def execPoolBorrow (s : State) : Host.Outcome State Fault Refusal :=
  match s.ev with
  | .die d =>
    let s := match s.die? d with | some x => if x.pool.isEmpty then s.borrow d else s | none => s
    let some' := match s.die? d with | some x => !x.pool.isEmpty | none => false
    if some' then
      .next { s with
        reqs := s.reqs.map fun q => if q.stage = .withheld (.noFrame d) then q.back else q,
        copies := s.copies.map fun (k : Copy) => if k.wait = some (.noFrame d) then { k with wait := none } else k }
    else .next s
  | _ => .next s

/-- PAGE_COMPRESS (R260): a cold page with COMP = 1 and VERS = 0 goes into a slab slot; its contents do not change. -/
def execPageCompress (s : State) : Host.Outcome State Fault Refusal :=
  match s.ev with
  | .page asid va scls slot =>
    match s.walk asid va with
    | .leaf a e =>
      if pteKind e = 1 ∨ !pteComp e ∨ pteVers e ∨ scls = 0 ∨ 4 < scls.toNat ∨ descScls (s.desc (pteFrame e)) ≠ 0 then .next s
      else
        let f := pteFrame e
        .next (((s.modDesc f fun w => setFld (setFld w 21 3 scls.toNat) 40 22 slot.toNat).remark f).setEntry asid va a e)
    | _ => .next s
  | _ => .next s

/-- SLAB_COMPACTION (R260): a compressed page moves to another slot; PA tokens of before fail (R257). -/
def execSlabCompaction (s : State) : Host.Outcome State Fault Refusal :=
  match s.ev with
  | .frame f slot =>
    if descScls (s.desc f) = 0 then .next s
    else
      let s := (s.modDesc f fun w => setFld w 40 22 slot.toNat).remark f
      .next { s with ports := s.ports.map fun p => { p with tlb := p.tlb.filter fun t => pteFrame t.2.2.toNat ≠ f } }
  | _ => .next s

end Sys2Proof.Machine
end

