-- ==== Sys2Proof/Machine/MemHome.lean ====
section
/-! DEFINITION. Requests at their home and on the way back (R53, R248-R255, R261, R267-R277, R280, R290), the copy engine (R238, R279),
and SPACE 4 requests to a peer (R267, R464). -/

namespace Sys2Proof.Machine

open Sys2Proof

/-! ### Reading and writing a part -/

/-- A byte of the descriptor window. -/
def State.descByte (s : State) (pa : Nat) : Nat := let o := pa - 0x3E0000000000; s.desc (o / 8) / 2 ^ (8 * (o % 8)) % 256

/-- Bytes of the enumeration mirror. -/
def State.enumBytes (s : State) (off n : Nat) : Nat := ofBytes ((List.range n).map fun i => s.enumByte (off + i))

/-- ALLOC = 0 stops a line from being kept in L2 after an access (R239): what it holds is written back. -/
def State.unkept (s : State) (h : HEntry) (pa n : Nat) : State :=
  if h.alloc || paCls pa ≠ .dev then s else { s with l2 := s.l2.filter fun e => !(decide (pa / 128 ≤ e.1) && decide (e.1 ≤ (pa + n - 1) / 128)) }

/-- What a part of an access reads at its home. -/
def State.readPart (s : State) (q : Req) (va pa n : Nat) : Except FaultC Nat :=
  match q.h.space with
  | .host => .ok (Memory.read s.host pa n)
  | _ =>
    match paCls pa with
    | .dev => match s.spoilt pa n with | some f => .error f | none => .ok (if q.vers then s.valueAt q.asid pa n q.stamp else s.loadDev pa n)
    | .window st off =>
      match (s.station? st).bind (·.winRead off n) with
      | some x => if (match s.station? st with | some t => t.wornAt off n | none => false) then .error storageFault else .ok x
      | none => .error (transFault 0 q.acc va)
    | .desc .. => .ok (ofBytes ((List.range n).map fun i => BitVec.ofNat 8 (s.descByte (pa + i))))
    | .mmio o => .ok (s.enumBytes o n)
    | .bad => .error (transFault 0 q.acc va)

/-- A plain write of a part. -/
def State.writePart (s : State) (q : Req) (va pa n x : Nat) : Except FaultC State :=
  match q.h.space with
  | .host => .ok { s with host := Memory.write s.host pa n x }
  | _ =>
    match paCls pa with
    | .dev => match s.spoilt pa n with | some f => .error f | none => .ok (s.storeHome pa n x)
    | .window st off =>
      match (s.station? st).bind (·.winWrite off n x) with
      | some t => .ok (s.setStation t)
      | none => .error (transFault 0 q.acc va)
    | _ => .error (transFault 0 q.acc va)

/-- Whether a part waits for a window (R326, R327, R402). -/
def State.partHeld (s : State) (q : Req) (pa : Nat) (wr : Bool) : Bool :=
  match q.h.space, paCls pa with
  | .host, _ => false
  | .peer, _ => false
  | _, .window st off => (match s.station? st with | some t => t.winHeld off wr | none => false)
  | _, _ => false

/-- All the bytes that an access reads, the lowest first. -/
def State.readAll (s : State) (q : Req) : Except FaultC Nat :=
  q.parts.foldl (fun r (va, pa, n) => do
    let x ← r
    let y ← s.readPart q va pa n
    return x + y * 2 ^ (8 * (va - q.va))) (.ok 0)

/-- All the bytes that an access writes. -/
def State.writeAll (s : State) (q : Req) (x : Nat) : Except FaultC State :=
  q.parts.foldl (fun r (va, pa, n) => do
    let s ← r
    s.writePart q va pa n (x / 2 ^ (8 * (va - q.va)) % 2 ^ (8 * n))) (.ok s)

/-- The first corrupt part (R262). -/
def State.badPart (s : State) (q : Req) : Option FaultC :=
  if q.h.space ≠ .dev then none
  else q.parts.findSome? fun (_, pa, n) => if paCls pa = .dev then s.spoilt pa n else none

/-! ### Results -/

/-- The register value of a load (R269-R271, R275, R285). -/
def Req.view (q : Req) (x : Nat) : VReg :=
  match q.op with
  | .load w sx => scalarReg (extend sx w x)
  | .ldt w sx _ => scalarReg (extend sx w x)
  | .loadV _ => VReg.plain q.h.fmt x
  | .loadK => expandBlocks q.h.fmt x
  | .agLoad wide => if wide then VReg.plain q.h.fmt x else scalarReg (BitVec.ofNat 64 x)
  | .part .. => ⟨BitVec.ofNat 512 x, unitSide, 0⟩
  | .tree .. => ⟨BitVec.ofNat 512 x, unitSide, 0⟩
  | _ => scalarReg (BitVec.ofNat 64 x)

/-- The domain number that a reader is recorded under. -/
def Req.domNum (q : Req) : BitVec 12 := q.stamp.extractLsb' 8 12

/-- A tentative load of a VERS page is tracked on every line it reads (R251). -/
def State.trackAll (s : State) (q : Req) : Option State :=
  q.parts.foldl (fun r (_, pa, n) => r.bind fun s => s.track q.asid (pa / 128) ⟨q.stamp, pa % 128, n, q.domNum, q.task⟩) (some s)

/-- The history entry of an update. -/
def Req.hist (q : Req) (op : BitVec 6) (w pa : Nat) : Hist :=
  { stamp := q.stamp, op := op, w := w, off := pa % 128, x := q.data.setWidth 64, task := q.task }

/-! ### SPACE 4 (R267, R464) -/

/-- The lowest entry number that no request of the port uses at a peer. -/
def State.peerEntry (s : State) (q : Req) : Nat :=
  let used := s.reqs.filterMap fun r => if r.port = q.port then (match r.stage with | .peer n => some n | _ => none) else none
  ((List.range 256).find? (fun n => !used.contains n)).getD 0

/-- The link of a domain toward a peer: the bound one that it keeps to while it is up, for the first request one of those that are up (R465). -/
def State.peerLink (s : State) (q : Req) : Option Nat :=
  let ls := s.boundUp q.asid q.h.peer.toNat
  match ((s.domain? q).bind fun d => d.links.find? fun l => l.1 == q.h.peer.toNat).map (·.2) with
  | some l => if ls.contains l then some l else ls.head?
  | none => ls[(match q.port with | some (_, i) => i | none => 0) % ls.length]?

/-- Kind and operation codes of a request flit. -/
def Req.flitOp (q : Req) : Nat × Nat :=
  match q.op with
  | .store _ => (1, 0)
  | .part _ _ wr => if wr then (1, 0) else (0, 0)
  | _ => (0, 0)

/-- The body of a request flit (Table 23.8). -/
def Req.flit (q : Req) (entry n : Nat) : List Byte :=
  let (kind, op) := q.flitOp
  let (d, i) := match q.port with | some p => p | none => (q.st.die, 0)
  bytesOf 96 (q.va + q.stamp.toNat * 2 ^ 64 + (op + q.mf.toNat * 2 ^ 8 + n % 256 * 2 ^ 16 + kind * 2 ^ 24) * 2 ^ 128 +
    (i + entry * 2 ^ 8 + d % 4 * 2 ^ 16) * 2 ^ 192 + q.data.toNat * 2 ^ 256)

/-- The request is held at its port for want of room in the repair cell; a request held before keeps its count (R253). -/
def Req.holdRoom (q : Req) : Req :=
  { q with stage := match q.stage with | .room n => .room n | _ => .room 0 }

/-- A released request to a peer that no link of the set reaches: it is withheld (R465). -/
def State.cutReq (s : State) (q : Req) : Bool :=
  q.h.space == .peer && q.released && (match q.stage with | .home _ => true | .peer _ => true | _ => false) && (s.boundUp q.asid q.h.peer.toNat).isEmpty

/-- What withholds a request. -/
def State.heldBack (s : State) (q : Req) : Option Held :=
  match q.stage with
  | .withheld w => some w
  | _ => if s.cutReq q then some .noPeer else none

/-- A request leaves for the peer; none while no link takes it. -/
def State.askPeer (s : State) (q : Req) : Option State :=
  match s.peerLink q with
  | none => none
  | some l =>
    if (match s.link? l with | some k => k.room | none => false) then
      let n := s.peerEntry q
      let s := s.modLink l fun k => k.send 2 (BitVec.ofNat 16 (q.h.peer.toNat)) (q.flit n q.bytes)
      let p := q.h.peer.toNat
      some ((s.modDomain q fun d => { d with links := (p, l) :: d.links.filter fun e => e.1 ≠ p }).modReq q.id fun q => { q with stage := .peer n })
    else none

/-! ### Performing (R249, R250, R255, R274-R277, R280, R290) -/

/-- A request does its work at its home; none while it has to wait there. -/
def State.performAt (s : State) (q : Req) : Option State :=
  let read (f : State → Nat → State) : Option State :=
    if q.parts.any fun (_, pa, _) => s.partHeld q pa false then none
    else match s.readAll q with
      | .error f => some (s.faultReq q f)
      | .ok x => some (f s x)
  let write (x : Nat) (f : State → State) : Option State :=
    if q.parts.any fun (_, pa, _) => s.partHeld q pa true then none
    else match s.badPart q, s.writeAll q x with
      | some f, _ => some (s.faultReq q f)
      | none, .error f => some (s.faultReq q f)
      | none, .ok s => some (f s)
  let load : Option State :=
    if q.vers then
      match s.trackAll q with
      | none => some (s.modReq q.id Req.holdRoom)
      | some s => (match s.readAll q with | .error f => some (s.faultReq q f) | .ok x => some (s.respond q (.ok (q.view x))))
    else read fun s x => s.respond q (.ok (q.view x))
  let update (op : BitVec 6) (back : Bool) : Option State :=
    read fun s old =>
      match s.writeAll q (applyOp op.toNat old q.data.toNat q.y.toNat) with
      | .error f => s.faultReq q f
      | .ok s => s.respond q (if back then .ok (scalarReg (BitVec.ofNat 64 old)) else .silent)
  if q.h.space = .peer then s.askPeer q
  else
    match q.op with
    | .load .. => load
    | .loadV _ => load
    | .loadK => load
    | .agLoad _ => load
    | .store _ => write q.data.toNat fun s => s.respond q .silent
    | .ldt _ _ settled =>
      if settled then some (s.modReq q.id fun q => { q with stage := .settle }) else load
    | .upd op w =>
      match q.parts with
      | [(_, pa, _)] =>
        match s.badPart q with
        | some f => some (s.faultReq q f)
        | none =>
          match s.insertEntry q.asid (pa / 128) (q.hist op w pa) with
          | none => some (s.modReq q.id Req.holdRoom)
          | some s => some (s.respond q .silent)
      | _ => some (s.faultReq q (transFault 3 q.acc q.va))
    | .reclaim =>
      match q.parts with
      | (_, pa, _) :: _ =>
        match s.badPart q, s.vline? q.asid (pa / 128) with
        | some f, _ => some (s.faultReq q f)
        | none, none => some (s.respond q .silent)
        | none, some l => some ((s.foldLine l (Nat.min (q.stamp.toNat + 1) (s.watermark q.asid))).respond q .silent)
      | [] => some (s.respond q .silent)
    | .atom op _ => update op true
    | .red op _ => update op false
    | .xred =>
      read fun s old =>
        match s.writeAll q ((X320.ofBits old).add (X320.ofBits q.data.toNat)).toBits with
        | .error f => s.faultReq q f
        | .ok s => s.respond q .silent
    | .part _ _ wr => if wr then write q.data.toNat fun s => s.respond q (.ok (q.view 0)) else read fun s x => s.respond q (.ok (q.view x))
    | .tree _ key _ wr =>
      match key, wr with
      | .take _, _ => update 13 true
      | _, true => write q.data.toNat fun s => s.respond q (.ok (q.view 0))
      | _, false => read fun s x => s.respond q (.ok (q.view x))
    | .disc _ => some ((q.parts.foldl (fun s (_, pa, _) => s.discardLine (pa / 128)) s).respond q .silent)
    | .monw => some (s.modReq q.id fun q => { q with stage := .armed })
    | .monc w =>
      read fun s x =>
        let x : Word := BitVec.ofNat 64 x
        s.modReq q.id fun q => { q with stage := if x = w then .armed else .hit x }
    | _ => some (s.respond q .silent)

/-- A request performs at its home, and its lines stay in L2 as its handle lets them (R239). -/
def State.perform (s : State) (q : Req) : Option State :=
  (s.performAt q).map fun s => if q.h.space = .dev then q.parts.foldl (fun s (_, pa, n) => s.unkept q.h pa n) s else s

/-- Whether a request's home has moved since its way was computed (R261). -/
def State.stale (s : State) (q : Req) : Bool :=
  q.h.space == .dev && match s.die? q.homeDie with | some d => d.epoch != q.epoch | none => false

/-- A settle mark: the domain's own stamp (R272). -/
def State.settle (s : State) (q : Req) : State :=
  (s.raiseMark q.asid (.domain q.voy q.domNum) (q.stamp.toNat + 1)).dropReq q.id

/-- HOME_PERFORM (R236): a released request performs; a `settle` sets its mark and a copy starts once the requests before them have performed; a copy's own request stays until the copy
has ended (R272, R279).
With a place as argument, an uncorrectable error appears there: in a row of device memory, a line of an L2 slice, a word of station storage, or, on a link,
in a token or a request that crosses it (R262, R435, log 84). -/
def execHomePerform (s : State) : Host.Outcome State Fault Refusal :=
  match s.ev with
  | .req id =>
    match s.req? id with
    | none => .next s
    | some q =>
      match q.stage, q.op with
      | .settle, .settle => .next (s.settle q)
      | .settle, .copy k => .next ((s.modCopy k fun c => { c with run := true, slack := q.slack }).rankCopy k)
      | .home 0, _ => .next (if s.stale q ∨ q.way ≠ [] then s else (s.perform q).getD s)
      | .room _, _ => .next ((s.perform q).getD s)
      | _, _ => .next s
  | .row l => .next { s with bad := (l, 0) :: s.bad }
  | .line l => .next { s with bad := (l, 1) :: s.bad }
  | .cell i shadow a => .next (s.modStation i fun t => { t with worn := (shadow, a / 8) :: t.worn })
  | .tok (.req id) => .next (match s.req? id with | some q => s.faultReq q ⟨0x0A, 3, 0⟩ | none => s)
  | .tok (.hop r k i) => .next (s.modHop r k fun h => { h with fifo := h.fifo.modAt i (s.linkFault r) })
  | _ => .next s

/-- REHASH_BOUNCE (R261): a request under the old slice map goes back to its port, which reissues it under the new one. -/
def execRehashBounce (s : State) : Host.Outcome State Fault Refusal :=
  match s.ev with
  | .req id =>
    match s.req? id with
    | none => .next s
    | some q =>
      if q.stage = .home 0 ∧ q.way = [] ∧ s.stale q then
        let e := match s.die? q.homeDie with | some d => d.epoch | none => 0
        let (back, s) := s.flowWay q true
        let (forth, s) := s.flowWay q false
        .next (s.modReq id fun q => { q with epoch := e, way := back ++ forth, stage := .home (2 * Config.homeLatency) })
      else .next s
  | _ => .next s

/-- HISTORY_OVERFLOW (R253): held for 65,536 cycles for room. -/
def execHistoryOverflow (s : State) : Host.Outcome State Fault Refusal :=
  match s.ev with
  | .req id =>
    match s.req? id with
    | none => .next s
    | some q =>
      match q.stage with
      | .room n => .next (if 65536 ≤ n then s.faultReq q ⟨0x05, q.stamp.toNat % 2 ^ 32, q.va⟩ else s)
      | _ => .next s
  | _ => .next s

/-- SETTLED_LOAD_RELEASE (R252): value_at(line, stamp), which no later insertion can change. -/
def execSettledLoadRelease (s : State) : Host.Outcome State Fault Refusal :=
  match s.ev with
  | .req id =>
    match s.req? id with
    | none => .next s
    | some q =>
      match q.stage, q.op with
      | .settle, .ldt .. =>
        if q.stamp.toNat < s.watermark q.asid then
          match s.readAll q with
          | .error f => .next (s.faultReq q f)
          | .ok x => .next (s.respond q (.ok (q.view x)))
        else .next s
      | _, _ => .next s
  | _ => .next s

/-- MONITOR_COMPLETE (R290): the word that the write left. -/
def execMonitorComplete (s : State) : Host.Outcome State Fault Refusal :=
  match s.ev with
  | .req id =>
    match s.req? id with
    | none => .next s
    | some q =>
      match q.stage with
      | .hit w => .next (s.respond q (.ok (scalarReg w)))
      | _ => .next s
  | _ => .next s

/-- What an access of the station window does (R247, R248, R267): a plain read or write of a station of the voyage, whole. -/
def State.windowAccess (s : State) (q : Req) : Option State :=
  let n := q.bytes
  let q := { q with parts := [(q.va, q.va, n)] }
  let s := s.modReq q.id fun r => { r with parts := q.parts }
  let back (s : State) : State := if q.credit then s.modStation q.st fun t => { t with credits := t.credits - 1 } else s
  let fault : State := (back s).faultReq q (transFault 0 q.acc q.va)
  match paCls q.va with
  | .window st off =>
    match s.station? st with
    | none => some fault
    | some t =>
      if t.voy ≠ q.voy then some fault
      else if t.winHeld off q.op.writes then none
      else if q.op.writes then
        match t.winWrite off n q.data.toNat with
        | none => some fault
        | some t => some (back ((s.setStation t).respond q .silent))
      else match t.winRead off n with
        | none => some fault
        | some x => some (if t.wornAt off n then (back s).faultReq q storageFault else back (s.respond q (.ok (q.view x))))
  | _ => some fault

/-- WINDOW_ACCESS (R248): a SPACE 1 request performs at its target's cycle boundary. -/
def execWindowAccess (s : State) : Host.Outcome State Fault Refusal :=
  match s.ev with
  | .req id =>
    match s.req? id with
    | none => .next s
    | some q => .next (if q.stage = .net 0 then (s.windowAccess q).getD s else s)
  | _ => .next s

/-- MIRROR_READ (R27, R267): the Helm of the requester's die answers from the enumeration table; a write is refused. -/
def execMirrorRead (s : State) : Host.Outcome State Fault Refusal :=
  match s.ev with
  | .req id =>
    match s.req? id with
    | none => .next s
    | some q =>
      if q.stage ≠ .net 0 then .next s
      else
        let s := if q.credit then s.modStation q.st fun t => { t with credits := t.credits - 1 } else s
        match paCls q.va with
        | .mmio o =>
          if q.op.writes ∨ 0x240 < o + q.bytes then .next (s.faultReq q (transFault 0 q.acc q.va))
          else .next (s.respond q (.ok (q.view (s.enumBytes o q.bytes))))
        | _ => .next (s.faultReq q (transFault 0 q.acc q.va))
  | _ => .next s

/-! ### Copies (R238, R279) -/

/-- What one side of a piece comes to; one whose home is on another die is asked of it (R22). -/
inductive Side (α : Type)
  | ok (x : α) (s : State) | held (w : Held) | fault (f : FaultC) | wait | ask (q : Req) (s : State)

/-- A copy as a request on one address, for the accesses of its pieces. -/
def Copy.asReq (k : Copy) (e : CopyEnd) (x : Int) (n : Nat) (wr : Bool) : Req :=
  { id := 0, voy := k.voy, reg := k.reg, src := .rules, st := k.st, ctx := k.ctx, slot := k.slot, time := 0, op := .part k.id n wr, h := e.h,
    va := x.toNat, pa := none, data := 0, y := 0, stamp := k.stamp, pred := 0x7F, own := 0, succ := 0x7F, mf := 0, pass := 0,
    port := some (k.st.die, e.h.port.toNat), dest := .none, slack := k.slack, epoch := 0, parts := [(x.toNat, x.toNat, n)], acc := accCopy,
    released := true, credit := false, asid := k.asid, vers := false, task := k.task, held := 0, arrived := 0, way := [], queued := 0, stood := 0, stage := .port }

/-- The largest piece that a request to another die carries. -/
def askSize : Nat := 64

/-- One side of a piece whose home is on another die, as a request to that home (R22, R23). -/
def Copy.askFar (k : Copy) (e : CopyEnd) (x : Int) (n v : Nat) (wr : Bool) (pa : Nat) (vers : Bool) : Req :=
  let n := Nat.min n askSize
  { k.asReq e x n wr with parts := [(x.toNat, pa, n)], data := BitVec.ofNat 512 v, vers := vers }

/-- The port of a copy's engine. -/
def Copy.port (k : Copy) : Nat × Nat := (k.st.die, (copyHandle k.dst.h k.src.h).port.toNat)

/-- Read a piece. -/
def Copy.read (k : Copy) (s : State) (x : Int) (n : Nat) : Side Nat :=
  let a := x.toNat
  let q := k.asReq k.src x n false
  let win (a : Nat) : Side Nat :=
    if s.partHeld q a false then .wait
    else match s.readPart q x.toNat a n with | .ok v => .ok v s | .error f => .fault f
  match k.src.h.space with
  | .loc => (match s.station? k.st with
    | some t => if t.wornIn false a n then .fault storageFault else .ok (Memory.read t.store a n) s
    | none => .wait)
  | .host => .ok (Memory.read s.host a n) s
  | .win =>
    (match paCls a with
      | .window st _ =>
        if (match s.station? st with | some t => t.voy != k.voy | none => true) then .fault (transFault 0 accCopy a)
        else if st.die ≠ k.st.die then .ask (k.askFar k.src x n 0 false a false) s
        else win a
      | .mmio o => if o + n ≤ 0x240 then win a else .fault (transFault 0 accCopy a)
      | _ => .fault (transFault 0 accCopy a))
  | .peer => .wait
  | .dev =>
    let (r, s) := s.portTrans k.port k.asid a true false none
    match r with
    | .fault c => .fault (transFault c accCopy a)
    | .corrupt f => .fault f
    | .held w => .held w
    | .pa pa e =>
      if !s.paOk k.voy pa (.loadV n) then .fault (transFault 0 accCopy a)
      else if paDie pa k.st.die ≠ k.st.die then .ask (k.askFar k.src x n 0 false pa (pteVers e)) s
      else if s.partHeld q pa false then .wait
      else match s.readPart { q with vers := pteVers e } a pa n with | .ok v => .ok v (s.unkept k.src.h pa n) | .error f => .fault f

/-- Write a piece: in station storage and windows, host memory, or device memory (R265, R269: never a VERS page). -/
def Copy.write (k : Copy) (s : State) (x : Int) (n v : Nat) : Side Unit :=
  let a := x.toNat
  let q := k.asReq k.dst x n true
  let put (s : State) (pa : Nat) : Side Unit :=
    if s.partHeld q pa true then .wait
    else match s.writePart q a pa n v with | .ok s => .ok () (s.unkept k.dst.h pa n) | .error f => .fault f
  match k.dst.h.space with
  | .loc =>
    .ok () (s.modStation k.st fun t =>
      if k.dst.h.kind = .phase then { t with shadow := Memory.write t.shadow a n v } else { t with store := Memory.write t.store a n v })
  | .host => .ok () { s with host := Memory.write s.host a n v }
  | .win =>
    (match paCls a with
      | .window st _ =>
        if (match s.station? st with | some t => t.voy != k.voy | none => true) then .fault (transFault 0 accCopy a)
        else if st.die ≠ k.st.die then .ask (k.askFar k.dst x n v true a false) s
        else put s a
      | _ => .fault (transFault 0 accCopy a))
  | .peer => .wait
  | .dev =>
    let (r, s) := s.portTrans k.port k.asid a false true none
    match r with
    | .fault c => .fault (transFault c accCopy a)
    | .corrupt f => .fault f
    | .held w => .held w
    | .pa pa e =>
      if pteVers e then .fault (transFault 3 accCopy a)
      else if k.task.isSome then
        .fault ⟨0x07, (match k.task.bind (fun id => s.tasks.find? (fun t => t.id == id)) with | some t => t.ts.toNat | none => 0), a⟩
      else if !s.paOk k.voy pa (.store n) then .fault (transFault 0 accCopy a)
      else if paDie pa k.st.die ≠ k.st.die then .ask (k.askFar k.dst x n v true pa false) s
      else put s pa

/-- The piece is written: the copy goes on. -/
def State.copied (s : State) (k : Copy) (n : Nat) : State := (s.modCopy k.id fun c => { c with pos := c.pos + n, wait := none, held := 0 }).rankCopy k.id

/-- A piece goes to a peer or to a home on another die, or is asked of it, as a request of the copy's port (R22, R23). -/
def State.copyAsk (s : State) (k : Copy) (q : Req) : State :=
  let q := { q with id := s.nextId, stage := .home 0, port := some k.port }
  let s := s.modCopy k.id fun c => { c with wait := none, held := 0 }
  let (way, s) := s.flowWay q false
  let epoch := match s.die? q.homeDie with | some d => d.epoch | none => 0
  { s with reqs := s.reqs ++ [{ q with way := way, epoch := epoch }] }.fresh

/-- A piece that has been read is written, by the engine or as a request; it may have to wait, for its page or for a window. -/
def State.copyPut (s : State) (k : Copy) (b : Int) (n v : Nat) : Except (Option Held) State :=
  if k.dst.h.space = .peer then .ok (s.copyAsk k { k.asReq k.dst b n true with data := BitVec.ofNat 512 v })
  else
    match k.write s b n v with
    | .wait => .error none
    | .held w => .error (some w)
    | .fault f => .ok (s.failCopy k f)
    | .ok _ s => .ok (s.copied k n)
    | .ask q s => .ok (s.copyAsk k q)

/-- A copy waits. -/
def State.copyWaits (s : State) (k : Copy) (w : Option Held) : State :=
  match w with | some w => s.modCopy k.id fun c => { c with wait := some w } | none => s

/-- One piece of a copy: at most a line. -/
def State.copyStep (s : State) (k : Copy) : State :=
  let (a, b, n) := k.piece
  if s.reqs.any (fun q => match q.op with | .part c _ _ => c == k.id | _ => false) then s
  else if k.src.h.space = .peer then s.copyAsk k (k.asReq k.src a n false)
  else
    match k.read s a n with
    | .wait => s
    | .held w => s.copyWaits k (some w)
    | .fault f => s.failCopy k f
    | .ask q s => s.copyAsk k q
    | .ok v s => (match s.copyPut k b n v with | .ok s => s | .error w => s.copyWaits k w)

/-- COPY_COMPLETE (R279): every write has performed; PCNT of the completion ring adds 1. -/
def execCopyComplete (s : State) : Host.Outcome State Fault Refusal :=
  match s.ev with
  | .copy id =>
    match s.copy? id with
    | none => .next s
    | some k =>
      if k.run && decide (k.total ≤ k.pos) then
        let s := s.endCopy k
        .next (s.modStation k.st fun t =>
          let t := { t with copies := t.copies - 1 }
          match k.ch with | some h => t.modH h fun e => { e with pcnt := e.pcnt + 1 } | none => t)
      else .next s
  | _ => .next s

/-! ### Replies (R53, R165, R285) -/

/-- The element of an address generator that a reply carries. -/
def Req.element (q : Req) : Reply → Option Token
  | .ok v => some (Token.vec v q.slack)
  | .fault t => some t
  | .silent => none

/-- A reply lands: in its destination, in an address generator's queue, as the data of a copy's piece, or at the tree engine that asked. -/
def State.landReply (s : State) (q : Req) (r : Reply) : State :=
  let drop (s : State) : State := s.dropReq q.id
  match q.src with
  | .agen side off =>
    { drop s with agens := s.agens.map fun (g : Agen) =>
        if g.die = q.st.die ∧ g.side = side ∧ g.off = off then
          { g with outq := g.outq.map fun (e : Nat × Option Token) => if e.1 = q.id then (e.1, q.element r) else e }
        else g }
  | _ =>
    match q.op, r with
    | .part c n wr, .ok v =>
      match s.copy? c with
      | none => drop s
      | some k =>
        let (_, b, _) := k.piece
        if wr then (drop s).copied k n
        else match (drop s).copyPut k b n (v.data.toNat % 2 ^ (8 * n)) with | .ok s => s | .error w => s.copyWaits k w
    | .part c _ _, .fault t =>
      match s.copy? c with
      | none => drop s
      | some k =>
        (drop s).failCopy k ⟨t.code.toNat, (t.data.extractLsb' 32 32).toNat, q.va⟩
    | .tree job key _ _, _ => (drop s).treeReply q.st job key r
    | _, _ =>
      let s := drop s
      let s := if q.op.monitor then s.modStation q.st fun t => { t with mons := t.mons - 1 } else s
      s.land q.who q.dest q.slack r

/-- A reply has arrived; to a station of a halted region it is discarded, but a copy that runs goes on (R439). -/
def State.replyArrives (s : State) (id : Nat) : State :=
  match s.req? id with
  | none => s
  | some q =>
    match q.stage with
    | .reply 0 r =>
      if q.way ≠ [] then s
      else
        match s.region? q.voy q.reg, q.op with
        | _, .part .. => s.landReply q (r.aged q.slack)
        | none, _ => s.dropReq id
        | some g, _ => if g.st = .halted then s.dropReq id else s.landReply q (r.aged q.slack)
    | _ => s

/-- MEMORY_REPLY_LANDS (R53): a reply reaches its station, or its engine. -/
def execMemoryReplyLands (s : State) : Host.Outcome State Fault Refusal :=
  match s.ev with
  | .req id => .next (s.replyArrives id)
  | _ => .next s

/-- COPY_WRITE (R238): the engine performs one line, or part of one; or it takes the answer to one that it has asked for. -/
def execCopyWrite (s : State) : Host.Outcome State Fault Refusal :=
  match s.ev with
  | .copy id =>
    match s.copy? id with
    | none => .next s
    | some k => .next (if k.run && decide (k.pos < k.total) && (k.wait.isNone || k.wait == some .notPresent) then s.copyStep k else s)
  | .req id => .next (s.replyArrives id)
  | _ => .next s

/-- RemapSwap and refresh act on latency alone (R262). -/
def holdRegion (s : State) (pa n : Nat) : State :=
  { s with reqs := s.reqs.map fun (q : Req) =>
      match q.stage, q.parts with
      | .home k, (_, a, _) :: _ => if q.h.space = .dev ∧ a / 2 ^ 21 = pa / 2 ^ 21 then { q with stage := .home (k + n) } else q
      | _, _ => q }

/-- ROW_HAMMER_REFRESH (R262): the neighbours of a row are refreshed; visible as latency only. -/
def execRowHammerRefresh (s : State) : Host.Outcome State Fault Refusal :=
  match s.ev with
  | .row r => .next (holdRegion s (2048 * r) 64)
  | _ => .next s

/-- REMAP_SWAP (R262): a hot and a cold 2 MiB region are swapped in the remap table, and requests to both are held for at most 8,192 cycles. -/
def execRemapSwap (s : State) : Host.Outcome State Fault Refusal :=
  match s.ev with
  | .swap a b =>
    let find (x : Nat) : Nat := match s.remap.find? (fun e => e.1 == x) with | some e => e.2 | none => x
    let table := (a, find b) :: (b, find a) :: s.remap.filter fun e => e.1 ≠ a ∧ e.1 ≠ b
    let n := Config.freeChoice s.free % 8193
    .next (holdRegion (holdRegion { s with remap := table } (a * 2 ^ 21) n) (b * 2 ^ 21) n).draw
  | _ => .next s

end Sys2Proof.Machine
end

