-- ==== Sys2Proof/Machine/Sched.lean ====
section
/-! DEFINITION. Barrier entries (R287-R289), the task sequencer (R62-R65, R291) and address generators (R237, R283-R285). -/

namespace Sys2Proof.Machine

open Sys2Proof

/-! ### Barriers -/

/-- The entry of a key, or one as it is at launch. -/
def State.barEntry (s : State) (k : BarKey) : BarEntry := (s.bars.find? (fun b => b.key == k)).getD ⟨k, 0, 0, 0, [], false⟩

def State.setBar (s : State) (b : BarEntry) : State := { s with bars := b :: s.bars.filter fun c => c.key ≠ b.key }

/-- Where a spilled entry stands in the save block of region 0 (R288). -/
def State.spillAddr (s : State) (k : BarKey) : Option (BitVec 16 × Nat) :=
  match s.voyage? k.voy with
  | none => none
  | some v =>
    match s.saveBases.find? (fun b => b.1 == v.asid) with
    | none => none
    | some (_, base) =>
      let i := match k.scope with | .die => 64 * k.inst + k.id.toNat | .pkg => 256 + k.id.toNat | _ => 320 + k.id.toNat
      some (v.asid, base.toNat + 64 * v.save * 2 ^ 31 + 0x20000000 + 16 * i)

/-- The die whose Helm walks a spilled entry (R288): its own for die scope, that of the voyage's die slot 0 for the others. -/
def State.barHelm (s : State) (k : BarKey) : Nat :=
  match k.scope, (s.voyage? k.voy).bind (fun v => v.regions.find? fun r => r.slotNo == 0) with
  | .die, _ => k.inst
  | _, some r => r.die
  | _, none => 0

/-- What an access of the walker comes to: one that fails leaves the entry as the Helm has it, one that has no frame waits for the pool of a die
(log 16). -/
def walkerAccess (old : State × BarEntry) : Helm (State × BarEntry) → Except Nat (State × BarEntry)
  | .ok x => .ok x
  | .error (.frames d) => .error d
  | .error _ => .ok old

/-- A spilled entry as memory holds it; the die whose pool the walker waits for, if it does. -/
def State.loadBar (s : State) (b : BarEntry) : Except Nat (State × BarEntry) :=
  match b.spilled, s.spillAddr b.key with
  | true, some (asid, va) =>
    walkerAccess (s, b) ((s.helmRead (s.barHelm b.key) asid va 16 false).map fun (x, s) =>
      (s, { b with exp := BitVec.ofNat 32 x, arr := BitVec.ofNat 32 (x / 2 ^ 32), ph := BitVec.ofNat 32 (x / 2 ^ 64) }))
  | _, _ => .ok (s, b)

def State.storeBar (s : State) (b : BarEntry) : Except Nat (State × BarEntry) :=
  match b.spilled, s.spillAddr b.key with
  | true, some (asid, va) =>
    walkerAccess (s, b) ((s.helmStore (s.barHelm b.key) asid va 16 (b.exp.toNat + b.arr.toNat * 2 ^ 32 + b.ph.toNat * 2 ^ 64)).map fun s => (s, b))
  | _, _ => .ok (s, b)

/-- The arrival record of a context after its arrival has reached the entry: still pending while another is on its way. -/
def State.settleArr (s : State) (m : BarMsg) (ph : Option (BitVec 32)) : State :=
  let more := s.barMsgs.any fun x => x.key == m.key && x.st == m.st && x.ctx == m.ctx && x.op != .drop && x != m
  s.modStation m.st fun t => t.modCtx m.ctx fun c =>
    { c with arrs := setArr m.key (fun a => { a with pending := more, ph := match ph with | some p => some p | none => a.ph }) c.arrs }

/-- A drop: whether it has lowered EXP from a positive value to 0. -/
def BarEntry.drop (b : BarEntry) : BarEntry × Bool := if b.exp = 0 then (b, false) else ({ b with exp := b.exp - 1 }, b.exp == 1)

/-- An arrival is counted, or raises the bounds fault: n = 0 in a new phase, or a handle that is not phase. -/
def State.arrive (s : State) (b : BarEntry) (m : BarMsg) (n : Nat) (swap : Option (Fin 16)) : State × BarEntry :=
  let n := BitVec.ofNat 32 n
  let phase := match swap, s.station? m.st with | some h, some t => t.h[h].kind == .phase | none, _ => true | _, none => false
  if !phase || (b.exp == 0 && n == 0) then
    ((s.settleArr m none).landFault ⟨m.st, m.ctx, m.slot⟩ .none m.slack bounds, b)
  else
    let b' := { b with
      exp := if b.exp = 0 then n else b.exp, arr := b.arr + 1,
      swaps := match swap with | some h => b.swaps ++ [(m.st, h)] | none => b.swaps }
    (s.settleArr m (some b.ph), b')

/-- The phase completes: PH adds 1, and every handle of its `bars` arrivals swaps. -/
def State.completePhase (s : State) (b : BarEntry) : State × BarEntry :=
  (b.swaps.foldl (fun s (st, h) => match s.station? st with | some t => s.applyAll ⟨st, 0, 0⟩ (pubEffects h t.h[h]) | none => s) s, { b with ph := b.ph + 1, arr := 0, swaps := [] })

/-- The end of a phase: as many arrivals as are expected, or a drop that has lowered EXP to 0 (R289). -/
def State.endPhase (s : State) (b : BarEntry) (low : Bool) : State × BarEntry :=
  if low || (b.exp != 0 && decide (b.exp.toNat ≤ b.arr.toNat)) then s.completePhase b else (s, b)

/-- What reaches an entry in one cycle: drops first, then arrivals, then the end of the phase (R289). -/
def State.barCycle (s : State) (b : BarEntry) (ms : List BarMsg) : State × BarEntry :=
  let (b, low) := (ms.filter (fun m => m.op == .drop)).foldl (fun (b, low) _ => let (b, z) := b.drop; (b, low || z)) (b, false)
  let (s, b) := ms.foldl (fun (s, b) m =>
    match m.op with
    | .arrive n => s.arrive b m n none
    | .arriveSwap n h => s.arrive b m n (some h)
    | .drop => (s, b)
    | .look => (s, b)) (s, b)
  s.endPhase b low

/-! ### Pod entries at another device's walker (R288)

DESIGN CHOICE (log 53): an arrival, a drop and a look at PH are request flits to the address of the entry in the table, of operation 0x40, 0x41 and 0x42,
with n in the first data word and the number of the message as the entry of a return tag whose port is 127; the answer's first data word is PH. -/

/-- The peer that walks a spilled pod entry: the member with the lowest device id, unless that is this device. -/
def State.podWalker (s : State) (k : BarKey) : Option Peer :=
  if k.scope ≠ .pod ∨ !(s.barEntry k).spilled then none
  else
    (leastBy (fun (b : Peer) => [b.device.toNat]) (s.bindings.filter fun b => some b.asid == s.asidOf k.voy)).filter fun b =>
      decide (b.device.toNat < Config.deviceId.toNat)

/-- The port number of a walker in return tags. -/
def walkerPort : Nat := 127

def BarOp.flitOp : BarOp → Nat
  | .drop => 0x41
  | .look => 0x42
  | _ => 0x40

def BarOp.count : BarOp → Nat
  | .arrive n => n
  | .arriveSwap n _ => n
  | _ => 0

/-- The body of the request flit of a message (Table 23.8). -/
def BarMsg.flit (m : BarMsg) (va n die : Nat) : List Byte :=
  bytesOf 96 (va + (m.op.flitOp + 4 * 2 ^ 16 + 3 * 2 ^ 24) * 2 ^ 128 + (walkerPort + n * 2 ^ 8 + die * 2 ^ 16) * 2 ^ 192 + m.op.count * 2 ^ 256)

/-- A message leaves for the peer over its link, once it has room; a `bars` on a handle that is not phase goes no further. -/
def State.sendBar (s : State) (p : Peer) (m : BarMsg) : State :=
  let phase := match m.op, s.station? m.st with | .arriveSwap _ h, some t => t.h[h].kind == .phase | _, _ => true
  let drop (s : State) : State := { s with barMsgs := s.barMsgs.filter (· ≠ m) }
  let n := ((List.range 256).find? fun n => !s.barMsgs.any fun x => x.away == some n).getD 0
  if !phase then drop ((s.settleArr m none).landFault ⟨m.st, m.ctx, m.slot⟩ .none m.slack bounds)
  else match (s.boundUp p.asid p.peer).head?, s.spillAddr m.key with
    | some l, some (_, va) =>
      if (s.link? l).any TLink.room then
        { s.modLink l fun k => k.send 2 (BitVec.ofNat 16 p.peer) (m.flit va n (s.barHelm m.key)) with
          barMsgs := s.barMsgs.map fun x => if x = m then { x with away := some n } else x }
      else s
    | _, _ => s

/-- The Helm has learnt PH of an entry that a peer walks: where a phase has ended, its handles swap. -/
def State.seePhase (s : State) (k : BarKey) (ph : BitVec 32) : State :=
  let b := s.barEntry k
  if b.ph = ph then s else let (s, b) := s.completePhase b; s.setBar { b with ph := ph }

/-- The answer to a message: PH as the arrival has found it, or a fault (R289). -/
def State.barReply (s : State) (m : BarMsg) (code : Nat) (ph : BitVec 32) : State :=
  let done (s : State) : State := { s with barMsgs := s.barMsgs.filter (· ≠ m) }
  match m.op with
  | .drop => done s
  | .look => done (s.seePhase m.key ph)
  | op =>
    if code ≠ 0 then done ((s.settleArr m none).landFault ⟨m.st, m.ctx, m.slot⟩ .none m.slack bounds)
    else
      let s := (s.seePhase m.key ph).settleArr m (some ph)
      let b := s.barEntry m.key
      done (match op with | .arriveSwap _ h => s.setBar { b with swaps := b.swaps ++ [(m.st, h)] } | _ => s)

/-- What a peer's message does at the entry that this device walks: the answer, and the entry after it; a frame may have to be waited for. -/
def State.peerBar (s : State) (k : BarKey) (op n : Nat) : Except Nat (Except FaultC Nat × State) := do
  let (s, b) ← s.loadBar (s.barEntry k)
  if op = 0x42 then return (.ok b.ph.toNat, s)
  else if op = 0x41 then
    let (s, b') := s.endPhase b.drop.1 b.drop.2
    return (.ok 0, (← (s.setBar b').storeBar b').1)
  else if b.exp = 0 ∧ n % 2 ^ 32 = 0 then return (.error bounds, s)
  else
    let (s, b') := s.endPhase { b with exp := if b.exp = 0 then BitVec.ofNat 32 n else b.exp, arr := b.arr + 1 } false
    return (.ok b.ph.toNat, (← (s.setBar b').storeBar b').1)

/-- A context waits for the end of a phase of an entry. -/
def State.awaitsPhase (s : State) (k : BarKey) : Bool :=
  s.stations.any fun t => t.voy == k.voy && t.ctx.toList.any fun c => c.arrs.any fun a => a.key == k && !a.pending && a.ph == some (s.barEntry k).ph

/-- The entries of peers' walkers at which the Helm looks in this cycle. -/
def State.looks (s : State) : List BarKey :=
  if s.time % Config.spillLatency ≠ 0 then []
  else (s.bars.map (·.key)).filter fun k => (s.podWalker k).isSome && s.awaitsPhase k && !s.barMsgs.any fun m => m.key == k && m.op == .look

/-- BARRIER_ENTRY_UPDATE (R289). While the walker of a spilled entry waits for a frame, so do the operations; those of an entry that a peer walks go to
it (R288). -/
def execBarrierEntryUpdate (s : State) : Host.Outcome State Fault Refusal :=
  match s.ev with
  | .bar k =>
    let here (m : BarMsg) : Bool := m.key == k && m.left == 0 && m.away.isNone
    match s.podWalker k with
    | some p =>
      let s := if s.looks.contains k then { s with barMsgs := s.barMsgs ++ [⟨k, .look, ⟨0, 0, 0⟩, 0, 0, s.time, ⟨false, 0⟩, 0, none⟩] } else s
      .next ((s.barMsgs.filter here).foldl (fun s m => s.sendBar p m) s)
    | none =>
    let r := do
      let (s, b) ← s.loadBar (s.barEntry k)
      let (s, b) := s.barCycle b (s.barMsgs.filter here)
      (s.setBar b).storeBar b
    match r with
    | .ok (s, _) => .next { s with barMsgs := s.barMsgs.filter fun m => !here m }
    | .error d => .next (s.soon .poolBorrow (.die d))
  | _ => .next s

/-! ### Tasks -/

def State.task? (s : State) (id : Nat) : Option Task := s.tasks.find? (fun t => t.id == id)

/-- The dispatchable task of least timestamp, the earlier spawn first; a frozen voyage dispatches none. -/
def State.nextTask (s : State) (die : Nat) : Option Task :=
  (s.tasks.filter fun t => t.die == die && t.st == .ready && match s.voyage? t.voy with | some v => !v.frozen && !v.ended | none => false).foldl (fun a t =>
    match a with | none => some t | some b => if t.ts < b.ts then some t else a) none

/-- The idle task-mode contexts of a die that host a handler. -/
def State.hostsOf (s : State) (t : Task) : List (StId × Fin 8) :=
  s.stations.flatMap fun u =>
    if u.voy = t.voy ∧ u.id.die = t.die ∧ s.stationRuns u then
      u.handler.filterMap fun (c, n) => if n = t.handler ∧ u.ctx[c].running = none then some (u.id, c) else none
    else []

/-- TASK_DISPATCH (R63, R291): to one of the idle hosts, which one the device chooses. -/
def execTaskDispatch (s : State) : Host.Outcome State Fault Refusal :=
  match s.ev with
  | .task die _ =>
    match s.nextTask die with
    | none => .next s
    | some t =>
      let hs := s.hostsOf t
      match hs[Config.freeChoice s.free % hs.length]? with
      | none => .next s
      | some (i, c) =>
        let s := { s with tasks := s.tasks.map fun (k : Task) => if k.id = t.id then { k with st := .running i c } else k }.draw
        .next ((s.modStation i fun u =>
          (u.modC 6 fun f => f.pushFront t.id (Token.vec t.args ⟨false, 992⟩)).modCtx c fun x => { x with running := some t.id, ts := t.ts }).stir t.voy)
  | _ => .next s

/-- The sequencer's mark follows its least uncommitted timestamp (R63, R252). -/
def State.sequencerMark (s : State) (voy die : Nat) : State :=
  match s.voyage? voy, (s.tasks.filter fun t => t.voy == voy && t.die == die).map (·.ts.toNat) with
  | some v, t :: ts => s.raiseMark v.asid (.sequencer voy die) ((ts.foldl Nat.min t) * 2 ^ 20)
  | _, _ => s

/-- The context of a running task is idle again; its argument token goes if it is still there. -/
def State.freeTask (s : State) (t : Task) : State :=
  match t.st with
  | .running i c =>
    s.modStation i fun u =>
      (u.modC 6 fun f => { f with q := f.q.filter fun e => e.id ≠ t.id }).modCtx c fun x => { x with running := none, ts := 0 }
  | _ => s

/-- A task may commit: it is done, nothing of it is on its way, no task of its sequencer and voyage has a lower timestamp or an earlier spawn with the
same one, and the watermark has passed what lies below its timestamp (R64, log 46). -/
def State.commits (s : State) (t : Task) : Bool :=
  t.st == .done && !t.spoiled && !s.reqs.any (fun q => q.task == some t.id) && !s.copies.any (fun k => k.task == some t.id) &&
    s.tasks.all (fun k => k.id == t.id || k.voy != t.voy || k.die != t.die || lexLt [t.ts.toNat, t.id] [k.ts.toNat, k.id]) &&
    match s.voyage? t.voy with
    | some v => !v.frozen && decide (t.ts.toNat * 2 ^ 20 ≤ s.watermark v.asid)
    | none => false

/-- TASK_COMMIT (R64): the task's held spawns become dispatchable. -/
def execTaskCommit (s : State) : Host.Outcome State Fault Refusal :=
  match s.ev with
  | .task _ id =>
    match s.task? id with
    | none => .next s
    | some t =>
      if !s.commits t then .next s
      else
        let s := { s with tasks := (s.tasks.filter fun (k : Task) => k.id ≠ id).map fun (k : Task) =>
          if k.parent = some id then { k with parent := none, st := if k.st == TaskSt.held then TaskSt.ready else k.st } else k }
        .next ((s.sequencerMark t.voy t.die).stir t.voy)
  | _ => .next s

/-- The versioned updates of a task that have not performed never perform: a place in a chain is kept as by an `mnop`. -/
def State.recall (s : State) (id : Nat) : State :=
  let mine (q : Req) : Bool := q.task == some id && match q.op with | .upd .. => true | .store _ => true | .red .. => true | _ => false
  { s with reqs := (s.reqs.filter fun q => !(mine q && q.released)).map fun (q : Req) => if mine q then { q with op := .mnop } else q }

/-- TASK_ABORT (R64, R65): entries withdrawn, held spawns discarded; the task starts again, or, after an unversioned effect, is over. -/
def execTaskAbort (s : State) : Host.Outcome State Fault Refusal :=
  match s.ev with
  | .task _ id =>
    match s.task? id with
    | none => .next s
    | some t =>
      let s := { s with tasks := s.tasks.map fun (k : Task) => if k.id = id then { k with seen := 0 } else k }
      let s := ((s.recall id).withdraw id).freeTask t
      let tasks := s.tasks.filter fun (k : Task) => !(k.parent == some id && k.st == .held)
      if t.spoiled then .next ({ s with tasks := tasks.filter fun (k : Task) => k.id ≠ id }.sequencerMark t.voy t.die)
      else
        .next { s with tasks := tasks.map fun (k : Task) =>
          if k.id = id then { k with st := match k.st with | .running .. => .ready | .done => .ready | x => x } else k }
  | _ => .next s

/-! ### Address generators -/

/-- Elements of a nest. -/
def Agen.total (g : Agen) : Nat := g.dims.foldl (fun n d => n * d.1) 1

/-- The address of the next element: dimension 0 varies fastest. -/
def Agen.addr (g : Agen) : Int := (g.dims.foldl (fun (r, a) (n, x) => (r / n, a + (r % n : Nat) * x)) (g.pos, (g.base : Int))).2

/-- Elements on their way at once. -/
def agenWindow : Nat := 16

/-- The element's request, or its fault. -/
def State.agenIssue (s : State) (k : Nat) (g : Agen) : State :=
  let a := g.addr
  let n := if g.wide then 64 else 8
  let id := s.nextId
  let set (f : Agen → Agen) (s : State) : State := { s with agens := s.agens.modify k f }
  let slb := match s.voyage? g.voy with | some v => v.pkt[0].extractLsb' 29 6 | none => 0
  let sl := slackStart g.sl slb
  let asid := match s.voyage? g.voy with | some v => v.asid | none => 0
  let src : DomSrc := .agen g.side g.off
  let num := match s.domains.find? (fun d => d.voy == g.voy && d.reg == g.reg && d.src == src) with | some d => d.num | none => 0
  let q : Req :=
    { id := id, voy := g.voy, reg := g.reg, src := src, st := g.dst, ctx := 0, slot := 0, time := s.time,
      op := if g.pref then .pref 1 else .agLoad g.wide, h := g.h, va := a.toNat, pa := none, data := 0, y := 0, stamp := mkStamp 0 num 0,
      pred := 0x7F, own := 0, succ := 0x7F, mf := 0, pass := 0, port := some (g.die, g.port), dest := .none, slack := sl, epoch := 0, parts := [],
      acc := accLoad, released := false, credit := false, asid := asid, vers := false, task := none, held := 0, arrived := 0, way := [], queued := 0, stood := 0, stage := .net Config.netLatency }
  let s := set (fun g => { g with pos := g.pos + 1 }) s.fresh
  let s := if !sl.bg && sl.n = 0 then s.countAt (.port g.die g.port) else s
  if g.pref then { s with reqs := s.reqs ++ [q] }
  else
    let bad (f : FaultC) : State :=
      match s.station? g.dst with
      | none => s
      | some t => set (fun g => { g with outq := g.outq ++ [(id, some (faultToken t 0 0 sl f))] }) s
    if a < 0 then bad (boundsAt 0 a.toNat)
    else match g.h.check a.toNat n n with
      | .error f => bad f
      | .ok _ => { set (fun g => { g with outq := g.outq ++ [(id, none)] }) s with reqs := s.reqs ++ [q] }

/-- Deliver the next element that has come back, or the stop after the last (R285). -/
def State.agenDeliver (s : State) (k : Nat) (g : Agen) : State :=
  let room := match s.station? g.dst with | some t => decide (0 < t.c[g.c].room) | none => false
  let set (f : Agen → Agen) (s : State) : State := { s with agens := s.agens.modify k f }
  let put (t : Token) (s : State) : State := ((s.modStation g.dst fun u => u.modC g.c (·.push s.nextId (some t) 0)).fresh).stir g.voy
  match g.outq with
  | (_, some t) :: r => if room then set (fun g => { g with outq := r }) (put t s) else s
  | (_, none) :: _ => s
  | [] =>
    if g.pos < g.total ∨ g.done then s
    else if g.pref then set (fun g => { g with done := true }) s
    else if room then
      let slb := match s.voyage? g.voy with | some v => v.pkt[0].extractLsb' 29 6 | none => 0
      let k := Token.stopTok 2 (slackStart g.sl slb)
      let s := if k.overdue then s.countAt (.port g.die g.port) else s
      set (fun g => { g with done := true }) (put k s)
    else s

/-- AGX_WALK_ELEMENT (R285): the generator delivers what has come back and emits its next element. -/
def execAgxWalkElement (s : State) : Host.Outcome State Fault Refusal :=
  match s.ev with
  | .agen k =>
    match s.agens[k]? with
    | none => .next s
    | some g =>
      let s := s.agenDeliver k g
      match s.agens[k]? with
      | none => .next s
      | some g => .next (if g.pos < g.total ∧ g.outq.length < agenWindow then s.agenIssue k g else s)
  | _ => .next s

end Sys2Proof.Machine
end

