-- ==== Sys2Proof/Machine/Configure.lean ====
section
/-! DEFINITION. Configuration load (R47, R48, R130-R141, R147-R152, R163, R283, R284, R351-R354): the checks of every station of a voyage,
the stations, routes and address generators that it sets up, and the numbers of its domains (R231, R470). -/

namespace Sys2Proof.Machine

open Sys2Proof

/-! ### What a failing launch reports (R48, R132) -/

/-- A failing word: die, x′, y′, whether it is not a rule word, context, slot. -/
structure BadWord where
  die   : Nat
  x     : Nat
  y     : Nat
  other : Bool
  ctx   : Nat
  slot  : Nat
  deriving DecidableEq, Repr

def BadWord.rank (f : BadWord) : List Nat := [f.die, f.y, f.x, if f.other then 1 else 0, f.ctx, f.slot]

/-- QFAIL (Table 2.1). -/
def BadWord.qfail (f : BadWord) : BitVec 23 :=
  BitVec.ofNat 23 (f.die % 4 + f.x % 64 * 2 ^ 2 + f.y % 64 * 2 ^ 8 + f.ctx % 8 * 2 ^ 14 + f.slot % 32 * 2 ^ 17 + bitAt f.other 22)

/-! ### Handles and contexts of a pattern -/

/-- The entry that hN loads as: the pattern's, else the HTAB's (R41); none for a malformed one. -/
def Pat.handle (p : Pat) (htab : List Nat) (n : Nat) : Option HEntry :=
  let bits := match p.hs.find? (fun h => h.1 == n) with | some h => h.2 | none => htab.getD n 0
  if bits = 0 then some HEntry.empty else HEntry.ofBits? bits

/-- The entries of a station without the malformed ones, which fail the load. -/
def Pat.handles (p : Pat) (htab : List Nat) : Vector HEntry 16 :=
  Vector.ofFn fun i : Fin 16 => if p.kind = .ss then HEntry.empty else (p.handle htab i.val).getD HEntry.empty

/-- The words of a pattern that decode, with their contexts. -/
def Pat.words (p : Pat) : List (PCtx × Instr) :=
  p.ctxs.flatMap fun c => c.rules.filterMap fun w => match decode p.kind w with | .ok i => some (c, i) | .error _ => none

def Pat.nodeWords (p : Pat) : List NodeWord := p.nodes.filterMap (NodeWord.decode (some p.kind))

/-- Channels and outputs that belong to nodes (R333). -/
def Pat.nodeIns (p : Pat) : List (Fin 8) := p.nodeWords.filterMap fun n => match n with | .ctn i .. => some i | .nrm i _ => some i | _ => none
def Pat.nodeOuts (p : Pat) : List (Fin 8) := p.nodeWords.filterMap fun n => match n with | .ctn _ o .. => some o | .nrm _ o => some o | _ => none

/-- The target stations of a pattern in a region whose origin plat is (px, py): region-relative places (R136). -/
def Pat.targets (p : Pat) (px py : Nat) : List (Nat × Nat) :=
  (p.rects.flatMap fun (x, y, w, h) =>
    (List.range h).flatMap fun j => (List.range w).filterMap fun i =>
      if stationKind (4 * px + x + i) (4 * py + y + j) = p.kind then some (x + i, y + j) else none).eraseDups

/-! ### The checks -/

/-- What a station's check needs to know of its place: region-relative and absolute, the routes that leave it, and the region. -/
structure Place where
  die  : Nat
  rx   : Nat
  ry   : Nat
  ax   : Nat
  ay   : Nat
  outs : List (Nat × Bool)
  fault : Bool
  doneC : Option (Fin 8)
  many : Bool

/-- Whether a rule word fails at a place (R130, R147, R185, R223, R273, R277, R279, R291, R333). DESIGN CHOICE (log 113): R273 makes the word `lds` a failure
in a task-mode context; an `ld` whose MF bits give it the effect of `lds` is none. -/
def Pat.badRule (p : Pat) (htab : List Nat) (l : Place) (c : PCtx) (w : Word) : Bool :=
  match decode p.kind w with
  | .error _ => true
  | .ok i =>
    let u := i.uses
    let port (n : Fin 16) : Bool := match p.handle htab n.val with | some h => h.ordered | none => false
    u.outs.any (fun o => !(l.outs.any fun r => r.1 == o.val)) ||
    u.chans.any (fun n => p.nodeIns.contains n) || u.outs.any (fun n => p.nodeOuts.contains n) ||
    (match i with
      | .vpark r => r.m1 && !(decide (2 ≤ l.ax % 4) && decide (l.ay % 4 < 2))
      | .vunpark r => r.m1 && !(decide (2 ≤ l.ax % 4) && decide (l.ay % 4 < 2))
      | .cpy r => !port r.dst && !port r.src
      | .cpyw r => !port r.dst && !port r.src
      | .lds _ => c.task
      | .settle .. => c.task
      | .tdone _ => !c.task
      | .retag _ n _ => l.fault && n == 7
      | .mcst r => (Opd.output r.d).any fun o => !(l.outs.any fun t => t.1 == o.val && t.2)
      | _ => false)

/-- Whether a data section fails (R136, R138). -/
def Pat.badData (p : Pat) (l : Place) : Bool :=
  (!p.data.isEmpty && l.many) ||
    p.data.any fun d => (p.kind != .c && p.kind != .s) || (d.shadow && p.kind != .s) || decide (storeSize p.kind < d.off + d.len)

/-- Whether the node list fails (R352-R354). -/
def Pat.badNodes (p : Pat) (l : Place) : Bool :=
  let ns := p.nodeWords
  let on : BitVec 8 := p.ctxs.foldl (fun m c => m ||| c.on) 0
  let ctns := ns.filter fun n => match n with | .ctn .. => true | _ => false
  let nrms := ns.filter fun n => match n with | .nrm .. => true | _ => false
  let primes := ns.filterMap fun n => match n with | .prime c .. => some c | _ => none
  let tasks := p.ctxs.any (·.task)
  ns.length != p.nodes.length || decide (1 < ctns.length) || decide (1 < nrms.length) || !p.nodeIns.Nodup || !p.nodeOuts.Nodup ||
    p.nodeIns.any (fun c => on.getLsbD c.val || l.doneC == some c) ||
    p.nodeOuts.any (fun o => !(l.outs.any fun r => r.1 == o.val)) ||
    primes.any (fun c => decide (4 < (primes.filter (· == c)).length) || (l.fault && c == 7) || (tasks && c == 6) || p.nodeIns.contains c)

/-- Whether a handle entry of the pattern or of the HTAB fails (R152). -/
def Pat.badHandles (p : Pat) (htab : List Nat) : Bool :=
  if p.kind = .ss then !p.hs.isEmpty
  else (List.range 16).any fun n => match p.handle htab n with | some h => !h.loadOk p.kind | none => true

/-- Whether an ON field or a conflict matrix fails (R137). -/
def Pat.badContexts (p : Pat) : Bool :=
  p.ctxs.any (fun c => !c.sym) ||
    (List.range 8).any fun i => decide (1 < (p.ctxs.filter fun c => c.on.getLsbD i).length)

/-- The failing words of a station: each rule word, and one entry for everything else. -/
def Pat.bad (p : Pat) (htab : List Nat) (l : Place) : List BadWord :=
  (p.ctxs.flatMap fun c => c.rules.zipIdx.filterMap fun (w, i) =>
    if p.badRule htab l c w then some ⟨l.die, l.rx, l.ry, false, c.ctx.val, i⟩ else none) ++
    (if p.badContexts || p.badHandles htab || p.badNodes l || p.badData l then [⟨l.die, l.rx, l.ry, true, 0, 0⟩] else [])

/-! ### Where regions stand -/

/-- The rectangles of a voyage: per die slot the die and its origin plat. -/
abbrev Spots := List (Nat × Nat × Nat)

def RegI.spot (r : RegI) (sp : Spots) : Nat × Nat × Nat :=
  let (d, x, y) := sp.getD r.slot (0, 0, 0)
  (d, x + r.px, y + r.py)

/-- The outputs that routes leave a place on, and whether it is a bus. -/
def RegI.outsAt (r : RegI) (x y : Nat) : List (Nat × Bool) :=
  r.routes.filterMap fun t =>
    if t.x = x ∧ t.y = y then
      match t.dest with
      | .cross true _ _ => none
      | .bus _ => some (t.out, true)
      | _ => some (t.out, false)
    else none

/-! ### Mesh paths (R84, R146) -/

/-- One leg: x first, then y; the place itself is not on it. -/
def leg (a b : Int × Int) : List (Int × Int) :=
  let step (u v : Int) : Int := if u ≤ v then 1 else -1
  (List.range (a.1 - b.1).natAbs).map (fun k => (a.1 + step a.1 b.1 * (k + 1 : Nat), a.2)) ++
    (List.range (a.2 - b.2).natAbs).map (fun k => (b.1, a.2 + step a.2 b.2 * (k + 1 : Nat)))

/-- A path through waypoints. -/
def meshPath (a : Int × Int) : List (Int × Int) → List (Int × Int)
  | [] => []
  | b :: r => leg a b ++ meshPath b r

/-- Whether a route's fields name places of its regions. -/
def RouteI.inside (t : RouteI) (r : RegI) (all : List RegI) : Bool :=
  let ok (g : RegI) (x y : Nat) : Bool := decide (x < 4 * g.pw ∧ y < 4 * g.ph)
  t.ok && ok r t.x t.y && t.via.all (fun (x, y) => ok r x y) &&
    match t.dest with
    | .mesh x y _ => ok r x y
    | .bus ds => ds.all fun (x, y, _) => ok r x y && (x == t.x || y == t.y)
    | .die g x y _ => (match all[g]? with | some g => ok g x y && g.slot != r.slot | none => false)
    | .cross .. => true

/-- The failing route words of a region (R139, R351): a pass station lies in the region, whose patterns alone can target it; one that a route does not cross
shows once the route has its hops (`badPasses`). -/
def RegI.badRoutes (r : RegI) (all : List RegI) (sp : Spots) : List BadWord :=
  let (die, px, py) := r.spot sp
  let targets := r.pats.flatMap (·.targets px py)
  let passes := r.routes.flatMap fun t => t.passes.map fun p => (t, p)
  (r.routes.filterMap fun t => if t.inside r all then none else some ⟨die, t.x, t.y, true, 0, 0⟩) ++
    passes.filterMap fun (_, x, y, b) =>
      if !decide (x < 4 * r.pw ∧ y < 4 * r.ph) || targets.contains (x, y) || decide (1 < (passes.filter fun q => q.2 == (x, y, b)).length) then some ⟨die, x, y, true, 0, 0⟩ else none

/-- A station of a region that no pattern targets: it has the entries of the HTAB and nothing else (R41). -/
def Pat.bare (k : Kind) : Pat := ⟨k, [], [], [], [], [], 0⟩

/-- The stations of a region that no pattern targets and no route buffers in, with their kinds: pass-through stations hold no other state (R148). -/
def RegI.bare (r : RegI) (px py : Nat) : List (Nat × Nat × Kind) :=
  let taken := (r.pats.flatMap (·.targets px py)) ++ r.routes.flatMap fun t => t.passes.map fun p => (p.1, p.2.1)
  (List.range (4 * r.ph)).flatMap fun y => (List.range (4 * r.pw)).filterMap fun x =>
    if taken.contains (x, y) then none else some (x, y, stationKind (4 * px + x) (4 * py + y))

/-- The failing stations of a region: a malformed entry of the HTAB fails at every station that receives it (R41, R152). -/
def RegI.badStations (r : RegI) (sp : Spots) (htab : List Nat) : List BadWord :=
  let (die, px, py) := r.spot sp
  ((r.bare px py).filterMap fun (x, y, k) => if (Pat.bare k).badHandles htab then some ⟨die, x, y, true, 0, 0⟩ else none) ++
  r.pats.flatMap fun p =>
    let ts := p.targets px py
    (p.rects.filterMap fun (x, y, w, h) => if x + w ≤ 4 * r.pw ∧ y + h ≤ 4 * r.ph then none else some ⟨die, x, y, true, 0, 0⟩) ++
      (if p.data.isEmpty || ts.length = 1 then [] else (p.rects.take 1).map fun (x, y, _) => ⟨die, x, y, true, 0, 0⟩) ++
      ts.flatMap fun (x, y) => p.bad htab
        { die := die, rx := x, ry := y, ax := 4 * px + x, ay := 4 * py + y, outs := r.outsAt x y,
          fault := (match r.flt with | some (fx, fy, _) => fx == x && fy == y | none => false),
          doneC := if r.dn.1.val = x ∧ r.dn.2.1.val = y then some r.dn.2.2 else none, many := decide (1 < ts.length) }

/-! ### Address generators (R140, R283, R284) -/

/-- The generator that an edge-list entry describes: base, dimensions, the `agx` word. -/
structure GenI where
  base : Nat
  dims : List (Nat × Int)
  cw   : Bool
  pref : Bool
  wide : Bool
  hidx : Fin 16
  ch   : Fin 8
  sl   : BitVec 6
  dx   : Nat
  dy   : Nat

def EdgeI.gen? (e : EdgeI) : Option GenI := do
  let ns ← e.words.mapM (NodeWord.decode none)
  let xs := ns.filterMap fun n => match n with
    | .agx cw op nd wide hi ch sl dy dx => some (cw, op, nd.toNat + 1, wide, hi, ch, sl, dy.toNat, dx.toNat) | _ => none
  let lo := ns.filterMap fun n => match n with | .agb false va => some va.toNat | _ => none
  let hi := ns.filterMap fun n => match n with | .agb true va => some va.toNat | _ => none
  let ls := ns.filterMap fun n => match n with | .agl d m => some (d.toNat, m.toNat + 1) | _ => none
  let ss := ns.filterMap fun n => match n with | .ags d s => some (d.toNat, s.toInt) | _ => none
  match xs, lo, hi with
  | [(cw, op, nd, wide, h, ch, sl, dy, dx)], [b0], [b1] =>
    must (decide (ls.length = nd) && decide (ss.length = nd))
    let dims ← (List.range nd).mapM fun k => do
      let n ← ls.find? (fun l => l.1 == k)
      let s ← ss.find? (fun l => l.1 == k)
      return (n.2, s.2)
    return ⟨b0 + b1 * 2 ^ 28, dims, cw, op == 1, wide, h, ch, sl, dx, dy⟩
  | _, _, _ => none

/-- The absolute offset of an entry along its side, for a region with an origin plat. -/
def EdgeI.absOff (e : EdgeI) (px py : Nat) : Nat := if e.side % 2 = 0 then 4 * px + e.off else 4 * py + e.off

/-- The failing edge-list entries of a region (R132, R140, R284). -/
def RegI.badEdges (r : RegI) (sp : Spots) (htab : List Nat) : List BadWord :=
  let (die, px, py) := r.spot sp
  r.edges.filterMap fun e =>
    let good := e.ok && decide (e.off < if e.side % 2 = 0 then 4 * r.pw else 4 * r.ph) && !ringIsPort (ringPos e.side (e.absOff px py)) &&
      match e.gen? with
      | none => false
      | some g => decide (g.dx < 4 * r.pw ∧ g.dy < 4 * r.ph) &&
          (match HEntry.ofBits? (htab.getD g.hidx.val 0) with | some h => h.space == .dev | none => false)
    if good then none else some ⟨die, e.off, 60 + e.side, true, 0, 0⟩

/-- Everything that fails in the words of a voyage. -/
def Image.bads (m : Image) (sp : Spots) (htab : List Nat) : List BadWord :=
  m.regs.flatMap fun r => r.badStations sp htab ++ r.badRoutes m.regs sp ++ r.badEdges sp htab

/-- What of it is reported: the first (R48). -/
def Image.bad (m : Image) (sp : Spots) (htab : List Nat) : Option BadWord := leastBy BadWord.rank (m.bads sp htab)

/-! ### Stations (R163, R354) -/

/-- The contexts of a pattern in a station. -/
def Pat.loadCtxs (p : Pat) (slb : BitVec 6) : Vector Ctx 8 :=
  Vector.ofFn fun i : Fin 8 =>
    match p.ctxs.find? (fun c => c.ctx == i) with
    | none => Ctx.blank slb
    | some c => { Ctx.blank slb with rules := c.rules, conf := c.conf, cls := c.prio, task := c.task }

/-- A node of the pattern's node list. -/
def Station.addNode (slb : BitVec 6) (t : Station) : NodeWord → Station
  | .ctn i o f g rm ov => { t with ctn := some ⟨i, o, f, g, rm, ov, [], []⟩ }
  | .nrm i o => { t with nrm := some ⟨i, o, 0, 0, none, []⟩ }
  | .prime c tag st imm sl =>
    let k := Token.scalar (imm.signExtend 64) (slackStart sl slb)
    t.modC c fun f => { f with q := f.q ++ [⟨0, some { k with tag := tag, stop := st }, false, 0, 0⟩] }
  | _ => t

/-- A data section goes to the local store or to a bank (R138). -/
def Station.addData (t : Station) (d : PData) : Station :=
  if d.shadow then { t with shadow := Memory.write t.shadow d.off d.len d.x } else { t with store := Memory.write t.store d.off d.len d.x }

/-- A pattern loaded into a cleared station; task contexts take their handler numbers. -/
def Pat.load (p : Pat) (htab : List Nat) (slb : BitVec 6) (handlers : List (Fin 8 × Nat)) (t : Station) : Station :=
  let t := { t with
    ctx := p.loadCtxs slb, h := p.handles htab, handler := handlers,
    hctx := Vector.ofFn fun n : Fin 8 => (p.ctxs.find? fun c => c.on.getLsbD n.val).map (·.ctx) }
  let t := p.data.foldl Station.addData t
  p.nodeWords.foldl (Station.addNode slb) t

/-- The fault station: c7 is the fault queue of 16 tokens and selects the fault context (R167). -/
def Station.faultQueue (t : Station) (c : Fin 8) : Station :=
  { t with c := t.c.set 7 (Fifo.empty 16), hctx := t.hctx.set 7 (some c), fctx := some c }

/-- The handler numbers of the task contexts of a voyage: per region and pattern, in image order (R291). -/
def Image.handlers (m : Image) : List (List (List (Fin 8 × Nat))) :=
  (m.regs.foldl (fun (acc, n) r =>
    let (ps, n) := r.pats.foldl (fun (ps, n) (p : Pat) =>
      let hs := (p.ctxs.filter (·.task)).zipIdx.map fun (c, i) => (c.ctx, n + i)
      (ps ++ [hs], n + hs.length)) (([] : List (List (Fin 8 × Nat))), n)
    (acc ++ [ps], n)) (([] : List (List (List (Fin 8 × Nat)))), 0)).1

/-- The stations of a region: every interior station of its rectangle, cleared, with the entries of the HTAB (R41), and those that patterns target,
configured. -/
def RegI.stations (r : RegI) (idx voy : Nat) (sp : Spots) (htab : List Nat) (slb : BitVec 6) (hs : List (List (Fin 8 × Nat))) : List Station :=
  let (die, px, py) := r.spot sp
  let pats := r.pats.zipIdx.map fun (p, i) => (p, p.targets px py, hs.getD i [])
  (List.range (4 * r.ph)).flatMap fun y => (List.range (4 * r.pw)).map fun x =>
    let t := Station.blank ⟨die, 4 * px + x, 4 * py + y⟩ (stationKind (4 * px + x) (4 * py + y)) voy idx x y slb
    let t := match pats.find? (fun q => q.2.1.contains (x, y)) with
      | some (p, _, h) => p.load htab slb h t
      | none => if (r.routes.any fun q => q.passes.any fun w => w.1 == x && w.2.1 == y) then t else { t with h := (Pat.bare t.kind).handles htab }
    match r.flt with
    | some (fx, fy, fc) => if fx = x ∧ fy = y then t.faultQueue fc else t
    | none => t

/-! ### Die-link and cross-device edges (R22, R25, R150, R467) -/

/-- Outbound and inbound edges that a port station of a die serves now. -/
def Hop.atPort (h : Hop) (die i : Nat) : Bool := h.holder == some (.port die i)
def Route.outAt (r : Route) (die i : Nat) : Bool := r.hops.any fun h => h.kind == .mesh && h.atPort die i
def Route.inAt (r : Route) (die i : Nat) : Bool := r.hops.any fun h => (h.kind == .stream || h.kind == .cross) && h.atPort die i

/-- The nearest port with room for one more edge, the lower index first (R150). -/
def nearPort (rs : List Route) (die : Nat) (x y : Nat) (inbound : Bool) : Option Nat :=
  leastBy (fun i => [meshDist (x, y) (portXY i), i])
    ((List.range 96).filter fun i => decide ((rs.filter fun r => if inbound then r.inAt die i else r.outAt die i).length < 8))

/-- The receiver FIFOs along a path: 4 entries, 20 at a pass-through station; one on the edge belongs to a port. -/
def meshHops (die : Nat) (port : Option Nat) (pass : List (Int × Int)) (path : List (Int × Int)) : List Hop :=
  path.map fun (x, y) =>
    { kind := .mesh, fifo := Fifo.empty (if pass.contains (x, y) then 20 else 4), die := die, cw := false,
      holder := if 0 ≤ x ∧ x < 56 ∧ 0 ≤ y ∧ y < 40 then some (.station ⟨die, x.toNat, y.toNat⟩) else port.map (.port die) }

/-- The FIFOs of a route of the image, given the routes already placed; none where a port or a way is missing. -/
def State.routeHops (s : State) (rs : List Route) (m : Image) (sp : Spots) (r : RegI) (t : RouteI) : Option (List Hop × List (StId × Fin 8)) :=
  let (die, px, py) := r.spot sp
  let at' (x y : Nat) : Int × Int := ((4 * px + x : Nat), (4 * py + y : Nat))
  let sta (x y : Nat) : StId := ⟨die, 4 * px + x, 4 * py + y⟩
  let pass := t.passes.map fun (x, y, _) => at' x y
  let via := t.via.map fun (x, y) => at' x y
  let src := at' t.x t.y
  match t.dest with
  | .mesh x y c => some (meshHops die none pass (meshPath src (via ++ [at' x y])).dropLast, [(sta x y, Fin.ofNat 8 c)])
  | .bus ds =>
    some ([{ kind := .bus, fifo := Fifo.empty 4, die := die, cw := false, holder := some (.station (sta t.x t.y)) }],
      ds.map fun (x, y, c) => (sta x y, Fin.ofNat 8 c))
  | .die g x y c =>
    match m.regs[g]? with
    | none => none
    | some far =>
      let (fd, fx, fy) := far.spot sp
      let ax := 4 * fx + x
      let ay := 4 * fy + y
      match nearPort rs die (4 * px + t.x) (4 * py + t.y) false, nearPort rs fd ax ay true, s.dieWay die fd with
      | some i, some j, some (cw, way) =>
        let links : List Hop := (die :: way.dropLast).zipIdx.map fun (d, k) =>
          { kind := if k = 0 then .dieLink else .forward, fifo := Fifo.empty 64, die := d, cw := cw, holder := some (.station ⟨fd, ax, ay⟩) }
        some (meshHops die (some i) pass (meshPath src (via ++ [portXY i])) ++ links ++
            [{ kind := .stream, fifo := Fifo.empty 16, die := fd, cw := false, holder := some (.port fd j) }] ++
            meshHops fd none [] (meshPath (portXY j) [((ax : Int), (ay : Int))]).dropLast,
          [(⟨fd, ax, ay⟩, Fin.ofNat 8 c)])
      | _, _, _ => none
  | .cross false _ _ =>
    match nearPort rs die (4 * px + t.x) (4 * py + t.y) false with
    | some i => some (meshHops die (some i) [] (meshPath src [portXY i]), [])
    | none => none
  | .cross true _ _ =>
    match nearPort rs die (4 * px + t.x) (4 * py + t.y) true with
    | some j =>
      some ({ kind := .cross, fifo := Fifo.empty 256, die := die, cw := false, holder := some (.port die j) } ::
          meshHops die none [] (meshPath (portXY j) [src]).dropLast, [(sta t.x t.y, Fin.ofNat 8 t.out)])
    | none => none

/-- Place a route. -/
def State.addRoute (s : State) (m : Image) (sp : Spots) (voy reg : Nat) (r : RegI) (t : RouteI) : Option State :=
  let (die, px, py) := r.spot sp
  match s.routeHops s.routes m sp r t with
  | none => none
  | some (hops, dests) =>
    let asid := match s.voyage? voy with | some v => v.asid | none => 0
    let cross := match t.dest with | .cross inb p k => some (p, inb, BitVec.ofNat 16 k) | _ => none
    let inb := match t.dest with | .cross true _ _ => true | _ => false
    let link := match t.dest with
      | .cross _ p _ => let ls := (if (s.boundUp asid p).isEmpty then s.bound asid p else s.boundUp asid p); ls.getD (s.nextId % (Nat.max ls.length 1)) 0
      | _ => 0
    let q : Route :=
      { id := s.nextId, voy := voy, reg := reg, src := if inb then ⟨4, 0, 0⟩ else ⟨die, 4 * px + t.x, 4 * py + t.y⟩, out := Fin.ofNat 8 t.out,
        hops := hops, dests := dests, bus := match t.dest with | .bus _ => true | _ => false, cross := cross, joined := false, closed := false, link := link,
        held := 0 }
    some { s with routes := s.routes ++ [q] }.fresh.draw

/-- Edges that a die slot needs: outbound, inbound (R43, R150). -/
def Image.edgeNeed (m : Image) (slot : Nat) : Nat × Nat :=
  m.regs.foldl (fun (o, i) r => r.routes.foldl (fun (o, i) t =>
    match t.dest with
    | .die g _ _ _ =>
      (if r.slot = slot then o + 1 else o, if (m.regs[g]?.map (·.slot)) = some slot then i + 1 else i)
    | .cross false _ _ => (if r.slot = slot then o + 1 else o, i)
    | .cross true _ _ => (o, if r.slot = slot then i + 1 else i)
    | _ => (o, i)) (o, i)) (0, 0)

/-- Edges that a die's port stations serve now. -/
def State.edgeUse (s : State) (die : Nat) : Nat × Nat :=
  s.routes.foldl (fun (o, i) r =>
    (o + (if (List.range 96).any (fun p => r.outAt die p) then 1 else 0), i + (if (List.range 96).any (fun p => r.inAt die p) then 1 else 0))) (0, 0)

def portEdges : Nat := 768

/-! ### Domains and participants (R231, R237, R252, R390, R470) -/

/-- The ports that a pattern's rules use through entries of its own (`own`) or of the HTAB, and whether versioned. -/
def Pat.ports (p : Pat) (htab : List Nat) (own : Bool) : List (Nat × Bool) :=
  p.words.flatMap fun (_, i) =>
    let u := i.uses
    let ord := u.dom.filterMap fun n =>
      match p.handle htab n.val with
      | some h => if h.ordered then some (n, h) else none
      | none => none
    (ord.take 1).filterMap fun (n, h) =>
      if (p.hs.any fun e => e.1 == n.val) == own then some (h.port.toNat, h.space == .dev && (u.vers || i.flagged || (i.byHandle && h.vers))) else none

/-- The entries through which a pattern's plain loads, stores, reductions and copies go, which a page with VERS makes versioned accesses (R244). -/
def Pat.plain (p : Pat) (htab : List Nat) : List HEntry :=
  p.words.flatMap fun (_, i) =>
    if i.byPage then (i.uses.dom.filterMap fun n => p.handle htab n.val).filter fun h => h.ordered && h.space == .dev else []

def sortNat (l : List Nat) : List Nat := (l.eraseDups).mergeSort (fun a b => decide (a ≤ b))

/-- The entry through which an address generator of a region loads (R237). -/
def RegI.agenHandle (r : RegI) (sp : Spots) (htab : List Nat) (src : DomSrc) : Option HEntry :=
  let (_, px, py) := r.spot sp
  (r.edges.filterMap fun e => e.gen?.bind fun g =>
    if src = .agen e.side (e.absOff px py) ∧ !g.pref then HEntry.ofBits? (htab.getD g.hidx.val 0) else none).head?

/-- The domains of a region as `afas` numbers them: ports, address generators, tree engines. -/
def RegI.domains (r : RegI) (sp : Spots) (htab : List Nat) : List (DomSrc × Nat × Nat × Bool) :=
  let (die, px, py) := r.spot sp
  let ps := r.pats.flatMap (·.ports htab true)
  let qs := r.pats.flatMap (·.ports htab false)
  let vers (k : Nat) : Bool := (ps ++ qs).any fun q => q.1 == k && q.2
  ((sortNat (ps.map (·.1))).map fun k => (DomSrc.rules, die, k, vers k)) ++
    (r.edges.filterMap fun e => e.gen?.map fun g =>
      (DomSrc.agen e.side (e.absOff px py), die, agenPort e.side (e.absOff px py) g.cw, false)) ++
    (r.pats.flatMap fun p =>
      let hs := p.words.flatMap fun (_, i) => i.treeHandles
      let ks := sortNat (hs.filterMap fun n => if p.hs.any (fun e => e.1 == n.val) then (p.handle htab n.val).map (·.port.toNat) else none)
      (p.targets px py).flatMap fun (x, y) => ks.map fun k => (DomSrc.tree ⟨die, 4 * px + x, 4 * py + y⟩, die, k, false))

/-- The ports of a region that only the HTAB declares (R470). -/
def RegI.extraPorts (r : RegI) (htab : List Nat) : List (Nat × Bool) :=
  let ps := (r.pats.flatMap (·.ports htab true)).map (·.1)
  let qs := r.pats.flatMap (·.ports htab false)
  (sortNat ((qs.map (·.1)).filter fun k => !ps.contains k)).map fun k => (k, qs.any fun q => q.1 == k && q.2)

/-- The domains of a voyage, numbered from DOMB. -/
def Image.domains (m : Image) (sp : Spots) (htab : List Nat) (voy : Nat) (domb : Nat) : List Domain :=
  let own := m.regs.zipIdx.flatMap fun (r, i) => (r.domains sp htab).map fun d => (i, d)
  let extra := m.regs.zipIdx.flatMap fun (r, i) =>
    let (die, _, _) := r.spot sp
    (r.extraPorts htab).map fun (k, v) => (i, (DomSrc.rules, die, k, v))
  (own ++ extra).zipIdx.map fun ((i, src, die, k, v), n) => Domain.fresh voy i die k src (BitVec.ofNat 12 (domb + n)) v

/-! ### Barriers (R287, R288) -/

/-- The entries that a voyage uses: scope, instance, id, in increasing id order. -/
def Image.barriers (m : Image) (sp : Spots) (voy : Nat) : List BarKey :=
  let used := m.regs.flatMap fun r =>
    let (die, _, _) := r.spot sp
    r.pats.flatMap fun p => p.words.filterMap fun (_, i) =>
      match i.barrier? with
      | some (.quad, _) => none
      | some (s, id) => some (⟨voy, s, if s = .die then die else 0, id⟩ : BarKey)
      | none => none
  used.eraseDups.mergeSort fun a b => decide (a.id.toNat ≤ b.id.toNat)

/-- Hardware entries of a scope: 64 per die, 16 per package, 8 per pod. -/
def barRoom : Scope → Nat
  | .die => 64
  | .pkg => 16
  | _ => 8

end Sys2Proof.Machine
end

