-- ==== Sys2Proof/Machine/Queue.lean ====
section
/-! DEFINITION. Launch queues: register blocks, packets and their checks, no-ops, dependency waits, ACQ and launches (R37-R43, R450, R456, R469). -/

namespace Sys2Proof.Machine

open Sys2Proof

/-! ### Register blocks (R37) -/

def Queue.reset (n : Nat) : Queue :=
  { n := n, base := 0, wr := 0, rd := 0, en := false, asid := 0, stop := false, err := 0, fail := 0, wait := .none, live := [], poll := 0 }

/-- A queue that nothing has written stands at reset. -/
def State.queue (s : State) (n : Nat) : Queue := (s.queues.find? (fun k => k.n == n)).getD (Queue.reset n)

def State.modQueue (s : State) (n : Nat) (f : Queue → Queue) : State :=
  { s with queues := { f (s.queue n) with n := n } :: s.queues.filter fun k => k.n ≠ n }

/-- A queue stops with a code; its launch that waits for space is given up (R38). -/
def State.stopQueue (s : State) (n : Nat) (code : Byte) : State :=
  { s with launches := s.launches.filter fun l => !(l.queue == n && l.resume.isNone) }.modQueue n fun k =>
    { k with stop := true, err := code, wait := .none }

/-- A configuration-load failure: code 0x10, located by QFAIL (R48). -/
def State.failQueue (s : State) (n : Nat) (f : BadWord) : State := (s.stopQueue n 0x10).modQueue n fun k => { k with fail := f.qfail }

/-- Packets between QRDIDX and QWRIDX (R38). -/
def Queue.valid (k : Queue) : Nat := (k.wr - k.rd).toNat

/-- LOG2N and the ring's base (Table 2.1). -/
def Queue.log (k : Queue) : Nat := fld k.base.toNat 59 5
def Queue.ring (k : Queue) : Nat := fld k.base.toNat 6 49 * 64

/-- A queue with a packet to process. -/
def Queue.idle (k : Queue) : Bool := k.en && !k.stop && k.wait == .none && k.wr != k.rd

/-! ### Packets (R39-R41) -/

def Packet.kind (p : Packet) : Nat := fld p[0].toNat 0 4
def Packet.acq (p : Packet) : Bool := p[0].getLsbD 4
def Packet.rel (p : Packet) : Bool := p[0].getLsbD 5
def Packet.pe (p : Packet) : Bool := p[0].getLsbD 6
def Packet.pa (p : Packet) : Bool := p[0].getLsbD 7
def Packet.prio (p : Packet) : Nat := fld p[0].toNat 9 2
def Packet.asc (p : Packet) : Nat := fld p[0].toNat 11 3
def Packet.rsc (p : Packet) : Nat := fld p[0].toNat 14 3
def Packet.dmask (p : Packet) : Nat := fld p[0].toNat 17 4
def Packet.pw (p : Packet) : Nat := fld p[0].toNat 21 4
def Packet.ph (p : Packet) : Nat := fld p[0].toNat 25 4
def Packet.slb (p : Packet) : BitVec 6 := p[0].extractLsb' 29 6
def Packet.domb (p : Packet) : Nat := fld p[0].toNat 35 12
def Packet.caddr (p : Packet) : Nat := p[5].toNat
def Packet.cval (p : Packet) : Nat := p[6].toNat

/-- The dies of DMASK, lowest first. -/
def Packet.dies (p : Packet) : List Nat := bitsSet p.dmask 4

/-- Whether a reserved field of a packet is nonzero (R39-R41). DESIGN CHOICE (log 85): the low bits of a field that must be aligned (ARGS, HTAB, CADDR and
the address of a dependency wait) and bits [63:2] of word 4 of a dependency wait count as reserved; the spec gives no consequence for them. -/
def Packet.reserved (p : Packet) : Bool :=
  let w (i : Fin 8) : Nat := p[i].toNat
  match p.kind with
  | 1 => fld (w 0) 47 17 != 0 || fld (w 1) 0 6 != 0 || fld (w 1) 55 9 != 0 || fld (w 2) 0 6 != 0 || fld (w 3) 0 6 != 0 || fld (w 5) 0 3 != 0
  | k => fld (w 0) 6 5 != 0 || fld (w 0) 17 47 != 0 ||
      (k == 2 && (fld (w 1) 0 3 != 0 || fld (w 4) 2 62 != 0 || w 5 != 0 || w 6 != 0 || w 7 != 0))

/-- The code that a malformed packet stops its queue with (Table 2.4). -/
def Packet.error? (p : Packet) : Option Byte :=
  if 3 ≤ p.kind ∨ p.reserved then some 0x01
  else if p.asc < 3 ∨ 5 < p.asc ∨ p.rsc < 3 ∨ 5 < p.rsc ∨ (p.kind = 1 ∧ p.slb = 63) then some 0x02
  else none

/-- What reading the packet at QRDIDX comes to: the packet, the code that its queue stops with, or a wait of the Helm for a frame of a die's pool. -/
inductive Next
  | packet (p : Packet) (s : State) | stop (code : Byte) | frames (die : Nat)

/-- The packet at QRDIDX. DESIGN CHOICE (log 85): a LOG2N out of range stops the queue when its next packet is to be read, not when QBASE is written. -/
def State.nextPacket (s : State) (k : Queue) : Next :=
  if k.log < 4 ∨ 16 < k.log then .stop 0x07
  else if 2 ^ k.log < k.valid then .stop 0x05
  else match s.helmRead s.helmDie k.asid (k.ring + 64 * (k.rd.toNat % 2 ^ k.log)) 64 false with
    | .error (.frames d) => .frames d
    | .error _ => .stop 0x06
    | .ok (x, s) =>
      let p : Packet := Vector.ofFn fun i : Fin 8 => BitVec.ofNat 64 (x / 2 ^ (64 * i.val))
      match p.error? with
      | some c => .stop c
      | none => .packet p s

/-- Process the next packet of a queue if it is of a kind: one with ACQ waits for every earlier packet (R42). -/
def State.process (s : State) (n kind : Nat) (f : State → Queue → Packet → State) : State :=
  let k := s.queue n
  if !k.idle then s
  else match s.nextPacket k with
    | .stop _ => s
    | .frames _ => s
    | .packet p s =>
      if p.kind ≠ kind then s
      else if p.acq && !k.live.isEmpty then s.modQueue n fun k => { k with wait := .acq }
      else f s k p

/-- The packet is passed. -/
def State.passPacket (s : State) (n : Nat) : State := s.modQueue n fun k => { k with rd := k.rd + 1, wait := .none }

/-! ### Events of a queue -/

/-- QWRIDX_WRITE (R38, R450, R451, R456): the owner's write index; in minimal mode the pilot cores stop the queue. -/
def execQwridxWrite (s : State) : Host.Outcome State Fault Refusal :=
  match s.ev with
  | .qwr n v m =>
    if !(s.owned && decide (s.owner.toNat = m)) then .next s
    else
      let s := s.modQueue n fun k => { k with wr := v }
      .next (if s.state = 2 then s.stopQueue n 0x0A else s)
  | _ => .next s

/-- The codes at which a packet has failed, and re-enabling passes it (R38). -/
def failedPacket (c : Byte) : Bool := [0x01, 0x02, 0x03, 0x04, 0x06, 0x08, 0x10].contains c.toNat

/-- QUEUE_REENABLE (R38): EN 0 and then EN 1 on a stopped queue. -/
def execQueueReenable (s : State) : Host.Outcome State Fault Refusal :=
  match s.ev with
  | .queue n =>
    let k := s.queue n
    if !(k.en && k.stop) then .next s
    else .next (s.modQueue n fun k => { k with stop := false, err := 0, rd := if failedPacket k.err then k.rd + 1 else k.rd, wait := .none })
  | _ => .next s

/-- NO_OP_PACKET (R39, R42): reached, and passed. Its release has nothing of the Helm's own to wait for. -/
def execNoOpPacket (s : State) : Host.Outcome State Fault Refusal :=
  match s.ev with
  | .queue n => .next (s.process n 0 fun s _ _ => s.passPacket n)
  | _ => .next s

/-- MALFORMED_PACKET (R38, R39, R43): the queue stops. -/
def execMalformedPacket (s : State) : Host.Outcome State Fault Refusal :=
  match s.ev with
  | .queue n =>
    let k := s.queue n
    if !k.idle then .next s
    else match s.nextPacket k with
      | .stop c => .next (s.stopQueue n c)
      | .frames _ => .next s
      | .packet .. => .next s
  | _ => .next s

/-- DEPENDENCY_WAIT_PACKET (R41): the packet blocks its queue. -/
def execDependencyWaitPacket (s : State) : Host.Outcome State Fault Refusal :=
  match s.ev with
  | .queue n => .next (s.process n 2 fun s _ _ => s.modQueue n fun k => { k with wait := .dep, poll := 0 })
  | _ => .next s

/-- The condition of a dependency-wait packet on the word at A. -/
def Packet.satisfied (p : Packet) (x : Nat) : Bool :=
  let y := x &&& p[3].toNat
  let v := p[2].toNat
  match fld p[4].toNat 0 2 with
  | 0 => y == v
  | 1 => y != v
  | 2 => decide (v ≤ y)
  | _ => decide (y < v)

/-- DEPENDENCY_RECHECK (R41): on a write to the line, and every 4,096 cycles. -/
def execDependencyRecheck (s : State) : Host.Outcome State Fault Refusal :=
  match s.ev with
  | .queue n =>
    let k := s.queue n
    if !(k.en && !k.stop && k.wait == .dep) then .next s
    else match s.nextPacket k with
      | .stop c => .next (s.stopQueue n c)
      | .frames d => .next (s.soon .poolBorrow (.die d))
      | .packet p s' =>
        match s'.helmRead s'.helmDie k.asid p[1].toNat 8 false with
        | .error (.frames d) => .next (s.soon .poolBorrow (.die d))
        | .error _ => .next (s.stopQueue n 0x06)
        | .ok (x, s) => .next (if p.satisfied x then s.passPacket n else s.modQueue n fun k => { k with poll := 4096 })
  | _ => .next s

/-- ACQ_PACKET_RELEASE (R42): every earlier packet of the queue has completed; the packet is processed next. -/
def execAcqPacketRelease (s : State) : Host.Outcome State Fault Refusal :=
  match s.ev with
  | .queue n => .next (if (s.queue n).wait = .acq ∧ (s.queue n).live = [] then s.modQueue n fun k => { k with wait := .none } else s)
  | _ => .next s

/-! ### Launches (R40, R43, R44, R134) -/

/-- The sixteen entries of a handle-table image. -/
def htabOf (x : Nat) : List Nat := (List.range 16).map fun i => fld x (256 * i) 256

/-- What placement takes from memory: the image and the handle table. -/
def State.readLaunch (s : State) (asid : BitVec 16) (p : Packet) : Helm (Img × List Nat × State) := do
  let (m, s) ← s.readImage asid p[1].toNat
  let (h, s) ← s.helmRead s.helmDie asid p[3].toNat 512 false
  return (m, htabOf h, s)

/-- The argument block is read (R43). DESIGN CHOICE (log 85): 64 bytes of it, since the spec gives no length. -/
def State.readArgs (s : State) (asid : BitVec 16) (p : Packet) : Helm State :=
  if p[2] = 0 then .ok s else (s.helmRead s.helmDie asid p[2].toNat 64 false).map (·.2)

/-- Whether an edge of the image has no way between its dies (R25). DESIGN CHOICE (log 85): an NMT-7204 of which both ways are cut is treated like the
grades with one. -/
def State.cutOff (s : State) (m : Image) (dies : List Nat) : Bool :=
  m.regs.any fun r => r.routes.any fun t =>
    match t.dest with
    | .die g _ _ _ => (match m.regs[g]? with | some f => s.apart (dies.getD r.slot 0) (dies.getD f.slot 0) | none => false)
    | _ => false

/-- A die that voyages may be launched on: its die bit and its Helm bit (R33). -/
def State.dieReady (s : State) (d : Nat) : Bool :=
  match s.die? d with | some x => x.live && x.ready.getLsbD 0 && x.ready.getLsbD 5 | none => false

/-- The code that an image and packet stop the queue with before placement (Table 2.4). A launch on dies that are not ready yet is held, whatever its links
(R33). -/
def State.launchError? (s : State) (m : Image) (p : Packet) : Option Byte :=
  if p.pw < m.pwmin ∨ 14 < p.pw ∨ p.ph < m.phmin ∨ 10 < p.ph ∨ (m.regs.any fun r => decide (p.pw < r.px + r.pw ∨ p.ph < r.py + r.ph)) then some 0x03
  else if p.dies.isEmpty ∨ p.dies.any (fun d => decide (s.grade.dies ≤ d)) ∨ p.dies.length < m.kslot then some 0x04
  else if (List.range m.kslot).any (fun k => let (o, i) := m.edgeNeed k; decide (portEdges < o ∨ portEdges < i)) then some 0x03
  else if p.dies.all s.dieReady && s.cutOff m p.dies then some 0x08
  else none

/-- A launch joins the Helm's waiting list; its queue waits for its placement (R42, R45). -/
def State.addLaunch (s : State) (n : Nat) (k : Queue) (p : Packet) : State :=
  let l : Launch := { id := s.nextId, queue := n, idx := k.rd.toNat, asid := k.asid, pkt := p, time := s.time, front := none, resume := none, starve := false }
  { s with launches := s.launches ++ [l] }.fresh.modQueue n fun k => { k with wait := .placing l.id }

/-- VOYAGE_LAUNCH_PACKET (R40, R43): image, arguments and handle table are read and checked; the launch waits for its place. -/
def execVoyageLaunchPacket (s : State) : Host.Outcome State Fault Refusal :=
  match s.ev with
  | .queue n =>
    .next (s.process n 1 fun s k p =>
      match (s.readLaunch k.asid p).bind fun (m, _, s) => (s.readArgs k.asid p).map fun s => (m, s) with
      | .error (.frames d) => s.soon .poolBorrow (.die d)
      | .error _ => s.stopQueue n 0x06
      | .ok (m, s) =>
        match m.parse with
        | none => s.failQueue n ⟨(p.dies.headD 0), 0, 0, true, 0, 0⟩
        | some g =>
          match s.launchError? g p with
          | some c => s.stopQueue n c
          | none => s.addLaunch n k p)
  | _ => .next s

end Sys2Proof.Machine
end

