-- ==== Sys2Proof/Machine/Retire.lean ====
section
/-! DEFINITION. How regions and voyages end: status areas (R437, R438), retirement and completion (R49, R141, R307), halts (R439),
time limits (R256, R292), quiescence (R60, R61). -/

namespace Sys2Proof.Machine

open Sys2Proof

/-! ### The status area (R437, R438) -/

/-- The VA of a region's save block; none without a SAVEBASE. -/
def State.saveBlock (s : State) (asid : BitVec 16) (save k : Nat) : Option Nat :=
  (s.saveBases.find? (fun b => b.1 == asid)).map fun b => b.2.toNat + (64 * save + k) * 2 ^ 31

/-- The write of a region's Helm into its save block; none without a SAVEBASE. -/
def State.saveWrite (s : State) (v : Voyage) (r : Region) (off n x : Nat) : List Owed :=
  match s.saveBlock v.asid v.save r.idx with
  | none => []
  | some b => [⟨r.die, v.asid, b + off, n, x⟩]

/-- Helm writes that must all perform, in order: those of a save (R469). -/
def State.storeAll (s : State) (ws : List Owed) : Helm State := ws.foldlM (fun (s : State) w => s.helmStore w.die w.asid w.va w.n w.x) s

/-- Status writes perform in order; one that cannot be performed is lost, and one for which no frame can be had waits with those behind it (log 16). -/
def State.flush : List Owed → State → List Owed × State
  | [], s => ([], s)
  | w :: r, s =>
    match s.helmStore w.die w.asid w.va w.n w.x with
    | .ok s => State.flush r s
    | .error (.frames d) => (w :: r, s.soon .poolBorrow (.die d))
    | .error _ => State.flush r s

/-- A voyage's Helms perform what they owe, and then these writes. -/
def State.owe (s : State) (v : Nat) (ws : List Owed) : State :=
  match s.voyage? v with
  | none => s
  | some u => let (rest, s) := State.flush (u.owed ++ ws) s; s.modVoyage v fun u => { u with owed := rest }

/-- The first word of a status area. -/
def Region.status (r : Region) (st : Nat) : Nat :=
  r.code.toNat + st * 2 ^ 8 + (match r.slotImg with | some k => k % 2 * 2 ^ 16 + 2 ^ 18 | none => 0)

/-- The stations of a region, in the order of R61. -/
def State.stationsOf (s : State) (voy reg : Nat) : List Station := s.stations.filter fun t => t.voy == voy && t.reg == reg

/-- The counters of a region: cycles, size, overdue and repair counters. -/
def State.counterWrites (s : State) (v : Voyage) (r : Region) : List Owed :=
  let ts := s.stationsOf v.id r.idx
  let ds := (s.domains.filter fun d => d.voy == v.id && d.reg == r.idx).take 256
  s.saveWrite v r 0x08 8 r.clk ++ s.saveWrite v r 0x10 4 (4 * r.pw + 4 * r.ph * 2 ^ 16) ++
    s.saveWrite v r 0x4680 (4 * ts.length) (packLanes 32 (ts.map fun t => t.overdue.toNat)) ++
    s.saveWrite v r 0x6980 (4 * ds.length) (packLanes 32 (ds.map fun d => d.repairs.toNat))

/-- The status word and the generation of the latest complete image. -/
def State.stateWrites (s : State) (v : Voyage) (r : Region) (st : Nat) : List Owed :=
  s.saveWrite v r 0 8 (r.status st) ++ s.saveWrite v r 0x18 8 r.imgGen

/-- STATE and the counters, as the Helm writes them when a region retires, halts or is saved. -/
def State.statusWrites (s : State) (v : Voyage) (r : Region) (st : Nat) : List Owed := s.stateWrites v r st ++ s.counterWrites v r

/-- The halt record of a region (R438, R439). -/
def haltRecord (r : Region) (payload : BitVec 128) : Nat :=
  payload.toNat + r.clk % 2 ^ 64 * 2 ^ 128 + (r.die + r.px * 2 ^ 8 + r.py * 2 ^ 16) * 2 ^ 192

/-! ### Leaving the versioned spaces (R252) -/

/-- The marks of a region's domains become all ones; those of the sequencer of its die too, when no other region of the voyage runs there. -/
def State.leaveMarks (s : State) (v : Voyage) (r : Region) : State :=
  let s := (s.domains.filter fun d => d.voy == v.id && d.reg == r.idx).foldl (fun s d => s.raiseMark v.asid (.domain v.id d.num) markAll) s
  if v.regions.any fun q => q.idx != r.idx && q.die == r.die && (q.st == .running || q.st == .waiting) then s
  else s.raiseMark v.asid (.sequencer v.id r.die) markAll

/-! ### Plats and completion (R49, R307) -/

/-- Whether a copy has an end in station storage: its own station's, or a window. -/
def Copy.onPlats (k : Copy) : Bool := [k.src.h.space, k.dst.h.space].any fun p => p == .loc || p == .win

/-- A voyage's copies of a kind go, with their requests. -/
def State.dropCopies (s : State) (v : Nat) (gone : Copy → Bool) : State :=
  let ks := s.copies.filter fun (k : Copy) => k.voy == v && gone k
  { s with
    copies := s.copies.filter fun (k : Copy) => !(k.voy == v && gone k)
    reqs := s.reqs.filter fun (q : Req) => !ks.any fun k => k.req == q.id }

/-- The voyage's plats, stations, routes, generators, barriers and tasks go; requests on their way perform. -/
def State.clearVoyage (s : State) (v : Nat) : State :=
  { s.dropCopies v Copy.onPlats with
    stations := s.stations.filter fun t => t.voy ≠ v
    routes := s.routes.filter fun r => r.voy ≠ v
    agens := s.agens.filter fun g => g.voy ≠ v
    bars := s.bars.filter fun b => b.key.voy ≠ v
    barMsgs := s.barMsgs.filter fun b => b.key.voy ≠ v
    tasks := s.tasks.filter fun t => t.voy ≠ v }.modVoyage v fun u => { u with pool := [] }

/-- A copy of the voyage has an end in its stations' storage. -/
def State.copiesOnPlats (s : State) (v : Nat) : Bool := s.copies.any fun k => k.voy == v && k.onPlats

/-- Work of a voyage that needs its stations: a tree operation, a copy with an end in their storage. The plats go only after it (log 88). -/
def State.busyPlats (s : State) (v : Nat) : Bool :=
  s.stations.any (fun t => t.voy == v && (t.sd.bind (·.eng)).any fun j => j.op != .walk) || s.copiesOnPlats v

/-- The lines of n bytes from a on are dropped, where the page lets `disc` drop them (R280): only whole lines lie inside. -/
def State.discardSpan (s : State) (asid : BitVec 16) (a n : Nat) : State :=
  match s.translate asid a false true with
  | .pa pa e =>
    if pteVers e ∨ s.cls pa ≠ .dev then s
    else ((s.l2.filter fun e => decide (pa ≤ 128 * e.1 ∧ 128 * e.1 + 128 ≤ pa + n)).map (·.1)).foldl State.discardLine s
  | _ => s

/-- A discard entry of the image (R141): pages of the area that the handle names, counted from its BASE; of the last one what lies within its SIZE. -/
def State.discardPages (s : State) (asid : BitVec 16) (h : HEntry) (first count : Nat) : State :=
  let n := Nat.min (count * 2 ^ 16) (h.size.toNat - first * 2 ^ 16)
  if h.space ≠ .dev then s else (pageParts (h.base.toNat + first * 2 ^ 16) n).foldl (fun s (a, m) => s.discardSpan asid a m) s

/-- A write of the voyage that has not performed (R307). -/
def State.writesLeft (s : State) (v : Nat) : Bool := s.reqs.any (fun q => q.voy == v && q.op.writes) || s.copies.any (fun k => k.voy == v)

/-- The voyage is over, its queue free of it. -/
def State.endVoyage (s : State) (v : Voyage) : State :=
  { s with
    voyages := s.voyages.filter fun u => u.id ≠ v.id
    saved := s.saved.filter fun e => e.1 ≠ v.save || e.2.held }.modQueue v.queue fun k => { k with live := k.live.filter (· ≠ v.id) }

/-- The completion value, or the halt word, goes to CADDR; its queue stops with 0x09 where it cannot be performed (R49, R439, R469). While no frame can be
had the Helm waits. -/
def State.signal (s : State) (v : Voyage) : State :=
  if v.pkt.caddr = 0 then s.endVoyage v
  else match s.helmStore s.helmDie v.asid v.pkt.caddr 8 v.pkt.cval with
    | .ok s => s.endVoyage v
    | .error (.frames d) => (s.modVoyage v.id fun u => { u with ended := true }).soon .poolBorrow (.die d)
    | .error _ => (s.stopQueue v.queue 0x09).endVoyage v

/-- Whether the completion write waits: with REL for the voyage's writes, and for what its Helms still have to write. -/
def State.held (s : State) (v : Voyage) : Bool := !v.owed.isEmpty || (v.pkt.rel && s.writesLeft v.id)

/-- The voyage is over, once nothing holds its completion write. -/
def State.finish (s : State) (v : Voyage) : State :=
  if s.held v then s.modVoyage v.id fun u => { u with ended := true } else s.signal v

/-- Every region has retired: plats, discard hints, CVAL, in this order (R49). A hint applies to the handles of the region's done station as they stand
then (R141, log 88). -/
def State.complete (s : State) (v : Voyage) : State :=
  let hs (r : Region) : Vector HEntry 16 := match s.station? (r.at r.dn.1.val r.dn.2.1.val) with | some t => t.h | none => r.htab
  let hints := v.regions.flatMap fun r => r.discards.map fun (i, p, n) => ((hs r)[Fin.ofNat 16 i], p, n)
  (hints.foldl (fun s (h, p, n) => s.discardPages v.asid h p n) (s.clearVoyage v.id)).finish v

/-- Whether a level-3 stop stands at the head of a region's done channel. -/
def State.doneStop (s : State) (r : Region) : Bool :=
  match s.station? (r.at r.dn.1.val r.dn.2.1.val) with
  | none => false
  | some t => match t.c[r.dn.2.2].head with | some k => k.stop == 3 && !k.f | none => false

/-- A voyage of which every region has retired. -/
def Voyage.retired (v : Voyage) : Bool := v.regions.all fun r => r.st == .retired

/-- A voyage that has halted. -/
def Voyage.halted (v : Voyage) : Bool := v.regions.any fun r => r.st == .halted

/-- A voyage that has halted leaves its plats once the copies that it had released have performed there; the halt word follows (R439, log 88). -/
def State.haltEnd (s : State) (v : Voyage) : State :=
  if s.copiesOnPlats v.id then s else (s.clearVoyage v.id).finish v

/-- What a voyage that comes to its end does next: its Helms write what they owe, its plats go, its completion write follows. -/
def State.wind (s : State) (v : Voyage) : State :=
  if !v.owed.isEmpty then s.owe v.id []
  else if v.ended then (if s.held v then s else s.signal v)
  else if v.halted then s.haltEnd v
  else if v.retired && !v.frozen && !s.busyPlats v.id then s.complete v
  else s

/-- REGION_RETIRE (R49): a region retires; with the last one the voyage completes. For a voyage, what it then waited for. -/
def execRegionRetire (s : State) : Host.Outcome State Fault Refusal :=
  match s.ev with
  | .region voy reg =>
    match s.voyage? voy, s.region? voy reg with
    | some v, some r =>
      if !(r.st == .running && !v.frozen && !r.frozen && s.doneStop r) then .next s
      else
        let s := s.modStation (r.at r.dn.1.val r.dn.2.1.val) fun t => t.modC r.dn.2.2 Fifo.pop
        let s := (s.modRegion voy reg fun r => { r with st := .retired }).leaveMarks v r
        let s := s.owe voy (s.statusWrites v r 1)
        match s.voyage? voy with
        | some v => .next (s.wind v)
        | none => .next s
    | _, _ => .next s
  | .voyage voy =>
    match s.voyage? voy with
    | some v => .next (s.wind v)
    | none => .next s
  | _ => .next s

/-! ### Halts (R439) -/

/-- The halt word. -/
def haltWord (code : Byte) (reg save : Nat) : Word := BitVec.ofNat 64 (save % 1024 + 2 * 2 ^ 32 + reg % 256 * 2 ^ 40 + code.toNat * 2 ^ 48 + 0xFF * 2 ^ 56)

/-- A saved voyage without an image. -/
def Saved.empty (v : Voyage) : Saved :=
  { voy := v, stations := [], routes := [], reqs := [], copies := [], domains := [], bars := [], msgs := [], tasks := [], agens := [], complete := false,
    held := false }

/-- What is saved of a voyage: a halt keeps it until the host discards it (R437). -/
def State.savedAt (s : State) (v : Voyage) : Saved := match s.saved.find? (fun e => e.1 == v.save) with | some e => e.2 | none => Saved.empty v

/-- Requests that a halt drops: those that their port still has, and those held for room in a cell (R253, R439). -/
def Req.heldBack (q : Req) : Bool := !q.released || match q.stage with | .room _ => true | _ => false

/-- Regions halt for a reason, and with them the voyage's other regions, with code 0 and an empty record: what their Helms record, and what goes at once.
What has been released performs, copies among it. A complete image of the voyage stays (R448). -/
def State.halting (s : State) (v : Voyage) (regs : List Nat) (code : Byte) (payload : BitVec 128) : State :=
  let v := { v with regions := v.regions.map fun (r : Region) =>
    let r := { r with frozen := false, snap := .none }
    if regs.contains r.idx then { r with st := .halted, code := code, haltRec := payload }
    else if r.st == RSt.retired then r else { r with st := .halted, code := 0, haltRec := 0 } }
  let v := { v with pkt := v.pkt.set 6 (haltWord code (regs.headD 0) v.save), dead := true, frozen := false, drain := none }
  let rs := v.regions.filter fun r => r.st == .halted
  let s := rs.foldl (fun (s : State) r => s.leaveMarks v r) { s with voyages := s.voyages.map fun (u : Voyage) => if u.id = v.id then v else u }
  let s := s.owe v.id (rs.flatMap fun r => s.statusWrites v r 2 ++ s.saveWrite v r 0x4640 64 (haltRecord r r.haltRec))
  let s := { s.dropCopies v.id (fun k => !k.run || k.wait.isSome) with
    saved := (v.save, { s.savedAt v with held := true }) :: s.saved.filter fun e => e.1 ≠ v.save }
  { s with reqs := s.reqs.filter fun (q : Req) => !(q.voy == v.id && q.heldBack) }

/-- Regions halt, and their voyage ends as soon as it can leave its plats. -/
def State.haltVoyage (s : State) (v : Voyage) (regs : List Nat) (code : Byte) (payload : BitVec 128) : State :=
  let s := s.halting v regs code payload
  match s.voyage? v.id with
  | some v => s.haltEnd v
  | none => s

/-- Whether the `halt` of a region's program comes up in this cycle, which an unhandled fault gives way to (R448). -/
def State.haltComes (s : State) (voy reg : Nat) : Bool :=
  s.agenda.any fun e => match e.2 with | .halt v r c _ => v == voy && r == reg && c == 0x0C | _ => false

/-- REGION_HALT (R439). -/
def execRegionHalt (s : State) : Host.Outcome State Fault Refusal :=
  match s.ev with
  | .halt voy reg code payload =>
    match s.voyage? voy, s.region? voy reg with
    | some v, some r =>
      if v.ended || !(r.st == .running || r.st == .waiting) || (code != 0x0C && s.haltComes voy reg) then .next s else .next (s.haltVoyage v [reg] code payload)
    | _, _ => .next s
  | _ => .next s

/-! ### Time limits (R256, R292) -/

/-- Fault class of a withheld access (Table 10.8): CODE and INFO kind; a wait for frames counts as the event that needed them. -/
def State.limitFault (s : State) (why : Held) (asid : BitVec 16) (va : Nat) (acc : Nat) : FaultC :=
  let cow (i : Nat) : FaultC := ⟨0x04, i, va⟩
  match why with
  | .copyOnWrite => cow 0
  | .decompress => cow 1
  | .noFrame _ =>
    match s.walk asid va with
    | .leaf _ e => if pteKind e = 2 then cow 0 else if pteKind e = 0 then cow 1 else transFault 1 acc va
    | _ => transFault 1 acc va
  | _ => transFault 1 acc va

/-- The class for an access to [va, va + n), judged at the first of its pieces that is withheld (R256, R270). -/
def State.limitIn (s : State) (why : Held) (asid : BitVec 16) (va n : Nat) (rd wr : Bool) (acc : Nat) : Option FaultC :=
  ((lineParts va n).find? fun (a, _) => match s.translate asid a rd wr with | .held _ => true | _ => false).map fun (a, _) => s.limitFault why asid a acc

/-- The class for a withheld request, and for the piece of a withheld copy: its source, and then its destination. -/
def State.limitReq (s : State) (why : Held) (q : Req) : FaultC :=
  let n := match q.parts with | (_, _, n) :: _ => n | [] => q.bytes
  (s.limitIn why q.asid q.va n q.op.reads q.op.writes q.acc).getD (s.limitFault why q.asid q.va q.acc)

def State.limitCopy (s : State) (why : Held) (k : Copy) : FaultC :=
  let (a, b, n) := k.piece
  let side (e : CopyEnd) (x : Int) (rd wr : Bool) : Option FaultC := if e.h.space = .dev then s.limitIn why k.asid x.toNat n rd wr accCopy else none
  ((side k.src a true false).orElse fun _ => side k.dst b false true).getD (s.limitFault why k.asid a.toNat accCopy)

/-- Whether a region has halted. -/
def State.regionHalted (s : State) (voy reg : Nat) : Bool := (s.region? voy reg).any fun r => r.st == .halted

/-- A region's limit has run out: the voyage drains with the class as its code, or, in an address space without SAVEBASE, the region halts (R454). One that
has halted stays so. -/
def State.expire (s : State) (voy reg : Nat) (t : Station) (ctx : Fin 8) (slot : Fin 32) (f : FaultC) : State :=
  match s.voyage? voy, s.regionHalted voy reg with
  | none, _ => s
  | _, true => s
  | some v, false =>
    let s := s.modRegion voy reg fun r => { r with code := BitVec.ofNat 8 f.code }
    match s.saveBlock v.asid v.save reg with
    | some _ => s.soon .drain (.drain voy 1)
    | none => s.later .regionHalt (.halt voy reg (BitVec.ofNat 8 f.code) ((faultPayload t ctx slot f).extractLsb' 0 128))

/-- What the limit brings for a withheld request; one that a halted region has left is dropped, with the copy that it works for (log 88). -/
def State.expireReq (s : State) (w : Held) (q : Req) (t : Station) : State :=
  if s.regionHalted q.voy q.reg then
    let s := s.dropReq q.id
    match q.op with
    | .part c _ _ => (match s.copy? c with | some k => s.endCopy k | none => s)
    | _ => s
  else s.expire q.voy q.reg t q.ctx q.slot (s.limitReq w q)

/-- TIME_LIMIT_EXPIRY (R256, R465): for a request, a copy, the tree engine of a station, or an edge with no link of its set left, whose class is that of a
page that is not present, for a store (log 105). A request or a copy that a halted region has left is dropped (log 88). -/
def execTimeLimitExpiry (s : State) : Host.Outcome State Fault Refusal :=
  let limit (voy reg : Nat) : Nat := match s.region? voy reg with | some r => r.tlim | none => 0
  match s.ev with
  | .req id =>
    match s.req? id with
    | some q =>
      match s.heldBack q, s.station? q.st with
      | some w, some t => .next (if limit q.voy q.reg ≤ q.held then s.expireReq w q t else s)
      | _, _ => .next s
    | none => .next s
  | .copy id =>
    match s.copy? id with
    | some k =>
      match k.wait, s.station? k.st with
      | some w, some t =>
        .next (if limit k.voy k.reg ≤ k.held then
          (if s.regionHalted k.voy k.reg then s.endCopy k else s.expire k.voy k.reg t k.ctx k.slot (s.limitCopy w k)) else s)
      | _, _ => .next s
    | none => .next s
  | .route id =>
    match s.routeId? id with
    | some r =>
      match s.cutEdge r, s.station? r.src with
      | true, some t => .next (if limit r.voy r.reg ≤ r.held then s.expire r.voy r.reg t 0 0 (transFault 1 accStore 0) else s)
      | _, _ => .next s
    | none => .next s
  | .st i =>
    match s.station? i with
    | some t =>
      match t.sd.bind (·.eng) with
      | some j =>
        match j.wait, s.voyage? t.voy with
        | some (w, va), some v =>
          .next (if limit t.voy t.reg ≤ j.held then s.expire t.voy t.reg t j.ctx j.slot (s.limitFault w v.asid va accTree) else s)
        | _, _ => .next s
      | none => .next s
    | none => .next s
  | _ => .next s

/-! ### Quiescence (R60, R61) -/

/-- The occupancy snapshot of a region: a byte for each channel, with the entries of its routes' pass-through stations. -/
def State.occupancy (s : State) (t : Station) : Nat :=
  packLanes 8 ((List.finRange 8).map fun c =>
    let through := (s.routes.filter fun r => r.dests.contains (t.id, c)).foldl (fun n r =>
      (r.hops.filter fun h => h.fifo.cap == 20).foldl (fun n h => n + h.fifo.q.length) n) 0
    (t.c[c].q.length + through) % 256)

/-- The header and the occupancies (R61). -/
def State.occupancyWrites (s : State) (v : Voyage) (r : Region) : List Owed :=
  let ts := s.stationsOf v.id r.idx
  s.saveWrite v r 0 8 (r.status 0) ++ s.saveWrite v r 0x08 8 r.clk ++ s.saveWrite v r 0x10 4 (4 * r.pw + 4 * r.ph * 2 ^ 16) ++
    s.saveWrite v r 0x40 (8 * ts.length) (packLanes 64 (ts.map s.occupancy))

/-- The deadlock fault of a region: the station that its token names is the region's origin (log 41). -/
def deadlockFault : FaultC := ⟨0x09, 0, 0⟩

/-- QUIET_DEADLOCK (R60, R61): the deadlock fault in every unretired region. DESIGN CHOICE (logs 41, 86): the station, context, slot and slack counter of
its token, which the spec does not give. -/
def execQuietDeadlock (s : State) : Host.Outcome State Fault Refusal :=
  match s.ev with
  | .voyage voy =>
    match s.voyage? voy with
    | none => .next s
    | some v =>
      if v.quiet < 4096 ∨ v.dead then .next s
      else
        let s := v.regions.foldl (fun s r =>
          if r.st ≠ .running then s
          else
            let r := { r with code := 0x09 }
            let s := s.modRegion voy r.idx fun _ => r
            let s := s.owe voy (s.occupancyWrites v r)
            match s.station? (r.at 0 0) with
            | none => s
            | some t => s.pushFault voy r.idx (faultToken t 0 0 ⟨false, 0⟩ deadlockFault)) s
        .next (s.modVoyage voy fun v => { v with quiet := 0, dead := true })
  | _ => .next s

/-- DEADLOCK_HALT (R61): quiet for a further 4,096 cycles. DESIGN CHOICE (log 86): a region stays quiet while its voyage does, since R60 counts quiet
cycles for the voyage. -/
def execDeadlockHalt (s : State) : Host.Outcome State Fault Refusal :=
  match s.ev with
  | .region voy reg =>
    match s.voyage? voy, s.region? voy reg with
    | some v, some r =>
      if v.quiet < 4096 ∨ !v.dead ∨ r.st ≠ .running then .next s
      else
        let payload := match s.station? (r.at 0 0) with | some t => (faultPayload t 0 0 deadlockFault).extractLsb' 0 128 | none => 0
        .next (s.haltVoyage v [reg] 0x09 payload)
    | _, _ => .next s
  | _ => .next s

end Sys2Proof.Machine
end

