-- ==== Sys2Proof/Machine/Place.lean ====
section
/-! DEFINITION. Placement (R44-R48, R89, R150, R283, R287, R288, R437, R454, R466, R467): where a launch fits, what it configures, and what it pre-empts. -/

namespace Sys2Proof.Machine

open Sys2Proof

/-! ### The waiting list (R45) -/

/-- The order in which launches are attempted: priority, requeued ones first, arrival, queue. DESIGN CHOICE (log 100): the head of the waiting list (R46) is
the head of a launch's own priority, and requeued launches of one priority stand by the cycle in which they were requeued. -/
def Launch.rank (l : Launch) : List Nat := [3 - l.pkt.prio, if l.front.isSome then 0 else 1, l.time, l.queue]

/-- Launches in that order. -/
def State.waiting (s : State) : List Launch := sortBy Launch.rank s.launches

/-- A launch of higher priority has waited 2^21 cycles for a die. -/
def State.barred (s : State) (l : Launch) (d : Nat) : Bool :=
  s.launches.any fun k => k.starve && decide (l.pkt.prio < k.pkt.prio) && k.pkt.dmask.testBit d

/-- One that waits so for a die of a launch's mask keeps the launch from being placed. -/
def State.blocked (s : State) (l : Launch) : Bool := l.pkt.dies.any (s.barred l)

/-- LAUNCH_STARVE_BLOCK (R45). -/
def execLaunchStarveBlock (s : State) : Host.Outcome State Fault Refusal :=
  match s.ev with
  | .launch id =>
    .next { s with launches := s.launches.map fun (l : Launch) => if l.id = id ∧ 2 ^ 21 ≤ s.time - l.time then { l with starve := true } else l }
  | _ => .next s

/-! ### Fitting (R44, R85, R150, R283) -/

/-- Plats of a rectangle. -/
def plats (d px py pw ph : Nat) : List (Nat × Nat × Nat) :=
  (List.range ph).flatMap fun j => (List.range pw).map fun i => (d, px + i, py + j)

/-- Origins in first-fit order. -/
def origins (pw ph : Nat) : List (Nat × Nat) := (List.range (11 - ph)).flatMap fun y => (List.range (15 - pw)).map fun x => (x, y)

/-- Voyages with a plat in a rectangle. -/
def State.occupants (s : State) (d px py pw ph : Nat) : List Voyage :=
  s.voyages.filter fun v => v.pool.any fun (d', x, y) => d' == d && decide (px ≤ x ∧ x < px + pw ∧ py ≤ y ∧ y < py + ph)

/-- The address generators that a region names from an origin plat: side and offset on its die. -/
def RegI.agensAt (r : RegI) (px py : Nat) : List (Nat × Nat) := r.edges.map fun e => (e.side, e.absOff px py)

/-- The address generators of a die that voyages hold, those of some voyages apart. -/
def State.agensOf (s : State) (d : Nat) (but : List Voyage) : List (Nat × Nat) :=
  s.agens.filterMap fun g => if g.die == d && !but.any (fun v => v.id == g.voy) then some (g.side, g.off) else none

/-- A region may stand at an origin plat: its parity (R85), and its address generators free there (R283). -/
def RegI.fits (r : RegI) (taken : List (Nat × Nat)) (px py : Nat) : Bool :=
  (r.par == 0 || (px + py) % 2 == r.par.toNat - 1) && (r.agensAt px py).all fun a => !taken.contains a

/-- The regions of a die slot stand from an origin of its rectangle: no two of them name one generator. -/
def Image.slotFits (m : Image) (slot : Nat) (taken : List (Nat × Nat)) (px py : Nat) : Bool :=
  let rs := m.regs.filter fun r => r.slot == slot
  rs.all (fun r => r.fits taken (px + r.px) (py + r.py)) && decide ((rs.flatMap fun r => r.agensAt (px + r.px) (py + r.py)).Nodup)

/-- A die's ports have room for the edges of a die slot. -/
def State.edgesFit (s : State) (m : Image) (slot d : Nat) : Bool :=
  let (o, i) := m.edgeNeed slot
  let (a, b) := s.edgeUse d
  decide (a + o ≤ portEdges ∧ b + i ≤ portEdges)

/-- The cross-device edges of an image: peer, direction, key. -/
def Image.crossEdges (m : Image) : List (Nat × Bool × BitVec 16) :=
  m.regs.flatMap fun r => r.routes.filterMap fun t => match t.dest with | .cross inb p k => some (p, inb, BitVec.ofNat 16 k) | _ => none

/-- Every cross-device edge names a bound peer, and no other edge of the address space that is placed, or would be with it, has its peer, key and direction
(R465, R467). -/
def State.peersReady (s : State) (asid : BitVec 16) (m : Image) : Bool :=
  decide m.crossEdges.Nodup && m.crossEdges.all fun e =>
    !(s.bound asid e.1).isEmpty && !s.routes.any fun q => q.cross == some e && s.asidOf q.voy == some asid

/-- Every edge of the image has a way between its dies now. -/
def State.linked (s : State) (m : Image) (dies : List Nat) : Bool :=
  m.regs.all fun r => r.routes.all fun t =>
    match t.dest with
    | .die g _ _ _ => (match m.regs[g]? with | some f => (s.dieWay (dies.getD r.slot 0) (dies.getD f.slot 0)).isSome | none => true)
    | _ => true

/-- What a launch needs beside plats: ready dies, links between them, bound peers, room for its edges. -/
def State.served (s : State) (l : Launch) (m : Image) : Bool :=
  l.pkt.dies.all s.dieReady && s.linked m l.pkt.dies && s.peersReady l.asid m

/-- The first origin of each die that fits, over the dies of the mask; `ok` says whether the voyages of a rectangle may leave it. Their generators
count as free (R46). -/
def State.spotsBy (s : State) (m : Image) (p : Packet) (ok : List Voyage → Bool) : Option Spots :=
  p.dies.zipIdx.mapM fun (d, k) =>
    ((origins p.pw p.ph).find? fun (x, y) => let vs := s.occupants d x y p.pw p.ph; ok vs && m.slotFits k (s.agensOf d vs) x y).map fun (x, y) => (d, x, y)

/-- Where a launch fits now. -/
def State.spots (s : State) (l : Launch) (m : Image) : Option Spots :=
  if s.served l m && l.pkt.dies.zipIdx.all (fun (d, k) => s.edgesFit m k d) then
    s.spotsBy m l.pkt fun vs => vs.isEmpty
  else none

/-! ### Victims (R46, R454) -/

/-- A voyage that a launch may pre-empt: lower priority, PA, and an address space with a SAVEBASE. -/
def State.victim (s : State) (l : Launch) (v : Voyage) : Bool :=
  v.pkt.pa && decide (v.pkt.prio < l.pkt.prio) && (s.saveBlock v.asid v.save 0).isSome

/-- The voyages to drain for a launch with PE; none where some die has no origin. -/
def State.victims (s : State) (l : Launch) (m : Image) : List Nat :=
  if !(l.pkt.pe && s.served l m) then []
  else match s.spotsBy m l.pkt fun vs => vs.all (s.victim l) with
    | none => []
    | some sp => ((sp.flatMap fun (d, x, y) => s.occupants d x y l.pkt.pw l.pkt.ph).map (·.id)).eraseDups

/-! ### Cross-device edges (R466, R467) -/

/-- The edge of this device that a join flit names: direction, key, and a peer that is bound to the sending device. -/
def State.joinRoute (s : State) (f : Flit) (inbound : Bool) : Option Route :=
  let b := ofBytes f.body
  s.routes.find? fun r =>
    match r.cross, s.voyage? r.voy with
    | some (p, inb, key), some v =>
      inb == inbound && key == BitVec.ofNat 16 (fld b 64 16) &&
        s.bindings.any fun n => n.asid == v.asid && n.peer == p && n.device == BitVec.ofNat 64 b
    | _, _ => false

/-- A join flit: device id, key, direction, the peer number that the receiver has here (Table 23.8). -/
def joinBody (key : BitVec 16) (inbound : Bool) (p : Nat) : List Byte :=
  bytesOf 12 (Config.deviceId.toNat + key.toNat * 2 ^ 64 + bitAt inbound 80 + p % 128 * 2 ^ 88)

/-- A join flit for an outbound edge of the peer meets the placed inbound edge, and is answered; the answer joins the outbound edge (log 42). -/
def State.joinEdge (s : State) (link : Nat) (f : Flit) : Option State :=
  let inbound := fld (ofBytes f.body) 80 8 = 0
  match s.joinRoute f inbound with
  | none => none
  | some r =>
    let s := { s with routes := s.routes.map fun (q : Route) => if q.id = r.id then { q with joined := true } else q }
    match r.cross with
    | some (p, true, key) => some (s.modLink link fun l => l.send 5 0 (joinBody key true p))
    | _ => some s

/-- Join flits that wait are tried again. -/
def State.retryJoins (s : State) : State :=
  s.joins.foldl (fun s (n, f) =>
    match s.joinEdge n f with
    | some s' => { s' with joins := s'.joins.filter fun j => j ≠ (n, f) }
    | none => s) s

/-- A placed outbound edge is announced over its link, which is one of its peer's binding (R467). -/
def State.announce (s : State) (r : Route) : State :=
  match r.cross with
  | some (p, false, key) => s.modLink r.link fun l => l.send 5 0 (joinBody key false p)
  | _ => s

/-! ### Configuring (R47) -/

/-- The region record of a placed region. -/
def RegI.region (r : RegI) (idx : Nat) (sp : Spots) (htab : List Nat) : Region :=
  let (d, px, py) := r.spot sp
  { idx := idx, die := d, px := px, py := py, pw := r.pw, ph := r.ph, rpx := r.px, rpy := r.py, par := r.par, slotNo := r.slot,
    dn := (Fin.ofNat 64 r.dn.1.val, Fin.ofNat 64 r.dn.2.1.val, r.dn.2.2), flt := r.flt, mon := r.mon, tlim := r.tlim, clk := 0, st := .waiting,
    frozen := false, gen := 0, snap := .none, events := [], discards := r.discards,
    htab := Vector.ofFn fun i : Fin 16 => (HEntry.ofBits? (htab.getD i.val 0)).getD HEntry.empty, code := 0, haltRec := 0, slotImg := none, imgGen := 0 }

/-- The address generators of a region (R283-R285). -/
def RegI.agens (r : RegI) (idx voy : Nat) (sp : Spots) (htab : List Nat) : List Agen :=
  let (d, px, py) := r.spot sp
  r.edges.filterMap fun e => e.gen?.map fun g =>
    { die := d, side := e.side, off := e.absOff px py, voy := voy, reg := idx, base := g.base, dims := g.dims, pos := 0, done := false, pref := g.pref,
      wide := g.wide, h := (HEntry.ofBits? (htab.getD g.hidx.val 0)).getD HEntry.empty, c := g.ch, dst := ⟨d, 4 * px + g.dx, 4 * py + g.dy⟩, sl := g.sl,
      port := agenPort e.side (e.absOff px py) g.cw, outq := [] }

/-- The lowest save index that no voyage and no saved image holds (R437). -/
def State.saveIndex (s : State) : Option Nat :=
  (List.range 1024).find? fun k => !(s.voyages.any fun v => v.save == k) && !(s.saved.any fun e => e.1 == k)

/-- Cycles of the multicast: each pattern once, 64 bytes a cycle on each die (R47). -/
def Image.loadCycles (m : Image) : Nat :=
  (List.range m.kslot).foldl (fun n k => Nat.max n (((m.regs.filter fun r => r.slot == k).foldl (fun b r => b + r.bytes) 0 + 63) / 64)) 0

/-- The barrier entries of a voyage: hardware ones while they last, then spilled ones, zeroed in memory (R287, R288). -/
def State.addBars (s : State) (ks : List BarKey) : Helm State :=
  ks.foldlM (fun (s : State) k =>
    let used := (s.bars.filter fun b => !b.spilled && b.key.scope == k.scope && b.key.inst == k.inst).length
    if used < barRoom k.scope then .ok (s.setBar ⟨k, 0, 0, 0, [], false⟩)
    else match s.spillAddr k with
      | none => .error .fail
      | some (asid, va) => (s.helmStore (s.barHelm k) asid va 16 0).map fun s => s.setBar ⟨k, 0, 0, 0, [], true⟩) s

/-- Whether a page of a handle's area has VERS. -/
def State.versPages (s : State) (asid : BitVec 16) (h : HEntry) : Bool :=
  (pageParts h.base.toNat h.size.toNat).any fun (a, _) => match s.walk asid a with | .leaf _ e => pteVers e | _ => false

/-- The participants of versioned spaces that a voyage registers: domains whose rules, handles or pages make versioned accesses, those of address
generators among them, and task sequencers (R244, R252). -/
def State.addMarks (s : State) (asid : BitVec 16) (voy : Nat) (m : Image) (sp : Spots) (htab : List Nat) : State :=
  let paged (d : Domain) : Bool := (m.regs[d.reg]?).any fun r =>
    match d.src with
    | .rules => r.pats.any fun p => (p.plain htab).any fun h => h.port.toNat == d.port && s.versPages asid h
    | src => (r.agenHandle sp htab src).any (s.versPages asid)
  let s := { s with domains := s.domains.map fun (d : Domain) => if d.voy = voy ∧ paged d then { d with versioned := true } else d }
  let s := (s.domains.filter fun d => d.voy == voy && d.versioned).foldl (fun s d => s.join asid (.domain voy d.num)) s
  let ds := (m.regs.filterMap fun r => if r.pats.any (fun p => p.ctxs.any (·.task)) then some (r.spot sp).1 else none).eraseDups
  ds.foldl (fun s d => s.join asid (.sequencer voy d)) s

/-- Routes, in image order; none where a port has no room or a way is cut. -/
def State.addRoutes (s : State) (m : Image) (sp : Spots) (voy : Nat) : Option State :=
  m.regs.zipIdx.foldl (fun r (g, i) => g.routes.foldl (fun r t => r.bind fun s => s.addRoute m sp voy i g t) r) (some s)

/-- The pass words of placed routes whose stations the routes do not cross (R351). -/
def State.badPasses (s : State) (m : Image) (sp : Spots) (voy : Nat) : List BadWord :=
  m.regs.zipIdx.flatMap fun (r, i) =>
    let (d, px, py) := r.spot sp
    let at' (x y : Nat) : StId := ⟨d, 4 * px + x, 4 * py + y⟩
    r.routes.flatMap fun t =>
      let hops := match s.routes.find? (fun q => q.voy == voy && q.reg == i && q.src == at' t.x t.y && q.out.val == t.out) with
        | some q => q.hops | none => []
      t.passes.filterMap fun (x, y, _) =>
        if hops.any (fun h => h.kind == .mesh && h.die == d && h.holder == some (.station (at' x y))) then none else some ⟨d, x, y, true, 0, 0⟩

/-- What configuring a launch comes to: it does not fit after all, the Helm waits for a frame, its queue stops, or it is placed. -/
inductive Placed
  | no | frames (die : Nat) | stop (code : Byte) | bad (f : BadWord) | ok (s : State)

/-- The voyage record of a launch. -/
def Launch.voyage (l : Launch) (id save : Nat) (m : Image) (sp : Spots) (htab : List Nat) : Voyage :=
  { id := id, queue := l.queue, asid := l.asid, pkt := l.pkt, save := save, regions := m.regs.zipIdx.map fun (r, i) => r.region i sp htab,
    quiet := 0, moved := false, dead := false, pool := sp.flatMap fun (d, x, y) => plats d x y l.pkt.pw l.pkt.ph, frozen := true, drain := none,
    requeue := false, start := m.loadCycles, ended := false, bars := m.barriers sp id, owed := [] }

/-- Stations, routes, generators, domains, participants, barriers and running status areas (R438) of a launch at its place. -/
def State.configure (s : State) (l : Launch) (m : Image) (sp : Spots) (htab : List Nat) : Placed :=
  match s.saveIndex with
  | none => .no
  | some save =>
    let voy := s.nextId
    let hs := m.handlers
    let v := l.voyage voy save m sp htab
    let s := { s with
      voyages := s.voyages ++ [v]
      stations := s.stations ++ m.regs.zipIdx.flatMap fun ((r : RegI), i) => r.stations i voy sp htab l.pkt.slb (hs.getD i [])
      agens := s.agens ++ m.regs.zipIdx.flatMap fun ((r : RegI), i) => r.agens i voy sp htab
      domains := s.domains ++ m.domains sp htab voy l.pkt.domb }.fresh
    match s.addRoutes m sp voy with
    | none => (match m.bad sp htab with | some f => .bad f | none => .no)
    | some s =>
      match leastBy BadWord.rank (m.bads sp htab ++ s.badPasses m sp voy), s.addBars v.bars with
      | some f, _ => .bad f
      | none, .error (.frames d) => .frames d
      | none, .error _ => .stop 0x06
      | none, .ok s =>
        let s := s.addMarks l.asid voy m sp htab
        let s := s.owe voy (v.regions.flatMap fun r => s.stateWrites v r 0)
        let s := (s.routes.filter fun (r : Route) => r.voy == voy).foldl State.announce s
        .ok (s.retryJoins.modQueue l.queue fun k => { k with live := k.live ++ [voy] })

/-- A launch leaves the waiting list. -/
def State.dropLaunch (s : State) (id : Nat) : State := { s with launches := s.launches.filter fun l => l.id ≠ id }

/-- PLACEMENT (R44-R48): first fit on every die of the mask, or victims are drained, or the launch goes on waiting. -/
def execPlacement (s : State) : Host.Outcome State Fault Refusal :=
  match s.ev with
  | .launch id =>
    match s.launches.find? (fun l => l.id == id) with
    | none => .next s
    | some l =>
      if l.resume.isSome || s.blocked l then .next s
      else match s.readLaunch l.asid l.pkt with
        | .error (.frames d) => .next (s.soon .poolBorrow (.die d))
        | .error _ => .next ((s.dropLaunch id).stopQueue l.queue 0x06)
        | .ok (i, htab, s) =>
          match i.parse with
          | none => .next ((s.dropLaunch id).failQueue l.queue ⟨l.pkt.dies.headD 0, 0, 0, true, 0, 0⟩)
          | some m =>
            if l.pkt.dies.all s.dieReady && s.cutOff m l.pkt.dies then .next ((s.dropLaunch id).stopQueue l.queue 0x08)
            else match s.spots l m with
            | none => .next ((s.victims l m).foldl (fun s v => s.soon .drain (.drain v 0)) s)
            | some sp =>
              match s.configure l m sp htab with
              | .no => .next s
              | .frames d => .next (s.soon .poolBorrow (.die d))
              | .stop c => .next ((s.dropLaunch id).stopQueue l.queue c)
              | .bad f => .next ((s.dropLaunch id).failQueue l.queue f)
              | .ok s => .next ((s.dropLaunch id).passPacket l.queue)
  | _ => .next s

end Sys2Proof.Machine
end

