-- ==== Sys2Proof/Machine/Checkpoint.lean ====
section
/-! DEFINITION. Checkpoint images (R437, R442-R445, R447): their bytes, and the record of a saved voyage that a resume restores with what it reads back
from them. Where the spec names the contents of a cell and not their places in it, the places are the model's choice (log 14). -/

namespace Sys2Proof.Machine

open Sys2Proof

/-! ### Byte strings as numbers -/

/-- A length in bytes and the value. -/
structure Blob where
  len : Nat
  x   : Nat

/-- The length of a byte string given in pieces. -/
def blobLen (bs : List Blob) : Nat := (bs.map (·.len)).foldl (· + ·) 0

/-- Fields of a cell, each a length in bytes and a value, from offset 0 upward. -/
def cellOf (fs : List (Nat × Nat)) : Nat := fs.foldr (fun (n, x) y => x % 2 ^ (8 * n) + y * 2 ^ (8 * n)) 0

/-- A cell of n bytes. -/
def Blob.cell (n : Nat) (fs : List (Nat × Nat)) : Blob := ⟨n, cellOf fs % 2 ^ (8 * n)⟩

/-- The code of something that may be absent: all ones where it is. -/
def codeOr (x : Option Nat) : Nat := x.getD 0xFF

/-- A section: type, length, contents (R443). -/
def imgSection (typ : Nat) (b : List Blob) : List Blob := ⟨8, typ + blobLen b % 2 ^ 32 * 2 ^ 8⟩ :: b

/-! ### Sections (Table 22.4) -/

/-- The handle's image form: a SPACE 1 base stands as its offset from the window slot of the region's origin (R447). -/
def HEntry.saved (h : HEntry) (origin : StId) : HEntry :=
  if h.space = .win then { h with base := h.base - BitVec.ofNat 64 (slotAddr origin) } else h

def Station.coreBlob (t : Station) (origin : StId) : List Blob :=
  let t := { t with h := t.h.map fun (h : HEntry) => h.saved origin }
  [⟨1536, ofBytes ((List.range 1536).map fun o => match t.item o with | some w => BitVec.ofNat 8 (w.val / 2 ^ (8 * (o - w.base))) | none => 0)⟩]

/-- A context in 192 bytes: slack base, stoplvl, aged flag, stream length, waiting count, wave, `(init)` flags, yield, timestamp, then from byte 64 the
repeat counters (log 14). -/
def Ctx.blob (c : Ctx) : Blob :=
  Blob.cell 192 ([(1, c.base.toNat), (1, c.stoplvl.toNat), (1, bitAt c.aged 0), (1, c.len.toNat), (4, c.wait), (8, c.wave.toNat), (4, c.fired.toNat),
    (4, c.yield), (4, c.ts.toNat), (36, 0)] ++ c.reps.toList.map fun r => (4, r.toNat))

def Station.contextsBlob (t : Station) : List Blob :=
  t.ctx.toList.map Ctx.blob ++
    [⟨8, packLanes 8 (t.hctx.toList.map fun c => codeOr (c.map (·.val)))⟩, ⟨32, packLanes 32 (t.cnt.toList.map (·.toNat))⟩]

/-- The tokens of a channel, head first, with those on the FIFOs of its route. -/
def State.channelTokens (s : State) (t : Station) (c : Fin 8) : List Token :=
  t.c[c].q.filterMap (·.tok) ++
    (s.routes.filter fun r => r.dests.contains (t.id, c)).flatMap fun r => r.hops.reverse.flatMap fun h => h.fifo.q.filterMap (·.tok)

def tokensBlob (ks : List Token) : List Blob := ks.map fun k => ⟨80, k.bits⟩

def State.channelsBlob (s : State) (t : Station) : List Blob :=
  let cs := (List.finRange 8).map (s.channelTokens t)
  ⟨16, packLanes 16 (cs.map (·.length))⟩ :: cs.flatMap tokensBlob

/-- A local store or a bank. -/
def storeBlob (m : List Host.Cell) (n : Nat) : Blob := ⟨n, (m.filter fun c => c.1 < n).foldl (fun x c => x + c.2.toNat * 2 ^ (8 * c.1)) 0⟩

def Station.storageBlob (t : Station) : List Blob :=
  match t.kind with
  | .s => [storeBlob t.store 262144, storeBlob t.shadow 262144]
  | _ => [storeBlob t.store 65536]

def AccRow.flags (q : AccRow) : Nat := bitAt q.p 0 + bitAt q.m 1 + bitAt q.q 2

/-- Codes of the state block. -/
def TileSt.code : TileSt → Nat | .empty => 0 | .filling => 1 | .full => 2 | .reading => 3
def AccSt.code : AccSt → Nat | .opened => 0 | .closed => 1 | .draining => 2
def scaleCode : ScaleSrc → Nat | .tile => 0 | .g0 => 1 | .g1 => 2
def Slack.code (x : Slack) : Nat := x.n % 2 ^ 15 + bitAt x.bg 15

/-- A park record in 2 bytes: the tag of the register, whether it has landed, that there is one, and the owner's place in its quad (R223, log 14). -/
def Park.code (p : Park) : Nat := p.reg.tag.toNat + bitAt p.landed 6 + 2 ^ 7 + (p.owner.x % 2 + p.owner.y % 2 * 2) * 2 ^ 8

/-- The park of a row. -/
def parkAt (ps : List Park) (r : Nat) : Option Park := ps.find? fun p => p.row == r

/-- The park records of a unit, row by row. -/
def parkCells (ps : List Park) : List (Nat × Nat) := (List.range 64).map fun r => (2, match parkAt ps r with | some p => p.code | none => 0)

/-- The state block of a matrix station (log 14): 16 bytes for each tile, 32 for each accumulator, 32 for the step in progress, then the park records of the
tiles and accumulators. -/
def Mat.stateBlock (m : Mat) : Blob :=
  let ch (c : Option (Fin 8)) : Nat := codeOr (c.map (·.val))
  let tile (x : Tile) : List (Nat × Nat) := [(1, x.st.code), (1, x.fmt.toNat), (1, ch x.fill), (1, x.pos), (12, 0)]
  let acc (a : Acc) : List (Nat × Nat) :=
    [(1, a.st.code), (1, bitAt a.cfg.isSome 0), (2, a.cnt.toNat)] ++
      (match a.cfg with
        | some g => [(2, g.kt.toNat), (1, g.o.val), (1, ch g.carry), (1, scaleCode g.sa), (1, scaleCode g.sb)]
        | none => [(6, 0)]) ++ [(2, a.cin), (2, a.pos), (2, a.slack.code), (8, a.closed), (8, 0)]
  let step : List (Nat × Nat) := match m.step with
    | some x => [(1, 1), (1, x.acc.val), (1, x.ta.val), (1, x.tb.val), (1, bitAt x.mmat 0 + bitAt x.keepa 1 + bitAt x.keepb 2), (1, 0), (2, x.left),
        (2, x.slack.code), (22, 0)]
    | none => [(32, 0)]
  Blob.cell 1024 (m.t.toList.flatMap tile ++ m.a.toList.flatMap acc ++ step ++
    (m.t.toList.flatMap fun x => parkCells x.parks) ++ m.a.toList.flatMap fun x => parkCells x.parks)

/-- A row of an accumulator: its columns, or the register parked there and its sidecar (R223). -/
def Acc.rowWords (a : Acc) (row : AccRow) (i : Nat) : List Nat :=
  match parkAt a.parks i with
  | some p => lanesOf p.reg.data.toNat 64 8 ++ [p.reg.side.toNat] ++ List.replicate 55 0
  | none => (List.range 64).map fun j => Int.toNat (row.col j % (2 ^ 64 : Nat))

def Mat.blob (m : Mat) : List Blob :=
  let tile (x : Tile) : List Blob := [⟨4096, packLanes 512 (x.rows.toList.map (·.toNat))⟩, ⟨512, packLanes 64 (x.scales.toList.map (·.toNat))⟩]
  let acc (a : Acc) : List Blob :=
    [⟨32768, packLanes 64 (a.rows.toList.zipIdx.flatMap fun (r, i) => a.rowWords r i)⟩,
      ⟨128, packLanes 16 (a.rows.toList.map fun r => Int.toNat (r.e % (2 ^ 16 : Nat)))⟩, ⟨64, packLanes 8 (a.rows.toList.map AccRow.flags)⟩]
  let scales (v : Vector Word 64) : Blob := ⟨512, packLanes 64 (v.toList.map (·.toNat))⟩
  m.t.toList.flatMap tile ++ m.a.toList.flatMap acc ++ m.g.toList.map scales ++
    (match m.step with | some x => [scales x.sa, scales x.sb] | none => [⟨1024, 0⟩]) ++ [m.stateBlock]

/-- A tree operation: its code and two arguments. -/
def TreeOp.code : TreeOp → Nat × Nat × Nat
  | .tins t => (1, t, 0)
  | .tseal x => (2, x, 0)
  | .tdrop t0 t1 => (3, t0, t1)
  | .forkPages n => (4, n, 0)
  | .forkTree n => (5, n, 0)
  | .walk => (6, 0, 0)

/-- A destination specifier. -/
def Dest.code : Dest → Nat
  | .none => 0
  | .d n => 0x10 + n.val
  | .v n => 0x20 + n.val
  | .out o _ => 0x30 + o.val

/-- How far a writer is. -/
def TreeStep.code : TreeStep → Nat | .plan => 0 | .write => 1 | .unlock => 2

/-- The engine state (log 14): the operation with its handles, its payload at byte 160, and from byte 168 the nodes whose locks it holds. -/
def TreeJob.blob (j : TreeJob) (origin : StId) : Blob :=
  let (op, x, y) := j.op.code
  Blob.cell 256 ([(1, op), (1, j.q.val), (1, j.ctx.val), (1, j.slot.val), (1, j.dest.code), (1, j.locks.length), (2, j.slack.code), (4, j.major.toNat),
    (1, j.step.code), (3, 0), (8, x), (8, y)] ++ [j.h1, j.h2, j.h3, j.h4].map (fun h => (32, (h.saved origin).bits)) ++ [(8, j.res)] ++ j.locks.map fun l => (4, l.1))

def Sd.blob (d : Sd) (origin : StId) : List Blob :=
  d.q.toList.map (fun q => ⟨16384, ofBytes ((List.range 16384).map fun o => (q.byteAt o).getD 0)⟩) ++
    [match d.eng with | some j => j.blob origin | none => ⟨256, 0⟩]

/-- Streams, masks and lengths, then the stream lengths of the contexts and the `sout` or `sin` in progress (log 14). -/
def Ss.blob (z : Ss) (lens : List Nat) : List Blob :=
  let io : List (Nat × Nat) := match z.io with
    | some (.sout o _ p sl) => [(1, 1), (1, o.val), (1, p), (1, 0), (2, sl.code)]
    | some (.sin k c p _ ctx slot sl) => [(1, 2), (1, c.val), (1, p), (1, k.val), (2, sl.code), (1, ctx.val), (1, slot.val)]
    | none => []
  [⟨8192, packLanes 4096 (z.z.toList.map (·.bits.toNat))⟩, ⟨32, packLanes 16 (z.z.toList.map (·.mask.toNat))⟩,
    ⟨16, packLanes 8 (z.z.toList.map (·.lc.toNat))⟩, Blob.cell 24 (lens.map (fun n => (1, n)) ++ io)]

/-- Tokens that a node holds. -/
def Station.nodeTokens (t : Station) : List Token :=
  (match t.ctn with | some n => n.rows ++ n.outs.map (·.2.1) | none => []) ++
    (match t.nrm with | some n => n.half.toList ++ n.outs.map (·.2) | none => [])

/-- Kinds as Table 5.14 codes them. -/
def kindCode : Kind → Nat
  | .m => 0 | .c => 1 | .s => 2 | .sd => 3 | .ss => 4

/-- A station record (R443). -/
def State.stationBlob (s : State) (t : Station) (origin : StId) : List Blob :=
  let secs : List (List Blob) :=
    (if t.kind = .ss then [] else [imgSection 1 (t.coreBlob origin)]) ++ [imgSection 2 t.contextsBlob, imgSection 3 (s.channelsBlob t)] ++
    (if t.kind = .c ∨ t.kind = .s then [imgSection 4 t.storageBlob] else []) ++
    (match t.mat with | some m => [imgSection 5 m.blob] | none => []) ++
    (match t.sd with | some d => [imgSection 6 (d.blob origin)] | none => []) ++
    (match t.ss with | some z => [imgSection 7 (z.blob (t.ctx.toList.map (·.len.toNat)))] | none => []) ++
    (if t.ctn.isSome ∨ t.nrm.isSome then [imgSection 8 (tokensBlob t.nodeTokens)] else []) ++
    (if t.fctx.isSome then
      let ks := t.c[7].q.filterMap (·.tok)
      [imgSection 9 (⟨8, ks.length⟩ :: tokensBlob ks)]
    else [])
  let n := 16 + blobLen secs.flatten
  ⟨16, t.rx % 64 + t.ry % 64 * 2 ^ 6 + kindCode t.kind * 2 ^ 12 + secs.length * 2 ^ 16 + n % 2 ^ 32 * 2 ^ 32⟩ :: secs.flatten

/-! ### The image of a region (R442, R444, R445) -/

/-- A request that has not performed. -/
def Req.unperformed (q : Req) : Bool := match q.stage with | .reply .. => false | _ => true

/-- What a request of a tree engine is for. -/
def TreeKey.code : TreeKey → Nat
  | .put => 0
  | .data c again => 1 + bitAt again 3 + c % 2 ^ 48 * 2 ^ 8
  | .lock n => 2 + n % 2 ^ 48 * 2 ^ 8
  | .take n => 3 + n % 2 ^ 48 * 2 ^ 8

/-- The code of a request's operation, its width, and a word that it carries. -/
def ReqOp.code : ReqOp → Nat × Nat × Nat
  | .load w sext => (1 + 128 * bitAt sext 0, w, 0)
  | .loadV w => (2, w, 0)
  | .loadK => (3, 0, 0)
  | .store w => (4, w, 0)
  | .ldt w sext settled => (5 + 128 * bitAt sext 0 + 64 * bitAt settled 0, w, 0)
  | .upd op w => (6, w, op.toNat)
  | .reclaim => (7, 0, 0)
  | .settle => (8, 0, 0)
  | .atom op w => (9, w, op.toNat)
  | .red op w => (10, w, op.toNat)
  | .xred => (11, 48, 0)
  | .pref n => (12, 0, n)
  | .disc n => (13, 0, n)
  | .mnop => (14, 0, 0)
  | .xlat => (15, 0, 0)
  | .copy _ => (16, 0, 0)
  | .agLoad wide => (17, if wide then 64 else 8, 0)
  | .monw => (18, 8, 0)
  | .monc w => (19, 8, w.toNat)
  | .part _ n wr => (20 + 128 * bitAt wr 0, n, 0)
  | .tree _ k n wr => (22 + 128 * bitAt wr 0, n, k.code)

/-- An entry of the request list (R444): order fields, origin and operation in 32 bytes, the handle, the address, the operands (log 14). -/
def Req.blob (q : Req) (origin : StId) : Blob :=
  let (op, w, x) := q.op.code
  Blob.cell 160 [(8, q.stamp.toNat), (4, q.pass), (1, q.pred.toNat), (1, q.own.toNat), (1, q.succ.toNat), (1, q.mf.toNat),
    (1, codeOr (q.port.map (·.2))), (1, q.st.x - origin.x), (1, q.st.y - origin.y), (1, q.ctx.val), (1, q.slot.val), (1, q.dest.code), (1, op), (1, w), (8, x),
    (32, (q.h.saved origin).bits), (8, q.va), (8, q.y.toNat), (64, q.data.toNat), (4, match q.pa with | some p => p.frame | none => 0),
    (2, match q.pa with | some p => p.mchk.toNat | none => 0), (10, 0)]

/-- Dimensions that the entry of a copy holds; another entry follows for the rest (log 14). -/
def copyDims : Nat := 3

/-- Dimensions of a nest, 16 bytes each. -/
def dimCells (ds : List (Nat × Int × Int)) : List (Nat × Nat) :=
  let i48 (x : Int) : Nat := (x % (2 ^ 48 : Nat)).toNat
  ds.flatMap fun (n, x, y) => [(4, n), (6, i48 x), (6, i48 y)]

/-- The unfinished remainder of a copy, with the order fields of its request: its ends, the bytes done, the length of a run, and its dimensions (R444). -/
def Copy.blob (k : Copy) (q : Req) (origin : StId) : List Blob :=
  Blob.cell 160 ([(8, k.stamp.toNat), (4, q.pass), (1, q.pred.toNat), (1, q.own.toNat), (1, q.succ.toNat), (1, q.mf.toNat),
    (1, codeOr (q.port.map (·.2))), (1, k.st.x - origin.x), (1, k.st.y - origin.y), (1, k.ctx.val), (1, k.slot.val), (1, codeOr (k.ch.map (·.val))), (1, 21),
    (1, bitAt k.run 0 + k.dims.length * 2), (32, (k.src.h.saved origin).bits), (32, (k.dst.h.saved origin).bits), (6, k.src.addr.toNat % 2 ^ 48),
    (6, k.dst.addr.toNat % 2 ^ 48), (6, k.l0), (6, k.pos)] ++ dimCells (k.dims.take copyDims)) ::
  (if k.dims.length ≤ copyDims then [] else [Blob.cell 160 ([(22, 0), (1, 23), (1, 0)] ++ dimCells (k.dims.drop copyDims))])

/-- The pass count and the next state of a domain, in 16 bytes. -/
def Domain.blob (d : Domain) : Blob :=
  let (c, n) : Nat × Nat := match d.next with | .start => (0, 0) | .own n => (1, n.toNat) | .after n => (2, n.toNat)
  Blob.cell 16 [(4, d.pass), (1, c), (1, n), (1, d.port), (1, 0), (2, d.num.toNat)]

/-- The requests of a domain in the order in which it releases them: those released before, then as the chain lets them go; the others stand last (R444). -/
def chainOrder : Nat → Domain → List Req → List Req
  | 0, _, qs => qs
  | n + 1, d, qs =>
    match leastBy (fun (q : Req) => [q.arrived]) (qs.filter fun q => d.lets q q.pass) with
    | none => qs
    | some q => q :: chainOrder n (d.after q) (qs.filter fun r => r.id ≠ q.id)

/-- The requests of a region, domain by domain; those of no domain last. -/
def releaseOrder (ds : List Domain) (qs : List Req) : List Req :=
  (ds.flatMap fun d =>
    let mine := qs.filter d.holds
    let held := mine.filter fun q => !q.released
    mine.filter (·.released) ++ chainOrder held.length d held) ++ qs.filter fun q => !ds.any fun d => d.holds q

/-- An entry of the list: a request, or the copy that it started. -/
def listEntry (ks : List Copy) (origin : StId) (q : Req) : List Blob :=
  match q.op with
  | .copy k => (match ks.find? fun c => c.id == k with | some c => c.blob q origin | none => [])
  | _ => [q.blob origin]

/-- The die slot that the regions of a voyage give a die (R447). -/
def Voyage.dieSlot (v : Voyage) (d : Nat) : Nat := match v.regions.find? fun r => r.die == d with | some r => r.slotNo | none => 0

/-- A barrier entry of the voyage block: EXP, ARR, PH, then scope, id and die slot. -/
def BarEntry.blob (b : BarEntry) (v : Voyage) : Blob :=
  let c : Nat := match b.key.scope with | .lane => 0 | .station => 1 | .quad => 2 | .die => 3 | .pkg => 4 | .pod => 5
  Blob.cell 16 [(4, b.exp.toNat), (4, b.arr.toNat), (4, b.ph.toNat), (1, c), (1, b.key.id.toNat), (1, if b.key.scope = .die then v.dieSlot b.key.inst else 0)]

/-- A sequencer entry of the voyage block: timestamp, handler, state, die slot, then the arguments with their sidecar and tag. -/
def Task.blob (t : Task) (v : Voyage) : Blob :=
  let c : Nat := match t.st with | .held => 0 | .ready => 1 | .running .. => 2 | .done => 3
  Blob.cell 96 [(4, t.ts.toNat), (1, t.handler), (1, c), (1, v.dieSlot t.die), (1, bitAt t.spoiled 0), (64, t.args.data.toNat), (8, t.args.side.toNat),
    (1, t.args.tag.toNat)]

/-- A barrier entry as it stands: that of a spilled one in memory (R288). -/
def State.barNow (s : State) (b : BarEntry) : BarEntry := match s.loadBar b with | .ok (_, b) => b | .error _ => b

/-- A station that only passes tokens through: it has no rules and no node, and a route's pass-through entries (R442). -/
def State.passes (s : State) (t : Station) : Bool :=
  t.ctx.toList.all (fun c => c.rules.isEmpty) && t.ctn.isNone && t.nrm.isNone &&
    s.routes.any fun r => r.hops.any fun h => h.fifo.cap == 20 && h.holder == some (.station t.id)

/-- The stations of a region that have a record. -/
def State.recorded (s : State) (v : Voyage) (r : Region) : List Station := (s.stationsOf v.id r.idx).filter fun t => !s.passes t

/-- A step in progress is recorded as restarting from its capture (R440). -/
def Station.restart (t : Station) : Station :=
  { t with mat := t.mat.map fun m => { m with step := m.step.map fun x => { x with left := if Tag.is16 m.t[x.ta].fmt then 255 else 127 } } }

/-- The image of a region: header, station records, request list with its domains, and with region 0 the voyage block. -/
def State.regionImage (s : State) (v : Voyage) (r : Region) (reason g : Nat) : List Blob :=
  let origin := r.at 0 0
  let recs := (s.recorded v r).flatMap fun t => s.stationBlob t.restart origin
  let n := blobLen recs
  let ds := s.domains.filter fun d => d.voy == v.id && d.reg == r.idx
  let reqs := (releaseOrder ds (s.reqs.filter fun q => q.voy == v.id && q.reg == r.idx && q.unperformed)).flatMap (listEntry s.copies origin)
  let list := reqs ++ ds.map Domain.blob
  let block := if r.idx = 0 then
      (s.bars.filter fun b => b.key.voy == v.id).map (fun b => (s.barNow b).blob v) ++ (s.tasks.filter fun t => t.voy == v.id).map fun t => t.blob v
    else []
  let len := 256 + n + blobLen list + blobLen block
  let head : Blob := ⟨256, packLanes 64 [1 + reason * 2 ^ 16 + r.idx * 2 ^ 24, g, r.clk, r.pw + r.ph * 2 ^ 4 + r.par.toNat * 2 ^ 8 + r.slotNo * 2 ^ 10, len,
    256 + n + reqs.length * 2 ^ 32, if r.idx = 0 then 256 + n + blobLen list else 0]⟩
  head :: recs ++ list ++ block

/-- The slot that does not hold the latest complete image (R440). -/
def Region.freeSlot (r : Region) : Nat := match r.slotImg with | some k => 1 - k | none => 0

/-- Where an image slot of a region stands. -/
def State.slotVa (s : State) (v : Voyage) (r : Region) (slot : Nat) : Option Nat :=
  (s.saveBlock v.asid v.save r.idx).map fun b => b + 0x40000000 + slot * 0x20000000

/-- The pieces of a byte string, one after the other. -/
def piecesAt (die : Nat) (asid : BitVec 16) : Nat → List Blob → List Owed
  | _, [] => []
  | va, b :: bs => ⟨die, asid, va, b.len, b.x⟩ :: piecesAt die asid (va + b.len) bs

/-- The writes of a region's image. -/
def State.imageWrites (s : State) (v : Voyage) (r : Region) (reason g : Nat) : List Owed :=
  match s.slotVa v r r.freeSlot with
  | none => []
  | some a => piecesAt r.die v.asid a (s.regionImage v r reason g)

/-! ### The saved record -/

/-- How a request stands after a resume: withheld ones are reissued in their chains, monitors and requests to a peer are sent again (R446). -/
def Req.reissue (q : Req) : Req :=
  { q with held := 0, stage := if q.op.monitor then .translate else match q.stage with | .withheld _ => .port | .peer _ => .home 0 | x => x }

/-- The parts of a voyage's record that belong to a region. -/
def State.savedRegion (s : State) (v : Voyage) (r : Region) : Saved :=
  let mine (voy reg : Nat) : Bool := voy == v.id && reg == r.idx
  { voy := v, stations := (s.recorded v r).map Station.restart, routes := s.routes.filter fun q => mine q.voy q.reg,
    reqs := (s.reqs.filter fun q => mine q.voy q.reg).map Req.reissue,
    copies := (s.copies.filter fun k => mine k.voy k.reg).map fun k => { k with wait := none, held := 0 },
    domains := s.domains.filter fun d => mine d.voy d.reg, bars := s.bars.filter fun b => b.key.voy == v.id,
    msgs := s.barMsgs.filter fun b => b.key.voy == v.id, tasks := s.tasks.filter fun t => t.voy == v.id,
    agens := s.agens.filter fun g => mine g.voy g.reg, complete := false, held := false }

/-- A region's new image replaces its old one; region 0 carries the voyage's barriers and tasks. -/
def Saved.update (a b : Saved) (reg : Nat) : Saved :=
  { voy := { b.voy with regions := b.voy.regions }, stations := (a.stations.filter fun t => t.reg ≠ reg) ++ b.stations,
    routes := (a.routes.filter fun t => t.reg ≠ reg) ++ b.routes, reqs := (a.reqs.filter fun t => t.reg ≠ reg) ++ b.reqs,
    copies := (a.copies.filter fun t => t.reg ≠ reg) ++ b.copies, domains := (a.domains.filter fun t => t.reg ≠ reg) ++ b.domains,
    bars := if reg = 0 then b.bars else a.bars, msgs := if reg = 0 then b.msgs else a.msgs, tasks := if reg = 0 then b.tasks else a.tasks,
    agens := (a.agens.filter fun t => t.reg ≠ reg) ++ b.agens,
    complete := b.voy.regions.all fun r => r.slotImg.isSome || r.st == .retired, held := a.held }

/-- The region record after a complete image of generation g. -/
def Region.imaged (r : Region) (g : Nat) : Region := { r with slotImg := some r.freeSlot, imgGen := g, gen := g }

/-- Save regions of a voyage: every image, then every status area, all or nothing, then the record (R440, R469). `st` is the state that the status areas
show. -/
def State.saveRegions (s : State) (v : Voyage) (rs : List Region) (reason : Nat) (st : Region → Nat) (g : Region → Nat) : Helm State := do
  if rs.any fun r => (s.saveBlock v.asid v.save r.idx).isNone then throw .fail
  let s' ← s.storeAll (rs.flatMap (fun r => s.imageWrites v r reason (g r)) ++ rs.flatMap fun r => s.statusWrites v (r.imaged (g r)) (st r))
  let s := s'.modVoyage v.id fun u => { u with regions := u.regions.map fun q => if rs.any fun r => r.idx == q.idx then q.imaged (g q) else q }
  match s.voyage? v.id with
  | none => return s
  | some v => return { s with
      saved := (v.save, rs.foldl (fun k r => k.update (s.savedRegion v r) r.idx) (s.savedAt v)) :: s.saved.filter fun e => e.1 ≠ v.save }

end Sys2Proof.Machine
end

