-- ==== Sys2Proof/Machine/Reload.lean ====
section
/-! DEFINITION. Reading a checkpoint image back (R442-R447): every field that an image holds is laid over the stations, routes, requests, domains, barriers
and tasks of the resumed voyage. What the image has no place for comes from the record that was kept with it (log 14). -/

namespace Sys2Proof.Machine

open Sys2Proof

/-- A handle of an image at its new origin: a SPACE 1 base is an offset from the origin's window slot (R447). -/
def HEntry.placed (h : HEntry) (origin : StId) : HEntry :=
  if h.space = .win then { h with base := h.base + BitVec.ofNat 64 (slotAddr origin) } else h

/-- Fields of an image cell: n bytes at an offset from where the cell starts. -/
abbrev Cell := Nat → Nat → Nat

/-- The cell of an image that starts at an offset. -/
def cellAt (x o : Nat) : Cell := fun k n => fld x (8 * (o + k)) (8 * n)

/-- The cell that starts k bytes further on. -/
def Cell.from (f : Cell) (k : Nat) : Cell := fun j n => f (k + j) n

/-- An index below 8, or none. -/
def chanOf? (b : Nat) : Option (Fin 8) := if b < 8 then some (Fin.ofNat 8 b) else none

/-- A handle in its image form; a malformed one leaves the old. -/
def Cell.handle (f : Cell) (k : Nat) (origin : StId) (old : HEntry) : HEntry :=
  match HEntry.ofBits? (f k 32) with | some h => h.placed origin | none => old

def Slack.ofCode (x : Nat) : Slack := ⟨x.testBit 15, x % 2 ^ 15⟩

/-- A signed 48-bit field. -/
def signed48 (x : Nat) : Int := (BitVec.ofNat 48 x).toInt

/-! ### Records and sections (R442, R443) -/

/-- Sections of a station record from an offset on: type, offset of the contents. -/
def sectionsOf (x : Nat) : Nat → Nat → List (Nat × Nat)
  | 0, _ => []
  | k + 1, o => (fld x (8 * o) 8, o + 8) :: sectionsOf x k (o + 8 + fld x (8 * o + 8) 32)

/-- The station records of an image between two offsets: place in the region, sections. -/
def recordsOf (x last : Nat) : Nat → Nat → List (Nat × Nat × List (Nat × Nat))
  | 0, _ => []
  | k + 1, o =>
    if last ≤ o then []
    else
      let h := fld x (8 * o) 64
      (fld h 0 6, fld h 6 6, sectionsOf x (fld h 16 16) (o + 16)) :: recordsOf x last k (o + Nat.max 16 (fld h 32 32))

/-- A context from its cell. -/
def Ctx.load (c : Ctx) (f : Cell) : Ctx :=
  { c with
    base := BitVec.ofNat 6 (f 0 1), stoplvl := BitVec.ofNat 3 (f 1 1), aged := (f 2 1).testBit 0, len := BitVec.ofNat 2 (f 3 1), wait := f 4 4,
    wave := BitVec.ofNat 32 (f 8 8), fired := BitVec.ofNat 32 (f 16 4), yield := f 20 4, ts := BitVec.ofNat 32 (f 24 4),
    reps := Vector.ofFn fun i : Fin 32 => BitVec.ofNat 32 (f (64 + 4 * i.val) 4) }

/-! ### Matrix state (Table 22.4, section 5) -/

def TileSt.ofCode : Nat → TileSt | 0 => .empty | 1 => .filling | 2 => .full | _ => .reading
def AccSt.ofCode : Nat → AccSt | 0 => .opened | 1 => .closed | _ => .draining
def scaleOf : Nat → ScaleSrc | 0 => .tile | 1 => .g0 | _ => .g1

/-- A park of a row: one that has not landed keeps the register of the record. -/
def Park.load (old : List Park) (here : StId) (r code : Nat) (reg : VReg) : Option Park :=
  if !code.testBit 7 then none
  else
    let owner : StId := ⟨here.die, here.x - here.x % 2 + fld code 8 1, here.y - here.y % 2 + fld code 9 1⟩
    let landed := code.testBit 6
    let reg := { reg with tag := BitVec.ofNat 6 code }
    some ⟨r, owner, if landed then reg else ((parkAt old r).map (·.reg)).getD reg, landed⟩

def Tile.load (x : Tile) (here : StId) (f p : Cell) : Tile :=
  { x with
    st := TileSt.ofCode (f 0 1), fmt := BitVec.ofNat 6 (f 1 1), fill := chanOf? (f 2 1), pos := f 3 1,
    parks := (List.finRange 64).filterMap fun r => Park.load x.parks here r.val (p (2 * r.val) 2) ⟨x.rows[r], x.scales[r], 0⟩ }

/-- An accumulator: `rows` are the bytes of its rows, of which a parked one holds the register. -/
def Acc.load (old new : Acc) (here : StId) (f p rows : Cell) : Acc :=
  let parks := (List.range 64).filterMap fun r =>
    Park.load old.parks here r (p (2 * r) 2) ⟨BitVec.ofNat 512 (rows (512 * r) 64), BitVec.ofNat 64 (rows (512 * r + 64) 8), 0⟩
  { new with
    rows := Vector.ofFn fun i : Fin 64 => if (parkAt parks i.val).isSome then old.rows[i] else new.rows[i]
    st := AccSt.ofCode (f 0 1), cnt := BitVec.ofNat 16 (f 2 2),
    cfg := if (f 1 1).testBit 0 then some ⟨BitVec.ofNat 16 (f 4 2), Fin.ofNat 8 (f 6 1), chanOf? (f 7 1), scaleOf (f 8 1), scaleOf (f 9 1)⟩ else none,
    cin := f 10 2, pos := f 12 2, slack := Slack.ofCode (f 14 2), closed := f 16 8, parks := parks }

/-- The state block: `b` is its cell, `s` the captured scales, `rows n` the rows of accumulator n. -/
def Mat.load (old new : Mat) (here : StId) (b s : Cell) (rows : Nat → Cell) : Mat :=
  let park (u : Nat) : Cell := b.from (160 + 128 * u)
  let scales (k : Nat) : Vector Word 64 := Vector.ofFn fun i : Fin 64 => BitVec.ofNat 64 (s (512 * k + 8 * i.val) 8)
  { new with
    t := Vector.ofFn fun i : Fin 4 => new.t[i].load here (b.from (16 * i.val)) (park i.val)
    a := Vector.ofFn fun i : Fin 2 => old.a[i].load new.a[i] here (b.from (64 + 32 * i.val)) (park (4 + i.val)) (rows i.val)
    step := if b 128 1 = 1 then
        some ⟨Fin.ofNat 2 (b 129 1), Fin.ofNat 4 (b 130 1), Fin.ofNat 4 (b 131 1), (b 132 1).testBit 0, (b 132 1).testBit 1, (b 132 1).testBit 2,
          scales 0, scales 1, b 134 2, Slack.ofCode (b 136 2)⟩
      else none }

/-! ### Query registers and the tree engine (Table 22.4, section 6) -/

/-- A frontier entry; the centroid that its estimate weighs is that of the record. -/
def FEntry.load (known : List FEntry) (f : Cell) : FEntry :=
  let w (i : Nat) : BitVec 32 := BitVec.ofNat 32 (f (4 * i) 4)
  let n := f 0 4
  ⟨n, (f 4 1).testBit 1, (f 4 1).testBit 2, w 2, w 3, w 4, w 5, w 6, w 7, match known.find? fun e => e.node == n with | some e => e.cv | none => []⟩

/-- A walk from the window bytes of its register. -/
def Walk.load (w : Walk) (dim : Nat) (f : Cell) : Walk :=
  let known := w.frontier ++ w.kids.flatten ++ w.done
  let es := ((List.range 64).map fun i => f.from (0x2000 + 32 * i)).takeWhile fun c => (c 4 1).testBit 0
  let es := es.map (FEntry.load known)
  { w with
    l := X320.ofBits (f 0x540 48), acc := (List.range dim).map fun i => X320.ofBits (f (0x580 + 48 * i) 48),
    frontier := if w.exact then es.reverse else es, ver := BitVec.ofNat 64 (f 0x518 8) }

def QReg.load (q : QReg) (f : Cell) : QReg :=
  let w (o : Nat) : BitVec 32 := BitVec.ofNat 32 (f o 4)
  let b := f 0x40 8
  let st := f 0x510 8
  let q := { q with param := BitVec.ofNat 512 (f 0 64), head := BitVec.ofNat 4 (fld b 4 4), hn := BitVec.ofNat 4 (fld b 8 4), ht := BitVec.ofNat 4 (fld b 12 4) }
  { q with
    qp := (List.range q.dim).map fun i => w (0x100 + 4 * i), out := (List.range q.dim).map fun i => w (0x300 + 4 * i),
    dsum := w 0x500, usum := w 0x504, llo := w 0x508, m := w 0x50C, visits := BitVec.ofNat 32 st, stop := BitVec.ofNat 3 (fld st 32 3),
    rstrt := BitVec.ofNat 3 (fld st 36 3), pauses := BitVec.ofNat 4 (fld st 40 4), state := BitVec.ofNat 4 (fld st 44 4),
    rootver := BitVec.ofNat 64 (f 0x518 8), walk := q.walk.map fun k => k.load q.dim f }

/-- A tree operation from its code and arguments. -/
def TreeOp.ofCode (op x y : Nat) : TreeOp :=
  match op with
  | 1 => .tins x | 2 => .tseal x | 3 => .tdrop x y | 4 => .forkPages x | 5 => .forkTree x | _ => .walk

def TreeStep.ofCode : Nat → TreeStep | 0 => .plan | 1 => .write | _ => .unlock

/-- The engine: its operation, and of the locks it holds those that the cell has room for; a version is that of the record. -/
def TreeJob.load (j : TreeJob) (origin : StId) (f : Cell) : TreeJob :=
  let nodes := (List.range (Nat.min (f 5 1) 22)).map fun i => f (168 + 4 * i) 4
  { j with
    op := TreeOp.ofCode (f 0 1) (f 16 8) (f 24 8), q := Fin.ofNat 4 (f 1 1), ctx := Fin.ofNat 8 (f 2 1), slot := Fin.ofNat 32 (f 3 1),
    slack := Slack.ofCode (f 6 2), major := BitVec.ofNat 32 (f 8 4), step := TreeStep.ofCode (f 12 1), res := f 160 8,
    h1 := f.handle 32 origin j.h1, h2 := f.handle 64 origin j.h2, h3 := f.handle 96 origin j.h3, h4 := f.handle 128 origin j.h4,
    locks := (nodes.filterMap fun n => j.locks.find? fun l => l.1 == n) ++ j.locks.drop 22 }

def Sd.load (d : Sd) (origin : StId) (f : Cell) : Sd :=
  { q := Vector.ofFn fun i : Fin 4 => d.q[i].load (f.from (16384 * i.val)),
    eng := if f 65536 1 = 0 then none else d.eng.map fun j => j.load origin (f.from 65536) }

/-! ### Tokens -/

/-- n tokens in a row. -/
def Cell.tokens (f : Cell) (n : Nat) : List Token := (List.range n).map fun i => Token.ofBits (f (80 * i) 80)

/-- Entries with their tokens from a list, and what is left of the list; an entry that is only claimed stays, one for which no token is left goes. -/
def refill : List Entry → List Token → List Entry × List Token
  | [], ks => ([], ks)
  | e :: es, ks =>
    match e.tok, ks with
    | none, _ => let (r, ks) := refill es ks; (e :: r, ks)
    | some _, k :: ks => let (r, ks) := refill es ks; ({ e with tok := some k } :: r, ks)
    | some _, [] => refill es []

def Fifo.refill (f : Fifo) (ks : List Token) : Fifo × List Token :=
  let (q, ks) := Machine.refill f.q ks
  ({ f with q := q }, ks)

/-- The hops of a route, the last one first. -/
def refillBack : List Hop → List Token → List Hop × List Token
  | [], ks => ([], ks)
  | h :: hs, ks =>
    let (f, ks) := h.fifo.refill ks
    let (r, ks) := refillBack hs ks
    ({ h with fifo := f } :: r, ks)

/-- The tokens of a channel and of the routes that end at it. -/
def State.loadChannel (s : State) (i : StId) (c : Fin 8) (ks : List Token) : State :=
  match s.station? i with
  | none => s
  | some t =>
    let (f, ks) := t.c[c].refill ks
    let (rs, _) := s.routes.foldl (fun (rs, ks) (r : Route) =>
      if r.voy == t.voy && r.dests.contains (i, c) then
        let (hs, ks) := refillBack r.hops.reverse ks
        (rs ++ [{ r with hops := hs.reverse }], ks)
      else (rs ++ [r], ks)) (([] : List Route), ks)
    { s.setStation { t with c := t.c.set c f } with routes := rs }

/-- Section 3: the counts, and then the tokens of each channel. -/
def State.loadChannels (s : State) (i : StId) (f : Cell) : State :=
  ((List.finRange 8).foldl (fun ((s : State), o) c =>
    let n := f (2 * c.val) 2
    (s.loadChannel i c ((f.from o).tokens n), o + 80 * n)) (s, 16)).1

/-- Section 8: the tokens of a node in their places. -/
def Station.loadNodes (t : Station) (f : Cell) : Station :=
  (t.nodeToks.length |> List.range).foldl (fun t k => t.modNodeTok k fun _ => Token.ofBits (f (80 * k) 80)) t

/-! ### Stations -/

/-- The part position of a `sout` or `sin`. -/
def StreamIo.load (io : StreamIo) (f : Cell) : StreamIo :=
  match io with
  | .sout o z _ _ => .sout o z (f 2 1) (Slack.ofCode (f 4 2))
  | .sin z c _ acc ctx slot _ => .sin z c (f 2 1) acc ctx slot (Slack.ofCode (f 4 2))

/-- One section of a record, laid over a station that stands at the new origin of its region (log 14). -/
def Station.load (origin : StId) (x : Nat) (t : Station) : Nat × Nat → Station
  | (typ, o) =>
    let f := cellAt x o
    let put (t : Station) (off k n : Nat) : Station := (t.winWrite off n (f k n)).getD t
    match typ with
    | 1 =>
      let t := [(0, 0x48), (0x100, 0x208), (0x340, 0x40)].foldl (fun t (a, n) => put t a a n) t
      { t with h := Vector.ofFn fun i : Fin 16 => f.handle (0x400 + 32 * i.val) origin t.h[i] }
    | 2 =>
      { t with
        ctx := Vector.ofFn fun i : Fin 8 => t.ctx[i].load (f.from (192 * i.val))
        hctx := Vector.ofFn fun i : Fin 8 => chanOf? (f (1536 + i.val) 1)
        cnt := Vector.ofFn fun i : Fin 8 => BitVec.ofNat 32 (f (1544 + 4 * i.val) 4) }
    | 4 =>
      let n := storeSize t.kind
      { t with store := Memory.write [] 0 n (f 0 n), shadow := if t.kind = .s then Memory.write [] 0 n (f n n) else t.shadow }
    | 5 =>
      let u := (List.range 4).foldl (fun t k => put t (0x200000 + 0x2000 * k) (4608 * k) 4608) t
      let u := (List.range 2).foldl (fun t k => put t (0x280000 + 0x10000 * k) (18432 + 32960 * k) 32960) u
      let u := put u 0x2C0000 84352 1024
      (match t.mat, u.mat with
        | some old, some new => { u with mat := some (old.load new t.id (f.from 86400) (f.from 85376) fun k => f.from (18432 + 32960 * k)) }
        | _, _ => u)
    | 6 => { t with sd := t.sd.map fun d => d.load origin f }
    | 7 =>
      let t := put t 0x300000 0 8240
      { t with ss := t.ss.map fun z => { z with io := z.io.map fun io => io.load (f.from 8248) } }
    | 8 => t.loadNodes f
    | 9 => { t with c := t.c.set 7 (t.c[7].refill ((f.from 8).tokens (f 0 8))).1 }
    | _ => t

/-- The sections of a station record. -/
def State.loadStation (s : State) (i origin : StId) (x : Nat) (secs : List (Nat × Nat)) : State :=
  secs.foldl (fun s e => if e.1 = 3 then s.loadChannels i (cellAt x e.2) else s.modStation i fun t => t.load origin x e) s

/-! ### Requests, copies and domains (R444) -/

/-- An operation from its code, width and word; a copy, and what the code does not tell, stay those of the record. -/
def ReqOp.reload (old : ReqOp) (code w x : Nat) : ReqOp :=
  match code % 64 with
  | 1 => .load w (code.testBit 7)
  | 2 => .loadV w
  | 3 => .loadK
  | 4 => .store w
  | 5 => .ldt w (code.testBit 7) (code.testBit 6)
  | 6 => .upd (BitVec.ofNat 6 x) w
  | 7 => .reclaim
  | 8 => .settle
  | 9 => .atom (BitVec.ofNat 6 x) w
  | 10 => .red (BitVec.ofNat 6 x) w
  | 11 => .xred
  | 12 => .pref x
  | 13 => .disc x
  | 14 => .mnop
  | 15 => .xlat
  | 17 => .agLoad (w == 64)
  | 18 => .monw
  | 19 => .monc (BitVec.ofNat 64 x)
  | _ => old

/-- The order fields of an entry. -/
def Req.loadOrder (q : Req) (f : Cell) : Req :=
  { q with
    stamp := BitVec.ofNat _ (f 0 8), pass := f 8 4, pred := BitVec.ofNat 7 (f 12 1), own := BitVec.ofNat 7 (f 13 1), succ := BitVec.ofNat 7 (f 14 1),
    mf := BitVec.ofNat 4 (f 15 1) }

/-- A request from its entry. -/
def Req.load (q : Req) (origin : StId) (f : Cell) : Req :=
  { q.loadOrder f with
    port := q.port.map fun p => (p.1, if f 16 1 < 96 then f 16 1 else p.2),
    st := ⟨q.st.die, origin.x + f 17 1, origin.y + f 18 1⟩, ctx := Fin.ofNat 8 (f 19 1), slot := Fin.ofNat 32 (f 20 1),
    op := q.op.reload (f 22 1) (f 23 1) (f 24 8), h := f.handle 32 origin q.h, va := f 64 8, y := BitVec.ofNat 64 (f 72 8), data := BitVec.ofNat 512 (f 80 64),
    pa := q.pa.map fun p => { p with frame := f 144 4, mchk := BitVec.ofNat 16 (f 148 2) } }

/-- Dimensions of a nest. -/
def Cell.dims (f : Cell) (n : Nat) : List (Nat × Int × Int) := (List.range n).map fun i => (f (16 * i) 4, signed48 (f (16 * i + 4) 6), signed48 (f (16 * i + 10) 6))

/-- A copy from its entry, and the next one where its nest needs it. -/
def Copy.load (k : Copy) (origin : StId) (f : Cell) : Copy :=
  let n := f 23 1 / 2
  { k with
    src := ⟨f.handle 24 origin k.src.h, signed48 (f 88 6)⟩, dst := ⟨f.handle 56 origin k.dst.h, signed48 (f 94 6)⟩, l0 := f 100 6, pos := f 106 6,
    dims := (f.from 112).dims (Nat.min n copyDims) ++ (f.from 184).dims (n - copyDims) }

/-- The entries of a request list over the requests of the record, in their order. -/
def State.loadRequests (s : State) (origin : StId) (f : Cell) : List Req → Nat → State
  | [], _ => s
  | q :: qs, o =>
    let g := f.from o
    match q.op with
    | .copy k =>
      let n := g 23 1 / 2
      if s.copies.all fun c => c.id ≠ k then State.loadRequests s origin f qs o
      else
        let s := (s.modCopy k fun c => c.load origin g).modReq q.id fun r => r.loadOrder g
        State.loadRequests s origin f qs (o + if n ≤ copyDims then 160 else 320)
    | _ => State.loadRequests (s.modReq q.id fun r => r.load origin g) origin f qs (o + 160)

/-- The pass count and the next state of a domain. -/
def Domain.load (d : Domain) (f : Cell) : Domain :=
  { d with pass := f 0 4, next := match f 4 1 with | 0 => .start | 1 => .own (BitVec.ofNat 7 (f 5 1)) | _ => .after (BitVec.ofNat 7 (f 5 1)) }

/-- The request list of a region's image, and the domains after it. -/
def State.loadList (s : State) (v : Voyage) (r : Region) (x o n : Nat) : State :=
  let ds := s.domains.filter fun d => d.voy == v.id && d.reg == r.idx
  let qs := releaseOrder ds (s.reqs.filter fun q => q.voy == v.id && q.reg == r.idx && q.unperformed)
  let s := s.loadRequests (r.at 0 0) (cellAt x o) qs 0
  { s with domains := s.domains.map fun d =>
      match ds.zipIdx.find? fun e => e.1 == d with | some (_, i) => d.load (cellAt x (o + 160 * n + 16 * i)) | none => d }

/-! ### The voyage block (R445) -/

/-- A barrier entry: in memory where it is spilled. -/
def State.loadBarEntry (s : State) (b : BarEntry) (f : Cell) : Helm State :=
  let b := { b with exp := BitVec.ofNat 32 (f 0 4), arr := BitVec.ofNat 32 (f 4 4), ph := BitVec.ofNat 32 (f 8 4) }
  match (s.setBar b).storeBar b with | .ok (s, _) => .ok s | .error d => .error (.frames d)

/-- A sequencer entry: the die is that of its slot. -/
def Task.load (t : Task) (v : Voyage) (f : Cell) : Task :=
  { t with
    ts := BitVec.ofNat 32 (f 0 4), handler := f 4 1, die := (match v.regions.find? fun r => r.slotNo == f 6 1 with | some r => r.die | none => t.die),
    spoiled := (f 7 1).testBit 0, args := ⟨BitVec.ofNat 512 (f 8 64), BitVec.ofNat 64 (f 72 8), BitVec.ofNat 6 (f 80 1)⟩,
    st := match f 5 1, t.st with | 0, _ => .held | 1, _ => .ready | 2, x => x | _, _ => .done }

/-- The voyage block of region 0. -/
def State.loadBlock (s : State) (v : Voyage) (x o : Nat) : Helm State := do
  let bs := s.bars.filter fun b => b.key.voy == v.id
  let ts := s.tasks.filter fun t => t.voy == v.id
  let s ← bs.zipIdx.foldlM (fun (s : State) (b, i) => s.loadBarEntry b (cellAt x (o + 16 * i))) s
  let tasks := s.tasks.map fun t =>
    match ts.zipIdx.find? fun e => e.1.id == t.id with | some (_, i) => t.load v (cellAt x (o + 16 * bs.length + 96 * i)) | none => t
  return { s with tasks := tasks }

/-! ### Images -/

/-- A region's latest complete image, laid over its part of the voyage. -/
def State.loadImage (s : State) (v : Voyage) (r : Region) : Helm State :=
  match r.slotImg.bind (s.slotVa v r) with
  | none => .ok s
  | some a => do
    let (h, s) ← s.helmRead r.die v.asid a 256 false
    let (x, s) ← s.helmRead r.die v.asid a (fld h 0x100 30) false
    let list := fld h 0x140 32
    let s := (recordsOf x list 4096 256).foldl (fun (s : State) (px, py, secs) => s.loadStation (r.at px py) (r.at 0 0) x secs) s
    let s := s.loadList v r x list (fld h 0x160 32)
    if r.idx = 0 then s.loadBlock v x (fld h 0x180 32) else return s

/-- The images of a voyage's regions. -/
def State.loadImages (s : State) (voy : Nat) : Helm State :=
  match s.voyage? voy with
  | none => .ok s
  | some v => v.regions.foldlM (fun (s : State) r => s.loadImage v r) s

end Sys2Proof.Machine
end

