-- ==== Sys2Proof/Machine/Drain.lean ====
section
/-! DEFINITION. Drains, snapshots and resume (R46, R199, R440-R448), and the loss of a die link, a slice or a die (R25, R32, R34, R35, R261, R436). -/

namespace Sys2Proof.Machine

open Sys2Proof

/-! ### Deciding and freezing (R440, R441, R448) -/

/-- A drain abandons a snapshot that has not begun to save: its generation is not consumed (R199). -/
def Region.abandon (r : Region) : Region :=
  match r.snap with | .pending _ => { r with snap := .none, gen := r.gen - 1, frozen := false } | _ => r

/-- DRAIN (R46, R256, R440): the voyage freezes. One drain covers both reasons: with a time limit it is not requeued. -/
def execDrain (s : State) : Host.Outcome State Fault Refusal :=
  match s.ev with
  | .drain voy reason =>
    match s.voyage? voy with
    | none => .next s
    | some v =>
      if v.ended || v.retired || v.halted then .next s
      else match v.drain with
        | some (r, n) => .next (s.modVoyage voy fun v => { v with drain := some (if r = 0 then reason else r, n), requeue := v.requeue && reason == 0 })
        | none =>
          .next (s.modVoyage voy fun v =>
            { v with drain := some (reason, 0), frozen := true, requeue := reason == 0, regions := v.regions.map Region.abandon })
  | _ => .next s

/-- SNAPSHOT (R199): a region with a pending snapshot freezes. -/
def execSnapshot (s : State) : Host.Outcome State Fault Refusal :=
  match s.ev with
  | .region voy reg =>
    match s.voyage? voy, s.region? voy reg with
    | some v, some r =>
      .next (if v.drain.isNone && r.snap == .pending 0 && r.st == .running then s.modRegion voy reg fun r => { r with frozen := true } else s)
    | _, _ => .next s
  | _ => .next s

/-! ### Settling and saving -/

/-- A released request that has to perform, or whose reply has to land, before the image is written (R440 steps 2 and 3). -/
def Req.settling (q : Req) : Bool :=
  match q.stage with
  | .home _ => q.released
  | .bounced => q.released
  | .peer _ => true
  | .reply .. => true
  | _ => false

/-- Units, landings and released requests of a region have finished. -/
def State.settled (s : State) (voy reg : Nat) : Bool :=
  (s.stationsOf voy reg).all (fun t => t.flights.isEmpty && t.busy.isEmpty) && 
    !s.reqs.any (fun q => q.voy == voy && q.reg == reg && q.settling) && !s.barMsgs.any fun m => m.key.voy == voy && m.away.isSome

/-- Cycles that the largest share of an image on one die takes: 512 bytes a cycle. -/
def State.saveCycles (s : State) (v : Voyage) (rs : List Region) : Nat :=
  let share (d : Nat) : Nat := (rs.filter fun r => r.die == d).foldl (fun n r => n + blobLen (s.regionImage v r 0 0)) 0
  (List.range 4).foldl (fun n d => Nat.max n ((share d + 511) / 512)) 0

/-- The voyage leaves its plats: what was saved stays, with its participants (R445). -/
def State.leave (s : State) (v : Voyage) : State :=
  let s := s.clearVoyage v.id
  { s with
    voyages := s.voyages.filter fun u => u.id ≠ v.id
    reqs := s.reqs.filter fun q => q.voy ≠ v.id
    copies := s.copies.filter fun q => q.voy ≠ v.id
    domains := s.domains.filter fun d => d.voy ≠ v.id }

/-- A requeued launch stands at the head of the waiting list (R46). -/
def State.requeueVoyage (s : State) (v : Voyage) : State :=
  let l : Launch :=
    { id := s.nextId, queue := v.queue, idx := 0, asid := v.asid, pkt := v.pkt, time := s.time, front := some 0, resume := some v.save,
      starve := false }
  { s with launches := l :: s.launches }.fresh

/-- The record of a voyage that has been saved, its regions drained. -/
def Saved.drained (k : Saved) : Saved :=
  { k with held := true, voy := { k.voy with regions := k.voy.regions.map fun r => { r with st := if r.st == .retired then r.st else .drained } } }

/-- A drained voyage is saved, with what its retired regions still have under way, and leaves its plats. A save that fails leaves the record of the previous
complete image as the latest (R440); while no frame can be had, the Helm waits (R469). -/
def State.saveVoyage (s : State) (v : Voyage) (reason : Nat) : State :=
  let out (s : State) (v : Voyage) : State :=
    let k := (s.savedAt v).drained
    let s := { s with saved := (v.save, k) :: s.saved.filter fun e => e.1 ≠ v.save }.leave v
    if v.requeue && k.complete then s.requeueVoyage v else s
  match s.saveRegions v v.regions reason (fun r => if r.st == .retired then 1 else 3) fun r => r.gen + 1 with
  | .error (.frames d) => s.soon .poolBorrow (.die d)
  | .error _ => out s v
  | .ok s' => out s' ((s'.voyage? v.id).getD v)

/-- IMAGE_SAVE_DONE (R199, R440): the last byte has performed. A snapshot unfreezes its region, unless a drain follows. -/
def execImageSaveDone (s : State) : Host.Outcome State Fault Refusal :=
  match s.ev with
  | .region voy reg =>
    match s.voyage? voy, s.region? voy reg with
    | some v, some r =>
      if r.snap ≠ .saving 0 ∨ !r.frozen then .next s
      else
        let go (s : State) : State := s.modRegion voy reg fun q => { q with snap := .none, frozen := false }
        match s.saveRegions v [r] 2 (fun _ => 0) (·.gen) with
        | .error (.frames d) => .next (s.soon .poolBorrow (.die d))
        | .error _ => .next (go s)
        | .ok s => .next (go s)
    | _, _ => .next s
  | .voyage voy =>
    match s.voyage? voy with
    | none => .next s
    | some v =>
      match v.drain with
      | some (reason, _) =>
        .next (if v.owed.isEmpty && v.regions.all (fun r => r.st == .retired || (r.snap == .saving 0 && !r.frozen)) then s.saveVoyage v reason.toNat else s)
      | none => .next s
  | _ => .next s

/-! ### Moving a saved voyage (R446, R447) -/

/-- Where a region stood and where it goes. -/
structure Move where
  reg  : Nat
  die  : Nat
  px   : Nat
  py   : Nat
  pw   : Nat
  ph   : Nat
  die' : Nat
  px'  : Nat
  py'  : Nat

def Move.st? (m : Move) (i : StId) : Option StId :=
  if i.die = m.die ∧ 4 * m.px ≤ i.x ∧ i.x < 4 * (m.px + m.pw) ∧ 4 * m.py ≤ i.y ∧ i.y < 4 * (m.py + m.ph) then
    some ⟨m.die', i.x - 4 * m.px + 4 * m.px', i.y - 4 * m.py + 4 * m.py'⟩
  else none

def moveSt (ms : List Move) (i : StId) : StId := (ms.findSome? (·.st? i)).getD i
def moveDie (ms : List Move) (d : Nat) : Nat := match ms.find? (fun m => m.die == d) with | some m => m.die' | none => d

/-- A handle of a region moves with it (R447). -/
def moveHandle (ms : List Move) (reg : Nat) (h : HEntry) : HEntry :=
  match ms.find? (fun m => m.reg == reg) with
  | some m => (h.saved ⟨m.die, 4 * m.px, 4 * m.py⟩).placed ⟨m.die', 4 * m.px', 4 * m.py'⟩
  | none => h

def moveKey (ms : List Move) (k : BarKey) : BarKey :=
  match k.scope with
  | .quad => { k with inst := scopeInst .quad (moveSt ms ⟨k.inst / 4096, 2 * (k.inst / 64 % 64), 2 * (k.inst % 64)⟩) }
  | .die => { k with inst := moveDie ms k.inst }
  | _ => k

def moveSrc (ms : List Move) (reg : Nat) : DomSrc → DomSrc
  | .agen side off =>
    match ms.find? (fun m => m.reg == reg) with
    | some m => .agen side (if side % 2 = 0 then off - 4 * m.px + 4 * m.px' else off - 4 * m.py + 4 * m.py')
    | none => .agen side off
  | .tree st => .tree (moveSt ms st)
  | .rules => .rules

/-- A walk that a checkpoint found running or paused has been resumed from it (R401). -/
def QReg.resume (q : QReg) : QReg := if q.state = 1 ∨ q.state = 2 then { q with walk := q.walk.map fun w => { w with resumed := true } } else q

def Station.move (ms : List Move) (t : Station) : Station :=
  let park (p : Park) : Park := { p with owner := moveSt ms p.owner }
  { t with
    id := moveSt ms t.id, h := t.h.map (moveHandle ms t.reg), cache := [],
    ctx := t.ctx.map fun c => { c with arrs := c.arrs.map fun a => { a with key := moveKey ms a.key } },
    mat := t.mat.map fun m => { m with t := m.t.map (fun x => { x with parks := x.parks.map park }), a := m.a.map fun x => { x with parks := x.parks.map park } },
    sd := t.sd.map fun d => { d with q := d.q.map QReg.resume, eng := d.eng.map fun j => { j with wait := none, held := 0 } } }

def Req.move (ms : List Move) (q : Req) : Req :=
  { q with st := moveSt ms q.st, src := moveSrc ms q.reg q.src, h := moveHandle ms q.reg q.h, port := q.port.map fun (d, i) => (moveDie ms d, i) }

def Copy.move (ms : List Move) (k : Copy) : Copy :=
  { k with st := moveSt ms k.st, src := { k.src with h := moveHandle ms k.reg k.src.h }, dst := { k.dst with h := moveHandle ms k.reg k.dst.h } }

def Domain.move (ms : List Move) (d : Domain) : Domain := { d with die := moveDie ms d.die, src := moveSrc ms d.reg d.src }

def BarEntry.move (ms : List Move) (b : BarEntry) : BarEntry :=
  { b with key := moveKey ms b.key, swaps := b.swaps.map fun (i, h) => (moveSt ms i, h) }

def BarMsg.move (ms : List Move) (b : BarMsg) : BarMsg := { b with key := moveKey ms b.key, st := moveSt ms b.st }

def Task.move (ms : List Move) (t : Task) : Task :=
  { t with die := moveDie ms t.die, st := match t.st with | .running i c => .running (moveSt ms i) c | x => x }

/-- The tokens of a saved route stand on the new one, from its destination back; what the new way cannot hold waits at its start. -/
def refillHops (es : List Entry) : List Hop → List Hop
  | [] => []
  | [h] => [{ h with fifo := { h.fifo with q := es } }]
  | h :: r =>
    let room := r.foldl (fun n h => n + h.fifo.cap) 0
    { h with fifo := { h.fifo with q := es.drop room } } :: refillHops (es.take room) r

def Route.refill (new old : Route) : Route :=
  { new with hops := refillHops (old.hops.reverse.flatMap fun h => h.fifo.q) new.hops, joined := old.joined, closed := old.closed }

/-! ### Where a saved voyage fits (R446) -/

/-- Origins for the regions of one die slot on a die, one region after the other. -/
def State.resumeDie (s : State) (ok : List Voyage → Bool) (d : Nat) (rs : List RegI) : Option (List (Nat × Nat × Nat)) :=
  let rec go : List RegI → List (Nat × Nat × Nat) → List (Nat × Nat) → Option (List (Nat × Nat × Nat))
    | [], _, _ => some []
    | r :: rest, used, gens => do
      let (x, y) ← (origins r.pw r.ph).find? fun (x, y) =>
        let vs := s.occupants d x y r.pw r.ph
        ok vs && r.fits (gens ++ s.agensOf d vs) x y && (plats d x y r.pw r.ph).all fun p => !used.contains p
      let more ← go rest (used ++ plats d x y r.pw r.ph) (gens ++ r.agensAt x y)
      return (d, x, y) :: more
  go rs [] []

/-- A place for every region: the die slots in order on distinct ready dies that no starved launch keeps (R45). Answers (region, die, origin); `fit` says
whether a die slot may stand on a die, `ok` whether the voyages of a rectangle may leave it. -/
def State.resumeSpots (s : State) (l : Launch) (fit : Nat → Nat → Bool) (ok : List Voyage → Bool) (m : Image) : Option (List (Nat × Nat × Nat × Nat)) :=
  ((List.range m.kslot).foldl (fun r k => r.bind fun (used, got) =>
    let rs := m.regs.zipIdx.filter fun (g, _) => g.slot == k
    ((List.range 4).findSome? fun d =>
      if used.contains d ∨ !s.dieReady d ∨ s.barred l d ∨ !fit k d then none else (s.resumeDie ok d (rs.map (·.1))).map fun ps => (d, ps)).map fun (d, ps) =>
        (d :: used, got ++ (rs.zip ps).map fun ((_, i), p) => (i, p))) (some (([] : List Nat), ([] : List (Nat × Nat × Nat × Nat))))).map (·.2)

/-- The voyages to drain for a resumption with PE (R46): every occupied plat belongs to one that may be pre-empted, whatever edges its die has. -/
def State.resumeVictims (s : State) (l : Launch) (m : Image) : List Nat :=
  if !l.pkt.pe then []
  else match s.resumeSpots l (fun _ _ => true) (·.all (s.victim l)) m with
    | none => []
    | some sp => ((sp.flatMap fun (i, d, x, y) => match m.regs[i]? with | some r => s.occupants d x y r.pw r.ph | none => []).map (·.id)).eraseDups

/-- The image with each region standing by itself at its own origin. -/
def Image.apart (m : Image) : Image := { m with regs := m.regs.zipIdx.map fun (r, i) => { r with slot := i, px := 0, py := 0 } }

/-- The moves of a saved voyage. -/
def movesOf (v : Voyage) (at' : List (Nat × Nat × Nat × Nat)) : List Move :=
  v.regions.filterMap fun r => (at'.find? (fun p => p.1 == r.idx)).map fun (_, d, x, y) => ⟨r.idx, r.die, r.px, r.py, r.pw, r.ph, d, x, y⟩

/-! ### Restoring (R446) -/

/-- A spilled entry is read before the launch zeroes the table for its new place. -/
def liftWalker (r : Except Nat α) : Helm α := match r with | .ok x => .ok x | .error d => .error (.frames d)

/-- Replace the members of a list that belong to a voyage's region by saved ones, in their order. -/
def State.restoreRoutes (s : State) (voy : Nat) (k : Saved) : State :=
  let ids := k.voy.regions.flatMap fun r =>
    (s.routes.filter fun (q : Route) => q.voy == voy && q.reg == r.idx).zip (k.routes.filter fun (q : Route) => q.reg == r.idx)
  { s with routes := s.routes.map fun q => match ids.find? (fun p => p.1.id == q.id) with | some (_, old) => q.refill old | none => q }

/-- The state of a saved voyage over the stations that a fresh configuration has set up. -/
def State.restore (s : State) (voy : Nat) (k : Saved) (ms : List Move) : State :=
  let s := s.restoreRoutes voy k
  let keyed := k.stations.map (Station.move ms)
  { s with
    stations := s.stations.map fun (t : Station) =>
      if t.voy = voy then (match keyed.find? (fun u => u.id == t.id) with | some u => u | none => t) else t
    agens := s.agens.map fun (g : Agen) =>
      if g.voy = voy then
        match k.agens.find? (fun o => o.reg == g.reg && o.side == g.side && moveSrc ms o.reg (.agen o.side o.off) == .agen g.side g.off) with
        | some o => { g with pos := o.pos, done := o.done, outq := o.outq }
        | none => g
      else g
    reqs := s.reqs ++ k.reqs.map (Req.move ms)
    copies := s.copies ++ k.copies.map (Copy.move ms)
    domains := (s.domains.filter fun d => d.voy ≠ voy) ++ k.domains.map (Domain.move ms)
    barMsgs := s.barMsgs ++ k.msgs.map (BarMsg.move ms)
    tasks := s.tasks ++ k.tasks.map (Task.move ms)
    marks := s.marks.map fun (m : Mark) => match m.who with
      | .sequencer v d => if v = voy then { m with who := .sequencer v (moveDie ms d) } else m
      | .domain .. => m }

/-- The saved barrier entries, in the new mapping (R446). -/
def State.restoreBars (s : State) (bs : List BarEntry) (ms : List Move) : Helm State :=
  bs.foldlM (fun (s : State) b =>
    let b := b.move ms
    let b := { b with spilled := (s.barEntry b.key).spilled }
    (liftWalker ((s.setBar b).storeBar b)).map (·.1)) s

/-- The region records of a resumed voyage: what was saved, at the new place. -/
def resumeRegion (ms : List Move) (r : Region) : Region :=
  match ms.find? (fun m => m.reg == r.idx) with
  | none => r
  | some m =>
    { r with
      die := m.die', px := m.px', py := m.py', st := if r.st == .retired then r.st else .waiting, frozen := false, snap := .none,
      htab := r.htab.map (moveHandle ms r.idx) }

/-- Configure and restore a saved voyage at a place (R446): it does not go there where routes find no room. What cannot be read of an image, and a barrier
table that cannot be zeroed, stop the queue (R469). -/
def State.reconfigure (s : State) (l : Launch) (k : Saved) (m : Image) (htab : List Nat) (at' : List (Nat × Nat × Nat × Nat)) : Placed :=
  let voy := k.voy.id
  let sp : Spots := m.regs.zipIdx.map fun (_, i) => match at'.find? (fun p => p.1 == i) with | some (_, p) => p | none => (0, 0, 0)
  let m := m.apart
  let ms := movesOf k.voy at'
  let hs := m.handlers
  let v := { k.voy with
    regions := k.voy.regions.map (resumeRegion ms), quiet := 0, moved := false, dead := false, frozen := true, drain := none, requeue := false, ended := false,
    pool := at'.flatMap fun (i, d, x, y) => match m.regs[i]? with | some r => plats d x y r.pw r.ph | none => [],
    start := m.loadCycles, bars := k.voy.bars.map (moveKey ms), owed := [] }
  let s := { s with
    voyages := s.voyages ++ [v]
    stations := s.stations ++ m.regs.zipIdx.flatMap fun ((r : RegI), i) => r.stations i voy sp htab l.pkt.slb (hs.getD i [])
    agens := s.agens ++ m.regs.zipIdx.flatMap fun ((r : RegI), i) => r.agens i voy sp htab }
  match s.addRoutes m sp voy with
  | none => .no
  | some s =>
    let placed : Helm State := do
      let (bs, s) ← k.bars.foldlM (fun (bs, (s : State)) b => (liftWalker (s.loadBar b)).map fun (s, b) => (bs ++ [b], s)) (([] : List BarEntry), s)
      (← ((← s.addBars v.bars).restore voy k ms).restoreBars bs ms).loadImages voy
    match placed with
    | .error (.frames d) => .frames d
    | .error _ => .stop 0x06
    | .ok s =>
      let s := s.owe voy (v.regions.flatMap fun r => if r.st == .retired then [] else s.stateWrites v r 0)
      let s := (s.routes.filter fun (r : Route) => r.voy == voy && !r.joined).foldl State.announce s
      .ok { s.retryJoins.modQueue l.queue fun q => { q with live := voy :: q.live.filter (· ≠ voy) } with
        saved := (k.voy.save, { k with held := false }) :: s.saved.filter fun e => e.1 ≠ k.voy.save }

/-- RESUME_PLACE (R446, R447): a saved voyage on any ready dies and origins of its shape; one with PE that does not fit looks for victims (R46). -/
def execResumePlace (s : State) : Host.Outcome State Fault Refusal :=
  match s.ev with
  | .launch id =>
    match s.launches.find? (fun l => l.id == id) with
    | none => .next s
    | some l =>
      match l.resume.bind fun n => s.saved.find? (fun e => e.1 == n) with
      | none => .next s
      | some (_, k) =>
        if !k.complete then .next s
        else match s.readLaunch l.asid l.pkt with
          | .error (.frames d) => .next (s.soon .poolBorrow (.die d))
          | .error _ => .next ((s.dropLaunch id).stopQueue l.queue 0x06)
          | .ok (i, htab, s) =>
            match i.parse with
            | none => .next ((s.dropLaunch id).failQueue l.queue ⟨0, 0, 0, true, 0, 0⟩)
            | some m =>
              if !s.peersReady l.asid m then .next s
              else match s.resumeSpots l (s.edgesFit m) List.isEmpty m with
                | none => .next ((s.resumeVictims l m).foldl (fun s v => s.soon .drain (.drain v 0)) s)
                | some at' =>
                  match s.reconfigure l k m htab at' with
                  | .no => .next s
                  | .frames d => .next (s.soon .poolBorrow (.die d))
                  | .stop c => .next ((s.dropLaunch id).stopQueue l.queue c)
                  | .bad f => .next ((s.dropLaunch id).failQueue l.queue f)
                  | .ok s => .next (s.dropLaunch id)
  | _ => .next s

/-! ### Loss of links, slices and dies -/

/-- Flows take the other way round the ring, with what stands in their channels (R22, R25). -/
def State.reroute (s : State) (r : Route) : Route :=
  let far := r.hops.filter fun h => h.kind == .dieLink || h.kind == .forward
  match far.head?, r.dests with
  | some h, (d, _) :: _ =>
    if far.all fun h => s.linkUpCw (if h.cw then h.die else h.die + 3) then r
    else match s.dieWay h.die d.die with
      | none => r
      | some (cw, way) =>
        let es := far.reverse.flatMap fun h => h.fifo.q
        let links : List Hop := (h.die :: way.dropLast).zipIdx.map fun (e, k) =>
          { h with kind := if k = 0 then .dieLink else .forward, fifo := { Fifo.empty 64 with q := if k = 0 then es else [] }, die := e, cw := cw }
        let before := r.hops.takeWhile fun h => h.kind != .dieLink
        let after := r.hops.filter fun h => h.kind != .dieLink && h.kind != .forward
        { r with hops := before ++ links ++ after.drop before.length }
  | _, _ => r

/-- A request or a reply on its way takes the other way round (R22, R25); one that bounces goes by its port (R261). -/
def State.rewayReq (s : State) (q : Req) : Req :=
  match q.way with
  | [] => q
  | (d, _) :: _ =>
    if q.way.all fun (e, cw) => s.linkUpCw (if cw then e else e + 3) then q
    else
      let path (a b : Nat) : Option (List (Nat × Bool)) := if a = b then some [] else (s.dieWay a b).map fun (cw, w) => linksOf a cw w
      let via := match q.stage with | .reply .. => true | _ => q.way.tail.any fun l => l.1 == q.die
      let rest := match q.stage with | .reply .. => some [] | _ => if via then path q.die q.homeDie else path d q.homeDie
      match (if via then path d q.die else some []), rest with
      | some a, some b => { q with way := a ++ b }
      | _, _ => q

/-- What stands on a way with a link that is down takes another way, where there is one (R25). -/
def State.rewayAll (s : State) : State :=
  { s with
    routes := s.routes.map s.reroute, reqs := s.reqs.map s.rewayReq,
    paths := s.paths.map fun (k : FlowPath) => { k with cw := s.keptWay k.port.1 k.far (some k.cw) } }.draw

/-- A link goes down at both its ends (R25, R34). -/
def State.dropLink (s : State) (d : Nat) (ccw : Bool) : State :=
  let a := if ccw then (d + 3) % 4 else d
  ((s.modDie a fun x => { x with cw := 0 }).modDie ((a + 1) % 4) fun x => { x with ccw := 0 }).rewayAll

/-- DIE_LINK_DOWN (R25, R34). -/
def execDieLinkDown (s : State) : Host.Outcome State Fault Refusal :=
  match s.ev with
  | .unit (.link d ccw _) => .next (s.dropLink d ccw)
  | _ => .next s

/-- A die fails: its die bit reads 0, and every region placed on it halts with corrupt data, INFO 4 (R35, R436). -/
def State.failDie (s : State) (d : Nat) : State :=
  let s := s.modDie d fun x => { x with failed := true, ready := x.ready &&& ~~~1 }
  (s.voyages.filter fun v => !v.ended && v.regions.any fun r => r.die == d && (r.st == .running || r.st == .waiting)).foldl (fun s v =>
    let rs := v.regions.filter fun r => r.die == d && r.st != .retired
    let payload := match rs.head?.bind fun r => s.station? (r.at 0 0) with
      | some t => (faultPayload t 0 0 ⟨0x0A, 4, 0⟩).extractLsb' 0 128
      | none => 0
    s.haltVoyage v (rs.map (·.idx)) 0x0A payload) s

/-- A die that fails its power-on self-test is not live, and is held in reset: its links are down at both ends (R31, R32, R261). -/
def State.failSelfTest (s : State) (d : Nat) : State := (s.modDie d fun x => { x with live := false, ready := 0, rsn := 2 }).setLinks d 0 0

/-- DIE_FAILURE (R32, R35): at run time, or, during a start, of the power-on self-test. -/
def execDieFailure (s : State) : Host.Outcome State Fault Refusal :=
  match s.ev with
  | .die d => .next (if s.state = 0 then s.failSelfTest d else s.failDie d)
  | _ => .next s

/-- SLICE_RETIRE (R34, R261): the slice writes its dirty lines back, and bitmap, count and map change together; requests under the old map will be bounced.
The last live slice is never retired: its failure is the die's. -/
def execSliceRetire (s : State) : Host.Outcome State Fault Refusal :=
  match s.ev with
  | .slice d i =>
    match s.die? d with
    | none => .next s
    | some x =>
      if !x.slices.getLsbD i then .next s
      else if x.sliceCount ≤ 1 then .next (if s.state = 0 then s.failSelfTest d else s.failDie d)
      else .next ({ s with l2 := s.l2.filter fun e => s.home (128 * e.1) ≠ (d, i) }.modDie d fun x => { x with slices := x.slices &&& ~~~(BitVec.twoPow 96 i), epoch := x.epoch + 1 })
  | _ => .next s

end Sys2Proof.Machine
end

