-- ==== Sys2Proof/Machine/Sha.lean ====
section
/-! DEFINITION. SHA-256 (R455, R457) as FIPS 180-4 defines it, which is outside the spec: PRESUMED (log 93). Its constants are computed: they are the
fractions of the square roots and of the cube roots of the first primes, in 32 bits. -/

namespace Sys2Proof.Machine

open Sys2Proof

/-- The greatest number below 2^n whose e-th power is at most m, found bit by bit from the top; `r` holds the bits found. -/
def rootBits (e m : Nat) : Nat → Nat → Nat
  | 0, r => r
  | n + 1, r => rootBits e m n (if (r + 2 ^ n) ^ e ≤ m then r + 2 ^ n else r)

/-- 32 bits of the fraction of the e-th root of p, for p below 2^20. -/
def rootFraction (e p : Nat) : Nat := rootBits e (p * 2 ^ (32 * e)) 42 0 % 2 ^ 32

/-- The first n primes from p on; `fuel` bounds the search. -/
def primesFrom : (fuel n p : Nat) → List Nat
  | 0, _, _ => []
  | _, 0, _ => []
  | fuel + 1, n + 1, p =>
    if (List.range p).all fun d => decide (d < 2) || decide (p % d ≠ 0) then p :: primesFrom fuel n (p + 1) else primesFrom fuel (n + 1) (p + 1)

/-- Addition of 32-bit words. -/
def plus32 (xs : List Nat) : Nat := xs.foldl (· + ·) 0 % 2 ^ 32

/-- The exclusive or of a word's rotations to the right, and of the same word shifted by k places (none for k = 32). -/
def stir32 (x : Nat) (turns : List Nat) (k : Nat) : Nat :=
  turns.foldl (fun y n => y ^^^ (x >>> n ||| x <<< (32 - n) % 2 ^ 32)) (x >>> k)

/-- The words of the schedule from the one that `w`, the 16 words before it with the oldest first, precedes. -/
def scheduleFrom : Nat → List Nat → List Nat
  | 0, _ => []
  | n + 1, w =>
    let x := plus32 [w.getD 0 0, stir32 (w.getD 1 0) [7, 18] 3, w.getD 9 0, stir32 (w.getD 14 0) [17, 19] 10]
    x :: scheduleFrom n (w.tail ++ [x])

/-- One round. `v` holds the eight working words, a first; `add` is the word of the schedule with the constant of the round. -/
def round32 (v : List Nat) (add : Nat) : List Nat :=
  let at' (i : Nat) : Nat := v.getD i 0
  let pick : Nat := (at' 4 &&& at' 5) + ((2 ^ 32 - 1 - at' 4) &&& at' 6)
  let most : Nat := (at' 0 &&& (at' 1 ||| at' 2)) ||| (at' 1 &&& at' 2)
  let low : Nat := plus32 [at' 7, stir32 (at' 4) [6, 11, 25] 32, pick, add]
  plus32 [low, stir32 (at' 0) [2, 13, 22] 32, most] :: v.take 3 ++ plus32 [at' 3, low] :: (v.drop 4).take 3

/-- A message in blocks of 16 big-endian words: a bit 1, zeros and the length in bits end it. -/
def shaWords (bs : List Byte) : List Nat :=
  let n := bs.length
  let all := bs ++ 0x80 :: List.replicate ((119 - n % 64) % 64) 0 ++ (bytesOf 8 (8 * n)).reverse
  (List.range (all.length / 4)).map fun i => ofBytes ((all.drop (4 * i)).take 4).reverse

/-- The digest of a byte string: 32 bytes. -/
def sha256 (bs : List Byte) : List Byte :=
  let ps := primesFrom 400 64 2
  let ks := ps.map (rootFraction 3)
  let ws := shaWords bs
  let block (h : List Nat) (i : Nat) : List Nat :=
    let w := (ws.drop (16 * i)).take 16
    List.zipWith (fun a b => plus32 [a, b]) h ((List.zipWith (· + ·) ks (w ++ scheduleFrom 48 w)).foldl round32 h)
  ((List.range (ws.length / 16)).foldl block ((ps.take 8).map (rootFraction 2))).flatMap fun w => (bytesOf 4 w).reverse

end Sys2Proof.Machine
end

