-- ==== Sys2Proof/Machine/HostIf.lean ====
section
/-! DEFINITION. The host's side (R26-R33, R449-R462): owner election, registers, boot and minimal mode, power, the aperture, mailboxes. A CMD write reads the
fields of its command from the payload, where the model gives them places, since Table 23.6 gives none (log 43), and the command follows as one event. -/

namespace Sys2Proof.Machine

open Sys2Proof

/-! ### Ownership (R451-R453) -/

def State.isOwner (s : State) (m : Nat) : Bool := s.owned && s.owner.toNat == m

/-- OWNCLAIM (R452): a claim opens or joins a window; the last claim of a master counts. -/
def execOwnclaim (s : State) : Host.Outcome State Fault Refusal :=
  match s.ev with
  | .claim m p n =>
    if s.owned then .next s
    else .next { s with
      attached := s.attached ||| BitVec.twoPow 9 m
      claims := (s.claims.filter fun c => c.master ≠ m) ++ [⟨m, p, n⟩]
      window := match s.window with | some k => some k | none => some 2100 }
  | _ => .next s

/-- The winning claim: highest PRIO, highest NONCE, lowest master. -/
def State.winner (s : State) : Option Claim := leastBy (fun (c : Claim) => [255 - c.prio.toNat, 2 ^ 32 - 1 - c.nonce.toNat, c.master]) s.claims

/-- CLAIM_WINDOW_END (R452). -/
def execClaimWindowEnd (s : State) : Host.Outcome State Fault Refusal :=
  match s.window, s.winner with
  | some 0, some c => .next { s with owned := true, owner := BitVec.ofNat 4 c.master, claims := [], window := none }
  | _, _ => .next s

/-- OWNHAND (R453): the successor owns the device, or HERR is set. -/
def execOwnhand (s : State) : Host.Outcome State Fault Refusal :=
  match s.ev with
  | .master m v =>
    if !s.isOwner m then .next s
    else if s.attached.getLsbD (v.extractLsb' 0 4).toNat then .next { s with owner := v.extractLsb' 0 4 }
    else .next { s with herr := true }
  | _ => .next s

/-- OWNER_LAPSE (R453): a master's function is reset (value 0), or it goes away (value 1). -/
def execOwnerLapse (s : State) : Host.Outcome State Fault Refusal :=
  match s.ev with
  | .master m v =>
    let s := if v = 0 then s else { s with attached := s.attached &&& ~~~(BitVec.twoPow 9 m) }
    .next (if s.isOwner m then { s with owned := false, owner := 0 } else s)
  | _ => .next s

/-! ### Reset, boot, minimal mode (R28-R33, R455, R456) -/

/-- A die after a reset: its retired slices stay retired, and with none left it is not live (R261). -/
def Die.restart (g : Grade) (n : Nat) (d : Die) : Die :=
  let x := { Die.reset g n d.phys with slices := d.slices }
  if x.live && d.sliceCount == 0 then { x with live := false, rsn := 2 } else x

/-- The device after a reset: what a reset does not reach is the host's memory, the cells of device memory, the fused and retired parts, the count of
failed starts, ownership (R453), the queue registers (R38) and the model's own counters (log 44). Package time starts again (R198). -/
def State.deviceReset (s : State) (rsn : Byte) : State :=
  { State.resetFor s.grade 0 with
    free := s.free, nextId := s.nextId, inputs := s.inputs.map fun (n, i, a) => (n - s.time, i, a), ev := s.ev, host := s.host, mem := s.mem, bad := s.bad,
    tlboot := s.tlboot, failcnt := s.failcnt, bootrsn := rsn, attached := s.attached, owned := s.owned, owner := s.owner, herr := s.herr,
    queues := s.queues.map fun k => { k with wait := .none, live := [], poll := 0 },
    dies := Vector.ofFn fun i : Fin 4 => s.dies[i].restart s.grade i.val }

/-- A start has failed: BOOTRSN, FAILCNT, reset; at the third failure minimal mode (R456). DESIGN CHOICE (log 101): a die that minimal mode holds in reset
stays live, so its record still reads L = 1 and its count of slices. -/
def State.failStart (s : State) (rsn : Byte) : State :=
  let n : Byte := if s.failcnt.toNat < 3 then s.failcnt + 1 else 3
  let s := { s.deviceReset rsn with failcnt := n }
  if n = 3 then { s with state := 2, boot := .failed, dies := s.dies.map fun d => { d with ready := 0, rsn := if d.live then 1 else d.rsn } } else s

/-- Both dies of a link are live, so the link trains (R455). -/
def State.linkLive (s : State) (d : Nat) (ccw : Bool) : Bool := s.dieLive d && s.dieLive (if ccw then (d + 3) % 4 else (d + 1) % 4)

/-- A die's links as they train, at both their ends (R31). -/
def State.trainLinks (s : State) (d : Nat) : State := s.setLinks d (if s.linkLive d false then 1 else 0) (if s.linkLive d true then 1 else 0)

/-- A reset of one die alone (Table 1.8, code 0x04): of one that is not ready, and has not failed (R35, log 81). -/
def State.resetDie (s : State) (d : Nat) : State :=
  match s.die? d with
  | none => s
  | some x =>
    if x.ready.getLsbD 0 ∨ x.failed then s
    else
      let s := s.modDie d fun x => { x.restart s.grade d with alone := true, pool := x.pool, epoch := x.epoch }
      (if s.boot = .train ∨ s.boot = .running then s.trainLinks d else s.setLinks d 0 0).rewayAll

/-- DEVICE_RESET (R32, R455): the pilot cores start from ROM; or one die is reset alone. -/
def execDeviceReset (s : State) : Host.Outcome State Fault Refusal :=
  match s.ev with
  | .die d => .next (s.resetDie d)
  | _ => .next (s.deviceReset s.bootrsn)

/-- DIERSN of a started die (Table 1.8): 3 while a stack, or a link to a die that the grade has, is not ready, else 4 after a reset of it alone. DESIGN
CHOICE (log 102): the code is judged anew at every ready bit of the die, so it falls to 0 or 4 when the last of them is set. -/
def Die.reason (g : Grade) (n : Nat) (d : Die) : Die :=
  let up (i : Nat) : Bool := d.ready.getLsbD i
  let all := up 1 && up 2 && (up 3 || decide (g.dies ≤ (n + 1) % 4)) && (up 4 || decide (g.dies ≤ (n + 3) % 4))
  if up 0 then { d with rsn := if !all then 3 else if d.alone then 4 else 0 } else d

/-- A unit of a live die sets its ready bit (R33). -/
def State.setReady (s : State) (n i : Nat) (f : Die → Die) : State :=
  s.modDie n fun d => if d.live then (f { d with ready := d.ready ||| BitVec.twoPow 8 i }).reason s.grade n else d

/-- A start succeeds once a die has its die bit and its Helm bit (R455): FAILCNT is cleared. -/
def State.started (s : State) : State :=
  if s.state = 0 ∧ s.boot = .train ∧ (List.range 4).any s.dieReady then { s with state := 1, boot := .running, failcnt := 0, bootrsn := 0 } else s

/-- UNIT_READY (R31, R33, R463): units train and start once the firmware has been verified; a die that has failed does not come back (R35). -/
def execUnitReady (s : State) : Host.Outcome State Fault Refusal :=
  match s.ev with
  | .unit u =>
    if s.boot ≠ .train ∧ s.boot ≠ .running then .next s
    else
      let s := match u with
        | .pilot k => { s with pilots := s.pilots ||| BitVec.twoPow 16 k }
        | .arbiter => { s with arbiter := true }
        | .traverse k => (List.range 16).foldl State.moveFlows (s.modLink k fun l => { l with up := true }.resend.pump)
        | .die d => (match s.die? d with | some x => if x.failed then s else s.setReady d 0 id | none => s)
        | .stack d upper => s.setReady d (if upper then 2 else 1) id
        | .link d ccw half =>
          let w : BitVec 2 := if half then 3 else 2
          if !s.linkLive d ccw then s else (s.setReady d (if ccw then 4 else 3) fun x => if ccw then { x with ccw := w } else { x with cw := w }).rewayAll
        | .helm d => s.setReady d 5 id
      .next s.started
  | _ => .next s

/-- One second of station cycles. -/
def second : Nat := 2100000000

/-- FW_FETCH_TIMEOUT (R455): a fetch that has not completed within 1 s. -/
def execFwFetchTimeout (s : State) : Host.Outcome State Fault Refusal :=
  .next (if s.boot = .fetch ∧ second ≤ s.bootTime then s.failStart 0x02 else s)

/-- START_TIMEOUT (R456): no die ready within 2 s, or no stack trained on any die. -/
def execStartTimeout (s : State) : Host.Outcome State Fault Refusal :=
  if s.state = 0 ∧ 2 * second ≤ s.bootTime then
    let none' := s.dies.toList.all fun d => fld d.ready.toNat 1 2 == 0
    .next (s.failStart (if s.boot = .train ∧ none' then 0x04 else 0x03))
  else .next s

/-- PILOT_CORE_FAULT (R456): during a start. -/
def execPilotCoreFault (s : State) : Host.Outcome State Fault Refusal :=
  match s.ev with
  | .core _ => .next (if s.state = 0 then s.failStart 0x05 else s)
  | _ => .next s

/-- DEVCTL_RESET (R456). -/
def execDevctlReset (s : State) : Host.Outcome State Fault Refusal :=
  match s.ev with
  | .master m v => .next (if s.isOwner m && v.getLsbD 0 then s.deviceReset 0x06 else s)
  | _ => .next s

/-- DEVCTL_CLRFAIL (R456). -/
def execDevctlClrfail (s : State) : Host.Outcome State Fault Refusal :=
  match s.ev with
  | .master m v => .next (if s.isOwner m && v.getLsbD 1 then { s with failcnt := 0 } else s)
  | _ => .next s

/-- The image is complete: its signature is checked, the boot log extended, and the links train (R455). -/
def State.verify (s : State) : State :=
  if Config.firmwareOk s.fw then
    (List.range 4).foldl State.trainLinks { s with boot := .train, log := [sha256 Config.romImage, sha256 s.fw] }
  else s.failStart 0x01

/-! ### Power (R458) -/

/-- The module limit in force. -/
def State.limitW (s : State) : Nat := if s.pwrlim = 0 ∨ s.grade.watts < s.pwrlim.toNat then s.grade.watts else s.pwrlim.toNat

/-- PWRLIM_WRITE (R458). -/
def execPwrlimWrite (s : State) : Host.Outcome State Fault Refusal :=
  match s.ev with
  | .master m v => .next (if s.isOwner m then { s with pwrlim := v.extractLsb' 0 16 } else s)
  | _ => .next s

/-- A division of the budget, in mW: each live die takes some part of what is left, and an absent die nothing (R458, log 67). -/
def divide : Nat → List (Bool × Nat) → List Nat
  | _, [] => []
  | rest, (live, x) :: l => let n := if live then x % (rest + 1) else 0; n :: divide (rest - n) l

/-- The shares of the four dies, with THR - 1 of each in bits 39-32: both are the arbiter's to choose (R458). -/
def State.dieShares (s : State) : List (BitVec 40) :=
  let ns := divide (s.limitW * 1000) ((List.range 4).map fun i => (s.dieLive i, (Config.freeWord (s.free + i)).toNat % 2 ^ 32))
  ns.zipIdx.map fun (n, i) => BitVec.ofNat 40 (n + (Config.freeWord (s.free + i)).toNat / 2 ^ 32 % 2 ^ 8 * 2 ^ 32)

/-- POWER_REDIVIDE (R458): the budget is divided among the dies; the record goes to host memory. -/
def execPowerRedivide (s : State) : Host.Outcome State Fault Refusal :=
  let s := { s.draw.draw.draw.draw.draw with
    shares := Vector.ofFn fun i : Fin 4 => s.dieShares.getD i.val 0
    pwrnow := (Config.freeWord (s.free + 4)).setWidth 16
    pwrseq := s.pwrseq + 1 }
  if s.pwrmir = 0 then .next s
  else
    let x := packLanes 32 ((s.limitW * 1000) :: s.shares.toList.map fun x => x.toNat % 2 ^ 32) + s.pwrseq.toNat * 2 ^ 192
    .next { s with host := Memory.write s.host s.pwrmir.toNat 32 x }

/-! ### Registers (R449-R454) -/

/-- SBQUERY_WRITE (R454). -/
def execSbqueryWrite (s : State) : Host.Outcome State Fault Refusal :=
  match s.ev with
  | .master m v => .next (if s.isOwner m then { s with sbquery := v.extractLsb' 0 16 } else s)
  | _ => .next s

/-- QCTL: EN from 0 to 1 on a stopped queue re-enables it (R38). -/
def State.writeQctl (s : State) (q : Nat) (v : Word) : State :=
  let k := s.queue q
  let s' := s.modQueue q fun k => { k with en := v.getLsbD 0, asid := v.extractLsb' 16 16 }
  if v.getLsbD 0 && !k.en && k.stop then s'.soon .queueReenable (.queue q) else s'

/-- Bytes of a mailbox's payload (R459). -/
def payloadBytes : Nat := 4080

/-- A 64-bit word of a mailbox's payload; what has not been written reads 0. -/
def Mailbox.word (b : Mailbox) (i : Nat) : Nat := ofBytes ((b.out.drop (8 * i)).take 8)

/-- Bytes of a mailbox's payload. -/
def Mailbox.bytes (b : Mailbox) (off n : Nat) : List Byte := (List.range (Nat.min n (payloadBytes - off))).map fun i => b.out.getD (off + i) 0

/-- A write to a mailbox's payload. -/
def Mailbox.put (b : Mailbox) (off : Nat) (v : Word) : Mailbox :=
  let old := b.out ++ List.replicate (off + 8 - b.out.length) 0
  { b with out := old.take off ++ bytesOf 8 v.toNat ++ old.drop (off + 8) }

/-- The command that a code stands for, with the fields of its payload in words of 64 bits (Table 23.6). DESIGN CHOICE (log 43): word 0 and the words after
it hold the fields in the order of the table, a length, with the last flag in bit 32, stands in word 1 of LOAD_FW and a count in word 1 of FRAMES, and the
chunk and the frames begin at byte 16. -/
def Mailbox.command (b : Mailbox) (k : Nat) (tag code : Byte) : Instr × EvArg :=
  let w := b.word
  let asid : BitVec 16 := BitVec.ofNat 16 (w 0)
  match code.toNat with
  | 1 => (.loadFw, .fw k tag (w 0) (b.bytes 16 (w 1 % 2 ^ 32)) ((w 1).testBit 32))
  | 2 => (.attest, .nonce k tag (BitVec.ofNat 256 (ofBytes (b.bytes 0 32))))
  | 3 => (.setRoot, .box k tag code asid (w 1) 0 [])
  | 4 => (.setSavebase, .box k tag code asid (w 1) 0 [])
  | 5 => (.release, .box k tag code asid (w 1) (w 2) [])
  | 6 => (.frames, .box k tag code 0 (w 0) 0 ((List.range (Nat.min (w 1) 65)).map fun i => w (i + 2)))
  | 7 => (.resume, .box k tag code 0 (w 0) 0 [])
  | 8 => (.discard, .box k tag code 0 (w 0) 0 [])
  | 9 => (.bindPeer, .peer k tag asid (w 1) (BitVec.ofNat 16 (w 2)) (BitVec.ofNat 64 (w 3)))
  | _ => (.mailboxUnknown, .box k tag code 0 0 0 [])

/-- A CMD write (R460): BUSY, and the command follows; made while BUSY it is ignored, and LOST. -/
def State.writeCmd (s : State) (k : Fin 16) (v : Word) : State :=
  let b := s.mailboxes[k]
  if k = 15 then s
  else if b.busy then { s with mailboxes := s.mailboxes.set k { b with lost := true } }
  else
    let code : Byte := v.extractLsb' 0 8
    let tag : Byte := v.extractLsb' 8 8
    let c := b.command k tag code
    { s with mailboxes := s.mailboxes.set k { b with busy := true, code := code, tag := tag } }.soon c.1 c.2

/-- A register write by the owner. DESIGN CHOICE (log 87): the low bits of PWRMIR, which is 32-byte aligned, are not kept. -/
def State.ownerWrite (s : State) (m off : Nat) (v : Word) : State :=
  if off = 0x1010 then s.soon .ownhand (.master m v)
  else if off = 0x1018 then
    let s := if v.getLsbD 0 then s.soon .devctlReset (.master m v) else s
    if v.getLsbD 1 then s.soon .devctlClrfail (.master m v) else s
  else if off = 0x1020 then { s with apbase := v.extractLsb' 36 10 }
  else if off = 0x1028 then s.soon .sbqueryWrite (.master m v)
  else if off = 0x2000 then s.soon .pwrlimWrite (.master m v)
  else if off = 0x2030 then { s with pwrmir := v &&& ~~~31 }
  else if 0x10000 ≤ off ∧ off < 0x1F000 ∧ 0x10 ≤ off % 0x1000 then
    let k : Fin 16 := Fin.ofNat 16 (off / 0x1000)
    { s with mailboxes := s.mailboxes.set k (s.mailboxes[k].put (off % 0x1000 - 0x10) v) }
  else if 0x10000 ≤ off ∧ off < 0x20000 ∧ off % 0x1000 = 0 then s.writeCmd (Fin.ofNat 16 (off / 0x1000)) v
  else if 0x100000 ≤ off ∧ off < 0x110000 then
    let q := (off - 0x100000) / 0x40
    match (off - 0x100000) % 0x40 with
    | 0x00 => s.modQueue q fun k => { k with base := v &&& BitVec.ofNat 64 (31 * 2 ^ 59 + (2 ^ 55 - 64)) }
    | 0x08 => s.soon .qwridxWrite (.qwr q (v.setWidth 32) m)
    | 0x18 => s.writeQctl q v
    | _ => s
  else s

/-- REGISTER_WRITE (R451): a register stores, or the write is one of the events that have a behaviour of their own; writes of others than the owner are
ignored, but for OWNCLAIM, and so are writes to read-only and reserved places. -/
def execRegisterWrite (s : State) : Host.Outcome State Fault Refusal :=
  match s.ev with
  | .reg m off v =>
    if off = 0x1000 then .next (s.soon .ownclaim (.claim m (v.extractLsb' 0 8) (v.extractLsb' 8 32)))
    else .next (if s.isOwner m then s.ownerWrite m off v else s)
  | _ => .next s

/-- Mailbox 15: BUSY while a device request waits, and in its payload their number, then the dies that they name, in the order of arrival (R459, R461).
DESIGN CHOICE (log 104): the spec gives its payload no layout. -/
def State.boxShown (s : State) (k : Fin 16) : Mailbox :=
  if k = 15 then { s.mailboxes[k] with busy := !s.asks.isEmpty, out := (s.asks.length :: s.asks).flatMap fun n => bytesOf 8 n } else s.mailboxes[k]

/-- What a master reads (Tables 23.1, 23.2, 23.4, 23.5 and 2.1); reads are open to every master. DESIGN CHOICE (log 87): OWNHAND, DEVCTL and a mailbox's
CMD, for which the spec gives no read value, read 0. -/
def State.regRead (s : State) (m off : Nat) : Nat :=
  if off < 0x240 then s.enumField (off / 8 * 8)
  else if off = 0x1008 then bitAt s.owned 0 + s.owner.toNat * 2 ^ 4 + m % 16 * 2 ^ 8 + bitAt s.herr 12
  else if off = 0x1020 then s.apbase.toNat * 2 ^ 36
  else if off = 0x1028 then
    s.sbquery.toNat + (match s.saveBases.find? (fun b => b.1 == s.sbquery) with | some b => fld b.2.toNat 31 24 * 2 ^ 16 | none => 0)
  else if off = 0x2000 then s.pwrlim.toNat
  else if off = 0x2008 then s.pwrnow.toNat
  else if 0x2010 ≤ off ∧ off < 0x2030 then let x := s.shares[Fin.ofNat 4 ((off - 0x2010) / 8)].toNat; x % 2 ^ 32 + x / 2 ^ 32 * 2 ^ 40
  else if off = 0x2030 then s.pwrmir.toNat
  else if 0x10000 ≤ off ∧ off < 0x20000 then
    let b := s.boxShown (Fin.ofNat 16 (off / 0x1000))
    if off % 0x1000 = 8 then bitAt b.busy 0 + bitAt b.done 1 + b.tag.toNat * 2 ^ 8 + b.result.toNat * 2 ^ 16 + bitAt b.lost 24
    else if 0x10 ≤ off % 0x1000 then ofBytes ((b.out.drop (off % 0x1000 - 0x10)).take 8) else 0
  else if 0x100000 ≤ off ∧ off < 0x110000 then
    let k := s.queue ((off - 0x100000) / 0x40)
    match (off - 0x100000) % 0x40 with
    | 0x00 => k.base.toNat
    | 0x08 => k.wr.toNat
    | 0x10 => k.rd.toNat
    | 0x18 => bitAt k.en 0 + k.asid.toNat * 2 ^ 16
    | 0x20 => bitAt k.stop 0 + k.err.toNat * 2 ^ 8
    | 0x28 => k.fail.toNat
    | _ => 0
  else 0

/-- APERTURE_ACCESS (R449): a plain load or store of device memory at its home; `answer` holds the bytes that the last load returned. Places that no plain
host access reaches read 0 and take no store; an access to what has an uncorrectable error fails, and returns and stores nothing (R262; DESIGN CHOICE,
log 87). -/
def execApertureAccess (s : State) : Host.Outcome State Fault Refusal :=
  match s.ev with
  | .access _ off n wr data =>
    let pa := s.apbase.toNat * 2 ^ 36 + off
    let mem := off + n ≤ 2 ^ 36 ∧ s.cls pa = .dev ∧ s.cls (pa + n - 1) = .dev
    if mem ∧ s.corrupt pa n then .next (if wr then s else { s with answer := [] })
    else if wr then .next (if mem then s.storeHome pa n (ofBytes data) else s)
    else .next { s with answer := bytesOf n (if mem then s.loadDev pa n else 0) }
  | _ => .next s

/-! ### Mailboxes (R459-R462, Table 23.6) -/

/-- A command that a CMD write has started, and that has not completed, stands in a mailbox. -/
def State.started? (s : State) (box : Nat) (tag code : Byte) : Bool :=
  if h : box < 15 then let b := s.mailboxes[box]; b.busy && b.tag == tag && b.code == code else false

/-- A started command runs and completes: BUSY falls, DONE and RESULT are set, and its vector is raised (R460). -/
def State.command (s : State) (box : Nat) (tag code : Byte) (f : State → Byte × State) : State :=
  if h : box < 15 then
    if !s.started? box tag code then s
    else
      let (r, s) := f s
      { s with mailboxes := s.mailboxes.set box { s.mailboxes[box] with busy := false, done := true, tag := tag, code := code, result := r } }.raise box
  else s

/-- MAILBOX_UNKNOWN (R460). -/
def execMailboxUnknown (s : State) : Host.Outcome State Fault Refusal :=
  match s.ev with
  | .box k tag code _ _ _ _ => .next (if 1 ≤ code.toNat ∧ code.toNat < 10 then s else s.command k tag code fun s => (1, s))
  | _ => .next s

/-- LOAD_FW (R455): chunks in order through mailbox 0, while the pilot cores fetch from there. -/
def execLoadFw (s : State) : Host.Outcome State Fault Refusal :=
  match s.ev with
  | .fw k tag off chunk last =>
    .next (s.command k tag 1 fun s =>
      if k ≠ 0 ∨ s.boot ≠ .fetch ∨ s.tlboot ∨ off ≠ s.fw.length then (2, s)
      else
        let s := { s with fw := s.fw ++ chunk }
        if !last then (0, s) else (if Config.firmwareOk s.fw then 0 else 4, s.verify))
  | _ => .next s

/-- A digest of the boot log. DESIGN CHOICE (log 103): one that has not been taken yet reads 0. -/
def State.digest (s : State) (i : Nat) : List Byte := s.log.getD i (List.replicate 32 0)

/-- The report of R457 up to its signature: the log holds exactly two digests. -/
def State.report (s : State) (nonce : BitVec 256) : List Byte :=
  bytesOf 8 1 ++ bytesOf 8 s.grade.code ++ bytesOf 32 nonce.toNat ++ s.digest 0 ++ s.digest 1

/-- r and s, each 32 bytes big-endian. -/
def signatureBytes (x : BitVec 256 × BitVec 256) : List Byte := (bytesOf 32 x.1.toNat).reverse ++ (bytesOf 32 x.2.toNat).reverse

/-- ATTEST (R457). -/
def execAttest (s : State) : Host.Outcome State Fault Refusal :=
  match s.ev with
  | .nonce k tag n =>
    .next (s.command k tag 2 fun s =>
      let x := s.report n
      (0, if h : k < 16 then
        { s with mailboxes := s.mailboxes.set k { s.mailboxes[k] with out := x ++ signatureBytes (Config.deviceSign (sha256 x)) } } else s))
  | _ => .next s

/-- SET_ROOT (R242): TLBs keep no entry of the address space. -/
def execSetRoot (s : State) : Host.Outcome State Fault Refusal :=
  match s.ev with
  | .box k tag _ asid a _ _ =>
    .next (s.command k tag 3 fun s =>
      if s.frames ≤ a then (2, s)
      else (0, { s with
        roots := (asid, a) :: s.roots.filter fun r => r.1 ≠ asid
        ports := s.ports.map fun p => { p with tlb := p.tlb.filter fun t => t.1 ≠ asid } }))
  | _ => .next s

/-- SET_SAVEBASE (R454). -/
def execSetSavebase (s : State) : Host.Outcome State Fault Refusal :=
  match s.ev with
  | .box k tag _ asid a _ _ =>
    .next (s.command k tag 4 fun s =>
      if a % 2 ^ 31 ≠ 0 ∨ 2 ^ 55 < a + 2 ^ 47 then (2, s)
      else (0, { s with saveBases := (asid, BitVec.ofNat 64 a) :: s.saveBases.filter fun b => b.1 ≠ asid }))
  | _ => .next s

/-- An access to one of b pages from an address on that the Cadastre is about to finish: withheld for what it resolves, or let go again at its port. -/
def State.finishing (s : State) (asid : BitVec 16) (a b : Nat) : Bool :=
  let meets (va n : Nat) : Bool := decide (va < a + b * 2 ^ 16 ∧ a < va + n)
  let waits (w : Held) : Bool := w != .notPresent && w != .noPeer
  s.reqs.any (fun q => q.asid == asid && q.h.space == .dev && meets q.va (Nat.max q.bytes 1) &&
    match q.stage with | .withheld w => waits w | .port => s.canRelease q | .translate => true | _ => false) ||
  s.copies.any fun k => k.asid == asid && k.wait.any waits && (meets k.piece.1.toNat k.piece.2.2 || meets k.piece.2.1.toNat k.piece.2.2)

/-- RELEASE (R361, R462): refused while a voyage of the address space is running. One that meets a page with a withheld access stands over, BUSY, until the
Cadastre has finished that access. -/
def execRelease (s : State) : Host.Outcome State Fault Refusal :=
  match s.ev with
  | .box k tag _ asid a b _ =>
    let run := s.voyages.any fun v => v.asid == asid && !v.ended
    let bad := a % 2 ^ 16 ≠ 0 ∨ 2 ^ 55 < a + b * 2 ^ 16
    if s.started? k tag 5 && !run && decide (¬bad) && s.finishing asid a b then .next { s with inputs := s.inputs ++ [(s.time + 1, .release, s.ev)] }
    else .next (s.command k tag 5 fun s =>
      if run then (3, s)
      else if bad then (2, s)
      else (0, (List.range b).foldl (fun s i => s.releasePage asid (a + i * 2 ^ 16)) s))
  | _ => .next s

/-- FRAMES (R461, R468): frames join the pool of a die and answer its request, which an answer of none ends too. -/
def execFrames (s : State) : Host.Outcome State Fault Refusal :=
  match s.ev with
  | .box k tag _ _ d _ fs =>
    .next (s.command k tag 6 fun s =>
      if !s.dieLive d ∨ 64 < fs.length ∨ fs.any (fun f => frameHome f != d || decide (s.frames ≤ f)) then (2, s)
      else
        let s := fs.foldl (fun s f => s.modDesc f fun w => setFld (setFld w 0 16 0) 18 1 0) s
        (0, { s.modDie d fun x => { x with pool := x.pool ++ fs, refused := fs.isEmpty && (s.asks.contains d || x.refused) } with
          asks := s.asks.filter (· ≠ d) }))
  | _ => .next s

/-- RESUME (R446, R462). -/
def execResume (s : State) : Host.Outcome State Fault Refusal :=
  match s.ev with
  | .box k tag _ _ a _ _ =>
    .next (s.command k tag 7 fun s =>
      if s.voyages.any fun v => v.save == a then (3, s)
      else match s.saved.find? fun e => e.1 == a with
        | none => (2, s)
        | some (_, x) =>
          if !x.complete then (2, s)
          else if s.launches.any fun l => l.resume == some a then (3, s)
          else
            let l : Launch :=
              { id := s.nextId, queue := x.voy.queue, idx := 0, asid := x.voy.asid, pkt := x.voy.pkt, time := s.time, front := none, resume := some a,
                starve := false }
            (0, { s with launches := s.launches ++ [l] }.fresh))
  | _ => .next s

/-- DISCARD (R437, R462): the save index is free, and the voyage's participants leave. -/
def execDiscard (s : State) : Host.Outcome State Fault Refusal :=
  match s.ev with
  | .box k tag _ _ a _ _ =>
    .next (s.command k tag 8 fun s =>
      if s.voyages.any fun v => v.save == a then (3, s)
      else match s.saved.find? fun e => e.1 == a with
        | none => (2, s)
        | some (_, x) =>
          let s := (s.marks.filter fun m => match m.who with | .domain v _ => v == x.voy.id | .sequencer v _ => v == x.voy.id).foldl
            (fun s m => s.raiseMark m.asid m.who markAll) s
          (0, { s with
            saved := s.saved.filter fun e => e.1 ≠ a
            launches := s.launches.filter fun l => l.resume ≠ some a }.modQueue x.voy.queue fun q => { q with live := q.live.filter (· ≠ x.voy.id) }))
  | _ => .next s

/-- BIND_PEER (R465): flows of links that are down move to the links of the set. -/
def execBindPeer (s : State) : Host.Outcome State Fault Refusal :=
  match s.ev with
  | .peer k tag asid p links dev =>
    .next (s.command k tag 9 fun s =>
      if 128 ≤ p then (2, s)
      else
        let s := { s with bindings := ⟨asid, p, links, dev⟩ :: s.bindings.filter fun b => !(b.asid == asid && b.peer == p) }
        (0, (List.range 16).foldl State.moveFlows s))
  | _ => .next s

end Sys2Proof.Machine
end

