-- ==== Sys2Proof/Machine/Flits.lean ====
section
/-! DEFINITION. Flits received on the traverse links (R463-R467), resending, and the loss of a link. -/

namespace Sys2Proof.Machine

open Sys2Proof

/-- A flit of 128 bytes has come over a link (R464): one whose CRC fails, whose type is reserved or whose SEQ is not the next is discarded; one of the given
type is taken when `f` says what it does, and else it finds no room and is sent again (log 45). -/
def State.onFlit (s : State) (typ : BitVec 4) (f : State → Nat → Flit → Option State) : State :=
  match s.ev with
  | .flit n w =>
    match Flit.ofWire w with
    | none => s.discardFlit n
    | some x =>
      if x.typ ≠ typ then s
      else if !s.accepts n x then s.discardFlit n
      else (f (s.modLink n (·.take x)) n x).getD s
  | _ => s

/-- FLIT_IDLE (R464): only its ACK counts. -/
def execFlitIdle (s : State) : Host.Outcome State Fault Refusal := .next (s.onFlit 0 fun s _ _ => some s)

/-- The inbound edge that a token flit belongs to (R466): the sender's key, over a link of the peer's binding. -/
def State.inboundEdge (s : State) (link : Nat) (key : BitVec 16) : Option Route :=
  s.routes.find? fun r =>
    match r.cross, s.voyage? r.voy with
    | some (p, true, k), some v => k == key && r.joined && (s.bound v.asid p).contains link
    | _, _ => false

/-- FLIT_TOKEN (R464, R466): into the edge's buffer of 256; one that finds no edge placed and joined, no room, or a frozen voyage, is not taken (log 45). -/
def execFlitToken (s : State) : Host.Outcome State Fault Refusal :=
  .next (s.onFlit 1 fun s n x =>
    (s.inboundEdge n x.key).bind fun r =>
      let room := match r.hops.head? with | some h => decide (0 < h.fifo.room) | none => false
      if !(room && s.flows r) then none
      else
        let k := Token.ofBits (ofBytes (x.body.take 80))
        some (((s.modHop r.id 0 fun h => { h with fifo := h.fifo.push s.nextId (some k) 0 }).fresh).stir r.voy))

/-! ### Requests of a peer (Table 23.8) -/

/-- The operation of a request flit: kind, operation, width. -/
def flitReqOp (kind op w : Nat) : ReqOp :=
  match kind with
  | 0 => .loadV w
  | 1 => .store w
  | 2 => .red (BitVec.ofNat 6 op) w
  | _ => .atom (BitVec.ofNat 6 op) w

/-- The access class of INFO (Table 22.1). -/
def flitAcc (kind : Nat) : Nat := match kind with | 0 => 0 | 1 => 1 | 2 => 2 | _ => 3

/-- A request as one of this device. -/
def flitReq (asid : BitVec 16) (b : Nat) : Req :=
  let kind := fld b 152 8
  let w := fld b 144 8
  let h : HEntry := { HEntry.empty with space := .dev, size := BitVec.allOnes 40 }
  { id := 0, voy := 0, reg := 0, src := .rules, st := ⟨4, 0, 0⟩, ctx := 0, slot := 0, time := 0, op := flitReqOp kind (fld b 128 6) w, h := h, va := fld b 0 64,
    pa := none, data := BitVec.ofNat 512 (b / 2 ^ 256), y := BitVec.ofNat 64 (b / 2 ^ 320), stamp := BitVec.ofNat 52 (b / 2 ^ 64), pred := 0x7F, own := 0,
    succ := 0x7F, mf := BitVec.ofNat 4 (b / 2 ^ 136), pass := 0, port := none, dest := .none, slack := ⟨false, 0⟩, epoch := 0, parts := [],
    acc := flitAcc kind, released := true, credit := false, asid := asid, vers := false, task := none, held := 0, arrived := 0, way := [], queued := 0, stood := 0, stage := .port }

/-- Resolve what the Cadastre can for the page of an access. -/
def State.touch (s : State) (asid : BitVec 16) (va : Nat) (wr : Bool) : State :=
  match s.translate asid va (!wr) wr with
  | .held .notPresent => s
  | .held _ => (match s.helmPage s.helmDie asid va wr false with | .ok (_, s) => s | .error _ => s)
  | _ => s

/-- A request of a peer performs: its data, or a fault; none while its page is withheld. -/
def State.serve (s : State) (q : Req) : Option (Except FaultC Nat × State) :=
  let pieces := lineParts q.va (Nat.max q.bytes 1)
  let s := pieces.foldl (fun s (va, _) => s.touch q.asid va q.op.writes) s
  match s.transWhole q (0, 0) pieces with
  | (.held .., _) => none
  | (.task _, _) => none
  | (.fault f, s) => some (.error f, s)
  | (.ok ps op v, s) =>
    let q := { q with parts := ps, op := op, vers := v }
    let run (r : Except FaultC (Nat × State)) : Option (Except FaultC Nat × State) :=
      match r with | .ok (x, s) => some (.ok x, s) | .error f => some (.error f, s)
    match op with
    | .store _ => run ((s.writeAll q q.data.toNat).map fun s => (0, s))
    | .red op _ => run (do let x ← s.readAll q; let s ← s.writeAll q (applyOp op.toNat x q.data.toNat q.y.toNat); return (0, s))
    | .atom op _ => run (do let x ← s.readAll q; let s ← s.writeAll q (applyOp op.toNat x q.data.toNat q.y.toNat); return (x, s))
    | .upd op w =>
      (match ps with
        | (_, pa, _) :: _ => (s.insertEntry q.asid (pa / 128) (q.hist op w pa)).map fun s => (.ok 0, s)
        | [] => some (.ok 0, s))
    | _ => run ((s.readAll q).map fun x => (x, s))

/-- The body of a reply. -/
def replyBody (tag : Nat) (r : Except FaultC Nat) : List Byte :=
  match r with
  | .ok x => bytesOf 80 (tag + x % 2 ^ 512 * 2 ^ 128)
  | .error f => bytesOf 80 (tag + (f.code + f.info % 2 ^ 32 * 2 ^ 32) * 2 ^ 64)

/-- The spilled pod entries that a peer's request has written to: their walker looks at them again (R288, log 53). -/
def State.podWakes (s : State) (q : Req) : State :=
  if !q.op.writes then s
  else (s.bars.filter fun b => b.spilled && b.key.scope == .pod &&
      match s.spillAddr b.key with | some (asid, va) => asid == q.asid && decide (va / 16 = q.va / 16) | none => false).foldl
    (fun s b => s.later .barrierEntryUpdate (.bar b.key)) s

/-- The spilled pod entry at an address of an address space. -/
def State.podEntryAt (s : State) (asid : BitVec 16) (va : Nat) : Option BarKey :=
  (s.bars.find? fun b => b.spilled && b.key.scope == .pod && s.spillAddr b.key == some (asid, va)).map (·.key)

/-- What a request flit does here: a barrier message of a peer at the entry that this device walks, or an access to memory. -/
def State.serveFlit (s : State) (asid : BitVec 16) (b : Nat) : Option (Except FaultC Nat × State) :=
  let op := fld b 128 8
  match (if 0x40 ≤ op ∧ op ≤ 0x42 then s.podEntryAt asid (fld b 0 64) else none) with
  | some k => (s.peerBar k op (fld b 256 32)).toOption
  | none => let q := flitReq asid b; (s.serve q).map fun (r, s) => (r, s.podWakes q)

/-- FLIT_REQUEST (R267, R288, R464): it performs in the address space whose binding names the sender, and a reply goes back. -/
def execFlitRequest (s : State) : Host.Outcome State Fault Refusal :=
  .next (s.onFlit 2 fun s n x =>
    match s.bindings.find? fun b => b.links.getLsbD n && b.peer == fld x.key.toNat 0 7 with
    | none => some s
    | some b =>
      let body := ofBytes x.body
      (s.serveFlit b.asid body).map fun (r, s) => s.modLink n fun l => l.send 3 (BitVec.ofNat 16 b.peer) (replyBody (fld body 192 64) r))

/-- FLIT_REPLY (R464): the answer to the request that its return tag names. -/
def execFlitReply (s : State) : Host.Outcome State Fault Refusal :=
  .next (s.onFlit 3 fun s _ x =>
    let b := ofBytes x.body
    let port := (fld b 16 2, fld b 0 7)
    let code := fld b 64 8
    let data := fld b 128 512
    match s.reqs.find? fun q => q.stage == .peer (fld b 8 8) && q.port == some port with
    | none =>
      if port.2 ≠ walkerPort then some s
      else some (match s.barMsgs.find? fun m => m.away == some (fld b 8 8) with | some m => s.barReply m code (BitVec.ofNat 32 data) | none => s)
    | some q =>
      some (if code ≠ 0 then s.faultReq q ⟨code, fld b 96 32, q.va⟩
      else match q.op with
        | .part .. => s.modReq q.id fun q => { q with stage := .reply 0 (.ok (VReg.plain 0 data)) }
        | op => if op.writes then s.respond q .silent else s.respond q (.ok (q.view (data % 2 ^ (8 * q.bytes))))))

/-- FLIT_NACK (R464): resend from the expected SEQ. -/
def execFlitNack (s : State) : Host.Outcome State Fault Refusal :=
  .next (s.onFlit 4 fun s n x => some (s.modLink n fun l => (l.acknowledge (BitVec.ofNat 12 (ofBytes x.body) - 1)).resend))

/-- FLIT_JOIN (R467): the edge joins, or the flit waits until one is placed. -/
def execFlitJoin (s : State) : Host.Outcome State Fault Refusal :=
  .next (s.onFlit 5 fun s n x => some ((s.joinEdge n x).getD { s with joins := s.joins ++ [(n, x)] }))

/-- FLIT_BOOT (R455, R464): the next part of the firmware image, over link 0; a gap or an overlap fails the fetch, and so does a length that is not 1 to 96
(log 92). -/
def execFlitBoot (s : State) : Host.Outcome State Fault Refusal :=
  .next (s.onFlit 6 fun s n x =>
    if n ≠ 0 ∨ !s.tlboot ∨ s.boot ≠ .fetch then some s
    else
      let b := ofBytes x.body
      let len := fld b 64 32
      if fld b 0 64 ≠ s.fw.length ∨ len = 0 ∨ 96 < len then some (s.failStart 0x02)
      else
        let s := { s with fw := s.fw ++ (x.body.drop 16).take len }
        some (if b.testBit 96 then s.verify else s))

/-! ### Errors (R464, R465) -/

/-- FLIT_CRC_FAIL (R464): a flit whose CRC fails is discarded, as one of a reserved type is, and the first of a gap is answered with a nack. -/
def execFlitCrcFail (s : State) : Host.Outcome State Fault Refusal :=
  match s.ev with
  | .flit n w => .next (match Flit.ofWire w with
    | none => s.discardFlit n
    | some x => if 7 ≤ x.typ.toNat then s.discardFlit n else s)
  | _ => .next s

/-- 4 µs of station cycles. -/
def retransmitAfter : Nat := 8400

/-- RETRANSMIT_TIMEOUT (R464). -/
def execRetransmitTimeout (s : State) : Host.Outcome State Fault Refusal :=
  match s.ev with
  | .link n => .next (s.modLink n fun l => if !l.unacked.isEmpty && decide (retransmitAfter ≤ l.timer) then l.resend else l)
  | _ => .next s

/-- TRAVERSE_LINK_DOWN (R465): its flows move to another link of their set; with none left they wait. -/
def execTraverseLinkDown (s : State) : Host.Outcome State Fault Refusal :=
  match s.ev with
  | .link n => .next ((s.modLink n fun l => { l with up := false }).moveFlows n)
  | _ => .next s

end Sys2Proof.Machine
end

