-- ==== Sys2Proof/Machine/Dispatch.lean ====
section
/-! DEFINITION. The dispatch: one arm per constructor of Instr, each one direct call of its meaning. -/

namespace Sys2Proof.Machine

open Sys2Proof

def exec (i : Instr) (s : State) : Host.Outcome State Fault Refusal :=
  match i with
  | .add r => Sys2Proof.Machine.execAdd r s
  | .sub r => Sys2Proof.Machine.execSub r s
  | .mul r => Sys2Proof.Machine.execMul r s
  | .mulh r => Sys2Proof.Machine.execMulh r s
  | .mulhn r => Sys2Proof.Machine.execMulhn r s
  | .div r => Sys2Proof.Machine.execDiv r s
  | .divn r => Sys2Proof.Machine.execDivn r s
  | .rem r => Sys2Proof.Machine.execRem r s
  | .remn r => Sys2Proof.Machine.execRemn r s
  | .min r => Sys2Proof.Machine.execMin r s
  | .max r => Sys2Proof.Machine.execMax r s
  | .minn r => Sys2Proof.Machine.execMinn r s
  | .maxn r => Sys2Proof.Machine.execMaxn r s
  | .and r => Sys2Proof.Machine.execAnd r s
  | .or r => Sys2Proof.Machine.execOr r s
  | .xor r => Sys2Proof.Machine.execXor r s
  | .andn r => Sys2Proof.Machine.execAndn r s
  | .orn r => Sys2Proof.Machine.execOrn r s
  | .shl r => Sys2Proof.Machine.execShl r s
  | .shr r => Sys2Proof.Machine.execShr r s
  | .sra r => Sys2Proof.Machine.execSra r s
  | .rol r => Sys2Proof.Machine.execRol r s
  | .clz r => Sys2Proof.Machine.execClz r s
  | .ctz r => Sys2Proof.Machine.execCtz r s
  | .popc r => Sys2Proof.Machine.execPopc r s
  | .sel r p => Sys2Proof.Machine.execSel r p s
  | .mov r => Sys2Proof.Machine.execMov r s
  | .movi hdr d imm => Sys2Proof.Machine.execMovi hdr d imm s
  | .movhi r imm => Sys2Proof.Machine.execMovhi r imm s
  | .ext r => Sys2Proof.Machine.execExt r s
  | .extn r => Sys2Proof.Machine.execExtn r s
  | .ins r => Sys2Proof.Machine.execIns r s
  | .ceq r => Sys2Proof.Machine.execCeq r s
  | .cne r => Sys2Proof.Machine.execCne r s
  | .clt r => Sys2Proof.Machine.execClt r s
  | .cle r => Sys2Proof.Machine.execCle r s
  | .cltn r => Sys2Proof.Machine.execCltn r s
  | .clen r => Sys2Proof.Machine.execClen r s
  | .cbit r => Sys2Proof.Machine.execCbit r s
  | .ctst r => Sys2Proof.Machine.execCtst r s
  | .pand r => Sys2Proof.Machine.execPand r s
  | .por r => Sys2Proof.Machine.execPor r s
  | .pxor r => Sys2Proof.Machine.execPxor r s
  | .pandn r => Sys2Proof.Machine.execPandn r s
  | .pnot r => Sys2Proof.Machine.execPnot r s
  | .pmov r => Sys2Proof.Machine.execPmov r s
  | .pset hdr n => Sys2Proof.Machine.execPset hdr n s
  | .pclr hdr n => Sys2Proof.Machine.execPclr hdr n s
  | .send hdr o src addend tag => Sys2Proof.Machine.execSend hdr o src addend tag s
  | .dup hdr mask src tag => Sys2Proof.Machine.execDup hdr mask src tag s
  | .steer hdr mask src sel tag => Sys2Proof.Machine.execSteer hdr mask src sel tag s
  | .merge hdr o a b n tag => Sys2Proof.Machine.execMerge hdr o a b n tag s
  | .gate hdr o src ctl tag => Sys2Proof.Machine.execGate hdr o src ctl tag s
  | .drop hdr src => Sys2Proof.Machine.execDrop hdr src s
  | .stop hdr o level tag => Sys2Proof.Machine.execStop hdr o level tag s
  | .retag hdr n v => Sys2Proof.Machine.execRetag hdr n v s
  | .repeat hdr o c n imm tag => Sys2Proof.Machine.execRepeat hdr o c n imm tag s
  | .count hdr o c tag => Sys2Proof.Machine.execCount hdr o c tag s
  | .isect hdr o a b tag => Sys2Proof.Machine.execIsect hdr o a b tag s
  | .split hdr o src tag => Sys2Proof.Machine.execSplit hdr o src tag s
  | .advp r => Sys2Proof.Machine.execAdvp r s
  | .advc r => Sys2Proof.Machine.execAdvc r s
  | .hfill r => Sys2Proof.Machine.execHfill r s
  | .hfree r => Sys2Proof.Machine.execHfree r s
  | .hset r f => Sys2Proof.Machine.execHset r f s
  | .hget r f => Sys2Proof.Machine.execHget r f s
  | .pub hdr n => Sys2Proof.Machine.execPub hdr n s
  | .nop hdr => Sys2Proof.Machine.execNop hdr s
  | .trap r => Sys2Proof.Machine.execTrap r s
  | .halt r => Sys2Proof.Machine.execHalt r s
  | .brk r => Sys2Proof.Machine.execBrk r s
  | .yield hdr n => Sys2Proof.Machine.execYield hdr n s
  | .slk r => Sys2Proof.Machine.execSlk r s
  | .rdslk hdr d c => Sys2Proof.Machine.execRdslk hdr d c s
  | .rdtime hdr d => Sys2Proof.Machine.execRdtime hdr d s
  | .ckpt hdr d => Sys2Proof.Machine.execCkpt hdr d s
  | .vadd r => Sys2Proof.Machine.execVadd r s
  | .vsub r => Sys2Proof.Machine.execVsub r s
  | .vmul r => Sys2Proof.Machine.execVmul r s
  | .vfma r => Sys2Proof.Machine.execVfma r s
  | .vfms r => Sys2Proof.Machine.execVfms r s
  | .vnfma r => Sys2Proof.Machine.execVnfma r s
  | .vmax r => Sys2Proof.Machine.execVmax r s
  | .vmin r => Sys2Proof.Machine.execVmin r s
  | .vabs r => Sys2Proof.Machine.execVabs r s
  | .vneg r => Sys2Proof.Machine.execVneg r s
  | .vrcp r => Sys2Proof.Machine.execVrcp r s
  | .vrsq r => Sys2Proof.Machine.execVrsq r s
  | .vexp2 r => Sys2Proof.Machine.execVexp2 r s
  | .vlog2 r => Sys2Proof.Machine.execVlog2 r s
  | .vsqrt r => Sys2Proof.Machine.execVsqrt r s
  | .vdot r sc => Sys2Proof.Machine.execVdot r sc s
  | .vsum r => Sys2Proof.Machine.execVsum r s
  | .vrmax r => Sys2Proof.Machine.execVrmax r s
  | .vrmin r => Sys2Proof.Machine.execVrmin r s
  | .vcvt r => Sys2Proof.Machine.execVcvt r s
  | .vqnt r => Sys2Proof.Machine.execVqnt r s
  | .vdqt r => Sys2Proof.Machine.execVdqt r s
  | .vrot r split => Sys2Proof.Machine.execVrot r split s
  | .vsscl hdr d a n => Sys2Proof.Machine.execVsscl hdr d a n s
  | .vgscl r => Sys2Proof.Machine.execVgscl r s
  | .vtag hdr fmt d a => Sys2Proof.Machine.execVtag hdr fmt d a s
  | .vmov r => Sys2Proof.Machine.execVmov r s
  | .vbcst hdr fmt d a lane => Sys2Proof.Machine.execVbcst hdr fmt d a lane s
  | .vshuf r => Sys2Proof.Machine.execVshuf r s
  | .vext r => Sys2Proof.Machine.execVext r s
  | .vins r => Sys2Proof.Machine.execVins r s
  | .vceq r => Sys2Proof.Machine.execVceq r s
  | .vclt r => Sys2Proof.Machine.execVclt r s
  | .vcle r => Sys2Proof.Machine.execVcle r s
  | .vsel r => Sys2Proof.Machine.execVsel r s
  | .viadd r => Sys2Proof.Machine.execViadd r s
  | .visub r => Sys2Proof.Machine.execVisub r s
  | .vimul r => Sys2Proof.Machine.execVimul r s
  | .vishl r => Sys2Proof.Machine.execVishl r s
  | .vishr r => Sys2Proof.Machine.execVishr r s
  | .vand r => Sys2Proof.Machine.execVand r s
  | .vor r => Sys2Proof.Machine.execVor r s
  | .vxor r => Sys2Proof.Machine.execVxor r s
  | .xadd hdr d a b => Sys2Proof.Machine.execXadd hdr d a b s
  | .xcvt r => Sys2Proof.Machine.execXcvt r s
  | .vclr hdr fmt d => Sys2Proof.Machine.execVclr hdr fmt d s
  | .vpark r => Sys2Proof.Machine.execVpark r s
  | .vunpark r => Sys2Proof.Machine.execVunpark r s
  | .mcfg hdr acc o c sa sb kt => Sys2Proof.Machine.execMcfg hdr acc o c sa sb kt s
  | .tfill hdr t c fmt => Sys2Proof.Machine.execTfill hdr t c fmt s
  | .tmark hdr t full => Sys2Proof.Machine.execTmark hdr t full s
  | .tdrain hdr acc => Sys2Proof.Machine.execTdrain hdr acc s
  | .mma r => Sys2Proof.Machine.execMma r s
  | .mmat r => Sys2Proof.Machine.execMmat r s
  | .mclr hdr acc => Sys2Proof.Machine.execMclr hdr acc s
  | .mnorm hdr acc e => Sys2Proof.Machine.execMnorm hdr acc e s
  | .mexp hdr acc e => Sys2Proof.Machine.execMexp hdr acc e s
  | .mscap hdr g src row all => Sys2Proof.Machine.execMscap hdr g src row all s
  | .mpstat hdr o => Sys2Proof.Machine.execMpstat hdr o s
  | .mrow hdr o u row part => Sys2Proof.Machine.execMrow hdr o u row part s
  | .ld r => Sys2Proof.Machine.execLd r s
  | .ldv r => Sys2Proof.Machine.execLdv r s
  | .st r => Sys2Proof.Machine.execSt r s
  | .stv r => Sys2Proof.Machine.execStv r s
  | .ldt r => Sys2Proof.Machine.execLdt r s
  | .lds r => Sys2Proof.Machine.execLds r s
  | .stw r => Sys2Proof.Machine.execStw r s
  | .updw r => Sys2Proof.Machine.execUpdw r s
  | .reclaim m h a => Sys2Proof.Machine.execReclaim m h a s
  | .settle m h => Sys2Proof.Machine.execSettle m h s
  | .atom r => Sys2Proof.Machine.execAtom r s
  | .red r => Sys2Proof.Machine.execRed r s
  | .mcst r => Sys2Proof.Machine.execMcst r s
  | .cpy r => Sys2Proof.Machine.execCpy r s
  | .cpyw r => Sys2Proof.Machine.execCpyw r s
  | .pref r => Sys2Proof.Machine.execPref r s
  | .disc r => Sys2Proof.Machine.execDisc r s
  | .mnop m h => Sys2Proof.Machine.execMnop m h s
  | .xlat r => Sys2Proof.Machine.execXlat r s
  | .fence m sc => Sys2Proof.Machine.execFence m sc s
  | .acq m sc => Sys2Proof.Machine.execAcq m sc s
  | .rel m sc => Sys2Proof.Machine.execRel m sc s
  | .ldk r => Sys2Proof.Machine.execLdk r s
  | .stk r => Sys2Proof.Machine.execStk r s
  | .xred r => Sys2Proof.Machine.execXred r s
  | .bar r => Sys2Proof.Machine.execBar r s
  | .barw hdr d sc id => Sys2Proof.Machine.execBarw hdr d sc id s
  | .bard hdr sc id => Sys2Proof.Machine.execBard hdr sc id s
  | .bars r => Sys2Proof.Machine.execBars r s
  | .monw hdr d h a => Sys2Proof.Machine.execMonw hdr d h a s
  | .monc hdr d h a => Sys2Proof.Machine.execMonc hdr d h a s
  | .tspawn hdr n ts args => Sys2Proof.Machine.execTspawn hdr n ts args s
  | .tdone hdr => Sys2Proof.Machine.execTdone hdr s
  | .tins r => Sys2Proof.Machine.execTins r s
  | .tseal r => Sys2Proof.Machine.execTseal r s
  | .tdrop r => Sys2Proof.Machine.execTdrop r s
  | .tforkPages hdr d hd hs n => Sys2Proof.Machine.execTforkPages hdr d hd hs n s
  | .tforkTree hdr d hd he n q => Sys2Proof.Machine.execTforkTree hdr d hd he n q s
  | .twalk hdr d q v screen => Sys2Proof.Machine.execTwalk hdr d q v screen s
  | .tres hdr d q p => Sys2Proof.Machine.execTres hdr d q p s
  | .tsum hdr d q delta => Sys2Proof.Machine.execTsum hdr d q delta s
  | .tstat hdr d q w => Sys2Proof.Machine.execTstat hdr d q w s
  | .tpar hdr q a hn ht head => Sys2Proof.Machine.execTpar hdr q a hn ht head s
  | .tscr hdr q a => Sys2Proof.Machine.execTscr hdr q a s
  | .tchkQuery hdr d q => Sys2Proof.Machine.execTchkQuery hdr d q s
  | .tchkAbort hdr d q => Sys2Proof.Machine.execTchkAbort hdr d q s
  | .sgen hdr d src g n1 bipolar => Sys2Proof.Machine.execSgen hdr d src g n1 bipolar s
  | .sand r => Sys2Proof.Machine.execSand r s
  | .sxnor r => Sys2Proof.Machine.execSxnor r s
  | .sor r => Sys2Proof.Machine.execSor r s
  | .smux r sel => Sys2Proof.Machine.execSmux r sel s
  | .snot r => Sys2Proof.Machine.execSnot r s
  | .smin r => Sys2Proof.Machine.execSmin r s
  | .smax r => Sys2Proof.Machine.execSmax r s
  | .scnt hdr o a n1 => Sys2Proof.Machine.execScnt hdr o a n1 s
  | .sregen r g => Sys2Proof.Machine.execSregen r g s
  | .sdly r k g => Sys2Proof.Machine.execSdly r k g s
  | .slen hdr code => Sys2Proof.Machine.execSlen hdr code s
  | .scls r mask => Sys2Proof.Machine.execScls r mask s
  | .sout hdr o a => Sys2Proof.Machine.execSout hdr o a s
  | .sin hdr d c => Sys2Proof.Machine.execSin hdr d c s
  | .stationCycle => Sys2Proof.Machine.execStationCycle s
  | .resultLands => Sys2Proof.Machine.execResultLands s
  | .yieldExpiry => Sys2Proof.Machine.execYieldExpiry s
  | .sinPart => Sys2Proof.Machine.execSinPart s
  | .soutPart => Sys2Proof.Machine.execSoutPart s
  | .linkHop => Sys2Proof.Machine.execLinkHop s
  | .busDeliver => Sys2Proof.Machine.execBusDeliver s
  | .dieLinkTransfer => Sys2Proof.Machine.execDieLinkTransfer s
  | .flowForward => Sys2Proof.Machine.execFlowForward s
  | .tokenOverdue => Sys2Proof.Machine.execTokenOverdue s
  | .backgroundPromote => Sys2Proof.Machine.execBackgroundPromote s
  | .faultTokenRequeue => Sys2Proof.Machine.execFaultTokenRequeue s
  | .regionRetire => Sys2Proof.Machine.execRegionRetire s
  | .qwridxWrite => Sys2Proof.Machine.execQwridxWrite s
  | .queueReenable => Sys2Proof.Machine.execQueueReenable s
  | .noOpPacket => Sys2Proof.Machine.execNoOpPacket s
  | .voyageLaunchPacket => Sys2Proof.Machine.execVoyageLaunchPacket s
  | .dependencyWaitPacket => Sys2Proof.Machine.execDependencyWaitPacket s
  | .malformedPacket => Sys2Proof.Machine.execMalformedPacket s
  | .dependencyRecheck => Sys2Proof.Machine.execDependencyRecheck s
  | .acqPacketRelease => Sys2Proof.Machine.execAcqPacketRelease s
  | .placement => Sys2Proof.Machine.execPlacement s
  | .launchStarveBlock => Sys2Proof.Machine.execLaunchStarveBlock s
  | .agxWalkElement => Sys2Proof.Machine.execAgxWalkElement s
  | .memoryRequestIssue => Sys2Proof.Machine.execMemoryRequestIssue s
  | .portRelease => Sys2Proof.Machine.execPortRelease s
  | .homePerform => Sys2Proof.Machine.execHomePerform s
  | .historyOverflow => Sys2Proof.Machine.execHistoryOverflow s
  | .memoryReplyLands => Sys2Proof.Machine.execMemoryReplyLands s
  | .rehashBounce => Sys2Proof.Machine.execRehashBounce s
  | .windowAccess => Sys2Proof.Machine.execWindowAccess s
  | .mirrorRead => Sys2Proof.Machine.execMirrorRead s
  | .markPropagate => Sys2Proof.Machine.execMarkPropagate s
  | .settledLoadRelease => Sys2Proof.Machine.execSettledLoadRelease s
  | .monitorComplete => Sys2Proof.Machine.execMonitorComplete s
  | .copyWrite => Sys2Proof.Machine.execCopyWrite s
  | .copyComplete => Sys2Proof.Machine.execCopyComplete s
  | .firstTouch => Sys2Proof.Machine.execFirstTouch s
  | .copyOnWrite => Sys2Proof.Machine.execCopyOnWrite s
  | .decompress => Sys2Proof.Machine.execDecompress s
  | .poolBorrow => Sys2Proof.Machine.execPoolBorrow s
  | .pageCompress => Sys2Proof.Machine.execPageCompress s
  | .slabCompaction => Sys2Proof.Machine.execSlabCompaction s
  | .timeLimitExpiry => Sys2Proof.Machine.execTimeLimitExpiry s
  | .barrierEntryUpdate => Sys2Proof.Machine.execBarrierEntryUpdate s
  | .taskDispatch => Sys2Proof.Machine.execTaskDispatch s
  | .taskCommit => Sys2Proof.Machine.execTaskCommit s
  | .taskAbort => Sys2Proof.Machine.execTaskAbort s
  | .treeOpComplete => Sys2Proof.Machine.execTreeOpComplete s
  | .treeLockRetry => Sys2Proof.Machine.execTreeLockRetry s
  | .tileFillAccept => Sys2Proof.Machine.execTileFillAccept s
  | .matrixStepComplete => Sys2Proof.Machine.execMatrixStepComplete s
  | .accDrainToken => Sys2Proof.Machine.execAccDrainToken s
  | .carryInToken => Sys2Proof.Machine.execCarryInToken s
  | .normaliserToken => Sys2Proof.Machine.execNormaliserToken s
  | .cornerTurnToken => Sys2Proof.Machine.execCornerTurnToken s
  | .quietDeadlock => Sys2Proof.Machine.execQuietDeadlock s
  | .deadlockHalt => Sys2Proof.Machine.execDeadlockHalt s
  | .regionHalt => Sys2Proof.Machine.execRegionHalt s
  | .drain => Sys2Proof.Machine.execDrain s
  | .snapshot => Sys2Proof.Machine.execSnapshot s
  | .imageSaveDone => Sys2Proof.Machine.execImageSaveDone s
  | .resumePlace => Sys2Proof.Machine.execResumePlace s
  | .dieLinkDown => Sys2Proof.Machine.execDieLinkDown s
  | .sliceRetire => Sys2Proof.Machine.execSliceRetire s
  | .dieFailure => Sys2Proof.Machine.execDieFailure s
  | .rowHammerRefresh => Sys2Proof.Machine.execRowHammerRefresh s
  | .remapSwap => Sys2Proof.Machine.execRemapSwap s
  | .unitReady => Sys2Proof.Machine.execUnitReady s
  | .deviceReset => Sys2Proof.Machine.execDeviceReset s
  | .fwFetchTimeout => Sys2Proof.Machine.execFwFetchTimeout s
  | .startTimeout => Sys2Proof.Machine.execStartTimeout s
  | .ownclaim => Sys2Proof.Machine.execOwnclaim s
  | .claimWindowEnd => Sys2Proof.Machine.execClaimWindowEnd s
  | .ownhand => Sys2Proof.Machine.execOwnhand s
  | .ownerLapse => Sys2Proof.Machine.execOwnerLapse s
  | .devctlReset => Sys2Proof.Machine.execDevctlReset s
  | .devctlClrfail => Sys2Proof.Machine.execDevctlClrfail s
  | .sbqueryWrite => Sys2Proof.Machine.execSbqueryWrite s
  | .pwrlimWrite => Sys2Proof.Machine.execPwrlimWrite s
  | .registerWrite => Sys2Proof.Machine.execRegisterWrite s
  | .apertureAccess => Sys2Proof.Machine.execApertureAccess s
  | .powerRedivide => Sys2Proof.Machine.execPowerRedivide s
  | .loadFw => Sys2Proof.Machine.execLoadFw s
  | .attest => Sys2Proof.Machine.execAttest s
  | .setRoot => Sys2Proof.Machine.execSetRoot s
  | .setSavebase => Sys2Proof.Machine.execSetSavebase s
  | .release => Sys2Proof.Machine.execRelease s
  | .frames => Sys2Proof.Machine.execFrames s
  | .resume => Sys2Proof.Machine.execResume s
  | .discard => Sys2Proof.Machine.execDiscard s
  | .bindPeer => Sys2Proof.Machine.execBindPeer s
  | .mailboxUnknown => Sys2Proof.Machine.execMailboxUnknown s
  | .flitIdle => Sys2Proof.Machine.execFlitIdle s
  | .flitToken => Sys2Proof.Machine.execFlitToken s
  | .flitRequest => Sys2Proof.Machine.execFlitRequest s
  | .flitReply => Sys2Proof.Machine.execFlitReply s
  | .flitNack => Sys2Proof.Machine.execFlitNack s
  | .flitJoin => Sys2Proof.Machine.execFlitJoin s
  | .flitBoot => Sys2Proof.Machine.execFlitBoot s
  | .retransmitTimeout => Sys2Proof.Machine.execRetransmitTimeout s
  | .traverseLinkDown => Sys2Proof.Machine.execTraverseLinkDown s
  | .flitCrcFail => Sys2Proof.Machine.execFlitCrcFail s
  | .pilotCoreFault => Sys2Proof.Machine.execPilotCoreFault s

end Sys2Proof.Machine
end

