-- ==== Sys2Proof/Machine/Advance.lean ====
section
/-! DEFINITION. The start of a station cycle: what moves by itself, before any event of the cycle (R52, R56, R60, R146, R161, R195, R252, R256, R282,
R289, R440, R441, R452, R464). -/

namespace Sys2Proof.Machine

open Sys2Proof

/-! ### Tokens and FIFOs -/

def Fifo.age (f : Fifo) : Fifo := { f with q := f.q.map fun e => { e with tok := e.tok.map Token.age } }

/-- A station's FIFOs: entries written and freed in the last cycle count now, and counters run. -/
def Station.tickFifos (t : Station) (still : Bool) : Station :=
  { t with c := t.c.map fun f => if still then f.tick else f.tick.age }

def Route.tick (r : Route) (still : Bool) : Route :=
  { r with hops := r.hops.map fun h => { h with fifo := if still then h.fifo.tick else h.fifo.tick.age } }

/-- One route, one cycle on; the time that a withheld edge counts toward the limit does not run in a drain. -/
def State.tickRoute (s : State) (r : Route) : Route :=
  let stop := match s.voyage? r.voy with | some v => v.drain.isSome | none => true
  { r.tick (s.still r.voy r.reg) with held := if stop then r.held else if s.cutEdge r then r.held + 1 else 0 }

/-- The counter of a request, one cycle on. -/
def Slack.age (x : Slack) : Slack := if x.bg then { x with n := x.n + 1 } else { x with n := x.n - 1 }

/-- The tokens that an address generator has yet to deliver. -/
def Agen.age (g : Agen) : Agen := { g with outq := g.outq.map fun e => (e.1, e.2.map Token.age) }

/-! ### Units -/

/-- A matrix station's state as a cycle starts with it: a binding of the last cycle accepts from now on (R341). -/
def Mat.settled (m : Mat) : Mat := { m with t := m.t.map fun x => { x with fresh := false } }

/-- Long operations and results in flight, one cycle on (R161, R170): they run in a frozen station too. -/
def Station.tickUnits (t : Station) : Station :=
  { t with
    flights := t.flights.map fun f => { f with left := f.left - 1 }
    busy := (t.busy.map fun b => (b.1, b.2 - 1)).filter fun b => b.2 ≠ 0
    mat := t.mat.map Mat.settled
    matPre := t.mat.map Mat.settled }

/-- The counter that a `sout` keeps: a background one of 4,096 cycles becomes an ordinary one (R52). -/
def Slack.run (x : Slack) : Slack := x.age.promote

/-- The tree engine, one cycle on. -/
def Station.tickEngine (t : Station) : Station := { t with sd := t.sd.map fun d => { d with eng := d.eng.map fun j => { j with left := j.left - 1 } } }

/-- What stands still in a frozen station: yields, the matrix step, the tokens of nodes and of a `sout`. -/
def Station.tickWork (t : Station) : Station :=
  { t with
    ctx := t.ctx.map fun c => if 1 < c.yield then { c with yield := c.yield - 1 } else c
    ss := t.ss.map fun x => { x with io := match x.io with | some (.sout o z p sl) => some (.sout o z p sl.run) | io => io }
    mat := t.mat.map fun m => { m with step := m.step.map fun x => { x with left := x.left - 1 } }
    ctn := t.ctn.map fun n => { n with rows := n.rows.map Token.age, outs := n.outs.map fun o => (o.1 - 1, o.2.1.age, o.2.2) }
    nrm := t.nrm.map fun n => { n with half := n.half.map Token.age, outs := n.outs.map fun o => (o.1 - 1, o.2.age) } }

/-- The time that a withheld tree operation has been withheld (R256). -/
def Station.tickHeld (t : Station) (stop : Bool) : Station :=
  if stop then t
  else { t with sd := t.sd.map fun d => { d with eng := d.eng.map fun j => { j with held := if j.wait.isSome then j.held + 1 else 0 } } }

/-! ### Fences, acquires and releases (R282, R289) -/

/-- Whether some byte of [va, va + n) has its home within a scope of a station; a page that no walk finds counts as within from `.die` on. -/
def State.spanWithin (s : State) (sc : Scope) (i : StId) (space : Space) (asid : BitVec 16) (va n : Nat) : Bool :=
  match space with
  | .loc => true
  | .win => (match paCls va with | .window st _ => (match sc with | .station => st == i | _ => scopeInst sc st == scopeInst sc i) | _ => true)
  | .host => sc == .pkg || sc == .pod
  | .peer => sc == .pod
  | .dev => (pageParts va n).any fun (a, _) =>
      match s.walk asid a with
      | .leaf _ e => homeIn sc i (if pteKind e = 1 then i.die else frameHome (pteFrame e))
      | _ => homeIn sc i i.die

/-- Whether a request has a home within a scope of its station: once released, by its translated parts; a multicast on its way, by its replicas. -/
def State.within (s : State) (sc : Scope) (q : Req) : Bool :=
  let span (a n : Nat) : Bool := s.spanWithin sc q.st q.h.space q.asid a n
  if q.h.space ≠ .dev ∨ q.parts.isEmpty then span q.va q.bytes
  else q.parts.any fun (va, pa, n) => if q.released && pa != 0 then homeIn sc q.st (frameHome (pa / 2 ^ 16)) else span va n

/-- A request that a hold waits for: a write that has not performed, a load that has not returned; what neither reads nor writes memory carries no order
(R282, R298). Those of a tree engine count as its operation does (R389). -/
def Req.waitsFor (k : HoldKind) (q : Req) : Bool :=
  let back := match q.stage with | .reply .. => true | _ => false
  let tree := match q.op with | .tree .. => true | _ => false
  !q.op.monitor && !tree && match k with
    | .fence => if q.op.writes then !back else q.op.reads
    | .rel => q.op.writes && !back
    | .acq => q.op.reads

/-- An earlier copy of a context that has not completed: a `rel` waits for one that writes within its scope, a `fence` for one with an end there. -/
def State.copiesWithin (s : State) (h : HoldKind) (sc : Scope) (i : StId) (c : Fin 8) (before : Nat × Nat) : Bool :=
  s.copies.any fun k => k.st == i && k.ctx == c && lexLt [k.time, k.slot.val] [before.1, before.2] &&
    k.runs.any fun (a, b) => (h == .fence && s.spanWithin sc i k.src.h.space k.asid a k.l0) || s.spanWithin sc i k.dst.h.space k.asid b k.l0

/-- A tree operation's writes count as those of the context that fired it, until it completes (R389). -/
def Station.treeWrites (t : Station) (c : Fin 8) (before : Nat × Nat) : Bool :=
  match t.sd.bind (·.eng) with
  | some j => j.ctx == c && j.op != .walk && lexLt [j.time, j.slot.val] [before.1, before.2]
  | none => false

/-- An earlier operation of a context that a hold waits for: an `acq` waits for every load, the others for what lies within their scope (R282). A copy's
request stands for nothing beside the copy. -/
def State.earlier (s : State) (k : HoldKind) (sc : Scope) (t : Station) (c : Fin 8) (before : Nat × Nat) : Bool :=
  let copy (q : Req) : Bool := match q.op with | .copy _ => true | _ => false
  s.reqs.any (fun q => q.st == t.id && q.ctx == c && q.voy == t.voy && !copy q && q.waitsFor k && lexLt [q.time, q.slot.val] [before.1, before.2] &&
    (k == .acq || s.within sc q)) ||
  (k != .acq && (s.copiesWithin k sc t.id c before || (t.treeWrites c before && sc != .station && sc != .quad)))

/-- Holds that have completed go; an `acq` in a sounding station drops the node-cache lines homed within its scope (R282, R308). -/
def State.tickHolds (s : State) (t : Station) : Station :=
  (List.finRange 8).foldl (fun u c =>
    let (wait, done) := t.ctx[c].holds.partition fun h => s.earlier h.kind h.scope t c (h.time, h.slot.val)
    if done.isEmpty then u
    else { u.modCtx c (fun x => { x with holds := wait }) with
      cache := u.cache.filter fun e => !(done.any fun h => h.kind == .acq && homeIn h.scope t.id (lineHome e.1)) }) t

/-! ### Stations -/

/-- One station, one cycle on. -/
def State.tickStation (s : State) (t : Station) : Station :=
  let still := s.still t.voy t.reg
  let stop := match s.voyage? t.voy with | some v => v.drain.isSome | none => true
  let t := (t.tickFifos still).tickUnits.tickHeld stop
  let t := if s.engineRuns t then t.tickEngine else t
  s.tickHolds (if s.stationRuns t then t.tickWork else t)

/-! ### Requests, copies, barrier messages -/

/-- A request on its way, or withheld, one cycle on. -/
def State.tickReq (s : State) (q : Req) : Req :=
  let drain := match s.voyage? q.voy with | some v => v.drain.isSome | none => false
  let q := if s.still q.voy q.reg then q else { q with slack := q.slack.age }
  match q.stage with
  | .net n => { q with stage := .net (n - 1) }
  | .home n => { q with stage := .home (n - 1), held := if drain then q.held else if s.cutReq q then q.held + 1 else 0 }
  | .peer _ => { q with held := if drain then q.held else if s.cutReq q then q.held + 1 else 0 }
  | .reply n r => { q with stage := .reply (n - 1) r }
  | .room n => { q with stage := .room (n + 1) }
  | .withheld _ => if drain then q else { q with held := q.held + 1 }
  | _ => q

def State.tickCopy (s : State) (k : Copy) : Copy :=
  let drain := match s.voyage? k.voy with | some v => v.drain.isSome | none => false
  let k := if s.still k.voy k.reg then k else { k with slack := k.slack.age }
  if k.wait.isSome && !drain then { k with held := k.held + 1 } else k

/-- A message leaves its station once the earlier writes of its context within the scope have performed, and travels (R288, R289). -/
def State.tickBar (s : State) (m : BarMsg) : BarMsg :=
  let reg := match s.station? m.st with | some t => t.reg | none => 0
  if s.still m.key.voy reg || m.left == 0 then m
  else if m.left ≠ barHeld then { m with left := m.left - 1 }
  else
    let wait := m.op != .drop && match s.station? m.st with
      | some t => s.earlier .rel m.key.scope t m.ctx (m.time, m.slot.val)
      | none => false
    if wait then m else { m with left := Config.barrierLatency - 1 + (if (s.barEntry m.key).spilled then Config.spillLatency else 0) }

/-! ### Settle marks (R252) -/

/-- The mark that a domain's released requests give it. -/
def State.autoMark (s : State) (d : Domain) : Nat :=
  let out := s.reqs.filterMap fun q =>
    if d.holds q && q.released && (match q.stage with | .reply .. => false | _ => true) then some (q.stamp.extractLsb' 20 32).toNat else none
  match out.foldl Nat.min d.relMajor with
  | 0 => 0
  | w + 1 => (mkStamp (BitVec.ofNat 32 w) d.num 0xFF).toNat + 1

def State.tickMarks (s : State) : State :=
  let s := (s.domains.filter (·.versioned)).foldl (fun s d =>
    match s.voyage? d.voy with
    | some v => s.raiseMark v.asid (.domain d.voy d.num) (s.autoMark d)
    | none => s) s
  let s := ((s.tasks.map fun t => (t.voy, t.die)).eraseDups).foldl (fun s (v, d) => s.sequencerMark v d) s
  { s with marks := s.marks.map fun (m : Mark) => { m with sent := m.sent.map fun n => n - 1 } }

/-! ### Voyages and regions -/

/-- Memory requests, copies in progress, tree operations and inbound edges that keep a voyage from being quiet (R60): not a request that is only held for
order, nor its copy (R234). -/
def State.restless (s : State) (v : Voyage) : Bool :=
  s.reqs.any (fun q => q.voy == v.id && !q.op.monitor && (q.stage != .port || s.canRelease q)) || s.copies.any (fun k => k.voy == v.id && k.run) ||
    s.stations.any (fun t => t.voy == v.id && match t.sd with | some d => d.eng.isSome && !d.q.toList.any (fun q => q.state == 2) | none => false) ||
    s.routes.any fun r => r.voy == v.id && (s.cutEdge r || (!r.closed && match r.cross with | some (_, true, _) => true | _ => false))

/-- The next event of a region goes to its monitor channel when that has room (R56, R194). -/
def State.deliverEvent (s : State) (v : Voyage) (r : Region) : State :=
  match r.mon, r.events with
  | some (x, y, c, _), k :: rest =>
    match s.station? (r.at x y) with
    | some t =>
      if 0 < t.c[c].room then
        (((s.modStation t.id fun u => u.modC c (·.push s.nextId (some k) 0)).fresh).modRegion v.id r.idx fun r => { r with events := rest }).stir v.id
      else s
    | none => s
  | _, _ => s

/-- Snapshots and saves, one cycle on: a save starts once the region has settled, or 4,096 cycles after its freeze (R440). -/
def State.tickSnap (s : State) (v : Voyage) (r : Region) : Region :=
  match r.snap with
  | .none => r
  | .pending n =>
    if !r.frozen then r
    else if s.settled v.id r.idx || decide (4096 ≤ n) then { r with snap := .saving (s.saveCycles v [r]) }
    else { r with snap := .pending (n + 1) }
  | .saving n => { r with snap := .saving (n - 1) }

/-- A drain that has settled, or has waited 4,096 cycles, begins to save (R440). -/
def State.tickDrain (s : State) (v : Voyage) : Voyage :=
  match v.drain with
  | none => v
  | some (r, n) =>
    let v := { v with drain := some (r, n + 1) }
    let rs := v.regions.filter fun r => r.st != .retired
    if rs.all (fun r => r.snap == .none) && (decide (4096 ≤ n) || v.regions.all fun r => s.settled v.id r.idx) then
      let k := s.saveCycles v v.regions
      { v with regions := v.regions.map fun r => if r.st == .retired then r else { r with snap := .saving k, frozen := false } }
    else v

/-- The start signal, after the multicast (R47). -/
def Voyage.tickStart (v : Voyage) : Voyage :=
  if !(v.frozen && v.drain.isNone) then v
  else if 1 < v.start then { v with start := v.start - 1 }
  else { v with start := 0, frozen := false, regions := v.regions.map fun r => if r.st == .waiting then { r with st := .running } else r }

/-- One voyage, one cycle on. -/
def State.tickVoyage (s : State) (v : Voyage) : Voyage :=
  let quiet := !v.frozen && !v.ended && !v.moved && !s.restless v
  let hold := v.frozen || v.regions.any fun r => r.frozen
  let v := { v with
    quiet := if hold then v.quiet else if quiet then v.quiet + 1 else 0, dead := v.dead && !v.moved, moved := false
    regions := v.regions.map fun r =>
      s.tickSnap v (if r.st == .running && !r.frozen && !v.frozen then { r with clk := r.clk + 1, events := r.events.map Token.age } else r) }
  (s.tickDrain v).tickStart

/-! ### The device -/

/-- A traverse link, one cycle on: after a cycle in which no flit has left, an idle flit leaves one that carries flits. DESIGN CHOICE (log 106): R464 does
not say when one leaves. -/
def TLink.tick (l : TLink) (run : Bool) : TLink :=
  { l with outbox := if run && l.outbox.isEmpty then [l.idle.wire] else [], timer := if l.unacked.isEmpty then 0 else l.timer + 1 }

/-- Whether an access waits for a frame of a die's pool. -/
def State.wantsFrame (s : State) (d : Nat) : Bool :=
  s.reqs.any (fun q => q.stage == .withheld (.noFrame d)) || s.copies.any (fun k => k.wait == some (.noFrame d))

/-- An answer of no frames stands for the accesses that wait when it comes: with none left, the pool may ask again (R461). DESIGN CHOICE (log 104). -/
def State.forgetRefusals (s : State) : State :=
  let eng := s.stations.any fun t => (t.sd.bind (·.eng)).any fun j => j.wait.isSome
  { s with dies := Vector.ofFn fun d : Fin 4 => if eng || s.wantsFrame d.val then s.dies[d] else { s.dies[d] with refused := false } }

/-- Domains of a voyage that is over go once nothing of theirs is on its way. -/
def State.purgeDomains (s : State) : State :=
  { s with domains := s.domains.filter fun d => (s.voyage? d.voy).isSome || s.reqs.any d.holds }

/-- Everything that moves by itself, one cycle on. -/
def State.advance (s : State) : State :=
  let s := { s with
    time := s.time + 1
    stations := s.stations.map s.tickStation
    routes := s.routes.map s.tickRoute
    reqs := s.reqs.map s.tickReq
    copies := s.copies.map s.tickCopy
    barMsgs := s.barMsgs.map s.tickBar
    voyages := s.voyages.map s.tickVoyage
    agens := s.agens.map fun (g : Agen) => if s.still g.voy g.reg then g else g.age
    queues := s.queues.map fun (k : Queue) => { k with poll := k.poll - 1 }
    links := Vector.ofFn fun k : Fin 16 => s.links[k].tick (s.linkOpen k.val s.links[k])
    window := s.window.map fun n => n - 1
    bootTime := if s.state = 0 then s.bootTime + 1 else s.bootTime }
  let s := (s.voyages.flatMap fun (v : Voyage) => v.regions.map fun (r : Region) => (v, r)).foldl
    (fun (s : State) (x : Voyage × Region) => if s.still x.1.id x.2.idx then s else s.deliverEvent x.1 x.2) s
  s.tickMarks.purgeDomains.forgetRefusals

end Sys2Proof.Machine
end

