-- ==== Sys2Proof/Machine/Tick.lean ====
section
/-! DEFINITION. A station cycle: what moves by itself, then the events of the cycle in their order (log 1). An event that has become impossible by the
time it comes up changes nothing: its meaning checks again. -/

namespace Sys2Proof.Machine

open Sys2Proof

/-- A list of events of a cycle. -/
abbrev Events := List (Instr × EvArg)

/-! ### Slack (R52, R56) -/

/-- The token standing at a place of a FIFO, for those whose counter runs. -/
def Fifo.places (f : Fifo) (loc : Nat → TokLoc) : List (TokLoc × Slack) :=
  f.q.zipIdx.filterMap fun (e, i) => e.tok.map fun k => (loc i, k.slk)

/-- Where every counter of the machine stands that runs in this cycle. -/
def State.counters (s : State) : List (TokLoc × Slack) :=
  (s.stations.flatMap fun t =>
    if s.still t.voy t.reg then [] else (List.finRange 8).flatMap fun c => t.c[c].places fun i => .chan t.id c i) ++
  (s.routes.flatMap fun r =>
    if s.still r.voy r.reg then [] else r.hops.zipIdx.flatMap fun (h, k) => h.fifo.places fun i => .hop r.id k i) ++
  (s.reqs.filterMap fun q => if s.still q.voy q.reg then none else some (.req q.id, q.slack)) ++
  (s.agens.zipIdx.flatMap fun (g, k) =>
    if s.still g.voy g.reg then [] else g.outq.zipIdx.filterMap fun (e, i) => e.2.map fun t => (.agen k i, t.slk)) ++
  (s.voyages.flatMap fun v => v.regions.flatMap fun r =>
    if s.still v.id r.idx then [] else r.events.zipIdx.map fun (t, i) => (.event v.id r.idx i, t.slk)) ++
  (s.stations.flatMap fun t => if !s.stationRuns t then [] else t.nodeToks.zipIdx.map fun (k, i) => (.node t.id i, k.slk))

/-- Where a counter of a cycle's start stands once the cycle has begun: a region's first event may have gone to its monitor channel (R194). -/
def State.moved (s0 s : State) (l : TokLoc) : TokLoc :=
  match l with
  | .event v r i =>
    match s0.region? v r, s.region? v r with
    | some a, some b =>
      if a.events.length = b.events.length then l
      else match i, b.mon with
        | i + 1, _ => .event v r i
        | 0, some (x, y, c, _) => (match s.station? (b.at x y) with | some t => .chan t.id c (t.c[c].q.length - 1) | none => l)
        | 0, none => l
    | _, _ => l
  | l => l

/-- Counters that are at 1 before a cycle reach 0 in it, where they then stand. -/
def State.overdueEvents (s0 s : State) : Events :=
  s0.counters.filterMap fun (l, x) => if !x.bg && x.n == 1 then some (.tokenOverdue, .tok (s0.moved s l)) else none

def State.promoteEvents (s : State) : Events :=
  s.counters.filterMap fun (l, x) => if x.bg && decide (4096 ≤ x.n) then some (.backgroundPromote, .tok l) else none

/-! ### Voyages -/

/-- Retirements, halts, saves and drains. -/
def State.regionEvents (s : State) (v : Voyage) (r : Region) : Events :=
  let run := r.st == .running && !v.frozen && !v.ended
  (if run && !r.frozen && s.doneStop r then [(.regionRetire, .region v.id r.idx)] else []) ++
  (if run && v.dead && decide (4096 ≤ v.quiet) then [(.deadlockHalt, .region v.id r.idx)] else []) ++
  (if run && r.snap == .pending 0 && !r.frozen then [(.snapshot, .region v.id r.idx)] else []) ++
  (if r.frozen && r.snap == .saving 0 then [(.imageSaveDone, .region v.id r.idx)] else [])

def State.voyageEvents (s : State) (v : Voyage) : Events :=
  (if !v.owed.isEmpty || (v.ended && !s.held v) || (!v.ended && v.halted && !s.copiesOnPlats v.id) ||
      (!v.ended && v.retired && !v.frozen && !s.busyPlats v.id) then [(.regionRetire, .voyage v.id)] else []) ++
  (if decide (4096 ≤ v.quiet) && !v.dead then [(.quietDeadlock, .voyage v.id)] else []) ++
  (v.regions.flatMap (s.regionEvents v)) ++
  (if v.drain.isSome && !v.ended && v.regions.all (fun r => r.st == .retired || (r.snap == .saving 0 && !r.frozen)) then
    [(.imageSaveDone, .voyage v.id)] else [])

/-- Whether a region's limit has run out for something withheld so long. -/
def State.limitOut (s : State) (voy reg held : Nat) : Bool :=
  match s.voyage? voy, s.region? voy reg with
  | some v, some r => v.drain.isNone && !v.ended && decide (r.tlim ≤ held)
  | _, _ => false

def State.limitEvents (s : State) : Events :=
  (s.reqs.filterMap fun q => if (s.heldBack q).isSome && s.limitOut q.voy q.reg q.held then some (.timeLimitExpiry, .req q.id) else none) ++
  (s.routes.filterMap fun r => if s.cutEdge r && s.limitOut r.voy r.reg r.held then some (.timeLimitExpiry, .route r.id) else none) ++
  (s.copies.filterMap fun k => if k.wait.isSome && s.limitOut k.voy k.reg k.held then some (.timeLimitExpiry, .copy k.id) else none) ++
  (s.stations.filterMap fun t => match t.sd.bind (·.eng) with
    | some j => if j.wait.isSome && s.limitOut t.voy t.reg j.held then some (.timeLimitExpiry, .st t.id) else none
    | none => none)

/-! ### The Helm (R38-R46) -/

/-- What the Helm does with a queue in a cycle. -/
def State.queueEvents (s : State) (k : Queue) : Events :=
  if !k.en || k.stop then []
  else match k.wait with
    | .none =>
      if k.wr = k.rd then []
      else match s.nextPacket k with
        | .stop _ => [(.malformedPacket, .queue k.n)]
        | .frames d => [(.poolBorrow, .die d)]
        | .packet p _ => [(if p.kind = 0 then .noOpPacket else if p.kind = 1 then .voyageLaunchPacket else .dependencyWaitPacket, .queue k.n)]
    | .dep => if k.poll = 0 then [(.dependencyRecheck, .queue k.n)] else []
    | .acq => if k.live.isEmpty then [(.acqPacketRelease, .queue k.n)] else []
    | .placing _ => []

def State.helmEvents (s : State) : Events :=
  if s.state ≠ 1 then []
  else
    (sortBy (fun (k : Queue) => [k.n]) s.queues).flatMap s.queueEvents ++
    (s.launches.filterMap fun l => if !l.starve && decide (2 ^ 21 ≤ s.time - l.time) then some (.launchStarveBlock, .launch l.id) else none) ++
    s.waiting.map fun l => (if l.resume.isSome then .resumePlace else .placement, .launch l.id)

/-! ### Stations -/

def State.stationEvents (s : State) : Events :=
  (sortBy (fun (t : Station) => [t.id.die, t.id.y, t.id.x]) (s.stations.filter fun t => s.stationRuns t && (t.ctx.toList.any fun c => !c.rules.isEmpty))).map
    fun t => (.stationCycle, .st t.id)

/-- What the matrix unit of a station does beside its rules (R323, R327, R329). -/
def State.matrixEvents (s : State) (t : Station) (m : Mat) : Events :=
  ((List.finRange 4).filterMap fun n =>
    match m.t[n].fill.bind t.headEntry with
    | some k => if (m.t[n].accept k).isSome then some (.tileFillAccept, .tile t.id n) else none
    | none => none) ++
  ((List.finRange 2).filterMap fun n =>
    match m.drains n with
    | some o => if s.outRoom t.id o 1 then some (.accDrainToken, .acc t.id n) else none
    | none => none) ++
  (((List.finRange 2).filterMap fun n =>
    let x := m.a[n]
    match (x.cfg.bind (·.carry)).bind t.headEntry with
    | some k => if x.st == .closed && !x.carried && m.step.isNone && k.data? then some (.carryInToken, .acc t.id n) else none
    | none => none).take 1)

/-- Nodes and streams on channels (R330, R331, R426). -/
def State.nodeEvents (s : State) (t : Station) : Events :=
  (match t.nrm with
    | some x =>
      let go := (match x.outs with | (0, _) :: _ => s.outRoom t.id x.o 1 | _ => false) || (match t.headEntry x.i with | some k => x.takes k | none => false)
      if go then [(.normaliserToken, .st t.id)] else []
    | none => []) ++
  (match t.ctn with
    | some x =>
      let go := (match x.outs with | (0, _, _) :: _ => s.outRoom t.id x.o 1 | _ => false) || (decide (x.blocks < 2) && (t.headEntry x.i).isSome)
      if go then [(.cornerTurnToken, .st t.id)] else []
    | none => []) ++
  (match t.ss.bind (·.io) with
    | some (.sout o ..) => if s.outRoom t.id o 1 then [(.soutPart, .st t.id)] else []
    | some (.sin _ c _ _ ctx ..) => if (t.seen ctx c).isSome then [(.sinPart, .st t.id)] else []
    | none => [])

/-- The tree engine (R383, R390, R395): it waits for its requests, and a paused walk for its hints. -/
def State.engineEvents (s : State) (t : Station) : Events :=
  match t.sd.bind (fun d => d.eng.map fun j => (j, d.q[j.q])) with
  | some (j, q) =>
    if j.left ≠ 0 || s.treeBusy t.id then []
    else if j.needsLock then [(.treeLockRetry, .st t.id)]
    else if j.op == .walk && q.state != 1 then []
    else [(.treeOpComplete, .st t.id)]
  | none => []

/-- The units of a running station: events, and whether any of them moves a token. -/
def State.unitEvents (s : State) (t : Station) : Events :=
  if !s.stationRuns t then []
  else (match t.mat with | some m => s.matrixEvents t m | none => []) ++ s.nodeEvents t

/-- Fault tokens at heads that no rule handles (R166). -/
def State.strayEvents (s : State) (t : Station) : Events :=
  if !s.stationRuns t then []
  else (List.finRange 8).filterMap fun n => if (s.strayFault t n).isSome then some (.faultTokenRequeue, .chan t.id n) else none

/-- What ends in a cycle: results, steps, yields (R161, R195, R343). -/
def State.endEvents (s : State) (t : Station) : Events :=
  (t.flights.filterMap fun f => if f.left = 0 then some (.resultLands, .flight t.id f.id) else none) ++
  (if !s.stationRuns t then []
  else
    (match t.mat.bind (·.step) with | some x => if x.left = 0 then [(.matrixStepComplete, .st t.id)] else [] | none => []) ++
    ((List.finRange 8).filterMap fun c => if t.ctx[c].yield = 1 then some (.yieldExpiry, .ctx t.id c) else none))

/-! ### Memory -/

/-- The event of a SPACE 1 request that has arrived. -/
def Req.windowEvent (q : Req) : Instr := match paCls q.va with | .mmio _ => .mirrorRead | _ => .windowAccess

/-- Requests that have come to a port, and SPACE 1 requests that leave for another die. -/
def State.arrivals (s : State) : Events :=
  s.reqs.filterMap fun q => match q.h.space, q.stage with | .win, .net 0 => (if !q.released && q.homeDie != q.die then some (.memoryRequestIssue, .req q.id) else none) | _, .net 0 => some (.memoryRequestIssue, .req q.id) | _, _ => none

/-- SPACE 1 requests that have come to a window or to the Helm: one for each station and target, in firing order (R267), at the boundary that ends the
cycle (R248). -/
def State.windowEvents (s : State) (seen : List (StId × Option StId)) : List Req → Events
  | [] => []
  | q :: r =>
    match q.h.space, q.stage with
    | .win, .net n =>
      let k := (q.st, winTarget q.va)
      let here := q.way.isEmpty && (q.released || q.homeDie == q.die)
      let rest := s.windowEvents (k :: seen) r
      if n = 0 ∧ here ∧ !seen.contains k ∧ !s.voyageStill q.voy then (q.windowEvent, .req q.id) :: rest else rest
    | _, _ => s.windowEvents seen r

/-- Of two requests that a broken chain lets go in one pass, the one that arrived first, though its translation may withhold it (R232). -/
def State.firstOf (s : State) (r q : Req) : Bool :=
  !r.released && !r.op.monitor && (match r.stage with | .port => true | .withheld _ => true | _ => false) && decide (r.arrived < q.arrived) &&
    match s.domain? q with | some d => d.holds r && d.lets r r.pass | none => false

/-- The requests that bid at their ports, and those that need no place there: nothing of a frozen region (R440). -/
def State.portHeads (s : State) : List Req :=
  let qs := s.reqs.filter fun q => s.canRelease q && !s.still q.voy q.reg
  qs.filter fun q => q.stage != .port || !s.reqs.any fun r => s.firstOf r q

def State.portEvents (s : State) : Events × List (Arb × Nat) :=
  let qs := s.portHeads
  let own := qs.filterMap fun q => if q.stage == .translate then some (Instr.portRelease, EvArg.req q.id) else none
  let (got, rots) := grants s.rots (qs.filterMap fun q =>
    if q.stage == .translate then none
    else q.port.map fun (d, i) => ⟨.port d i, arbKey q.slack q.stood, 56 * q.st.y + q.st.x, (Instr.portRelease, EvArg.req q.id)⟩)
  (own ++ got, rots)

/-- What the Cadastre resolves (R256). -/
def Held.event : Held → Option Instr
  | .firstTouch => some .firstTouch
  | .copyOnWrite => some .copyOnWrite
  | .decompress => some .decompress
  | _ => none

def State.cadastreEvents (s : State) : Events :=
  (s.reqs.filterMap fun q => match q.stage with | .withheld w => if s.still q.voy q.reg then none else w.event.map fun i => (i, .req q.id) | _ => none) ++
  (s.copies.filterMap fun k => if s.still k.voy k.reg then none else (k.wait.bind Held.event).map fun i => (i, .copy k.id)) ++
  ((List.range 4).filterMap fun d => if s.wantsFrame d then some (.poolBorrow, .die d) else none)

/-- A request on a line of another one of its port that has left the port before it, or of its domain and to its peer (R236, R465). -/
def Req.behind (q r : Req) : Bool :=
  q.port == r.port && q.h.space == r.h.space &&
    if q.h.space = .peer then q.src == r.src && q.h.peer == r.h.peer
    else q.parts.any fun (_, a, n) => r.parts.any fun (_, b, m) => a / 128 ≤ (b + m - 1) / 128 && b / 128 ≤ (a + n - 1) / 128

/-- Whether a request stands at its home, or on its way there. -/
def Req.out (q : Req) : Bool := q.released && match q.stage with | .home _ => true | .room _ => true | .bounced => true | _ => false

/-- Requests that a domain has released and that have not performed. -/
def Req.awaited (q : Req) : Bool := q.released && match q.stage with | .reply .. => false | .armed => false | .hit _ => false | _ => true

/-- Whether a request is that of a copy in progress. -/
def State.copying (s : State) (q : Req) : Bool := match q.op with | .copy k => (match s.copy? k with | some c => c.run | none => true) | _ => false

/-- The slice that a request performs at; windows and the like have none. -/
def State.sliceOf (s : State) (q : Req) : Option (Nat × Nat) :=
  match q.h.space, q.parts with | .dev, (_, pa, _) :: _ => (match paCls pa with | .dev => some (s.home pa) | _ => none) | _, _ => none

/-- The heads of a slice's inputs: of the requests of one port there the one that has stood at the head, or that has come first (R54). -/
def sliceHeads (l : List ((Nat × Nat) × Req)) : List ((Nat × Nat) × Req) :=
  l.filter fun (k, q) =>
    match leastBy (fun (r : Req) => [2 ^ 40 - r.stood, 2 ^ 40 - r.queued]) ((l.filter fun (j, r) => j == k && r.port == q.port).map (·.2)) with
    | some r => r.id == q.id
    | none => false

/-- What may perform at the homes: requests at slices, those of one port and line in release order, and the events that need no grant. -/
def State.atHomes (s : State) : List ((Nat × Nat) × Req) × Events :=
  let rec go (before : List Req) : List Req → List ((Nat × Nat) × Req) × Events
    | [] => ([], [])
    | q :: r =>
      let (a, b) := go (if q.awaited then before ++ [q] else before) r
      match q.stage with
      | .home 0 =>
        if q.way ≠ [] ∨ before.any (fun x => x.out && q.behind x) then (a, b)
        else if s.stale q then (a, (.rehashBounce, .req q.id) :: b)
        else (match s.sliceOf q with | some k => ((k, q) :: a, b) | none => (a, (.homePerform, .req q.id) :: b))
      | .room n => (a, ((if 65536 ≤ n then .historyOverflow else .homePerform), .req q.id) :: b)
      | .settle =>
        (match q.op with
          | .ldt .. => (a, if q.stamp.toNat < s.watermark q.asid then (.settledLoadRelease, .req q.id) :: b else b)
          | op =>
            let waits (p : Req) : Bool :=
              p.voy == q.voy && p.reg == q.reg && p.port == q.port && p.src == q.src && (op == .settle || !s.copying p)
            if before.any waits ∨ s.copying q ∨ s.still q.voy q.reg then (a, b)
            else (a, (.homePerform, .req q.id) :: b))
      | .hit _ => (a, (.monitorComplete, .req q.id) :: b)
      | _ => (a, b)
  go [] s.reqs

/-- Performing at the homes: one request for each slice in a cycle (R54). -/
def State.homeEvents (s : State) : Events × List (Arb × Nat) :=
  let (x, y) := s.atHomes
  let (got, rots) := grants s.rots ((sliceHeads x).map fun ((d, i), q) =>
    ⟨.slice d i, arbKey q.slack q.stood, (match q.port with | some (_, n) => n | none => 0), (.homePerform, .req q.id)⟩)
  (got ++ y, rots)

/-- Copies that run, with the answers to what they have asked for, and one completion for each station, in the order of completion (R238, R279). -/
def State.copyEvents (s : State) : Events :=
  (s.reqs.filterMap fun q => match q.way, q.stage, q.op with | [], .reply 0 _, .part .. => some (.copyWrite, .req q.id) | _, _, _ => none) ++
  (s.copies.filterMap fun k =>
    if k.run && !s.still k.voy k.reg && decide (k.pos < k.total) && (k.wait.isNone || k.wait == some .notPresent) then some (.copyWrite, .copy k.id) else none) ++
  (((s.copies.map (·.st)).eraseDups).filterMap fun i =>
    (s.copies.find? fun k => k.st == i && k.run && !s.still k.voy k.reg && decide (k.total ≤ k.pos)).map fun k => (.copyComplete, .copy k.id))

/-! ### Barriers, tasks, marks, generators -/

def State.syncEvents (s : State) : Events :=
  (((s.barMsgs.filter fun m => m.left == 0 && m.away.isNone && !s.voyageStill m.key.voy).map (·.key) ++ s.looks).eraseDups).map
    (fun k => (.barrierEntryUpdate, .bar k)) ++
  ((List.range 4).filterMap fun d => match s.nextTask d with
    | some t => if (s.hostsOf t).isEmpty then none else some (.taskDispatch, .task d t.id)
    | none => none) ++
  (s.tasks.filterMap fun t =>
    if t.spoiled && (match t.st with | .running .. => true | .done => true | _ => false) then some (.taskAbort, .task t.die t.id)
    else if s.commits t then some (.taskCommit, .task t.die t.id) else none) ++
  (s.marks.filterMap fun m => if m.sent = some 0 then some (.markPropagate, .mark m.asid m.who) else none) ++
  (s.agens.zipIdx.filterMap fun (g, k) =>
    if !s.still g.voy g.reg && (match s.region? g.voy g.reg with | some r => r.st == .running | none => false) && !g.done then some (.agxWalkElement, .agen k)
    else none)

/-! ### The device -/

/-- Replies that arrive at stations; those of a halted region too, and they are discarded there. -/
def State.replyEvents (s : State) : Events :=
  s.reqs.filterMap fun q => match q.way, q.stage, q.op with | [], .reply 0 _, .part .. => none | [], .reply 0 _, _ => some (.memoryReplyLands, .req q.id) | _, _, _ => none

/-- Cycles between two divisions of power. -/
def powerPeriod : Nat := 21000

def State.deviceEvents (s : State) : Events :=
  (if s.window = some 0 then [(.claimWindowEnd, .none)] else []) ++
  ((List.finRange 16).filterMap fun k => if retransmitAfter ≤ s.links[k].timer then some (.retransmitTimeout, .link k.val) else none) ++
  (if s.state = 0 ∧ s.boot = .fetch ∧ second ≤ s.bootTime then [(.fwFetchTimeout, .none)] else []) ++
  (if s.state = 0 ∧ 2 * second ≤ s.bootTime then [(.startTimeout, .none)] else []) ++
  (if s.arbiter ∧ s.time % powerPeriod = 0 then [(.powerRedivide, .none)] else [])

/-! ### The cycle -/

/-- Voyages whose units move something. -/
def State.stirAll (s : State) (vs : List Nat) : State :=
  { s with voyages := s.voyages.map fun (v : Voyage) => if vs.contains v.id then { v with moved := true } else v }

/-- The inputs whose time has come. -/
def State.dueInputs (s : State) : Events := s.inputs.filterMap fun (n, i, a) => if n ≤ s.time then some (i, a) else none

/-- Whether a request stands at the home that it has come to. -/
def Req.atHome (q : Req) : Bool := q.way.isEmpty && match q.stage with | .home 0 => true | _ => false

/-- The requests at the head of an arbiter's input: a die-link multiplexer, a slice queue, a port (R54). -/
def State.heads (s : State) : List Nat := (s.linkHeads ++ (sliceHeads s.atHomes.1).map (·.2) ++ s.portHeads).map (·.id)

/-- The time of a request at an arbiter's input and at its head, a cycle on (R54). -/
def Req.countStood (heads : List Nat) (q : Req) : Req :=
  { q with queued := if q.flow.isSome || q.atHome then q.queued + 1 else 0, stood := if heads.contains q.id then q.stood + 1 else 0 }

/-- A cycle: time goes on, and its events stand in the agenda. -/
def State.tick (s0 : State) : State :=
  let s := s0.advance
  let units := s.stations.map fun t => (t.voy, s.unitEvents t ++ s.strayEvents t)
  let (ports, r1) := s.portEvents
  let (homes, r2) := { s with rots := r1 }.homeEvents
  let (nets, r3) := { s with rots := r2 }.netEvents
  let events :=
    s.dueInputs ++ s0.overdueEvents s ++ s.promoteEvents ++ s.deviceEvents ++ s.voyages.flatMap s.voyageEvents ++ s.limitEvents ++ s.helmEvents ++
    s.stationEvents ++ s.arrivals ++ ports ++ s.cadastreEvents ++ s.syncEvents ++
    (s.stations.filter s.engineRuns).flatMap s.engineEvents ++ units.flatMap (·.2) ++ nets ++ s.replyEvents ++ s.stations.flatMap s.endEvents ++ homes ++ s.copyEvents ++ s.windowEvents [] s.reqs
  { s.stirAll ((units.filter fun u => !u.2.isEmpty).map (·.1)) with
    agenda := s.agenda ++ events, inputs := s.inputs.filter fun (n, _, _) => s.time < n, rots := r3, reqs := s.reqs.map (Req.countStood s.heads) }

end Sys2Proof.Machine
end

