-- ==== Sys2Proof/Machine/Fetch.lean ====
section
/-! DEFINITION. The word that a firing executes next, and a place for one instruction to run (log 2). -/

namespace Sys2Proof.Machine

open Sys2Proof

/-! ### Fetching (R156, R160) -/

/-- The word of a slot of the firing context. -/
def Firing.word (f : Firing) (i : Fin 32) : Option Word := f.pre.ctx[f.ctx].rules[i.val]?

/-- The instruction in a slot of the firing context. -/
def Firing.instr (f : Firing) (i : Fin 32) : Option Instr := (f.word i).bind (decode? f.pre.kind)

/-- The state in which the next event of the agenda runs. -/
def State.take (s : State) (a : EvArg) (rest : List (Instr × EvArg)) : State := { s with ev := a, agenda := rest }

/-! ### A place for one instruction -/

/-- The first kind of station that accepts a word, in the order in which `decodeTableWord` tries them. -/
def fetchKind (w : Word) : Kind := (tableKinds.find? fun k => (decode? k w).isSome).getD .c

/-- The station of each kind nearest the north-west corner of die 0 (Table 1.2). -/
def fetchStation : Kind → StId
  | .c => ⟨0, 1, 0⟩
  | .m => ⟨0, 0, 0⟩
  | .s => ⟨0, 1, 1⟩
  | .sd => ⟨0, 2, 2⟩
  | .ss => ⟨0, 6, 2⟩

/-- The packet of a launch on die 0 that nothing waits for: 2 by 1 plats. -/
def fetchPacket : Packet := Vector.ofFn fun i : Fin 8 => if i.val = 0 then BitVec.ofNat 64 (1 + 4 * 2 ^ 11 + 4 * 2 ^ 14 + 2 ^ 17 + 2 * 2 ^ 21 + 2 ^ 25) else 0

/-- A running region of 2 by 1 plats. -/
def fetchRegion : Region :=
  { idx := 0, die := 0, px := 0, py := 0, pw := 2, ph := 1, rpx := 0, rpy := 0, par := 0, slotNo := 0, dn := (0, 0, 7), flt := none, mon := none,
    tlim := 2100000, clk := 0, st := .running, frozen := false, gen := 0, snap := .none, events := [], discards := [],
    htab := Vector.replicate 16 HEntry.empty, code := 0, haltRec := 0, slotImg := none, imgGen := 0 }

/-- A running voyage of that region. -/
def fetchVoyage (id : Nat) : Voyage :=
  { id := id, queue := 0, asid := 0, pkt := fetchPacket, save := 0, regions := [fetchRegion], quiet := 0, moved := false, dead := false,
    pool := [(0, 0, 0), (0, 1, 0)], frozen := false, drain := none, requeue := false, start := 0, ended := false, bars := [], owed := [] }

/-- A station of that region that holds one word, in slot 0 of context 0. -/
def fetchHost (voy : Nat) (w : Word) : Station :=
  let k := fetchKind w
  let i := fetchStation k
  (Station.blank i k voy 0 i.x i.y 0).modCtx 0 fun c => { c with rules := [w] }

/-- The device runs, and a station of a running region fires the word next. -/
def State.placeWord (s : State) (w : Word) : State :=
  let t := fetchHost s.nextId w
  { s.fresh with
    state := 1
    voyages := s.voyages ++ [fetchVoyage s.nextId]
    stations := t :: s.stations.filter fun (u : Station) => u.id ≠ t.id
    firing := some ⟨t.id, 0, t, [0]⟩ }

end Sys2Proof.Machine
end

