-- ==== Sys2Proof/Machine/Step.lean ====
section
/-! DEFINITION. One step: a slot of a firing, an event of the cycle, or the start of the next cycle (log 1). -/

namespace Sys2Proof.Machine

open Sys2Proof

/-- One step of the machine. While a station's firing has slots to execute, the next of them runs; else the next event of the cycle; with none left,
the next cycle begins. -/
def step (s : State) : Host.Outcome State Fault Refusal :=
  match s.firing, s.agenda with
  | some f, _ =>
    match f.todo with
    | [] => .next { s with firing := none }
    | i :: _ =>
      match f.instr i with
      | some x => exec x s
      | none => .fault .undecodable
  | none, (x, a) :: rest => exec x (s.take a rest)
  | none, [] => .next s.tick

/-- An instruction of the opcode table stored where the next step runs it. -/
def State.withFetchWord (s : State) (nbits w : Nat) : State := s.placeWord (BitVec.ofNat 64 (w % 2 ^ nbits))

end Sys2Proof.Machine
end

