-- ==== Sys2Proof/Safety.lean ====
section
/-! DEFINITION. What counts as a safe run: one in which no step stops; and what a firing of rules leaves alone. -/

namespace Sys2Proof

open Sys2Proof.Machine

/-- A step answers a next state. -/
def Proceeds (o : Host.Outcome State Fault Refusal) : Prop := ∃ t, o = .next t

/-- A run of n steps from a state stops nowhere. -/
def SafeRun (n : Nat) (s : State) : Prop := Proceeds (core.run n s)

/-- From `s` to `t` nothing changes but stations, routes, voyage records (pending events, snapshots, quiet), requests, copies and barrier messages on
their way, tasks, the agenda, identifiers, and the firing itself. -/
structure RuleFrame (s t : State) : Prop where
  grade : t.grade = s.grade
  time : t.time = s.time
  free : t.free = s.free
  ev : t.ev = s.ev
  inputs : t.inputs = s.inputs
  ports : t.ports = s.ports
  agens : t.agens = s.agens
  paths : t.paths = s.paths
  launches : t.launches = s.launches
  queues : t.queues = s.queues
  domains : t.domains = s.domains
  bars : t.bars = s.bars
  marks : t.marks = s.marks
  watermarks : t.watermarks = s.watermarks
  cells : t.cells = s.cells
  mem : t.mem = s.mem
  host : t.host = s.host
  descs : t.descs = s.descs
  roots : t.roots = s.roots
  saveBases : t.saveBases = s.saveBases
  saved : t.saved = s.saved
  l2 : t.l2 = s.l2
  bad : t.bad = s.bad
  remap : t.remap = s.remap
  sliceOver : t.sliceOver = s.sliceOver
  dies : t.dies = s.dies
  state : t.state = s.state
  bootrsn : t.bootrsn = s.bootrsn
  failcnt : t.failcnt = s.failcnt
  boot : t.boot = s.boot
  bootTime : t.bootTime = s.bootTime
  tlboot : t.tlboot = s.tlboot
  fw : t.fw = s.fw
  log : t.log = s.log
  pilots : t.pilots = s.pilots
  arbiter : t.arbiter = s.arbiter
  owned : t.owned = s.owned
  owner : t.owner = s.owner
  herr : t.herr = s.herr
  attached : t.attached = s.attached
  claims : t.claims = s.claims
  window : t.window = s.window
  apbase : t.apbase = s.apbase
  sbquery : t.sbquery = s.sbquery
  pwrlim : t.pwrlim = s.pwrlim
  pwrnow : t.pwrnow = s.pwrnow
  shares : t.shares = s.shares
  pwrmir : t.pwrmir = s.pwrmir
  pwrseq : t.pwrseq = s.pwrseq
  mailboxes : t.mailboxes = s.mailboxes
  asks : t.asks = s.asks
  vectors : t.vectors = s.vectors
  answer : t.answer = s.answer
  links : t.links = s.links
  bindings : t.bindings = s.bindings
  joins : t.joins = s.joins
  rots : t.rots = s.rots

/-- The device's memory is in canonical form (log 4). -/
def MemoryCanonical (s : State) : Prop := Memory.wf s.mem = true ∧ Memory.wf s.host = true

end Sys2Proof
end

