-- ==== Sys2Proof/Certificates/Slice0/Obligations.lean ====
section
/-! DEFINITION. The statements for the provers, from the numbered rules of spec/ and from the model's own choices (each says which).

How to read them. A rule word runs as one slot of a station's firing. `Slot` names that slot: the firing, the slot, the slots after it and the
station as it now stands. `Slot.Fires` says that the slot comes next and that its guard holds. `Slot.after` is the machine after a firing whose
effects are the given ones: the effects are written out in each statement, so that a statement says which registers, channels, tokens and requests
the instruction changes; `FiringTouchesOnlyItsEffects` says that nothing else of the station changes. -/

namespace Sys2Proof.Claims

open Sys2Proof Sys2Proof.Machine

/-- The slot that executes next: its firing, the slot, the slots after it, the station as it stands now. -/
structure Slot where
  f    : Firing
  sl   : Fin 32
  rest : List (Fin 32)
  t    : Station

/-- What the rule in the slot sees. -/
def Slot.env (k : Slot) (s : State) (h : Hdr) : Env := ⟨s, k.t, k.f, k.sl, h⟩

/-- The slot comes next in the machine, and the guard of its rule held at the start of the cycle (R158, R160). -/
def Slot.Fires (k : Slot) (s : State) (h : Hdr) : Prop :=
  s.firing = some k.f ∧ k.f.todo = k.sl :: k.rest ∧ s.station? k.f.st = some k.t ∧ k.f.pre.guard k.f.ctx k.sl h.guard = true

/-- The machine after the slot has fired with given effects (R161); a task handler that would send outside its region is turned into its fault (R65). -/
def Slot.after (k : Slot) (s : State) (h : Hdr) (x : Fire) : State :=
  commit (k.env s h) (s.slotTaken k.f k.rest) ((k.env s h).keepInside x)

/-- The instruction, run in the slot, has the effects. -/
def Slot.Does (k : Slot) (s : State) (i : Instr) (h : Hdr) (x : Fire) : Prop := exec i s = .next (k.after s h x)

/-! ### Tables of results -/

/-- Two sources and a scalar result: the operands, the latency, the occupancy of the unit beyond the firing cycle, and the result (Tables 7.2, 7.3).
`sel` reads its predicate in the station as it stood at the start of the cycle. -/
def scalarBin (pre : Station) : Instr → Option (RBin × Nat × List Effect × (Word → Word → Word))
  | .add r => some (r, 1, [], fun a b => a + b)
  | .sub r => some (r, 1, [], fun a b => a - b)
  | .mul r => some (r, 3, [], fun a b => a * b)
  | .mulh r => some (r, 3, [], fun a b => BitVec.ofInt 64 (a.toInt * b.toInt / 2 ^ 64))
  | .mulhn r => some (r, 3, [], fun a b => BitVec.ofNat 64 (a.toNat * b.toNat / 2 ^ 64))
  | .div r => some (r, 20, [.busy .alu 20], fun a b => if b = 0 then BitVec.allOnes 64 else a.sdiv b)
  | .divn r => some (r, 20, [.busy .alu 20], fun a b => if b = 0 then BitVec.allOnes 64 else a.udiv b)
  | .rem r => some (r, 20, [.busy .alu 20], fun a b => if b = 0 then a else a.srem b)
  | .remn r => some (r, 20, [.busy .alu 20], fun a b => if b = 0 then a else a.umod b)
  | .min r => some (r, 1, [], fun a b => if a.slt b then a else b)
  | .max r => some (r, 1, [], fun a b => if a.slt b then b else a)
  | .minn r => some (r, 1, [], fun a b => if a.ult b then a else b)
  | .maxn r => some (r, 1, [], fun a b => if a.ult b then b else a)
  | .and r => some (r, 1, [], fun a b => a &&& b)
  | .or r => some (r, 1, [], fun a b => a ||| b)
  | .xor r => some (r, 1, [], fun a b => a ^^^ b)
  | .andn r => some (r, 1, [], fun a b => a &&& ~~~b)
  | .orn r => some (r, 1, [], fun a b => a ||| ~~~b)
  | .shl r => some (r, 1, [], fun a b => a <<< (b &&& 63).toNat)
  | .shr r => some (r, 1, [], fun a b => a >>> (b &&& 63).toNat)
  | .sra r => some (r, 1, [], fun a b => a.sshiftRight (b &&& 63).toNat)
  | .rol r => some (r, 1, [], fun a b => (a <<< (b &&& 63).toNat) ||| (a >>> (64 - (b &&& 63).toNat)))
  | .sel r p => some (r, 1, [], fun a b => if pre.p.getLsbD p.val then a else b)
  | _ => none

/-- One source and a scalar result (Table 7.3); `movi` has none, and reads the constant 0 here. -/
def scalarOne (pre : Station) : Instr → Option (Hdr × Opd × Opd × (Word → Word))
  | .clz r => some (r.hdr, r.d, r.a, aluClz)
  | .ctz r => some (r.hdr, r.d, r.a, aluCtz)
  | .popc r => some (r.hdr, r.d, r.a, aluPopc)
  | .mov r => some (r.hdr, r.d, r.a, fun a => a)
  | .movi h d imm => some (h, d, .sp .zero, fun _ => imm.signExtend 64)
  | .movhi r imm => some (r.hdr, r.d, r.a, fun a => (a <<< 19) + imm.signExtend 64)
  | .ext r => some (r.hdr, r.d, r.a, fun a => aluExt a r.pos.toNat (r.len1.toNat + 1))
  | .extn r => some (r.hdr, r.d, r.a, fun a => aluExtn a r.pos.toNat (r.len1.toNat + 1))
  | .ins ⟨h, .d n, a, pos, len1⟩ => some (h, .d n, a, fun w => aluIns pre.d[n] w pos.toNat (len1.toNat + 1))
  | _ => none

/-- Two scalars and a predicate (Table 7.4). -/
def comparison : Instr → Option (RCmp × (Word → Word → Bool))
  | .ceq r => some (r, fun a b => a == b)
  | .cne r => some (r, fun a b => a != b)
  | .clt r => some (r, fun a b => a.slt b)
  | .cle r => some (r, fun a b => a.sle b)
  | .cltn r => some (r, fun a b => a.ult b)
  | .clen r => some (r, fun a b => a.ule b)
  | .cbit r => some (r, fun a b => a.getLsbD (b &&& 63).toNat)
  | .ctst r => some (r, fun a b => (a &&& b) != 0)
  | _ => none

/-- A predicate from predicates, as they stood at the start of the cycle (Table 7.4). -/
def predicateOp (pre : Station) : Instr → Option (Hdr × Fin 8 × Bool)
  | .pand r => some (r.hdr, r.n, pre.pred r.a && pre.pred r.b)
  | .por r => some (r.hdr, r.n, pre.pred r.a || pre.pred r.b)
  | .pxor r => some (r.hdr, r.n, pre.pred r.a ^^ pre.pred r.b)
  | .pandn r => some (r.hdr, r.n, pre.pred r.a && !pre.pred r.b)
  | .pnot r => some (r.hdr, r.n, !pre.pred r.a)
  | .pmov r => some (r.hdr, r.n, pre.pred r.a)
  | .pset h n => some (h, n, true)
  | .pclr h n => some (h, n, false)
  | _ => none

end Sys2Proof.Claims

open Sys2Proof Sys2Proof.Machine Sys2Proof.Claims

namespace Sys2Proof.Claims

/-- How many opcodes Table 5.10 assigns in the row of a high nibble; each row assigns the low nibbles from 0. -/
def assignedInRow (n : Nat) : Nat := [16, 16, 16, 12, 16, 16, 16, 16, 12, 16, 9, 8, 11, 15, 8, 0].getD n 0

end Sys2Proof.Claims

/-! ### Words (R113-R131) -/

/-- A few words as the spec writes them out, each in a station kind that holds it (Tables 5.1 to 5.3, 5.10): a stop token of level 3, a sum with an
immediate, a guarded send with a tag and slack, a compare into a predicate, a chained load, a multiply-add of a head, a matrix step, a tree insertion. -/
def Obligations.WordsDecodeAsWritten : Prop :=
  decode .c 0xE06CC0007C300000 = .ok (.stop ⟨.init, 0x3E⟩ 0 3 0) ∧
  decode .c 0x000008407C080005 = .ok (.add ⟨⟨.always, 0x3E⟩, .d 1, .d 2, .imm 5⟩) ∧
  decode .s 0x2060D06010400000 = .ok (.send ⟨.pset 0, 8⟩ 2 (.d 3) 0 1) ∧
  decode .s 0x004418217C000000 = .ok (.clt ⟨⟨.always, 0x3E⟩, 3, .d 1, .reg (.d 2)⟩) ∧
  decode .sd 0x01200C407C00C205 = .ok (.ld ⟨⟨⟨.always, 0x3E⟩, 0, 3, 4, 5⟩, .d 1, 2, .d 0⟩) ∧
  decode .c 0x60A649287C008000 = .ok (.vfma ⟨⟨.chan 0, 0x3E⟩, 4, .rne, .sat, .v 1, .v 1, .c 0⟩) ∧
  decode .m 0x01086104FC200000 = .ok (.mma ⟨⟨.always, 0x3E⟩, 0, 0, 1, false, true⟩) ∧
  decode .sd 0x6180CA007C000000 = .ok (.tins ⟨⟨.chan 0, 0x3E⟩, .o 1, 0, .c 0, .d 0⟩)

/-- R113-R130: every instruction that a station kind accepts, with every operand at every value that its encoding admits, has a word, and that word
decodes in the station kind to the instruction. -/
def Obligations.EncodedRulesDecodeBack : Prop := ∀ (k : Kind) (i : Instr), WellFormed k i → decode k (encode i) = .ok i

/-- R116, R130: a word that decodes is the word of the instruction it decodes to, so no bit of it is ignored; and the instruction passes every check
of its station kind. -/
def StatementPart.DecodedWordsEncodeBack : Prop := ∀ (k : Kind) (w : Word) (i : Instr), decode k w = .ok i → encode i = w ∧ WellFormed k i


/-- R129: every opcode that Table 5.10 reserves is a configuration-load failure in every station kind, as a rule word and as a node word; and a node
word's opcode is no rule word. -/
def StatementPart.ReservedOpcodesRefused : Prop :=
  ∀ (w : Word), let op := w.extractLsb' 49 8
    (assignedInRow (op.toNat / 16) ≤ op.toNat % 16 →
      (∀ k, decode k w = .error .reservedOpcode) ∧ ∀ k, NodeWord.decode k w = none) ∧
    (op.toNat / 16 = 14 → ∀ k, decode k w = .error .reservedOpcode)

/-! ### Steps (R160; the order of steps is log 1) -/

/-- R160: in a firing with slots left, the machine runs the word of the next slot: where it decodes to an instruction, the step is that instruction. The
slot after it is the instruction's to name (`Slot.after`). -/
def Obligations.SlotRunsItsWord : Prop :=
  ∀ (s : State) (f : Firing) (i : Fin 32) (rest : List (Fin 32)) (w : Word) (x : Instr),
    s.firing = some f → f.todo = i :: rest → f.pre.ctx[f.ctx].rules[i.val]? = some w → decode f.pre.kind w = .ok x → step s = exec x s

/-- Log 1: with no slot left to run, the machine takes the next event of the cycle's list; with none left, the next cycle begins, and nothing that happens
by itself at its start writes the memory. A firing without slots ends. -/
def Obligations.EventRunsNext : Prop :=
  (∀ (s : State) (x : Instr) (a : EvArg) (rest : List (Instr × EvArg)), s.firing = none → s.agenda = (x, a) :: rest →
    step s = exec x { s with ev := a, agenda := rest }) ∧
  (∀ s : State, s.firing = none → s.agenda = [] → step s = .next s.tick ∧ s.tick.time = s.time + 1 ∧ s.tick.mem = s.mem ∧ s.tick.host = s.host) ∧
  (∀ (s : State) (f : Firing), s.firing = some f → f.todo = [] → step s = .next { s with firing := none })

/-- No instruction and no event of the opcode table stops the machine: a fault of the hardware is a token, a withheld request, a halted region or a
stopped queue (R164, R256, R439, R43), and the machine goes on. -/
def Obligations.EveryInstructionProceeds : Prop := ∀ (i : Instr) (s : State), Proceeds (exec i s)

/-- R161, R164: a rule word changes stations, routes and what its voyage has pending or under way, and nothing of the device beside them: every byte of
device and host memory, every page table root, queue, register, mailbox and link reads as before. The memory changes when a request performs. -/
def StatementPart.RuleWordsLeaveTheDeviceAlone : Prop :=
  ∀ (i : Instr) (s : State), encodeRaw i ≠ none →
    ∃ t, exec i s = .next t ∧ RuleFrame s t ∧ ∀ a : Nat, Memory.get t.mem a = Memory.get s.mem a ∧ Memory.get t.host a = Memory.get s.host a

/-- R158, R159 (log 1): a rule word whose guard does not hold changes nothing but the list of slots left to run. -/
def StatementPart.IdleRuleTakesOnlyItsSlot : Prop :=
  ∀ (k : Slot) (s : State) (w : Word) (i : Instr) (gk : BitVec 3) (ga : BitVec 4),
    s.firing = some k.f → k.f.todo = k.sl :: k.rest → s.station? k.f.st = some k.t → encode i = w → encodeRaw i ≠ none →
    gk = w.extractLsb' 61 3 → ga = w.extractLsb' 57 4 → k.f.pre.guard k.f.ctx k.sl (Guard.ofCode gk ga) = false →
    exec i s = .next (s.slotTaken k.f k.rest)

/-! ### Reset and the memory -/

/-- What the spec says of the device right after reset: it is starting and no unit has reported (R28, R33); no one owns it (R452); package time counts
from here (R198); no voyage, region, station, request or domain exists, and each die's pool is empty until its Helm reports (R468); the traverse links are down
(R463). The values of the other host-visible registers are the model's choice (log 3). -/
def Obligations.ResetAsTheSpecSays : Prop :=
  let s := State.reset
  s.state = 0 ∧ s.pilots = 0 ∧ s.arbiter = false ∧ (∀ d : Fin 4, s.dies[d].ready = 0) ∧ s.owned = false ∧ s.claims = [] ∧ s.time = 0 ∧
    s.voyages = [] ∧ s.stations = [] ∧ s.routes = [] ∧ s.reqs = [] ∧ s.domains = [] ∧ (∀ d : Fin 4, s.dies[d].pool = []) ∧
    (∀ l : Fin 16, s.links[l].up = false) ∧ s.firing = none ∧ s.agenda = []

/-- The memory right after reset is in canonical form. -/
def Obligations.ResetMemoryCanonical : Prop := MemoryCanonical State.reset

/-- Every step keeps the device's memory and the host's in canonical form, from every state in which they are. -/
def Obligations.StepKeepsMemoryCanonical : Prop := ∀ s t : State, MemoryCanonical s → step s = .next t → MemoryCanonical t

/-- The other direction of the decoding: a decoded word encodes back to itself, and a reserved opcode is refused. Parts: `DecodedWordsEncodeBack`,
`ReservedOpcodesRefused`. -/
def Obligations.DecodingIsExact : Prop := StatementPart.DecodedWordsEncodeBack ∧ StatementPart.ReservedOpcodesRefused

/-- A rule word leaves the device around the stations alone, and one whose guard does not hold takes only its slot. Parts: `RuleWordsLeaveTheDeviceAlone`,
`IdleRuleTakesOnlyItsSlot`. -/
def Obligations.RuleWordsActInTheirStation : Prop := StatementPart.RuleWordsLeaveTheDeviceAlone ∧ StatementPart.IdleRuleTakesOnlyItsSlot


namespace Sys2Proof.Claims

/-- The effects that a firing has at the end of its cycle, in order. -/
def Slot.effects (k : Slot) (s : State) (h : Hdr) (x : Fire) : List Effect := ((k.env s h).keepInside x).now

/-- The bytes of the local store (false) or the shadow bank (true) that an effect names: address and number. An element lands in the slot that its claim
holds: for the first claim BASE + 64 × (PCNT mod NSLOT), for one behind w others that have not landed BASE + 64 × ((PCNT + w) mod NSLOT) (R153). -/
def storedBytes (t : Station) : Effect → List (Bool × Nat × Nat)
  | .writeLocal sh a n _ => [(sh, a, n)]
  | .exchange a n => [(false, a, n), (true, a, n)]
  | .landElem n id _ =>
    match t.claims.find? (fun c => c.h = n && c.id == id) with
    | some c => [(t.h[n].kind == .phase, t.h[n].base.toNat + 64 * (c.slot.toNat % (t.h[n].size.toNat / 64)), 64)]
    | none => []
  | _ => []

/-- Those of effects that follow each other. -/
def storedBy (w : Who) : List Effect → Station → List (Bool × Nat × Nat)
  | [], _ => []
  | e :: r, t => storedBytes t e ++ storedBy w r (t.apply w e)

/-- The live or the shadow bytes of a station. -/
def bank (t : Station) (sh : Bool) : List Host.Cell := if sh then t.shadow else t.store

/-- Effects that may change which registers are pending: for register `r`. -/
def movesPending (r : PReg) : Effect → Bool
  | .setD n _ => r == .d n
  | .setV n _ => r == .v n
  | .pend q => q == r
  | .unpend q => q == r
  | _ => false

/-- Effects that may change a result in flight: a write of its register, or of the handle counter that it is about to write. -/
def movesFlight : Effect → Bool
  | .setD .. => true
  | .setV .. => true
  | .pend _ => true
  | .popRing _ => true
  | .landElem .. => true
  | .addPcnt .. => true
  | .addCcnt .. => true
  | _ => false

/-- Effects that may emit an overdue token. -/
def movesOverdue : Effect → Bool
  | .emit .. => true
  | .fillOut .. => true
  | .req _ => true
  | _ => false

/-- Effects that may change handle `n`. -/
def movesHandle (n : Fin 16) : Effect → Bool
  | .popRing m => m == n
  | .landElem m .. => m == n
  | .setH m .. => m == n
  | .addPcnt m _ => m == n
  | .addCcnt m _ => m == n
  | _ => false

/-- Effects that may push into or take from an input channel of the station itself. -/
def movesChannel (n : Fin 8) : Effect → Bool
  | .pop m => m == n
  | .emit .. => true
  | .claimOut .. => true
  | .fillOut .. => true
  | .req _ => true
  | .faultq _ => true
  | .taskFault _ => true
  | .taskDone => true
  | _ => false

/-- Effects on the matrix state, this station's or a neighbour's. -/
def movesMatrix : Effect → Bool
  | .setTile .. => true
  | .setAcc .. => true
  | .setG .. => true
  | .unbind _ => true
  | .step _ => true
  | .park .. => true
  | .parkLands .. => true
  | .unpark .. => true
  | _ => false

/-- Effects on the stream state. -/
def movesStream : Effect → Bool
  | .setZ .. => true
  | .stream _ => true
  | _ => false

/-- Effects on the sounding state; a register write also cancels a result still owed to that register. -/
def movesSounding : Effect → Bool
  | .setQ .. => true
  | .hints .. => true
  | .engine _ => true
  | .setD .. => true
  | .setV .. => true
  | .pend _ => true
  | _ => false

/-- From `a` to `b` a station keeps everything that the effects `y` do not name. -/
structure Untouched (w : Who) (y : List Effect) (a b : Station) : Prop where
  place : b.id = a.id ∧ b.kind = a.kind ∧ b.voy = a.voy ∧ b.reg = a.reg ∧ b.rx = a.rx ∧ b.ry = a.ry
  scalars : ∀ n : Fin 8, (∀ w, .setD n w ∉ y) → b.d[n] = a.d[n]
  vectors : ∀ n : Fin 8, (∀ w, .setV n w ∉ y) → b.v[n] = a.v[n]
  predicates : ∀ n : Fin 8, (∀ w, .setP n w ∉ y) → b.pred n = a.pred n
  handles : ∀ n : Fin 16, (∀ e ∈ y, movesHandle n e = false) → b.h[n] = a.h[n]
  memory : ∀ (sh : Bool) (n : Nat), (∀ r ∈ storedBy w y a, r.1 = sh → n < r.2.1 ∨ r.2.1 + r.2.2 ≤ n) →
    Memory.get (bank b sh) n = Memory.get (bank a sh) n
  claims : (∀ n id, .claimElem n id ∉ y) → (∀ n id x, .landElem n id x ∉ y) → b.claims = a.claims
  pending : ∀ r : PReg, (∀ e ∈ y, movesPending r e = false) → (r ∈ b.pend ↔ r ∈ a.pend)
  flights : (∀ e ∈ y, movesFlight e = false) → ∃ l, b.flights = a.flights ++ l ∧ l.length ≤ 1
  busy : (∀ u n, .busy u n ∉ y) → b.busy = a.busy
  overdue : (∀ e ∈ y, movesOverdue e = false) → b.overdue = a.overdue
  requests : (∀ r, .req r ∉ y) → b.credits = a.credits ∧ b.mons = a.mons
  copies : (∀ c, .copy c ∉ y) → b.copies = a.copies
  cache : (∀ c, .dropCache c ∉ y) → b.cache = a.cache
  channels : ∀ n : Fin 8, (∀ e ∈ y, movesChannel n e = false) → b.c[n] = a.c[n]
  bindings : ∀ n : Fin 8, (∀ w, .retag n w ∉ y) → b.hctx[n] = a.hctx[n]
  counters : ∀ n : Fin 8, (∀ w, .setCnt n w ∉ y) → b.cnt[n] = a.cnt[n]
  matrix : (∀ e ∈ y, movesMatrix e = false) → b.mat = a.mat
  streams : (∀ e ∈ y, movesStream e = false) → b.ss = a.ss
  sounding : (∀ e ∈ y, movesSounding e = false) → b.sd = a.sd
  nodes : b.ctn = a.ctn ∧ b.nrm = a.nrm ∧ b.handler = a.handler ∧ b.fctx = a.fctx ∧ b.worn = a.worn ∧ b.matPre = a.matPre

/-- From `b` to `c` a context keeps everything that the effects `y` do not name, under a guard of the rule. -/
structure CtxUntouched (y : List Effect) (g : Guard) (b c : Ctx) : Prop where
  rules : c.rules = b.rules ∧ c.conf = b.conf ∧ c.cls = b.cls ∧ c.task = b.task ∧ c.wait = b.wait ∧ c.aged = b.aged
  base : (∀ w, .setBase w ∉ y) → c.base = b.base
  stops : (∀ n, .pop n ∉ y) → c.wave = b.wave ∧ c.stoplvl = b.stoplvl
  fired : g ≠ .init → c.fired = b.fired
  reps : (∀ w, .setRep w ∉ y) → c.reps = b.reps
  yield : (∀ n, .yield n ∉ y) → c.yield = b.yield
  len : (∀ n, .slen n ∉ y) → c.len = b.len
  task : .taskDone ∉ y → c.running = b.running ∧ c.ts = b.ts
  holds : (∀ h, .hold h ∉ y) → c.holds = b.holds
  arrs : (∀ m, .bar m ∉ y) → c.arrs = b.arrs

end Sys2Proof.Claims

/-! ### What a firing changes, and what it leaves (R161) -/

/-- R161: when a rule fires, the firing station keeps every register, predicate, handle, channel, counter and unit that the effects of the rule do not
name, every byte of its local store and of its shadow bank that they do not name, its pending registers, results in flight, busy units and tallies where
none of them has a part in these; its other contexts are unchanged; and every other station keeps everything but its input channels and, where a row is
parked or released, its matrix state. -/
def Obligations.FiringTouchesOnlyItsEffects : Prop :=
  ∀ (k : Slot) (s : State) (h : Hdr) (x : Fire),
    (∀ u, s.station? k.f.st = some u →
      ∃ v, (k.after s h x).station? k.f.st = some v ∧ Untouched (k.env s h).who (k.effects s h x) u v ∧
        (∀ c : Fin 8, c ≠ k.f.ctx → v.ctx[c] = u.ctx[c]) ∧
        CtxUntouched (k.effects s h x) h.guard u.ctx[k.f.ctx] v.ctx[k.f.ctx]) ∧
    (∀ i u, i ≠ k.f.st → s.station? i = some u →
      ∃ v, (k.after s h x).station? i = some v ∧ v = { u with c := v.c, mat := v.mat } ∧
        ((∀ e ∈ k.effects s h x, movesMatrix e = false) → v.mat = u.mat))

/-- R161: the last effect of a firing that names a register stands: scalar and vector registers, predicates, iteration counters, a channel's context,
the slack base and stream length of the context, stream registers, tiles and accumulators hold what it wrote; a vector register tagged x320 with its bits
511..352 zero (R106), a tile or an accumulator beside the registers that are parked in it. -/
def StatementPart.LastWriteStands : Prop :=
  ∀ (k : Slot) (s : State) (h : Hdr) (x : Fire) (a b : List Effect) (e : Effect) (u : Station),
    s.station? k.f.st = some u → k.effects s h x = a ++ e :: b →
    ∃ v, (k.after s h x).station? k.f.st = some v ∧
      (∀ n w, e = .setD n w → (∀ w, .setD n w ∉ b) → v.d[n] = w) ∧
      (∀ n w, e = .setV n w → (∀ w, .setV n w ∉ b) → v.v[n] = w.held) ∧
      (∀ n w, e = .setP n w → (∀ w, .setP n w ∉ b) → v.pred n = w) ∧
      (∀ n w, e = .setCnt n w → (∀ w, .setCnt n w ∉ b) → v.cnt[n] = w) ∧
      (∀ n w, e = .retag n w → (∀ w, .retag n w ∉ b) → v.hctx[n] = w) ∧
      (∀ w, e = .setBase w → (∀ w, .setBase w ∉ b) → v.ctx[k.f.ctx].base = w) ∧
      (∀ w, e = .slen w → (∀ w, .slen w ∉ b) → v.ctx[k.f.ctx].len = w) ∧
      (∀ w, e = .yield w → (∀ w, .yield w ∉ b) → v.ctx[k.f.ctx].yield = if w = 0 then 0 else w.toNat + 1) ∧
      (∀ n w, e = .setZ n w → (∀ w, .setZ n w ∉ b) → ∀ y, v.ss = some y → y.z[n] = w) ∧
      (∀ n w, e = .setTile n w → (∀ e ∈ b, movesMatrix e = false) → ∀ m, v.mat = some m → m.t[n] = { w with parks := m.t[n].parks }) ∧
      (∀ n w, e = .setAcc n w → (∀ e ∈ b, movesMatrix e = false) → ∀ m, v.mat = some m → m.a[n] = { w with parks := m.a[n].parks })

/-- R147, R169: a token emitted on an output stands last in the first FIFO of the output's route, from the next cycle on; one emitted with slack left
changes nothing else. -/
def StatementPart.EmittedTokenEntersItsRoute : Prop :=
  ∀ (s : State) (st : StId) (o : Fin 8) (t : Token) (f : Fifo), s.firstHop? st o = some f → (t.bg = true ∨ t.slack ≠ 0) →
    (s.emit st o t).firstHop? st o = some { f with q := f.q ++ [⟨s.nextId, some t, true, 0, 0⟩] } ∧
    (s.emit st o t).reqs = s.reqs ∧ (s.emit st o t).agenda = s.agenda ∧ (s.emit st o t).voyages = s.voyages ∧
    (∀ st' o' r, s.route? st' o' = some r → (∀ q, s.route? st o = some q → r.id ≠ q.id) → (s.emit st o t).route? st' o' = some r)

/-- Where effects meet: the last write of a register stands, and an emitted token enters its route. Parts: `LastWriteStands`, `EmittedTokenEntersItsRoute`. -/
def Obligations.WritesAndTokensLand : Prop := StatementPart.LastWriteStands ∧ StatementPart.EmittedTokenEntersItsRoute


/-! ### Operands (R115, R121-R124, R153, R154, R159, R168) -/

/-- R115, R122, R124, R153, R154, R159, R168: what a source operand gives and what reading it consumes. A d or v register gives its value at the start of the
cycle and waits while it is pending; a channel gives its head and consumes it; a ring handle gives the element at CCNT while fill is at least 1 and a phase
handle gives that of its live bank at once, with the format of the handle, and each counts it; a plain handle is always ready and marked for the bounds fault;
a special gives the value of Table 5.5; an immediate B is sign-extended; a channel named as A and as B is read and consumed once. -/
def StatementPart.OperandsReadAsWritten : Prop :=
  (∀ (e : Env) (n : Fin 8), e.pre.pend.contains (.d n) = false → e.read (.d n) = some ⟨Token.scalar e.pre.d[n] e.sl, false, []⟩) ∧
  (∀ (e : Env) (n : Fin 8), e.pre.pend.contains (.d n) = true → e.read (.d n) = none) ∧
  (∀ (e : Env) (n : Fin 8), e.pre.pend.contains (.v n) = false → e.read (.v n) = some ⟨Token.vec e.pre.v[n] e.sl, false, []⟩) ∧
  (∀ (e : Env) (n : Fin 8) (k : Token), e.pre.seen e.f.ctx n = some k → e.live.c[n].freed = e.pre.c[n].freed →
    e.live.reserved n e.f.ctx e.slot = false → (k.data? = true ∨ e.hdr.guard = .chanStop n) →
    e.read (.c n) = some ⟨k, false, [.pop n]⟩) ∧
  (∀ (e : Env) (n : Fin 8), e.pre.seen e.f.ctx n = none → e.read (.c n) = none) ∧
  (∀ (e : Env) (n : Fin 8) (k : Token), e.pre.seen e.f.ctx n = some k → k.data? = false → e.hdr.guard ≠ .chanStop n → e.read (.c n) = none) ∧
  (∀ (e : Env) (n : Fin 16), e.pre.h[n].kind = .ring → 1 ≤ (e.pre.h[n].pcnt - e.live.h[n].ccnt).toNat →
    ∃ v, e.read (.h n) = some v ∧ v.bad = false ∧ v.eff = [.popRing n] ∧ v.tok.fmt = e.pre.h[n].fmt ∧ v.tok.side = 0x7F7F7F7F7F7F7F7F ∧
      v.tok.data = BitVec.ofNat 512
        (Memory.read e.pre.store (e.pre.h[n].base.toNat + 64 * (e.live.h[n].ccnt.toNat % (e.pre.h[n].size.toNat / 64))) 64)) ∧
  (∀ (e : Env) (n : Fin 16), e.pre.h[n].kind = .ring → e.pre.h[n].pcnt = e.live.h[n].ccnt → e.read (.h n) = none) ∧
  (∀ (e : Env) (n : Fin 16), e.pre.h[n].kind = .phase →
    ∃ v, e.read (.h n) = some v ∧ v.bad = false ∧ v.eff = [.popRing n] ∧ v.tok.fmt = e.pre.h[n].fmt ∧ v.tok.side = 0x7F7F7F7F7F7F7F7F ∧
      v.tok.data = BitVec.ofNat 512
        (Memory.read e.pre.store (e.pre.h[n].base.toNat + 64 * (e.live.h[n].ccnt.toNat % (e.pre.h[n].size.toNat / 64))) 64)) ∧
  (∀ (e : Env) (n : Fin 16), e.pre.h[n].kind = .plain → ∃ v, e.read (.h n) = some v ∧ v.bad = true ∧ v.eff = []) ∧
  (∀ e : Env, e.special .zero = 0 ∧ e.special .one = 1 ∧ e.special .lane = 0 ∧ e.special .sx = BitVec.ofNat 64 e.f.pre.rx ∧
    e.special .sy = BitVec.ofNat 64 e.f.pre.ry ∧ e.special .ctx = BitVec.ofNat 64 e.f.ctx.val ∧
    e.special .slk = BitVec.ofNat 64 e.f.pre.ctx[e.f.ctx].base.toNat ∧ e.special .wave = BitVec.ofNat 64 e.f.pre.ctx[e.f.ctx].wave.toNat ∧
    e.special .stoplvl = BitVec.ofNat 64 e.f.pre.ctx[e.f.ctx].stoplvl.toNat ∧
    (e.f.pre.ctx[e.f.ctx].running = none → e.special .tstamp = 0) ∧
    (∀ r, e.s.region? e.f.pre.voy e.f.pre.reg = some r → e.special .clk = BitVec.ofNat 64 r.clk) ∧
    (∀ v, e.s.voyage? e.f.pre.voy = some v → e.special .seed = v.pkt[4]) ∧
    ∀ x, e.read (.sp x) = some ⟨Token.scalar (e.special x) e.sl, false, []⟩) ∧
  (∀ (e : Env) (a : Opd) (i : BitVec 19) (x : Val), e.read a = some x →
    e.readB a (.imm i) = some (x, ⟨Token.scalar (i.signExtend 64) e.sl, false, []⟩, x.eff)) ∧
  (∀ (e : Env) (a : Opd) (x : Val), e.read a = some x → e.readB a (.reg a) = some (x, x, x.eff)) ∧
  (∀ (e : Env) (a b : Opd) (x y : Val), a ≠ b → e.read a = some x → e.read b = some y → e.readB a (.reg b) = some (x, y, x.eff ++ y.eff))

/-- R51, R143, R169: where a result of latency 1 goes: a d register takes the word, an output takes one token (FMT 0, TAG 0, STOP 0, the word in payload
bits 63..0 and zeros above, the sidecar of scale 2^0, the counter that R51 starts from SL and the slack base), a ring or phase handle takes one
element. A result of a longer latency claims its entry or marks its register pending, and lands that much later (R170). -/
def StatementPart.ResultsGoWhereWritten : Prop :=
  (∀ (e : Env) (n : Fin 8) (w : Word), e.write 1 (.d n) (Token.scalar w e.sl) = ⟨[.setD n w], none⟩) ∧
  (∀ (e : Env) (n : Fin 8) (w : Word), e.write 1 (.o n) (Token.scalar w e.sl) =
    ⟨[.emit n ⟨w.setWidth 512, 0x7F7F7F7F7F7F7F7F, 0, 0, 0, false, e.sl.bg, e.sl.n⟩], none⟩) ∧
  (∀ (e : Env) (n : Fin 16) (w : Word), e.write 1 (.h n) (Token.scalar w e.sl) =
    ⟨[.claimElem n e.s.nextId, .landElem n e.s.nextId (w.setWidth 512)], none⟩) ∧
  (∀ (e : Env) (n : Fin 8) (lat : Nat) (w : Word), 1 < lat → e.write lat (.d n) (Token.scalar w e.sl) =
    ⟨[.pend (.d n)], some (lat, [.setD n w, .unpend (.d n)])⟩) ∧
  (∀ (e : Env) (n : Fin 8) (lat : Nat) (k : Token), 1 < lat → e.write lat (.o n) k =
    ⟨[.claimOut n e.s.nextId], some (lat, [.fillOut n e.s.nextId k])⟩) ∧
  (∀ (e : Env) (n : Fin 16) (lat : Nat) (k : Token), 1 < lat → e.write lat (.h n) k =
    ⟨[.claimElem n e.s.nextId], some (lat, [.landElem n e.s.nextId k.data])⟩) ∧
  (∀ e : Env, (e.hdr.sl = 63 → e.sl = ⟨true, 0⟩) ∧ (e.hdr.sl = 0 → e.sl = ⟨false, 0⟩) ∧
    (e.hdr.sl ≠ 63 → e.hdr.sl ≠ 0 → e.sl = ⟨false, 16 * Nat.min (e.hdr.sl.toNat + e.f.pre.ctx[e.f.ctx].base.toNat) 62⟩))

/-- Operands are read, and results are written, as their codes say. Parts: `OperandsReadAsWritten`, `ResultsGoWhereWritten`. -/
def Obligations.OperandsReadAndResultsWritten : Prop := StatementPart.OperandsReadAsWritten ∧ StatementPart.ResultsGoWhereWritten


/-! ### Scalar and predicate rules (R168-R174) -/

/-- R171, Tables 7.2 and 7.3: with its operands readable, its destination ready and no plain handle among them, each scalar rule with two sources
consumes them and writes the result of the table, which lands after the latency of the table. -/
def StatementPart.ScalarBinaryResults : Prop :=
  ∀ (k : Slot) (s : State) (i : Instr) (r : RBin) (lat : Nat) (busy : List Effect) (f : Word → Word → Word) (x y : Val) (eff : List Effect),
    scalarBin k.f.pre i = some (r, lat, busy, f) → k.Fires s r.hdr →
    (k.env s r.hdr).readB r.a r.b = some (x, y, eff) → x.bad = false → y.bad = false →
    (k.env s r.hdr).destReady r.d = true → (k.env s r.hdr).destBad r.d = false →
    k.Does s i r.hdr (((k.env s r.hdr).write lat r.d (Token.scalar (f x.word y.word) (k.env s r.hdr).sl)).after (eff ++ busy))

/-- R171, R172: the same for the scalar rules with one source. -/
def StatementPart.ScalarUnaryResults : Prop :=
  ∀ (k : Slot) (s : State) (i : Instr) (h : Hdr) (d a : Opd) (f : Word → Word) (x : Val),
    scalarOne k.f.pre i = some (h, d, a, f) → k.Fires s h →
    (k.env s h).read a = some x → x.bad = false → (k.env s h).destReady d = true → (k.env s h).destBad d = false →
    k.Does s i h (((k.env s h).write 1 d (Token.scalar (f x.word) (k.env s h).sl)).after x.eff)

/-- R154, R165: with a plain handle as a source or as the destination, a scalar rule consumes what it claimed, writes nothing, and its bounds fault
(code 0x02) goes out on an output destination, else to the region's fault queue. -/
def StatementPart.ScalarHandleFaults : Prop :=
  (∀ (k : Slot) (s : State) (i : Instr) (r : RBin) (lat : Nat) (busy : List Effect) (f : Word → Word → Word) (x y : Val) (eff : List Effect),
    scalarBin k.f.pre i = some (r, lat, busy, f) → k.Fires s r.hdr →
    (k.env s r.hdr).readB r.a r.b = some (x, y, eff) → (k.env s r.hdr).destReady r.d = true →
    (x.bad = true ∨ y.bad = true ∨ (k.env s r.hdr).destBad r.d = true) →
    k.Does s i r.hdr ((k.env s r.hdr).fault lat (eff ++ busy) (Opd.out? r.d) ⟨0x02, 0, 0⟩)) ∧
  (∀ (k : Slot) (s : State) (i : Instr) (h : Hdr) (d a : Opd) (f : Word → Word) (x : Val),
    scalarOne k.f.pre i = some (h, d, a, f) → k.Fires s h → (k.env s h).read a = some x → (k.env s h).destReady d = true →
    (x.bad = true ∨ (k.env s h).destBad d = true) →
    k.Does s i h ((k.env s h).fault 1 x.eff (Opd.out? d) ⟨0x02, 0, 0⟩))

/-- R171, R172, bit by bit: `extn`, `ext` and `ins` on a field that lies in the word (R172 refuses any other at load), and `clz`, `ctz`, `popc`:
the leading and trailing zeros are those of the word, 64 for zero. -/
def Obligations.FieldsAndCountsBitByBit : Prop :=
  (∀ (a : Word) (pos len i : Nat), 1 ≤ len → pos + len ≤ 64 → i < 64 →
    (aluExtn a pos len).getLsbD i = (decide (i < len) && a.getLsbD (pos + i)) ∧
    (aluExt a pos len).getLsbD i = a.getLsbD (pos + Nat.min i (len - 1))) ∧
  (∀ (d a : Word) (pos len i : Nat), 1 ≤ len → pos + len ≤ 64 → i < 64 →
    (aluIns d a pos len).getLsbD i = if pos ≤ i ∧ i < pos + len then a.getLsbD (i - pos) else d.getLsbD i) ∧
  (∀ a : Word, (aluClz a).toNat ≤ 64 ∧ (∀ i, 64 - (aluClz a).toNat ≤ i → a.getLsbD i = false) ∧
    (a ≠ 0 → a.getLsbD (63 - (aluClz a).toNat) = true)) ∧
  (∀ a : Word, (aluCtz a).toNat ≤ 64 ∧ (∀ i, i < (aluCtz a).toNat → a.getLsbD i = false) ∧
    (a ≠ 0 → a.getLsbD (aluCtz a).toNat = true)) ∧
  (aluPopc 0 = 0 ∧ ∀ (a : Word) (i : Nat), i < 64 → a.getLsbD i = false → aluPopc (a ||| BitVec.twoPow 64 i) = aluPopc a + 1)

/-- R174, Table 7.4: each compare and predicate operation writes its predicate, from the operands or from the predicates as they stood at the start
of the cycle, and nothing else; a compare of a plain handle takes the bounds fault, to the fault queue since its destination is no output. -/
def Obligations.PredicateResults : Prop :=
  (∀ (k : Slot) (s : State) (i : Instr) (r : RCmp) (f : Word → Word → Bool) (x y : Val) (eff : List Effect),
    comparison i = some (r, f) → k.Fires s r.hdr → (k.env s r.hdr).readB r.a r.b = some (x, y, eff) → x.bad = false → y.bad = false →
    k.Does s i r.hdr ⟨eff ++ [.setP r.n (f x.word y.word)], none⟩) ∧
  (∀ (k : Slot) (s : State) (i : Instr) (r : RCmp) (f : Word → Word → Bool) (x y : Val) (eff : List Effect),
    comparison i = some (r, f) → k.Fires s r.hdr → (k.env s r.hdr).readB r.a r.b = some (x, y, eff) → (x.bad = true ∨ y.bad = true) →
    k.Does s i r.hdr ((k.env s r.hdr).fault 1 eff none ⟨0x02, 0, 0⟩)) ∧
  (∀ (k : Slot) (s : State) (i : Instr) (h : Hdr) (n : Fin 8) (b : Bool),
    predicateOp k.f.pre i = some (h, n, b) → k.Fires s h → k.Does s i h ⟨[.setP n b], none⟩)

/-- The scalar results with their latencies, and the fault of a handle that comes in as an operand. Parts: `ScalarBinaryResults`, `ScalarUnaryResults`,
`ScalarHandleFaults`. -/
def Obligations.ScalarResults : Prop := StatementPart.ScalarBinaryResults ∧ StatementPart.ScalarUnaryResults ∧ StatementPart.ScalarHandleFaults


/-! ### Token and channel rules (R175-R185) -/

/-- R176, R177, R180: `send` emits its source, or with a nonzero addend the sum as a scalar token; `merge` emits the head of the channel that its
predicate selects and consumes no other; `drop` consumes its source and emits nothing; `stop` emits a stop token of its level with payload zero. A
forwarded token keeps payload, format, sidecar, stop level and fault flag, and takes the rule's tag and slack. `send` of a plain handle takes the bounds
fault on its output, `drop` of one to the fault queue. -/
def StatementPart.TokenMoves : Prop :=
  (∀ (k : Slot) (s : State) (h : Hdr) (o : Fin 8) (src : Opd) (tag : BitVec 3) (x : Val), k.Fires s h →
    (k.env s h).read src = some x → x.bad = false → (k.env s h).room o 1 = true →
    k.Does s (.send h o src 0 tag) h
      ⟨x.eff ++ [.emit o { x.tok with tag := tag, bg := (k.env s h).sl.bg, slack := (k.env s h).sl.n }], none⟩) ∧
  (∀ (k : Slot) (s : State) (h : Hdr) (o : Fin 8) (src : Opd) (add : BitVec 20) (tag : BitVec 3) (x : Val), k.Fires s h → add ≠ 0 →
    (k.env s h).read src = some x → x.bad = false → (k.env s h).room o 1 = true →
    k.Does s (.send h o src add tag) h
      ⟨x.eff ++ [.emit o { Token.scalar (x.word + add.signExtend 64) (k.env s h).sl with tag := tag }], none⟩) ∧
  (∀ (k : Slot) (s : State) (h : Hdr) (o : Fin 8) (src : Opd) (add : BitVec 20) (tag : BitVec 3) (x : Val), k.Fires s h →
    (k.env s h).read src = some x → x.bad = true → (k.env s h).room o 1 = true →
    k.Does s (.send h o src add tag) h
      ⟨x.eff ++ [.emit o (faultToken k.f.pre k.f.ctx k.sl (k.env s h).sl ⟨0x02, 0, 0⟩)], none⟩) ∧
  (∀ (k : Slot) (s : State) (h : Hdr) (o a b n : Fin 8) (tag : BitVec 3) (x : Token), k.Fires s h →
    (k.env s h).take (if k.f.pre.p.getLsbD n.val then a else b) = some x → (k.env s h).room o 1 = true →
    k.Does s (.merge h o a b n tag) h
      ⟨[.pop (if k.f.pre.p.getLsbD n.val then a else b),
        .emit o { x with tag := tag, bg := (k.env s h).sl.bg, slack := (k.env s h).sl.n }], none⟩) ∧
  (∀ (k : Slot) (s : State) (h : Hdr) (src : Opd) (x : Val), k.Fires s h → (k.env s h).read src = some x → x.bad = false →
    k.Does s (.drop h src) h ⟨x.eff, none⟩) ∧
  (∀ (k : Slot) (s : State) (h : Hdr) (src : Opd) (x : Val), k.Fires s h → (k.env s h).read src = some x → x.bad = true →
    k.Does s (.drop h src) h ((k.env s h).fault 1 x.eff none ⟨0x02, 0, 0⟩)) ∧
  (∀ (k : Slot) (s : State) (h : Hdr) (o : Fin 8) (level : BitVec 2) (tag : BitVec 3), k.Fires s h → (k.env s h).room o 1 = true →
    k.Does s (.stop h o level tag) h ⟨[.emit o ⟨0, 0x7F7F7F7F7F7F7F7F, 0, tag, level, false, (k.env s h).sl.bg, (k.env s h).sl.n⟩], none⟩)

/-- R178: `dup` emits a copy of its source on every output whose bit is set in the mask, all in the cycle of its firing; while one of them has no free
first-hop entry it is not ready, and the firing only takes its slot. That the bounds fault of a plain handle goes out on each of them in its place is the
model's choice (log 15). -/
def Obligations.DupCopiesOnEveryOutput : Prop :=
  (∀ (k : Slot) (s : State) (h : Hdr) (mask : BitVec 8) (src : Opd) (tag : BitVec 3) (x : Val), k.Fires s h →
    (k.env s h).read src = some x → x.bad = false → (∀ o : Fin 8, mask.getLsbD o.val = true → (k.env s h).room o 1 = true) →
    ∃ outs : List (Fin 8), outs.Nodup ∧ (∀ o, o ∈ outs ↔ mask.getLsbD o.val = true) ∧
      k.Does s (.dup h mask src tag) h
        ⟨x.eff ++ outs.map (fun o => .emit o { x.tok with tag := tag, bg := (k.env s h).sl.bg, slack := (k.env s h).sl.n }), none⟩) ∧
  (∀ (k : Slot) (s : State) (h : Hdr) (mask : BitVec 8) (src : Opd) (tag : BitVec 3) (x : Val), k.Fires s h →
    (k.env s h).read src = some x → x.bad = true → (∀ o : Fin 8, mask.getLsbD o.val = true → (k.env s h).room o 1 = true) →
    ∃ outs : List (Fin 8), outs.Nodup ∧ (∀ o, o ∈ outs ↔ mask.getLsbD o.val = true) ∧
      k.Does s (.dup h mask src tag) h
        ⟨x.eff ++ outs.map (fun o => .emit o (faultToken k.f.pre k.f.ctx k.sl (k.env s h).sl ⟨0x02, 0, 0⟩)), none⟩) ∧
  (∀ (k : Slot) (s : State) (h : Hdr) (mask : BitVec 8) (src : Opd) (tag : BitVec 3) (o : Fin 8), k.Fires s h →
    mask.getLsbD o.val = true → s.outRoom k.f.st o 1 = false →
    exec (.dup h mask src tag) s = .next (s.slotTaken k.f k.rest))

/-- R179, R200: `steer` sends a data source to the output that the low three bits of `sel` name, and, by the model's choice (log 15), the bounds fault of a
plain handle there in its place; with that bit of the mask clear the source and `sel` are consumed, nothing is emitted, and a bounds fault with INFO j goes to
the fault queue; a stop or fault source goes to every output of the mask. -/
def Obligations.SteerChoosesAnOutput : Prop :=
  (∀ (k : Slot) (s : State) (h : Hdr) (mask : BitVec 8) (src sel : Opd) (tag : BitVec 3) (x y : Val) (eff : List Effect) (j : Fin 8), k.Fires s h →
    (k.env s h).read2 src sel = some (x, y, eff) → x.bad = false → x.tok.data? = true → j.val = y.word.toNat % 8 →
    mask.getLsbD j.val = true → (k.env s h).room j 1 = true →
    k.Does s (.steer h mask src sel tag) h
      ⟨eff ++ [.emit j { x.tok with tag := tag, bg := (k.env s h).sl.bg, slack := (k.env s h).sl.n }], none⟩) ∧
  (∀ (k : Slot) (s : State) (h : Hdr) (mask : BitVec 8) (src sel : Opd) (tag : BitVec 3) (x y : Val) (eff : List Effect) (j : Fin 8), k.Fires s h →
    (k.env s h).read2 src sel = some (x, y, eff) → x.bad = true → x.tok.data? = true → j.val = y.word.toNat % 8 →
    mask.getLsbD j.val = true → (k.env s h).room j 1 = true →
    k.Does s (.steer h mask src sel tag) h ⟨eff ++ [.emit j (faultToken k.f.pre k.f.ctx k.sl (k.env s h).sl ⟨0x02, 0, 0⟩)], none⟩) ∧
  (∀ (k : Slot) (s : State) (h : Hdr) (mask : BitVec 8) (src sel : Opd) (tag : BitVec 3) (x y : Val) (eff : List Effect) (j : Fin 8), k.Fires s h →
    (k.env s h).read2 src sel = some (x, y, eff) → x.tok.data? = true → j.val = y.word.toNat % 8 →
    mask.getLsbD j.val = false →
    k.Does s (.steer h mask src sel tag) h
      ⟨eff ++ [.faultq (faultToken k.f.pre k.f.ctx k.sl (k.env s h).sl ⟨0x02, j.val, 0⟩)], none⟩) ∧
  (∀ (k : Slot) (s : State) (h : Hdr) (mask : BitVec 8) (src sel : Opd) (tag : BitVec 3) (x y : Val) (eff : List Effect) (j : Fin 8), k.Fires s h →
    (k.env s h).read2 src sel = some (x, y, eff) → x.bad = false → x.tok.data? = true → j.val = y.word.toNat % 8 →
    mask.getLsbD j.val = true → s.outRoom k.f.st j 1 = false →
    exec (.steer h mask src sel tag) s = .next (s.slotTaken k.f k.rest)) ∧
  (∀ (k : Slot) (s : State) (h : Hdr) (mask : BitVec 8) (src sel : Opd) (tag : BitVec 3) (x y : Val) (eff : List Effect), k.Fires s h →
    (k.env s h).read2 src sel = some (x, y, eff) → x.bad = false → x.tok.data? = false →
    (∀ o : Fin 8, mask.getLsbD o.val = true → (k.env s h).room o 1 = true) →
    ∃ outs : List (Fin 8), outs.Nodup ∧ (∀ o, o ∈ outs ↔ mask.getLsbD o.val = true) ∧
      k.Does s (.steer h mask src sel tag) h
        ⟨eff ++ outs.map (fun o => .emit o { x.tok with tag := tag, bg := (k.env s h).sl.bg, slack := (k.env s h).sl.n }), none⟩) ∧
  (∀ (k : Slot) (s : State) (h : Hdr) (mask : BitVec 8) (src sel : Opd) (tag : BitVec 3) (x y : Val) (eff : List Effect) (o : Fin 8), k.Fires s h →
    (k.env s h).read2 src sel = some (x, y, eff) → x.bad = false → x.tok.data? = false →
    mask.getLsbD o.val = true → s.outRoom k.f.st o 1 = false →
    exec (.steer h mask src sel tag) s = .next (s.slotTaken k.f k.rest))

/-- R184: `split` consumes one token source and emits its lower half on oK and its upper half on o(K+1), both with the source's format, payload bits
511..256 zero and sidecar bytes 4 to 7 0x7F; it is ready only when both outputs have room; a source tagged x320 is consumed and one format fault goes
out on oK. (A source that is a plain handle: `TokenControl`.) -/
def Obligations.SplitHalvesAToken : Prop :=
  (∀ (k : Slot) (s : State) (h : Hdr) (o : Fin 8) (src : Opd) (tag : BitVec 3) (x : Val), k.Fires s h →
    (k.env s h).read src = some x → x.bad = false → x.tok.fmt ≠ 44 → (k.env s h).room o 1 = true → (k.env s h).room (o + 1) 1 = true →
    ∃ lo hi : Token, k.Does s (.split h o src tag) h ⟨x.eff ++ [.emit o lo, .emit (o + 1) hi], none⟩ ∧
      lo.fmt = x.tok.fmt ∧ hi.fmt = x.tok.fmt ∧ lo.tag = tag ∧ hi.tag = tag ∧
      lo.slk = (k.env s h).sl ∧ hi.slk = (k.env s h).sl ∧
      lo.data.extractLsb' 0 256 = x.tok.data.extractLsb' 0 256 ∧ hi.data.extractLsb' 0 256 = x.tok.data.extractLsb' 256 256 ∧
      lo.data.extractLsb' 256 256 = 0 ∧ hi.data.extractLsb' 256 256 = 0 ∧
      lo.side.extractLsb' 0 32 = x.tok.side.extractLsb' 0 32 ∧ hi.side.extractLsb' 0 32 = x.tok.side.extractLsb' 32 32 ∧
      lo.side.extractLsb' 32 32 = 0x7F7F7F7F ∧ hi.side.extractLsb' 32 32 = 0x7F7F7F7F) ∧
  (∀ (k : Slot) (s : State) (h : Hdr) (o : Fin 8) (src : Opd) (tag : BitVec 3), k.Fires s h →
    (s.outRoom k.f.st o 1 = false ∨ s.outRoom k.f.st (o + 1) 1 = false) →
    exec (.split h o src tag) s = .next (s.slotTaken k.f k.rest)) ∧
  (∀ (k : Slot) (s : State) (h : Hdr) (o : Fin 8) (src : Opd) (tag : BitVec 3) (x : Val), k.Fires s h →
    (k.env s h).read src = some x → x.bad = false → x.tok.fmt = 44 → (k.env s h).room o 1 = true → (k.env s h).room (o + 1) 1 = true →
    k.Does s (.split h o src tag) h ⟨x.eff ++ [.emit o (faultToken k.f.pre k.f.ctx k.sl (k.env s h).sl ⟨0x01, 44, 0⟩)], none⟩)

/-- R154, R165, R180 to R183, R185: the bounds fault of a plain handle that `split` reads goes out on oK, the output of its destination field, by the model's
choice on that one alone (log 15); `gate` consumes its source and `ctl` in every firing and emits a data source only where `ctl` is not zero, and the bounds
fault of a plain handle whatever it is; `repeat` emits the head n times, counting down in its slot, and consumes it with the last copy (n = 0 consumes it at
once); `count` counts data heads and emits the count with the stop level at a stop or fault head; `isect` compares two data heads; `retag` binds a channel to
a context or frees it. -/
def StatementPart.TokenControl : Prop :=
  (∀ (k : Slot) (s : State) (h : Hdr) (o : Fin 8) (src : Opd) (tag : BitVec 3) (x : Val), k.Fires s h →
    (k.env s h).read src = some x → x.bad = true → (k.env s h).room o 1 = true → (k.env s h).room (o + 1) 1 = true →
    k.Does s (.split h o src tag) h ⟨x.eff ++ [.emit o (faultToken k.f.pre k.f.ctx k.sl (k.env s h).sl ⟨0x02, 0, 0⟩)], none⟩) ∧
  (∀ (k : Slot) (s : State) (h : Hdr) (o : Fin 8) (src ctl : Opd) (tag : BitVec 3) (x y : Val) (eff : List Effect), k.Fires s h →
    (k.env s h).read2 src ctl = some (x, y, eff) → x.bad = false → (k.env s h).room o 1 = true →
    k.Does s (.gate h o src ctl tag) h
      (if x.tok.data? = true ∧ y.word = 0 then ⟨eff, none⟩
       else ⟨eff ++ [.emit o { x.tok with tag := tag, bg := (k.env s h).sl.bg, slack := (k.env s h).sl.n }], none⟩)) ∧
  (∀ (k : Slot) (s : State) (h : Hdr) (o : Fin 8) (src ctl : Opd) (tag : BitVec 3) (x y : Val) (eff : List Effect), k.Fires s h →
    (k.env s h).read2 src ctl = some (x, y, eff) → x.bad = true → (k.env s h).room o 1 = true →
    k.Does s (.gate h o src ctl tag) h ⟨eff ++ [.emit o (faultToken k.f.pre k.f.ctx k.sl (k.env s h).sl ⟨0x02, 0, 0⟩)], none⟩) ∧
  (∀ (k : Slot) (s : State) (h : Hdr) (o c : Fin 8) (n : Option Opd) (imm : BitVec 20) (tag : BitVec 3) (x : Token) (m : BitVec 32), k.Fires s h →
    (k.env s h).take c = some x → k.f.pre.ctx[k.f.ctx].reps[k.sl] = 0 →
    (imm ≠ 0 → m = imm.setWidth 32) → (imm = 0 → ∀ b, n = some b → ∃ y, (k.env s h).read b = some y ∧ m.toNat = Nat.min y.word.toNat (2 ^ 32 - 1)) →
    (imm = 0 → n = none → m = 0) → (m ≠ 0 → (k.env s h).room o 1 = true) →
    k.Does s (.repeat h o c n imm tag) h
      (if m = 0 then ⟨[.pop c], none⟩
       else ⟨.setRep (m - 1) :: (if m = 1 then [.pop c] else []) ++
         [.emit o { x with tag := tag, bg := (k.env s h).sl.bg, slack := (k.env s h).sl.n }], none⟩)) ∧
  (∀ (k : Slot) (s : State) (h : Hdr) (o c : Fin 8) (n : Option Opd) (imm : BitVec 20) (tag : BitVec 3) (x : Token), k.Fires s h →
    (k.env s h).take c = some x → k.f.pre.ctx[k.f.ctx].reps[k.sl] ≠ 0 → (k.env s h).room o 1 = true →
    k.Does s (.repeat h o c n imm tag) h
      ⟨.setRep (k.f.pre.ctx[k.f.ctx].reps[k.sl] - 1) :: (if k.f.pre.ctx[k.f.ctx].reps[k.sl] = 1 then [.pop c] else []) ++
         [.emit o { x with tag := tag, bg := (k.env s h).sl.bg, slack := (k.env s h).sl.n }], none⟩) ∧
  (∀ (k : Slot) (s : State) (h : Hdr) (o c : Fin 8) (tag : BitVec 3) (x : Token), k.Fires s h →
    (k.env s h).take c = some x → x.data? = true →
    k.Does s (.count h o c tag) h ⟨[.pop c, .setCnt c (k.f.pre.cnt[c] + 1)], none⟩) ∧
  (∀ (k : Slot) (s : State) (h : Hdr) (o c : Fin 8) (tag : BitVec 3) (x : Token), k.Fires s h →
    (k.env s h).take c = some x → x.data? = false → (k.env s h).room o 1 = true →
    k.Does s (.count h o c tag) h
      ⟨[.pop c, .setCnt c 0, .emit o { Token.scalar (BitVec.ofNat 64
        (k.f.pre.cnt[c].toNat + x.stop.toNat * 2 ^ 32 + (if x.f then 2 ^ 34 else 0))) (k.env s h).sl with tag := tag }], none⟩) ∧
  (∀ (k : Slot) (s : State) (h : Hdr) (o a b : Fin 8) (tag : BitVec 3) (x y : Token), k.Fires s h →
    (k.env s h).take a = some x → (k.env s h).take b = some y → (k.env s h).room o 1 = true →
    k.Does s (.isect h o a b tag) h
      (if x.data.setWidth 64 = y.data.setWidth 64 then
        ⟨[.pop a, .pop b, .emit o { x with tag := tag, bg := (k.env s h).sl.bg, slack := (k.env s h).sl.n }], none⟩
       else if (x.data.setWidth 64).toNat < (y.data.setWidth 64).toNat then ⟨[.pop a], none⟩ else ⟨[.pop b], none⟩)) ∧
  (∀ (k : Slot) (s : State) (h : Hdr) (n : Fin 8) (v : BitVec 4) (c : Fin 8), k.Fires s h → v.toNat = c.val →
    k.Does s (.retag h n v) h ⟨[.retag n (some c)], none⟩) ∧
  (∀ (k : Slot) (s : State) (h : Hdr) (n : Fin 8), k.Fires s h → k.Does s (.retag h n 8) h ⟨[.retag n none], none⟩)

/-- The token rules of one input and one output, and those that test, close and count tokens. Parts: `TokenMoves`, `TokenControl`. -/
def Obligations.TokenRules : Prop := StatementPart.TokenMoves ∧ StatementPart.TokenControl


namespace Sys2Proof.Claims

/-- The bytes that a local handle may span: 64 KB of a C station's store, 256 KB of an S station's bank (R142, R152). -/
def localBytes : Kind → Nat
  | .c => 65536
  | .s => 262144
  | _ => 0

/-- The code of a handle field (Table 7.8). -/
def fieldCode : HField → Nat
  | .base => 0 | .size => 1 | .pcnt => 2 | .ccnt => 3 | .dcnt => 4 | .flags => 5

/-- The writes that `hset` refuses (Table 7.9). -/
def refusesField (k : Kind) (h : HEntry) (v : Word) : HField → Prop
  | .base => ((h.space = .dev ∨ h.space = .peer) ∧ 2 ^ 55 ≤ v.toNat) ∨ (h.space = .loc ∧ localBytes k < v.toNat + h.size.toNat)
  | .size => 2 ^ 40 ≤ v.toNat ∨ (h.kind ≠ .plain ∧ (v.toNat = 0 ∨ v.toNat % 64 ≠ 0 ∨ 64 * 65536 < v.toNat)) ∨
      (h.space = .loc ∧ localBytes k < h.base.toNat + v.toNat)
  | .pcnt => h.kind = .ring ∧ h.size.toNat / 64 < (v.toNat % 2 ^ 32 + 2 ^ 32 - h.ccnt.toNat) % 2 ^ 32
  | .ccnt => h.kind = .ring ∧ h.size.toNat / 64 < (h.pcnt.toNat + 2 ^ 32 - v.toNat % 2 ^ 32) % 2 ^ 32
  | .dcnt => False
  | .flags => True

/-- What `hget` reads (Table 7.8, Table 6.3). -/
def readsField (h : HEntry) (w : Word) : HField → Prop
  | .base => w = h.base
  | .size => w = BitVec.ofNat 64 h.size.toNat
  | .pcnt => w = BitVec.ofNat 64 h.pcnt.toNat
  | .ccnt => w = BitVec.ofNat 64 h.ccnt.toNat
  | .dcnt => w = BitVec.ofNat 64 h.dcnt.toNat
  | .flags => w.extractLsb' 0 40 = h.size ∧
      w.extractLsb' 40 2 = (match h.kind with | .plain => 0 | .ring => 1 | .phase => 2) ∧
      w.extractLsb' 42 3 = (match h.space with | .loc => 0 | .win => 1 | .dev => 2 | .host => 3 | .peer => 4) ∧
      w.extractLsb' 45 6 = h.fmt ∧ w.getLsbD 51 = h.alloc ∧ w.getLsbD 52 = h.last ∧ w.getLsbD 53 = h.vers ∧ w.getLsbD 54 = h.comp ∧
      w.getLsbD 55 = false ∧ w.extractLsb' 56 7 = h.port ∧ w.getLsbD 63 = false

/-- `hfill`, `hfree`: the instruction's operands and the count of R153 at the start of the cycle. -/
def handleCount (pre : Station) : Instr → Option (HRead × Nat)
  | .hfill r => some (r, match pre.h[r.n].kind with
      | .plain => 0
      | .ring => (pre.h[r.n].pcnt.toNat + 2 ^ 32 - pre.h[r.n].ccnt.toNat) % 2 ^ 32
      | .phase => Nat.min pre.h[r.n].pcnt.toNat (pre.h[r.n].size.toNat / 64))
  | .hfree r => some (r, match pre.h[r.n].kind with
      | .plain => 0
      | .ring =>
        (pre.h[r.n].size.toNat / 64 + 2 ^ 33 - (pre.h[r.n].pcnt.toNat + 2 ^ 32 - pre.h[r.n].ccnt.toNat) % 2 ^ 32 - pre.claimed r.n % 2 ^ 32) % 2 ^ 32
      | .phase => (pre.h[r.n].size.toNat / 64 - Nat.min pre.h[r.n].pcnt.toNat (pre.h[r.n].size.toNat / 64)) % 2 ^ 32)
  | _ => none

end Sys2Proof.Claims

/-! ### Handle and system rules (R187-R199) -/

/-- R189, R153: `hfill` and `hfree` write the fill and free counts of the named handle, each taken modulo 2^32 and zero-extended to 64 bits; for a plain
handle both are 0. -/
def Obligations.HandleCounts : Prop :=
  ∀ (k : Slot) (s : State) (i : Instr) (r : HRead) (n : Nat), handleCount k.f.pre i = some (r, n) → k.Fires s r.hdr →
    (k.env s r.hdr).destReady r.d = true → (k.env s r.hdr).destBad r.d = false →
    k.Does s i r.hdr ((k.env s r.hdr).write 1 r.d (Token.scalar (BitVec.ofNat 64 n) (k.env s r.hdr).sl))

/-- R188, R190, R191, Tables 7.8 and 7.9: `advp` and `advc` add n to their counter once a ring has n slots or elements (a phase handle at once), and take the
bounds fault for n above NSLOT and on a plain handle; `hset` writes its field at the end of the cycle, or refuses with the bounds fault whose INFO is
the field code; `hget` reads a field; `pub` of a phase handle exchanges the banks at the end of the cycle, and any other kind faults. -/
def StatementPart.HandleRules : Prop :=
  (∀ (k : Slot) (s : State) (r : HAdv) (x : Val), k.Fires s r.hdr → (k.env s r.hdr).readOne r.b = some x →
    (k.f.pre.h[r.n].kind = .phase ∨ k.f.pre.h[r.n].kind = .ring ∧ x.word.toNat ≤ (k.env s r.hdr).ringFree r.n) →
    x.word.toNat ≤ k.f.pre.h[r.n].size.toNat / 64 →
    k.Does s (.advp r) r.hdr ⟨x.eff ++ [.addPcnt r.n (BitVec.ofNat 32 x.word.toNat)], none⟩) ∧
  (∀ (k : Slot) (s : State) (r : HAdv) (x : Val), k.Fires s r.hdr → (k.env s r.hdr).readOne r.b = some x →
    (k.f.pre.h[r.n].kind = .phase ∨ k.f.pre.h[r.n].kind = .ring ∧ x.word.toNat ≤ (k.env s r.hdr).ringFill r.n) →
    x.word.toNat ≤ k.f.pre.h[r.n].size.toNat / 64 →
    k.Does s (.advc r) r.hdr ⟨x.eff ++ [.addCcnt r.n (BitVec.ofNat 32 x.word.toNat)], none⟩) ∧
  (∀ (k : Slot) (s : State) (r : HAdv) (x : Val) (i : Instr), i = .advp r ∨ i = .advc r → k.Fires s r.hdr → (k.env s r.hdr).readOne r.b = some x →
    (k.f.pre.h[r.n].kind = .plain ∨ k.f.pre.h[r.n].size.toNat / 64 < x.word.toNat) →
    k.Does s i r.hdr ((k.env s r.hdr).fault 1 x.eff none ⟨0x02, 0, 0⟩)) ∧
  (∀ (k : Slot) (s : State) (r : HAdv) (f : HField) (x : Val), k.Fires s r.hdr → (k.env s r.hdr).readOne r.b = some x →
    ¬ refusesField k.f.pre.kind k.f.pre.h[r.n] x.word f → k.Does s (.hset r f) r.hdr ⟨x.eff, some (1, [.setH r.n f x.word])⟩) ∧
  (∀ (k : Slot) (s : State) (r : HAdv) (f : HField) (x : Val), k.Fires s r.hdr → (k.env s r.hdr).readOne r.b = some x →
    refusesField k.f.pre.kind k.f.pre.h[r.n] x.word f →
    k.Does s (.hset r f) r.hdr ((k.env s r.hdr).fault 1 x.eff none ⟨0x02, fieldCode f, 0⟩)) ∧
  (∀ (k : Slot) (s : State) (r : HRead) (f : HField), k.Fires s r.hdr → (k.env s r.hdr).destReady r.d = true → (k.env s r.hdr).destBad r.d = false →
    ∃ w, readsField k.f.pre.h[r.n] w f ∧
      k.Does s (.hget r f) r.hdr ((k.env s r.hdr).write 1 r.d (Token.scalar w (k.env s r.hdr).sl))) ∧
  (∀ (k : Slot) (s : State) (h : Hdr) (n : Fin 16), k.Fires s h → k.f.pre.h[n].kind = .phase →
    k.Does s (.pub h n) h ⟨[], some (1, [.exchange k.f.pre.h[n].base.toNat k.f.pre.h[n].size.toNat, .setH n .pcnt 0, .setH n .ccnt 0])⟩) ∧
  (∀ (k : Slot) (s : State) (h : Hdr) (n : Fin 16), k.Fires s h → k.f.pre.h[n].kind ≠ .phase →
    k.Does s (.pub h n) h ((k.env s h).fault 1 [] none ⟨0x02, 0, 0⟩))

/-- R190, R191: what the writes of `hset` and `pub` do to the entry and to the banks: the exchange gives every byte of a range of the live bank to the shadow
and the shadow's to the live bank, and leaves every other byte. Where the rule of a higher slot writes a counter of a handle in the cycle in which a lower
slot's `hset` of that counter is to land, the higher slot's write stands. -/
def StatementPart.BanksExchanged : Prop :=
  ∀ (t : Station) (w : Who) (n : Fin 16), Memory.wf t.store = true → Memory.wf t.shadow = true →
    (∀ b k a, Memory.get (t.apply w (.exchange b k)).store a = if b ≤ a ∧ a < b + k then Memory.get t.shadow a else Memory.get t.store a) ∧
    (∀ b k a, Memory.get (t.apply w (.exchange b k)).shadow a = if b ≤ a ∧ a < b + k then Memory.get t.store a else Memory.get t.shadow a) ∧
    (∀ b k, (t.apply w (.exchange b k)).h = t.h) ∧
    (∀ k, ∀ f ∈ (t.dropCounters [.addPcnt n k]).flights, f.left = 0 → ∀ x, .setH n .pcnt x ∉ f.effs) ∧
    (∀ k, ∀ f ∈ (t.dropCounters [.addCcnt n k]).flights, f.left = 0 → ∀ x, .setH n .ccnt x ∉ f.effs) ∧
    (∀ x, (t.apply w (.setH n .size x)).h[n] = { t.h[n] with size := x.setWidth 40 }) ∧
    (∀ x, (t.apply w (.setH n .dcnt x)).h[n] = { t.h[n] with dcnt := x.setWidth 16 }) ∧
    (∀ x, (t.apply w (.setH n .pcnt x)).h[n] = { t.h[n] with pcnt := x.setWidth 32 }) ∧
    (∀ x, (t.apply w (.setH n .ccnt x)).h[n] = { t.h[n] with ccnt := x.setWidth 32 }) ∧
    (∀ x, (t.apply w (.setH n .base x)).h[n] = { t.h[n] with base := x })

/-- R192: `nop` has no effect: nothing changes but the slot taken (and the fired flag of an `(init)` rule), whatever its SL field; it occupies an ALU,
or the control unit in an M station (and in an SS station, by Table 6.5). -/
def Obligations.NopHasNoEffect : Prop :=
  (∀ (k : Slot) (s : State) (h : Hdr), k.Fires s h →
    exec (.nop h) s = .next ((s.slotTaken k.f k.rest).modStation k.f.st
      fun t => t.modCtx k.f.ctx fun c => if h.guard = .init then { c with fired := c.fired ||| BitVec.twoPow 32 k.sl.val } else c)) ∧
  (∀ (h : Hdr) (r : Rule), ruleOf (.nop h) = some r → r.cls.unit .c = .alu ∧ r.cls.unit .s = .alu ∧ r.cls.unit .sd = .alu ∧
    r.cls.unit .m = .control ∧ r.cls.unit .ss = .control)

/-- R193 to R199: `trap` sends the program trap (code 0x0B, INFO v) to the fault queue; `halt` asks for the halt of the region; `brk` leaves a break event
for the monitor channel, is a `nop` without one and is not ready while 16 are pending; `yield` sets the context's waiting cycles; `slk` sets its slack base
to min(v, 62); `rdslk` reads the counter of a head without consuming it; `rdtime` reads the package time; `ckpt` asks for a snapshot and reads the
generation that it will carry, and is not ready while one is pending, nor in an address space without a save base (R454). -/
def Obligations.SystemRules : Prop :=
  (∀ (k : Slot) (s : State) (r : SysB) (x : Val), k.Fires s r.hdr → (k.env s r.hdr).readOne r.b = some x →
    k.Does s (.trap r) r.hdr
      ⟨x.eff ++ [.faultq (faultToken k.f.pre k.f.ctx k.sl (k.env s r.hdr).sl ⟨0x0B, (x.word.setWidth 32).toNat, 0⟩)], none⟩) ∧
  (∀ (k : Slot) (s : State) (r : SysB) (x : Val), k.Fires s r.hdr → (k.env s r.hdr).readOne r.b = some x →
    k.Does s (.halt r) r.hdr ⟨x.eff ++ [.halt (x.word.setWidth 32)], none⟩) ∧
  (∀ (k : Slot) (s : State) (r : SysB) (x : Val) (g : Region), k.Fires s r.hdr → (k.env s r.hdr).readOne r.b = some x →
    s.region? k.f.pre.voy k.f.pre.reg = some g → g.mon.isSome = true → g.events.length < 16 →
    k.Does s (.brk r) r.hdr ⟨x.eff ++ [.brk (x.word.setWidth 32)], none⟩) ∧
  (∀ (k : Slot) (s : State) (r : SysB) (x : Val) (g : Region), k.Fires s r.hdr → (k.env s r.hdr).readOne r.b = some x →
    s.region? k.f.pre.voy k.f.pre.reg = some g → g.mon = none → k.Does s (.brk r) r.hdr ⟨x.eff, none⟩) ∧
  (∀ (k : Slot) (s : State) (r : SysB) (g : Region), k.Fires s r.hdr →
    s.region? k.f.pre.voy k.f.pre.reg = some g → g.mon.isSome = true → 16 ≤ g.events.length →
    exec (.brk r) s = .next (s.slotTaken k.f k.rest)) ∧
  (∀ (k : Slot) (s : State) (h : Hdr) (n : BitVec 10), k.Fires s h → k.Does s (.yield h n) h ⟨[.yield n], none⟩) ∧
  (∀ (k : Slot) (s : State) (r : SysB) (x : Val), k.Fires s r.hdr → (k.env s r.hdr).readOne r.b = some x →
    k.Does s (.slk r) r.hdr ⟨x.eff ++ [.setBase (if x.word.toNat ≤ 62 then x.word.setWidth 6 else 62)], none⟩) ∧
  (∀ (k : Slot) (s : State) (h : Hdr) (d : Opd) (c : Fin 8) (t : Token), k.Fires s h → k.f.pre.seen k.f.ctx c = some t →
    (k.env s h).destReady d = true → (k.env s h).destBad d = false →
    k.Does s (.rdslk h d c) h
      ((k.env s h).write 1 d (Token.scalar (BitVec.ofNat 64 (if t.bg then 2 ^ 63 + t.slack else t.slack)) (k.env s h).sl))) ∧
  (∀ (k : Slot) (s : State) (h : Hdr) (d : Opd), k.Fires s h → (k.env s h).destReady d = true → (k.env s h).destBad d = false →
    k.Does s (.rdtime h d) h ((k.env s h).write 1 d (Token.scalar (BitVec.ofNat 64 s.time) (k.env s h).sl))) ∧
  (∀ (k : Slot) (s : State) (h : Hdr) (d : Opd) (g : Region) (v : Voyage) (b : BitVec 16 × Word), k.Fires s h → s.region? k.f.pre.voy k.f.pre.reg = some g →
    g.snap = .none → s.voyage? k.f.pre.voy = some v → b ∈ s.saveBases → b.1 = v.asid → (k.env s h).destReady d = true → (k.env s h).destBad d = false →
    k.Does s (.ckpt h d) h (((k.env s h).write 1 d (Token.scalar (BitVec.ofNat 64 (g.gen + 1)) (k.env s h).sl)).after [.ckpt])) ∧
  (∀ (k : Slot) (s : State) (h : Hdr) (d : Opd) (g : Region) (v : Voyage), k.Fires s h → s.region? k.f.pre.voy k.f.pre.reg = some g →
    s.voyage? k.f.pre.voy = some v → (g.snap ≠ .none ∨ ∀ b ∈ s.saveBases, b.1 ≠ v.asid) →
    exec (.ckpt h d) s = .next (s.slotTaken k.f k.rest))

/-- The handle rules, and the bank exchange of the synchronizing ones. Parts: `HandleRules`, `BanksExchanged`. -/
def Obligations.HandleAndBankRules : Prop := StatementPart.HandleRules ∧ StatementPart.BanksExchanged


namespace Sys2Proof.Claims

/-- The lane-wise floating-point instructions (Tables 8.2 to 8.5): operands (a source with no B names A twice), latency, whether D is read as a source, and
the exact result of a lane from the lanes of A, B and D. -/
def laneOp : Instr → Option (VBin × Nat × Bool × (Num → Num → Num → Num))
  | .vadd r => some (r, 4, false, fun a b _ => Num.add (r.rm == .rd) a b)
  | .vsub r => some (r, 4, false, fun a b _ => Num.add (r.rm == .rd) a b.neg)
  | .vmul r => some (r, 4, false, fun a b _ => a.mul b)
  | .vfma r => some (r, 4, true, fun a b c => Num.add (r.rm == .rd) (a.mul b) c)
  | .vfms r => some (r, 4, true, fun a b c => Num.add (r.rm == .rd) (a.mul b) c.neg)
  | .vnfma r => some (r, 4, true, fun a b c => Num.add (r.rm == .rd) c (a.mul b).neg)
  | .vmax r => some (r, 2, false, fun a b _ => a.max b)
  | .vmin r => some (r, 2, false, fun a b _ => a.min b)
  | .vabs r => some (⟨r.hdr, r.fmt, r.rm, r.ov, r.d, r.a, r.a⟩, 2, false, fun a _ _ => a.abs)
  | .vneg r => some (⟨r.hdr, r.fmt, r.rm, r.ov, r.d, r.a, r.a⟩, 2, false, fun a _ _ => a.neg)
  | .vrcp r => some (⟨r.hdr, r.fmt, r.rm, r.ov, r.d, r.a, r.a⟩, 8, false, fun a _ _ => a.rcp)
  | .vrsq r => some (⟨r.hdr, r.fmt, r.rm, r.ov, r.d, r.a, r.a⟩, 8, false, fun a _ _ => a.rsq)
  | .vexp2 r => some (⟨r.hdr, r.fmt, r.rm, r.ov, r.d, r.a, r.a⟩, 8, false, fun a _ _ => a.exp2)
  | .vlog2 r => some (⟨r.hdr, r.fmt, r.rm, r.ov, r.d, r.a, r.a⟩, 8, false, fun a _ _ => a.log2)
  | .vsqrt r => some (⟨r.hdr, r.fmt, r.rm, r.ov, r.d, r.a, r.a⟩, 8, false, fun a _ _ => a.sqrt)
  | _ => none

/-- The masked lane reductions (R212): operation and value with no lane present, for a floating-point and for an integer operation format. -/
def reduction : Instr → Option (VRed × (Num → Num → Num) × (Int → Int → Int) × Num × Int)
  | .vsum r => some (r, Num.add (r.rm == .rd), fun a b => a + b, .zero false, 0)
  | .vrmax r => some (r, Num.max, max, .inf true, r.fmt.intMin)
  | .vrmin r => some (r, Num.min, min, .inf false, r.fmt.intMax)
  | _ => none

/-- A reduction's result: a vector with the code in lane 0, or the bits of the code in a d register (Table 8.1, Wr). -/
def reducedToken (d : Opd) (f : Tag) (c : Nat) (sl : Slack) : Token :=
  match d with
  | .d _ => Token.scalar (BitVec.ofNat 64 c) sl
  | _ => Token.vec (VReg.plain f c) sl

/-- The integer lane instructions (R209): latency and the exact code of a lane from the codes of A and of B (or the AUX byte). -/
def integerLane : Instr → Option (VInt × Nat × (Nat → Nat → Nat))
  | .viadd r => some (r, 2, fun a b => intOp r (· + ·) a b)
  | .visub r => some (r, 2, fun a b => intOp r (· - ·) a b)
  | .vimul r => some (r, 4, fun a b => intOp r (· * ·) a b)
  | .vishl r => some (r, 2, fun a b => a * 2 ^ (b % r.fmt.width))
  | .vishr r => some (r, 2, fun a b => r.fmt.intCode (r.fmt.intVal a >>> (b % r.fmt.width)))
  | _ => none

/-- The bitwise instructions (R209). -/
def bitwiseLane : Instr → Option (VInt × (V512 → V512 → V512))
  | .vand r => some (r, fun a b => a &&& b)
  | .vor r => some (r, fun a b => a ||| b)
  | .vxor r => some (r, fun a b => a ^^^ b)
  | _ => none

/-- The compares (R210). -/
def laneCompare : Instr → Option (VCmp × (Num → Num → Bool))
  | .vceq r => some (r, Num.eq)
  | .vclt r => some (r, Num.lt)
  | .vcle r => some (r, fun a b => a.lt b || a.eq b)
  | _ => none

/-- A source whose tag an instruction checks: the tag, and whether the instruction accepts it. -/
def exactly (f : Tag) (v : VReg) : Tag × Bool := (v.tag, v.tag == f)
def oneOf (p : Tag → Bool) (v : VReg) : Tag × Bool := (v.tag, p v.tag)
/-- An index or a mask: an integer tag of the lane width. -/
def masking (f : Tag) (v : VReg) : Tag × Bool := (v.tag, v.tag.isIN && v.tag.width == f.width)

/-- The tag checks of an instruction on what it has read: the sources in the order A, B, D. -/
def tagChecks (i : Instr) (x y d : VReg) : List (Tag × Bool) :=
  match i with
  | .vdot _ s => [exactly s x, exactly s y]
  | .vcvt r => [exactly r.s x]
  | .vqnt r => [exactly r.s x]
  | .vdqt r => [exactly r.s x]
  | .vrot r _ => [exactly r.fmt x, exactly r.fmt y]
  | .vshuf r => [exactly r.fmt x, masking r.fmt y]
  | .vsel r => [exactly r.fmt x, exactly r.fmt y, masking r.fmt d]
  | .vsscl .. => [oneOf Tag.isB8 x]
  | .vgscl _ => [oneOf Tag.isB8 x]
  | .vbcst _ f _ _ (some _) => [exactly f x]
  | .vext r => [exactly r.fmt x]
  | .xadd .. => [exactly 44 x, oneOf (fun t => t == 44 || t.isFW) y]
  | .xcvt _ => [exactly 44 x]
  | i =>
    match reduction i, laneOp i, laneCompare i, integerLane i, bitwiseLane i with
    | some (r, _), _, _, _, _ => exactly r.s x :: if r.mask.isSome then [masking r.s y] else []
    | _, some (r, _, true, _), _, _, _ => [exactly r.fmt x, exactly r.fmt y, exactly r.fmt d]
    | _, some (r, _, false, _), _, _, _ => [exactly r.fmt x, exactly r.fmt y]
    | _, _, some (r, _), _, _ => [exactly r.fmt x, exactly r.fmt y]
    | _, _, _, some (r, _), _ => exactly r.fmt x :: match r.b with | .reg _ => [exactly r.fmt y] | .aux _ => []
    | _, _, _, _, some (r, _) => oneOf Tag.isIN x :: match r.b with | .reg _ => [oneOf Tag.isIN y] | .aux _ => []
    | _, _, _, _, _ => []

/-- How a vector instruction that checks a tag reads its sources: A and B (A again where there is none), the destination and the latency. -/
def vectorRead (e : Env) : Instr → Option ((Val × Val × List Effect) × Opd × Nat)
  | .vdot r _ => (e.read2 r.a r.b).map (·, r.d, 6)
  | .vcvt r => (readWith e r.a r.rand).map (·, r.d, 4)
  | .vqnt r => (readWith e r.a r.rand).map (·, r.d, 4)
  | .vdqt r => (readWith e r.a r.rand).map (·, r.d, 4)
  | .vrot r _ => (e.read2 r.a r.b).map (·, r.d, 4)
  | .vshuf r => (e.read2 r.a r.b).map (·, r.d, 4)
  | .vsel r => (e.read2 r.a r.b).map (·, r.d, 2)
  | .vsscl _ d a n => (e.readN a n).map (·, d, 2)
  | .vgscl r => (readWith e r.a none).map (·, r.d, 2)
  | .vbcst _ _ d a (some n) => (e.readN a n).map (·, d, 2)
  | .vext r => (e.readN r.a r.n).map (·, r.d, 2)
  | .xadd _ d a b => (e.read2 a b).map (·, d, 3)
  | .xcvt r => (e.readN r.a r.n).map (·, r.d, 4)
  | i =>
    match reduction i, laneOp i, laneCompare i, integerLane i, bitwiseLane i with
    | some (r, _), _, _, _, _ => (readWith e r.a r.mask).map (·, r.d, 6)
    | _, some (r, lat, _), _, _, _ => (e.read2 r.a r.b).map (·, r.d, lat)
    | _, _, some (r, _), _, _ => (e.read2 r.a r.b).map (·, r.d, 2)
    | _, _, _, some (r, lat, _), _ => (readWith e r.a (match r.b with | .reg b => some b | .aux _ => none)).map (·, r.d, lat)
    | _, _, _, _, some (r, _) => (readWith e r.a (match r.b with | .reg b => some b | .aux _ => none)).map (·, r.d, 2)
    | _, _, _, _, _ => none
where
  readWith (e : Env) (a : Opd) (b : Option Opd) : Option (Val × Val × List Effect) := e.read2 a (b.getD a)

end Sys2Proof.Claims

/-! ### Vector rules (R201-R225) -/

/-- R208, Tables 8.3 to 8.5: each lane-wise floating-point instruction, its sources tagged with its format, writes the exact result of every lane rounded
by `set_lanes`. -/
def StatementPart.VectorLaneResults : Prop :=
  ∀ (k : Slot) (s : State) (i : Instr) (r : VBin) (lat : Nat) (usesD : Bool) (op : Sys2Proof.Num → Sys2Proof.Num → Sys2Proof.Num → Sys2Proof.Num) (x y : Val) (eff : List Effect),
    laneOp i = some (r, lat, usesD, op) → k.Fires s r.hdr →
    (k.env s r.hdr).read2 r.a r.b = some (x, y, eff) → x.bad = false → y.bad = false →
    (k.env s r.hdr).destReady r.d = true → (k.env s r.hdr).destBad r.d = false →
    x.vreg.tag = r.fmt → y.vreg.tag = r.fmt → (usesD = true → ((k.env s r.hdr).wv r.d).tag = r.fmt) →
    ∃ ys : List Sys2Proof.Num, ys.length = r.fmt.lanes ∧
      (∀ (j : Nat) (a b c : Sys2Proof.Num), (x.vreg.vals r.fmt)[j]? = some a → (y.vreg.vals r.fmt)[j]? = some b → (((k.env s r.hdr).wv r.d).vals r.fmt)[j]? = some c →
        ys[j]? = some (op a b c)) ∧
      k.Does s i r.hdr (((k.env s r.hdr).write lat r.d (Token.vec (setLanes r.fmt ys r.rm r.ov) (k.env s r.hdr).sl)).after eff)

/-- R90, R154, R165, R202: a vector instruction one of whose sources A, B and D carries a tag that it does not accept (another than its format for most, an
integer tag of another lane width for an index or a mask, any but binary8 for `vsscl` and `vgscl`, any but an integer tag for the bitwise instructions, any
but x320 for A of `xadd` and `xcvt`) consumes its operands, writes no destination and raises the format fault with INFO that tag; of several, by the model's
choice the first in the order A, B, D (log 114). Where an operand is a plain handle the fault is the bounds fault. It goes out on an output destination, else
to the fault queue. -/
def StatementPart.VectorSourceFaults : Prop :=
  ∀ (k : Slot) (s : State) (i : Instr) (r : Rule) (x y : Val) (eff : List Effect) (d : Opd) (lat : Nat),
    ruleOf i = some r → k.Fires s r.hdr → vectorRead (k.env s r.hdr) i = some ((x, y, eff), d, lat) → (k.env s r.hdr).destReady d = true →
    ((x.bad = true ∨ y.bad = true ∨ (k.env s r.hdr).destBad d = true) →
      k.Does s i r.hdr ((k.env s r.hdr).fault lat eff (Opd.out? d) ⟨0x02, 0, 0⟩)) ∧
    (x.bad = false → y.bad = false → (k.env s r.hdr).destBad d = false →
      ∀ (good rest : List (Tag × Bool)) (tag : Tag),
        tagChecks i x.vreg y.vreg ((k.env s r.hdr).wv d) = good ++ (tag, false) :: rest → (∀ c ∈ good, c.2 = true) →
        k.Does s i r.hdr ((k.env s r.hdr).fault lat eff (Opd.out? d) ⟨0x01, tag.toNat, 0⟩))

/-- R212: the lane reductions. Each term is rounded to the operation format (`vdot`: the exact product once), the lanes present under the mask are combined
by the lane tree, rounding at every node, and the result stands in lane 0 or, in a d register, as its bits. -/
def StatementPart.ReductionResults : Prop :=
  (∀ (k : Slot) (s : State) (i : Instr) (r : VRed) (opF : Sys2Proof.Num → Sys2Proof.Num → Sys2Proof.Num) (opI : Int → Int → Int) (eF : Sys2Proof.Num) (eI : Int) (x : Val),
    reduction i = some (r, opF, opI, eF, eI) → k.Fires s r.hdr → r.mask = none → (k.env s r.hdr).read r.a = some x → x.bad = false →
    (k.env s r.hdr).destReady r.d = true → (k.env s r.hdr).destBad r.d = false → x.vreg.tag = r.s →
    ∃ c : Nat, (r.fmt.isIN = true → c = reduceI r.fmt opI eI (List.replicate r.s.lanes true) ((x.vreg.codes r.s).map r.s.intVal)) ∧
      (r.fmt.isIN = false → c = reduceF r.fmt r.rm r.ov opF eF (List.replicate r.s.lanes true) (x.vreg.vals r.s)) ∧
      k.Does s i r.hdr (((k.env s r.hdr).write 6 r.d (reducedToken r.d r.fmt c (k.env s r.hdr).sl)).after x.eff)) ∧
  (∀ (k : Slot) (s : State) (i : Instr) (r : VRed) (opF : Sys2Proof.Num → Sys2Proof.Num → Sys2Proof.Num) (opI : Int → Int → Int) (eF : Sys2Proof.Num) (eI : Int) (m : Opd) (x y : Val)
      (eff : List Effect),
    reduction i = some (r, opF, opI, eF, eI) → k.Fires s r.hdr → r.mask = some m → (k.env s r.hdr).read2 r.a m = some (x, y, eff) →
    x.bad = false → y.bad = false → (k.env s r.hdr).destReady r.d = true → (k.env s r.hdr).destBad r.d = false → x.vreg.tag = r.s →
    y.vreg.tag.isIN = true → y.vreg.tag.width = r.s.width →
    ∃ c : Nat, (r.fmt.isIN = true → c = reduceI r.fmt opI eI ((y.vreg.codes r.s).map (· != 0)) ((x.vreg.codes r.s).map r.s.intVal)) ∧
      (r.fmt.isIN = false → c = reduceF r.fmt r.rm r.ov opF eF ((y.vreg.codes r.s).map (· != 0)) (x.vreg.vals r.s)) ∧
      k.Does s i r.hdr (((k.env s r.hdr).write 6 r.d (reducedToken r.d r.fmt c (k.env s r.hdr).sl)).after eff)) ∧
  (∀ (k : Slot) (s : State) (r : VBin) (t : Tag) (x y : Val) (eff : List Effect), k.Fires s r.hdr →
    (k.env s r.hdr).read2 r.a r.b = some (x, y, eff) → x.bad = false → y.bad = false →
    (k.env s r.hdr).destReady r.d = true → (k.env s r.hdr).destBad r.d = false → x.vreg.tag = t → y.vreg.tag = t →
    ∃ c : Nat, (r.fmt.isIN = true → c = reduceI r.fmt (fun a b => a + b) 0 (List.replicate t.lanes true)
        ((((x.vreg.codes t).map t.intVal).zip ((y.vreg.codes t).map t.intVal)).map fun (a, b) => a * b)) ∧
      (r.fmt.isIN = false → c = reduceF r.fmt r.rm r.ov (Sys2Proof.Num.add (r.rm == .rd)) (.zero false) (List.replicate t.lanes true)
        (((x.vreg.vals t).zip (y.vreg.vals t)).map fun (a, b) => a.mul b)) ∧
      k.Does s (.vdot r t) r.hdr (((k.env s r.hdr).write 6 r.d (reducedToken r.d r.fmt c (k.env s r.hdr).sl)).after eff))

/-- R213 to R215: `vcvt` converts the codes of part k of A lane by lane (integers to integers wrap, or clamp under `sat`); `vqnt` quantises each block of
eight values to a binary8 format with one scale; `vdqt` applies the block scales. The lanes go into part k of D, or into all of it. The random operand, where
there is one, gives each lane 16 bits. -/
def StatementPart.ConversionResults : Prop :=
  ∀ (k : Slot) (s : State) (r : VConv) (x : Val) (u : Option VReg) (eff : List Effect), k.Fires s r.hdr →
    ((r.rand = none ∧ (k.env s r.hdr).read r.a = some x ∧ u = none ∧ eff = x.eff) ∨
      (∃ b y, r.rand = some b ∧ (k.env s r.hdr).read2 r.a b = some (x, y, eff) ∧ y.bad = false ∧ u = some y.vreg)) →
    x.bad = false → (k.env s r.hdr).destReady r.d = true → (k.env s r.hdr).destBad r.d = false → x.vreg.tag = r.s →
    (∃ cs : List Nat, cs = (partLanes r.fmt r.s r.k.toNat (x.vreg.codes r.s)).zipIdx.map (fun (c, i) =>
        if r.s.isIN && r.fmt.isIN then r.fmt.intCode (if r.sat then r.fmt.clamp (r.s.intVal c) else r.s.intVal c)
        else convert (r.s.decode c) r.fmt r.rm r.ov (randAt u i)) ∧
      k.Does s (.vcvt r) r.hdr (((k.env s r.hdr).write 4 r.d (Token.vec
        (placeLanes r.fmt r.s r.k.toNat ((k.env s r.hdr).wv r.d) cs (List.replicate (cs.length / 8) 0x7F)) (k.env s r.hdr).sl)).after eff)) ∧
    (∃ bs : List (Nat × List Nat), bs = (chunks 8 8 (partLanes r.fmt r.s r.k.toNat (x.vreg.vals r.s)).zipIdx).map (fun b =>
        quantBlock (b.map (·.1)) r.fmt.float r.rm r.ov (b.map fun z => randAt u z.2)) ∧
      k.Does s (.vqnt r) r.hdr (((k.env s r.hdr).write 4 r.d (Token.vec
        (placeLanes r.fmt r.s r.k.toNat ((k.env s r.hdr).wv r.d) (bs.flatMap (·.2)) (bs.map (·.1))) (k.env s r.hdr).sl)).after eff)) ∧
    k.Does s (.vdqt r) r.hdr (((k.env s r.hdr).write 4 r.d (Token.vec
      (placeLanes r.fmt r.s r.k.toNat ((k.env s r.hdr).wv r.d)
        ((partLanes r.fmt r.s r.k.toNat (x.vreg.vals r.s)).map fun z => convert z r.fmt r.rm r.ov 0) []) (k.env s r.hdr).sl)).after eff)

/-- R216, R217, R219: the moves, which round nothing: `vmov` copies bits, tag and sidecar (where R91 would write another sidecar, the model's choice is R90:
log 94); `vtag` changes the tag (the sidecar stays between binary8 tags, and bits 511..352 of an x320 are zero, R106); `vclr` writes zeros; `vsscl` and
`vgscl` write and read the scales; `vbcst` fills every lane from a scalar or from one lane; `vext` reads a lane, sign-extended for a signed format; `vins`
replaces one. -/
def StatementPart.VectorMoves : Prop :=
  (∀ (k : Slot) (s : State) (r : RUn) (x : Val), k.Fires s r.hdr → (k.env s r.hdr).read r.a = some x → x.bad = false →
    (k.env s r.hdr).destReady r.d = true → (k.env s r.hdr).destBad r.d = false →
    k.Does s (.vmov r) r.hdr (((k.env s r.hdr).write 2 r.d (Token.vec x.vreg (k.env s r.hdr).sl)).after x.eff)) ∧
  (∀ (k : Slot) (s : State) (h : Hdr) (f : Tag) (d a : Opd) (x : Val), k.Fires s h → (k.env s h).read a = some x → x.bad = false →
    (k.env s h).destReady d = true → (k.env s h).destBad d = false →
    ∃ b : V512, (f ≠ 44 → b = x.vreg.data) ∧ (∀ n, b.getLsbD n = (x.vreg.data.getLsbD n && (f != 44 || decide (n < 352)))) ∧
      k.Does s (.vtag h f d a) h (((k.env s h).write 2 d (Token.vec
        ⟨b, if x.vreg.tag.isB8 && f.isB8 then x.vreg.side else 0x7F7F7F7F7F7F7F7F, f⟩ (k.env s h).sl)).after x.eff)) ∧
  (∀ (k : Slot) (s : State) (h : Hdr) (f : Tag) (d : Opd), k.Fires s h → (k.env s h).destReady d = true → (k.env s h).destBad d = false →
    k.Does s (.vclr h f d) h ((k.env s h).write 2 d (Token.vec ⟨0, 0x7F7F7F7F7F7F7F7F, f⟩ (k.env s h).sl))) ∧
  (∀ (k : Slot) (s : State) (h : Hdr) (d a : Opd) (n : NOp) (x y : Val) (eff : List Effect), k.Fires s h →
    (k.env s h).readN a n = some (x, y, eff) → x.bad = false → y.bad = false → (k.env s h).destReady d = true → (k.env s h).destBad d = false →
    x.vreg.tag.isB8 = true →
    k.Does s (.vsscl h d a n) h (((k.env s h).write 2 d (Token.vec
      { x.vreg with side := match n with | .aux i => repByte i | .reg _ => y.word } (k.env s h).sl)).after eff)) ∧
  (∀ (k : Slot) (s : State) (r : RUn) (x : Val), k.Fires s r.hdr → (k.env s r.hdr).read r.a = some x → x.bad = false →
    (k.env s r.hdr).destReady r.d = true → (k.env s r.hdr).destBad r.d = false → x.vreg.tag.isB8 = true →
    k.Does s (.vgscl r) r.hdr (((k.env s r.hdr).write 2 r.d (Token.scalar x.vreg.side (k.env s r.hdr).sl)).after x.eff)) ∧
  (∀ (k : Slot) (s : State) (h : Hdr) (f : Tag) (d a : Opd) (x : Val), k.Fires s h → (k.env s h).read a = some x → x.bad = false →
    (k.env s h).destReady d = true → (k.env s h).destBad d = false →
    k.Does s (.vbcst h f d a none) h (((k.env s h).write 2 d (Token.vec
      (VReg.plain f (packLanes f.width (List.replicate f.lanes x.word.toNat))) (k.env s h).sl)).after x.eff)) ∧
  (∀ (k : Slot) (s : State) (h : Hdr) (f : Tag) (d a : Opd) (n : NOp) (x y : Val) (eff : List Effect) (j : Nat), k.Fires s h →
    (k.env s h).readN a n = some (x, y, eff) → x.bad = false → y.bad = false → (k.env s h).destReady d = true → (k.env s h).destBad d = false →
    x.vreg.tag = f → j = y.word.toNat % f.lanes →
    k.Does s (.vbcst h f d a (some n)) h (((k.env s h).write 2 d (Token.vec
      ⟨(VReg.plain f (packLanes f.width (List.replicate f.lanes (laneAt x.vreg.data.toNat f.width j)))).data,
        if f.isB8 then repByte (BitVec.ofNat 8 (laneAt x.vreg.side.toNat 8 (j / 8))) else 0x7F7F7F7F7F7F7F7F, f⟩ (k.env s h).sl)).after eff)) ∧
  (∀ (k : Slot) (s : State) (r : VLane) (x y : Val) (eff : List Effect) (c : Nat), k.Fires s r.hdr →
    (k.env s r.hdr).readN r.a r.n = some (x, y, eff) → x.bad = false → y.bad = false →
    (k.env s r.hdr).destReady r.d = true → (k.env s r.hdr).destBad r.d = false → x.vreg.tag = r.fmt →
    c = laneAt x.vreg.data.toNat r.fmt.width (y.word.toNat % r.fmt.lanes) →
    k.Does s (.vext r) r.hdr (((k.env s r.hdr).write 2 r.d (Token.scalar
      (BitVec.ofInt 64 (if r.fmt.isSigned then r.fmt.intVal c else (c : Int))) (k.env s r.hdr).sl)).after eff)) ∧
  (∀ (k : Slot) (s : State) (r : VLane) (x y : Val) (eff : List Effect), k.Fires s r.hdr →
    (k.env s r.hdr).readN r.a r.n = some (x, y, eff) → x.bad = false → y.bad = false →
    (k.env s r.hdr).destReady r.d = true → (k.env s r.hdr).destBad r.d = false →
    k.Does s (.vins r) r.hdr (((k.env s r.hdr).write 2 r.d (Token.vec
      ⟨BitVec.ofNat 512 (packLanes r.fmt.width ((((k.env s r.hdr).wv r.d).codes r.fmt).set (y.word.toNat % r.fmt.lanes) (x.word.toNat % 2 ^ r.fmt.width))),
        if ((k.env s r.hdr).wv r.d).tag.isB8 && r.fmt.isB8 then ((k.env s r.hdr).wv r.d).side else 0x7F7F7F7F7F7F7F7F, r.fmt⟩
      (k.env s r.hdr).sl)).after eff))

/-- R210, R211, R218, R220: `vceq`, `vclt` and `vcle` write all ones where the relation holds, tagged as the unsigned integer format of the lane width;
`vsel` takes A where the mask D is nonzero and B elsewhere; `vshuf` takes the lane of A that each index of B names; `vrot` rotates pairs of lanes. -/
def StatementPart.LaneSelection : Prop :=
  (∀ (k : Slot) (s : State) (i : Instr) (r : VCmp) (rel : Sys2Proof.Num → Sys2Proof.Num → Bool) (x y : Val) (eff : List Effect),
    laneCompare i = some (r, rel) → k.Fires s r.hdr → (k.env s r.hdr).read2 r.a r.b = some (x, y, eff) → x.bad = false → y.bad = false →
    (k.env s r.hdr).destReady r.d = true → (k.env s r.hdr).destBad r.d = false → x.vreg.tag = r.fmt → y.vreg.tag = r.fmt →
    k.Does s i r.hdr (((k.env s r.hdr).write 2 r.d (Token.vec
      (VReg.plain (match r.fmt.width with | 8 => 37 | 16 => 39 | 32 => 41 | _ => 43) (packLanes r.fmt.width
        (((x.vreg.vals r.fmt).zip (y.vreg.vals r.fmt)).map fun (a, b) => if rel a b then 2 ^ r.fmt.width - 1 else 0)))
      (k.env s r.hdr).sl)).after eff)) ∧
  (∀ (k : Slot) (s : State) (r : VBin) (x y : Val) (eff : List Effect), k.Fires s r.hdr →
    (k.env s r.hdr).read2 r.a r.b = some (x, y, eff) → x.bad = false → y.bad = false →
    (k.env s r.hdr).destReady r.d = true → (k.env s r.hdr).destBad r.d = false → x.vreg.tag = r.fmt →
    (y.vreg.tag = r.fmt → ((k.env s r.hdr).wv r.d).tag.isIN = true → ((k.env s r.hdr).wv r.d).tag.width = r.fmt.width →
      k.Does s (.vsel r) r.hdr (((k.env s r.hdr).write 2 r.d (Token.vec
        (setLanes r.fmt (((((k.env s r.hdr).wv r.d).codes r.fmt).zip ((x.vreg.vals r.fmt).zip (y.vreg.vals r.fmt))).map
          fun (m, a, b) => if m ≠ 0 then a else b) r.rm r.ov) (k.env s r.hdr).sl)).after eff)) ∧
    (y.vreg.tag.isIN = true → y.vreg.tag.width = r.fmt.width →
      k.Does s (.vshuf r) r.hdr (((k.env s r.hdr).write 4 r.d (Token.vec
        (setLanes r.fmt ((y.vreg.codes r.fmt).map fun j => (x.vreg.vals r.fmt).getD (j % r.fmt.lanes) .nan) r.rm r.ov)
        (k.env s r.hdr).sl)).after eff)) ∧
    (y.vreg.tag = r.fmt → ∀ (split : Bool),
      ∃ ys : List Sys2Proof.Num, ys.length = r.fmt.lanes ∧
        (∀ p, p < r.fmt.lanes / 2 → ∃ i j : Nat, (i, j) = (if split then (p, p + r.fmt.lanes / 2) else (2 * p, 2 * p + 1)) ∧
          ∀ a b c d : Sys2Proof.Num, (x.vreg.vals r.fmt)[i]? = some a → (x.vreg.vals r.fmt)[j]? = some b →
            (y.vreg.vals r.fmt)[i]? = some c → (y.vreg.vals r.fmt)[j]? = some d →
            ys[i]? = some (Sys2Proof.Num.add (r.rm == .rd) (a.mul c) (b.mul d).neg) ∧ ys[j]? = some (Sys2Proof.Num.add (r.rm == .rd) (a.mul d) (b.mul c))) ∧
        k.Does s (.vrot r split) r.hdr (((k.env s r.hdr).write 4 r.d (Token.vec (setLanes r.fmt ys r.rm r.ov) (k.env s r.hdr).sl)).after eff)))

/-- R106, R209, R221, R222: the integer lanes compute modulo 2^w or clamp under `sat`, the bitwise instructions act on all 512 bits of any integer
vectors; `xadd` adds an x320 or every lane of a floating-point vector to an x320 exactly, and `xcvt` rounds an x320 once. -/
def Obligations.IntegerLanesAndExactSums : Prop :=
  (∀ (k : Slot) (s : State) (i : Instr) (r : VInt) (lat : Nat) (op : Nat → Nat → Nat) (b : Opd) (x y : Val) (eff : List Effect),
    integerLane i = some (r, lat, op) → k.Fires s r.hdr → r.b = .reg b → (k.env s r.hdr).read2 r.a b = some (x, y, eff) →
    x.bad = false → y.bad = false → (k.env s r.hdr).destReady r.d = true → (k.env s r.hdr).destBad r.d = false →
    x.vreg.tag = r.fmt → y.vreg.tag = r.fmt →
    k.Does s i r.hdr (((k.env s r.hdr).write lat r.d (Token.vec (VReg.plain r.fmt (packLanes r.fmt.width
      (((x.vreg.codes r.fmt).zip (y.vreg.codes r.fmt)).map fun (a, b) => op a b))) (k.env s r.hdr).sl)).after eff)) ∧
  (∀ (k : Slot) (s : State) (i : Instr) (r : VInt) (lat : Nat) (op : Nat → Nat → Nat) (aux : BitVec 8) (x : Val),
    integerLane i = some (r, lat, op) → k.Fires s r.hdr → r.b = .aux aux → (k.env s r.hdr).read r.a = some x → x.bad = false →
    (k.env s r.hdr).destReady r.d = true → (k.env s r.hdr).destBad r.d = false → x.vreg.tag = r.fmt →
    k.Does s i r.hdr (((k.env s r.hdr).write lat r.d (Token.vec (VReg.plain r.fmt (packLanes r.fmt.width
      ((x.vreg.codes r.fmt).map fun a => op a aux.toNat))) (k.env s r.hdr).sl)).after x.eff)) ∧
  (∀ (k : Slot) (s : State) (i : Instr) (r : VInt) (op : V512 → V512 → V512) (b : Opd) (x y : Val) (eff : List Effect),
    bitwiseLane i = some (r, op) → k.Fires s r.hdr → r.b = .reg b → (k.env s r.hdr).read2 r.a b = some (x, y, eff) →
    x.bad = false → y.bad = false → (k.env s r.hdr).destReady r.d = true → (k.env s r.hdr).destBad r.d = false →
    x.vreg.tag.isIN = true → y.vreg.tag.isIN = true →
    k.Does s i r.hdr (((k.env s r.hdr).write 2 r.d (Token.vec ⟨op x.vreg.data y.vreg.data, 0x7F7F7F7F7F7F7F7F, r.fmt⟩
      (k.env s r.hdr).sl)).after eff)) ∧
  (∀ (k : Slot) (s : State) (i : Instr) (r : VInt) (op : V512 → V512 → V512) (aux : BitVec 8) (x : Val),
    bitwiseLane i = some (r, op) → k.Fires s r.hdr → r.b = .aux aux → (k.env s r.hdr).read r.a = some x → x.bad = false →
    (k.env s r.hdr).destReady r.d = true → (k.env s r.hdr).destBad r.d = false → x.vreg.tag.isIN = true →
    k.Does s i r.hdr (((k.env s r.hdr).write 2 r.d (Token.vec
      ⟨op x.vreg.data (BitVec.ofNat 512 (packLanes 8 (List.replicate 64 aux.toNat))), 0x7F7F7F7F7F7F7F7F, r.fmt⟩ (k.env s r.hdr).sl)).after x.eff)) ∧
  (∀ (k : Slot) (s : State) (h : Hdr) (d a b : Opd) (x y : Val) (eff : List Effect), k.Fires s h →
    (k.env s h).read2 a b = some (x, y, eff) → x.bad = false → y.bad = false → (k.env s h).destReady d = true → (k.env s h).destBad d = false →
    x.vreg.tag = 44 →
    (y.vreg.tag = 44 → k.Does s (.xadd h d a b) h (((k.env s h).write 3 d (Token.vec
      ((regX320 x.vreg).add (regX320 y.vreg)).toVReg (k.env s h).sl)).after eff)) ∧
    (y.vreg.tag.isFW = true → k.Does s (.xadd h d a b) h (((k.env s h).write 3 d (Token.vec
      ((y.vreg.vals y.vreg.tag).foldl (fun (z : X320) t => z.add (X320.ofNum t)) (regX320 x.vreg)).toVReg (k.env s h).sl)).after eff))) ∧
  (∀ (k : Slot) (s : State) (r : VLane) (x y : Val) (eff : List Effect) (c : Nat), k.Fires s r.hdr →
    (k.env s r.hdr).readN r.a r.n = some (x, y, eff) → x.bad = false → y.bad = false → x.vreg.tag = 44 →
    (k.env s r.hdr).destReady r.d = true → (k.env s r.hdr).destBad r.d = false →
    c = (convertF (regX320 x.vreg).toNum r.fmt.float .rne .inf 0).1 →
    (∀ n old, r.d = .v n → old = (if k.f.pre.v[n].tag = r.fmt then k.f.pre.v[n] else VReg.plain r.fmt 0) → k.Does s (.xcvt r) r.hdr (((k.env s r.hdr).write 4 r.d (Token.vec
      ⟨BitVec.ofNat 512 (packLanes r.fmt.width ((old.codes r.fmt).set (y.word.toNat % r.fmt.lanes) c)), 0x7F7F7F7F7F7F7F7F, r.fmt⟩
      (k.env s r.hdr).sl)).after eff)) ∧
    ((∀ n, r.d ≠ .v n) → k.Does s (.xcvt r) r.hdr
      (((k.env s r.hdr).write 4 r.d (Token.scalar (BitVec.ofNat 64 c) (k.env s r.hdr).sl)).after eff)))

/-- R206, R223 to R225: `vpark` writes its registers to rows of a tile or accumulator of the quad's matrix station, with this station as their owner: the rows
are taken at once and land after 3 + count cycles, until which neither a `vpark` nor a `vunpark` of them is ready; that only these rows are pending, and not
the unit, is the model's choice (log 80). A row parked by another station faults (bounds, INFO the row) and nothing is written; a unit that could not take a
park at the start of the cycle takes none. `vunpark` reads the bits that its rows hold, landing after 3 + count cycles, and releases them unless kept, by the
model's choice at the end of the cycle in which it fires (log 20); a row that is not parked, or is parked by another, faults in the same way. -/
def Obligations.ParkingResults : Prop :=
  (∀ (k : Slot) (s : State) (r : VPark) (dx dy : Int) (t : Station) (m : Mat), k.Fires s r.hdr →
    (∀ g ∈ parkGroup r, k.f.pre.pend.contains (.v g.1) = false) → (k.env s r.hdr).quadMat r.m1 = some (dx, dy, t, m) →
    ((m.parkable t.pend r.u.toNat = false ∨ (∃ m0, t.matPre = some m0 ∧ m0.parkable t.pend r.u.toNat = false) ∨
        (∃ g ∈ parkGroup r, ∃ p ∈ m.parks r.u.toNat, p.row = g.2 ∧ p.owner = k.f.st ∧ p.landed = false)) →
      exec (.vpark r) s = .next (s.slotTaken k.f k.rest))) ∧
  (∀ (k : Slot) (s : State) (r : VPark) (dx dy : Int) (t : Station) (m : Mat), k.Fires s r.hdr →
    (∀ g ∈ parkGroup r, k.f.pre.pend.contains (.v g.1) = false) → (k.env s r.hdr).quadMat r.m1 = some (dx, dy, t, m) →
    m.parkable t.pend r.u.toNat = true → (∀ m0, t.matPre = some m0 → m0.parkable t.pend r.u.toNat = true) →
    (∀ g ∈ parkGroup r, ∀ p ∈ m.parks r.u.toNat, p.row = g.2 → p.owner = k.f.st → p.landed = true) →
    ((∀ g ∈ parkGroup r, ∀ p ∈ m.parks r.u.toNat, p.row = g.2 → p.owner = k.f.st) →
      k.Does s (.vpark r) r.hdr
        ⟨.busy .vector (r.cnt1.toNat + 1) :: (parkGroup r).map (fun g => .park dx dy r.u.toNat g.2 k.f.pre.v[g.1]),
          some (r.cnt1.toNat + 4, (parkGroup r).map fun g => .parkLands dx dy r.u.toNat g.2)⟩) ∧
    (∀ g a b, parkGroup r = a ++ g :: b → (∃ p ∈ m.parks r.u.toNat, p.row = g.2 ∧ p.owner ≠ k.f.st) →
      (∀ g' ∈ a, ∀ p ∈ m.parks r.u.toNat, p.row = g'.2 → p.owner = k.f.st) →
      k.Does s (.vpark r) r.hdr ((k.env s r.hdr).fault 1 [] none ⟨0x02, g.2, 0⟩))) ∧
  (∀ (k : Slot) (s : State) (r : VPark) (dx dy : Int) (t : Station) (m : Mat), k.Fires s r.hdr →
    (∀ g ∈ parkGroup r, k.f.pre.pend.contains (.v g.1) = false) → (k.env s r.hdr).quadMat r.m1 = some (dx, dy, t, m) →
    (∀ rows : List VReg, rows.length = r.cnt1.toNat + 1 →
      (∀ g v, (g, v) ∈ (parkGroup r).zip rows →
        ∃ p, (m.parks r.u.toNat).find? (fun p => p.row == g.2 && p.owner == k.f.st) = some p ∧ p.landed = true ∧ v.tag = p.reg.tag ∧
          (∀ u : Fin 4, r.u.toNat = u.val → ∀ j : Fin 64, p.row = j.val → v.data = m.t[u].rows[j] ∧ v.side = m.t[u].scales[j]) ∧
          (4 ≤ r.u.toNat ∨ 64 ≤ p.row → v = p.reg)) →
      k.Does s (.vunpark r) r.hdr
        ⟨.busy .vector (r.cnt1.toNat + 1) :: (parkGroup r).map (fun g => .pend (.v g.1)) ++
            (if r.keep then [] else (parkGroup r).map fun g => .unpark dx dy r.u.toNat g.2),
          some (r.cnt1.toNat + 4, ((parkGroup r).zip rows).flatMap fun (g, v) => [.setV g.1 v, .unpend (.v g.1)])⟩) ∧
    ((∀ g ∈ parkGroup r, ∃ p ∈ m.parks r.u.toNat, p.row = g.2 ∧ p.owner = k.f.st) →
      (∃ g ∈ parkGroup r, ∃ p, (m.parks r.u.toNat).find? (fun p => p.row == g.2 && p.owner == k.f.st) = some p ∧ p.landed = false) →
      exec (.vunpark r) s = .next (s.slotTaken k.f k.rest)) ∧
    (∀ g a b, parkGroup r = a ++ g :: b → (∀ p ∈ m.parks r.u.toNat, p.row = g.2 → p.owner ≠ k.f.st) →
      (∀ g' ∈ a, ∃ p ∈ m.parks r.u.toNat, p.row = g'.2 ∧ p.owner = k.f.st) →
      k.Does s (.vunpark r) r.hdr ((k.env s r.hdr).fault 1 [] none ⟨0x02, g.2, 0⟩)))

/-- The vector rules lane by lane, and the faults of their sources. Parts: `VectorLaneResults`, `VectorSourceFaults`. -/
def Obligations.LaneResults : Prop := StatementPart.VectorLaneResults ∧ StatementPart.VectorSourceFaults

/-- Reductions and scans, and conversions between formats. Parts: `ReductionResults`, `ConversionResults`. -/
def Obligations.ReductionsAndConversions : Prop := StatementPart.ReductionResults ∧ StatementPart.ConversionResults

/-- Lanes moved, and lanes chosen. Parts: `VectorMoves`, `LaneSelection`. -/
def Obligations.LanesMovedAndChosen : Prop := StatementPart.VectorMoves ∧ StatementPart.LaneSelection


namespace Sys2Proof.Claims

/-- An accumulator that a matrix word may use: open, without parked rows, and with no step or `mnorm` on its way to it (R343, R344). -/
def usable (pre : Station) (m : Mat) (a : Fin 2) : Prop :=
  m.a[a].st = .opened ∧ m.a[a].parks = [] ∧ pre.pend.contains (.acc a) = false

end Sys2Proof.Claims

/-! ### Matrix words (R335-R349) -/

/-- R334, R339, R341, R342, R344, all by the state of the unit at the start of the cycle: `mcfg` configures an accumulator that has no configuration or is
open with counter 0 (a carry channel in use elsewhere faults, INFO 5); `tfill` binds a channel and a format to an empty tile, taking the channel from any
other tile, or ends a fill; `tmark` marks a tile empty or full (full with no format faults); `tdrain` closes an accumulator; `mclr` clears one; `mexp` sets
the exponent of the empty rows of an empty one; `mnorm` makes it pending for 64 cycles and then raises its rows to the greatest exponent; `mscap` writes a
scale register, one row or all. -/
def StatementPart.MatrixSetup : Prop :=
  (∀ (k : Slot) (s : State) (h : Hdr) (a : Fin 2) (o : Fin 8) (c : Option (Fin 8)) (sa sb : ScaleSrc) (kt : BitVec 16) (m : Mat), k.Fires s h →
    k.f.pre.matPre = some m → (m.a[a].cfg = none ∨ (usable k.f.pre m a ∧ m.a[a].cnt = 0)) →
    ((∀ n, c = some n → (∀ t : Fin 4, m.t[t].fill ≠ some n) ∧ (∀ q, m.a[a + 1].cfg = some q → q.carry ≠ some n)) →
      k.Does s (.mcfg h a o c sa sb kt) h ⟨[.setAcc a { m.a[a] with cfg := some ⟨kt, o, c, sa, sb⟩ }], none⟩) ∧
    (∀ n, c = some n → ((∃ t : Fin 4, m.t[t].fill = some n) ∨ (∃ q, m.a[a + 1].cfg = some q ∧ q.carry = some n)) →
      k.Does s (.mcfg h a o c sa sb kt) h ((k.env s h).fault 1 [] none ⟨0x02, 5, 0⟩))) ∧
  (∀ (k : Slot) (s : State) (h : Hdr) (t : Fin 4) (c : Fin 8) (f : Tag) (m : Mat), k.Fires s h → k.f.pre.matPre = some m → m.t[t].st = .empty →
    m.t[t].parks = [] → (∀ (a : Fin 2) q, m.a[a].cfg = some q → q.carry ≠ some c) →
    k.Does s (.tfill h t (some c) f) h ⟨[.unbind c, .setTile t { m.t[t] with fill := some c, fresh := true, fmt := f, pos := 0 }], none⟩) ∧
  (∀ (k : Slot) (s : State) (h : Hdr) (t : Fin 4) (f : Tag) (m : Mat), k.Fires s h → k.f.pre.matPre = some m →
    k.Does s (.tfill h t none f) h ⟨[.setTile t { m.t[t] with fill := none }], none⟩) ∧
  (∀ (k : Slot) (s : State) (h : Hdr) (t : Fin 4) (full : Bool) (m : Mat), k.Fires s h → k.f.pre.matPre = some m → m.t[t].st ≠ .reading → m.t[t].parks = [] →
    ((full = false ∨ m.t[t].fmt ≠ 0) →
      k.Does s (.tmark h t full) h ⟨[.setTile t { m.t[t] with st := if full then .full else .empty, pos := 0 }], none⟩) ∧
    (full = true → m.t[t].fmt = 0 → k.Does s (.tmark h t full) h ((k.env s h).fault 1 [] none ⟨0x01, 0, 0⟩))) ∧
  (∀ (k : Slot) (s : State) (h : Hdr) (a : Fin 2) (m : Mat), k.Fires s h → k.f.pre.matPre = some m → usable k.f.pre m a →
    k.Does s (.mclr h a) h
      ⟨[.setAcc a { m.a[a] with rows := Vector.replicate 64 AccRow.clear, cnt := 0, st := .opened, cin := 0, pos := 0 }], none⟩ ∧
    (m.a[a].cfg ≠ none →
      k.Does s (.tdrain h a) h ⟨[.setAcc a { m.a[a] with st := .closed, closed := s.time, cin := 0, pos := 0, slack := (k.env s h).sl }], none⟩) ∧
    (∀ e, m.a[a].cnt = 0 → k.Does s (.mexp h a e) h
      ⟨[.setAcc a { m.a[a] with rows := m.a[a].rows.map fun r => if r.e = -512 then { r with e := e.toInt } else r }], none⟩) ∧
    (∀ e, m.a[a].cfg ≠ none → k.Does s (.mnorm h a e) h
      ⟨[.pend (.acc a)], some (64, [.setAcc a { m.a[a] with rows := mnormRows m.a[a].rows (e.map (·.toInt)) }, .unpend (.acc a)])⟩)) ∧
  (∀ (k : Slot) (s : State) (h : Hdr) (g : Fin 2) (src : Opd) (row : BitVec 6) (all : Bool) (x : Val), k.Fires s h →
    (k.env s h).read src = some x → x.bad = false →
    k.Does s (.mscap h g src row all) h ⟨x.eff ++ [.setG g (if all then none else some row.toFin) x.word], none⟩)

/-- R324, R325, R334, R339, R343, R346, R347: by the state of the unit at the start of the cycle, a step rule fires when both its tiles are full, its
accumulator is configured and usable and the unit holds no step: the tiles are read, the scales of A and of B are captured from the tile or from the scale
register that the configuration names (scales 2^0 for a 16-bit tile), the accumulator is pending, and the step runs for 128 cycles on binary8 tiles and 256 on
16-bit ones. Tiles of different widths raise the format fault, take the engine for the firing cycle and are released; that INFO is the format of tB is the
model's choice (log 22). `mpstat` and `mrow` emit the state of the unit, its codes where a row is parked or an accumulator is unconfigured by the model's
choice (log 31), and one row; a parked row faults with INFO the row. -/
def StatementPart.MatrixSteps : Prop :=
  (∀ (k : Slot) (s : State) (r : MStep) (i : Instr) (mmat : Bool) (m : Mat) (q : AccCfg),
    (i = .mma r ∧ mmat = false ∨ i = .mmat r ∧ mmat = true) → k.Fires s r.hdr →
    k.f.pre.matPre = some m → m.a[r.acc].cfg = some q → m.t[r.a].st = .full → m.t[r.b].st = .full → usable k.f.pre m r.acc → m.step = none →
    ((Tag.is16 m.t[r.a].fmt = Tag.is16 m.t[r.b].fmt →
      ∃ x : MatStep, x.acc = r.acc ∧ x.ta = r.a ∧ x.tb = r.b ∧ x.mmat = mmat ∧ x.keepa = r.keepa ∧ x.keepb = r.keepb ∧
        x.left + 1 = (if Tag.is16 m.t[r.a].fmt then 256 else 128) ∧
        (Tag.is16 m.t[r.a].fmt = false → q.sa = .tile → x.sa = m.t[r.a].scales) ∧ (Tag.is16 m.t[r.a].fmt = false → q.sa = .g0 → x.sa = m.g[0]) ∧
        (Tag.is16 m.t[r.a].fmt = false → q.sa = .g1 → x.sa = m.g[1]) ∧ (Tag.is16 m.t[r.b].fmt = false → q.sb = .tile → x.sb = m.t[r.b].scales) ∧
        (Tag.is16 m.t[r.b].fmt = false → q.sb = .g0 → x.sb = m.g[0]) ∧ (Tag.is16 m.t[r.b].fmt = false → q.sb = .g1 → x.sb = m.g[1]) ∧
        (∀ j : Fin 64, (Tag.is16 m.t[r.a].fmt = true → x.sa[j] = 0x7F7F7F7F7F7F7F7F) ∧ (Tag.is16 m.t[r.b].fmt = true → x.sb[j] = 0x7F7F7F7F7F7F7F7F)) ∧
        x.slack = (k.env s r.hdr).sl ∧
        k.Does s i r.hdr ⟨[.setTile r.a { m.t[r.a] with st := .reading }, .setTile r.b { m.t[r.b] with st := .reading }, .pend (.acc r.acc),
          .step x], none⟩) ∧
     (Tag.is16 m.t[r.a].fmt ≠ Tag.is16 m.t[r.b].fmt →
      k.Does s i r.hdr (((k.env s r.hdr).fault 1 [] none ⟨0x01, m.t[r.b].fmt.toNat, 0⟩).after
        [.setTile r.a (if r.keepa then { m.t[r.a] with st := .full } else { m.t[r.a] with st := .empty, pos := 0 }),
          .setTile r.b (if r.keepb then { m.t[r.b] with st := .full } else { m.t[r.b] with st := .empty, pos := 0 }), .busy .step 1]))) ) ∧
  (∀ (k : Slot) (s : State) (h : Hdr) (o : Fin 8) (m : Mat), k.Fires s h → k.f.pre.matPre = some m → (k.env s h).room o 1 = true →
    k.Does s (.mpstat h o) h
      ⟨[.emit o (Token.vec (VReg.plain 43 (packLanes 64 (m.statLanes k.f.pre.pend))) (k.env s h).sl)], none⟩) ∧
  (∀ (k : Slot) (s : State) (h : Hdr) (o : Fin 8) (n : Fin 4) (row : BitVec 6) (part : BitVec 3) (m : Mat), k.Fires s h → k.f.pre.matPre = some m →
    (k.env s h).room o 1 = true →
    (m.t[n].parks = [] → k.Does s (.mrow h o (.t n) row part) h ⟨[.emit o (Token.vec
      ⟨m.t[n].rows[row.toFin], if Tag.is16 m.t[n].fmt then 0x7F7F7F7F7F7F7F7F else m.t[n].scales[row.toFin], m.t[n].fmt⟩ (k.env s h).sl)], none⟩) ∧
    ((∃ p ∈ m.t[n].parks, p.row = row.toNat) →
      k.Does s (.mrow h o (.t n) row part) h ((k.env s h).fault 1 [] (some o) ⟨0x02, row.toNat, 0⟩))) ∧
  (∀ (k : Slot) (s : State) (h : Hdr) (o : Fin 8) (n : Fin 2) (row : BitVec 6) (part : BitVec 3) (m : Mat), k.Fires s h → k.f.pre.matPre = some m →
    (k.env s h).room o 1 = true → k.f.pre.pend.contains (.acc n) = false → (∀ p ∈ m.a[n].parks, p.row ≠ row.toNat) →
    k.Does s (.mrow h o (.a n) row part) h
      ⟨[.emit o (partialRow m.a[n].rows[row.toFin] row.toNat part.toNat (k.env s h).sl)], none⟩)

/-- The matrix unit: its setup and its steps. Parts: `MatrixSetup`, `MatrixSteps`. -/
def Obligations.MatrixRules : Prop := StatementPart.MatrixSetup ∧ StatementPart.MatrixSteps


namespace Sys2Proof.Claims

/-- Bytes of one element of a format (R266). -/
def elementBytes (t : Tag) : Nat :=
  if t.isB8 then 1 else match t.toNat with | 36 | 37 => 1 | 32 | 33 | 38 | 39 => 2 | 34 | 40 | 41 => 4 | _ => 8

/-- Bytes of a versioned word of a format: 4 or 8; none for every other format (R271). -/
def wordBytes (t : Tag) : Option Nat := match t.toNat with | 34 | 40 | 41 => some 4 | 0 | 42 | 43 => some 8 | _ => none

/-- The loads (R269 to R271, R281) under a handle: bytes, alignment, whether the instruction acts in SPACE 2 only, the request, and the register value of the bytes
read; none where the handle's format is not one the instruction takes. `ld` is versioned under MF bit 2 or the handle's VERS. -/
def loadForm (h : HEntry) : Instr → Option (MLoad × Nat × Nat × Bool × ReqOp × (Nat → VReg))
  | .ld r =>
    if r.m.mf.getLsbD 2 || h.vers then
      (wordBytes h.fmt).map fun w => (r, w, w, true, .ldt w h.fmt.isSigned (r.m.mf.getLsbD 1), fun x => scalarReg (extend h.fmt.isSigned w x))
    else some (r, elementBytes h.fmt, elementBytes h.fmt, false, .load (elementBytes h.fmt) h.fmt.isSigned,
      fun x => scalarReg (extend h.fmt.isSigned (elementBytes h.fmt) x))
  | .ldv r =>
    match h.fmt.toNat with
    | 44 => some (r, 48, 16, false, .loadV 48, fun x => VReg.plain h.fmt x)
    | 45 | 46 => none
    | _ => some (r, 64, 64, false, .loadV 64, fun x => VReg.plain h.fmt x)
  | .ldt r => (wordBytes h.fmt).map fun w => (r, w, w, true, .ldt w h.fmt.isSigned false, fun x => scalarReg (extend h.fmt.isSigned w x))
  | .lds r => (wordBytes h.fmt).map fun w => (r, w, w, true, .ldt w h.fmt.isSigned true, fun x => scalarReg (extend h.fmt.isSigned w x))
  | .ldk r =>
    match h.fmt.toNat with
    | 45 => some (r, 40, 1, false, .loadK, fun x => expandBlocks h.fmt x)
    | 46 => some (r, 56, 1, false, .loadK, fun x => expandBlocks h.fmt x)
    | _ => none
  | .xlat r => some (r, 1, 1, true, .xlat, fun _ => VReg.zero)
  | _ => none

/-- The stores (R269 to R271, R276) of a source vector under a handle: bytes, alignment, SPACE 2 only, request and bytes stored. -/
def storeForm (h : HEntry) (v : VReg) : Instr → Option (MStore × Nat × Nat × Bool × ReqOp × Nat)
  | .st r =>
    if r.m.mf.getLsbD 2 || h.vers then (wordBytes h.fmt).map fun w => (r, w, w, true, .upd 0 w, v.data.toNat % 2 ^ (8 * w))
    else some (r, elementBytes h.fmt, elementBytes h.fmt, false, .store (elementBytes h.fmt), v.data.toNat % 2 ^ (8 * elementBytes h.fmt))
  | .stv r =>
    match h.fmt.toNat with
    | 44 => some (r, 48, 16, false, .store 48, v.data.toNat % 2 ^ 384)
    | 45 | 46 => none
    | _ => some (r, 64, 64, false, .store 64, v.data.toNat % 2 ^ 512)
  | .stw r => (wordBytes h.fmt).map fun w => (r, w, w, true, .upd 0 w, v.data.toNat % 2 ^ (8 * w))
  | .stk r =>
    match h.fmt.toNat with
    | 45 => if v.tag.isB8 then some (r, 40, 1, false, .store 40, packBlocks h.fmt v) else none
    | 46 => if v.tag.isB8 then some (r, 56, 1, false, .store 56, packBlocks h.fmt v) else none
    | _ => none
  | .xred r => if v.tag = 44 then some (r, 48, 16, true, .xred, v.data.toNat % 2 ^ 384) else none
  | _ => none

/-- An address in range of a handle and aligned (R264). -/
def inRange (h : HEntry) (va n align : Nat) : Prop :=
  h.base.toNat ≤ va ∧ va + n ≤ h.base.toNat + h.size.toNat ∧ va % align = 0 ∧ (h.space = .dev ∨ h.space = .peer → va < 2 ^ 55)

/-- A request credit is free, or the access is local and takes none (R230). -/
def hasCredit (k : Slot) (h : HEntry) : Prop := h.space = .loc ∨ k.t.credits < 8

/-- Whether requests through a handle belong to an ordered domain (R231): spaces 2, 3 and 4. -/
def inDomain (h : HEntry) : Bool := h.space == .dev || h.space == .host || h.space == .peer

/-- What the request of a memory rule carries (R230 to R232, R268, R444). -/
structure Asks (k : Slot) (s : State) (m : MHdr) (h : HEntry) (op : ReqOp) (acc va : Nat) (pa : Option PaTok) (dest : Dest) (q : Req) : Prop where
  who : q.st = k.f.st ∧ q.ctx = k.f.ctx ∧ q.slot = k.sl ∧ q.voy = k.f.pre.voy ∧ q.reg = k.f.pre.reg ∧ q.src = .rules ∧ q.time = s.time
  what : q.op = op ∧ q.acc = acc ∧ q.h = h ∧ q.va = va ∧ q.pa = pa ∧ q.dest = dest ∧ q.mf = m.mf
  order : q.pred = m.pred ∧ q.own = m.own ∧ q.succ = m.succ ∧ q.port = if inDomain h then some (k.f.st.die, h.port.toNat) else none
  minor : q.stamp.extractLsb' 0 8 = m.own.setWidth 8
  major : q.stamp.extractLsb' 20 32 = if k.f.pre.ctx[k.f.ctx].running.isSome then k.f.pre.ctx[k.f.ctx].ts else k.f.pre.ctx[k.f.ctx].wave
  slack : q.slack = (k.env s m.hdr).sl
  held : q.credit = true ∧ q.released = false

/-- A rule whose access faults at its station still sends a placeholder to the port of its domain (R232). -/
def placeholder (k : Slot) (s : State) (m : MHdr) (h : HEntry) (x : List Effect) : Prop :=
  if inDomain h then ∃ q, x = [.req q] ∧ Asks k s m h .mnop 0 0 none .none q else x = []

/-- The destination that the memory system owes, and what claims it at the firing (R170): a register becomes pending, an output gives an entry. -/
def owedTo (k : Slot) (s : State) (h : Hdr) (d : Opd) (x : List Effect) (dest : Dest) : Prop :=
  (∃ n, d = .d n ∧ x = [.pend (.d n)] ∧ dest = .d n) ∨ (∃ n, d = .v n ∧ x = [.pend (.v n)] ∧ dest = .v n) ∨
  (∃ n id, d = .o n ∧ id = (k.env s h).s.nextId + 1 ∧ x = [.claimOut n id] ∧ dest = .out n id)

end Sys2Proof.Claims

/-! ### Memory rules at their station (R227-R282) -/

/-- R230 to R232, R263 to R271, R281: each load whose address is in the handle's range, aligned, and in a space the instruction takes: a local one reads the
store as it stood at the start of the cycle and lands after 2 cycles, or raises the corrupt-data fault (INFO 2, R435) where an uncorrectable error stands in
those bytes; any other sends one request and marks its destination as owed. -/
def StatementPart.LoadsReadOrAsk : Prop :=
  ∀ (k : Slot) (s : State) (i : Instr) (r : MLoad) (n align : Nat) (only2 : Bool) (op : ReqOp) (view : Nat → VReg) (x : Val) (va : Nat) (pa : Option PaTok)
    (h : HEntry), h = k.f.pre.h[r.h] → loadForm h i = some (r, n, align, only2, op, view) → k.Fires s r.m.hdr →
    (k.env s r.m.hdr).read r.a = some x → addrOf r.a x = .ok (va, pa) → hasCredit k h → (k.env s r.m.hdr).destReady r.d = true →
    (only2 = true → h.space = .dev) → inRange h va n align →
    (h.space = .loc → k.f.pre.wornIn false va n = true →
      k.Does s i r.m.hdr ⟨((k.env s r.m.hdr).fault 1 x.eff (Opd.out? r.d) ⟨0x0A, 2, 0⟩).now, none⟩) ∧
    (h.space = .loc → k.f.pre.wornIn false va n = false → k.Does s i r.m.hdr
      (((k.env s r.m.hdr).write 2 r.d (Token.vec (view (Memory.read k.f.pre.store va n)) (k.env s r.m.hdr).sl)).after x.eff)) ∧
    (h.space ≠ .loc → (∀ n, r.d ≠ .h n) → ∃ eff dest q, owedTo k s r.m.hdr r.d eff dest ∧ Asks k s r.m h op 0 va pa dest q ∧
      k.Does s i r.m.hdr ⟨x.eff ++ eff ++ [.req q], none⟩)

/-- R264, R267, R232: a load outside the handle's range, misaligned, or in a space that its instruction does not take, faults at the station: bounds with
INFO 0 or 1, or the translation fault of kind 0, with ADDR the address; the fault goes out on an output destination or to the queue, and a placeholder keeps
the order of the domain. Of an access with several of these the space is checked first, then the range, then the alignment, which is the model's choice
(log 27). -/
def StatementPart.LoadsFaultAtTheStation : Prop :=
  ∀ (k : Slot) (s : State) (i : Instr) (r : MLoad) (n align : Nat) (only2 : Bool) (op : ReqOp) (view : Nat → VReg) (x : Val) (va : Nat) (pa : Option PaTok)
    (h : HEntry), h = k.f.pre.h[r.h] → loadForm h i = some (r, n, align, only2, op, view) → k.Fires s r.m.hdr →
    (k.env s r.m.hdr).read r.a = some x → addrOf r.a x = .ok (va, pa) → hasCredit k h → (k.env s r.m.hdr).destReady r.d = true →
    ∀ f : FaultC,
      ((only2 = true ∧ h.space ≠ .dev ∧ f = ⟨0x03, 0, va⟩) ∨
       ((only2 = false ∨ h.space = .dev) ∧ (va < h.base.toNat ∨ h.base.toNat + h.size.toNat < va + n ∨
          ((h.space = .dev ∨ h.space = .peer) ∧ 2 ^ 55 ≤ va)) ∧ f = ⟨0x02, 0, va⟩) ∨
       ((only2 = false ∨ h.space = .dev) ∧ h.base.toNat ≤ va ∧ va + n ≤ h.base.toNat + h.size.toNat ∧
          (h.space = .dev ∨ h.space = .peer → va < 2 ^ 55) ∧ va % align ≠ 0 ∧ f = ⟨0x02, 1, va⟩)) →
      ∃ ph, placeholder k s r.m h ph ∧
        k.Does s i r.m.hdr ⟨((k.env s r.m.hdr).fault 1 x.eff (Opd.out? r.d) f).now ++ ph, none⟩

/-- R263 to R271, R273, R276: each store whose address is in range, aligned, and in a space the instruction takes: a local one writes the store (the shadow
bank of a phase handle) at the end of the cycle; any other sends one request with the bytes; a task handler's store outside device memory raises the task
fault and stores nothing. -/
def StatementPart.StoresWriteOrAsk : Prop :=
  ∀ (k : Slot) (s : State) (i : Instr) (r : MStore) (n align : Nat) (only2 : Bool) (op : ReqOp) (data : Nat) (x y : Val) (eff : List Effect) (va : Nat)
    (pa : Option PaTok) (h : HEntry), h = k.f.pre.h[r.h] → storeForm h y.vreg i = some (r, n, align, only2, op, data) → k.Fires s r.m.hdr →
    (k.env s r.m.hdr).read2 r.a r.s = some (x, y, eff) → addrOf r.a x = .ok (va, pa) → hasCredit k h →
    (only2 = true → h.space = .dev) → inRange h va n align →
    (k.f.pre.ctx[k.f.ctx].running = none → h.space = .loc →
      k.Does s i r.m.hdr ⟨eff ++ [.writeLocal (h.kind == .phase) va n (BitVec.ofNat 512 data)], none⟩) ∧
    ((k.f.pre.ctx[k.f.ctx].running = none ∨ h.space = .dev) → h.space ≠ .loc →
      ∃ q, (∃ acc, Asks k s r.m h op acc va pa .none q) ∧ q.data = BitVec.ofNat 512 data ∧ k.Does s i r.m.hdr ⟨eff ++ [.req q], none⟩) ∧
    (k.f.pre.ctx[k.f.ctx].running ≠ none → h.space ≠ .dev →
      ∃ ph, placeholder k s r.m h ph ∧ k.Does s i r.m.hdr
        ⟨eff ++ [.taskFault (faultToken k.f.pre k.f.ctx k.sl (k.env s r.m.hdr).sl ⟨0x07, k.f.pre.ctx[k.f.ctx].ts.toNat, va⟩)] ++ ph, none⟩)

/-- R265, R271, R274, R275, R277: the updates through a request vector: `updw` and `red` send one update, `atom` one whose result is owed to D, and `mcst` the
stores of its replicas with a token of address and value. -/
def StatementPart.UpdatesAsk : Prop :=
  (∀ (k : Slot) (s : State) (i : Instr) (r : MUpd) (x : Val) (v : RVec) (h : HEntry), h = k.f.pre.h[r.h] → (i = .updw r ∨ i = .red r) →
    k.Fires s r.m.hdr → (k.env s r.m.hdr).read r.r = some x → rvecOf x.vreg = .ok v → k.t.credits < 8 → h.space = .dev →
    inRange h v.va (opWidth r.op) (opWidth r.op) →
    ∃ q, Asks k s r.m h (match i with | .updw _ => .upd r.op (opWidth r.op) | _ => .red r.op (opWidth r.op)) 2 v.va v.pa .none q ∧
      q.data = BitVec.ofNat 512 v.x ∧ q.y = BitVec.ofNat 64 v.y ∧ k.Does s i r.m.hdr ⟨x.eff ++ [.req q], none⟩) ∧
  (∀ (k : Slot) (s : State) (r : MLoad) (x : Val) (v : RVec) (h : HEntry), h = k.f.pre.h[r.h] → k.Fires s r.m.hdr →
    (k.env s r.m.hdr).read r.a = some x → rvecOf x.vreg = .ok v → v.op ≤ 13 → k.t.credits < 8 → (k.env s r.m.hdr).destReady r.d = true →
    (∀ n, r.d ≠ .h n) → h.space = .dev → inRange h v.va (opWidth (BitVec.ofNat 6 v.op)) (opWidth (BitVec.ofNat 6 v.op)) →
    k.f.pre.ctx[k.f.ctx].running = none →
    ∃ eff dest q, owedTo k s r.m.hdr r.d eff dest ∧
      Asks k s r.m h (.atom (BitVec.ofNat 6 v.op) (opWidth (BitVec.ofNat 6 v.op))) 3 v.va v.pa dest q ∧
      q.data = BitVec.ofNat 512 v.x ∧ q.y = BitVec.ofNat 64 v.y ∧ k.Does s (.atom r) r.m.hdr ⟨x.eff ++ eff ++ [.req q], none⟩) ∧
  (∀ (k : Slot) (s : State) (r : MLoad) (x : Val) (v : RVec) (h : HEntry), h = k.f.pre.h[r.h] → k.Fires s r.m.hdr →
    (k.env s r.m.hdr).read r.a = some x → rvecOf x.vreg = .ok v → k.t.credits < 8 → (k.env s r.m.hdr).destReady r.d = true →
    h.space = .dev → Nat.max h.dcnt.toNat 1 ≤ 16 → inRange h v.va 8 8 →
    ∃ q, Asks k s r.m h (.store 8) 1 v.va v.pa .none q ∧ q.data = BitVec.ofNat 512 (v.x % 2 ^ 64) ∧
      q.parts = (List.range (Nat.max h.dcnt.toNat 1)).map (fun j => (v.va + j * h.size.toNat, 0, 8)) ∧
      k.Does s (.mcst r) r.m.hdr (((k.env s r.m.hdr).write 1 r.d
        (Token.vec (VReg.plain 43 (v.va + v.x % 2 ^ 64 * 2 ^ 64)) (k.env s r.m.hdr).sl)).after (x.eff ++ [.req q])))

/-- R272, R278 to R280, R282: `reclaim` and `settle` send their request in SPACE 2; `pref` and `disc` send a hint through a handle of a domain and do
nothing through any other (the model's choice where the spec names no effect, log 35); `mnop` sends a placeholder; `cpy` and `cpyw` send the request of a
copy and start it; `fence`, `acq` and `rel` hold back the later rules of their context. -/
def Obligations.LinesCopiesAndFences : Prop :=
  (∀ (k : Slot) (s : State) (m : MHdr) (n : Fin 16) (a : Opd) (x : Val) (va : Nat) (pa : Option PaTok) (h : HEntry), h = k.f.pre.h[n] →
    k.Fires s m.hdr → (k.env s m.hdr).read a = some x → addrOf a x = .ok (va, pa) → k.t.credits < 8 → h.space = .dev → inRange h va 128 1 →
    ∃ q, Asks k s m h .reclaim 2 va pa .none q ∧ k.Does s (.reclaim m n a) m.hdr ⟨x.eff ++ [.req q], none⟩) ∧
  (∀ (k : Slot) (s : State) (m : MHdr) (n : Fin 16) (h : HEntry), h = k.f.pre.h[n] → k.Fires s m.hdr → k.t.credits < 8 → h.space = .dev →
    ∃ q, Asks k s m h .settle 2 0 none .none q ∧ k.Does s (.settle m n) m.hdr ⟨[.req q], none⟩) ∧
  (∀ (k : Slot) (s : State) (i : Instr) (r : MLine) (x : Val) (va : Nat) (pa : Option PaTok) (h : HEntry), h = k.f.pre.h[r.h] →
    (i = .pref r ∨ i = .disc r) → k.Fires s r.m.hdr → (k.env s r.m.hdr).read r.a = some x → addrOf r.a x = .ok (va, pa) → hasCredit k h →
    (inDomain h = true → ∃ q, Asks k s r.m h (match i with | .pref _ => .pref (r.n1.toNat + 1) | _ => .disc (r.n1.toNat + 1)) 0 va pa .none q ∧
      k.Does s i r.m.hdr ⟨x.eff ++ [.req q], none⟩) ∧
    (inDomain h = false → k.Does s i r.m.hdr ⟨x.eff, none⟩)) ∧
  (∀ (k : Slot) (s : State) (m : MHdr) (n : Fin 16) (h : HEntry), h = k.f.pre.h[n] → k.Fires s m.hdr → hasCredit k h →
    ∃ ph, placeholder k s m h ph ∧ k.Does s (.mnop m n) m.hdr ⟨ph, none⟩) ∧
  (∀ (k : Slot) (s : State) (i : Instr) (r : MCopy) (vs : List VReg) (eff : List Effect) (c : CopyDesc) (hd hs : HEntry), hd = k.f.pre.h[r.dst] →
    hs = k.f.pre.h[r.src] → k.Fires s r.m.hdr →
    ((i = .cpy r ∧ ∃ x, (k.env s r.m.hdr).read r.q = some x ∧ vs = [x.vreg] ∧ eff = x.eff ∧
        copyDesc ((List.range 8).map (lane64 x.vreg)) 3 = .ok c) ∨
     (i = .cpyw r ∧ ∃ n : Fin 8, r.q = .v n ∧ vs = [k.f.pre.v[n], k.f.pre.v[n + 1], k.f.pre.v[n + 2], k.f.pre.v[n + 3]] ∧ eff = [] ∧
        (∀ j ∈ [n, n + 1, n + 2, n + 3], k.f.pre.pend.contains (.v j) = false) ∧
        copyDesc (vs.flatMap fun v => (List.range 8).map (lane64 v)) 12 = .ok c)) →
    (∀ v ∈ vs, v.tag = 43) → k.t.credits < 8 → k.t.copies < 128 → copyChecks k.f.pre hd hs c = .ok () →
    (k.f.pre.ctx[k.f.ctx].running = none ∨ hd.space = .dev) →
    ∃ q y, Asks k s r.m (if hd.port = 127 then hs else hd) (.copy y.id) 4 c.dst.toNat none .none q ∧
      y.req = q.id ∧ y.src = ⟨hs, c.src⟩ ∧ y.dst = ⟨hd, c.dst⟩ ∧ y.l0 = c.l0 ∧ y.dims = c.dims ∧ y.pos = 0 ∧ y.run = false ∧
      (∀ n : Fin 16, c.ch = n.val → y.ch = some n) ∧ (c.ch = 31 → y.ch = none) ∧
      k.Does s i r.m.hdr ⟨eff ++ [.req q, .copy y], none⟩) ∧
  (∀ (k : Slot) (s : State) (m : MHdr) (sc : Scope), k.Fires s m.hdr →
    k.Does s (.fence m sc) m.hdr ⟨[.hold ⟨.fence, sc, s.time, k.sl⟩], none⟩ ∧
    k.Does s (.acq m sc) m.hdr ⟨[.hold ⟨.acq, sc, s.time, k.sl⟩], none⟩ ∧
    k.Does s (.rel m sc) m.hdr ⟨[.hold ⟨.rel, sc, s.time, k.sl⟩], none⟩)

/-- Loads: local ones read, others ask their port, and both fault at the station where the handle says so. Parts: `LoadsReadOrAsk`, `LoadsFaultAtTheStation`. -/
def Obligations.LoadsReadAskOrFault : Prop := StatementPart.LoadsReadOrAsk ∧ StatementPart.LoadsFaultAtTheStation

/-- R4, R153, R161, R191: what a store and an element leave in a station's banks. A store of n bytes writes them, lowest first, from its address in the bank that
it names, and no byte beside them; an element that lands writes the 64 bytes of the slot that its claim holds (the shadow bank's for a phase handle, the local
store's for a ring), PCNT advances past it once no earlier claim of the handle stands open, and a claim takes the slot behind those that stand. -/
def StatementPart.StoresLandInTheBank : Prop :=
  ∀ (t : Station) (w : Who), Memory.wf t.store = true → Memory.wf t.shadow = true →
    (∀ (sh : Bool) (a n b : Nat) (x : V512), bank (t.apply w (.writeLocal sh a n x)) (!sh) = bank t (!sh) ∧
      Memory.get (bank (t.apply w (.writeLocal sh a n x)) sh) b =
        if a ≤ b ∧ b < a + n then BitVec.ofNat 8 (x.toNat / 2 ^ (8 * (b - a))) else Memory.get (bank t sh) b) ∧
    (∀ (n : Fin 16) (id b : Nat) (x : V512) (c : HClaim) (a : Nat) (sh : Bool), t.claims.find? (fun c => c.h = n && c.id == id) = some c →
      sh = (t.h[n].kind == .phase) → a = t.h[n].base.toNat + 64 * (c.slot.toNat % (t.h[n].size.toNat / 64)) →
      bank (t.apply w (.landElem n id x)) (!sh) = bank t (!sh) ∧
      Memory.get (bank (t.apply w (.landElem n id x)) sh) b =
        if a ≤ b ∧ b < a + 64 then BitVec.ofNat 8 (x.toNat / 2 ^ (8 * (b - a))) else Memory.get (bank t sh) b) ∧
    (∀ (n : Fin 16) (id : Nat) (x : V512) (c : HClaim) (r : List HClaim), t.claims = c :: r → c.h = n → (∀ d ∈ r, d.h = n → d.landed = false ∧ d.id ≠ id) →
      c.id = id → (t.apply w (.landElem n id x)).claims = r ∧ (t.apply w (.landElem n id x)).h[n] = { t.h[n] with pcnt := t.h[n].pcnt + 1 }) ∧
    (∀ (n : Fin 16) (id : Nat) (x : V512) (c : HClaim) (r : List HClaim), t.claims = c :: r → c.h = n → c.id ≠ id → c.landed = false →
      (t.apply w (.landElem n id x)).h[n] = t.h[n]) ∧
    (∀ (n : Fin 16) (id : Nat), (t.apply w (.claimElem n id)).claims =
      t.claims ++ [⟨n, id, t.h[n].pcnt + BitVec.ofNat 32 (t.claims.filter (fun c => c.h = n)).length, false⟩])

/-- Stores, reductions and atomics: local ones write, others ask their port; and what a store leaves in a bank. Parts: `StoresWriteOrAsk`, `UpdatesAsk`,
`StoresLandInTheBank`. -/
def Obligations.StoresAndUpdates : Prop := StatementPart.StoresWriteOrAsk ∧ StatementPart.UpdatesAsk ∧ StatementPart.StoresLandInTheBank


namespace Sys2Proof.Claims

/-- The instance of a scope that a station lies in: its quad, its die, or the whole (R287). -/
def instanceOf (sc : Scope) (i : StId) : Nat :=
  match sc with
  | .quad => (i.die * 64 + i.x / 2) * 64 + i.y / 2
  | .die => i.die
  | _ => 0

/-- A message of the firing context to a barrier entry, not yet on its way (R289). -/
def barrierMsg (k : Slot) (s : State) (h : Hdr) (sc : Scope) (id : BitVec 6) (op : BarOp) (left : Nat) : BarMsg :=
  ⟨⟨k.f.pre.voy, sc, instanceOf sc k.f.st, id⟩, op, k.f.st, k.f.ctx, k.sl, s.time, (k.env s h).sl, left, none⟩

end Sys2Proof.Claims

/-! ### Synchronisation and tasks (R286-R291) -/

/-- R287 to R291: `bar` and `bars` send an arrival of n to their entry (`bars` with the handle to swap), `bard` a drop; `barw` reads the phase once the context's
own arrival, if any, is counted and its phase has completed, and acts as `acq`; `monw` and `monc` arm a monitor on an aligned doubleword of device memory,
at most 8 at a station; `tspawn` gives the sequencer of the die a task for a handler that some station of the die hosts (bounds fault with INFO the handler
otherwise); `tdone` ends the running task. -/
def Obligations.SyncAndTaskRules : Prop :=
  (∀ (k : Slot) (s : State) (r : SBar) (x : Val), k.Fires s r.hdr → (k.env s r.hdr).readOne r.n = some x →
    ∃ left, 0 < left ∧
    k.Does s (.bar r) r.hdr ⟨x.eff ++ [.bar (barrierMsg k s r.hdr r.scope r.id (.arrive x.word.toNat) left)], none⟩ ∧
    k.Does s (.bars r) r.hdr ⟨x.eff ++ [.bar (barrierMsg k s r.hdr r.scope r.id (.arriveSwap x.word.toNat r.h) left)], none⟩) ∧
  (∀ (k : Slot) (s : State) (h : Hdr) (sc : Scope) (id : BitVec 6), k.Fires s h →
    ∃ left, 0 < left ∧ k.Does s (.bard h sc id) h ⟨[.bar (barrierMsg k s h sc id .drop left)], none⟩) ∧
  (∀ (k : Slot) (s : State) (h : Hdr) (d : Opd) (sc : Scope) (id : BitVec 6) (ph : BitVec 32), k.Fires s h →
    ph = s.phase ⟨k.f.pre.voy, sc, instanceOf sc k.f.st, id⟩ → (k.env s h).destReady d = true → (k.env s h).destBad d = false →
    ((∀ a ∈ k.f.pre.ctx[k.f.ctx].arrs, a.key = ⟨k.f.pre.voy, sc, instanceOf sc k.f.st, id⟩ →
        a.pending = false ∧ ∀ n, a.ph = some n → n.toNat < ph.toNat) →
      k.Does s (.barw h d sc id) h
        (((k.env s h).write 1 d (Token.scalar (ph.setWidth 64) (k.env s h).sl)).after [.hold ⟨.acq, sc, s.time, k.sl⟩])) ∧
    (∀ a rest, k.f.pre.ctx[k.f.ctx].arrs = a :: rest → a.key = ⟨k.f.pre.voy, sc, instanceOf sc k.f.st, id⟩ →
      (a.pending = true ∨ ∃ n, a.ph = some n ∧ ph.toNat ≤ n.toNat) →
      exec (.barw h d sc id) s = .next (s.slotTaken k.f k.rest))) ∧
  (∀ (k : Slot) (s : State) (hdr : Hdr) (d : Opd) (n : Fin 16) (a : Opd) (x : Val) (va : Nat) (pa : Option PaTok) (h : HEntry), h = k.f.pre.h[n] →
    k.Fires s hdr → (k.env s hdr).read a = some x → addrOf a x = .ok (va, pa) → k.t.mons < 8 → (k.env s hdr).destReady d = true →
    (∀ n, d ≠ .h n) → h.space = .dev → inRange h va 8 8 →
    ∃ eff dest q, owedTo k s hdr d eff dest ∧ q.op = .monw ∧ q.va = va ∧ q.pa = pa ∧ q.dest = dest ∧ q.credit = false ∧ q.st = k.f.st ∧ q.h = h ∧
      q.port = some (k.f.st.die, h.port.toNat) ∧ k.Does s (.monw hdr d n a) hdr ⟨x.eff ++ eff ++ [.req q], none⟩) ∧
  (∀ (k : Slot) (s : State) (hdr : Hdr) (d : Fin 8) (n : Fin 16) (a : Opd) (x : Val) (va : Nat) (pa : Option PaTok) (h : HEntry), h = k.f.pre.h[n] →
    k.Fires s hdr → (k.env s hdr).read a = some x → addrOf a x = .ok (va, pa) → k.t.mons < 8 → (k.env s hdr).destReady (.d d) = true →
    h.space = .dev → inRange h va 8 8 →
    ∃ q, q.op = .monc k.f.pre.d[d] ∧ q.va = va ∧ q.pa = pa ∧ q.dest = .d d ∧ q.credit = false ∧ q.st = k.f.st ∧ q.h = h ∧
      q.port = some (k.f.st.die, h.port.toNat) ∧ k.Does s (.monc hdr d n a) hdr ⟨x.eff ++ [.pend (.d d)] ++ [.req q], none⟩) ∧
  (∀ (k : Slot) (s : State) (h : Hdr) (n : BitVec 6) (ts args : Opd) (x y : Val) (eff : List Effect), k.Fires s h →
    (k.env s h).read2 ts args = some (x, y, eff) → x.bad = false → y.bad = false → (s.tasks.filter (fun t => t.die == k.f.st.die)).length < 4096 →
    ((∃ t ∈ s.stations, t.voy = k.f.pre.voy ∧ t.id.die = k.f.st.die ∧ ∃ p ∈ t.handler, p.2 = n.toNat) →
      k.Does s (.tspawn h n ts args) h ⟨eff ++ [.spawn (x.word.setWidth 32) n.toNat y.vreg], none⟩) ∧
    ((∀ t ∈ s.stations, t.voy = k.f.pre.voy → t.id.die = k.f.st.die → ∀ p ∈ t.handler, p.2 ≠ n.toNat) →
      k.Does s (.tspawn h n ts args) h ((k.env s h).fault 1 eff none ⟨0x02, n.toNat, 0⟩))) ∧
  (∀ (k : Slot) (s : State) (h : Hdr), k.Fires s h → k.Does s (.tdone h) h ⟨[.taskDone], none⟩)


namespace Sys2Proof.Claims

/-- The binding of a query register is sound (R393): its parameters are those of a tree, its handles are plain handles of device memory, the token pages start on
a page, the node array on a node, and the head exists. -/
def boundTree (k : Slot) (s : State) (h : Hdr) (q : QReg) (p : TPar) (hn ht : HEntry) : Prop :=
  (k.env s h).binding q = .ok (p, hn, ht)

/-- The job of the tree engine that a firing hands over. -/
structure Hands (k : Slot) (s : State) (h : Hdr) (q : Fin 4) (op : TreeOp) (h1 h2 : HEntry) (dest : Dest) (j : TreeJob) : Prop where
  what : j.q = q ∧ j.op = op ∧ j.h1 = h1 ∧ j.h2 = h2
  who : j.ctx = k.f.ctx ∧ j.slot = k.sl ∧ j.dest = dest ∧ j.slack = (k.env s h).sl
  fresh : j.locks = [] ∧ j.wait = none ∧ j.memo = [] ∧ j.step = .plan ∧ j.pages = [] ∧ j.bad = none ∧ j.time = s.time

/-- The engine of the station is free and D can be owed a completion. -/
def engineReady (k : Slot) (s : State) (h : Hdr) (d : Opd) : Prop :=
  (∃ x, k.t.sd = some x ∧ x.eng = none) ∧ (k.env s h).destReady d = true ∧ ∀ n, d ≠ .h n

end Sys2Proof.Claims

/-! ### Sounding instructions (R378-R401) -/

/-- R389, R393, R395 to R397: with the engine free, `tins`, `tseal`, `tdrop`, `tfork` (both forms) and `twalk` hand their operation to it and claim their
destination; a binding that is not sound takes the bounds fault with INFO 1 instead, and pages that a fork's handles do not hold take INFO 6. -/
def Obligations.TreeOperationsHandedOver : Prop :=
  (∀ (k : Slot) (s : State) (r : TOp) (x y : Val) (eff : List Effect) (sd : Sd) (p : TPar) (hn ht : HEntry) (i : Instr) (op : TreeOp), k.Fires s r.hdr →
    engineReady k s r.hdr r.d → k.f.pre.sd = some sd → boundTree k s r.hdr sd.q[r.q] p hn ht →
    ((i = .tins r ∧ (k.env s r.hdr).read r.a = some x ∧ eff = x.eff ∧ op = .tins x.word.toNat) ∨
     (i = .tseal r ∧ (k.env s r.hdr).read r.a = some x ∧ eff = x.eff ∧ op = .tseal x.word.toNat) ∨
     (i = .tdrop r ∧ (k.env s r.hdr).read2 r.a r.b = some (x, y, eff) ∧ op = .tdrop x.word.toNat y.word.toNat)) →
    ∃ own dest j, owedTo k s r.hdr r.d own dest ∧ Hands k s r.hdr r.q op hn ht dest j ∧ k.Does s i r.hdr ⟨eff ++ own ++ [.engine (some j)], none⟩) ∧
  (∀ (k : Slot) (s : State) (r : TOp) (x : Val) (sd : Sd) (f : FaultC) (i : Instr), k.Fires s r.hdr →
    engineReady k s r.hdr r.d → k.f.pre.sd = some sd → (k.env s r.hdr).binding sd.q[r.q] = .error f →
    (i = .tins r ∨ i = .tseal r) → (k.env s r.hdr).read r.a = some x →
    f = ⟨0x02, 1, 0⟩ ∧ k.Does s i r.hdr ((k.env s r.hdr).fault 1 x.eff (Opd.out? r.d) f)) ∧
  (∀ (k : Slot) (s : State) (h : Hdr) (d : Opd) (hd hs : Fin 16) (n : Opd) (x : Val), k.Fires s h → engineReady k s h d →
    (k.env s h).read n = some x →
    (k.f.pre.h[hd].forkable = true → k.f.pre.h[hs].forkable = true → x.word.toNat * 65536 ≤ k.f.pre.h[hd].size.toNat →
      x.word.toNat * 65536 ≤ k.f.pre.h[hs].size.toNat →
      ∃ own dest j, owedTo k s h d own dest ∧ Hands k s h 0 (.forkPages x.word.toNat) k.f.pre.h[hd] k.f.pre.h[hs] dest j ∧
        k.Does s (.tforkPages h d hd hs n) h ⟨x.eff ++ own ++ [.engine (some j)], none⟩) ∧
    (k.f.pre.h[hd].size.toNat < x.word.toNat * 65536 →
      k.Does s (.tforkPages h d hd hs n) h ((k.env s h).fault 1 x.eff (Opd.out? d) ⟨0x02, 6, 0⟩))) ∧
  (∀ (k : Slot) (s : State) (h : Hdr) (d : Opd) (hd he : Fin 16) (n : Opd) (q : Fin 4) (x : Val) (sd : Sd) (p : TPar) (hn ht : HEntry), k.Fires s h →
    engineReady k s h d → (k.env s h).read n = some x → k.f.pre.sd = some sd → boundTree k s h sd.q[q] p hn ht →
    (∀ e ∈ [k.f.pre.h[hd], k.f.pre.h[he], hn, ht], e.forkable = true) → hn.size.toNat / 65536 * 65536 ≤ k.f.pre.h[hd].size.toNat →
    x.word.toNat * 65536 ≤ k.f.pre.h[he].size.toNat → x.word.toNat * 65536 ≤ ht.size.toNat →
    ∃ own dest j, owedTo k s h d own dest ∧ Hands k s h q (.forkTree x.word.toNat) hn ht dest j ∧ j.h3 = k.f.pre.h[hd] ∧ j.h4 = k.f.pre.h[he] ∧
      k.Does s (.tforkTree h d hd he n q) h ⟨x.eff ++ own ++ [.engine (some j)], none⟩) ∧
  (∀ (k : Slot) (s : State) (h : Hdr) (d : Opd) (q : Fin 4) (v : Fin 8) (screen : Bool) (sd : Sd) (p : TPar) (hn ht : HEntry), k.Fires s h →
    engineReady k s h d → k.f.pre.sd = some sd → boundTree k s h sd.q[q] p hn ht → v.val + p.d / 16 ≤ 8 →
    (∀ n : Fin 8, v.val ≤ n.val → n.val < v.val + p.d / 16 → k.f.pre.pend.contains (.v n) = false ∧ k.f.pre.v[n].tag = 34) →
    ∃ own dest j y w, owedTo k s h d own dest ∧ Hands k s h q .walk hn ht dest j ∧
      y.state = 1 ∧ y.walk = some w ∧ w.screen = screen ∧ w.frontier = [] ∧ y.visits = 0 ∧ y.rstrt = 0 ∧ y.pauses = 0 ∧
      y.param = sd.q[q].param ∧ y.head = sd.q[q].head ∧ y.out = sd.q[q].out ∧
      k.Does s (.twalk h d q v screen) h ⟨.setQ q y :: own ++ [.engine (some j)], none⟩)

/-- R393, R398 to R401: `tpar` sets parameters, handles and head of a query register that the engine does not hold; `tres` reads 16 lanes of the output, `tstat` a status
word, `tsum` the candidates' shares of a paused walk; `tscr` gives a paused walk its hints and lets it resume at the end of the cycle, if it is still paused (R404);
`tchk` reads the progress of a walk or ends
it, filling the destination it claimed with zero and giving back the root's lock, by a store of its version plus 2, where the walk holds it. -/
def Obligations.QueryRegisterRules : Prop :=
  (∀ (k : Slot) (s : State) (h : Hdr) (q : Fin 4) (a : Opd) (hn ht : Fin 16) (head : BitVec 4) (x : Val) (sd : Sd), k.Fires s h →
    (k.env s h).read a = some x → k.f.pre.sd = some sd → (∀ j, sd.eng = some j → j.q ≠ q) →
    k.Does s (.tpar h q a hn ht head) h
      ⟨x.eff ++ [.setQ q { sd.q[q] with param := x.tok.data, head := head, hn := BitVec.ofNat 4 hn.val, ht := BitVec.ofNat 4 ht.val }], none⟩) ∧
  (∀ (k : Slot) (s : State) (h : Hdr) (d : Opd) (q : Fin 4) (p : BitVec 3) (sd : Sd), k.Fires s h → k.f.pre.sd = some sd → sd.q[q].state ≠ 1 →
    (k.env s h).destReady d = true → (k.env s h).destBad d = false →
    (p.toNat < sd.q[q].dim / 16 → k.Does s (.tres h d q p) h ((k.env s h).write 1 d (Token.vec (VReg.plain 34 (packLanes 32
      ((List.range 16).map fun i => (sd.q[q].out.getD (16 * p.toNat + i) 0).toNat))) (k.env s h).sl))) ∧
    (sd.q[q].dim / 16 ≤ p.toNat → k.Does s (.tres h d q p) h ((k.env s h).fault 1 [] (Opd.out? d) ⟨0x02, 11, 0⟩))) ∧
  (∀ (k : Slot) (s : State) (h : Hdr) (d : Opd) (q : Fin 4) (w : BitVec 2) (sd : Sd), k.Fires s h → k.f.pre.sd = some sd → sd.q[q].state ≠ 1 →
    (k.env s h).destReady d = true → (k.env s h).destBad d = false →
    ∃ x : Word, (w = 0 → x = sd.q[q].usum ++ sd.q[q].dsum) ∧ (w = 1 → x = sd.q[q].m ++ sd.q[q].llo) ∧
      (w = 2 → x.extractLsb' 0 32 = sd.q[q].visits ∧ x.extractLsb' 32 3 = sd.q[q].stop ∧ x.extractLsb' 36 3 = sd.q[q].rstrt ∧
        x.extractLsb' 40 4 = sd.q[q].pauses ∧ x.extractLsb' 44 4 = sd.q[q].state) ∧
      (w = 3 → x = sd.q[q].rootver) ∧
      k.Does s (.tstat h d q w) h ((k.env s h).write 1 d (Token.scalar x (k.env s h).sl))) ∧
  (∀ (k : Slot) (s : State) (h : Hdr) (d : Opd) (q : Fin 4) (delta : Bool) (sd : Sd) (w : Walk), k.Fires s h → k.f.pre.sd = some sd →
    sd.q[q].walk = some w → sd.q[q].state = 2 → (k.env s h).destReady d = true → (k.env s h).destBad d = false →
    ∃ xs : List Sys2Proof.Num, xs = w.cands.map (fun f => of32 (if delta then f.delta else f.mu)) ∧
      k.Does s (.tsum h d q delta) h ((k.env s h).write 1 d (Token.vec (VReg.plain 39 (packLanes 16
        ((xs.map fun x => share16 x (xs.foldl Sys2Proof.Num.max (.zero false))) ++ List.replicate (16 - xs.length) 0 ++ [xs.length])))
        (k.env s h).sl))) ∧
  (∀ (k : Slot) (s : State) (h : Hdr) (q : Fin 4) (a : Opd) (x : Val) (sd : Sd) (w : Walk), k.Fires s h → (k.env s h).read a = some x →
    k.f.pre.sd = some sd → sd.q[q].walk = some w → sd.q[q].state = 2 →
    (x.vreg.tag = 37 → k.Does s (.tscr h q a) h ⟨x.eff ++ [.hints q ((List.range 16).map fun i => laneAt x.vreg.data.toNat 8 i)], none⟩) ∧
    (x.vreg.tag ≠ 37 → k.Does s (.tscr h q a) h ((k.env s h).fault 1 x.eff none ⟨0x01, x.vreg.tag.toNat, 0⟩))) ∧
  (∀ (t : Station) (o : Who) (q : Fin 4) (hs : List Nat) (sd : Sd) (w : Walk), t.sd = some sd → sd.q[q].walk = some w →
    t.apply o (.hints q hs) = { t with sd := some { sd with q := sd.q.set q (if sd.q[q].state = 2 then
      { sd.q[q] with state := 1, walk := some { w with paused := false, cands := [], hints := hintList w.cands hs } } else sd.q[q]) } }) ∧
  (∀ (k : Slot) (s : State) (h : Hdr) (d : Opd) (q : Fin 4) (sd : Sd) (w : Walk), k.Fires s h → k.f.pre.sd = some sd → sd.q[q].walk = some w →
    (k.env s h).destReady d = true → (k.env s h).destBad d = false →
    ∃ x : Word, x.getLsbD 0 = (sd.q[q].state == 1) ∧ x.getLsbD 1 = (sd.q[q].state == 2) ∧ x.getLsbD 2 = w.resumed ∧
      x.extractLsb' 8 8 = BitVec.ofNat 8 w.frontier.length ∧ x.extractLsb' 32 32 = BitVec.ofNat 32 w.leaves ∧
      k.Does s (.tchkQuery h d q) h ((k.env s h).write 1 d (Token.scalar x (k.env s h).sl))) ∧
  (∀ (k : Slot) (s : State) (h : Hdr) (d : Opd) (q : Fin 4) (sd : Sd), k.Fires s h → k.f.pre.sd = some sd →
    (k.env s h).destReady d = true → (k.env s h).destBad d = false →
    (∀ j, sd.eng = some j → j.q = q → j.op = .walk → (sd.q[q].state = 1 ∨ sd.q[q].state = 2) → j.locks = [] →
      k.Does s (.tchkAbort h d q) h (((k.env s h).write 1 d (Token.scalar (sd.q[q].visits.setWidth 64) (k.env s h).sl)).after
        ((match j.dest with
          | .out o id => [.fillOut o id (Token.scalar 0 j.slack)]
          | .d n => [.setD n 0, .unpend (.d n)]
          | _ => []) ++
         [.setQ q { sd.q[q] with out := List.replicate sd.q[q].dim 0, stop := 5, state := 3 }, .engine none]))) ∧
    (∀ j n v more, sd.eng = some j → j.q = q → j.op = .walk → (sd.q[q].state = 1 ∨ sd.q[q].state = 2) → j.locks = (n, v) :: more →
      ∃ r : Req, r.op = .store 8 ∧ r.h = j.h1 ∧ r.va = j.h1.base.toNat + 0x10 ∧ r.data = BitVec.ofNat 512 (v + 2).toNat ∧ r.dest = .none ∧
        k.Does s (.tchkAbort h d q) h (((k.env s h).write 1 d (Token.scalar (sd.q[q].visits.setWidth 64) (k.env s h).sl)).after
          ((match j.dest with
            | .out o id => [.fillOut o id (Token.scalar 0 j.slack)]
            | .d n => [.setD n 0, .unpend (.d n)]
            | _ => []) ++
           [.req r, .setQ q { sd.q[q] with out := List.replicate sd.q[q].dim 0, stop := 5, state := 3 }, .engine none]))) ∧
    (sd.eng = none → k.Does s (.tchkAbort h d q) h ((k.env s h).write 1 d (Token.scalar 0 (k.env s h).sl))))


namespace Sys2Proof.Claims

/-- Length of a length code (R412): 64, 256, 1024, 4096. -/
def streamLen (lc : BitVec 3) : Nat := match lc.toNat with | 0 => 0 | 1 => 64 | 2 => 256 | 3 => 1024 | 4 => 4096 | n => 64 * 4 ^ (n - 1)

/-- c(L) of Table 20.5. -/
def streamCycles (l : Nat) : Nat := Nat.max 1 (l / 256)

/-- The instructions on two streams (Table 20.3, R421): the function of two bits, and whether the masks must be disjoint (else they must name one common
class). -/
def twoStreams : Instr → Option (ZBin × (Bool → Bool → Bool) × Bool)
  | .sand r => some (r, fun a b => a && b, true)
  | .sxnor r => some (r, fun a b => a == b, true)
  | .sor r => some (r, fun a b => a || b, true)
  | .smin r => some (r, fun a b => a && b, false)
  | .smax r => some (r, fun a b => a || b, false)
  | _ => none

/-- The masks that an instruction on two streams accepts. -/
def masksAgree (disjoint : Bool) (a b : BitVec 16) : Prop :=
  if disjoint then a &&& b = 0 else a = b ∧ (List.range 16).countP (fun i => a.getLsbD i) = 1

/-- A stream result: the unit is busy, the register is pending and is written when the result lands (R419). -/
def streamFire (eff : List Effect) (occ lat : Nat) (d : Fin 16) (z : ZReg) : Fire :=
  ⟨eff ++ [.busy .stream occ, .pend (.z d)], some (lat, [.setZ d z, .unpend (.z d)])⟩

/-- A stream register is not awaiting a write. -/
def settledZ (k : Slot) (n : Fin 16) : Prop := k.f.pre.pend.contains (.z n) = false

end Sys2Proof.Claims

/-! ### Stochastic streams (R412-R426) -/

/-- R413, R417, R419, R421: the instructions on streams combine their sources bit by bit below the length, with the masks of Table 20.3, after the latency of Table 20.5.
An empty source or unequal lengths raise the format fault and masks that do not fit the correlated-stream fault (code 0x06, INFO both masks); both
go to the fault queue and no register is written. -/
def StatementPart.StreamLogicResults : Prop :=
  (∀ (k : Slot) (s : State) (i : Instr) (r : ZBin) (f : Bool → Bool → Bool) (dj : Bool) (x : Ss), twoStreams i = some (r, f, dj) → k.Fires s r.hdr →
    k.f.pre.ss = some x → settledZ k r.d → settledZ k r.a → settledZ k r.b →
    (x.z[r.a].lc ≠ 0 → x.z[r.b].lc = x.z[r.a].lc → masksAgree dj x.z[r.a].mask x.z[r.b].mask →
      ∃ z : ZReg, z.lc = x.z[r.a].lc ∧ z.mask = x.z[r.a].mask ||| x.z[r.b].mask ∧
        (∀ j, j < 4096 → z.bits.getLsbD j = (decide (j < streamLen z.lc) && f (x.z[r.a].bits.getLsbD j) (x.z[r.b].bits.getLsbD j))) ∧
        k.Does s i r.hdr (streamFire [] (streamCycles (streamLen z.lc)) (streamCycles (streamLen z.lc) + 1) r.d z)) ∧
    ((x.z[r.a].lc = 0 ∨ x.z[r.b].lc = 0 ∨ x.z[r.b].lc ≠ x.z[r.a].lc) → k.Does s i r.hdr ((k.env s r.hdr).fault 1 [] none ⟨0x01, 0, 0⟩)) ∧
    (x.z[r.a].lc ≠ 0 → x.z[r.b].lc = x.z[r.a].lc → ¬ masksAgree dj x.z[r.a].mask x.z[r.b].mask →
      k.Does s i r.hdr ((k.env s r.hdr).fault 1 [] none ⟨0x06, x.z[r.a].mask.toNat + x.z[r.b].mask.toNat * 2 ^ 16, 0⟩))) ∧
  (∀ (k : Slot) (s : State) (r : ZBin) (sel : Fin 16) (x : Ss), k.Fires s r.hdr → k.f.pre.ss = some x →
    settledZ k r.d → settledZ k r.a → settledZ k r.b → settledZ k sel →
    x.z[r.a].lc ≠ 0 → x.z[r.b].lc = x.z[r.a].lc → x.z[sel].lc = x.z[r.a].lc → x.z[sel].mask &&& (x.z[r.a].mask ||| x.z[r.b].mask) = 0 →
    ∃ z : ZReg, z.lc = x.z[r.a].lc ∧ z.mask = x.z[r.a].mask ||| x.z[r.b].mask ||| x.z[sel].mask ∧
      (∀ j, j < 4096 → z.bits.getLsbD j = (decide (j < streamLen z.lc) &&
        (if x.z[sel].bits.getLsbD j then x.z[r.a].bits.getLsbD j else x.z[r.b].bits.getLsbD j))) ∧
      k.Does s (.smux r sel) r.hdr (streamFire [] (streamCycles (streamLen z.lc)) (streamCycles (streamLen z.lc) + 1) r.d z)) ∧
  (∀ (k : Slot) (s : State) (r : ZUn) (x : Ss), k.Fires s r.hdr → k.f.pre.ss = some x → settledZ k r.d → settledZ k r.a → x.z[r.a].lc ≠ 0 →
    (∃ z : ZReg, z.lc = x.z[r.a].lc ∧ z.mask = x.z[r.a].mask ∧
      (∀ j, j < 4096 → z.bits.getLsbD j = (decide (j < streamLen z.lc) && !x.z[r.a].bits.getLsbD j)) ∧
      k.Does s (.snot r) r.hdr (streamFire [] (streamCycles (streamLen z.lc)) (streamCycles (streamLen z.lc) + 1) r.d z)) ∧
    (∀ m : BitVec 16, ∃ z : ZReg, z.lc = x.z[r.a].lc ∧ z.mask = m ∧
      (∀ j, j < 4096 → z.bits.getLsbD j = (decide (j < streamLen z.lc) && x.z[r.a].bits.getLsbD j)) ∧
      k.Does s (.scls r m) r.hdr (streamFire [] (streamCycles (streamLen z.lc)) (streamCycles (streamLen z.lc) + 1) r.d z)) ∧
    (∀ (n : BitVec 12) (g : BitVec 4), n.toNat < streamLen x.z[r.a].lc → x.z[r.a].mask.getLsbD g.toNat = false →
      ∃ z : ZReg, z.lc = x.z[r.a].lc ∧ z.mask = BitVec.twoPow 16 g.toNat ∧
        (∀ j, j < streamLen z.lc → j < 4096 →
          z.bits.getLsbD j = x.z[r.a].bits.getLsbD ((j + streamLen z.lc - n.toNat) % streamLen z.lc)) ∧
        k.Does s (.sdly r n g) r.hdr (streamFire [] (streamCycles (streamLen z.lc)) (streamCycles (streamLen z.lc) + 1) r.d z)) ∧
    (∀ (n : BitVec 12) (g : BitVec 4), streamLen x.z[r.a].lc ≤ n.toNat →
      k.Does s (.sdly r n g) r.hdr ((k.env s r.hdr).fault 1 [] none ⟨0x02, n.toNat, 0⟩)))

/-- R415, R419, R420, R422 to R426: `sgen` and `sregen` generate streams of the context's length from the region seed and the class; `slen` sets that length;
`scnt` counts ones; `sout` emits part 0 at its firing and keeps the unit for the rest; `sin` consumes part 0 and either lands after 2 cycles or keeps the
unit for the rest, and a head that is not part 0 of a stream raises the format fault. -/
def StatementPart.StreamSourcesAndSinks : Prop :=
  (∀ (k : Slot) (s : State) (h : Hdr) (d : Fin 16) (src : Opd) (g : BitVec 4) (bip : Bool) (x : Val) (v : Voyage), k.Fires s h →
    (k.env s h).read src = some x → settledZ k d → s.voyage? k.f.pre.voy = some v →
    k.Does s (.sgen h d src g 0 bip) h (streamFire x.eff (streamCycles (64 * 4 ^ k.f.pre.ctx[k.f.ctx].len.toNat))
      (streamCycles (64 * 4 ^ k.f.pre.ctx[k.f.ctx].len.toNat) + 2) d
      (genStream v.pkt[4] g k.f.pre.ctx[k.f.ctx].len (if bip then x.word.toNat % 65536 ^^^ 0x8000 else x.word.toNat % 65536)))) ∧
  (∀ (k : Slot) (s : State) (h : Hdr) (d : Fin 16) (src : Opd) (g n1 : BitVec 4) (bip : Bool) (x : Val) (v : Voyage), k.Fires s h → n1 ≠ 0 →
    (k.env s h).read src = some x → x.vreg.tag = 39 → (∀ n ∈ zRange d n1.toNat, settledZ k n) → s.voyage? k.f.pre.voy = some v →
    ∃ zs : List ZReg, zs.length = n1.toNat + 1 ∧
      (∀ j, j < zs.length → zs[j]? = some (genStream v.pkt[4] g k.f.pre.ctx[k.f.ctx].len
        (if bip then laneAt x.vreg.data.toNat 16 j ^^^ 0x8000 else laneAt x.vreg.data.toNat 16 j))) ∧
      k.Does s (.sgen h d src g n1 bip) h
        ⟨x.eff ++ .busy .stream ((n1.toNat + 1) * streamCycles (64 * 4 ^ k.f.pre.ctx[k.f.ctx].len.toNat)) ::
            (zRange d n1.toNat).map (fun n => .pend (.z n)),
          some ((n1.toNat + 1) * streamCycles (64 * 4 ^ k.f.pre.ctx[k.f.ctx].len.toNat) + 2,
            ((zRange d n1.toNat).zip zs).flatMap fun (n, z) => [.setZ n z, .unpend (.z n)])⟩) ∧
  (∀ (k : Slot) (s : State) (r : ZUn) (g : BitVec 4) (x : Ss) (v : Voyage) (occ : Nat), k.Fires s r.hdr → k.f.pre.ss = some x → settledZ k r.d →
    settledZ k r.a → x.z[r.a].lc ≠ 0 → s.voyage? k.f.pre.voy = some v →
    occ = streamCycles (streamLen x.z[r.a].lc) + streamCycles (64 * 4 ^ k.f.pre.ctx[k.f.ctx].len.toNat) →
    k.Does s (.sregen r g) r.hdr (streamFire [] occ (occ + 2) r.d (genStream v.pkt[4] g k.f.pre.ctx[k.f.ctx].len
      (Nat.min 65535 (((List.range (streamLen x.z[r.a].lc)).countP fun i => x.z[r.a].bits.getLsbD i) * 65536 / streamLen x.z[r.a].lc))))) ∧
  (∀ (k : Slot) (s : State) (h : Hdr) (c : BitVec 2), k.Fires s h → k.Does s (.slen h c) h ⟨[.slen c], none⟩) ∧
  (∀ (k : Slot) (s : State) (h : Hdr) (o : Fin 8) (a : Fin 16) (n1 : BitVec 4) (x : Ss) (occ : Nat), k.Fires s h → k.f.pre.ss = some x →
    (∀ n ∈ zRange a n1.toNat, settledZ k n ∧ x.z[n].lc ≠ 0) → (k.env s h).room o 1 = true →
    occ = ((zRange a n1.toNat).map fun n => streamCycles (streamLen x.z[n].lc)).sum →
    k.Does s (.scnt h o a n1) h (((k.env s h).write (occ + 2) (.o o) (Token.vec (VReg.plain 39 (packLanes 16
      ((zRange a n1.toNat).map fun n => (List.range (streamLen x.z[n].lc)).countP fun i => x.z[n].bits.getLsbD i))) (k.env s h).sl)).after
      [.busy .stream occ])) ∧
  (∀ (k : Slot) (s : State) (h : Hdr) (o : Fin 8) (a : Fin 16) (x : Ss), k.Fires s h → k.f.pre.ss = some x → settledZ k a →
    (k.env s h).room o 1 = true →
    (x.z[a].lc ≠ 0 → k.Does s (.sout h o a) h ⟨.emit o (streamToken x.z[a] 0 (k.env s h).sl) ::
      (if Nat.max 1 (streamLen x.z[a].lc / 512) = 1 then [] else [.stream (.sout o x.z[a] 1 (k.env s h).sl)]), none⟩) ∧
    (x.z[a].lc = 0 → k.Does s (.sout h o a) h ((k.env s h).fault 1 [] (some o) ⟨0x01, 0, 0⟩))) ∧
  (∀ (k : Slot) (s : State) (h : Hdr) (d : Fin 16) (c : Fin 8) (t : Token), k.Fires s h → (k.env s h).take c = some t → settledZ k d →
    (partOk t 0 none = true → ∃ z : ZReg, z.lc = t.side.extractLsb' 19 3 ∧ z.mask = t.side.extractLsb' 0 16 ∧
      (∀ j, j < 512 → j < streamLen z.lc → z.bits.getLsbD j = t.data.getLsbD j) ∧
      (streamLen z.lc ≤ 512 → k.Does s (.sin h d c) h ⟨[.pop c, .pend (.z d)], some (2, [.setZ d z, .unpend (.z d)])⟩) ∧
      (512 < streamLen z.lc → k.Does s (.sin h d c) h ⟨[.pop c, .pend (.z d), .stream (.sin d c 1 z k.f.ctx k.sl (k.env s h).sl)], none⟩)) ∧
    (partOk t 0 none = false → k.Does s (.sin h d c) h ((k.env s h).fault 1 [.pop c] none ⟨0x01, t.fmt.toNat, 0⟩)))

/-- The stream unit: logic, sources and sinks. Parts: `StreamLogicResults`, `StreamSourcesAndSinks`. -/
def Obligations.StreamRules : Prop := StatementPart.StreamLogicResults ∧ StatementPart.StreamSourcesAndSinks


namespace Sys2Proof.Claims

/-- The state in which an event acts on `a`: the event's argument stands in `ev`, as the step places it (`EventRunsNext`). -/
def on (s : State) (a : EvArg) : State := { s with ev := a }

/-- The event `i`, acting on `a`, gives the next state `u`. -/
def Gives (s : State) (i : Instr) (a : EvArg) (u : State) : Prop := exec i (on s a) = .next u

/-- The event has become impossible by the time it comes up: it changes nothing. -/
def Passes (s : State) (i : Instr) (a : EvArg) : Prop := Gives s i a (on s a)

/-- The unit that the rule in a slot of a context needs. -/
def unitAt (t : Station) (c : Fin 8) (i : Fin 32) : Option FUnit := (t.ruleAt c i).map fun r => r.cls.unit t.kind

end Sys2Proof.Claims

/-! ### The station cycle (R57, R58, R157-R161, R195) -/

/-- R160, R57, R157: in a station that runs, some runnable context of least rank is selected; the slots chosen in it are in increasing order, at least
one and at most 4, each with its guard holding, none in conflict with one chosen before it, and no more of them need a unit than the station has.
They execute next, all on the station as it stands now. A station with no runnable context, or that does not run, does nothing. -/
def StatementPart.CycleChoosesRules : Prop :=
  ∀ (s : State) (i : StId) (t : Station), s.station? i = some t →
    (s.stationRuns t = false ∨ s.runnable t = [] → Passes s .stationCycle (.st i)) ∧
    (s.stationRuns t = true → s.runnable t ≠ [] →
      ∃ (u : State) (c : Fin 8) (rs : List (Fin 8)) (todo : List (Fin 32)),
        Gives s .stationCycle (.st i) u ∧ u.firing = some ⟨i, c, t, todo⟩ ∧
        (c, rs) ∈ s.runnable t ∧ (∀ y ∈ s.runnable t, lexLt (ctxRank t y) (ctxRank t (c, rs)) = false) ∧
        todo ≠ [] ∧ todo.length ≤ 4 ∧ todo.Pairwise (fun a b => a < b ∧ t.ctx[c].conflicts b a = false) ∧
        (∀ j ∈ todo, ∃ r, t.ruleAt c j = some r ∧ t.guard c j r.hdr.guard = true) ∧
        (∀ n : FUnit, (todo.filter fun j => unitAt t c j == some n).length ≤ n.count) ∧
        u.mem = s.mem ∧ u.host = s.host ∧ u.reqs = s.reqs ∧ u.routes = s.routes ∧ u.agenda = s.agenda)

/-- R58: in a cycle, a runnable context that is not selected waits one cycle more and becomes aged at 256; the selected one starts again; a context
that is not runnable keeps its count. Nothing else of the station changes. -/
def StatementPart.WaitingContextsAge : Prop :=
  ∀ (s : State) (i : StId) (t : Station), s.station? i = some t → s.stationRuns t = true → s.runnable t ≠ [] →
    ∃ (u : State) (c : Fin 8) (v : Station), Gives s .stationCycle (.st i) u ∧ u.firing.map (·.ctx) = some c ∧ u.station? i = some v ∧
      v = { t with ctx := v.ctx } ∧
      ∀ d : Fin 8, v.ctx[d] =
        if d = c then { t.ctx[d] with wait := 0, aged := false }
        else if d ∈ (s.runnable t).map (·.1) then
          { t.ctx[d] with wait := t.ctx[d].wait + 1, aged := t.ctx[d].aged || decide (256 ≤ t.ctx[d].wait + 1) }
        else t.ctx[d]

/-- R161, R170: a result in flight lands: its effects happen, in order, for the context and slot that launched it, and it is in flight no more. A scalar or
vector result stands in its register (an x320 with its bits 511..352 zero, R106). R195: at the end of its cycles a yield leaves its context selectable, and
nothing else of the station changes. -/
def StatementPart.ResultsLandAndYieldsEnd : Prop :=
  (∀ (s : State) (i : StId) (t : Station) (id : Nat) (f : Flight), s.station? i = some t → t.flights.find? (fun g => g.id == id) = some f →
    ∃ u, Gives s .resultLands (.flight i id) u ∧
      u = (((on s (.flight i id)).modStation i fun t => { t with flights := t.flights.filter fun g => g.id ≠ id }).applyAll ⟨i, f.ctx, f.slot⟩ f.effs) ∧
      (∀ n w r, f.effs = [.setD n w, r] → (r = .unpend (.d n)) →
        ∃ v, u.station? i = some v ∧ v.d[n] = w ∧ .d n ∉ v.pend ∧ v.flights.all (fun g => g.id ≠ id) = true) ∧
      (∀ n w r, f.effs = [.setV n w, r] → (r = .unpend (.v n)) →
        ∃ v, u.station? i = some v ∧ v.v[n] = w.held ∧ .v n ∉ v.pend ∧ v.flights.all (fun g => g.id ≠ id) = true)) ∧
  (∀ (s : State) (i : StId) (t : Station) (c : Fin 8), s.station? i = some t →
    ∃ u v, Gives s .yieldExpiry (.ctx i c) u ∧ u.station? i = some v ∧ v = { t with ctx := t.ctx.set c { t.ctx[c] with yield := 0 } } ∧
      u.mem = s.mem ∧ ∀ j, j ≠ i → u.station? j = s.station? j)

/-! ### Tokens on their way (R22, R52, R56, R146-R150, R166) -/

/-- R146, R149, R150, R22: the head of a hop moves on when it stands there since the start of the cycle and what follows has room: it leaves the front of
its FIFO, whose entry is free from the next cycle, and joins the end of the next hop's (of a die link after its delay), or of every destination
channel, all in one cycle. Without room, or with nothing at the head, nothing moves. The four events of the table are this one move, on a mesh link,
a bus, a die link and an intermediate die. -/
def Obligations.TokensMoveAlongRoutes : Prop :=
  ∀ (s : State) (id k : Nat) (r : Route) (h : Hop) (i : Instr), i ∈ [Instr.linkHop, .busDeliver, .dieLinkTransfer, .flowForward] →
    s.routeId? id = some r → r.hops[k]? = some h →
    (h.fifo.bid = none ∨ s.roomAfter r k = false ∨ s.flows r = false → Passes s i (.hop id k)) ∧
    ∀ (t : Token) (n : Nat), h.fifo.bid = some (t, n) → s.roomAfter r k = true → s.flows r = true →
      ∃ (u : State) (q : Route), Gives s i (.hop id k) u ∧ u.routeId? id = some q ∧
        q.hops[k]? = some { h with fifo := { h.fifo with q := h.fifo.q.tail, freed := h.fifo.freed + 1 } } ∧
        (∀ g, r.hops[k + 1]? = some g →
          q.hops[k + 1]? = some { g with fifo := { g.fifo with q := g.fifo.q ++ [⟨s.nextId, some t, true, g.kind.delay, 0⟩] } }) ∧
        (r.hops[k + 1]? = none → (∀ p key, r.cross ≠ some (p, false, key)) → r.dests.Nodup →
          ∀ d c v, (d, c) ∈ r.dests → s.station? d = some v →
            ∃ w, u.station? d = some w ∧ w.c[c] = { v.c[c] with q := v.c[c].q ++ [⟨s.nextId, some t, true, 0, 0⟩] }) ∧
        u.mem = s.mem ∧ ∀ j x, u.station? j = some x → ∃ v, s.station? j = some v ∧ x = { v with c := x.c }

/-- R52: a background token that has waited 4,096 cycles becomes an ordinary one with counter 992. R56: a token whose counter has reached 0 adds 1 to the
overdue counter of the station that holds it, in a channel or in a node; at a port or slice, to that one's. R166: a fault token at the head of a channel that
no rule handles leaves the channel and goes to the region's fault queue. -/
def StatementPart.CountersRunOutAndFaultTokensMove : Prop :=
  (∀ (s : State) (l : TokLoc) (x : Slack), s.slackAt l = some x → x.bg = true → 4096 ≤ x.n →
    ∃ u, Gives s .backgroundPromote (.tok l) u ∧ u.slackAt l = some ⟨false, 992⟩ ∧ u.mem = s.mem) ∧
  (∀ (s : State) (l : TokLoc) (x : Slack) (i : StId) (t : Station), s.slackAt l = some x → x.bg = false → x.n = 0 →
    s.holderAt l = some (.station i) → s.station? i = some t →
    ∃ u v, Gives s .tokenOverdue (.tok l) u ∧ u.station? i = some v ∧ v.overdue = t.overdue + 1 ∧ v.d = t.d ∧ v.v = t.v ∧ v.p = t.p ∧ v.h = t.h) ∧
  (∀ (s : State) (l : TokLoc) (x : Slack) (d i : Nat), s.slackAt l = some x → x.bg = false → x.n = 0 → s.holderAt l = some (.port d i) →
    ∃ u, Gives s .tokenOverdue (.tok l) u ∧ u.stations = s.stations ∧
      u.ports = (match s.ports.find? fun p => p.die == d && p.idx == i with
        | some p => { p with overdue := p.overdue + 1 }
        | none => ⟨d, i, [], 1, 0⟩) :: s.ports.filter fun p => !(p.die == d && p.idx == i)) ∧
  (∀ (s : State) (l : TokLoc) (x : Slack) (d i : Nat), s.slackAt l = some x → x.bg = false → x.n = 0 → s.holderAt l = some (.slice d i) →
    ∃ u e, Gives s .tokenOverdue (.tok l) u ∧ u.stations = s.stations ∧ u.ports = s.ports ∧ u.sliceOver.find? (fun e => e.1 == 96 * d + i) = some e ∧
      e.2 = (match s.sliceOver.find? (fun e => e.1 == 96 * d + i) with | some e => e.2 | none => 0) + 1) ∧
  (∀ (s : State) (i : StId) (t : Station) (n : Fin 8) (k : Token), s.station? i = some t → s.strayFault t n = some k →
    ∃ v : State, Gives s .faultTokenRequeue (.chan i n) (v.pushFault t.voy t.reg k) ∧ v.station? i = some (t.popC n) ∧
      (t.popC n).c[n].q = t.c[n].q.tail ∧ v.mem = s.mem ∧ v.reqs = s.reqs)

/-- A station cycle chooses rules, and the contexts that were not chosen age. Parts: `CycleChoosesRules`, `WaitingContextsAge`. -/
def Obligations.StationsChooseAndContextsAge : Prop := StatementPart.CycleChoosesRules ∧ StatementPart.WaitingContextsAge

/-- What ends with the passing of cycles: results in flight, yields, and the counters of tokens. Parts: `ResultsLandAndYieldsEnd`, `CountersRunOutAndFaultTokensMove`. -/
def Obligations.ResultsAndCountersRunOut : Prop := StatementPart.ResultsLandAndYieldsEnd ∧ StatementPart.CountersRunOutAndFaultTokensMove


/-! ### The units of a station (R323-R332, R343, R383, R395, R426) -/

/-- R323, R334: a fill takes, by the state of its tile at the start of the cycle, the data token at the head of its channel as the next row, with its scales for
an 8-bit format; one of another format becomes a zero row and raises the format fault (code 0x01), whose context and slot read as 0 by the model's choice
(log 23); the 64th row fills the tile. A stop of level 1 fills a filling tile with zero rows. Where a rule of the cycle has marked the tile, its state and its
row are those of the rule (the model's choice, log 28). In the cycle of its `tfill` a binding takes nothing (R341), and a tile with parked rows takes nothing. -/
def StatementPart.FillsTakeRows : Prop :=
  ∀ (s : State) (i : StId) (t : Station) (m m0 : Mat) (n : Fin 4) (c : Fin 8) (k : Token) (old now : Tile),
    s.station? i = some t → t.mat = some m → t.matPre = some m0 → now = m.t[n] → old = m0.t[n] → now.fill = some c → t.headEntry c = some k →
    (∀ h : old.pos < 64, old.fill = some c → old.parks = [] → now.fresh = false → k.stop = 0 → k.f = false → old.st = .empty ∨ old.st = .filling →
      ∃ (v : State) (y : Tile),
        Gives s .tileFillAccept (.tile i n)
          (if k.fmt = old.fmt then v else v.pushFault t.voy t.reg (faultToken t 0 0 k.slk ⟨0x01, k.fmt.toNat, 0⟩)) ∧
        v.station? i = some { t.popC c with mat := some { m with t := m.t.set n y } } ∧
        y = { now with
          rows := now.rows.set old.pos (if k.fmt = old.fmt then k.data else 0)
          scales := now.scales.set old.pos (if k.fmt = old.fmt ∧ Tag.is16 old.fmt = false then k.side else 0x7F7F7F7F7F7F7F7F)
          st := y.st
          pos := y.pos } ∧
        (now.st = old.st → now.pos = old.pos → y.st = (if old.pos = 63 then .full else .filling) ∧ y.pos = (if old.pos = 63 then 0 else old.pos + 1)) ∧
        (now.st ≠ old.st ∨ now.pos ≠ old.pos → y.st = now.st ∧ y.pos = now.pos)) ∧
    (old.fill = some c → old.parks = [] → now.fresh = false → k.stop = 1 → k.f = false → old.st = .filling →
      ∃ (v : State) (w : Station) (y : Mat), Gives s .tileFillAccept (.tile i n) v ∧ v.station? i = some w ∧ w = { t.popC c with mat := some y } ∧
        y = { m with t := m.t.set n y.t[n] } ∧
        (now.st = old.st → now.pos = old.pos → y.t[n].st = .full ∧ y.t[n].pos = 0) ∧
        (now.st ≠ old.st ∨ now.pos ≠ old.pos → y.t[n].st = now.st ∧ y.t[n].pos = now.pos) ∧
        ∀ r : Fin 64, (r.val < old.pos → y.t[n].rows[r] = now.rows[r] ∧ y.t[n].scales[r] = now.scales[r]) ∧
          (old.pos ≤ r.val → y.t[n].rows[r] = 0 ∧ y.t[n].scales[r] = 0x7F7F7F7F7F7F7F7F)) ∧
    (now.fresh = true ∨ old.fill ≠ some c ∨ old.parks ≠ [] ∨ k.stop = 2 ∨ k.stop = 3 ∨ k.f = true ∨ (k.stop = 1 ∧ old.st = .empty) ∨ old.st = .full ∨
        old.st = .reading →
      Passes s .tileFillAccept (.tile i n))

/-- R324, R325, R343: a step that has run its cycles adds one to its accumulator's counter, leaves the matrix engine idle and the accumulator no longer pending, and
writes no other accumulator; it closes the accumulator at KT. Each row of the accumulator adds its eight block sums for each k in turn (R325), with the
scales captured at firing. -/
def StatementPart.StepsComplete : Prop :=
  ∀ (s : State) (i : StId) (t : Station) (m : Mat) (x : MatStep) (k : AccCfg),
    s.station? i = some t → t.mat = some m → m.step = some x → x.left = 0 → m.a[x.acc].cfg = some k →
    ∃ (u : State) (w : Station) (y : Mat), Gives s .matrixStepComplete (.st i) u ∧ u.station? i = some w ∧
      w = { t with mat := some y, pend := t.pend.filter fun q => q ≠ .acc x.acc } ∧ y.step = none ∧ y.g = m.g ∧
      y.a[x.acc].cnt = m.a[x.acc].cnt + 1 ∧
      y.a[x.acc].rows = stepRows m.a[x.acc].rows (m.t[x.ta].operand x.sa) (m.t[x.tb].operand x.sb) x.mmat ∧
      (m.a[x.acc].cnt + 1 ≠ k.kt → y.a[x.acc].st = m.a[x.acc].st) ∧
      (m.a[x.acc].cnt + 1 = k.kt → y.a[x.acc].st = .closed) ∧
      (∀ a : Fin 2, a ≠ x.acc → y.a[a] = m.a[a]) ∧
      (∀ n : Fin 4, n ≠ x.ta → n ≠ x.tb → y.t[n] = m.t[n]) ∧ u.mem = s.mem ∧ u.reqs = s.reqs

/-- R327: a closed accumulator emits its partial rows one at a time, in order, on its drain output, 512 in all; the last leaves it cleared and open, with
its configuration kept. R329: one that has a carry-in first takes 512 partial rows, one in each cycle in which the matrix unit is not busy otherwise:
each that is the one expected adds to its row, any other raises the format fault (code 0x01), whose context and slot read as 0 by the model's choice (log 23),
and counts. -/
def StatementPart.AccumulatorsDrain : Prop :=
  (∀ (s : State) (i : StId) (t : Station) (m : Mat) (n : Fin 2) (o : Fin 8),
    s.station? i = some t → t.mat = some m → m.drains n = some o → s.outRoom i o 1 = true → m.a[n].pos ≤ 511 →
    ∃ (v : State) (w : Station) (y : Mat), v.station? i = some w ∧ w = { t with mat := some y } ∧
      y = { m with a := m.a.set n y.a[n] } ∧
      (m.a[n].pos < 511 → y.a[n] = { m.a[n] with st := .draining, pos := m.a[n].pos + 1 }) ∧
      (m.a[n].pos = 511 → y.a[n].st = .opened ∧ y.a[n].cnt = 0 ∧ y.a[n].pos = 0 ∧ y.a[n].cfg = m.a[n].cfg ∧
        ∀ r : Fin 64, y.a[n].rows[r] = AccRow.clear) ∧
      ∃ k : Token, k.fmt = 42 ∧ k.stop = 0 ∧ k.f = false ∧ k.slk = m.a[n].slack ∧
        (rowHdr k).row = m.a[n].pos / 8 ∧ (rowHdr k).part = m.a[n].pos % 8 ∧
        Gives s .accDrainToken (.acc i n) (v.emit i o k)) ∧
  (∀ (s : State) (i : StId) (t : Station) (m : Mat) (n : Fin 2) (q : AccCfg) (c : Fin 8) (k : Token),
    s.station? i = some t → t.mat = some m → m.a[n].cfg = some q → q.carry = some c → m.a[n].st = .closed → m.a[n].cin < 512 →
    t.headEntry c = some k → k.stop = 0 → k.f = false →
    (m.step ≠ none ∨ (∃ e ∈ t.busy, e.1 = .step) → Passes s .carryInToken (.acc i n)) ∧
    (m.step = none → (∀ e ∈ t.busy, e.1 ≠ .step) → ∃ (v : State) (y : Acc), v.station? i = some { t.popC c with mat := some { m with a := m.a.set n y } } ∧
      y.cin = m.a[n].cin + 1 ∧ y.st = .closed ∧ y.cfg = some q ∧ y.cnt = m.a[n].cnt ∧
      (k.fmt = 42 ∧ (rowHdr k).row = m.a[n].cin / 8 ∧ (rowHdr k).part = m.a[n].cin % 8 →
        Gives s .carryInToken (.acc i n) v ∧
        ∀ r : Fin 64, y.rows[r] = if r.val = (rowHdr k).row then carryRow m.a[n].rows[r] k else m.a[n].rows[r]) ∧
      (¬(k.fmt = 42 ∧ (rowHdr k).row = m.a[n].cin / 8 ∧ (rowHdr k).part = m.a[n].cin % 8) →
        y.rows = m.a[n].rows ∧ Gives s .carryInToken (.acc i n) (v.pushFault t.voy t.reg (faultToken t 0 0 k.slk ⟨0x01, k.fmt.toNat, 0⟩)))))

/-- R330, R331: in a cycle a node emits the output that is due, when its channel has room, and takes one token, when it has a buffer for what follows: a
normaliser a partial row, the second part of a pair making an output due 4 cycles later; a corner turn a row, the last row of a block making the turned block
due. With neither, the node stays as it is. A token that a node makes overdue counts when it is made (R56), by the model's choice not again as it leaves
(log 96). -/
def StatementPart.NodesTakeAndEmit : Prop :=
  (∀ (s : State) (i : StId) (t : Station) (x : Nrm) (k : Token), s.station? i = some t → t.nrm = some x → x.outs = [] →
    t.headEntry x.i = some k → k.stop = 0 → k.f = false → k.fmt = 42 → (rowHdr k).row = x.row → (rowHdr k).part = x.part →
    ∃ (v : State) (y : Nrm), Gives s .normaliserToken (.st i) (v.countMade i (y.outs.map (·.2))) ∧ v.station? i = some { t.popC x.i with nrm := some y } ∧
      y.i = x.i ∧ y.o = x.o ∧
      (x.half = none → y.outs = [] ∧ y.part = x.part + 1 ∧ y.row = x.row ∧ y.half.isSome = true) ∧
      (∀ f, x.half = some f → y.half = none ∧ ∃ z : Token, y.outs = [(4, z)] ∧ z.fmt = 34 ∧ z.side = 0x7F7F7F7F7F7F7F7F ∧ z.stop = 0 ∧
        z.slk = minSlack f.slk k.slk ∧ (x.part = 7 → y.row = (x.row + 1) % 64 ∧ y.part = 0) ∧ (x.part ≠ 7 → y.row = x.row ∧ y.part = x.part + 1))) ∧
  (∀ (s : State) (i : StId) (t : Station) (x : Nrm) (k : Token) (r : List (Nat × Token)), s.station? i = some t → t.nrm = some x → x.outs = (0, k) :: r →
    s.outRoom i x.o 1 = true → t.headEntry x.i = none →
    ∃ u, Gives s .normaliserToken (.st i) u ∧
      u = ((on s (.st i)).place i x.o k).modStation i fun t => { t with nrm := some { x with outs := r } }) ∧
  (∀ (s : State) (i : StId) (t : Station) (x : Ctn) (k : Token), s.station? i = some t → t.ctn = some x → x.outs = [] → t.headEntry x.i = some k →
    k.stop = 0 → k.f = false → k.fmt = x.ifmt →
    ∃ (v : State) (y : Ctn), Gives s .cornerTurnToken (.st i) (v.countMade i (y.outs.map (·.2.1))) ∧
      v.station? i = some { t.popC x.i with ctn := some y } ∧
      (x.rows.length + 1 < x.ifmt.lanes → y = { x with rows := x.rows ++ [k] }) ∧
      (x.rows.length + 1 = x.ifmt.lanes → y.rows = [] ∧ y.outs.map (·.2.1) = turnBlock x (x.rows ++ [k]) ∧ ∀ e ∈ y.outs, e.1 = 4)) ∧
  (∀ (s : State) (i : StId) (t : Station) (x : Ctn) (k : Token) (b : Bool) (r : List (Nat × Token × Bool)), s.station? i = some t → t.ctn = some x →
    x.outs = (0, k, b) :: r → s.outRoom i x.o 1 = true → t.headEntry x.i = none →
    ∃ u, Gives s .cornerTurnToken (.st i) u ∧
      u = ((on s (.st i)).place i x.o k).modStation i fun t => { t with ctn := some { x with outs := r } })

/-- R426: `sout` emits the next part of its stream when its output has room, and frees the unit after the last; `sin` takes a part that continues its
stream; the last is written two cycles later, with the bits beyond the stream's length zero. A token that breaks the stream raises the format fault (code 0x01) and
frees the unit; a stop or fault token then stays at the head. -/
def StatementPart.StreamPartsMove : Prop :=
  (∀ (s : State) (i : StId) (t : Station) (x : Ss) (o : Fin 8) (z : ZReg) (p : Nat) (sl : Slack), s.station? i = some t → t.ss = some x →
    x.io = some (.sout o z p sl) → s.outRoom i o 1 = true →
    Gives s .soutPart (.st i) (((on s (.st i)).emit i o (streamToken z p sl)).modStation i fun t =>
      { t with ss := t.ss.map fun x => { x with io := if p + 1 = partCount z.lc then none else some (.sout o z (p + 1) sl) } }) ∧
    (streamToken z p sl).fmt = 43 ∧ (streamToken z p sl).side.extractLsb' 0 16 = z.mask ∧
    (p < 8 → ((streamToken z p sl).side.extractLsb' 16 3).toNat = p ∧ (streamToken z p sl).side.extractLsb' 19 3 = z.lc)) ∧
  (∀ (s : State) (i : StId) (t : Station) (x : Ss) (d : Fin 16) (c : Fin 8) (p : Nat) (acc : ZReg) (ctx : Fin 8) (slot : Fin 32) (sl : Slack) (k : Token),
    s.station? i = some t → t.ss = some x → x.io = some (.sin d c p acc ctx slot sl) → t.seen ctx c = some k →
    (partOk k p (some acc) = true → p + 1 ≠ partCount acc.lc →
      ∃ u, Gives s .sinPart (.st i) u ∧
        u.station? i = some { t.popC c with ss := some { x with io := some (.sin d c (p + 1) (addPart acc k p) ctx slot sl) } }) ∧
    (partOk k p (some acc) = true → p + 1 = partCount acc.lc →
      ∃ v : State, v.station? i = some { t.popC c with ss := some { x with io := none } } ∧
        Gives s .sinPart (.st i) (v.launch ⟨i, ctx, slot⟩ 2 [.setZ d (addPart acc k p).trim, .unpend (.z d)])) ∧
    (partOk k p (some acc) = false →
      ∃ v : State, v.station? i = some { (if k.data? then t.popC c else t) with ss := some { x with io := none }, pend := t.pend.filter fun q => q ≠ .z d } ∧
        Gives s .sinPart (.st i) (v.pushFault t.voy t.reg (faultToken t ctx slot sl ⟨0x01, k.fmt.toNat, 0⟩))))

namespace Sys2Proof.Claims

/-- The engine of a station as one of its events finds it: the station, its sounding state, the job without what it waited for, and the tree that its query
register and its handles name. -/
structure Engine (s : State) (i : StId) (t : Station) (x : Sd) (j : TreeJob) (b : TBind) : Prop where
  at' : s.station? i = some t ∧ t.sd = some x
  job : ∃ w, x.eng = some { j with wait := w }
  tree : j.wait = none ∧ b = jobBind (on s (.st i)) t x.q[j.q] j

end Sys2Proof.Claims

/-- R383, R390: how a LOCK is taken. Its page is translated first; then the version is read by a request, and an even one v is swapped for v + 1 by another,
both through the port of hN; an odd version, or a swap that finds another one, is tried again. The other nodes that a writer changes it takes after the root,
from the root down, keeping those that it has. A request of the engine is its own, in its own domain of the handle's port, with the bytes and the access class of
a tree operation. -/
def StatementPart.TreeLocksAreTaken : Prop :=
  (∀ (s u : State) (b : TBind) (memo : List (TreeKey × Nat)) (n pa va : Nat), va = b.hn.base.toNat + n * b.p.s + 0x10 →
    s.treePage b b.hn va true = .ok (pa, u) →
    (memoAt memo (.lock n) = none → s.lockNode b memo n = .error (.ask u [⟨.lock n, b.hn, va, 8, 0, 0, false⟩])) ∧
    (∀ v, memoAt memo (.lock n) = some v → v % 2 = 1 → s.lockNode b memo n = .error .retry) ∧
    (∀ v, memoAt memo (.lock n) = some v → v % 2 = 0 → memoAt memo (.take n) = none →
      s.lockNode b memo n = .error (.ask u [⟨.take n, b.hn, va, 8, v + 1, v, true⟩])) ∧
    (∀ v x, memoAt memo (.lock n) = some v → v % 2 = 0 → memoAt memo (.take n) = some x →
      s.lockNode b memo n = if x = v then .ok (BitVec.ofNat 64 v, u) else .error .retry)) ∧
  (∀ (b : TBind) (memo : List (TreeKey × Nat)) (n : Nat) (r : List Nat) (s u : State) (ls : List (Nat × Word)),
    (ls.any (fun l => l.1 == n) = true → State.takeLocks b memo (n :: r) s ls = State.takeLocks b memo r s ls) ∧
    (ls.any (fun l => l.1 == n) = false →
      (∀ e, s.lockNode b memo n = .error e → State.takeLocks b memo (n :: r) s ls = (s, ls, some e)) ∧
      (∀ v, s.lockNode b memo n = .ok (v, u) → State.takeLocks b memo (n :: r) s ls = State.takeLocks b memo r u (ls ++ [(n, v)])))) ∧
  (∀ (s : State) (t : Station) (j : TreeJob) (a : TAsk), let q := s.treeReq t j a
    q.st = t.id ∧ q.voy = t.voy ∧ q.src = .tree t.id ∧ q.port = some (t.id.die, a.h.port.toNat) ∧ q.op = .tree j.time a.key a.n a.wr ∧ q.va = a.va ∧ q.h = a.h ∧
      q.data = BitVec.ofNat 512 a.x ∧ q.y = BitVec.ofNat 64 a.y ∧ q.slack = j.slack ∧ q.acc = 5 ∧ q.credit = false ∧ q.released = false ∧ q.pred = 0x7F ∧
      q.stamp.extractLsb' 20 32 = j.major)

/-- R371, R375, R383, R390, R395: what a writer's events do, by the model's order of them (log 10). With the root's lock taken it goes on; where LOCK is odd it
tries again after 64 cycles and writes nothing; with a result computed and its locks taken, it issues the writes; once they have performed, the releases of its
locks; once these have, it completes, a seal having released its pages. While its requests are on their way it does nothing. The page effect of a fork is the
Cadastre's and happens at once. A fault goes to its destination and frees the engine, its locks given back first. -/
def StatementPart.TreeWritersWrite : Prop :=
  (∀ (s : State) (i : StId) (t : Station) (x : Sd) (j : TreeJob) (b : TBind), Engine s i t x j b →
    ((on s (.st i)).treeBusy i = true → Passes s .treeLockRetry (.st i) ∧ Passes s .treeOpComplete (.st i)) ∧
    ((on s (.st i)).treeBusy i = false →
      (j.bad = none → (on s (.st i)).lockNode b j.memo 0 = .error .retry →
        ∃ u, Gives s .treeLockRetry (.st i) u ∧ u.mem = s.mem ∧ u.reqs = s.reqs ∧ u.station? i = some { t with sd := some { x with eng := some j.again } } ∧
          j.again.left = 64 ∧ memoAt j.again.memo (.lock 0) = none ∧ memoAt j.again.memo (.take 0) = none) ∧
      (∀ u l, j.bad = none → (on s (.st i)).lockNode b j.memo 0 = .error (.ask u l) →
        Gives s .treeLockRetry (.st i) ((u.setEngine i (some j)).askAll i j l)) ∧
      (∀ v u, j.bad = none → (on s (.st i)).lockNode b j.memo 0 = .ok (v, u) →
        ∃ r, Gives s .treeLockRetry (.st i) (u.setEngine i (some { j with locks := [(0, v)], memo := [], left := r }))) ∧
      (∀ f, j.bad = none → (on s (.st i)).lockNode b j.memo 0 = .error (.fault f) → Gives s .treeLockRetry (.st i) ((on s (.st i)).treeFault i j f)) ∧
      (∀ f, j.bad = some f → Gives s .treeLockRetry (.st i) ((on s (.st i)).treeFault i j f)))) ∧
  (∀ (s : State) (i : StId) (t : Station) (x : Sd) (j : TreeJob) (b : TBind), Engine s i t x j b → (on s (.st i)).treeBusy i = false → j.bad = none →
    (j.step = .plan →
      (∀ n y w u ls as, j.op = .tins n → (tinsert b n).run (TW.start (on s (.st i)) j.memo) = .ok (y, w) → w.plan b false j.locks = .go u ls as →
        Gives s .treeOpComplete (.st i) ((u.setEngine i (some { j with locks := ls, step := .write, res := y, pages := [] })).askAll i
          { j with locks := ls, step := .write, res := y, pages := [] } as)) ∧
      (∀ n m y w u ls as, j.op = .tdrop n m → (tdropRange b n m).run (TW.start (on s (.st i)) j.memo) = .ok (y, w) → w.plan b false j.locks = .go u ls as →
        Gives s .treeOpComplete (.st i) ((u.setEngine i (some { j with locks := ls, step := .write, res := y, pages := [] })).askAll i
          { j with locks := ls, step := .write, res := y, pages := [] } as)) ∧
      (∀ n y pages w u ls as z, j.op = .tseal n → (tsealNode b n).run (TW.start (on s (.st i)) j.memo) = .ok ((y, pages), w) →
        w.plan b true j.locks = .go u ls as → z = y % 2 ^ 32 + pages.length % 2 ^ 32 * 2 ^ 32 →
        Gives s .treeOpComplete (.st i) ((u.setEngine i (some { j with locks := ls, step := .write, res := z, pages := pages })).askAll i
          { j with locks := ls, step := .write, res := z, pages := pages } as)) ∧
      (∀ n y u, j.op = .forkPages n → (on s (.st i)).fork b.asid (pagePairs j.h2.base.toNat j.h1.base.toNat n) = .ok (u, y) →
        Gives s .treeOpComplete (.st i) (u.treeDone i j y)) ∧
      (∀ n y as u, j.op = .forkTree n → (on s (.st i)).forkBoth j b n = .ok (y, as, u) →
        Gives s .treeOpComplete (.st i) ((u.setEngine i (some { j with step := .unlock, res := y })).askAll i { j with step := .unlock, res := y } as))) ∧
    (j.op ≠ .walk → j.step = .write → ∀ u as, (on s (.st i)).releaseAsks b j.locks = .ok (as, u) →
      Gives s .treeOpComplete (.st i) ((u.setEngine i (some { j with locks := [], step := .unlock })).askAll i { j with locks := [], step := .unlock } as)) ∧
    (j.op ≠ .walk → j.step = .unlock →
      Gives s .treeOpComplete (.st i) ((j.pages.foldl (fun u pg => u.releasePage b.asid (b.ht.base.toNat + pg * 2 ^ 16)) (on s (.st i))).treeDone i j j.res))) ∧
  (∀ (s : State) (i : StId) (t : Station) (x : Sd) (j : TreeJob) (b : TBind) (f : FaultC), Engine s i t x j b → (on s (.st i)).treeBusy i = false →
    j.bad = some f → j.op ≠ .walk →
    (j.locks = [] → Gives s .treeOpComplete (.st i) ((on s (.st i)).treeFault i j f)) ∧
    (j.locks ≠ [] → ∀ u as, (on s (.st i)).releaseAsks b j.locks = .ok (as, u) →
      Gives s .treeOpComplete (.st i) ((u.setEngine i (some { j with locks := [] })).askAll i { j with locks := [] } as))) ∧
  (∀ (s : State) (b : TBind) (n pa : Nat) (v : Word) (u : State), s.treePage b b.hn (b.hn.base.toNat + n * b.p.s + 0x10) true = .ok (pa, u) →
    s.releaseAsks b [(n, v)] = .ok ([⟨.put, b.hn, b.hn.base.toNat + n * b.p.s + 0x10, 8, (v + 2).toNat, 0, true⟩], u)) ∧
  (∀ (s : State) (i : StId) (j : TreeJob) (y : Nat) (t : Station) (x : Sd), s.station? i = some t → t.sd = some x →
    ∃ v z, (s.treeDone i j y).station? i = some v ∧ v.sd = some z ∧ z.eng = none ∧ z.q = x.q ∧ (∀ n, j.dest = .d n → v.d[n] = BitVec.ofNat 64 y ∧ .d n ∉ v.pend))

/-- R380, R384, R385: a walk that pauses, or that is over, stays in that state. One at its start reads the root: an empty tree ends it at once, and a tree whose
root page is not present ends it with free values (the model's choice, log 91); what has still to be read is asked for, and a record under a lock is read again
64 cycles later. One on its way whose root's version has moved discards what it has reached, its frontier, sums and leaves, adds one to RESTARTS and starts again;
one that a fault ends keeps what it has reached, with STOP 6. A request's fault ends a walk in the same way. -/
def StatementPart.WalksStartAndRestart : Prop :=
  ∀ (s : State) (i : StId) (t : Station) (x : Sd) (j : TreeJob) (b : TBind) (q : QReg) (w : Walk), Engine s i t x j b → (on s (.st i)).treeBusy i = false →
    j.op = .walk → q = x.q[j.q] → q.walk = some w →
    (q.state ≠ 1 → Passes s .treeOpComplete (.st i)) ∧
    (q.state = 1 → j.locks = [] →
      (∀ f, j.bad = some f →
        Gives s .treeOpComplete (.st i) (((on s (.st i)).setQuery i j.q { q with state := 3, stop := 6 }).treeFault i j f)) ∧
      (j.bad = none → w.frontier = [] → w.kids = [] → w.done = [] → w.leaves = 0 →
        (q.finite = true → (on s (.st i)).probeNode b j.memo w.locked 0 = .ok none →
          Gives s .treeOpComplete (.st i) ((({ on s (.st i) with free := s.free + b.p.d + 3 }).setQuery i j.q (blindWalk b.p s.free q)).treeDone i j
            (2 * 2 ^ 32 + q.rstrt.toNat * 2 ^ 36))) ∧
        (∀ root, q.finite = true → (on s (.st i)).probeNode b j.memo w.locked 0 = .ok (some root) → root.n = 0 → w.locked = false →
          Gives s .treeOpComplete (.st i) (((on s (.st i)).setQuery i j.q (emptyWalk b.p { q with
            rootver := root.lock, walk := some { w.discard b.p with ver := root.lock } })).treeDone i j (2 * 2 ^ 32 + q.rstrt.toNat * 2 ^ 36))) ∧
        (∀ l, (on s (.st i)).probeNode b j.memo w.locked 0 = .error (.ask l) →
          Gives s .treeOpComplete (.st i) (((on s (.st i)).setEngine i (some j)).askAll i j l)) ∧
        ((on s (.st i)).probeNode b j.memo w.locked 0 = .error .busy →
          Gives s .treeOpComplete (.st i) ((on s (.st i)).setEngine i (some { j with memo := [], left := 64 })))) ∧
      (j.bad = none → (w.frontier ≠ [] ∨ w.leaves ≠ 0) →
        ((on s (.st i)).sameRoot b j.memo w false = .ok false → q.rstrt ≠ 3 →
          Gives s .treeOpComplete (.st i) (((on s (.st i)).setQuery i j.q
            { q with rstrt := q.rstrt + 1, visits := 0, walk := some (w.discard b.p) }).setEngine i (some { j with memo := [], left := 1 }))) ∧
        (∀ y f, (on s (.st i)).sameRoot b j.memo w false = .ok true → runWalk (on s (.st i)) b j.memo q w = .fault y f →
          Gives s .treeOpComplete (.st i) (((on s (.st i)).setQuery i j.q { y with state := 3, stop := 6 }).treeFault i j f)))) ∧
    ((w.discard b.p).frontier = [] ∧ (w.discard b.p).kids = [] ∧ (w.discard b.p).done = [] ∧ (w.discard b.p).leaves = 0 ∧ (w.discard b.p).cands = [] ∧
      (w.discard b.p).l = X320.empty ∧ (∀ z ∈ (w.discard b.p).acc, z = X320.empty))

/-- The tree engine between firings: it reads and writes by requests, by the model's order of them (log 10). Parts: `TreeLocksAreTaken`, `TreeWritersWrite`,
`WalksStartAndRestart`. -/
def Obligations.TreeEngineActs : Prop :=
  StatementPart.TreeLocksAreTaken ∧ StatementPart.TreeWritersWrite ∧ StatementPart.WalksStartAndRestart

/-- The matrix unit between firings: fills, steps, drains. Parts: `FillsTakeRows`, `StepsComplete`, `AccumulatorsDrain`. -/
def Obligations.MatrixUnitMoves : Prop := StatementPart.FillsTakeRows ∧ StatementPart.StepsComplete ∧ StatementPart.AccumulatorsDrain

/-- Stream nodes and parts between firings. Parts: `NodesTakeAndEmit`, `StreamPartsMove`. -/
def Obligations.NodesAndStreamsMove : Prop := StatementPart.NodesTakeAndEmit ∧ StatementPart.StreamPartsMove


/-! ### Queues and launches (R37-R47, R446, R456) -/

namespace Sys2Proof.Claims

/-- The queue has a packet to process, and its next packet is `p`: it is enabled, not stopped, held by nothing, and QWRIDX is past QRDIDX; reading the
packet gives the state `u` (a page may be resolved). -/
def NextPacket (s : State) (n : Nat) (p : Packet) (u : State) : Prop :=
  (s.queue n).en = true ∧ (s.queue n).stop = false ∧ (s.queue n).wait = .none ∧ (s.queue n).wr ≠ (s.queue n).rd ∧
    (on s (.queue n)).nextPacket (s.queue n) = .packet p u

/-- ACQ holds a packet until every earlier one of its queue has completed (R42). -/
def AcqHolds (s : State) (n : Nat) (p : Packet) : Prop := p.acq = true ∧ (s.queue n).live ≠ []

end Sys2Proof.Claims

/-- R38, R39, R41, R42, R43, R456: an owner's write of QWRIDX sets it, and in minimal mode stops the queue with code 0x0A; another master's does nothing. EN 0 then EN 1
on a stopped queue clears STOP and ERR, and passes the failing packet for the codes of one. A no-op is passed; a dependency wait blocks its queue until its
condition holds on the masked word at A, and is evaluated again within 4,096 cycles; a packet with ACQ waits for the earlier packets; a malformed
packet stops its queue with its code. Other queues are unchanged. -/
def StatementPart.QueuesProcessPackets : Prop :=
  (∀ (s : State) (n : Nat) (v : BitVec 32) (m : Nat),
    (s.owned = true ∧ s.owner.toNat = m → ∃ u, Gives s .qwridxWrite (.qwr n v m) u ∧ u.mem = s.mem ∧
      u.queue n = (if s.state = 2 then { s.queue n with wr := v, stop := true, err := 0x0A, wait := .none } else { s.queue n with wr := v }) ∧
      ∀ k, k ≠ n → u.queue k = s.queue k) ∧
    (s.owned = false ∨ s.owner.toNat ≠ m → Passes s .qwridxWrite (.qwr n v m))) ∧
  (∀ (s : State) (n : Nat), (s.queue n).en = true → (s.queue n).stop = true →
    ∃ u, Gives s .queueReenable (.queue n) u ∧ (∀ k, k ≠ n → u.queue k = s.queue k) ∧
      u.queue n = { s.queue n with stop := false, err := 0, wait := .none, rd :=
        if (s.queue n).err ∈ ([0x01, 0x02, 0x03, 0x04, 0x06, 0x08, 0x10] : List Byte) then (s.queue n).rd + 1 else (s.queue n).rd }) ∧
  (∀ (s w : State) (n : Nat) (p : Packet), NextPacket s n p w → p.kind = 0 → ¬AcqHolds s n p →
    ∃ u, Gives s .noOpPacket (.queue n) u ∧ (∀ k, k ≠ n → u.queue k = s.queue k) ∧ u.queue n = { s.queue n with rd := (s.queue n).rd + 1 }) ∧
  (∀ (s w : State) (n : Nat) (p : Packet), NextPacket s n p w → p.kind = 2 → ¬AcqHolds s n p →
    ∃ u, Gives s .dependencyWaitPacket (.queue n) u ∧ (∀ k, k ≠ n → u.queue k = s.queue k) ∧
      u.queue n = { s.queue n with wait := .dep, poll := 0 }) ∧
  (∀ (s w : State) (n : Nat) (p : Packet) (i : Instr), NextPacket s n p w → AcqHolds s n p →
    i = (if p.kind = 0 then Instr.noOpPacket else if p.kind = 1 then .voyageLaunchPacket else .dependencyWaitPacket) → p.kind ≤ 2 →
    ∃ u, Gives s i (.queue n) u ∧ (∀ k, k ≠ n → u.queue k = s.queue k) ∧ u.queue n = { s.queue n with wait := .acq }) ∧
  (∀ (s : State) (n : Nat), (s.queue n).wait = .acq → (s.queue n).live = [] →
    ∃ u, Gives s .acqPacketRelease (.queue n) u ∧ (∀ k, k ≠ n → u.queue k = s.queue k) ∧ u.queue n = { s.queue n with wait := .none }) ∧
  (∀ (s : State) (n : Nat) (c : Byte), (s.queue n).en = true → (s.queue n).stop = false → (s.queue n).wait = .none → (s.queue n).wr ≠ (s.queue n).rd →
    (on s (.queue n)).nextPacket (s.queue n) = .stop c →
    ∃ u, Gives s .malformedPacket (.queue n) u ∧ u.mem = s.mem ∧ (∀ k, k ≠ n → u.queue k = s.queue k) ∧
      u.queue n = { s.queue n with stop := true, err := c, wait := .none }) ∧
  (∀ (s w w' : State) (n : Nat) (p : Packet) (x : Nat), (s.queue n).en = true → (s.queue n).stop = false → (s.queue n).wait = .dep →
    (on s (.queue n)).nextPacket (s.queue n) = .packet p w → w.helmRead w.helmDie (s.queue n).asid p[1].toNat 8 false = .ok (x, w') →
    ∃ u, Gives s .dependencyRecheck (.queue n) u ∧ (∀ k, k ≠ n → u.queue k = s.queue k) ∧
      u.queue n = (if (match fld p[4].toNat 0 2 with
          | 0 => x &&& p[3].toNat == p[2].toNat | 1 => x &&& p[3].toNat != p[2].toNat
          | 2 => decide (p[2].toNat ≤ x &&& p[3].toNat) | _ => decide (x &&& p[3].toNat < p[2].toNat)) = true
        then { s.queue n with rd := (s.queue n).rd + 1, wait := .none } else { s.queue n with poll := 4096 }))

/-- Table 2.4: the codes of the errors that a packet itself shows, in the order in which the model looks for them (log 30): a LOG2N outside 4 to 16, a
write index more than a ring ahead, a packet that cannot be read, a KIND of 3 to 15 or a nonzero reserved field, a scope outside 3 to 5 or SLB 63 of a launch. A packet
whose page waits for a frame stops nothing (R469). -/
def StatementPart.PacketErrorsHaveTheirCodes : Prop :=
  ∀ (s : State) (k : Queue),
    (fld k.base.toNat 59 5 < 4 ∨ 16 < fld k.base.toNat 59 5 → s.nextPacket k = .stop 0x07) ∧
    (4 ≤ fld k.base.toNat 59 5 → fld k.base.toNat 59 5 ≤ 16 →
      (2 ^ fld k.base.toNat 59 5 < (k.wr - k.rd).toNat → s.nextPacket k = .stop 0x05) ∧
      ((k.wr - k.rd).toNat ≤ 2 ^ fld k.base.toNat 59 5 →
        let a := fld k.base.toNat 6 49 * 64 + 64 * (k.rd.toNat % 2 ^ fld k.base.toNat 59 5)
        (∀ d, s.helmRead s.helmDie k.asid a 64 false = .error (.frames d) → s.nextPacket k = .frames d) ∧
        (∀ m, s.helmRead s.helmDie k.asid a 64 false = .error m → (∀ d, m ≠ .frames d) → s.nextPacket k = .stop 0x06) ∧
        (∀ x u, s.helmRead s.helmDie k.asid a 64 false = .ok (x, u) →
          let p : Packet := Vector.ofFn fun i : Fin 8 => BitVec.ofNat 64 (x / 2 ^ (64 * i.val))
          (3 ≤ p.kind ∨ p.reserved = true → s.nextPacket k = .stop 0x01) ∧
          (p.kind < 3 → p.reserved = false → (p.asc < 3 ∨ 5 < p.asc ∨ p.rsc < 3 ∨ 5 < p.rsc ∨ (p.kind = 1 ∧ p.slb = 63)) →
            s.nextPacket k = .stop 0x02) ∧
          (p.kind < 3 → p.reserved = false → 3 ≤ p.asc → p.asc ≤ 5 → 3 ≤ p.rsc → p.rsc ≤ 5 → (p.kind = 1 → p.slb ≠ 63) → s.nextPacket k = .packet p u))))

/-- R40, R43, R44, R45, R46, R47, R446: a launch packet whose image, arguments and handle table can be read and pass the checks joins the waiting launches, and its
queue waits for its placement; one that does not stops the queue with its code. A launch that has waited 2^21 cycles starves and blocks. A launch that fits
takes on every die of its mask the first free rectangle: its voyage stands there, frozen until the start signal, and its packet is passed. One that does not
fit waits, or drains the victims it may pre-empt. A saved voyage that fits, on dies for which no starved launch of
higher priority waits, resumes from its image, and leaves the waiting list; one that does not fit drains its victims in the same way. While a page of what the Helm
reads waits for a frame, so does the launch, and the pool is asked for one (R469). -/
def Obligations.LaunchesArePlaced : Prop :=
  (∀ (s w x y : State) (n : Nat) (p : Packet) (i : Img) (h : List Nat) (m : Image), NextPacket s n p w → p.kind = 1 → ¬AcqHolds s n p →
    w.readLaunch (s.queue n).asid p = .ok (i, h, y) → y.readArgs (s.queue n).asid p = .ok x → i.parse = some m →
    (x.launchError? m p = none →
      ∃ u l, Gives s .voyageLaunchPacket (.queue n) u ∧ u.launches = x.launches ++ [l] ∧ l.pkt = p ∧ l.queue = n ∧ l.asid = (s.queue n).asid ∧
        l.time = x.time ∧ l.resume = none ∧ l.starve = false ∧ u.queue n = { x.queue n with wait := .placing l.id }) ∧
    (∀ c, x.launchError? m p = some c →
      ∃ u, Gives s .voyageLaunchPacket (.queue n) u ∧ u.queue n = { x.queue n with stop := true, err := c, wait := .none })) ∧
  (∀ (s w : State) (n : Nat) (p : Packet) (c : Miss), NextPacket s n p w → p.kind = 1 → ¬AcqHolds s n p → w.readLaunch (s.queue n).asid p = .error c →
    (∀ d, c = .frames d → Gives s .voyageLaunchPacket (.queue n) (w.soon .poolBorrow (.die d))) ∧
    ((∀ d, c ≠ .frames d) →
      ∃ u, Gives s .voyageLaunchPacket (.queue n) u ∧ u.queue n = { w.queue n with stop := true, err := 0x06, wait := .none })) ∧
  (∀ (s : State) (id : Nat), ∃ u, Gives s .launchStarveBlock (.launch id) u ∧
    u.launches = s.launches.map (fun (l : Launch) => if l.id = id ∧ 2 ^ 21 ≤ s.time - l.time then { l with starve := true } else l) ∧
    u.mem = s.mem ∧ u.queues = s.queues ∧ u.voyages = s.voyages) ∧
  (∀ (s w : State) (id : Nat) (l : Launch) (i : Img) (h : List Nat) (m : Image), s.launches.find? (fun l => l.id == id) = some l → l.resume = none →
    s.blocked l = false → (on s (.launch id)).readLaunch l.asid l.pkt = .ok (i, h, w) → i.parse = some m →
    (l.pkt.dies.all w.dieReady && w.cutOff m l.pkt.dies) = false →
    (∀ sp x, w.spots l m = some sp → w.configure l m sp h = .ok x →
      (∀ d px py, (d, px, py) ∈ sp → d ∈ l.pkt.dies ∧ w.occupants d px py l.pkt.pw l.pkt.ph = [] ∧ px + l.pkt.pw ≤ 14 ∧ py + l.pkt.ph ≤ 10) ∧
      ∃ u v, Gives s .placement (.launch id) u ∧ v ∈ u.voyages ∧ v.pkt = l.pkt ∧ v.asid = l.asid ∧ v.queue = l.queue ∧ v.frozen = true ∧
        v.pool = sp.flatMap (fun (d, x, y) => plats d x y l.pkt.pw l.pkt.ph) ∧ (∀ k ∈ u.launches, k.id ≠ id) ∧
        u.queue l.queue = { x.queue l.queue with rd := (x.queue l.queue).rd + 1, wait := .none }) ∧
    (w.spots l m = none → Gives s .placement (.launch id) ((w.victims l m).foldl (fun s v => s.soon .drain (.drain v 0)) w) ∧
      (l.pkt.pe = false → Gives s .placement (.launch id) w))) ∧
  (∀ (s w x : State) (id n : Nat) (l : Launch) (k : Saved) (i : Img) (h : List Nat) (m : Image) (a : List (Nat × Nat × Nat × Nat)),
    s.launches.find? (fun l => l.id == id) = some l → l.resume = some n → s.saved.find? (fun e => e.1 == n) = some (n, k) → k.complete = true →
    (on s (.launch id)).readLaunch l.asid l.pkt = .ok (i, h, w) → i.parse = some m → w.peersReady l.asid m = true →
    w.resumeSpots l (w.edgesFit m) List.isEmpty m = some a → w.reconfigure l k m h a = .ok x →
    (∀ p ∈ a, w.barred l p.2.1 = false ∧ w.dieReady p.2.1 = true) ∧
    ∃ u v, Gives s .resumePlace (.launch id) u ∧ (∀ q ∈ u.launches, q.id ≠ id) ∧ v ∈ u.voyages ∧ v.id = k.voy.id ∧ v.frozen = true ∧ v.drain = none ∧
      v.regions.map (fun r => (r.idx, r.clk, r.gen)) = k.voy.regions.map fun r => (r.idx, r.clk, r.gen)) ∧
  (∀ (s w : State) (id n : Nat) (l : Launch) (k : Saved) (i : Img) (h : List Nat) (m : Image),
    s.launches.find? (fun l => l.id == id) = some l → l.resume = some n → s.saved.find? (fun e => e.1 == n) = some (n, k) → k.complete = true →
    (on s (.launch id)).readLaunch l.asid l.pkt = .ok (i, h, w) → i.parse = some m → w.peersReady l.asid m = true →
    w.resumeSpots l (w.edgesFit m) List.isEmpty m = none →
    Gives s .resumePlace (.launch id) ((w.resumeVictims l m).foldl (fun s v => s.soon .drain (.drain v 0)) w))

/-- Queues process packets, and refuse faulty ones by code. Parts: `QueuesProcessPackets`, `PacketErrorsHaveTheirCodes`. -/
def Obligations.QueuesReadPackets : Prop := StatementPart.QueuesProcessPackets ∧ StatementPart.PacketErrorsHaveTheirCodes


/-! ### How regions and voyages end (R49, R60, R61, R256, R439, R440, R199) -/

/-- R49, R437: a running region whose done channel has a level-3 stop at its head retires: the stop is consumed, and the region fires no more; when it is not the
last of its voyage, the voyage goes on. When every region has retired, nothing of the voyage is still at work on its plats and its Helms owe no write, its
stations, routes and generators go, its plats are free, and it leaves the machine unless REL makes it wait for its writes, or its completion write for a frame.
Without such a stop nothing happens. -/
def StatementPart.RegionsRetire : Prop :=
  ∀ (s : State) (voy reg : Nat) (v : Voyage) (r : Region), s.voyage? voy = some v → v.region? reg = some r →
    (s.doneStop r = false ∨ r.st ≠ .running ∨ v.frozen = true ∨ r.frozen = true → Passes s .regionRetire (.region voy reg)) ∧
    (s.doneStop r = true → r.st = .running → v.frozen = false → r.frozen = false → v.ended = false →
      ∃ u, Gives s .regionRetire (.region voy reg) u ∧
        (v.halted = false → (∃ q ∈ v.regions, q.idx ≠ reg ∧ q.st ≠ .retired) →
          ∃ w q, u.voyage? voy = some w ∧ w.region? reg = some q ∧ q.st = .retired ∧ w.pool = v.pool ∧
            ∀ k q', k ≠ reg → v.region? k = some q' → w.region? k = some q') ∧
        ((∀ q ∈ v.regions, q.idx ≠ reg → q.st = .retired) →
          (let x := (((on s (.region voy reg)).modStation (r.at r.dn.1.val r.dn.2.1.val) fun t => t.modC r.dn.2.2 Fifo.pop).modRegion voy reg
              fun r => { r with st := .retired }).leaveMarks v r
            let y := x.owe voy (x.statusWrites v r 1)
            y.busyPlats voy = false ∧ ∀ w, y.voyage? voy = some w → w.owed = []) →
          (∀ t ∈ u.stations, t.voy ≠ voy) ∧ (∀ t ∈ u.routes, t.voy ≠ voy) ∧ (∀ g ∈ u.agens, g.voy ≠ voy) ∧
            (∀ w ∈ u.voyages, w.id = voy → w.pool = [] ∧ w.ended = true) ∧
            (v.pkt.rel = false → v.pkt.caddr = 0 → ∀ w ∈ u.voyages, w.id ≠ voy)))

namespace Sys2Proof.Claims

/-- What a halt of one region with a code and a payload records in the voyage (R439): that region's code and record, code 0 and an empty record for the others
that had not retired, and the halt word for its CADDR. -/
def Records (w v : Voyage) (reg : Nat) (code : Byte) (x : BitVec 128) : Prop :=
  w.halted = true ∧ w.pkt.cval = (haltWord code reg v.save).toNat ∧
    w.regions.map (·.idx) = v.regions.map (·.idx) ∧
    (∀ q ∈ w.regions, q.idx = reg → q.st = .halted ∧ q.code = code ∧ q.haltRec = x) ∧
    (∀ q ∈ w.regions, q.idx ≠ reg → q.st = .retired ∨ (q.st = .halted ∧ q.code = 0 ∧ q.haltRec = 0))

/-- A copy of the voyage that goes on at a halt: released, not withheld, with an end in station storage. -/
def goesOn (voy : Nat) (k : Copy) : Bool := k.voy == voy && k.run && k.wait.isNone && k.onPlats

/-- A voyage that halts (R439): its requests that had not been released, or that wait for room in a cell, go. Its stations go too and its plats are free, its
halt word next to be written, unless a copy that goes on still needs them. What is left of the voyage records the halt. -/
def Halts (s u : State) (v : Voyage) (reg : Nat) (code : Byte) (x : BitVec 128) : Prop :=
  (∀ q ∈ u.reqs, q.voy = v.id → q.heldBack = false) ∧ (∀ w ∈ u.voyages, w.id = v.id → Records w v reg code x) ∧
    (s.copies.any (goesOn v.id) = true → u.stations = s.stations ∧ ∃ w, u.voyage? v.id = some w ∧ w.ended = v.ended ∧ w.pool = v.pool) ∧
    (s.copies.any (goesOn v.id) = false →
      (∀ t ∈ u.stations, t.voy ≠ v.id) ∧ (∀ w ∈ u.voyages, w.id = v.id → w.pool = [] ∧ w.ended = true) ∧
      (v.pkt.rel = false → v.owed = [] → (∀ b ∈ s.saveBases, b.1 ≠ v.asid) →
        (v.pkt.caddr = 0 → ∀ w ∈ u.voyages, w.id ≠ v.id) ∧
        (v.pkt.caddr ≠ 0 → ∀ z,
          (let y := (s.halting v [reg] code x).clearVoyage v.id;
            y.helmStore y.helmDie v.asid v.pkt.caddr 8 (haltWord code reg v.save).toNat) = .ok z →
          u.mem = z.mem ∧ ∀ w ∈ u.voyages, w.id ≠ v.id)))

/-- A time limit that has run out (R256, R292, R454): the region takes the class as its code, and the voyage drains, or, without SAVEBASE, halts. -/
def Expires (s u : State) (v : Voyage) (r : Region) (t : Station) (ctx : Fin 8) (slot : Fin 32) (f : FaultC) : Prop :=
  u.region? v.id r.idx = some { r with code := BitVec.ofNat 8 f.code } ∧ u.mem = s.mem ∧ u.reqs = s.reqs ∧ u.copies = s.copies ∧
    u.agenda = if (s.saveBlock v.asid v.save r.idx).isSome then (.drain, .drain v.id 1) :: s.agenda
      else s.agenda ++ [(.regionHalt, .halt v.id r.idx (BitVec.ofNat 8 f.code) ((faultPayload t ctx slot f).extractLsb' 0 128))]

/-- The first of some pieces of an access that the translation withholds. -/
def FirstHeld (s : State) (asid : BitVec 16) (rd wr : Bool) (ps : List (Nat × Nat)) (a : Nat) : Prop :=
  ∃ pre n post w, ps = pre ++ (a, n) :: post ∧ s.translate asid a rd wr = .held w ∧ ∀ p ∈ pre, ∀ h, s.translate asid p.1 rd wr ≠ .held h

end Sys2Proof.Claims

/-- R439: a region that runs or waits halts with its code, and with it the voyage's other regions, with code 0: the regions' records and the halt word say so,
and the plats are free, at once or, where a copy that was released still has an end on them, after it (log 88); a fault gives way to the `halt` of the region's
program in the same cycle (R448). R61: so does a region that stays quiet for 4,096 cycles after the deadlock fault, with code 0x09. R60: a voyage quiet for
4,096 cycles takes the deadlock fault, which is the code of its running regions, and its quiet count starts again. The model's choice (log 86): a region's quiet
cycles are its voyage's. -/
def StatementPart.RegionsHalt : Prop :=
  (∀ (s : State) (voy reg : Nat) (code : Byte) (x : BitVec 128) (v : Voyage) (r : Region), s.voyage? voy = some v → v.region? reg = some r → v.ended = false →
    r.st = .running ∨ r.st = .waiting →
    (code ≠ 0x0C → s.haltComes voy reg = true → Passes s .regionHalt (.halt voy reg code x)) ∧
    (code = 0x0C ∨ s.haltComes voy reg = false →
      ∃ u, Gives s .regionHalt (.halt voy reg code x) u ∧ Halts (on s (.halt voy reg code x)) u v reg code x)) ∧
  (∀ (s : State) (voy reg : Nat) (v : Voyage) (r : Region), s.voyage? voy = some v → v.region? reg = some r → v.ended = false → 4096 ≤ v.quiet → v.dead = true →
    r.st = .running → ∀ t, s.station? (r.at 0 0) = some t →
    ∃ u, Gives s .deadlockHalt (.region voy reg) u ∧
      Halts (on s (.region voy reg)) u v reg 0x09 ((faultPayload t 0 0 ⟨0x09, 0, 0⟩).extractLsb' 0 128)) ∧
  (∀ (s : State) (voy reg : Nat) (v : Voyage) (r : Region), s.voyage? voy = some v → v.region? reg = some r → (v.quiet < 4096 ∨ v.dead = false ∨ r.st ≠ .running) →
    Passes s .deadlockHalt (.region voy reg)) ∧
  (∀ (s : State) (voy : Nat) (v : Voyage), s.voyage? voy = some v → 4096 ≤ v.quiet → v.dead = false →
    ∃ u w, Gives s .quietDeadlock (.voyage voy) u ∧ u.voyage? voy = some w ∧ w.quiet = 0 ∧ w.dead = true ∧ w.pool = v.pool ∧
      u.stations.map (·.id) = s.stations.map (·.id) ∧ ∀ q ∈ v.regions, q.st = .running → ∃ r, w.region? q.idx = some r ∧ r.code = 0x09 ∧ r.st = .running) ∧
  (∀ (s : State) (voy : Nat) (v : Voyage), s.voyage? voy = some v → (v.quiet < 4096 ∨ v.dead = true) → Passes s .quietDeadlock (.voyage voy))

/-- R256, R292: a region whose time limit has run out takes the class of what withheld its access as its code, and drains, or halts in an address space without
SAVEBASE (R454): for a request, judged at the first piece of it that is withheld; for a copy, at its source and then its destination; for the tree engine; for
an edge whose links are all down (R465; its class is the model's choice, log 105). A request or a copy that a halted region has left is dropped (log 88). Table 10.8: the
classes. -/
def StatementPart.TimeLimitsExpire : Prop :=
  (∀ (s : State) (id : Nat) (q : Req) (w : Held) (t : Station) (v : Voyage) (r : Region), s.req? id = some q → s.heldBack q = some w →
    s.station? q.st = some t → s.voyage? q.voy = some v → v.region? q.reg = some r →
    (q.held < r.tlim → Passes s .timeLimitExpiry (.req id)) ∧
    (r.tlim ≤ q.held → r.st ≠ .halted →
      ∃ u, Gives s .timeLimitExpiry (.req id) u ∧ Expires s u v r t q.ctx q.slot ((on s (.req id)).limitReq w q)) ∧
    (r.tlim ≤ q.held → r.st = .halted →
      ∃ u, Gives s .timeLimitExpiry (.req id) u ∧ u.req? id = none ∧ (∀ c n wr, q.op = .part c n wr → u.copy? c = none) ∧ u.agenda = s.agenda ∧
        u.voyages = s.voyages)) ∧
  (∀ (s : State) (id : Nat) (k : Copy) (w : Held) (t : Station) (v : Voyage) (r : Region), s.copy? id = some k → k.wait = some w →
    s.station? k.st = some t → s.voyage? k.voy = some v → v.region? k.reg = some r →
    (k.held < r.tlim → Passes s .timeLimitExpiry (.copy id)) ∧
    (r.tlim ≤ k.held → r.st ≠ .halted →
      ∃ u, Gives s .timeLimitExpiry (.copy id) u ∧ Expires s u v r t k.ctx k.slot ((on s (.copy id)).limitCopy w k)) ∧
    (r.tlim ≤ k.held → r.st = .halted →
      ∃ u, Gives s .timeLimitExpiry (.copy id) u ∧ u.copy? id = none ∧ u.req? k.req = none ∧ u.agenda = s.agenda ∧ u.voyages = s.voyages)) ∧
  (∀ (s : State) (i : StId) (t : Station) (j : TreeJob) (w : Held) (va : Nat) (v : Voyage) (r : Region), s.station? i = some t →
    t.sd.bind (·.eng) = some j → j.wait = some (w, va) → s.voyage? t.voy = some v → v.region? t.reg = some r →
    (j.held < r.tlim → Passes s .timeLimitExpiry (.st i)) ∧
    (r.tlim ≤ j.held → r.st ≠ .halted → ∃ u, Gives s .timeLimitExpiry (.st i) u ∧ Expires s u v r t j.ctx j.slot ((on s (.st i)).limitFault w v.asid va accTree))) ∧
  (∀ (s : State) (id : Nat) (e : Route) (t : Station) (v : Voyage) (r : Region), s.routeId? id = some e → s.cutEdge e = true → s.station? e.src = some t →
    s.voyage? e.voy = some v → v.region? e.reg = some r →
    (e.held < r.tlim → Passes s .timeLimitExpiry (.route id)) ∧
    (r.tlim ≤ e.held → r.st ≠ .halted → ∃ u, Gives s .timeLimitExpiry (.route id) u ∧ Expires s u v r t 0 0 (transFault 1 accStore 0))) ∧
  (∀ (s : State) (asid : BitVec 16) (va acc d : Nat),
    (s.limitFault .copyOnWrite asid va acc = ⟨0x04, 0, va⟩) ∧ (s.limitFault .decompress asid va acc = ⟨0x04, 1, va⟩) ∧
    (s.limitFault .notPresent asid va acc = transFault 1 acc va) ∧ (s.limitFault .firstTouch asid va acc = transFault 1 acc va) ∧
    (s.limitFault .noPeer asid va acc = transFault 1 acc va) ∧
    ∀ a e, s.walk asid va = .leaf a e → s.limitFault (.noFrame d) asid va acc =
      if pteKind e = 2 then ⟨0x04, 0, va⟩ else if pteKind e = 0 then ⟨0x04, 1, va⟩ else transFault 1 acc va) ∧
  (∀ (s : State) (q : Req) (w : Held) (a : Nat), q.parts = [] → FirstHeld s q.asid q.op.reads q.op.writes (lineParts q.va q.bytes) a →
    s.limitReq w q = s.limitFault w q.asid a q.acc) ∧
  (∀ (s : State) (k : Copy) (w : Held) (x y : Int) (n a : Nat), k.piece = (x, y, n) →
    (k.src.h.space = .dev → FirstHeld s k.asid true false (lineParts x.toNat n) a → s.limitCopy w k = s.limitFault w k.asid a accCopy) ∧
    ((k.src.h.space = .dev → ∀ p ∈ lineParts x.toNat n, ∀ h, s.translate k.asid p.1 true false ≠ .held h) → k.dst.h.space = .dev →
      FirstHeld s k.asid false true (lineParts y.toNat n) a → s.limitCopy w k = s.limitFault w k.asid a accCopy))

/-- R46, R440, R441, R448: a voyage that is to drain freezes, keeps the reason, and is requeued unless its time limit ran out; a second reason while it
drains clears that. R199: a region with a pending snapshot freezes; when its image has been saved it goes on where it stood. When the images of a drained voyage
have been saved, it leaves its plats and is kept; if its image is complete and it was pre-empted, its launch waits again at the head of the list. While a page of
the save blocks waits for a frame, the save waits (R469). The model's choices: the voyage freezes in the drain's own step, where R440 allows up to 64 cycles
(log 68), and what a failed save leaves (log 72). -/
def Obligations.VoyagesFreezeAndAreSaved : Prop :=
  (∀ (s : State) (voy : Nat) (x : Byte) (v : Voyage), s.voyage? voy = some v → v.ended = false → v.retired = false → v.halted = false →
    ∃ u w, Gives s .drain (.drain voy x) u ∧ u.voyage? voy = some w ∧ u.mem = s.mem ∧ u.stations = s.stations ∧
      (v.drain = none → w.frozen = true ∧ w.drain = some (x, 0) ∧ w.requeue = (x == 0) ∧
        w.regions = v.regions.map fun r => match r.snap with
          | .pending _ => { r with snap := .none, gen := r.gen - 1, frozen := false } | _ => r) ∧
      (∀ y n, v.drain = some (y, n) → w = { v with drain := some (if y = 0 then x else y, n), requeue := v.requeue && x == 0 })) ∧
  (∀ (s : State) (voy reg : Nat) (v : Voyage) (r : Region), s.voyage? voy = some v → v.region? reg = some r → v.drain = none → r.snap = .pending 0 →
    r.st = .running →
    ∃ u q, Gives s .snapshot (.region voy reg) u ∧ u.region? voy reg = some q ∧ q = { r with frozen := true } ∧ u.stations = s.stations ∧ u.mem = s.mem) ∧
  (∀ (s : State) (voy reg : Nat) (v : Voyage) (r : Region), s.voyage? voy = some v → v.region? reg = some r → r.snap = .saving 0 → r.frozen = true →
    (∀ d, (on s (.region voy reg)).saveRegions v [r] 2 (fun _ => 0) (·.gen) ≠ .error (.frames d)) →
    ∃ u q, Gives s .imageSaveDone (.region voy reg) u ∧ u.region? voy reg = some q ∧ q.snap = .none ∧ q.frozen = false ∧ q.st = r.st ∧ q.clk = r.clk ∧
      u.stations = s.stations ∧ u.routes = s.routes) ∧
  (∀ (s : State) (voy : Nat) (v : Voyage) (x : Byte) (n : Nat), s.voyage? voy = some v → v.drain = some (x, n) →
    v.regions.all (fun r => r.st == .retired || (r.snap == .saving 0 && !r.frozen)) = true → v.owed = [] →
    (∀ d, (on s (.voyage voy)).saveRegions v v.regions x.toNat (fun r => if r.st == .retired then 1 else 3) (fun r => r.gen + 1) ≠ .error (.frames d)) →
    ∃ u k, Gives s .imageSaveDone (.voyage voy) u ∧ (∀ w ∈ u.voyages, w.id ≠ voy) ∧ (∀ t ∈ u.stations, t.voy ≠ voy) ∧ (∀ q ∈ u.reqs, q.voy ≠ voy) ∧
      u.saved.head? = some (v.save, k) ∧ k.held = true ∧
      (v.requeue = true → k.complete = true → ∃ l, u.launches.head? = some l ∧ l.pkt = v.pkt ∧ l.asid = v.asid ∧ l.queue = v.queue ∧ l.resume = some v.save) ∧
      (v.requeue = false → u.launches = s.launches))

/-- Regions retire, halt and run out of time. Parts: `RegionsRetire`, `RegionsHalt`, `TimeLimitsExpire`. Model's choices: logs 86, 88, 105. -/
def Obligations.RegionsEnd : Prop := StatementPart.RegionsRetire ∧ StatementPart.RegionsHalt ∧ StatementPart.TimeLimitsExpire


/-! ### Requests (R230-R236, R240-R257, R261, R267-R277, R290) -/

namespace Sys2Proof.Claims

/-- The request stands in the machine. -/
def Stands (s : State) (q : Req) : Prop := s.req? q.id = some q

/-- Its operation goes to a home through a translation: no copy, prefetch, `mnop`, `settle`, `disc` or `xlat`. -/
def goesHome (q : Req) : Bool :=
  match q.op with
  | .mnop | .pref _ | .settle | .copy _ | .disc _ | .xlat => false
  | _ => true

/-- A request on one part of device memory, not corrupt, that stands at its home under the map it was sent with. -/
def AtHome (s : State) (q : Req) (pa n : Nat) : Prop :=
  Stands s q ∧ q.stage = .home 0 ∧ q.way = [] ∧ s.stale q = false ∧ q.h.space = .dev ∧ q.parts = [(q.va, pa, n)] ∧ paCls pa = .dev ∧ s.corrupt pa n = false ∧
    q.vers = false

/-- The reply that has been set out for a request. -/
def Answers (u : State) (q : Req) (r : Reply) : Prop := ∃ y k, u.req? q.id = some y ∧ y.stage = .reply k r ∧ y.dest = q.dest ∧ y.st = q.st

end Sys2Proof.Claims

/-- R230, R232, R235, R236, R244, R256: a request that finds room at its port enters its buffer with the pass of its OWN, and its credit returns; without room it
waits. The request that its chain lets go is translated whole: where every part has an address, it is out on its way to its home, and the chain goes on
with its SUCC; where a part faults, the fault is its answer, and the chain goes on; where a part is withheld, it waits in its place and the chain with
it. A SPACE 1 request has no port: it takes its way to its target (R22); a request to a peer that no link reaches is withheld (R465). An `mnop` ends here,
and, by the model's choice (log 58), a prefetch: R280 lets it bring lines to the home slice, where they could be told only by their time. -/
def StatementPart.PortsTakeAndRelease : Prop :=
  (∀ (s : State) (q : Req), Stands s q → q.stage = .net 0 → q.h.space ≠ .win → q.op.monitor = false →
    (s.portRoom q = false → Passes s .memoryRequestIssue (.req q.id)) ∧
    (s.portRoom q = true → ∃ u y, Gives s .memoryRequestIssue (.req q.id) u ∧ u.req? q.id = some y ∧ u.mem = s.mem ∧
      y = { q with stage := .port, credit := false, arrived := s.nextId, pass := match s.domain? q with | some d => d.arrived q.own | none => 0 } ∧
      (∀ d, s.domain? q = some d → u.domain? q = some (d.arrive q.own)) ∧
      ∀ t, s.station? q.st = some t → ∃ v, u.station? q.st = some v ∧ v.credits = if q.credit then t.credits - 1 else t.credits)) ∧
  (∀ (s : State) (q : Req), Stands s q → q.stage = .net 0 → q.h.space ≠ .win → q.op.monitor = true →
    ∃ u, Gives s .memoryRequestIssue (.req q.id) u ∧ u.req? q.id = some { q with stage := .translate }) ∧
  (∀ (s : State) (q : Req), Stands s q → q.stage = .net 0 → q.h.space = .win →
    (q.released = true → Passes s .memoryRequestIssue (.req q.id)) ∧
    (q.released = false → ∃ u, Gives s .memoryRequestIssue (.req q.id) u ∧ u.mem = s.mem ∧ u.stations = s.stations ∧
      u.req? q.id = some { q with way := (s.flowWay q false).1, released := true })) ∧
  (∀ (s : State) (q : Req), Stands s q → s.canRelease q = false ∨ s.still q.voy q.reg = true → Passes s .portRelease (.req q.id)) ∧
  (∀ (s w : State) (q : Req) (p : Nat × Nat), Stands s q → s.canRelease q = true → s.still q.voy q.reg = false → q.port = some p → q.h.space = .dev → goesHome q = true → q.parts = [] →
    (∀ ps op v, (on s (.req q.id)).transWhole q p (lineParts q.va q.bytes) = (.ok ps op v, w) →
      ∃ u y n, Gives s .portRelease (.req q.id) u ∧ u.req? q.id = some y ∧ y.stage = .home n ∧ y.released = true ∧ y.parts = ps ∧ y.op = op ∧ y.vers = v ∧
        y.dest = q.dest ∧ y.stamp = q.stamp ∧ u.mem = w.mem ∧
        (q.released = false → q.op.monitor = false → ∀ d, w.domain? q = some d → u.domain? q = some { d.after q with versioned := d.versioned || v })) ∧
    (∀ f t, (on s (.req q.id)).transWhole q p (lineParts q.va q.bytes) = (.fault f, w) → w.station? q.st = some t → w.req? q.id = some q →
      ∃ u, Gives s .portRelease (.req q.id) u ∧ Answers u q (.fault (faultToken t q.ctx q.slot q.slack.served f)) ∧
        (q.released = false → q.op.monitor = false → ∀ d, w.domain? q = some d → u.domain? q = some (d.after q))) ∧
    (∀ why va, (on s (.req q.id)).transWhole q p (lineParts q.va q.bytes) = (.held why va, w) → w.req? q.id = some q →
      ∃ u, Gives s .portRelease (.req q.id) u ∧ u.req? q.id = some { q with stage := .withheld why } ∧ u.domains = w.domains)) ∧
  (∀ (s : State) (q : Req), Stands s q → s.canRelease q = true → s.still q.voy q.reg = false → q.h.space = .peer → goesHome q = true →
    (s.boundUp q.asid q.h.peer.toNat = [] →
      ∃ u, Gives s .portRelease (.req q.id) u ∧ u.req? q.id = some { q with stage := .withheld .noPeer } ∧ u.domains = s.domains) ∧
    (s.boundUp q.asid q.h.peer.toNat ≠ [] → q.released = false → q.op.monitor = false →
      ∃ u y n, Gives s .portRelease (.req q.id) u ∧ u.req? q.id = some y ∧ y.stage = .home n ∧ y.released = true ∧
        ∀ d, s.domain? q = some d → u.domain? q = some (d.after q))) ∧
  (∀ (s : State) (q : Req), Stands s q → s.canRelease q = true → s.still q.voy q.reg = false → q.released = false → (q.op = .mnop ∨ ∃ n, q.op = .pref n) →
    ∃ u, Gives s .portRelease (.req q.id) u ∧ u.req? q.id = none ∧ u.mem = s.mem ∧ ∀ d, s.domain? q = some d → u.domain? q = some (d.after q))

/-- R244, R269 to R271: a load of one part answers with its bytes, sign or zero extended, and leaves memory as it is. R274, R275: a store writes its bytes and no
others; an atomic and a reduction leave the operation's result there, and the atomic answers with what was there before. So do the requests of address
generators, of copy engines for lines of other dies, in pieces of the model's size (R22, log 99), and of tree engines, which take a lock by comparing
and swapping it (R383, R390). -/
def StatementPart.RequestsPerform : Prop :=
  ∀ (s : State) (q : Req) (pa : Nat), MemoryCanonical s →
    (∀ w sx, q.op = .load w sx → q.dest ≠ .none → AtHome s q pa w →
      ∃ u, Gives s .homePerform (.req q.id) u ∧ u.mem = s.mem ∧ Answers u q (.ok (scalarReg (extend sx w (Memory.read s.mem pa w))))) ∧
    (∀ n, q.op = .loadV n → q.dest ≠ .none → AtHome s q pa n →
      ∃ u, Gives s .homePerform (.req q.id) u ∧ u.mem = s.mem ∧ Answers u q (.ok (VReg.plain q.h.fmt (Memory.read s.mem pa n)))) ∧
    (∀ n, q.op = .store n → q.dest = .none → (∀ side o, q.src ≠ .agen side o) → AtHome s q pa n → 0 < n →
      ∃ u, Gives s .homePerform (.req q.id) u ∧ u.req? q.id = none ∧
        Memory.read u.mem pa n = q.data.toNat % 2 ^ (8 * n) ∧ ∀ a : Nat, a < pa ∨ pa + n ≤ a → Memory.get u.mem a = Memory.get s.mem a) ∧
    (∀ op n, (q.op = .atom op n ∨ q.op = .red op n) → (q.op = .atom op n → q.dest ≠ .none) → (q.op = .red op n → q.dest = .none) → (∀ side o, q.src ≠ .agen side o) →
      AtHome s q pa n → 0 < n →
      let old := Memory.read s.mem pa n
      ∃ u, Gives s .homePerform (.req q.id) u ∧
        Memory.read u.mem pa n = applyOp op.toNat old q.data.toNat q.y.toNat % 2 ^ (8 * n) ∧
        (∀ a : Nat, a < pa ∨ pa + n ≤ a → Memory.get u.mem a = Memory.get s.mem a) ∧
        (q.op = .atom op n → Answers u q (.ok (scalarReg (BitVec.ofNat 64 old)))) ∧ (q.op = .red op n → u.req? q.id = none)) ∧
    (∀ n, (∃ wide, q.op = .agLoad wide) ∨ (∃ c m, q.op = .part c m false) ∨ (∃ j c f m, q.op = .tree j (.data c f) m false) ∨
        (∃ j i m, q.op = .tree j (.lock i) m false) → ((∃ side o, q.src = .agen side o) ∨ ∀ wide, q.op ≠ .agLoad wide) → AtHome s q pa n →
      ∃ u, Gives s .homePerform (.req q.id) u ∧ u.mem = s.mem ∧ Answers u q (.ok (q.view (Memory.read s.mem pa n)))) ∧
    (∀ n, (∃ c m, q.op = .part c m true) ∨ (∃ j m, q.op = .tree j .put m true) → AtHome s q pa n → 0 < n →
      ∃ u, Gives s .homePerform (.req q.id) u ∧ Answers u q (.ok (q.view 0)) ∧
        Memory.read u.mem pa n = q.data.toNat % 2 ^ (8 * n) ∧ ∀ a : Nat, a < pa ∨ pa + n ≤ a → Memory.get u.mem a = Memory.get s.mem a) ∧
    (∀ j i m n, q.op = .tree j (.take i) m true → AtHome s q pa n → 0 < n →
      let old := Memory.read s.mem pa n
      ∃ u, Gives s .homePerform (.req q.id) u ∧ Answers u q (.ok (scalarReg (BitVec.ofNat 64 old))) ∧
        Memory.read u.mem pa n = (if old = q.y.toNat then q.data.toNat else old) % 2 ^ (8 * n) ∧
        ∀ a : Nat, a < pa ∨ pa + n ≤ a → Memory.get u.mem a = Memory.get s.mem a)

/-- R252, R253, R261, R272, R290, R262: an update of a versioned line that finds no room is held, and after 65,536 cycles faults with code 0x05; a settled
load is answered once the watermark has passed its stamp, and waits before; a `settle` raises its domain's mark and is done; a copy starts once what comes
before it has performed, and its request stays with it; a monitor whose line was written answers with the word written; a request under an old slice map goes
back over its links and comes again for the new one. R435: an uncorrectable error that appears stays with its row, line or word of station storage, with a
kind of its own; one on a link makes a request's answer the corrupt-data fault. -/
def StatementPart.RequestsWaitAtTheirHome : Prop :=
  (∀ (s : State) (q : Req) (op : BitVec 6) (n pa : Nat), q.op = .upd op n → Stands s q → q.stage = .home 0 → q.way = [] → s.stale q = false → q.h.space = .dev →
    q.parts = [(q.va, pa, n)] → s.badPart q = none → q.dest = .none → (∀ side o, q.src ≠ .agen side o) →
    ((on s (.req q.id)).insertEntry q.asid (pa / 128) (q.hist op n pa) = none →
      ∃ u, Gives s .homePerform (.req q.id) u ∧ u.req? q.id = some { q with stage := .room 0 } ∧ u.mem = s.mem ∧ u.cells = s.cells) ∧
    (∀ w, (on s (.req q.id)).insertEntry q.asid (pa / 128) (q.hist op n pa) = some w →
      ∃ u, Gives s .homePerform (.req q.id) u ∧ u.req? q.id = none ∧ u.mem = w.mem ∧ u.cells = w.cells)) ∧
  (∀ (s : State) (q : Req) (n : Nat) (t : Station), Stands s q → q.stage = .room n → s.station? q.st = some t →
    (65536 ≤ n → ∃ u, Gives s .historyOverflow (.req q.id) u ∧ u.mem = s.mem ∧
      Answers u q (.fault (faultToken t q.ctx q.slot q.slack.served ⟨0x05, q.stamp.toNat % 2 ^ 32, q.va⟩))) ∧
    (n < 65536 → Passes s .historyOverflow (.req q.id))) ∧
  (∀ (s : State) (q : Req) (w : Nat) (sx st : Bool) (x : Nat), Stands s q → q.stage = .settle → q.op = .ldt w sx st → q.dest ≠ .none →
    (q.stamp.toNat < s.watermark q.asid → s.readAll q = .ok x →
      ∃ u, Gives s .settledLoadRelease (.req q.id) u ∧ u.mem = s.mem ∧ Answers u q (.ok (scalarReg (extend sx w x)))) ∧
    (s.watermark q.asid ≤ q.stamp.toNat → Passes s .settledLoadRelease (.req q.id))) ∧
  (∀ (s : State) (q : Req), Stands s q → q.stage = .settle → q.op = .settle →
    Gives s .homePerform (.req q.id) (((on s (.req q.id)).raiseMark q.asid (.domain q.voy q.domNum) (q.stamp.toNat + 1)).dropReq q.id)) ∧
  (∀ (s : State) (q : Req) (k : Nat) (c : Copy), Stands s q → q.stage = .settle → q.op = .copy k → s.copy? k = some c →
    ∃ u, Gives s .homePerform (.req q.id) u ∧ u.req? q.id = some q ∧ u.copy? k = some { c with run := true, slack := q.slack }) ∧
  (∀ (s : State) (q : Req) (w : Word), Stands s q → q.stage = .hit w → q.dest ≠ .none →
    ∃ u, Gives s .monitorComplete (.req q.id) u ∧ u.mem = s.mem ∧ Answers u q (.ok (scalarReg w))) ∧
  (∀ (s : State) (q : Req) (d : Die), Stands s q → q.stage = .home 0 → q.h.space = .dev → s.die? q.homeDie = some d → d.epoch ≠ q.epoch →
    Passes s .homePerform (.req q.id) ∧
    (q.way = [] →
      let (back, w) := s.flowWay q true
      ∃ u n, Gives s .rehashBounce (.req q.id) u ∧ u.mem = s.mem ∧
        u.req? q.id = some { q with epoch := d.epoch, way := back ++ (w.flowWay q false).1, stage := .home n })) ∧
  (∀ (s : State) (q : Req), q.way ≠ [] → Stands s q → q.stage = .home 0 → Passes s .homePerform (.req q.id) ∧ Passes s .rehashBounce (.req q.id)) ∧
  (∀ (s : State) (l k : Nat) (a : EvArg), (a, k) ∈ [(EvArg.row l, 0), (.line l, 1)] →
    ∃ u, Gives s .homePerform a u ∧ u.mem = s.mem ∧ (l, k) ∈ u.bad ∧ ∀ b, b ≠ (l, k) → (b ∈ u.bad ↔ b ∈ s.bad)) ∧
  (∀ (s : State) (i : StId) (sh : Bool) (a : Nat) (t : Station), s.station? i = some t →
    ∃ u w, Gives s .homePerform (.cell i sh a) u ∧ u.mem = s.mem ∧ u.station? i = some w ∧ w = { t with worn := (sh, a / 8) :: t.worn }) ∧
  (∀ (s : State) (q : Req) (t : Station), Stands s q → s.station? q.st = some t →
    ∃ u, Gives s .homePerform (.tok (.req q.id)) u ∧ u.mem = s.mem ∧ Answers u q (.fault (faultToken t q.ctx q.slot q.slack.served ⟨0x0A, 3, 0⟩)))

/-- R53, R165, R268, R285, R439, R22: a reply that reaches its station, every die link crossed, is written to its destination, which it no longer owes, and
the request is over; a fault token goes where R165 says, with the counter of the reply (R52); an element of an address generator waits in the generator for
its turn; a piece of a copy goes on to its destination, or counts as written; what a tree engine has asked for is kept for its operation; any other reply of a
halted region is discarded. -/
def StatementPart.RepliesLand : Prop :=
  (∀ (s : State) (q : Req) (r : Reply), Stands s q → q.stage = .reply 0 r → q.way ≠ [] → Passes s .memoryReplyLands (.req q.id)) ∧
  ∀ (s : State) (q : Req) (r : Reply) (g : Region), Stands s q → q.stage = .reply 0 r → q.way = [] → s.region? q.voy q.reg = some g →
    (g.st = .halted → (∀ c n wr, q.op ≠ .part c n wr) →
      ∃ u, Gives s .memoryReplyLands (.req q.id) u ∧ u.req? q.id = none ∧ u.stations = s.stations ∧ u.mem = s.mem) ∧
    (g.st ≠ .halted → (∀ side off, q.src ≠ .agen side off) → (∀ c n wr, q.op ≠ .part c n wr) → (∀ j x n wr, q.op ≠ .tree j x n wr) → ∀ t, s.station? q.st = some t →
      (∀ v n, r = .ok v → q.dest = .d n →
        ∃ u w, Gives s .memoryReplyLands (.req q.id) u ∧ u.req? q.id = none ∧ u.mem = s.mem ∧ u.station? q.st = some w ∧
          w.d[n] = v.data.setWidth 64 ∧ .d n ∉ w.pend ∧ w.v = t.v ∧ w.h = t.h ∧ w.c = t.c ∧ (∀ m, m ≠ n → w.d[m] = t.d[m]) ∧
          w.mons = (if q.op.monitor then t.mons - 1 else t.mons)) ∧
      (∀ v n, r = .ok v → q.dest = .v n →
        ∃ u w, Gives s .memoryReplyLands (.req q.id) u ∧ u.req? q.id = none ∧ u.mem = s.mem ∧ u.station? q.st = some w ∧
          w.v[n] = v.held ∧ .v n ∉ w.pend ∧ w.d = t.d ∧ w.h = t.h ∧ w.c = t.c ∧ (∀ m, m ≠ n → w.v[m] = t.v[m])) ∧
      (∀ k, r = .fault k → q.dest = .none → q.op.monitor = false →
        ∃ v : State, Gives s .memoryReplyLands (.req q.id) (v.pushFault t.voy t.reg { k with bg := q.slack.bg, slack := q.slack.n }) ∧
          v.req? q.id = none ∧ v.stations = s.stations)) ∧
    (∀ side off v, g.st ≠ .halted → q.src = .agen side off → r = .ok v →
      ∃ u, Gives s .memoryReplyLands (.req q.id) u ∧ u.req? q.id = none ∧ u.stations = s.stations ∧
        u.agens = s.agens.map fun a => if a.die = q.st.die ∧ a.side = side ∧ a.off = off then
          { a with outq := a.outq.map fun (e : Nat × Option Token) => if e.1 = q.id then (e.1, some (Token.vec v q.slack)) else e } else a) ∧
    (∀ c n k v, (∀ side off, q.src ≠ .agen side off) → q.op = .part c n true → r = .ok v → s.copy? c = some k →
      ∃ u, Gives s .memoryReplyLands (.req q.id) u ∧ u.req? q.id = none ∧ u.mem = s.mem ∧ u.copy? c = some { k with pos := k.pos + n, wait := none, held := 0 }) ∧
    (∀ c n k a b m v w x, (∀ side off, q.src ≠ .agen side off) → q.op = .part c n false → r = .ok v → s.copy? c = some k → k.piece = (a, b, m) →
      k.dst.h.space ≠ .peer → k.write ((on s (.req q.id)).dropReq q.id) b n (v.data.toNat % 2 ^ (8 * n)) = .ok w x → x.copy? c = some k →
      ∃ u, Gives s .memoryReplyLands (.req q.id) u ∧ u.copy? c = some { k with pos := k.pos + n, wait := none, held := 0 } ∧ u.mem = x.mem ∧ u.host = x.host) ∧
    (∀ j key n wr v t d e, g.st ≠ .halted → (∀ side off, q.src ≠ .agen side off) → q.op = .tree j key n wr → r = .ok v → key ≠ .put →
      s.station? q.st = some t → t.sd = some d → d.eng = some e → e.time = j →
      ∃ u w, Gives s .memoryReplyLands (.req q.id) u ∧ u.req? q.id = none ∧ u.mem = s.mem ∧ u.station? q.st = some w ∧
        ((w.sd.bind (·.eng)).bind fun e => memoAt e.memo key) = some v.data.toNat ∧ w.d = t.d ∧ w.v = t.v ∧ w.h = t.h ∧ w.c = t.c)

/-- R237, R248, R267, R283 to R285, R27: a SPACE 1 request reads or writes its target's window whole, when the target is a station of the voyage and not held;
one that names no such place faults, and so does a read of a worn word (R435). A reply that starts overdue counts where it is served (R56, log 96). The Helm
answers a read of the enumeration table, and refuses a write. A generator delivers what has come back, in order, when its channel has room, a stop of level 2
after the last, and asks for its next element. -/
def Obligations.WindowsMirrorsAndGenerators : Prop :=
  (∀ (s : State) (q : Req) (st : StId) (off : Nat) (t : Station), Stands s q → q.stage = .net 0 → paCls q.va = .window st off →
    s.station? st = some t → t.voy = q.voy → t.winHeld off q.op.writes = false → q.credit = false →
    (∀ x k, q.op.writes = false → q.dest ≠ .none → t.winRead off q.bytes = some x → t.wornAt off q.bytes = true → s.station? q.st = some k →
      ∃ u, Gives s .windowAccess (.req q.id) u ∧ u.stations = (s.countServed q).stations ∧ u.mem = s.mem ∧
        Answers u q (.fault (faultToken k q.ctx q.slot q.slack.served ⟨0x0A, 2, 0⟩))) ∧
    (∀ x, q.op.writes = false → q.dest ≠ .none → t.winRead off q.bytes = some x → t.wornAt off q.bytes = false →
      ∃ u, Gives s .windowAccess (.req q.id) u ∧ u.stations = (s.countServed q).stations ∧ u.mem = s.mem ∧ Answers u q (.ok (q.view x))) ∧
    (∀ v, q.op.writes = true → q.dest = .none → q.always = false → t.winWrite off q.bytes q.data.toNat = some v → v.id = t.id →
      ∃ u, Gives s .windowAccess (.req q.id) u ∧ u.req? q.id = none ∧ u.mem = s.mem ∧ u.station? st = some v ∧ ∀ i, i ≠ st → u.station? i = s.station? i)) ∧
  (∀ (s : State) (q : Req) (t : Station), Stands s q → q.stage = .net 0 → paCls q.va = .bad → s.station? q.st = some t → q.credit = false →
    (∃ u k, Gives s .windowAccess (.req q.id) u ∧ Answers u q (.fault k) ∧ k.f = true ∧ k.code = 0x03) ∧
    ∃ u k, Gives s .mirrorRead (.req q.id) u ∧ Answers u q (.fault k) ∧ k.f = true ∧ k.code = 0x03) ∧
  (∀ (s : State) (q : Req) (o : Nat) (t : Station), Stands s q → q.stage = .net 0 → paCls q.va = .mmio o → s.station? q.st = some t → q.credit = false →
    (q.op.writes = false → o + q.bytes ≤ 0x240 → q.dest ≠ .none →
      ∃ u, Gives s .mirrorRead (.req q.id) u ∧ u.mem = s.mem ∧ u.stations = (s.countServed q).stations ∧ Answers u q (.ok (q.view (s.enumBytes o q.bytes)))) ∧
    (q.op.writes = true ∨ 0x240 < o + q.bytes → ∃ u k, Gives s .mirrorRead (.req q.id) u ∧ Answers u q (.fault k) ∧ k.f = true ∧ k.code = 0x03)) ∧
  (∀ (s : State) (k : Nat) (g : Agen) (t : Station), s.agens[k]? = some g → s.station? g.dst = some t → 0 < t.c[g.c].room →
    (∀ id x r, g.outq = (id, some x) :: r → g.total ≤ g.pos →
      ∃ u w, Gives s .agxWalkElement (.agen k) u ∧ u.agens[k]? = some { g with outq := r } ∧ u.station? g.dst = some w ∧
        w.c[g.c] = { t.c[g.c] with q := t.c[g.c].q ++ [⟨s.nextId, some x, true, 0, 0⟩] }) ∧
    (g.outq = [] → g.total ≤ g.pos → g.done = false → g.pref = false →
      ∃ u w x, Gives s .agxWalkElement (.agen k) u ∧ u.agens[k]? = some { g with done := true } ∧ u.station? g.dst = some w ∧
        x.stop = 2 ∧ x.f = false ∧ w.c[g.c] = { t.c[g.c] with q := t.c[g.c].q ++ [⟨s.nextId, some x, true, 0, 0⟩] })) ∧
  (∀ (s : State) (k : Nat) (g : Agen), s.agens[k]? = some g → g.outq = [] → g.pos < g.total → g.pref = false → 0 ≤ g.addr →
    g.h.check g.addr.toNat (if g.wide then 64 else 8) (if g.wide then 64 else 8) = .ok () →
    ∃ u q, Gives s .agxWalkElement (.agen k) u ∧ u.agens[k]? = some { g with pos := g.pos + 1, outq := [(s.nextId, none)] } ∧
      u.reqs = s.reqs ++ [q] ∧ q.id = s.nextId ∧ q.op = .agLoad g.wide ∧ q.va = g.addr.toNat ∧ q.h = g.h ∧ q.st = g.dst ∧ q.src = .agen g.side g.off)

/-- Requests at their port, and replies at their station. Parts: `PortsTakeAndRelease`, `RepliesLand`. -/
def Obligations.RequestsTravel : Prop := StatementPart.PortsTakeAndRelease ∧ StatementPart.RepliesLand

/-- Requests at their home: those that perform and those that wait. Parts: `RequestsPerform`, `RequestsWaitAtTheirHome`. -/
def Obligations.RequestsActAtTheirHome : Prop := StatementPart.RequestsPerform ∧ StatementPart.RequestsWaitAtTheirHome


/-! ### Copies and pages (R238, R256-R260, R279) -/

/-- R238, R279: the copy engine moves the next piece, at most a line, from source to destination and goes on after it; a piece that is withheld waits with
the copy; one that faults ends the copy without a completion, and what earlier pieces have written stays (the model's choice, log 47). A line whose home is
on another die is read or written by requests over the die links (R22, log 99), and the copy goes on with their replies. When every piece has been
written, the copy stands behind those that had ended before, and is over: its station has one less in progress, and PCNT of the completion ring adds 1. -/
def StatementPart.CopiesMovePieces : Prop :=
  (∀ (s : State) (id : Nat) (k : Copy) (a b : Int) (n : Nat), s.copy? id = some k → k.run = true → k.pos < k.total → k.wait = none ∨ k.wait = some .notPresent →
    (∀ q ∈ s.reqs, ∀ m w, q.op ≠ .part k.id m w) → k.src.h.space ≠ .peer → k.dst.h.space ≠ .peer → k.piece = (a, b, n) →
    (∀ v w x, k.read (on s (.copy id)) a n = .ok v w → k.write w b n v = .ok () x → x.copy? id = some k →
      ∃ u, Gives s .copyWrite (.copy id) u ∧ u.copy? id = some { k with pos := k.pos + n, wait := none, held := 0 } ∧ u.mem = x.mem ∧ u.host = x.host ∧
        (k.total ≤ k.pos + n → u.copies.getLast? = some { k with pos := k.pos + n, wait := none, held := 0 })) ∧
    (∀ v w h, k.read (on s (.copy id)) a n = .ok v w → k.write w b n v = .held h → w.copy? id = some k →
      ∃ u, Gives s .copyWrite (.copy id) u ∧ u.copy? id = some { k with wait := some h } ∧ u.mem = s.mem ∧ u.host = s.host) ∧
    (∀ v w f, k.read (on s (.copy id)) a n = .ok v w → k.write w b n v = .fault f → ∃ u, Gives s .copyWrite (.copy id) u ∧ u.copy? id = none ∧ u.mem = s.mem) ∧
    (∀ q w, k.read (on s (.copy id)) a n = .ask q w → w.copy? id = some k →
      ∃ u y, Gives s .copyWrite (.copy id) u ∧ u.copy? id = some { k with wait := none, held := 0 } ∧ u.mem = s.mem ∧ y ∈ u.reqs ∧ y.stage = .home 0 ∧ y.op = q.op ∧ y.parts = q.parts ∧
        y.way = (w.flowWay { q with id := w.nextId, stage := .home 0, port := some k.port } false).1) ∧
    (∀ v w q x, k.read (on s (.copy id)) a n = .ok v w → k.write w b n v = .ask q x → x.copy? id = some k →
      ∃ u y, Gives s .copyWrite (.copy id) u ∧ u.copy? id = some { k with wait := none, held := 0 } ∧ u.mem = s.mem ∧ y ∈ u.reqs ∧ y.stage = .home 0 ∧ y.op = q.op ∧ y.parts = q.parts ∧
        y.data = q.data) ∧
    (∀ h, k.read (on s (.copy id)) a n = .held h → ∃ u, Gives s .copyWrite (.copy id) u ∧ u.copy? id = some { k with wait := some h } ∧ u.mem = s.mem) ∧
    (∀ f, k.read (on s (.copy id)) a n = .fault f → ∃ u, Gives s .copyWrite (.copy id) u ∧ u.copy? id = none ∧ u.mem = s.mem)) ∧
  (∀ (s : State) (id : Nat) (k : Copy), s.copy? id = some k → (k.run = false ∨ k.total ≤ k.pos) → Passes s .copyWrite (.copy id)) ∧
  (∀ (s : State) (k : Copy) (x : Int) (n pa e : Nat) (w : State), k.src.h.space = .dev →
    s.portTrans k.port k.asid x.toNat true false none = (.pa pa e, w) → w.paOk k.voy pa (.loadV n) = true → paDie pa k.st.die ≠ k.st.die →
    ∃ q, k.read s x n = .ask q w ∧ q.parts = [(x.toNat, pa, Nat.min n 64)] ∧ q.op = .part k.id (Nat.min n 64) false) ∧
  (∀ (s : State) (id : Nat), exec .copyWrite (on s (.req id)) = exec .memoryReplyLands (on s (.req id))) ∧
  (∀ (s : State) (id : Nat) (k : Copy) (t : Station), s.copy? id = some k → k.run = true → k.total ≤ k.pos → s.station? k.st = some t →
    ∃ u v, Gives s .copyComplete (.copy id) u ∧ u.copy? id = none ∧ u.req? k.req = none ∧ u.mem = s.mem ∧ u.station? k.st = some v ∧ v.copies = t.copies - 1 ∧
      (∀ h, k.ch = some h → v.h[h] = { t.h[h] with pcnt := t.h[h].pcnt + 1 } ∧ ∀ m, m ≠ h → v.h[m] = t.h[m]) ∧ (k.ch = none → v.h = t.h)) ∧
  (∀ (s : State) (id : Nat) (k : Copy), s.copy? id = some k → (k.run = false ∨ k.pos < k.total) → Passes s .copyComplete (.copy id))

/-- R256 to R259: an access withheld by an event of the Cadastre goes back to its port, or its copy goes on, when the event has been resolved for
its pages; it waits for frames where none is to be had, and takes the corrupt-data fault where the bytes to be copied hold an uncorrectable error (R262).
A resolution changes only its own reason. -/
def StatementPart.WithheldAccessesAreResolved : Prop :=
  (∀ (s : State) (q : Req) (i : Instr) (why : Held), ((i, why) = (.firstTouch, .firstTouch) ∨ (i, why) = (.copyOnWrite, .copyOnWrite) ∨
      (i, why) = (.decompress, .decompress)) → Stands s q → q.stage = .withheld why → q.parts = [] →
    (∀ w, (on s (.req q.id)).resolve why q.asid q.va q.bytes q.die q.h.comp q.op.reads q.op.writes = .ok w →
      ∃ u, Gives s i (.req q.id) u ∧ u.mem = w.mem ∧ u.req? q.id = some { q with held := 0, stage := if q.op.monitor then .translate else .port }) ∧
    (∀ d, (on s (.req q.id)).resolve why q.asid q.va q.bytes q.die q.h.comp q.op.reads q.op.writes = .error (.frames d) →
      ∃ u, Gives s i (.req q.id) u ∧ u.mem = s.mem ∧ u.req? q.id = some { q with stage := .withheld (.noFrame d) }) ∧
    (∀ f t, (on s (.req q.id)).resolve why q.asid q.va q.bytes q.die q.h.comp q.op.reads q.op.writes = .error (.corrupt f) → s.station? q.st = some t →
      ∃ u, Gives s i (.req q.id) u ∧ u.mem = s.mem ∧ Answers u q (.fault (faultToken t q.ctx q.slot q.slack.served f)))) ∧
  (∀ (s : State) (q : Req) (i : Instr) (why : Held), ((i, why) = (.firstTouch, .firstTouch) ∨ (i, why) = (.copyOnWrite, .copyOnWrite) ∨
      (i, why) = (.decompress, .decompress)) → Stands s q → q.stage ≠ .withheld why → Passes s i (.req q.id)) ∧
  (∀ (s : State) (id : Nat) (k : Copy) (a b : Int) (n : Nat) (i : Instr) (why : Held), ((i, why) = (.firstTouch, .firstTouch) ∨
      (i, why) = (.copyOnWrite, .copyOnWrite) ∨ (i, why) = (.decompress, .decompress)) → s.copy? id = some k → k.wait = some why → k.piece = (a, b, n) →
    k.src.h.space = .dev → k.dst.h.space ≠ .dev →
    ∀ w, (on s (.copy id)).resolve why k.asid a.toNat n k.st.die k.src.h.comp true false = .ok w →
      ∃ u, Gives s i (.copy id) u ∧ u.mem = w.mem ∧ u.copy? id = some { k with wait := none, held := 0 })

/-- R256, R468: first touch takes a frame from the pool of the die that the entry names, with REFS 1, and maps it: the level-2 entry is a normal one with that frame,
and the frame's other bytes are zero. R257, R259: a store to a shared page whose frame has one reference makes the entry a normal one in place; with more references
the page gets a frame of its own with the same bytes. R260: a store to a compressed page moves it into a full frame with the same bytes. The frame that is left
draws a new mapping check (R245, R257). -/
def StatementPart.ResolutionsMapPages : Prop :=
  ∀ (s : State) (asid : BitVec 16) (va a e : Nat), MemoryCanonical s → s.walk asid va = .leaf a e →
    (∀ d f r fall, pteKind e = 1 → d = pteFrame e % 4 → s.dieLive d = true → (s.die? d).map (·.pool) = some (f :: r) → f < 2 ^ 30 →
      ∃ w, s.firstTouch asid va fall false = .ok w ∧ (w.die? d).map (·.pool) = some r ∧ descRefs (w.desc f) = 1 ∧
        pteKind (w.loadDev a 8) = 0 ∧ pteFrame (w.loadDev a 8) = f ∧ pteV (w.loadDev a 8) = true ∧
        ∀ x : Nat, x / 2 ^ 16 = f → x < a ∨ a + 8 ≤ x → Memory.get w.mem x = 0) ∧
    (pteKind e = 2 → descRefs (s.desc (pteFrame e)) ≤ 1 →
      ∃ w, s.copyOnWrite asid va = .ok w ∧ pteKind (w.loadDev a 8) = 0 ∧ pteFrame (w.loadDev a 8) = pteFrame e ∧
        ∀ x : Nat, x < a ∨ a + 8 ≤ x → Memory.get w.mem x = Memory.get s.mem x) ∧
    (∀ g r, pteKind e = 2 → 1 < descRefs (s.desc (pteFrame e)) → s.corrupt (pteFrame e * 2 ^ 16) (2 ^ 16) = false → (s.die? (descHome (s.desc (pteFrame e)))).map (·.pool) = some (g :: r) →
      g ≠ pteFrame e → g < 2 ^ 30 →
      ∃ w, s.copyOnWrite asid va = .ok w ∧ pteKind (w.loadDev a 8) = 0 ∧ pteFrame (w.loadDev a 8) = g ∧
        descMchk (w.desc (pteFrame e)) = (Config.freeMchk (s.free + 1)).toNat ∧
        ∀ o : Nat, o < 2 ^ 16 → g * 2 ^ 16 + o < a ∨ a + 8 ≤ g * 2 ^ 16 + o →
          Memory.get w.mem (g * 2 ^ 16 + o) = Memory.get s.mem (pteFrame e * 2 ^ 16 + o)) ∧
    (∀ g r, descScls (s.desc (pteFrame e)) ≠ 0 → s.corrupt (pteFrame e * 2 ^ 16) (2 ^ 16) = false → (s.die? (descHome (s.desc (pteFrame e)))).map (·.pool) = some (g :: r) → g ≠ pteFrame e → g < 2 ^ 30 →
      ∃ w, s.decompress asid va = .ok w ∧ pteFrame (w.loadDev a 8) = g ∧ descMchk (w.desc (pteFrame e)) = (Config.freeMchk (s.free + 1)).toNat ∧
        ∀ o : Nat, o < 2 ^ 16 → g * 2 ^ 16 + o < a ∨ a + 8 ≤ g * 2 ^ 16 + o →
          Memory.get w.mem (g * 2 ^ 16 + o) = Memory.get s.mem (pteFrame e * 2 ^ 16 + o))

/-- R258, R461: an empty pool borrows up to 64 frames of the first die, in its order, that has some (that one with fewer than 64 lends what it has is the model's
choice, log 34); with none anywhere the host is asked, once, its owner's vector 15 is raised, and an answer of none is not asked about again (log 104); the accesses
that wait for frames of a pool that has some try again. R260, R245, R257: a cold page that may be compressed gets its size class and slot, a compressed page that
moves gets another slot: both draw a new mapping check, drop what the ports have cached, and leave every byte of memory as it was. -/
def StatementPart.PoolsBorrowAndPagesCompress : Prop :=
  (∀ (s : State) (d k : Nat) (x y : Die), s.die? d = some x → x.pool = [] →
    (s.borrowOrder d).find? (fun k => match s.die? k with | some x => !x.pool.isEmpty | none => false) = some k → s.die? k = some y →
    ∃ u, Gives s .poolBorrow (.die d) u ∧ (u.die? d).map (·.pool) = some (y.pool.take 64) ∧ (u.die? k).map (·.pool) = some (y.pool.drop 64) ∧
      u.mem = s.mem ∧ u.asks = s.asks) ∧
  (∀ (s : State) (d : Nat) (x : Die), s.die? d = some x → x.pool = [] →
    (s.borrowOrder d).find? (fun k => match s.die? k with | some x => !x.pool.isEmpty | none => false) = none →
    ∃ u, Gives s .poolBorrow (.die d) u ∧ u.reqs = s.reqs ∧ (s.asks.contains d = true ∨ x.refused = true → u.asks = s.asks ∧ u.vectors = s.vectors) ∧
      (s.asks.contains d = false → x.refused = false → u.asks = s.asks ++ [d] ∧
        u.vectors = if s.owned = true ∧ s.owner.toNat < 8 then s.vectors ++ [(s.owner.toNat, 15)] else s.vectors)) ∧
  (∀ (s : State) (d : Nat) (x : Die), s.die? d = some x → x.pool ≠ [] →
    ∃ u, Gives s .poolBorrow (.die d) u ∧ u.dies = s.dies ∧
      u.reqs = s.reqs.map (fun q => if q.stage = .withheld (.noFrame d) then { q with held := 0, stage := if q.op.monitor then .translate else .port } else q)) ∧
  (∀ (s : State) (asid : BitVec 16) (va a e : Nat) (c : BitVec 3) (slot : BitVec 22), MemoryCanonical s → s.walk asid va = .leaf a e → pteKind e ≠ 1 →
    pteComp e = true → pteVers e = false → 1 ≤ c.toNat → c.toNat ≤ 4 → descScls (s.desc (pteFrame e)) = 0 →
    ∃ u, Gives s .pageCompress (.page asid va c slot) u ∧ descScls (u.desc (pteFrame e)) = c.toNat ∧
      descMchk (u.desc (pteFrame e)) = (Config.freeMchk s.free).toNat ∧ (∀ x : Nat, Memory.get u.mem x = Memory.get s.mem x) ∧
      ∀ p ∈ u.ports, ∀ t ∈ p.tlb, ¬(t.1 = asid ∧ t.2.1 = va / 2 ^ 16)) ∧
  (∀ (s : State) (asid : BitVec 16) (va a e : Nat) (c : BitVec 3) (slot : BitVec 22), s.walk asid va = .leaf a e → (pteComp e = false ∨ pteVers e = true) →
    Passes s .pageCompress (.page asid va c slot)) ∧
  (∀ (s : State) (f : Nat) (slot : BitVec 22), descScls (s.desc f) ≠ 0 →
    ∃ u, Gives s .slabCompaction (.frame f slot) u ∧ u.mem = s.mem ∧ fld (u.desc f) 40 22 = slot.toNat ∧
      descMchk (u.desc f) = (Config.freeMchk s.free).toNat ∧ descScls (u.desc f) = descScls (s.desc f) ∧
      ∀ p ∈ u.ports, ∀ t ∈ p.tlb, pteFrame t.2.2.toNat ≠ f)

/-- Copies move in pieces, and withheld accesses go on when their page is resolved. Parts: `CopiesMovePieces`, `WithheldAccessesAreResolved`. -/
def Obligations.CopiesMoveAndAccessesWait : Prop := StatementPart.CopiesMovePieces ∧ StatementPart.WithheldAccessesAreResolved

/-- Resolutions map pages, and pools borrow frames. Parts: `ResolutionsMapPages`, `PoolsBorrowAndPagesCompress`. -/
def Obligations.PagesAreMappedAndLent : Prop := StatementPart.ResolutionsMapPages ∧ StatementPart.PoolsBorrowAndPagesCompress


/-! ### Marks, barriers and tasks (R62-R65, R252, R287-R289, R291) -/

/-- R252: a mark that has travelled reaches the slices and the watermark of its space becomes the least mark that they know, where that is more. R287 to
R289: of what reaches a barrier entry in a cycle, drops count first, then arrivals; the phase completes when as many have arrived as are expected, or when the last
is dropped: PH adds 1, ARR starts again, and every `bars` handle swaps. The messages are consumed. R288: an arrival at a spilled pod entry that a peer with a
lower device id walks goes to it as a flit, and the entry here stays. The model's choices: the operand of an arrival counts modulo 2^32 (log 52), a space
without participants has the highest watermark (logs 12, 38), and the fields of a walker's flit (log 53). -/
def Obligations.MarksAndBarriersAdvance : Prop :=
  (∀ (s : State) (asid : BitVec 16) (p : Participant) (w : Nat), s.watermarks.find? (fun e => e.1 == asid) = some (asid, w) →
    ∃ u, Gives s .markPropagate (.mark asid p) u ∧ u.mem = s.mem ∧ u.stations = s.stations ∧
      (∀ m ∈ u.marks, m.asid = asid → m.who = p → m.known = m.mark ∧ m.sent = none) ∧
      u.watermark asid = Nat.max w (((s.marks.filter fun m => m.asid == asid).map fun m => if m.who = p then m.mark else m.known).foldl Nat.min (2 ^ 52))) ∧
  (∀ (s : State) (k : BarKey) (m : BarMsg), (s.barMsgs.filter fun m => m.key == k && m.left == 0 && m.away.isNone) = [m] → (s.barEntry k).spilled = false →
    (∀ n : Nat, m.op = .arrive n → (s.barEntry k).exp = 0 → BitVec.ofNat 32 n ≠ 0 → BitVec.ofNat 32 n ≠ 1 → (s.barEntry k).arr = 0 →
      ∃ u, Gives s .barrierEntryUpdate (.bar k) u ∧ u.mem = s.mem ∧
        u.barEntry k = { s.barEntry k with exp := BitVec.ofNat 32 n, arr := 1 } ∧ ∀ x ∈ u.barMsgs, x.key = k → x.left ≠ 0 ∨ x.away.isSome = true) ∧
    (∀ n : Nat, m.op = .arrive n → (s.barEntry k).exp ≠ 0 → (s.barEntry k).exp.toNat ≤ ((s.barEntry k).arr + 1).toNat → (s.barEntry k).swaps = [] →
      ∃ u, Gives s .barrierEntryUpdate (.bar k) u ∧ u.barEntry k = { s.barEntry k with ph := (s.barEntry k).ph + 1, arr := 0, swaps := [] }) ∧
    (m.op = .drop → (s.barEntry k).swaps = [] →
      ∃ u, Gives s .barrierEntryUpdate (.bar k) u ∧ u.mem = s.mem ∧
        ((s.barEntry k).exp = 0 → u.barEntry k = s.barEntry k) ∧
        ((s.barEntry k).exp = 1 → u.barEntry k = { s.barEntry k with exp := 0, ph := (s.barEntry k).ph + 1, arr := 0, swaps := [] }) ∧
        (1 < (s.barEntry k).exp.toNat → (s.barEntry k).arr.toNat < (s.barEntry k).exp.toNat - 1 →
          u.barEntry k = { s.barEntry k with exp := (s.barEntry k).exp - 1 }))) ∧
  (∀ (s : State) (k j : BarKey), j ≠ k → (s.barMsgs.filter fun m => m.key == k && m.left == 0 && m.away.isNone) = [] → (s.barEntry k).spilled = false → (s.barEntry k).exp = 0 →
    ∃ u, Gives s .barrierEntryUpdate (.bar k) u ∧ u.barEntry j = s.barEntry j ∧ u.stations = s.stations) ∧
  (∀ (s : State) (k : BarKey) (m : BarMsg) (p : Peer) (l : Nat) (x : TLink) (asid : BitVec 16) (va n : Nat), s.podWalker k = some p →
    (s.barMsgs.filter fun m => m.key == k && m.left == 0 && m.away.isNone) = [m] → m.op = .arrive n → s.looks.contains k = false →
    (s.boundUp p.asid p.peer).head? = some l → s.link? l = some x → x.room = true → s.spillAddr m.key = some (asid, va) →
    ∃ u i y, Gives s .barrierEntryUpdate (.bar k) u ∧ u.bars = s.bars ∧ u.stations = s.stations ∧ { m with away := some i } ∈ u.barMsgs ∧
      u.link? l = some y ∧ y.waiting.length + y.unacked.length = x.waiting.length + x.unacked.length + 1)

/-- R62, R63, R291: the sequencer of a die hands the dispatchable task of least timestamp, the earlier spawn first, to an idle context of its voyage that
hosts its handler: its argument stands at the head of c6, with a counter of 992 (the model's choice, log 50), and the context runs it with its timestamp. R64,
R65: a task that may commit leaves the sequencer, and its held spawns become dispatchable; one that may not waits. A task that aborts leaves its context, its
held spawns go, and it may be dispatched again, or, after an effect that cannot be taken back, is over. -/
def Obligations.TasksRunCommitAndAbort : Prop :=
  (∀ (s : State) (d n : Nat) (t : Task), s.nextTask d = some t →
    t ∈ s.tasks ∧ t.die = d ∧ t.st = .ready ∧
    (∀ k ∈ s.tasks, k.die = d → k.st = .ready → (∃ v, s.voyage? k.voy = some v ∧ v.frozen = false ∧ v.ended = false) → t.ts ≤ k.ts) ∧
    (s.hostsOf t ≠ [] → ∃ u i c v, Gives s .taskDispatch (.task d n) u ∧ (i, c) ∈ s.hostsOf t ∧ u.mem = s.mem ∧
      u.tasks = s.tasks.map (fun k => if k.id = t.id then { k with st := .running i c } else k) ∧
      u.station? i = some v ∧ v.ctx[c].running = some t.id ∧ v.ctx[c].ts = t.ts ∧
      v.c[6].q.head? = some ⟨t.id, some (Token.vec t.args ⟨false, 992⟩), false, 0, 0⟩) ∧
    (s.hostsOf t = [] → Passes s .taskDispatch (.task d n))) ∧
  (∀ (s : State) (d id : Nat) (t : Task), s.task? id = some t →
    (s.commits t = false → Passes s .taskCommit (.task d id)) ∧
    (s.commits t = true → ∃ u, Gives s .taskCommit (.task d id) u ∧ u.mem = s.mem ∧ (∀ k ∈ u.tasks, k.id ≠ id ∧ k.parent ≠ some id) ∧
      ∀ k ∈ s.tasks, k.id ≠ id → (if k.parent = some id then { k with parent := none, st := if k.st = .held then .ready else k.st } else k) ∈ u.tasks)) ∧
  (∀ (s : State) (d id : Nat) (t : Task), s.task? id = some t →
    ∃ u, Gives s .taskAbort (.task d id) u ∧ (∀ k ∈ u.tasks, ¬(k.parent = some id ∧ k.st = .held)) ∧
      (t.spoiled = true → ∀ k ∈ u.tasks, k.id ≠ id) ∧
      (t.spoiled = false → t.parent ≠ some id → ∀ i c, t.st = .running i c → { t with st := .ready, seen := 0 } ∈ u.tasks ∧
        ∀ v, s.station? i = some v → ∃ w, u.station? i = some w ∧ w.ctx[c].running = none ∧ w.d = v.d ∧ w.v = v.v))


/-! ### Starts, failures, power (R25, R30 to R35, R261, R262, R455, R456, R458) -/

/-- R33, R455, R456: a unit that has started sets its ready bit once the firmware is verified; the start succeeds, STATE 1 and FAILCNT 0, when a die has its
die bit and its Helm bit; a die that has failed does not come back (R35), and a link of two live dies reads trained or at half width (R31). A start that fails
writes BOOTRSN, adds 1 to FAILCNT and resets the device; the third gives minimal mode, STATE 2, with the dies held in reset. A reset of a die alone starts it
again, and its links train again at both their ends (R31, R32, log 81); package time starts again with the device (R198). The owner's DEVCTL writes reset the
device, with BOOTRSN 0x06, and clear FAILCNT. -/
def StatementPart.StartsSucceedAndFail : Prop :=
  (∀ (s : State) (u : HwUnit), s.boot = .train ∨ s.boot = .running →
    ∃ t, Gives s .unitReady (.unit u) t ∧ t.mem = s.mem ∧
      (∀ k, u = .pilot k → t.pilots = s.pilots ||| BitVec.twoPow 16 k) ∧ (u = .arbiter → t.arbiter = true) ∧
      (∀ k : Fin 16, u = .traverse k.val → t.links[k].up = true) ∧
      (∀ d : Fin 4, (u = .die d.val → s.dies[d].failed = true → t.dies = s.dies) ∧ (s.dies[d].live = true →
        (u = .die d.val → s.dies[d].failed = false → t.dies[d].ready.getLsbD 0 = true) ∧
        (∀ b, u = .stack d.val b → t.dies[d].ready.getLsbD (if b then 2 else 1) = true ∧
          (s.grade = .nmt7204 → t.dies[d].ready.getLsbD 0 = true → t.dies[d].rsn =
            if ∀ k : Fin 4, t.dies[d].ready.getLsbD (k.val + 1) = true then (if s.dies[d].alone then 4 else 0) else 3)) ∧
        (∀ b h, u = .link d.val b h → s.linkLive d.val b = true → t.dies[d].ready.getLsbD (if b then 4 else 3) = true ∧
          (if b then t.dies[d].ccw else t.dies[d].cw) = if h then 3 else 2) ∧
        (u = .helm d.val → t.dies[d].ready.getLsbD 5 = true))) ∧
      (s.state = 0 → s.boot = .train → (∃ d : Fin 4, t.dies[d].live = true ∧ t.dies[d].ready.getLsbD 0 = true ∧ t.dies[d].ready.getLsbD 5 = true) →
        t.state = 1 ∧ t.failcnt = 0)) ∧
  (∀ (s : State) (u : HwUnit), s.boot ≠ .train → s.boot ≠ .running → Passes s .unitReady (.unit u)) ∧
  (∀ (s : State) (i : Instr) (a : EvArg) (c : Byte),
    ((i = .fwFetchTimeout ∧ s.boot = .fetch ∧ 2100000000 ≤ s.bootTime ∧ c = 0x02) ∨
     (i = .startTimeout ∧ s.state = 0 ∧ 4200000000 ≤ s.bootTime ∧
       c = (if s.boot = .train ∧ (∀ d : Fin 4, s.dies[d].ready.getLsbD 1 = false ∧ s.dies[d].ready.getLsbD 2 = false) then 0x04 else 0x03)) ∨
     (i = .pilotCoreFault ∧ s.state = 0 ∧ c = 0x05 ∧ ∃ k, a = .core k)) →
    ∃ t, Gives s i a t ∧ t.bootrsn = c ∧ t.failcnt = (if s.failcnt.toNat < 3 then s.failcnt + 1 else 3) ∧ t.voyages = [] ∧ t.stations = [] ∧ t.mem = s.mem ∧
      (s.failcnt.toNat < 2 → t.state = 0 ∧ t.boot = .fetch) ∧ (2 ≤ s.failcnt.toNat → t.state = 2 ∧ ∀ d : Fin 4, t.dies[d].ready = 0 ∧ (t.dies[d].live = true → t.dies[d].rsn = 1))) ∧
  (∀ s : State, s.boot ≠ .fetch ∨ s.bootTime < 2100000000 → Passes s .fwFetchTimeout .none) ∧
  (∀ s : State, s.state ≠ 0 ∨ s.bootTime < 4200000000 → Passes s .startTimeout .none) ∧
  (∀ (s : State) (a : EvArg), (∀ d, a ≠ .die d) → ∃ t, Gives s .deviceReset a t ∧ t.state = 0 ∧ t.boot = .fetch ∧ t.bootrsn = s.bootrsn ∧ t.voyages = [] ∧ t.stations = [] ∧
    t.pilots = 0 ∧ t.arbiter = false ∧ (∀ d : Fin 4, t.dies[d].ready = 0) ∧ t.mem = s.mem ∧ t.time = 0 ∧ t.owned = s.owned ∧ t.owner = s.owner) ∧
  (∀ (s : State) (d : Fin 4),
    (s.dies[d].ready.getLsbD 0 = false → s.dies[d].failed = false →
      ∃ t, Gives s .deviceReset (.die d.val) t ∧ t.dies[d].ready = 0 ∧ t.dies[d].alone = true ∧ t.dies[d].slices = s.dies[d].slices ∧ t.mem = s.mem ∧
        t.voyages = s.voyages ∧ (∀ e : Fin 4, e ≠ d → t.dies[e] = { s.dies[e] with cw := t.dies[e].cw, ccw := t.dies[e].ccw }) ∧
        t.dies[d].cw = (if (s.boot = .train ∨ s.boot = .running) ∧ t.dies[d].live = true ∧ s.dies[d + 1].live = true then 1 else 0) ∧
        t.dies[d].ccw = (if (s.boot = .train ∨ s.boot = .running) ∧ t.dies[d].live = true ∧ s.dies[d + 3].live = true then 1 else 0) ∧
        t.dies[d + 1].ccw = t.dies[d].cw ∧ t.dies[d + 3].cw = t.dies[d].ccw ∧ t.dies[d + 2] = s.dies[d + 2]) ∧
    (s.dies[d].ready.getLsbD 0 = true ∨ s.dies[d].failed = true → Passes s .deviceReset (.die d.val))) ∧
  (∀ (s : State) (m : Nat) (v : Word), s.owned = true → s.owner.toNat = m →
    (v.getLsbD 0 = true → ∃ t, Gives s .devctlReset (.master m v) t ∧ t.bootrsn = 0x06 ∧ t.state = 0 ∧ t.failcnt = s.failcnt ∧ t.stations = []) ∧
    (v.getLsbD 1 = true → ∃ t, Gives s .devctlClrfail (.master m v) t ∧ t = { on s (.master m v) with failcnt := 0 })) ∧
  (∀ (s : State) (m : Nat) (v : Word), s.owned = false ∨ s.owner.toNat ≠ m →
    Passes s .devctlReset (.master m v) ∧ Passes s .devctlClrfail (.master m v))

/-- R25, R34: a die link that goes down reads 0 at both its ends. R261: a slice that is retired leaves its die's map, whose epoch moves on; the last one takes the
die with it. R35: a die that fails keeps L, its die bit reads 0, and every running region on it halts with its voyage; one that fails its self-test during a
start is not live, reason 2, its links are down at both their ends and DIES counts it no more (R28, R31, R32, log 81). R262: a row's refresh and a swap of
remapped regions change no byte of memory. R458: the arbiter divides the power budget anew among the live dies, as it chooses, and writes its record to host memory
where PWRMIR says; that its count stands at offset 24 of the record is the model's choice (log 67), and so is what a reset keeps (log 44). -/
def StatementPart.PartsFailAndPowerIsDivided : Prop :=
  (∀ (s : State) (d : Fin 4) (ccw half : Bool), ∃ t, Gives s .dieLinkDown (.unit (.link d.val ccw half)) t ∧ t.mem = s.mem ∧ t.stations = s.stations ∧
    (ccw = false → t.dies[d].cw = 0 ∧ t.dies[d + 1].ccw = 0) ∧ (ccw = true → t.dies[d].ccw = 0 ∧ t.dies[d + 3].cw = 0) ∧
    t.routes.map (·.id) = s.routes.map (·.id)) ∧
  (∀ (s : State) (d : Fin 4) (i : Nat), s.dies[d].slices.getLsbD i = true →
    (1 < s.dies[d].sliceCount → ∃ t, Gives s .sliceRetire (.slice d.val i) t ∧ t.dies[d].slices.getLsbD i = false ∧
      (∀ j, j ≠ i → t.dies[d].slices.getLsbD j = s.dies[d].slices.getLsbD j) ∧ t.dies[d].epoch = s.dies[d].epoch + 1 ∧ t.mem = s.mem ∧ t.reqs = s.reqs) ∧
    (s.dies[d].sliceCount ≤ 1 → ∃ t, Gives s .sliceRetire (.slice d.val i) t ∧ t.dies[d].ready.getLsbD 0 = false ∧
      (s.state = 0 → t.dies[d].live = false ∧ t.dies[d].rsn = 2))) ∧
  (∀ (s : State) (d : Fin 4), s.state = 0 → ∃ t, Gives s .dieFailure (.die d.val) t ∧ t.dies[d].live = false ∧ t.dies[d].ready = 0 ∧ t.dies[d].rsn = 2 ∧
    t.voyages = s.voyages ∧ t.dies[d].cw = 0 ∧ t.dies[d].ccw = 0 ∧ t.dies[d + 1] = { s.dies[d + 1] with ccw := 0 } ∧ t.dies[d + 2] = s.dies[d + 2] ∧
    t.dies[d + 3] = { s.dies[d + 3] with cw := 0 } ∧ fld (t.enumField 0) 36 4 = ((List.range 4).filter fun k => k != d.val && s.dieLive k).length) ∧
  (∀ (s : State) (d : Fin 4), s.state ≠ 0 → ∃ t, Gives s .dieFailure (.die d.val) t ∧ t.dies[d].ready.getLsbD 0 = false ∧ t.dies[d].live = s.dies[d].live ∧
    t.dies[d].failed = true ∧
    ∀ v ∈ s.voyages, v.ended = false → (∃ r ∈ v.regions, r.die = d.val ∧ (r.st = .running ∨ r.st = .waiting)) → s.copies.any (goesOn v.id) = false →
      ∀ x ∈ t.stations, x.voy ≠ v.id) ∧
  (∀ (s : State) (r : Nat), ∃ t, Gives s .rowHammerRefresh (.row r) t ∧ t.mem = s.mem ∧ t.stations = s.stations ∧ t.remap = s.remap ∧
    t.reqs.map (·.id) = s.reqs.map (·.id)) ∧
  (∀ (s : State) (a b : Nat), ∃ t, Gives s .remapSwap (.swap a b) t ∧ t.mem = s.mem ∧ t.stations = s.stations ∧
    (a ≠ b → ∀ x y, s.remap.find? (fun e => e.1 == a) = some (a, x) → s.remap.find? (fun e => e.1 == b) = some (b, y) →
      t.remap.find? (fun e => e.1 == a) = some (a, y) ∧ t.remap.find? (fun e => e.1 == b) = some (b, x))) ∧
  (∀ (s : State) (m : Nat) (v : Word), (s.owned = true ∧ s.owner.toNat = m → Gives s .pwrlimWrite (.master m v) { on s (.master m v) with pwrlim := v.extractLsb' 0 16 }) ∧
    (s.owned = false ∨ s.owner.toNat ≠ m → Passes s .pwrlimWrite (.master m v))) ∧
  (∀ s : State, MemoryCanonical s → ∃ t, Gives s .powerRedivide .none t ∧ t.pwrseq = s.pwrseq + 1 ∧ t.mem = s.mem ∧ t.pwrlim = s.pwrlim ∧
    (t.shares.toList.map fun x => x.toNat % 2 ^ 32).sum ≤ 1000 * (if s.pwrlim = 0 ∨ s.grade.watts < s.pwrlim.toNat then s.grade.watts else s.pwrlim.toNat) ∧
    (∀ i : Fin 4, s.dieLive i.val = false → t.shares[i].toNat % 2 ^ 32 = 0) ∧ (∀ i : Fin 4, t.shares[i] = s.dieShares.getD i.val 0) ∧
    (s.pwrmir = 0 → t.host = s.host) ∧
    (s.pwrmir ≠ 0 →
      Memory.read t.host s.pwrmir.toNat 4 = 1000 * (if s.pwrlim = 0 ∨ s.grade.watts < s.pwrlim.toNat then s.grade.watts else s.pwrlim.toNat) ∧
      (∀ i : Fin 4, Memory.read t.host (s.pwrmir.toNat + 4 + 4 * i.val) 4 = t.shares[i].toNat % 2 ^ 32) ∧
      Memory.read t.host (s.pwrmir.toNat + 24) 8 = t.pwrseq.toNat ∧
      ∀ a : Nat, a < s.pwrmir.toNat ∨ s.pwrmir.toNat + 32 ≤ a → Memory.get t.host a = Memory.get s.host a))

/-- Starts, failures of parts, and power. Parts: `StartsSucceedAndFail`, `PartsFailAndPowerIsDivided`. -/
def Obligations.StartsFailuresAndPower : Prop := StatementPart.StartsSucceedAndFail ∧ StatementPart.PartsFailAndPowerIsDivided


/-! ### Owner and registers (R449 to R454) -/

/-- R452: while the device is unowned a claim competes, as its master's last, and the first opens a window of 2,100 cycles, at whose end the claim of highest PRIO,
then highest NONCE, then lowest master owns the device; claims made while it is owned are ignored. R453: the owner's OWNHAND makes an attached successor the
owner, and sets HERR for another; ownership lapses when the owner's function is reset or it goes away. -/
def StatementPart.OwnershipIsElected : Prop :=
  (∀ (s : State) (m : Nat) (p : BitVec 8) (n : BitVec 32),
    (s.owned = true → Passes s .ownclaim (.claim m p n)) ∧
    (s.owned = false → ∃ t, Gives s .ownclaim (.claim m p n) t ∧ t.owned = false ∧ t.window = some (s.window.getD 2100) ∧
      t.claims = (s.claims.filter fun c => c.master ≠ m) ++ [⟨m, p, n⟩])) ∧
  (∀ s : State, s.window = some 0 → s.claims ≠ [] →
    ∃ t, ∃ c ∈ s.claims, Gives s .claimWindowEnd .none t ∧ t.owned = true ∧ t.owner = BitVec.ofNat 4 c.master ∧ t.claims = [] ∧ t.window = none ∧
      ∀ k ∈ s.claims, k.prio.toNat < c.prio.toNat ∨ (k.prio = c.prio ∧ (k.nonce.toNat < c.nonce.toNat ∨ (k.nonce = c.nonce ∧ c.master ≤ k.master)))) ∧
  (∀ s : State, s.window ≠ some 0 → Passes s .claimWindowEnd .none) ∧
  (∀ (s : State) (m : Nat) (v : Word), s.owned = true → s.owner.toNat = m →
    (s.attached.getLsbD (v.toNat % 16) = true →
      Gives s .ownhand (.master m v) { on s (.master m v) with owner := v.extractLsb' 0 4 }) ∧
    (s.attached.getLsbD (v.toNat % 16) = false → Gives s .ownhand (.master m v) { on s (.master m v) with herr := true }) ∧
    ∃ t, Gives s .ownerLapse (.master m v) t ∧ t.owned = false ∧ t.voyages = s.voyages ∧ t.queues = s.queues ∧ t.mailboxes = s.mailboxes) ∧
  (∀ (s : State) (m : Nat) (v : Word), s.owned = false ∨ s.owner.toNat ≠ m →
    Passes s .ownhand (.master m v) ∧ ∃ t, Gives s .ownerLapse (.master m v) t ∧ t.owned = s.owned ∧ t.owner = s.owner)

/-- R451: a write of BAR 0 by another master than the owner does nothing, but for OWNCLAIM. The owner's writes store: APBASE, PWRMIR (32-byte aligned), a mailbox's
payload, QBASE without its reserved bits, QCTL's EN and ASID (EN after a stop re-enables the queue); those that start something (OWNHAND, DEVCTL, SBQUERY, PWRLIM,
QWRIDX) start their event. R459, R460: CMD sets BUSY and TAG and starts its command, or sets LOST while BUSY; mailbox 15 shows the device's requests. R454: SBQUERY
keeps the ASID. R449: an aperture write stores at its home, and an aperture read answers with what stands there, where a plain host access reaches; neither touches
what holds an uncorrectable error (R262). The model's choices: where a command's fields stand in the payload, and that CMD leaves DONE and RESULT as they were
(log 43), mailbox 15's payload (log 104), what an access to a corrupt place returns (log 87). -/
def StatementPart.OwnerWritesRegisters : Prop :=
  (∀ (s : State) (m off : Nat) (v : Word), (s.owned = false ∨ s.owner.toNat ≠ m) → off ≠ 0x1000 → Passes s .registerWrite (.reg m off v)) ∧
  (∀ (s : State) (m : Nat) (v : Word), let a : EvArg := .reg m 0x1000 v
    Gives s .registerWrite a { on s a with agenda := (.ownclaim, .claim m (v.extractLsb' 0 8) (v.extractLsb' 8 32)) :: s.agenda }) ∧
  (∀ (s : State) (m : Nat) (v : Word), s.owned = true → s.owner.toNat = m →
    (∀ off i, (off, i) ∈ [(0x1010, Instr.ownhand), (0x1028, .sbqueryWrite), (0x2000, .pwrlimWrite)] →
      Gives s .registerWrite (.reg m off v) { on s (.reg m off v) with agenda := (i, .master m v) :: s.agenda }) ∧
    Gives s .registerWrite (.reg m 0x1020 v) { on s (.reg m 0x1020 v) with apbase := v.extractLsb' 36 10 } ∧
    Gives s .registerWrite (.reg m 0x2030 v) { on s (.reg m 0x2030 v) with pwrmir := v &&& ~~~31 } ∧
    (∀ q : Fin 1024, ∃ t, Gives s .registerWrite (.reg m (0x100000 + 0x40 * q.val) v) t ∧
      (t.queue q.val).base = v &&& 0xF87FFFFFFFFFFFC0 ∧ (t.queue q.val).wr = (s.queue q.val).wr ∧ (t.queue q.val).rd = (s.queue q.val).rd) ∧
    (∀ q : Fin 1024, Gives s .registerWrite (.reg m (0x100008 + 0x40 * q.val) v)
      { on s (.reg m (0x100008 + 0x40 * q.val) v) with agenda := (.qwridxWrite, .qwr q.val (v.setWidth 32) m) :: s.agenda }) ∧
    (∀ q : Fin 1024, ∃ t, Gives s .registerWrite (.reg m (0x100018 + 0x40 * q.val) v) t ∧ (t.queue q.val).en = v.getLsbD 0 ∧
      (t.queue q.val).asid = v.extractLsb' 16 16 ∧
      t.agenda = if v.getLsbD 0 = true ∧ (s.queue q.val).en = false ∧ (s.queue q.val).stop = true then (.queueReenable, .queue q.val) :: s.agenda else s.agenda) ∧
    (∀ k : Fin 16, k.val < 15 → ∃ t, Gives s .registerWrite (.reg m (0x10000 + 0x1000 * k.val) v) t ∧
      (s.mailboxes[k].busy = true → t.mailboxes[k] = { s.mailboxes[k] with lost := true } ∧ t.agenda = s.agenda) ∧
      (s.mailboxes[k].busy = false →
        t.mailboxes[k] = { s.mailboxes[k] with busy := true, tag := v.extractLsb' 8 8, code := v.extractLsb' 0 8 } ∧
        t.agenda = s.mailboxes[k].command k.val (v.extractLsb' 8 8) (v.extractLsb' 0 8) :: s.agenda)) ∧
    Passes s .registerWrite (.reg m 0x1F000 v) ∧
    (∀ (k : Fin 16) (i : Nat), k.val < 15 → i < 510 → ∃ t, Gives s .registerWrite (.reg m (0x10010 + 0x1000 * k.val + 8 * i) v) t ∧
      t.mailboxes[k].word i = v.toNat ∧ (∀ j, j ≠ i → t.mailboxes[k].word j = s.mailboxes[k].word j) ∧ ∀ j, j ≠ k → t.mailboxes[j] = s.mailboxes[j]) ∧
    Gives s .sbqueryWrite (.master m v) { on s (.master m v) with sbquery := v.extractLsb' 0 16 }) ∧
  (∀ (s : State) (m : Nat) (v : Word), s.owned = false ∨ s.owner.toNat ≠ m → Passes s .sbqueryWrite (.master m v)) ∧
  (∀ (b : Mailbox) (k : Nat) (tag : Byte), (∀ c i, (c, i) ∈ [((1 : Byte), Instr.loadFw), (2, .attest), (3, .setRoot), (4, .setSavebase), (5, .release), (6, .frames),
      (7, .resume), (8, .discard), (9, .bindPeer)] → (b.command k tag c).1 = i) ∧
    ∀ c : Byte, c = 0 ∨ 9 < c.toNat → b.command k tag c = (.mailboxUnknown, .box k tag c 0 0 0 [])) ∧
  (∀ (s : State) (m : Nat), s.asks.length ≤ 4 → (∀ d ∈ s.asks, d < 4) →
    fld (s.regRead m 0x1F008) 0 1 = (if s.asks = [] then 0 else 1) ∧ s.regRead m 0x1F010 = s.asks.length ∧
      ∀ i, (h : i < s.asks.length) → s.regRead m (0x1F018 + 8 * i) = s.asks[i]) ∧
  (∀ (s : State) (m off n : Nat) (data : List Byte), MemoryCanonical s → off + n ≤ 2 ^ 36 → 0 < n →
    s.cls (s.apbase.toNat * 2 ^ 36 + off) = .dev → s.cls (s.apbase.toNat * 2 ^ 36 + off + n - 1) = .dev →
    (s.corrupt (s.apbase.toNat * 2 ^ 36 + off) n = true →
      Gives s .apertureAccess (.access m off n false data) { on s (.access m off n false data) with answer := [] } ∧
      Passes s .apertureAccess (.access m off n true data)) ∧
    (s.corrupt (s.apbase.toNat * 2 ^ 36 + off) n = false →
    Gives s .apertureAccess (.access m off n false data)
      { on s (.access m off n false data) with answer := bytesOf n (s.loadDev (s.apbase.toNat * 2 ^ 36 + off) n) } ∧
    ∃ t, Gives s .apertureAccess (.access m off n true data) t ∧
      Memory.read t.mem (s.apbase.toNat * 2 ^ 36 + off) n = ofBytes data % 2 ^ (8 * n) ∧
      ∀ a : Nat, a < s.apbase.toNat * 2 ^ 36 + off ∨ s.apbase.toNat * 2 ^ 36 + off + n ≤ a → Memory.get t.mem a = Memory.get s.mem a))

/-- Ownership is elected, and registers take the writes of the owner. Parts: `OwnershipIsElected`, `OwnerWritesRegisters`. -/
def Obligations.OwnerAndRegisters : Prop := StatementPart.OwnershipIsElected ∧ StatementPart.OwnerWritesRegisters


/-! ### Mailbox commands (R455, R457, R459 to R462, R465) -/

namespace Sys2Proof.Claims

/-- A command of a code, with its tag, has been started in mailbox k by a CMD write (R460). -/
def Started (s : State) (k : Fin 16) (tag code : Byte) : Prop :=
  k.val < 15 ∧ s.mailboxes[k].busy = true ∧ s.mailboxes[k].tag = tag ∧ s.mailboxes[k].code = code

/-- The vector of a mailbox is raised at the owner's function, which the board controller does not have (R460). -/
def raised (s : State) (k : Nat) : List (Nat × Nat) := if s.owned = true ∧ s.owner.toNat < 8 then s.vectors ++ [(s.owner.toNat, k)] else s.vectors

/-- The command of mailbox k completes with RESULT r (R460): BUSY falls, DONE is set, vector k is raised. -/
def Completes (s t : State) (k : Fin 16) (tag r : Byte) : Prop :=
  t.mailboxes[k].busy = false ∧ t.mailboxes[k].done = true ∧ t.mailboxes[k].tag = tag ∧ t.mailboxes[k].result = r ∧ t.vectors = raised s k.val ∧
    ∀ j : Fin 16, j ≠ k → t.mailboxes[j] = s.mailboxes[j]

end Sys2Proof.Claims

/-- R460, Table 23.6, of commands that a CMD write has started: SET_ROOT maps the address space and the ports forget it; SET_SAVEBASE keeps an aligned base that leaves
room; BIND_PEER binds a peer number below 128; FRAMES fills the pool of a live die with up to 64 frames homed on it; an unknown code returns RESULT 1. With a bad
argument the result is 2 and nothing else changes. A command that has not been started does nothing. -/
def StatementPart.MailboxesConfigure : Prop :=
  ∀ (s : State) (k : Fin 16) (tag : Byte),
    (∀ c asid a b fs, c = 0 ∨ 9 < c.toNat → Started s k tag c →
      ∃ t, Gives s .mailboxUnknown (.box k.val tag c asid a b fs) t ∧ Completes s t k tag 1 ∧ t.roots = s.roots ∧ t.mem = s.mem) ∧
    (∀ c asid a b fs i code, (i, code) ∈ [(Instr.setRoot, (3 : Byte)), (.setSavebase, 4), (.release, 5), (.frames, 6), (.resume, 7), (.discard, 8)] →
      ¬Started s k tag code → Passes s i (.box k.val tag c asid a b fs)) ∧
    (∀ asid p links dev, ¬Started s k tag 9 → Passes s .bindPeer (.peer k.val tag asid p links dev)) ∧
    (∀ c asid a b fs, Started s k tag 3 →
      (a < s.frames → ∃ t, Gives s .setRoot (.box k.val tag c asid a b fs) t ∧ Completes s t k tag 0 ∧ t.rootOf asid = some a ∧
        (∀ x, x ≠ asid → t.rootOf x = s.rootOf x) ∧ (∀ p ∈ t.ports, ∀ e ∈ p.tlb, e.1 ≠ asid) ∧ t.mem = s.mem) ∧
      (s.frames ≤ a → ∃ t, Gives s .setRoot (.box k.val tag c asid a b fs) t ∧ Completes s t k tag 2 ∧ t.roots = s.roots ∧ t.ports = s.ports)) ∧
    (∀ c asid a b fs, Started s k tag 4 →
      (a % 2 ^ 31 = 0 → a + 2 ^ 47 ≤ 2 ^ 55 → ∃ t, Gives s .setSavebase (.box k.val tag c asid a b fs) t ∧ Completes s t k tag 0 ∧
        t.saveBases.find? (fun e => e.1 == asid) = some (asid, BitVec.ofNat 64 a) ∧
        ∀ x, x ≠ asid → t.saveBases.find? (fun e => e.1 == x) = s.saveBases.find? (fun e => e.1 == x)) ∧
      (a % 2 ^ 31 ≠ 0 ∨ 2 ^ 55 < a + 2 ^ 47 →
        ∃ t, Gives s .setSavebase (.box k.val tag c asid a b fs) t ∧ Completes s t k tag 2 ∧ t.saveBases = s.saveBases)) ∧
    (∀ asid p links dev, Started s k tag 9 →
      (p < 128 → ∃ t, Gives s .bindPeer (.peer k.val tag asid p links dev) t ∧ Completes s t k tag 0 ∧
        t.bindings.find? (fun b => b.asid == asid && b.peer == p) = some ⟨asid, p, links, dev⟩ ∧
        ∀ b ∈ s.bindings, ¬(b.asid = asid ∧ b.peer = p) → b ∈ t.bindings) ∧
      (128 ≤ p → ∃ t, Gives s .bindPeer (.peer k.val tag asid p links dev) t ∧ Completes s t k tag 2 ∧ t.bindings = s.bindings)) ∧
    (∀ c asid d b fs, Started s k tag 6 →
      (∀ h : d < 4, s.dieLive d = true → fs.length ≤ 64 → (∀ f ∈ fs, frameHome f = d ∧ f < s.frames) →
        ∃ t, Gives s .frames (.box k.val tag c asid d b fs) t ∧ Completes s t k tag 0 ∧ t.dies[d].pool = s.dies[d].pool ++ fs ∧ d ∉ t.asks ∧
          t.mem = s.mem ∧ (∀ f ∈ fs, descRefs (t.desc f) = 0) ∧ (fs ≠ [] → t.dies[d].refused = false) ∧ (fs = [] → d ∈ s.asks → t.dies[d].refused = true)) ∧
      (64 < fs.length ∨ s.dieLive d = false ∨ (∃ f ∈ fs, frameHome f ≠ d ∨ s.frames ≤ f) →
        ∃ t, Gives s .frames (.box k.val tag c asid d b fs) t ∧ Completes s t k tag 2 ∧ t.dies = s.dies ∧ t.descs = s.descs ∧ t.asks = s.asks))

/-- R455: LOAD_FW in order while the pilot cores fetch from mailbox 0 appends its chunk; the last lets the image be verified, RESULT 0, and with it the die links between
live dies train (R31), or RESULT 4 where its signature is bad, and the start has failed, BOOTRSN 0x01 (R456). R457: ATTEST answers with the report and its signature,
r and s of 32 bytes each; digests not yet taken read 0 (the model's choice, log 103). R462: RELEASE is busy, RESULT 3, while a voyage of the address space runs, stands
over while a page of it has an access that the Cadastre is about to finish, and else releases its pages; RESUME makes a complete saved image wait for a place; DISCARD
frees the save index; both return 2 for an index without an image and 3 while its voyage is placed. -/
def StatementPart.MailboxesRunCommands : Prop :=
  (∀ x : BitVec 256 × BitVec 256, (signatureBytes x).length = 64) ∧
  ∀ (s : State) (k : Fin 16) (tag : Byte),
    (∀ off chunk last, Started s k tag 1 → k = 0 → s.boot = .fetch → s.tlboot = false → off = s.fw.length →
      (last = false → ∃ t, Gives s .loadFw (.fw k.val tag off chunk last) t ∧ Completes s t k tag 0 ∧ t.fw = s.fw ++ chunk ∧ t.boot = .fetch) ∧
      (last = true → Config.firmwareOk (s.fw ++ chunk) = true → ∃ t, Gives s .loadFw (.fw k.val tag off chunk last) t ∧ Completes s t k tag 0 ∧
        t.boot = .train ∧ t.log = [sha256 Config.romImage, sha256 (s.fw ++ chunk)] ∧
        ∀ d : Fin 4, t.dies[d].cw = (if s.linkLive d.val false then 1 else 0) ∧ t.dies[d].ccw = if s.linkLive d.val true then 1 else 0) ∧
      (last = true → Config.firmwareOk (s.fw ++ chunk) = false → ∃ t, Gives s .loadFw (.fw k.val tag off chunk last) t ∧
        t.mailboxes[k].busy = false ∧ t.mailboxes[k].done = true ∧ t.mailboxes[k].tag = tag ∧ t.mailboxes[k].result = 4 ∧ t.bootrsn = 0x01 ∧
        t.failcnt = (if s.failcnt.toNat < 3 then s.failcnt + 1 else 3) ∧ t.fw = [])) ∧
    (∀ off chunk last, Started s k tag 1 → k ≠ 0 ∨ s.boot ≠ .fetch ∨ s.tlboot = true ∨ off ≠ s.fw.length →
      ∃ t, Gives s .loadFw (.fw k.val tag off chunk last) t ∧ Completes s t k tag 2 ∧ t.fw = s.fw ∧ t.boot = s.boot) ∧
    (∀ off chunk last, ¬Started s k tag 1 → Passes s .loadFw (.fw k.val tag off chunk last)) ∧
    (∀ n : BitVec 256, Started s k tag 2 → ∃ t, Gives s .attest (.nonce k.val tag n) t ∧ Completes s t k tag 0 ∧
      t.mailboxes[k].out = s.report n ++ signatureBytes (Config.deviceSign (sha256 (s.report n))) ∧
      (s.log = [] → s.report n = bytesOf 8 1 ++ bytesOf 8 s.grade.code ++ bytesOf 32 n.toNat ++ List.replicate 64 0) ∧
      ∀ a b, s.log = [a, b] → s.report n = bytesOf 8 1 ++ bytesOf 8 s.grade.code ++ bytesOf 32 n.toNat ++ a ++ b) ∧
    (∀ n : BitVec 256, ¬Started s k tag 2 → Passes s .attest (.nonce k.val tag n)) ∧
    (∀ c asid a b fs, Started s k tag 5 → let e : EvArg := .box k.val tag c asid a b fs
      ((∃ v ∈ s.voyages, v.asid = asid ∧ v.ended = false) → ∃ t, Gives s .release e t ∧ Completes s t k tag 3 ∧ t.mem = s.mem) ∧
      ((∀ v ∈ s.voyages, v.asid = asid → v.ended = true) →
        (a % 2 ^ 16 ≠ 0 ∨ 2 ^ 55 < a + b * 2 ^ 16 → ∃ t, Gives s .release e t ∧ Completes s t k tag 2 ∧ t.mem = s.mem) ∧
        (a % 2 ^ 16 = 0 → a + b * 2 ^ 16 ≤ 2 ^ 55 → s.finishing asid a b = true →
          Gives s .release e { on s e with inputs := s.inputs ++ [(s.time + 1, .release, e)] }) ∧
        (a % 2 ^ 16 = 0 → a + b * 2 ^ 16 ≤ 2 ^ 55 → s.finishing asid a b = false →
          ∃ t, Gives s .release e t ∧ Completes s t k tag 0 ∧ (b = 1 → t.mem = ((on s e).releasePage asid a).mem)))) ∧
    (∀ c asid a b fs x, s.saved.find? (fun e => e.1 == a) = some (a, x) → (∀ v ∈ s.voyages, v.save ≠ a) →
      (Started s k tag 7 → x.complete = true → (∀ l ∈ s.launches, l.resume ≠ some a) → ∃ t l, Gives s .resume (.box k.val tag c asid a b fs) t ∧
        Completes s t k tag 0 ∧ t.launches = s.launches ++ [l] ∧ l.resume = some a ∧ l.pkt = x.voy.pkt ∧ l.asid = x.voy.asid ∧ l.queue = x.voy.queue) ∧
      (Started s k tag 7 → x.complete = false → ∃ t, Gives s .resume (.box k.val tag c asid a b fs) t ∧ Completes s t k tag 2 ∧ t.launches = s.launches) ∧
      (Started s k tag 8 → ∃ t, Gives s .discard (.box k.val tag c asid a b fs) t ∧ Completes s t k tag 0 ∧ (∀ e ∈ t.saved, e.1 ≠ a) ∧
        ∀ l ∈ t.launches, l.resume ≠ some a)) ∧
    (∀ c asid a b fs i code, ((i, code) = (Instr.resume, (7 : Byte)) ∨ (i, code) = (.discard, 8)) → Started s k tag code →
      ((∃ v ∈ s.voyages, v.save = a) → ∃ t, Gives s i (.box k.val tag c asid a b fs) t ∧ Completes s t k tag 3 ∧ t.saved = s.saved ∧ t.launches = s.launches) ∧
      ((∀ v ∈ s.voyages, v.save ≠ a) → s.saved.find? (fun e => e.1 == a) = none →
        ∃ t, Gives s i (.box k.val tag c asid a b fs) t ∧ Completes s t k tag 2 ∧ t.saved = s.saved ∧ t.launches = s.launches))

/-- Mailboxes: configuration and other commands. Parts: `MailboxesConfigure`, `MailboxesRunCommands`. -/
def Obligations.MailboxCommands : Prop := StatementPart.MailboxesConfigure ∧ StatementPart.MailboxesRunCommands


/-! ### Traverse links (R463 to R467) -/

namespace Sys2Proof.Claims

/-- The link carries flits: it is up, or it is link 0 while the pilot cores fetch their image over it (R455, log 92). -/
def Open (s : State) (n : Fin 16) : Prop := s.links[n].up = true ∨ (n = 0 ∧ s.tlboot = true ∧ s.boot = .fetch)

/-- 128 bytes with a good CRC have come over a link that carries flits: a flit of the type, in sequence. -/
def InSequence (s : State) (n : Fin 16) (w : List Byte) (f : Flit) (typ : BitVec 4) : Prop :=
  Flit.ofWire w = some f ∧ f.typ = typ ∧ Open s n ∧ f.seq = s.links[n].expect

/-- The state in which the link has taken the flit: it expects the next number, and drops what the flit acknowledges. -/
def taken (s : State) (n : Fin 16) (w : List Byte) (f : Flit) : State := (on s (.flit n.val w)).modLink n.val (·.take f)

/-- A flit that is not taken: the first of a gap is answered with a nack that carries the expected number, as soon as the window has room for it. -/
def Discards (s t : State) (n : Fin 16) : Prop :=
  t.mem = s.mem ∧ t.reqs = s.reqs ∧ t.routes = s.routes ∧ t.links[n].expect = s.links[n].expect ∧ t.links[n].nacked = true ∧
    (s.links[n].nacked = true → t.links[n] = s.links[n]) ∧
    (s.links[n].nacked = false → s.links[n].waiting = [] → s.links[n].unacked.length < 1024 →
      ∃ g : Flit, t.links[n].outbox = s.links[n].outbox ++ [g.wire] ∧ g.typ = 4 ∧ g.seq = s.links[n].seq ∧ g.body.take 2 = bytesOf 2 s.links[n].expect.toNat) ∧
    (s.links[n].nacked = false → s.links[n].up = true → 1024 ≤ s.links[n].unacked.length →
      t.links[n].outbox = s.links[n].outbox ∧ t.links[n].waiting.length = s.links[n].waiting.length + 1)

/-- The events of flits, with their types. -/
def flitEvents : List (Instr × BitVec 4) :=
  [(.flitIdle, 0), (.flitToken, 1), (.flitRequest, 2), (.flitReply, 3), (.flitNack, 4), (.flitJoin, 5), (.flitBoot, 6)]

end Sys2Proof.Claims

/-- R463, R464: what a flit's 128 bytes carry is what it was sent with. One in sequence is taken: the link expects the next number, but after an idle flit, and drops what
the flit acknowledges. One out of sequence, of a reserved type or with a wrong CRC is discarded: the first of a gap is answered with a nack that carries the expected
number. A nack resends from the number it names, and so does 4 µs without progress. At most 1,024 flits stand unacknowledged; others wait behind them. The model's
choices: the CRC's conventions (log 106), and link 0 before it has trained (log 92). -/
def StatementPart.LinksCountAndResend : Prop :=
  (∀ f : Flit, f.body.length = 116 → f.wire.length = 128 ∧ Flit.ofWire f.wire = some f) ∧
  (∀ (l : TLink) (typ : BitVec 4) (key : BitVec 16) (body : List Byte), l.unacked.length ≤ 1024 →
    (l.send typ key body).unacked.length ≤ 1024 ∧ (l.send typ key body).unacked.length + (l.send typ key body).waiting.length = l.unacked.length + l.waiting.length + 1 ∧
    (l.up = true → l.waiting = [] → l.unacked.length < 1024 → (l.send typ key body).waiting = [] ∧ (l.send typ key body).seq = l.seq + 1 ∧
      (l.send typ key body).unacked = l.unacked ++ [⟨typ, l.seq, key, l.expect - 1, body ++ List.replicate (116 - body.length) 0⟩])) ∧
  (∀ (s : State) (n : Fin 16) (w : List Byte) (f : Flit), InSequence s n w f 0 →
    ∃ t, Gives s .flitIdle (.flit n.val w) t ∧ t.mem = s.mem ∧ t.links[n].expect = s.links[n].expect ∧ t.links[n].nacked = false ∧
      ((s.links[n].unacked.any fun g => g.seq == f.ack) = false → t.links[n] = { s.links[n] with nacked := false }) ∧
      ∀ g r, s.links[n].unacked = g :: r → g.seq = f.ack → t.links[n].timer = 0 ∧ t.links[n].acked = f.ack ∧ (s.links[n].waiting = [] → t.links[n].unacked = r)) ∧
  (∀ (s : State) (n : Fin 16) (w : List Byte) (i : Instr) (typ : BitVec 4), (i, typ) ∈ flitEvents →
    (∀ f, Flit.ofWire w = some f → f.typ = typ → Open s n → f.seq ≠ s.links[n].expect → ∃ t, Gives s i (.flit n.val w) t ∧ Discards s t n) ∧
    (Flit.ofWire w = none → Open s n → ∃ t, Gives s i (.flit n.val w) t ∧ Discards s t n) ∧
    (¬Open s n → Passes s i (.flit n.val w))) ∧
  (∀ (s : State) (n : Fin 16) (w : List Byte), Open s n → (Flit.ofWire w = none ∨ ∃ f, Flit.ofWire w = some f ∧ 7 ≤ f.typ.toNat) →
    ∃ t, Gives s .flitCrcFail (.flit n.val w) t ∧ Discards s t n) ∧
  (∀ (s : State) (n : Fin 16) (w : List Byte) (f : Flit), InSequence s n w f 4 →
    ∃ t, Gives s .flitNack (.flit n.val w) t ∧ t.mem = s.mem ∧ t.links[n].expect = s.links[n].expect + 1 ∧ t.links[n].timer = 0 ∧
      ∃ o, t.links[n].outbox = o ++ t.links[n].unacked.map fun g => ({ g with ack := t.links[n].expect - 1 } : Flit).wire) ∧
  (∀ (s : State) (n : Fin 16), s.links[n].unacked ≠ [] →
    (8400 ≤ s.links[n].timer → ∃ t, Gives s .retransmitTimeout (.link n.val) t ∧ t.mem = s.mem ∧ t.links[n].timer = 0 ∧
      t.links[n].outbox = s.links[n].outbox ++ s.links[n].unacked.map fun g => ({ g with ack := s.links[n].expect - 1 } : Flit).wire) ∧
    (s.links[n].timer < 8400 → ∃ t, Gives s .retransmitTimeout (.link n.val) t ∧ t.links = s.links))

/-- R464 to R467: a token flit enters the buffer of the edge its key names; one that finds no edge or no room is not taken, and is sent again (the model's choice,
log 45). A request flit performs in the address space whose binding names its sender (log 54), and a reply goes back; a reply answers the request that its return tag
names; a join flit joins its edge, or waits for it (log 42); a boot flit appends the next part of the image, and one that does not fit it fails the start (log 92). A
link that goes down hands what is not acknowledged, and its flows, to another link of their set; what no link of its set can take waits (log 105). -/
def StatementPart.FlitsActAndFlowsMove : Prop :=
  (∀ (s : State) (n : Fin 16) (w : List Byte) (f : Flit), InSequence s n w f 1 →
    (s.inboundEdge n.val f.key = none → Passes s .flitToken (.flit n.val w)) ∧
    ∀ (r : Route) (h : Hop) (hs : List Hop), s.inboundEdge n.val f.key = some r → s.routeId? r.id = some r → r.hops = h :: hs →
    (0 < h.fifo.room → s.flows r = true → ∃ t q, Gives s .flitToken (.flit n.val w) t ∧ t.routeId? r.id = some q ∧ t.links[n] = s.links[n].take f ∧
      t.links[n].expect = s.links[n].expect + 1 ∧
      q.hops = { h with fifo := { h.fifo with q := h.fifo.q ++ [⟨s.nextId, some (Token.ofBits (ofBytes (f.body.take 80))), true, 0, 0⟩] } } :: hs) ∧
    (h.fifo.room = 0 ∨ s.flows r = false → Passes s .flitToken (.flit n.val w))) ∧
  (∀ (s : State) (n : Fin 16) (w : List Byte) (f : Flit) (b : Peer), InSequence s n w f 2 →
    (s.bindings.find? fun b => b.links.getLsbD n.val && b.peer == fld f.key.toNat 0 7) = some b →
    ((taken s n w f).serveFlit b.asid (ofBytes f.body) = none → Passes s .flitRequest (.flit n.val w)) ∧
    ∀ (r : Except FaultC Nat) (u : State), (taken s n w f).serveFlit b.asid (ofBytes f.body) = some (r, u) → u.links[n].up = true → u.links[n].waiting = [] →
      u.links[n].unacked.length < 1024 →
      ∃ t g, Gives s .flitRequest (.flit n.val w) t ∧ t.mem = u.mem ∧ t.links[n].expect = u.links[n].expect ∧
        t.links[n].outbox = u.links[n].outbox ++ [Flit.wire g] ∧ g.typ = 3 ∧ g.body.take 80 = replyBody (fld (ofBytes f.body) 192 64) r) ∧
  (∀ (s : State) (asid : BitVec 16) (b : Nat), (fld b 128 8 < 0x40 ∨ 0x42 < fld b 128 8) → ∀ r u, s.serve (flitReq asid b) = some (r, u) →
    ∃ v, s.serveFlit asid b = some (r, v) ∧ v.mem = u.mem ∧ v.links = u.links) ∧
  (∀ (s : State) (n : Fin 16) (w : List Byte) (f : Flit) (q : Req), InSequence s n w f 3 →
    (s.reqs.find? fun q => q.stage == .peer (fld (ofBytes f.body) 8 8) && q.port == some (fld (ofBytes f.body) 16 2, fld (ofBytes f.body) 0 7)) = some q → Stands s q →
    (fld (ofBytes f.body) 64 8 = 0 → q.dest ≠ .none → q.op.writes = false → (∀ c m w, q.op ≠ .part c m w) →
      ∃ t, Gives s .flitReply (.flit n.val w) t ∧ t.mem = s.mem ∧ t.links[n] = s.links[n].take f ∧
        Answers t q (.ok (q.view (fld (ofBytes f.body) 128 512 % 2 ^ (8 * q.bytes))))) ∧
    (∀ c m x, fld (ofBytes f.body) 64 8 = 0 → q.op = .part c m x →
      ∃ t, Gives s .flitReply (.flit n.val w) t ∧ t.mem = s.mem ∧ Answers t q (.ok (VReg.plain 0 (fld (ofBytes f.body) 128 512)))) ∧
    (∀ t, fld (ofBytes f.body) 64 8 ≠ 0 → s.station? q.st = some t → ∃ u, Gives s .flitReply (.flit n.val w) u ∧ u.mem = s.mem ∧
      Answers u q (.fault (faultToken t q.ctx q.slot q.slack.served ⟨fld (ofBytes f.body) 64 8, fld (ofBytes f.body) 96 32, q.va⟩)))) ∧
  (∀ (s : State) (n : Fin 16) (w : List Byte) (f : Flit), InSequence s n w f 5 →
    (∀ r, s.joinRoute f (decide (fld (ofBytes f.body) 80 8 = 0)) = some r →
      ∃ t, Gives s .flitJoin (.flit n.val w) t ∧ t.joins = s.joins ∧ ∃ q, t.routeId? r.id = some q ∧ q.joined = true) ∧
    (s.joinRoute f (decide (fld (ofBytes f.body) 80 8 = 0)) = none →
      ∃ t, Gives s .flitJoin (.flit n.val w) t ∧ t.joins = s.joins ++ [(n.val, f)] ∧ t.routes = s.routes)) ∧
  (∀ (s : State) (w : List Byte) (f : Flit), InSequence s 0 w f 6 → s.tlboot = true → s.boot = .fetch →
    (fld (ofBytes f.body) 0 64 = s.fw.length → 1 ≤ fld (ofBytes f.body) 64 32 → fld (ofBytes f.body) 64 32 ≤ 96 → (ofBytes f.body).testBit 96 = false →
      ∃ t, Gives s .flitBoot (.flit 0 w) t ∧ t.fw = s.fw ++ (f.body.drop 16).take (fld (ofBytes f.body) 64 32) ∧ t.boot = .fetch ∧ t.mem = s.mem) ∧
    (fld (ofBytes f.body) 0 64 ≠ s.fw.length ∨ fld (ofBytes f.body) 64 32 = 0 ∨ 96 < fld (ofBytes f.body) 64 32 →
      ∃ t, Gives s .flitBoot (.flit 0 w) t ∧ t.bootrsn = 0x02 ∧ t.fw = [] ∧ t.mem = s.mem)) ∧
  (∀ (s : State) (n : Fin 16), ∃ t, Gives s .traverseLinkDown (.link n.val) t ∧ t.links[n].up = false ∧ t.mem = s.mem ∧ t.stations = s.stations ∧
    let d := (on s (.link n.val)).modLink n.val fun l => { l with up := false }
    let way (f : Flit) : Option Nat := (d.flitBindings n.val f.typ f.key f.body).findSome? (d.takeover n.val)
    (∀ r ∈ s.routes, ∀ p x key v, r.cross = some (p, x, key) → r.link = n.val → s.voyage? r.voy = some v → (s.bound v.asid p).contains n.val = true →
      { r with link := (d.boundUp v.asid p).headD n.val } ∈ t.routes) ∧
    (∀ m : Fin 16, m ≠ n → s.links[n].waiting = [] → (∀ f ∈ s.links[n].unacked, way f = some m.val) → t.links[n].unacked = [] ∧ t.links[n].waiting = [] ∧
      t.links[m].unacked.length + t.links[m].waiting.length = s.links[m].unacked.length + s.links[m].waiting.length + s.links[n].unacked.length) ∧
    (s.links[n].waiting = [] → (∀ f ∈ s.links[n].unacked, way f = none) → t.links[n].unacked = [] ∧ t.links[n].seq = s.links[n].acked + 1 ∧
      t.links[n].waiting = (s.links[n].unacked.filter fun f => f.typ ≠ 4).map fun f => (f.typ, f.key, f.body)))

/-- Traverse links: numbering and resending, and what the flits do. Parts: `LinksCountAndResend`, `FlitsActAndFlowsMove`. -/
def Obligations.TraverseLinks : Prop := StatementPart.LinksCountAndResend ∧ StatementPart.FlitsActAndFlowsMove



/-! ### Every event completes (chapter 95's table of steps)

One clause for each event with a behaviour of its own: where the conditions of the rule hold of the state alone, the machine answers a next state that
holds the event's own effect. The event's argument stands in `ev`, as the step places it (`EventRunsNext`). -/

/-- R426, R330 to R332, R323 to R329, R383, R395: the events of a station's units. -/
def StatementPart.UnitEventsComplete : Prop :=
  (∀ (s : State) (i : StId) (t : Station) (x : Ss) (d : Fin 16) (c : Fin 8) (p : Nat) (z : ZReg) (ctx : Fin 8) (slot : Fin 32) (sl : Slack) (k : Token),
    s.ev = .st i → s.station? i = some t → t.ss = some x → x.io = some (.sin d c p z ctx slot sl) → t.seen ctx c = some k → partOk k p (some z) = true →
    ∃ u w, exec .sinPart s = .next u ∧ u.station? i = some w ∧ w.c = (t.popC c).c ∧
      w.ss = some { x with io := if p + 1 = partCount z.lc then none else some (.sin d c (p + 1) (addPart z k p) ctx slot sl) }) ∧
  (∀ (s : State) (i : StId) (t : Station) (x : Ss) (o : Fin 8) (z : ZReg) (p : Nat) (sl : Slack),
    s.ev = .st i → s.station? i = some t → t.ss = some x → x.io = some (.sout o z p sl) → s.outRoom i o 1 = true →
    ∃ u w, exec .soutPart s = .next u ∧ u.station? i = some w ∧
      w.ss = some { x with io := if p + 1 = partCount z.lc then none else some (.sout o z (p + 1) sl) }) ∧
  (∀ (s : State) (i : StId) (t : Station) (x : Nrm) (k : Token) (r : List (Nat × Token)),
    s.ev = .st i → s.station? i = some t → t.nrm = some x → x.outs = (0, k) :: r → s.outRoom i x.o 1 = true → t.headEntry x.i = none →
    ∃ u w, exec .normaliserToken s = .next u ∧ u.station? i = some w ∧ w.nrm = some { x with outs := r }) ∧
  (∀ (s : State) (i : StId) (t : Station) (x : Nrm) (k : Token), s.ev = .st i → s.station? i = some t → t.nrm = some x → x.outs = [] →
    t.headEntry x.i = some k → k.stop = 0 → k.f = false → k.fmt = 42 → (rowHdr k).row = x.row → (rowHdr k).part = x.part →
    ∃ u w y, exec .normaliserToken s = .next u ∧ u.station? i = some w ∧ w.c = (t.popC x.i).c ∧ w.nrm = some y ∧ y.half.isSome = x.half.isNone) ∧
  (∀ (s : State) (i : StId) (t : Station) (x : Ctn) (k : Token) (b : Bool) (r : List (Nat × Token × Bool)),
    s.ev = .st i → s.station? i = some t → t.ctn = some x → x.outs = (0, k, b) :: r → s.outRoom i x.o 1 = true → t.headEntry x.i = none →
    ∃ u w, exec .cornerTurnToken s = .next u ∧ u.station? i = some w ∧ w.ctn = some { x with outs := r }) ∧
  (∀ (s : State) (i : StId) (t : Station) (x : Ctn) (k : Token), s.ev = .st i → s.station? i = some t → t.ctn = some x → x.outs = [] →
    t.headEntry x.i = some k → k.stop = 0 → k.f = false → k.fmt = x.ifmt → x.rows.length + 1 < x.ifmt.lanes →
    ∃ u w, exec .cornerTurnToken s = .next u ∧ u.station? i = some w ∧ w.c = (t.popC x.i).c ∧ w.ctn = some { x with rows := x.rows ++ [k] }) ∧
  (∀ (s : State) (i : StId) (t : Station) (m : Mat) (n : Fin 4) (c : Fin 8) (k : Token), s.ev = .tile i n → s.station? i = some t → t.mat = some m →
    t.matPre = some m → m.t[n].fill = some c → t.headEntry c = some k → m.t[n].parks = [] → m.t[n].fresh = false → k.stop = 0 → k.f = false → k.fmt = m.t[n].fmt →
    m.t[n].st = .empty ∨ m.t[n].st = .filling → ∀ h : m.t[n].pos < 64,
    ∃ u w y, exec .tileFillAccept s = .next u ∧ u.station? i = some w ∧ w.c = (t.popC c).c ∧ w.mat = some y ∧
      y.t[n].rows = m.t[n].rows.set m.t[n].pos k.data ∧ y.t[n].st = (if m.t[n].pos = 63 then .full else .filling)) ∧
  (∀ (s : State) (i : StId) (t : Station) (m : Mat) (x : MatStep) (k : AccCfg), s.ev = .st i → s.station? i = some t → t.mat = some m → m.step = some x →
    x.left = 0 → m.a[x.acc].cfg = some k →
    ∃ u w y, exec .matrixStepComplete s = .next u ∧ u.station? i = some w ∧ w.mat = some y ∧ y.step = none ∧ y.a[x.acc].cnt = m.a[x.acc].cnt + 1 ∧
      .acc x.acc ∉ w.pend) ∧
  (∀ (s : State) (i : StId) (t : Station) (m : Mat) (n : Fin 2) (o : Fin 8), s.ev = .acc i n → s.station? i = some t → t.mat = some m →
    m.drains n = some o → s.outRoom i o 1 = true → m.a[n].pos ≤ 511 →
    ∃ u w y, exec .accDrainToken s = .next u ∧ u.station? i = some w ∧ w.mat = some y ∧
      y.a[n].st = (if m.a[n].pos = 511 then .opened else .draining) ∧ y.a[n].pos = (if m.a[n].pos = 511 then 0 else m.a[n].pos + 1)) ∧
  (∀ (s : State) (i : StId) (t : Station) (m : Mat) (n : Fin 2) (q : AccCfg) (c : Fin 8) (k : Token), s.ev = .acc i n → s.station? i = some t →
    t.mat = some m → m.a[n].cfg = some q → q.carry = some c → m.a[n].st = .closed → m.a[n].cin < 512 → m.step = none → (∀ e ∈ t.busy, e.1 ≠ .step) → t.headEntry c = some k →
    k.stop = 0 → k.f = false → k.fmt = 42 → (rowHdr k).row = m.a[n].cin / 8 → (rowHdr k).part = m.a[n].cin % 8 →
    ∃ u w y, exec .carryInToken s = .next u ∧ u.station? i = some w ∧ w.c = (t.popC c).c ∧ w.mat = some y ∧ y.a[n].cin = m.a[n].cin + 1) ∧
  (∀ (s : State) (i : StId) (t : Station) (x : Sd) (j : TreeJob) (b : TBind), s.ev = .st i →
    Engine s i t x j b → s.treeBusy i = false → j.bad = none →
    (s.lockNode b j.memo 0 = .error .retry →
      ∃ u w y e, exec .treeLockRetry s = .next u ∧ u.station? i = some w ∧ w.sd = some y ∧ y.eng = some e ∧ e.left = 64 ∧ e.locks = j.locks) ∧
    (∀ v u', s.lockNode b j.memo 0 = .ok (v, u') → u'.stations = s.stations →
      ∃ u w y e, exec .treeLockRetry s = .next u ∧ u.mem = u'.mem ∧ u.station? i = some w ∧ w.sd = some y ∧ y.eng = some e ∧ e.locks = [(0, v)]) ∧
    (∀ n y w u ls as, j.step = .plan → j.op = .tins n → (tinsert b n).run (TW.start s j.memo) = .ok (y, w) → w.plan b false j.locks = .go u ls as →
      exec .treeOpComplete s = .next ((u.setEngine i (some { j with locks := ls, step := .write, res := y, pages := [] })).askAll i
        { j with locks := ls, step := .write, res := y, pages := [] } as)) ∧
    (j.op ≠ .walk → j.step = .unlock → j.pages = [] → exec .treeOpComplete s = .next (s.treeDone i j j.res)))

/-- R49, R40, R43 to R46, R446, R256, R60, R61, R439, R440, R199: the events of launches, regions and voyages. -/
def StatementPart.VoyageEventsComplete : Prop :=
  (∀ (s : State) (voy reg : Nat) (v : Voyage) (r : Region), s.ev = .region voy reg → s.voyage? voy = some v → v.region? reg = some r → s.doneStop r = true →
    r.st = .running → v.frozen = false → r.frozen = false → v.ended = false → (∃ q ∈ v.regions, q.idx ≠ reg ∧ q.st ≠ .retired) →
    ∃ u w q, exec .regionRetire s = .next u ∧ u.voyage? voy = some w ∧ w.region? reg = some q ∧ q.st = .retired) ∧
  (∀ (s w x y : State) (n : Nat) (p : Packet) (i : Img) (h : List Nat) (m : Image), s.ev = .queue n → NextPacket s n p w → p.kind = 1 → ¬AcqHolds s n p →
    w.readLaunch (s.queue n).asid p = .ok (i, h, y) → y.readArgs (s.queue n).asid p = .ok x → i.parse = some m → x.launchError? m p = none →
    ∃ u l, exec .voyageLaunchPacket s = .next u ∧ u.launches = x.launches ++ [l] ∧ l.pkt = p ∧ l.queue = n ∧ (u.queue n).wait = .placing l.id) ∧
  (∀ (s w x : State) (id : Nat) (l : Launch) (i : Img) (h : List Nat) (m : Image) (sp : Spots), s.ev = .launch id →
    s.launches.find? (fun l => l.id == id) = some l → l.resume = none → s.blocked l = false → s.readLaunch l.asid l.pkt = .ok (i, h, w) → i.parse = some m →
    (l.pkt.dies.all w.dieReady && w.cutOff m l.pkt.dies) = false → w.spots l m = some sp → w.configure l m sp h = .ok x →
    ∃ u v, exec .placement s = .next u ∧ v ∈ u.voyages ∧ v.pkt = l.pkt ∧ v.asid = l.asid ∧ v.frozen = true ∧ ∀ k ∈ u.launches, k.id ≠ id) ∧
  (∀ (s : State) (l : Launch), s.ev = .launch l.id → l ∈ s.launches → 2 ^ 21 ≤ s.time - l.time →
    ∃ u, exec .launchStarveBlock s = .next u ∧ { l with starve := true } ∈ u.launches ∧ u.mem = s.mem) ∧
  (∀ (s w x : State) (id n : Nat) (l : Launch) (k : Saved) (i : Img) (h : List Nat) (m : Image) (a : List (Nat × Nat × Nat × Nat)), s.ev = .launch id →
    s.launches.find? (fun l => l.id == id) = some l → l.resume = some n → s.saved.find? (fun e => e.1 == n) = some (n, k) → k.complete = true →
    s.readLaunch l.asid l.pkt = .ok (i, h, w) → i.parse = some m → w.peersReady l.asid m = true →
    w.resumeSpots l (w.edgesFit m) List.isEmpty m = some a → w.reconfigure l k m h a = .ok x →
    ∃ u v, exec .resumePlace s = .next u ∧ v ∈ u.voyages ∧ v.id = k.voy.id ∧ v.frozen = true ∧ ∀ q ∈ u.launches, q.id ≠ id) ∧
  (∀ (s : State) (id : Nat) (q : Req) (w : Held) (t : Station) (v : Voyage) (r : Region), s.ev = .req id → s.req? id = some q → s.heldBack q = some w →
    s.station? q.st = some t → s.voyage? q.voy = some v → v.region? q.reg = some r → r.tlim ≤ q.held → r.st ≠ .halted →
    ∃ u, exec .timeLimitExpiry s = .next u ∧ Expires s u v r t q.ctx q.slot (s.limitReq w q)) ∧
  (∀ (s : State) (voy : Nat) (v : Voyage), s.ev = .voyage voy → s.voyage? voy = some v → 4096 ≤ v.quiet → v.dead = false →
    ∃ u w, exec .quietDeadlock s = .next u ∧ u.voyage? voy = some w ∧ w.quiet = 0 ∧ w.dead = true) ∧
  (∀ (s : State) (voy reg : Nat) (v : Voyage) (r : Region), s.ev = .region voy reg → s.voyage? voy = some v → v.region? reg = some r → 4096 ≤ v.quiet →
    v.dead = true → r.st = .running → v.ended = false → ∀ t, s.station? (r.at 0 0) = some t →
    ∃ u, exec .deadlockHalt s = .next u ∧ Halts s u v reg 0x09 ((faultPayload t 0 0 ⟨0x09, 0, 0⟩).extractLsb' 0 128)) ∧
  (∀ (s : State) (voy reg : Nat) (x : BitVec 128) (v : Voyage) (r : Region), s.ev = .halt voy reg 0x0C x → s.voyage? voy = some v →
    v.region? reg = some r → v.ended = false → r.st = .running → ∃ u, exec .regionHalt s = .next u ∧ Halts s u v reg 0x0C x) ∧
  (∀ (s : State) (voy : Nat) (x : Byte) (v : Voyage), s.ev = .drain voy x → s.voyage? voy = some v → v.ended = false → v.retired = false → v.halted = false → v.drain = none →
    ∃ u w, exec .drain s = .next u ∧ u.voyage? voy = some w ∧ w.frozen = true ∧ w.drain = some (x, 0)) ∧
  (∀ (s : State) (voy reg : Nat) (v : Voyage) (r : Region), s.ev = .region voy reg → s.voyage? voy = some v → v.region? reg = some r → v.drain = none →
    r.snap = .pending 0 → r.st = .running → ∃ u q, exec .snapshot s = .next u ∧ u.region? voy reg = some q ∧ q.frozen = true) ∧
  (∀ (s : State) (voy reg : Nat) (v : Voyage) (r : Region), s.ev = .region voy reg → s.voyage? voy = some v → v.region? reg = some r →
    r.snap = .saving 0 → r.frozen = true → (∀ d, s.saveRegions v [r] 2 (fun _ => 0) (·.gen) ≠ .error (.frames d)) →
    ∃ u q, exec .imageSaveDone s = .next u ∧ u.region? voy reg = some q ∧ q.snap = .none ∧ q.frozen = false) ∧
  (∀ (s : State) (voy : Nat) (v : Voyage) (x : Byte) (n : Nat), s.ev = .voyage voy → s.voyage? voy = some v → v.drain = some (x, n) →
    v.regions.all (fun r => r.st == .retired || (r.snap == .saving 0 && !r.frozen)) = true → v.owed = [] →
    (∀ d, s.saveRegions v v.regions x.toNat (fun r => if r.st == .retired then 1 else 3) (fun r => r.gen + 1) ≠ .error (.frames d)) →
    ∃ u k, exec .imageSaveDone s = .next u ∧ u.saved.head? = some (v.save, k) ∧ ∀ w ∈ u.voyages, w.id ≠ voy)

/-- R232, R236, R242, R244, R248, R252, R253, R261, R267, R270, R285, R290: the events of memory requests. -/
def StatementPart.RequestEventsComplete : Prop :=
  (∀ (s : State) (k : Nat) (g : Agen), s.ev = .agen k → s.agens[k]? = some g → g.outq = [] → g.pos < g.total → g.pref = false → 0 ≤ g.addr →
    g.h.check g.addr.toNat (if g.wide then 64 else 8) (if g.wide then 64 else 8) = .ok () →
    ∃ u q, exec .agxWalkElement s = .next u ∧ u.agens[k]? = some { g with pos := g.pos + 1, outq := [(s.nextId, none)] } ∧ u.reqs = s.reqs ++ [q] ∧
      q.va = g.addr.toNat) ∧
  (∀ (s : State) (q : Req), s.ev = .req q.id → Stands s q → q.stage = .net 0 → q.h.space ≠ .win → q.op.monitor = false → s.portRoom q = true →
    ∃ u y, exec .memoryRequestIssue s = .next u ∧ u.req? q.id = some y ∧ y.stage = .port ∧ y.op = q.op) ∧
  (∀ (s w : State) (q : Req) (p : Nat × Nat) (ps : List (Nat × Nat × Nat)) (op : ReqOp) (v : Bool), s.ev = .req q.id → Stands s q → s.canRelease q = true →
    s.still q.voy q.reg = false → q.port = some p → q.h.space = .dev → goesHome q = true → q.parts = [] →
    s.transWhole q p (lineParts q.va q.bytes) = (.ok ps op v, w) →
    ∃ u y n, exec .portRelease s = .next u ∧ u.req? q.id = some y ∧ y.stage = .home n ∧ y.released = true ∧ y.parts = ps) ∧
  (∀ (s : State) (q : Req) (pa w : Nat) (sx : Bool), s.ev = .req q.id → q.op = .load w sx → q.dest ≠ .none → AtHome s q pa w →
    ∃ u, exec .homePerform s = .next u ∧ u.mem = s.mem ∧ Answers u q (.ok (scalarReg (extend sx w (Memory.read s.mem pa w))))) ∧
  (∀ (s : State) (q : Req) (n : Nat) (t : Station), s.ev = .req q.id → Stands s q → q.stage = .room n → s.station? q.st = some t → 65536 ≤ n →
    ∃ u, exec .historyOverflow s = .next u ∧ Answers u q (.fault (faultToken t q.ctx q.slot q.slack.served ⟨0x05, q.stamp.toNat % 2 ^ 32, q.va⟩))) ∧
  (∀ (s : State) (q : Req) (v : VReg) (g : Region) (t : Station) (n : Fin 8), s.ev = .req q.id → Stands s q → q.stage = .reply 0 (.ok v) → q.way = [] →
    s.region? q.voy q.reg = some g → g.st ≠ .halted → q.src = .rules → (∀ c n wr, q.op ≠ .part c n wr) → (∀ j x n wr, q.op ≠ .tree j x n wr) → s.station? q.st = some t → q.dest = .d n →
    ∃ u w, exec .memoryReplyLands s = .next u ∧ u.req? q.id = none ∧ u.station? q.st = some w ∧ w.d[n] = v.data.setWidth 64) ∧
  (∀ (s : State) (q : Req) (d : Die), s.ev = .req q.id → Stands s q → q.stage = .home 0 → q.way = [] → q.h.space = .dev → s.die? q.homeDie = some d →
    d.epoch ≠ q.epoch → ∃ u y n, exec .rehashBounce s = .next u ∧ u.req? q.id = some y ∧ y.epoch = d.epoch ∧ y.stage = .home n) ∧
  (∀ (s : State) (q : Req) (st : StId) (off x : Nat) (t : Station), s.ev = .req q.id → Stands s q → q.stage = .net 0 → paCls q.va = .window st off →
    s.station? st = some t → t.voy = q.voy → q.op.writes = false → t.winHeld off false = false → q.credit = false → q.dest ≠ .none →
    t.winRead off q.bytes = some x → t.wornAt off q.bytes = false → ∃ u, exec .windowAccess s = .next u ∧ Answers u q (.ok (q.view x))) ∧
  (∀ (s : State) (q : Req) (o : Nat), s.ev = .req q.id → Stands s q → q.stage = .net 0 → paCls q.va = .mmio o → q.credit = false → q.op.writes = false →
    o + q.bytes ≤ 0x240 → q.dest ≠ .none → ∃ u, exec .mirrorRead s = .next u ∧ Answers u q (.ok (q.view (s.enumBytes o q.bytes)))) ∧
  (∀ (s : State) (asid : BitVec 16) (p : Participant) (m : Mark), s.ev = .mark asid p → m ∈ s.marks → m.asid = asid → m.who = p → m.mark < 2 ^ 52 →
    ∃ u, exec .markPropagate s = .next u ∧ { m with known := m.mark, sent := none } ∈ u.marks) ∧
  (∀ (s : State) (q : Req) (w : Nat) (sx st : Bool) (x : Nat), s.ev = .req q.id → Stands s q → q.stage = .settle → q.op = .ldt w sx st → q.dest ≠ .none →
    q.stamp.toNat < s.watermark q.asid → s.readAll q = .ok x →
    ∃ u, exec .settledLoadRelease s = .next u ∧ Answers u q (.ok (scalarReg (extend sx w x)))) ∧
  (∀ (s : State) (q : Req) (w : Word), s.ev = .req q.id → Stands s q → q.stage = .hit w → q.dest ≠ .none →
    ∃ u, exec .monitorComplete s = .next u ∧ Answers u q (.ok (scalarReg w)))

/-- R238, R279, R256 to R260, R287 to R289, R62 to R65: the events of copies, pages, barriers and tasks. -/
def StatementPart.PageAndTaskEventsComplete : Prop :=
  (∀ (s w x : State) (id : Nat) (k : Copy) (a b : Int) (n v : Nat), s.ev = .copy id → s.copy? id = some k → k.run = true → k.pos < k.total →
    k.wait = none → (∀ q ∈ s.reqs, ∀ m w, q.op ≠ .part k.id m w) → k.src.h.space ≠ .peer → k.dst.h.space ≠ .peer → k.piece = (a, b, n) →
    k.read s a n = .ok v w → k.write w b n v = .ok () x → x.copy? id = some k →
    ∃ u, exec .copyWrite s = .next u ∧ u.copy? id = some { k with pos := k.pos + n, wait := none, held := 0 } ∧ u.mem = x.mem) ∧
  (∀ (s : State) (id : Nat) (k : Copy) (t : Station), s.ev = .copy id → s.copy? id = some k → k.run = true → k.total ≤ k.pos → s.station? k.st = some t →
    ∃ u v, exec .copyComplete s = .next u ∧ u.copy? id = none ∧ u.station? k.st = some v ∧ v.copies = t.copies - 1) ∧
  (∀ (s w : State) (q : Req) (i : Instr) (why : Held), (i, why) ∈ [(.firstTouch, .firstTouch), (.copyOnWrite, .copyOnWrite), (.decompress, .decompress)] →
    s.ev = .req q.id → Stands s q → q.stage = .withheld why → q.op.monitor = false → q.parts = [] →
    s.resolve why q.asid q.va q.bytes q.die q.h.comp q.op.reads q.op.writes = .ok w →
    ∃ u, exec i s = .next u ∧ u.mem = w.mem ∧ u.req? q.id = some { q with held := 0, stage := .port }) ∧
  (∀ (s : State) (d k : Nat) (x y : Die), s.ev = .die d → s.die? d = some x → x.pool = [] →
    (s.borrowOrder d).find? (fun k => match s.die? k with | some x => !x.pool.isEmpty | none => false) = some k → s.die? k = some y →
    ∃ u, exec .poolBorrow s = .next u ∧ (u.die? d).map (·.pool) = some (y.pool.take 64)) ∧
  (∀ (s : State) (asid : BitVec 16) (va a e : Nat) (c : BitVec 3) (slot : BitVec 22), s.ev = .page asid va c slot → s.walk asid va = .leaf a e →
    pteKind e ≠ 1 → pteComp e = true → pteVers e = false → 1 ≤ c.toNat → c.toNat ≤ 4 → descScls (s.desc (pteFrame e)) = 0 →
    ∃ u, exec .pageCompress s = .next u ∧ descScls (u.desc (pteFrame e)) = c.toNat) ∧
  (∀ (s : State) (f : Nat) (slot : BitVec 22), s.ev = .frame f slot → descScls (s.desc f) ≠ 0 →
    ∃ u, exec .slabCompaction s = .next u ∧ u.mem = s.mem ∧ fld (u.desc f) 40 22 = slot.toNat) ∧
  (∀ (s : State) (k : BarKey) (m : BarMsg) (n : Nat), s.ev = .bar k → (s.barMsgs.filter fun m => m.key == k && m.left == 0 && m.away.isNone) = [m] →
    (s.barEntry k).spilled = false → m.op = .arrive n → (s.barEntry k).exp ≠ 0 → (s.barEntry k).exp.toNat ≤ ((s.barEntry k).arr + 1).toNat →
    (s.barEntry k).swaps = [] →
    ∃ u, exec .barrierEntryUpdate s = .next u ∧ u.barEntry k = { s.barEntry k with ph := (s.barEntry k).ph + 1, arr := 0, swaps := [] }) ∧
  (∀ (s : State) (d n : Nat) (t : Task), s.ev = .task d n → s.nextTask d = some t → s.hostsOf t ≠ [] →
    ∃ u i c v, exec .taskDispatch s = .next u ∧ (i, c) ∈ s.hostsOf t ∧ u.station? i = some v ∧ v.ctx[c].running = some t.id ∧ v.ctx[c].ts = t.ts) ∧
  (∀ (s : State) (d id : Nat) (t : Task), s.ev = .task d id → s.task? id = some t → s.commits t = true →
    ∃ u, exec .taskCommit s = .next u ∧ ∀ k ∈ u.tasks, k.id ≠ id ∧ k.parent ≠ some id) ∧
  (∀ (s : State) (d id : Nat) (t : Task), s.ev = .task d id → s.task? id = some t → t.spoiled = true →
    ∃ u, exec .taskAbort s = .next u ∧ ∀ k ∈ u.tasks, k.id ≠ id)

/-- The events of stations, voyages and memory complete with their own effect. Parts: `UnitEventsComplete`, `VoyageEventsComplete`, `RequestEventsComplete`,
`PageAndTaskEventsComplete`. Model's choices: when a tree engine's requests and writes happen (log 10), what an empty pool borrows (log 34), when a drain freezes
(log 68), and whose quiet cycles a region's deadlock counts (log 86). -/
def Obligations.MachineEventsComplete : Prop :=
  StatementPart.UnitEventsComplete ∧ StatementPart.VoyageEventsComplete ∧ StatementPart.RequestEventsComplete ∧ StatementPart.PageAndTaskEventsComplete

/-- R25, R30 to R35, R261, R262, R455, R456, R458: the events of dies, links, starts and power. -/
def StatementPart.HardwareEventsComplete : Prop :=
  (∀ (s : State) (d : Fin 4) (half : Bool), s.ev = .unit (.link d.val false half) →
    ∃ u, exec .dieLinkDown s = .next u ∧ u.dies[d].cw = 0 ∧ u.dies[d + 1].ccw = 0 ∧ u.mem = s.mem) ∧
  (∀ (s : State) (d : Fin 4) (i : Nat), s.ev = .slice d.val i → s.dies[d].slices.getLsbD i = true → 1 < s.dies[d].sliceCount →
    ∃ u, exec .sliceRetire s = .next u ∧ u.dies[d].slices.getLsbD i = false ∧ u.dies[d].epoch = s.dies[d].epoch + 1) ∧
  (∀ (s : State) (d : Fin 4), s.ev = .die d.val → s.state ≠ 0 →
    ∃ u, exec .dieFailure s = .next u ∧ u.dies[d].failed = true ∧ u.dies[d].ready.getLsbD 0 = false) ∧
  (∀ (s : State) (r : Nat), s.ev = .row r → ∃ u, exec .rowHammerRefresh s = .next u ∧ u.mem = s.mem ∧ u.reqs.map (·.id) = s.reqs.map (·.id)) ∧
  (∀ (s : State) (a b x y : Nat), s.ev = .swap a b → a ≠ b → s.remap.find? (fun e => e.1 == a) = some (a, x) →
    s.remap.find? (fun e => e.1 == b) = some (b, y) →
    ∃ u, exec .remapSwap s = .next u ∧ u.mem = s.mem ∧ u.remap.find? (fun e => e.1 == a) = some (a, y) ∧ u.remap.find? (fun e => e.1 == b) = some (b, x)) ∧
  (∀ (s : State) (d : Fin 4), s.ev = .unit (.helm d.val) → s.boot = .train ∨ s.boot = .running → s.dies[d].live = true →
    ∃ u, exec .unitReady s = .next u ∧ u.dies[d].ready.getLsbD 5 = true) ∧
  (∀ s : State, s.ev = .none → ∃ u, exec .deviceReset s = .next u ∧ u.state = 0 ∧ u.boot = .fetch ∧ u.time = 0 ∧ u.voyages = [] ∧ u.stations = []) ∧
  (∀ s : State, s.boot = .fetch → 2100000000 ≤ s.bootTime → ∃ u, exec .fwFetchTimeout s = .next u ∧ u.bootrsn = 0x02 ∧ u.stations = []) ∧
  (∀ s : State, s.state = 0 → 4200000000 ≤ s.bootTime → ∃ u, exec .startTimeout s = .next u ∧ (u.bootrsn = 0x03 ∨ u.bootrsn = 0x04) ∧ u.stations = []) ∧
  (∀ (s : State) (k : Nat), s.ev = .core k → s.state = 0 → ∃ u, exec .pilotCoreFault s = .next u ∧ u.bootrsn = 0x05 ∧ u.stations = []) ∧
  (∀ s : State, MemoryCanonical s → s.pwrmir ≠ 0 →
    ∃ u, exec .powerRedivide s = .next u ∧ u.pwrseq = s.pwrseq + 1 ∧ Memory.read u.host (s.pwrmir.toNat + 24) 8 = u.pwrseq.toNat)

/-- R449 to R454, R456, R458: the events of ownership and of the owner's registers. -/
def StatementPart.OwnerEventsComplete : Prop :=
  (∀ (s : State) (m : Nat) (p : BitVec 8) (n : BitVec 32), s.ev = .claim m p n → s.owned = false →
    ∃ u, exec .ownclaim s = .next u ∧ ⟨m, p, n⟩ ∈ u.claims ∧ u.window = some (s.window.getD 2100)) ∧
  (∀ s : State, s.window = some 0 → s.claims ≠ [] → ∃ u, ∃ c ∈ s.claims, exec .claimWindowEnd s = .next u ∧ u.owned = true ∧ u.owner = BitVec.ofNat 4 c.master) ∧
  (∀ (s : State) (m : Nat) (v : Word), s.ev = .master m v → s.owned = true → s.owner.toNat = m →
    (s.attached.getLsbD (v.toNat % 16) = true → ∃ u, exec .ownhand s = .next u ∧ u.owner = v.extractLsb' 0 4) ∧
    (∃ u, exec .ownerLapse s = .next u ∧ u.owned = false) ∧
    (v.getLsbD 0 = true → ∃ u, exec .devctlReset s = .next u ∧ u.bootrsn = 0x06 ∧ u.state = 0) ∧
    (v.getLsbD 1 = true → ∃ u, exec .devctlClrfail s = .next u ∧ u.failcnt = 0) ∧
    (∃ u, exec .sbqueryWrite s = .next u ∧ u.sbquery = v.extractLsb' 0 16) ∧
    ∃ u, exec .pwrlimWrite s = .next u ∧ u.pwrlim = v.extractLsb' 0 16) ∧
  (∀ (s : State) (m : Nat) (v : Word), s.ev = .reg m 0x1020 v → s.owned = true → s.owner.toNat = m →
    ∃ u, exec .registerWrite s = .next u ∧ u.apbase = v.extractLsb' 36 10) ∧
  (∀ (s : State) (m off n : Nat) (data : List Byte), MemoryCanonical s → s.ev = .access m off n true data → off + n ≤ 2 ^ 36 → 0 < n →
    s.cls (s.apbase.toNat * 2 ^ 36 + off) = .dev → s.cls (s.apbase.toNat * 2 ^ 36 + off + n - 1) = .dev → s.corrupt (s.apbase.toNat * 2 ^ 36 + off) n = false →
    ∃ u, exec .apertureAccess s = .next u ∧ Memory.read u.mem (s.apbase.toNat * 2 ^ 36 + off) n = ofBytes data % 2 ^ (8 * n))

/-- R242, R454, R455, R457, R459 to R462, R465: the commands of the mailboxes, once a CMD write has started them. -/
def StatementPart.MailboxEventsComplete : Prop :=
  ∀ (s : State) (k : Fin 16) (tag : Byte),
    (∀ chunk, s.ev = .fw k.val tag s.fw.length chunk false → Started s k tag 1 → k = 0 → s.boot = .fetch → s.tlboot = false →
      ∃ u, exec .loadFw s = .next u ∧ Completes s u k tag 0 ∧ u.fw = s.fw ++ chunk) ∧
    (∀ n : BitVec 256, s.ev = .nonce k.val tag n → Started s k tag 2 → ∃ u, exec .attest s = .next u ∧ Completes s u k tag 0 ∧
      u.mailboxes[k].out = s.report n ++ signatureBytes (Config.deviceSign (sha256 (s.report n)))) ∧
    (∀ asid p links dev, s.ev = .peer k.val tag asid p links dev → Started s k tag 9 → p < 128 →
      ∃ u, exec .bindPeer s = .next u ∧ Completes s u k tag 0 ∧ ⟨asid, p, links, dev⟩ ∈ u.bindings) ∧
    (∀ c asid a b fs, s.ev = .box k.val tag c asid a b fs →
      (c = 0 ∨ 9 < c.toNat → Started s k tag c → ∃ u, exec .mailboxUnknown s = .next u ∧ Completes s u k tag 1) ∧
      (Started s k tag 3 → a < s.frames → ∃ u, exec .setRoot s = .next u ∧ Completes s u k tag 0 ∧ u.rootOf asid = some a) ∧
      (Started s k tag 4 → a % 2 ^ 31 = 0 → a + 2 ^ 47 ≤ 2 ^ 55 →
        ∃ u, exec .setSavebase s = .next u ∧ Completes s u k tag 0 ∧ (asid, BitVec.ofNat 64 a) ∈ u.saveBases) ∧
      (Started s k tag 5 → (∀ v ∈ s.voyages, v.asid = asid → v.ended = true) → a % 2 ^ 16 = 0 → a + b * 2 ^ 16 ≤ 2 ^ 55 → b = 1 → s.finishing asid a b = false →
        ∃ u, exec .release s = .next u ∧ Completes s u k tag 0 ∧ u.mem = (s.releasePage asid a).mem) ∧
      (∀ d : Fin 4, Started s k tag 6 → a = d.val → s.dieLive d.val = true → fs.length ≤ 64 → (∀ f ∈ fs, frameHome f = d.val ∧ f < s.frames) →
        ∃ u, exec .frames s = .next u ∧ Completes s u k tag 0 ∧ u.dies[d].pool = s.dies[d].pool ++ fs) ∧
      (∀ x, s.saved.find? (fun e => e.1 == a) = some (a, x) → (∀ v ∈ s.voyages, v.save ≠ a) →
        (Started s k tag 7 → x.complete = true → (∀ l ∈ s.launches, l.resume ≠ some a) →
          ∃ u l, exec .resume s = .next u ∧ Completes s u k tag 0 ∧ u.launches = s.launches ++ [l] ∧ l.resume = some a) ∧
        (Started s k tag 8 → ∃ u, exec .discard s = .next u ∧ Completes s u k tag 0 ∧ ∀ e ∈ u.saved, e.1 ≠ a)))

/-- R455, R463 to R467: the flits and the events of a traverse link. -/
def StatementPart.FlitEventsComplete : Prop :=
  (∀ (s : State) (n : Fin 16) (w : List Byte) (f : Flit), s.ev = .flit n.val w →
    (InSequence s n w f 0 → ∃ u, exec .flitIdle s = .next u ∧ u.links[n].expect = s.links[n].expect ∧ u.links[n].nacked = false) ∧
    (∀ (r : Route) (h : Hop) (hs : List Hop), InSequence s n w f 1 → s.inboundEdge n.val f.key = some r → s.routeId? r.id = some r → r.hops = h :: hs →
      s.flows r = true → 0 < h.fifo.room →
      ∃ u q, exec .flitToken s = .next u ∧ u.routeId? r.id = some q ∧
        q.hops = { h with fifo := { h.fifo with q := h.fifo.q ++ [⟨s.nextId, some (Token.ofBits (ofBytes (f.body.take 80))), true, 0, 0⟩] } } :: hs) ∧
    (∀ (x : State) (b : Peer) (r : Except FaultC Nat), InSequence s n w f 2 →
      (s.bindings.find? fun b => b.links.getLsbD n.val && b.peer == fld f.key.toNat 0 7) = some b →
      (taken s n w f).serveFlit b.asid (ofBytes f.body) = some (r, x) → x.links[n].up = true → x.links[n].waiting = [] → x.links[n].unacked.length < 1024 →
      ∃ u g, exec .flitRequest s = .next u ∧ u.mem = x.mem ∧ u.links[n].outbox = x.links[n].outbox ++ [Flit.wire g] ∧ g.typ = 3 ∧
        g.body.take 80 = replyBody (fld (ofBytes f.body) 192 64) r) ∧
    (∀ q : Req, InSequence s n w f 3 →
      (s.reqs.find? fun q => q.stage == .peer (fld (ofBytes f.body) 8 8) && q.port == some (fld (ofBytes f.body) 16 2, fld (ofBytes f.body) 0 7)) = some q →
      fld (ofBytes f.body) 64 8 = 0 → Stands s q → q.dest ≠ .none → q.op.writes = false → (∀ c m w, q.op ≠ .part c m w) →
      ∃ u, exec .flitReply s = .next u ∧ Answers u q (.ok (q.view (fld (ofBytes f.body) 128 512 % 2 ^ (8 * q.bytes))))) ∧
    (InSequence s n w f 4 → ∃ u o, exec .flitNack s = .next u ∧ u.links[n].timer = 0 ∧
      u.links[n].outbox = o ++ u.links[n].unacked.map fun g => ({ g with ack := u.links[n].expect - 1 } : Flit).wire) ∧
    (InSequence s n w f 5 → s.joinRoute f (decide (fld (ofBytes f.body) 80 8 = 0)) = none →
      ∃ u, exec .flitJoin s = .next u ∧ u.joins = s.joins ++ [(n.val, f)]) ∧
    (n = 0 → InSequence s n w f 6 → s.tlboot = true → s.boot = .fetch → fld (ofBytes f.body) 0 64 = s.fw.length →
      1 ≤ fld (ofBytes f.body) 64 32 → fld (ofBytes f.body) 64 32 ≤ 96 → (ofBytes f.body).testBit 96 = false →
      ∃ u, exec .flitBoot s = .next u ∧ u.fw = s.fw ++ (f.body.drop 16).take (fld (ofBytes f.body) 64 32))) ∧
  (∀ (s : State) (n : Fin 16) (w : List Byte), s.ev = .flit n.val w → Flit.ofWire w = none → Open s n → ∃ u, exec .flitCrcFail s = .next u ∧ Discards s u n) ∧
  (∀ (s : State) (n : Fin 16), s.ev = .link n.val →
    (s.links[n].unacked ≠ [] → 8400 ≤ s.links[n].timer →
      ∃ u, exec .retransmitTimeout s = .next u ∧ u.links[n].timer = 0 ∧
        u.links[n].outbox = s.links[n].outbox ++ s.links[n].unacked.map fun g => ({ g with ack := s.links[n].expect - 1 } : Flit).wire) ∧
    ∃ u, exec .traverseLinkDown s = .next u ∧ u.links[n].up = false ∧ u.mem = s.mem)

/-- The events of the device, its owner, its mailboxes and its traverse links complete with their own effect. Parts: `HardwareEventsComplete`,
`OwnerEventsComplete`, `MailboxEventsComplete`, `FlitEventsComplete`. Model's choices: what a reset keeps (log 44), where a peer's request performs (log 54), the
place of the count in the power record (log 67), and link 0 before it has trained (log 92). -/
def Obligations.DeviceEventsComplete : Prop :=
  StatementPart.HardwareEventsComplete ∧ StatementPart.OwnerEventsComplete ∧ StatementPart.MailboxEventsComplete ∧ StatementPart.FlitEventsComplete
end

