-- ==== Sys2Proof/Laws/Memory.lean ====
section
/-! SUPPORT. Byte stores: reading after writing, and the canonical form that every operation keeps. -/

namespace Sys2Proof.Machine

open Sys2Proof

/-! ### The canonical form -/

theorem Memory.wf_cons {c : Host.Cell} {r : List Host.Cell} :
    Memory.wf (c :: r) = true ↔ c.2 ≠ 0 ∧ (∀ e ∈ r, c.1 < e.1) ∧ Memory.wf r = true := by
  simp [Memory.wf, and_assoc]

theorem Memory.wf_nil : Memory.wf [] = true := rfl

/-- An address below every listed one reads zero. -/
theorem Memory.get_below {m : List Host.Cell} {a : Nat} (h : ∀ e ∈ m, a < e.1) : Memory.get m a = 0 := by
  induction m with
  | nil => rfl
  | cons c r ih =>
    have hc : a < c.1 := h c (by simp)
    simp only [Memory.get, if_neg (by omega : ¬ c.1 = a)]
    exact ih fun e he => h e (by simp [he])

/-- Listed addresses of a written store: the old ones and the written one. -/
theorem Memory.mem_set {m : List Host.Cell} {a : Nat} {b : Byte} {e : Host.Cell} (h : e ∈ Memory.set m a b) : e.1 = a ∨ e ∈ m := by
  induction m with
  | nil =>
    simp only [Memory.set] at h
    split at h <;> simp_all
  | cons c r ih =>
    simp only [Memory.set] at h
    split at h
    · split at h
      · exact .inr h
      · rcases List.mem_cons.1 h with h | h
        · exact .inl (by rw [h])
        · exact .inr h
    · split at h
      · split at h
        · exact .inr (List.mem_cons_of_mem _ h)
        · rcases List.mem_cons.1 h with h | h
          · exact .inl (by rw [h])
          · exact .inr (List.mem_cons_of_mem _ h)
      · rcases List.mem_cons.1 h with h | h
        · exact .inr (by simp [h])
        · rcases ih h with h | h
          · exact .inl h
          · exact .inr (List.mem_cons_of_mem _ h)

/-- Writing a byte keeps the canonical form. -/
theorem Memory.wf_set {m : List Host.Cell} {a : Nat} {b : Byte} (h : Memory.wf m = true) : Memory.wf (Memory.set m a b) = true := by
  induction m with
  | nil =>
    simp only [Memory.set]
    split
    · rfl
    · rename_i hb; exact Memory.wf_cons.2 ⟨hb, by simp, rfl⟩
  | cons c r ih =>
    obtain ⟨hc, hr, hw⟩ := Memory.wf_cons.1 h
    simp only [Memory.set]
    split
    · rename_i hlt
      split
      · exact h
      · rename_i hb
        refine Memory.wf_cons.2 ⟨hb, fun e he => ?_, h⟩
        rcases List.mem_cons.1 he with he | he
        · rw [he]; exact hlt
        · exact Nat.lt_trans hlt (hr e he)
    · split
      · rename_i hge heq
        split
        · exact hw
        · rename_i hb
          exact Memory.wf_cons.2 ⟨hb, fun e he => by simpa [heq] using hr e he, hw⟩
      · refine Memory.wf_cons.2 ⟨hc, fun e he => ?_, ih hw⟩
        rcases Memory.mem_set he with he | he
        · omega
        · exact hr e he

/-- Writing bytes keeps the canonical form. -/
theorem Memory.wf_write {n : Nat} : ∀ {m : List Host.Cell} {a x : Nat}, Memory.wf m = true → Memory.wf (Memory.write m a n x) = true := by
  induction n with
  | zero => intro m a x h; exact h
  | succ n ih => intro m a x h; exact ih (Memory.wf_set h)

/-- Dropping cells keeps the canonical form. -/
theorem Memory.wf_filter {m : List Host.Cell} {p : Host.Cell → Bool} (h : Memory.wf m = true) : Memory.wf (m.filter p) = true := by
  induction m with
  | nil => rfl
  | cons c r ih =>
    obtain ⟨hc, hr, hw⟩ := Memory.wf_cons.1 h
    rw [List.filter_cons]
    split
    · exact Memory.wf_cons.2 ⟨hc, fun e he => hr e (List.mem_filter.1 he).1, ih hw⟩
    · exact ih hw

/-- Writing the cells of a list keeps the canonical form. -/
theorem Memory.wf_foldl_set {l : List Host.Cell} {f : Host.Cell → Nat} {g : Host.Cell → Byte} :
    ∀ {m : List Host.Cell}, Memory.wf m = true → Memory.wf (l.foldl (fun m c => Memory.set m (f c) (g c)) m) = true := by
  induction l with
  | nil => intro m h; exact h
  | cons c r ih => intro m h; exact ih (Memory.wf_set h)

/-- Exchanging a range keeps the canonical form of both stores. -/
theorem Memory.wf_exchange {l r : List Host.Cell} {a n : Nat} (hl : Memory.wf l = true) (hr : Memory.wf r = true) :
    Memory.wf (Memory.exchange l r a n).1 = true ∧ Memory.wf (Memory.exchange l r a n).2 = true :=
  ⟨Memory.wf_foldl_set (Memory.wf_filter hl), Memory.wf_foldl_set (Memory.wf_filter hr)⟩

/-! ### Reading after writing -/

/-- A byte reads as written, and every other as before. -/
theorem Memory.get_set {m : List Host.Cell} {a c : Nat} {b : Byte} (h : Memory.wf m = true) :
    Memory.get (Memory.set m a b) c = if c = a then b else Memory.get m c := by
  induction m with
  | nil =>
    simp only [Memory.set]
    split
    · rename_i hb; simp [Memory.get, hb]
    · simp only [Memory.get]
      by_cases hc : c = a
      · simp [hc]
      · simp [hc, Ne.symm hc]
  | cons k r ih =>
    obtain ⟨hk, hr, hw⟩ := Memory.wf_cons.1 h
    simp only [Memory.set]
    split
    · rename_i hlt
      split
      · rename_i hb
        split
        · rename_i hc
          rw [Memory.get_below, hb]
          intro e he
          rcases List.mem_cons.1 he with he | he
          · rw [he, hc]; exact hlt
          · rw [hc]; exact Nat.lt_trans hlt (hr e he)
        · rfl
      · simp only [Memory.get]
        by_cases hc : c = a
        · simp [hc]
        · simp [hc, Ne.symm hc]
    · split
      · rename_i heq
        split
        · rename_i hb
          by_cases hc : c = a
          · rw [if_pos hc, Memory.get_below, hb]
            intro e he; rw [hc, heq]; exact hr e he
          · simp only [Memory.get, if_neg hc, if_neg (by omega : ¬ k.1 = c)]
        · simp only [Memory.get]
          by_cases hc : c = a
          · simp [hc]
          · have hk' : ¬ k.1 = c := by omega
            simp [hc, Ne.symm hc, hk']
      · rename_i hne
        simp only [Memory.get]
        by_cases hkc : k.1 = c
        · have hca : ¬ c = a := by omega
          simp [hkc, hca]
        · simp only [if_neg hkc, ih hw]

/-- The byte of a little-endian write at an address of its range, and every other byte as before. -/
theorem Memory.get_write {n : Nat} : ∀ {m : List Host.Cell} {a x c : Nat}, Memory.wf m = true →
    Memory.get (Memory.write m a n x) c = if a ≤ c ∧ c < a + n then BitVec.ofNat 8 (x / 256 ^ (c - a)) else Memory.get m c := by
  induction n with
  | zero => intro m a x c _; simp [Memory.write]
  | succ n ih =>
    intro m a x c h
    rw [Memory.write, ih (Memory.wf_set h), Memory.get_set h]
    by_cases hc : c = a
    · subst hc; simp
    · by_cases h1 : a + 1 ≤ c ∧ c < a + 1 + n
      · rw [if_pos h1, if_pos ⟨by omega, by omega⟩]
        have : c - a = (c - (a + 1)) + 1 := by omega
        rw [this, Nat.pow_succ, Nat.mul_comm, Nat.div_div_eq_div_mul]
      · rw [if_neg h1, if_neg hc, if_neg (by omega)]

/-- Reading depends on the bytes of the range only. -/
theorem Memory.read_congr {n : Nat} : ∀ {m m' : List Host.Cell} {a : Nat},
    (∀ c, a ≤ c → c < a + n → Memory.get m c = Memory.get m' c) → Memory.read m a n = Memory.read m' a n := by
  induction n with
  | zero => intro m m' a _; rfl
  | succ n ih =>
    intro m m' a h
    simp only [Memory.read]
    rw [h a (by omega) (by omega), ih fun c h1 h2 => h c (by omega) (by omega)]

/-- What was written reads back. -/
theorem Memory.read_write {n : Nat} : ∀ {m : List Host.Cell} {a x : Nat}, Memory.wf m = true →
    Memory.read (Memory.write m a n x) a n = x % 256 ^ n := by
  induction n with
  | zero => intro m a x _; simp [Memory.read, Nat.mod_one]
  | succ n ih =>
    intro m a x h
    have hw := Memory.wf_set (a := a) (b := BitVec.ofNat 8 x) h
    rw [Memory.read, Memory.write, ih hw, Memory.get_write hw, if_neg (by omega), Memory.get_set h, if_pos rfl]
    have hp : 256 ^ (n + 1) = 256 * 256 ^ n := by rw [Nat.pow_succ, Nat.mul_comm]
    rw [BitVec.toNat_ofNat, hp, Nat.mod_mul]

/-- A write beside the range leaves a read alone. -/
theorem Memory.read_write_other {m : List Host.Cell} {a x n b k : Nat} (h : Memory.wf m = true) (hd : b + k ≤ a ∨ a + n ≤ b) :
    Memory.read (Memory.write m a n x) b k = Memory.read m b k :=
  Memory.read_congr fun c h1 h2 => by rw [Memory.get_write h, if_neg (by omega)]

/-- A read of n bytes is below 256^n. -/
theorem Memory.read_lt {n : Nat} : ∀ {m : List Host.Cell} {a : Nat}, Memory.read m a n < 256 ^ n := by
  induction n with
  | zero => intro m a; simp [Memory.read]
  | succ n ih =>
    intro m a
    have h1 := (Memory.get m a).isLt
    have h2 := @ih m (a + 1)
    simp only [Memory.read, Nat.pow_succ]
    omega

/-- Canonical stores that read alike are the same data. -/
theorem Memory.ext {m : List Host.Cell} : ∀ {m' : List Host.Cell}, Memory.wf m = true → Memory.wf m' = true →
    (∀ a, Memory.get m a = Memory.get m' a) → m = m' := by
  induction m with
  | nil =>
    intro m' _ h' hg
    cases m' with
    | nil => rfl
    | cons k r =>
      have := hg k.1
      simp [Memory.get] at this
      exact absurd this.symm (Memory.wf_cons.1 h').1
  | cons c r ih =>
    intro m' h h' hg
    obtain ⟨hc, hr, hw⟩ := Memory.wf_cons.1 h
    cases m' with
    | nil =>
      have := hg c.1
      simp [Memory.get] at this
      exact absurd this hc
    | cons k r' =>
      obtain ⟨hk, hr', hw'⟩ := Memory.wf_cons.1 h'
      have below {x : Nat} {l : List Host.Cell} {d : Host.Cell} (hl : ∀ e ∈ l, d.1 < e.1) (hx : x < d.1) : Memory.get (d :: l) x = 0 :=
        Memory.get_below fun e he => by
          rcases List.mem_cons.1 he with he | he
          · rw [he]; exact hx
          · exact Nat.lt_trans hx (hl e he)
      have hck : c.1 = k.1 := by
        rcases Nat.lt_trichotomy c.1 k.1 with hlt | heq | hgt
        · have := hg c.1
          rw [below hr' hlt] at this
          simp [Memory.get] at this
          exact absurd this hc
        · exact heq
        · have := hg k.1
          rw [below hr hgt] at this
          simp [Memory.get] at this
          exact absurd this.symm hk
      have hv : c.2 = k.2 := by
        have := hg c.1
        simpa [Memory.get, hck] using this
      have hrest : r = r' := ih hw hw' fun a => by
        by_cases ha : c.1 = a
        · rw [Memory.get_below fun e he => ha ▸ hr e he, Memory.get_below fun e he => by rw [← ha, hck]; exact hr' e he]
        · have := hg a
          simpa [Memory.get, ha, hck ▸ ha] using this
      rw [Prod.ext hck hv, hrest]

end Sys2Proof.Machine
end

