-- ==== Sys2Proof/Laws/State.lean ====
section
/-! SUPPORT. One lemma for each field of the state and each named update of it that leaves the field alone. -/

namespace Sys2Proof.Machine

open Sys2Proof

/-! ### `State.fresh` -/

@[simp] theorem State.fresh_grade (s : State) : (s.fresh).grade = s.grade := rfl
@[simp] theorem State.fresh_time (s : State) : (s.fresh).time = s.time := rfl
@[simp] theorem State.fresh_free (s : State) : (s.fresh).free = s.free := rfl
@[simp] theorem State.fresh_agenda (s : State) : (s.fresh).agenda = s.agenda := rfl
@[simp] theorem State.fresh_ev (s : State) : (s.fresh).ev = s.ev := rfl
@[simp] theorem State.fresh_inputs (s : State) : (s.fresh).inputs = s.inputs := rfl
@[simp] theorem State.fresh_firing (s : State) : (s.fresh).firing = s.firing := rfl
@[simp] theorem State.fresh_stations (s : State) : (s.fresh).stations = s.stations := rfl
@[simp] theorem State.fresh_routes (s : State) : (s.fresh).routes = s.routes := rfl
@[simp] theorem State.fresh_ports (s : State) : (s.fresh).ports = s.ports := rfl
@[simp] theorem State.fresh_agens (s : State) : (s.fresh).agens = s.agens := rfl
@[simp] theorem State.fresh_voyages (s : State) : (s.fresh).voyages = s.voyages := rfl
@[simp] theorem State.fresh_launches (s : State) : (s.fresh).launches = s.launches := rfl
@[simp] theorem State.fresh_queues (s : State) : (s.fresh).queues = s.queues := rfl
@[simp] theorem State.fresh_reqs (s : State) : (s.fresh).reqs = s.reqs := rfl
@[simp] theorem State.fresh_paths (s : State) : (s.fresh).paths = s.paths := rfl
@[simp] theorem State.fresh_copies (s : State) : (s.fresh).copies = s.copies := rfl
@[simp] theorem State.fresh_domains (s : State) : (s.fresh).domains = s.domains := rfl
@[simp] theorem State.fresh_bars (s : State) : (s.fresh).bars = s.bars := rfl
@[simp] theorem State.fresh_barMsgs (s : State) : (s.fresh).barMsgs = s.barMsgs := rfl
@[simp] theorem State.fresh_tasks (s : State) : (s.fresh).tasks = s.tasks := rfl
@[simp] theorem State.fresh_marks (s : State) : (s.fresh).marks = s.marks := rfl
@[simp] theorem State.fresh_watermarks (s : State) : (s.fresh).watermarks = s.watermarks := rfl
@[simp] theorem State.fresh_cells (s : State) : (s.fresh).cells = s.cells := rfl
@[simp] theorem State.fresh_mem (s : State) : (s.fresh).mem = s.mem := rfl
@[simp] theorem State.fresh_host (s : State) : (s.fresh).host = s.host := rfl
@[simp] theorem State.fresh_descs (s : State) : (s.fresh).descs = s.descs := rfl
@[simp] theorem State.fresh_roots (s : State) : (s.fresh).roots = s.roots := rfl
@[simp] theorem State.fresh_saveBases (s : State) : (s.fresh).saveBases = s.saveBases := rfl
@[simp] theorem State.fresh_saved (s : State) : (s.fresh).saved = s.saved := rfl
@[simp] theorem State.fresh_l2 (s : State) : (s.fresh).l2 = s.l2 := rfl
@[simp] theorem State.fresh_bad (s : State) : (s.fresh).bad = s.bad := rfl
@[simp] theorem State.fresh_remap (s : State) : (s.fresh).remap = s.remap := rfl
@[simp] theorem State.fresh_sliceOver (s : State) : (s.fresh).sliceOver = s.sliceOver := rfl
@[simp] theorem State.fresh_dies (s : State) : (s.fresh).dies = s.dies := rfl
@[simp] theorem State.fresh_state (s : State) : (s.fresh).state = s.state := rfl
@[simp] theorem State.fresh_bootrsn (s : State) : (s.fresh).bootrsn = s.bootrsn := rfl
@[simp] theorem State.fresh_failcnt (s : State) : (s.fresh).failcnt = s.failcnt := rfl
@[simp] theorem State.fresh_boot (s : State) : (s.fresh).boot = s.boot := rfl
@[simp] theorem State.fresh_bootTime (s : State) : (s.fresh).bootTime = s.bootTime := rfl
@[simp] theorem State.fresh_tlboot (s : State) : (s.fresh).tlboot = s.tlboot := rfl
@[simp] theorem State.fresh_fw (s : State) : (s.fresh).fw = s.fw := rfl
@[simp] theorem State.fresh_log (s : State) : (s.fresh).log = s.log := rfl
@[simp] theorem State.fresh_pilots (s : State) : (s.fresh).pilots = s.pilots := rfl
@[simp] theorem State.fresh_arbiter (s : State) : (s.fresh).arbiter = s.arbiter := rfl
@[simp] theorem State.fresh_owned (s : State) : (s.fresh).owned = s.owned := rfl
@[simp] theorem State.fresh_owner (s : State) : (s.fresh).owner = s.owner := rfl
@[simp] theorem State.fresh_herr (s : State) : (s.fresh).herr = s.herr := rfl
@[simp] theorem State.fresh_attached (s : State) : (s.fresh).attached = s.attached := rfl
@[simp] theorem State.fresh_claims (s : State) : (s.fresh).claims = s.claims := rfl
@[simp] theorem State.fresh_window (s : State) : (s.fresh).window = s.window := rfl
@[simp] theorem State.fresh_apbase (s : State) : (s.fresh).apbase = s.apbase := rfl
@[simp] theorem State.fresh_sbquery (s : State) : (s.fresh).sbquery = s.sbquery := rfl
@[simp] theorem State.fresh_pwrlim (s : State) : (s.fresh).pwrlim = s.pwrlim := rfl
@[simp] theorem State.fresh_pwrnow (s : State) : (s.fresh).pwrnow = s.pwrnow := rfl
@[simp] theorem State.fresh_shares (s : State) : (s.fresh).shares = s.shares := rfl
@[simp] theorem State.fresh_pwrmir (s : State) : (s.fresh).pwrmir = s.pwrmir := rfl
@[simp] theorem State.fresh_pwrseq (s : State) : (s.fresh).pwrseq = s.pwrseq := rfl
@[simp] theorem State.fresh_mailboxes (s : State) : (s.fresh).mailboxes = s.mailboxes := rfl
@[simp] theorem State.fresh_asks (s : State) : (s.fresh).asks = s.asks := rfl
@[simp] theorem State.fresh_vectors (s : State) : (s.fresh).vectors = s.vectors := rfl
@[simp] theorem State.fresh_answer (s : State) : (s.fresh).answer = s.answer := rfl
@[simp] theorem State.fresh_links (s : State) : (s.fresh).links = s.links := rfl
@[simp] theorem State.fresh_bindings (s : State) : (s.fresh).bindings = s.bindings := rfl
@[simp] theorem State.fresh_joins (s : State) : (s.fresh).joins = s.joins := rfl
@[simp] theorem State.fresh_rots (s : State) : (s.fresh).rots = s.rots := rfl

/-! ### `State.draw` -/

@[simp] theorem State.draw_grade (s : State) : (s.draw).grade = s.grade := rfl
@[simp] theorem State.draw_time (s : State) : (s.draw).time = s.time := rfl
@[simp] theorem State.draw_nextId (s : State) : (s.draw).nextId = s.nextId := rfl
@[simp] theorem State.draw_agenda (s : State) : (s.draw).agenda = s.agenda := rfl
@[simp] theorem State.draw_ev (s : State) : (s.draw).ev = s.ev := rfl
@[simp] theorem State.draw_inputs (s : State) : (s.draw).inputs = s.inputs := rfl
@[simp] theorem State.draw_firing (s : State) : (s.draw).firing = s.firing := rfl
@[simp] theorem State.draw_stations (s : State) : (s.draw).stations = s.stations := rfl
@[simp] theorem State.draw_routes (s : State) : (s.draw).routes = s.routes := rfl
@[simp] theorem State.draw_ports (s : State) : (s.draw).ports = s.ports := rfl
@[simp] theorem State.draw_agens (s : State) : (s.draw).agens = s.agens := rfl
@[simp] theorem State.draw_voyages (s : State) : (s.draw).voyages = s.voyages := rfl
@[simp] theorem State.draw_launches (s : State) : (s.draw).launches = s.launches := rfl
@[simp] theorem State.draw_queues (s : State) : (s.draw).queues = s.queues := rfl
@[simp] theorem State.draw_reqs (s : State) : (s.draw).reqs = s.reqs := rfl
@[simp] theorem State.draw_paths (s : State) : (s.draw).paths = s.paths := rfl
@[simp] theorem State.draw_copies (s : State) : (s.draw).copies = s.copies := rfl
@[simp] theorem State.draw_domains (s : State) : (s.draw).domains = s.domains := rfl
@[simp] theorem State.draw_bars (s : State) : (s.draw).bars = s.bars := rfl
@[simp] theorem State.draw_barMsgs (s : State) : (s.draw).barMsgs = s.barMsgs := rfl
@[simp] theorem State.draw_tasks (s : State) : (s.draw).tasks = s.tasks := rfl
@[simp] theorem State.draw_marks (s : State) : (s.draw).marks = s.marks := rfl
@[simp] theorem State.draw_watermarks (s : State) : (s.draw).watermarks = s.watermarks := rfl
@[simp] theorem State.draw_cells (s : State) : (s.draw).cells = s.cells := rfl
@[simp] theorem State.draw_mem (s : State) : (s.draw).mem = s.mem := rfl
@[simp] theorem State.draw_host (s : State) : (s.draw).host = s.host := rfl
@[simp] theorem State.draw_descs (s : State) : (s.draw).descs = s.descs := rfl
@[simp] theorem State.draw_roots (s : State) : (s.draw).roots = s.roots := rfl
@[simp] theorem State.draw_saveBases (s : State) : (s.draw).saveBases = s.saveBases := rfl
@[simp] theorem State.draw_saved (s : State) : (s.draw).saved = s.saved := rfl
@[simp] theorem State.draw_l2 (s : State) : (s.draw).l2 = s.l2 := rfl
@[simp] theorem State.draw_bad (s : State) : (s.draw).bad = s.bad := rfl
@[simp] theorem State.draw_remap (s : State) : (s.draw).remap = s.remap := rfl
@[simp] theorem State.draw_sliceOver (s : State) : (s.draw).sliceOver = s.sliceOver := rfl
@[simp] theorem State.draw_dies (s : State) : (s.draw).dies = s.dies := rfl
@[simp] theorem State.draw_state (s : State) : (s.draw).state = s.state := rfl
@[simp] theorem State.draw_bootrsn (s : State) : (s.draw).bootrsn = s.bootrsn := rfl
@[simp] theorem State.draw_failcnt (s : State) : (s.draw).failcnt = s.failcnt := rfl
@[simp] theorem State.draw_boot (s : State) : (s.draw).boot = s.boot := rfl
@[simp] theorem State.draw_bootTime (s : State) : (s.draw).bootTime = s.bootTime := rfl
@[simp] theorem State.draw_tlboot (s : State) : (s.draw).tlboot = s.tlboot := rfl
@[simp] theorem State.draw_fw (s : State) : (s.draw).fw = s.fw := rfl
@[simp] theorem State.draw_log (s : State) : (s.draw).log = s.log := rfl
@[simp] theorem State.draw_pilots (s : State) : (s.draw).pilots = s.pilots := rfl
@[simp] theorem State.draw_arbiter (s : State) : (s.draw).arbiter = s.arbiter := rfl
@[simp] theorem State.draw_owned (s : State) : (s.draw).owned = s.owned := rfl
@[simp] theorem State.draw_owner (s : State) : (s.draw).owner = s.owner := rfl
@[simp] theorem State.draw_herr (s : State) : (s.draw).herr = s.herr := rfl
@[simp] theorem State.draw_attached (s : State) : (s.draw).attached = s.attached := rfl
@[simp] theorem State.draw_claims (s : State) : (s.draw).claims = s.claims := rfl
@[simp] theorem State.draw_window (s : State) : (s.draw).window = s.window := rfl
@[simp] theorem State.draw_apbase (s : State) : (s.draw).apbase = s.apbase := rfl
@[simp] theorem State.draw_sbquery (s : State) : (s.draw).sbquery = s.sbquery := rfl
@[simp] theorem State.draw_pwrlim (s : State) : (s.draw).pwrlim = s.pwrlim := rfl
@[simp] theorem State.draw_pwrnow (s : State) : (s.draw).pwrnow = s.pwrnow := rfl
@[simp] theorem State.draw_shares (s : State) : (s.draw).shares = s.shares := rfl
@[simp] theorem State.draw_pwrmir (s : State) : (s.draw).pwrmir = s.pwrmir := rfl
@[simp] theorem State.draw_pwrseq (s : State) : (s.draw).pwrseq = s.pwrseq := rfl
@[simp] theorem State.draw_mailboxes (s : State) : (s.draw).mailboxes = s.mailboxes := rfl
@[simp] theorem State.draw_asks (s : State) : (s.draw).asks = s.asks := rfl
@[simp] theorem State.draw_vectors (s : State) : (s.draw).vectors = s.vectors := rfl
@[simp] theorem State.draw_answer (s : State) : (s.draw).answer = s.answer := rfl
@[simp] theorem State.draw_links (s : State) : (s.draw).links = s.links := rfl
@[simp] theorem State.draw_bindings (s : State) : (s.draw).bindings = s.bindings := rfl
@[simp] theorem State.draw_joins (s : State) : (s.draw).joins = s.joins := rfl
@[simp] theorem State.draw_rots (s : State) : (s.draw).rots = s.rots := rfl

/-! ### `State.soon` -/

@[simp] theorem State.soon_grade (s : State) (i : Instr) (a : EvArg) : (s.soon i a).grade = s.grade := rfl
@[simp] theorem State.soon_time (s : State) (i : Instr) (a : EvArg) : (s.soon i a).time = s.time := rfl
@[simp] theorem State.soon_free (s : State) (i : Instr) (a : EvArg) : (s.soon i a).free = s.free := rfl
@[simp] theorem State.soon_nextId (s : State) (i : Instr) (a : EvArg) : (s.soon i a).nextId = s.nextId := rfl
@[simp] theorem State.soon_ev (s : State) (i : Instr) (a : EvArg) : (s.soon i a).ev = s.ev := rfl
@[simp] theorem State.soon_inputs (s : State) (i : Instr) (a : EvArg) : (s.soon i a).inputs = s.inputs := rfl
@[simp] theorem State.soon_firing (s : State) (i : Instr) (a : EvArg) : (s.soon i a).firing = s.firing := rfl
@[simp] theorem State.soon_stations (s : State) (i : Instr) (a : EvArg) : (s.soon i a).stations = s.stations := rfl
@[simp] theorem State.soon_routes (s : State) (i : Instr) (a : EvArg) : (s.soon i a).routes = s.routes := rfl
@[simp] theorem State.soon_ports (s : State) (i : Instr) (a : EvArg) : (s.soon i a).ports = s.ports := rfl
@[simp] theorem State.soon_agens (s : State) (i : Instr) (a : EvArg) : (s.soon i a).agens = s.agens := rfl
@[simp] theorem State.soon_voyages (s : State) (i : Instr) (a : EvArg) : (s.soon i a).voyages = s.voyages := rfl
@[simp] theorem State.soon_launches (s : State) (i : Instr) (a : EvArg) : (s.soon i a).launches = s.launches := rfl
@[simp] theorem State.soon_queues (s : State) (i : Instr) (a : EvArg) : (s.soon i a).queues = s.queues := rfl
@[simp] theorem State.soon_reqs (s : State) (i : Instr) (a : EvArg) : (s.soon i a).reqs = s.reqs := rfl
@[simp] theorem State.soon_paths (s : State) (i : Instr) (a : EvArg) : (s.soon i a).paths = s.paths := rfl
@[simp] theorem State.soon_copies (s : State) (i : Instr) (a : EvArg) : (s.soon i a).copies = s.copies := rfl
@[simp] theorem State.soon_domains (s : State) (i : Instr) (a : EvArg) : (s.soon i a).domains = s.domains := rfl
@[simp] theorem State.soon_bars (s : State) (i : Instr) (a : EvArg) : (s.soon i a).bars = s.bars := rfl
@[simp] theorem State.soon_barMsgs (s : State) (i : Instr) (a : EvArg) : (s.soon i a).barMsgs = s.barMsgs := rfl
@[simp] theorem State.soon_tasks (s : State) (i : Instr) (a : EvArg) : (s.soon i a).tasks = s.tasks := rfl
@[simp] theorem State.soon_marks (s : State) (i : Instr) (a : EvArg) : (s.soon i a).marks = s.marks := rfl
@[simp] theorem State.soon_watermarks (s : State) (i : Instr) (a : EvArg) : (s.soon i a).watermarks = s.watermarks := rfl
@[simp] theorem State.soon_cells (s : State) (i : Instr) (a : EvArg) : (s.soon i a).cells = s.cells := rfl
@[simp] theorem State.soon_mem (s : State) (i : Instr) (a : EvArg) : (s.soon i a).mem = s.mem := rfl
@[simp] theorem State.soon_host (s : State) (i : Instr) (a : EvArg) : (s.soon i a).host = s.host := rfl
@[simp] theorem State.soon_descs (s : State) (i : Instr) (a : EvArg) : (s.soon i a).descs = s.descs := rfl
@[simp] theorem State.soon_roots (s : State) (i : Instr) (a : EvArg) : (s.soon i a).roots = s.roots := rfl
@[simp] theorem State.soon_saveBases (s : State) (i : Instr) (a : EvArg) : (s.soon i a).saveBases = s.saveBases := rfl
@[simp] theorem State.soon_saved (s : State) (i : Instr) (a : EvArg) : (s.soon i a).saved = s.saved := rfl
@[simp] theorem State.soon_l2 (s : State) (i : Instr) (a : EvArg) : (s.soon i a).l2 = s.l2 := rfl
@[simp] theorem State.soon_bad (s : State) (i : Instr) (a : EvArg) : (s.soon i a).bad = s.bad := rfl
@[simp] theorem State.soon_remap (s : State) (i : Instr) (a : EvArg) : (s.soon i a).remap = s.remap := rfl
@[simp] theorem State.soon_sliceOver (s : State) (i : Instr) (a : EvArg) : (s.soon i a).sliceOver = s.sliceOver := rfl
@[simp] theorem State.soon_dies (s : State) (i : Instr) (a : EvArg) : (s.soon i a).dies = s.dies := rfl
@[simp] theorem State.soon_state (s : State) (i : Instr) (a : EvArg) : (s.soon i a).state = s.state := rfl
@[simp] theorem State.soon_bootrsn (s : State) (i : Instr) (a : EvArg) : (s.soon i a).bootrsn = s.bootrsn := rfl
@[simp] theorem State.soon_failcnt (s : State) (i : Instr) (a : EvArg) : (s.soon i a).failcnt = s.failcnt := rfl
@[simp] theorem State.soon_boot (s : State) (i : Instr) (a : EvArg) : (s.soon i a).boot = s.boot := rfl
@[simp] theorem State.soon_bootTime (s : State) (i : Instr) (a : EvArg) : (s.soon i a).bootTime = s.bootTime := rfl
@[simp] theorem State.soon_tlboot (s : State) (i : Instr) (a : EvArg) : (s.soon i a).tlboot = s.tlboot := rfl
@[simp] theorem State.soon_fw (s : State) (i : Instr) (a : EvArg) : (s.soon i a).fw = s.fw := rfl
@[simp] theorem State.soon_log (s : State) (i : Instr) (a : EvArg) : (s.soon i a).log = s.log := rfl
@[simp] theorem State.soon_pilots (s : State) (i : Instr) (a : EvArg) : (s.soon i a).pilots = s.pilots := rfl
@[simp] theorem State.soon_arbiter (s : State) (i : Instr) (a : EvArg) : (s.soon i a).arbiter = s.arbiter := rfl
@[simp] theorem State.soon_owned (s : State) (i : Instr) (a : EvArg) : (s.soon i a).owned = s.owned := rfl
@[simp] theorem State.soon_owner (s : State) (i : Instr) (a : EvArg) : (s.soon i a).owner = s.owner := rfl
@[simp] theorem State.soon_herr (s : State) (i : Instr) (a : EvArg) : (s.soon i a).herr = s.herr := rfl
@[simp] theorem State.soon_attached (s : State) (i : Instr) (a : EvArg) : (s.soon i a).attached = s.attached := rfl
@[simp] theorem State.soon_claims (s : State) (i : Instr) (a : EvArg) : (s.soon i a).claims = s.claims := rfl
@[simp] theorem State.soon_window (s : State) (i : Instr) (a : EvArg) : (s.soon i a).window = s.window := rfl
@[simp] theorem State.soon_apbase (s : State) (i : Instr) (a : EvArg) : (s.soon i a).apbase = s.apbase := rfl
@[simp] theorem State.soon_sbquery (s : State) (i : Instr) (a : EvArg) : (s.soon i a).sbquery = s.sbquery := rfl
@[simp] theorem State.soon_pwrlim (s : State) (i : Instr) (a : EvArg) : (s.soon i a).pwrlim = s.pwrlim := rfl
@[simp] theorem State.soon_pwrnow (s : State) (i : Instr) (a : EvArg) : (s.soon i a).pwrnow = s.pwrnow := rfl
@[simp] theorem State.soon_shares (s : State) (i : Instr) (a : EvArg) : (s.soon i a).shares = s.shares := rfl
@[simp] theorem State.soon_pwrmir (s : State) (i : Instr) (a : EvArg) : (s.soon i a).pwrmir = s.pwrmir := rfl
@[simp] theorem State.soon_pwrseq (s : State) (i : Instr) (a : EvArg) : (s.soon i a).pwrseq = s.pwrseq := rfl
@[simp] theorem State.soon_mailboxes (s : State) (i : Instr) (a : EvArg) : (s.soon i a).mailboxes = s.mailboxes := rfl
@[simp] theorem State.soon_asks (s : State) (i : Instr) (a : EvArg) : (s.soon i a).asks = s.asks := rfl
@[simp] theorem State.soon_vectors (s : State) (i : Instr) (a : EvArg) : (s.soon i a).vectors = s.vectors := rfl
@[simp] theorem State.soon_answer (s : State) (i : Instr) (a : EvArg) : (s.soon i a).answer = s.answer := rfl
@[simp] theorem State.soon_links (s : State) (i : Instr) (a : EvArg) : (s.soon i a).links = s.links := rfl
@[simp] theorem State.soon_bindings (s : State) (i : Instr) (a : EvArg) : (s.soon i a).bindings = s.bindings := rfl
@[simp] theorem State.soon_joins (s : State) (i : Instr) (a : EvArg) : (s.soon i a).joins = s.joins := rfl
@[simp] theorem State.soon_rots (s : State) (i : Instr) (a : EvArg) : (s.soon i a).rots = s.rots := rfl

/-! ### `State.later` -/

@[simp] theorem State.later_grade (s : State) (i : Instr) (a : EvArg) : (s.later i a).grade = s.grade := rfl
@[simp] theorem State.later_time (s : State) (i : Instr) (a : EvArg) : (s.later i a).time = s.time := rfl
@[simp] theorem State.later_free (s : State) (i : Instr) (a : EvArg) : (s.later i a).free = s.free := rfl
@[simp] theorem State.later_nextId (s : State) (i : Instr) (a : EvArg) : (s.later i a).nextId = s.nextId := rfl
@[simp] theorem State.later_ev (s : State) (i : Instr) (a : EvArg) : (s.later i a).ev = s.ev := rfl
@[simp] theorem State.later_inputs (s : State) (i : Instr) (a : EvArg) : (s.later i a).inputs = s.inputs := rfl
@[simp] theorem State.later_firing (s : State) (i : Instr) (a : EvArg) : (s.later i a).firing = s.firing := rfl
@[simp] theorem State.later_stations (s : State) (i : Instr) (a : EvArg) : (s.later i a).stations = s.stations := rfl
@[simp] theorem State.later_routes (s : State) (i : Instr) (a : EvArg) : (s.later i a).routes = s.routes := rfl
@[simp] theorem State.later_ports (s : State) (i : Instr) (a : EvArg) : (s.later i a).ports = s.ports := rfl
@[simp] theorem State.later_agens (s : State) (i : Instr) (a : EvArg) : (s.later i a).agens = s.agens := rfl
@[simp] theorem State.later_voyages (s : State) (i : Instr) (a : EvArg) : (s.later i a).voyages = s.voyages := rfl
@[simp] theorem State.later_launches (s : State) (i : Instr) (a : EvArg) : (s.later i a).launches = s.launches := rfl
@[simp] theorem State.later_queues (s : State) (i : Instr) (a : EvArg) : (s.later i a).queues = s.queues := rfl
@[simp] theorem State.later_reqs (s : State) (i : Instr) (a : EvArg) : (s.later i a).reqs = s.reqs := rfl
@[simp] theorem State.later_paths (s : State) (i : Instr) (a : EvArg) : (s.later i a).paths = s.paths := rfl
@[simp] theorem State.later_copies (s : State) (i : Instr) (a : EvArg) : (s.later i a).copies = s.copies := rfl
@[simp] theorem State.later_domains (s : State) (i : Instr) (a : EvArg) : (s.later i a).domains = s.domains := rfl
@[simp] theorem State.later_bars (s : State) (i : Instr) (a : EvArg) : (s.later i a).bars = s.bars := rfl
@[simp] theorem State.later_barMsgs (s : State) (i : Instr) (a : EvArg) : (s.later i a).barMsgs = s.barMsgs := rfl
@[simp] theorem State.later_tasks (s : State) (i : Instr) (a : EvArg) : (s.later i a).tasks = s.tasks := rfl
@[simp] theorem State.later_marks (s : State) (i : Instr) (a : EvArg) : (s.later i a).marks = s.marks := rfl
@[simp] theorem State.later_watermarks (s : State) (i : Instr) (a : EvArg) : (s.later i a).watermarks = s.watermarks := rfl
@[simp] theorem State.later_cells (s : State) (i : Instr) (a : EvArg) : (s.later i a).cells = s.cells := rfl
@[simp] theorem State.later_mem (s : State) (i : Instr) (a : EvArg) : (s.later i a).mem = s.mem := rfl
@[simp] theorem State.later_host (s : State) (i : Instr) (a : EvArg) : (s.later i a).host = s.host := rfl
@[simp] theorem State.later_descs (s : State) (i : Instr) (a : EvArg) : (s.later i a).descs = s.descs := rfl
@[simp] theorem State.later_roots (s : State) (i : Instr) (a : EvArg) : (s.later i a).roots = s.roots := rfl
@[simp] theorem State.later_saveBases (s : State) (i : Instr) (a : EvArg) : (s.later i a).saveBases = s.saveBases := rfl
@[simp] theorem State.later_saved (s : State) (i : Instr) (a : EvArg) : (s.later i a).saved = s.saved := rfl
@[simp] theorem State.later_l2 (s : State) (i : Instr) (a : EvArg) : (s.later i a).l2 = s.l2 := rfl
@[simp] theorem State.later_bad (s : State) (i : Instr) (a : EvArg) : (s.later i a).bad = s.bad := rfl
@[simp] theorem State.later_remap (s : State) (i : Instr) (a : EvArg) : (s.later i a).remap = s.remap := rfl
@[simp] theorem State.later_sliceOver (s : State) (i : Instr) (a : EvArg) : (s.later i a).sliceOver = s.sliceOver := rfl
@[simp] theorem State.later_dies (s : State) (i : Instr) (a : EvArg) : (s.later i a).dies = s.dies := rfl
@[simp] theorem State.later_state (s : State) (i : Instr) (a : EvArg) : (s.later i a).state = s.state := rfl
@[simp] theorem State.later_bootrsn (s : State) (i : Instr) (a : EvArg) : (s.later i a).bootrsn = s.bootrsn := rfl
@[simp] theorem State.later_failcnt (s : State) (i : Instr) (a : EvArg) : (s.later i a).failcnt = s.failcnt := rfl
@[simp] theorem State.later_boot (s : State) (i : Instr) (a : EvArg) : (s.later i a).boot = s.boot := rfl
@[simp] theorem State.later_bootTime (s : State) (i : Instr) (a : EvArg) : (s.later i a).bootTime = s.bootTime := rfl
@[simp] theorem State.later_tlboot (s : State) (i : Instr) (a : EvArg) : (s.later i a).tlboot = s.tlboot := rfl
@[simp] theorem State.later_fw (s : State) (i : Instr) (a : EvArg) : (s.later i a).fw = s.fw := rfl
@[simp] theorem State.later_log (s : State) (i : Instr) (a : EvArg) : (s.later i a).log = s.log := rfl
@[simp] theorem State.later_pilots (s : State) (i : Instr) (a : EvArg) : (s.later i a).pilots = s.pilots := rfl
@[simp] theorem State.later_arbiter (s : State) (i : Instr) (a : EvArg) : (s.later i a).arbiter = s.arbiter := rfl
@[simp] theorem State.later_owned (s : State) (i : Instr) (a : EvArg) : (s.later i a).owned = s.owned := rfl
@[simp] theorem State.later_owner (s : State) (i : Instr) (a : EvArg) : (s.later i a).owner = s.owner := rfl
@[simp] theorem State.later_herr (s : State) (i : Instr) (a : EvArg) : (s.later i a).herr = s.herr := rfl
@[simp] theorem State.later_attached (s : State) (i : Instr) (a : EvArg) : (s.later i a).attached = s.attached := rfl
@[simp] theorem State.later_claims (s : State) (i : Instr) (a : EvArg) : (s.later i a).claims = s.claims := rfl
@[simp] theorem State.later_window (s : State) (i : Instr) (a : EvArg) : (s.later i a).window = s.window := rfl
@[simp] theorem State.later_apbase (s : State) (i : Instr) (a : EvArg) : (s.later i a).apbase = s.apbase := rfl
@[simp] theorem State.later_sbquery (s : State) (i : Instr) (a : EvArg) : (s.later i a).sbquery = s.sbquery := rfl
@[simp] theorem State.later_pwrlim (s : State) (i : Instr) (a : EvArg) : (s.later i a).pwrlim = s.pwrlim := rfl
@[simp] theorem State.later_pwrnow (s : State) (i : Instr) (a : EvArg) : (s.later i a).pwrnow = s.pwrnow := rfl
@[simp] theorem State.later_shares (s : State) (i : Instr) (a : EvArg) : (s.later i a).shares = s.shares := rfl
@[simp] theorem State.later_pwrmir (s : State) (i : Instr) (a : EvArg) : (s.later i a).pwrmir = s.pwrmir := rfl
@[simp] theorem State.later_pwrseq (s : State) (i : Instr) (a : EvArg) : (s.later i a).pwrseq = s.pwrseq := rfl
@[simp] theorem State.later_mailboxes (s : State) (i : Instr) (a : EvArg) : (s.later i a).mailboxes = s.mailboxes := rfl
@[simp] theorem State.later_asks (s : State) (i : Instr) (a : EvArg) : (s.later i a).asks = s.asks := rfl
@[simp] theorem State.later_vectors (s : State) (i : Instr) (a : EvArg) : (s.later i a).vectors = s.vectors := rfl
@[simp] theorem State.later_answer (s : State) (i : Instr) (a : EvArg) : (s.later i a).answer = s.answer := rfl
@[simp] theorem State.later_links (s : State) (i : Instr) (a : EvArg) : (s.later i a).links = s.links := rfl
@[simp] theorem State.later_bindings (s : State) (i : Instr) (a : EvArg) : (s.later i a).bindings = s.bindings := rfl
@[simp] theorem State.later_joins (s : State) (i : Instr) (a : EvArg) : (s.later i a).joins = s.joins := rfl
@[simp] theorem State.later_rots (s : State) (i : Instr) (a : EvArg) : (s.later i a).rots = s.rots := rfl

/-! ### `State.lands` -/

@[simp] theorem State.lands_grade (s : State) (i : Instr) (a : EvArg) : (s.lands i a).grade = s.grade := rfl
@[simp] theorem State.lands_time (s : State) (i : Instr) (a : EvArg) : (s.lands i a).time = s.time := rfl
@[simp] theorem State.lands_free (s : State) (i : Instr) (a : EvArg) : (s.lands i a).free = s.free := rfl
@[simp] theorem State.lands_nextId (s : State) (i : Instr) (a : EvArg) : (s.lands i a).nextId = s.nextId := rfl
@[simp] theorem State.lands_ev (s : State) (i : Instr) (a : EvArg) : (s.lands i a).ev = s.ev := rfl
@[simp] theorem State.lands_inputs (s : State) (i : Instr) (a : EvArg) : (s.lands i a).inputs = s.inputs := rfl
@[simp] theorem State.lands_firing (s : State) (i : Instr) (a : EvArg) : (s.lands i a).firing = s.firing := rfl
@[simp] theorem State.lands_stations (s : State) (i : Instr) (a : EvArg) : (s.lands i a).stations = s.stations := rfl
@[simp] theorem State.lands_routes (s : State) (i : Instr) (a : EvArg) : (s.lands i a).routes = s.routes := rfl
@[simp] theorem State.lands_ports (s : State) (i : Instr) (a : EvArg) : (s.lands i a).ports = s.ports := rfl
@[simp] theorem State.lands_agens (s : State) (i : Instr) (a : EvArg) : (s.lands i a).agens = s.agens := rfl
@[simp] theorem State.lands_voyages (s : State) (i : Instr) (a : EvArg) : (s.lands i a).voyages = s.voyages := rfl
@[simp] theorem State.lands_launches (s : State) (i : Instr) (a : EvArg) : (s.lands i a).launches = s.launches := rfl
@[simp] theorem State.lands_queues (s : State) (i : Instr) (a : EvArg) : (s.lands i a).queues = s.queues := rfl
@[simp] theorem State.lands_reqs (s : State) (i : Instr) (a : EvArg) : (s.lands i a).reqs = s.reqs := rfl
@[simp] theorem State.lands_paths (s : State) (i : Instr) (a : EvArg) : (s.lands i a).paths = s.paths := rfl
@[simp] theorem State.lands_copies (s : State) (i : Instr) (a : EvArg) : (s.lands i a).copies = s.copies := rfl
@[simp] theorem State.lands_domains (s : State) (i : Instr) (a : EvArg) : (s.lands i a).domains = s.domains := rfl
@[simp] theorem State.lands_bars (s : State) (i : Instr) (a : EvArg) : (s.lands i a).bars = s.bars := rfl
@[simp] theorem State.lands_barMsgs (s : State) (i : Instr) (a : EvArg) : (s.lands i a).barMsgs = s.barMsgs := rfl
@[simp] theorem State.lands_tasks (s : State) (i : Instr) (a : EvArg) : (s.lands i a).tasks = s.tasks := rfl
@[simp] theorem State.lands_marks (s : State) (i : Instr) (a : EvArg) : (s.lands i a).marks = s.marks := rfl
@[simp] theorem State.lands_watermarks (s : State) (i : Instr) (a : EvArg) : (s.lands i a).watermarks = s.watermarks := rfl
@[simp] theorem State.lands_cells (s : State) (i : Instr) (a : EvArg) : (s.lands i a).cells = s.cells := rfl
@[simp] theorem State.lands_mem (s : State) (i : Instr) (a : EvArg) : (s.lands i a).mem = s.mem := rfl
@[simp] theorem State.lands_host (s : State) (i : Instr) (a : EvArg) : (s.lands i a).host = s.host := rfl
@[simp] theorem State.lands_descs (s : State) (i : Instr) (a : EvArg) : (s.lands i a).descs = s.descs := rfl
@[simp] theorem State.lands_roots (s : State) (i : Instr) (a : EvArg) : (s.lands i a).roots = s.roots := rfl
@[simp] theorem State.lands_saveBases (s : State) (i : Instr) (a : EvArg) : (s.lands i a).saveBases = s.saveBases := rfl
@[simp] theorem State.lands_saved (s : State) (i : Instr) (a : EvArg) : (s.lands i a).saved = s.saved := rfl
@[simp] theorem State.lands_l2 (s : State) (i : Instr) (a : EvArg) : (s.lands i a).l2 = s.l2 := rfl
@[simp] theorem State.lands_bad (s : State) (i : Instr) (a : EvArg) : (s.lands i a).bad = s.bad := rfl
@[simp] theorem State.lands_remap (s : State) (i : Instr) (a : EvArg) : (s.lands i a).remap = s.remap := rfl
@[simp] theorem State.lands_sliceOver (s : State) (i : Instr) (a : EvArg) : (s.lands i a).sliceOver = s.sliceOver := rfl
@[simp] theorem State.lands_dies (s : State) (i : Instr) (a : EvArg) : (s.lands i a).dies = s.dies := rfl
@[simp] theorem State.lands_state (s : State) (i : Instr) (a : EvArg) : (s.lands i a).state = s.state := rfl
@[simp] theorem State.lands_bootrsn (s : State) (i : Instr) (a : EvArg) : (s.lands i a).bootrsn = s.bootrsn := rfl
@[simp] theorem State.lands_failcnt (s : State) (i : Instr) (a : EvArg) : (s.lands i a).failcnt = s.failcnt := rfl
@[simp] theorem State.lands_boot (s : State) (i : Instr) (a : EvArg) : (s.lands i a).boot = s.boot := rfl
@[simp] theorem State.lands_bootTime (s : State) (i : Instr) (a : EvArg) : (s.lands i a).bootTime = s.bootTime := rfl
@[simp] theorem State.lands_tlboot (s : State) (i : Instr) (a : EvArg) : (s.lands i a).tlboot = s.tlboot := rfl
@[simp] theorem State.lands_fw (s : State) (i : Instr) (a : EvArg) : (s.lands i a).fw = s.fw := rfl
@[simp] theorem State.lands_log (s : State) (i : Instr) (a : EvArg) : (s.lands i a).log = s.log := rfl
@[simp] theorem State.lands_pilots (s : State) (i : Instr) (a : EvArg) : (s.lands i a).pilots = s.pilots := rfl
@[simp] theorem State.lands_arbiter (s : State) (i : Instr) (a : EvArg) : (s.lands i a).arbiter = s.arbiter := rfl
@[simp] theorem State.lands_owned (s : State) (i : Instr) (a : EvArg) : (s.lands i a).owned = s.owned := rfl
@[simp] theorem State.lands_owner (s : State) (i : Instr) (a : EvArg) : (s.lands i a).owner = s.owner := rfl
@[simp] theorem State.lands_herr (s : State) (i : Instr) (a : EvArg) : (s.lands i a).herr = s.herr := rfl
@[simp] theorem State.lands_attached (s : State) (i : Instr) (a : EvArg) : (s.lands i a).attached = s.attached := rfl
@[simp] theorem State.lands_claims (s : State) (i : Instr) (a : EvArg) : (s.lands i a).claims = s.claims := rfl
@[simp] theorem State.lands_window (s : State) (i : Instr) (a : EvArg) : (s.lands i a).window = s.window := rfl
@[simp] theorem State.lands_apbase (s : State) (i : Instr) (a : EvArg) : (s.lands i a).apbase = s.apbase := rfl
@[simp] theorem State.lands_sbquery (s : State) (i : Instr) (a : EvArg) : (s.lands i a).sbquery = s.sbquery := rfl
@[simp] theorem State.lands_pwrlim (s : State) (i : Instr) (a : EvArg) : (s.lands i a).pwrlim = s.pwrlim := rfl
@[simp] theorem State.lands_pwrnow (s : State) (i : Instr) (a : EvArg) : (s.lands i a).pwrnow = s.pwrnow := rfl
@[simp] theorem State.lands_shares (s : State) (i : Instr) (a : EvArg) : (s.lands i a).shares = s.shares := rfl
@[simp] theorem State.lands_pwrmir (s : State) (i : Instr) (a : EvArg) : (s.lands i a).pwrmir = s.pwrmir := rfl
@[simp] theorem State.lands_pwrseq (s : State) (i : Instr) (a : EvArg) : (s.lands i a).pwrseq = s.pwrseq := rfl
@[simp] theorem State.lands_mailboxes (s : State) (i : Instr) (a : EvArg) : (s.lands i a).mailboxes = s.mailboxes := rfl
@[simp] theorem State.lands_asks (s : State) (i : Instr) (a : EvArg) : (s.lands i a).asks = s.asks := rfl
@[simp] theorem State.lands_vectors (s : State) (i : Instr) (a : EvArg) : (s.lands i a).vectors = s.vectors := rfl
@[simp] theorem State.lands_answer (s : State) (i : Instr) (a : EvArg) : (s.lands i a).answer = s.answer := rfl
@[simp] theorem State.lands_links (s : State) (i : Instr) (a : EvArg) : (s.lands i a).links = s.links := rfl
@[simp] theorem State.lands_bindings (s : State) (i : Instr) (a : EvArg) : (s.lands i a).bindings = s.bindings := rfl
@[simp] theorem State.lands_joins (s : State) (i : Instr) (a : EvArg) : (s.lands i a).joins = s.joins := rfl
@[simp] theorem State.lands_rots (s : State) (i : Instr) (a : EvArg) : (s.lands i a).rots = s.rots := rfl

/-! ### `State.setStation` -/

@[simp] theorem State.setStation_grade (s : State) (t : Station) : (s.setStation t).grade = s.grade := rfl
@[simp] theorem State.setStation_time (s : State) (t : Station) : (s.setStation t).time = s.time := rfl
@[simp] theorem State.setStation_free (s : State) (t : Station) : (s.setStation t).free = s.free := rfl
@[simp] theorem State.setStation_nextId (s : State) (t : Station) : (s.setStation t).nextId = s.nextId := rfl
@[simp] theorem State.setStation_agenda (s : State) (t : Station) : (s.setStation t).agenda = s.agenda := rfl
@[simp] theorem State.setStation_ev (s : State) (t : Station) : (s.setStation t).ev = s.ev := rfl
@[simp] theorem State.setStation_inputs (s : State) (t : Station) : (s.setStation t).inputs = s.inputs := rfl
@[simp] theorem State.setStation_firing (s : State) (t : Station) : (s.setStation t).firing = s.firing := rfl
@[simp] theorem State.setStation_routes (s : State) (t : Station) : (s.setStation t).routes = s.routes := rfl
@[simp] theorem State.setStation_ports (s : State) (t : Station) : (s.setStation t).ports = s.ports := rfl
@[simp] theorem State.setStation_agens (s : State) (t : Station) : (s.setStation t).agens = s.agens := rfl
@[simp] theorem State.setStation_voyages (s : State) (t : Station) : (s.setStation t).voyages = s.voyages := rfl
@[simp] theorem State.setStation_launches (s : State) (t : Station) : (s.setStation t).launches = s.launches := rfl
@[simp] theorem State.setStation_queues (s : State) (t : Station) : (s.setStation t).queues = s.queues := rfl
@[simp] theorem State.setStation_reqs (s : State) (t : Station) : (s.setStation t).reqs = s.reqs := rfl
@[simp] theorem State.setStation_paths (s : State) (t : Station) : (s.setStation t).paths = s.paths := rfl
@[simp] theorem State.setStation_copies (s : State) (t : Station) : (s.setStation t).copies = s.copies := rfl
@[simp] theorem State.setStation_domains (s : State) (t : Station) : (s.setStation t).domains = s.domains := rfl
@[simp] theorem State.setStation_bars (s : State) (t : Station) : (s.setStation t).bars = s.bars := rfl
@[simp] theorem State.setStation_barMsgs (s : State) (t : Station) : (s.setStation t).barMsgs = s.barMsgs := rfl
@[simp] theorem State.setStation_tasks (s : State) (t : Station) : (s.setStation t).tasks = s.tasks := rfl
@[simp] theorem State.setStation_marks (s : State) (t : Station) : (s.setStation t).marks = s.marks := rfl
@[simp] theorem State.setStation_watermarks (s : State) (t : Station) : (s.setStation t).watermarks = s.watermarks := rfl
@[simp] theorem State.setStation_cells (s : State) (t : Station) : (s.setStation t).cells = s.cells := rfl
@[simp] theorem State.setStation_mem (s : State) (t : Station) : (s.setStation t).mem = s.mem := rfl
@[simp] theorem State.setStation_host (s : State) (t : Station) : (s.setStation t).host = s.host := rfl
@[simp] theorem State.setStation_descs (s : State) (t : Station) : (s.setStation t).descs = s.descs := rfl
@[simp] theorem State.setStation_roots (s : State) (t : Station) : (s.setStation t).roots = s.roots := rfl
@[simp] theorem State.setStation_saveBases (s : State) (t : Station) : (s.setStation t).saveBases = s.saveBases := rfl
@[simp] theorem State.setStation_saved (s : State) (t : Station) : (s.setStation t).saved = s.saved := rfl
@[simp] theorem State.setStation_l2 (s : State) (t : Station) : (s.setStation t).l2 = s.l2 := rfl
@[simp] theorem State.setStation_bad (s : State) (t : Station) : (s.setStation t).bad = s.bad := rfl
@[simp] theorem State.setStation_remap (s : State) (t : Station) : (s.setStation t).remap = s.remap := rfl
@[simp] theorem State.setStation_sliceOver (s : State) (t : Station) : (s.setStation t).sliceOver = s.sliceOver := rfl
@[simp] theorem State.setStation_dies (s : State) (t : Station) : (s.setStation t).dies = s.dies := rfl
@[simp] theorem State.setStation_state (s : State) (t : Station) : (s.setStation t).state = s.state := rfl
@[simp] theorem State.setStation_bootrsn (s : State) (t : Station) : (s.setStation t).bootrsn = s.bootrsn := rfl
@[simp] theorem State.setStation_failcnt (s : State) (t : Station) : (s.setStation t).failcnt = s.failcnt := rfl
@[simp] theorem State.setStation_boot (s : State) (t : Station) : (s.setStation t).boot = s.boot := rfl
@[simp] theorem State.setStation_bootTime (s : State) (t : Station) : (s.setStation t).bootTime = s.bootTime := rfl
@[simp] theorem State.setStation_tlboot (s : State) (t : Station) : (s.setStation t).tlboot = s.tlboot := rfl
@[simp] theorem State.setStation_fw (s : State) (t : Station) : (s.setStation t).fw = s.fw := rfl
@[simp] theorem State.setStation_log (s : State) (t : Station) : (s.setStation t).log = s.log := rfl
@[simp] theorem State.setStation_pilots (s : State) (t : Station) : (s.setStation t).pilots = s.pilots := rfl
@[simp] theorem State.setStation_arbiter (s : State) (t : Station) : (s.setStation t).arbiter = s.arbiter := rfl
@[simp] theorem State.setStation_owned (s : State) (t : Station) : (s.setStation t).owned = s.owned := rfl
@[simp] theorem State.setStation_owner (s : State) (t : Station) : (s.setStation t).owner = s.owner := rfl
@[simp] theorem State.setStation_herr (s : State) (t : Station) : (s.setStation t).herr = s.herr := rfl
@[simp] theorem State.setStation_attached (s : State) (t : Station) : (s.setStation t).attached = s.attached := rfl
@[simp] theorem State.setStation_claims (s : State) (t : Station) : (s.setStation t).claims = s.claims := rfl
@[simp] theorem State.setStation_window (s : State) (t : Station) : (s.setStation t).window = s.window := rfl
@[simp] theorem State.setStation_apbase (s : State) (t : Station) : (s.setStation t).apbase = s.apbase := rfl
@[simp] theorem State.setStation_sbquery (s : State) (t : Station) : (s.setStation t).sbquery = s.sbquery := rfl
@[simp] theorem State.setStation_pwrlim (s : State) (t : Station) : (s.setStation t).pwrlim = s.pwrlim := rfl
@[simp] theorem State.setStation_pwrnow (s : State) (t : Station) : (s.setStation t).pwrnow = s.pwrnow := rfl
@[simp] theorem State.setStation_shares (s : State) (t : Station) : (s.setStation t).shares = s.shares := rfl
@[simp] theorem State.setStation_pwrmir (s : State) (t : Station) : (s.setStation t).pwrmir = s.pwrmir := rfl
@[simp] theorem State.setStation_pwrseq (s : State) (t : Station) : (s.setStation t).pwrseq = s.pwrseq := rfl
@[simp] theorem State.setStation_mailboxes (s : State) (t : Station) : (s.setStation t).mailboxes = s.mailboxes := rfl
@[simp] theorem State.setStation_asks (s : State) (t : Station) : (s.setStation t).asks = s.asks := rfl
@[simp] theorem State.setStation_vectors (s : State) (t : Station) : (s.setStation t).vectors = s.vectors := rfl
@[simp] theorem State.setStation_answer (s : State) (t : Station) : (s.setStation t).answer = s.answer := rfl
@[simp] theorem State.setStation_links (s : State) (t : Station) : (s.setStation t).links = s.links := rfl
@[simp] theorem State.setStation_bindings (s : State) (t : Station) : (s.setStation t).bindings = s.bindings := rfl
@[simp] theorem State.setStation_joins (s : State) (t : Station) : (s.setStation t).joins = s.joins := rfl
@[simp] theorem State.setStation_rots (s : State) (t : Station) : (s.setStation t).rots = s.rots := rfl

/-! ### `State.modStation` -/

@[simp] theorem State.modStation_grade (s : State) (i : StId) (f : Station → Station) : (s.modStation i f).grade = s.grade := rfl
@[simp] theorem State.modStation_time (s : State) (i : StId) (f : Station → Station) : (s.modStation i f).time = s.time := rfl
@[simp] theorem State.modStation_free (s : State) (i : StId) (f : Station → Station) : (s.modStation i f).free = s.free := rfl
@[simp] theorem State.modStation_nextId (s : State) (i : StId) (f : Station → Station) : (s.modStation i f).nextId = s.nextId := rfl
@[simp] theorem State.modStation_agenda (s : State) (i : StId) (f : Station → Station) : (s.modStation i f).agenda = s.agenda := rfl
@[simp] theorem State.modStation_ev (s : State) (i : StId) (f : Station → Station) : (s.modStation i f).ev = s.ev := rfl
@[simp] theorem State.modStation_inputs (s : State) (i : StId) (f : Station → Station) : (s.modStation i f).inputs = s.inputs := rfl
@[simp] theorem State.modStation_firing (s : State) (i : StId) (f : Station → Station) : (s.modStation i f).firing = s.firing := rfl
@[simp] theorem State.modStation_routes (s : State) (i : StId) (f : Station → Station) : (s.modStation i f).routes = s.routes := rfl
@[simp] theorem State.modStation_ports (s : State) (i : StId) (f : Station → Station) : (s.modStation i f).ports = s.ports := rfl
@[simp] theorem State.modStation_agens (s : State) (i : StId) (f : Station → Station) : (s.modStation i f).agens = s.agens := rfl
@[simp] theorem State.modStation_voyages (s : State) (i : StId) (f : Station → Station) : (s.modStation i f).voyages = s.voyages := rfl
@[simp] theorem State.modStation_launches (s : State) (i : StId) (f : Station → Station) : (s.modStation i f).launches = s.launches := rfl
@[simp] theorem State.modStation_queues (s : State) (i : StId) (f : Station → Station) : (s.modStation i f).queues = s.queues := rfl
@[simp] theorem State.modStation_reqs (s : State) (i : StId) (f : Station → Station) : (s.modStation i f).reqs = s.reqs := rfl
@[simp] theorem State.modStation_paths (s : State) (i : StId) (f : Station → Station) : (s.modStation i f).paths = s.paths := rfl
@[simp] theorem State.modStation_copies (s : State) (i : StId) (f : Station → Station) : (s.modStation i f).copies = s.copies := rfl
@[simp] theorem State.modStation_domains (s : State) (i : StId) (f : Station → Station) : (s.modStation i f).domains = s.domains := rfl
@[simp] theorem State.modStation_bars (s : State) (i : StId) (f : Station → Station) : (s.modStation i f).bars = s.bars := rfl
@[simp] theorem State.modStation_barMsgs (s : State) (i : StId) (f : Station → Station) : (s.modStation i f).barMsgs = s.barMsgs := rfl
@[simp] theorem State.modStation_tasks (s : State) (i : StId) (f : Station → Station) : (s.modStation i f).tasks = s.tasks := rfl
@[simp] theorem State.modStation_marks (s : State) (i : StId) (f : Station → Station) : (s.modStation i f).marks = s.marks := rfl
@[simp] theorem State.modStation_watermarks (s : State) (i : StId) (f : Station → Station) : (s.modStation i f).watermarks = s.watermarks := rfl
@[simp] theorem State.modStation_cells (s : State) (i : StId) (f : Station → Station) : (s.modStation i f).cells = s.cells := rfl
@[simp] theorem State.modStation_mem (s : State) (i : StId) (f : Station → Station) : (s.modStation i f).mem = s.mem := rfl
@[simp] theorem State.modStation_host (s : State) (i : StId) (f : Station → Station) : (s.modStation i f).host = s.host := rfl
@[simp] theorem State.modStation_descs (s : State) (i : StId) (f : Station → Station) : (s.modStation i f).descs = s.descs := rfl
@[simp] theorem State.modStation_roots (s : State) (i : StId) (f : Station → Station) : (s.modStation i f).roots = s.roots := rfl
@[simp] theorem State.modStation_saveBases (s : State) (i : StId) (f : Station → Station) : (s.modStation i f).saveBases = s.saveBases := rfl
@[simp] theorem State.modStation_saved (s : State) (i : StId) (f : Station → Station) : (s.modStation i f).saved = s.saved := rfl
@[simp] theorem State.modStation_l2 (s : State) (i : StId) (f : Station → Station) : (s.modStation i f).l2 = s.l2 := rfl
@[simp] theorem State.modStation_bad (s : State) (i : StId) (f : Station → Station) : (s.modStation i f).bad = s.bad := rfl
@[simp] theorem State.modStation_remap (s : State) (i : StId) (f : Station → Station) : (s.modStation i f).remap = s.remap := rfl
@[simp] theorem State.modStation_sliceOver (s : State) (i : StId) (f : Station → Station) : (s.modStation i f).sliceOver = s.sliceOver := rfl
@[simp] theorem State.modStation_dies (s : State) (i : StId) (f : Station → Station) : (s.modStation i f).dies = s.dies := rfl
@[simp] theorem State.modStation_state (s : State) (i : StId) (f : Station → Station) : (s.modStation i f).state = s.state := rfl
@[simp] theorem State.modStation_bootrsn (s : State) (i : StId) (f : Station → Station) : (s.modStation i f).bootrsn = s.bootrsn := rfl
@[simp] theorem State.modStation_failcnt (s : State) (i : StId) (f : Station → Station) : (s.modStation i f).failcnt = s.failcnt := rfl
@[simp] theorem State.modStation_boot (s : State) (i : StId) (f : Station → Station) : (s.modStation i f).boot = s.boot := rfl
@[simp] theorem State.modStation_bootTime (s : State) (i : StId) (f : Station → Station) : (s.modStation i f).bootTime = s.bootTime := rfl
@[simp] theorem State.modStation_tlboot (s : State) (i : StId) (f : Station → Station) : (s.modStation i f).tlboot = s.tlboot := rfl
@[simp] theorem State.modStation_fw (s : State) (i : StId) (f : Station → Station) : (s.modStation i f).fw = s.fw := rfl
@[simp] theorem State.modStation_log (s : State) (i : StId) (f : Station → Station) : (s.modStation i f).log = s.log := rfl
@[simp] theorem State.modStation_pilots (s : State) (i : StId) (f : Station → Station) : (s.modStation i f).pilots = s.pilots := rfl
@[simp] theorem State.modStation_arbiter (s : State) (i : StId) (f : Station → Station) : (s.modStation i f).arbiter = s.arbiter := rfl
@[simp] theorem State.modStation_owned (s : State) (i : StId) (f : Station → Station) : (s.modStation i f).owned = s.owned := rfl
@[simp] theorem State.modStation_owner (s : State) (i : StId) (f : Station → Station) : (s.modStation i f).owner = s.owner := rfl
@[simp] theorem State.modStation_herr (s : State) (i : StId) (f : Station → Station) : (s.modStation i f).herr = s.herr := rfl
@[simp] theorem State.modStation_attached (s : State) (i : StId) (f : Station → Station) : (s.modStation i f).attached = s.attached := rfl
@[simp] theorem State.modStation_claims (s : State) (i : StId) (f : Station → Station) : (s.modStation i f).claims = s.claims := rfl
@[simp] theorem State.modStation_window (s : State) (i : StId) (f : Station → Station) : (s.modStation i f).window = s.window := rfl
@[simp] theorem State.modStation_apbase (s : State) (i : StId) (f : Station → Station) : (s.modStation i f).apbase = s.apbase := rfl
@[simp] theorem State.modStation_sbquery (s : State) (i : StId) (f : Station → Station) : (s.modStation i f).sbquery = s.sbquery := rfl
@[simp] theorem State.modStation_pwrlim (s : State) (i : StId) (f : Station → Station) : (s.modStation i f).pwrlim = s.pwrlim := rfl
@[simp] theorem State.modStation_pwrnow (s : State) (i : StId) (f : Station → Station) : (s.modStation i f).pwrnow = s.pwrnow := rfl
@[simp] theorem State.modStation_shares (s : State) (i : StId) (f : Station → Station) : (s.modStation i f).shares = s.shares := rfl
@[simp] theorem State.modStation_pwrmir (s : State) (i : StId) (f : Station → Station) : (s.modStation i f).pwrmir = s.pwrmir := rfl
@[simp] theorem State.modStation_pwrseq (s : State) (i : StId) (f : Station → Station) : (s.modStation i f).pwrseq = s.pwrseq := rfl
@[simp] theorem State.modStation_mailboxes (s : State) (i : StId) (f : Station → Station) : (s.modStation i f).mailboxes = s.mailboxes := rfl
@[simp] theorem State.modStation_asks (s : State) (i : StId) (f : Station → Station) : (s.modStation i f).asks = s.asks := rfl
@[simp] theorem State.modStation_vectors (s : State) (i : StId) (f : Station → Station) : (s.modStation i f).vectors = s.vectors := rfl
@[simp] theorem State.modStation_answer (s : State) (i : StId) (f : Station → Station) : (s.modStation i f).answer = s.answer := rfl
@[simp] theorem State.modStation_links (s : State) (i : StId) (f : Station → Station) : (s.modStation i f).links = s.links := rfl
@[simp] theorem State.modStation_bindings (s : State) (i : StId) (f : Station → Station) : (s.modStation i f).bindings = s.bindings := rfl
@[simp] theorem State.modStation_joins (s : State) (i : StId) (f : Station → Station) : (s.modStation i f).joins = s.joins := rfl
@[simp] theorem State.modStation_rots (s : State) (i : StId) (f : Station → Station) : (s.modStation i f).rots = s.rots := rfl

/-! ### `State.modVoyage` -/

@[simp] theorem State.modVoyage_grade (s : State) (v : Nat) (f : Voyage → Voyage) : (s.modVoyage v f).grade = s.grade := rfl
@[simp] theorem State.modVoyage_time (s : State) (v : Nat) (f : Voyage → Voyage) : (s.modVoyage v f).time = s.time := rfl
@[simp] theorem State.modVoyage_free (s : State) (v : Nat) (f : Voyage → Voyage) : (s.modVoyage v f).free = s.free := rfl
@[simp] theorem State.modVoyage_nextId (s : State) (v : Nat) (f : Voyage → Voyage) : (s.modVoyage v f).nextId = s.nextId := rfl
@[simp] theorem State.modVoyage_agenda (s : State) (v : Nat) (f : Voyage → Voyage) : (s.modVoyage v f).agenda = s.agenda := rfl
@[simp] theorem State.modVoyage_ev (s : State) (v : Nat) (f : Voyage → Voyage) : (s.modVoyage v f).ev = s.ev := rfl
@[simp] theorem State.modVoyage_inputs (s : State) (v : Nat) (f : Voyage → Voyage) : (s.modVoyage v f).inputs = s.inputs := rfl
@[simp] theorem State.modVoyage_firing (s : State) (v : Nat) (f : Voyage → Voyage) : (s.modVoyage v f).firing = s.firing := rfl
@[simp] theorem State.modVoyage_stations (s : State) (v : Nat) (f : Voyage → Voyage) : (s.modVoyage v f).stations = s.stations := rfl
@[simp] theorem State.modVoyage_routes (s : State) (v : Nat) (f : Voyage → Voyage) : (s.modVoyage v f).routes = s.routes := rfl
@[simp] theorem State.modVoyage_ports (s : State) (v : Nat) (f : Voyage → Voyage) : (s.modVoyage v f).ports = s.ports := rfl
@[simp] theorem State.modVoyage_agens (s : State) (v : Nat) (f : Voyage → Voyage) : (s.modVoyage v f).agens = s.agens := rfl
@[simp] theorem State.modVoyage_launches (s : State) (v : Nat) (f : Voyage → Voyage) : (s.modVoyage v f).launches = s.launches := rfl
@[simp] theorem State.modVoyage_queues (s : State) (v : Nat) (f : Voyage → Voyage) : (s.modVoyage v f).queues = s.queues := rfl
@[simp] theorem State.modVoyage_reqs (s : State) (v : Nat) (f : Voyage → Voyage) : (s.modVoyage v f).reqs = s.reqs := rfl
@[simp] theorem State.modVoyage_paths (s : State) (v : Nat) (f : Voyage → Voyage) : (s.modVoyage v f).paths = s.paths := rfl
@[simp] theorem State.modVoyage_copies (s : State) (v : Nat) (f : Voyage → Voyage) : (s.modVoyage v f).copies = s.copies := rfl
@[simp] theorem State.modVoyage_domains (s : State) (v : Nat) (f : Voyage → Voyage) : (s.modVoyage v f).domains = s.domains := rfl
@[simp] theorem State.modVoyage_bars (s : State) (v : Nat) (f : Voyage → Voyage) : (s.modVoyage v f).bars = s.bars := rfl
@[simp] theorem State.modVoyage_barMsgs (s : State) (v : Nat) (f : Voyage → Voyage) : (s.modVoyage v f).barMsgs = s.barMsgs := rfl
@[simp] theorem State.modVoyage_tasks (s : State) (v : Nat) (f : Voyage → Voyage) : (s.modVoyage v f).tasks = s.tasks := rfl
@[simp] theorem State.modVoyage_marks (s : State) (v : Nat) (f : Voyage → Voyage) : (s.modVoyage v f).marks = s.marks := rfl
@[simp] theorem State.modVoyage_watermarks (s : State) (v : Nat) (f : Voyage → Voyage) : (s.modVoyage v f).watermarks = s.watermarks := rfl
@[simp] theorem State.modVoyage_cells (s : State) (v : Nat) (f : Voyage → Voyage) : (s.modVoyage v f).cells = s.cells := rfl
@[simp] theorem State.modVoyage_mem (s : State) (v : Nat) (f : Voyage → Voyage) : (s.modVoyage v f).mem = s.mem := rfl
@[simp] theorem State.modVoyage_host (s : State) (v : Nat) (f : Voyage → Voyage) : (s.modVoyage v f).host = s.host := rfl
@[simp] theorem State.modVoyage_descs (s : State) (v : Nat) (f : Voyage → Voyage) : (s.modVoyage v f).descs = s.descs := rfl
@[simp] theorem State.modVoyage_roots (s : State) (v : Nat) (f : Voyage → Voyage) : (s.modVoyage v f).roots = s.roots := rfl
@[simp] theorem State.modVoyage_saveBases (s : State) (v : Nat) (f : Voyage → Voyage) : (s.modVoyage v f).saveBases = s.saveBases := rfl
@[simp] theorem State.modVoyage_saved (s : State) (v : Nat) (f : Voyage → Voyage) : (s.modVoyage v f).saved = s.saved := rfl
@[simp] theorem State.modVoyage_l2 (s : State) (v : Nat) (f : Voyage → Voyage) : (s.modVoyage v f).l2 = s.l2 := rfl
@[simp] theorem State.modVoyage_bad (s : State) (v : Nat) (f : Voyage → Voyage) : (s.modVoyage v f).bad = s.bad := rfl
@[simp] theorem State.modVoyage_remap (s : State) (v : Nat) (f : Voyage → Voyage) : (s.modVoyage v f).remap = s.remap := rfl
@[simp] theorem State.modVoyage_sliceOver (s : State) (v : Nat) (f : Voyage → Voyage) : (s.modVoyage v f).sliceOver = s.sliceOver := rfl
@[simp] theorem State.modVoyage_dies (s : State) (v : Nat) (f : Voyage → Voyage) : (s.modVoyage v f).dies = s.dies := rfl
@[simp] theorem State.modVoyage_state (s : State) (v : Nat) (f : Voyage → Voyage) : (s.modVoyage v f).state = s.state := rfl
@[simp] theorem State.modVoyage_bootrsn (s : State) (v : Nat) (f : Voyage → Voyage) : (s.modVoyage v f).bootrsn = s.bootrsn := rfl
@[simp] theorem State.modVoyage_failcnt (s : State) (v : Nat) (f : Voyage → Voyage) : (s.modVoyage v f).failcnt = s.failcnt := rfl
@[simp] theorem State.modVoyage_boot (s : State) (v : Nat) (f : Voyage → Voyage) : (s.modVoyage v f).boot = s.boot := rfl
@[simp] theorem State.modVoyage_bootTime (s : State) (v : Nat) (f : Voyage → Voyage) : (s.modVoyage v f).bootTime = s.bootTime := rfl
@[simp] theorem State.modVoyage_tlboot (s : State) (v : Nat) (f : Voyage → Voyage) : (s.modVoyage v f).tlboot = s.tlboot := rfl
@[simp] theorem State.modVoyage_fw (s : State) (v : Nat) (f : Voyage → Voyage) : (s.modVoyage v f).fw = s.fw := rfl
@[simp] theorem State.modVoyage_log (s : State) (v : Nat) (f : Voyage → Voyage) : (s.modVoyage v f).log = s.log := rfl
@[simp] theorem State.modVoyage_pilots (s : State) (v : Nat) (f : Voyage → Voyage) : (s.modVoyage v f).pilots = s.pilots := rfl
@[simp] theorem State.modVoyage_arbiter (s : State) (v : Nat) (f : Voyage → Voyage) : (s.modVoyage v f).arbiter = s.arbiter := rfl
@[simp] theorem State.modVoyage_owned (s : State) (v : Nat) (f : Voyage → Voyage) : (s.modVoyage v f).owned = s.owned := rfl
@[simp] theorem State.modVoyage_owner (s : State) (v : Nat) (f : Voyage → Voyage) : (s.modVoyage v f).owner = s.owner := rfl
@[simp] theorem State.modVoyage_herr (s : State) (v : Nat) (f : Voyage → Voyage) : (s.modVoyage v f).herr = s.herr := rfl
@[simp] theorem State.modVoyage_attached (s : State) (v : Nat) (f : Voyage → Voyage) : (s.modVoyage v f).attached = s.attached := rfl
@[simp] theorem State.modVoyage_claims (s : State) (v : Nat) (f : Voyage → Voyage) : (s.modVoyage v f).claims = s.claims := rfl
@[simp] theorem State.modVoyage_window (s : State) (v : Nat) (f : Voyage → Voyage) : (s.modVoyage v f).window = s.window := rfl
@[simp] theorem State.modVoyage_apbase (s : State) (v : Nat) (f : Voyage → Voyage) : (s.modVoyage v f).apbase = s.apbase := rfl
@[simp] theorem State.modVoyage_sbquery (s : State) (v : Nat) (f : Voyage → Voyage) : (s.modVoyage v f).sbquery = s.sbquery := rfl
@[simp] theorem State.modVoyage_pwrlim (s : State) (v : Nat) (f : Voyage → Voyage) : (s.modVoyage v f).pwrlim = s.pwrlim := rfl
@[simp] theorem State.modVoyage_pwrnow (s : State) (v : Nat) (f : Voyage → Voyage) : (s.modVoyage v f).pwrnow = s.pwrnow := rfl
@[simp] theorem State.modVoyage_shares (s : State) (v : Nat) (f : Voyage → Voyage) : (s.modVoyage v f).shares = s.shares := rfl
@[simp] theorem State.modVoyage_pwrmir (s : State) (v : Nat) (f : Voyage → Voyage) : (s.modVoyage v f).pwrmir = s.pwrmir := rfl
@[simp] theorem State.modVoyage_pwrseq (s : State) (v : Nat) (f : Voyage → Voyage) : (s.modVoyage v f).pwrseq = s.pwrseq := rfl
@[simp] theorem State.modVoyage_mailboxes (s : State) (v : Nat) (f : Voyage → Voyage) : (s.modVoyage v f).mailboxes = s.mailboxes := rfl
@[simp] theorem State.modVoyage_asks (s : State) (v : Nat) (f : Voyage → Voyage) : (s.modVoyage v f).asks = s.asks := rfl
@[simp] theorem State.modVoyage_vectors (s : State) (v : Nat) (f : Voyage → Voyage) : (s.modVoyage v f).vectors = s.vectors := rfl
@[simp] theorem State.modVoyage_answer (s : State) (v : Nat) (f : Voyage → Voyage) : (s.modVoyage v f).answer = s.answer := rfl
@[simp] theorem State.modVoyage_links (s : State) (v : Nat) (f : Voyage → Voyage) : (s.modVoyage v f).links = s.links := rfl
@[simp] theorem State.modVoyage_bindings (s : State) (v : Nat) (f : Voyage → Voyage) : (s.modVoyage v f).bindings = s.bindings := rfl
@[simp] theorem State.modVoyage_joins (s : State) (v : Nat) (f : Voyage → Voyage) : (s.modVoyage v f).joins = s.joins := rfl
@[simp] theorem State.modVoyage_rots (s : State) (v : Nat) (f : Voyage → Voyage) : (s.modVoyage v f).rots = s.rots := rfl

/-! ### `State.modRegion` -/

@[simp] theorem State.modRegion_grade (s : State) (v r : Nat) (f : Region → Region) : (s.modRegion v r f).grade = s.grade := rfl
@[simp] theorem State.modRegion_time (s : State) (v r : Nat) (f : Region → Region) : (s.modRegion v r f).time = s.time := rfl
@[simp] theorem State.modRegion_free (s : State) (v r : Nat) (f : Region → Region) : (s.modRegion v r f).free = s.free := rfl
@[simp] theorem State.modRegion_nextId (s : State) (v r : Nat) (f : Region → Region) : (s.modRegion v r f).nextId = s.nextId := rfl
@[simp] theorem State.modRegion_agenda (s : State) (v r : Nat) (f : Region → Region) : (s.modRegion v r f).agenda = s.agenda := rfl
@[simp] theorem State.modRegion_ev (s : State) (v r : Nat) (f : Region → Region) : (s.modRegion v r f).ev = s.ev := rfl
@[simp] theorem State.modRegion_inputs (s : State) (v r : Nat) (f : Region → Region) : (s.modRegion v r f).inputs = s.inputs := rfl
@[simp] theorem State.modRegion_firing (s : State) (v r : Nat) (f : Region → Region) : (s.modRegion v r f).firing = s.firing := rfl
@[simp] theorem State.modRegion_stations (s : State) (v r : Nat) (f : Region → Region) : (s.modRegion v r f).stations = s.stations := rfl
@[simp] theorem State.modRegion_routes (s : State) (v r : Nat) (f : Region → Region) : (s.modRegion v r f).routes = s.routes := rfl
@[simp] theorem State.modRegion_ports (s : State) (v r : Nat) (f : Region → Region) : (s.modRegion v r f).ports = s.ports := rfl
@[simp] theorem State.modRegion_agens (s : State) (v r : Nat) (f : Region → Region) : (s.modRegion v r f).agens = s.agens := rfl
@[simp] theorem State.modRegion_launches (s : State) (v r : Nat) (f : Region → Region) : (s.modRegion v r f).launches = s.launches := rfl
@[simp] theorem State.modRegion_queues (s : State) (v r : Nat) (f : Region → Region) : (s.modRegion v r f).queues = s.queues := rfl
@[simp] theorem State.modRegion_reqs (s : State) (v r : Nat) (f : Region → Region) : (s.modRegion v r f).reqs = s.reqs := rfl
@[simp] theorem State.modRegion_paths (s : State) (v r : Nat) (f : Region → Region) : (s.modRegion v r f).paths = s.paths := rfl
@[simp] theorem State.modRegion_copies (s : State) (v r : Nat) (f : Region → Region) : (s.modRegion v r f).copies = s.copies := rfl
@[simp] theorem State.modRegion_domains (s : State) (v r : Nat) (f : Region → Region) : (s.modRegion v r f).domains = s.domains := rfl
@[simp] theorem State.modRegion_bars (s : State) (v r : Nat) (f : Region → Region) : (s.modRegion v r f).bars = s.bars := rfl
@[simp] theorem State.modRegion_barMsgs (s : State) (v r : Nat) (f : Region → Region) : (s.modRegion v r f).barMsgs = s.barMsgs := rfl
@[simp] theorem State.modRegion_tasks (s : State) (v r : Nat) (f : Region → Region) : (s.modRegion v r f).tasks = s.tasks := rfl
@[simp] theorem State.modRegion_marks (s : State) (v r : Nat) (f : Region → Region) : (s.modRegion v r f).marks = s.marks := rfl
@[simp] theorem State.modRegion_watermarks (s : State) (v r : Nat) (f : Region → Region) : (s.modRegion v r f).watermarks = s.watermarks := rfl
@[simp] theorem State.modRegion_cells (s : State) (v r : Nat) (f : Region → Region) : (s.modRegion v r f).cells = s.cells := rfl
@[simp] theorem State.modRegion_mem (s : State) (v r : Nat) (f : Region → Region) : (s.modRegion v r f).mem = s.mem := rfl
@[simp] theorem State.modRegion_host (s : State) (v r : Nat) (f : Region → Region) : (s.modRegion v r f).host = s.host := rfl
@[simp] theorem State.modRegion_descs (s : State) (v r : Nat) (f : Region → Region) : (s.modRegion v r f).descs = s.descs := rfl
@[simp] theorem State.modRegion_roots (s : State) (v r : Nat) (f : Region → Region) : (s.modRegion v r f).roots = s.roots := rfl
@[simp] theorem State.modRegion_saveBases (s : State) (v r : Nat) (f : Region → Region) : (s.modRegion v r f).saveBases = s.saveBases := rfl
@[simp] theorem State.modRegion_saved (s : State) (v r : Nat) (f : Region → Region) : (s.modRegion v r f).saved = s.saved := rfl
@[simp] theorem State.modRegion_l2 (s : State) (v r : Nat) (f : Region → Region) : (s.modRegion v r f).l2 = s.l2 := rfl
@[simp] theorem State.modRegion_bad (s : State) (v r : Nat) (f : Region → Region) : (s.modRegion v r f).bad = s.bad := rfl
@[simp] theorem State.modRegion_remap (s : State) (v r : Nat) (f : Region → Region) : (s.modRegion v r f).remap = s.remap := rfl
@[simp] theorem State.modRegion_sliceOver (s : State) (v r : Nat) (f : Region → Region) : (s.modRegion v r f).sliceOver = s.sliceOver := rfl
@[simp] theorem State.modRegion_dies (s : State) (v r : Nat) (f : Region → Region) : (s.modRegion v r f).dies = s.dies := rfl
@[simp] theorem State.modRegion_state (s : State) (v r : Nat) (f : Region → Region) : (s.modRegion v r f).state = s.state := rfl
@[simp] theorem State.modRegion_bootrsn (s : State) (v r : Nat) (f : Region → Region) : (s.modRegion v r f).bootrsn = s.bootrsn := rfl
@[simp] theorem State.modRegion_failcnt (s : State) (v r : Nat) (f : Region → Region) : (s.modRegion v r f).failcnt = s.failcnt := rfl
@[simp] theorem State.modRegion_boot (s : State) (v r : Nat) (f : Region → Region) : (s.modRegion v r f).boot = s.boot := rfl
@[simp] theorem State.modRegion_bootTime (s : State) (v r : Nat) (f : Region → Region) : (s.modRegion v r f).bootTime = s.bootTime := rfl
@[simp] theorem State.modRegion_tlboot (s : State) (v r : Nat) (f : Region → Region) : (s.modRegion v r f).tlboot = s.tlboot := rfl
@[simp] theorem State.modRegion_fw (s : State) (v r : Nat) (f : Region → Region) : (s.modRegion v r f).fw = s.fw := rfl
@[simp] theorem State.modRegion_log (s : State) (v r : Nat) (f : Region → Region) : (s.modRegion v r f).log = s.log := rfl
@[simp] theorem State.modRegion_pilots (s : State) (v r : Nat) (f : Region → Region) : (s.modRegion v r f).pilots = s.pilots := rfl
@[simp] theorem State.modRegion_arbiter (s : State) (v r : Nat) (f : Region → Region) : (s.modRegion v r f).arbiter = s.arbiter := rfl
@[simp] theorem State.modRegion_owned (s : State) (v r : Nat) (f : Region → Region) : (s.modRegion v r f).owned = s.owned := rfl
@[simp] theorem State.modRegion_owner (s : State) (v r : Nat) (f : Region → Region) : (s.modRegion v r f).owner = s.owner := rfl
@[simp] theorem State.modRegion_herr (s : State) (v r : Nat) (f : Region → Region) : (s.modRegion v r f).herr = s.herr := rfl
@[simp] theorem State.modRegion_attached (s : State) (v r : Nat) (f : Region → Region) : (s.modRegion v r f).attached = s.attached := rfl
@[simp] theorem State.modRegion_claims (s : State) (v r : Nat) (f : Region → Region) : (s.modRegion v r f).claims = s.claims := rfl
@[simp] theorem State.modRegion_window (s : State) (v r : Nat) (f : Region → Region) : (s.modRegion v r f).window = s.window := rfl
@[simp] theorem State.modRegion_apbase (s : State) (v r : Nat) (f : Region → Region) : (s.modRegion v r f).apbase = s.apbase := rfl
@[simp] theorem State.modRegion_sbquery (s : State) (v r : Nat) (f : Region → Region) : (s.modRegion v r f).sbquery = s.sbquery := rfl
@[simp] theorem State.modRegion_pwrlim (s : State) (v r : Nat) (f : Region → Region) : (s.modRegion v r f).pwrlim = s.pwrlim := rfl
@[simp] theorem State.modRegion_pwrnow (s : State) (v r : Nat) (f : Region → Region) : (s.modRegion v r f).pwrnow = s.pwrnow := rfl
@[simp] theorem State.modRegion_shares (s : State) (v r : Nat) (f : Region → Region) : (s.modRegion v r f).shares = s.shares := rfl
@[simp] theorem State.modRegion_pwrmir (s : State) (v r : Nat) (f : Region → Region) : (s.modRegion v r f).pwrmir = s.pwrmir := rfl
@[simp] theorem State.modRegion_pwrseq (s : State) (v r : Nat) (f : Region → Region) : (s.modRegion v r f).pwrseq = s.pwrseq := rfl
@[simp] theorem State.modRegion_mailboxes (s : State) (v r : Nat) (f : Region → Region) : (s.modRegion v r f).mailboxes = s.mailboxes := rfl
@[simp] theorem State.modRegion_asks (s : State) (v r : Nat) (f : Region → Region) : (s.modRegion v r f).asks = s.asks := rfl
@[simp] theorem State.modRegion_vectors (s : State) (v r : Nat) (f : Region → Region) : (s.modRegion v r f).vectors = s.vectors := rfl
@[simp] theorem State.modRegion_answer (s : State) (v r : Nat) (f : Region → Region) : (s.modRegion v r f).answer = s.answer := rfl
@[simp] theorem State.modRegion_links (s : State) (v r : Nat) (f : Region → Region) : (s.modRegion v r f).links = s.links := rfl
@[simp] theorem State.modRegion_bindings (s : State) (v r : Nat) (f : Region → Region) : (s.modRegion v r f).bindings = s.bindings := rfl
@[simp] theorem State.modRegion_joins (s : State) (v r : Nat) (f : Region → Region) : (s.modRegion v r f).joins = s.joins := rfl
@[simp] theorem State.modRegion_rots (s : State) (v r : Nat) (f : Region → Region) : (s.modRegion v r f).rots = s.rots := rfl

/-! ### `State.useId` -/

@[simp] theorem State.useId_grade (s : State) (n : Nat) : (s.useId n).grade = s.grade := rfl
@[simp] theorem State.useId_time (s : State) (n : Nat) : (s.useId n).time = s.time := rfl
@[simp] theorem State.useId_free (s : State) (n : Nat) : (s.useId n).free = s.free := rfl
@[simp] theorem State.useId_agenda (s : State) (n : Nat) : (s.useId n).agenda = s.agenda := rfl
@[simp] theorem State.useId_ev (s : State) (n : Nat) : (s.useId n).ev = s.ev := rfl
@[simp] theorem State.useId_inputs (s : State) (n : Nat) : (s.useId n).inputs = s.inputs := rfl
@[simp] theorem State.useId_firing (s : State) (n : Nat) : (s.useId n).firing = s.firing := rfl
@[simp] theorem State.useId_stations (s : State) (n : Nat) : (s.useId n).stations = s.stations := rfl
@[simp] theorem State.useId_routes (s : State) (n : Nat) : (s.useId n).routes = s.routes := rfl
@[simp] theorem State.useId_ports (s : State) (n : Nat) : (s.useId n).ports = s.ports := rfl
@[simp] theorem State.useId_agens (s : State) (n : Nat) : (s.useId n).agens = s.agens := rfl
@[simp] theorem State.useId_voyages (s : State) (n : Nat) : (s.useId n).voyages = s.voyages := rfl
@[simp] theorem State.useId_launches (s : State) (n : Nat) : (s.useId n).launches = s.launches := rfl
@[simp] theorem State.useId_queues (s : State) (n : Nat) : (s.useId n).queues = s.queues := rfl
@[simp] theorem State.useId_reqs (s : State) (n : Nat) : (s.useId n).reqs = s.reqs := rfl
@[simp] theorem State.useId_paths (s : State) (n : Nat) : (s.useId n).paths = s.paths := rfl
@[simp] theorem State.useId_copies (s : State) (n : Nat) : (s.useId n).copies = s.copies := rfl
@[simp] theorem State.useId_domains (s : State) (n : Nat) : (s.useId n).domains = s.domains := rfl
@[simp] theorem State.useId_bars (s : State) (n : Nat) : (s.useId n).bars = s.bars := rfl
@[simp] theorem State.useId_barMsgs (s : State) (n : Nat) : (s.useId n).barMsgs = s.barMsgs := rfl
@[simp] theorem State.useId_tasks (s : State) (n : Nat) : (s.useId n).tasks = s.tasks := rfl
@[simp] theorem State.useId_marks (s : State) (n : Nat) : (s.useId n).marks = s.marks := rfl
@[simp] theorem State.useId_watermarks (s : State) (n : Nat) : (s.useId n).watermarks = s.watermarks := rfl
@[simp] theorem State.useId_cells (s : State) (n : Nat) : (s.useId n).cells = s.cells := rfl
@[simp] theorem State.useId_mem (s : State) (n : Nat) : (s.useId n).mem = s.mem := rfl
@[simp] theorem State.useId_host (s : State) (n : Nat) : (s.useId n).host = s.host := rfl
@[simp] theorem State.useId_descs (s : State) (n : Nat) : (s.useId n).descs = s.descs := rfl
@[simp] theorem State.useId_roots (s : State) (n : Nat) : (s.useId n).roots = s.roots := rfl
@[simp] theorem State.useId_saveBases (s : State) (n : Nat) : (s.useId n).saveBases = s.saveBases := rfl
@[simp] theorem State.useId_saved (s : State) (n : Nat) : (s.useId n).saved = s.saved := rfl
@[simp] theorem State.useId_l2 (s : State) (n : Nat) : (s.useId n).l2 = s.l2 := rfl
@[simp] theorem State.useId_bad (s : State) (n : Nat) : (s.useId n).bad = s.bad := rfl
@[simp] theorem State.useId_remap (s : State) (n : Nat) : (s.useId n).remap = s.remap := rfl
@[simp] theorem State.useId_sliceOver (s : State) (n : Nat) : (s.useId n).sliceOver = s.sliceOver := rfl
@[simp] theorem State.useId_dies (s : State) (n : Nat) : (s.useId n).dies = s.dies := rfl
@[simp] theorem State.useId_state (s : State) (n : Nat) : (s.useId n).state = s.state := rfl
@[simp] theorem State.useId_bootrsn (s : State) (n : Nat) : (s.useId n).bootrsn = s.bootrsn := rfl
@[simp] theorem State.useId_failcnt (s : State) (n : Nat) : (s.useId n).failcnt = s.failcnt := rfl
@[simp] theorem State.useId_boot (s : State) (n : Nat) : (s.useId n).boot = s.boot := rfl
@[simp] theorem State.useId_bootTime (s : State) (n : Nat) : (s.useId n).bootTime = s.bootTime := rfl
@[simp] theorem State.useId_tlboot (s : State) (n : Nat) : (s.useId n).tlboot = s.tlboot := rfl
@[simp] theorem State.useId_fw (s : State) (n : Nat) : (s.useId n).fw = s.fw := rfl
@[simp] theorem State.useId_log (s : State) (n : Nat) : (s.useId n).log = s.log := rfl
@[simp] theorem State.useId_pilots (s : State) (n : Nat) : (s.useId n).pilots = s.pilots := rfl
@[simp] theorem State.useId_arbiter (s : State) (n : Nat) : (s.useId n).arbiter = s.arbiter := rfl
@[simp] theorem State.useId_owned (s : State) (n : Nat) : (s.useId n).owned = s.owned := rfl
@[simp] theorem State.useId_owner (s : State) (n : Nat) : (s.useId n).owner = s.owner := rfl
@[simp] theorem State.useId_herr (s : State) (n : Nat) : (s.useId n).herr = s.herr := rfl
@[simp] theorem State.useId_attached (s : State) (n : Nat) : (s.useId n).attached = s.attached := rfl
@[simp] theorem State.useId_claims (s : State) (n : Nat) : (s.useId n).claims = s.claims := rfl
@[simp] theorem State.useId_window (s : State) (n : Nat) : (s.useId n).window = s.window := rfl
@[simp] theorem State.useId_apbase (s : State) (n : Nat) : (s.useId n).apbase = s.apbase := rfl
@[simp] theorem State.useId_sbquery (s : State) (n : Nat) : (s.useId n).sbquery = s.sbquery := rfl
@[simp] theorem State.useId_pwrlim (s : State) (n : Nat) : (s.useId n).pwrlim = s.pwrlim := rfl
@[simp] theorem State.useId_pwrnow (s : State) (n : Nat) : (s.useId n).pwrnow = s.pwrnow := rfl
@[simp] theorem State.useId_shares (s : State) (n : Nat) : (s.useId n).shares = s.shares := rfl
@[simp] theorem State.useId_pwrmir (s : State) (n : Nat) : (s.useId n).pwrmir = s.pwrmir := rfl
@[simp] theorem State.useId_pwrseq (s : State) (n : Nat) : (s.useId n).pwrseq = s.pwrseq := rfl
@[simp] theorem State.useId_mailboxes (s : State) (n : Nat) : (s.useId n).mailboxes = s.mailboxes := rfl
@[simp] theorem State.useId_asks (s : State) (n : Nat) : (s.useId n).asks = s.asks := rfl
@[simp] theorem State.useId_vectors (s : State) (n : Nat) : (s.useId n).vectors = s.vectors := rfl
@[simp] theorem State.useId_answer (s : State) (n : Nat) : (s.useId n).answer = s.answer := rfl
@[simp] theorem State.useId_links (s : State) (n : Nat) : (s.useId n).links = s.links := rfl
@[simp] theorem State.useId_bindings (s : State) (n : Nat) : (s.useId n).bindings = s.bindings := rfl
@[simp] theorem State.useId_joins (s : State) (n : Nat) : (s.useId n).joins = s.joins := rfl
@[simp] theorem State.useId_rots (s : State) (n : Nat) : (s.useId n).rots = s.rots := rfl

/-! ### `State.slotTaken` -/

@[simp] theorem State.slotTaken_grade (s : State) (f : Firing) (r : List (Fin 32)) : (s.slotTaken f r).grade = s.grade := rfl
@[simp] theorem State.slotTaken_time (s : State) (f : Firing) (r : List (Fin 32)) : (s.slotTaken f r).time = s.time := rfl
@[simp] theorem State.slotTaken_free (s : State) (f : Firing) (r : List (Fin 32)) : (s.slotTaken f r).free = s.free := rfl
@[simp] theorem State.slotTaken_nextId (s : State) (f : Firing) (r : List (Fin 32)) : (s.slotTaken f r).nextId = s.nextId := rfl
@[simp] theorem State.slotTaken_agenda (s : State) (f : Firing) (r : List (Fin 32)) : (s.slotTaken f r).agenda = s.agenda := rfl
@[simp] theorem State.slotTaken_ev (s : State) (f : Firing) (r : List (Fin 32)) : (s.slotTaken f r).ev = s.ev := rfl
@[simp] theorem State.slotTaken_inputs (s : State) (f : Firing) (r : List (Fin 32)) : (s.slotTaken f r).inputs = s.inputs := rfl
@[simp] theorem State.slotTaken_stations (s : State) (f : Firing) (r : List (Fin 32)) : (s.slotTaken f r).stations = s.stations := rfl
@[simp] theorem State.slotTaken_routes (s : State) (f : Firing) (r : List (Fin 32)) : (s.slotTaken f r).routes = s.routes := rfl
@[simp] theorem State.slotTaken_ports (s : State) (f : Firing) (r : List (Fin 32)) : (s.slotTaken f r).ports = s.ports := rfl
@[simp] theorem State.slotTaken_agens (s : State) (f : Firing) (r : List (Fin 32)) : (s.slotTaken f r).agens = s.agens := rfl
@[simp] theorem State.slotTaken_voyages (s : State) (f : Firing) (r : List (Fin 32)) : (s.slotTaken f r).voyages = s.voyages := rfl
@[simp] theorem State.slotTaken_launches (s : State) (f : Firing) (r : List (Fin 32)) : (s.slotTaken f r).launches = s.launches := rfl
@[simp] theorem State.slotTaken_queues (s : State) (f : Firing) (r : List (Fin 32)) : (s.slotTaken f r).queues = s.queues := rfl
@[simp] theorem State.slotTaken_reqs (s : State) (f : Firing) (r : List (Fin 32)) : (s.slotTaken f r).reqs = s.reqs := rfl
@[simp] theorem State.slotTaken_paths (s : State) (f : Firing) (r : List (Fin 32)) : (s.slotTaken f r).paths = s.paths := rfl
@[simp] theorem State.slotTaken_copies (s : State) (f : Firing) (r : List (Fin 32)) : (s.slotTaken f r).copies = s.copies := rfl
@[simp] theorem State.slotTaken_domains (s : State) (f : Firing) (r : List (Fin 32)) : (s.slotTaken f r).domains = s.domains := rfl
@[simp] theorem State.slotTaken_bars (s : State) (f : Firing) (r : List (Fin 32)) : (s.slotTaken f r).bars = s.bars := rfl
@[simp] theorem State.slotTaken_barMsgs (s : State) (f : Firing) (r : List (Fin 32)) : (s.slotTaken f r).barMsgs = s.barMsgs := rfl
@[simp] theorem State.slotTaken_tasks (s : State) (f : Firing) (r : List (Fin 32)) : (s.slotTaken f r).tasks = s.tasks := rfl
@[simp] theorem State.slotTaken_marks (s : State) (f : Firing) (r : List (Fin 32)) : (s.slotTaken f r).marks = s.marks := rfl
@[simp] theorem State.slotTaken_watermarks (s : State) (f : Firing) (r : List (Fin 32)) : (s.slotTaken f r).watermarks = s.watermarks := rfl
@[simp] theorem State.slotTaken_cells (s : State) (f : Firing) (r : List (Fin 32)) : (s.slotTaken f r).cells = s.cells := rfl
@[simp] theorem State.slotTaken_mem (s : State) (f : Firing) (r : List (Fin 32)) : (s.slotTaken f r).mem = s.mem := rfl
@[simp] theorem State.slotTaken_host (s : State) (f : Firing) (r : List (Fin 32)) : (s.slotTaken f r).host = s.host := rfl
@[simp] theorem State.slotTaken_descs (s : State) (f : Firing) (r : List (Fin 32)) : (s.slotTaken f r).descs = s.descs := rfl
@[simp] theorem State.slotTaken_roots (s : State) (f : Firing) (r : List (Fin 32)) : (s.slotTaken f r).roots = s.roots := rfl
@[simp] theorem State.slotTaken_saveBases (s : State) (f : Firing) (r : List (Fin 32)) : (s.slotTaken f r).saveBases = s.saveBases := rfl
@[simp] theorem State.slotTaken_saved (s : State) (f : Firing) (r : List (Fin 32)) : (s.slotTaken f r).saved = s.saved := rfl
@[simp] theorem State.slotTaken_l2 (s : State) (f : Firing) (r : List (Fin 32)) : (s.slotTaken f r).l2 = s.l2 := rfl
@[simp] theorem State.slotTaken_bad (s : State) (f : Firing) (r : List (Fin 32)) : (s.slotTaken f r).bad = s.bad := rfl
@[simp] theorem State.slotTaken_remap (s : State) (f : Firing) (r : List (Fin 32)) : (s.slotTaken f r).remap = s.remap := rfl
@[simp] theorem State.slotTaken_sliceOver (s : State) (f : Firing) (r : List (Fin 32)) : (s.slotTaken f r).sliceOver = s.sliceOver := rfl
@[simp] theorem State.slotTaken_dies (s : State) (f : Firing) (r : List (Fin 32)) : (s.slotTaken f r).dies = s.dies := rfl
@[simp] theorem State.slotTaken_state (s : State) (f : Firing) (r : List (Fin 32)) : (s.slotTaken f r).state = s.state := rfl
@[simp] theorem State.slotTaken_bootrsn (s : State) (f : Firing) (r : List (Fin 32)) : (s.slotTaken f r).bootrsn = s.bootrsn := rfl
@[simp] theorem State.slotTaken_failcnt (s : State) (f : Firing) (r : List (Fin 32)) : (s.slotTaken f r).failcnt = s.failcnt := rfl
@[simp] theorem State.slotTaken_boot (s : State) (f : Firing) (r : List (Fin 32)) : (s.slotTaken f r).boot = s.boot := rfl
@[simp] theorem State.slotTaken_bootTime (s : State) (f : Firing) (r : List (Fin 32)) : (s.slotTaken f r).bootTime = s.bootTime := rfl
@[simp] theorem State.slotTaken_tlboot (s : State) (f : Firing) (r : List (Fin 32)) : (s.slotTaken f r).tlboot = s.tlboot := rfl
@[simp] theorem State.slotTaken_fw (s : State) (f : Firing) (r : List (Fin 32)) : (s.slotTaken f r).fw = s.fw := rfl
@[simp] theorem State.slotTaken_log (s : State) (f : Firing) (r : List (Fin 32)) : (s.slotTaken f r).log = s.log := rfl
@[simp] theorem State.slotTaken_pilots (s : State) (f : Firing) (r : List (Fin 32)) : (s.slotTaken f r).pilots = s.pilots := rfl
@[simp] theorem State.slotTaken_arbiter (s : State) (f : Firing) (r : List (Fin 32)) : (s.slotTaken f r).arbiter = s.arbiter := rfl
@[simp] theorem State.slotTaken_owned (s : State) (f : Firing) (r : List (Fin 32)) : (s.slotTaken f r).owned = s.owned := rfl
@[simp] theorem State.slotTaken_owner (s : State) (f : Firing) (r : List (Fin 32)) : (s.slotTaken f r).owner = s.owner := rfl
@[simp] theorem State.slotTaken_herr (s : State) (f : Firing) (r : List (Fin 32)) : (s.slotTaken f r).herr = s.herr := rfl
@[simp] theorem State.slotTaken_attached (s : State) (f : Firing) (r : List (Fin 32)) : (s.slotTaken f r).attached = s.attached := rfl
@[simp] theorem State.slotTaken_claims (s : State) (f : Firing) (r : List (Fin 32)) : (s.slotTaken f r).claims = s.claims := rfl
@[simp] theorem State.slotTaken_window (s : State) (f : Firing) (r : List (Fin 32)) : (s.slotTaken f r).window = s.window := rfl
@[simp] theorem State.slotTaken_apbase (s : State) (f : Firing) (r : List (Fin 32)) : (s.slotTaken f r).apbase = s.apbase := rfl
@[simp] theorem State.slotTaken_sbquery (s : State) (f : Firing) (r : List (Fin 32)) : (s.slotTaken f r).sbquery = s.sbquery := rfl
@[simp] theorem State.slotTaken_pwrlim (s : State) (f : Firing) (r : List (Fin 32)) : (s.slotTaken f r).pwrlim = s.pwrlim := rfl
@[simp] theorem State.slotTaken_pwrnow (s : State) (f : Firing) (r : List (Fin 32)) : (s.slotTaken f r).pwrnow = s.pwrnow := rfl
@[simp] theorem State.slotTaken_shares (s : State) (f : Firing) (r : List (Fin 32)) : (s.slotTaken f r).shares = s.shares := rfl
@[simp] theorem State.slotTaken_pwrmir (s : State) (f : Firing) (r : List (Fin 32)) : (s.slotTaken f r).pwrmir = s.pwrmir := rfl
@[simp] theorem State.slotTaken_pwrseq (s : State) (f : Firing) (r : List (Fin 32)) : (s.slotTaken f r).pwrseq = s.pwrseq := rfl
@[simp] theorem State.slotTaken_mailboxes (s : State) (f : Firing) (r : List (Fin 32)) : (s.slotTaken f r).mailboxes = s.mailboxes := rfl
@[simp] theorem State.slotTaken_asks (s : State) (f : Firing) (r : List (Fin 32)) : (s.slotTaken f r).asks = s.asks := rfl
@[simp] theorem State.slotTaken_vectors (s : State) (f : Firing) (r : List (Fin 32)) : (s.slotTaken f r).vectors = s.vectors := rfl
@[simp] theorem State.slotTaken_answer (s : State) (f : Firing) (r : List (Fin 32)) : (s.slotTaken f r).answer = s.answer := rfl
@[simp] theorem State.slotTaken_links (s : State) (f : Firing) (r : List (Fin 32)) : (s.slotTaken f r).links = s.links := rfl
@[simp] theorem State.slotTaken_bindings (s : State) (f : Firing) (r : List (Fin 32)) : (s.slotTaken f r).bindings = s.bindings := rfl
@[simp] theorem State.slotTaken_joins (s : State) (f : Firing) (r : List (Fin 32)) : (s.slotTaken f r).joins = s.joins := rfl
@[simp] theorem State.slotTaken_rots (s : State) (f : Firing) (r : List (Fin 32)) : (s.slotTaken f r).rots = s.rots := rfl

/-! ### `State.take` -/

@[simp] theorem State.take_grade (s : State) (a : EvArg) (r : List (Instr × EvArg)) : (s.take a r).grade = s.grade := rfl
@[simp] theorem State.take_time (s : State) (a : EvArg) (r : List (Instr × EvArg)) : (s.take a r).time = s.time := rfl
@[simp] theorem State.take_free (s : State) (a : EvArg) (r : List (Instr × EvArg)) : (s.take a r).free = s.free := rfl
@[simp] theorem State.take_nextId (s : State) (a : EvArg) (r : List (Instr × EvArg)) : (s.take a r).nextId = s.nextId := rfl
@[simp] theorem State.take_inputs (s : State) (a : EvArg) (r : List (Instr × EvArg)) : (s.take a r).inputs = s.inputs := rfl
@[simp] theorem State.take_firing (s : State) (a : EvArg) (r : List (Instr × EvArg)) : (s.take a r).firing = s.firing := rfl
@[simp] theorem State.take_stations (s : State) (a : EvArg) (r : List (Instr × EvArg)) : (s.take a r).stations = s.stations := rfl
@[simp] theorem State.take_routes (s : State) (a : EvArg) (r : List (Instr × EvArg)) : (s.take a r).routes = s.routes := rfl
@[simp] theorem State.take_ports (s : State) (a : EvArg) (r : List (Instr × EvArg)) : (s.take a r).ports = s.ports := rfl
@[simp] theorem State.take_agens (s : State) (a : EvArg) (r : List (Instr × EvArg)) : (s.take a r).agens = s.agens := rfl
@[simp] theorem State.take_voyages (s : State) (a : EvArg) (r : List (Instr × EvArg)) : (s.take a r).voyages = s.voyages := rfl
@[simp] theorem State.take_launches (s : State) (a : EvArg) (r : List (Instr × EvArg)) : (s.take a r).launches = s.launches := rfl
@[simp] theorem State.take_queues (s : State) (a : EvArg) (r : List (Instr × EvArg)) : (s.take a r).queues = s.queues := rfl
@[simp] theorem State.take_reqs (s : State) (a : EvArg) (r : List (Instr × EvArg)) : (s.take a r).reqs = s.reqs := rfl
@[simp] theorem State.take_paths (s : State) (a : EvArg) (r : List (Instr × EvArg)) : (s.take a r).paths = s.paths := rfl
@[simp] theorem State.take_copies (s : State) (a : EvArg) (r : List (Instr × EvArg)) : (s.take a r).copies = s.copies := rfl
@[simp] theorem State.take_domains (s : State) (a : EvArg) (r : List (Instr × EvArg)) : (s.take a r).domains = s.domains := rfl
@[simp] theorem State.take_bars (s : State) (a : EvArg) (r : List (Instr × EvArg)) : (s.take a r).bars = s.bars := rfl
@[simp] theorem State.take_barMsgs (s : State) (a : EvArg) (r : List (Instr × EvArg)) : (s.take a r).barMsgs = s.barMsgs := rfl
@[simp] theorem State.take_tasks (s : State) (a : EvArg) (r : List (Instr × EvArg)) : (s.take a r).tasks = s.tasks := rfl
@[simp] theorem State.take_marks (s : State) (a : EvArg) (r : List (Instr × EvArg)) : (s.take a r).marks = s.marks := rfl
@[simp] theorem State.take_watermarks (s : State) (a : EvArg) (r : List (Instr × EvArg)) : (s.take a r).watermarks = s.watermarks := rfl
@[simp] theorem State.take_cells (s : State) (a : EvArg) (r : List (Instr × EvArg)) : (s.take a r).cells = s.cells := rfl
@[simp] theorem State.take_mem (s : State) (a : EvArg) (r : List (Instr × EvArg)) : (s.take a r).mem = s.mem := rfl
@[simp] theorem State.take_host (s : State) (a : EvArg) (r : List (Instr × EvArg)) : (s.take a r).host = s.host := rfl
@[simp] theorem State.take_descs (s : State) (a : EvArg) (r : List (Instr × EvArg)) : (s.take a r).descs = s.descs := rfl
@[simp] theorem State.take_roots (s : State) (a : EvArg) (r : List (Instr × EvArg)) : (s.take a r).roots = s.roots := rfl
@[simp] theorem State.take_saveBases (s : State) (a : EvArg) (r : List (Instr × EvArg)) : (s.take a r).saveBases = s.saveBases := rfl
@[simp] theorem State.take_saved (s : State) (a : EvArg) (r : List (Instr × EvArg)) : (s.take a r).saved = s.saved := rfl
@[simp] theorem State.take_l2 (s : State) (a : EvArg) (r : List (Instr × EvArg)) : (s.take a r).l2 = s.l2 := rfl
@[simp] theorem State.take_bad (s : State) (a : EvArg) (r : List (Instr × EvArg)) : (s.take a r).bad = s.bad := rfl
@[simp] theorem State.take_remap (s : State) (a : EvArg) (r : List (Instr × EvArg)) : (s.take a r).remap = s.remap := rfl
@[simp] theorem State.take_sliceOver (s : State) (a : EvArg) (r : List (Instr × EvArg)) : (s.take a r).sliceOver = s.sliceOver := rfl
@[simp] theorem State.take_dies (s : State) (a : EvArg) (r : List (Instr × EvArg)) : (s.take a r).dies = s.dies := rfl
@[simp] theorem State.take_state (s : State) (a : EvArg) (r : List (Instr × EvArg)) : (s.take a r).state = s.state := rfl
@[simp] theorem State.take_bootrsn (s : State) (a : EvArg) (r : List (Instr × EvArg)) : (s.take a r).bootrsn = s.bootrsn := rfl
@[simp] theorem State.take_failcnt (s : State) (a : EvArg) (r : List (Instr × EvArg)) : (s.take a r).failcnt = s.failcnt := rfl
@[simp] theorem State.take_boot (s : State) (a : EvArg) (r : List (Instr × EvArg)) : (s.take a r).boot = s.boot := rfl
@[simp] theorem State.take_bootTime (s : State) (a : EvArg) (r : List (Instr × EvArg)) : (s.take a r).bootTime = s.bootTime := rfl
@[simp] theorem State.take_tlboot (s : State) (a : EvArg) (r : List (Instr × EvArg)) : (s.take a r).tlboot = s.tlboot := rfl
@[simp] theorem State.take_fw (s : State) (a : EvArg) (r : List (Instr × EvArg)) : (s.take a r).fw = s.fw := rfl
@[simp] theorem State.take_log (s : State) (a : EvArg) (r : List (Instr × EvArg)) : (s.take a r).log = s.log := rfl
@[simp] theorem State.take_pilots (s : State) (a : EvArg) (r : List (Instr × EvArg)) : (s.take a r).pilots = s.pilots := rfl
@[simp] theorem State.take_arbiter (s : State) (a : EvArg) (r : List (Instr × EvArg)) : (s.take a r).arbiter = s.arbiter := rfl
@[simp] theorem State.take_owned (s : State) (a : EvArg) (r : List (Instr × EvArg)) : (s.take a r).owned = s.owned := rfl
@[simp] theorem State.take_owner (s : State) (a : EvArg) (r : List (Instr × EvArg)) : (s.take a r).owner = s.owner := rfl
@[simp] theorem State.take_herr (s : State) (a : EvArg) (r : List (Instr × EvArg)) : (s.take a r).herr = s.herr := rfl
@[simp] theorem State.take_attached (s : State) (a : EvArg) (r : List (Instr × EvArg)) : (s.take a r).attached = s.attached := rfl
@[simp] theorem State.take_claims (s : State) (a : EvArg) (r : List (Instr × EvArg)) : (s.take a r).claims = s.claims := rfl
@[simp] theorem State.take_window (s : State) (a : EvArg) (r : List (Instr × EvArg)) : (s.take a r).window = s.window := rfl
@[simp] theorem State.take_apbase (s : State) (a : EvArg) (r : List (Instr × EvArg)) : (s.take a r).apbase = s.apbase := rfl
@[simp] theorem State.take_sbquery (s : State) (a : EvArg) (r : List (Instr × EvArg)) : (s.take a r).sbquery = s.sbquery := rfl
@[simp] theorem State.take_pwrlim (s : State) (a : EvArg) (r : List (Instr × EvArg)) : (s.take a r).pwrlim = s.pwrlim := rfl
@[simp] theorem State.take_pwrnow (s : State) (a : EvArg) (r : List (Instr × EvArg)) : (s.take a r).pwrnow = s.pwrnow := rfl
@[simp] theorem State.take_shares (s : State) (a : EvArg) (r : List (Instr × EvArg)) : (s.take a r).shares = s.shares := rfl
@[simp] theorem State.take_pwrmir (s : State) (a : EvArg) (r : List (Instr × EvArg)) : (s.take a r).pwrmir = s.pwrmir := rfl
@[simp] theorem State.take_pwrseq (s : State) (a : EvArg) (r : List (Instr × EvArg)) : (s.take a r).pwrseq = s.pwrseq := rfl
@[simp] theorem State.take_mailboxes (s : State) (a : EvArg) (r : List (Instr × EvArg)) : (s.take a r).mailboxes = s.mailboxes := rfl
@[simp] theorem State.take_asks (s : State) (a : EvArg) (r : List (Instr × EvArg)) : (s.take a r).asks = s.asks := rfl
@[simp] theorem State.take_vectors (s : State) (a : EvArg) (r : List (Instr × EvArg)) : (s.take a r).vectors = s.vectors := rfl
@[simp] theorem State.take_answer (s : State) (a : EvArg) (r : List (Instr × EvArg)) : (s.take a r).answer = s.answer := rfl
@[simp] theorem State.take_links (s : State) (a : EvArg) (r : List (Instr × EvArg)) : (s.take a r).links = s.links := rfl
@[simp] theorem State.take_bindings (s : State) (a : EvArg) (r : List (Instr × EvArg)) : (s.take a r).bindings = s.bindings := rfl
@[simp] theorem State.take_joins (s : State) (a : EvArg) (r : List (Instr × EvArg)) : (s.take a r).joins = s.joins := rfl
@[simp] theorem State.take_rots (s : State) (a : EvArg) (r : List (Instr × EvArg)) : (s.take a r).rots = s.rots := rfl

/-! ### `State.setDesc` -/

@[simp] theorem State.setDesc_grade (s : State) (f w : Nat) : (s.setDesc f w).grade = s.grade := rfl
@[simp] theorem State.setDesc_time (s : State) (f w : Nat) : (s.setDesc f w).time = s.time := rfl
@[simp] theorem State.setDesc_free (s : State) (f w : Nat) : (s.setDesc f w).free = s.free := rfl
@[simp] theorem State.setDesc_nextId (s : State) (f w : Nat) : (s.setDesc f w).nextId = s.nextId := rfl
@[simp] theorem State.setDesc_agenda (s : State) (f w : Nat) : (s.setDesc f w).agenda = s.agenda := rfl
@[simp] theorem State.setDesc_ev (s : State) (f w : Nat) : (s.setDesc f w).ev = s.ev := rfl
@[simp] theorem State.setDesc_inputs (s : State) (f w : Nat) : (s.setDesc f w).inputs = s.inputs := rfl
@[simp] theorem State.setDesc_firing (s : State) (f w : Nat) : (s.setDesc f w).firing = s.firing := rfl
@[simp] theorem State.setDesc_stations (s : State) (f w : Nat) : (s.setDesc f w).stations = s.stations := rfl
@[simp] theorem State.setDesc_routes (s : State) (f w : Nat) : (s.setDesc f w).routes = s.routes := rfl
@[simp] theorem State.setDesc_ports (s : State) (f w : Nat) : (s.setDesc f w).ports = s.ports := rfl
@[simp] theorem State.setDesc_agens (s : State) (f w : Nat) : (s.setDesc f w).agens = s.agens := rfl
@[simp] theorem State.setDesc_voyages (s : State) (f w : Nat) : (s.setDesc f w).voyages = s.voyages := rfl
@[simp] theorem State.setDesc_launches (s : State) (f w : Nat) : (s.setDesc f w).launches = s.launches := rfl
@[simp] theorem State.setDesc_queues (s : State) (f w : Nat) : (s.setDesc f w).queues = s.queues := rfl
@[simp] theorem State.setDesc_reqs (s : State) (f w : Nat) : (s.setDesc f w).reqs = s.reqs := rfl
@[simp] theorem State.setDesc_paths (s : State) (f w : Nat) : (s.setDesc f w).paths = s.paths := rfl
@[simp] theorem State.setDesc_copies (s : State) (f w : Nat) : (s.setDesc f w).copies = s.copies := rfl
@[simp] theorem State.setDesc_domains (s : State) (f w : Nat) : (s.setDesc f w).domains = s.domains := rfl
@[simp] theorem State.setDesc_bars (s : State) (f w : Nat) : (s.setDesc f w).bars = s.bars := rfl
@[simp] theorem State.setDesc_barMsgs (s : State) (f w : Nat) : (s.setDesc f w).barMsgs = s.barMsgs := rfl
@[simp] theorem State.setDesc_tasks (s : State) (f w : Nat) : (s.setDesc f w).tasks = s.tasks := rfl
@[simp] theorem State.setDesc_marks (s : State) (f w : Nat) : (s.setDesc f w).marks = s.marks := rfl
@[simp] theorem State.setDesc_watermarks (s : State) (f w : Nat) : (s.setDesc f w).watermarks = s.watermarks := rfl
@[simp] theorem State.setDesc_cells (s : State) (f w : Nat) : (s.setDesc f w).cells = s.cells := rfl
@[simp] theorem State.setDesc_mem (s : State) (f w : Nat) : (s.setDesc f w).mem = s.mem := rfl
@[simp] theorem State.setDesc_host (s : State) (f w : Nat) : (s.setDesc f w).host = s.host := rfl
@[simp] theorem State.setDesc_roots (s : State) (f w : Nat) : (s.setDesc f w).roots = s.roots := rfl
@[simp] theorem State.setDesc_saveBases (s : State) (f w : Nat) : (s.setDesc f w).saveBases = s.saveBases := rfl
@[simp] theorem State.setDesc_saved (s : State) (f w : Nat) : (s.setDesc f w).saved = s.saved := rfl
@[simp] theorem State.setDesc_l2 (s : State) (f w : Nat) : (s.setDesc f w).l2 = s.l2 := rfl
@[simp] theorem State.setDesc_bad (s : State) (f w : Nat) : (s.setDesc f w).bad = s.bad := rfl
@[simp] theorem State.setDesc_remap (s : State) (f w : Nat) : (s.setDesc f w).remap = s.remap := rfl
@[simp] theorem State.setDesc_sliceOver (s : State) (f w : Nat) : (s.setDesc f w).sliceOver = s.sliceOver := rfl
@[simp] theorem State.setDesc_dies (s : State) (f w : Nat) : (s.setDesc f w).dies = s.dies := rfl
@[simp] theorem State.setDesc_state (s : State) (f w : Nat) : (s.setDesc f w).state = s.state := rfl
@[simp] theorem State.setDesc_bootrsn (s : State) (f w : Nat) : (s.setDesc f w).bootrsn = s.bootrsn := rfl
@[simp] theorem State.setDesc_failcnt (s : State) (f w : Nat) : (s.setDesc f w).failcnt = s.failcnt := rfl
@[simp] theorem State.setDesc_boot (s : State) (f w : Nat) : (s.setDesc f w).boot = s.boot := rfl
@[simp] theorem State.setDesc_bootTime (s : State) (f w : Nat) : (s.setDesc f w).bootTime = s.bootTime := rfl
@[simp] theorem State.setDesc_tlboot (s : State) (f w : Nat) : (s.setDesc f w).tlboot = s.tlboot := rfl
@[simp] theorem State.setDesc_fw (s : State) (f w : Nat) : (s.setDesc f w).fw = s.fw := rfl
@[simp] theorem State.setDesc_log (s : State) (f w : Nat) : (s.setDesc f w).log = s.log := rfl
@[simp] theorem State.setDesc_pilots (s : State) (f w : Nat) : (s.setDesc f w).pilots = s.pilots := rfl
@[simp] theorem State.setDesc_arbiter (s : State) (f w : Nat) : (s.setDesc f w).arbiter = s.arbiter := rfl
@[simp] theorem State.setDesc_owned (s : State) (f w : Nat) : (s.setDesc f w).owned = s.owned := rfl
@[simp] theorem State.setDesc_owner (s : State) (f w : Nat) : (s.setDesc f w).owner = s.owner := rfl
@[simp] theorem State.setDesc_herr (s : State) (f w : Nat) : (s.setDesc f w).herr = s.herr := rfl
@[simp] theorem State.setDesc_attached (s : State) (f w : Nat) : (s.setDesc f w).attached = s.attached := rfl
@[simp] theorem State.setDesc_claims (s : State) (f w : Nat) : (s.setDesc f w).claims = s.claims := rfl
@[simp] theorem State.setDesc_window (s : State) (f w : Nat) : (s.setDesc f w).window = s.window := rfl
@[simp] theorem State.setDesc_apbase (s : State) (f w : Nat) : (s.setDesc f w).apbase = s.apbase := rfl
@[simp] theorem State.setDesc_sbquery (s : State) (f w : Nat) : (s.setDesc f w).sbquery = s.sbquery := rfl
@[simp] theorem State.setDesc_pwrlim (s : State) (f w : Nat) : (s.setDesc f w).pwrlim = s.pwrlim := rfl
@[simp] theorem State.setDesc_pwrnow (s : State) (f w : Nat) : (s.setDesc f w).pwrnow = s.pwrnow := rfl
@[simp] theorem State.setDesc_shares (s : State) (f w : Nat) : (s.setDesc f w).shares = s.shares := rfl
@[simp] theorem State.setDesc_pwrmir (s : State) (f w : Nat) : (s.setDesc f w).pwrmir = s.pwrmir := rfl
@[simp] theorem State.setDesc_pwrseq (s : State) (f w : Nat) : (s.setDesc f w).pwrseq = s.pwrseq := rfl
@[simp] theorem State.setDesc_mailboxes (s : State) (f w : Nat) : (s.setDesc f w).mailboxes = s.mailboxes := rfl
@[simp] theorem State.setDesc_asks (s : State) (f w : Nat) : (s.setDesc f w).asks = s.asks := rfl
@[simp] theorem State.setDesc_vectors (s : State) (f w : Nat) : (s.setDesc f w).vectors = s.vectors := rfl
@[simp] theorem State.setDesc_answer (s : State) (f w : Nat) : (s.setDesc f w).answer = s.answer := rfl
@[simp] theorem State.setDesc_links (s : State) (f w : Nat) : (s.setDesc f w).links = s.links := rfl
@[simp] theorem State.setDesc_bindings (s : State) (f w : Nat) : (s.setDesc f w).bindings = s.bindings := rfl
@[simp] theorem State.setDesc_joins (s : State) (f w : Nat) : (s.setDesc f w).joins = s.joins := rfl
@[simp] theorem State.setDesc_rots (s : State) (f w : Nat) : (s.setDesc f w).rots = s.rots := rfl

/-! ### `State.modDesc` -/

@[simp] theorem State.modDesc_grade (s : State) (f : Nat) (g : Nat → Nat) : (s.modDesc f g).grade = s.grade := rfl
@[simp] theorem State.modDesc_time (s : State) (f : Nat) (g : Nat → Nat) : (s.modDesc f g).time = s.time := rfl
@[simp] theorem State.modDesc_free (s : State) (f : Nat) (g : Nat → Nat) : (s.modDesc f g).free = s.free := rfl
@[simp] theorem State.modDesc_nextId (s : State) (f : Nat) (g : Nat → Nat) : (s.modDesc f g).nextId = s.nextId := rfl
@[simp] theorem State.modDesc_agenda (s : State) (f : Nat) (g : Nat → Nat) : (s.modDesc f g).agenda = s.agenda := rfl
@[simp] theorem State.modDesc_ev (s : State) (f : Nat) (g : Nat → Nat) : (s.modDesc f g).ev = s.ev := rfl
@[simp] theorem State.modDesc_inputs (s : State) (f : Nat) (g : Nat → Nat) : (s.modDesc f g).inputs = s.inputs := rfl
@[simp] theorem State.modDesc_firing (s : State) (f : Nat) (g : Nat → Nat) : (s.modDesc f g).firing = s.firing := rfl
@[simp] theorem State.modDesc_stations (s : State) (f : Nat) (g : Nat → Nat) : (s.modDesc f g).stations = s.stations := rfl
@[simp] theorem State.modDesc_routes (s : State) (f : Nat) (g : Nat → Nat) : (s.modDesc f g).routes = s.routes := rfl
@[simp] theorem State.modDesc_ports (s : State) (f : Nat) (g : Nat → Nat) : (s.modDesc f g).ports = s.ports := rfl
@[simp] theorem State.modDesc_agens (s : State) (f : Nat) (g : Nat → Nat) : (s.modDesc f g).agens = s.agens := rfl
@[simp] theorem State.modDesc_voyages (s : State) (f : Nat) (g : Nat → Nat) : (s.modDesc f g).voyages = s.voyages := rfl
@[simp] theorem State.modDesc_launches (s : State) (f : Nat) (g : Nat → Nat) : (s.modDesc f g).launches = s.launches := rfl
@[simp] theorem State.modDesc_queues (s : State) (f : Nat) (g : Nat → Nat) : (s.modDesc f g).queues = s.queues := rfl
@[simp] theorem State.modDesc_reqs (s : State) (f : Nat) (g : Nat → Nat) : (s.modDesc f g).reqs = s.reqs := rfl
@[simp] theorem State.modDesc_paths (s : State) (f : Nat) (g : Nat → Nat) : (s.modDesc f g).paths = s.paths := rfl
@[simp] theorem State.modDesc_copies (s : State) (f : Nat) (g : Nat → Nat) : (s.modDesc f g).copies = s.copies := rfl
@[simp] theorem State.modDesc_domains (s : State) (f : Nat) (g : Nat → Nat) : (s.modDesc f g).domains = s.domains := rfl
@[simp] theorem State.modDesc_bars (s : State) (f : Nat) (g : Nat → Nat) : (s.modDesc f g).bars = s.bars := rfl
@[simp] theorem State.modDesc_barMsgs (s : State) (f : Nat) (g : Nat → Nat) : (s.modDesc f g).barMsgs = s.barMsgs := rfl
@[simp] theorem State.modDesc_tasks (s : State) (f : Nat) (g : Nat → Nat) : (s.modDesc f g).tasks = s.tasks := rfl
@[simp] theorem State.modDesc_marks (s : State) (f : Nat) (g : Nat → Nat) : (s.modDesc f g).marks = s.marks := rfl
@[simp] theorem State.modDesc_watermarks (s : State) (f : Nat) (g : Nat → Nat) : (s.modDesc f g).watermarks = s.watermarks := rfl
@[simp] theorem State.modDesc_cells (s : State) (f : Nat) (g : Nat → Nat) : (s.modDesc f g).cells = s.cells := rfl
@[simp] theorem State.modDesc_mem (s : State) (f : Nat) (g : Nat → Nat) : (s.modDesc f g).mem = s.mem := rfl
@[simp] theorem State.modDesc_host (s : State) (f : Nat) (g : Nat → Nat) : (s.modDesc f g).host = s.host := rfl
@[simp] theorem State.modDesc_roots (s : State) (f : Nat) (g : Nat → Nat) : (s.modDesc f g).roots = s.roots := rfl
@[simp] theorem State.modDesc_saveBases (s : State) (f : Nat) (g : Nat → Nat) : (s.modDesc f g).saveBases = s.saveBases := rfl
@[simp] theorem State.modDesc_saved (s : State) (f : Nat) (g : Nat → Nat) : (s.modDesc f g).saved = s.saved := rfl
@[simp] theorem State.modDesc_l2 (s : State) (f : Nat) (g : Nat → Nat) : (s.modDesc f g).l2 = s.l2 := rfl
@[simp] theorem State.modDesc_bad (s : State) (f : Nat) (g : Nat → Nat) : (s.modDesc f g).bad = s.bad := rfl
@[simp] theorem State.modDesc_remap (s : State) (f : Nat) (g : Nat → Nat) : (s.modDesc f g).remap = s.remap := rfl
@[simp] theorem State.modDesc_sliceOver (s : State) (f : Nat) (g : Nat → Nat) : (s.modDesc f g).sliceOver = s.sliceOver := rfl
@[simp] theorem State.modDesc_dies (s : State) (f : Nat) (g : Nat → Nat) : (s.modDesc f g).dies = s.dies := rfl
@[simp] theorem State.modDesc_state (s : State) (f : Nat) (g : Nat → Nat) : (s.modDesc f g).state = s.state := rfl
@[simp] theorem State.modDesc_bootrsn (s : State) (f : Nat) (g : Nat → Nat) : (s.modDesc f g).bootrsn = s.bootrsn := rfl
@[simp] theorem State.modDesc_failcnt (s : State) (f : Nat) (g : Nat → Nat) : (s.modDesc f g).failcnt = s.failcnt := rfl
@[simp] theorem State.modDesc_boot (s : State) (f : Nat) (g : Nat → Nat) : (s.modDesc f g).boot = s.boot := rfl
@[simp] theorem State.modDesc_bootTime (s : State) (f : Nat) (g : Nat → Nat) : (s.modDesc f g).bootTime = s.bootTime := rfl
@[simp] theorem State.modDesc_tlboot (s : State) (f : Nat) (g : Nat → Nat) : (s.modDesc f g).tlboot = s.tlboot := rfl
@[simp] theorem State.modDesc_fw (s : State) (f : Nat) (g : Nat → Nat) : (s.modDesc f g).fw = s.fw := rfl
@[simp] theorem State.modDesc_log (s : State) (f : Nat) (g : Nat → Nat) : (s.modDesc f g).log = s.log := rfl
@[simp] theorem State.modDesc_pilots (s : State) (f : Nat) (g : Nat → Nat) : (s.modDesc f g).pilots = s.pilots := rfl
@[simp] theorem State.modDesc_arbiter (s : State) (f : Nat) (g : Nat → Nat) : (s.modDesc f g).arbiter = s.arbiter := rfl
@[simp] theorem State.modDesc_owned (s : State) (f : Nat) (g : Nat → Nat) : (s.modDesc f g).owned = s.owned := rfl
@[simp] theorem State.modDesc_owner (s : State) (f : Nat) (g : Nat → Nat) : (s.modDesc f g).owner = s.owner := rfl
@[simp] theorem State.modDesc_herr (s : State) (f : Nat) (g : Nat → Nat) : (s.modDesc f g).herr = s.herr := rfl
@[simp] theorem State.modDesc_attached (s : State) (f : Nat) (g : Nat → Nat) : (s.modDesc f g).attached = s.attached := rfl
@[simp] theorem State.modDesc_claims (s : State) (f : Nat) (g : Nat → Nat) : (s.modDesc f g).claims = s.claims := rfl
@[simp] theorem State.modDesc_window (s : State) (f : Nat) (g : Nat → Nat) : (s.modDesc f g).window = s.window := rfl
@[simp] theorem State.modDesc_apbase (s : State) (f : Nat) (g : Nat → Nat) : (s.modDesc f g).apbase = s.apbase := rfl
@[simp] theorem State.modDesc_sbquery (s : State) (f : Nat) (g : Nat → Nat) : (s.modDesc f g).sbquery = s.sbquery := rfl
@[simp] theorem State.modDesc_pwrlim (s : State) (f : Nat) (g : Nat → Nat) : (s.modDesc f g).pwrlim = s.pwrlim := rfl
@[simp] theorem State.modDesc_pwrnow (s : State) (f : Nat) (g : Nat → Nat) : (s.modDesc f g).pwrnow = s.pwrnow := rfl
@[simp] theorem State.modDesc_shares (s : State) (f : Nat) (g : Nat → Nat) : (s.modDesc f g).shares = s.shares := rfl
@[simp] theorem State.modDesc_pwrmir (s : State) (f : Nat) (g : Nat → Nat) : (s.modDesc f g).pwrmir = s.pwrmir := rfl
@[simp] theorem State.modDesc_pwrseq (s : State) (f : Nat) (g : Nat → Nat) : (s.modDesc f g).pwrseq = s.pwrseq := rfl
@[simp] theorem State.modDesc_mailboxes (s : State) (f : Nat) (g : Nat → Nat) : (s.modDesc f g).mailboxes = s.mailboxes := rfl
@[simp] theorem State.modDesc_asks (s : State) (f : Nat) (g : Nat → Nat) : (s.modDesc f g).asks = s.asks := rfl
@[simp] theorem State.modDesc_vectors (s : State) (f : Nat) (g : Nat → Nat) : (s.modDesc f g).vectors = s.vectors := rfl
@[simp] theorem State.modDesc_answer (s : State) (f : Nat) (g : Nat → Nat) : (s.modDesc f g).answer = s.answer := rfl
@[simp] theorem State.modDesc_links (s : State) (f : Nat) (g : Nat → Nat) : (s.modDesc f g).links = s.links := rfl
@[simp] theorem State.modDesc_bindings (s : State) (f : Nat) (g : Nat → Nat) : (s.modDesc f g).bindings = s.bindings := rfl
@[simp] theorem State.modDesc_joins (s : State) (f : Nat) (g : Nat → Nat) : (s.modDesc f g).joins = s.joins := rfl
@[simp] theorem State.modDesc_rots (s : State) (f : Nat) (g : Nat → Nat) : (s.modDesc f g).rots = s.rots := rfl

/-! ### `State.shootdown` -/

@[simp] theorem State.shootdown_grade (s : State) (a : BitVec 16) (va : Nat) : (s.shootdown a va).grade = s.grade := rfl
@[simp] theorem State.shootdown_time (s : State) (a : BitVec 16) (va : Nat) : (s.shootdown a va).time = s.time := rfl
@[simp] theorem State.shootdown_free (s : State) (a : BitVec 16) (va : Nat) : (s.shootdown a va).free = s.free := rfl
@[simp] theorem State.shootdown_nextId (s : State) (a : BitVec 16) (va : Nat) : (s.shootdown a va).nextId = s.nextId := rfl
@[simp] theorem State.shootdown_agenda (s : State) (a : BitVec 16) (va : Nat) : (s.shootdown a va).agenda = s.agenda := rfl
@[simp] theorem State.shootdown_ev (s : State) (a : BitVec 16) (va : Nat) : (s.shootdown a va).ev = s.ev := rfl
@[simp] theorem State.shootdown_inputs (s : State) (a : BitVec 16) (va : Nat) : (s.shootdown a va).inputs = s.inputs := rfl
@[simp] theorem State.shootdown_firing (s : State) (a : BitVec 16) (va : Nat) : (s.shootdown a va).firing = s.firing := rfl
@[simp] theorem State.shootdown_stations (s : State) (a : BitVec 16) (va : Nat) : (s.shootdown a va).stations = s.stations := rfl
@[simp] theorem State.shootdown_routes (s : State) (a : BitVec 16) (va : Nat) : (s.shootdown a va).routes = s.routes := rfl
@[simp] theorem State.shootdown_agens (s : State) (a : BitVec 16) (va : Nat) : (s.shootdown a va).agens = s.agens := rfl
@[simp] theorem State.shootdown_voyages (s : State) (a : BitVec 16) (va : Nat) : (s.shootdown a va).voyages = s.voyages := rfl
@[simp] theorem State.shootdown_launches (s : State) (a : BitVec 16) (va : Nat) : (s.shootdown a va).launches = s.launches := rfl
@[simp] theorem State.shootdown_queues (s : State) (a : BitVec 16) (va : Nat) : (s.shootdown a va).queues = s.queues := rfl
@[simp] theorem State.shootdown_reqs (s : State) (a : BitVec 16) (va : Nat) : (s.shootdown a va).reqs = s.reqs := rfl
@[simp] theorem State.shootdown_paths (s : State) (a : BitVec 16) (va : Nat) : (s.shootdown a va).paths = s.paths := rfl
@[simp] theorem State.shootdown_copies (s : State) (a : BitVec 16) (va : Nat) : (s.shootdown a va).copies = s.copies := rfl
@[simp] theorem State.shootdown_domains (s : State) (a : BitVec 16) (va : Nat) : (s.shootdown a va).domains = s.domains := rfl
@[simp] theorem State.shootdown_bars (s : State) (a : BitVec 16) (va : Nat) : (s.shootdown a va).bars = s.bars := rfl
@[simp] theorem State.shootdown_barMsgs (s : State) (a : BitVec 16) (va : Nat) : (s.shootdown a va).barMsgs = s.barMsgs := rfl
@[simp] theorem State.shootdown_tasks (s : State) (a : BitVec 16) (va : Nat) : (s.shootdown a va).tasks = s.tasks := rfl
@[simp] theorem State.shootdown_marks (s : State) (a : BitVec 16) (va : Nat) : (s.shootdown a va).marks = s.marks := rfl
@[simp] theorem State.shootdown_watermarks (s : State) (a : BitVec 16) (va : Nat) : (s.shootdown a va).watermarks = s.watermarks := rfl
@[simp] theorem State.shootdown_cells (s : State) (a : BitVec 16) (va : Nat) : (s.shootdown a va).cells = s.cells := rfl
@[simp] theorem State.shootdown_mem (s : State) (a : BitVec 16) (va : Nat) : (s.shootdown a va).mem = s.mem := rfl
@[simp] theorem State.shootdown_host (s : State) (a : BitVec 16) (va : Nat) : (s.shootdown a va).host = s.host := rfl
@[simp] theorem State.shootdown_descs (s : State) (a : BitVec 16) (va : Nat) : (s.shootdown a va).descs = s.descs := rfl
@[simp] theorem State.shootdown_roots (s : State) (a : BitVec 16) (va : Nat) : (s.shootdown a va).roots = s.roots := rfl
@[simp] theorem State.shootdown_saveBases (s : State) (a : BitVec 16) (va : Nat) : (s.shootdown a va).saveBases = s.saveBases := rfl
@[simp] theorem State.shootdown_saved (s : State) (a : BitVec 16) (va : Nat) : (s.shootdown a va).saved = s.saved := rfl
@[simp] theorem State.shootdown_l2 (s : State) (a : BitVec 16) (va : Nat) : (s.shootdown a va).l2 = s.l2 := rfl
@[simp] theorem State.shootdown_bad (s : State) (a : BitVec 16) (va : Nat) : (s.shootdown a va).bad = s.bad := rfl
@[simp] theorem State.shootdown_remap (s : State) (a : BitVec 16) (va : Nat) : (s.shootdown a va).remap = s.remap := rfl
@[simp] theorem State.shootdown_sliceOver (s : State) (a : BitVec 16) (va : Nat) : (s.shootdown a va).sliceOver = s.sliceOver := rfl
@[simp] theorem State.shootdown_dies (s : State) (a : BitVec 16) (va : Nat) : (s.shootdown a va).dies = s.dies := rfl
@[simp] theorem State.shootdown_state (s : State) (a : BitVec 16) (va : Nat) : (s.shootdown a va).state = s.state := rfl
@[simp] theorem State.shootdown_bootrsn (s : State) (a : BitVec 16) (va : Nat) : (s.shootdown a va).bootrsn = s.bootrsn := rfl
@[simp] theorem State.shootdown_failcnt (s : State) (a : BitVec 16) (va : Nat) : (s.shootdown a va).failcnt = s.failcnt := rfl
@[simp] theorem State.shootdown_boot (s : State) (a : BitVec 16) (va : Nat) : (s.shootdown a va).boot = s.boot := rfl
@[simp] theorem State.shootdown_bootTime (s : State) (a : BitVec 16) (va : Nat) : (s.shootdown a va).bootTime = s.bootTime := rfl
@[simp] theorem State.shootdown_tlboot (s : State) (a : BitVec 16) (va : Nat) : (s.shootdown a va).tlboot = s.tlboot := rfl
@[simp] theorem State.shootdown_fw (s : State) (a : BitVec 16) (va : Nat) : (s.shootdown a va).fw = s.fw := rfl
@[simp] theorem State.shootdown_log (s : State) (a : BitVec 16) (va : Nat) : (s.shootdown a va).log = s.log := rfl
@[simp] theorem State.shootdown_pilots (s : State) (a : BitVec 16) (va : Nat) : (s.shootdown a va).pilots = s.pilots := rfl
@[simp] theorem State.shootdown_arbiter (s : State) (a : BitVec 16) (va : Nat) : (s.shootdown a va).arbiter = s.arbiter := rfl
@[simp] theorem State.shootdown_owned (s : State) (a : BitVec 16) (va : Nat) : (s.shootdown a va).owned = s.owned := rfl
@[simp] theorem State.shootdown_owner (s : State) (a : BitVec 16) (va : Nat) : (s.shootdown a va).owner = s.owner := rfl
@[simp] theorem State.shootdown_herr (s : State) (a : BitVec 16) (va : Nat) : (s.shootdown a va).herr = s.herr := rfl
@[simp] theorem State.shootdown_attached (s : State) (a : BitVec 16) (va : Nat) : (s.shootdown a va).attached = s.attached := rfl
@[simp] theorem State.shootdown_claims (s : State) (a : BitVec 16) (va : Nat) : (s.shootdown a va).claims = s.claims := rfl
@[simp] theorem State.shootdown_window (s : State) (a : BitVec 16) (va : Nat) : (s.shootdown a va).window = s.window := rfl
@[simp] theorem State.shootdown_apbase (s : State) (a : BitVec 16) (va : Nat) : (s.shootdown a va).apbase = s.apbase := rfl
@[simp] theorem State.shootdown_sbquery (s : State) (a : BitVec 16) (va : Nat) : (s.shootdown a va).sbquery = s.sbquery := rfl
@[simp] theorem State.shootdown_pwrlim (s : State) (a : BitVec 16) (va : Nat) : (s.shootdown a va).pwrlim = s.pwrlim := rfl
@[simp] theorem State.shootdown_pwrnow (s : State) (a : BitVec 16) (va : Nat) : (s.shootdown a va).pwrnow = s.pwrnow := rfl
@[simp] theorem State.shootdown_shares (s : State) (a : BitVec 16) (va : Nat) : (s.shootdown a va).shares = s.shares := rfl
@[simp] theorem State.shootdown_pwrmir (s : State) (a : BitVec 16) (va : Nat) : (s.shootdown a va).pwrmir = s.pwrmir := rfl
@[simp] theorem State.shootdown_pwrseq (s : State) (a : BitVec 16) (va : Nat) : (s.shootdown a va).pwrseq = s.pwrseq := rfl
@[simp] theorem State.shootdown_mailboxes (s : State) (a : BitVec 16) (va : Nat) : (s.shootdown a va).mailboxes = s.mailboxes := rfl
@[simp] theorem State.shootdown_asks (s : State) (a : BitVec 16) (va : Nat) : (s.shootdown a va).asks = s.asks := rfl
@[simp] theorem State.shootdown_vectors (s : State) (a : BitVec 16) (va : Nat) : (s.shootdown a va).vectors = s.vectors := rfl
@[simp] theorem State.shootdown_answer (s : State) (a : BitVec 16) (va : Nat) : (s.shootdown a va).answer = s.answer := rfl
@[simp] theorem State.shootdown_links (s : State) (a : BitVec 16) (va : Nat) : (s.shootdown a va).links = s.links := rfl
@[simp] theorem State.shootdown_bindings (s : State) (a : BitVec 16) (va : Nat) : (s.shootdown a va).bindings = s.bindings := rfl
@[simp] theorem State.shootdown_joins (s : State) (a : BitVec 16) (va : Nat) : (s.shootdown a va).joins = s.joins := rfl
@[simp] theorem State.shootdown_rots (s : State) (a : BitVec 16) (va : Nat) : (s.shootdown a va).rots = s.rots := rfl

/-! ### `State.modReq` -/

@[simp] theorem State.modReq_grade (s : State) (n : Nat) (f : Req → Req) : (s.modReq n f).grade = s.grade := rfl
@[simp] theorem State.modReq_time (s : State) (n : Nat) (f : Req → Req) : (s.modReq n f).time = s.time := rfl
@[simp] theorem State.modReq_free (s : State) (n : Nat) (f : Req → Req) : (s.modReq n f).free = s.free := rfl
@[simp] theorem State.modReq_nextId (s : State) (n : Nat) (f : Req → Req) : (s.modReq n f).nextId = s.nextId := rfl
@[simp] theorem State.modReq_agenda (s : State) (n : Nat) (f : Req → Req) : (s.modReq n f).agenda = s.agenda := rfl
@[simp] theorem State.modReq_ev (s : State) (n : Nat) (f : Req → Req) : (s.modReq n f).ev = s.ev := rfl
@[simp] theorem State.modReq_inputs (s : State) (n : Nat) (f : Req → Req) : (s.modReq n f).inputs = s.inputs := rfl
@[simp] theorem State.modReq_firing (s : State) (n : Nat) (f : Req → Req) : (s.modReq n f).firing = s.firing := rfl
@[simp] theorem State.modReq_stations (s : State) (n : Nat) (f : Req → Req) : (s.modReq n f).stations = s.stations := rfl
@[simp] theorem State.modReq_routes (s : State) (n : Nat) (f : Req → Req) : (s.modReq n f).routes = s.routes := rfl
@[simp] theorem State.modReq_ports (s : State) (n : Nat) (f : Req → Req) : (s.modReq n f).ports = s.ports := rfl
@[simp] theorem State.modReq_agens (s : State) (n : Nat) (f : Req → Req) : (s.modReq n f).agens = s.agens := rfl
@[simp] theorem State.modReq_voyages (s : State) (n : Nat) (f : Req → Req) : (s.modReq n f).voyages = s.voyages := rfl
@[simp] theorem State.modReq_launches (s : State) (n : Nat) (f : Req → Req) : (s.modReq n f).launches = s.launches := rfl
@[simp] theorem State.modReq_queues (s : State) (n : Nat) (f : Req → Req) : (s.modReq n f).queues = s.queues := rfl
@[simp] theorem State.modReq_paths (s : State) (n : Nat) (f : Req → Req) : (s.modReq n f).paths = s.paths := rfl
@[simp] theorem State.modReq_copies (s : State) (n : Nat) (f : Req → Req) : (s.modReq n f).copies = s.copies := rfl
@[simp] theorem State.modReq_domains (s : State) (n : Nat) (f : Req → Req) : (s.modReq n f).domains = s.domains := rfl
@[simp] theorem State.modReq_bars (s : State) (n : Nat) (f : Req → Req) : (s.modReq n f).bars = s.bars := rfl
@[simp] theorem State.modReq_barMsgs (s : State) (n : Nat) (f : Req → Req) : (s.modReq n f).barMsgs = s.barMsgs := rfl
@[simp] theorem State.modReq_tasks (s : State) (n : Nat) (f : Req → Req) : (s.modReq n f).tasks = s.tasks := rfl
@[simp] theorem State.modReq_marks (s : State) (n : Nat) (f : Req → Req) : (s.modReq n f).marks = s.marks := rfl
@[simp] theorem State.modReq_watermarks (s : State) (n : Nat) (f : Req → Req) : (s.modReq n f).watermarks = s.watermarks := rfl
@[simp] theorem State.modReq_cells (s : State) (n : Nat) (f : Req → Req) : (s.modReq n f).cells = s.cells := rfl
@[simp] theorem State.modReq_mem (s : State) (n : Nat) (f : Req → Req) : (s.modReq n f).mem = s.mem := rfl
@[simp] theorem State.modReq_host (s : State) (n : Nat) (f : Req → Req) : (s.modReq n f).host = s.host := rfl
@[simp] theorem State.modReq_descs (s : State) (n : Nat) (f : Req → Req) : (s.modReq n f).descs = s.descs := rfl
@[simp] theorem State.modReq_roots (s : State) (n : Nat) (f : Req → Req) : (s.modReq n f).roots = s.roots := rfl
@[simp] theorem State.modReq_saveBases (s : State) (n : Nat) (f : Req → Req) : (s.modReq n f).saveBases = s.saveBases := rfl
@[simp] theorem State.modReq_saved (s : State) (n : Nat) (f : Req → Req) : (s.modReq n f).saved = s.saved := rfl
@[simp] theorem State.modReq_l2 (s : State) (n : Nat) (f : Req → Req) : (s.modReq n f).l2 = s.l2 := rfl
@[simp] theorem State.modReq_bad (s : State) (n : Nat) (f : Req → Req) : (s.modReq n f).bad = s.bad := rfl
@[simp] theorem State.modReq_remap (s : State) (n : Nat) (f : Req → Req) : (s.modReq n f).remap = s.remap := rfl
@[simp] theorem State.modReq_sliceOver (s : State) (n : Nat) (f : Req → Req) : (s.modReq n f).sliceOver = s.sliceOver := rfl
@[simp] theorem State.modReq_dies (s : State) (n : Nat) (f : Req → Req) : (s.modReq n f).dies = s.dies := rfl
@[simp] theorem State.modReq_state (s : State) (n : Nat) (f : Req → Req) : (s.modReq n f).state = s.state := rfl
@[simp] theorem State.modReq_bootrsn (s : State) (n : Nat) (f : Req → Req) : (s.modReq n f).bootrsn = s.bootrsn := rfl
@[simp] theorem State.modReq_failcnt (s : State) (n : Nat) (f : Req → Req) : (s.modReq n f).failcnt = s.failcnt := rfl
@[simp] theorem State.modReq_boot (s : State) (n : Nat) (f : Req → Req) : (s.modReq n f).boot = s.boot := rfl
@[simp] theorem State.modReq_bootTime (s : State) (n : Nat) (f : Req → Req) : (s.modReq n f).bootTime = s.bootTime := rfl
@[simp] theorem State.modReq_tlboot (s : State) (n : Nat) (f : Req → Req) : (s.modReq n f).tlboot = s.tlboot := rfl
@[simp] theorem State.modReq_fw (s : State) (n : Nat) (f : Req → Req) : (s.modReq n f).fw = s.fw := rfl
@[simp] theorem State.modReq_log (s : State) (n : Nat) (f : Req → Req) : (s.modReq n f).log = s.log := rfl
@[simp] theorem State.modReq_pilots (s : State) (n : Nat) (f : Req → Req) : (s.modReq n f).pilots = s.pilots := rfl
@[simp] theorem State.modReq_arbiter (s : State) (n : Nat) (f : Req → Req) : (s.modReq n f).arbiter = s.arbiter := rfl
@[simp] theorem State.modReq_owned (s : State) (n : Nat) (f : Req → Req) : (s.modReq n f).owned = s.owned := rfl
@[simp] theorem State.modReq_owner (s : State) (n : Nat) (f : Req → Req) : (s.modReq n f).owner = s.owner := rfl
@[simp] theorem State.modReq_herr (s : State) (n : Nat) (f : Req → Req) : (s.modReq n f).herr = s.herr := rfl
@[simp] theorem State.modReq_attached (s : State) (n : Nat) (f : Req → Req) : (s.modReq n f).attached = s.attached := rfl
@[simp] theorem State.modReq_claims (s : State) (n : Nat) (f : Req → Req) : (s.modReq n f).claims = s.claims := rfl
@[simp] theorem State.modReq_window (s : State) (n : Nat) (f : Req → Req) : (s.modReq n f).window = s.window := rfl
@[simp] theorem State.modReq_apbase (s : State) (n : Nat) (f : Req → Req) : (s.modReq n f).apbase = s.apbase := rfl
@[simp] theorem State.modReq_sbquery (s : State) (n : Nat) (f : Req → Req) : (s.modReq n f).sbquery = s.sbquery := rfl
@[simp] theorem State.modReq_pwrlim (s : State) (n : Nat) (f : Req → Req) : (s.modReq n f).pwrlim = s.pwrlim := rfl
@[simp] theorem State.modReq_pwrnow (s : State) (n : Nat) (f : Req → Req) : (s.modReq n f).pwrnow = s.pwrnow := rfl
@[simp] theorem State.modReq_shares (s : State) (n : Nat) (f : Req → Req) : (s.modReq n f).shares = s.shares := rfl
@[simp] theorem State.modReq_pwrmir (s : State) (n : Nat) (f : Req → Req) : (s.modReq n f).pwrmir = s.pwrmir := rfl
@[simp] theorem State.modReq_pwrseq (s : State) (n : Nat) (f : Req → Req) : (s.modReq n f).pwrseq = s.pwrseq := rfl
@[simp] theorem State.modReq_mailboxes (s : State) (n : Nat) (f : Req → Req) : (s.modReq n f).mailboxes = s.mailboxes := rfl
@[simp] theorem State.modReq_asks (s : State) (n : Nat) (f : Req → Req) : (s.modReq n f).asks = s.asks := rfl
@[simp] theorem State.modReq_vectors (s : State) (n : Nat) (f : Req → Req) : (s.modReq n f).vectors = s.vectors := rfl
@[simp] theorem State.modReq_answer (s : State) (n : Nat) (f : Req → Req) : (s.modReq n f).answer = s.answer := rfl
@[simp] theorem State.modReq_links (s : State) (n : Nat) (f : Req → Req) : (s.modReq n f).links = s.links := rfl
@[simp] theorem State.modReq_bindings (s : State) (n : Nat) (f : Req → Req) : (s.modReq n f).bindings = s.bindings := rfl
@[simp] theorem State.modReq_joins (s : State) (n : Nat) (f : Req → Req) : (s.modReq n f).joins = s.joins := rfl
@[simp] theorem State.modReq_rots (s : State) (n : Nat) (f : Req → Req) : (s.modReq n f).rots = s.rots := rfl

/-! ### `State.dropReq` -/

@[simp] theorem State.dropReq_grade (s : State) (n : Nat) : (s.dropReq n).grade = s.grade := rfl
@[simp] theorem State.dropReq_time (s : State) (n : Nat) : (s.dropReq n).time = s.time := rfl
@[simp] theorem State.dropReq_free (s : State) (n : Nat) : (s.dropReq n).free = s.free := rfl
@[simp] theorem State.dropReq_nextId (s : State) (n : Nat) : (s.dropReq n).nextId = s.nextId := rfl
@[simp] theorem State.dropReq_agenda (s : State) (n : Nat) : (s.dropReq n).agenda = s.agenda := rfl
@[simp] theorem State.dropReq_ev (s : State) (n : Nat) : (s.dropReq n).ev = s.ev := rfl
@[simp] theorem State.dropReq_inputs (s : State) (n : Nat) : (s.dropReq n).inputs = s.inputs := rfl
@[simp] theorem State.dropReq_firing (s : State) (n : Nat) : (s.dropReq n).firing = s.firing := rfl
@[simp] theorem State.dropReq_stations (s : State) (n : Nat) : (s.dropReq n).stations = s.stations := rfl
@[simp] theorem State.dropReq_routes (s : State) (n : Nat) : (s.dropReq n).routes = s.routes := rfl
@[simp] theorem State.dropReq_ports (s : State) (n : Nat) : (s.dropReq n).ports = s.ports := rfl
@[simp] theorem State.dropReq_agens (s : State) (n : Nat) : (s.dropReq n).agens = s.agens := rfl
@[simp] theorem State.dropReq_voyages (s : State) (n : Nat) : (s.dropReq n).voyages = s.voyages := rfl
@[simp] theorem State.dropReq_launches (s : State) (n : Nat) : (s.dropReq n).launches = s.launches := rfl
@[simp] theorem State.dropReq_queues (s : State) (n : Nat) : (s.dropReq n).queues = s.queues := rfl
@[simp] theorem State.dropReq_paths (s : State) (n : Nat) : (s.dropReq n).paths = s.paths := rfl
@[simp] theorem State.dropReq_copies (s : State) (n : Nat) : (s.dropReq n).copies = s.copies := rfl
@[simp] theorem State.dropReq_domains (s : State) (n : Nat) : (s.dropReq n).domains = s.domains := rfl
@[simp] theorem State.dropReq_bars (s : State) (n : Nat) : (s.dropReq n).bars = s.bars := rfl
@[simp] theorem State.dropReq_barMsgs (s : State) (n : Nat) : (s.dropReq n).barMsgs = s.barMsgs := rfl
@[simp] theorem State.dropReq_tasks (s : State) (n : Nat) : (s.dropReq n).tasks = s.tasks := rfl
@[simp] theorem State.dropReq_marks (s : State) (n : Nat) : (s.dropReq n).marks = s.marks := rfl
@[simp] theorem State.dropReq_watermarks (s : State) (n : Nat) : (s.dropReq n).watermarks = s.watermarks := rfl
@[simp] theorem State.dropReq_cells (s : State) (n : Nat) : (s.dropReq n).cells = s.cells := rfl
@[simp] theorem State.dropReq_mem (s : State) (n : Nat) : (s.dropReq n).mem = s.mem := rfl
@[simp] theorem State.dropReq_host (s : State) (n : Nat) : (s.dropReq n).host = s.host := rfl
@[simp] theorem State.dropReq_descs (s : State) (n : Nat) : (s.dropReq n).descs = s.descs := rfl
@[simp] theorem State.dropReq_roots (s : State) (n : Nat) : (s.dropReq n).roots = s.roots := rfl
@[simp] theorem State.dropReq_saveBases (s : State) (n : Nat) : (s.dropReq n).saveBases = s.saveBases := rfl
@[simp] theorem State.dropReq_saved (s : State) (n : Nat) : (s.dropReq n).saved = s.saved := rfl
@[simp] theorem State.dropReq_l2 (s : State) (n : Nat) : (s.dropReq n).l2 = s.l2 := rfl
@[simp] theorem State.dropReq_bad (s : State) (n : Nat) : (s.dropReq n).bad = s.bad := rfl
@[simp] theorem State.dropReq_remap (s : State) (n : Nat) : (s.dropReq n).remap = s.remap := rfl
@[simp] theorem State.dropReq_sliceOver (s : State) (n : Nat) : (s.dropReq n).sliceOver = s.sliceOver := rfl
@[simp] theorem State.dropReq_dies (s : State) (n : Nat) : (s.dropReq n).dies = s.dies := rfl
@[simp] theorem State.dropReq_state (s : State) (n : Nat) : (s.dropReq n).state = s.state := rfl
@[simp] theorem State.dropReq_bootrsn (s : State) (n : Nat) : (s.dropReq n).bootrsn = s.bootrsn := rfl
@[simp] theorem State.dropReq_failcnt (s : State) (n : Nat) : (s.dropReq n).failcnt = s.failcnt := rfl
@[simp] theorem State.dropReq_boot (s : State) (n : Nat) : (s.dropReq n).boot = s.boot := rfl
@[simp] theorem State.dropReq_bootTime (s : State) (n : Nat) : (s.dropReq n).bootTime = s.bootTime := rfl
@[simp] theorem State.dropReq_tlboot (s : State) (n : Nat) : (s.dropReq n).tlboot = s.tlboot := rfl
@[simp] theorem State.dropReq_fw (s : State) (n : Nat) : (s.dropReq n).fw = s.fw := rfl
@[simp] theorem State.dropReq_log (s : State) (n : Nat) : (s.dropReq n).log = s.log := rfl
@[simp] theorem State.dropReq_pilots (s : State) (n : Nat) : (s.dropReq n).pilots = s.pilots := rfl
@[simp] theorem State.dropReq_arbiter (s : State) (n : Nat) : (s.dropReq n).arbiter = s.arbiter := rfl
@[simp] theorem State.dropReq_owned (s : State) (n : Nat) : (s.dropReq n).owned = s.owned := rfl
@[simp] theorem State.dropReq_owner (s : State) (n : Nat) : (s.dropReq n).owner = s.owner := rfl
@[simp] theorem State.dropReq_herr (s : State) (n : Nat) : (s.dropReq n).herr = s.herr := rfl
@[simp] theorem State.dropReq_attached (s : State) (n : Nat) : (s.dropReq n).attached = s.attached := rfl
@[simp] theorem State.dropReq_claims (s : State) (n : Nat) : (s.dropReq n).claims = s.claims := rfl
@[simp] theorem State.dropReq_window (s : State) (n : Nat) : (s.dropReq n).window = s.window := rfl
@[simp] theorem State.dropReq_apbase (s : State) (n : Nat) : (s.dropReq n).apbase = s.apbase := rfl
@[simp] theorem State.dropReq_sbquery (s : State) (n : Nat) : (s.dropReq n).sbquery = s.sbquery := rfl
@[simp] theorem State.dropReq_pwrlim (s : State) (n : Nat) : (s.dropReq n).pwrlim = s.pwrlim := rfl
@[simp] theorem State.dropReq_pwrnow (s : State) (n : Nat) : (s.dropReq n).pwrnow = s.pwrnow := rfl
@[simp] theorem State.dropReq_shares (s : State) (n : Nat) : (s.dropReq n).shares = s.shares := rfl
@[simp] theorem State.dropReq_pwrmir (s : State) (n : Nat) : (s.dropReq n).pwrmir = s.pwrmir := rfl
@[simp] theorem State.dropReq_pwrseq (s : State) (n : Nat) : (s.dropReq n).pwrseq = s.pwrseq := rfl
@[simp] theorem State.dropReq_mailboxes (s : State) (n : Nat) : (s.dropReq n).mailboxes = s.mailboxes := rfl
@[simp] theorem State.dropReq_asks (s : State) (n : Nat) : (s.dropReq n).asks = s.asks := rfl
@[simp] theorem State.dropReq_vectors (s : State) (n : Nat) : (s.dropReq n).vectors = s.vectors := rfl
@[simp] theorem State.dropReq_answer (s : State) (n : Nat) : (s.dropReq n).answer = s.answer := rfl
@[simp] theorem State.dropReq_links (s : State) (n : Nat) : (s.dropReq n).links = s.links := rfl
@[simp] theorem State.dropReq_bindings (s : State) (n : Nat) : (s.dropReq n).bindings = s.bindings := rfl
@[simp] theorem State.dropReq_joins (s : State) (n : Nat) : (s.dropReq n).joins = s.joins := rfl
@[simp] theorem State.dropReq_rots (s : State) (n : Nat) : (s.dropReq n).rots = s.rots := rfl

/-! ### `State.modDomain` -/

@[simp] theorem State.modDomain_grade (s : State) (q : Req) (f : Domain → Domain) : (s.modDomain q f).grade = s.grade := rfl
@[simp] theorem State.modDomain_time (s : State) (q : Req) (f : Domain → Domain) : (s.modDomain q f).time = s.time := rfl
@[simp] theorem State.modDomain_free (s : State) (q : Req) (f : Domain → Domain) : (s.modDomain q f).free = s.free := rfl
@[simp] theorem State.modDomain_nextId (s : State) (q : Req) (f : Domain → Domain) : (s.modDomain q f).nextId = s.nextId := rfl
@[simp] theorem State.modDomain_agenda (s : State) (q : Req) (f : Domain → Domain) : (s.modDomain q f).agenda = s.agenda := rfl
@[simp] theorem State.modDomain_ev (s : State) (q : Req) (f : Domain → Domain) : (s.modDomain q f).ev = s.ev := rfl
@[simp] theorem State.modDomain_inputs (s : State) (q : Req) (f : Domain → Domain) : (s.modDomain q f).inputs = s.inputs := rfl
@[simp] theorem State.modDomain_firing (s : State) (q : Req) (f : Domain → Domain) : (s.modDomain q f).firing = s.firing := rfl
@[simp] theorem State.modDomain_stations (s : State) (q : Req) (f : Domain → Domain) : (s.modDomain q f).stations = s.stations := rfl
@[simp] theorem State.modDomain_routes (s : State) (q : Req) (f : Domain → Domain) : (s.modDomain q f).routes = s.routes := rfl
@[simp] theorem State.modDomain_ports (s : State) (q : Req) (f : Domain → Domain) : (s.modDomain q f).ports = s.ports := rfl
@[simp] theorem State.modDomain_agens (s : State) (q : Req) (f : Domain → Domain) : (s.modDomain q f).agens = s.agens := rfl
@[simp] theorem State.modDomain_voyages (s : State) (q : Req) (f : Domain → Domain) : (s.modDomain q f).voyages = s.voyages := rfl
@[simp] theorem State.modDomain_launches (s : State) (q : Req) (f : Domain → Domain) : (s.modDomain q f).launches = s.launches := rfl
@[simp] theorem State.modDomain_queues (s : State) (q : Req) (f : Domain → Domain) : (s.modDomain q f).queues = s.queues := rfl
@[simp] theorem State.modDomain_reqs (s : State) (q : Req) (f : Domain → Domain) : (s.modDomain q f).reqs = s.reqs := rfl
@[simp] theorem State.modDomain_paths (s : State) (q : Req) (f : Domain → Domain) : (s.modDomain q f).paths = s.paths := rfl
@[simp] theorem State.modDomain_copies (s : State) (q : Req) (f : Domain → Domain) : (s.modDomain q f).copies = s.copies := rfl
@[simp] theorem State.modDomain_bars (s : State) (q : Req) (f : Domain → Domain) : (s.modDomain q f).bars = s.bars := rfl
@[simp] theorem State.modDomain_barMsgs (s : State) (q : Req) (f : Domain → Domain) : (s.modDomain q f).barMsgs = s.barMsgs := rfl
@[simp] theorem State.modDomain_tasks (s : State) (q : Req) (f : Domain → Domain) : (s.modDomain q f).tasks = s.tasks := rfl
@[simp] theorem State.modDomain_marks (s : State) (q : Req) (f : Domain → Domain) : (s.modDomain q f).marks = s.marks := rfl
@[simp] theorem State.modDomain_watermarks (s : State) (q : Req) (f : Domain → Domain) : (s.modDomain q f).watermarks = s.watermarks := rfl
@[simp] theorem State.modDomain_cells (s : State) (q : Req) (f : Domain → Domain) : (s.modDomain q f).cells = s.cells := rfl
@[simp] theorem State.modDomain_mem (s : State) (q : Req) (f : Domain → Domain) : (s.modDomain q f).mem = s.mem := rfl
@[simp] theorem State.modDomain_host (s : State) (q : Req) (f : Domain → Domain) : (s.modDomain q f).host = s.host := rfl
@[simp] theorem State.modDomain_descs (s : State) (q : Req) (f : Domain → Domain) : (s.modDomain q f).descs = s.descs := rfl
@[simp] theorem State.modDomain_roots (s : State) (q : Req) (f : Domain → Domain) : (s.modDomain q f).roots = s.roots := rfl
@[simp] theorem State.modDomain_saveBases (s : State) (q : Req) (f : Domain → Domain) : (s.modDomain q f).saveBases = s.saveBases := rfl
@[simp] theorem State.modDomain_saved (s : State) (q : Req) (f : Domain → Domain) : (s.modDomain q f).saved = s.saved := rfl
@[simp] theorem State.modDomain_l2 (s : State) (q : Req) (f : Domain → Domain) : (s.modDomain q f).l2 = s.l2 := rfl
@[simp] theorem State.modDomain_bad (s : State) (q : Req) (f : Domain → Domain) : (s.modDomain q f).bad = s.bad := rfl
@[simp] theorem State.modDomain_remap (s : State) (q : Req) (f : Domain → Domain) : (s.modDomain q f).remap = s.remap := rfl
@[simp] theorem State.modDomain_sliceOver (s : State) (q : Req) (f : Domain → Domain) : (s.modDomain q f).sliceOver = s.sliceOver := rfl
@[simp] theorem State.modDomain_dies (s : State) (q : Req) (f : Domain → Domain) : (s.modDomain q f).dies = s.dies := rfl
@[simp] theorem State.modDomain_state (s : State) (q : Req) (f : Domain → Domain) : (s.modDomain q f).state = s.state := rfl
@[simp] theorem State.modDomain_bootrsn (s : State) (q : Req) (f : Domain → Domain) : (s.modDomain q f).bootrsn = s.bootrsn := rfl
@[simp] theorem State.modDomain_failcnt (s : State) (q : Req) (f : Domain → Domain) : (s.modDomain q f).failcnt = s.failcnt := rfl
@[simp] theorem State.modDomain_boot (s : State) (q : Req) (f : Domain → Domain) : (s.modDomain q f).boot = s.boot := rfl
@[simp] theorem State.modDomain_bootTime (s : State) (q : Req) (f : Domain → Domain) : (s.modDomain q f).bootTime = s.bootTime := rfl
@[simp] theorem State.modDomain_tlboot (s : State) (q : Req) (f : Domain → Domain) : (s.modDomain q f).tlboot = s.tlboot := rfl
@[simp] theorem State.modDomain_fw (s : State) (q : Req) (f : Domain → Domain) : (s.modDomain q f).fw = s.fw := rfl
@[simp] theorem State.modDomain_log (s : State) (q : Req) (f : Domain → Domain) : (s.modDomain q f).log = s.log := rfl
@[simp] theorem State.modDomain_pilots (s : State) (q : Req) (f : Domain → Domain) : (s.modDomain q f).pilots = s.pilots := rfl
@[simp] theorem State.modDomain_arbiter (s : State) (q : Req) (f : Domain → Domain) : (s.modDomain q f).arbiter = s.arbiter := rfl
@[simp] theorem State.modDomain_owned (s : State) (q : Req) (f : Domain → Domain) : (s.modDomain q f).owned = s.owned := rfl
@[simp] theorem State.modDomain_owner (s : State) (q : Req) (f : Domain → Domain) : (s.modDomain q f).owner = s.owner := rfl
@[simp] theorem State.modDomain_herr (s : State) (q : Req) (f : Domain → Domain) : (s.modDomain q f).herr = s.herr := rfl
@[simp] theorem State.modDomain_attached (s : State) (q : Req) (f : Domain → Domain) : (s.modDomain q f).attached = s.attached := rfl
@[simp] theorem State.modDomain_claims (s : State) (q : Req) (f : Domain → Domain) : (s.modDomain q f).claims = s.claims := rfl
@[simp] theorem State.modDomain_window (s : State) (q : Req) (f : Domain → Domain) : (s.modDomain q f).window = s.window := rfl
@[simp] theorem State.modDomain_apbase (s : State) (q : Req) (f : Domain → Domain) : (s.modDomain q f).apbase = s.apbase := rfl
@[simp] theorem State.modDomain_sbquery (s : State) (q : Req) (f : Domain → Domain) : (s.modDomain q f).sbquery = s.sbquery := rfl
@[simp] theorem State.modDomain_pwrlim (s : State) (q : Req) (f : Domain → Domain) : (s.modDomain q f).pwrlim = s.pwrlim := rfl
@[simp] theorem State.modDomain_pwrnow (s : State) (q : Req) (f : Domain → Domain) : (s.modDomain q f).pwrnow = s.pwrnow := rfl
@[simp] theorem State.modDomain_shares (s : State) (q : Req) (f : Domain → Domain) : (s.modDomain q f).shares = s.shares := rfl
@[simp] theorem State.modDomain_pwrmir (s : State) (q : Req) (f : Domain → Domain) : (s.modDomain q f).pwrmir = s.pwrmir := rfl
@[simp] theorem State.modDomain_pwrseq (s : State) (q : Req) (f : Domain → Domain) : (s.modDomain q f).pwrseq = s.pwrseq := rfl
@[simp] theorem State.modDomain_mailboxes (s : State) (q : Req) (f : Domain → Domain) : (s.modDomain q f).mailboxes = s.mailboxes := rfl
@[simp] theorem State.modDomain_asks (s : State) (q : Req) (f : Domain → Domain) : (s.modDomain q f).asks = s.asks := rfl
@[simp] theorem State.modDomain_vectors (s : State) (q : Req) (f : Domain → Domain) : (s.modDomain q f).vectors = s.vectors := rfl
@[simp] theorem State.modDomain_answer (s : State) (q : Req) (f : Domain → Domain) : (s.modDomain q f).answer = s.answer := rfl
@[simp] theorem State.modDomain_links (s : State) (q : Req) (f : Domain → Domain) : (s.modDomain q f).links = s.links := rfl
@[simp] theorem State.modDomain_bindings (s : State) (q : Req) (f : Domain → Domain) : (s.modDomain q f).bindings = s.bindings := rfl
@[simp] theorem State.modDomain_joins (s : State) (q : Req) (f : Domain → Domain) : (s.modDomain q f).joins = s.joins := rfl
@[simp] theorem State.modDomain_rots (s : State) (q : Req) (f : Domain → Domain) : (s.modDomain q f).rots = s.rots := rfl

/-! ### `State.modCopy` -/

@[simp] theorem State.modCopy_grade (s : State) (n : Nat) (f : Copy → Copy) : (s.modCopy n f).grade = s.grade := rfl
@[simp] theorem State.modCopy_time (s : State) (n : Nat) (f : Copy → Copy) : (s.modCopy n f).time = s.time := rfl
@[simp] theorem State.modCopy_free (s : State) (n : Nat) (f : Copy → Copy) : (s.modCopy n f).free = s.free := rfl
@[simp] theorem State.modCopy_nextId (s : State) (n : Nat) (f : Copy → Copy) : (s.modCopy n f).nextId = s.nextId := rfl
@[simp] theorem State.modCopy_agenda (s : State) (n : Nat) (f : Copy → Copy) : (s.modCopy n f).agenda = s.agenda := rfl
@[simp] theorem State.modCopy_ev (s : State) (n : Nat) (f : Copy → Copy) : (s.modCopy n f).ev = s.ev := rfl
@[simp] theorem State.modCopy_inputs (s : State) (n : Nat) (f : Copy → Copy) : (s.modCopy n f).inputs = s.inputs := rfl
@[simp] theorem State.modCopy_firing (s : State) (n : Nat) (f : Copy → Copy) : (s.modCopy n f).firing = s.firing := rfl
@[simp] theorem State.modCopy_stations (s : State) (n : Nat) (f : Copy → Copy) : (s.modCopy n f).stations = s.stations := rfl
@[simp] theorem State.modCopy_routes (s : State) (n : Nat) (f : Copy → Copy) : (s.modCopy n f).routes = s.routes := rfl
@[simp] theorem State.modCopy_ports (s : State) (n : Nat) (f : Copy → Copy) : (s.modCopy n f).ports = s.ports := rfl
@[simp] theorem State.modCopy_agens (s : State) (n : Nat) (f : Copy → Copy) : (s.modCopy n f).agens = s.agens := rfl
@[simp] theorem State.modCopy_voyages (s : State) (n : Nat) (f : Copy → Copy) : (s.modCopy n f).voyages = s.voyages := rfl
@[simp] theorem State.modCopy_launches (s : State) (n : Nat) (f : Copy → Copy) : (s.modCopy n f).launches = s.launches := rfl
@[simp] theorem State.modCopy_queues (s : State) (n : Nat) (f : Copy → Copy) : (s.modCopy n f).queues = s.queues := rfl
@[simp] theorem State.modCopy_reqs (s : State) (n : Nat) (f : Copy → Copy) : (s.modCopy n f).reqs = s.reqs := rfl
@[simp] theorem State.modCopy_paths (s : State) (n : Nat) (f : Copy → Copy) : (s.modCopy n f).paths = s.paths := rfl
@[simp] theorem State.modCopy_domains (s : State) (n : Nat) (f : Copy → Copy) : (s.modCopy n f).domains = s.domains := rfl
@[simp] theorem State.modCopy_bars (s : State) (n : Nat) (f : Copy → Copy) : (s.modCopy n f).bars = s.bars := rfl
@[simp] theorem State.modCopy_barMsgs (s : State) (n : Nat) (f : Copy → Copy) : (s.modCopy n f).barMsgs = s.barMsgs := rfl
@[simp] theorem State.modCopy_tasks (s : State) (n : Nat) (f : Copy → Copy) : (s.modCopy n f).tasks = s.tasks := rfl
@[simp] theorem State.modCopy_marks (s : State) (n : Nat) (f : Copy → Copy) : (s.modCopy n f).marks = s.marks := rfl
@[simp] theorem State.modCopy_watermarks (s : State) (n : Nat) (f : Copy → Copy) : (s.modCopy n f).watermarks = s.watermarks := rfl
@[simp] theorem State.modCopy_cells (s : State) (n : Nat) (f : Copy → Copy) : (s.modCopy n f).cells = s.cells := rfl
@[simp] theorem State.modCopy_mem (s : State) (n : Nat) (f : Copy → Copy) : (s.modCopy n f).mem = s.mem := rfl
@[simp] theorem State.modCopy_host (s : State) (n : Nat) (f : Copy → Copy) : (s.modCopy n f).host = s.host := rfl
@[simp] theorem State.modCopy_descs (s : State) (n : Nat) (f : Copy → Copy) : (s.modCopy n f).descs = s.descs := rfl
@[simp] theorem State.modCopy_roots (s : State) (n : Nat) (f : Copy → Copy) : (s.modCopy n f).roots = s.roots := rfl
@[simp] theorem State.modCopy_saveBases (s : State) (n : Nat) (f : Copy → Copy) : (s.modCopy n f).saveBases = s.saveBases := rfl
@[simp] theorem State.modCopy_saved (s : State) (n : Nat) (f : Copy → Copy) : (s.modCopy n f).saved = s.saved := rfl
@[simp] theorem State.modCopy_l2 (s : State) (n : Nat) (f : Copy → Copy) : (s.modCopy n f).l2 = s.l2 := rfl
@[simp] theorem State.modCopy_bad (s : State) (n : Nat) (f : Copy → Copy) : (s.modCopy n f).bad = s.bad := rfl
@[simp] theorem State.modCopy_remap (s : State) (n : Nat) (f : Copy → Copy) : (s.modCopy n f).remap = s.remap := rfl
@[simp] theorem State.modCopy_sliceOver (s : State) (n : Nat) (f : Copy → Copy) : (s.modCopy n f).sliceOver = s.sliceOver := rfl
@[simp] theorem State.modCopy_dies (s : State) (n : Nat) (f : Copy → Copy) : (s.modCopy n f).dies = s.dies := rfl
@[simp] theorem State.modCopy_state (s : State) (n : Nat) (f : Copy → Copy) : (s.modCopy n f).state = s.state := rfl
@[simp] theorem State.modCopy_bootrsn (s : State) (n : Nat) (f : Copy → Copy) : (s.modCopy n f).bootrsn = s.bootrsn := rfl
@[simp] theorem State.modCopy_failcnt (s : State) (n : Nat) (f : Copy → Copy) : (s.modCopy n f).failcnt = s.failcnt := rfl
@[simp] theorem State.modCopy_boot (s : State) (n : Nat) (f : Copy → Copy) : (s.modCopy n f).boot = s.boot := rfl
@[simp] theorem State.modCopy_bootTime (s : State) (n : Nat) (f : Copy → Copy) : (s.modCopy n f).bootTime = s.bootTime := rfl
@[simp] theorem State.modCopy_tlboot (s : State) (n : Nat) (f : Copy → Copy) : (s.modCopy n f).tlboot = s.tlboot := rfl
@[simp] theorem State.modCopy_fw (s : State) (n : Nat) (f : Copy → Copy) : (s.modCopy n f).fw = s.fw := rfl
@[simp] theorem State.modCopy_log (s : State) (n : Nat) (f : Copy → Copy) : (s.modCopy n f).log = s.log := rfl
@[simp] theorem State.modCopy_pilots (s : State) (n : Nat) (f : Copy → Copy) : (s.modCopy n f).pilots = s.pilots := rfl
@[simp] theorem State.modCopy_arbiter (s : State) (n : Nat) (f : Copy → Copy) : (s.modCopy n f).arbiter = s.arbiter := rfl
@[simp] theorem State.modCopy_owned (s : State) (n : Nat) (f : Copy → Copy) : (s.modCopy n f).owned = s.owned := rfl
@[simp] theorem State.modCopy_owner (s : State) (n : Nat) (f : Copy → Copy) : (s.modCopy n f).owner = s.owner := rfl
@[simp] theorem State.modCopy_herr (s : State) (n : Nat) (f : Copy → Copy) : (s.modCopy n f).herr = s.herr := rfl
@[simp] theorem State.modCopy_attached (s : State) (n : Nat) (f : Copy → Copy) : (s.modCopy n f).attached = s.attached := rfl
@[simp] theorem State.modCopy_claims (s : State) (n : Nat) (f : Copy → Copy) : (s.modCopy n f).claims = s.claims := rfl
@[simp] theorem State.modCopy_window (s : State) (n : Nat) (f : Copy → Copy) : (s.modCopy n f).window = s.window := rfl
@[simp] theorem State.modCopy_apbase (s : State) (n : Nat) (f : Copy → Copy) : (s.modCopy n f).apbase = s.apbase := rfl
@[simp] theorem State.modCopy_sbquery (s : State) (n : Nat) (f : Copy → Copy) : (s.modCopy n f).sbquery = s.sbquery := rfl
@[simp] theorem State.modCopy_pwrlim (s : State) (n : Nat) (f : Copy → Copy) : (s.modCopy n f).pwrlim = s.pwrlim := rfl
@[simp] theorem State.modCopy_pwrnow (s : State) (n : Nat) (f : Copy → Copy) : (s.modCopy n f).pwrnow = s.pwrnow := rfl
@[simp] theorem State.modCopy_shares (s : State) (n : Nat) (f : Copy → Copy) : (s.modCopy n f).shares = s.shares := rfl
@[simp] theorem State.modCopy_pwrmir (s : State) (n : Nat) (f : Copy → Copy) : (s.modCopy n f).pwrmir = s.pwrmir := rfl
@[simp] theorem State.modCopy_pwrseq (s : State) (n : Nat) (f : Copy → Copy) : (s.modCopy n f).pwrseq = s.pwrseq := rfl
@[simp] theorem State.modCopy_mailboxes (s : State) (n : Nat) (f : Copy → Copy) : (s.modCopy n f).mailboxes = s.mailboxes := rfl
@[simp] theorem State.modCopy_asks (s : State) (n : Nat) (f : Copy → Copy) : (s.modCopy n f).asks = s.asks := rfl
@[simp] theorem State.modCopy_vectors (s : State) (n : Nat) (f : Copy → Copy) : (s.modCopy n f).vectors = s.vectors := rfl
@[simp] theorem State.modCopy_answer (s : State) (n : Nat) (f : Copy → Copy) : (s.modCopy n f).answer = s.answer := rfl
@[simp] theorem State.modCopy_links (s : State) (n : Nat) (f : Copy → Copy) : (s.modCopy n f).links = s.links := rfl
@[simp] theorem State.modCopy_bindings (s : State) (n : Nat) (f : Copy → Copy) : (s.modCopy n f).bindings = s.bindings := rfl
@[simp] theorem State.modCopy_joins (s : State) (n : Nat) (f : Copy → Copy) : (s.modCopy n f).joins = s.joins := rfl
@[simp] theorem State.modCopy_rots (s : State) (n : Nat) (f : Copy → Copy) : (s.modCopy n f).rots = s.rots := rfl

/-! ### `State.setVline` -/

@[simp] theorem State.setVline_grade (s : State) (l : VLine) : (s.setVline l).grade = s.grade := rfl
@[simp] theorem State.setVline_time (s : State) (l : VLine) : (s.setVline l).time = s.time := rfl
@[simp] theorem State.setVline_free (s : State) (l : VLine) : (s.setVline l).free = s.free := rfl
@[simp] theorem State.setVline_nextId (s : State) (l : VLine) : (s.setVline l).nextId = s.nextId := rfl
@[simp] theorem State.setVline_agenda (s : State) (l : VLine) : (s.setVline l).agenda = s.agenda := rfl
@[simp] theorem State.setVline_ev (s : State) (l : VLine) : (s.setVline l).ev = s.ev := rfl
@[simp] theorem State.setVline_inputs (s : State) (l : VLine) : (s.setVline l).inputs = s.inputs := rfl
@[simp] theorem State.setVline_firing (s : State) (l : VLine) : (s.setVline l).firing = s.firing := rfl
@[simp] theorem State.setVline_stations (s : State) (l : VLine) : (s.setVline l).stations = s.stations := rfl
@[simp] theorem State.setVline_routes (s : State) (l : VLine) : (s.setVline l).routes = s.routes := rfl
@[simp] theorem State.setVline_ports (s : State) (l : VLine) : (s.setVline l).ports = s.ports := rfl
@[simp] theorem State.setVline_agens (s : State) (l : VLine) : (s.setVline l).agens = s.agens := rfl
@[simp] theorem State.setVline_voyages (s : State) (l : VLine) : (s.setVline l).voyages = s.voyages := rfl
@[simp] theorem State.setVline_launches (s : State) (l : VLine) : (s.setVline l).launches = s.launches := rfl
@[simp] theorem State.setVline_queues (s : State) (l : VLine) : (s.setVline l).queues = s.queues := rfl
@[simp] theorem State.setVline_reqs (s : State) (l : VLine) : (s.setVline l).reqs = s.reqs := rfl
@[simp] theorem State.setVline_paths (s : State) (l : VLine) : (s.setVline l).paths = s.paths := rfl
@[simp] theorem State.setVline_copies (s : State) (l : VLine) : (s.setVline l).copies = s.copies := rfl
@[simp] theorem State.setVline_domains (s : State) (l : VLine) : (s.setVline l).domains = s.domains := rfl
@[simp] theorem State.setVline_bars (s : State) (l : VLine) : (s.setVline l).bars = s.bars := rfl
@[simp] theorem State.setVline_barMsgs (s : State) (l : VLine) : (s.setVline l).barMsgs = s.barMsgs := rfl
@[simp] theorem State.setVline_tasks (s : State) (l : VLine) : (s.setVline l).tasks = s.tasks := rfl
@[simp] theorem State.setVline_marks (s : State) (l : VLine) : (s.setVline l).marks = s.marks := rfl
@[simp] theorem State.setVline_watermarks (s : State) (l : VLine) : (s.setVline l).watermarks = s.watermarks := rfl
@[simp] theorem State.setVline_mem (s : State) (l : VLine) : (s.setVline l).mem = s.mem := rfl
@[simp] theorem State.setVline_host (s : State) (l : VLine) : (s.setVline l).host = s.host := rfl
@[simp] theorem State.setVline_descs (s : State) (l : VLine) : (s.setVline l).descs = s.descs := rfl
@[simp] theorem State.setVline_roots (s : State) (l : VLine) : (s.setVline l).roots = s.roots := rfl
@[simp] theorem State.setVline_saveBases (s : State) (l : VLine) : (s.setVline l).saveBases = s.saveBases := rfl
@[simp] theorem State.setVline_saved (s : State) (l : VLine) : (s.setVline l).saved = s.saved := rfl
@[simp] theorem State.setVline_l2 (s : State) (l : VLine) : (s.setVline l).l2 = s.l2 := rfl
@[simp] theorem State.setVline_bad (s : State) (l : VLine) : (s.setVline l).bad = s.bad := rfl
@[simp] theorem State.setVline_remap (s : State) (l : VLine) : (s.setVline l).remap = s.remap := rfl
@[simp] theorem State.setVline_sliceOver (s : State) (l : VLine) : (s.setVline l).sliceOver = s.sliceOver := rfl
@[simp] theorem State.setVline_dies (s : State) (l : VLine) : (s.setVline l).dies = s.dies := rfl
@[simp] theorem State.setVline_state (s : State) (l : VLine) : (s.setVline l).state = s.state := rfl
@[simp] theorem State.setVline_bootrsn (s : State) (l : VLine) : (s.setVline l).bootrsn = s.bootrsn := rfl
@[simp] theorem State.setVline_failcnt (s : State) (l : VLine) : (s.setVline l).failcnt = s.failcnt := rfl
@[simp] theorem State.setVline_boot (s : State) (l : VLine) : (s.setVline l).boot = s.boot := rfl
@[simp] theorem State.setVline_bootTime (s : State) (l : VLine) : (s.setVline l).bootTime = s.bootTime := rfl
@[simp] theorem State.setVline_tlboot (s : State) (l : VLine) : (s.setVline l).tlboot = s.tlboot := rfl
@[simp] theorem State.setVline_fw (s : State) (l : VLine) : (s.setVline l).fw = s.fw := rfl
@[simp] theorem State.setVline_log (s : State) (l : VLine) : (s.setVline l).log = s.log := rfl
@[simp] theorem State.setVline_pilots (s : State) (l : VLine) : (s.setVline l).pilots = s.pilots := rfl
@[simp] theorem State.setVline_arbiter (s : State) (l : VLine) : (s.setVline l).arbiter = s.arbiter := rfl
@[simp] theorem State.setVline_owned (s : State) (l : VLine) : (s.setVline l).owned = s.owned := rfl
@[simp] theorem State.setVline_owner (s : State) (l : VLine) : (s.setVline l).owner = s.owner := rfl
@[simp] theorem State.setVline_herr (s : State) (l : VLine) : (s.setVline l).herr = s.herr := rfl
@[simp] theorem State.setVline_attached (s : State) (l : VLine) : (s.setVline l).attached = s.attached := rfl
@[simp] theorem State.setVline_claims (s : State) (l : VLine) : (s.setVline l).claims = s.claims := rfl
@[simp] theorem State.setVline_window (s : State) (l : VLine) : (s.setVline l).window = s.window := rfl
@[simp] theorem State.setVline_apbase (s : State) (l : VLine) : (s.setVline l).apbase = s.apbase := rfl
@[simp] theorem State.setVline_sbquery (s : State) (l : VLine) : (s.setVline l).sbquery = s.sbquery := rfl
@[simp] theorem State.setVline_pwrlim (s : State) (l : VLine) : (s.setVline l).pwrlim = s.pwrlim := rfl
@[simp] theorem State.setVline_pwrnow (s : State) (l : VLine) : (s.setVline l).pwrnow = s.pwrnow := rfl
@[simp] theorem State.setVline_shares (s : State) (l : VLine) : (s.setVline l).shares = s.shares := rfl
@[simp] theorem State.setVline_pwrmir (s : State) (l : VLine) : (s.setVline l).pwrmir = s.pwrmir := rfl
@[simp] theorem State.setVline_pwrseq (s : State) (l : VLine) : (s.setVline l).pwrseq = s.pwrseq := rfl
@[simp] theorem State.setVline_mailboxes (s : State) (l : VLine) : (s.setVline l).mailboxes = s.mailboxes := rfl
@[simp] theorem State.setVline_asks (s : State) (l : VLine) : (s.setVline l).asks = s.asks := rfl
@[simp] theorem State.setVline_vectors (s : State) (l : VLine) : (s.setVline l).vectors = s.vectors := rfl
@[simp] theorem State.setVline_answer (s : State) (l : VLine) : (s.setVline l).answer = s.answer := rfl
@[simp] theorem State.setVline_links (s : State) (l : VLine) : (s.setVline l).links = s.links := rfl
@[simp] theorem State.setVline_bindings (s : State) (l : VLine) : (s.setVline l).bindings = s.bindings := rfl
@[simp] theorem State.setVline_joins (s : State) (l : VLine) : (s.setVline l).joins = s.joins := rfl
@[simp] theorem State.setVline_rots (s : State) (l : VLine) : (s.setVline l).rots = s.rots := rfl

/-! ### `State.modHop` -/

@[simp] theorem State.modHop_grade (s : State) (r k : Nat) (f : Hop → Hop) : (s.modHop r k f).grade = s.grade := rfl
@[simp] theorem State.modHop_time (s : State) (r k : Nat) (f : Hop → Hop) : (s.modHop r k f).time = s.time := rfl
@[simp] theorem State.modHop_free (s : State) (r k : Nat) (f : Hop → Hop) : (s.modHop r k f).free = s.free := rfl
@[simp] theorem State.modHop_nextId (s : State) (r k : Nat) (f : Hop → Hop) : (s.modHop r k f).nextId = s.nextId := rfl
@[simp] theorem State.modHop_agenda (s : State) (r k : Nat) (f : Hop → Hop) : (s.modHop r k f).agenda = s.agenda := rfl
@[simp] theorem State.modHop_ev (s : State) (r k : Nat) (f : Hop → Hop) : (s.modHop r k f).ev = s.ev := rfl
@[simp] theorem State.modHop_inputs (s : State) (r k : Nat) (f : Hop → Hop) : (s.modHop r k f).inputs = s.inputs := rfl
@[simp] theorem State.modHop_firing (s : State) (r k : Nat) (f : Hop → Hop) : (s.modHop r k f).firing = s.firing := rfl
@[simp] theorem State.modHop_stations (s : State) (r k : Nat) (f : Hop → Hop) : (s.modHop r k f).stations = s.stations := rfl
@[simp] theorem State.modHop_ports (s : State) (r k : Nat) (f : Hop → Hop) : (s.modHop r k f).ports = s.ports := rfl
@[simp] theorem State.modHop_agens (s : State) (r k : Nat) (f : Hop → Hop) : (s.modHop r k f).agens = s.agens := rfl
@[simp] theorem State.modHop_voyages (s : State) (r k : Nat) (f : Hop → Hop) : (s.modHop r k f).voyages = s.voyages := rfl
@[simp] theorem State.modHop_launches (s : State) (r k : Nat) (f : Hop → Hop) : (s.modHop r k f).launches = s.launches := rfl
@[simp] theorem State.modHop_queues (s : State) (r k : Nat) (f : Hop → Hop) : (s.modHop r k f).queues = s.queues := rfl
@[simp] theorem State.modHop_reqs (s : State) (r k : Nat) (f : Hop → Hop) : (s.modHop r k f).reqs = s.reqs := rfl
@[simp] theorem State.modHop_paths (s : State) (r k : Nat) (f : Hop → Hop) : (s.modHop r k f).paths = s.paths := rfl
@[simp] theorem State.modHop_copies (s : State) (r k : Nat) (f : Hop → Hop) : (s.modHop r k f).copies = s.copies := rfl
@[simp] theorem State.modHop_domains (s : State) (r k : Nat) (f : Hop → Hop) : (s.modHop r k f).domains = s.domains := rfl
@[simp] theorem State.modHop_bars (s : State) (r k : Nat) (f : Hop → Hop) : (s.modHop r k f).bars = s.bars := rfl
@[simp] theorem State.modHop_barMsgs (s : State) (r k : Nat) (f : Hop → Hop) : (s.modHop r k f).barMsgs = s.barMsgs := rfl
@[simp] theorem State.modHop_tasks (s : State) (r k : Nat) (f : Hop → Hop) : (s.modHop r k f).tasks = s.tasks := rfl
@[simp] theorem State.modHop_marks (s : State) (r k : Nat) (f : Hop → Hop) : (s.modHop r k f).marks = s.marks := rfl
@[simp] theorem State.modHop_watermarks (s : State) (r k : Nat) (f : Hop → Hop) : (s.modHop r k f).watermarks = s.watermarks := rfl
@[simp] theorem State.modHop_cells (s : State) (r k : Nat) (f : Hop → Hop) : (s.modHop r k f).cells = s.cells := rfl
@[simp] theorem State.modHop_mem (s : State) (r k : Nat) (f : Hop → Hop) : (s.modHop r k f).mem = s.mem := rfl
@[simp] theorem State.modHop_host (s : State) (r k : Nat) (f : Hop → Hop) : (s.modHop r k f).host = s.host := rfl
@[simp] theorem State.modHop_descs (s : State) (r k : Nat) (f : Hop → Hop) : (s.modHop r k f).descs = s.descs := rfl
@[simp] theorem State.modHop_roots (s : State) (r k : Nat) (f : Hop → Hop) : (s.modHop r k f).roots = s.roots := rfl
@[simp] theorem State.modHop_saveBases (s : State) (r k : Nat) (f : Hop → Hop) : (s.modHop r k f).saveBases = s.saveBases := rfl
@[simp] theorem State.modHop_saved (s : State) (r k : Nat) (f : Hop → Hop) : (s.modHop r k f).saved = s.saved := rfl
@[simp] theorem State.modHop_l2 (s : State) (r k : Nat) (f : Hop → Hop) : (s.modHop r k f).l2 = s.l2 := rfl
@[simp] theorem State.modHop_bad (s : State) (r k : Nat) (f : Hop → Hop) : (s.modHop r k f).bad = s.bad := rfl
@[simp] theorem State.modHop_remap (s : State) (r k : Nat) (f : Hop → Hop) : (s.modHop r k f).remap = s.remap := rfl
@[simp] theorem State.modHop_sliceOver (s : State) (r k : Nat) (f : Hop → Hop) : (s.modHop r k f).sliceOver = s.sliceOver := rfl
@[simp] theorem State.modHop_dies (s : State) (r k : Nat) (f : Hop → Hop) : (s.modHop r k f).dies = s.dies := rfl
@[simp] theorem State.modHop_state (s : State) (r k : Nat) (f : Hop → Hop) : (s.modHop r k f).state = s.state := rfl
@[simp] theorem State.modHop_bootrsn (s : State) (r k : Nat) (f : Hop → Hop) : (s.modHop r k f).bootrsn = s.bootrsn := rfl
@[simp] theorem State.modHop_failcnt (s : State) (r k : Nat) (f : Hop → Hop) : (s.modHop r k f).failcnt = s.failcnt := rfl
@[simp] theorem State.modHop_boot (s : State) (r k : Nat) (f : Hop → Hop) : (s.modHop r k f).boot = s.boot := rfl
@[simp] theorem State.modHop_bootTime (s : State) (r k : Nat) (f : Hop → Hop) : (s.modHop r k f).bootTime = s.bootTime := rfl
@[simp] theorem State.modHop_tlboot (s : State) (r k : Nat) (f : Hop → Hop) : (s.modHop r k f).tlboot = s.tlboot := rfl
@[simp] theorem State.modHop_fw (s : State) (r k : Nat) (f : Hop → Hop) : (s.modHop r k f).fw = s.fw := rfl
@[simp] theorem State.modHop_log (s : State) (r k : Nat) (f : Hop → Hop) : (s.modHop r k f).log = s.log := rfl
@[simp] theorem State.modHop_pilots (s : State) (r k : Nat) (f : Hop → Hop) : (s.modHop r k f).pilots = s.pilots := rfl
@[simp] theorem State.modHop_arbiter (s : State) (r k : Nat) (f : Hop → Hop) : (s.modHop r k f).arbiter = s.arbiter := rfl
@[simp] theorem State.modHop_owned (s : State) (r k : Nat) (f : Hop → Hop) : (s.modHop r k f).owned = s.owned := rfl
@[simp] theorem State.modHop_owner (s : State) (r k : Nat) (f : Hop → Hop) : (s.modHop r k f).owner = s.owner := rfl
@[simp] theorem State.modHop_herr (s : State) (r k : Nat) (f : Hop → Hop) : (s.modHop r k f).herr = s.herr := rfl
@[simp] theorem State.modHop_attached (s : State) (r k : Nat) (f : Hop → Hop) : (s.modHop r k f).attached = s.attached := rfl
@[simp] theorem State.modHop_claims (s : State) (r k : Nat) (f : Hop → Hop) : (s.modHop r k f).claims = s.claims := rfl
@[simp] theorem State.modHop_window (s : State) (r k : Nat) (f : Hop → Hop) : (s.modHop r k f).window = s.window := rfl
@[simp] theorem State.modHop_apbase (s : State) (r k : Nat) (f : Hop → Hop) : (s.modHop r k f).apbase = s.apbase := rfl
@[simp] theorem State.modHop_sbquery (s : State) (r k : Nat) (f : Hop → Hop) : (s.modHop r k f).sbquery = s.sbquery := rfl
@[simp] theorem State.modHop_pwrlim (s : State) (r k : Nat) (f : Hop → Hop) : (s.modHop r k f).pwrlim = s.pwrlim := rfl
@[simp] theorem State.modHop_pwrnow (s : State) (r k : Nat) (f : Hop → Hop) : (s.modHop r k f).pwrnow = s.pwrnow := rfl
@[simp] theorem State.modHop_shares (s : State) (r k : Nat) (f : Hop → Hop) : (s.modHop r k f).shares = s.shares := rfl
@[simp] theorem State.modHop_pwrmir (s : State) (r k : Nat) (f : Hop → Hop) : (s.modHop r k f).pwrmir = s.pwrmir := rfl
@[simp] theorem State.modHop_pwrseq (s : State) (r k : Nat) (f : Hop → Hop) : (s.modHop r k f).pwrseq = s.pwrseq := rfl
@[simp] theorem State.modHop_mailboxes (s : State) (r k : Nat) (f : Hop → Hop) : (s.modHop r k f).mailboxes = s.mailboxes := rfl
@[simp] theorem State.modHop_asks (s : State) (r k : Nat) (f : Hop → Hop) : (s.modHop r k f).asks = s.asks := rfl
@[simp] theorem State.modHop_vectors (s : State) (r k : Nat) (f : Hop → Hop) : (s.modHop r k f).vectors = s.vectors := rfl
@[simp] theorem State.modHop_answer (s : State) (r k : Nat) (f : Hop → Hop) : (s.modHop r k f).answer = s.answer := rfl
@[simp] theorem State.modHop_links (s : State) (r k : Nat) (f : Hop → Hop) : (s.modHop r k f).links = s.links := rfl
@[simp] theorem State.modHop_bindings (s : State) (r k : Nat) (f : Hop → Hop) : (s.modHop r k f).bindings = s.bindings := rfl
@[simp] theorem State.modHop_joins (s : State) (r k : Nat) (f : Hop → Hop) : (s.modHop r k f).joins = s.joins := rfl
@[simp] theorem State.modHop_rots (s : State) (r k : Nat) (f : Hop → Hop) : (s.modHop r k f).rots = s.rots := rfl

/-! ### `State.setBar` -/

@[simp] theorem State.setBar_grade (s : State) (b : BarEntry) : (s.setBar b).grade = s.grade := rfl
@[simp] theorem State.setBar_time (s : State) (b : BarEntry) : (s.setBar b).time = s.time := rfl
@[simp] theorem State.setBar_free (s : State) (b : BarEntry) : (s.setBar b).free = s.free := rfl
@[simp] theorem State.setBar_nextId (s : State) (b : BarEntry) : (s.setBar b).nextId = s.nextId := rfl
@[simp] theorem State.setBar_agenda (s : State) (b : BarEntry) : (s.setBar b).agenda = s.agenda := rfl
@[simp] theorem State.setBar_ev (s : State) (b : BarEntry) : (s.setBar b).ev = s.ev := rfl
@[simp] theorem State.setBar_inputs (s : State) (b : BarEntry) : (s.setBar b).inputs = s.inputs := rfl
@[simp] theorem State.setBar_firing (s : State) (b : BarEntry) : (s.setBar b).firing = s.firing := rfl
@[simp] theorem State.setBar_stations (s : State) (b : BarEntry) : (s.setBar b).stations = s.stations := rfl
@[simp] theorem State.setBar_routes (s : State) (b : BarEntry) : (s.setBar b).routes = s.routes := rfl
@[simp] theorem State.setBar_ports (s : State) (b : BarEntry) : (s.setBar b).ports = s.ports := rfl
@[simp] theorem State.setBar_agens (s : State) (b : BarEntry) : (s.setBar b).agens = s.agens := rfl
@[simp] theorem State.setBar_voyages (s : State) (b : BarEntry) : (s.setBar b).voyages = s.voyages := rfl
@[simp] theorem State.setBar_launches (s : State) (b : BarEntry) : (s.setBar b).launches = s.launches := rfl
@[simp] theorem State.setBar_queues (s : State) (b : BarEntry) : (s.setBar b).queues = s.queues := rfl
@[simp] theorem State.setBar_reqs (s : State) (b : BarEntry) : (s.setBar b).reqs = s.reqs := rfl
@[simp] theorem State.setBar_paths (s : State) (b : BarEntry) : (s.setBar b).paths = s.paths := rfl
@[simp] theorem State.setBar_copies (s : State) (b : BarEntry) : (s.setBar b).copies = s.copies := rfl
@[simp] theorem State.setBar_domains (s : State) (b : BarEntry) : (s.setBar b).domains = s.domains := rfl
@[simp] theorem State.setBar_barMsgs (s : State) (b : BarEntry) : (s.setBar b).barMsgs = s.barMsgs := rfl
@[simp] theorem State.setBar_tasks (s : State) (b : BarEntry) : (s.setBar b).tasks = s.tasks := rfl
@[simp] theorem State.setBar_marks (s : State) (b : BarEntry) : (s.setBar b).marks = s.marks := rfl
@[simp] theorem State.setBar_watermarks (s : State) (b : BarEntry) : (s.setBar b).watermarks = s.watermarks := rfl
@[simp] theorem State.setBar_cells (s : State) (b : BarEntry) : (s.setBar b).cells = s.cells := rfl
@[simp] theorem State.setBar_mem (s : State) (b : BarEntry) : (s.setBar b).mem = s.mem := rfl
@[simp] theorem State.setBar_host (s : State) (b : BarEntry) : (s.setBar b).host = s.host := rfl
@[simp] theorem State.setBar_descs (s : State) (b : BarEntry) : (s.setBar b).descs = s.descs := rfl
@[simp] theorem State.setBar_roots (s : State) (b : BarEntry) : (s.setBar b).roots = s.roots := rfl
@[simp] theorem State.setBar_saveBases (s : State) (b : BarEntry) : (s.setBar b).saveBases = s.saveBases := rfl
@[simp] theorem State.setBar_saved (s : State) (b : BarEntry) : (s.setBar b).saved = s.saved := rfl
@[simp] theorem State.setBar_l2 (s : State) (b : BarEntry) : (s.setBar b).l2 = s.l2 := rfl
@[simp] theorem State.setBar_bad (s : State) (b : BarEntry) : (s.setBar b).bad = s.bad := rfl
@[simp] theorem State.setBar_remap (s : State) (b : BarEntry) : (s.setBar b).remap = s.remap := rfl
@[simp] theorem State.setBar_sliceOver (s : State) (b : BarEntry) : (s.setBar b).sliceOver = s.sliceOver := rfl
@[simp] theorem State.setBar_dies (s : State) (b : BarEntry) : (s.setBar b).dies = s.dies := rfl
@[simp] theorem State.setBar_state (s : State) (b : BarEntry) : (s.setBar b).state = s.state := rfl
@[simp] theorem State.setBar_bootrsn (s : State) (b : BarEntry) : (s.setBar b).bootrsn = s.bootrsn := rfl
@[simp] theorem State.setBar_failcnt (s : State) (b : BarEntry) : (s.setBar b).failcnt = s.failcnt := rfl
@[simp] theorem State.setBar_boot (s : State) (b : BarEntry) : (s.setBar b).boot = s.boot := rfl
@[simp] theorem State.setBar_bootTime (s : State) (b : BarEntry) : (s.setBar b).bootTime = s.bootTime := rfl
@[simp] theorem State.setBar_tlboot (s : State) (b : BarEntry) : (s.setBar b).tlboot = s.tlboot := rfl
@[simp] theorem State.setBar_fw (s : State) (b : BarEntry) : (s.setBar b).fw = s.fw := rfl
@[simp] theorem State.setBar_log (s : State) (b : BarEntry) : (s.setBar b).log = s.log := rfl
@[simp] theorem State.setBar_pilots (s : State) (b : BarEntry) : (s.setBar b).pilots = s.pilots := rfl
@[simp] theorem State.setBar_arbiter (s : State) (b : BarEntry) : (s.setBar b).arbiter = s.arbiter := rfl
@[simp] theorem State.setBar_owned (s : State) (b : BarEntry) : (s.setBar b).owned = s.owned := rfl
@[simp] theorem State.setBar_owner (s : State) (b : BarEntry) : (s.setBar b).owner = s.owner := rfl
@[simp] theorem State.setBar_herr (s : State) (b : BarEntry) : (s.setBar b).herr = s.herr := rfl
@[simp] theorem State.setBar_attached (s : State) (b : BarEntry) : (s.setBar b).attached = s.attached := rfl
@[simp] theorem State.setBar_claims (s : State) (b : BarEntry) : (s.setBar b).claims = s.claims := rfl
@[simp] theorem State.setBar_window (s : State) (b : BarEntry) : (s.setBar b).window = s.window := rfl
@[simp] theorem State.setBar_apbase (s : State) (b : BarEntry) : (s.setBar b).apbase = s.apbase := rfl
@[simp] theorem State.setBar_sbquery (s : State) (b : BarEntry) : (s.setBar b).sbquery = s.sbquery := rfl
@[simp] theorem State.setBar_pwrlim (s : State) (b : BarEntry) : (s.setBar b).pwrlim = s.pwrlim := rfl
@[simp] theorem State.setBar_pwrnow (s : State) (b : BarEntry) : (s.setBar b).pwrnow = s.pwrnow := rfl
@[simp] theorem State.setBar_shares (s : State) (b : BarEntry) : (s.setBar b).shares = s.shares := rfl
@[simp] theorem State.setBar_pwrmir (s : State) (b : BarEntry) : (s.setBar b).pwrmir = s.pwrmir := rfl
@[simp] theorem State.setBar_pwrseq (s : State) (b : BarEntry) : (s.setBar b).pwrseq = s.pwrseq := rfl
@[simp] theorem State.setBar_mailboxes (s : State) (b : BarEntry) : (s.setBar b).mailboxes = s.mailboxes := rfl
@[simp] theorem State.setBar_asks (s : State) (b : BarEntry) : (s.setBar b).asks = s.asks := rfl
@[simp] theorem State.setBar_vectors (s : State) (b : BarEntry) : (s.setBar b).vectors = s.vectors := rfl
@[simp] theorem State.setBar_answer (s : State) (b : BarEntry) : (s.setBar b).answer = s.answer := rfl
@[simp] theorem State.setBar_links (s : State) (b : BarEntry) : (s.setBar b).links = s.links := rfl
@[simp] theorem State.setBar_bindings (s : State) (b : BarEntry) : (s.setBar b).bindings = s.bindings := rfl
@[simp] theorem State.setBar_joins (s : State) (b : BarEntry) : (s.setBar b).joins = s.joins := rfl
@[simp] theorem State.setBar_rots (s : State) (b : BarEntry) : (s.setBar b).rots = s.rots := rfl

/-! ### `State.sendOut` -/

@[simp] theorem State.sendOut_grade (s : State) (q : Req) : (s.sendOut q).grade = s.grade := rfl
@[simp] theorem State.sendOut_time (s : State) (q : Req) : (s.sendOut q).time = s.time := rfl
@[simp] theorem State.sendOut_free (s : State) (q : Req) : (s.sendOut q).free = s.free := rfl
@[simp] theorem State.sendOut_nextId (s : State) (q : Req) : (s.sendOut q).nextId = s.nextId := rfl
@[simp] theorem State.sendOut_agenda (s : State) (q : Req) : (s.sendOut q).agenda = s.agenda := rfl
@[simp] theorem State.sendOut_ev (s : State) (q : Req) : (s.sendOut q).ev = s.ev := rfl
@[simp] theorem State.sendOut_inputs (s : State) (q : Req) : (s.sendOut q).inputs = s.inputs := rfl
@[simp] theorem State.sendOut_firing (s : State) (q : Req) : (s.sendOut q).firing = s.firing := rfl
@[simp] theorem State.sendOut_stations (s : State) (q : Req) : (s.sendOut q).stations = s.stations := rfl
@[simp] theorem State.sendOut_routes (s : State) (q : Req) : (s.sendOut q).routes = s.routes := rfl
@[simp] theorem State.sendOut_ports (s : State) (q : Req) : (s.sendOut q).ports = s.ports := rfl
@[simp] theorem State.sendOut_agens (s : State) (q : Req) : (s.sendOut q).agens = s.agens := rfl
@[simp] theorem State.sendOut_voyages (s : State) (q : Req) : (s.sendOut q).voyages = s.voyages := rfl
@[simp] theorem State.sendOut_launches (s : State) (q : Req) : (s.sendOut q).launches = s.launches := rfl
@[simp] theorem State.sendOut_queues (s : State) (q : Req) : (s.sendOut q).queues = s.queues := rfl
@[simp] theorem State.sendOut_paths (s : State) (q : Req) : (s.sendOut q).paths = s.paths := rfl
@[simp] theorem State.sendOut_copies (s : State) (q : Req) : (s.sendOut q).copies = s.copies := rfl
@[simp] theorem State.sendOut_domains (s : State) (q : Req) : (s.sendOut q).domains = s.domains := rfl
@[simp] theorem State.sendOut_bars (s : State) (q : Req) : (s.sendOut q).bars = s.bars := rfl
@[simp] theorem State.sendOut_barMsgs (s : State) (q : Req) : (s.sendOut q).barMsgs = s.barMsgs := rfl
@[simp] theorem State.sendOut_tasks (s : State) (q : Req) : (s.sendOut q).tasks = s.tasks := rfl
@[simp] theorem State.sendOut_marks (s : State) (q : Req) : (s.sendOut q).marks = s.marks := rfl
@[simp] theorem State.sendOut_watermarks (s : State) (q : Req) : (s.sendOut q).watermarks = s.watermarks := rfl
@[simp] theorem State.sendOut_cells (s : State) (q : Req) : (s.sendOut q).cells = s.cells := rfl
@[simp] theorem State.sendOut_mem (s : State) (q : Req) : (s.sendOut q).mem = s.mem := rfl
@[simp] theorem State.sendOut_host (s : State) (q : Req) : (s.sendOut q).host = s.host := rfl
@[simp] theorem State.sendOut_descs (s : State) (q : Req) : (s.sendOut q).descs = s.descs := rfl
@[simp] theorem State.sendOut_roots (s : State) (q : Req) : (s.sendOut q).roots = s.roots := rfl
@[simp] theorem State.sendOut_saveBases (s : State) (q : Req) : (s.sendOut q).saveBases = s.saveBases := rfl
@[simp] theorem State.sendOut_saved (s : State) (q : Req) : (s.sendOut q).saved = s.saved := rfl
@[simp] theorem State.sendOut_l2 (s : State) (q : Req) : (s.sendOut q).l2 = s.l2 := rfl
@[simp] theorem State.sendOut_bad (s : State) (q : Req) : (s.sendOut q).bad = s.bad := rfl
@[simp] theorem State.sendOut_remap (s : State) (q : Req) : (s.sendOut q).remap = s.remap := rfl
@[simp] theorem State.sendOut_sliceOver (s : State) (q : Req) : (s.sendOut q).sliceOver = s.sliceOver := rfl
@[simp] theorem State.sendOut_dies (s : State) (q : Req) : (s.sendOut q).dies = s.dies := rfl
@[simp] theorem State.sendOut_state (s : State) (q : Req) : (s.sendOut q).state = s.state := rfl
@[simp] theorem State.sendOut_bootrsn (s : State) (q : Req) : (s.sendOut q).bootrsn = s.bootrsn := rfl
@[simp] theorem State.sendOut_failcnt (s : State) (q : Req) : (s.sendOut q).failcnt = s.failcnt := rfl
@[simp] theorem State.sendOut_boot (s : State) (q : Req) : (s.sendOut q).boot = s.boot := rfl
@[simp] theorem State.sendOut_bootTime (s : State) (q : Req) : (s.sendOut q).bootTime = s.bootTime := rfl
@[simp] theorem State.sendOut_tlboot (s : State) (q : Req) : (s.sendOut q).tlboot = s.tlboot := rfl
@[simp] theorem State.sendOut_fw (s : State) (q : Req) : (s.sendOut q).fw = s.fw := rfl
@[simp] theorem State.sendOut_log (s : State) (q : Req) : (s.sendOut q).log = s.log := rfl
@[simp] theorem State.sendOut_pilots (s : State) (q : Req) : (s.sendOut q).pilots = s.pilots := rfl
@[simp] theorem State.sendOut_arbiter (s : State) (q : Req) : (s.sendOut q).arbiter = s.arbiter := rfl
@[simp] theorem State.sendOut_owned (s : State) (q : Req) : (s.sendOut q).owned = s.owned := rfl
@[simp] theorem State.sendOut_owner (s : State) (q : Req) : (s.sendOut q).owner = s.owner := rfl
@[simp] theorem State.sendOut_herr (s : State) (q : Req) : (s.sendOut q).herr = s.herr := rfl
@[simp] theorem State.sendOut_attached (s : State) (q : Req) : (s.sendOut q).attached = s.attached := rfl
@[simp] theorem State.sendOut_claims (s : State) (q : Req) : (s.sendOut q).claims = s.claims := rfl
@[simp] theorem State.sendOut_window (s : State) (q : Req) : (s.sendOut q).window = s.window := rfl
@[simp] theorem State.sendOut_apbase (s : State) (q : Req) : (s.sendOut q).apbase = s.apbase := rfl
@[simp] theorem State.sendOut_sbquery (s : State) (q : Req) : (s.sendOut q).sbquery = s.sbquery := rfl
@[simp] theorem State.sendOut_pwrlim (s : State) (q : Req) : (s.sendOut q).pwrlim = s.pwrlim := rfl
@[simp] theorem State.sendOut_pwrnow (s : State) (q : Req) : (s.sendOut q).pwrnow = s.pwrnow := rfl
@[simp] theorem State.sendOut_shares (s : State) (q : Req) : (s.sendOut q).shares = s.shares := rfl
@[simp] theorem State.sendOut_pwrmir (s : State) (q : Req) : (s.sendOut q).pwrmir = s.pwrmir := rfl
@[simp] theorem State.sendOut_pwrseq (s : State) (q : Req) : (s.sendOut q).pwrseq = s.pwrseq := rfl
@[simp] theorem State.sendOut_mailboxes (s : State) (q : Req) : (s.sendOut q).mailboxes = s.mailboxes := rfl
@[simp] theorem State.sendOut_asks (s : State) (q : Req) : (s.sendOut q).asks = s.asks := rfl
@[simp] theorem State.sendOut_vectors (s : State) (q : Req) : (s.sendOut q).vectors = s.vectors := rfl
@[simp] theorem State.sendOut_answer (s : State) (q : Req) : (s.sendOut q).answer = s.answer := rfl
@[simp] theorem State.sendOut_links (s : State) (q : Req) : (s.sendOut q).links = s.links := rfl
@[simp] theorem State.sendOut_bindings (s : State) (q : Req) : (s.sendOut q).bindings = s.bindings := rfl
@[simp] theorem State.sendOut_joins (s : State) (q : Req) : (s.sendOut q).joins = s.joins := rfl
@[simp] theorem State.sendOut_rots (s : State) (q : Req) : (s.sendOut q).rots = s.rots := rfl

/-! ### `State.setEngine` -/

@[simp] theorem State.setEngine_grade (s : State) (i : StId) (j : Option TreeJob) : (s.setEngine i j).grade = s.grade := rfl
@[simp] theorem State.setEngine_time (s : State) (i : StId) (j : Option TreeJob) : (s.setEngine i j).time = s.time := rfl
@[simp] theorem State.setEngine_free (s : State) (i : StId) (j : Option TreeJob) : (s.setEngine i j).free = s.free := rfl
@[simp] theorem State.setEngine_nextId (s : State) (i : StId) (j : Option TreeJob) : (s.setEngine i j).nextId = s.nextId := rfl
@[simp] theorem State.setEngine_agenda (s : State) (i : StId) (j : Option TreeJob) : (s.setEngine i j).agenda = s.agenda := rfl
@[simp] theorem State.setEngine_ev (s : State) (i : StId) (j : Option TreeJob) : (s.setEngine i j).ev = s.ev := rfl
@[simp] theorem State.setEngine_inputs (s : State) (i : StId) (j : Option TreeJob) : (s.setEngine i j).inputs = s.inputs := rfl
@[simp] theorem State.setEngine_firing (s : State) (i : StId) (j : Option TreeJob) : (s.setEngine i j).firing = s.firing := rfl
@[simp] theorem State.setEngine_routes (s : State) (i : StId) (j : Option TreeJob) : (s.setEngine i j).routes = s.routes := rfl
@[simp] theorem State.setEngine_ports (s : State) (i : StId) (j : Option TreeJob) : (s.setEngine i j).ports = s.ports := rfl
@[simp] theorem State.setEngine_agens (s : State) (i : StId) (j : Option TreeJob) : (s.setEngine i j).agens = s.agens := rfl
@[simp] theorem State.setEngine_voyages (s : State) (i : StId) (j : Option TreeJob) : (s.setEngine i j).voyages = s.voyages := rfl
@[simp] theorem State.setEngine_launches (s : State) (i : StId) (j : Option TreeJob) : (s.setEngine i j).launches = s.launches := rfl
@[simp] theorem State.setEngine_queues (s : State) (i : StId) (j : Option TreeJob) : (s.setEngine i j).queues = s.queues := rfl
@[simp] theorem State.setEngine_reqs (s : State) (i : StId) (j : Option TreeJob) : (s.setEngine i j).reqs = s.reqs := rfl
@[simp] theorem State.setEngine_paths (s : State) (i : StId) (j : Option TreeJob) : (s.setEngine i j).paths = s.paths := rfl
@[simp] theorem State.setEngine_copies (s : State) (i : StId) (j : Option TreeJob) : (s.setEngine i j).copies = s.copies := rfl
@[simp] theorem State.setEngine_domains (s : State) (i : StId) (j : Option TreeJob) : (s.setEngine i j).domains = s.domains := rfl
@[simp] theorem State.setEngine_bars (s : State) (i : StId) (j : Option TreeJob) : (s.setEngine i j).bars = s.bars := rfl
@[simp] theorem State.setEngine_barMsgs (s : State) (i : StId) (j : Option TreeJob) : (s.setEngine i j).barMsgs = s.barMsgs := rfl
@[simp] theorem State.setEngine_tasks (s : State) (i : StId) (j : Option TreeJob) : (s.setEngine i j).tasks = s.tasks := rfl
@[simp] theorem State.setEngine_marks (s : State) (i : StId) (j : Option TreeJob) : (s.setEngine i j).marks = s.marks := rfl
@[simp] theorem State.setEngine_watermarks (s : State) (i : StId) (j : Option TreeJob) : (s.setEngine i j).watermarks = s.watermarks := rfl
@[simp] theorem State.setEngine_cells (s : State) (i : StId) (j : Option TreeJob) : (s.setEngine i j).cells = s.cells := rfl
@[simp] theorem State.setEngine_mem (s : State) (i : StId) (j : Option TreeJob) : (s.setEngine i j).mem = s.mem := rfl
@[simp] theorem State.setEngine_host (s : State) (i : StId) (j : Option TreeJob) : (s.setEngine i j).host = s.host := rfl
@[simp] theorem State.setEngine_descs (s : State) (i : StId) (j : Option TreeJob) : (s.setEngine i j).descs = s.descs := rfl
@[simp] theorem State.setEngine_roots (s : State) (i : StId) (j : Option TreeJob) : (s.setEngine i j).roots = s.roots := rfl
@[simp] theorem State.setEngine_saveBases (s : State) (i : StId) (j : Option TreeJob) : (s.setEngine i j).saveBases = s.saveBases := rfl
@[simp] theorem State.setEngine_saved (s : State) (i : StId) (j : Option TreeJob) : (s.setEngine i j).saved = s.saved := rfl
@[simp] theorem State.setEngine_l2 (s : State) (i : StId) (j : Option TreeJob) : (s.setEngine i j).l2 = s.l2 := rfl
@[simp] theorem State.setEngine_bad (s : State) (i : StId) (j : Option TreeJob) : (s.setEngine i j).bad = s.bad := rfl
@[simp] theorem State.setEngine_remap (s : State) (i : StId) (j : Option TreeJob) : (s.setEngine i j).remap = s.remap := rfl
@[simp] theorem State.setEngine_sliceOver (s : State) (i : StId) (j : Option TreeJob) : (s.setEngine i j).sliceOver = s.sliceOver := rfl
@[simp] theorem State.setEngine_dies (s : State) (i : StId) (j : Option TreeJob) : (s.setEngine i j).dies = s.dies := rfl
@[simp] theorem State.setEngine_state (s : State) (i : StId) (j : Option TreeJob) : (s.setEngine i j).state = s.state := rfl
@[simp] theorem State.setEngine_bootrsn (s : State) (i : StId) (j : Option TreeJob) : (s.setEngine i j).bootrsn = s.bootrsn := rfl
@[simp] theorem State.setEngine_failcnt (s : State) (i : StId) (j : Option TreeJob) : (s.setEngine i j).failcnt = s.failcnt := rfl
@[simp] theorem State.setEngine_boot (s : State) (i : StId) (j : Option TreeJob) : (s.setEngine i j).boot = s.boot := rfl
@[simp] theorem State.setEngine_bootTime (s : State) (i : StId) (j : Option TreeJob) : (s.setEngine i j).bootTime = s.bootTime := rfl
@[simp] theorem State.setEngine_tlboot (s : State) (i : StId) (j : Option TreeJob) : (s.setEngine i j).tlboot = s.tlboot := rfl
@[simp] theorem State.setEngine_fw (s : State) (i : StId) (j : Option TreeJob) : (s.setEngine i j).fw = s.fw := rfl
@[simp] theorem State.setEngine_log (s : State) (i : StId) (j : Option TreeJob) : (s.setEngine i j).log = s.log := rfl
@[simp] theorem State.setEngine_pilots (s : State) (i : StId) (j : Option TreeJob) : (s.setEngine i j).pilots = s.pilots := rfl
@[simp] theorem State.setEngine_arbiter (s : State) (i : StId) (j : Option TreeJob) : (s.setEngine i j).arbiter = s.arbiter := rfl
@[simp] theorem State.setEngine_owned (s : State) (i : StId) (j : Option TreeJob) : (s.setEngine i j).owned = s.owned := rfl
@[simp] theorem State.setEngine_owner (s : State) (i : StId) (j : Option TreeJob) : (s.setEngine i j).owner = s.owner := rfl
@[simp] theorem State.setEngine_herr (s : State) (i : StId) (j : Option TreeJob) : (s.setEngine i j).herr = s.herr := rfl
@[simp] theorem State.setEngine_attached (s : State) (i : StId) (j : Option TreeJob) : (s.setEngine i j).attached = s.attached := rfl
@[simp] theorem State.setEngine_claims (s : State) (i : StId) (j : Option TreeJob) : (s.setEngine i j).claims = s.claims := rfl
@[simp] theorem State.setEngine_window (s : State) (i : StId) (j : Option TreeJob) : (s.setEngine i j).window = s.window := rfl
@[simp] theorem State.setEngine_apbase (s : State) (i : StId) (j : Option TreeJob) : (s.setEngine i j).apbase = s.apbase := rfl
@[simp] theorem State.setEngine_sbquery (s : State) (i : StId) (j : Option TreeJob) : (s.setEngine i j).sbquery = s.sbquery := rfl
@[simp] theorem State.setEngine_pwrlim (s : State) (i : StId) (j : Option TreeJob) : (s.setEngine i j).pwrlim = s.pwrlim := rfl
@[simp] theorem State.setEngine_pwrnow (s : State) (i : StId) (j : Option TreeJob) : (s.setEngine i j).pwrnow = s.pwrnow := rfl
@[simp] theorem State.setEngine_shares (s : State) (i : StId) (j : Option TreeJob) : (s.setEngine i j).shares = s.shares := rfl
@[simp] theorem State.setEngine_pwrmir (s : State) (i : StId) (j : Option TreeJob) : (s.setEngine i j).pwrmir = s.pwrmir := rfl
@[simp] theorem State.setEngine_pwrseq (s : State) (i : StId) (j : Option TreeJob) : (s.setEngine i j).pwrseq = s.pwrseq := rfl
@[simp] theorem State.setEngine_mailboxes (s : State) (i : StId) (j : Option TreeJob) : (s.setEngine i j).mailboxes = s.mailboxes := rfl
@[simp] theorem State.setEngine_asks (s : State) (i : StId) (j : Option TreeJob) : (s.setEngine i j).asks = s.asks := rfl
@[simp] theorem State.setEngine_vectors (s : State) (i : StId) (j : Option TreeJob) : (s.setEngine i j).vectors = s.vectors := rfl
@[simp] theorem State.setEngine_answer (s : State) (i : StId) (j : Option TreeJob) : (s.setEngine i j).answer = s.answer := rfl
@[simp] theorem State.setEngine_links (s : State) (i : StId) (j : Option TreeJob) : (s.setEngine i j).links = s.links := rfl
@[simp] theorem State.setEngine_bindings (s : State) (i : StId) (j : Option TreeJob) : (s.setEngine i j).bindings = s.bindings := rfl
@[simp] theorem State.setEngine_joins (s : State) (i : StId) (j : Option TreeJob) : (s.setEngine i j).joins = s.joins := rfl
@[simp] theorem State.setEngine_rots (s : State) (i : StId) (j : Option TreeJob) : (s.setEngine i j).rots = s.rots := rfl

/-! ### `State.setQuery` -/

@[simp] theorem State.setQuery_grade (s : State) (i : StId) (n : Fin 4) (q : QReg) : (s.setQuery i n q).grade = s.grade := rfl
@[simp] theorem State.setQuery_time (s : State) (i : StId) (n : Fin 4) (q : QReg) : (s.setQuery i n q).time = s.time := rfl
@[simp] theorem State.setQuery_free (s : State) (i : StId) (n : Fin 4) (q : QReg) : (s.setQuery i n q).free = s.free := rfl
@[simp] theorem State.setQuery_nextId (s : State) (i : StId) (n : Fin 4) (q : QReg) : (s.setQuery i n q).nextId = s.nextId := rfl
@[simp] theorem State.setQuery_agenda (s : State) (i : StId) (n : Fin 4) (q : QReg) : (s.setQuery i n q).agenda = s.agenda := rfl
@[simp] theorem State.setQuery_ev (s : State) (i : StId) (n : Fin 4) (q : QReg) : (s.setQuery i n q).ev = s.ev := rfl
@[simp] theorem State.setQuery_inputs (s : State) (i : StId) (n : Fin 4) (q : QReg) : (s.setQuery i n q).inputs = s.inputs := rfl
@[simp] theorem State.setQuery_firing (s : State) (i : StId) (n : Fin 4) (q : QReg) : (s.setQuery i n q).firing = s.firing := rfl
@[simp] theorem State.setQuery_routes (s : State) (i : StId) (n : Fin 4) (q : QReg) : (s.setQuery i n q).routes = s.routes := rfl
@[simp] theorem State.setQuery_ports (s : State) (i : StId) (n : Fin 4) (q : QReg) : (s.setQuery i n q).ports = s.ports := rfl
@[simp] theorem State.setQuery_agens (s : State) (i : StId) (n : Fin 4) (q : QReg) : (s.setQuery i n q).agens = s.agens := rfl
@[simp] theorem State.setQuery_voyages (s : State) (i : StId) (n : Fin 4) (q : QReg) : (s.setQuery i n q).voyages = s.voyages := rfl
@[simp] theorem State.setQuery_launches (s : State) (i : StId) (n : Fin 4) (q : QReg) : (s.setQuery i n q).launches = s.launches := rfl
@[simp] theorem State.setQuery_queues (s : State) (i : StId) (n : Fin 4) (q : QReg) : (s.setQuery i n q).queues = s.queues := rfl
@[simp] theorem State.setQuery_reqs (s : State) (i : StId) (n : Fin 4) (q : QReg) : (s.setQuery i n q).reqs = s.reqs := rfl
@[simp] theorem State.setQuery_paths (s : State) (i : StId) (n : Fin 4) (q : QReg) : (s.setQuery i n q).paths = s.paths := rfl
@[simp] theorem State.setQuery_copies (s : State) (i : StId) (n : Fin 4) (q : QReg) : (s.setQuery i n q).copies = s.copies := rfl
@[simp] theorem State.setQuery_domains (s : State) (i : StId) (n : Fin 4) (q : QReg) : (s.setQuery i n q).domains = s.domains := rfl
@[simp] theorem State.setQuery_bars (s : State) (i : StId) (n : Fin 4) (q : QReg) : (s.setQuery i n q).bars = s.bars := rfl
@[simp] theorem State.setQuery_barMsgs (s : State) (i : StId) (n : Fin 4) (q : QReg) : (s.setQuery i n q).barMsgs = s.barMsgs := rfl
@[simp] theorem State.setQuery_tasks (s : State) (i : StId) (n : Fin 4) (q : QReg) : (s.setQuery i n q).tasks = s.tasks := rfl
@[simp] theorem State.setQuery_marks (s : State) (i : StId) (n : Fin 4) (q : QReg) : (s.setQuery i n q).marks = s.marks := rfl
@[simp] theorem State.setQuery_watermarks (s : State) (i : StId) (n : Fin 4) (q : QReg) : (s.setQuery i n q).watermarks = s.watermarks := rfl
@[simp] theorem State.setQuery_cells (s : State) (i : StId) (n : Fin 4) (q : QReg) : (s.setQuery i n q).cells = s.cells := rfl
@[simp] theorem State.setQuery_mem (s : State) (i : StId) (n : Fin 4) (q : QReg) : (s.setQuery i n q).mem = s.mem := rfl
@[simp] theorem State.setQuery_host (s : State) (i : StId) (n : Fin 4) (q : QReg) : (s.setQuery i n q).host = s.host := rfl
@[simp] theorem State.setQuery_descs (s : State) (i : StId) (n : Fin 4) (q : QReg) : (s.setQuery i n q).descs = s.descs := rfl
@[simp] theorem State.setQuery_roots (s : State) (i : StId) (n : Fin 4) (q : QReg) : (s.setQuery i n q).roots = s.roots := rfl
@[simp] theorem State.setQuery_saveBases (s : State) (i : StId) (n : Fin 4) (q : QReg) : (s.setQuery i n q).saveBases = s.saveBases := rfl
@[simp] theorem State.setQuery_saved (s : State) (i : StId) (n : Fin 4) (q : QReg) : (s.setQuery i n q).saved = s.saved := rfl
@[simp] theorem State.setQuery_l2 (s : State) (i : StId) (n : Fin 4) (q : QReg) : (s.setQuery i n q).l2 = s.l2 := rfl
@[simp] theorem State.setQuery_bad (s : State) (i : StId) (n : Fin 4) (q : QReg) : (s.setQuery i n q).bad = s.bad := rfl
@[simp] theorem State.setQuery_remap (s : State) (i : StId) (n : Fin 4) (q : QReg) : (s.setQuery i n q).remap = s.remap := rfl
@[simp] theorem State.setQuery_sliceOver (s : State) (i : StId) (n : Fin 4) (q : QReg) : (s.setQuery i n q).sliceOver = s.sliceOver := rfl
@[simp] theorem State.setQuery_dies (s : State) (i : StId) (n : Fin 4) (q : QReg) : (s.setQuery i n q).dies = s.dies := rfl
@[simp] theorem State.setQuery_state (s : State) (i : StId) (n : Fin 4) (q : QReg) : (s.setQuery i n q).state = s.state := rfl
@[simp] theorem State.setQuery_bootrsn (s : State) (i : StId) (n : Fin 4) (q : QReg) : (s.setQuery i n q).bootrsn = s.bootrsn := rfl
@[simp] theorem State.setQuery_failcnt (s : State) (i : StId) (n : Fin 4) (q : QReg) : (s.setQuery i n q).failcnt = s.failcnt := rfl
@[simp] theorem State.setQuery_boot (s : State) (i : StId) (n : Fin 4) (q : QReg) : (s.setQuery i n q).boot = s.boot := rfl
@[simp] theorem State.setQuery_bootTime (s : State) (i : StId) (n : Fin 4) (q : QReg) : (s.setQuery i n q).bootTime = s.bootTime := rfl
@[simp] theorem State.setQuery_tlboot (s : State) (i : StId) (n : Fin 4) (q : QReg) : (s.setQuery i n q).tlboot = s.tlboot := rfl
@[simp] theorem State.setQuery_fw (s : State) (i : StId) (n : Fin 4) (q : QReg) : (s.setQuery i n q).fw = s.fw := rfl
@[simp] theorem State.setQuery_log (s : State) (i : StId) (n : Fin 4) (q : QReg) : (s.setQuery i n q).log = s.log := rfl
@[simp] theorem State.setQuery_pilots (s : State) (i : StId) (n : Fin 4) (q : QReg) : (s.setQuery i n q).pilots = s.pilots := rfl
@[simp] theorem State.setQuery_arbiter (s : State) (i : StId) (n : Fin 4) (q : QReg) : (s.setQuery i n q).arbiter = s.arbiter := rfl
@[simp] theorem State.setQuery_owned (s : State) (i : StId) (n : Fin 4) (q : QReg) : (s.setQuery i n q).owned = s.owned := rfl
@[simp] theorem State.setQuery_owner (s : State) (i : StId) (n : Fin 4) (q : QReg) : (s.setQuery i n q).owner = s.owner := rfl
@[simp] theorem State.setQuery_herr (s : State) (i : StId) (n : Fin 4) (q : QReg) : (s.setQuery i n q).herr = s.herr := rfl
@[simp] theorem State.setQuery_attached (s : State) (i : StId) (n : Fin 4) (q : QReg) : (s.setQuery i n q).attached = s.attached := rfl
@[simp] theorem State.setQuery_claims (s : State) (i : StId) (n : Fin 4) (q : QReg) : (s.setQuery i n q).claims = s.claims := rfl
@[simp] theorem State.setQuery_window (s : State) (i : StId) (n : Fin 4) (q : QReg) : (s.setQuery i n q).window = s.window := rfl
@[simp] theorem State.setQuery_apbase (s : State) (i : StId) (n : Fin 4) (q : QReg) : (s.setQuery i n q).apbase = s.apbase := rfl
@[simp] theorem State.setQuery_sbquery (s : State) (i : StId) (n : Fin 4) (q : QReg) : (s.setQuery i n q).sbquery = s.sbquery := rfl
@[simp] theorem State.setQuery_pwrlim (s : State) (i : StId) (n : Fin 4) (q : QReg) : (s.setQuery i n q).pwrlim = s.pwrlim := rfl
@[simp] theorem State.setQuery_pwrnow (s : State) (i : StId) (n : Fin 4) (q : QReg) : (s.setQuery i n q).pwrnow = s.pwrnow := rfl
@[simp] theorem State.setQuery_shares (s : State) (i : StId) (n : Fin 4) (q : QReg) : (s.setQuery i n q).shares = s.shares := rfl
@[simp] theorem State.setQuery_pwrmir (s : State) (i : StId) (n : Fin 4) (q : QReg) : (s.setQuery i n q).pwrmir = s.pwrmir := rfl
@[simp] theorem State.setQuery_pwrseq (s : State) (i : StId) (n : Fin 4) (q : QReg) : (s.setQuery i n q).pwrseq = s.pwrseq := rfl
@[simp] theorem State.setQuery_mailboxes (s : State) (i : StId) (n : Fin 4) (q : QReg) : (s.setQuery i n q).mailboxes = s.mailboxes := rfl
@[simp] theorem State.setQuery_asks (s : State) (i : StId) (n : Fin 4) (q : QReg) : (s.setQuery i n q).asks = s.asks := rfl
@[simp] theorem State.setQuery_vectors (s : State) (i : StId) (n : Fin 4) (q : QReg) : (s.setQuery i n q).vectors = s.vectors := rfl
@[simp] theorem State.setQuery_answer (s : State) (i : StId) (n : Fin 4) (q : QReg) : (s.setQuery i n q).answer = s.answer := rfl
@[simp] theorem State.setQuery_links (s : State) (i : StId) (n : Fin 4) (q : QReg) : (s.setQuery i n q).links = s.links := rfl
@[simp] theorem State.setQuery_bindings (s : State) (i : StId) (n : Fin 4) (q : QReg) : (s.setQuery i n q).bindings = s.bindings := rfl
@[simp] theorem State.setQuery_joins (s : State) (i : StId) (n : Fin 4) (q : QReg) : (s.setQuery i n q).joins = s.joins := rfl
@[simp] theorem State.setQuery_rots (s : State) (i : StId) (n : Fin 4) (q : QReg) : (s.setQuery i n q).rots = s.rots := rfl

/-! ### `State.stir` -/

@[simp] theorem State.stir_grade (s : State) (v : Nat) : (s.stir v).grade = s.grade := rfl
@[simp] theorem State.stir_time (s : State) (v : Nat) : (s.stir v).time = s.time := rfl
@[simp] theorem State.stir_free (s : State) (v : Nat) : (s.stir v).free = s.free := rfl
@[simp] theorem State.stir_nextId (s : State) (v : Nat) : (s.stir v).nextId = s.nextId := rfl
@[simp] theorem State.stir_agenda (s : State) (v : Nat) : (s.stir v).agenda = s.agenda := rfl
@[simp] theorem State.stir_ev (s : State) (v : Nat) : (s.stir v).ev = s.ev := rfl
@[simp] theorem State.stir_inputs (s : State) (v : Nat) : (s.stir v).inputs = s.inputs := rfl
@[simp] theorem State.stir_firing (s : State) (v : Nat) : (s.stir v).firing = s.firing := rfl
@[simp] theorem State.stir_stations (s : State) (v : Nat) : (s.stir v).stations = s.stations := rfl
@[simp] theorem State.stir_routes (s : State) (v : Nat) : (s.stir v).routes = s.routes := rfl
@[simp] theorem State.stir_ports (s : State) (v : Nat) : (s.stir v).ports = s.ports := rfl
@[simp] theorem State.stir_agens (s : State) (v : Nat) : (s.stir v).agens = s.agens := rfl
@[simp] theorem State.stir_launches (s : State) (v : Nat) : (s.stir v).launches = s.launches := rfl
@[simp] theorem State.stir_queues (s : State) (v : Nat) : (s.stir v).queues = s.queues := rfl
@[simp] theorem State.stir_reqs (s : State) (v : Nat) : (s.stir v).reqs = s.reqs := rfl
@[simp] theorem State.stir_paths (s : State) (v : Nat) : (s.stir v).paths = s.paths := rfl
@[simp] theorem State.stir_copies (s : State) (v : Nat) : (s.stir v).copies = s.copies := rfl
@[simp] theorem State.stir_domains (s : State) (v : Nat) : (s.stir v).domains = s.domains := rfl
@[simp] theorem State.stir_bars (s : State) (v : Nat) : (s.stir v).bars = s.bars := rfl
@[simp] theorem State.stir_barMsgs (s : State) (v : Nat) : (s.stir v).barMsgs = s.barMsgs := rfl
@[simp] theorem State.stir_tasks (s : State) (v : Nat) : (s.stir v).tasks = s.tasks := rfl
@[simp] theorem State.stir_marks (s : State) (v : Nat) : (s.stir v).marks = s.marks := rfl
@[simp] theorem State.stir_watermarks (s : State) (v : Nat) : (s.stir v).watermarks = s.watermarks := rfl
@[simp] theorem State.stir_cells (s : State) (v : Nat) : (s.stir v).cells = s.cells := rfl
@[simp] theorem State.stir_mem (s : State) (v : Nat) : (s.stir v).mem = s.mem := rfl
@[simp] theorem State.stir_host (s : State) (v : Nat) : (s.stir v).host = s.host := rfl
@[simp] theorem State.stir_descs (s : State) (v : Nat) : (s.stir v).descs = s.descs := rfl
@[simp] theorem State.stir_roots (s : State) (v : Nat) : (s.stir v).roots = s.roots := rfl
@[simp] theorem State.stir_saveBases (s : State) (v : Nat) : (s.stir v).saveBases = s.saveBases := rfl
@[simp] theorem State.stir_saved (s : State) (v : Nat) : (s.stir v).saved = s.saved := rfl
@[simp] theorem State.stir_l2 (s : State) (v : Nat) : (s.stir v).l2 = s.l2 := rfl
@[simp] theorem State.stir_bad (s : State) (v : Nat) : (s.stir v).bad = s.bad := rfl
@[simp] theorem State.stir_remap (s : State) (v : Nat) : (s.stir v).remap = s.remap := rfl
@[simp] theorem State.stir_sliceOver (s : State) (v : Nat) : (s.stir v).sliceOver = s.sliceOver := rfl
@[simp] theorem State.stir_dies (s : State) (v : Nat) : (s.stir v).dies = s.dies := rfl
@[simp] theorem State.stir_state (s : State) (v : Nat) : (s.stir v).state = s.state := rfl
@[simp] theorem State.stir_bootrsn (s : State) (v : Nat) : (s.stir v).bootrsn = s.bootrsn := rfl
@[simp] theorem State.stir_failcnt (s : State) (v : Nat) : (s.stir v).failcnt = s.failcnt := rfl
@[simp] theorem State.stir_boot (s : State) (v : Nat) : (s.stir v).boot = s.boot := rfl
@[simp] theorem State.stir_bootTime (s : State) (v : Nat) : (s.stir v).bootTime = s.bootTime := rfl
@[simp] theorem State.stir_tlboot (s : State) (v : Nat) : (s.stir v).tlboot = s.tlboot := rfl
@[simp] theorem State.stir_fw (s : State) (v : Nat) : (s.stir v).fw = s.fw := rfl
@[simp] theorem State.stir_log (s : State) (v : Nat) : (s.stir v).log = s.log := rfl
@[simp] theorem State.stir_pilots (s : State) (v : Nat) : (s.stir v).pilots = s.pilots := rfl
@[simp] theorem State.stir_arbiter (s : State) (v : Nat) : (s.stir v).arbiter = s.arbiter := rfl
@[simp] theorem State.stir_owned (s : State) (v : Nat) : (s.stir v).owned = s.owned := rfl
@[simp] theorem State.stir_owner (s : State) (v : Nat) : (s.stir v).owner = s.owner := rfl
@[simp] theorem State.stir_herr (s : State) (v : Nat) : (s.stir v).herr = s.herr := rfl
@[simp] theorem State.stir_attached (s : State) (v : Nat) : (s.stir v).attached = s.attached := rfl
@[simp] theorem State.stir_claims (s : State) (v : Nat) : (s.stir v).claims = s.claims := rfl
@[simp] theorem State.stir_window (s : State) (v : Nat) : (s.stir v).window = s.window := rfl
@[simp] theorem State.stir_apbase (s : State) (v : Nat) : (s.stir v).apbase = s.apbase := rfl
@[simp] theorem State.stir_sbquery (s : State) (v : Nat) : (s.stir v).sbquery = s.sbquery := rfl
@[simp] theorem State.stir_pwrlim (s : State) (v : Nat) : (s.stir v).pwrlim = s.pwrlim := rfl
@[simp] theorem State.stir_pwrnow (s : State) (v : Nat) : (s.stir v).pwrnow = s.pwrnow := rfl
@[simp] theorem State.stir_shares (s : State) (v : Nat) : (s.stir v).shares = s.shares := rfl
@[simp] theorem State.stir_pwrmir (s : State) (v : Nat) : (s.stir v).pwrmir = s.pwrmir := rfl
@[simp] theorem State.stir_pwrseq (s : State) (v : Nat) : (s.stir v).pwrseq = s.pwrseq := rfl
@[simp] theorem State.stir_mailboxes (s : State) (v : Nat) : (s.stir v).mailboxes = s.mailboxes := rfl
@[simp] theorem State.stir_asks (s : State) (v : Nat) : (s.stir v).asks = s.asks := rfl
@[simp] theorem State.stir_vectors (s : State) (v : Nat) : (s.stir v).vectors = s.vectors := rfl
@[simp] theorem State.stir_answer (s : State) (v : Nat) : (s.stir v).answer = s.answer := rfl
@[simp] theorem State.stir_links (s : State) (v : Nat) : (s.stir v).links = s.links := rfl
@[simp] theorem State.stir_bindings (s : State) (v : Nat) : (s.stir v).bindings = s.bindings := rfl
@[simp] theorem State.stir_joins (s : State) (v : Nat) : (s.stir v).joins = s.joins := rfl
@[simp] theorem State.stir_rots (s : State) (v : Nat) : (s.stir v).rots = s.rots := rfl

/-! ### `State.stirAll` -/

@[simp] theorem State.stirAll_grade (s : State) (vs : List Nat) : (s.stirAll vs).grade = s.grade := rfl
@[simp] theorem State.stirAll_time (s : State) (vs : List Nat) : (s.stirAll vs).time = s.time := rfl
@[simp] theorem State.stirAll_free (s : State) (vs : List Nat) : (s.stirAll vs).free = s.free := rfl
@[simp] theorem State.stirAll_nextId (s : State) (vs : List Nat) : (s.stirAll vs).nextId = s.nextId := rfl
@[simp] theorem State.stirAll_agenda (s : State) (vs : List Nat) : (s.stirAll vs).agenda = s.agenda := rfl
@[simp] theorem State.stirAll_ev (s : State) (vs : List Nat) : (s.stirAll vs).ev = s.ev := rfl
@[simp] theorem State.stirAll_inputs (s : State) (vs : List Nat) : (s.stirAll vs).inputs = s.inputs := rfl
@[simp] theorem State.stirAll_firing (s : State) (vs : List Nat) : (s.stirAll vs).firing = s.firing := rfl
@[simp] theorem State.stirAll_stations (s : State) (vs : List Nat) : (s.stirAll vs).stations = s.stations := rfl
@[simp] theorem State.stirAll_routes (s : State) (vs : List Nat) : (s.stirAll vs).routes = s.routes := rfl
@[simp] theorem State.stirAll_ports (s : State) (vs : List Nat) : (s.stirAll vs).ports = s.ports := rfl
@[simp] theorem State.stirAll_agens (s : State) (vs : List Nat) : (s.stirAll vs).agens = s.agens := rfl
@[simp] theorem State.stirAll_launches (s : State) (vs : List Nat) : (s.stirAll vs).launches = s.launches := rfl
@[simp] theorem State.stirAll_queues (s : State) (vs : List Nat) : (s.stirAll vs).queues = s.queues := rfl
@[simp] theorem State.stirAll_reqs (s : State) (vs : List Nat) : (s.stirAll vs).reqs = s.reqs := rfl
@[simp] theorem State.stirAll_paths (s : State) (vs : List Nat) : (s.stirAll vs).paths = s.paths := rfl
@[simp] theorem State.stirAll_copies (s : State) (vs : List Nat) : (s.stirAll vs).copies = s.copies := rfl
@[simp] theorem State.stirAll_domains (s : State) (vs : List Nat) : (s.stirAll vs).domains = s.domains := rfl
@[simp] theorem State.stirAll_bars (s : State) (vs : List Nat) : (s.stirAll vs).bars = s.bars := rfl
@[simp] theorem State.stirAll_barMsgs (s : State) (vs : List Nat) : (s.stirAll vs).barMsgs = s.barMsgs := rfl
@[simp] theorem State.stirAll_tasks (s : State) (vs : List Nat) : (s.stirAll vs).tasks = s.tasks := rfl
@[simp] theorem State.stirAll_marks (s : State) (vs : List Nat) : (s.stirAll vs).marks = s.marks := rfl
@[simp] theorem State.stirAll_watermarks (s : State) (vs : List Nat) : (s.stirAll vs).watermarks = s.watermarks := rfl
@[simp] theorem State.stirAll_cells (s : State) (vs : List Nat) : (s.stirAll vs).cells = s.cells := rfl
@[simp] theorem State.stirAll_mem (s : State) (vs : List Nat) : (s.stirAll vs).mem = s.mem := rfl
@[simp] theorem State.stirAll_host (s : State) (vs : List Nat) : (s.stirAll vs).host = s.host := rfl
@[simp] theorem State.stirAll_descs (s : State) (vs : List Nat) : (s.stirAll vs).descs = s.descs := rfl
@[simp] theorem State.stirAll_roots (s : State) (vs : List Nat) : (s.stirAll vs).roots = s.roots := rfl
@[simp] theorem State.stirAll_saveBases (s : State) (vs : List Nat) : (s.stirAll vs).saveBases = s.saveBases := rfl
@[simp] theorem State.stirAll_saved (s : State) (vs : List Nat) : (s.stirAll vs).saved = s.saved := rfl
@[simp] theorem State.stirAll_l2 (s : State) (vs : List Nat) : (s.stirAll vs).l2 = s.l2 := rfl
@[simp] theorem State.stirAll_bad (s : State) (vs : List Nat) : (s.stirAll vs).bad = s.bad := rfl
@[simp] theorem State.stirAll_remap (s : State) (vs : List Nat) : (s.stirAll vs).remap = s.remap := rfl
@[simp] theorem State.stirAll_sliceOver (s : State) (vs : List Nat) : (s.stirAll vs).sliceOver = s.sliceOver := rfl
@[simp] theorem State.stirAll_dies (s : State) (vs : List Nat) : (s.stirAll vs).dies = s.dies := rfl
@[simp] theorem State.stirAll_state (s : State) (vs : List Nat) : (s.stirAll vs).state = s.state := rfl
@[simp] theorem State.stirAll_bootrsn (s : State) (vs : List Nat) : (s.stirAll vs).bootrsn = s.bootrsn := rfl
@[simp] theorem State.stirAll_failcnt (s : State) (vs : List Nat) : (s.stirAll vs).failcnt = s.failcnt := rfl
@[simp] theorem State.stirAll_boot (s : State) (vs : List Nat) : (s.stirAll vs).boot = s.boot := rfl
@[simp] theorem State.stirAll_bootTime (s : State) (vs : List Nat) : (s.stirAll vs).bootTime = s.bootTime := rfl
@[simp] theorem State.stirAll_tlboot (s : State) (vs : List Nat) : (s.stirAll vs).tlboot = s.tlboot := rfl
@[simp] theorem State.stirAll_fw (s : State) (vs : List Nat) : (s.stirAll vs).fw = s.fw := rfl
@[simp] theorem State.stirAll_log (s : State) (vs : List Nat) : (s.stirAll vs).log = s.log := rfl
@[simp] theorem State.stirAll_pilots (s : State) (vs : List Nat) : (s.stirAll vs).pilots = s.pilots := rfl
@[simp] theorem State.stirAll_arbiter (s : State) (vs : List Nat) : (s.stirAll vs).arbiter = s.arbiter := rfl
@[simp] theorem State.stirAll_owned (s : State) (vs : List Nat) : (s.stirAll vs).owned = s.owned := rfl
@[simp] theorem State.stirAll_owner (s : State) (vs : List Nat) : (s.stirAll vs).owner = s.owner := rfl
@[simp] theorem State.stirAll_herr (s : State) (vs : List Nat) : (s.stirAll vs).herr = s.herr := rfl
@[simp] theorem State.stirAll_attached (s : State) (vs : List Nat) : (s.stirAll vs).attached = s.attached := rfl
@[simp] theorem State.stirAll_claims (s : State) (vs : List Nat) : (s.stirAll vs).claims = s.claims := rfl
@[simp] theorem State.stirAll_window (s : State) (vs : List Nat) : (s.stirAll vs).window = s.window := rfl
@[simp] theorem State.stirAll_apbase (s : State) (vs : List Nat) : (s.stirAll vs).apbase = s.apbase := rfl
@[simp] theorem State.stirAll_sbquery (s : State) (vs : List Nat) : (s.stirAll vs).sbquery = s.sbquery := rfl
@[simp] theorem State.stirAll_pwrlim (s : State) (vs : List Nat) : (s.stirAll vs).pwrlim = s.pwrlim := rfl
@[simp] theorem State.stirAll_pwrnow (s : State) (vs : List Nat) : (s.stirAll vs).pwrnow = s.pwrnow := rfl
@[simp] theorem State.stirAll_shares (s : State) (vs : List Nat) : (s.stirAll vs).shares = s.shares := rfl
@[simp] theorem State.stirAll_pwrmir (s : State) (vs : List Nat) : (s.stirAll vs).pwrmir = s.pwrmir := rfl
@[simp] theorem State.stirAll_pwrseq (s : State) (vs : List Nat) : (s.stirAll vs).pwrseq = s.pwrseq := rfl
@[simp] theorem State.stirAll_mailboxes (s : State) (vs : List Nat) : (s.stirAll vs).mailboxes = s.mailboxes := rfl
@[simp] theorem State.stirAll_asks (s : State) (vs : List Nat) : (s.stirAll vs).asks = s.asks := rfl
@[simp] theorem State.stirAll_vectors (s : State) (vs : List Nat) : (s.stirAll vs).vectors = s.vectors := rfl
@[simp] theorem State.stirAll_answer (s : State) (vs : List Nat) : (s.stirAll vs).answer = s.answer := rfl
@[simp] theorem State.stirAll_links (s : State) (vs : List Nat) : (s.stirAll vs).links = s.links := rfl
@[simp] theorem State.stirAll_bindings (s : State) (vs : List Nat) : (s.stirAll vs).bindings = s.bindings := rfl
@[simp] theorem State.stirAll_joins (s : State) (vs : List Nat) : (s.stirAll vs).joins = s.joins := rfl
@[simp] theorem State.stirAll_rots (s : State) (vs : List Nat) : (s.stirAll vs).rots = s.rots := rfl

/-! ### `State.crossLink` -/

@[simp] theorem State.crossLink_grade (s : State) (n : Nat) : (s.crossLink n).grade = s.grade := rfl
@[simp] theorem State.crossLink_time (s : State) (n : Nat) : (s.crossLink n).time = s.time := rfl
@[simp] theorem State.crossLink_free (s : State) (n : Nat) : (s.crossLink n).free = s.free := rfl
@[simp] theorem State.crossLink_nextId (s : State) (n : Nat) : (s.crossLink n).nextId = s.nextId := rfl
@[simp] theorem State.crossLink_agenda (s : State) (n : Nat) : (s.crossLink n).agenda = s.agenda := rfl
@[simp] theorem State.crossLink_ev (s : State) (n : Nat) : (s.crossLink n).ev = s.ev := rfl
@[simp] theorem State.crossLink_inputs (s : State) (n : Nat) : (s.crossLink n).inputs = s.inputs := rfl
@[simp] theorem State.crossLink_firing (s : State) (n : Nat) : (s.crossLink n).firing = s.firing := rfl
@[simp] theorem State.crossLink_stations (s : State) (n : Nat) : (s.crossLink n).stations = s.stations := rfl
@[simp] theorem State.crossLink_routes (s : State) (n : Nat) : (s.crossLink n).routes = s.routes := rfl
@[simp] theorem State.crossLink_ports (s : State) (n : Nat) : (s.crossLink n).ports = s.ports := rfl
@[simp] theorem State.crossLink_agens (s : State) (n : Nat) : (s.crossLink n).agens = s.agens := rfl
@[simp] theorem State.crossLink_voyages (s : State) (n : Nat) : (s.crossLink n).voyages = s.voyages := rfl
@[simp] theorem State.crossLink_launches (s : State) (n : Nat) : (s.crossLink n).launches = s.launches := rfl
@[simp] theorem State.crossLink_queues (s : State) (n : Nat) : (s.crossLink n).queues = s.queues := rfl
@[simp] theorem State.crossLink_paths (s : State) (n : Nat) : (s.crossLink n).paths = s.paths := rfl
@[simp] theorem State.crossLink_copies (s : State) (n : Nat) : (s.crossLink n).copies = s.copies := rfl
@[simp] theorem State.crossLink_domains (s : State) (n : Nat) : (s.crossLink n).domains = s.domains := rfl
@[simp] theorem State.crossLink_bars (s : State) (n : Nat) : (s.crossLink n).bars = s.bars := rfl
@[simp] theorem State.crossLink_barMsgs (s : State) (n : Nat) : (s.crossLink n).barMsgs = s.barMsgs := rfl
@[simp] theorem State.crossLink_tasks (s : State) (n : Nat) : (s.crossLink n).tasks = s.tasks := rfl
@[simp] theorem State.crossLink_marks (s : State) (n : Nat) : (s.crossLink n).marks = s.marks := rfl
@[simp] theorem State.crossLink_watermarks (s : State) (n : Nat) : (s.crossLink n).watermarks = s.watermarks := rfl
@[simp] theorem State.crossLink_cells (s : State) (n : Nat) : (s.crossLink n).cells = s.cells := rfl
@[simp] theorem State.crossLink_mem (s : State) (n : Nat) : (s.crossLink n).mem = s.mem := rfl
@[simp] theorem State.crossLink_host (s : State) (n : Nat) : (s.crossLink n).host = s.host := rfl
@[simp] theorem State.crossLink_descs (s : State) (n : Nat) : (s.crossLink n).descs = s.descs := rfl
@[simp] theorem State.crossLink_roots (s : State) (n : Nat) : (s.crossLink n).roots = s.roots := rfl
@[simp] theorem State.crossLink_saveBases (s : State) (n : Nat) : (s.crossLink n).saveBases = s.saveBases := rfl
@[simp] theorem State.crossLink_saved (s : State) (n : Nat) : (s.crossLink n).saved = s.saved := rfl
@[simp] theorem State.crossLink_l2 (s : State) (n : Nat) : (s.crossLink n).l2 = s.l2 := rfl
@[simp] theorem State.crossLink_bad (s : State) (n : Nat) : (s.crossLink n).bad = s.bad := rfl
@[simp] theorem State.crossLink_remap (s : State) (n : Nat) : (s.crossLink n).remap = s.remap := rfl
@[simp] theorem State.crossLink_sliceOver (s : State) (n : Nat) : (s.crossLink n).sliceOver = s.sliceOver := rfl
@[simp] theorem State.crossLink_dies (s : State) (n : Nat) : (s.crossLink n).dies = s.dies := rfl
@[simp] theorem State.crossLink_state (s : State) (n : Nat) : (s.crossLink n).state = s.state := rfl
@[simp] theorem State.crossLink_bootrsn (s : State) (n : Nat) : (s.crossLink n).bootrsn = s.bootrsn := rfl
@[simp] theorem State.crossLink_failcnt (s : State) (n : Nat) : (s.crossLink n).failcnt = s.failcnt := rfl
@[simp] theorem State.crossLink_boot (s : State) (n : Nat) : (s.crossLink n).boot = s.boot := rfl
@[simp] theorem State.crossLink_bootTime (s : State) (n : Nat) : (s.crossLink n).bootTime = s.bootTime := rfl
@[simp] theorem State.crossLink_tlboot (s : State) (n : Nat) : (s.crossLink n).tlboot = s.tlboot := rfl
@[simp] theorem State.crossLink_fw (s : State) (n : Nat) : (s.crossLink n).fw = s.fw := rfl
@[simp] theorem State.crossLink_log (s : State) (n : Nat) : (s.crossLink n).log = s.log := rfl
@[simp] theorem State.crossLink_pilots (s : State) (n : Nat) : (s.crossLink n).pilots = s.pilots := rfl
@[simp] theorem State.crossLink_arbiter (s : State) (n : Nat) : (s.crossLink n).arbiter = s.arbiter := rfl
@[simp] theorem State.crossLink_owned (s : State) (n : Nat) : (s.crossLink n).owned = s.owned := rfl
@[simp] theorem State.crossLink_owner (s : State) (n : Nat) : (s.crossLink n).owner = s.owner := rfl
@[simp] theorem State.crossLink_herr (s : State) (n : Nat) : (s.crossLink n).herr = s.herr := rfl
@[simp] theorem State.crossLink_attached (s : State) (n : Nat) : (s.crossLink n).attached = s.attached := rfl
@[simp] theorem State.crossLink_claims (s : State) (n : Nat) : (s.crossLink n).claims = s.claims := rfl
@[simp] theorem State.crossLink_window (s : State) (n : Nat) : (s.crossLink n).window = s.window := rfl
@[simp] theorem State.crossLink_apbase (s : State) (n : Nat) : (s.crossLink n).apbase = s.apbase := rfl
@[simp] theorem State.crossLink_sbquery (s : State) (n : Nat) : (s.crossLink n).sbquery = s.sbquery := rfl
@[simp] theorem State.crossLink_pwrlim (s : State) (n : Nat) : (s.crossLink n).pwrlim = s.pwrlim := rfl
@[simp] theorem State.crossLink_pwrnow (s : State) (n : Nat) : (s.crossLink n).pwrnow = s.pwrnow := rfl
@[simp] theorem State.crossLink_shares (s : State) (n : Nat) : (s.crossLink n).shares = s.shares := rfl
@[simp] theorem State.crossLink_pwrmir (s : State) (n : Nat) : (s.crossLink n).pwrmir = s.pwrmir := rfl
@[simp] theorem State.crossLink_pwrseq (s : State) (n : Nat) : (s.crossLink n).pwrseq = s.pwrseq := rfl
@[simp] theorem State.crossLink_mailboxes (s : State) (n : Nat) : (s.crossLink n).mailboxes = s.mailboxes := rfl
@[simp] theorem State.crossLink_asks (s : State) (n : Nat) : (s.crossLink n).asks = s.asks := rfl
@[simp] theorem State.crossLink_vectors (s : State) (n : Nat) : (s.crossLink n).vectors = s.vectors := rfl
@[simp] theorem State.crossLink_answer (s : State) (n : Nat) : (s.crossLink n).answer = s.answer := rfl
@[simp] theorem State.crossLink_links (s : State) (n : Nat) : (s.crossLink n).links = s.links := rfl
@[simp] theorem State.crossLink_bindings (s : State) (n : Nat) : (s.crossLink n).bindings = s.bindings := rfl
@[simp] theorem State.crossLink_joins (s : State) (n : Nat) : (s.crossLink n).joins = s.joins := rfl
@[simp] theorem State.crossLink_rots (s : State) (n : Nat) : (s.crossLink n).rots = s.rots := rfl

/-! ### `State.dropLaunch` -/

@[simp] theorem State.dropLaunch_grade (s : State) (n : Nat) : (s.dropLaunch n).grade = s.grade := rfl
@[simp] theorem State.dropLaunch_time (s : State) (n : Nat) : (s.dropLaunch n).time = s.time := rfl
@[simp] theorem State.dropLaunch_free (s : State) (n : Nat) : (s.dropLaunch n).free = s.free := rfl
@[simp] theorem State.dropLaunch_nextId (s : State) (n : Nat) : (s.dropLaunch n).nextId = s.nextId := rfl
@[simp] theorem State.dropLaunch_agenda (s : State) (n : Nat) : (s.dropLaunch n).agenda = s.agenda := rfl
@[simp] theorem State.dropLaunch_ev (s : State) (n : Nat) : (s.dropLaunch n).ev = s.ev := rfl
@[simp] theorem State.dropLaunch_inputs (s : State) (n : Nat) : (s.dropLaunch n).inputs = s.inputs := rfl
@[simp] theorem State.dropLaunch_firing (s : State) (n : Nat) : (s.dropLaunch n).firing = s.firing := rfl
@[simp] theorem State.dropLaunch_stations (s : State) (n : Nat) : (s.dropLaunch n).stations = s.stations := rfl
@[simp] theorem State.dropLaunch_routes (s : State) (n : Nat) : (s.dropLaunch n).routes = s.routes := rfl
@[simp] theorem State.dropLaunch_ports (s : State) (n : Nat) : (s.dropLaunch n).ports = s.ports := rfl
@[simp] theorem State.dropLaunch_agens (s : State) (n : Nat) : (s.dropLaunch n).agens = s.agens := rfl
@[simp] theorem State.dropLaunch_voyages (s : State) (n : Nat) : (s.dropLaunch n).voyages = s.voyages := rfl
@[simp] theorem State.dropLaunch_queues (s : State) (n : Nat) : (s.dropLaunch n).queues = s.queues := rfl
@[simp] theorem State.dropLaunch_reqs (s : State) (n : Nat) : (s.dropLaunch n).reqs = s.reqs := rfl
@[simp] theorem State.dropLaunch_paths (s : State) (n : Nat) : (s.dropLaunch n).paths = s.paths := rfl
@[simp] theorem State.dropLaunch_copies (s : State) (n : Nat) : (s.dropLaunch n).copies = s.copies := rfl
@[simp] theorem State.dropLaunch_domains (s : State) (n : Nat) : (s.dropLaunch n).domains = s.domains := rfl
@[simp] theorem State.dropLaunch_bars (s : State) (n : Nat) : (s.dropLaunch n).bars = s.bars := rfl
@[simp] theorem State.dropLaunch_barMsgs (s : State) (n : Nat) : (s.dropLaunch n).barMsgs = s.barMsgs := rfl
@[simp] theorem State.dropLaunch_tasks (s : State) (n : Nat) : (s.dropLaunch n).tasks = s.tasks := rfl
@[simp] theorem State.dropLaunch_marks (s : State) (n : Nat) : (s.dropLaunch n).marks = s.marks := rfl
@[simp] theorem State.dropLaunch_watermarks (s : State) (n : Nat) : (s.dropLaunch n).watermarks = s.watermarks := rfl
@[simp] theorem State.dropLaunch_cells (s : State) (n : Nat) : (s.dropLaunch n).cells = s.cells := rfl
@[simp] theorem State.dropLaunch_mem (s : State) (n : Nat) : (s.dropLaunch n).mem = s.mem := rfl
@[simp] theorem State.dropLaunch_host (s : State) (n : Nat) : (s.dropLaunch n).host = s.host := rfl
@[simp] theorem State.dropLaunch_descs (s : State) (n : Nat) : (s.dropLaunch n).descs = s.descs := rfl
@[simp] theorem State.dropLaunch_roots (s : State) (n : Nat) : (s.dropLaunch n).roots = s.roots := rfl
@[simp] theorem State.dropLaunch_saveBases (s : State) (n : Nat) : (s.dropLaunch n).saveBases = s.saveBases := rfl
@[simp] theorem State.dropLaunch_saved (s : State) (n : Nat) : (s.dropLaunch n).saved = s.saved := rfl
@[simp] theorem State.dropLaunch_l2 (s : State) (n : Nat) : (s.dropLaunch n).l2 = s.l2 := rfl
@[simp] theorem State.dropLaunch_bad (s : State) (n : Nat) : (s.dropLaunch n).bad = s.bad := rfl
@[simp] theorem State.dropLaunch_remap (s : State) (n : Nat) : (s.dropLaunch n).remap = s.remap := rfl
@[simp] theorem State.dropLaunch_sliceOver (s : State) (n : Nat) : (s.dropLaunch n).sliceOver = s.sliceOver := rfl
@[simp] theorem State.dropLaunch_dies (s : State) (n : Nat) : (s.dropLaunch n).dies = s.dies := rfl
@[simp] theorem State.dropLaunch_state (s : State) (n : Nat) : (s.dropLaunch n).state = s.state := rfl
@[simp] theorem State.dropLaunch_bootrsn (s : State) (n : Nat) : (s.dropLaunch n).bootrsn = s.bootrsn := rfl
@[simp] theorem State.dropLaunch_failcnt (s : State) (n : Nat) : (s.dropLaunch n).failcnt = s.failcnt := rfl
@[simp] theorem State.dropLaunch_boot (s : State) (n : Nat) : (s.dropLaunch n).boot = s.boot := rfl
@[simp] theorem State.dropLaunch_bootTime (s : State) (n : Nat) : (s.dropLaunch n).bootTime = s.bootTime := rfl
@[simp] theorem State.dropLaunch_tlboot (s : State) (n : Nat) : (s.dropLaunch n).tlboot = s.tlboot := rfl
@[simp] theorem State.dropLaunch_fw (s : State) (n : Nat) : (s.dropLaunch n).fw = s.fw := rfl
@[simp] theorem State.dropLaunch_log (s : State) (n : Nat) : (s.dropLaunch n).log = s.log := rfl
@[simp] theorem State.dropLaunch_pilots (s : State) (n : Nat) : (s.dropLaunch n).pilots = s.pilots := rfl
@[simp] theorem State.dropLaunch_arbiter (s : State) (n : Nat) : (s.dropLaunch n).arbiter = s.arbiter := rfl
@[simp] theorem State.dropLaunch_owned (s : State) (n : Nat) : (s.dropLaunch n).owned = s.owned := rfl
@[simp] theorem State.dropLaunch_owner (s : State) (n : Nat) : (s.dropLaunch n).owner = s.owner := rfl
@[simp] theorem State.dropLaunch_herr (s : State) (n : Nat) : (s.dropLaunch n).herr = s.herr := rfl
@[simp] theorem State.dropLaunch_attached (s : State) (n : Nat) : (s.dropLaunch n).attached = s.attached := rfl
@[simp] theorem State.dropLaunch_claims (s : State) (n : Nat) : (s.dropLaunch n).claims = s.claims := rfl
@[simp] theorem State.dropLaunch_window (s : State) (n : Nat) : (s.dropLaunch n).window = s.window := rfl
@[simp] theorem State.dropLaunch_apbase (s : State) (n : Nat) : (s.dropLaunch n).apbase = s.apbase := rfl
@[simp] theorem State.dropLaunch_sbquery (s : State) (n : Nat) : (s.dropLaunch n).sbquery = s.sbquery := rfl
@[simp] theorem State.dropLaunch_pwrlim (s : State) (n : Nat) : (s.dropLaunch n).pwrlim = s.pwrlim := rfl
@[simp] theorem State.dropLaunch_pwrnow (s : State) (n : Nat) : (s.dropLaunch n).pwrnow = s.pwrnow := rfl
@[simp] theorem State.dropLaunch_shares (s : State) (n : Nat) : (s.dropLaunch n).shares = s.shares := rfl
@[simp] theorem State.dropLaunch_pwrmir (s : State) (n : Nat) : (s.dropLaunch n).pwrmir = s.pwrmir := rfl
@[simp] theorem State.dropLaunch_pwrseq (s : State) (n : Nat) : (s.dropLaunch n).pwrseq = s.pwrseq := rfl
@[simp] theorem State.dropLaunch_mailboxes (s : State) (n : Nat) : (s.dropLaunch n).mailboxes = s.mailboxes := rfl
@[simp] theorem State.dropLaunch_asks (s : State) (n : Nat) : (s.dropLaunch n).asks = s.asks := rfl
@[simp] theorem State.dropLaunch_vectors (s : State) (n : Nat) : (s.dropLaunch n).vectors = s.vectors := rfl
@[simp] theorem State.dropLaunch_answer (s : State) (n : Nat) : (s.dropLaunch n).answer = s.answer := rfl
@[simp] theorem State.dropLaunch_links (s : State) (n : Nat) : (s.dropLaunch n).links = s.links := rfl
@[simp] theorem State.dropLaunch_bindings (s : State) (n : Nat) : (s.dropLaunch n).bindings = s.bindings := rfl
@[simp] theorem State.dropLaunch_joins (s : State) (n : Nat) : (s.dropLaunch n).joins = s.joins := rfl
@[simp] theorem State.dropLaunch_rots (s : State) (n : Nat) : (s.dropLaunch n).rots = s.rots := rfl

/-! ### `State.zeroFrame` -/

@[simp] theorem State.zeroFrame_grade (s : State) (f : Nat) : (s.zeroFrame f).grade = s.grade := rfl
@[simp] theorem State.zeroFrame_time (s : State) (f : Nat) : (s.zeroFrame f).time = s.time := rfl
@[simp] theorem State.zeroFrame_free (s : State) (f : Nat) : (s.zeroFrame f).free = s.free := rfl
@[simp] theorem State.zeroFrame_nextId (s : State) (f : Nat) : (s.zeroFrame f).nextId = s.nextId := rfl
@[simp] theorem State.zeroFrame_agenda (s : State) (f : Nat) : (s.zeroFrame f).agenda = s.agenda := rfl
@[simp] theorem State.zeroFrame_ev (s : State) (f : Nat) : (s.zeroFrame f).ev = s.ev := rfl
@[simp] theorem State.zeroFrame_inputs (s : State) (f : Nat) : (s.zeroFrame f).inputs = s.inputs := rfl
@[simp] theorem State.zeroFrame_firing (s : State) (f : Nat) : (s.zeroFrame f).firing = s.firing := rfl
@[simp] theorem State.zeroFrame_stations (s : State) (f : Nat) : (s.zeroFrame f).stations = s.stations := rfl
@[simp] theorem State.zeroFrame_routes (s : State) (f : Nat) : (s.zeroFrame f).routes = s.routes := rfl
@[simp] theorem State.zeroFrame_ports (s : State) (f : Nat) : (s.zeroFrame f).ports = s.ports := rfl
@[simp] theorem State.zeroFrame_agens (s : State) (f : Nat) : (s.zeroFrame f).agens = s.agens := rfl
@[simp] theorem State.zeroFrame_voyages (s : State) (f : Nat) : (s.zeroFrame f).voyages = s.voyages := rfl
@[simp] theorem State.zeroFrame_launches (s : State) (f : Nat) : (s.zeroFrame f).launches = s.launches := rfl
@[simp] theorem State.zeroFrame_queues (s : State) (f : Nat) : (s.zeroFrame f).queues = s.queues := rfl
@[simp] theorem State.zeroFrame_reqs (s : State) (f : Nat) : (s.zeroFrame f).reqs = s.reqs := rfl
@[simp] theorem State.zeroFrame_paths (s : State) (f : Nat) : (s.zeroFrame f).paths = s.paths := rfl
@[simp] theorem State.zeroFrame_copies (s : State) (f : Nat) : (s.zeroFrame f).copies = s.copies := rfl
@[simp] theorem State.zeroFrame_domains (s : State) (f : Nat) : (s.zeroFrame f).domains = s.domains := rfl
@[simp] theorem State.zeroFrame_bars (s : State) (f : Nat) : (s.zeroFrame f).bars = s.bars := rfl
@[simp] theorem State.zeroFrame_barMsgs (s : State) (f : Nat) : (s.zeroFrame f).barMsgs = s.barMsgs := rfl
@[simp] theorem State.zeroFrame_tasks (s : State) (f : Nat) : (s.zeroFrame f).tasks = s.tasks := rfl
@[simp] theorem State.zeroFrame_marks (s : State) (f : Nat) : (s.zeroFrame f).marks = s.marks := rfl
@[simp] theorem State.zeroFrame_watermarks (s : State) (f : Nat) : (s.zeroFrame f).watermarks = s.watermarks := rfl
@[simp] theorem State.zeroFrame_cells (s : State) (f : Nat) : (s.zeroFrame f).cells = s.cells := rfl
@[simp] theorem State.zeroFrame_host (s : State) (f : Nat) : (s.zeroFrame f).host = s.host := rfl
@[simp] theorem State.zeroFrame_descs (s : State) (f : Nat) : (s.zeroFrame f).descs = s.descs := rfl
@[simp] theorem State.zeroFrame_roots (s : State) (f : Nat) : (s.zeroFrame f).roots = s.roots := rfl
@[simp] theorem State.zeroFrame_saveBases (s : State) (f : Nat) : (s.zeroFrame f).saveBases = s.saveBases := rfl
@[simp] theorem State.zeroFrame_saved (s : State) (f : Nat) : (s.zeroFrame f).saved = s.saved := rfl
@[simp] theorem State.zeroFrame_bad (s : State) (f : Nat) : (s.zeroFrame f).bad = s.bad := rfl
@[simp] theorem State.zeroFrame_remap (s : State) (f : Nat) : (s.zeroFrame f).remap = s.remap := rfl
@[simp] theorem State.zeroFrame_sliceOver (s : State) (f : Nat) : (s.zeroFrame f).sliceOver = s.sliceOver := rfl
@[simp] theorem State.zeroFrame_dies (s : State) (f : Nat) : (s.zeroFrame f).dies = s.dies := rfl
@[simp] theorem State.zeroFrame_state (s : State) (f : Nat) : (s.zeroFrame f).state = s.state := rfl
@[simp] theorem State.zeroFrame_bootrsn (s : State) (f : Nat) : (s.zeroFrame f).bootrsn = s.bootrsn := rfl
@[simp] theorem State.zeroFrame_failcnt (s : State) (f : Nat) : (s.zeroFrame f).failcnt = s.failcnt := rfl
@[simp] theorem State.zeroFrame_boot (s : State) (f : Nat) : (s.zeroFrame f).boot = s.boot := rfl
@[simp] theorem State.zeroFrame_bootTime (s : State) (f : Nat) : (s.zeroFrame f).bootTime = s.bootTime := rfl
@[simp] theorem State.zeroFrame_tlboot (s : State) (f : Nat) : (s.zeroFrame f).tlboot = s.tlboot := rfl
@[simp] theorem State.zeroFrame_fw (s : State) (f : Nat) : (s.zeroFrame f).fw = s.fw := rfl
@[simp] theorem State.zeroFrame_log (s : State) (f : Nat) : (s.zeroFrame f).log = s.log := rfl
@[simp] theorem State.zeroFrame_pilots (s : State) (f : Nat) : (s.zeroFrame f).pilots = s.pilots := rfl
@[simp] theorem State.zeroFrame_arbiter (s : State) (f : Nat) : (s.zeroFrame f).arbiter = s.arbiter := rfl
@[simp] theorem State.zeroFrame_owned (s : State) (f : Nat) : (s.zeroFrame f).owned = s.owned := rfl
@[simp] theorem State.zeroFrame_owner (s : State) (f : Nat) : (s.zeroFrame f).owner = s.owner := rfl
@[simp] theorem State.zeroFrame_herr (s : State) (f : Nat) : (s.zeroFrame f).herr = s.herr := rfl
@[simp] theorem State.zeroFrame_attached (s : State) (f : Nat) : (s.zeroFrame f).attached = s.attached := rfl
@[simp] theorem State.zeroFrame_claims (s : State) (f : Nat) : (s.zeroFrame f).claims = s.claims := rfl
@[simp] theorem State.zeroFrame_window (s : State) (f : Nat) : (s.zeroFrame f).window = s.window := rfl
@[simp] theorem State.zeroFrame_apbase (s : State) (f : Nat) : (s.zeroFrame f).apbase = s.apbase := rfl
@[simp] theorem State.zeroFrame_sbquery (s : State) (f : Nat) : (s.zeroFrame f).sbquery = s.sbquery := rfl
@[simp] theorem State.zeroFrame_pwrlim (s : State) (f : Nat) : (s.zeroFrame f).pwrlim = s.pwrlim := rfl
@[simp] theorem State.zeroFrame_pwrnow (s : State) (f : Nat) : (s.zeroFrame f).pwrnow = s.pwrnow := rfl
@[simp] theorem State.zeroFrame_shares (s : State) (f : Nat) : (s.zeroFrame f).shares = s.shares := rfl
@[simp] theorem State.zeroFrame_pwrmir (s : State) (f : Nat) : (s.zeroFrame f).pwrmir = s.pwrmir := rfl
@[simp] theorem State.zeroFrame_pwrseq (s : State) (f : Nat) : (s.zeroFrame f).pwrseq = s.pwrseq := rfl
@[simp] theorem State.zeroFrame_mailboxes (s : State) (f : Nat) : (s.zeroFrame f).mailboxes = s.mailboxes := rfl
@[simp] theorem State.zeroFrame_asks (s : State) (f : Nat) : (s.zeroFrame f).asks = s.asks := rfl
@[simp] theorem State.zeroFrame_vectors (s : State) (f : Nat) : (s.zeroFrame f).vectors = s.vectors := rfl
@[simp] theorem State.zeroFrame_answer (s : State) (f : Nat) : (s.zeroFrame f).answer = s.answer := rfl
@[simp] theorem State.zeroFrame_links (s : State) (f : Nat) : (s.zeroFrame f).links = s.links := rfl
@[simp] theorem State.zeroFrame_bindings (s : State) (f : Nat) : (s.zeroFrame f).bindings = s.bindings := rfl
@[simp] theorem State.zeroFrame_joins (s : State) (f : Nat) : (s.zeroFrame f).joins = s.joins := rfl
@[simp] theorem State.zeroFrame_rots (s : State) (f : Nat) : (s.zeroFrame f).rots = s.rots := rfl

/-! ### `State.modQueue` -/

@[simp] theorem State.modQueue_grade (s : State) (n : Nat) (f : Queue → Queue) : (s.modQueue n f).grade = s.grade := rfl
@[simp] theorem State.modQueue_time (s : State) (n : Nat) (f : Queue → Queue) : (s.modQueue n f).time = s.time := rfl
@[simp] theorem State.modQueue_free (s : State) (n : Nat) (f : Queue → Queue) : (s.modQueue n f).free = s.free := rfl
@[simp] theorem State.modQueue_nextId (s : State) (n : Nat) (f : Queue → Queue) : (s.modQueue n f).nextId = s.nextId := rfl
@[simp] theorem State.modQueue_agenda (s : State) (n : Nat) (f : Queue → Queue) : (s.modQueue n f).agenda = s.agenda := rfl
@[simp] theorem State.modQueue_ev (s : State) (n : Nat) (f : Queue → Queue) : (s.modQueue n f).ev = s.ev := rfl
@[simp] theorem State.modQueue_inputs (s : State) (n : Nat) (f : Queue → Queue) : (s.modQueue n f).inputs = s.inputs := rfl
@[simp] theorem State.modQueue_firing (s : State) (n : Nat) (f : Queue → Queue) : (s.modQueue n f).firing = s.firing := rfl
@[simp] theorem State.modQueue_stations (s : State) (n : Nat) (f : Queue → Queue) : (s.modQueue n f).stations = s.stations := rfl
@[simp] theorem State.modQueue_routes (s : State) (n : Nat) (f : Queue → Queue) : (s.modQueue n f).routes = s.routes := rfl
@[simp] theorem State.modQueue_ports (s : State) (n : Nat) (f : Queue → Queue) : (s.modQueue n f).ports = s.ports := rfl
@[simp] theorem State.modQueue_agens (s : State) (n : Nat) (f : Queue → Queue) : (s.modQueue n f).agens = s.agens := rfl
@[simp] theorem State.modQueue_voyages (s : State) (n : Nat) (f : Queue → Queue) : (s.modQueue n f).voyages = s.voyages := rfl
@[simp] theorem State.modQueue_launches (s : State) (n : Nat) (f : Queue → Queue) : (s.modQueue n f).launches = s.launches := rfl
@[simp] theorem State.modQueue_reqs (s : State) (n : Nat) (f : Queue → Queue) : (s.modQueue n f).reqs = s.reqs := rfl
@[simp] theorem State.modQueue_paths (s : State) (n : Nat) (f : Queue → Queue) : (s.modQueue n f).paths = s.paths := rfl
@[simp] theorem State.modQueue_copies (s : State) (n : Nat) (f : Queue → Queue) : (s.modQueue n f).copies = s.copies := rfl
@[simp] theorem State.modQueue_domains (s : State) (n : Nat) (f : Queue → Queue) : (s.modQueue n f).domains = s.domains := rfl
@[simp] theorem State.modQueue_bars (s : State) (n : Nat) (f : Queue → Queue) : (s.modQueue n f).bars = s.bars := rfl
@[simp] theorem State.modQueue_barMsgs (s : State) (n : Nat) (f : Queue → Queue) : (s.modQueue n f).barMsgs = s.barMsgs := rfl
@[simp] theorem State.modQueue_tasks (s : State) (n : Nat) (f : Queue → Queue) : (s.modQueue n f).tasks = s.tasks := rfl
@[simp] theorem State.modQueue_marks (s : State) (n : Nat) (f : Queue → Queue) : (s.modQueue n f).marks = s.marks := rfl
@[simp] theorem State.modQueue_watermarks (s : State) (n : Nat) (f : Queue → Queue) : (s.modQueue n f).watermarks = s.watermarks := rfl
@[simp] theorem State.modQueue_cells (s : State) (n : Nat) (f : Queue → Queue) : (s.modQueue n f).cells = s.cells := rfl
@[simp] theorem State.modQueue_mem (s : State) (n : Nat) (f : Queue → Queue) : (s.modQueue n f).mem = s.mem := rfl
@[simp] theorem State.modQueue_host (s : State) (n : Nat) (f : Queue → Queue) : (s.modQueue n f).host = s.host := rfl
@[simp] theorem State.modQueue_descs (s : State) (n : Nat) (f : Queue → Queue) : (s.modQueue n f).descs = s.descs := rfl
@[simp] theorem State.modQueue_roots (s : State) (n : Nat) (f : Queue → Queue) : (s.modQueue n f).roots = s.roots := rfl
@[simp] theorem State.modQueue_saveBases (s : State) (n : Nat) (f : Queue → Queue) : (s.modQueue n f).saveBases = s.saveBases := rfl
@[simp] theorem State.modQueue_saved (s : State) (n : Nat) (f : Queue → Queue) : (s.modQueue n f).saved = s.saved := rfl
@[simp] theorem State.modQueue_l2 (s : State) (n : Nat) (f : Queue → Queue) : (s.modQueue n f).l2 = s.l2 := rfl
@[simp] theorem State.modQueue_bad (s : State) (n : Nat) (f : Queue → Queue) : (s.modQueue n f).bad = s.bad := rfl
@[simp] theorem State.modQueue_remap (s : State) (n : Nat) (f : Queue → Queue) : (s.modQueue n f).remap = s.remap := rfl
@[simp] theorem State.modQueue_sliceOver (s : State) (n : Nat) (f : Queue → Queue) : (s.modQueue n f).sliceOver = s.sliceOver := rfl
@[simp] theorem State.modQueue_dies (s : State) (n : Nat) (f : Queue → Queue) : (s.modQueue n f).dies = s.dies := rfl
@[simp] theorem State.modQueue_state (s : State) (n : Nat) (f : Queue → Queue) : (s.modQueue n f).state = s.state := rfl
@[simp] theorem State.modQueue_bootrsn (s : State) (n : Nat) (f : Queue → Queue) : (s.modQueue n f).bootrsn = s.bootrsn := rfl
@[simp] theorem State.modQueue_failcnt (s : State) (n : Nat) (f : Queue → Queue) : (s.modQueue n f).failcnt = s.failcnt := rfl
@[simp] theorem State.modQueue_boot (s : State) (n : Nat) (f : Queue → Queue) : (s.modQueue n f).boot = s.boot := rfl
@[simp] theorem State.modQueue_bootTime (s : State) (n : Nat) (f : Queue → Queue) : (s.modQueue n f).bootTime = s.bootTime := rfl
@[simp] theorem State.modQueue_tlboot (s : State) (n : Nat) (f : Queue → Queue) : (s.modQueue n f).tlboot = s.tlboot := rfl
@[simp] theorem State.modQueue_fw (s : State) (n : Nat) (f : Queue → Queue) : (s.modQueue n f).fw = s.fw := rfl
@[simp] theorem State.modQueue_log (s : State) (n : Nat) (f : Queue → Queue) : (s.modQueue n f).log = s.log := rfl
@[simp] theorem State.modQueue_pilots (s : State) (n : Nat) (f : Queue → Queue) : (s.modQueue n f).pilots = s.pilots := rfl
@[simp] theorem State.modQueue_arbiter (s : State) (n : Nat) (f : Queue → Queue) : (s.modQueue n f).arbiter = s.arbiter := rfl
@[simp] theorem State.modQueue_owned (s : State) (n : Nat) (f : Queue → Queue) : (s.modQueue n f).owned = s.owned := rfl
@[simp] theorem State.modQueue_owner (s : State) (n : Nat) (f : Queue → Queue) : (s.modQueue n f).owner = s.owner := rfl
@[simp] theorem State.modQueue_herr (s : State) (n : Nat) (f : Queue → Queue) : (s.modQueue n f).herr = s.herr := rfl
@[simp] theorem State.modQueue_attached (s : State) (n : Nat) (f : Queue → Queue) : (s.modQueue n f).attached = s.attached := rfl
@[simp] theorem State.modQueue_claims (s : State) (n : Nat) (f : Queue → Queue) : (s.modQueue n f).claims = s.claims := rfl
@[simp] theorem State.modQueue_window (s : State) (n : Nat) (f : Queue → Queue) : (s.modQueue n f).window = s.window := rfl
@[simp] theorem State.modQueue_apbase (s : State) (n : Nat) (f : Queue → Queue) : (s.modQueue n f).apbase = s.apbase := rfl
@[simp] theorem State.modQueue_sbquery (s : State) (n : Nat) (f : Queue → Queue) : (s.modQueue n f).sbquery = s.sbquery := rfl
@[simp] theorem State.modQueue_pwrlim (s : State) (n : Nat) (f : Queue → Queue) : (s.modQueue n f).pwrlim = s.pwrlim := rfl
@[simp] theorem State.modQueue_pwrnow (s : State) (n : Nat) (f : Queue → Queue) : (s.modQueue n f).pwrnow = s.pwrnow := rfl
@[simp] theorem State.modQueue_shares (s : State) (n : Nat) (f : Queue → Queue) : (s.modQueue n f).shares = s.shares := rfl
@[simp] theorem State.modQueue_pwrmir (s : State) (n : Nat) (f : Queue → Queue) : (s.modQueue n f).pwrmir = s.pwrmir := rfl
@[simp] theorem State.modQueue_pwrseq (s : State) (n : Nat) (f : Queue → Queue) : (s.modQueue n f).pwrseq = s.pwrseq := rfl
@[simp] theorem State.modQueue_mailboxes (s : State) (n : Nat) (f : Queue → Queue) : (s.modQueue n f).mailboxes = s.mailboxes := rfl
@[simp] theorem State.modQueue_asks (s : State) (n : Nat) (f : Queue → Queue) : (s.modQueue n f).asks = s.asks := rfl
@[simp] theorem State.modQueue_vectors (s : State) (n : Nat) (f : Queue → Queue) : (s.modQueue n f).vectors = s.vectors := rfl
@[simp] theorem State.modQueue_answer (s : State) (n : Nat) (f : Queue → Queue) : (s.modQueue n f).answer = s.answer := rfl
@[simp] theorem State.modQueue_links (s : State) (n : Nat) (f : Queue → Queue) : (s.modQueue n f).links = s.links := rfl
@[simp] theorem State.modQueue_bindings (s : State) (n : Nat) (f : Queue → Queue) : (s.modQueue n f).bindings = s.bindings := rfl
@[simp] theorem State.modQueue_joins (s : State) (n : Nat) (f : Queue → Queue) : (s.modQueue n f).joins = s.joins := rfl
@[simp] theorem State.modQueue_rots (s : State) (n : Nat) (f : Queue → Queue) : (s.modQueue n f).rots = s.rots := rfl

/-! ### `State.modDie` -/

@[simp] theorem State.modDie_grade (s : State) (d : Nat) (f : Die → Die) : (s.modDie d f).grade = s.grade := by unfold State.modDie; split <;> rfl
@[simp] theorem State.modDie_time (s : State) (d : Nat) (f : Die → Die) : (s.modDie d f).time = s.time := by unfold State.modDie; split <;> rfl
@[simp] theorem State.modDie_free (s : State) (d : Nat) (f : Die → Die) : (s.modDie d f).free = s.free := by unfold State.modDie; split <;> rfl
@[simp] theorem State.modDie_nextId (s : State) (d : Nat) (f : Die → Die) : (s.modDie d f).nextId = s.nextId := by unfold State.modDie; split <;> rfl
@[simp] theorem State.modDie_agenda (s : State) (d : Nat) (f : Die → Die) : (s.modDie d f).agenda = s.agenda := by unfold State.modDie; split <;> rfl
@[simp] theorem State.modDie_ev (s : State) (d : Nat) (f : Die → Die) : (s.modDie d f).ev = s.ev := by unfold State.modDie; split <;> rfl
@[simp] theorem State.modDie_inputs (s : State) (d : Nat) (f : Die → Die) : (s.modDie d f).inputs = s.inputs := by unfold State.modDie; split <;> rfl
@[simp] theorem State.modDie_firing (s : State) (d : Nat) (f : Die → Die) : (s.modDie d f).firing = s.firing := by unfold State.modDie; split <;> rfl
@[simp] theorem State.modDie_stations (s : State) (d : Nat) (f : Die → Die) : (s.modDie d f).stations = s.stations := by unfold State.modDie; split <;> rfl
@[simp] theorem State.modDie_routes (s : State) (d : Nat) (f : Die → Die) : (s.modDie d f).routes = s.routes := by unfold State.modDie; split <;> rfl
@[simp] theorem State.modDie_ports (s : State) (d : Nat) (f : Die → Die) : (s.modDie d f).ports = s.ports := by unfold State.modDie; split <;> rfl
@[simp] theorem State.modDie_agens (s : State) (d : Nat) (f : Die → Die) : (s.modDie d f).agens = s.agens := by unfold State.modDie; split <;> rfl
@[simp] theorem State.modDie_voyages (s : State) (d : Nat) (f : Die → Die) : (s.modDie d f).voyages = s.voyages := by unfold State.modDie; split <;> rfl
@[simp] theorem State.modDie_launches (s : State) (d : Nat) (f : Die → Die) : (s.modDie d f).launches = s.launches := by unfold State.modDie; split <;> rfl
@[simp] theorem State.modDie_queues (s : State) (d : Nat) (f : Die → Die) : (s.modDie d f).queues = s.queues := by unfold State.modDie; split <;> rfl
@[simp] theorem State.modDie_reqs (s : State) (d : Nat) (f : Die → Die) : (s.modDie d f).reqs = s.reqs := by unfold State.modDie; split <;> rfl
@[simp] theorem State.modDie_paths (s : State) (d : Nat) (f : Die → Die) : (s.modDie d f).paths = s.paths := by unfold State.modDie; split <;> rfl
@[simp] theorem State.modDie_copies (s : State) (d : Nat) (f : Die → Die) : (s.modDie d f).copies = s.copies := by unfold State.modDie; split <;> rfl
@[simp] theorem State.modDie_domains (s : State) (d : Nat) (f : Die → Die) : (s.modDie d f).domains = s.domains := by unfold State.modDie; split <;> rfl
@[simp] theorem State.modDie_bars (s : State) (d : Nat) (f : Die → Die) : (s.modDie d f).bars = s.bars := by unfold State.modDie; split <;> rfl
@[simp] theorem State.modDie_barMsgs (s : State) (d : Nat) (f : Die → Die) : (s.modDie d f).barMsgs = s.barMsgs := by unfold State.modDie; split <;> rfl
@[simp] theorem State.modDie_tasks (s : State) (d : Nat) (f : Die → Die) : (s.modDie d f).tasks = s.tasks := by unfold State.modDie; split <;> rfl
@[simp] theorem State.modDie_marks (s : State) (d : Nat) (f : Die → Die) : (s.modDie d f).marks = s.marks := by unfold State.modDie; split <;> rfl
@[simp] theorem State.modDie_watermarks (s : State) (d : Nat) (f : Die → Die) : (s.modDie d f).watermarks = s.watermarks := by unfold State.modDie; split <;> rfl
@[simp] theorem State.modDie_cells (s : State) (d : Nat) (f : Die → Die) : (s.modDie d f).cells = s.cells := by unfold State.modDie; split <;> rfl
@[simp] theorem State.modDie_mem (s : State) (d : Nat) (f : Die → Die) : (s.modDie d f).mem = s.mem := by unfold State.modDie; split <;> rfl
@[simp] theorem State.modDie_host (s : State) (d : Nat) (f : Die → Die) : (s.modDie d f).host = s.host := by unfold State.modDie; split <;> rfl
@[simp] theorem State.modDie_descs (s : State) (d : Nat) (f : Die → Die) : (s.modDie d f).descs = s.descs := by unfold State.modDie; split <;> rfl
@[simp] theorem State.modDie_roots (s : State) (d : Nat) (f : Die → Die) : (s.modDie d f).roots = s.roots := by unfold State.modDie; split <;> rfl
@[simp] theorem State.modDie_saveBases (s : State) (d : Nat) (f : Die → Die) : (s.modDie d f).saveBases = s.saveBases := by unfold State.modDie; split <;> rfl
@[simp] theorem State.modDie_saved (s : State) (d : Nat) (f : Die → Die) : (s.modDie d f).saved = s.saved := by unfold State.modDie; split <;> rfl
@[simp] theorem State.modDie_l2 (s : State) (d : Nat) (f : Die → Die) : (s.modDie d f).l2 = s.l2 := by unfold State.modDie; split <;> rfl
@[simp] theorem State.modDie_bad (s : State) (d : Nat) (f : Die → Die) : (s.modDie d f).bad = s.bad := by unfold State.modDie; split <;> rfl
@[simp] theorem State.modDie_remap (s : State) (d : Nat) (f : Die → Die) : (s.modDie d f).remap = s.remap := by unfold State.modDie; split <;> rfl
@[simp] theorem State.modDie_sliceOver (s : State) (d : Nat) (f : Die → Die) : (s.modDie d f).sliceOver = s.sliceOver := by unfold State.modDie; split <;> rfl
@[simp] theorem State.modDie_state (s : State) (d : Nat) (f : Die → Die) : (s.modDie d f).state = s.state := by unfold State.modDie; split <;> rfl
@[simp] theorem State.modDie_bootrsn (s : State) (d : Nat) (f : Die → Die) : (s.modDie d f).bootrsn = s.bootrsn := by unfold State.modDie; split <;> rfl
@[simp] theorem State.modDie_failcnt (s : State) (d : Nat) (f : Die → Die) : (s.modDie d f).failcnt = s.failcnt := by unfold State.modDie; split <;> rfl
@[simp] theorem State.modDie_boot (s : State) (d : Nat) (f : Die → Die) : (s.modDie d f).boot = s.boot := by unfold State.modDie; split <;> rfl
@[simp] theorem State.modDie_bootTime (s : State) (d : Nat) (f : Die → Die) : (s.modDie d f).bootTime = s.bootTime := by unfold State.modDie; split <;> rfl
@[simp] theorem State.modDie_tlboot (s : State) (d : Nat) (f : Die → Die) : (s.modDie d f).tlboot = s.tlboot := by unfold State.modDie; split <;> rfl
@[simp] theorem State.modDie_fw (s : State) (d : Nat) (f : Die → Die) : (s.modDie d f).fw = s.fw := by unfold State.modDie; split <;> rfl
@[simp] theorem State.modDie_log (s : State) (d : Nat) (f : Die → Die) : (s.modDie d f).log = s.log := by unfold State.modDie; split <;> rfl
@[simp] theorem State.modDie_pilots (s : State) (d : Nat) (f : Die → Die) : (s.modDie d f).pilots = s.pilots := by unfold State.modDie; split <;> rfl
@[simp] theorem State.modDie_arbiter (s : State) (d : Nat) (f : Die → Die) : (s.modDie d f).arbiter = s.arbiter := by unfold State.modDie; split <;> rfl
@[simp] theorem State.modDie_owned (s : State) (d : Nat) (f : Die → Die) : (s.modDie d f).owned = s.owned := by unfold State.modDie; split <;> rfl
@[simp] theorem State.modDie_owner (s : State) (d : Nat) (f : Die → Die) : (s.modDie d f).owner = s.owner := by unfold State.modDie; split <;> rfl
@[simp] theorem State.modDie_herr (s : State) (d : Nat) (f : Die → Die) : (s.modDie d f).herr = s.herr := by unfold State.modDie; split <;> rfl
@[simp] theorem State.modDie_attached (s : State) (d : Nat) (f : Die → Die) : (s.modDie d f).attached = s.attached := by unfold State.modDie; split <;> rfl
@[simp] theorem State.modDie_claims (s : State) (d : Nat) (f : Die → Die) : (s.modDie d f).claims = s.claims := by unfold State.modDie; split <;> rfl
@[simp] theorem State.modDie_window (s : State) (d : Nat) (f : Die → Die) : (s.modDie d f).window = s.window := by unfold State.modDie; split <;> rfl
@[simp] theorem State.modDie_apbase (s : State) (d : Nat) (f : Die → Die) : (s.modDie d f).apbase = s.apbase := by unfold State.modDie; split <;> rfl
@[simp] theorem State.modDie_sbquery (s : State) (d : Nat) (f : Die → Die) : (s.modDie d f).sbquery = s.sbquery := by unfold State.modDie; split <;> rfl
@[simp] theorem State.modDie_pwrlim (s : State) (d : Nat) (f : Die → Die) : (s.modDie d f).pwrlim = s.pwrlim := by unfold State.modDie; split <;> rfl
@[simp] theorem State.modDie_pwrnow (s : State) (d : Nat) (f : Die → Die) : (s.modDie d f).pwrnow = s.pwrnow := by unfold State.modDie; split <;> rfl
@[simp] theorem State.modDie_shares (s : State) (d : Nat) (f : Die → Die) : (s.modDie d f).shares = s.shares := by unfold State.modDie; split <;> rfl
@[simp] theorem State.modDie_pwrmir (s : State) (d : Nat) (f : Die → Die) : (s.modDie d f).pwrmir = s.pwrmir := by unfold State.modDie; split <;> rfl
@[simp] theorem State.modDie_pwrseq (s : State) (d : Nat) (f : Die → Die) : (s.modDie d f).pwrseq = s.pwrseq := by unfold State.modDie; split <;> rfl
@[simp] theorem State.modDie_mailboxes (s : State) (d : Nat) (f : Die → Die) : (s.modDie d f).mailboxes = s.mailboxes := by unfold State.modDie; split <;> rfl
@[simp] theorem State.modDie_asks (s : State) (d : Nat) (f : Die → Die) : (s.modDie d f).asks = s.asks := by unfold State.modDie; split <;> rfl
@[simp] theorem State.modDie_vectors (s : State) (d : Nat) (f : Die → Die) : (s.modDie d f).vectors = s.vectors := by unfold State.modDie; split <;> rfl
@[simp] theorem State.modDie_answer (s : State) (d : Nat) (f : Die → Die) : (s.modDie d f).answer = s.answer := by unfold State.modDie; split <;> rfl
@[simp] theorem State.modDie_links (s : State) (d : Nat) (f : Die → Die) : (s.modDie d f).links = s.links := by unfold State.modDie; split <;> rfl
@[simp] theorem State.modDie_bindings (s : State) (d : Nat) (f : Die → Die) : (s.modDie d f).bindings = s.bindings := by unfold State.modDie; split <;> rfl
@[simp] theorem State.modDie_joins (s : State) (d : Nat) (f : Die → Die) : (s.modDie d f).joins = s.joins := by unfold State.modDie; split <;> rfl
@[simp] theorem State.modDie_rots (s : State) (d : Nat) (f : Die → Die) : (s.modDie d f).rots = s.rots := by unfold State.modDie; split <;> rfl

/-! ### `State.modLink` -/

@[simp] theorem State.modLink_grade (s : State) (n : Nat) (f : TLink → TLink) : (s.modLink n f).grade = s.grade := by unfold State.modLink; split <;> rfl
@[simp] theorem State.modLink_time (s : State) (n : Nat) (f : TLink → TLink) : (s.modLink n f).time = s.time := by unfold State.modLink; split <;> rfl
@[simp] theorem State.modLink_free (s : State) (n : Nat) (f : TLink → TLink) : (s.modLink n f).free = s.free := by unfold State.modLink; split <;> rfl
@[simp] theorem State.modLink_nextId (s : State) (n : Nat) (f : TLink → TLink) : (s.modLink n f).nextId = s.nextId := by unfold State.modLink; split <;> rfl
@[simp] theorem State.modLink_agenda (s : State) (n : Nat) (f : TLink → TLink) : (s.modLink n f).agenda = s.agenda := by unfold State.modLink; split <;> rfl
@[simp] theorem State.modLink_ev (s : State) (n : Nat) (f : TLink → TLink) : (s.modLink n f).ev = s.ev := by unfold State.modLink; split <;> rfl
@[simp] theorem State.modLink_inputs (s : State) (n : Nat) (f : TLink → TLink) : (s.modLink n f).inputs = s.inputs := by unfold State.modLink; split <;> rfl
@[simp] theorem State.modLink_firing (s : State) (n : Nat) (f : TLink → TLink) : (s.modLink n f).firing = s.firing := by unfold State.modLink; split <;> rfl
@[simp] theorem State.modLink_stations (s : State) (n : Nat) (f : TLink → TLink) : (s.modLink n f).stations = s.stations := by unfold State.modLink; split <;> rfl
@[simp] theorem State.modLink_routes (s : State) (n : Nat) (f : TLink → TLink) : (s.modLink n f).routes = s.routes := by unfold State.modLink; split <;> rfl
@[simp] theorem State.modLink_ports (s : State) (n : Nat) (f : TLink → TLink) : (s.modLink n f).ports = s.ports := by unfold State.modLink; split <;> rfl
@[simp] theorem State.modLink_agens (s : State) (n : Nat) (f : TLink → TLink) : (s.modLink n f).agens = s.agens := by unfold State.modLink; split <;> rfl
@[simp] theorem State.modLink_voyages (s : State) (n : Nat) (f : TLink → TLink) : (s.modLink n f).voyages = s.voyages := by unfold State.modLink; split <;> rfl
@[simp] theorem State.modLink_launches (s : State) (n : Nat) (f : TLink → TLink) : (s.modLink n f).launches = s.launches := by unfold State.modLink; split <;> rfl
@[simp] theorem State.modLink_queues (s : State) (n : Nat) (f : TLink → TLink) : (s.modLink n f).queues = s.queues := by unfold State.modLink; split <;> rfl
@[simp] theorem State.modLink_reqs (s : State) (n : Nat) (f : TLink → TLink) : (s.modLink n f).reqs = s.reqs := by unfold State.modLink; split <;> rfl
@[simp] theorem State.modLink_paths (s : State) (n : Nat) (f : TLink → TLink) : (s.modLink n f).paths = s.paths := by unfold State.modLink; split <;> rfl
@[simp] theorem State.modLink_copies (s : State) (n : Nat) (f : TLink → TLink) : (s.modLink n f).copies = s.copies := by unfold State.modLink; split <;> rfl
@[simp] theorem State.modLink_domains (s : State) (n : Nat) (f : TLink → TLink) : (s.modLink n f).domains = s.domains := by unfold State.modLink; split <;> rfl
@[simp] theorem State.modLink_bars (s : State) (n : Nat) (f : TLink → TLink) : (s.modLink n f).bars = s.bars := by unfold State.modLink; split <;> rfl
@[simp] theorem State.modLink_barMsgs (s : State) (n : Nat) (f : TLink → TLink) : (s.modLink n f).barMsgs = s.barMsgs := by unfold State.modLink; split <;> rfl
@[simp] theorem State.modLink_tasks (s : State) (n : Nat) (f : TLink → TLink) : (s.modLink n f).tasks = s.tasks := by unfold State.modLink; split <;> rfl
@[simp] theorem State.modLink_marks (s : State) (n : Nat) (f : TLink → TLink) : (s.modLink n f).marks = s.marks := by unfold State.modLink; split <;> rfl
@[simp] theorem State.modLink_watermarks (s : State) (n : Nat) (f : TLink → TLink) : (s.modLink n f).watermarks = s.watermarks := by unfold State.modLink; split <;> rfl
@[simp] theorem State.modLink_cells (s : State) (n : Nat) (f : TLink → TLink) : (s.modLink n f).cells = s.cells := by unfold State.modLink; split <;> rfl
@[simp] theorem State.modLink_mem (s : State) (n : Nat) (f : TLink → TLink) : (s.modLink n f).mem = s.mem := by unfold State.modLink; split <;> rfl
@[simp] theorem State.modLink_host (s : State) (n : Nat) (f : TLink → TLink) : (s.modLink n f).host = s.host := by unfold State.modLink; split <;> rfl
@[simp] theorem State.modLink_descs (s : State) (n : Nat) (f : TLink → TLink) : (s.modLink n f).descs = s.descs := by unfold State.modLink; split <;> rfl
@[simp] theorem State.modLink_roots (s : State) (n : Nat) (f : TLink → TLink) : (s.modLink n f).roots = s.roots := by unfold State.modLink; split <;> rfl
@[simp] theorem State.modLink_saveBases (s : State) (n : Nat) (f : TLink → TLink) : (s.modLink n f).saveBases = s.saveBases := by unfold State.modLink; split <;> rfl
@[simp] theorem State.modLink_saved (s : State) (n : Nat) (f : TLink → TLink) : (s.modLink n f).saved = s.saved := by unfold State.modLink; split <;> rfl
@[simp] theorem State.modLink_l2 (s : State) (n : Nat) (f : TLink → TLink) : (s.modLink n f).l2 = s.l2 := by unfold State.modLink; split <;> rfl
@[simp] theorem State.modLink_bad (s : State) (n : Nat) (f : TLink → TLink) : (s.modLink n f).bad = s.bad := by unfold State.modLink; split <;> rfl
@[simp] theorem State.modLink_remap (s : State) (n : Nat) (f : TLink → TLink) : (s.modLink n f).remap = s.remap := by unfold State.modLink; split <;> rfl
@[simp] theorem State.modLink_sliceOver (s : State) (n : Nat) (f : TLink → TLink) : (s.modLink n f).sliceOver = s.sliceOver := by unfold State.modLink; split <;> rfl
@[simp] theorem State.modLink_dies (s : State) (n : Nat) (f : TLink → TLink) : (s.modLink n f).dies = s.dies := by unfold State.modLink; split <;> rfl
@[simp] theorem State.modLink_state (s : State) (n : Nat) (f : TLink → TLink) : (s.modLink n f).state = s.state := by unfold State.modLink; split <;> rfl
@[simp] theorem State.modLink_bootrsn (s : State) (n : Nat) (f : TLink → TLink) : (s.modLink n f).bootrsn = s.bootrsn := by unfold State.modLink; split <;> rfl
@[simp] theorem State.modLink_failcnt (s : State) (n : Nat) (f : TLink → TLink) : (s.modLink n f).failcnt = s.failcnt := by unfold State.modLink; split <;> rfl
@[simp] theorem State.modLink_boot (s : State) (n : Nat) (f : TLink → TLink) : (s.modLink n f).boot = s.boot := by unfold State.modLink; split <;> rfl
@[simp] theorem State.modLink_bootTime (s : State) (n : Nat) (f : TLink → TLink) : (s.modLink n f).bootTime = s.bootTime := by unfold State.modLink; split <;> rfl
@[simp] theorem State.modLink_tlboot (s : State) (n : Nat) (f : TLink → TLink) : (s.modLink n f).tlboot = s.tlboot := by unfold State.modLink; split <;> rfl
@[simp] theorem State.modLink_fw (s : State) (n : Nat) (f : TLink → TLink) : (s.modLink n f).fw = s.fw := by unfold State.modLink; split <;> rfl
@[simp] theorem State.modLink_log (s : State) (n : Nat) (f : TLink → TLink) : (s.modLink n f).log = s.log := by unfold State.modLink; split <;> rfl
@[simp] theorem State.modLink_pilots (s : State) (n : Nat) (f : TLink → TLink) : (s.modLink n f).pilots = s.pilots := by unfold State.modLink; split <;> rfl
@[simp] theorem State.modLink_arbiter (s : State) (n : Nat) (f : TLink → TLink) : (s.modLink n f).arbiter = s.arbiter := by unfold State.modLink; split <;> rfl
@[simp] theorem State.modLink_owned (s : State) (n : Nat) (f : TLink → TLink) : (s.modLink n f).owned = s.owned := by unfold State.modLink; split <;> rfl
@[simp] theorem State.modLink_owner (s : State) (n : Nat) (f : TLink → TLink) : (s.modLink n f).owner = s.owner := by unfold State.modLink; split <;> rfl
@[simp] theorem State.modLink_herr (s : State) (n : Nat) (f : TLink → TLink) : (s.modLink n f).herr = s.herr := by unfold State.modLink; split <;> rfl
@[simp] theorem State.modLink_attached (s : State) (n : Nat) (f : TLink → TLink) : (s.modLink n f).attached = s.attached := by unfold State.modLink; split <;> rfl
@[simp] theorem State.modLink_claims (s : State) (n : Nat) (f : TLink → TLink) : (s.modLink n f).claims = s.claims := by unfold State.modLink; split <;> rfl
@[simp] theorem State.modLink_window (s : State) (n : Nat) (f : TLink → TLink) : (s.modLink n f).window = s.window := by unfold State.modLink; split <;> rfl
@[simp] theorem State.modLink_apbase (s : State) (n : Nat) (f : TLink → TLink) : (s.modLink n f).apbase = s.apbase := by unfold State.modLink; split <;> rfl
@[simp] theorem State.modLink_sbquery (s : State) (n : Nat) (f : TLink → TLink) : (s.modLink n f).sbquery = s.sbquery := by unfold State.modLink; split <;> rfl
@[simp] theorem State.modLink_pwrlim (s : State) (n : Nat) (f : TLink → TLink) : (s.modLink n f).pwrlim = s.pwrlim := by unfold State.modLink; split <;> rfl
@[simp] theorem State.modLink_pwrnow (s : State) (n : Nat) (f : TLink → TLink) : (s.modLink n f).pwrnow = s.pwrnow := by unfold State.modLink; split <;> rfl
@[simp] theorem State.modLink_shares (s : State) (n : Nat) (f : TLink → TLink) : (s.modLink n f).shares = s.shares := by unfold State.modLink; split <;> rfl
@[simp] theorem State.modLink_pwrmir (s : State) (n : Nat) (f : TLink → TLink) : (s.modLink n f).pwrmir = s.pwrmir := by unfold State.modLink; split <;> rfl
@[simp] theorem State.modLink_pwrseq (s : State) (n : Nat) (f : TLink → TLink) : (s.modLink n f).pwrseq = s.pwrseq := by unfold State.modLink; split <;> rfl
@[simp] theorem State.modLink_mailboxes (s : State) (n : Nat) (f : TLink → TLink) : (s.modLink n f).mailboxes = s.mailboxes := by unfold State.modLink; split <;> rfl
@[simp] theorem State.modLink_asks (s : State) (n : Nat) (f : TLink → TLink) : (s.modLink n f).asks = s.asks := by unfold State.modLink; split <;> rfl
@[simp] theorem State.modLink_vectors (s : State) (n : Nat) (f : TLink → TLink) : (s.modLink n f).vectors = s.vectors := by unfold State.modLink; split <;> rfl
@[simp] theorem State.modLink_answer (s : State) (n : Nat) (f : TLink → TLink) : (s.modLink n f).answer = s.answer := by unfold State.modLink; split <;> rfl
@[simp] theorem State.modLink_bindings (s : State) (n : Nat) (f : TLink → TLink) : (s.modLink n f).bindings = s.bindings := by unfold State.modLink; split <;> rfl
@[simp] theorem State.modLink_joins (s : State) (n : Nat) (f : TLink → TLink) : (s.modLink n f).joins = s.joins := by unfold State.modLink; split <;> rfl
@[simp] theorem State.modLink_rots (s : State) (n : Nat) (f : TLink → TLink) : (s.modLink n f).rots = s.rots := by unfold State.modLink; split <;> rfl

end Sys2Proof.Machine
end

