-- ==== Sys2Proof/Laws/Ops.lean ====
section
/-! SUPPORT. What the shared operations of a firing can do: effects, the commit of a firing, and the firing of a rule leave everything alone that
`RuleFrame` names. -/

namespace Sys2Proof

open Sys2Proof.Machine

theorem RuleFrame.refl (s : State) : RuleFrame s s := by constructor <;> rfl

theorem RuleFrame.trans {s t u : State} (h : RuleFrame s t) (k : RuleFrame t u) : RuleFrame s u := by
  cases h; cases k; constructor <;> simp_all

theorem RuleFrame.ite {s t u : State} {c : Prop} [Decidable c] (h : RuleFrame s t) (k : RuleFrame s u) : RuleFrame s (if c then t else u) := by
  split
  · exact h
  · exact k

end Sys2Proof

namespace Sys2Proof.Machine

open Sys2Proof

variable (s : State)

theorem State.fresh_frame : RuleFrame s s.fresh := by constructor <;> rfl
theorem State.useId_frame (n : Nat) : RuleFrame s (s.useId n) := by constructor <;> rfl
theorem State.later_frame (i : Instr) (a : EvArg) : RuleFrame s (s.later i a) := by constructor <;> rfl
theorem State.lands_frame (i : Instr) (a : EvArg) : RuleFrame s (s.lands i a) := by constructor <;> rfl
theorem State.modStation_frame (i : StId) (f : Station → Station) : RuleFrame s (s.modStation i f) := by constructor <;> rfl
theorem State.modVoyage_frame (v : Nat) (f : Voyage → Voyage) : RuleFrame s (s.modVoyage v f) := by constructor <;> rfl
theorem State.modRegion_frame (v r : Nat) (f : Region → Region) : RuleFrame s (s.modRegion v r f) := by constructor <;> rfl
theorem State.slotTaken_frame (f : Firing) (r : List (Fin 32)) : RuleFrame s (s.slotTaken f r) := by constructor <;> rfl
theorem State.firing_frame (f : Option Firing) : RuleFrame s { s with firing := f } := by constructor <;> rfl
theorem State.reqs_frame (l : List Req) : RuleFrame s { s with reqs := l } := by constructor <;> rfl
theorem State.copies_frame (l : List Copy) : RuleFrame s { s with copies := l } := by constructor <;> rfl
theorem State.barMsgs_frame (l : List BarMsg) : RuleFrame s { s with barMsgs := l } := by constructor <;> rfl
theorem State.tasks_frame (l : List Task) : RuleFrame s { s with tasks := l } := by constructor <;> rfl

theorem State.modFirstHop_frame (st : StId) (o : Fin 8) (f : Fifo → Fifo) : RuleFrame s (s.modFirstHop st o f) := by
  unfold State.modFirstHop
  split
  · exact .refl s
  · split
    · constructor <;> rfl
    · split
      · exact s.modStation_frame _ _
      · exact .refl s

theorem State.pushFault_frame (v r : Nat) (t : Token) : RuleFrame s (s.pushFault v r t) := by
  unfold State.pushFault
  split
  · exact .refl s
  · split
    · exact s.later_frame _ _
    · split
      · exact .refl s
      · split
        · exact (s.modStation_frame _ _).trans (State.fresh_frame _)
        · exact s.later_frame _ _

theorem State.pushEvent_frame (v r : Nat) (t : Token) : RuleFrame s (s.pushEvent v r t) := s.modRegion_frame _ _ _

theorem State.countOverdue_frame (i : StId) : RuleFrame s (s.countOverdue i) := by
  unfold State.countOverdue
  split
  · exact .refl s
  · dsimp only
    split
    · exact s.modStation_frame _ _
    · refine .ite ((s.modStation_frame _ _).trans (State.pushFault_frame _ _ _ _)) (.ite ?_ (s.modStation_frame _ _))
      exact (s.modStation_frame _ _).trans (State.pushEvent_frame _ _ _ _)

theorem State.emit_frame (st : StId) (o : Fin 8) (t : Token) : RuleFrame s (s.emit st o t) := by
  unfold State.emit
  have h := (s.modFirstHop_frame st o (·.push s.nextId (some t) 0)).trans (State.fresh_frame _)
  exact .ite (h.trans (State.countOverdue_frame _ _)) h

theorem State.fillOut_frame (st : StId) (o : Fin 8) (id : Nat) (t : Token) : RuleFrame s (s.fillOut st o id t) := by
  unfold State.fillOut
  have h := s.modFirstHop_frame st o (·.fill id t)
  exact .ite (h.trans (State.countOverdue_frame _ _)) h

theorem State.cancelDest_frame (st : StId) (r : PReg) : RuleFrame s (s.cancelDest st r) := by
  unfold State.cancelDest
  split
  · exact .refl s
  · exact (s.reqs_frame _).trans (State.modStation_frame _ _ _)

theorem State.taskDone_frame (w : Who) : RuleFrame s (s.taskDone w) := by
  unfold State.taskDone
  split
  · exact .refl s
  · exact (s.tasks_frame _).trans (State.modStation_frame _ _ _)

/-! ### One equation for each effect that looks something up -/

theorem State.apply_faultq (w : Who) (t : Token) :
    s.apply w (.faultq t) = (match s.station? w.st with | none => s | some u => s.pushFault u.voy u.reg t) := rfl

theorem State.apply_brk (w : Who) (v : BitVec 32) :
    s.apply w (.brk v) = (match s.station? w.st with
      | none => s
      | some u => s.pushEvent u.voy u.reg (Token.scalar (BitVec.ofNat 64
          (u.rx % 64 + u.ry % 64 * 2 ^ 6 + w.ctx.val * 2 ^ 14 + w.slot.val * 2 ^ 17 + 2 ^ 22 + v.toNat * 2 ^ 32)) ⟨false, 992⟩)) := rfl

theorem State.apply_halt (w : Who) (v : BitVec 32) :
    s.apply w (.halt v) = (match s.station? w.st with
      | none => s
      | some u => s.later .regionHalt
          (.halt u.voy u.reg 0x0C ((faultPayload u w.ctx w.slot ⟨0x0C, v.toNat, 0⟩).extractLsb' 0 128))) := rfl

theorem State.apply_ckpt (w : Who) :
    s.apply w .ckpt = (match s.station? w.st with
      | none => s
      | some u => s.modRegion u.voy u.reg fun r => { r with snap := .pending 0, gen := r.gen + 1 }) := rfl

theorem State.apply_req (w : Who) (r : Req) :
    s.apply w (.req r) =
      (let s := { s with reqs := s.reqs ++ [r] }.useId r.id
       let s := if !r.slack.bg && r.slack.n = 0 then s.countOverdue w.st else s
       let s := if r.credit then s.modStation w.st fun t => { t with credits := t.credits + 1 } else s
       if r.op.monitor then s.modStation w.st fun t => { t with mons := t.mons + 1 } else s) := rfl

theorem State.apply_bar (w : Who) (m : BarMsg) :
    s.apply w (.bar m) = (match m.op with
      | .drop | .look => { s with barMsgs := s.barMsgs ++ [m] }
      | _ => { s with barMsgs := s.barMsgs ++ [m] }.modStation w.st fun t =>
          t.modCtx w.ctx fun c => { c with arrs := setArr m.key (fun a => { a with pending := true }) c.arrs }) := rfl

theorem State.apply_taskFault (w : Who) (t : Token) :
    s.apply w (.taskFault t) = (match s.station? w.st with
      | none => s
      | some u =>
        let s := match u.ctx[w.ctx].running with
          | none => s
          | some id => { s with tasks := s.tasks.map fun (k : Task) => if k.id = id then { k with spoiled := true } else k }
        s.pushFault u.voy u.reg t) := rfl

/-- One effect of a rule. -/
theorem State.apply_frame (w : Who) (e : Effect) : RuleFrame s (s.apply w e) := by
  cases e
  case emit => exact s.emit_frame _ _ _
  case setD => exact (s.cancelDest_frame _ _).trans (State.modStation_frame _ _ _)
  case setV => exact (s.cancelDest_frame _ _).trans (State.modStation_frame _ _ _)
  case pend => exact (s.cancelDest_frame _ _).trans (State.modStation_frame _ _ _)
  case claimOut => exact (s.modFirstHop_frame _ _ _).trans (State.useId_frame _ _)
  case fillOut => exact s.fillOut_frame _ _ _ _
  case claimElem => exact (s.useId_frame _).trans (State.modStation_frame _ _ _)
  case faultq =>
    rw [State.apply_faultq]; split
    · exact .refl s
    · exact s.pushFault_frame _ _ _
  case brk =>
    rw [State.apply_brk]; split
    · exact .refl s
    · exact s.pushEvent_frame _ _ _
  case halt =>
    rw [State.apply_halt]; split
    · exact .refl s
    · exact s.later_frame _ _
  case ckpt =>
    rw [State.apply_ckpt]; split
    · exact .refl s
    · exact s.modRegion_frame _ _ _
  case req r =>
    rw [State.apply_req]
    have h := (s.reqs_frame (s.reqs ++ [r])).trans (State.useId_frame _ r.id)
    have h := RuleFrame.ite (c := (!r.slack.bg && r.slack.n = 0) = true) (h.trans (State.countOverdue_frame _ w.st)) h
    have k := RuleFrame.ite (c := r.credit = true) (h.trans (State.modStation_frame _ w.st fun t => { t with credits := t.credits + 1 })) h
    exact .ite (k.trans (State.modStation_frame _ _ _)) k
  case copy => exact ((s.copies_frame _).trans (State.useId_frame _ _)).trans (State.modStation_frame _ _ _)
  case bar m =>
    rw [State.apply_bar]; split
    · exact s.barMsgs_frame _
    · exact s.barMsgs_frame _
    · exact (s.barMsgs_frame _).trans (State.modStation_frame _ _ _)
  case spawn ts h args =>
    show RuleFrame s (match s.station? w.st with | none => s | some u => _)
    split
    · exact .refl s
    · exact (s.tasks_frame _).trans (State.fresh_frame _)
  case taskDone => exact s.taskDone_frame w
  case taskFault =>
    rw [State.apply_taskFault]; split
    · exact .refl s
    · split
      · exact s.pushFault_frame _ _ _
      · exact (s.tasks_frame _).trans (State.pushFault_frame _ _ _ _)
  all_goals exact s.modStation_frame _ _

/-- Effects in order. -/
theorem State.applyAll_frame (w : Who) (es : List Effect) : ∀ s : State, RuleFrame s (s.applyAll w es) := by
  induction es with
  | nil => exact RuleFrame.refl
  | cons e es ih => exact fun s => (s.apply_frame w e).trans (ih _)

theorem State.launch_frame (w : Who) (lat : Nat) (es : List Effect) : RuleFrame s (s.launch w lat es) := by
  unfold State.launch
  have h := (s.modStation_frame w.st fun t => { t with flights := t.flights ++ [⟨s.nextId, w.ctx, w.slot, lat - 1, es⟩] }).trans (State.fresh_frame _)
  exact .ite (h.trans (State.lands_frame _ _ _)) h

theorem State.consumeStops_frame (w : Who) (t : Station) (es : List Effect) : ∀ s : State, RuleFrame s (s.consumeStops w t es) := by
  induction es with
  | nil => exact RuleFrame.refl
  | cons e es ih =>
    intro s
    refine RuleFrame.trans ?_ (ih _)
    dsimp only
    split
    · split
      · split
        · exact .refl s
        · exact s.modStation_frame _ _
      · exact .refl s
    · exact .refl s

/-- The commit of a firing. -/
theorem commit_frame (e : Env) (x : Fire) : RuleFrame s (commit e s x) := by
  have h := (((State.applyAll_frame e.who x.now s).trans (State.modStation_frame _ e.who.st fun t => t.dropCounters x.now)).trans
    (State.consumeStops_frame e.who e.pre x.now _)).trans
    (State.modStation_frame _ e.who.st fun t => t.modCtx e.who.ctx fun c => c.markFired e.hdr.guard e.slot)
  unfold commit
  dsimp only
  split
  · exact h
  · exact h.trans (State.launch_frame _ _ _ _)

/-- The firing of a rule. -/
theorem fireRule_frame (h : Hdr) (rule : Env → Option Fire) : RuleFrame s (fireRule h rule s) := by
  unfold fireRule
  split
  · exact .refl s
  · split
    · exact s.firing_frame _
    · split
      · exact s.slotTaken_frame _ _
      · dsimp only
        split
        · split
          · exact s.slotTaken_frame _ _
          · exact (s.slotTaken_frame _ _).trans (commit_frame _ _ _)
        · exact s.slotTaken_frame _ _

/-- The meaning of a rule word answers a next state. -/
theorem runRule_next (h : Hdr) (rule : Env → Option Fire) : runRule h rule s = .next (fireRule h rule s) := rfl

/-- A rule that is ready under a guard that holds commits what it would do. -/
theorem fireRule_ready {h : Hdr} {rule : Env → Option Fire} {f : Firing} {sl : Fin 32} {rest : List (Fin 32)} {t : Station} {x : Fire}
    (hf : s.firing = some f) (ht : f.todo = sl :: rest) (hs : s.station? f.st = some t) (hg : f.pre.guard f.ctx sl h.guard = true)
    (hx : rule ⟨s, t, f, sl, h⟩ = some x) :
    fireRule h rule s = commit ⟨s, t, f, sl, h⟩ (s.slotTaken f rest) (Env.keepInside ⟨s, t, f, sl, h⟩ x) := by
  simp [fireRule, hf, ht, hs, hg, hx]

/-- A rule that is not ready, or whose guard does not hold, only takes its slot. -/
theorem fireRule_idle {h : Hdr} {rule : Env → Option Fire} {f : Firing} {sl : Fin 32} {rest : List (Fin 32)} {t : Station}
    (hf : s.firing = some f) (ht : f.todo = sl :: rest) (hs : s.station? f.st = some t)
    (hx : f.pre.guard f.ctx sl h.guard = false ∨ rule ⟨s, t, f, sl, h⟩ = none) :
    fireRule h rule s = s.slotTaken f rest := by
  rcases hx with hx | hx
  · simp [fireRule, hf, ht, hs, hx]
  · simp only [fireRule, hf, ht, hs, hx]
    split <;> rfl

end Sys2Proof.Machine
end

