-- ==== Sys2Proof/Tests/Slice0.lean ====
section
/-! SUPPORT. Tests: words written out from the encoding tables of spec/ and what they decode to; ill-formed terms and words, which the checks
refuse; and, for every statement with hypotheses, states and operands that meet them, clause by clause (`witness_<the statement's name>`). -/

namespace Sys2Proof.Tests

open Sys2Proof Sys2Proof.Machine Sys2Proof.Claims

set_option linter.unusedVariables false
set_option Elab.async false

/-! ### Decoding (Tables 5.1 to 5.3 and the operand tables of each class) -/

/-- Each word, in its station kind, decodes to the instruction beside it. -/
def readsAs (l : List (Kind × Word × Instr)) : Bool := l.all fun x => decide (decode? x.1 x.2.1 = some x.2.2)

/-- Each node word, for its host, decodes to the node beside it. -/
def readsNode (l : List (Option Kind × Word × NodeWord)) : Bool := l.all fun x => decide (NodeWord.decode x.1 x.2.1 = some x.2.2)

/-- Scalar integer words (Table 7.2), each field written from the tables, decode to the instruction they stand for. -/
theorem test_words_scalar_1 : readsAs [
    (.c, 0x00000841FC000000, .add ⟨⟨.always, 62⟩, .d 1, .d 2, .reg (.d 3)⟩),
    (.s, 0x2A02FA80000FFFFE, .sub ⟨⟨.pset 5, 0⟩, .o 7, .c 4, .imm 524286⟩),
    (.sd, 0x46057C7C82000000, .mul ⟨⟨.pclr 3, 1⟩, .h 15, .h 3, .reg (.sp .tstamp)⟩),
    (.c, 0x6C060841C2000000, .mulh ⟨⟨.chan 6, 33⟩, .d 1, .d 2, .reg (.d 3)⟩),
    (.s, 0x8408FA807E0FFFFB, .mulhn ⟨⟨.chanStop 2, 63⟩, .o 7, .c 4, .imm 524283⟩),
    (.sd, 0xBA0B7C7CA2000000, .div ⟨⟨.fill 13, 17⟩, .h 15, .h 3, .reg (.sp .tstamp)⟩),
    (.c, 0xD40C0841FC000000, .divn ⟨⟨.free 10, 62⟩, .d 1, .d 2, .reg (.d 3)⟩),
    (.s, 0xE00EFA80000FFFF8, .rem ⟨⟨.init, 0⟩, .o 7, .c 4, .imm 524280⟩),
    (.sd, 0x00117C7C82000000, .remn ⟨⟨.always, 1⟩, .h 15, .h 3, .reg (.sp .tstamp)⟩),
    (.c, 0x2A120841C2000000, .min ⟨⟨.pset 5, 33⟩, .d 1, .d 2, .reg (.d 3)⟩),
    (.s, 0x4614FA807E0FFFF5, .max ⟨⟨.pclr 3, 63⟩, .o 7, .c 4, .imm 524277⟩),
    (.sd, 0x6C177C7CA2000000, .minn ⟨⟨.chan 6, 17⟩, .h 15, .h 3, .reg (.sp .tstamp)⟩),
    (.c, 0x84180841FC000000, .maxn ⟨⟨.chanStop 2, 62⟩, .d 1, .d 2, .reg (.d 3)⟩),
    (.s, 0xBA1AFA80000FFFF2, .and ⟨⟨.fill 13, 0⟩, .o 7, .c 4, .imm 524274⟩),
    (.sd, 0xD41D7C7C82000000, .or ⟨⟨.free 10, 1⟩, .h 15, .h 3, .reg (.sp .tstamp)⟩),
    (.c, 0xE01E0841C2000000, .xor ⟨⟨.init, 33⟩, .d 1, .d 2, .reg (.d 3)⟩),
    (.s, 0x0020FA807E0FFFEF, .andn ⟨⟨.always, 63⟩, .o 7, .c 4, .imm 524271⟩)] := by decide +kernel

/-- Scalar integer words (Table 7.2), each field written from the tables, decode to the instruction they stand for. -/
theorem test_words_scalar_2 : readsAs [
    (.sd, 0x2A237C7CA2000000, .orn ⟨⟨.pset 5, 17⟩, .h 15, .h 3, .reg (.sp .tstamp)⟩),
    (.c, 0x46240841FC000000, .shl ⟨⟨.pclr 3, 62⟩, .d 1, .d 2, .reg (.d 3)⟩),
    (.s, 0x6C26FA80000FFFEC, .shr ⟨⟨.chan 6, 0⟩, .o 7, .c 4, .imm 524268⟩),
    (.sd, 0x84297C7C82000000, .sra ⟨⟨.chanStop 2, 1⟩, .h 15, .h 3, .reg (.sp .tstamp)⟩),
    (.c, 0xBA2A0841C2000000, .rol ⟨⟨.fill 13, 33⟩, .d 1, .d 2, .reg (.d 3)⟩),
    (.c, 0xD42C3F407E000000, .clz ⟨⟨.free 10, 63⟩, .d 7, .sp .seed⟩),
    (.s, 0xE02E320022000000, .ctz ⟨⟨.init, 17⟩, .d 6, .c 0⟩),
    (.sd, 0x0030C0A07C000000, .popc ⟨⟨.always, 62⟩, .o 0, .d 5⟩),
    (.sd, 0x2A3200A200600000, .sel ⟨⟨.pset 5, 0⟩, .d 0, .d 5, .reg (.d 4)⟩ 6),
    (.c, 0x4634DE6002000000, .mov ⟨⟨.pclr 3, 1⟩, .o 3, .sp .sx⟩),
    (.c, 0x6C360800420800F0, .movi ⟨.chan 6, 33⟩ (.d 1) 240),
    (.c, 0x843808407E0C0001, .movhi ⟨⟨.chanStop 2, 63⟩, .d 1, .d 2⟩ 262145),
    (.s, 0xBA3A1880220005E8, .ext ⟨⟨.fill 13, 17⟩, .d 3, .d 4, 40, 23⟩),
    (.s, 0xD43C18807C0005E8, .extn ⟨⟨.free 10, 62⟩, .d 3, .d 4, 40, 23⟩),
    (.s, 0xE03E1880000005E8, .ins ⟨⟨.init, 0⟩, .d 3, .d 4, 40, 23⟩)] := by decide +kernel

/-- Compare and predicate words (Table 7.4), each field written from the tables, decode to the instruction they stand for. -/
theorem test_words_pred : readsAs [
    (.sd, 0x004002C002080001, .ceq ⟨⟨.always, 1⟩, 0, .c 6, .imm 1⟩),
    (.c, 0x2A4208DC42000000, .cne ⟨⟨.pset 5, 33⟩, 1, .d 6, .reg (.sp .wave)⟩),
    (.s, 0x464412C07E080003, .clt ⟨⟨.pclr 3, 63⟩, 2, .c 6, .imm 3⟩),
    (.sd, 0x6C4618DC22000000, .cle ⟨⟨.chan 6, 17⟩, 3, .d 6, .reg (.sp .wave)⟩),
    (.c, 0x844822C07C080005, .cltn ⟨⟨.chanStop 2, 62⟩, 4, .c 6, .imm 5⟩),
    (.s, 0xBA4A28DC00000000, .clen ⟨⟨.fill 13, 0⟩, 5, .d 6, .reg (.sp .wave)⟩),
    (.sd, 0xD44C32C002080007, .cbit ⟨⟨.free 10, 1⟩, 6, .c 6, .imm 7⟩),
    (.c, 0xE04E38DC42000000, .ctst ⟨⟨.init, 33⟩, 7, .d 6, .reg (.sp .wave)⟩),
    (.s, 0x00503800FE000000, .pand ⟨⟨.always, 63⟩, 7, 0, 1⟩),
    (.sd, 0x2A52382122000000, .por ⟨⟨.pset 5, 17⟩, 7, 1, 2⟩),
    (.c, 0x46543841FC000000, .pxor ⟨⟨.pclr 3, 62⟩, 7, 2, 3⟩),
    (.s, 0x6C56386200000000, .pandn ⟨⟨.chan 6, 0⟩, 7, 3, 4⟩),
    (.c, 0x8458284002000000, .pnot ⟨⟨.chanStop 2, 1⟩, 5, 2⟩),
    (.s, 0xBA5A08E042000000, .pmov ⟨⟨.fill 13, 33⟩, 1, 7⟩),
    (.sd, 0xD45C30007E000000, .pset ⟨.free 10, 63⟩ 6),
    (.c, 0xE05E180022000000, .pclr ⟨.init, 17⟩ 3)] := by decide +kernel

/-- Token and channel words (Table 7.5), each field written from the tables, decode to the instruction they stand for. -/
theorem test_words_token : readsAs [
    (.c, 0x0060D0607C4ABCDE, .send ⟨.always, 62⟩ 2 (.d 3) 703710 1),
    (.m, 0x6C62020000000096, .dup ⟨.chan 6, 0⟩ 150 (.c 0) 0),
    (.s, 0x4664012983C00043, .steer ⟨.pclr 3, 1⟩ 67 (.v 1) (.c 3) 7),
    (.sd, 0x6C66E22B42800005, .merge ⟨.chan 6, 33⟩ 4 1 6 5 2),
    (.c, 0x8468ED38FF800000, .gate ⟨.chanStop 2, 63⟩ 5 (.h 9) (.sp .one) 6),
    (.ss, 0x6C6A02E022000000, .drop ⟨.chan 6, 17⟩ (.c 7)),
    (.sd, 0xD46CC0007CE00000, .stop ⟨.free 10, 62⟩ 0 2 3),
    (.c, 0xE06E100000000008, .retag ⟨.init, 0⟩ 2 8),
    (.s, 0x0070CA8303000000, .repeat ⟨.always, 1⟩ 1 4 (some (.d 6)) 0 4),
    (.s, 0x2A70CA80430FFFFF, .repeat ⟨.pset 5, 33⟩ 1 4 none 1048575 4),
    (.m, 0xD472F2407F400000, .count ⟨.free 10, 63⟩ 6 2 5),
    (.sd, 0x6C74DAA822000000, .isect ⟨.chan 6, 17⟩ 3 5 0 0),
    (.c, 0xBA76F1E07C400000, .split ⟨.fill 13, 62⟩ 6 (.v 7) 1)] := by decide +kernel

/-- Handle and system words (Table 7.7), each field written from the tables, decode to the instruction they stand for. -/
theorem test_words_system : readsAs [
    (.c, 0xBA80580200000000, .advp ⟨⟨.fill 13, 0⟩, 11, .reg (.d 4)⟩),
    (.s, 0xD482200002080018, .advc ⟨⟨.free 10, 1⟩, 4, .imm 24⟩),
    (.sd, 0xE08411C042000000, .hfill ⟨⟨.init, 33⟩, .d 2, 14⟩),
    (.c, 0x0086D0207E000000, .hfree ⟨⟨.always, 63⟩, .o 2, 1⟩),
    (.c, 0x2A88300922300000, .hset ⟨⟨.pset 5, 17⟩, 6, .reg (.c 2)⟩ .ccnt),
    (.s, 0x468A21207C200000, .hget ⟨⟨.pclr 3, 62⟩, .d 4, 9⟩ .pcnt),
    (.s, 0x6C8A212000500000, .hget ⟨⟨.chan 6, 0⟩, .d 4, 9⟩ .flags),
    (.sd, 0x848C780002000000, .pub ⟨.chanStop 2, 1⟩ 15),
    (.m, 0xBA8E000042000000, .nop ⟨.fill 13, 33⟩),
    (.ss, 0x84900008FE000000, .trap ⟨⟨.chanStop 2, 63⟩, .reg (.c 1)⟩),
    (.c, 0xE092000022080007, .halt ⟨⟨.init, 17⟩, .imm 7⟩),
    (.c, 0x009400007C0003FF, .yield ⟨.always, 62⟩ 1023),
    (.c, 0x2A96000000000000, .brk ⟨⟨.pset 5, 0⟩, .reg (.d 0)⟩),
    (.sd, 0x469800000208003E, .slk ⟨⟨.pclr 3, 1⟩, .imm 62⟩),
    (.s, 0x6C9A28C042000000, .rdslk ⟨.chan 6, 33⟩ (.d 5) 6),
    (.c, 0x849CE0007E000000, .rdtime ⟨.chanStop 2, 63⟩ (.o 4)),
    (.sd, 0xBA9E180022000000, .ckpt ⟨.fill 13, 17⟩ (.d 3))] := by decide +kernel

/-- Vector words (Tables 5.2, 8.2), each field written from the tables, decode to the instruction they stand for. -/
theorem test_words_vector_1 : readsAs [
    (.sd, 0xD4A0C1547C008000, .vadd ⟨⟨.free 10, 62⟩, 4, .rne, .sat, .o 0, .v 2, .h 8⟩),
    (.c, 0xE0A2494A80044500, .vsub ⟨⟨.init, 0⟩, 34, .rz, .inf, .v 1, .v 2, .c 5⟩),
    (.sd, 0x00A4D14A82042A00, .vmul ⟨⟨.always, 1⟩, 33, .ru, .nan, .o 2, .v 2, .c 5⟩),
    (.c, 0x2AA6595442040C00, .vfma ⟨⟨.pset 5, 33⟩, 32, .rd, .sat, .v 3, .v 2, .h 8⟩),
    (.sd, 0x46A8614AFE018100, .vfms ⟨⟨.pclr 3, 63⟩, 12, .rne, .inf, .v 4, .v 2, .c 5⟩),
    (.c, 0x6CAA694AA2036600, .vnfma ⟨⟨.chan 6, 17⟩, 27, .rz, .nan, .v 5, .v 2, .c 5⟩),
    (.sd, 0x84ACF1547C022800, .vmax ⟨⟨.chanStop 2, 62⟩, 17, .ru, .sat, .o 6, .v 2, .h 8⟩),
    (.c, 0xBAAE794A80008D00, .vmin ⟨⟨.fill 13, 0⟩, 4, .rd, .inf, .v 7, .v 2, .c 5⟩),
    (.sd, 0xD4B0420002008500, .vabs ⟨⟨.free 10, 1⟩, 4, .rz, .inf, .v 0, .c 0⟩),
    (.c, 0xE0B24A2042044A00, .vneg ⟨⟨.init, 33⟩, 34, .ru, .nan, .v 1, .c 1⟩),
    (.sd, 0x00B452407E042C00, .vrcp ⟨⟨.always, 63⟩, 33, .rd, .sat, .v 2, .c 2⟩),
    (.c, 0x2AB65A6022040100, .vrsq ⟨⟨.pset 5, 17⟩, 32, .rne, .inf, .v 3, .c 3⟩),
    (.sd, 0x46B862807C018600, .vexp2 ⟨⟨.pclr 3, 62⟩, 12, .rz, .nan, .v 4, .c 4⟩),
    (.c, 0x6CBA6AA000036800, .vlog2 ⟨⟨.chan 6, 0⟩, 27, .ru, .sat, .v 5, .c 5⟩),
    (.sd, 0x84BC72C002022D00, .vsqrt ⟨⟨.chanStop 2, 1⟩, 17, .rd, .inf, .v 6, .c 6⟩),
    (.c, 0xBABE192742044404, .vdot ⟨⟨.fill 13, 33⟩, 34, .rz, .sat, .d 3, .v 1, .v 6⟩ 4),
    (.c, 0xD4C0D9277E144221, .vsum ⟨⟨.free 10, 63⟩, 34, .rne, .nan, .o 3, .v 1, some (.v 6), 33⟩)] := by decide +kernel

/-- Vector words (Tables 5.2, 8.2), each field written from the tables, decode to the instruction they stand for. -/
theorem test_words_vector_2 : readsAs [
    (.sd, 0xE0C23A2022054026, .vrmax ⟨⟨.init, 17⟩, 42, .rne, .sat, .d 7, .c 1, none, 38⟩),
    (.sd, 0x00C479A07C040D04, .vrmin ⟨⟨.always, 62⟩, 32, .rd, .inf, .v 7, .v 5, none, 4⟩),
    (.c, 0x2AC641A7000090E2, .vcvt ⟨⟨.pset 5, 0⟩, 4, .sr, .sat, .v 0, .v 5, some (.v 6), 34, 3, false⟩),
    (.sd, 0x46C641A002148066, .vcvt ⟨⟨.pclr 3, 1⟩, 36, .rne, .sat, .v 0, .v 5, none, 38, 1, true⟩),
    (.c, 0x6CC8594042008022, .vqnt ⟨⟨.chan 6, 33⟩, 4, .rne, .sat, .v 3, .v 2, none, 34, 0, false⟩),
    (.c, 0x84CA61607E044984, .vdqt ⟨⟨.chanStop 2, 63⟩, 34, .ru, .inf, .v 4, .v 3, none, 4, 2, false⟩),
    (.sd, 0xBACC6164A2144900, .vrot ⟨⟨.fill 13, 17⟩, 34, .ru, .inf, .v 4, .v 3, .v 1⟩ true),
    (.c, 0xD4CE61607C080081, .vsscl ⟨.free 10, 62⟩ (.v 4) (.v 3) (.aux 129)),
    (.c, 0xE0D0216000000000, .vgscl ⟨⟨.init, 0⟩, .d 4, .v 3⟩),
    (.c, 0x00D2E16002058000, .vtag ⟨.always, 1⟩ 44 (.o 4) (.v 3)),
    (.c, 0x2AD5216042000000, .vmov ⟨⟨.pset 5, 33⟩, .h 4, .v 3⟩),
    (.c, 0x46D660607E054000, .vbcst ⟨.pclr 3, 63⟩ 42 (.v 4) (.d 3) none),
    (.sd, 0x6CD66160221C400F, .vbcst ⟨.chan 6, 17⟩ 34 (.v 4) (.v 3) (some (.aux 15))),
    (.sd, 0x84D66163FC144000, .vbcst ⟨.chanStop 2, 62⟩ 34 (.v 4) (.v 3) (some (.reg (.d 7)))),
    (.c, 0xBAD8616500008600, .vshuf ⟨⟨.fill 13, 0⟩, 4, .rz, .nan, .v 4, .v 3, .v 2⟩),
    (.c, 0xD4DA216102008000, .vext ⟨⟨.free 10, 1⟩, 4, .d 4, .v 3, .reg (.d 2)⟩),
    (.sd, 0xE0DC6060420C201F, .vins ⟨⟨.init, 33⟩, 33, .v 4, .d 3, .aux 31⟩)] := by decide +kernel

/-- Vector words (Tables 5.2, 8.2), each field written from the tables, decode to the instruction they stand for. -/
theorem test_words_vector_3 : readsAs [
    (.sd, 0x00DE4949FE008000, .vceq ⟨⟨.always, 63⟩, 4, .v 1, .v 2, .c 3⟩),
    (.c, 0x2AE04949A2044000, .vclt ⟨⟨.pset 5, 17⟩, 34, .v 1, .v 2, .c 3⟩),
    (.sd, 0x46E24949FC042000, .vcle ⟨⟨.pclr 3, 62⟩, 33, .v 1, .v 2, .c 3⟩),
    (.c, 0x6CE4494580044E00, .vsel ⟨⟨.chan 6, 0⟩, 34, .rd, .nan, .v 1, .v 2, .v 3⟩),
    (.sd, 0x84E6494782148000, .viadd ⟨⟨.chanStop 2, 1⟩, 36, .v 1, .v 2, .reg (.v 7), true⟩),
    (.c, 0xBAE8CA40420CA0C1, .visub ⟨⟨.fill 13, 33⟩, 37, .o 1, .c 2, .aux 193, false⟩),
    (.sd, 0xD4EA4947FE14C000, .vimul ⟨⟨.free 10, 63⟩, 38, .v 1, .v 2, .reg (.v 7), true⟩),
    (.c, 0xE0ECCA40220CE0C3, .vishl ⟨⟨.init, 17⟩, 39, .o 1, .c 2, .aux 195, false⟩),
    (.sd, 0x00EE4947FC050000, .vishr ⟨⟨.always, 62⟩, 40, .v 1, .v 2, .reg (.v 7), false⟩),
    (.c, 0x2AF0CA40000D20C5, .vand ⟨⟨.pset 5, 0⟩, 41, .o 1, .c 2, .aux 197, false⟩),
    (.sd, 0x46F2494782054000, .vor ⟨⟨.pclr 3, 1⟩, 42, .v 1, .v 2, .reg (.v 7), false⟩),
    (.c, 0x6CF4CA40420D60C7, .vxor ⟨⟨.chan 6, 33⟩, 43, .o 1, .c 2, .aux 199, false⟩),
    (.c, 0x84F64945FE058000, .xadd ⟨.chanStop 2, 63⟩ (.v 1) (.v 2) (.v 3)),
    (.sd, 0xBAF8F14822044000, .xcvt ⟨⟨.fill 13, 17⟩, 34, .o 6, .v 2, .reg (.c 0)⟩),
    (.sd, 0xD4FA68007C044000, .vclr ⟨.free 10, 62⟩ 34 (.v 5)),
    (.c, 0xE0FC919E00000000, .vpark ⟨⟨.init, 0⟩, 2, 2, 4, 60, false, false⟩),
    (.sd, 0x00FE45FC02100001, .vunpark ⟨⟨.always, 1⟩, 5, 7, 0, 56, true, true⟩)] := by decide +kernel

/-- Matrix station words (Table 15.1), each field written from the tables, decode to the instruction they stand for. -/
theorem test_words_matrix : readsAs [
    (.m, 0xBB00634042400008, .mcfg ⟨.fill 13, 33⟩ 0 2 none .tile .g0 8),
    (.m, 0xD5006BA9FE20FFFF, .mcfg ⟨.free 10, 63⟩ 1 5 (some 3) .g1 .tile 65535),
    (.m, 0xE102420022000004, .tfill ⟨.init, 17⟩ 0 (some 0) 4),
    (.m, 0x01025E007C000000, .tfill ⟨.always, 62⟩ 3 none 0),
    (.m, 0x6D04500000000001, .tmark ⟨.chan 6, 0⟩ 2 true),
    (.m, 0x8506680002000000, .tdrain ⟨.chanStop 2, 1⟩ 1),
    (.m, 0xBB086104C2200000, .mma ⟨⟨.fill 13, 33⟩, 0, 0, 1, false, true⟩),
    (.m, 0xD50A69657E100000, .mmat ⟨⟨.free 10, 63⟩, 1, 3, 2, true, false⟩),
    (.m, 0xE10C680022000000, .mclr ⟨.init, 17⟩ 1),
    (.m, 0x010E60007C1003FF, .mnorm ⟨.always, 62⟩ 0 (some 1023)),
    (.m, 0x6D0E600000000000, .mnorm ⟨.chan 6, 0⟩ 0 none),
    (.m, 0x8510680002000201, .mexp ⟨.chanStop 2, 1⟩ 1 513),
    (.m, 0xBB127CE04200003F, .mscap ⟨.fill 13, 33⟩ 1 (.h 7) 63 false),
    (.m, 0xD51272E07E100000, .mscap ⟨.free 10, 63⟩ 0 (.c 7) 0 true),
    (.m, 0xE114F80022000000, .mpstat ⟨.init, 17⟩ 7),
    (.m, 0x0116C9A07C000161, .mrow ⟨.always, 62⟩ 1 (.a 1) 33 5)] := by decide +kernel

/-- Memory words (Tables 5.3, 11.1), each field written from the tables, decode to the instruction they stand for. -/
theorem test_words_memory_1 : readsAs [
    (.c, 0x2B200C4001DFC001, .ld ⟨⟨⟨.pset 5, 0⟩, 14, 127, 0, 1⟩, .d 1, 2, .d 0⟩),
    (.m, 0x8520CC5B8200C205, .ld ⟨⟨⟨.chanStop 2, 1⟩, 0, 3, 4, 5⟩, .o 1, 2, .sp .clk⟩),
    (.s, 0x6D227589C300C205, .ldv ⟨⟨⟨.chan 6, 33⟩, 8, 3, 4, 5⟩, .v 6, 12, .c 3⟩),
    (.c, 0x85251001FE9FC001, .st ⟨⟨⟨.chanStop 2, 63⟩, 4, 127, 0, 1⟩, 2, .d 0, .d 3⟩),
    (.sd, 0xBB274A86A21FBEFE, .stv ⟨⟨⟨.fill 13, 17⟩, 0, 126, 125, 126⟩, 9, .c 4, .v 5⟩),
    (.c, 0xD528DC297C00417F, .ldt ⟨⟨⟨.free 10, 62⟩, 0, 1, 2, 127⟩, .o 3, 1, .c 2⟩),
    (.s, 0xE12A3422001FC001, .lds ⟨⟨⟨.init, 0⟩, 0, 127, 0, 1⟩, .d 6, 1, .d 4⟩),
    (.sd, 0x012D08988200C205, .stw ⟨⟨⟨.always, 1⟩, 0, 3, 4, 5⟩, 1, .d 4, .sp .one⟩),
    (.c, 0x2B2E24C9C21FBEFE, .updw ⟨⟨⟨.pset 5, 33⟩, 0, 126, 125, 126⟩, 4, 6, .c 3⟩),
    (.s, 0x473004C1FE00417F, .reclaim ⟨⟨.pclr 3, 63⟩, 0, 1, 2, 127⟩ 6 (.d 3)),
    (.sd, 0x6D3205A0221FC001, .settle ⟨⟨.chan 6, 17⟩, 0, 127, 0, 1⟩ 13),
    (.c, 0x85342C657C00C205, .atom ⟨⟨⟨.chanStop 2, 62⟩, 0, 3, 4, 5⟩, .d 5, 3, .v 2⟩),
    (.s, 0xBB36646880BFBEFE, .red ⟨⟨⟨.fill 13, 0⟩, 5, 126, 125, 126⟩, 12, 3, .c 1⟩),
    (.sd, 0xD538E4648200417F, .mcst ⟨⟨⟨.free 10, 1⟩, 0, 1, 2, 127⟩, .o 4, 3, .v 1⟩),
    (.m, 0xBB3B1428C21FC001, .cpy ⟨⟨⟨.fill 13, 33⟩, 0, 127, 0, 1⟩, 2, 1, .c 1⟩),
    (.c, 0x013D24A67E00C205, .cpyw ⟨⟨⟨.always, 63⟩, 0, 3, 4, 5⟩, 4, 5, .v 4⟩),
    (.m, 0xE13FFCA8221FBEFE, .pref ⟨⟨⟨.init, 17⟩, 0, 126, 125, 126⟩, 63, 5, .c 0⟩)] := by decide +kernel

/-- Memory words (Tables 5.3, 11.1), each field written from the tables, decode to the instruction they stand for. -/
theorem test_words_memory_2 : readsAs [
    (.s, 0x474004A3FC00417F, .disc ⟨⟨⟨.pclr 3, 62⟩, 0, 1, 2, 127⟩, 0, 5, .d 7⟩),
    (.sd, 0x6D4205E0001FC001, .mnop ⟨⟨.chan 6, 0⟩, 0, 127, 0, 1⟩ 15),
    (.c, 0x85446C610200C205, .xlat ⟨⟨⟨.chanStop 2, 1⟩, 0, 3, 4, 5⟩, .v 5, 3, .d 2⟩),
    (.c, 0xBB460800421FC07F, .fence ⟨⟨.fill 13, 33⟩, 0, 127, 0, 127⟩ .station),
    (.s, 0xD54828007E1FC07F, .acq ⟨⟨.free 10, 63⟩, 0, 127, 0, 127⟩ .pod),
    (.sd, 0xE14A1800221FC07F, .rel ⟨⟨.init, 17⟩, 0, 127, 0, 127⟩ .die),
    (.s, 0x014CEC617D1FBEFE, .ldk ⟨⟨⟨.always, 62⟩, 8, 126, 125, 126⟩, .o 5, 3, .d 2⟩),
    (.sd, 0x2B4F18470000417F, .stk ⟨⟨⟨.pset 5, 0⟩, 0, 1, 2, 127⟩, 3, .d 2, .v 6⟩),
    (.s, 0x4751184B021FC001, .xred ⟨⟨⟨.pclr 3, 1⟩, 0, 127, 0, 1⟩, 3, .d 2, .c 6⟩)] := by decide +kernel

/-- Synchronisation and task words (Table 11.8), each field written from the tables, decode to the instruction they stand for. -/
theorem test_words_sync : readsAs [
    (.c, 0x6D6000A042380004, .bar ⟨⟨.chan 6, 33⟩, .die, 5, .imm 4, 0⟩),
    (.m, 0xD562D7E07E400000, .barw ⟨.free 10, 63⟩ (.o 2) .pkg 63),
    (.s, 0xBB64006022200000, .bard ⟨.fill 13, 17⟩ .quad 3),
    (.sd, 0xD56658E1FC500000, .bars ⟨⟨.free 10, 62⟩, .pod, 7, .reg (.d 3), 11⟩),
    (.c, 0xE168318180000000, .monw ⟨.init, 0⟩ (.d 6) 12 (.d 3)),
    (.s, 0x016A386A82000000, .monc ⟨.always, 1⟩ 7 3 (.c 5)),
    (.sd, 0x2B6DF846C2000000, .tspawn ⟨.pset 5, 33⟩ 63 (.d 2) (.v 5)),
    (.c, 0x476E00007E000000, .tdone ⟨.pclr 3, 63⟩)] := by decide +kernel

/-- Sounding words (Table 18.3), each field written from the tables, decode to the instruction they stand for. -/
theorem test_words_sounding : readsAs [
    (.sd, 0x6D80DA4022000003, .tins ⟨⟨.chan 6, 17⟩, .o 3, 3, .c 2, .d 0⟩),
    (.sd, 0x858218407C000001, .tseal ⟨⟨.chanStop 2, 62⟩, .d 3, 1, .d 2, .d 0⟩),
    (.sd, 0xBB84CE0880000002, .tdrop ⟨⟨.fill 13, 0⟩, .o 1, 2, .sp .zero, .c 1⟩),
    (.sd, 0xD586CA0002001200, .tforkPages ⟨.free 10, 1⟩ (.o 1) 2 1 (.c 0)),
    (.sd, 0xE18608C04210E903, .tforkTree ⟨.init, 33⟩ (.d 1) 9 14 (.d 6) 3),
    (.sd, 0x018811E07E100001, .twalk ⟨.always, 63⟩ (.d 2) 1 7 true),
    (.sd, 0x2B8A580022000071, .tres ⟨.pset 5, 17⟩ (.v 3) 1 7),
    (.sd, 0x478CD0007C000012, .tsum ⟨.pclr 3, 62⟩ (.o 2) 2 true),
    (.sd, 0x6D8E200000000032, .tstat ⟨.chan 6, 0⟩ (.d 4) 2 3),
    (.sd, 0x8590012002005420, .tpar ⟨.chanStop 2, 1⟩ 0 (.v 1) 4 5 2),
    (.sd, 0xBB92028042000003, .tscr ⟨.fill 13, 33⟩ 3 (.c 4)),
    (.sd, 0xD59420007E000002, .tchkQuery ⟨.free 10, 63⟩ (.d 4) 2),
    (.sd, 0xE194E00022000011, .tchkAbort ⟨.init, 17⟩ (.o 4) 1)] := by decide +kernel

/-- Stochastic words (Table 20.4), each field written from the tables, decode to the instruction they stand for. -/
theorem test_words_stochastic : readsAs [
    (.ss, 0x01A10200FC000007, .sgen ⟨.always, 62⟩ 0 (.c 0) 1 7 false),
    (.ss, 0x6DA14F4780100000, .sgen ⟨.chan 6, 0⟩ 9 (.sp .seed) 15 0 true),
    (.ss, 0x85A37C5082000000, .sand ⟨⟨.chanStop 2, 1⟩, 15, 2, 1⟩),
    (.ss, 0xE1A57C5142000000, .sxnor ⟨⟨.init, 33⟩, 15, 2, 2⟩),
    (.ss, 0x01A77C51FE000000, .sor ⟨⟨.always, 63⟩, 15, 2, 3⟩),
    (.ss, 0x6DAD7C5322000000, .smin ⟨⟨.chan 6, 17⟩, 15, 2, 6⟩),
    (.ss, 0x85AF7C53FC000000, .smax ⟨⟨.chanStop 2, 62⟩, 15, 2, 7⟩),
    (.ss, 0xE1A91C9280000006, .smux ⟨⟨.init, 0⟩, 3, 4, 5⟩ 6),
    (.ss, 0x01AB1C8002000000, .snot ⟨⟨.always, 1⟩, 3, 4⟩),
    (.ss, 0x6DB0D50042000003, .scnt ⟨.chan 6, 33⟩ 2 8 3),
    (.ss, 0x85B30C01FE000000, .sregen ⟨⟨.chanStop 2, 63⟩, 1, 0⟩ 3),
    (.ss, 0xE1B50CE622000FFF, .sdly ⟨⟨.init, 17⟩, 1, 7⟩ 4095 12),
    (.ss, 0x01B600007C000003, .slen ⟨.always, 62⟩ 3),
    (.ss, 0x6DB90CE000008001, .scls ⟨⟨.chan 6, 0⟩, 1, 7⟩ 32769),
    (.ss, 0x85BAFCE002000000, .sout ⟨.chanStop 2, 1⟩ 7 7),
    (.ss, 0xE1BD62E042000000, .sin ⟨.init, 33⟩ 12 7)] := by decide +kernel


/-- Node words (R120, Tables 11.7 and 15.6). -/
theorem test_words_nodes : readsNode [
    (some .c, 0x01C2936000000104, .ctn 2 3 4 4 .rne .sat),
    (some .s, 0x01C29360000110C4, .ctn 2 3 4 3 .rz .nan),
    (some .c, 0x01C4834000000000, .nrm 0 2),
    (none, 0x01C7600000000063, .agl 11 99),
    (none, 0x01C9000001234567, .agb true 0x1234567),
    (none, 0x01CA600000000040, .ags 3 64),
    (none, 0x01CD0536400A6000, .agx true 0 2 true 3 3 0x20 1 19),
    (some .m, 0x01CEA8007E600000, .prime 5 1 2 0 63)] := by decide +kernel

/-! ### What the load checks refuse (R130, Table 5.11) -/

theorem test_refused_reservedOpcode : decode .c 0x01520C407C00C205 = .error .reservedOpcode := by decide +kernel
theorem test_refused_notAccepted : loadFailure .m (.add ⟨⟨.always, 62⟩, .d 1, .d 2, .reg (.d 3)⟩) = some .notAccepted := by decide +kernel
theorem test_refused_badGuard : loadFailure .m (.nop ⟨.pset 0, 62⟩) = some .badGuard := by decide +kernel
theorem test_refused_badOperand : loadFailure .c (.add ⟨⟨.always, 62⟩, .v 1, .d 2, .reg (.d 3)⟩) = some .badOperand := by decide +kernel
theorem test_refused_badLiteral : loadFailure .c (.fence ⟨⟨.always, 62⟩, 0, 127, 0, 127⟩ .lane) = some .badLiteral := by decide +kernel
theorem test_refused_badFormat : loadFailure .c (.vadd ⟨⟨.always, 62⟩, 36, .rne, .sat, .v 1, .v 2, .v 3⟩) = some .badFormat := by decide +kernel
theorem test_refused_badRounding : loadFailure .c (.vadd ⟨⟨.always, 62⟩, 34, .sr, .sat, .v 1, .v 2, .v 3⟩) = some .badRounding := by decide +kernel
theorem test_refused_badOrder : loadFailure .c (.ld ⟨⟨⟨.always, 62⟩, 0, 3, 126, 5⟩, .d 1, 2, .d 0⟩) = some .badOrder := by decide +kernel
theorem test_refused_badFlags : loadFailure .c (.ldv ⟨⟨⟨.always, 62⟩, 4, 3, 4, 5⟩, .v 1, 2, .d 0⟩) = some .badFlags := by decide +kernel
theorem test_refused_badLane : loadFailure .c (.vext ⟨⟨.always, 62⟩, 34, .d 1, .v 2, .aux 16⟩) = some .badLane := by decide +kernel
theorem test_refused_badRange : loadFailure .c (.vpark ⟨⟨.always, 62⟩, 2, 1, 7, 0, false, false⟩) = some .badRange := by decide +kernel
theorem test_refused_unusedBits : decode .c 0x00000841FC000001 = .error .unusedBits := by decide +kernel
theorem test_refused_notRuleWord : loadFailure .c .stationCycle = some .notRuleWord := by decide +kernel

/-- R131: a word of zeros is `add d0, d0, d0` in a station with d registers, and refused in the others. -/
theorem test_zero_word : decode .c 0 = .ok (.add ⟨⟨.always, 0⟩, .d 0, .d 0, .reg (.d 0)⟩) ∧
    decode? .m 0 = none ∧ decode? .ss 0 = none := by decide +kernel

/-! ### A small world to meet the hypotheses of the statements in -/

/-- A guard that always holds. -/
abbrev hd : Hdr := ⟨.always, 62⟩

/-- A memory rule's header, first and last of its domain. -/
abbrev mh : MHdr := ⟨hd, 0, 0x7F, 0, 0x7F⟩

def chanOf (t : Token) : Fifo := ⟨4, [⟨1, some t, false, 0, 0⟩], 0⟩

/-- A vector token of one repeated 64-bit lane. -/
def vecTok (f : Tag) (w : Nat) : Token := Token.vec (VReg.plain f w) ⟨false, 992⟩

/-- Heads: a number, binary32 lanes, a stop of level 1, zero, an x320, a request vector (add 1 at address 0x100), a fault; channel 7 is empty. -/
def heads : Vector Fifo 8 :=
  #v[chanOf (Token.scalar 3 ⟨false, 992⟩), chanOf (vecTok 34 0x3F800000), chanOf (Token.stopTok 1 ⟨false, 992⟩), chanOf (Token.scalar 0 ⟨false, 992⟩),
    chanOf (vecTok 44 5), chanOf (vecTok 43 0x100), chanOf { Token.scalar 0 ⟨false, 992⟩ with f := true, fmt := 0 }, Fifo.empty 4]

/-- Handles: empty, a ring with two of four elements, a phase, a plain local one, three of device memory, a full ring, an empty ring. -/
def handles : Vector HEntry 16 :=
  #v[HEntry.empty, ⟨0, 256, .ring, .loc, 34, false, false, false, false, 0, 2, 0, 0, 0⟩, ⟨0, 64, .phase, .loc, 34, false, false, false, false, 0, 0, 0, 0, 0⟩,
    ⟨0, 4096, .plain, .loc, 42, false, false, false, false, 0, 0, 0, 0, 0⟩, ⟨0, 0x100000, .plain, .dev, 42, false, false, false, false, 0, 0, 0, 1, 0⟩,
    ⟨0x200000, 0x100000, .plain, .dev, 42, true, false, true, false, 0, 0, 0, 0, 0⟩, ⟨0x400000, 0x100000, .plain, .dev, 42, true, false, true, false, 0, 0, 0, 0, 0⟩,
    ⟨0, 256, .ring, .loc, 34, false, false, false, false, 0, 4, 0, 0, 0⟩, ⟨0, 256, .ring, .loc, 34, false, false, false, false, 0, 4, 4, 0, 0⟩,
    HEntry.empty, HEntry.empty, HEntry.empty, HEntry.empty, HEntry.empty, HEntry.empty, HEntry.empty]

/-- Vector registers: binary32, binary32, unsigned 64-bit (the descriptor of a copy), x320, binary8, unsigned 32-bit, unsigned 16-bit and none. -/
def vectors : Vector VReg 8 :=
  #v[VReg.plain 34 0x3F800000, VReg.plain 34 0x40000000, VReg.plain 43 (0x40 + 0x1000 * 2 ^ 64 + (64 + 31 * 2 ^ 32) * 2 ^ 128 + 2 ^ 192), VReg.plain 44 9, VReg.plain 4 0x3838, VReg.plain 41 1, VReg.plain 39 2, VReg.zero]

/-- The matrix state: two full tiles, two empty ones, an accumulator with a configuration and one without. -/
def someMat : Mat :=
  let full : Tile := { rows := Vector.replicate 64 1, scales := Vector.replicate 64 unitSide, fmt := 4, st := .full, pos := 0, fill := none, fresh := false, parks := [] }
  let bare : Tile := { full with st := .empty, fmt := 0 }
  { Mat.blank with
    t := #v[full, full, bare, bare]
    a := #v[{ Acc.blank with cfg := some ⟨8, 0, none, .tile, .g0⟩ }, Acc.blank] }

/-- The stream state: three streams of 64 bits of three classes, and a longer one. -/
def someSs : Ss :=
  { Ss.blank with z := (((Ss.blank.z.set 0 ⟨5, 1, 1⟩).set 1 ⟨3, 2, 1⟩).set 2 ⟨9, 4, 1⟩).set 3 ⟨1, 8, 2⟩ }

/-- A walk that has paused. -/
def someWalk : Walk :=
  { exact := false, screen := true, frontier := [], kids := [], done := [], l := X320.empty, acc := [], m := 0, ver := 0, hints := [], cands := [], paused := true,
    locked := false, resumed := false, leaves := 0 }

/-- Query register 0 is bound to a tree, register 1 holds the paused walk. -/
def someSd : Sd :=
  { q := #v[{ QReg.blank with param := BitVec.ofNat 512 (4 + 64 * 2 ^ 8 + 3 * 2 ^ 24 + 0x3F800000 * 2 ^ 96), hn := 5, ht := 6 },
      { QReg.blank with walk := some someWalk, state := 2 }, QReg.blank, QReg.blank],
    eng := none }

/-- A station of the region of `fetchVoyage 0`, of each kind. -/
def stn (k : Kind) : Station :=
  { Station.blank (fetchStation k) k 0 0 (fetchStation k).x (fetchStation k).y 0 with
    d := #v[0, 5, 0x100, 0x108, 0xFFFFFFFFFFFFFFFF, 0x2000, 1, 64], v := vectors, p := 0xA6, h := handles,
    c := if k = .ss then heads.set 4 (chanOf (vecTok 39 2)) else heads,
    mat := if k = .m then some someMat else none, matPre := if k = .m then some someMat else none, ss := if k = .ss then some someSs else none, sd := if k = .sd then some someSd else none }

/-- Outputs 0 to 5 have room, output 6 has none, output 7 has no route. -/
def routeOf (t : Station) (o : Fin 8) : Route :=
    { id := 10 + o.val, voy := t.voy, reg := t.reg, src := t.id, out := o,
      hops := [⟨.mesh, ⟨4, if o.val = 6 then List.replicate 4 ⟨2, some (Token.scalar 1 ⟨false, 992⟩), false, 0, 0⟩ else [], 0⟩, 0, false, none⟩],
      dests := [(⟨0, 7, 0⟩, 0)], bus := false, cross := none, joined := false, closed := false, link := 0, held := 0 }

def outsOf (t : Station) : List Route := ((List.finRange 8).take 7).map (routeOf t)

/-- The running device with that station alone, and slot 0 of its context 0 to run next. -/
def around (t : Station) : State :=
  { State.reset with
    state := 1, nextId := 100, voyages := [fetchVoyage 0], stations := [t], routes := outsOf t, firing := some ⟨t.id, 0, t, [0]⟩ }

def slotOf (t : Station) : Slot := ⟨⟨t.id, 0, t, [0]⟩, 0, [], t⟩

/-- What holds of the one value holds of every value. -/
theorem some_only {α : Type} {p : α → Prop} {o : Option α} {a : α} (h : o = some a) (hp : p a) : ∀ x, o = some x → p x :=
  fun x hx => Option.some.inj (h.symm.trans hx) ▸ hp

theorem fires_around (t : Station) (sl : BitVec 6) : (slotOf t).Fires (around t) ⟨.always, sl⟩ :=
  ⟨rfl, rfl, by simp [around, slotOf, State.station?], rfl⟩

/-- The same device with other parts changed. -/
theorem fires_with (t : Station) (s : State) (sl : BitVec 6) (h1 : s.firing = some (slotOf t).f) (h2 : s.stations = [t]) :
    (slotOf t).Fires s ⟨.always, sl⟩ :=
  ⟨h1, rfl, by simp [h2, slotOf, State.station?], rfl⟩

def noVal : Val := ⟨Token.scalar 0 ⟨false, 0⟩, false, []⟩

/-- What the rule in the slot sees in that world. -/
def see (t : Station) : Env := (slotOf t).env (around t) hd

def rd (t : Station) (a : Opd) : Val := ((see t).read a).getD noVal
def r1 (t : Station) (b : BOp) : Val := ((see t).readOne b).getD noVal
def rB (t : Station) (a : Opd) (b : BOp) : Val × Val × List Effect := ((see t).readB a b).getD (noVal, noVal, [])
def r2 (t : Station) (a b : Opd) : Val × Val × List Effect := ((see t).read2 a b).getD (noVal, noVal, [])
def rN (t : Station) (a : Opd) (n : NOp) : Val × Val × List Effect := ((see t).readN a n).getD (noVal, noVal, [])
def headOf (t : Station) (c : Fin 8) : Token := ((see t).take c).getD noVal.tok

abbrev tc : Station := stn .c
abbrev tm : Station := stn .m
abbrev td : Station := stn .sd
abbrev ts : Station := stn .ss

/-- A station with a word to fire. -/
def tadd : Station := tc.modCtx 0 fun c => { c with rules := [0x000008407C080005] }

/-! ### Mapped pages: tables in frames 1 to 3, pages of ASID 0 in frames from 8 on -/

/-- Level-2 entries: normal pages 0, 0x20 and 0x40, a page of first touch, a shared one, a compressed one, an executable one, a versioned one and one that may be compressed. -/
def entries : List (Nat × Nat) :=
  [(0, 0x19 + 8 * 2 ^ 16), (1, 0x1B), (2, 0x1D + 11 * 2 ^ 16), (3, 0x19 + 12 * 2 ^ 16), (5, 0x39 + 13 * 2 ^ 16), (6, 0x59 + 14 * 2 ^ 16), (7, 0x99 + 15 * 2 ^ 16),
    (0x20, 0x19 + 9 * 2 ^ 16), (0x40, 0x19 + 10 * 2 ^ 16)]

def tables : List Host.Cell :=
  entries.foldl (fun m e => Memory.write m (3 * 2 ^ 16 + 8 * e.1) 8 e.2)
    (Memory.write (Memory.write [] (2 ^ 16) 8 (1 + 2 * 2 ^ 16)) (2 * 2 ^ 16) 8 (1 + 3 * 2 ^ 16))

/-- The frames of the shared and of the compressed page, and two free frames in the pool of die 0. -/
def mapped (s : State) : State :=
  { s with
    mem := tables, roots := [(0, 1)], descs := [⟨11, 2⟩, ⟨12, 1 + 2 ^ 21⟩],
    dies := s.dies.set 0 { s.dies[0] with pool := [20, 21] } }

/-! Equations that a kernel can decide. -/

def isOk {ε α : Type} [DecidableEq α] (x : Except ε α) (a : α) : Bool := match x with | .ok b => decide (b = a) | .error _ => false

theorem ok_eq {ε α : Type} [DecidableEq α] {x : Except ε α} {a : α} (h : isOk x a = true) : x = .ok a := by
  cases x with
  | error e => simp [isOk] at h
  | ok b => simpa [isOk] using h

def isErr {ε α : Type} [DecidableEq ε] (x : Except ε α) (a : ε) : Bool := match x with | .error b => decide (b = a) | .ok _ => false

theorem err_eq {ε α : Type} [DecidableEq ε] {x : Except ε α} {a : ε} (h : isErr x a = true) : x = .error a := by
  cases x with
  | ok b => simp [isErr] at h
  | error e => simpa [isErr] using h

theorem ok_ex {ε α : Type} {x : Except ε α} (h : x.isOk = true) : ∃ a, x = .ok a := by
  cases x with
  | error e => simp [Except.isOk, Except.toBool] at h
  | ok a => exact ⟨a, rfl⟩

theorem some_getD {α : Type} {x : Option α} {d : α} (h : x.isSome = true) : x = some (x.getD d) := by
  cases x with
  | none => simp at h
  | some a => rfl

theorem some_of {α : Type} {x : Option α} (h : x.isSome = true) : ∃ a, x = some a := Option.isSome_iff_exists.mp h

/-! ### Requests and copies -/

/-- A copy of 64 bytes from page 0x20 to page 0x40, and one that waits for a page, as the tree engine may. -/
def cp : Copy :=
  { id := 4, req := 7, voy := 0, reg := 0, st := tc.id, ctx := 0, slot := 0, time := 0, src := ⟨handles[5], 0x200000⟩, dst := ⟨handles[6], 0x400000⟩,
    l0 := 64, dims := [(1, 0, 0)], ch := none, pos := 0, run := true, wait := none, held := 0, asid := 0, slack := ⟨false, 992⟩, task := none, stamp := 0 }
def heldCopy : Copy := { cp with wait := some .notPresent, held := 2100000 }
def copies (k : Copy) : State := { mapped (around tc) with copies := [k] }

/-- A request of rules of `tc` for 8 bytes at the start of page 0x20, which frame 9 holds. -/
def rq (x : Stage) : Req :=
  { id := 7, voy := 0, reg := 0, src := .rules, st := tc.id, ctx := 0, slot := 0, time := 0, op := .load 8 false, h := handles[5], va := 0x200000,
    pa := none, data := 3, y := 0, stamp := 0, pred := 0x7F, own := 0, succ := 0x7F, mf := 0, pass := 0, port := some (0, 3), dest := .d 1,
    slack := ⟨false, 992⟩, epoch := 0, parts := [(0x200000, 9 * 2 ^ 16, 8)], acc := 0, released := false, credit := false, asid := 0, vers := false,
    task := none, held := 0, arrived := 0, way := [], queued := 0, stood := 0, stage := x }
def asks (q : Req) : State := { mapped (around tc) with reqs := [q] }

/-- Operations of the tree engine, the tree at VA 0x200000 and its slots at 0x400000. -/
def job (q : Fin 4) (op : TreeOp) (locks : List (Nat × Word)) : TreeJob :=
  { time := 0, q := q, op := op, ctx := 0, slot := 0, dest := .d 1, slack := ⟨false, 0⟩, h1 := handles[5], h2 := handles[6], h3 := HEntry.empty,
    h4 := HEntry.empty, major := 0, locks := locks, memo := [], step := .plan, res := 0, pages := [],
    bad := none, left := 0, wait := none, held := 0 }
def teng (j : TreeJob) : Station := { td with sd := some { someSd with eng := some j } }

/-! ### Words, steps, scalar and token rules -/

def twoStations : State := { around tc with stations := [tc, tm] }
def t6 : Station := { tc with d := tc.d.set 1 6 }
def trep : Station := tc.modCtx 0 fun c => { c with reps := c.reps.set 0 2 }

/-- States and operands that meet the hypotheses of each clause of `EncodedRulesDecodeBack`. -/
theorem witness_EncodedRulesDecodeBack :
    ∃ (k : Kind) (i : Instr), WellFormed k i :=
  ⟨.c, .add ⟨hd, .d 1, .d 2, .imm 5⟩, by unfold WellFormed; decide +kernel⟩

/-- States and operands that meet the hypotheses of each clause of `DecodedWordsEncodeBack` (part of `DecodingIsExact`). -/
theorem witness_DecodedWordsEncodeBack :
    ∃ (k : Kind) (w : Word) (i : Instr), decode k w = .ok i :=
  ⟨.c, 0x000008407C080005, .add ⟨hd, .d 1, .d 2, .imm 5⟩, by decide +kernel⟩

/-- States and operands that meet the hypotheses of each clause of `SlotRunsItsWord`. -/
theorem witness_SlotRunsItsWord :
    ∃ (s : State) (f : Firing) (i : Fin 32) (rest : List (Fin 32)) (w : Word) (x : Instr), s.firing = some f ∧ f.todo = i :: rest ∧
      f.pre.ctx[f.ctx].rules[i.val]? = some w ∧ decode f.pre.kind w = .ok x :=
  ⟨around tadd, ⟨tadd.id, 0, tadd, [0]⟩, 0, [], 0x000008407C080005, .add ⟨hd, .d 1, .d 2, .imm 5⟩, by decide +kernel⟩

/-- States and operands that meet the hypotheses of each clause of `EventRunsNext`. -/
theorem witness_EventRunsNext :
    (∃ (s : State) (x : Instr) (a : EvArg) (rest : List (Instr × EvArg)), s.firing = none ∧ s.agenda = (x, a) :: rest) ∧
    (∃ s : State, s.firing = none ∧ s.agenda = []) ∧
    (∃ (s : State) (f : Firing), s.firing = some f ∧ f.todo = []) :=
  ⟨⟨{ State.reset with agenda := [(.powerRedivide, .none)] }, .powerRedivide, .none, [], by decide +kernel⟩,
   ⟨State.reset, by decide +kernel⟩,
   ⟨{ State.reset with firing := some ⟨tc.id, 0, tc, []⟩ }, ⟨tc.id, 0, tc, []⟩, by decide +kernel⟩⟩

/-- States and operands that meet the hypotheses of each clause of `RuleWordsLeaveTheDeviceAlone` (part of `RuleWordsActInTheirStation`). -/
theorem witness_RuleWordsLeaveTheDeviceAlone :
    ∃ (i : Instr) (s : State), encodeRaw i ≠ none :=
  ⟨.nop hd, State.reset, by decide +kernel⟩

/-- States and operands that meet the hypotheses of each clause of `IdleRuleTakesOnlyItsSlot` (part of `RuleWordsActInTheirStation`). -/
theorem witness_IdleRuleTakesOnlyItsSlot :
    ∃ (k : Slot) (s : State) (w : Word) (i : Instr) (gk : BitVec 3) (ga : BitVec 4), s.firing = some k.f ∧ k.f.todo = k.sl :: k.rest ∧ s.station?
      k.f.st = some k.t ∧ encode i = w ∧ encodeRaw i ≠ none ∧ gk = w.extractLsb' 61 3 ∧ ga = w.extractLsb' 57 4 ∧ k.f.pre.guard k.f.ctx k.sl
      (Guard.ofCode gk ga) = false :=
  ⟨slotOf tc, around tc, encode (.nop ⟨.pset 0, 62⟩), .nop ⟨.pset 0, 62⟩, 1, 0, by decide +kernel⟩

/-- States and operands that meet the hypotheses of each clause of `StepKeepsMemoryCanonical`. -/
theorem witness_StepKeepsMemoryCanonical :
    ∃ s t : State, MemoryCanonical s ∧ step s = .next t :=
  ⟨State.reset, State.reset.tick, by unfold MemoryCanonical; decide +kernel, rfl⟩

/-- States and operands that meet the hypotheses of each clause of `LastWriteStands` (part of `WritesAndTokensLand`). -/
theorem witness_LastWriteStands :
    ∃ (k : Slot) (s : State) (h : Hdr) (x : Fire) (a b : List Effect) (e : Effect) (u : Station), s.station? k.f.st = some u ∧ k.effects s h x = a ++
      e :: b :=
  ⟨slotOf tc, around tc, hd, ⟨[.setD 1 7, .setD 2 8], none⟩, [.setD 1 7], [], .setD 2 8, tc, by decide +kernel⟩

/-- States and operands that meet the hypotheses of each clause of `FiringTouchesOnlyItsEffects`. -/
theorem witness_FiringTouchesOnlyItsEffects :
    (∃ (k : Slot) (s : State) (h : Hdr) (x : Fire), ∃ u, s.station? k.f.st = some u) ∧
    (∃ (k : Slot) (s : State) (h : Hdr) (x : Fire), ∃ i u, i ≠ k.f.st ∧ s.station? i = some u) :=
  ⟨⟨slotOf tc, around tc, hd, ⟨[.setD 1 7], none⟩, tc, by decide +kernel⟩,
   ⟨slotOf tc, twoStations, hd, ⟨[.setD 1 7], none⟩, tm.id, tm, by decide +kernel⟩⟩

/-- States and operands that meet the hypotheses of each clause of `EmittedTokenEntersItsRoute` (part of `WritesAndTokensLand`). -/
theorem witness_EmittedTokenEntersItsRoute :
    ∃ (s : State) (st : StId) (o : Fin 8) (t : Token) (f : Fifo), s.firstHop? st o = some f ∧ (t.bg = true ∨ t.slack ≠ 0) ∧ ∃ st' o' r, s.route? st'
      o' = some r ∧ (∀ q, s.route? st o = some q → r.id ≠ q.id) :=
  ⟨around tc, tc.id, 0, Token.scalar 1 ⟨false, 16⟩, ⟨4, [], 0⟩, by decide +kernel, by decide +kernel, tc.id, 1, routeOf tc 1, by decide +kernel,
    some_only (a := routeOf tc 0) (by decide +kernel) (by decide +kernel)⟩

/-- States and operands that meet the hypotheses of each clause of `OperandsReadAsWritten` (part of `OperandsReadAndResultsWritten`). -/
theorem witness_OperandsReadAsWritten :
    (∃ (e : Env) (n : Fin 8), e.pre.pend.contains (.d n) = false) ∧
    (∃ (e : Env) (n : Fin 8), e.pre.pend.contains (.d n) = true) ∧
    (∃ (e : Env) (n : Fin 8), e.pre.pend.contains (.v n) = false) ∧
    (∃ (e : Env) (n : Fin 8) (k : Token), e.pre.seen e.f.ctx n = some k ∧ e.live.c[n].freed = e.pre.c[n].freed ∧ e.live.reserved n e.f.ctx e.slot =
      false ∧ (k.data? = true ∨ e.hdr.guard = .chanStop n)) ∧
    (∃ (e : Env) (n : Fin 8), e.pre.seen e.f.ctx n = none) ∧
    (∃ (e : Env) (n : Fin 8) (k : Token), e.pre.seen e.f.ctx n = some k ∧ k.data? = false ∧ e.hdr.guard ≠ .chanStop n) ∧
    (∃ (e : Env) (n : Fin 16), e.pre.h[n].kind = .ring ∧ 1 ≤ (e.pre.h[n].pcnt - e.live.h[n].ccnt).toNat) ∧
    (∃ (e : Env) (n : Fin 16), e.pre.h[n].kind = .ring ∧ e.pre.h[n].pcnt = e.live.h[n].ccnt) ∧
    (∃ (e : Env) (n : Fin 16), e.pre.h[n].kind = .phase) ∧
    (∃ (e : Env) (n : Fin 16), e.pre.h[n].kind = .plain) ∧
    (∃ e : Env, e.f.pre.ctx[e.f.ctx].running = none) ∧
    (∃ e : Env, ∃ r, e.s.region? e.f.pre.voy e.f.pre.reg = some r) ∧
    (∃ e : Env, ∃ v, e.s.voyage? e.f.pre.voy = some v) ∧
    (∃ (e : Env) (a : Opd) (i : BitVec 19) (x : Val), e.read a = some x) ∧
    (∃ (e : Env) (a : Opd) (x : Val), e.read a = some x) ∧
    (∃ (e : Env) (a b : Opd) (x y : Val), a ≠ b ∧ e.read a = some x ∧ e.read b = some y) :=
  ⟨⟨see tc, 1, by decide +kernel⟩,
   ⟨see { tc with pend := [.d 1] }, 1, by decide +kernel⟩,
   ⟨see tc, 1, by decide +kernel⟩,
   ⟨see tc, 0, headOf tc 0, by decide +kernel⟩,
   ⟨see tc, 7, by decide +kernel⟩,
   ⟨see tc, 2, Token.stopTok 1 ⟨false, 992⟩, by decide +kernel⟩,
   ⟨see tc, 1, by decide +kernel⟩,
   ⟨see tc, 8, by decide +kernel⟩,
   ⟨see tc, 2, by decide +kernel⟩,
   ⟨see tc, 0, by decide +kernel⟩,
   ⟨see tc, by decide +kernel⟩,
   ⟨see tc, fetchRegion, by decide +kernel⟩,
   ⟨see tc, fetchVoyage 0, by decide +kernel⟩,
   ⟨see tc, .d 1, 0x7FFFF, rd tc (.d 1), by decide +kernel⟩,
   ⟨see tc, .c 0, rd tc (.c 0), by decide +kernel⟩,
   ⟨see tc, .d 1, .c 0, rd tc (.d 1), rd tc (.c 0), by decide +kernel⟩⟩

/-- States and operands that meet the hypotheses of each clause of `ResultsGoWhereWritten` (part of `OperandsReadAndResultsWritten`). -/
theorem witness_ResultsGoWhereWritten :
    (∃ (e : Env) (n : Fin 8) (lat : Nat) (w : Word), 1 < lat) ∧
    (∃ (e : Env) (n : Fin 8) (lat : Nat) (k : Token), 1 < lat) ∧
    (∃ (e : Env) (n : Fin 16) (lat : Nat) (k : Token), 1 < lat) ∧
    (∃ e : Env, e.hdr.sl = 63) ∧
    (∃ e : Env, e.hdr.sl = 0) ∧
    (∃ e : Env, e.hdr.sl ≠ 63 ∧ e.hdr.sl ≠ 0) :=
  ⟨⟨see tc, 0, 2, 0, by decide +kernel⟩,
   ⟨see tc, 0, 2, noVal.tok, by decide +kernel⟩,
   ⟨see tc, 0, 2, noVal.tok, by decide +kernel⟩,
   ⟨(slotOf tc).env (around tc) ⟨.always, 63⟩, by decide +kernel⟩,
   ⟨(slotOf tc).env (around tc) ⟨.always, 0⟩, by decide +kernel⟩,
   ⟨see tc, by decide +kernel⟩⟩

/-- States and operands that meet the hypotheses of each clause of `ScalarBinaryResults` (part of `ScalarResults`). -/
theorem witness_ScalarBinaryResults :
    ∃ (k : Slot) (s : State) (i : Instr) (r : RBin) (lat : Nat) (busy : List Effect) (f : Word → Word → Word) (x y : Val) (eff : List Effect),
      scalarBin k.f.pre i = some (r, lat, busy, f) ∧ k.Fires s r.hdr ∧ (k.env s r.hdr).readB r.a r.b = some (x, y, eff) ∧ x.bad = false ∧ y.bad =
      false ∧ (k.env s r.hdr).destReady r.d = true ∧ (k.env s r.hdr).destBad r.d = false :=
  ⟨slotOf tc, around tc, .mul ⟨hd, .d 4, .d 1, .reg (.c 0)⟩, ⟨hd, .d 4, .d 1, .reg (.c 0)⟩, 3, [], fun a b => a * b, (rB tc (.d 1) (.reg (.c 0))).1,
    (rB tc (.d 1) (.reg (.c 0))).2.1, (rB tc (.d 1) (.reg (.c 0))).2.2, rfl, fires_around _ _, by decide +kernel⟩

/-- States and operands that meet the hypotheses of each clause of `ScalarUnaryResults` (part of `ScalarResults`). -/
theorem witness_ScalarUnaryResults :
    ∃ (k : Slot) (s : State) (i : Instr) (h : Hdr) (d a : Opd) (f : Word → Word) (x : Val), scalarOne k.f.pre i = some (h, d, a, f) ∧ k.Fires s h ∧
      (k.env s h).read a = some x ∧ x.bad = false ∧ (k.env s h).destReady d = true ∧ (k.env s h).destBad d = false :=
  ⟨slotOf tc, around tc, .clz ⟨hd, .o 0, .d 1⟩, hd, .o 0, .d 1, aluClz, rd tc (.d 1), rfl, fires_around _ _, by decide +kernel⟩

/-- States and operands that meet the hypotheses of each clause of `ScalarHandleFaults` (part of `ScalarResults`). -/
theorem witness_ScalarHandleFaults :
    (∃ (k : Slot) (s : State) (i : Instr) (r : RBin) (lat : Nat) (busy : List Effect) (f : Word → Word → Word) (x y : Val) (eff : List Effect),
      scalarBin k.f.pre i = some (r, lat, busy, f) ∧ k.Fires s r.hdr ∧ (k.env s r.hdr).readB r.a r.b = some (x, y, eff) ∧ (k.env s r.hdr).destReady
      r.d = true ∧ (x.bad = true ∨ y.bad = true ∨ (k.env s r.hdr).destBad r.d = true)) ∧
    (∃ (k : Slot) (s : State) (i : Instr) (h : Hdr) (d a : Opd) (f : Word → Word) (x : Val), scalarOne k.f.pre i = some (h, d, a, f) ∧ k.Fires s h ∧
      (k.env s h).read a = some x ∧ (k.env s h).destReady d = true ∧ (x.bad = true ∨ (k.env s h).destBad d = true)) :=
  ⟨⟨slotOf tc, around tc, .add ⟨hd, .o 0, .h 3, .reg (.d 1)⟩, ⟨hd, .o 0, .h 3, .reg (.d 1)⟩, 1, [], fun a b => a + b, (rB tc (.h 3) (.reg (.d 1))).1,
     (rB tc (.h 3) (.reg (.d 1))).2.1, (rB tc (.h 3) (.reg (.d 1))).2.2, rfl, fires_around _ _, by decide +kernel⟩,
   ⟨slotOf tc, around tc, .mov ⟨hd, .h 3, .d 1⟩, hd, .h 3, .d 1, fun a => a, rd tc (.d 1), rfl, fires_around _ _, by decide +kernel⟩⟩

/-- States and operands that meet the hypotheses of each clause of `FieldsAndCountsBitByBit`. -/
theorem witness_FieldsAndCountsBitByBit :
    (∃ (a : Word) (pos len i : Nat), 1 ≤ len ∧ pos + len ≤ 64 ∧ i < 64) ∧
    (∃ (d a : Word) (pos len i : Nat), 1 ≤ len ∧ pos + len ≤ 64 ∧ i < 64) ∧
    (∃ a : Word, ∃ i, 64 - (aluClz a).toNat ≤ i) ∧
    (∃ a : Word, a ≠ 0) ∧
    (∃ a : Word, ∃ i, i < (aluCtz a).toNat) ∧
    (∃ a : Word, a ≠ 0) ∧
    (∃ (a : Word) (i : Nat), i < 64 ∧ a.getLsbD i = false) :=
  ⟨⟨0x8000000000000001, 63, 1, 0, by decide +kernel⟩,
   ⟨0, 1, 0, 64, 63, by decide +kernel⟩,
   ⟨1, 63, by decide +kernel⟩,
   ⟨1, by decide +kernel⟩,
   ⟨0x8000000000000000, 62, by decide +kernel⟩,
   ⟨1, by decide +kernel⟩,
   ⟨0, 63, by decide +kernel⟩⟩

/-- States and operands that meet the hypotheses of each clause of `PredicateResults`. -/
theorem witness_PredicateResults :
    (∃ (k : Slot) (s : State) (i : Instr) (r : RCmp) (f : Word → Word → Bool) (x y : Val) (eff : List Effect), comparison i = some (r, f) ∧ k.Fires s
      r.hdr ∧ (k.env s r.hdr).readB r.a r.b = some (x, y, eff) ∧ x.bad = false ∧ y.bad = false) ∧
    (∃ (k : Slot) (s : State) (i : Instr) (r : RCmp) (f : Word → Word → Bool) (x y : Val) (eff : List Effect), comparison i = some (r, f) ∧ k.Fires s
      r.hdr ∧ (k.env s r.hdr).readB r.a r.b = some (x, y, eff) ∧ (x.bad = true ∨ y.bad = true)) ∧
    (∃ (k : Slot) (s : State) (i : Instr) (h : Hdr) (n : Fin 8) (b : Bool), predicateOp k.f.pre i = some (h, n, b) ∧ k.Fires s h) :=
  ⟨⟨slotOf tc, around tc, .clt ⟨hd, 7, .d 4, .imm 0x7FFFF⟩, ⟨hd, 7, .d 4, .imm 0x7FFFF⟩, fun a b => a.slt b, (rB tc (.d 4) (.imm 0x7FFFF)).1, (rB tc
     (.d 4) (.imm 0x7FFFF)).2.1, (rB tc (.d 4) (.imm 0x7FFFF)).2.2, rfl, fires_around _ _, by decide +kernel⟩,
   ⟨slotOf tc, around tc, .clt ⟨hd, 7, .h 3, .imm 1⟩, ⟨hd, 7, .h 3, .imm 1⟩, fun a b => a.slt b, (rB tc (.h 3) (.imm 1)).1, (rB tc (.h 3) (.imm
     1)).2.1, (rB tc (.h 3) (.imm 1)).2.2, rfl, fires_around _ _, by decide +kernel⟩,
   ⟨slotOf tc, around tc, .pandn ⟨hd, 0, 1, 0⟩, hd, 0, true, rfl, fires_around _ _⟩⟩

/-- States and operands that meet the hypotheses of each clause of `TokenMoves` (part of `TokenRules`). -/
theorem witness_TokenMoves :
    (∃ (k : Slot) (s : State) (h : Hdr) (o : Fin 8) (src : Opd) (tag : BitVec 3) (x : Val), k.Fires s h ∧ (k.env s h).read src = some x ∧ x.bad =
      false ∧ (k.env s h).room o 1 = true) ∧
    (∃ (k : Slot) (s : State) (h : Hdr) (o : Fin 8) (src : Opd) (add : BitVec 20) (tag : BitVec 3) (x : Val), k.Fires s h ∧ add ≠ 0 ∧ (k.env s h).read
      src = some x ∧ x.bad = false ∧ (k.env s h).room o 1 = true) ∧
    (∃ (k : Slot) (s : State) (h : Hdr) (o : Fin 8) (src : Opd) (add : BitVec 20) (tag : BitVec 3) (x : Val), k.Fires s h ∧ (k.env s h).read src =
      some x ∧ x.bad = true ∧ (k.env s h).room o 1 = true) ∧
    (∃ (k : Slot) (s : State) (h : Hdr) (o a b n : Fin 8) (tag : BitVec 3) (x : Token), k.Fires s h ∧ (k.env s h).take (if k.f.pre.p.getLsbD n.val
      then a else b) = some x ∧ (k.env s h).room o 1 = true) ∧
    (∃ (k : Slot) (s : State) (h : Hdr) (src : Opd) (x : Val), k.Fires s h ∧ (k.env s h).read src = some x ∧ x.bad = false) ∧
    (∃ (k : Slot) (s : State) (h : Hdr) (src : Opd) (x : Val), k.Fires s h ∧ (k.env s h).read src = some x ∧ x.bad = true) ∧
    (∃ (k : Slot) (s : State) (h : Hdr) (o : Fin 8) (level : BitVec 2) (tag : BitVec 3), k.Fires s h ∧ (k.env s h).room o 1 = true) :=
  ⟨⟨slotOf tc, around tc, hd, 5, .v 0, 7, rd tc (.v 0), fires_around _ _, by decide +kernel⟩,
   ⟨slotOf tc, around tc, hd, 0, .d 4, 0xFFFFF, 1, rd tc (.d 4), fires_around _ _, by decide +kernel⟩,
   ⟨slotOf tc, around tc, hd, 0, .h 3, 0, 1, rd tc (.h 3), fires_around _ _, by decide +kernel⟩,
   ⟨slotOf tc, around tc, hd, 0, 0, 1, 1, 1, headOf tc 0, fires_around _ _, by decide +kernel⟩,
   ⟨slotOf tc, around tc, hd, .c 0, rd tc (.c 0), fires_around _ _, by decide +kernel⟩,
   ⟨slotOf tc, around tc, hd, .h 3, rd tc (.h 3), fires_around _ _, by decide +kernel⟩,
   ⟨slotOf tc, around tc, hd, 0, 3, 7, fires_around _ _, by decide +kernel⟩⟩

/-- States and operands that meet the hypotheses of each clause of `DupCopiesOnEveryOutput`. -/
theorem witness_DupCopiesOnEveryOutput :
    (∃ (k : Slot) (s : State) (h : Hdr) (mask : BitVec 8) (src : Opd) (tag : BitVec 3) (x : Val), k.Fires s h ∧ (k.env s h).read src = some x ∧ x.bad
      = false ∧ (∀ o : Fin 8, mask.getLsbD o.val = true → (k.env s h).room o 1 = true)) ∧
    (∃ (k : Slot) (s : State) (h : Hdr) (mask : BitVec 8) (src : Opd) (tag : BitVec 3) (x : Val), k.Fires s h ∧ (k.env s h).read src = some x ∧ x.bad
      = true ∧ (∀ o : Fin 8, mask.getLsbD o.val = true → (k.env s h).room o 1 = true)) ∧
    (∃ (k : Slot) (s : State) (h : Hdr) (mask : BitVec 8) (src : Opd) (tag : BitVec 3) (o : Fin 8), k.Fires s h ∧ mask.getLsbD o.val = true ∧
      s.outRoom k.f.st o 1 = false) :=
  ⟨⟨slotOf tc, around tc, hd, 0x3F, .c 1, 0, rd tc (.c 1), fires_around _ _, by decide +kernel⟩,
   ⟨slotOf tc, around tc, hd, 0x3F, .h 3, 0, rd tc (.h 3), fires_around _ _, by decide +kernel⟩,
   ⟨slotOf tc, around tc, hd, 0x41, .c 1, 0, 6, fires_around _ _, by decide +kernel⟩⟩

/-- States and operands that meet the hypotheses of each clause of `SteerChoosesAnOutput`. -/
theorem witness_SteerChoosesAnOutput :
    (∃ (k : Slot) (s : State) (h : Hdr) (mask : BitVec 8) (src sel : Opd) (tag : BitVec 3) (x y : Val) (eff : List Effect) (j : Fin 8), k.Fires s h ∧
      (k.env s h).read2 src sel = some (x, y, eff) ∧ x.bad = false ∧ x.tok.data? = true ∧ j.val = y.word.toNat % 8 ∧ mask.getLsbD j.val = true ∧
      (k.env s h).room j 1 = true) ∧
    (∃ (k : Slot) (s : State) (h : Hdr) (mask : BitVec 8) (src sel : Opd) (tag : BitVec 3) (x y : Val) (eff : List Effect) (j : Fin 8), k.Fires s h ∧
      (k.env s h).read2 src sel = some (x, y, eff) ∧ x.bad = true ∧ x.tok.data? = true ∧ j.val = y.word.toNat % 8 ∧ mask.getLsbD j.val = true ∧ (k.env
      s h).room j 1 = true) ∧
    (∃ (k : Slot) (s : State) (h : Hdr) (mask : BitVec 8) (src sel : Opd) (tag : BitVec 3) (x y : Val) (eff : List Effect) (j : Fin 8), k.Fires s h ∧
      (k.env s h).read2 src sel = some (x, y, eff) ∧ x.tok.data? = true ∧ j.val = y.word.toNat % 8 ∧ mask.getLsbD j.val = false) ∧
    (∃ (k : Slot) (s : State) (h : Hdr) (mask : BitVec 8) (src sel : Opd) (tag : BitVec 3) (x y : Val) (eff : List Effect) (j : Fin 8), k.Fires s h ∧
      (k.env s h).read2 src sel = some (x, y, eff) ∧ x.bad = false ∧ x.tok.data? = true ∧ j.val = y.word.toNat % 8 ∧ mask.getLsbD j.val = true ∧
      s.outRoom k.f.st j 1 = false) ∧
    (∃ (k : Slot) (s : State) (h : Hdr) (mask : BitVec 8) (src sel : Opd) (tag : BitVec 3) (x y : Val) (eff : List Effect), k.Fires s h ∧ (k.env s
      h).read2 src sel = some (x, y, eff) ∧ x.bad = false ∧ x.tok.data? = false ∧ (∀ o : Fin 8, mask.getLsbD o.val = true → (k.env s h).room o 1 =
      true)) ∧
    (∃ (k : Slot) (s : State) (h : Hdr) (mask : BitVec 8) (src sel : Opd) (tag : BitVec 3) (x y : Val) (eff : List Effect) (o : Fin 8), k.Fires s h ∧
      (k.env s h).read2 src sel = some (x, y, eff) ∧ x.bad = false ∧ x.tok.data? = false ∧ mask.getLsbD o.val = true ∧ s.outRoom k.f.st o 1 = false) :=
  ⟨⟨slotOf tc, around tc, hd, 0x20, .c 1, .d 1, 0, (r2 tc (.c 1) (.d 1)).1, (r2 tc (.c 1) (.d 1)).2.1, (r2 tc (.c 1) (.d 1)).2.2, 5, fires_around _ _,
     by decide +kernel⟩,
   ⟨slotOf tc, around tc, hd, 0x20, .h 3, .d 1, 0, (r2 tc (.h 3) (.d 1)).1, (r2 tc (.h 3) (.d 1)).2.1, (r2 tc (.h 3) (.d 1)).2.2, 5, fires_around _ _,
     by decide +kernel⟩,
   ⟨slotOf tc, around tc, hd, 0x0F, .c 1, .d 1, 0, (r2 tc (.c 1) (.d 1)).1, (r2 tc (.c 1) (.d 1)).2.1, (r2 tc (.c 1) (.d 1)).2.2, 5, fires_around _ _,
     by decide +kernel⟩,
   ⟨slotOf t6, around t6, hd, 0x40, .c 1, .d 1, 0, (r2 t6 (.c 1) (.d 1)).1, (r2 t6 (.c 1) (.d 1)).2.1, (r2 t6 (.c 1) (.d 1)).2.2, 6, fires_around _ _,
     by decide +kernel⟩,
   ⟨slotOf tc, around tc, ⟨.chanStop 2, 62⟩, 0x21, .c 2, .d 1, 0, ⟨Token.stopTok 1 ⟨false, 992⟩, false, [.pop 2]⟩, rd tc (.d 1), [.pop 2], ⟨rfl, rfl,
     by decide +kernel, by decide +kernel⟩, by decide +kernel⟩,
   ⟨slotOf tc, around tc, ⟨.chanStop 2, 62⟩, 0x61, .c 2, .d 1, 0, ⟨Token.stopTok 1 ⟨false, 992⟩, false, [.pop 2]⟩, rd tc (.d 1), [.pop 2], 6, ⟨rfl,
     rfl, by decide +kernel, by decide +kernel⟩, by decide +kernel⟩⟩

/-- States and operands that meet the hypotheses of each clause of `SplitHalvesAToken`. -/
theorem witness_SplitHalvesAToken :
    (∃ (k : Slot) (s : State) (h : Hdr) (o : Fin 8) (src : Opd) (tag : BitVec 3) (x : Val), k.Fires s h ∧ (k.env s h).read src = some x ∧ x.bad =
      false ∧ x.tok.fmt ≠ 44 ∧ (k.env s h).room o 1 = true ∧ (k.env s h).room (o + 1) 1 = true) ∧
    (∃ (k : Slot) (s : State) (h : Hdr) (o : Fin 8) (src : Opd) (tag : BitVec 3), k.Fires s h ∧ (s.outRoom k.f.st o 1 = false ∨ s.outRoom k.f.st (o +
      1) 1 = false)) ∧
    (∃ (k : Slot) (s : State) (h : Hdr) (o : Fin 8) (src : Opd) (tag : BitVec 3) (x : Val), k.Fires s h ∧ (k.env s h).read src = some x ∧ x.bad =
      false ∧ x.tok.fmt = 44 ∧ (k.env s h).room o 1 = true ∧ (k.env s h).room (o + 1) 1 = true) :=
  ⟨⟨slotOf tc, around tc, hd, 4, .v 4, 7, rd tc (.v 4), fires_around _ _, by decide +kernel⟩,
   ⟨slotOf tc, around tc, hd, 5, .v 4, 7, fires_around _ _, by decide +kernel⟩,
   ⟨slotOf tc, around tc, hd, 0, .c 4, 7, rd tc (.c 4), fires_around _ _, by decide +kernel⟩⟩

/-- States and operands that meet the hypotheses of each clause of `TokenControl` (part of `TokenRules`). -/
theorem witness_TokenControl :
    (∃ (k : Slot) (s : State) (h : Hdr) (o : Fin 8) (src : Opd) (tag : BitVec 3) (x : Val), k.Fires s h ∧ (k.env s h).read src = some x ∧ x.bad = true
      ∧ (k.env s h).room o 1 = true ∧ (k.env s h).room (o + 1) 1 = true) ∧
    (∃ (k : Slot) (s : State) (h : Hdr) (o : Fin 8) (src ctl : Opd) (tag : BitVec 3) (x y : Val) (eff : List Effect), k.Fires s h ∧ (k.env s h).read2
      src ctl = some (x, y, eff) ∧ x.bad = false ∧ (k.env s h).room o 1 = true) ∧
    (∃ (k : Slot) (s : State) (h : Hdr) (o : Fin 8) (src ctl : Opd) (tag : BitVec 3) (x y : Val) (eff : List Effect), k.Fires s h ∧ (k.env s h).read2
      src ctl = some (x, y, eff) ∧ x.bad = true ∧ (k.env s h).room o 1 = true) ∧
    (∃ (k : Slot) (s : State) (h : Hdr) (o c : Fin 8) (n : Option Opd) (imm : BitVec 20) (tag : BitVec 3) (x : Token) (m : BitVec 32), k.Fires s h ∧
      (k.env s h).take c = some x ∧ k.f.pre.ctx[k.f.ctx].reps[k.sl] = 0 ∧ (imm ≠ 0 → m = imm.setWidth 32) ∧ (imm = 0 → ∀ b, n = some b → ∃ y, (k.env s
      h).read b = some y ∧ m.toNat = Nat.min y.word.toNat (2 ^ 32 - 1)) ∧ (imm = 0 → n = none → m = 0) ∧ (m ≠ 0 → (k.env s h).room o 1 = true)) ∧
    (∃ (k : Slot) (s : State) (h : Hdr) (o c : Fin 8) (n : Option Opd) (imm : BitVec 20) (tag : BitVec 3) (x : Token), k.Fires s h ∧ (k.env s h).take
      c = some x ∧ k.f.pre.ctx[k.f.ctx].reps[k.sl] ≠ 0 ∧ (k.env s h).room o 1 = true) ∧
    (∃ (k : Slot) (s : State) (h : Hdr) (o c : Fin 8) (tag : BitVec 3) (x : Token), k.Fires s h ∧ (k.env s h).take c = some x ∧ x.data? = true) ∧
    (∃ (k : Slot) (s : State) (h : Hdr) (o c : Fin 8) (tag : BitVec 3) (x : Token), k.Fires s h ∧ (k.env s h).take c = some x ∧ x.data? = false ∧
      (k.env s h).room o 1 = true) ∧
    (∃ (k : Slot) (s : State) (h : Hdr) (o a b : Fin 8) (tag : BitVec 3) (x y : Token), k.Fires s h ∧ (k.env s h).take a = some x ∧ (k.env s h).take b
      = some y ∧ (k.env s h).room o 1 = true) ∧
    (∃ (k : Slot) (s : State) (h : Hdr) (n : Fin 8) (v : BitVec 4) (c : Fin 8), k.Fires s h ∧ v.toNat = c.val) ∧
    (∃ (k : Slot) (s : State) (h : Hdr) (n : Fin 8), k.Fires s h) :=
  ⟨⟨slotOf tc, around tc, hd, 0, .h 3, 7, rd tc (.h 3), fires_around _ _, by decide +kernel⟩,
   ⟨slotOf tc, around tc, hd, 0, .c 1, .d 0, 0, (r2 tc (.c 1) (.d 0)).1, (r2 tc (.c 1) (.d 0)).2.1, (r2 tc (.c 1) (.d 0)).2.2, fires_around _ _,
     by decide +kernel⟩,
   ⟨slotOf tc, around tc, hd, 0, .h 3, .d 0, 0, (r2 tc (.h 3) (.d 0)).1, (r2 tc (.h 3) (.d 0)).2.1, (r2 tc (.h 3) (.d 0)).2.2, fires_around _ _,
     by decide +kernel⟩,
   ⟨slotOf tc, around tc, hd, 0, 0, none, 0, 0, headOf tc 0, 0, fires_around _ _, by decide +kernel, by decide +kernel, by decide, fun _ _ h => by
     simp at h, fun _ _ => rfl, by decide⟩,
   ⟨slotOf trep, around trep, hd, 0, 0, none, 3, 0, headOf trep 0, fires_around _ _, by decide +kernel⟩,
   ⟨slotOf tc, around tc, hd, 0, 0, 0, headOf tc 0, fires_around _ _, by decide +kernel⟩,
   ⟨slotOf tc, around tc, ⟨.chanStop 2, 62⟩, 0, 2, 0, Token.stopTok 1 ⟨false, 992⟩, ⟨rfl, rfl, by decide +kernel, by decide +kernel⟩,
     by decide +kernel⟩,
   ⟨slotOf tc, around tc, hd, 0, 0, 3, 0, headOf tc 0, headOf tc 3, fires_around _ _, by decide +kernel⟩,
   ⟨slotOf tc, around tc, hd, 7, 7, 7, fires_around _ _, by decide +kernel⟩,
   ⟨slotOf tc, around tc, hd, 7, fires_around _ _⟩⟩

/-! ### Handle, system, vector and matrix rules -/

/-- A region with a monitor channel and that many break events. -/
def monRegion (n : Nat) : Region := { fetchRegion with mon := some (0, 0, 6, true), events := List.replicate n (Token.scalar 1 ⟨false, 0⟩) }
def monitored (n : Nat) : State := { around tc with voyages := [{ fetchVoyage 0 with regions := [monRegion n] }] }
def saving : State := { around tc with voyages := [{ fetchVoyage 0 with regions := [{ fetchRegion with snap := .pending 0 }] }] }
def based : State := { around tc with saveBases := [(0, 0)] }

/-- A matrix station with rows of tile 2 parked, and the quad that a parked register moves in. -/
def parkMat (p : List Park) : Mat := { someMat with t := someMat.t.set 2 { someMat.t[2] with parks := p } }
def parkTile (p : List Park) : Station := { tm with mat := some (parkMat p), matPre := some (parkMat p) }
def quad (p : List Park) : State := { around tc with stations := [tc, parkTile p] }

/-- What row 63 of tile 2 holds. -/
def heldRow : VReg := { VReg.zero with data := 1, side := unitSide }

theorem unpark_row (g : Fin 8 × Nat) (v : VReg) (h : (g, v) ∈ (parkGroup ⟨hd, 2, 0, 7, 63, false, true⟩).zip [heldRow]) :
    ∃ p, ((parkMat [⟨63, tc.id, VReg.zero, true⟩]).parks 2).find? (fun p => p.row == g.2 && p.owner == tc.id) = some p ∧ p.landed = true ∧
      v.tag = p.reg.tag ∧
      (∀ u : Fin 4, (2 : BitVec 3).toNat = u.val → ∀ j : Fin 64, p.row = j.val →
        v.data = (parkMat [⟨63, tc.id, VReg.zero, true⟩]).t[u].rows[j] ∧ v.side = (parkMat [⟨63, tc.id, VReg.zero, true⟩]).t[u].scales[j]) ∧
      (4 ≤ (2 : BitVec 3).toNat ∨ 64 ≤ p.row → v = p.reg) := by
  have e : (parkGroup ⟨hd, 2, 0, 7, 63, false, true⟩).zip [heldRow] = [((7, 63), heldRow)] := by decide +kernel
  rw [e, List.mem_singleton] at h
  cases h
  exact ⟨⟨63, tc.id, VReg.zero, true⟩, by decide +kernel⟩

theorem carry_none : ∀ (a : Fin 2) (q : AccCfg), someMat.a[a].cfg = some q → q.carry ≠ some 7
  | 0 => some_only (a := (⟨8, 0, none, .tile, .g0⟩ : AccCfg)) (by decide +kernel) (by decide)
  | 1 => fun _ h => absurd (h.symm.trans (by decide +kernel : someMat.a[(1 : Fin 2)].cfg = none)) (by simp)

/-- A matrix station whose tile 2 fills from channel 3, and one with a 16-bit tile. -/
def fillMat : Mat := { someMat with t := someMat.t.set 2 { someMat.t[2] with fill := some 3 } }
def tmf : Station := { tm with mat := some fillMat, matPre := some fillMat }
def wideMat : Mat := { someMat with t := someMat.t.set 1 { someMat.t[1] with fmt := 32 } }
def tmw : Station := { tm with mat := some wideMat, matPre := some wideMat }

/-- States and operands that meet the hypotheses of each clause of `HandleCounts`. -/
theorem witness_HandleCounts :
    ∃ (k : Slot) (s : State) (i : Instr) (r : HRead) (n : Nat), handleCount k.f.pre i = some (r, n) ∧ k.Fires s r.hdr ∧ (k.env s r.hdr).destReady r.d
      = true ∧ (k.env s r.hdr).destBad r.d = false :=
  ⟨slotOf tc, around tc, .hfill ⟨hd, .d 1, 7⟩, ⟨hd, .d 1, 7⟩, _, rfl, fires_around _ _, by decide +kernel⟩

/-- States and operands that meet the hypotheses of each clause of `HandleRules` (part of `HandleAndBankRules`). -/
theorem witness_HandleRules :
    (∃ (k : Slot) (s : State) (r : HAdv) (x : Val), k.Fires s r.hdr ∧ (k.env s r.hdr).readOne r.b = some x ∧ (k.f.pre.h[r.n].kind = .phase ∨
      k.f.pre.h[r.n].kind = .ring ∧ x.word.toNat ≤ (k.env s r.hdr).ringFree r.n) ∧ x.word.toNat ≤ k.f.pre.h[r.n].size.toNat / 64) ∧
    (∃ (k : Slot) (s : State) (r : HAdv) (x : Val), k.Fires s r.hdr ∧ (k.env s r.hdr).readOne r.b = some x ∧ (k.f.pre.h[r.n].kind = .phase ∨
      k.f.pre.h[r.n].kind = .ring ∧ x.word.toNat ≤ (k.env s r.hdr).ringFill r.n) ∧ x.word.toNat ≤ k.f.pre.h[r.n].size.toNat / 64) ∧
    (∃ (k : Slot) (s : State) (r : HAdv) (x : Val) (i : Instr), (i = .advp r ∨ i = .advc r) ∧ k.Fires s r.hdr ∧ (k.env s r.hdr).readOne r.b = some x ∧
      (k.f.pre.h[r.n].kind = .plain ∨ k.f.pre.h[r.n].size.toNat / 64 < x.word.toNat)) ∧
    (∃ (k : Slot) (s : State) (r : HAdv) (f : HField) (x : Val), k.Fires s r.hdr ∧ (k.env s r.hdr).readOne r.b = some x ∧ (¬ refusesField k.f.pre.kind
      k.f.pre.h[r.n] x.word f)) ∧
    (∃ (k : Slot) (s : State) (r : HAdv) (f : HField) (x : Val), k.Fires s r.hdr ∧ (k.env s r.hdr).readOne r.b = some x ∧ refusesField k.f.pre.kind
      k.f.pre.h[r.n] x.word f) ∧
    (∃ (k : Slot) (s : State) (r : HRead) (f : HField), k.Fires s r.hdr ∧ (k.env s r.hdr).destReady r.d = true ∧ (k.env s r.hdr).destBad r.d = false) ∧
    (∃ (k : Slot) (s : State) (h : Hdr) (n : Fin 16), k.Fires s h ∧ k.f.pre.h[n].kind = .phase) ∧
    (∃ (k : Slot) (s : State) (h : Hdr) (n : Fin 16), k.Fires s h ∧ k.f.pre.h[n].kind ≠ .phase) :=
  ⟨⟨slotOf tc, around tc, ⟨hd, 1, .imm 2⟩, r1 tc (.imm 2), fires_around _ _, by decide +kernel⟩,
   ⟨slotOf tc, around tc, ⟨hd, 1, .imm 2⟩, r1 tc (.imm 2), fires_around _ _, by decide +kernel⟩,
   ⟨slotOf tc, around tc, ⟨hd, 1, .imm 5⟩, r1 tc (.imm 5), .advp ⟨hd, 1, .imm 5⟩, .inl rfl, fires_around _ _, by decide +kernel⟩,
   ⟨slotOf tc, around tc, ⟨hd, 3, .imm 64⟩, .size, r1 tc (.imm 64), fires_around _ _, by decide +kernel, by unfold refusesField; decide +kernel⟩,
   ⟨slotOf tc, around tc, ⟨hd, 1, .imm 65⟩, .size, r1 tc (.imm 65), fires_around _ _, by decide +kernel, by unfold refusesField; decide +kernel⟩,
   ⟨slotOf tc, around tc, ⟨hd, .o 5, 15⟩, .flags, fires_around _ _, by decide +kernel⟩,
   ⟨slotOf tc, around tc, hd, 2, fires_around _ _, by decide +kernel⟩,
   ⟨slotOf tc, around tc, hd, 0, fires_around _ _, by decide +kernel⟩⟩

/-- States and operands that meet the hypotheses of each clause of `BanksExchanged` (part of `HandleAndBankRules`). -/
theorem witness_BanksExchanged :
    (∃ (t : Station) (w : Who) (n : Fin 16), Memory.wf t.store = true ∧ Memory.wf t.shadow = true ∧ ∃ k, ∃ f ∈ (t.dropCounters [.addPcnt n
      k]).flights, f.left = 0) ∧
    (∃ (t : Station) (w : Who) (n : Fin 16), Memory.wf t.store = true ∧ Memory.wf t.shadow = true ∧ ∃ k, ∃ f ∈ (t.dropCounters [.addCcnt n
      k]).flights, f.left = 0) :=
  ⟨⟨{ tc with flights := [⟨1, 0, 0, 0, [.setH 2 .size 0]⟩] }, ⟨tc.id, 0, 0⟩, 2, by decide +kernel, by decide +kernel, 1, ⟨1, 0, 0, 0, [.setH 2 .size
     0]⟩, by decide +kernel, rfl⟩,
   ⟨{ tc with flights := [⟨1, 0, 0, 0, [.setH 2 .size 0]⟩] }, ⟨tc.id, 0, 0⟩, 2, by decide +kernel, by decide +kernel, 1, ⟨1, 0, 0, 0, [.setH 2 .size
     0]⟩, by decide +kernel, rfl⟩⟩

/-- States and operands that meet the hypotheses of each clause of `NopHasNoEffect`. -/
theorem witness_NopHasNoEffect :
    (∃ (k : Slot) (s : State) (h : Hdr), k.Fires s h) ∧
    (∃ (h : Hdr) (r : Rule), ruleOf (.nop h) = some r) :=
  ⟨⟨slotOf tc, around tc, hd, fires_around _ _⟩,
   ⟨hd, _, rfl⟩⟩

/-- States and operands that meet the hypotheses of each clause of `SystemRules`. -/
theorem witness_SystemRules :
    (∃ (k : Slot) (s : State) (r : SysB) (x : Val), k.Fires s r.hdr ∧ (k.env s r.hdr).readOne r.b = some x) ∧
    (∃ (k : Slot) (s : State) (r : SysB) (x : Val), k.Fires s r.hdr ∧ (k.env s r.hdr).readOne r.b = some x) ∧
    (∃ (k : Slot) (s : State) (r : SysB) (x : Val) (g : Region), k.Fires s r.hdr ∧ (k.env s r.hdr).readOne r.b = some x ∧ s.region? k.f.pre.voy
      k.f.pre.reg = some g ∧ g.mon.isSome = true ∧ g.events.length < 16) ∧
    (∃ (k : Slot) (s : State) (r : SysB) (x : Val) (g : Region), k.Fires s r.hdr ∧ (k.env s r.hdr).readOne r.b = some x ∧ s.region? k.f.pre.voy
      k.f.pre.reg = some g ∧ g.mon = none) ∧
    (∃ (k : Slot) (s : State) (r : SysB) (g : Region), k.Fires s r.hdr ∧ s.region? k.f.pre.voy k.f.pre.reg = some g ∧ g.mon.isSome = true ∧ 16 ≤
      g.events.length) ∧
    (∃ (k : Slot) (s : State) (h : Hdr) (n : BitVec 10), k.Fires s h) ∧
    (∃ (k : Slot) (s : State) (r : SysB) (x : Val), k.Fires s r.hdr ∧ (k.env s r.hdr).readOne r.b = some x) ∧
    (∃ (k : Slot) (s : State) (h : Hdr) (d : Opd) (c : Fin 8) (t : Token), k.Fires s h ∧ k.f.pre.seen k.f.ctx c = some t ∧ (k.env s h).destReady d =
      true ∧ (k.env s h).destBad d = false) ∧
    (∃ (k : Slot) (s : State) (h : Hdr) (d : Opd), k.Fires s h ∧ (k.env s h).destReady d = true ∧ (k.env s h).destBad d = false) ∧
    (∃ (k : Slot) (s : State) (h : Hdr) (d : Opd) (g : Region) (v : Voyage) (b : BitVec 16 × Word), k.Fires s h ∧ s.region? k.f.pre.voy k.f.pre.reg =
      some g ∧ g.snap = .none ∧ s.voyage? k.f.pre.voy = some v ∧ b ∈ s.saveBases ∧ b.1 = v.asid ∧ (k.env s h).destReady d = true ∧ (k.env s h).destBad
      d = false) ∧
    (∃ (k : Slot) (s : State) (h : Hdr) (d : Opd) (g : Region) (v : Voyage), k.Fires s h ∧ s.region? k.f.pre.voy k.f.pre.reg = some g ∧ s.voyage?
      k.f.pre.voy = some v ∧ (g.snap ≠ .none ∨ ∀ b ∈ s.saveBases, b.1 ≠ v.asid)) :=
  ⟨⟨slotOf tc, around tc, ⟨hd, .reg (.d 4)⟩, r1 tc (.reg (.d 4)), fires_around _ _, by decide +kernel⟩,
   ⟨slotOf tc, around tc, ⟨hd, .imm 0⟩, r1 tc (.imm 0), fires_around _ _, by decide +kernel⟩,
   ⟨slotOf tc, monitored 15, ⟨hd, .imm 0⟩, r1 tc (.imm 0), monRegion 15, ⟨rfl, rfl, by decide +kernel, by decide +kernel⟩, by decide +kernel⟩,
   ⟨slotOf tc, around tc, ⟨hd, .imm 0⟩, r1 tc (.imm 0), fetchRegion, fires_around _ _, by decide +kernel⟩,
   ⟨slotOf tc, monitored 16, ⟨hd, .imm 0⟩, monRegion 16, ⟨rfl, rfl, by decide +kernel, by decide +kernel⟩, by decide +kernel⟩,
   ⟨slotOf tc, around tc, hd, 0x3FF, fires_around _ _⟩,
   ⟨slotOf tc, around tc, ⟨hd, .imm 63⟩, r1 tc (.imm 63), fires_around _ _, by decide +kernel⟩,
   ⟨slotOf tc, around tc, hd, .d 0, 2, Token.stopTok 1 ⟨false, 992⟩, fires_around _ _, by decide +kernel⟩,
   ⟨slotOf tc, around tc, hd, .o 0, fires_around _ _, by decide +kernel⟩,
   ⟨slotOf tc, based, hd, .o 0, fetchRegion, fetchVoyage 0, (0, 0), ⟨rfl, rfl, by decide +kernel, by decide +kernel⟩, by decide +kernel⟩,
   ⟨slotOf tc, saving, hd, .o 0, { fetchRegion with snap := .pending 0 }, { fetchVoyage 0 with regions := [{ fetchRegion with snap := .pending 0 }] },
     ⟨rfl, rfl, by decide +kernel, by decide +kernel⟩, by decide +kernel, by decide +kernel, .inl (by decide)⟩⟩

/-- States and operands that meet the hypotheses of each clause of `VectorLaneResults` (part of `LaneResults`). -/
theorem witness_VectorLaneResults :
    ∃ (k : Slot) (s : State) (i : Instr) (r : VBin) (lat : Nat) (usesD : Bool) (op : Sys2Proof.Num → Sys2Proof.Num → Sys2Proof.Num → Sys2Proof.Num) (x
      y : Val) (eff : List Effect), laneOp i = some (r, lat, usesD, op) ∧ k.Fires s r.hdr ∧ (k.env s r.hdr).read2 r.a r.b = some (x, y, eff) ∧ x.bad =
      false ∧ y.bad = false ∧ (k.env s r.hdr).destReady r.d = true ∧ (k.env s r.hdr).destBad r.d = false ∧ x.vreg.tag = r.fmt ∧ y.vreg.tag = r.fmt ∧
      (usesD = true → ((k.env s r.hdr).wv r.d).tag = r.fmt) :=
  ⟨slotOf tc, around tc, .vfma ⟨hd, 34, .rne, .sat, .v 0, .v 1, .c 1⟩, ⟨hd, 34, .rne, .sat, .v 0, .v 1, .c 1⟩, 4, true, _, (r2 tc (.v 1) (.c 1)).1,
    (r2 tc (.v 1) (.c 1)).2.1, (r2 tc (.v 1) (.c 1)).2.2, rfl, fires_around _ _, by decide +kernel⟩

/-- States and operands that meet the hypotheses of each clause of `VectorSourceFaults` (part of `LaneResults`). -/
theorem witness_VectorSourceFaults :
    (∃ (k : Slot) (s : State) (i : Instr) (r : Rule) (x y : Val) (eff : List Effect) (d : Opd) (lat : Nat), ruleOf i = some r ∧ k.Fires s r.hdr ∧
      vectorRead (k.env s r.hdr) i = some ((x, y, eff), d, lat) ∧ (k.env s r.hdr).destReady d = true ∧ (x.bad = true ∨ y.bad = true ∨ (k.env s
      r.hdr).destBad d = true)) ∧
    (∃ (k : Slot) (s : State) (i : Instr) (r : Rule) (x y : Val) (eff : List Effect) (d : Opd) (lat : Nat), ruleOf i = some r ∧ k.Fires s r.hdr ∧
      vectorRead (k.env s r.hdr) i = some ((x, y, eff), d, lat) ∧ (k.env s r.hdr).destReady d = true ∧ x.bad = false ∧ y.bad = false ∧ (k.env s
      r.hdr).destBad d = false ∧ ∃ (good rest : List (Tag × Bool)) (tag : Tag), tagChecks i x.vreg y.vreg ((k.env s r.hdr).wv d) = good ++ (tag,
      false) :: rest ∧ (∀ c ∈ good, c.2 = true)) :=
  ⟨⟨slotOf tc, around tc, .vrot ⟨hd, 34, .rne, .sat, .h 3, .v 0, .v 1⟩ false, _, (r2 tc (.v 0) (.v 1)).1, (r2 tc (.v 0) (.v 1)).2.1, (r2 tc (.v 0) (.v
     1)).2.2, .h 3, 4, rfl, ⟨rfl, rfl, by decide +kernel, rfl⟩, rfl, by decide +kernel, by decide +kernel⟩,
   ⟨slotOf tc, around tc, .vfma ⟨hd, 34, .rne, .sat, .v 4, .v 0, .v 1⟩, _, (r2 tc (.v 0) (.v 1)).1, (r2 tc (.v 0) (.v 1)).2.1, (r2 tc (.v 0) (.v
     1)).2.2, .v 4, 4, rfl, ⟨rfl, rfl, by decide +kernel, rfl⟩, rfl, by decide +kernel, rfl, by decide +kernel, by decide +kernel, [(34, true), (34,
     true)], [], 4, by decide +kernel, by decide +kernel⟩⟩

/-- States and operands that meet the hypotheses of each clause of `ReductionResults` (part of `ReductionsAndConversions`). -/
theorem witness_ReductionResults :
    (∃ (k : Slot) (s : State) (i : Instr) (r : VRed) (opF : Sys2Proof.Num → Sys2Proof.Num → Sys2Proof.Num) (opI : Int → Int → Int) (eF :
      Sys2Proof.Num) (eI : Int) (x : Val), reduction i = some (r, opF, opI, eF, eI) ∧ k.Fires s r.hdr ∧ r.mask = none ∧ (k.env s r.hdr).read r.a =
      some x ∧ x.bad = false ∧ (k.env s r.hdr).destReady r.d = true ∧ (k.env s r.hdr).destBad r.d = false ∧ x.vreg.tag = r.s) ∧
    (∃ (k : Slot) (s : State) (i : Instr) (r : VRed) (opF : Sys2Proof.Num → Sys2Proof.Num → Sys2Proof.Num) (opI : Int → Int → Int) (eF :
      Sys2Proof.Num) (eI : Int) (m : Opd) (x y : Val) (eff : List Effect), reduction i = some (r, opF, opI, eF, eI) ∧ k.Fires s r.hdr ∧ r.mask = some
      m ∧ (k.env s r.hdr).read2 r.a m = some (x, y, eff) ∧ x.bad = false ∧ y.bad = false ∧ (k.env s r.hdr).destReady r.d = true ∧ (k.env s
      r.hdr).destBad r.d = false ∧ x.vreg.tag = r.s ∧ y.vreg.tag.isIN = true ∧ y.vreg.tag.width = r.s.width) ∧
    (∃ (k : Slot) (s : State) (r : VBin) (t : Tag) (x y : Val) (eff : List Effect), k.Fires s r.hdr ∧ (k.env s r.hdr).read2 r.a r.b = some (x, y, eff)
      ∧ x.bad = false ∧ y.bad = false ∧ (k.env s r.hdr).destReady r.d = true ∧ (k.env s r.hdr).destBad r.d = false ∧ x.vreg.tag = t ∧ y.vreg.tag = t) :=
  ⟨⟨slotOf tc, around tc, .vsum ⟨hd, 34, .rne, .sat, .d 0, .v 0, none, 34⟩, ⟨hd, 34, .rne, .sat, .d 0, .v 0, none, 34⟩, _, _, _, _, rd tc (.v 0), rfl,
     fires_around _ _, by decide +kernel⟩,
   ⟨slotOf tc, around tc, .vrmax ⟨hd, 34, .rne, .sat, .v 0, .v 0, some (.v 5), 34⟩, ⟨hd, 34, .rne, .sat, .v 0, .v 0, some (.v 5), 34⟩, _, _, _, _, .v
     5, (r2 tc (.v 0) (.v 5)).1, (r2 tc (.v 0) (.v 5)).2.1, (r2 tc (.v 0) (.v 5)).2.2, rfl, fires_around _ _, by decide +kernel⟩,
   ⟨slotOf tc, around tc, ⟨hd, 34, .rne, .sat, .o 5, .v 0, .c 1⟩, 34, (r2 tc (.v 0) (.c 1)).1, (r2 tc (.v 0) (.c 1)).2.1, (r2 tc (.v 0) (.c 1)).2.2,
     fires_around _ _, by decide +kernel⟩⟩

/-- States and operands that meet the hypotheses of each clause of `ConversionResults` (part of `ReductionsAndConversions`). -/
theorem witness_ConversionResults :
    ∃ (k : Slot) (s : State) (r : VConv) (x : Val) (u : Option VReg) (eff : List Effect), k.Fires s r.hdr ∧ ((r.rand = none ∧ (k.env s r.hdr).read r.a
      = some x ∧ u = none ∧ eff = x.eff) ∨ (∃ b y, r.rand = some b ∧ (k.env s r.hdr).read2 r.a b = some (x, y, eff) ∧ y.bad = false ∧ u = some
      y.vreg)) ∧ x.bad = false ∧ (k.env s r.hdr).destReady r.d = true ∧ (k.env s r.hdr).destBad r.d = false ∧ x.vreg.tag = r.s :=
  ⟨slotOf tc, around tc, ⟨hd, 4, .rne, .sat, .v 7, .v 0, none, 34, 3, false⟩, rd tc (.v 0), none, [], fires_around _ _, .inl (by decide +kernel),
    by decide +kernel⟩

/-- States and operands that meet the hypotheses of each clause of `VectorMoves` (part of `LanesMovedAndChosen`). -/
theorem witness_VectorMoves :
    (∃ (k : Slot) (s : State) (r : RUn) (x : Val), k.Fires s r.hdr ∧ (k.env s r.hdr).read r.a = some x ∧ x.bad = false ∧ (k.env s r.hdr).destReady r.d
      = true ∧ (k.env s r.hdr).destBad r.d = false) ∧
    (∃ (k : Slot) (s : State) (h : Hdr) (f : Tag) (d a : Opd) (x : Val), k.Fires s h ∧ (k.env s h).read a = some x ∧ x.bad = false ∧ (k.env s
      h).destReady d = true ∧ (k.env s h).destBad d = false) ∧
    (∃ (k : Slot) (s : State) (h : Hdr) (f : Tag) (d : Opd), k.Fires s h ∧ (k.env s h).destReady d = true ∧ (k.env s h).destBad d = false) ∧
    (∃ (k : Slot) (s : State) (h : Hdr) (d a : Opd) (n : NOp) (x y : Val) (eff : List Effect), k.Fires s h ∧ (k.env s h).readN a n = some (x, y, eff)
      ∧ x.bad = false ∧ y.bad = false ∧ (k.env s h).destReady d = true ∧ (k.env s h).destBad d = false ∧ x.vreg.tag.isB8 = true) ∧
    (∃ (k : Slot) (s : State) (r : RUn) (x : Val), k.Fires s r.hdr ∧ (k.env s r.hdr).read r.a = some x ∧ x.bad = false ∧ (k.env s r.hdr).destReady r.d
      = true ∧ (k.env s r.hdr).destBad r.d = false ∧ x.vreg.tag.isB8 = true) ∧
    (∃ (k : Slot) (s : State) (h : Hdr) (f : Tag) (d a : Opd) (x : Val), k.Fires s h ∧ (k.env s h).read a = some x ∧ x.bad = false ∧ (k.env s
      h).destReady d = true ∧ (k.env s h).destBad d = false) ∧
    (∃ (k : Slot) (s : State) (h : Hdr) (f : Tag) (d a : Opd) (n : NOp) (x y : Val) (eff : List Effect) (j : Nat), k.Fires s h ∧ (k.env s h).readN a n
      = some (x, y, eff) ∧ x.bad = false ∧ y.bad = false ∧ (k.env s h).destReady d = true ∧ (k.env s h).destBad d = false ∧ x.vreg.tag = f ∧ j =
      y.word.toNat % f.lanes) ∧
    (∃ (k : Slot) (s : State) (r : VLane) (x y : Val) (eff : List Effect) (c : Nat), k.Fires s r.hdr ∧ (k.env s r.hdr).readN r.a r.n = some (x, y,
      eff) ∧ x.bad = false ∧ y.bad = false ∧ (k.env s r.hdr).destReady r.d = true ∧ (k.env s r.hdr).destBad r.d = false ∧ x.vreg.tag = r.fmt ∧ c =
      laneAt x.vreg.data.toNat r.fmt.width (y.word.toNat % r.fmt.lanes)) ∧
    (∃ (k : Slot) (s : State) (r : VLane) (x y : Val) (eff : List Effect), k.Fires s r.hdr ∧ (k.env s r.hdr).readN r.a r.n = some (x, y, eff) ∧ x.bad
      = false ∧ y.bad = false ∧ (k.env s r.hdr).destReady r.d = true ∧ (k.env s r.hdr).destBad r.d = false) :=
  ⟨⟨slotOf tc, around tc, ⟨hd, .o 0, .v 7⟩, rd tc (.v 7), fires_around _ _, by decide +kernel⟩,
   ⟨slotOf tc, around tc, hd, 44, .h 2, .v 0, rd tc (.v 0), fires_around _ _, by decide +kernel⟩,
   ⟨slotOf tc, around tc, hd, 0, .v 0, fires_around _ _, by decide +kernel⟩,
   ⟨slotOf tc, around tc, hd, .v 7, .v 4, .aux 255, (rN tc (.v 4) (.aux 255)).1, (rN tc (.v 4) (.aux 255)).2.1, (rN tc (.v 4) (.aux 255)).2.2,
     fires_around _ _, by decide +kernel⟩,
   ⟨slotOf tc, around tc, ⟨hd, .d 7, .v 4⟩, rd tc (.v 4), fires_around _ _, by decide +kernel⟩,
   ⟨slotOf tc, around tc, hd, 43, .v 0, .d 4, rd tc (.d 4), fires_around _ _, by decide +kernel⟩,
   ⟨slotOf tc, around tc, hd, 34, .v 7, .v 0, .aux 15, (rN tc (.v 0) (.aux 15)).1, (rN tc (.v 0) (.aux 15)).2.1, (rN tc (.v 0) (.aux 15)).2.2, 15,
     fires_around _ _, by decide +kernel⟩,
   ⟨slotOf tc, around tc, ⟨hd, 4, .d 0, .v 4, .reg (.d 4)⟩, (rN tc (.v 4) (.reg (.d 4))).1, (rN tc (.v 4) (.reg (.d 4))).2.1, (rN tc (.v 4) (.reg (.d
     4))).2.2, _, fires_around _ _, by decide +kernel, by decide +kernel, by decide +kernel, by decide +kernel, by decide +kernel, by decide +kernel,
     rfl⟩,
   ⟨slotOf tc, around tc, ⟨hd, 34, .v 0, .d 4, .aux 15⟩, (rN tc (.d 4) (.aux 15)).1, (rN tc (.d 4) (.aux 15)).2.1, (rN tc (.d 4) (.aux 15)).2.2,
     fires_around _ _, by decide +kernel⟩⟩

/-- States and operands that meet the hypotheses of each clause of `LaneSelection` (part of `LanesMovedAndChosen`). -/
theorem witness_LaneSelection :
    (∃ (k : Slot) (s : State) (i : Instr) (r : VCmp) (rel : Sys2Proof.Num → Sys2Proof.Num → Bool) (x y : Val) (eff : List Effect), laneCompare i =
      some (r, rel) ∧ k.Fires s r.hdr ∧ (k.env s r.hdr).read2 r.a r.b = some (x, y, eff) ∧ x.bad = false ∧ y.bad = false ∧ (k.env s r.hdr).destReady
      r.d = true ∧ (k.env s r.hdr).destBad r.d = false ∧ x.vreg.tag = r.fmt ∧ y.vreg.tag = r.fmt) ∧
    (∃ (k : Slot) (s : State) (r : VBin) (x y : Val) (eff : List Effect), k.Fires s r.hdr ∧ (k.env s r.hdr).read2 r.a r.b = some (x, y, eff) ∧ x.bad =
      false ∧ y.bad = false ∧ (k.env s r.hdr).destReady r.d = true ∧ (k.env s r.hdr).destBad r.d = false ∧ x.vreg.tag = r.fmt ∧ y.vreg.tag = r.fmt ∧
      ((k.env s r.hdr).wv r.d).tag.isIN = true ∧ ((k.env s r.hdr).wv r.d).tag.width = r.fmt.width) ∧
    (∃ (k : Slot) (s : State) (r : VBin) (x y : Val) (eff : List Effect), k.Fires s r.hdr ∧ (k.env s r.hdr).read2 r.a r.b = some (x, y, eff) ∧ x.bad =
      false ∧ y.bad = false ∧ (k.env s r.hdr).destReady r.d = true ∧ (k.env s r.hdr).destBad r.d = false ∧ x.vreg.tag = r.fmt ∧ y.vreg.tag.isIN = true
      ∧ y.vreg.tag.width = r.fmt.width) ∧
    (∃ (k : Slot) (s : State) (r : VBin) (x y : Val) (eff : List Effect), k.Fires s r.hdr ∧ (k.env s r.hdr).read2 r.a r.b = some (x, y, eff) ∧ x.bad =
      false ∧ y.bad = false ∧ (k.env s r.hdr).destReady r.d = true ∧ (k.env s r.hdr).destBad r.d = false ∧ x.vreg.tag = r.fmt ∧ y.vreg.tag = r.fmt) :=
  ⟨⟨slotOf tc, around tc, .vclt ⟨hd, 34, .v 7, .v 0, .v 1⟩, ⟨hd, 34, .v 7, .v 0, .v 1⟩, _, (r2 tc (.v 0) (.v 1)).1, (r2 tc (.v 0) (.v 1)).2.1, (r2 tc
     (.v 0) (.v 1)).2.2, rfl, fires_around _ _, by decide +kernel⟩,
   ⟨slotOf tc, around tc, ⟨hd, 34, .rne, .sat, .v 5, .v 0, .v 1⟩, (r2 tc (.v 0) (.v 1)).1, (r2 tc (.v 0) (.v 1)).2.1, (r2 tc (.v 0) (.v 1)).2.2,
     fires_around _ _, by decide +kernel⟩,
   ⟨slotOf tc, around tc, ⟨hd, 34, .rne, .sat, .v 0, .v 0, .v 5⟩, (r2 tc (.v 0) (.v 5)).1, (r2 tc (.v 0) (.v 5)).2.1, (r2 tc (.v 0) (.v 5)).2.2,
     fires_around _ _, by decide +kernel⟩,
   ⟨slotOf tc, around tc, ⟨hd, 34, .rne, .sat, .v 0, .v 0, .v 1⟩, (r2 tc (.v 0) (.v 1)).1, (r2 tc (.v 0) (.v 1)).2.1, (r2 tc (.v 0) (.v 1)).2.2,
     fires_around _ _, by decide +kernel⟩⟩

/-- States and operands that meet the hypotheses of each clause of `IntegerLanesAndExactSums`. -/
theorem witness_IntegerLanesAndExactSums :
    (∃ (k : Slot) (s : State) (i : Instr) (r : VInt) (lat : Nat) (op : Nat → Nat → Nat) (b : Opd) (x y : Val) (eff : List Effect), integerLane i =
      some (r, lat, op) ∧ k.Fires s r.hdr ∧ r.b = .reg b ∧ (k.env s r.hdr).read2 r.a b = some (x, y, eff) ∧ x.bad = false ∧ y.bad = false ∧ (k.env s
      r.hdr).destReady r.d = true ∧ (k.env s r.hdr).destBad r.d = false ∧ x.vreg.tag = r.fmt ∧ y.vreg.tag = r.fmt) ∧
    (∃ (k : Slot) (s : State) (i : Instr) (r : VInt) (lat : Nat) (op : Nat → Nat → Nat) (aux : BitVec 8) (x : Val), integerLane i = some (r, lat, op)
      ∧ k.Fires s r.hdr ∧ r.b = .aux aux ∧ (k.env s r.hdr).read r.a = some x ∧ x.bad = false ∧ (k.env s r.hdr).destReady r.d = true ∧ (k.env s
      r.hdr).destBad r.d = false ∧ x.vreg.tag = r.fmt) ∧
    (∃ (k : Slot) (s : State) (i : Instr) (r : VInt) (op : V512 → V512 → V512) (b : Opd) (x y : Val) (eff : List Effect), bitwiseLane i = some (r, op)
      ∧ k.Fires s r.hdr ∧ r.b = .reg b ∧ (k.env s r.hdr).read2 r.a b = some (x, y, eff) ∧ x.bad = false ∧ y.bad = false ∧ (k.env s r.hdr).destReady
      r.d = true ∧ (k.env s r.hdr).destBad r.d = false ∧ x.vreg.tag.isIN = true ∧ y.vreg.tag.isIN = true) ∧
    (∃ (k : Slot) (s : State) (i : Instr) (r : VInt) (op : V512 → V512 → V512) (aux : BitVec 8) (x : Val), bitwiseLane i = some (r, op) ∧ k.Fires s
      r.hdr ∧ r.b = .aux aux ∧ (k.env s r.hdr).read r.a = some x ∧ x.bad = false ∧ (k.env s r.hdr).destReady r.d = true ∧ (k.env s r.hdr).destBad r.d
      = false ∧ x.vreg.tag.isIN = true) ∧
    (∃ (k : Slot) (s : State) (h : Hdr) (d a b : Opd) (x y : Val) (eff : List Effect), k.Fires s h ∧ (k.env s h).read2 a b = some (x, y, eff) ∧ x.bad
      = false ∧ y.bad = false ∧ (k.env s h).destReady d = true ∧ (k.env s h).destBad d = false ∧ x.vreg.tag = 44 ∧ y.vreg.tag = 44) ∧
    (∃ (k : Slot) (s : State) (h : Hdr) (d a b : Opd) (x y : Val) (eff : List Effect), k.Fires s h ∧ (k.env s h).read2 a b = some (x, y, eff) ∧ x.bad
      = false ∧ y.bad = false ∧ (k.env s h).destReady d = true ∧ (k.env s h).destBad d = false ∧ x.vreg.tag = 44 ∧ y.vreg.tag.isFW = true) ∧
    (∃ (k : Slot) (s : State) (r : VLane) (x y : Val) (eff : List Effect) (c : Nat), k.Fires s r.hdr ∧ (k.env s r.hdr).readN r.a r.n = some (x, y,
      eff) ∧ x.bad = false ∧ y.bad = false ∧ x.vreg.tag = 44 ∧ (k.env s r.hdr).destReady r.d = true ∧ (k.env s r.hdr).destBad r.d = false ∧ c =
      (convertF (regX320 x.vreg).toNum r.fmt.float .rne .inf 0).1 ∧ ∃ n old, r.d = .v n ∧ old = (if k.f.pre.v[n].tag = r.fmt then k.f.pre.v[n] else
      VReg.plain r.fmt 0)) ∧
    (∃ (k : Slot) (s : State) (r : VLane) (x y : Val) (eff : List Effect) (c : Nat), k.Fires s r.hdr ∧ (k.env s r.hdr).readN r.a r.n = some (x, y,
      eff) ∧ x.bad = false ∧ y.bad = false ∧ x.vreg.tag = 44 ∧ (k.env s r.hdr).destReady r.d = true ∧ (k.env s r.hdr).destBad r.d = false ∧ c =
      (convertF (regX320 x.vreg).toNum r.fmt.float .rne .inf 0).1 ∧ (∀ n, r.d ≠ .v n)) :=
  ⟨⟨slotOf tc, around tc, .vimul ⟨hd, 41, .v 7, .v 5, .reg (.v 5), true⟩, ⟨hd, 41, .v 7, .v 5, .reg (.v 5), true⟩, _, _, .v 5, (r2 tc (.v 5) (.v
     5)).1, (r2 tc (.v 5) (.v 5)).2.1, (r2 tc (.v 5) (.v 5)).2.2, rfl, fires_around _ _, by decide +kernel⟩,
   ⟨slotOf tc, around tc, .vishr ⟨hd, 41, .v 7, .v 5, .aux 255, false⟩, ⟨hd, 41, .v 7, .v 5, .aux 255, false⟩, _, _, 255, rd tc (.v 5), rfl,
     fires_around _ _, by decide +kernel⟩,
   ⟨slotOf tc, around tc, .vxor ⟨hd, 41, .v 7, .v 5, .reg (.v 6), false⟩, ⟨hd, 41, .v 7, .v 5, .reg (.v 6), false⟩, _, .v 6, (r2 tc (.v 5) (.v 6)).1,
     (r2 tc (.v 5) (.v 6)).2.1, (r2 tc (.v 5) (.v 6)).2.2, rfl, fires_around _ _, by decide +kernel⟩,
   ⟨slotOf tc, around tc, .vand ⟨hd, 41, .v 7, .v 5, .aux 255, false⟩, ⟨hd, 41, .v 7, .v 5, .aux 255, false⟩, _, 255, rd tc (.v 5), rfl, fires_around
     _ _, by decide +kernel⟩,
   ⟨slotOf tc, around tc, hd, .v 7, .v 3, .c 4, (r2 tc (.v 3) (.c 4)).1, (r2 tc (.v 3) (.c 4)).2.1, (r2 tc (.v 3) (.c 4)).2.2, fires_around _ _,
     by decide +kernel⟩,
   ⟨slotOf tc, around tc, hd, .v 7, .v 3, .v 0, (r2 tc (.v 3) (.v 0)).1, (r2 tc (.v 3) (.v 0)).2.1, (r2 tc (.v 3) (.v 0)).2.2, fires_around _ _,
     by decide +kernel⟩,
   ⟨slotOf tc, around tc, ⟨hd, 34, .v 0, .v 3, .aux 15⟩, (rN tc (.v 3) (.aux 15)).1, (rN tc (.v 3) (.aux 15)).2.1, (rN tc (.v 3) (.aux 15)).2.2, _,
     fires_around _ _, by decide +kernel, by decide +kernel, by decide +kernel, by decide +kernel, by decide +kernel, by decide +kernel, rfl, 0, _,
     rfl, rfl⟩,
   ⟨slotOf tc, around tc, ⟨hd, 34, .d 0, .v 3, .aux 15⟩, (rN tc (.v 3) (.aux 15)).1, (rN tc (.v 3) (.aux 15)).2.1, (rN tc (.v 3) (.aux 15)).2.2, _,
     fires_around _ _, by decide +kernel, by decide +kernel, by decide +kernel, by decide +kernel, by decide +kernel, by decide +kernel, rfl, by
     decide⟩⟩

/-- States and operands that meet the hypotheses of each clause of `ParkingResults`. -/
theorem witness_ParkingResults :
    (∃ (k : Slot) (s : State) (r : VPark) (dx dy : Int) (t : Station) (m : Mat), k.Fires s r.hdr ∧ (∀ g ∈ parkGroup r, k.f.pre.pend.contains (.v g.1)
      = false) ∧ (k.env s r.hdr).quadMat r.m1 = some (dx, dy, t, m) ∧ (m.parkable t.pend r.u.toNat = false ∨ (∃ m0, t.matPre = some m0 ∧ m0.parkable
      t.pend r.u.toNat = false) ∨ (∃ g ∈ parkGroup r, ∃ p ∈ m.parks r.u.toNat, p.row = g.2 ∧ p.owner = k.f.st ∧ p.landed = false))) ∧
    (∃ (k : Slot) (s : State) (r : VPark) (dx dy : Int) (t : Station) (m : Mat), k.Fires s r.hdr ∧ (∀ g ∈ parkGroup r, k.f.pre.pend.contains (.v g.1)
      = false) ∧ (k.env s r.hdr).quadMat r.m1 = some (dx, dy, t, m) ∧ m.parkable t.pend r.u.toNat = true ∧ (∀ m0, t.matPre = some m0 → m0.parkable
      t.pend r.u.toNat = true) ∧ (∀ g ∈ parkGroup r, ∀ p ∈ m.parks r.u.toNat, p.row = g.2 → p.owner = k.f.st → p.landed = true) ∧ (∀ g ∈ parkGroup r,
      ∀ p ∈ m.parks r.u.toNat, p.row = g.2 → p.owner = k.f.st)) ∧
    (∃ (k : Slot) (s : State) (r : VPark) (dx dy : Int) (t : Station) (m : Mat), k.Fires s r.hdr ∧ (∀ g ∈ parkGroup r, k.f.pre.pend.contains (.v g.1)
      = false) ∧ (k.env s r.hdr).quadMat r.m1 = some (dx, dy, t, m) ∧ m.parkable t.pend r.u.toNat = true ∧ (∀ m0, t.matPre = some m0 → m0.parkable
      t.pend r.u.toNat = true) ∧ (∀ g ∈ parkGroup r, ∀ p ∈ m.parks r.u.toNat, p.row = g.2 → p.owner = k.f.st → p.landed = true) ∧ ∃ g a b, parkGroup r
      = a ++ g :: b ∧ (∃ p ∈ m.parks r.u.toNat, p.row = g.2 ∧ p.owner ≠ k.f.st) ∧ (∀ g' ∈ a, ∀ p ∈ m.parks r.u.toNat, p.row = g'.2 → p.owner =
      k.f.st)) ∧
    (∃ (k : Slot) (s : State) (r : VPark) (dx dy : Int) (t : Station) (m : Mat), k.Fires s r.hdr ∧ (∀ g ∈ parkGroup r, k.f.pre.pend.contains (.v g.1)
      = false) ∧ (k.env s r.hdr).quadMat r.m1 = some (dx, dy, t, m) ∧ ∃ rows : List VReg, rows.length = r.cnt1.toNat + 1 ∧ (∀ g v, (g, v) ∈ (parkGroup
      r).zip rows → ∃ p, (m.parks r.u.toNat).find? (fun p => p.row == g.2 && p.owner == k.f.st) = some p ∧ p.landed = true ∧ v.tag = p.reg.tag ∧ (∀ u
      : Fin 4, r.u.toNat = u.val → ∀ j : Fin 64, p.row = j.val → v.data = m.t[u].rows[j] ∧ v.side = m.t[u].scales[j]) ∧ (4 ≤ r.u.toNat ∨ 64 ≤ p.row →
      v = p.reg))) ∧
    (∃ (k : Slot) (s : State) (r : VPark) (dx dy : Int) (t : Station) (m : Mat), k.Fires s r.hdr ∧ (∀ g ∈ parkGroup r, k.f.pre.pend.contains (.v g.1)
      = false) ∧ (k.env s r.hdr).quadMat r.m1 = some (dx, dy, t, m) ∧ (∀ g ∈ parkGroup r, ∃ p ∈ m.parks r.u.toNat, p.row = g.2 ∧ p.owner = k.f.st) ∧
      (∃ g ∈ parkGroup r, ∃ p, (m.parks r.u.toNat).find? (fun p => p.row == g.2 && p.owner == k.f.st) = some p ∧ p.landed = false)) ∧
    (∃ (k : Slot) (s : State) (r : VPark) (dx dy : Int) (t : Station) (m : Mat), k.Fires s r.hdr ∧ (∀ g ∈ parkGroup r, k.f.pre.pend.contains (.v g.1)
      = false) ∧ (k.env s r.hdr).quadMat r.m1 = some (dx, dy, t, m) ∧ ∃ g a b, parkGroup r = a ++ g :: b ∧ (∀ p ∈ m.parks r.u.toNat, p.row = g.2 →
      p.owner ≠ k.f.st) ∧ (∀ g' ∈ a, ∃ p ∈ m.parks r.u.toNat, p.row = g'.2 ∧ p.owner = k.f.st)) :=
  ⟨⟨slotOf tc, quad [⟨63, tc.id, VReg.zero, false⟩], ⟨hd, 2, 0, 7, 63, false, true⟩, -1, 0, parkTile [⟨63, tc.id, VReg.zero, false⟩], parkMat [⟨63,
     tc.id, VReg.zero, false⟩], ⟨rfl, rfl, by decide +kernel, by decide +kernel⟩, by decide +kernel, by decide +kernel, .inr (.inr
     (by decide +kernel))⟩,
   ⟨slotOf tc, quad [], ⟨hd, 2, 7, 0, 56, false, false⟩, -1, 0, parkTile [], parkMat [], ⟨rfl, rfl, by decide +kernel, by decide +kernel⟩,
     by decide +kernel, by decide +kernel, by decide +kernel, some_only (by decide +kernel : (parkTile []).matPre = some (parkMat []))
     (by decide +kernel), by decide +kernel, by decide +kernel⟩,
   ⟨slotOf tc, quad [⟨56, ⟨0, 3, 0⟩, VReg.zero, true⟩], ⟨hd, 2, 7, 0, 56, false, false⟩, -1, 0, parkTile [⟨56, ⟨0, 3, 0⟩, VReg.zero, true⟩], parkMat
     [⟨56, ⟨0, 3, 0⟩, VReg.zero, true⟩], ⟨rfl, rfl, by decide +kernel, by decide +kernel⟩, by decide +kernel, by decide +kernel, by decide +kernel,
     some_only (by decide +kernel : (parkTile [⟨56, ⟨0, 3, 0⟩, VReg.zero, true⟩]).matPre = some (parkMat [⟨56, ⟨0, 3, 0⟩, VReg.zero, true⟩]))
     (by decide +kernel), by decide +kernel, (0, 56), [], (parkGroup ⟨hd, 2, 7, 0, 56, false, false⟩).tail, by decide +kernel⟩,
   ⟨slotOf tc, quad [⟨63, tc.id, VReg.zero, true⟩], ⟨hd, 2, 0, 7, 63, false, true⟩, -1, 0, parkTile [⟨63, tc.id, VReg.zero, true⟩], parkMat [⟨63,
     tc.id, VReg.zero, true⟩], ⟨rfl, rfl, by decide +kernel, by decide +kernel⟩, by decide +kernel, by decide +kernel, [heldRow], by decide,
     unpark_row⟩,
   ⟨slotOf tc, quad [⟨63, tc.id, VReg.zero, false⟩], ⟨hd, 2, 0, 7, 63, false, true⟩, -1, 0, parkTile [⟨63, tc.id, VReg.zero, false⟩], parkMat [⟨63,
     tc.id, VReg.zero, false⟩], ⟨rfl, rfl, by decide +kernel, by decide +kernel⟩, by decide +kernel, by decide +kernel, by decide +kernel, (7, 63),
     by decide +kernel, ⟨63, tc.id, VReg.zero, false⟩, by decide +kernel⟩,
   ⟨slotOf tc, quad [], ⟨hd, 2, 7, 0, 56, false, false⟩, -1, 0, parkTile [], parkMat [], ⟨rfl, rfl, by decide +kernel, by decide +kernel⟩,
     by decide +kernel, by decide +kernel, (0, 56), [], (parkGroup ⟨hd, 2, 7, 0, 56, false, false⟩).tail, by decide +kernel⟩⟩

/-- States and operands that meet the hypotheses of each clause of `MatrixSetup` (part of `MatrixRules`). -/
theorem witness_MatrixSetup :
    (∃ (k : Slot) (s : State) (h : Hdr) (a : Fin 2) (o : Fin 8) (c : Option (Fin 8)) (sa sb : ScaleSrc) (kt : BitVec 16) (m : Mat), k.Fires s h ∧
      k.f.pre.matPre = some m ∧ (m.a[a].cfg = none ∨ (usable k.f.pre m a ∧ m.a[a].cnt = 0)) ∧ (∀ n, c = some n → (∀ t : Fin 4, m.t[t].fill ≠ some n) ∧
      (∀ q, m.a[a + 1].cfg = some q → q.carry ≠ some n))) ∧
    (∃ (k : Slot) (s : State) (h : Hdr) (a : Fin 2) (o : Fin 8) (c : Option (Fin 8)) (sa sb : ScaleSrc) (kt : BitVec 16) (m : Mat), k.Fires s h ∧
      k.f.pre.matPre = some m ∧ (m.a[a].cfg = none ∨ (usable k.f.pre m a ∧ m.a[a].cnt = 0)) ∧ ∃ n, c = some n ∧ ((∃ t : Fin 4, m.t[t].fill = some n) ∨
      (∃ q, m.a[a + 1].cfg = some q ∧ q.carry = some n))) ∧
    (∃ (k : Slot) (s : State) (h : Hdr) (t : Fin 4) (c : Fin 8) (f : Tag) (m : Mat), k.Fires s h ∧ k.f.pre.matPre = some m ∧ m.t[t].st = .empty ∧
      m.t[t].parks = [] ∧ (∀ (a : Fin 2) q, m.a[a].cfg = some q → q.carry ≠ some c)) ∧
    (∃ (k : Slot) (s : State) (h : Hdr) (t : Fin 4) (f : Tag) (m : Mat), k.Fires s h ∧ k.f.pre.matPre = some m) ∧
    (∃ (k : Slot) (s : State) (h : Hdr) (t : Fin 4) (full : Bool) (m : Mat), k.Fires s h ∧ k.f.pre.matPre = some m ∧ m.t[t].st ≠ .reading ∧
      m.t[t].parks = [] ∧ (full = false ∨ m.t[t].fmt ≠ 0)) ∧
    (∃ (k : Slot) (s : State) (h : Hdr) (t : Fin 4) (full : Bool) (m : Mat), k.Fires s h ∧ k.f.pre.matPre = some m ∧ m.t[t].st ≠ .reading ∧
      m.t[t].parks = [] ∧ full = true ∧ m.t[t].fmt = 0) ∧
    (∃ (k : Slot) (s : State) (h : Hdr) (a : Fin 2) (m : Mat), k.Fires s h ∧ k.f.pre.matPre = some m ∧ usable k.f.pre m a ∧ m.a[a].cfg ≠ none) ∧
    (∃ (k : Slot) (s : State) (h : Hdr) (a : Fin 2) (m : Mat), k.Fires s h ∧ k.f.pre.matPre = some m ∧ usable k.f.pre m a ∧ ∃ e : BitVec 10,
      m.a[a].cnt = 0) ∧
    (∃ (k : Slot) (s : State) (h : Hdr) (a : Fin 2) (m : Mat), k.Fires s h ∧ k.f.pre.matPre = some m ∧ usable k.f.pre m a ∧ ∃ e : Option (BitVec 10),
      m.a[a].cfg ≠ none) ∧
    (∃ (k : Slot) (s : State) (h : Hdr) (g : Fin 2) (src : Opd) (row : BitVec 6) (all : Bool) (x : Val), k.Fires s h ∧ (k.env s h).read src = some x ∧
      x.bad = false) :=
  ⟨⟨slotOf tm, around tm, hd, 0, 0, none, .tile, .g1, 0xFFFF, someMat, fires_around _ _, by decide +kernel, .inr (by unfold usable; decide +kernel),
     fun n h => by cases h⟩,
   ⟨slotOf tmf, around tmf, hd, 1, 0, some 3, .tile, .g1, 0xFFFF, fillMat, fires_around _ _, by decide +kernel, .inl (by decide +kernel), 3, rfl, .inl
     ⟨2, by decide +kernel⟩⟩,
   ⟨slotOf tm, around tm, hd, 2, 7, 4, someMat, fires_around _ _, by decide +kernel, by decide +kernel, by decide +kernel, carry_none⟩,
   ⟨slotOf tm, around tm, hd, 3, 0, someMat, fires_around _ _, by decide +kernel⟩,
   ⟨slotOf tm, around tm, hd, 1, true, someMat, fires_around _ _, by decide +kernel⟩,
   ⟨slotOf tm, around tm, hd, 3, true, someMat, fires_around _ _, by decide +kernel⟩,
   ⟨slotOf tm, around tm, hd, 0, someMat, fires_around _ _, by decide +kernel, by unfold usable; decide +kernel, by decide +kernel⟩,
   ⟨slotOf tm, around tm, hd, 1, someMat, fires_around _ _, by decide +kernel, by unfold usable; decide +kernel, 0x201, by decide +kernel⟩,
   ⟨slotOf tm, around tm, hd, 0, someMat, fires_around _ _, by decide +kernel, by unfold usable; decide +kernel, none, by decide +kernel⟩,
   ⟨slotOf tm, around tm, hd, 1, .c 1, 63, false, rd tm (.c 1), fires_around _ _, by decide +kernel⟩⟩

/-- States and operands that meet the hypotheses of each clause of `MatrixSteps` (part of `MatrixRules`). -/
theorem witness_MatrixSteps :
    (∃ (k : Slot) (s : State) (r : MStep) (i : Instr) (mmat : Bool) (m : Mat) (q : AccCfg), (i = .mma r ∧ mmat = false ∨ i = .mmat r ∧ mmat = true) ∧
      k.Fires s r.hdr ∧ k.f.pre.matPre = some m ∧ m.a[r.acc].cfg = some q ∧ m.t[r.a].st = .full ∧ m.t[r.b].st = .full ∧ usable k.f.pre m r.acc ∧
      m.step = none ∧ Tag.is16 m.t[r.a].fmt = Tag.is16 m.t[r.b].fmt) ∧
    (∃ (k : Slot) (s : State) (r : MStep) (i : Instr) (mmat : Bool) (m : Mat) (q : AccCfg), (i = .mma r ∧ mmat = false ∨ i = .mmat r ∧ mmat = true) ∧
      k.Fires s r.hdr ∧ k.f.pre.matPre = some m ∧ m.a[r.acc].cfg = some q ∧ m.t[r.a].st = .full ∧ m.t[r.b].st = .full ∧ usable k.f.pre m r.acc ∧
      m.step = none ∧ Tag.is16 m.t[r.a].fmt ≠ Tag.is16 m.t[r.b].fmt) ∧
    (∃ (k : Slot) (s : State) (h : Hdr) (o : Fin 8) (m : Mat), k.Fires s h ∧ k.f.pre.matPre = some m ∧ (k.env s h).room o 1 = true) ∧
    (∃ (k : Slot) (s : State) (h : Hdr) (o : Fin 8) (n : Fin 4) (row : BitVec 6) (part : BitVec 3) (m : Mat), k.Fires s h ∧ k.f.pre.matPre = some m ∧
      (k.env s h).room o 1 = true ∧ m.t[n].parks = []) ∧
    (∃ (k : Slot) (s : State) (h : Hdr) (o : Fin 8) (n : Fin 4) (row : BitVec 6) (part : BitVec 3) (m : Mat), k.Fires s h ∧ k.f.pre.matPre = some m ∧
      (k.env s h).room o 1 = true ∧ (∃ p ∈ m.t[n].parks, p.row = row.toNat)) ∧
    (∃ (k : Slot) (s : State) (h : Hdr) (o : Fin 8) (n : Fin 2) (row : BitVec 6) (part : BitVec 3) (m : Mat), k.Fires s h ∧ k.f.pre.matPre = some m ∧
      (k.env s h).room o 1 = true ∧ k.f.pre.pend.contains (.acc n) = false ∧ (∀ p ∈ m.a[n].parks, p.row ≠ row.toNat)) :=
  ⟨⟨slotOf tm, around tm, ⟨hd, 0, 0, 1, true, false⟩, .mma ⟨hd, 0, 0, 1, true, false⟩, false, someMat, ⟨8, 0, none, .tile, .g0⟩, .inl (by decide),
     fires_around _ _, by decide +kernel, by decide +kernel, by decide +kernel, by decide +kernel, by unfold usable; decide +kernel,
     by decide +kernel, by decide +kernel⟩,
   ⟨slotOf tmw, around tmw, ⟨hd, 0, 0, 1, true, false⟩, .mma ⟨hd, 0, 0, 1, true, false⟩, false, wideMat, ⟨8, 0, none, .tile, .g0⟩, .inl (by decide),
     fires_around _ _, by decide +kernel, by decide +kernel, by decide +kernel, by decide +kernel, by unfold usable; decide +kernel,
     by decide +kernel, by decide +kernel⟩,
   ⟨slotOf tm, around tm, hd, 5, someMat, fires_around _ _, by decide +kernel⟩,
   ⟨slotOf tm, around tm, hd, 5, 3, 63, 0, someMat, fires_around _ _, by decide +kernel⟩,
   ⟨slotOf (parkTile [⟨63, tc.id, VReg.zero, true⟩]), around (parkTile [⟨63, tc.id, VReg.zero, true⟩]), hd, 5, 2, 63, 0, parkMat [⟨63, tc.id,
     VReg.zero, true⟩], fires_around _ _, by decide +kernel⟩,
   ⟨slotOf tm, around tm, hd, 5, 1, 63, 7, someMat, fires_around _ _, by decide +kernel⟩⟩

/-! ### Memory, synchronisation, sounding and stream rules -/

/-- Stations whose context 0 runs a task, has arrived at a barrier, or hosts handler 63. -/
def tworn : Station := { tc with worn := [(false, 0x20)] }
def ttask : Station := tc.modCtx 0 fun c => { c with running := some 9 }
def tarr : Station := tc.modCtx 0 fun c => { c with arrs := [⟨⟨0, .quad, instanceOf .quad tc.id, 3⟩, true, none⟩] }
/-- Two elements of the ring handle 1 are claimed. -/
def tclaim : Station := { tc with claims := [⟨1, 5, 2, false⟩, ⟨1, 6, 3, false⟩] }
def tspw : Station := { tc with handler := [(0, 63)] }

theorem no_arrivals {k : BarKey} {ph : BitVec 32} :
    ∀ a ∈ tc.ctx[(0 : Fin 8)].arrs, a.key = k → a.pending = false ∧ ∀ n, a.ph = some n → n.toNat < ph.toNat := by
  have e : tc.ctx[(0 : Fin 8)].arrs = [] := by decide +kernel
  intro a h
  rw [e] at h
  cases h

/-- Sounding stations: a hint of unsigned bytes, a running walk. -/
def thint : Station := { td with c := td.c.set 1 (chanOf (vecTok 37 1)) }
def walkJob : TreeJob :=
  { time := 0, q := 1, op := .walk, ctx := 0, slot := 0, dest := .d 1, slack := ⟨false, 0⟩, h1 := handles[5], h2 := handles[6], h3 := HEntry.empty,
    h4 := HEntry.empty, major := 0, locks := [], memo := [], step := .plan, res := 0,
    pages := [], bad := none, left := 0, wait := none, held := 0 }
def busySd : Sd := { someSd with eng := some walkJob }
def twalking : Station := { td with sd := some busySd }
def lockedJob : TreeJob := { walkJob with locks := [(2, 8)] }
def lockedSd : Sd := { someSd with eng := some lockedJob }
def tlocked : Station := { td with sd := some lockedSd }

/-- A stream station with part 0 of a stream at the head of channel 0. -/
def tpart : Station := { ts with c := ts.c.set 0 (chanOf { vecTok 43 0 with side := 0x80001 }) }

def tdw : Station := { td with v := Vector.replicate 8 (VReg.plain 34 1) }

/-- States and operands that meet the hypotheses of each clause of `LoadsReadOrAsk` (part of `LoadsReadAskOrFault`). -/
theorem witness_LoadsReadOrAsk :
    (∃ (k : Slot) (s : State) (i : Instr) (r : MLoad) (n align : Nat) (only2 : Bool) (op : ReqOp) (view : Nat → VReg) (x : Val) (va : Nat) (pa :
      Option PaTok) (h : HEntry), h = k.f.pre.h[r.h] ∧ loadForm h i = some (r, n, align, only2, op, view) ∧ k.Fires s r.m.hdr ∧ (k.env s r.m.hdr).read
      r.a = some x ∧ addrOf r.a x = .ok (va, pa) ∧ hasCredit k h ∧ (k.env s r.m.hdr).destReady r.d = true ∧ (only2 = true → h.space = .dev) ∧ inRange
      h va n align ∧ h.space = .loc ∧ k.f.pre.wornIn false va n = true) ∧
    (∃ (k : Slot) (s : State) (i : Instr) (r : MLoad) (n align : Nat) (only2 : Bool) (op : ReqOp) (view : Nat → VReg) (x : Val) (va : Nat) (pa :
      Option PaTok) (h : HEntry), h = k.f.pre.h[r.h] ∧ loadForm h i = some (r, n, align, only2, op, view) ∧ k.Fires s r.m.hdr ∧ (k.env s r.m.hdr).read
      r.a = some x ∧ addrOf r.a x = .ok (va, pa) ∧ hasCredit k h ∧ (k.env s r.m.hdr).destReady r.d = true ∧ (only2 = true → h.space = .dev) ∧ inRange
      h va n align ∧ h.space = .loc ∧ k.f.pre.wornIn false va n = false) ∧
    (∃ (k : Slot) (s : State) (i : Instr) (r : MLoad) (n align : Nat) (only2 : Bool) (op : ReqOp) (view : Nat → VReg) (x : Val) (va : Nat) (pa :
      Option PaTok) (h : HEntry), h = k.f.pre.h[r.h] ∧ loadForm h i = some (r, n, align, only2, op, view) ∧ k.Fires s r.m.hdr ∧ (k.env s r.m.hdr).read
      r.a = some x ∧ addrOf r.a x = .ok (va, pa) ∧ hasCredit k h ∧ (k.env s r.m.hdr).destReady r.d = true ∧ (only2 = true → h.space = .dev) ∧ inRange
      h va n align ∧ h.space ≠ .loc ∧ (∀ n, r.d ≠ .h n)) :=
  ⟨⟨slotOf tworn, around tworn, .ld ⟨mh, .d 1, 3, .d 2⟩, ⟨mh, .d 1, 3, .d 2⟩, 8, 8, false, _, _, rd tworn (.d 2), 0x100, none, handles[3], rfl, rfl,
     fires_around _ _, by decide +kernel, by decide +kernel, by unfold hasCredit; decide +kernel, by decide +kernel, by decide,
     by unfold inRange; decide +kernel, by decide +kernel⟩,
   ⟨slotOf tc, around tc, .ld ⟨mh, .d 1, 3, .d 2⟩, ⟨mh, .d 1, 3, .d 2⟩, 8, 8, false, _, _, rd tc (.d 2), 0x100, none, handles[3], rfl, rfl,
     fires_around _ _, by decide +kernel, by decide +kernel, by unfold hasCredit; decide +kernel, by decide +kernel, by decide,
     by unfold inRange; decide +kernel, by decide +kernel⟩,
   ⟨slotOf tc, around tc, .ld ⟨mh, .d 1, 4, .d 2⟩, ⟨mh, .d 1, 4, .d 2⟩, 8, 8, false, _, _, rd tc (.d 2), 0x100, none, handles[4], rfl, rfl,
     fires_around _ _, by decide +kernel, by decide +kernel, by unfold hasCredit; decide +kernel, by decide +kernel, by decide,
     by unfold inRange; decide +kernel, by decide +kernel⟩⟩

/-- States and operands that meet the hypotheses of each clause of `LoadsFaultAtTheStation` (part of `LoadsReadAskOrFault`). -/
theorem witness_LoadsFaultAtTheStation :
    ∃ (k : Slot) (s : State) (i : Instr) (r : MLoad) (n align : Nat) (only2 : Bool) (op : ReqOp) (view : Nat → VReg) (x : Val) (va : Nat) (pa : Option
      PaTok) (h : HEntry), h = k.f.pre.h[r.h] ∧ loadForm h i = some (r, n, align, only2, op, view) ∧ k.Fires s r.m.hdr ∧ (k.env s r.m.hdr).read r.a =
      some x ∧ addrOf r.a x = .ok (va, pa) ∧ hasCredit k h ∧ (k.env s r.m.hdr).destReady r.d = true ∧ ∃ f : FaultC, ((only2 = true ∧ h.space ≠ .dev ∧
      f = ⟨0x03, 0, va⟩) ∨ ((only2 = false ∨ h.space = .dev) ∧ (va < h.base.toNat ∨ h.base.toNat + h.size.toNat < va + n ∨ ((h.space = .dev ∨ h.space
      = .peer) ∧ 2 ^ 55 ≤ va)) ∧ f = ⟨0x02, 0, va⟩) ∨ ((only2 = false ∨ h.space = .dev) ∧ h.base.toNat ≤ va ∧ va + n ≤ h.base.toNat + h.size.toNat ∧
      (h.space = .dev ∨ h.space = .peer → va < 2 ^ 55) ∧ va % align ≠ 0 ∧ f = ⟨0x02, 1, va⟩)) :=
  ⟨slotOf tc, around tc, .ld ⟨mh, .d 1, 3, .d 5⟩, ⟨mh, .d 1, 3, .d 5⟩, 8, 8, false, _, _, rd tc (.d 5), 0x2000, none, handles[3], rfl, rfl,
    fires_around _ _, by decide +kernel, by decide +kernel, by unfold hasCredit; decide +kernel, by decide +kernel, ⟨0x02, 0, 0x2000⟩,
    by decide +kernel⟩

/-- States and operands that meet the hypotheses of each clause of `StoresWriteOrAsk` (part of `StoresAndUpdates`). -/
theorem witness_StoresWriteOrAsk :
    (∃ (k : Slot) (s : State) (i : Instr) (r : MStore) (n align : Nat) (only2 : Bool) (op : ReqOp) (data : Nat) (x y : Val) (eff : List Effect) (va :
      Nat) (pa : Option PaTok) (h : HEntry), h = k.f.pre.h[r.h] ∧ storeForm h y.vreg i = some (r, n, align, only2, op, data) ∧ k.Fires s r.m.hdr ∧
      (k.env s r.m.hdr).read2 r.a r.s = some (x, y, eff) ∧ addrOf r.a x = .ok (va, pa) ∧ hasCredit k h ∧ (only2 = true → h.space = .dev) ∧ inRange h
      va n align ∧ k.f.pre.ctx[k.f.ctx].running = none ∧ h.space = .loc) ∧
    (∃ (k : Slot) (s : State) (i : Instr) (r : MStore) (n align : Nat) (only2 : Bool) (op : ReqOp) (data : Nat) (x y : Val) (eff : List Effect) (va :
      Nat) (pa : Option PaTok) (h : HEntry), h = k.f.pre.h[r.h] ∧ storeForm h y.vreg i = some (r, n, align, only2, op, data) ∧ k.Fires s r.m.hdr ∧
      (k.env s r.m.hdr).read2 r.a r.s = some (x, y, eff) ∧ addrOf r.a x = .ok (va, pa) ∧ hasCredit k h ∧ (only2 = true → h.space = .dev) ∧ inRange h
      va n align ∧ (k.f.pre.ctx[k.f.ctx].running = none ∨ h.space = .dev) ∧ h.space ≠ .loc) ∧
    (∃ (k : Slot) (s : State) (i : Instr) (r : MStore) (n align : Nat) (only2 : Bool) (op : ReqOp) (data : Nat) (x y : Val) (eff : List Effect) (va :
      Nat) (pa : Option PaTok) (h : HEntry), h = k.f.pre.h[r.h] ∧ storeForm h y.vreg i = some (r, n, align, only2, op, data) ∧ k.Fires s r.m.hdr ∧
      (k.env s r.m.hdr).read2 r.a r.s = some (x, y, eff) ∧ addrOf r.a x = .ok (va, pa) ∧ hasCredit k h ∧ (only2 = true → h.space = .dev) ∧ inRange h
      va n align ∧ k.f.pre.ctx[k.f.ctx].running ≠ none ∧ h.space ≠ .dev) :=
  ⟨⟨slotOf tc, around tc, .st ⟨mh, 3, .d 2, .d 1⟩, ⟨mh, 3, .d 2, .d 1⟩, 8, 8, false, .store 8, 5, (r2 tc (.d 2) (.d 1)).1, (r2 tc (.d 2) (.d 1)).2.1,
     (r2 tc (.d 2) (.d 1)).2.2, 0x100, none, handles[3], rfl, by decide +kernel, fires_around _ _, by decide +kernel, by decide +kernel,
     by unfold hasCredit; decide +kernel, by decide, by unfold inRange; decide +kernel, by decide +kernel⟩,
   ⟨slotOf tc, around tc, .st ⟨mh, 4, .d 2, .d 1⟩, ⟨mh, 4, .d 2, .d 1⟩, 8, 8, false, .store 8, 5, (r2 tc (.d 2) (.d 1)).1, (r2 tc (.d 2) (.d 1)).2.1,
     (r2 tc (.d 2) (.d 1)).2.2, 0x100, none, handles[4], rfl, by decide +kernel, fires_around _ _, by decide +kernel, by decide +kernel,
     by unfold hasCredit; decide +kernel, by decide, by unfold inRange; decide +kernel, by decide +kernel⟩,
   ⟨slotOf ttask, around ttask, .st ⟨mh, 3, .d 2, .d 1⟩, ⟨mh, 3, .d 2, .d 1⟩, 8, 8, false, .store 8, 5, (r2 ttask (.d 2) (.d 1)).1, (r2 ttask (.d 2)
     (.d 1)).2.1, (r2 ttask (.d 2) (.d 1)).2.2, 0x100, none, handles[3], rfl, by decide +kernel, fires_around _ _, by decide +kernel,
     by decide +kernel, by unfold hasCredit; decide +kernel, by decide, by unfold inRange; decide +kernel, by decide +kernel⟩⟩

/-- States and operands that meet the hypotheses of each clause of `UpdatesAsk` (part of `StoresAndUpdates`). -/
theorem witness_UpdatesAsk :
    (∃ (k : Slot) (s : State) (i : Instr) (r : MUpd) (x : Val) (v : RVec) (h : HEntry), h = k.f.pre.h[r.h] ∧ (i = .updw r ∨ i = .red r) ∧ k.Fires s
      r.m.hdr ∧ (k.env s r.m.hdr).read r.r = some x ∧ rvecOf x.vreg = .ok v ∧ k.t.credits < 8 ∧ h.space = .dev ∧ inRange h v.va (opWidth r.op)
      (opWidth r.op)) ∧
    (∃ (k : Slot) (s : State) (r : MLoad) (x : Val) (v : RVec) (h : HEntry), h = k.f.pre.h[r.h] ∧ k.Fires s r.m.hdr ∧ (k.env s r.m.hdr).read r.a =
      some x ∧ rvecOf x.vreg = .ok v ∧ v.op ≤ 13 ∧ k.t.credits < 8 ∧ (k.env s r.m.hdr).destReady r.d = true ∧ (∀ n, r.d ≠ .h n) ∧ h.space = .dev ∧
      inRange h v.va (opWidth (BitVec.ofNat 6 v.op)) (opWidth (BitVec.ofNat 6 v.op)) ∧ k.f.pre.ctx[k.f.ctx].running = none) ∧
    (∃ (k : Slot) (s : State) (r : MLoad) (x : Val) (v : RVec) (h : HEntry), h = k.f.pre.h[r.h] ∧ k.Fires s r.m.hdr ∧ (k.env s r.m.hdr).read r.a =
      some x ∧ rvecOf x.vreg = .ok v ∧ k.t.credits < 8 ∧ (k.env s r.m.hdr).destReady r.d = true ∧ h.space = .dev ∧ Nat.max h.dcnt.toNat 1 ≤ 16 ∧
      inRange h v.va 8 8) :=
  ⟨⟨slotOf tc, around tc, .red ⟨mh, 1, 4, .c 5⟩, ⟨mh, 1, 4, .c 5⟩, rd tc (.c 5), ⟨0x100, none, 0, 0, 0⟩, handles[4], rfl, .inr rfl, fires_around _ _,
     by decide +kernel, by decide +kernel, by decide +kernel, by decide +kernel, by unfold inRange; decide +kernel⟩,
   ⟨slotOf tc, around tc, ⟨mh, .d 0, 4, .c 5⟩, rd tc (.c 5), ⟨0x100, none, 0, 0, 0⟩, handles[4], rfl, fires_around _ _, by decide +kernel,
     by decide +kernel, by decide, by decide +kernel, by decide +kernel, by decide, by decide +kernel, by unfold inRange; decide +kernel,
     by decide +kernel⟩,
   ⟨slotOf tc, around tc, ⟨mh, .o 0, 4, .c 5⟩, rd tc (.c 5), ⟨0x100, none, 0, 0, 0⟩, handles[4], rfl, fires_around _ _, by decide +kernel,
     by decide +kernel, by decide +kernel, by decide +kernel, by decide +kernel, by decide +kernel, by unfold inRange; decide +kernel⟩⟩

/-- States and operands that meet the hypotheses of each clause of `LinesCopiesAndFences`. -/
theorem witness_LinesCopiesAndFences :
    (∃ (k : Slot) (s : State) (m : MHdr) (n : Fin 16) (a : Opd) (x : Val) (va : Nat) (pa : Option PaTok) (h : HEntry), h = k.f.pre.h[n] ∧ k.Fires s
      m.hdr ∧ (k.env s m.hdr).read a = some x ∧ addrOf a x = .ok (va, pa) ∧ k.t.credits < 8 ∧ h.space = .dev ∧ inRange h va 128 1) ∧
    (∃ (k : Slot) (s : State) (m : MHdr) (n : Fin 16) (h : HEntry), h = k.f.pre.h[n] ∧ k.Fires s m.hdr ∧ k.t.credits < 8 ∧ h.space = .dev) ∧
    (∃ (k : Slot) (s : State) (i : Instr) (r : MLine) (x : Val) (va : Nat) (pa : Option PaTok) (h : HEntry), h = k.f.pre.h[r.h] ∧ (i = .pref r ∨ i =
      .disc r) ∧ k.Fires s r.m.hdr ∧ (k.env s r.m.hdr).read r.a = some x ∧ addrOf r.a x = .ok (va, pa) ∧ hasCredit k h ∧ inDomain h = true) ∧
    (∃ (k : Slot) (s : State) (i : Instr) (r : MLine) (x : Val) (va : Nat) (pa : Option PaTok) (h : HEntry), h = k.f.pre.h[r.h] ∧ (i = .pref r ∨ i =
      .disc r) ∧ k.Fires s r.m.hdr ∧ (k.env s r.m.hdr).read r.a = some x ∧ addrOf r.a x = .ok (va, pa) ∧ hasCredit k h ∧ inDomain h = false) ∧
    (∃ (k : Slot) (s : State) (m : MHdr) (n : Fin 16) (h : HEntry), h = k.f.pre.h[n] ∧ k.Fires s m.hdr ∧ hasCredit k h) ∧
    (∃ (k : Slot) (s : State) (i : Instr) (r : MCopy) (vs : List VReg) (eff : List Effect) (c : CopyDesc) (hd hs : HEntry), hd = k.f.pre.h[r.dst] ∧ hs
      = k.f.pre.h[r.src] ∧ k.Fires s r.m.hdr ∧ ((i = .cpy r ∧ ∃ x, (k.env s r.m.hdr).read r.q = some x ∧ vs = [x.vreg] ∧ eff = x.eff ∧ copyDesc
      ((List.range 8).map (lane64 x.vreg)) 3 = .ok c) ∨ (i = .cpyw r ∧ ∃ n : Fin 8, r.q = .v n ∧ vs = [k.f.pre.v[n], k.f.pre.v[n + 1], k.f.pre.v[n +
      2], k.f.pre.v[n + 3]] ∧ eff = [] ∧ (∀ j ∈ [n, n + 1, n + 2, n + 3], k.f.pre.pend.contains (.v j) = false) ∧ copyDesc (vs.flatMap fun v =>
      (List.range 8).map (lane64 v)) 12 = .ok c)) ∧ (∀ v ∈ vs, v.tag = 43) ∧ k.t.credits < 8 ∧ k.t.copies < 128 ∧ copyChecks k.f.pre hd hs c = .ok ()
      ∧ (k.f.pre.ctx[k.f.ctx].running = none ∨ hd.space = .dev)) ∧
    (∃ (k : Slot) (s : State) (m : MHdr) (sc : Scope), k.Fires s m.hdr) :=
  ⟨⟨slotOf tc, around tc, mh, 4, .d 2, rd tc (.d 2), 0x100, none, handles[4], rfl, fires_around _ _, by decide +kernel, by decide +kernel,
     by decide +kernel, by decide +kernel, by unfold inRange; decide +kernel⟩,
   ⟨slotOf tc, around tc, mh, 4, handles[4], rfl, fires_around _ _, by decide +kernel⟩,
   ⟨slotOf tc, around tc, .pref ⟨mh, 63, 4, .d 2⟩, ⟨mh, 63, 4, .d 2⟩, rd tc (.d 2), 0x100, none, handles[4], rfl, .inl rfl, fires_around _ _,
     by decide +kernel, by decide +kernel, by unfold hasCredit; decide +kernel, by decide +kernel⟩,
   ⟨slotOf tc, around tc, .disc ⟨mh, 63, 3, .d 2⟩, ⟨mh, 63, 3, .d 2⟩, rd tc (.d 2), 0x100, none, handles[3], rfl, .inr rfl, fires_around _ _,
     by decide +kernel, by decide +kernel, by unfold hasCredit; decide +kernel, by decide +kernel⟩,
   ⟨slotOf tc, around tc, mh, 4, handles[4], rfl, fires_around _ _, by unfold hasCredit; decide +kernel⟩,
   ⟨slotOf tc, around tc, .cpy ⟨mh, 4, 4, .v 2⟩, ⟨mh, 4, 4, .v 2⟩, [vectors[2]], [], ⟨0x40, 0x1000, 64, 31, []⟩, handles[4], handles[4], rfl, rfl,
     fires_around _ _, .inl ⟨rfl, rd tc (.v 2), by decide +kernel, by decide +kernel, by decide +kernel, by decide +kernel⟩, by decide +kernel,
     by decide +kernel, by decide +kernel, by decide +kernel, .inl (by decide +kernel)⟩,
   ⟨slotOf tc, around tc, mh, .pod, fires_around _ _⟩⟩

/-- States and operands that meet the hypotheses of each clause of `SyncAndTaskRules`. -/
theorem witness_SyncAndTaskRules :
    (∃ (k : Slot) (s : State) (r : SBar) (x : Val), k.Fires s r.hdr ∧ (k.env s r.hdr).readOne r.n = some x) ∧
    (∃ (k : Slot) (s : State) (h : Hdr) (sc : Scope) (id : BitVec 6), k.Fires s h) ∧
    (∃ (k : Slot) (s : State) (h : Hdr) (d : Opd) (sc : Scope) (id : BitVec 6) (ph : BitVec 32), k.Fires s h ∧ ph = s.phase ⟨k.f.pre.voy, sc,
      instanceOf sc k.f.st, id⟩ ∧ (k.env s h).destReady d = true ∧ (k.env s h).destBad d = false ∧ (∀ a ∈ k.f.pre.ctx[k.f.ctx].arrs, a.key =
      ⟨k.f.pre.voy, sc, instanceOf sc k.f.st, id⟩ → a.pending = false ∧ ∀ n, a.ph = some n → n.toNat < ph.toNat)) ∧
    (∃ (k : Slot) (s : State) (h : Hdr) (d : Opd) (sc : Scope) (id : BitVec 6) (ph : BitVec 32), k.Fires s h ∧ ph = s.phase ⟨k.f.pre.voy, sc,
      instanceOf sc k.f.st, id⟩ ∧ (k.env s h).destReady d = true ∧ (k.env s h).destBad d = false ∧ ∃ a rest, k.f.pre.ctx[k.f.ctx].arrs = a :: rest ∧
      a.key = ⟨k.f.pre.voy, sc, instanceOf sc k.f.st, id⟩ ∧ (a.pending = true ∨ ∃ n, a.ph = some n ∧ ph.toNat ≤ n.toNat)) ∧
    (∃ (k : Slot) (s : State) (hdr : Hdr) (d : Opd) (n : Fin 16) (a : Opd) (x : Val) (va : Nat) (pa : Option PaTok) (h : HEntry), h = k.f.pre.h[n] ∧
      k.Fires s hdr ∧ (k.env s hdr).read a = some x ∧ addrOf a x = .ok (va, pa) ∧ k.t.mons < 8 ∧ (k.env s hdr).destReady d = true ∧ (∀ n, d ≠ .h n) ∧
      h.space = .dev ∧ inRange h va 8 8) ∧
    (∃ (k : Slot) (s : State) (hdr : Hdr) (d : Fin 8) (n : Fin 16) (a : Opd) (x : Val) (va : Nat) (pa : Option PaTok) (h : HEntry), h = k.f.pre.h[n] ∧
      k.Fires s hdr ∧ (k.env s hdr).read a = some x ∧ addrOf a x = .ok (va, pa) ∧ k.t.mons < 8 ∧ (k.env s hdr).destReady (.d d) = true ∧ h.space =
      .dev ∧ inRange h va 8 8) ∧
    (∃ (k : Slot) (s : State) (h : Hdr) (n : BitVec 6) (ts args : Opd) (x y : Val) (eff : List Effect), k.Fires s h ∧ (k.env s h).read2 ts args = some
      (x, y, eff) ∧ x.bad = false ∧ y.bad = false ∧ (s.tasks.filter (fun t => t.die == k.f.st.die)).length < 4096 ∧ (∃ t ∈ s.stations, t.voy =
      k.f.pre.voy ∧ t.id.die = k.f.st.die ∧ ∃ p ∈ t.handler, p.2 = n.toNat)) ∧
    (∃ (k : Slot) (s : State) (h : Hdr) (n : BitVec 6) (ts args : Opd) (x y : Val) (eff : List Effect), k.Fires s h ∧ (k.env s h).read2 ts args = some
      (x, y, eff) ∧ x.bad = false ∧ y.bad = false ∧ (s.tasks.filter (fun t => t.die == k.f.st.die)).length < 4096 ∧ (∀ t ∈ s.stations, t.voy =
      k.f.pre.voy → t.id.die = k.f.st.die → ∀ p ∈ t.handler, p.2 ≠ n.toNat)) ∧
    (∃ (k : Slot) (s : State) (h : Hdr), k.Fires s h) :=
  ⟨⟨slotOf tc, around tc, ⟨hd, .die, 63, .imm 1, 0⟩, r1 tc (.imm 1), fires_around _ _, by decide +kernel⟩,
   ⟨slotOf tc, around tc, hd, .quad, 3, fires_around _ _⟩,
   ⟨slotOf tc, around tc, hd, .d 0, .quad, 3, _, fires_around _ _, rfl, by decide +kernel, by decide +kernel, no_arrivals⟩,
   ⟨slotOf tarr, around tarr, hd, .d 0, .quad, 3, _, fires_around _ _, rfl, by decide +kernel, by decide +kernel, ⟨⟨0, .quad, instanceOf .quad tc.id,
     3⟩, true, none⟩, [], by decide +kernel⟩,
   ⟨slotOf tc, around tc, hd, .d 0, 4, .d 2, rd tc (.d 2), 0x100, none, handles[4], rfl, fires_around _ _, by decide +kernel, by decide +kernel,
     by decide +kernel, by decide +kernel, by decide, by decide +kernel, by unfold inRange; decide +kernel⟩,
   ⟨slotOf tc, around tc, hd, 0, 4, .d 2, rd tc (.d 2), 0x100, none, handles[4], rfl, fires_around _ _, by decide +kernel, by decide +kernel,
     by decide +kernel, by decide +kernel, by decide +kernel, by unfold inRange; decide +kernel⟩,
   ⟨slotOf tspw, around tspw, hd, 63, .d 1, .v 0, (r2 tspw (.d 1) (.v 0)).1, (r2 tspw (.d 1) (.v 0)).2.1, (r2 tspw (.d 1) (.v 0)).2.2, fires_around _
     _, by decide +kernel⟩,
   ⟨slotOf tc, around tc, hd, 63, .d 1, .v 0, (r2 tc (.d 1) (.v 0)).1, (r2 tc (.d 1) (.v 0)).2.1, (r2 tc (.d 1) (.v 0)).2.2, fires_around _ _,
     by decide +kernel⟩,
   ⟨slotOf tc, around tc, hd, fires_around _ _⟩⟩

/-- States and operands that meet the hypotheses of each clause of `TreeOperationsHandedOver`. -/
theorem witness_TreeOperationsHandedOver :
    (∃ (k : Slot) (s : State) (r : TOp) (x y : Val) (eff : List Effect) (sd : Sd) (p : TPar) (hn ht : HEntry) (i : Instr) (op : TreeOp), k.Fires s
      r.hdr ∧ engineReady k s r.hdr r.d ∧ k.f.pre.sd = some sd ∧ boundTree k s r.hdr sd.q[r.q] p hn ht ∧ ((i = .tins r ∧ (k.env s r.hdr).read r.a =
      some x ∧ eff = x.eff ∧ op = .tins x.word.toNat) ∨ (i = .tseal r ∧ (k.env s r.hdr).read r.a = some x ∧ eff = x.eff ∧ op = .tseal x.word.toNat) ∨
      (i = .tdrop r ∧ (k.env s r.hdr).read2 r.a r.b = some (x, y, eff) ∧ op = .tdrop x.word.toNat y.word.toNat))) ∧
    (∃ (k : Slot) (s : State) (r : TOp) (x : Val) (sd : Sd) (f : FaultC) (i : Instr), k.Fires s r.hdr ∧ engineReady k s r.hdr r.d ∧ k.f.pre.sd = some
      sd ∧ (k.env s r.hdr).binding sd.q[r.q] = .error f ∧ (i = .tins r ∨ i = .tseal r) ∧ (k.env s r.hdr).read r.a = some x) ∧
    (∃ (k : Slot) (s : State) (h : Hdr) (d : Opd) (hd hs : Fin 16) (n : Opd) (x : Val), k.Fires s h ∧ engineReady k s h d ∧ (k.env s h).read n = some
      x ∧ k.f.pre.h[hd].forkable = true ∧ k.f.pre.h[hs].forkable = true ∧ x.word.toNat * 65536 ≤ k.f.pre.h[hd].size.toNat ∧ x.word.toNat * 65536 ≤
      k.f.pre.h[hs].size.toNat) ∧
    (∃ (k : Slot) (s : State) (h : Hdr) (d : Opd) (hd hs : Fin 16) (n : Opd) (x : Val), k.Fires s h ∧ engineReady k s h d ∧ (k.env s h).read n = some
      x ∧ k.f.pre.h[hd].size.toNat < x.word.toNat * 65536) ∧
    (∃ (k : Slot) (s : State) (h : Hdr) (d : Opd) (hd he : Fin 16) (n : Opd) (q : Fin 4) (x : Val) (sd : Sd) (p : TPar) (hn ht : HEntry), k.Fires s h
      ∧ engineReady k s h d ∧ (k.env s h).read n = some x ∧ k.f.pre.sd = some sd ∧ boundTree k s h sd.q[q] p hn ht ∧ (∀ e ∈ [k.f.pre.h[hd],
      k.f.pre.h[he], hn, ht], e.forkable = true) ∧ hn.size.toNat / 65536 * 65536 ≤ k.f.pre.h[hd].size.toNat ∧ x.word.toNat * 65536 ≤
      k.f.pre.h[he].size.toNat ∧ x.word.toNat * 65536 ≤ ht.size.toNat) ∧
    (∃ (k : Slot) (s : State) (h : Hdr) (d : Opd) (q : Fin 4) (v : Fin 8) (screen : Bool) (sd : Sd) (p : TPar) (hn ht : HEntry), k.Fires s h ∧
      engineReady k s h d ∧ k.f.pre.sd = some sd ∧ boundTree k s h sd.q[q] p hn ht ∧ v.val + p.d / 16 ≤ 8 ∧ (∀ n : Fin 8, v.val ≤ n.val → n.val <
      v.val + p.d / 16 → k.f.pre.pend.contains (.v n) = false ∧ k.f.pre.v[n].tag = 34)) :=
  ⟨⟨slotOf td, around td, ⟨hd, .d 0, 0, .d 1, .d 0⟩, rd td (.d 1), rd td (.d 1), [], someSd, ⟨4, 64, 0, 3, 0, 0, 0x3F800000⟩, handles[5], handles[6],
     .tins ⟨hd, .d 0, 0, .d 1, .d 0⟩, .tins 5, fires_around _ _, ⟨⟨someSd, by decide +kernel, by decide +kernel⟩, by decide +kernel, by decide⟩,
     by decide +kernel, by unfold boundTree; decide +kernel, .inl ⟨rfl, by decide +kernel, by decide +kernel, by decide +kernel⟩⟩,
   ⟨slotOf td, around td, ⟨hd, .o 0, 2, .d 1, .d 0⟩, rd td (.d 1), someSd, ⟨0x02, 1, 0⟩, .tseal ⟨hd, .o 0, 2, .d 1, .d 0⟩, fires_around _ _, ⟨⟨someSd,
     by decide +kernel, by decide +kernel⟩, by decide +kernel, by decide⟩, by decide +kernel, by decide +kernel, .inr rfl, by decide +kernel⟩,
   ⟨slotOf td, around td, hd, .d 0, 5, 6, .d 6, rd td (.d 6), fires_around _ _, ⟨⟨someSd, by decide +kernel, by decide +kernel⟩, by decide +kernel, by
     decide⟩, by decide +kernel⟩,
   ⟨slotOf td, around td, hd, .d 0, 5, 6, .d 7, rd td (.d 7), fires_around _ _, ⟨⟨someSd, by decide +kernel, by decide +kernel⟩, by decide +kernel, by
     decide⟩, by decide +kernel⟩,
   ⟨slotOf td, around td, hd, .d 0, 4, 5, .d 6, 0, rd td (.d 6), someSd, ⟨4, 64, 0, 3, 0, 0, 0x3F800000⟩, handles[5], handles[6], fires_around _ _,
     ⟨⟨someSd, by decide +kernel, by decide +kernel⟩, by decide +kernel, by decide⟩, by decide +kernel, by decide +kernel,
     by unfold boundTree; decide +kernel, by decide +kernel⟩,
   ⟨slotOf tdw, around tdw, hd, .d 0, 0, 4, true, someSd, ⟨4, 64, 0, 3, 0, 0, 0x3F800000⟩, handles[5], handles[6], fires_around _ _, ⟨⟨someSd,
     by decide +kernel, by decide +kernel⟩, by decide +kernel, by decide⟩, by decide +kernel, by unfold boundTree; decide +kernel, by decide +kernel⟩⟩

/-- States and operands that meet the hypotheses of each clause of `QueryRegisterRules`. -/
theorem witness_QueryRegisterRules :
    (∃ (k : Slot) (s : State) (h : Hdr) (q : Fin 4) (a : Opd) (hn ht : Fin 16) (head : BitVec 4) (x : Val) (sd : Sd), k.Fires s h ∧ (k.env s h).read a
      = some x ∧ k.f.pre.sd = some sd ∧ (∀ j, sd.eng = some j → j.q ≠ q)) ∧
    (∃ (k : Slot) (s : State) (h : Hdr) (d : Opd) (q : Fin 4) (p : BitVec 3) (sd : Sd), k.Fires s h ∧ k.f.pre.sd = some sd ∧ sd.q[q].state ≠ 1 ∧
      (k.env s h).destReady d = true ∧ (k.env s h).destBad d = false ∧ p.toNat < sd.q[q].dim / 16) ∧
    (∃ (k : Slot) (s : State) (h : Hdr) (d : Opd) (q : Fin 4) (p : BitVec 3) (sd : Sd), k.Fires s h ∧ k.f.pre.sd = some sd ∧ sd.q[q].state ≠ 1 ∧
      (k.env s h).destReady d = true ∧ (k.env s h).destBad d = false ∧ sd.q[q].dim / 16 ≤ p.toNat) ∧
    (∃ (k : Slot) (s : State) (h : Hdr) (d : Opd) (q : Fin 4) (w : BitVec 2) (sd : Sd), k.Fires s h ∧ k.f.pre.sd = some sd ∧ sd.q[q].state ≠ 1 ∧
      (k.env s h).destReady d = true ∧ (k.env s h).destBad d = false) ∧
    (∃ (k : Slot) (s : State) (h : Hdr) (d : Opd) (q : Fin 4) (delta : Bool) (sd : Sd) (w : Walk), k.Fires s h ∧ k.f.pre.sd = some sd ∧ sd.q[q].walk =
      some w ∧ sd.q[q].state = 2 ∧ (k.env s h).destReady d = true ∧ (k.env s h).destBad d = false) ∧
    (∃ (k : Slot) (s : State) (h : Hdr) (q : Fin 4) (a : Opd) (x : Val) (sd : Sd) (w : Walk), k.Fires s h ∧ (k.env s h).read a = some x ∧ k.f.pre.sd =
      some sd ∧ sd.q[q].walk = some w ∧ sd.q[q].state = 2 ∧ x.vreg.tag = 37) ∧
    (∃ (k : Slot) (s : State) (h : Hdr) (q : Fin 4) (a : Opd) (x : Val) (sd : Sd) (w : Walk), k.Fires s h ∧ (k.env s h).read a = some x ∧ k.f.pre.sd =
      some sd ∧ sd.q[q].walk = some w ∧ sd.q[q].state = 2 ∧ x.vreg.tag ≠ 37) ∧
    (∃ (t : Station) (o : Who) (q : Fin 4) (hs : List Nat) (sd : Sd) (w : Walk), t.sd = some sd ∧ sd.q[q].walk = some w) ∧
    (∃ (k : Slot) (s : State) (h : Hdr) (d : Opd) (q : Fin 4) (sd : Sd) (w : Walk), k.Fires s h ∧ k.f.pre.sd = some sd ∧ sd.q[q].walk = some w ∧
      (k.env s h).destReady d = true ∧ (k.env s h).destBad d = false) ∧
    (∃ (k : Slot) (s : State) (h : Hdr) (d : Opd) (q : Fin 4) (sd : Sd), k.Fires s h ∧ k.f.pre.sd = some sd ∧ (k.env s h).destReady d = true ∧ (k.env
      s h).destBad d = false ∧ ∃ j, sd.eng = some j ∧ j.q = q ∧ j.op = .walk ∧ (sd.q[q].state = 1 ∨ sd.q[q].state = 2) ∧ j.locks = []) ∧
    (∃ (k : Slot) (s : State) (h : Hdr) (d : Opd) (q : Fin 4) (sd : Sd), k.Fires s h ∧ k.f.pre.sd = some sd ∧ (k.env s h).destReady d = true ∧ (k.env
      s h).destBad d = false ∧ ∃ j n v more, sd.eng = some j ∧ j.q = q ∧ j.op = .walk ∧ (sd.q[q].state = 1 ∨ sd.q[q].state = 2) ∧ j.locks = (n, v) ::
      more) ∧
    (∃ (k : Slot) (s : State) (h : Hdr) (d : Opd) (q : Fin 4) (sd : Sd), k.Fires s h ∧ k.f.pre.sd = some sd ∧ (k.env s h).destReady d = true ∧ (k.env
      s h).destBad d = false ∧ sd.eng = none) :=
  ⟨⟨slotOf td, around td, hd, 3, .v 0, 15, 15, 15, rd td (.v 0), someSd, fires_around _ _, by decide +kernel, by decide +kernel, fun j h => by simp
     [someSd] at h⟩,
   ⟨slotOf td, around td, hd, .v 0, 0, 3, someSd, fires_around _ _, by decide +kernel⟩,
   ⟨slotOf td, around td, hd, .v 0, 0, 4, someSd, fires_around _ _, by decide +kernel⟩,
   ⟨slotOf td, around td, hd, .o 5, 0, 3, someSd, fires_around _ _, by decide +kernel⟩,
   ⟨slotOf td, around td, hd, .v 7, 1, true, someSd, someWalk, fires_around _ _, by decide +kernel⟩,
   ⟨slotOf thint, around thint, hd, 1, .c 1, rd thint (.c 1), someSd, someWalk, fires_around _ _, by decide +kernel⟩,
   ⟨slotOf td, around td, hd, 1, .c 1, rd td (.c 1), someSd, someWalk, fires_around _ _, by decide +kernel⟩,
   ⟨td, ⟨td.id, 0, 0⟩, 1, [], someSd, someWalk, by decide +kernel⟩,
   ⟨slotOf td, around td, hd, .d 7, 1, someSd, someWalk, fires_around _ _, by decide +kernel⟩,
   ⟨slotOf twalking, around twalking, hd, .d 7, 1, busySd, fires_around _ _, by decide +kernel, by decide +kernel, by decide +kernel, walkJob,
     by decide +kernel⟩,
   ⟨slotOf tlocked, around tlocked, hd, .d 7, 1, lockedSd, fires_around _ _, by decide +kernel, by decide +kernel, by decide +kernel, lockedJob, 2, 8,
     [], by decide +kernel⟩,
   ⟨slotOf td, around td, hd, .d 7, 0, someSd, fires_around _ _, by decide +kernel⟩⟩

/-- States and operands that meet the hypotheses of each clause of `StoresLandInTheBank` (part of `StoresAndUpdates`). -/
theorem witness_StoresLandInTheBank :
    (∃ (t : Station) (w : Who), Memory.wf t.store = true ∧ Memory.wf t.shadow = true ∧ ∃ (n : Fin 16) (id b : Nat) (x : V512) (c : HClaim) (a : Nat)
      (sh : Bool), t.claims.find? (fun c => c.h = n && c.id == id) = some c ∧ sh = (t.h[n].kind == .phase) ∧ a = t.h[n].base.toNat + 64 *
      (c.slot.toNat % (t.h[n].size.toNat / 64))) ∧
    (∃ (t : Station) (w : Who), Memory.wf t.store = true ∧ Memory.wf t.shadow = true ∧ ∃ (n : Fin 16) (id : Nat) (x : V512) (c : HClaim) (r : List
      HClaim), t.claims = c :: r ∧ c.h = n ∧ (∀ d ∈ r, d.h = n → d.landed = false ∧ d.id ≠ id) ∧ c.id = id) ∧
    (∃ (t : Station) (w : Who), Memory.wf t.store = true ∧ Memory.wf t.shadow = true ∧ ∃ (n : Fin 16) (id : Nat) (x : V512) (c : HClaim) (r : List
      HClaim), t.claims = c :: r ∧ c.h = n ∧ c.id ≠ id ∧ c.landed = false) :=
  ⟨⟨tclaim, ⟨tc.id, 0, 0⟩, by decide +kernel, by decide +kernel, 1, 5, 0, 0, ⟨1, 5, 2, false⟩, 128, false, by decide +kernel⟩,
   ⟨tclaim, ⟨tc.id, 0, 0⟩, by decide +kernel, by decide +kernel, 1, 5, 0, ⟨1, 5, 2, false⟩, [⟨1, 6, 3, false⟩], by decide +kernel⟩,
   ⟨tclaim, ⟨tc.id, 0, 0⟩, by decide +kernel, by decide +kernel, 1, 6, 0, ⟨1, 5, 2, false⟩, [⟨1, 6, 3, false⟩], by decide +kernel⟩⟩

/-- States and operands that meet the hypotheses of each clause of `StreamLogicResults` (part of `StreamRules`). -/
theorem witness_StreamLogicResults :
    (∃ (k : Slot) (s : State) (i : Instr) (r : ZBin) (f : Bool → Bool → Bool) (dj : Bool) (x : Ss), twoStreams i = some (r, f, dj) ∧ k.Fires s r.hdr ∧
      k.f.pre.ss = some x ∧ settledZ k r.d ∧ settledZ k r.a ∧ settledZ k r.b ∧ x.z[r.a].lc ≠ 0 ∧ x.z[r.b].lc = x.z[r.a].lc ∧ masksAgree dj
      x.z[r.a].mask x.z[r.b].mask) ∧
    (∃ (k : Slot) (s : State) (i : Instr) (r : ZBin) (f : Bool → Bool → Bool) (dj : Bool) (x : Ss), twoStreams i = some (r, f, dj) ∧ k.Fires s r.hdr ∧
      k.f.pre.ss = some x ∧ settledZ k r.d ∧ settledZ k r.a ∧ settledZ k r.b ∧ (x.z[r.a].lc = 0 ∨ x.z[r.b].lc = 0 ∨ x.z[r.b].lc ≠ x.z[r.a].lc)) ∧
    (∃ (k : Slot) (s : State) (i : Instr) (r : ZBin) (f : Bool → Bool → Bool) (dj : Bool) (x : Ss), twoStreams i = some (r, f, dj) ∧ k.Fires s r.hdr ∧
      k.f.pre.ss = some x ∧ settledZ k r.d ∧ settledZ k r.a ∧ settledZ k r.b ∧ x.z[r.a].lc ≠ 0 ∧ x.z[r.b].lc = x.z[r.a].lc ∧ (¬ masksAgree dj
      x.z[r.a].mask x.z[r.b].mask)) ∧
    (∃ (k : Slot) (s : State) (r : ZBin) (sel : Fin 16) (x : Ss), k.Fires s r.hdr ∧ k.f.pre.ss = some x ∧ settledZ k r.d ∧ settledZ k r.a ∧ settledZ k
      r.b ∧ settledZ k sel ∧ x.z[r.a].lc ≠ 0 ∧ x.z[r.b].lc = x.z[r.a].lc ∧ x.z[sel].lc = x.z[r.a].lc ∧ x.z[sel].mask &&& (x.z[r.a].mask |||
      x.z[r.b].mask) = 0) ∧
    (∃ (k : Slot) (s : State) (r : ZUn) (x : Ss), k.Fires s r.hdr ∧ k.f.pre.ss = some x ∧ settledZ k r.d ∧ settledZ k r.a ∧ x.z[r.a].lc ≠ 0 ∧ ∃ (n :
      BitVec 12) (g : BitVec 4), n.toNat < streamLen x.z[r.a].lc ∧ x.z[r.a].mask.getLsbD g.toNat = false) ∧
    (∃ (k : Slot) (s : State) (r : ZUn) (x : Ss), k.Fires s r.hdr ∧ k.f.pre.ss = some x ∧ settledZ k r.d ∧ settledZ k r.a ∧ x.z[r.a].lc ≠ 0 ∧ ∃ (n :
      BitVec 12) (g : BitVec 4), streamLen x.z[r.a].lc ≤ n.toNat) :=
  ⟨⟨slotOf ts, around ts, .sand ⟨hd, 15, 0, 1⟩, ⟨hd, 15, 0, 1⟩, _, _, someSs, rfl, fires_around _ _, by decide +kernel,
     by unfold settledZ; decide +kernel, by unfold settledZ; decide +kernel, by unfold settledZ; decide +kernel, by decide +kernel, by decide +kernel,
     by unfold masksAgree; decide +kernel⟩,
   ⟨slotOf ts, around ts, .sor ⟨hd, 15, 0, 3⟩, ⟨hd, 15, 0, 3⟩, _, _, someSs, rfl, fires_around _ _, by decide +kernel,
     by unfold settledZ; decide +kernel, by unfold settledZ; decide +kernel, by unfold settledZ; decide +kernel, by decide +kernel⟩,
   ⟨slotOf ts, around ts, .smin ⟨hd, 15, 0, 1⟩, ⟨hd, 15, 0, 1⟩, _, _, someSs, rfl, fires_around _ _, by decide +kernel,
     by unfold settledZ; decide +kernel, by unfold settledZ; decide +kernel, by unfold settledZ; decide +kernel, by decide +kernel, by decide +kernel,
     by unfold masksAgree; decide +kernel⟩,
   ⟨slotOf ts, around ts, ⟨hd, 15, 0, 1⟩, 2, someSs, fires_around _ _, by decide +kernel, by unfold settledZ; decide +kernel,
     by unfold settledZ; decide +kernel, by unfold settledZ; decide +kernel, by unfold settledZ; decide +kernel, by decide +kernel⟩,
   ⟨slotOf ts, around ts, ⟨hd, 15, 3⟩, someSs, fires_around _ _, by decide +kernel, by unfold settledZ; decide +kernel,
     by unfold settledZ; decide +kernel, by decide +kernel, 255, 0, by decide +kernel⟩,
   ⟨slotOf ts, around ts, ⟨hd, 15, 3⟩, someSs, fires_around _ _, by decide +kernel, by unfold settledZ; decide +kernel,
     by unfold settledZ; decide +kernel, by decide +kernel, 256, 0, by decide +kernel⟩⟩

/-- States and operands that meet the hypotheses of each clause of `StreamSourcesAndSinks` (part of `StreamRules`). -/
theorem witness_StreamSourcesAndSinks :
    (∃ (k : Slot) (s : State) (h : Hdr) (d : Fin 16) (src : Opd) (g : BitVec 4) (bip : Bool) (x : Val) (v : Voyage), k.Fires s h ∧ (k.env s h).read
      src = some x ∧ settledZ k d ∧ s.voyage? k.f.pre.voy = some v) ∧
    (∃ (k : Slot) (s : State) (h : Hdr) (d : Fin 16) (src : Opd) (g n1 : BitVec 4) (bip : Bool) (x : Val) (v : Voyage), k.Fires s h ∧ n1 ≠ 0 ∧ (k.env
      s h).read src = some x ∧ x.vreg.tag = 39 ∧ (∀ n ∈ zRange d n1.toNat, settledZ k n) ∧ s.voyage? k.f.pre.voy = some v) ∧
    (∃ (k : Slot) (s : State) (r : ZUn) (g : BitVec 4) (x : Ss) (v : Voyage) (occ : Nat), k.Fires s r.hdr ∧ k.f.pre.ss = some x ∧ settledZ k r.d ∧
      settledZ k r.a ∧ x.z[r.a].lc ≠ 0 ∧ s.voyage? k.f.pre.voy = some v ∧ occ = streamCycles (streamLen x.z[r.a].lc) + streamCycles (64 * 4 ^
      k.f.pre.ctx[k.f.ctx].len.toNat)) ∧
    (∃ (k : Slot) (s : State) (h : Hdr) (c : BitVec 2), k.Fires s h) ∧
    (∃ (k : Slot) (s : State) (h : Hdr) (o : Fin 8) (a : Fin 16) (n1 : BitVec 4) (x : Ss) (occ : Nat), k.Fires s h ∧ k.f.pre.ss = some x ∧ (∀ n ∈
      zRange a n1.toNat, settledZ k n ∧ x.z[n].lc ≠ 0) ∧ (k.env s h).room o 1 = true ∧ occ = ((zRange a n1.toNat).map fun n => streamCycles (streamLen
      x.z[n].lc)).sum) ∧
    (∃ (k : Slot) (s : State) (h : Hdr) (o : Fin 8) (a : Fin 16) (x : Ss), k.Fires s h ∧ k.f.pre.ss = some x ∧ settledZ k a ∧ (k.env s h).room o 1 =
      true ∧ x.z[a].lc ≠ 0) ∧
    (∃ (k : Slot) (s : State) (h : Hdr) (o : Fin 8) (a : Fin 16) (x : Ss), k.Fires s h ∧ k.f.pre.ss = some x ∧ settledZ k a ∧ (k.env s h).room o 1 =
      true ∧ x.z[a].lc = 0) ∧
    (∃ (k : Slot) (s : State) (h : Hdr) (d : Fin 16) (c : Fin 8) (t : Token), k.Fires s h ∧ (k.env s h).take c = some t ∧ settledZ k d ∧
      Machine.partOk t 0 none = true) ∧
    (∃ (k : Slot) (s : State) (h : Hdr) (d : Fin 16) (c : Fin 8) (t : Token), k.Fires s h ∧ (k.env s h).take c = some t ∧ settledZ k d ∧
      Machine.partOk t 0 none = false) :=
  ⟨⟨slotOf ts, around ts, hd, 15, .c 0, 15, true, rd ts (.c 0), fetchVoyage 0, fires_around _ _, by decide +kernel,
     by unfold settledZ; decide +kernel, by decide +kernel⟩,
   ⟨slotOf ts, around ts, hd, 14, .c 4, 15, 1, false, rd ts (.c 4), fetchVoyage 0, fires_around _ _, by decide, by decide +kernel, by decide +kernel,
     by unfold settledZ; decide +kernel, by decide +kernel⟩,
   ⟨slotOf ts, around ts, ⟨hd, 15, 3⟩, 15, someSs, fetchVoyage 0, _, fires_around _ _, by decide +kernel, by unfold settledZ; decide +kernel,
     by unfold settledZ; decide +kernel, by decide +kernel, by decide +kernel, rfl⟩,
   ⟨slotOf ts, around ts, hd, 3, fires_around _ _⟩,
   ⟨slotOf ts, around ts, hd, 5, 0, 3, someSs, _, fires_around _ _, by decide +kernel, by unfold settledZ; decide +kernel, by decide +kernel, rfl⟩,
   ⟨slotOf ts, around ts, hd, 5, 3, someSs, fires_around _ _, by decide +kernel, by unfold settledZ; decide +kernel, by decide +kernel⟩,
   ⟨slotOf ts, around ts, hd, 5, 4, someSs, fires_around _ _, by decide +kernel, by unfold settledZ; decide +kernel, by decide +kernel⟩,
   ⟨slotOf tpart, around tpart, hd, 15, 0, headOf tpart 0, fires_around _ _, by decide +kernel, by unfold settledZ; decide +kernel, by decide +kernel⟩,
   ⟨slotOf ts, around ts, hd, 15, 0, headOf ts 0, fires_around _ _, by decide +kernel, by unfold settledZ; decide +kernel, by decide +kernel⟩⟩

/-! ### Cycles, results, tokens, matrix and stream units, the tree engine -/

/-- The device between two firings, with a word to fire, and with a result that lands. -/
def cyc (t : Station) : State := { around t with firing := none }
def tland : Station := { tc with flights := [⟨7, 0, 0, 0, [.setD 1 9, .unpend (.d 1)]⟩], pend := [.d 1] }

/-- The destination of the routes, and a token with a counter at the head of channel 0 or in a hop that has a holder. -/
def tdst : Station := { tc with id := ⟨0, 7, 0⟩, c := Vector.replicate 8 (Fifo.empty 4) }
def told (x : Slack) : Station := { tc with c := tc.c.set 0 (chanOf (Token.scalar 3 x)) }
def late (h : Holder) : State :=
  { around tc with routes := [{ routeOf tc 0 with hops := [⟨.mesh, ⟨4, [⟨2, some (Token.scalar 1 ⟨false, 0⟩), false, 0, 0⟩], 0⟩, 0, false, some h⟩] }] }

/-- Matrix stations: tile 3 fills from a channel, a step ends, an accumulator drains or takes carry-in. -/
def fillAt (c : Fin 8) (st : TileSt) (n : Nat) : Mat :=
  { someMat with t := someMat.t.set 3 { someMat.t[3] with fill := some c, st := st, pos := n, fmt := 34 } }
def tfl (c : Fin 8) (st : TileSt) (n : Nat) : Station := { tm with mat := some (fillAt c st n), matPre := some (fillAt c st n) }
def stepMat : Mat :=
  { someMat with
    step := some ⟨0, 0, 1, false, false, false, Vector.replicate 64 unitSide, Vector.replicate 64 unitSide, 0, ⟨false, 992⟩⟩ }
def tstep : Station := { tm with mat := some stepMat }
def drainMat : Mat := { someMat with a := someMat.a.set 0 { someMat.a[0] with st := .closed, pos := 511 } }
def tdrn : Station := { tm with mat := some drainMat }
def carryMat : Mat := { someMat with a := someMat.a.set 0 { someMat.a[0] with cfg := some ⟨8, 0, some 1, .tile, .g0⟩, st := .closed, cin := 511 } }
def tcar : Station := { tm with mat := some carryMat }
def busyMat : Mat := { carryMat with step := stepMat.step }
def tcarb : Station := { tm with mat := some busyMat }

/-- Nodes: the last part of the last row at the normaliser, a row at the corner turn. -/
def nrm (o : List (Nat × Token)) : Nrm := { i := if o.isEmpty then 1 else 7, o := 0, row := 63, part := 7, half := none, outs := o }
def tnrm (o : List (Nat × Token)) : Station :=
  { tc with nrm := some (nrm o), c := tc.c.set 1 (chanOf { vecTok 42 0 with side := BitVec.ofNat 64 (63 * 2 ^ 13 + 7 * 2 ^ 19) }) }
def ctn (o : List (Nat × Token × Bool)) : Ctn :=
  { i := if o.isEmpty then 1 else 7, o := 0, ifmt := 34, ofmt := 34, rm := .rne, ov := .sat, rows := [], outs := o }
def tctn (o : List (Nat × Token × Bool)) : Station := { tc with ctn := some (ctn o) }

/-- A stream transfer in progress, with a part at the head of channel 0. -/
def ioSs (x : StreamIo) : Ss := { someSs with io := some x }
def tio (x : StreamIo) (side : Word) : Station := { ts with ss := some (ioSs x), c := ts.c.set 0 (chanOf { vecTok 43 0 with side := side }) }

/-- The head of a channel, whoever owns it. -/
def headIn (t : Station) (c : Fin 8) : Token := (t.headEntry c).getD noVal.tok

/-- States and operands that meet the hypotheses of each clause of `CycleChoosesRules` (part of `StationsChooseAndContextsAge`). -/
theorem witness_CycleChoosesRules :
    (∃ (s : State) (i : StId) (t : Station), s.station? i = some t ∧ (s.stationRuns t = false ∨ s.runnable t = [])) ∧
    (∃ (s : State) (i : StId) (t : Station), s.station? i = some t ∧ s.stationRuns t = true ∧ s.runnable t ≠ []) :=
  ⟨⟨cyc tc, tc.id, tc, by decide +kernel⟩,
   ⟨cyc tadd, tadd.id, tadd, by decide +kernel⟩⟩

/-- States and operands that meet the hypotheses of each clause of `WaitingContextsAge` (part of `StationsChooseAndContextsAge`). -/
theorem witness_WaitingContextsAge :
    ∃ (s : State) (i : StId) (t : Station), s.station? i = some t ∧ s.stationRuns t = true ∧ s.runnable t ≠ [] :=
  ⟨cyc tadd, tadd.id, tadd, by decide +kernel⟩

/-- States and operands that meet the hypotheses of each clause of `ResultsLandAndYieldsEnd` (part of `ResultsAndCountersRunOut`). -/
theorem witness_ResultsLandAndYieldsEnd :
    (∃ (s : State) (i : StId) (t : Station) (id : Nat) (f : Flight), s.station? i = some t ∧ t.flights.find? (fun g => g.id == id) = some f) ∧
    (∃ (s : State) (i : StId) (t : Station) (c : Fin 8), s.station? i = some t) :=
  ⟨⟨cyc tland, tland.id, tland, 7, ⟨7, 0, 0, 0, [.setD 1 9, .unpend (.d 1)]⟩, by decide +kernel⟩,
   ⟨cyc tc, tc.id, tc, 7, by decide +kernel⟩⟩

/-- States and operands that meet the hypotheses of each clause of `TokensMoveAlongRoutes`. -/
theorem witness_TokensMoveAlongRoutes :
    (∃ (s : State) (id k : Nat) (r : Route) (h : Hop) (i : Instr), i ∈ [Instr.linkHop, .busDeliver, .dieLinkTransfer, .flowForward] ∧ s.routeId? id =
      some r ∧ r.hops[k]? = some h ∧ (h.fifo.bid = none ∨ s.roomAfter r k = false ∨ s.flows r = false)) ∧
    (∃ (s : State) (id k : Nat) (r : Route) (h : Hop) (i : Instr), i ∈ [Instr.linkHop, .busDeliver, .dieLinkTransfer, .flowForward] ∧ s.routeId? id =
      some r ∧ r.hops[k]? = some h ∧ ∃ (t : Token) (n : Nat), h.fifo.bid = some (t, n) ∧ s.roomAfter r k = true ∧ s.flows r = true) :=
  ⟨⟨around tc, 10, 0, routeOf tc 0, ⟨.mesh, ⟨4, [], 0⟩, 0, false, none⟩, .linkHop, by decide +kernel⟩,
   ⟨{ around tc with stations := [tc, tdst] }, 16, 0, routeOf tc 6, ⟨.mesh, ⟨4, List.replicate 4 ⟨2, some (Token.scalar 1 ⟨false, 992⟩), false, 0, 0⟩,
     0⟩, 0, false, none⟩, .flowForward, by decide +kernel, by decide +kernel, by decide +kernel, Token.scalar 1 ⟨false, 992⟩, 0, by decide +kernel⟩⟩

/-- States and operands that meet the hypotheses of each clause of `CountersRunOutAndFaultTokensMove` (part of `ResultsAndCountersRunOut`). -/
theorem witness_CountersRunOutAndFaultTokensMove :
    (∃ (s : State) (l : TokLoc) (x : Slack), s.slackAt l = some x ∧ x.bg = true ∧ 4096 ≤ x.n) ∧
    (∃ (s : State) (l : TokLoc) (x : Slack) (i : StId) (t : Station), s.slackAt l = some x ∧ x.bg = false ∧ x.n = 0 ∧ s.holderAt l = some (.station i)
      ∧ s.station? i = some t) ∧
    (∃ (s : State) (l : TokLoc) (x : Slack) (d i : Nat), s.slackAt l = some x ∧ x.bg = false ∧ x.n = 0 ∧ s.holderAt l = some (.port d i)) ∧
    (∃ (s : State) (l : TokLoc) (x : Slack) (d i : Nat), s.slackAt l = some x ∧ x.bg = false ∧ x.n = 0 ∧ s.holderAt l = some (.slice d i)) ∧
    (∃ (s : State) (i : StId) (t : Station) (n : Fin 8) (k : Token), s.station? i = some t ∧ s.strayFault t n = some k) :=
  ⟨⟨around (told ⟨true, 4096⟩), .chan tc.id 0 0, ⟨true, 4096⟩, by decide +kernel⟩,
   ⟨around (told ⟨false, 0⟩), .chan tc.id 0 0, ⟨false, 0⟩, tc.id, told ⟨false, 0⟩, by decide +kernel⟩,
   ⟨late (.port 0 3), .hop 10 0 0, ⟨false, 0⟩, 0, 3, by decide +kernel⟩,
   ⟨late (.slice 0 95), .hop 10 0 0, ⟨false, 0⟩, 0, 95, by decide +kernel⟩,
   ⟨around tc, tc.id, tc, 6, { Token.scalar 0 ⟨false, 992⟩ with f := true, fmt := 0 }, by decide +kernel⟩⟩

/-- States and operands that meet the hypotheses of each clause of `FillsTakeRows` (part of `MatrixUnitMoves`). -/
theorem witness_FillsTakeRows :
    (∃ (s : State) (i : StId) (t : Station) (m m0 : Mat) (n : Fin 4) (c : Fin 8) (k : Token) (old now : Tile), s.station? i = some t ∧ t.mat = some m
      ∧ t.matPre = some m0 ∧ now = m.t[n] ∧ old = m0.t[n] ∧ now.fill = some c ∧ t.headEntry c = some k ∧ ∃ h : old.pos < 64, old.fill = some c ∧
      old.parks = [] ∧ now.fresh = false ∧ k.stop = 0 ∧ k.f = false ∧ (old.st = .empty ∨ old.st = .filling)) ∧
    (∃ (s : State) (i : StId) (t : Station) (m m0 : Mat) (n : Fin 4) (c : Fin 8) (k : Token) (old now : Tile), s.station? i = some t ∧ t.mat = some m
      ∧ t.matPre = some m0 ∧ now = m.t[n] ∧ old = m0.t[n] ∧ now.fill = some c ∧ t.headEntry c = some k ∧ old.fill = some c ∧ old.parks = [] ∧
      now.fresh = false ∧ k.stop = 1 ∧ k.f = false ∧ old.st = .filling) ∧
    (∃ (s : State) (i : StId) (t : Station) (m m0 : Mat) (n : Fin 4) (c : Fin 8) (k : Token) (old now : Tile), s.station? i = some t ∧ t.mat = some m
      ∧ t.matPre = some m0 ∧ now = m.t[n] ∧ old = m0.t[n] ∧ now.fill = some c ∧ t.headEntry c = some k ∧ (now.fresh = true ∨ old.fill ≠ some c ∨
      old.parks ≠ [] ∨ k.stop = 2 ∨ k.stop = 3 ∨ k.f = true ∨ (k.stop = 1 ∧ old.st = .empty) ∨ old.st = .full ∨ old.st = .reading)) :=
  ⟨⟨around (tfl 1 .filling 63), tm.id, tfl 1 .filling 63, fillAt 1 .filling 63, fillAt 1 .filling 63, 3, 1, headIn tm 1, (fillAt 1 .filling 63).t[3],
     (fillAt 1 .filling 63).t[3], by decide +kernel, by decide +kernel, by decide +kernel, by decide +kernel, by decide +kernel, by decide +kernel,
     by decide +kernel, by decide +kernel, by decide +kernel⟩,
   ⟨around (tfl 2 .filling 10), tm.id, tfl 2 .filling 10, fillAt 2 .filling 10, fillAt 2 .filling 10, 3, 2, Token.stopTok 1 ⟨false, 992⟩, (fillAt 2
     .filling 10).t[3], (fillAt 2 .filling 10).t[3], by decide +kernel⟩,
   ⟨around (tfl 2 .full 0), tm.id, tfl 2 .full 0, fillAt 2 .full 0, fillAt 2 .full 0, 3, 2, Token.stopTok 1 ⟨false, 992⟩, (fillAt 2 .full 0).t[3],
     (fillAt 2 .full 0).t[3], by decide +kernel⟩⟩

/-- States and operands that meet the hypotheses of each clause of `StepsComplete` (part of `MatrixUnitMoves`). -/
theorem witness_StepsComplete :
    ∃ (s : State) (i : StId) (t : Station) (m : Mat) (x : MatStep) (k : AccCfg), s.station? i = some t ∧ t.mat = some m ∧ m.step = some x ∧ x.left = 0
      ∧ m.a[x.acc].cfg = some k :=
  ⟨around tstep, tstep.id, tstep, stepMat, ⟨0, 0, 1, false, false, false, Vector.replicate 64 unitSide, Vector.replicate 64 unitSide, 0, ⟨false,
    992⟩⟩, ⟨8, 0, none, .tile, .g0⟩, by decide +kernel⟩

/-- States and operands that meet the hypotheses of each clause of `AccumulatorsDrain` (part of `MatrixUnitMoves`). -/
theorem witness_AccumulatorsDrain :
    (∃ (s : State) (i : StId) (t : Station) (m : Mat) (n : Fin 2) (o : Fin 8), s.station? i = some t ∧ t.mat = some m ∧ m.drains n = some o ∧
      s.outRoom i o 1 = true ∧ m.a[n].pos ≤ 511) ∧
    (∃ (s : State) (i : StId) (t : Station) (m : Mat) (n : Fin 2) (q : AccCfg) (c : Fin 8) (k : Token), s.station? i = some t ∧ t.mat = some m ∧
      m.a[n].cfg = some q ∧ q.carry = some c ∧ m.a[n].st = .closed ∧ m.a[n].cin < 512 ∧ t.headEntry c = some k ∧ k.stop = 0 ∧ k.f = false ∧ (m.step ≠
      none ∨ (∃ e ∈ t.busy, e.1 = .step))) ∧
    (∃ (s : State) (i : StId) (t : Station) (m : Mat) (n : Fin 2) (q : AccCfg) (c : Fin 8) (k : Token), s.station? i = some t ∧ t.mat = some m ∧
      m.a[n].cfg = some q ∧ q.carry = some c ∧ m.a[n].st = .closed ∧ m.a[n].cin < 512 ∧ t.headEntry c = some k ∧ k.stop = 0 ∧ k.f = false ∧ m.step =
      none ∧ (∀ e ∈ t.busy, e.1 ≠ .step)) :=
  ⟨⟨around tdrn, tdrn.id, tdrn, drainMat, 0, 0, by decide +kernel⟩,
   ⟨around tcarb, tcarb.id, tcarb, busyMat, 0, ⟨8, 0, some 1, .tile, .g0⟩, 1, headIn tcarb 1, by decide +kernel⟩,
   ⟨around tcar, tcar.id, tcar, carryMat, 0, ⟨8, 0, some 1, .tile, .g0⟩, 1, headIn tcar 1, by decide +kernel⟩⟩

/-- States and operands that meet the hypotheses of each clause of `NodesTakeAndEmit` (part of `NodesAndStreamsMove`). -/
theorem witness_NodesTakeAndEmit :
    (∃ (s : State) (i : StId) (t : Station) (x : Nrm) (k : Token), s.station? i = some t ∧ t.nrm = some x ∧ x.outs = [] ∧ t.headEntry x.i = some k ∧
      k.stop = 0 ∧ k.f = false ∧ k.fmt = 42 ∧ (rowHdr k).row = x.row ∧ (rowHdr k).part = x.part) ∧
    (∃ (s : State) (i : StId) (t : Station) (x : Nrm) (k : Token) (r : List (Nat × Token)), s.station? i = some t ∧ t.nrm = some x ∧ x.outs = (0, k)
      :: r ∧ s.outRoom i x.o 1 = true ∧ t.headEntry x.i = none) ∧
    (∃ (s : State) (i : StId) (t : Station) (x : Ctn) (k : Token), s.station? i = some t ∧ t.ctn = some x ∧ x.outs = [] ∧ t.headEntry x.i = some k ∧
      k.stop = 0 ∧ k.f = false ∧ k.fmt = x.ifmt) ∧
    (∃ (s : State) (i : StId) (t : Station) (x : Ctn) (k : Token) (b : Bool) (r : List (Nat × Token × Bool)), s.station? i = some t ∧ t.ctn = some x ∧
      x.outs = (0, k, b) :: r ∧ s.outRoom i x.o 1 = true ∧ t.headEntry x.i = none) :=
  ⟨⟨around (tnrm []), tc.id, tnrm [], nrm [], headIn (tnrm []) 1, by decide +kernel⟩,
   ⟨around (tnrm [(0, noVal.tok)]), tc.id, tnrm [(0, noVal.tok)], nrm [(0, noVal.tok)], noVal.tok, [], by decide +kernel⟩,
   ⟨around (tctn []), tc.id, tctn [], ctn [], headIn (tctn []) 1, by decide +kernel⟩,
   ⟨around (tctn [(0, noVal.tok, true)]), tc.id, tctn [(0, noVal.tok, true)], ctn [(0, noVal.tok, true)], noVal.tok, true, [], by decide +kernel⟩⟩

/-- States and operands that meet the hypotheses of each clause of `StreamPartsMove` (part of `NodesAndStreamsMove`). -/
theorem witness_StreamPartsMove :
    (∃ (s : State) (i : StId) (t : Station) (x : Ss) (o : Fin 8) (z : ZReg) (p : Nat) (sl : Slack), s.station? i = some t ∧ t.ss = some x ∧ x.io =
      some (.sout o z p sl) ∧ s.outRoom i o 1 = true ∧ p < 8) ∧
    (∃ (s : State) (i : StId) (t : Station) (x : Ss) (d : Fin 16) (c : Fin 8) (p : Nat) (acc : ZReg) (ctx : Fin 8) (slot : Fin 32) (sl : Slack) (k :
      Token), s.station? i = some t ∧ t.ss = some x ∧ x.io = some (.sin d c p acc ctx slot sl) ∧ t.seen ctx c = some k ∧ Machine.partOk k p (some acc)
      = true ∧ p + 1 ≠ partCount acc.lc) ∧
    (∃ (s : State) (i : StId) (t : Station) (x : Ss) (d : Fin 16) (c : Fin 8) (p : Nat) (acc : ZReg) (ctx : Fin 8) (slot : Fin 32) (sl : Slack) (k :
      Token), s.station? i = some t ∧ t.ss = some x ∧ x.io = some (.sin d c p acc ctx slot sl) ∧ t.seen ctx c = some k ∧ Machine.partOk k p (some acc)
      = true ∧ p + 1 = partCount acc.lc) ∧
    (∃ (s : State) (i : StId) (t : Station) (x : Ss) (d : Fin 16) (c : Fin 8) (p : Nat) (acc : ZReg) (ctx : Fin 8) (slot : Fin 32) (sl : Slack) (k :
      Token), s.station? i = some t ∧ t.ss = some x ∧ x.io = some (.sin d c p acc ctx slot sl) ∧ t.seen ctx c = some k ∧ Machine.partOk k p (some acc)
      = false) :=
  ⟨⟨around (tio (.sout 0 ⟨5, 1, 4⟩ 7 ⟨false, 992⟩) 0), ts.id, tio (.sout 0 ⟨5, 1, 4⟩ 7 ⟨false, 992⟩) 0, ioSs (.sout 0 ⟨5, 1, 4⟩ 7 ⟨false, 992⟩), 0,
     ⟨5, 1, 4⟩, 7, ⟨false, 992⟩, by decide +kernel⟩,
   ⟨around (tio (.sin 0 0 1 ⟨0, 1, 4⟩ 0 0 ⟨false, 992⟩) 0x210001), ts.id, tio (.sin 0 0 1 ⟨0, 1, 4⟩ 0 0 ⟨false, 992⟩) 0x210001, ioSs (.sin 0 0 1 ⟨0,
     1, 4⟩ 0 0 ⟨false, 992⟩), 0, 0, 1, ⟨0, 1, 4⟩, 0, 0, ⟨false, 992⟩, headIn (tio (.sin 0 0 1 ⟨0, 1, 4⟩ 0 0 ⟨false, 992⟩) 0x210001) 0,
     by decide +kernel⟩,
   ⟨around (tio (.sin 0 0 1 ⟨0, 1, 3⟩ 0 0 ⟨false, 992⟩) 0x190001), ts.id, tio (.sin 0 0 1 ⟨0, 1, 3⟩ 0 0 ⟨false, 992⟩) 0x190001, ioSs (.sin 0 0 1 ⟨0,
     1, 3⟩ 0 0 ⟨false, 992⟩), 0, 0, 1, ⟨0, 1, 3⟩, 0, 0, ⟨false, 992⟩, headIn (tio (.sin 0 0 1 ⟨0, 1, 3⟩ 0 0 ⟨false, 992⟩) 0x190001) 0,
     by decide +kernel⟩,
   ⟨around (tio (.sin 0 0 1 ⟨0, 1, 4⟩ 0 0 ⟨false, 992⟩) 0x0), ts.id, tio (.sin 0 0 1 ⟨0, 1, 4⟩ 0 0 ⟨false, 992⟩) 0x0, ioSs (.sin 0 0 1 ⟨0, 1, 4⟩ 0 0
     ⟨false, 992⟩), 0, 0, 1, ⟨0, 1, 4⟩, 0, 0, ⟨false, 992⟩, headIn (tio (.sin 0 0 1 ⟨0, 1, 4⟩ 0 0 ⟨false, 992⟩) 0x0) 0, by decide +kernel⟩⟩

/-! ### The tree engine -/

/-- A station whose engine runs an operation, in a device with a mapped tree, and the tree as the engine sees it. -/
def eng (j : TreeJob) : State := mapped (around (teng j))
def ofJob (s : State) (j : TreeJob) : TBind := jobBind (on s (.st td.id)) (teng j) someSd.q[j.q] j

/-- What the engine's requests have brought: the tree is empty and its locks are free. -/
def zeros : List (TreeKey × Nat) :=
  (.lock 0, 0) :: (.take 0, 0) ::
    ((List.range 384).flatMap fun c => [(.data (9216 + c) false, 0), (.data (9216 + c) true, 0), (.data (10240 + c) false, 0)])

def insert5 : TreeJob := job 0 (.tins 5) []
def known (op : TreeOp) : TreeJob := { job 0 op [(0, 0)] with memo := zeros }

/-- The root of a walk bound as register 0 is. -/
def walkQ (w : Walk) (st : BitVec 4) : QReg := { someSd.q[(0 : Fin 4)] with walk := some w, state := st }
def walkEng (w : Walk) (st : BitVec 4) (j : TreeJob) : Station := { td with sd := some { someSd with q := someSd.q.set 0 (walkQ w st), eng := some j } }
def walkSt (w : Walk) (st : BitVec 4) (j : TreeJob) : State := mapped (around (walkEng w st j))
def freshWalk : Walk := { someWalk with paused := false }
def wjob (m : List (TreeKey × Nat)) : TreeJob := { job 0 .walk [] with memo := m }

theorem engine_of (s : State) (j : TreeJob) (h : s.station? td.id = some (teng j)) (hw : j.wait = none) :
    Engine s td.id (teng j) { someSd with eng := some j } j (ofJob s j) :=
  ⟨⟨h, rfl⟩, ⟨none, by cases j; cases hw; rfl⟩, hw, rfl⟩

/-! What the kind of an answer says. -/

def kindOf {α : Type} : Except TErr α → Nat
  | .ok _ => 0 | .error (.ask ..) => 1 | .error .retry => 2 | .error (.fault _) => 3 | .error (.held ..) => 4 | .error (.frames ..) => 5

theorem ok_of {α : Type} {x : Except TErr α} (h : kindOf x = 0) : ∃ a, x = .ok a := by
  rcases x with (_ | _ | _ | _ | _) | a <;> first | exact ⟨a, rfl⟩ | simp [kindOf] at h

theorem ok_pair {α β : Type} {x : Except TErr (α × β)} (h : kindOf x = 0) : ∃ a b, x = .ok (a, b) :=
  let ⟨⟨a, b⟩, e⟩ := ok_of h; ⟨a, b, e⟩

theorem ask_of {α : Type} {x : Except TErr α} (h : kindOf x = 1) : ∃ u l, x = .error (.ask u l) := by
  rcases x with (_ | _ | _ | _ | ⟨u, l⟩) | _ <;> first | exact ⟨u, l, rfl⟩ | simp [kindOf] at h

theorem retry_of {α : Type} {x : Except TErr α} (h : kindOf x = 2) : x = .error .retry := by
  rcases x with (_ | _ | _ | _ | _) | _ <;> first | rfl | simp [kindOf] at h

theorem fault_of {α : Type} {x : Except TErr α} (h : kindOf x = 3) : ∃ f, x = .error (.fault f) := by
  rcases x with (f | _ | _ | _ | _) | _ <;> first | exact ⟨f, rfl⟩ | simp [kindOf] at h

/-- A run that ends and whose writes can be issued. -/
def goes (b : TBind) (sealing : Bool) (ls : List (Nat × Word)) {α : Type} (x : Except TErr (α × TW)) : Bool :=
  match x with
  | .ok (_, w) => (match w.plan b sealing ls with | .go .. => true | _ => false)
  | _ => false

theorem goes_of {b : TBind} {sealing : Bool} {ls : List (Nat × Word)} {α : Type} {x : Except TErr (α × TW)} (h : goes b sealing ls x = true) :
    ∃ y w u ls' as, x = .ok (y, w) ∧ w.plan b sealing ls = .go u ls' as := by
  unfold goes at h
  split at h
  · rename_i y w
    split at h
    · rename_i u ls' as e
      exact ⟨y, w, u, ls', as, rfl, e⟩
    · simp at h
  · simp at h

/-- States and operands that meet the hypotheses of each clause of `TreeLocksAreTaken` (part of `TreeEngineActs`). -/
theorem witness_TreeLocksAreTaken :
    (∃ (s : State) (b : TBind) (n : Nat), ∃ pa u, s.treePage b b.hn (b.hn.base.toNat + n * b.p.s + 0x10) true = .ok (pa, u)) ∧
    (∃ memo : List (TreeKey × Nat), memoAt memo (.lock 0) = none) ∧
    (∃ (memo : List (TreeKey × Nat)) (v : Nat), memoAt memo (.lock 0) = some v ∧ v % 2 = 1) ∧
    (∃ (memo : List (TreeKey × Nat)) (v : Nat), memoAt memo (.lock 0) = some v ∧ v % 2 = 0 ∧ memoAt memo (.take 0) = none) ∧
    (∃ (memo : List (TreeKey × Nat)) (v x : Nat), memoAt memo (.lock 0) = some v ∧ v % 2 = 0 ∧ memoAt memo (.take 0) = some x) ∧
    (∃ (ls : List (Nat × Word)) (n : Nat), ls.any (fun l => l.1 == n) = true) ∧
    (∃ (s : State) (b : TBind) (memo : List (TreeKey × Nat)) (n : Nat) (ls : List (Nat × Word)) (e : TErr),
      ls.any (fun l => l.1 == n) = false ∧ s.lockNode b memo n = .error e) ∧
    (∃ (s : State) (b : TBind) (memo : List (TreeKey × Nat)) (n : Nat) (ls : List (Nat × Word)),
      ls.any (fun l => l.1 == n) = false ∧ ∃ v u, s.lockNode b memo n = .ok (v, u)) :=
  ⟨⟨eng insert5, ofJob (eng insert5) insert5, 0, ok_pair (by decide +kernel)⟩,
   ⟨[], by decide⟩, ⟨[(.lock 0, 1)], 1, by decide⟩, ⟨[(.lock 0, 2)], 2, by decide⟩, ⟨[(.lock 0, 2), (.take 0, 4)], 2, 4, by decide⟩,
   ⟨[(0, 0)], 0, by decide⟩,
   ⟨eng insert5, ofJob (eng insert5) insert5, [(.lock 0, 1)], 0, [], .retry, by decide, retry_of (by decide +kernel)⟩,
   ⟨eng insert5, ofJob (eng insert5) insert5, zeros, 0, [], by decide, ok_pair (by decide +kernel)⟩⟩

/-- An engine with nothing under way. -/
def Idle (s : State) (i : StId) (t : Station) (x : Sd) (j : TreeJob) (b : TBind) : Prop := Engine s i t x j b ∧ (on s (.st i)).treeBusy i = false

theorem idle_ex (j : TreeJob) {P : State → StId → Station → Sd → TreeJob → TBind → Prop} (s : State) (h : s.station? td.id = some (teng j))
    (hw : j.wait = none) (hb : (on s (.st td.id)).treeBusy td.id = false)
    (hp : P s td.id (teng j) { someSd with eng := some j } j (ofJob s j)) : ∃ s i t x j b, Idle s i t x j b ∧ P s i t x j b :=
  ⟨s, td.id, teng j, _, j, _, ⟨engine_of s j h hw, hb⟩, hp⟩

/-- The root on a versioned page; a page to fork to. -/
def versTree (j : TreeJob) : State := { eng j with mem := Memory.write tables (3 * 2 ^ 16 + 8 * 0x20) 8 (0x59 + 9 * 2 ^ 16) }
def forkTree (j : TreeJob) : State := { eng j with mem := Memory.write tables (3 * 2 ^ 16 + 8 * 0x20) 8 0x1B }
def twin (n : Nat) : TreeJob := { job 0 (.forkTree n) [] with h3 := { handles[5] with base := 0x600000 }, h4 := { handles[6] with base := 0x800000 } }
def askedBy (j : TreeJob) : State := { eng j with reqs := [{ rq .port with src := .tree td.id, op := .tree 0 (.lock 0) 8 false }] }

/-- An insertion, a drop and a seal find a leaf of one token. -/
def oneLeaf : List (TreeKey × Nat) := zeros.map fun e => if e.1 = .data (9216) false then (e.1, 2 ^ 224) else e

set_option maxRecDepth 100000 in
/-- States and operands that meet the hypotheses of each clause of `TreeWritersWrite` (part of `TreeEngineActs`): the lock, then the writes. -/
theorem witness_TreeWritersWrite :
    (∃ s i t x j b, Engine s i t x j b ∧ (on s (.st i)).treeBusy i = true) ∧
    (∃ s i t x j b, Idle s i t x j b ∧ j.bad = none ∧ (on s (.st i)).lockNode b j.memo 0 = .error .retry) ∧
    (∃ s i t x j b, Idle s i t x j b ∧ j.bad = none ∧ ∃ u l, (on s (.st i)).lockNode b j.memo 0 = .error (.ask u l)) ∧
    (∃ s i t x j b, Idle s i t x j b ∧ j.bad = none ∧ ∃ v u, (on s (.st i)).lockNode b j.memo 0 = .ok (v, u)) ∧
    (∃ s i t x j b, Idle s i t x j b ∧ j.bad = none ∧ ∃ f, (on s (.st i)).lockNode b j.memo 0 = .error (.fault f)) ∧
    (∃ s i t x j b, Idle s i t x j b ∧ ∃ f, j.bad = some f) ∧
    (∃ s i t x j b, Idle s i t x j b ∧ ∃ n, j.bad = none ∧ j.step = .plan ∧ j.op = .tins n ∧
      ∃ y w u ls as, (tinsert b n).run (TW.start (on s (.st i)) j.memo) = .ok (y, w) ∧ w.plan b false j.locks = .go u ls as) ∧
    (∃ s i t x j b, Idle s i t x j b ∧ ∃ n m, j.bad = none ∧ j.step = .plan ∧ j.op = .tdrop n m ∧
      ∃ y w u ls as, (tdropRange b n m).run (TW.start (on s (.st i)) j.memo) = .ok (y, w) ∧ w.plan b false j.locks = .go u ls as) ∧
    (∃ s i t x j b, Idle s i t x j b ∧ ∃ n, j.bad = none ∧ j.step = .plan ∧ j.op = .tseal n ∧
      ∃ y w u ls as, (tsealNode b n).run (TW.start (on s (.st i)) j.memo) = .ok (y, w) ∧ w.plan b true j.locks = .go u ls as) ∧
    (∃ s i t x j b, Idle s i t x j b ∧ ∃ n, j.bad = none ∧ j.step = .plan ∧ j.op = .forkPages n ∧
      ∃ u y, (on s (.st i)).fork b.asid (pagePairs j.h2.base.toNat j.h1.base.toNat n) = .ok (u, y)) ∧
    (∃ s i t x j b, Idle s i t x j b ∧ ∃ n, j.bad = none ∧ j.step = .plan ∧ j.op = .forkTree n ∧ ∃ y z, (on s (.st i)).forkBoth j b n = .ok (y, z)) ∧
    (∃ s i t x j b, Idle s i t x j b ∧ j.bad = none ∧ j.op ≠ .walk ∧ j.step = .write ∧ ∃ as u, (on s (.st i)).releaseAsks b j.locks = .ok (as, u)) ∧
    (∃ s i t x j b, Idle s i t x j b ∧ j.bad = none ∧ j.op ≠ .walk ∧ j.step = .unlock) ∧
    (∃ s i t x j b, Idle s i t x j b ∧ ∃ f, j.bad = some f ∧ j.op ≠ .walk ∧ j.locks = []) ∧
    (∃ s i t x j b, Idle s i t x j b ∧ ∃ f, j.bad = some f ∧ j.op ≠ .walk ∧ j.locks ≠ [] ∧
      ∃ as u, (on s (.st i)).releaseAsks b j.locks = .ok (as, u)) ∧
    (∃ (s : State) (i : StId) (j : TreeJob) (t : Station) (x : Sd), s.station? i = some t ∧ t.sd = some x ∧ ∃ n, j.dest = .d n) :=
  ⟨⟨askedBy insert5, _, _, _, insert5, _, engine_of _ _ (by decide +kernel) rfl, by decide +kernel⟩,
   idle_ex ({ insert5 with memo := [(.lock 0, 1)] }) (eng ({ insert5 with memo := [(.lock 0, 1)] })) (by decide +kernel) rfl (by decide +kernel)
     ⟨rfl, retry_of (by decide +kernel)⟩,
   idle_ex (insert5) (eng (insert5)) (by decide +kernel) rfl (by decide +kernel) ⟨rfl, ask_of (by decide +kernel)⟩,
   idle_ex (known (.tins 5)) (eng (known (.tins 5))) (by decide +kernel) rfl (by decide +kernel) ⟨rfl, ok_pair (by decide +kernel)⟩,
   idle_ex (insert5) (versTree insert5) (by decide +kernel) rfl (by decide +kernel) ⟨rfl, fault_of (by decide +kernel)⟩,
   idle_ex ({ insert5 with bad := some ⟨0x01, 0, 0⟩ }) (eng ({ insert5 with bad := some ⟨0x01, 0, 0⟩ })) (by decide +kernel) rfl (by decide +kernel)
     ⟨_, rfl⟩,
   idle_ex (known (.tins 5)) (eng (known (.tins 5))) (by decide +kernel) rfl (by decide +kernel) ⟨5, rfl, rfl, rfl, goes_of (by decide +kernel)⟩,
   idle_ex (known (.tdrop 0 2)) (eng (known (.tdrop 0 2))) (by decide +kernel) rfl (by decide +kernel)
     ⟨0, 2, rfl, rfl, rfl, goes_of (by decide +kernel)⟩,
   idle_ex ({ known (.tseal 0) with memo := oneLeaf }) (eng ({ known (.tseal 0) with memo := oneLeaf })) (by decide +kernel) rfl (by decide +kernel)
     ⟨0, rfl, rfl, rfl, goes_of (by decide +kernel)⟩,
   idle_ex (job 0 (.forkPages 1) []) (forkTree (job 0 (.forkPages 1) [])) (by decide +kernel) rfl (by decide +kernel)
     ⟨1, rfl, rfl, rfl, ok_pair (by decide +kernel)⟩,
   idle_ex (twin 2) (eng (twin 2)) (by decide +kernel) rfl (by decide +kernel) ⟨2, rfl, rfl, rfl, ok_pair (by decide +kernel)⟩,
   idle_ex ({ known (.tins 5) with step := .write }) (eng ({ known (.tins 5) with step := .write })) (by decide +kernel) rfl (by decide +kernel)
     ⟨rfl, by decide, rfl, ok_pair (by decide +kernel)⟩,
   idle_ex ({ insert5 with step := .unlock }) (eng ({ insert5 with step := .unlock })) (by decide +kernel) rfl (by decide +kernel)
     ⟨rfl, by decide, rfl⟩,
   idle_ex ({ insert5 with bad := some ⟨0x01, 0, 0⟩ }) (eng ({ insert5 with bad := some ⟨0x01, 0, 0⟩ })) (by decide +kernel) rfl (by decide +kernel)
     ⟨⟨0x01, 0, 0⟩, rfl, by decide, rfl⟩,
   idle_ex ({ known (.tins 5) with bad := some ⟨0x01, 0, 0⟩ }) (eng ({ known (.tins 5) with bad := some ⟨0x01, 0, 0⟩ })) (by decide +kernel) rfl (by decide +kernel)
     ⟨⟨0x01, 0, 0⟩, rfl, by decide, by decide, ok_pair (by decide +kernel)⟩,
   ⟨eng insert5, td.id, insert5, teng insert5, _, by decide +kernel, rfl, 1, rfl⟩⟩

def wkind {α : Type} : Except WStop α → Nat | .ok _ => 0 | .error (.ask _) => 1 | .error .busy => 2 | .error (.fault _) => 3

theorem wask_of {α : Type} {x : Except WStop α} (h : wkind x = 1) : ∃ l, x = .error (.ask l) := by
  rcases x with (_ | _ | l) | _ <;> first | exact ⟨l, rfl⟩ | simp [wkind] at h

theorem wbusy_of {α : Type} {x : Except WStop α} (h : wkind x = 2) : x = .error .busy := by
  rcases x with (_ | _ | l) | _ <;> first | rfl | simp [wkind] at h

theorem wnone_of {α : Type} {x : Except WStop (Option α)} (h : (match x with | .ok none => true | _ => false) = true) : x = .ok none := by
  rcases x with _ | (_ | _) <;> first | rfl | simp at h

theorem wroot_of {x : Except WStop (Option TNode)} (h : (match x with | .ok (some r) => decide (r.n = 0) | _ => false) = true) :
    ∃ r, x = .ok (some r) ∧ r.n = 0 := by
  rcases x with _ | (_ | r) <;> first | exact ⟨r, rfl, of_decide_eq_true h⟩ | simp at h

theorem wbool_of {x : Except WStop Bool} {a : Bool} (h : (match x with | .ok b => b == a | _ => false) = true) : x = .ok a := by
  rcases x with _ | b <;> simp_all

theorem run_fault {x : WOut} (h : (match x with | .fault .. => true | _ => false) = true) : ∃ y f, x = .fault y f := by
  cases x <;> first | exact ⟨_, _, rfl⟩ | simp at h

/-- A walk that has reached a leaf of version 2, and one in exact mode at a node on a versioned page. -/
def movedWalk : Walk := { freshWalk with leaves := 1, ver := 2 }
def deepWalk : Walk := { freshWalk with exact := true, leaves := 1, kids := [[⟨32, false, true, 0, 0, 0, 0, 0, 0, []⟩]] }
def deep : State :=
  { walkSt deepWalk 1 (wjob zeros) with mem := Memory.write tables (3 * 2 ^ 16 + 8 * 0x21) 8 (0x59 + 15 * 2 ^ 16) }
def absentRoot : State := { walkSt freshWalk 1 (wjob []) with mem := Memory.write tables (3 * 2 ^ 16 + 8 * 0x20) 8 0 }

/-- A walk whose engine has nothing under way. -/
def Walking (s : State) (i : StId) (t : Station) (x : Sd) (j : TreeJob) (b : TBind) (q : QReg) (w : Walk) : Prop :=
  Engine s i t x j b ∧ (on s (.st i)).treeBusy i = false ∧ j.op = .walk ∧ q = x.q[j.q] ∧ q.walk = some w

theorem walking_ex (w : Walk) (st : BitVec 4) (j : TreeJob) {P : State → StId → Station → Sd → TreeJob → TBind → QReg → Walk → Prop} (s : State)
    (h : s.station? td.id = some (walkEng w st j)) (hw : j.wait = none) (ho : j.op = .walk) (hq : j.q = 0)
    (hb : (on s (.st td.id)).treeBusy td.id = false)
    (hp : P s td.id (walkEng w st j) { someSd with q := someSd.q.set 0 (walkQ w st), eng := some j } j
      (jobBind (on s (.st td.id)) (walkEng w st j) (walkQ w st) j) (walkQ w st) w) : ∃ s i t x j b q w, Walking s i t x j b q w ∧ P s i t x j b q w := by
  have e : (someSd.q.set 0 (walkQ w st))[j.q] = walkQ w st := by simp [hq]
  exact ⟨s, td.id, walkEng w st j, _, j, _, walkQ w st, w,
    ⟨⟨⟨h, rfl⟩, ⟨none, by cases j; cases hw; rfl⟩, hw, congrArg (fun q => jobBind (on s (.st td.id)) (walkEng w st j) q j) e.symm⟩, hb, ho, e.symm, rfl⟩, hp⟩

set_option maxRecDepth 100000 in
/-- States and operands that meet the hypotheses of each clause of `WalksStartAndRestart` (part of `TreeEngineActs`). -/
theorem witness_WalksStartAndRestart :
    (∃ s i t x j b q w, Walking s i t x j b q w ∧ q.state ≠ 1) ∧
    (∃ s i t x j b q w, Walking s i t x j b q w ∧ q.state = 1 ∧ j.locks = [] ∧ ∃ f, j.bad = some f) ∧
    (∃ s i t x j b q w, Walking s i t x j b q w ∧ q.state = 1 ∧ j.locks = [] ∧ j.bad = none ∧ w.frontier = [] ∧ w.kids = [] ∧ w.done = [] ∧
      w.leaves = 0 ∧ q.finite = true ∧ (on s (.st i)).probeNode b j.memo w.locked 0 = .ok none) ∧
    (∃ s i t x j b q w, Walking s i t x j b q w ∧ q.state = 1 ∧ j.locks = [] ∧ j.bad = none ∧ w.frontier = [] ∧ w.kids = [] ∧ w.done = [] ∧
      w.leaves = 0 ∧ q.finite = true ∧ w.locked = false ∧
      ∃ root, (on s (.st i)).probeNode b j.memo w.locked 0 = .ok (some root) ∧ root.n = 0) ∧
    (∃ s i t x j b q w, Walking s i t x j b q w ∧ q.state = 1 ∧ j.locks = [] ∧ j.bad = none ∧ w.frontier = [] ∧ w.kids = [] ∧ w.done = [] ∧
      w.leaves = 0 ∧ ∃ l, (on s (.st i)).probeNode b j.memo w.locked 0 = .error (.ask l)) ∧
    (∃ s i t x j b q w, Walking s i t x j b q w ∧ q.state = 1 ∧ j.locks = [] ∧ j.bad = none ∧ w.frontier = [] ∧ w.kids = [] ∧ w.done = [] ∧
      w.leaves = 0 ∧ (on s (.st i)).probeNode b j.memo w.locked 0 = .error .busy) ∧
    (∃ s i t x j b q w, Walking s i t x j b q w ∧ q.state = 1 ∧ j.locks = [] ∧ j.bad = none ∧ w.leaves ≠ 0 ∧
      (on s (.st i)).sameRoot b j.memo w false = .ok false ∧ q.rstrt ≠ 3) ∧
    (∃ s i t x j b q w, Walking s i t x j b q w ∧ q.state = 1 ∧ j.locks = [] ∧ j.bad = none ∧ w.leaves ≠ 0 ∧
      (on s (.st i)).sameRoot b j.memo w false = .ok true ∧ ∃ y f, runWalk (on s (.st i)) b j.memo q w = .fault y f) :=
  ⟨walking_ex freshWalk 2 (wjob []) (walkSt freshWalk 2 (wjob [])) (by decide +kernel) rfl rfl rfl (by decide +kernel) (by decide +kernel),
   walking_ex freshWalk 1 { wjob [] with bad := some ⟨1, 0, 0⟩ } (walkSt freshWalk 1 { wjob [] with bad := some ⟨1, 0, 0⟩ }) (by decide +kernel) rfl rfl rfl (by decide +kernel)
     ⟨rfl, rfl, _, rfl⟩,
   walking_ex freshWalk 1 (wjob []) absentRoot (by decide +kernel) rfl rfl rfl (by decide +kernel) ⟨rfl, rfl, rfl, rfl, rfl, rfl, rfl, (by decide +kernel), wnone_of (by decide +kernel)⟩,
   walking_ex freshWalk 1 (wjob zeros) (walkSt freshWalk 1 (wjob zeros)) (by decide +kernel) rfl rfl rfl (by decide +kernel) ⟨rfl, rfl, rfl, rfl, rfl, rfl, rfl, (by decide +kernel), rfl, wroot_of (by decide +kernel)⟩,
   walking_ex freshWalk 1 (wjob []) (walkSt freshWalk 1 (wjob [])) (by decide +kernel) rfl rfl rfl (by decide +kernel) ⟨rfl, rfl, rfl, rfl, rfl, rfl, rfl, wask_of (by decide +kernel)⟩,
   walking_ex freshWalk 1 (wjob [(.data 9216 false, 2 ^ 128)]) (walkSt freshWalk 1 (wjob [(.data 9216 false, 2 ^ 128)])) (by decide +kernel) rfl rfl rfl (by decide +kernel)
     ⟨rfl, rfl, rfl, rfl, rfl, rfl, rfl, wbusy_of (by decide +kernel)⟩,
   walking_ex movedWalk 1 (wjob zeros) (walkSt movedWalk 1 (wjob zeros)) (by decide +kernel) rfl rfl rfl (by decide +kernel) ⟨rfl, rfl, rfl, by decide, wbool_of (by decide +kernel), by decide⟩,
   walking_ex deepWalk 1 (wjob zeros) deep (by decide +kernel) rfl rfl rfl (by decide +kernel) ⟨rfl, rfl, rfl, by decide, wbool_of (by decide +kernel), run_fault (by decide +kernel)⟩⟩

/-! ### Queues and launches -/

def pkt (ws : List Nat) : Packet := Vector.ofFn fun i : Fin 8 => BitVec.ofNat 64 (ws.getD i.val 0)
/-- Acquire and release scopes of a packet: the least and the greatest. -/
def scopes : Nat := 3 * 2 ^ 11 + 5 * 2 ^ 14
/-- A dependency wait on the word at VA 0x200 of page 0, which the packets hold no byte of. -/
def dep : Packet := pkt [scopes + 2, 0x200, 7, 0xFF, 2]
/-- Launches of the image on page 5 on die 0: of 1 by 1 plats, and wider than a die. -/
def launch : Packet := pkt [scopes + 1 + 2 ^ 17 + 2 ^ 21 + 2 ^ 25, 5 * 2 ^ 16, 0, 0x400]
def wide : Packet := pkt [scopes + 1 + 2 ^ 17 + 15 * 2 ^ 21 + 2 ^ 25, 5 * 2 ^ 16, 0, 0x400]

/-- Launches whose handle table lies on a page of first touch, and whose image on no page. -/
def grown : Packet := pkt [scopes + 1 + 2 ^ 17 + 2 ^ 21 + 2 ^ 25, 5 * 2 ^ 16, 0, 2 ^ 16]
def nowhere : Packet := pkt [scopes + 1 + 2 ^ 17 + 2 ^ 21 + 2 ^ 25, 9 * 2 ^ 16, 0, 0x400]

/-- With empty pools. -/
def dry (s : State) : State := { s with dies := s.dies.map fun d => { d with pool := [] } }

theorem miss_eq {α : Type} {x : Except Miss α} {m : Miss} (h : (match x with | .error n => n == m | .ok _ => false) = true) : x = .error m := by
  cases x <;> simp_all

/-- A ring of 16 packets at VA 0, with one packet. -/
def qq : Queue := { Queue.reset 0 with base := BitVec.ofNat 64 (4 * 2 ^ 59), wr := 1, en := true }

/-- The image on page 5: one region of 1 by 1 plats, without patterns. -/
def image : List Host.Cell :=
  [(0, 1 + 2 ^ 16 + 2 ^ 20 + 2 ^ 24 + 2 ^ 40), (0x10, 0x40 + 0x80 * 2 ^ 32), (0x40, 2 ^ 13 + 2 ^ 17 + 7 * 2 ^ 35)].foldl
    (fun m (e : Nat × Nat) => Memory.write m (13 * 2 ^ 16 + e.1) 8 e.2) tables

/-- A running device with a packet at the read index of queue 0. -/
def helm (p : Packet) (q : Queue) : State :=
  let s := mapped State.reset
  { s with
    state := 1, nextId := 100, queues := [q], dies := s.dies.set 0 { s.dies[0] with ready := 0xFF }
    mem := Memory.write image (8 * 2 ^ 16) 64 (packLanes 64 (p.toList.map (·.toNat))) }

def isPacket (x : Next) (p : Packet) (u : State) : Bool := match x with | .packet q v => decide (q = p) && decide (v = u) | _ => false

theorem packet_eq {x : Next} {p : Packet} {u : State} (h : isPacket x p u = true) : x = .packet p u := by
  cases x with
  | packet q v => simp only [isPacket, Bool.and_eq_true, decide_eq_true_eq] at h; rw [h.1, h.2]
  | _ => simp [isPacket] at h

theorem stop_eq {x : Next} {c : Byte} (h : (match x with | .stop d => d == c | _ => false) = true) : x = .stop c := by
  cases x <;> simp_all

theorem ok_getD {ε α : Type} {x : Except ε α} {d : α} (h : x.isOk = true) : x = .ok (x.toOption.getD d) := by
  cases x with
  | error e => simp [Except.isOk, Except.toBool] at h
  | ok a => rfl

theorem next_packet {s : State} {n : Nat} {p : Packet} (hq : ((s.queue n).idle : Bool) = true)
    (h : isPacket ((on s (.queue n)).nextPacket (s.queue n)) p (on s (.queue n)) = true) :
    NextPacket s n p (on s (.queue n)) := by
  simp only [Queue.idle, Bool.and_eq_true, Bool.not_eq_true', beq_iff_eq, bne_iff_ne] at hq
  exact ⟨hq.1.1.1, hq.1.1.2, hq.1.2, hq.2, packet_eq h⟩

/-- What a launch packet and a waiting launch take from memory. -/
def launchRead (s : State) (p : Packet) : Img × List Nat × State := ((on s (.queue 0)).readLaunch (s.queue 0).asid p).toOption.getD (⟨0, 0⟩, [], s)
def launchImg (s : State) (p : Packet) : Img := (launchRead s p).1
def launchTab (s : State) (p : Packet) : List Nat := (launchRead s p).2.1
def launchState (s : State) (p : Packet) : State := (launchRead s p).2.2
def imageOf (i : Img) : Image := i.parse.getD ⟨0, 0, 0, []⟩
def placeRead (s : State) (l : Launch) : Img × List Nat × State := ((on s (.launch 3)).readLaunch l.asid l.pkt).toOption.getD (⟨0, 0⟩, [], s)
def placeImg (s : State) (l : Launch) : Img := (placeRead s l).1
def placeTab (s : State) (l : Launch) : List Nat := (placeRead s l).2.1
def placeState (s : State) (l : Launch) : State := (placeRead s l).2.2

theorem launch_read {s : State} {p : Packet} (h : ((on s (.queue 0)).readLaunch (s.queue 0).asid p).isOk = true) :
    (on s (.queue 0)).readLaunch (s.queue 0).asid p = .ok (launchImg s p, launchTab s p, launchState s p) := ok_getD h

theorem place_read {s : State} {l : Launch} (h : ((on s (.launch 3)).readLaunch l.asid l.pkt).isOk = true) :
    (on s (.launch 3)).readLaunch l.asid l.pkt = .ok (placeImg s l, placeTab s l, placeState s l) := ok_getD h

theorem parses {i : Img} (h : i.parse.isSome = true) : i.parse = some (imageOf i) := some_getD h

def waiter (r : Option Nat) : Launch :=
  { id := 3, queue := 0, idx := 0, asid := 0, pkt := launch, time := 0, front := none, resume := r, starve := false }
/-- A saved voyage of that image, a device on which a launch waits, and one without a ready die. -/
def savedVoyage : Saved :=
  { voy := { fetchVoyage 5 with pkt := launch, regions := [{ fetchRegion with pw := 1, gen := 2, st := .drained }] }, stations := [], routes := [],
    reqs := [], copies := [], domains := [], bars := [], msgs := [], tasks := [], agens := [], complete := true, held := false }
def waits (r : Option Nat) : State := { helm launch qq with launches := [waiter r], saved := [(0, savedVoyage)] }
def full : State := { waits none with dies := State.reset.dies }
def stuck : State := { waits (some 0) with dies := State.reset.dies }
def placedIn (c : Placed) : State := match c with | .ok s => s | _ => State.reset
def resumed : State :=
  let s := waits (some 0)
  let l := waiter (some 0)
  placedIn ((placeState s l).reconfigure l savedVoyage (imageOf (placeImg s l)) (placeTab s l) [(0, 0, 0, 0)])

theorem resumed_eq :
    (placeState (waits (some 0)) (waiter (some 0))).reconfigure (waiter (some 0)) savedVoyage (imageOf (placeImg (waits (some 0)) (waiter (some 0))))
      (placeTab (waits (some 0)) (waiter (some 0))) [(0, 0, 0, 0)] = .ok resumed := by
  have : ∀ {c : Placed}, (match c with | .ok _ => true | _ => false) = true → c = .ok (placedIn c) := by
    intro c h
    cases c <;> simp_all [placedIn]
  exact this (by decide +kernel)

theorem placed_ok {A : Prop} {c : Placed} (h : A) (g : (match c with | .ok _ => true | _ => false) = true) : ∃ y, A ∧ c = .ok y := by
  cases c with
  | ok y => exact ⟨y, h, rfl⟩
  | _ => simp at g

def words (x : Nat) : Packet := Vector.ofFn fun i : Fin 8 => BitVec.ofNat 64 (x / 2 ^ (64 * i.val))

/-- The queue's ring is readable and reads x. -/
def readsPacket (s : State) (k : Queue) (x : Nat) (u : State) : Prop :=
  fld k.base.toNat 59 5 = 4 ∧ (k.wr - k.rd).toNat ≤ 16 ∧
    s.helmRead s.helmDie k.asid (fld k.base.toNat 6 49 * 64 + 64 * (k.rd.toNat % 2 ^ fld k.base.toNat 59 5)) 64 false = .ok (x, u)

/-- Queues that meet each clause of `PacketErrorsHaveTheirCodes` (part of `QueuesReadPackets`): LOG2N, the indices, a ring on a page that waits for a
frame and on none, a reserved kind, a scope outside the range, slack base 63, and a good packet. -/
theorem witness_PacketErrorsHaveTheirCodes :
    (∃ k : Queue, fld k.base.toNat 59 5 = 3) ∧ (∃ k : Queue, fld k.base.toNat 59 5 = 17) ∧
    (∃ k : Queue, fld k.base.toNat 59 5 = 4 ∧ 2 ^ 4 < (k.wr - k.rd).toNat) ∧
    (∃ (s : State) (k : Queue), fld k.base.toNat 59 5 = 4 ∧ (k.wr - k.rd).toNat = 1 ∧
      s.helmRead s.helmDie k.asid (fld k.base.toNat 6 49 * 64 + 64 * (k.rd.toNat % 2 ^ 4)) 64 false = .error (.frames 0)) ∧
    (∃ (s : State) (k : Queue), fld k.base.toNat 59 5 = 16 ∧ (k.wr - k.rd).toNat = 2 ^ 16 ∧
      s.helmRead s.helmDie k.asid (fld k.base.toNat 6 49 * 64 + 64 * (k.rd.toNat % 2 ^ 16)) 64 false = .error .fail) ∧
    (∃ s k x u, readsPacket s k x u ∧ 3 ≤ (words x).kind) ∧
    (∃ s k x u, readsPacket s k x u ∧ (words x).kind < 3 ∧ (words x).reserved = false ∧ (words x).asc < 3) ∧
    (∃ s k x u, readsPacket s k x u ∧ (words x).kind = 1 ∧ (words x).reserved = false ∧ (words x).slb = 63) ∧
    (∃ s k x u, readsPacket s k x u ∧ (words x).kind < 3 ∧ (words x).reserved = false ∧ 3 ≤ (words x).asc ∧ (words x).rsc ≤ 5) :=
  ⟨⟨{ qq with base := BitVec.ofNat 64 (3 * 2 ^ 59) }, by decide +kernel⟩, ⟨{ qq with base := BitVec.ofNat 64 (17 * 2 ^ 59) }, by decide +kernel⟩,
   ⟨{ qq with wr := 17 }, by decide +kernel⟩,
   ⟨{ mapped State.reset with dies := State.reset.dies }, { qq with base := BitVec.ofNat 64 (4 * 2 ^ 59 + 2 ^ 16) }, by decide +kernel, by decide +kernel,
    miss_eq (by decide +kernel)⟩,
   ⟨State.reset, { qq with base := BitVec.ofNat 64 (16 * 2 ^ 59), wr := 0x10000 }, by decide +kernel, by decide +kernel, miss_eq (by decide +kernel)⟩,
   ⟨helm (pkt [scopes + 3]) qq, qq, packLanes 64 ((pkt [scopes + 3]).toList.map (·.toNat)), helm (pkt [scopes + 3]) qq, ⟨by decide +kernel, by decide +kernel, ok_eq (by decide +kernel)⟩, by decide +kernel⟩, ⟨helm (pkt [5 * 2 ^ 14]) qq, qq, packLanes 64 ((pkt [5 * 2 ^ 14]).toList.map (·.toNat)), helm (pkt [5 * 2 ^ 14]) qq, ⟨by decide +kernel, by decide +kernel, ok_eq (by decide +kernel)⟩, by decide +kernel⟩, ⟨helm (pkt [scopes + 1 + 63 * 2 ^ 29]) qq, qq, packLanes 64 ((pkt [scopes + 1 + 63 * 2 ^ 29]).toList.map (·.toNat)), helm (pkt [scopes + 1 + 63 * 2 ^ 29]) qq, ⟨by decide +kernel, by decide +kernel, ok_eq (by decide +kernel)⟩, by decide +kernel⟩, ⟨helm (pkt [scopes]) qq, qq, packLanes 64 ((pkt [scopes]).toList.map (·.toNat)), helm (pkt [scopes]) qq, ⟨by decide +kernel, by decide +kernel, ok_eq (by decide +kernel)⟩, by decide +kernel⟩⟩

/-- States and operands that meet the hypotheses of each clause of `QueuesProcessPackets` (part of `QueuesReadPackets`). -/
theorem witness_QueuesProcessPackets :
    (∃ (s : State) (n : Nat) (v : BitVec 32) (m : Nat), s.owned = true ∧ s.owner.toNat = m) ∧
    (∃ (s : State) (n : Nat) (v : BitVec 32) (m : Nat), (s.owned = false ∨ s.owner.toNat ≠ m)) ∧
    (∃ (s : State) (n : Nat), (s.queue n).en = true ∧ (s.queue n).stop = true) ∧
    (∃ (s w : State) (n : Nat) (p : Packet), NextPacket s n p w ∧ p.kind = 0 ∧ (¬AcqHolds s n p)) ∧
    (∃ (s w : State) (n : Nat) (p : Packet), NextPacket s n p w ∧ p.kind = 2 ∧ (¬AcqHolds s n p)) ∧
    (∃ (s w : State) (n : Nat) (p : Packet) (i : Instr), NextPacket s n p w ∧ AcqHolds s n p ∧ i = (if p.kind = 0 then Instr.noOpPacket else if p.kind
      = 1 then .voyageLaunchPacket else .dependencyWaitPacket) ∧ p.kind ≤ 2) ∧
    (∃ (s : State) (n : Nat), (s.queue n).wait = .acq ∧ (s.queue n).live = []) ∧
    (∃ (s : State) (n : Nat) (c : Byte), (s.queue n).en = true ∧ (s.queue n).stop = false ∧ (s.queue n).wait = .none ∧ (s.queue n).wr ≠ (s.queue n).rd
      ∧ (on s (.queue n)).nextPacket (s.queue n) = .stop c) ∧
    (∃ (s w w' : State) (n : Nat) (p : Packet) (x : Nat), (s.queue n).en = true ∧ (s.queue n).stop = false ∧ (s.queue n).wait = .dep ∧ (on s (.queue
      n)).nextPacket (s.queue n) = .packet p w ∧ w.helmRead w.helmDie (s.queue n).asid p[1].toNat 8 false = .ok (x, w')) :=
  ⟨⟨{ State.reset with owned := true, owner := 3 }, 15, 1, 3, by decide +kernel⟩,
   ⟨State.reset, 0, 1, 3, by decide +kernel⟩,
   ⟨helm (pkt [scopes]) ({ qq with stop := true, err := 0x10 }), 0, by decide +kernel⟩,
   ⟨helm (pkt [scopes]) (qq), on (helm (pkt [scopes]) (qq)) (.queue 0), 0, pkt [scopes], next_packet rfl (by decide +kernel), by decide +kernel,
     by unfold AcqHolds; decide +kernel⟩,
   ⟨helm (dep) (qq), on (helm (dep) (qq)) (.queue 0), 0, dep, next_packet rfl (by decide +kernel), by decide +kernel,
     by unfold AcqHolds; decide +kernel⟩,
   ⟨helm (pkt [scopes + 0x10]) ({ qq with live := [1] }), on (helm (pkt [scopes + 0x10]) ({ qq with live := [1] })) (.queue 0), 0, pkt [scopes +
     0x10], .noOpPacket, next_packet rfl (by decide +kernel), by unfold AcqHolds; decide +kernel, by decide +kernel, by decide +kernel⟩,
   ⟨helm (pkt [scopes]) ({ qq with wait := .acq }), 0, by decide +kernel⟩,
   ⟨helm (pkt [scopes + 3]) (qq), 0, 0x01, by decide +kernel, by decide +kernel, by decide +kernel, by decide +kernel, stop_eq (by decide +kernel)⟩,
   ⟨helm (dep) ({ qq with wait := .dep }), on (helm (dep) ({ qq with wait := .dep })) (.queue 0), on (helm (dep) ({ qq with wait := .dep })) (.queue
     0), 0, dep, 0, by decide +kernel, by decide +kernel, by decide +kernel, packet_eq (by decide +kernel), ok_eq (by decide +kernel)⟩⟩

set_option maxRecDepth 100000 in
/-- States and operands that meet the hypotheses of each clause of `LaunchesArePlaced`. -/
theorem witness_LaunchesArePlaced :
    (∃ (s w x y : State) (n : Nat) (p : Packet) (i : Img) (h : List Nat) (m : Image), NextPacket s n p w ∧ p.kind = 1 ∧ (¬AcqHolds s n p) ∧
      w.readLaunch (s.queue n).asid p = .ok (i, h, y) ∧ y.readArgs (s.queue n).asid p = .ok x ∧ i.parse = some m ∧ x.launchError? m p = none) ∧
    (∃ (s w x y : State) (n : Nat) (p : Packet) (i : Img) (h : List Nat) (m : Image), NextPacket s n p w ∧ p.kind = 1 ∧ (¬AcqHolds s n p) ∧
      w.readLaunch (s.queue n).asid p = .ok (i, h, y) ∧ y.readArgs (s.queue n).asid p = .ok x ∧ i.parse = some m ∧ ∃ c, x.launchError? m p = some c) ∧
    (∃ (s w : State) (n : Nat) (p : Packet) (c : Miss), NextPacket s n p w ∧ p.kind = 1 ∧ (¬AcqHolds s n p) ∧ w.readLaunch (s.queue n).asid p = .error
      c ∧ ∃ d, c = .frames d) ∧
    (∃ (s w : State) (n : Nat) (p : Packet) (c : Miss), NextPacket s n p w ∧ p.kind = 1 ∧ (¬AcqHolds s n p) ∧ w.readLaunch (s.queue n).asid p = .error
      c ∧ (∀ d, c ≠ .frames d)) ∧
    (∃ (s w : State) (id : Nat) (l : Launch) (i : Img) (h : List Nat) (m : Image), s.launches.find? (fun l => l.id == id) = some l ∧ l.resume = none ∧
      s.blocked l = false ∧ (on s (.launch id)).readLaunch l.asid l.pkt = .ok (i, h, w) ∧ i.parse = some m ∧ (l.pkt.dies.all w.dieReady && w.cutOff m
      l.pkt.dies) = false ∧ ∃ sp x, w.spots l m = some sp ∧ w.configure l m sp h = .ok x) ∧
    (∃ (s w : State) (id : Nat) (l : Launch) (i : Img) (h : List Nat) (m : Image), s.launches.find? (fun l => l.id == id) = some l ∧ l.resume = none ∧
      s.blocked l = false ∧ (on s (.launch id)).readLaunch l.asid l.pkt = .ok (i, h, w) ∧ i.parse = some m ∧ (l.pkt.dies.all w.dieReady && w.cutOff m
      l.pkt.dies) = false ∧ w.spots l m = none) ∧
    (∃ (s w x : State) (id n : Nat) (l : Launch) (k : Saved) (i : Img) (h : List Nat) (m : Image) (a : List (Nat × Nat × Nat × Nat)), s.launches.find?
      (fun l => l.id == id) = some l ∧ l.resume = some n ∧ s.saved.find? (fun e => e.1 == n) = some (n, k) ∧ k.complete = true ∧ (on s (.launch
      id)).readLaunch l.asid l.pkt = .ok (i, h, w) ∧ i.parse = some m ∧ w.peersReady l.asid m = true ∧ w.resumeSpots l (w.edgesFit m) List.isEmpty m =
      some a ∧ w.reconfigure l k m h a = .ok x) ∧
    (∃ (s w : State) (id n : Nat) (l : Launch) (k : Saved) (i : Img) (h : List Nat) (m : Image), s.launches.find? (fun l => l.id == id) = some l ∧
      l.resume = some n ∧ s.saved.find? (fun e => e.1 == n) = some (n, k) ∧ k.complete = true ∧ (on s (.launch id)).readLaunch l.asid l.pkt = .ok (i,
      h, w) ∧ i.parse = some m ∧ w.peersReady l.asid m = true ∧ w.resumeSpots l (w.edgesFit m) List.isEmpty m = none) :=
  ⟨⟨(helm (launch) (qq)), on ((helm (launch) (qq))) (.queue 0), launchState (helm (launch) (qq)) launch, launchState (helm (launch) (qq)) launch, 0,
     launch, launchImg (helm (launch) (qq)) launch, launchTab (helm (launch) (qq)) launch, imageOf (launchImg (helm (launch) (qq)) launch),
     next_packet rfl (by decide +kernel), by decide +kernel, by unfold AcqHolds; decide +kernel, launch_read (by decide +kernel), rfl, parses
     (by decide +kernel), by decide +kernel⟩,
   ⟨(helm (wide) (qq)), on ((helm (wide) (qq))) (.queue 0), launchState (helm (wide) (qq)) wide, launchState (helm (wide) (qq)) wide, 0, wide,
     launchImg (helm (wide) (qq)) wide, launchTab (helm (wide) (qq)) wide, imageOf (launchImg (helm (wide) (qq)) wide), next_packet rfl
     (by decide +kernel), by decide +kernel, by unfold AcqHolds; decide +kernel, launch_read (by decide +kernel), rfl, parses (by decide +kernel),
     0x03, by decide +kernel⟩,
   ⟨dry (helm grown qq), on (dry (helm grown qq)) (.queue 0), 0, grown, .frames 0, next_packet rfl (by decide +kernel), by decide +kernel,
     by unfold AcqHolds; decide +kernel, miss_eq (by decide +kernel), 0, rfl⟩,
   ⟨helm nowhere qq, on (helm nowhere qq) (.queue 0), 0, nowhere, .fail, next_packet rfl (by decide +kernel), by decide +kernel,
     by unfold AcqHolds; decide +kernel, miss_eq (by decide +kernel), by simp⟩,
   ⟨(waits none), placeState (waits none) (waiter none), 3, (waiter none), placeImg (waits none) (waiter none), placeTab (waits none) (waiter none),
     imageOf (placeImg (waits none) (waiter none)), by decide +kernel, by decide +kernel, by decide +kernel, place_read (by decide +kernel), parses
     (by decide +kernel), by decide +kernel, [(0, 0, 0)], placed_ok (by decide +kernel) (by decide +kernel)⟩,
   ⟨full, placeState full (waiter none), 3, (waiter none), placeImg full (waiter none), placeTab full (waiter none), imageOf (placeImg full (waiter
     none)), by decide +kernel, by decide +kernel, by decide +kernel, place_read (by decide +kernel), parses (by decide +kernel), by decide +kernel,
     by decide +kernel⟩,
   ⟨waits (some 0), placeState (waits (some 0)) (waiter (some 0)), resumed, 3, 0, waiter (some 0), savedVoyage, placeImg (waits (some 0)) (waiter
     (some 0)), placeTab (waits (some 0)) (waiter (some 0)), imageOf (placeImg (waits (some 0)) (waiter (some 0))), [(0, 0, 0, 0)], by decide +kernel,
     by decide +kernel, by decide +kernel, by decide +kernel, place_read (by decide +kernel), parses (by decide +kernel), by decide +kernel,
     by decide +kernel, resumed_eq⟩,
   ⟨stuck, placeState stuck (waiter (some 0)), 3, 0, (waiter (some 0)), savedVoyage, placeImg stuck (waiter (some 0)), placeTab stuck (waiter (some
     0)), imageOf (placeImg stuck (waiter (some 0))), by decide +kernel, by decide +kernel, by decide +kernel, by decide +kernel, place_read
     (by decide +kernel), parses (by decide +kernel), by decide +kernel, by decide +kernel⟩⟩

/-! ### Regions and voyages -/

/-- A station whose done sink, channel 7, shows a stop of level 3. -/
def tend : Station := { tm with c := tm.c.set 7 (chanOf (Token.stopTok 3 ⟨false, 992⟩)) }

/-- The running device with another voyage or region. -/
def voyaged (v : Voyage) : State := { around tc with voyages := [v] }
def withRegion (r : Region) : Voyage := { fetchVoyage 0 with regions := [r] }
def regioned (r : Region) : State := voyaged (withRegion r)
def origin : Station := { tc with id := fetchRegion.at 0 0 }
def quietDead : Voyage := { fetchVoyage 0 with quiet := 4096, dead := true }
def drained : Voyage := { withRegion { fetchRegion with snap := .saving 0 } with drain := some (0, 5), frozen := true, requeue := true }

/-- A tree operation and a request that wait too long. -/
def heldJob : TreeJob := { job 0 (.tins 5) [] with wait := some (.notPresent, 0x200000), held := 2100000 }
def heldTree : Station := teng heldJob
theorem no_frames {α : Type} {x : Except Miss α} (h : (match x with | .error (.frames _) => false | _ => true) = true) : ∀ d, x ≠ .error (.frames d) := by
  rintro d rfl
  simp at h

/-- An edge that leaves for another device, with a token and no link. -/
def cut (n : Nat) : Route :=
  { routeOf tc 0 with
    hops := [⟨.mesh, ⟨4, [⟨2, some (Token.scalar 1 ⟨false, 992⟩), false, 0, 0⟩], 0⟩, 0, false, none⟩], cross := some (5, false, 9), joined := true, held := n }

def isHeld : Trans → Bool
  | .held _ => true
  | _ => false

theorem not_held {x : Trans} (h : isHeld x = false) : ∀ w, x ≠ .held w := by
  rintro w rfl
  simp [isHeld] at h

def late2 : Req := { rq (.withheld .copyOnWrite) with held := 2100000 }

/-- States and operands that meet the hypotheses of each clause of `RegionsRetire` (part of `RegionsEnd`). -/
theorem witness_RegionsRetire :
    (∃ (s : State) (voy reg : Nat) (v : Voyage) (r : Region), s.voyage? voy = some v ∧ v.region? reg = some r ∧ (s.doneStop r = false ∨ r.st ≠
      .running ∨ v.frozen = true ∨ r.frozen = true)) ∧
    (∃ (s : State) (voy reg : Nat) (v : Voyage) (r : Region), s.voyage? voy = some v ∧ v.region? reg = some r ∧ s.doneStop r = true ∧ r.st = .running
      ∧ v.frozen = false ∧ r.frozen = false ∧ v.ended = false) :=
  ⟨⟨around tc, 0, 0, fetchVoyage 0, fetchRegion, by decide +kernel⟩,
   ⟨around tend, 0, 0, fetchVoyage 0, fetchRegion, by decide +kernel⟩⟩

/-- States and operands that meet the hypotheses of each clause of `RegionsHalt` (part of `RegionsEnd`). -/
theorem witness_RegionsHalt :
    (∃ (s : State) (voy reg : Nat) (code : Byte) (x : BitVec 128) (v : Voyage) (r : Region), s.voyage? voy = some v ∧ v.region? reg = some r ∧ v.ended
      = false ∧ (r.st = .running ∨ r.st = .waiting) ∧ code ≠ 0x0C ∧ s.haltComes voy reg = true) ∧
    (∃ (s : State) (voy reg : Nat) (code : Byte) (x : BitVec 128) (v : Voyage) (r : Region), s.voyage? voy = some v ∧ v.region? reg = some r ∧ v.ended
      = false ∧ (r.st = .running ∨ r.st = .waiting) ∧ (code = 0x0C ∨ s.haltComes voy reg = false)) ∧
    (∃ (s : State) (voy reg : Nat) (v : Voyage) (r : Region), s.voyage? voy = some v ∧ v.region? reg = some r ∧ v.ended = false ∧ 4096 ≤ v.quiet ∧
      v.dead = true ∧ r.st = .running ∧ ∃ t, s.station? (r.at 0 0) = some t) ∧
    (∃ (s : State) (voy reg : Nat) (v : Voyage) (r : Region), s.voyage? voy = some v ∧ v.region? reg = some r ∧ (v.quiet < 4096 ∨ v.dead = false ∨
      r.st ≠ .running)) ∧
    (∃ (s : State) (voy : Nat) (v : Voyage), s.voyage? voy = some v ∧ 4096 ≤ v.quiet ∧ v.dead = false) ∧
    (∃ (s : State) (voy : Nat) (v : Voyage), s.voyage? voy = some v ∧ (v.quiet < 4096 ∨ v.dead = true)) :=
  ⟨⟨{ around tc with agenda := [(.regionHalt, .halt 0 0 0x0C 5)] }, 0, 0, 0x0D, 5, fetchVoyage 0, fetchRegion, by decide +kernel⟩,
   ⟨around tc, 0, 0, 0x0D, 5, fetchVoyage 0, fetchRegion, by decide +kernel⟩,
   ⟨{ voyaged quietDead with stations := [origin] }, 0, 0, quietDead, fetchRegion, by decide +kernel, by decide +kernel, by decide +kernel,
     by decide +kernel, by decide +kernel, by decide +kernel, origin, by decide +kernel⟩,
   ⟨around tc, 0, 0, fetchVoyage 0, fetchRegion, by decide +kernel⟩,
   ⟨voyaged { fetchVoyage 0 with quiet := 4096 }, 0, { fetchVoyage 0 with quiet := 4096 }, by decide +kernel⟩,
   ⟨voyaged { fetchVoyage 0 with quiet := 4095 }, 0, { fetchVoyage 0 with quiet := 4095 }, by decide +kernel⟩⟩

/-- States and operands that meet the hypotheses of each clause of `TimeLimitsExpire` (part of `RegionsEnd`). -/
theorem witness_TimeLimitsExpire :
    (∃ (s : State) (id : Nat) (q : Req) (w : Held) (t : Station) (v : Voyage) (r : Region), s.req? id = some q ∧ s.heldBack q = some w ∧ s.station?
      q.st = some t ∧ s.voyage? q.voy = some v ∧ v.region? q.reg = some r ∧ q.held < r.tlim) ∧
    (∃ (s : State) (id : Nat) (q : Req) (w : Held) (t : Station) (v : Voyage) (r : Region), s.req? id = some q ∧ s.heldBack q = some w ∧ s.station?
      q.st = some t ∧ s.voyage? q.voy = some v ∧ v.region? q.reg = some r ∧ r.tlim ≤ q.held ∧ r.st ≠ .halted) ∧
    (∃ (s : State) (id : Nat) (q : Req) (w : Held) (t : Station) (v : Voyage) (r : Region), s.req? id = some q ∧ s.heldBack q = some w ∧ s.station?
      q.st = some t ∧ s.voyage? q.voy = some v ∧ v.region? q.reg = some r ∧ r.tlim ≤ q.held ∧ r.st = .halted) ∧
    (∃ (s : State) (id : Nat) (k : Copy) (w : Held) (t : Station) (v : Voyage) (r : Region), s.copy? id = some k ∧ k.wait = some w ∧ s.station? k.st =
      some t ∧ s.voyage? k.voy = some v ∧ v.region? k.reg = some r ∧ k.held < r.tlim) ∧
    (∃ (s : State) (id : Nat) (k : Copy) (w : Held) (t : Station) (v : Voyage) (r : Region), s.copy? id = some k ∧ k.wait = some w ∧ s.station? k.st =
      some t ∧ s.voyage? k.voy = some v ∧ v.region? k.reg = some r ∧ r.tlim ≤ k.held ∧ r.st ≠ .halted) ∧
    (∃ (s : State) (id : Nat) (k : Copy) (w : Held) (t : Station) (v : Voyage) (r : Region), s.copy? id = some k ∧ k.wait = some w ∧ s.station? k.st =
      some t ∧ s.voyage? k.voy = some v ∧ v.region? k.reg = some r ∧ r.tlim ≤ k.held ∧ r.st = .halted) ∧
    (∃ (s : State) (i : StId) (t : Station) (j : TreeJob) (w : Held) (va : Nat) (v : Voyage) (r : Region), s.station? i = some t ∧ t.sd.bind (·.eng) =
      some j ∧ j.wait = some (w, va) ∧ s.voyage? t.voy = some v ∧ v.region? t.reg = some r ∧ j.held < r.tlim) ∧
    (∃ (s : State) (i : StId) (t : Station) (j : TreeJob) (w : Held) (va : Nat) (v : Voyage) (r : Region), s.station? i = some t ∧ t.sd.bind (·.eng) =
      some j ∧ j.wait = some (w, va) ∧ s.voyage? t.voy = some v ∧ v.region? t.reg = some r ∧ r.tlim ≤ j.held ∧ r.st ≠ .halted) ∧
    (∃ (s : State) (id : Nat) (e : Route) (t : Station) (v : Voyage) (r : Region), s.routeId? id = some e ∧ s.cutEdge e = true ∧ s.station? e.src =
      some t ∧ s.voyage? e.voy = some v ∧ v.region? e.reg = some r ∧ e.held < r.tlim) ∧
    (∃ (s : State) (id : Nat) (e : Route) (t : Station) (v : Voyage) (r : Region), s.routeId? id = some e ∧ s.cutEdge e = true ∧ s.station? e.src =
      some t ∧ s.voyage? e.voy = some v ∧ v.region? e.reg = some r ∧ r.tlim ≤ e.held ∧ r.st ≠ .halted) ∧
    (∃ (s : State) (asid : BitVec 16) (va acc d : Nat), ∃ a e, s.walk asid va = .leaf a e) ∧
    (∃ (s : State) (q : Req) (w : Held) (a : Nat), q.parts = [] ∧ FirstHeld s q.asid q.op.reads q.op.writes (lineParts q.va q.bytes) a) ∧
    (∃ (s : State) (k : Copy) (w : Held) (x y : Int) (n a : Nat), k.piece = (x, y, n) ∧ k.src.h.space = .dev ∧ FirstHeld s k.asid true false
      (lineParts x.toNat n) a) ∧
    (∃ (s : State) (k : Copy) (w : Held) (x y : Int) (n a : Nat), k.piece = (x, y, n) ∧ (k.src.h.space = .dev → ∀ p ∈ lineParts x.toNat n, ∀ h,
      s.translate k.asid p.1 true false ≠ .held h) ∧ k.dst.h.space = .dev ∧ FirstHeld s k.asid false true (lineParts y.toNat n) a) :=
  ⟨⟨asks (rq (.withheld .copyOnWrite)), 7, rq (.withheld .copyOnWrite), .copyOnWrite, tc, fetchVoyage 0, fetchRegion, by decide +kernel⟩,
   ⟨asks late2, 7, late2, .copyOnWrite, tc, fetchVoyage 0, fetchRegion, by decide +kernel⟩,
   ⟨{ asks late2 with voyages := [withRegion { fetchRegion with st := .halted }] }, 7, late2, .copyOnWrite, tc, withRegion { fetchRegion with
     st := .halted }, { fetchRegion with st := .halted }, by decide +kernel⟩,
   ⟨copies { heldCopy with held := 0 }, 4, { heldCopy with held := 0 }, .notPresent, tc, fetchVoyage 0, fetchRegion, by decide +kernel⟩,
   ⟨copies heldCopy, 4, heldCopy, .notPresent, tc, fetchVoyage 0, fetchRegion, by decide +kernel⟩,
   ⟨{ copies heldCopy with voyages := [withRegion { fetchRegion with st := .halted }] }, 4, heldCopy, .notPresent, tc, withRegion { fetchRegion with
     st := .halted }, { fetchRegion with st := .halted }, by decide +kernel⟩,
   ⟨around (teng { heldJob with held := 0 }), td.id, teng { heldJob with held := 0 }, { heldJob with held := 0 }, .notPresent, 0x200000, fetchVoyage
     0, fetchRegion, by decide +kernel⟩,
   ⟨around heldTree, td.id, heldTree, heldJob, .notPresent, 0x200000, fetchVoyage 0, fetchRegion, by decide +kernel⟩,
   ⟨{ around tc with routes := [cut 0] }, 10, cut 0, tc, fetchVoyage 0, fetchRegion, by decide +kernel⟩,
   ⟨{ around tc with routes := [cut 2100000] }, 10, cut 2100000, tc, fetchVoyage 0, fetchRegion, by decide +kernel⟩,
   ⟨mapped (around tc), 0, 0x200000, 4, 1, _, _, rfl⟩,
   ⟨mapped (around tc), { rq .port with va := 0x10000, parts := [] }, .firstTouch, 0x10000, rfl, [], 8, [], .firstTouch, by decide +kernel,
     by decide +kernel, by simp⟩,
   ⟨mapped (around tc), { cp with src := ⟨handles[5], 0x10000⟩ }, .firstTouch, 0x10000, 0x400000, 64, 0x10000, by decide +kernel, by decide +kernel,
     [], 64, [], .firstTouch, by decide +kernel, by decide +kernel, by simp⟩,
   ⟨mapped (around tc), { cp with dst := ⟨handles[6], 0x10000⟩ }, .firstTouch, 0x200000, 0x10000, 64, 0x10000, by decide +kernel, fun _ p hp =>
     not_held ((by decide +kernel : ∀ p ∈ lineParts (Int.toNat 0x200000) 64, isHeld ((mapped (around tc)).translate 0 p.1 true false) = false) p hp),
     by decide +kernel, [], 64, [], .firstTouch, by decide +kernel, by decide +kernel, by simp⟩⟩

/-- States and operands that meet the hypotheses of each clause of `VoyagesFreezeAndAreSaved`. -/
theorem witness_VoyagesFreezeAndAreSaved :
    (∃ (s : State) (voy : Nat) (x : Byte) (v : Voyage), s.voyage? voy = some v ∧ v.ended = false ∧ v.retired = false ∧ v.halted = false) ∧
    (∃ (s : State) (voy reg : Nat) (v : Voyage) (r : Region), s.voyage? voy = some v ∧ v.region? reg = some r ∧ v.drain = none ∧ r.snap = .pending 0 ∧
      r.st = .running) ∧
    (∃ (s : State) (voy reg : Nat) (v : Voyage) (r : Region), s.voyage? voy = some v ∧ v.region? reg = some r ∧ r.snap = .saving 0 ∧ r.frozen = true ∧
      (∀ d, (on s (.region voy reg)).saveRegions v [r] 2 (fun _ => 0) (·.gen) ≠ .error (.frames d))) ∧
    (∃ (s : State) (voy : Nat) (v : Voyage) (x : Byte) (n : Nat), s.voyage? voy = some v ∧ v.drain = some (x, n) ∧ v.regions.all (fun r => r.st ==
      .retired || (r.snap == .saving 0 && !r.frozen)) = true ∧ v.owed = [] ∧ (∀ d, (on s (.voyage voy)).saveRegions v v.regions x.toNat (fun r => if
      r.st == .retired then 1 else 3) (fun r => r.gen + 1) ≠ .error (.frames d))) :=
  ⟨⟨around tc, 0, 0, fetchVoyage 0, by decide +kernel⟩,
   ⟨regioned { fetchRegion with snap := .pending 0 }, 0, 0, withRegion { fetchRegion with snap := .pending 0 }, { fetchRegion with snap := .pending 0
     }, by decide +kernel⟩,
   ⟨regioned { fetchRegion with snap := .saving 0, frozen := true }, 0, 0, withRegion { fetchRegion with snap := .saving 0, frozen := true }, {
     fetchRegion with snap := .saving 0, frozen := true }, by decide +kernel, by decide +kernel, by decide +kernel, by decide +kernel, no_frames
     (by decide +kernel)⟩,
   ⟨voyaged drained, 0, drained, 0, 5, by decide +kernel, by decide +kernel, by decide +kernel, by decide +kernel, no_frames (by decide +kernel)⟩⟩

/-! ### Requests on their way, at their home and back -/

theorem not_agen {q : Req} (h : q.src = .rules) : ∀ side o, q.src ≠ .agen side o := fun _ _ g => DomSrc.noConfusion (h.symm.trans g)

theorem not_part {q : Req} {w : Nat} {b : Bool} (h : q.op = .load w b) : ∀ c n wr, q.op ≠ .part c n wr :=
  fun _ _ _ g => ReqOp.noConfusion (h.symm.trans g)

theorem not_tree {q : Req} {w : Nat} {b : Bool} (h : q.op = .load w b) : ∀ j x n wr, q.op ≠ .tree j x n wr :=
  fun _ _ _ _ g => ReqOp.noConfusion (h.symm.trans g)

/-- A sounding station with an operation under way. -/
def heldEng : Station := teng (job 0 (.tins 5) [])

/-- A link to peer 5 of ASID 0 is up. -/
def bound : State := { mapped (around tc) with links := State.reset.links.set 0 { TLink.reset with up := true }, bindings := [⟨0, 5, 1, 7⟩] }

theorem writes {y : Side Unit} {c : Nat} {k : Copy} (h : (match y with | .ok _ x => decide (x.copy? c = some k) | _ => false) = true) :
    ∃ w x, y = .ok w x ∧ x.copy? c = some k := by
  cases y with
  | ok w x => exact ⟨w, x, rfl, of_decide_eq_true h⟩
  | _ => simp at h

theorem whole_ok {x : Whole × State} (h : (match x.1 with | .ok .. => true | _ => false) = true) : ∃ ps op v, x = (.ok ps op v, x.2) := by
  rcases x with ⟨_ | _ | _ | _, s⟩ <;> first | exact ⟨_, _, _, rfl⟩ | simp at h

theorem whole_fault {x : Whole × State} {i : StId} {t : Station} {n : Nat} {q : Req} (h : (match x.1 with | .fault _ => true | _ => false) = true)
    (ht : x.2.station? i = some t) (hq : x.2.req? n = some q) :
    ∃ f t, x = (.fault f, x.2) ∧ x.2.station? i = some t ∧ x.2.req? n = some q := by
  rcases x with ⟨_ | _ | _ | _, s⟩ <;> first | exact ⟨_, t, rfl, ht, hq⟩ | simp at h

theorem whole_held {x : Whole × State} {n : Nat} {q : Req} (h : (match x.1 with | .held .. => true | _ => false) = true)
    (hq : x.2.req? n = some q) : ∃ w a, x = (.held w a, x.2) ∧ x.2.req? n = some q := by
  rcases x with ⟨_ | _ | _ | _, s⟩ <;> first | exact ⟨_, _, rfl, hq⟩ | simp at h

/-- A full port, and a line with a full history. -/
def crowd : State :=
  let q := rq .port
  { asks q with reqs := (List.range 256).map (fun i => { q with id := i }) ++ [{ rq (.net 0) with id := 1000 }] }
def crowdedLine (q : Req) : State :=
  { asks q with
    watermarks := [(0, 0)]
    cells := [⟨0, 9 * 2 ^ 16 / 128, List.replicate 8 ⟨0, 1, 8, 0, 1, none⟩, [], false, [], false⟩] }

/-- Register d7 of `tc` in the window, and address generators of four elements of page 0x20. -/
def winAddr : Nat := slotAddr tc.id + 0x38
def twornOut : Station := { tc with worn := [(false, 0)] }
def ag (n : Nat) (o : List (Nat × Option Token)) : Agen :=
  { die := 0, side := 0, off := 0, voy := 0, reg := 0, base := 0x200000, dims := [(4, 8)], pos := n, done := false, pref := false, wide := false,
    h := handles[5], c := 7, dst := tc.id, sl := 62, port := 3, outq := o }
def gens (g : Agen) : State := { mapped (around tc) with agens := [g] }

/-! Requests of other kinds. -/
def req1 : Req := { rq (.net 0) with op := .monw, port := none }
def req2 : Req := { rq (.net 0) with id := 1000 }
def req3 : Req := { rq .port with parts := [] }
def req4 : Req := { rq .port with parts := [], va := 0x0 }
def req5 : Req := { rq (.net 0) with h := handles[15], va := winAddr }
def req6 : Req := { rq (.net 0) with h := { handles[5] with space := .win } }
def req7 : Req := { rq (.net 0) with h := { handles[5] with space := .win }, released := true }
def req8 : Req := { rq .port with h := { handles[5] with space := .peer, peer := 5 }, parts := [] }
def req9 : Req := { rq .port with parts := [], op := .atom 1 8, va := 0x60000 }
def req10 : Req := { rq .port with parts := [], va := 0x10000 }
def req11 : Req := { rq .port with op := .mnop, dest := .none }
def req12 : Req := { rq (.home 0) with op := .loadV 64, dest := .v 1, parts := [(0x200000, 9 * 2 ^ 16, 64)] }
def req13 : Req := { rq (.home 0) with op := .store 8, dest := .none }
def req14 : Req := { rq (.home 0) with op := .atom 1 8 }
def req15 : Req := { rq (.home 0) with op := .part 4 8 false }
def req16 : Req := { rq (.home 0) with op := .part 4 8 true }
def req17 : Req := { rq (.home 0) with op := .tree 0 (.take 0) 8 true }
def req18 : Req := { rq (.home 0) with op := .upd 1 8, dest := .none }
def req19 : Req := { rq .settle with op := .ldt 8 false false }
def req20 : Req := { rq .settle with op := .copy 4 }
def req21 : Req := { rq (.home 0) with way := [(0, true)] }
def req22 : Req := { rq .settle with op := .settle, dest := .none }
def req23 : Req := { rq (.hit 5) with op := .monw }
def req24 : Req := { rq (.home 0) with epoch := 1 }
def req25 : Req := { rq (.reply 0 (.ok (scalarReg 5))) with op := .part 4 8 true, dest := .none }
def req26 : Req := { rq (.reply 0 (.ok (scalarReg 5))) with op := .part 4 8 false, dest := .none }
def req27 : Req := { rq (.reply 0 (.ok (scalarReg 5))) with op := .tree 0 (.data 9216 false) 8 false, dest := .none, st := td.id }
def req28 : Req := { rq (.reply 0 (.ok (scalarReg 5))) with src := .agen 0 0, op := .agLoad false, dest := .none }
def req29 : Req := { rq (.reply 0 (.ok (scalarReg 5))) with dest := .v 1 }
def req30 : Req := { rq (.reply 0 (.fault noVal.tok)) with dest := .none }
def req31 : Req := { rq (.reply 0 (.ok (scalarReg 5))) with way := [(0, true)] }
def req32 : Req := { rq (.net 0) with va := winAddr, parts := [] }
def req33 : Req := { rq (.net 0) with va := winAddr - 0x38 + 0x100000, parts := [] }
def req34 : Req := { rq (.net 0) with va := winAddr, parts := [], op := .store 8, dest := .none }
def req35 : Req := { rq (.net 0) with va := 0x3C0000000000, parts := [] }
def req36 : Req := { rq (.net 0) with parts := [], va := 0x3FFFFFFF0238 }
def req37 : Req := { rq (.net 0) with parts := [], va := 0x3FFFFFFF0240 }

/-- A device whose region has halted. -/
def haltedDevice : State := { asks (rq (.reply 0 (.ok (scalarReg 5)))) with voyages := [{ fetchVoyage 0 with regions := [{ fetchRegion with st := .halted }] }] }

/-- States and operands that meet the hypotheses of each clause of `PortsTakeAndRelease` (part of `RequestsTravel`). -/
theorem witness_PortsTakeAndRelease :
    (∃ (s : State) (q : Req), Stands s q ∧ q.stage = .net 0 ∧ q.h.space ≠ .win ∧ q.op.monitor = false ∧ s.portRoom q = false) ∧
    (∃ (s : State) (q : Req), Stands s q ∧ q.stage = .net 0 ∧ q.h.space ≠ .win ∧ q.op.monitor = false ∧ s.portRoom q = true) ∧
    (∃ (s : State) (q : Req), Stands s q ∧ q.stage = .net 0 ∧ q.h.space ≠ .win ∧ q.op.monitor = true) ∧
    (∃ (s : State) (q : Req), Stands s q ∧ q.stage = .net 0 ∧ q.h.space = .win ∧ q.released = true) ∧
    (∃ (s : State) (q : Req), Stands s q ∧ q.stage = .net 0 ∧ q.h.space = .win ∧ q.released = false) ∧
    (∃ (s : State) (q : Req), Stands s q ∧ (s.canRelease q = false ∨ s.still q.voy q.reg = true)) ∧
    (∃ (s w : State) (q : Req) (p : Nat × Nat), Stands s q ∧ s.canRelease q = true ∧ s.still q.voy q.reg = false ∧ q.port = some p ∧ q.h.space = .dev
      ∧ goesHome q = true ∧ q.parts = [] ∧ ∃ ps op v, (on s (.req q.id)).transWhole q p (lineParts q.va q.bytes) = (.ok ps op v, w)) ∧
    (∃ (s w : State) (q : Req) (p : Nat × Nat), Stands s q ∧ s.canRelease q = true ∧ s.still q.voy q.reg = false ∧ q.port = some p ∧ q.h.space = .dev
      ∧ goesHome q = true ∧ q.parts = [] ∧ ∃ f t, (on s (.req q.id)).transWhole q p (lineParts q.va q.bytes) = (.fault f, w) ∧ w.station? q.st = some
      t ∧ w.req? q.id = some q) ∧
    (∃ (s w : State) (q : Req) (p : Nat × Nat), Stands s q ∧ s.canRelease q = true ∧ s.still q.voy q.reg = false ∧ q.port = some p ∧ q.h.space = .dev
      ∧ goesHome q = true ∧ q.parts = [] ∧ ∃ why va, (on s (.req q.id)).transWhole q p (lineParts q.va q.bytes) = (.held why va, w) ∧ w.req? q.id =
      some q) ∧
    (∃ (s : State) (q : Req), Stands s q ∧ s.canRelease q = true ∧ s.still q.voy q.reg = false ∧ q.h.space = .peer ∧ goesHome q = true ∧ s.boundUp
      q.asid q.h.peer.toNat = []) ∧
    (∃ (s : State) (q : Req), Stands s q ∧ s.canRelease q = true ∧ s.still q.voy q.reg = false ∧ q.h.space = .peer ∧ goesHome q = true ∧ s.boundUp
      q.asid q.h.peer.toNat ≠ [] ∧ q.released = false ∧ q.op.monitor = false) ∧
    (∃ (s : State) (q : Req), Stands s q ∧ s.canRelease q = true ∧ s.still q.voy q.reg = false ∧ q.released = false ∧ (q.op = .mnop ∨ ∃ n, q.op =
      .pref n)) :=
  ⟨⟨crowd, req2, by unfold Stands; decide +kernel, rfl, by decide, rfl, by decide +kernel⟩,
   ⟨asks (rq (.net 0)), (rq (.net 0)), by unfold Stands; decide +kernel, rfl, by decide, rfl, by decide +kernel⟩,
   ⟨asks req1, req1, by unfold Stands; decide +kernel, rfl, by decide, rfl⟩,
   ⟨asks req7, req7, by unfold Stands; decide +kernel, rfl, rfl, rfl⟩,
   ⟨asks req6, req6, by unfold Stands; decide +kernel, rfl, rfl, rfl⟩,
   ⟨asks req3, req3, by unfold Stands; decide +kernel, .inl (by decide +kernel)⟩,
   ⟨{ asks req3 with domains := [Domain.fresh 0 0 0 3 .rules 0 false] }, _, req3, (0, 3), by unfold Stands; decide +kernel, by decide +kernel, rfl,
     rfl, by decide +kernel, rfl, rfl, whole_ok (by decide +kernel)⟩,
   ⟨{ asks req9 with domains := [Domain.fresh 0 0 0 3 .rules 0 false] }, _, req9, (0, 3), by unfold Stands; decide +kernel, by decide +kernel, rfl,
     rfl, by decide +kernel, rfl, rfl, whole_fault (by decide +kernel) rfl (by decide +kernel)⟩,
   ⟨{ asks req10 with domains := [Domain.fresh 0 0 0 3 .rules 0 false] }, _, req10, (0, 3), by unfold Stands; decide +kernel, by decide +kernel, rfl,
     rfl, by decide +kernel, rfl, rfl, whole_held (by decide +kernel) (by decide +kernel)⟩,
   ⟨{ mapped (around tc) with reqs := [req8], domains := [Domain.fresh 0 0 0 3 .rules 0 false] }, req8, by unfold Stands; decide +kernel,
     by decide +kernel, rfl, rfl, rfl, by decide +kernel⟩,
   ⟨{ bound with reqs := [req8], domains := [Domain.fresh 0 0 0 3 .rules 0 false] }, req8, by unfold Stands; decide +kernel, by decide +kernel, rfl,
     rfl, rfl, by decide +kernel, rfl, rfl⟩,
   ⟨{ asks req11 with domains := [Domain.fresh 0 0 0 3 .rules 0 false] }, req11, by unfold Stands; decide +kernel, by decide +kernel, rfl, rfl, .inl
     rfl⟩⟩

/-- States and operands that meet the hypotheses of each clause of `RequestsPerform` (part of `RequestsActAtTheirHome`). -/
theorem witness_RequestsPerform :
    (∃ (s : State) (q : Req) (pa : Nat), MemoryCanonical s ∧ ∃ w sx, q.op = .load w sx ∧ q.dest ≠ .none ∧ AtHome s q pa w) ∧
    (∃ (s : State) (q : Req) (pa : Nat), MemoryCanonical s ∧ ∃ n, q.op = .loadV n ∧ q.dest ≠ .none ∧ AtHome s q pa n) ∧
    (∃ (s : State) (q : Req) (pa : Nat), MemoryCanonical s ∧ ∃ n, q.op = .store n ∧ q.dest = .none ∧ (∀ side o, q.src ≠ .agen side o) ∧ AtHome s q pa
      n ∧ 0 < n) ∧
    (∃ (s : State) (q : Req) (pa : Nat), MemoryCanonical s ∧ ∃ op n, (q.op = .atom op n ∨ q.op = .red op n) ∧ (q.op = .atom op n → q.dest ≠ .none) ∧
      (q.op = .red op n → q.dest = .none) ∧ (∀ side o, q.src ≠ .agen side o) ∧ AtHome s q pa n ∧ 0 < n) ∧
    (∃ (s : State) (q : Req) (pa : Nat), MemoryCanonical s ∧ ∃ n, ((∃ wide, q.op = .agLoad wide) ∨ (∃ c m, q.op = .part c m false) ∨ (∃ j c f m, q.op
      = .tree j (.data c f) m false) ∨ (∃ j i m, q.op = .tree j (.lock i) m false)) ∧ ((∃ side o, q.src = .agen side o) ∨ ∀ wide, q.op ≠ .agLoad wide)
      ∧ AtHome s q pa n) ∧
    (∃ (s : State) (q : Req) (pa : Nat), MemoryCanonical s ∧ ∃ n, ((∃ c m, q.op = .part c m true) ∨ (∃ j m, q.op = .tree j .put m true)) ∧ AtHome s q
      pa n ∧ 0 < n) ∧
    (∃ (s : State) (q : Req) (pa : Nat), MemoryCanonical s ∧ ∃ j i m n, q.op = .tree j (.take i) m true ∧ AtHome s q pa n ∧ 0 < n) :=
  ⟨⟨asks (rq (.home 0)), (rq (.home 0)), 9 * 2 ^ 16, by unfold MemoryCanonical; decide +kernel, 8, false, rfl, by decide,
     by unfold AtHome Stands; decide +kernel⟩,
   ⟨asks req12, req12, 9 * 2 ^ 16, by unfold MemoryCanonical; decide +kernel, 64, rfl, by decide, by unfold AtHome Stands; decide +kernel⟩,
   ⟨asks req13, req13, 9 * 2 ^ 16, by unfold MemoryCanonical; decide +kernel, 8, rfl, rfl, not_agen rfl, by unfold AtHome Stands; decide +kernel, by
     decide⟩,
   ⟨asks req14, req14, 9 * 2 ^ 16, by unfold MemoryCanonical; decide +kernel, 1, 8, .inl rfl, by decide, by decide, not_agen rfl,
     by unfold AtHome Stands; decide +kernel, by decide⟩,
   ⟨asks req15, req15, 9 * 2 ^ 16, by unfold MemoryCanonical; decide +kernel, 8, .inr (.inl ⟨4, 8, rfl⟩), .inr (by simp [req15]),
     by unfold AtHome Stands; decide +kernel⟩,
   ⟨asks req16, req16, 9 * 2 ^ 16, by unfold MemoryCanonical; decide +kernel, 8, .inl ⟨4, 8, rfl⟩, by unfold AtHome Stands; decide +kernel, by decide⟩,
   ⟨asks req17, req17, 9 * 2 ^ 16, by unfold MemoryCanonical; decide +kernel, 0, 0, 8, 8, rfl, by unfold AtHome Stands; decide +kernel, by decide⟩⟩

/-- States and operands that meet the hypotheses of each clause of `RequestsWaitAtTheirHome` (part of `RequestsActAtTheirHome`). -/
theorem witness_RequestsWaitAtTheirHome :
    (∃ (s : State) (q : Req) (op : BitVec 6) (n pa : Nat), q.op = .upd op n ∧ Stands s q ∧ q.stage = .home 0 ∧ q.way = [] ∧ s.stale q = false ∧
      q.h.space = .dev ∧ q.parts = [(q.va, pa, n)] ∧ s.badPart q = none ∧ q.dest = .none ∧ (∀ side o, q.src ≠ .agen side o) ∧ (on s (.req
      q.id)).insertEntry q.asid (pa / 128) (q.hist op n pa) = none) ∧
    (∃ (s : State) (q : Req) (op : BitVec 6) (n pa : Nat), q.op = .upd op n ∧ Stands s q ∧ q.stage = .home 0 ∧ q.way = [] ∧ s.stale q = false ∧
      q.h.space = .dev ∧ q.parts = [(q.va, pa, n)] ∧ s.badPart q = none ∧ q.dest = .none ∧ (∀ side o, q.src ≠ .agen side o) ∧ ∃ w, (on s (.req
      q.id)).insertEntry q.asid (pa / 128) (q.hist op n pa) = some w) ∧
    (∃ (s : State) (q : Req) (n : Nat) (t : Station), Stands s q ∧ q.stage = .room n ∧ s.station? q.st = some t ∧ 65536 ≤ n) ∧
    (∃ (s : State) (q : Req) (n : Nat) (t : Station), Stands s q ∧ q.stage = .room n ∧ s.station? q.st = some t ∧ n < 65536) ∧
    (∃ (s : State) (q : Req) (w : Nat) (sx st : Bool) (x : Nat), Stands s q ∧ q.stage = .settle ∧ q.op = .ldt w sx st ∧ q.dest ≠ .none ∧ q.stamp.toNat
      < s.watermark q.asid ∧ s.readAll q = .ok x) ∧
    (∃ (s : State) (q : Req) (w : Nat) (sx st : Bool) (x : Nat), Stands s q ∧ q.stage = .settle ∧ q.op = .ldt w sx st ∧ q.dest ≠ .none ∧ s.watermark
      q.asid ≤ q.stamp.toNat) ∧
    (∃ (s : State) (q : Req), Stands s q ∧ q.stage = .settle ∧ q.op = .settle) ∧
    (∃ (s : State) (q : Req) (k : Nat) (c : Copy), Stands s q ∧ q.stage = .settle ∧ q.op = .copy k ∧ s.copy? k = some c) ∧
    (∃ (s : State) (q : Req) (w : Word), Stands s q ∧ q.stage = .hit w ∧ q.dest ≠ .none) ∧
    (∃ (s : State) (q : Req) (d : Die), Stands s q ∧ q.stage = .home 0 ∧ q.h.space = .dev ∧ s.die? q.homeDie = some d ∧ d.epoch ≠ q.epoch ∧ q.way =
      []) ∧
    (∃ (s : State) (q : Req), q.way ≠ [] ∧ Stands s q ∧ q.stage = .home 0) ∧
    (∃ (s : State) (l k : Nat) (a : EvArg), (a, k) ∈ [(EvArg.row l, 0), (.line l, 1)]) ∧
    (∃ (s : State) (i : StId) (sh : Bool) (a : Nat) (t : Station), s.station? i = some t) ∧
    (∃ (s : State) (q : Req) (t : Station), Stands s q ∧ s.station? q.st = some t) :=
  ⟨⟨crowdedLine req18, req18, 1, 8, 9 * 2 ^ 16, rfl, by unfold Stands; decide +kernel, rfl, rfl, by decide +kernel, rfl, rfl, by decide +kernel, rfl,
     not_agen rfl, by decide +kernel⟩,
   ⟨asks req18, req18, 1, 8, 9 * 2 ^ 16, rfl, by unfold Stands; decide +kernel, rfl, rfl, by decide +kernel, rfl, rfl, by decide +kernel, rfl,
     not_agen rfl, some_of (by decide +kernel)⟩,
   ⟨asks (rq (.room 65536)), (rq (.room 65536)), 65536, tc, by unfold Stands; decide +kernel, rfl, by decide +kernel⟩,
   ⟨asks (rq (.room 65535)), (rq (.room 65535)), 65535, tc, by unfold Stands; decide +kernel, rfl, by decide +kernel⟩,
   ⟨asks req19, req19, 8, false, false, 0, by unfold Stands; decide +kernel, rfl, rfl, by decide, by decide +kernel, ok_eq (by decide +kernel)⟩,
   ⟨crowdedLine req19, req19, 8, false, false, 0, by unfold Stands; decide +kernel, rfl, rfl, by decide, by decide +kernel⟩,
   ⟨asks req22, req22, by unfold Stands; decide +kernel, rfl, rfl⟩,
   ⟨{ copies cp with reqs := [req20] }, req20, 4, cp, by unfold Stands; decide +kernel, rfl, rfl, by decide +kernel⟩,
   ⟨asks req23, req23, 5, by unfold Stands; decide +kernel, rfl, by decide⟩,
   ⟨asks req24, req24, (mapped State.reset).dies[0], by unfold Stands; decide +kernel, rfl, rfl, by decide +kernel, by decide +kernel, rfl⟩,
   ⟨asks req21, req21, by decide, by unfold Stands; decide +kernel, rfl⟩,
   ⟨State.reset, 5, 0, .row 5, by decide⟩,
   ⟨around tc, tc.id, false, 8, tc, by decide +kernel⟩,
   ⟨asks (rq (.net 0)), (rq (.net 0)), tc, by unfold Stands; decide +kernel, by decide +kernel⟩⟩

set_option maxRecDepth 100000 in
/-- States and operands that meet the hypotheses of each clause of `RepliesLand` (part of `RequestsTravel`). -/
theorem witness_RepliesLand :
    (∃ (s : State) (q : Req) (r : Reply), Stands s q ∧ q.stage = .reply 0 r ∧ q.way ≠ []) ∧
    (∃ (s : State) (q : Req) (r : Reply) (g : Region), Stands s q ∧ q.stage = .reply 0 r ∧ q.way = [] ∧ s.region? q.voy q.reg = some g ∧ g.st =
      .halted ∧ (∀ c n wr, q.op ≠ .part c n wr)) ∧
    (∃ (s : State) (q : Req) (r : Reply) (g : Region), Stands s q ∧ q.stage = .reply 0 r ∧ q.way = [] ∧ s.region? q.voy q.reg = some g ∧ g.st ≠
      .halted ∧ (∀ side off, q.src ≠ .agen side off) ∧ (∀ c n wr, q.op ≠ .part c n wr) ∧ (∀ j x n wr, q.op ≠ .tree j x n wr) ∧ ∃ t, s.station? q.st =
      some t ∧ ∃ v n, r = .ok v ∧ q.dest = .d n) ∧
    (∃ (s : State) (q : Req) (r : Reply) (g : Region), Stands s q ∧ q.stage = .reply 0 r ∧ q.way = [] ∧ s.region? q.voy q.reg = some g ∧ g.st ≠
      .halted ∧ (∀ side off, q.src ≠ .agen side off) ∧ (∀ c n wr, q.op ≠ .part c n wr) ∧ (∀ j x n wr, q.op ≠ .tree j x n wr) ∧ ∃ t, s.station? q.st =
      some t ∧ ∃ v n, r = .ok v ∧ q.dest = .v n) ∧
    (∃ (s : State) (q : Req) (r : Reply) (g : Region), Stands s q ∧ q.stage = .reply 0 r ∧ q.way = [] ∧ s.region? q.voy q.reg = some g ∧ g.st ≠
      .halted ∧ (∀ side off, q.src ≠ .agen side off) ∧ (∀ c n wr, q.op ≠ .part c n wr) ∧ (∀ j x n wr, q.op ≠ .tree j x n wr) ∧ ∃ t, s.station? q.st =
      some t ∧ ∃ k, r = .fault k ∧ q.dest = .none ∧ q.op.monitor = false) ∧
    (∃ (s : State) (q : Req) (r : Reply) (g : Region), Stands s q ∧ q.stage = .reply 0 r ∧ q.way = [] ∧ s.region? q.voy q.reg = some g ∧ ∃ side off v,
      g.st ≠ .halted ∧ q.src = .agen side off ∧ r = .ok v) ∧
    (∃ (s : State) (q : Req) (r : Reply) (g : Region), Stands s q ∧ q.stage = .reply 0 r ∧ q.way = [] ∧ s.region? q.voy q.reg = some g ∧ ∃ c n k v, (∀
      side off, q.src ≠ .agen side off) ∧ q.op = .part c n true ∧ r = .ok v ∧ s.copy? c = some k) ∧
    (∃ (s : State) (q : Req) (r : Reply) (g : Region), Stands s q ∧ q.stage = .reply 0 r ∧ q.way = [] ∧ s.region? q.voy q.reg = some g ∧ ∃ c n k a b m
      v, (∀ side off, q.src ≠ .agen side off) ∧ q.op = .part c n false ∧ r = .ok v ∧ s.copy? c = some k ∧ k.piece = (a, b, m) ∧ k.dst.h.space ≠ .peer
      ∧ ∃ w x, k.write ((on s (.req q.id)).dropReq q.id) b n (v.data.toNat % 2 ^ (8 * n)) = .ok w x ∧ x.copy? c = some k) ∧
    (∃ (s : State) (q : Req) (r : Reply) (g : Region), Stands s q ∧ q.stage = .reply 0 r ∧ q.way = [] ∧ s.region? q.voy q.reg = some g ∧ ∃ j key n wr
      v t d e, g.st ≠ .halted ∧ (∀ side off, q.src ≠ .agen side off) ∧ q.op = .tree j key n wr ∧ r = .ok v ∧ key ≠ .put ∧ s.station? q.st = some t ∧
      t.sd = some d ∧ d.eng = some e ∧ e.time = j) :=
  ⟨⟨asks req31, req31, .ok (scalarReg 5), by unfold Stands; decide +kernel, rfl, by decide⟩,
   ⟨haltedDevice, (rq (.reply 0 (.ok (scalarReg 5)))), .ok (scalarReg 5), { fetchRegion with st := .halted }, by unfold Stands; decide +kernel, rfl,
     rfl, by decide +kernel, rfl, not_part rfl⟩,
   ⟨asks (rq (.reply 0 (.ok (scalarReg 5)))), (rq (.reply 0 (.ok (scalarReg 5)))), .ok (scalarReg 5), fetchRegion, by unfold Stands; decide +kernel,
     rfl, rfl, by decide +kernel, by decide, not_agen rfl, not_part rfl, not_tree rfl, tc, by decide +kernel, scalarReg 5, 1, rfl, rfl⟩,
   ⟨asks req29, req29, .ok (scalarReg 5), fetchRegion, by unfold Stands; decide +kernel, rfl, rfl, by decide +kernel, by decide, not_agen rfl,
     not_part rfl, not_tree rfl, tc, by decide +kernel, scalarReg 5, 1, rfl, rfl⟩,
   ⟨asks req30, req30, .fault noVal.tok, fetchRegion, by unfold Stands; decide +kernel, rfl, rfl, by decide +kernel, by decide, not_agen rfl, not_part
     rfl, not_tree rfl, tc, by decide +kernel, noVal.tok, rfl, rfl, rfl⟩,
   ⟨asks req28, req28, .ok (scalarReg 5), fetchRegion, by unfold Stands; decide +kernel, rfl, rfl, by decide +kernel, 0, 0, scalarReg 5, by decide,
     rfl, rfl⟩,
   ⟨{ copies cp with reqs := [req25] }, req25, .ok (scalarReg 5), fetchRegion, by unfold Stands; decide +kernel, rfl, rfl, by decide +kernel, 4, 8,
     cp, scalarReg 5, not_agen rfl, rfl, rfl, by decide +kernel⟩,
   ⟨{ copies cp with reqs := [req26] }, req26, .ok (scalarReg 5), fetchRegion, by unfold Stands; decide +kernel, rfl, rfl, by decide +kernel, 4, 8,
     cp, 0x200000, 0x400000, 64, scalarReg 5, not_agen rfl, rfl, rfl, by decide +kernel, by decide +kernel, by decide, writes (by decide +kernel)⟩,
   ⟨{ mapped (around heldEng) with reqs := [req27] }, req27, .ok (scalarReg 5), fetchRegion, by unfold Stands; decide +kernel, rfl, rfl,
     by decide +kernel, 0, .data 9216 false, 8, false, scalarReg 5, heldEng, _, _, by decide, not_agen rfl, rfl, rfl, by decide, by decide +kernel,
     rfl, rfl, rfl⟩⟩

/-- States and operands that meet the hypotheses of each clause of `WindowsMirrorsAndGenerators`. -/
theorem witness_WindowsMirrorsAndGenerators :
    (∃ (s : State) (q : Req) (st : StId) (off : Nat) (t : Station), Stands s q ∧ q.stage = .net 0 ∧ paCls q.va = .window st off ∧ s.station? st = some
      t ∧ t.voy = q.voy ∧ t.winHeld off q.op.writes = false ∧ q.credit = false ∧ ∃ x k, q.op.writes = false ∧ q.dest ≠ .none ∧ t.winRead off q.bytes =
      some x ∧ t.wornAt off q.bytes = true ∧ s.station? q.st = some k) ∧
    (∃ (s : State) (q : Req) (st : StId) (off : Nat) (t : Station), Stands s q ∧ q.stage = .net 0 ∧ paCls q.va = .window st off ∧ s.station? st = some
      t ∧ t.voy = q.voy ∧ t.winHeld off q.op.writes = false ∧ q.credit = false ∧ ∃ x, q.op.writes = false ∧ q.dest ≠ .none ∧ t.winRead off q.bytes =
      some x ∧ t.wornAt off q.bytes = false) ∧
    (∃ (s : State) (q : Req) (st : StId) (off : Nat) (t : Station), Stands s q ∧ q.stage = .net 0 ∧ paCls q.va = .window st off ∧ s.station? st = some
      t ∧ t.voy = q.voy ∧ t.winHeld off q.op.writes = false ∧ q.credit = false ∧ ∃ v, q.op.writes = true ∧ q.dest = .none ∧ q.always = false ∧
      t.winWrite off q.bytes q.data.toNat = some v ∧ v.id = t.id) ∧
    (∃ (s : State) (q : Req) (t : Station), Stands s q ∧ q.stage = .net 0 ∧ paCls q.va = .bad ∧ s.station? q.st = some t ∧ q.credit = false) ∧
    (∃ (s : State) (q : Req) (o : Nat) (t : Station), Stands s q ∧ q.stage = .net 0 ∧ paCls q.va = .mmio o ∧ s.station? q.st = some t ∧ q.credit =
      false ∧ q.op.writes = false ∧ o + q.bytes ≤ 0x240 ∧ q.dest ≠ .none) ∧
    (∃ (s : State) (q : Req) (o : Nat) (t : Station), Stands s q ∧ q.stage = .net 0 ∧ paCls q.va = .mmio o ∧ s.station? q.st = some t ∧ q.credit =
      false ∧ (q.op.writes = true ∨ 0x240 < o + q.bytes)) ∧
    (∃ (s : State) (k : Nat) (g : Agen) (t : Station), s.agens[k]? = some g ∧ s.station? g.dst = some t ∧ 0 < t.c[g.c].room ∧ ∃ id x r, g.outq = (id,
      some x) :: r ∧ g.total ≤ g.pos) ∧
    (∃ (s : State) (k : Nat) (g : Agen) (t : Station), s.agens[k]? = some g ∧ s.station? g.dst = some t ∧ 0 < t.c[g.c].room ∧ g.outq = [] ∧ g.total ≤
      g.pos ∧ g.done = false ∧ g.pref = false) ∧
    (∃ (s : State) (k : Nat) (g : Agen), s.agens[k]? = some g ∧ g.outq = [] ∧ g.pos < g.total ∧ g.pref = false ∧ 0 ≤ g.addr ∧ g.h.check g.addr.toNat
      (if g.wide then 64 else 8) (if g.wide then 64 else 8) = .ok ()) :=
  ⟨⟨{ asks req33 with stations := [twornOut] }, req33, tc.id, 0x100000, twornOut, by unfold Stands; decide +kernel, rfl, by decide +kernel,
     by decide +kernel, by decide +kernel, by decide +kernel, rfl, _, twornOut, rfl, by decide, some_getD (d := 0) (by decide +kernel),
     by decide +kernel, by decide +kernel⟩,
   ⟨asks req32, req32, tc.id, 0x38, tc, by unfold Stands; decide +kernel, rfl, by decide +kernel, by decide +kernel, by decide +kernel,
     by decide +kernel, rfl, 64, rfl, by decide, by decide +kernel, by decide +kernel⟩,
   ⟨asks req34, req34, tc.id, 0x38, tc, by unfold Stands; decide +kernel, rfl, by decide +kernel, by decide +kernel, by decide +kernel,
     by decide +kernel, rfl, { tc with d := tc.d.set 7 3 }, rfl, rfl, rfl, by decide +kernel, rfl⟩,
   ⟨asks req35, req35, tc, by unfold Stands; decide +kernel, rfl, by decide +kernel, by decide +kernel, rfl⟩,
   ⟨asks req36, req36, 0x238, tc, by unfold Stands; decide +kernel, rfl, by decide +kernel, by decide +kernel, rfl, rfl, by decide +kernel, by decide⟩,
   ⟨asks req37, req37, 0x240, tc, by unfold Stands; decide +kernel, rfl, by decide +kernel, by decide +kernel, rfl, .inr (by decide +kernel)⟩,
   ⟨gens (ag 4 [(7, some noVal.tok)]), 0, ag 4 [(7, some noVal.tok)], tc, by decide +kernel, by decide +kernel, by decide +kernel, 7, noVal.tok, [],
     by decide +kernel⟩,
   ⟨gens (ag 4 []), 0, ag 4 [], tc, by decide +kernel⟩,
   ⟨gens (ag 3 []), 0, ag 3 [], by decide +kernel, by decide +kernel, by decide +kernel, by decide +kernel, by decide +kernel, ok_eq
     (by decide +kernel)⟩⟩

/-! ### Copies, resolutions, pools -/

theorem no_reqs {s : State} {i : Nat} (h : s.reqs = []) : ∀ q ∈ s.reqs, ∀ m w, q.op ≠ .part i m w := by simp [h]

theorem copy_ok {k : Copy} {s : State} {a b : Int} {n i : Nat}
    (h : (match k.read s a n with
      | .ok v w => (match k.write w b n v with | .ok _ x => decide (x.copy? i = some k) | _ => false)
      | _ => false) = true) :
    ∃ v w x, k.read s a n = .ok v w ∧ k.write w b n v = .ok () x ∧ x.copy? i = some k := by
  split at h
  · rename_i v w e
    split at h
    · rename_i u x f
      exact ⟨v, w, x, e, f, by simpa using h⟩
    · simp at h
  · simp at h

theorem copy_wheld {k : Copy} {s : State} {a b : Int} {n i : Nat}
    (h : (match k.read s a n with
      | .ok v w => (match k.write w b n v with | .held _ => decide (w.copy? i = some k) | _ => false)
      | _ => false) = true) :
    ∃ v w h, k.read s a n = .ok v w ∧ k.write w b n v = .held h ∧ w.copy? i = some k := by
  split at h
  · rename_i v w e
    split at h
    · rename_i x f
      exact ⟨v, w, x, e, f, by simpa using h⟩
    · simp at h
  · simp at h

theorem copy_wfault {k : Copy} {s : State} {a b : Int} {n : Nat}
    (h : (match k.read s a n with | .ok v w => (match k.write w b n v with | .fault _ => true | _ => false) | _ => false) = true) :
    ∃ v w f, k.read s a n = .ok v w ∧ k.write w b n v = .fault f := by
  split at h
  · rename_i v w e
    split at h
    · rename_i x f
      exact ⟨v, w, x, e, f⟩
    · simp at h
  · simp at h

theorem copy_wask {k : Copy} {s : State} {a b : Int} {n i : Nat}
    (h : (match k.read s a n with
      | .ok v w => (match k.write w b n v with | .ask _ x => decide (x.copy? i = some k) | _ => false)
      | _ => false) = true) :
    ∃ v w q x, k.read s a n = .ok v w ∧ k.write w b n v = .ask q x ∧ x.copy? i = some k := by
  split at h
  · rename_i v w e
    split at h
    · rename_i q x f
      exact ⟨v, w, q, x, e, f, by simpa using h⟩
    · simp at h
  · simp at h

theorem copy_ask {x : Side Nat} {i : Nat} {k : Copy} (h : (match x with | .ask _ w => decide (w.copy? i = some k) | _ => false) = true) :
    ∃ q w, x = .ask q w ∧ w.copy? i = some k := by
  cases x with
  | ask q w => exact ⟨q, w, rfl, of_decide_eq_true h⟩
  | _ => simp at h

theorem trans_pa {x : Trans × State} {pa e : Nat} (h : (match x.1 with | .pa p f => p == pa && f == e | _ => false) = true) :
    x = (.pa pa e, x.2) := by
  rcases x with ⟨_ | _ | _ | _, s⟩ <;> simp_all

/-- Page 0x21 on a frame of die 1, and copies from and to it. -/
def farFrame : Nat := dieFrames + 5
def farEntry : Nat := 0x19 + farFrame * 2 ^ 16
def far (s : State) : State := { s with mem := Memory.write s.mem (3 * 2 ^ 16 + 8 * 0x21) 8 farEntry }
def farRead : Copy := { cp with src := ⟨handles[5], 0x210000⟩ }
def farWrite : Copy := { cp with dst := ⟨handles[6], 0x210000⟩ }
def heldWrite : Copy := { cp with dst := ⟨handles[6], 0x40000⟩ }
def badWrite : Copy := { cp with dst := ⟨handles[6], 0x60000⟩ }

theorem copy_held {α : Type} {x : Side α} {w : Held} (h : (match x with | .held y => decide (y = w) | _ => false) = true) : x = .held w := by
  cases x with
  | held y => simpa using h
  | _ => simp at h

theorem corrupt_of {α : Type} {x : Except Miss α} {o : Option Station} (h : (match x with | .error (.corrupt _) => true | _ => false) = true)
    (g : o.isSome = true) : ∃ f t, x = .error (.corrupt f) ∧ o = some t := by
  rcases x with (_ | _ | f) | _ <;> simp at h
  obtain ⟨t, e⟩ := some_of g
  exact ⟨f, t, rfl, e⟩

theorem copy_fault {α : Type} {x : Side α} {f : FaultC} (h : (match x with | .fault y => decide (y = f) | _ => false) = true) : x = .fault f := by
  cases x with
  | fault y => simpa using h
  | _ => simp at h

/-- Copies from an absent page, from outside the windows, and from a page of first touch to the local store. -/
def absentCopy : Copy := { cp with src := ⟨handles[5], 0x40000⟩ }
def badCopy : Copy := { cp with src := ⟨{ handles[3] with space := .win }, 0x200000⟩ }
def touchCopy : Copy := { cp with src := ⟨handles[5], 0x10000⟩, dst := ⟨handles[3], 0x100⟩, wait := some .firstTouch }

/-- A withheld store, and a device whose pools are empty. -/
def touches (w : Held) (va : Nat) : Req := { rq (.withheld w) with op := .store 8, dest := .none, va := va, parts := [] }
def poor (q : Req) : State := { asks q with dies := State.reset.dies }

/-- States and operands that meet the hypotheses of each clause of `CopiesMovePieces` (part of `CopiesMoveAndAccessesWait`). -/
theorem witness_CopiesMovePieces :
    (∃ (s : State) (id : Nat) (k : Copy) (a b : Int) (n : Nat), s.copy? id = some k ∧ k.run = true ∧ k.pos < k.total ∧ (k.wait = none ∨ k.wait = some
      .notPresent) ∧ (∀ q ∈ s.reqs, ∀ m w, q.op ≠ .part k.id m w) ∧ k.src.h.space ≠ .peer ∧ k.dst.h.space ≠ .peer ∧ k.piece = (a, b, n) ∧ ∃ v w x,
      k.read (on s (.copy id)) a n = .ok v w ∧ k.write w b n v = .ok () x ∧ x.copy? id = some k) ∧
    (∃ (s : State) (id : Nat) (k : Copy) (a b : Int) (n : Nat), s.copy? id = some k ∧ k.run = true ∧ k.pos < k.total ∧ (k.wait = none ∨ k.wait = some
      .notPresent) ∧ (∀ q ∈ s.reqs, ∀ m w, q.op ≠ .part k.id m w) ∧ k.src.h.space ≠ .peer ∧ k.dst.h.space ≠ .peer ∧ k.piece = (a, b, n) ∧ ∃ v w h,
      k.read (on s (.copy id)) a n = .ok v w ∧ k.write w b n v = .held h ∧ w.copy? id = some k) ∧
    (∃ (s : State) (id : Nat) (k : Copy) (a b : Int) (n : Nat), s.copy? id = some k ∧ k.run = true ∧ k.pos < k.total ∧ (k.wait = none ∨ k.wait = some
      .notPresent) ∧ (∀ q ∈ s.reqs, ∀ m w, q.op ≠ .part k.id m w) ∧ k.src.h.space ≠ .peer ∧ k.dst.h.space ≠ .peer ∧ k.piece = (a, b, n) ∧ ∃ v w f,
      k.read (on s (.copy id)) a n = .ok v w ∧ k.write w b n v = .fault f) ∧
    (∃ (s : State) (id : Nat) (k : Copy) (a b : Int) (n : Nat), s.copy? id = some k ∧ k.run = true ∧ k.pos < k.total ∧ (k.wait = none ∨ k.wait = some
      .notPresent) ∧ (∀ q ∈ s.reqs, ∀ m w, q.op ≠ .part k.id m w) ∧ k.src.h.space ≠ .peer ∧ k.dst.h.space ≠ .peer ∧ k.piece = (a, b, n) ∧ ∃ q w,
      k.read (on s (.copy id)) a n = .ask q w ∧ w.copy? id = some k) ∧
    (∃ (s : State) (id : Nat) (k : Copy) (a b : Int) (n : Nat), s.copy? id = some k ∧ k.run = true ∧ k.pos < k.total ∧ (k.wait = none ∨ k.wait = some
      .notPresent) ∧ (∀ q ∈ s.reqs, ∀ m w, q.op ≠ .part k.id m w) ∧ k.src.h.space ≠ .peer ∧ k.dst.h.space ≠ .peer ∧ k.piece = (a, b, n) ∧ ∃ v w q x,
      k.read (on s (.copy id)) a n = .ok v w ∧ k.write w b n v = .ask q x ∧ x.copy? id = some k) ∧
    (∃ (s : State) (id : Nat) (k : Copy) (a b : Int) (n : Nat), s.copy? id = some k ∧ k.run = true ∧ k.pos < k.total ∧ (k.wait = none ∨ k.wait = some
      .notPresent) ∧ (∀ q ∈ s.reqs, ∀ m w, q.op ≠ .part k.id m w) ∧ k.src.h.space ≠ .peer ∧ k.dst.h.space ≠ .peer ∧ k.piece = (a, b, n) ∧ ∃ h, k.read
      (on s (.copy id)) a n = .held h) ∧
    (∃ (s : State) (id : Nat) (k : Copy) (a b : Int) (n : Nat), s.copy? id = some k ∧ k.run = true ∧ k.pos < k.total ∧ (k.wait = none ∨ k.wait = some
      .notPresent) ∧ (∀ q ∈ s.reqs, ∀ m w, q.op ≠ .part k.id m w) ∧ k.src.h.space ≠ .peer ∧ k.dst.h.space ≠ .peer ∧ k.piece = (a, b, n) ∧ ∃ f, k.read
      (on s (.copy id)) a n = .fault f) ∧
    (∃ (s : State) (id : Nat) (k : Copy), s.copy? id = some k ∧ (k.run = false ∨ k.total ≤ k.pos)) ∧
    (∃ (s : State) (k : Copy) (x : Int) (n pa e : Nat) (w : State), k.src.h.space = .dev ∧ s.portTrans k.port k.asid x.toNat true false none = (.pa pa
      e, w) ∧ w.paOk k.voy pa (.loadV n) = true ∧ paDie pa k.st.die ≠ k.st.die) ∧
    (∃ (s : State) (id : Nat) (k : Copy) (t : Station), s.copy? id = some k ∧ k.run = true ∧ k.total ≤ k.pos ∧ s.station? k.st = some t) ∧
    (∃ (s : State) (id : Nat) (k : Copy), s.copy? id = some k ∧ (k.run = false ∨ k.pos < k.total)) :=
  ⟨⟨copies cp, 4, cp, 0x200000, 0x400000, 64, by decide +kernel, by decide +kernel, by decide +kernel, by decide +kernel, no_reqs rfl, by decide, by
     decide, by decide +kernel, copy_ok (by decide +kernel)⟩,
   ⟨copies heldWrite, 4, heldWrite, 0x200000, 0x40000, 64, by decide +kernel, by decide +kernel, by decide +kernel, by decide +kernel, no_reqs rfl, by
     decide, by decide, by decide +kernel, copy_wheld (by decide +kernel)⟩,
   ⟨copies badWrite, 4, badWrite, 0x200000, 0x60000, 64, by decide +kernel, by decide +kernel, by decide +kernel, by decide +kernel, no_reqs rfl, by
     decide, by decide, by decide +kernel, copy_wfault (by decide +kernel)⟩,
   ⟨far (copies farRead), 4, farRead, 0x210000, 0x400000, 64, by decide +kernel, by decide +kernel, by decide +kernel, by decide +kernel, no_reqs rfl,
     by decide, by decide, by decide +kernel, copy_ask (by decide +kernel)⟩,
   ⟨far (copies farWrite), 4, farWrite, 0x200000, 0x210000, 64, by decide +kernel, by decide +kernel, by decide +kernel, by decide +kernel, no_reqs
     rfl, by decide, by decide, by decide +kernel, copy_wask (by decide +kernel)⟩,
   ⟨copies absentCopy, 4, absentCopy, 0x40000, 0x400000, 64, by decide +kernel, by decide +kernel, by decide +kernel, by decide +kernel, no_reqs rfl,
     by decide, by decide, by decide +kernel, .notPresent, copy_held (by decide +kernel)⟩,
   ⟨copies badCopy, 4, badCopy, 0x200000, 0x400000, 64, by decide +kernel, by decide +kernel, by decide +kernel, by decide +kernel, no_reqs rfl, by
     decide, by decide, by decide +kernel, transFault 0 accCopy 0x200000, copy_fault (by decide +kernel)⟩,
   ⟨copies { cp with run := false }, 4, { cp with run := false }, by decide +kernel⟩,
   ⟨far (copies cp), farRead, 0x210000, 64, farFrame * 2 ^ 16, farEntry, ((far (copies cp)).portTrans farRead.port farRead.asid 0x210000 true false
     none).2, by decide +kernel, trans_pa (by decide +kernel), by decide +kernel, by decide +kernel⟩,
   ⟨copies { cp with pos := 64 }, 4, { cp with pos := 64 }, tc, by decide +kernel⟩,
   ⟨copies cp, 4, cp, by decide +kernel⟩⟩

/-- States and operands that meet the hypotheses of each clause of `WithheldAccessesAreResolved` (part of `CopiesMoveAndAccessesWait`). -/
theorem witness_WithheldAccessesAreResolved :
    (∃ (s : State) (q : Req) (i : Instr) (why : Held), ((i, why) = (.firstTouch, .firstTouch) ∨ (i, why) = (.copyOnWrite, .copyOnWrite) ∨ (i, why) =
      (.decompress, .decompress)) ∧ Stands s q ∧ q.stage = .withheld why ∧ q.parts = [] ∧ ∃ w, (on s (.req q.id)).resolve why q.asid q.va q.bytes
      q.die q.h.comp q.op.reads q.op.writes = .ok w) ∧
    (∃ (s : State) (q : Req) (i : Instr) (why : Held), ((i, why) = (.firstTouch, .firstTouch) ∨ (i, why) = (.copyOnWrite, .copyOnWrite) ∨ (i, why) =
      (.decompress, .decompress)) ∧ Stands s q ∧ q.stage = .withheld why ∧ q.parts = [] ∧ ∃ d, (on s (.req q.id)).resolve why q.asid q.va q.bytes
      q.die q.h.comp q.op.reads q.op.writes = .error (.frames d)) ∧
    (∃ (s : State) (q : Req) (i : Instr) (why : Held), ((i, why) = (.firstTouch, .firstTouch) ∨ (i, why) = (.copyOnWrite, .copyOnWrite) ∨ (i, why) =
      (.decompress, .decompress)) ∧ Stands s q ∧ q.stage = .withheld why ∧ q.parts = [] ∧ ∃ f t, (on s (.req q.id)).resolve why q.asid q.va q.bytes
      q.die q.h.comp q.op.reads q.op.writes = .error (.corrupt f) ∧ s.station? q.st = some t) ∧
    (∃ (s : State) (q : Req) (i : Instr) (why : Held), ((i, why) = (.firstTouch, .firstTouch) ∨ (i, why) = (.copyOnWrite, .copyOnWrite) ∨ (i, why) =
      (.decompress, .decompress)) ∧ Stands s q ∧ q.stage ≠ .withheld why) ∧
    (∃ (s : State) (id : Nat) (k : Copy) (a b : Int) (n : Nat) (i : Instr) (why : Held), ((i, why) = (.firstTouch, .firstTouch) ∨ (i, why) =
      (.copyOnWrite, .copyOnWrite) ∨ (i, why) = (.decompress, .decompress)) ∧ s.copy? id = some k ∧ k.wait = some why ∧ k.piece = (a, b, n) ∧
      k.src.h.space = .dev ∧ k.dst.h.space ≠ .dev ∧ ∃ w, (on s (.copy id)).resolve why k.asid a.toNat n k.st.die k.src.h.comp true false = .ok w) :=
  ⟨⟨asks (touches .copyOnWrite 0x20000), touches .copyOnWrite 0x20000, .copyOnWrite, .copyOnWrite, by decide, by unfold Stands; decide +kernel, rfl,
     rfl, ok_ex (by decide +kernel)⟩,
   ⟨poor (touches .firstTouch 0x10000), touches .firstTouch 0x10000, .firstTouch, .firstTouch, by decide, by unfold Stands; decide +kernel, rfl, rfl,
     0, err_eq (by decide +kernel)⟩,
   ⟨{ asks (touches .copyOnWrite 0x20000) with bad := [(11 * 2 ^ 16 / 128, 0)] }, touches .copyOnWrite 0x20000, .copyOnWrite, .copyOnWrite, by decide,
     by unfold Stands; decide +kernel, rfl, rfl, corrupt_of (by decide +kernel) (by decide +kernel)⟩,
   ⟨asks (rq .port), rq .port, .decompress, .decompress, by decide, by unfold Stands; decide +kernel, by decide⟩,
   ⟨copies touchCopy, 4, touchCopy, 0x10000, 0x100, 64, .firstTouch, .firstTouch, by decide, by decide +kernel, rfl, by decide +kernel, rfl, by
     decide, ok_ex (by decide +kernel)⟩⟩

/-- States and operands that meet the hypotheses of each clause of `ResolutionsMapPages` (part of `PagesAreMappedAndLent`). -/
theorem witness_ResolutionsMapPages :
    (∃ (s : State) (asid : BitVec 16) (va a e : Nat), MemoryCanonical s ∧ s.walk asid va = .leaf a e ∧ ∃ d f r, ∃ fall : Nat, pteKind e = 1 ∧ d =
      pteFrame e % 4 ∧ s.dieLive d = true ∧ (s.die? d).map (·.pool) = some (f :: r) ∧ f < 2 ^ 30) ∧
    (∃ (s : State) (asid : BitVec 16) (va a e : Nat), MemoryCanonical s ∧ s.walk asid va = .leaf a e ∧ pteKind e = 2 ∧ descRefs (s.desc (pteFrame e))
      ≤ 1) ∧
    (∃ (s : State) (asid : BitVec 16) (va a e : Nat), MemoryCanonical s ∧ s.walk asid va = .leaf a e ∧ ∃ g r, pteKind e = 2 ∧ 1 < descRefs (s.desc
      (pteFrame e)) ∧ s.corrupt (pteFrame e * 2 ^ 16) (2 ^ 16) = false ∧ (s.die? (descHome (s.desc (pteFrame e)))).map (·.pool) = some (g :: r) ∧ g ≠
      pteFrame e ∧ g < 2 ^ 30) ∧
    (∃ (s : State) (asid : BitVec 16) (va a e : Nat), MemoryCanonical s ∧ s.walk asid va = .leaf a e ∧ ∃ g r, descScls (s.desc (pteFrame e)) ≠ 0 ∧
      s.corrupt (pteFrame e * 2 ^ 16) (2 ^ 16) = false ∧ (s.die? (descHome (s.desc (pteFrame e)))).map (·.pool) = some (g :: r) ∧ g ≠ pteFrame e ∧ g <
      2 ^ 30) :=
  ⟨⟨mapped State.reset, 0, 0x10000, 3 * 2 ^ 16 + 8, 0x1B, by unfold MemoryCanonical; decide +kernel, by decide +kernel, 0, 20, [21], 0,
     by decide +kernel⟩,
   ⟨{ mapped State.reset with descs := [⟨11, 1⟩] }, 0, 0x20000, 3 * 2 ^ 16 + 16, 0x1D + 11 * 2 ^ 16, by unfold MemoryCanonical; decide +kernel,
     by decide +kernel⟩,
   ⟨mapped State.reset, 0, 0x20000, 3 * 2 ^ 16 + 16, 0x1D + 11 * 2 ^ 16, by unfold MemoryCanonical; decide +kernel, by decide +kernel, 20, [21],
     by decide +kernel⟩,
   ⟨mapped State.reset, 0, 0x30000, 3 * 2 ^ 16 + 24, 0x19 + 12 * 2 ^ 16, by unfold MemoryCanonical; decide +kernel, by decide +kernel, 20, [21],
     by decide +kernel⟩⟩

/-- States and operands that meet the hypotheses of each clause of `PoolsBorrowAndPagesCompress` (part of `PagesAreMappedAndLent`). -/
theorem witness_PoolsBorrowAndPagesCompress :
    (∃ (s : State) (d k : Nat) (x y : Die), s.die? d = some x ∧ x.pool = [] ∧ (s.borrowOrder d).find? (fun k =>
      match s.die? k with | some x => !x.pool.isEmpty | none => false) = some k ∧ s.die? k = some y) ∧
    (∃ (s : State) (d : Nat) (x : Die), s.die? d = some x ∧ x.pool = [] ∧ (s.borrowOrder d).find? (fun k =>
      match s.die? k with | some x => !x.pool.isEmpty | none => false) = none) ∧
    (∃ (s : State) (d : Nat) (x : Die), s.die? d = some x ∧ x.pool ≠ []) ∧
    (∃ (s : State) (asid : BitVec 16) (va a e : Nat) (c : BitVec 3) (slot : BitVec 22), MemoryCanonical s ∧ s.walk asid va = .leaf a e ∧ pteKind e ≠ 1
      ∧ pteComp e = true ∧ pteVers e = false ∧ 1 ≤ c.toNat ∧ c.toNat ≤ 4 ∧ descScls (s.desc (pteFrame e)) = 0) ∧
    (∃ (s : State) (asid : BitVec 16) (va a e : Nat) (c : BitVec 3) (slot : BitVec 22), s.walk asid va = .leaf a e ∧ (pteComp e = false ∨ pteVers e =
      true)) ∧
    (∃ (s : State) (f : Nat) (slot : BitVec 22), descScls (s.desc f) ≠ 0) :=
  ⟨⟨mapped State.reset, 1, 0, (mapped State.reset).dies[1], (mapped State.reset).dies[0], by decide +kernel⟩,
   ⟨State.reset, 3, State.reset.dies[3], by decide +kernel⟩,
   ⟨mapped State.reset, 0, (mapped State.reset).dies[0], by decide +kernel⟩,
   ⟨mapped State.reset, 0, 0x70000, 3 * 2 ^ 16 + 56, 0x99 + 15 * 2 ^ 16, 4, 9, by unfold MemoryCanonical; decide +kernel, by decide +kernel⟩,
   ⟨mapped State.reset, 0, 0x200000, 3 * 2 ^ 16 + 0x100, 0x19 + 9 * 2 ^ 16, 1, 0, by decide +kernel⟩,
   ⟨mapped State.reset, 12, 9, by decide +kernel⟩⟩

/-! ### Marks, barriers, tasks, starts, owners, mailboxes -/

/-- A barrier message at an entry of a quad, and the entry with a count and arrivals. -/
def barKey : BarKey := ⟨0, .quad, instanceOf .quad tc.id, 63⟩
def barMsg (o : BarOp) : BarMsg := { key := barKey, op := o, st := tc.id, ctx := 0, slot := 0, time := 0, slack := ⟨false, 992⟩, left := 0, away := none }
def barrier (o : BarOp) (e a : BitVec 32) : State := { around tc with barMsgs := [barMsg o], bars := [⟨barKey, e, a, 0, [], false⟩] }

/-- An arrival at a spilled pod entry that a peer walks. -/
def podKey : BarKey := ⟨0, .pod, 0, 63⟩
def podMsg : BarMsg := { barMsg (.arrive 2) with key := podKey }
def podded : State :=
  { mapped (around tc) with
    time := 1, links := State.reset.links.set 0 { TLink.reset with up := true }, bindings := [⟨0, 5, 1, 0⟩], saveBases := [(0, 0)], barMsgs := [podMsg]
    bars := [⟨podKey, 2, 0, 0, [], true⟩] }

theorem walker_of {s : State} {k : BarKey} {p : Peer} (h0 : k.scope = .pod) (h1 : (s.barEntry k).spilled = true)
    (h2 : leastBy (fun b : Peer => [b.device.toNat]) (s.bindings.filter fun b => some b.asid == s.asidOf k.voy) = some p)
    (h : p.device.toNat < Config.deviceId.toNat) : s.podWalker k = some p := by
  simp [State.podWalker, h0, h1, h2, h]

/-- Tasks of handler 63: the earlier one and a later one that it has spawned; a station that hosts the handler. -/
def task (n : Nat) (x : TaskSt) : Task :=
  { id := n, voy := 0, die := 0, ts := BitVec.ofNat 32 n, handler := 63, args := VReg.zero, parent := none, st := x, spoiled := false, seen := 0 }
def tasks (x : TaskSt) (p : Option Nat) : State := { around tc with tasks := [{ task 5 .held with parent := some 3 }, { task 3 x with parent := p }] }
def thost : Station := { tadd with handler := [(0, 63)] }

/-- A device that master 3 owns, one whose die 0 has slice 5 left, one that keeps a saved voyage. -/
def owned : State := { State.reset with owned := true, owner := 3 }
def lastSlice : State := { State.reset with dies := State.reset.dies.set 0 { State.reset.dies[0] with slices := BitVec.twoPow 96 5 } }

/-- The command of a code started in mailbox k, with tag 0; an access to page 2 that the Cadastre is about to finish. -/
def begun (s : State) (k : Fin 16) (c : Byte) : State := { s with mailboxes := s.mailboxes.set k { s.mailboxes[k] with busy := true, tag := 0, code := c } }
def leaving : State := { mapped State.reset with reqs := [touches .copyOnWrite 0x20000] }


/-- Operands at the ends of what the clauses of `MailboxesConfigure` tell apart: roots, save bases, peer numbers and frame lists inside and outside their ranges. -/
theorem witness_MailboxOperands :
    (∃ (s : State) (a : Nat), a + 1 = s.frames) ∧ (∃ (s : State) (a : Nat), a = s.frames) ∧
    (∃ a, a % 2 ^ 31 = 0 ∧ a + 2 ^ 47 = 2 ^ 55) ∧ (∃ a, a % 2 ^ 31 = 1) ∧ (∃ a, a % 2 ^ 31 = 0 ∧ 2 ^ 55 < a + 2 ^ 47) ∧
    (∃ p : Nat, p = 127) ∧ (∃ p : Nat, p = 128) ∧
    (∃ (s : State) (d : Fin 4) (fs : List Nat), s.dieLive d.val = true ∧ fs.length = 64 ∧ ∀ f ∈ fs, frameHome f = d.val ∧ f < s.frames) ∧
    (∃ fs : List Nat, fs.length = 65) :=
  ⟨⟨State.reset, State.reset.frames - 1, by decide +kernel⟩, ⟨State.reset, State.reset.frames, rfl⟩, ⟨2 ^ 55 - 2 ^ 47, by decide +kernel⟩, ⟨1, by decide +kernel⟩,
   ⟨2 ^ 55 - 2 ^ 47 + 2 ^ 31, by decide +kernel⟩, ⟨127, rfl⟩, ⟨128, rfl⟩,
   ⟨State.reset, 3, (List.range 64).map (3 * dieFrames + ·), by decide +kernel⟩, ⟨List.replicate 65 0, by decide +kernel⟩⟩

/-- States and operands that meet the hypotheses of each clause of `MarksAndBarriersAdvance`. -/
theorem witness_MarksAndBarriersAdvance :
    (∃ (s : State) (asid : BitVec 16) (p : Participant) (w : Nat), s.watermarks.find? (fun e => e.1 == asid) = some (asid, w)) ∧
    (∃ (s : State) (k : BarKey) (m : BarMsg), (s.barMsgs.filter fun m => m.key == k && m.left == 0 && m.away.isNone) = [m] ∧ (s.barEntry k).spilled =
      false ∧ ∃ n : Nat, m.op = .arrive n ∧ (s.barEntry k).exp = 0 ∧ BitVec.ofNat 32 n ≠ 0 ∧ BitVec.ofNat 32 n ≠ 1 ∧ (s.barEntry k).arr = 0) ∧
    (∃ (s : State) (k : BarKey) (m : BarMsg), (s.barMsgs.filter fun m => m.key == k && m.left == 0 && m.away.isNone) = [m] ∧ (s.barEntry k).spilled =
      false ∧ ∃ n : Nat, m.op = .arrive n ∧ (s.barEntry k).exp ≠ 0 ∧ (s.barEntry k).exp.toNat ≤ ((s.barEntry k).arr + 1).toNat ∧ (s.barEntry k).swaps
      = []) ∧
    (∃ (s : State) (k : BarKey) (m : BarMsg), (s.barMsgs.filter fun m => m.key == k && m.left == 0 && m.away.isNone) = [m] ∧ (s.barEntry k).spilled =
      false ∧ m.op = .drop ∧ (s.barEntry k).swaps = []) ∧
    (∃ (s : State) (k j : BarKey), j ≠ k ∧ (s.barMsgs.filter fun m => m.key == k && m.left == 0 && m.away.isNone) = [] ∧ (s.barEntry k).spilled =
      false ∧ (s.barEntry k).exp = 0) ∧
    (0 < Config.deviceId.toNat → ∃ (s : State) (k : BarKey) (m : BarMsg) (p : Peer) (l : Nat) (x : TLink) (asid : BitVec 16) (va n : Nat), s.podWalker
      k = some p ∧ (s.barMsgs.filter fun m => m.key == k && m.left == 0 && m.away.isNone) = [m] ∧ m.op = .arrive n ∧ s.looks.contains k = false ∧
      (s.boundUp p.asid p.peer).head? = some l ∧ s.link? l = some x ∧ x.room = true ∧ s.spillAddr m.key = some (asid, va)) :=
  ⟨⟨{ State.reset with watermarks := [(0, 5)], marks := [⟨0, .sequencer 0 0, 9, 4, some 0⟩] }, 0, .sequencer 0 0, 5, by decide +kernel⟩,
   ⟨barrier (.arrive 2) 0 0, barKey, barMsg (.arrive 2), by decide +kernel, by decide +kernel, 2, by decide +kernel⟩,
   ⟨barrier (.arrive 2) 2 1, barKey, barMsg (.arrive 2), by decide +kernel, by decide +kernel, 2, by decide +kernel⟩,
   ⟨barrier (.drop) 2 1, barKey, barMsg (.drop), by decide +kernel⟩,
   ⟨State.reset, barKey, { barKey with id := 3 }, by decide +kernel⟩,
   fun h => ⟨podded, podKey, podMsg, ⟨0, 5, 1, 0⟩, 0, { TLink.reset with up := true }, 0, 0x20000000 + 16 * (320 + 63), 2, walker_of rfl
     (by decide +kernel) (by decide +kernel) h, by decide +kernel⟩⟩

/-- States and operands that meet the hypotheses of each clause of `TasksRunCommitAndAbort`. -/
theorem witness_TasksRunCommitAndAbort :
    (∃ (s : State) (d n : Nat) (t : Task), s.nextTask d = some t ∧ ∃ k ∈ s.tasks, k.die = d ∧ k.st = .ready ∧ (∃ v, s.voyage? k.voy = some v ∧
      v.frozen = false ∧ v.ended = false)) ∧
    (∃ (s : State) (d n : Nat) (t : Task), s.nextTask d = some t ∧ s.hostsOf t ≠ []) ∧
    (∃ (s : State) (d n : Nat) (t : Task), s.nextTask d = some t ∧ s.hostsOf t = []) ∧
    (∃ (s : State) (d id : Nat) (t : Task), s.task? id = some t ∧ s.commits t = false) ∧
    (∃ (s : State) (d id : Nat) (t : Task), s.task? id = some t ∧ s.commits t = true) ∧
    (∃ (s : State) (d id : Nat) (t : Task), s.task? id = some t) :=
  ⟨⟨tasks .ready none, 0, 0, task 3 .ready, by decide +kernel, task 3 .ready, by decide +kernel, rfl, rfl, fetchVoyage 0, by decide +kernel, rfl, rfl⟩,
   ⟨{ tasks .ready none with stations := [thost] }, 0, 0, task 3 .ready, by decide +kernel⟩,
   ⟨tasks .ready none, 0, 0, task 3 .ready, by decide +kernel⟩,
   ⟨tasks .ready none, 0, 3, task 3 .ready, by decide +kernel⟩,
   ⟨tasks .done none, 0, 3, task 3 .done, by decide +kernel⟩,
   ⟨tasks (.running tc.id 0) none, 0, 3, task 3 (.running tc.id 0), by decide +kernel⟩⟩

/-- States and operands that meet the hypotheses of each clause of `StartsSucceedAndFail` (part of `StartsFailuresAndPower`). -/
theorem witness_StartsSucceedAndFail :
    (∃ (s : State) (u : HwUnit), (s.boot = .train ∨ s.boot = .running)) ∧
    (∃ (s : State) (u : HwUnit), s.boot ≠ .train ∧ s.boot ≠ .running) ∧
    ((∃ (s : State) (a : EvArg), s.boot = .fetch ∧ 2100000000 ≤ s.bootTime ∧ a = .none) ∧ (∃ (s : State) (a : EvArg), s.state = 0 ∧ 4200000000 ≤
      s.bootTime ∧ a = .none) ∧ (∃ (s : State) (a : EvArg) (k : Nat), s.state = 0 ∧ a = .core k)) ∧
    (∃ s : State, (s.boot ≠ .fetch ∨ s.bootTime < 2100000000)) ∧
    (∃ s : State, (s.state ≠ 0 ∨ s.bootTime < 4200000000)) ∧
    (∃ (s : State) (a : EvArg), (∀ d, a ≠ .die d)) ∧
    (∃ (s : State) (d : Fin 4), s.dies[d].ready.getLsbD 0 = false ∧ s.dies[d].failed = false) ∧
    (∃ (s : State) (d : Fin 4), (s.dies[d].ready.getLsbD 0 = true ∨ s.dies[d].failed = true)) ∧
    (∃ (s : State) (m : Nat) (v : Word), s.owned = true ∧ s.owner.toNat = m ∧ v.getLsbD 0 = true) ∧
    (∃ (s : State) (m : Nat) (v : Word), s.owned = true ∧ s.owner.toNat = m ∧ v.getLsbD 1 = true) ∧
    (∃ (s : State) (m : Nat) (v : Word), (s.owned = false ∨ s.owner.toNat ≠ m)) :=
  ⟨⟨{ State.reset with boot := .train }, .pilot 15, by decide +kernel⟩,
   ⟨State.reset, .helm 0, by decide +kernel⟩,
   ⟨⟨{ State.reset with bootTime := 2100000000 }, .none, by decide +kernel⟩, ⟨{ State.reset with bootTime := 4200000000 }, .none, by decide +kernel⟩,
     ⟨State.reset, .core 15, 15, by decide +kernel⟩⟩,
   ⟨{ State.reset with bootTime := 2099999999 }, by decide +kernel⟩,
   ⟨{ State.reset with bootTime := 4199999999 }, by decide +kernel⟩,
   ⟨State.reset, .none, fun _ h => nomatch h⟩,
   ⟨State.reset, 3, by decide +kernel⟩,
   ⟨{ State.reset with dies := State.reset.dies.set 3 { State.reset.dies[3] with failed := true } }, 3, by decide +kernel⟩,
   ⟨owned, 3, 1, by decide +kernel⟩,
   ⟨owned, 3, 2, by decide +kernel⟩,
   ⟨owned, 2, 3, by decide +kernel⟩⟩

/-- States and operands that meet the hypotheses of each clause of `PartsFailAndPowerIsDivided` (part of `StartsFailuresAndPower`). -/
theorem witness_PartsFailAndPowerIsDivided :
    (∃ (s : State) (d : Fin 4) (i : Nat), s.dies[d].slices.getLsbD i = true ∧ 1 < s.dies[d].sliceCount) ∧
    (∃ (s : State) (d : Fin 4) (i : Nat), s.dies[d].slices.getLsbD i = true ∧ s.dies[d].sliceCount ≤ 1) ∧
    (∃ (s : State) (d : Fin 4), s.state = 0) ∧
    (∃ (s : State) (d : Fin 4), s.state ≠ 0) ∧
    (∃ (s : State) (a b x y : Nat), a ≠ b ∧ s.remap.find? (fun e => e.1 == a) = some (a, x) ∧ s.remap.find? (fun e => e.1 == b) = some (b, y)) ∧
    (∃ (s : State) (m : Nat) (v : Word), s.owned = true ∧ s.owner.toNat = m) ∧
    (∃ (s : State) (m : Nat) (v : Word), (s.owned = false ∨ s.owner.toNat ≠ m)) ∧
    (∃ s : State, MemoryCanonical s) :=
  ⟨⟨State.reset, 3, 95, by decide +kernel⟩,
   ⟨lastSlice, 0, 5, by decide +kernel⟩,
   ⟨State.reset, 3, by decide +kernel⟩,
   ⟨around tc, 3, by decide +kernel⟩,
   ⟨{ State.reset with remap := [(4, 9), (7, 2)] }, 4, 7, 9, 2, by decide +kernel⟩,
   ⟨owned, 3, 0xFFFF, by decide +kernel⟩,
   ⟨owned, 4, 0xFFFF, by decide +kernel⟩,
   ⟨State.reset, by unfold MemoryCanonical; decide +kernel⟩⟩

/-- States and operands that meet the hypotheses of each clause of `OwnershipIsElected` (part of `OwnerAndRegisters`). -/
theorem witness_OwnershipIsElected :
    (∃ (s : State) (m : Nat) (p : BitVec 8) (n : BitVec 32), s.owned = true) ∧
    (∃ (s : State) (m : Nat) (p : BitVec 8) (n : BitVec 32), s.owned = false) ∧
    (∃ s : State, s.window = some 0 ∧ s.claims ≠ []) ∧
    (∃ s : State, s.window ≠ some 0) ∧
    (∃ (s : State) (m : Nat) (v : Word), s.owned = true ∧ s.owner.toNat = m ∧ s.attached.getLsbD (v.toNat % 16) = true) ∧
    (∃ (s : State) (m : Nat) (v : Word), s.owned = true ∧ s.owner.toNat = m ∧ s.attached.getLsbD (v.toNat % 16) = false) ∧
    (∃ (s : State) (m : Nat) (v : Word), (s.owned = false ∨ s.owner.toNat ≠ m)) :=
  ⟨⟨owned, 0, 0xFF, 0xFFFFFFFF, by decide +kernel⟩,
   ⟨State.reset, 0, 0xFF, 0xFFFFFFFF, by decide +kernel⟩,
   ⟨{ State.reset with window := some 0, claims := [⟨2, 7, 5⟩, ⟨1, 7, 5⟩] }, by decide +kernel⟩,
   ⟨State.reset, by decide +kernel⟩,
   ⟨owned, 3, 8, by decide +kernel⟩,
   ⟨owned, 3, 9, by decide +kernel⟩,
   ⟨owned, 8, 1, by decide +kernel⟩⟩

/-- States and operands that meet the hypotheses of each clause of `OwnerWritesRegisters` (part of `OwnerAndRegisters`). -/
theorem witness_OwnerWritesRegisters :
    (∃ (s : State) (m off : Nat) (v : Word), (s.owned = false ∨ s.owner.toNat ≠ m) ∧ off ≠ 0x1000) ∧
    (∃ (s : State) (m : Nat) (v : Word), s.owned = true ∧ s.owner.toNat = m ∧ ∃ off i, (off, i) ∈ [(0x1010, Instr.ownhand), (0x1028, .sbqueryWrite),
      (0x2000, .pwrlimWrite)]) ∧
    (∃ (s : State) (m : Nat) (v : Word), s.owned = true ∧ s.owner.toNat = m ∧ ∃ k : Fin 16, k.val < 15) ∧
    (∃ (s : State) (m : Nat) (v : Word), s.owned = true ∧ s.owner.toNat = m ∧ ∃ (k : Fin 16) (i : Nat), k.val < 15 ∧ i < 510) ∧
    (∃ (s : State) (m : Nat) (v : Word), (s.owned = false ∨ s.owner.toNat ≠ m)) ∧
    (∃ (b : Mailbox) (k : Nat) (tag : Byte), ∃ c i, (c, i) ∈ [((1 : Byte), Instr.loadFw), (2, .attest), (3, .setRoot), (4, .setSavebase), (5,
      .release), (6, .frames), (7, .resume), (8, .discard), (9, .bindPeer)]) ∧
    (∃ (b : Mailbox) (k : Nat) (tag : Byte), ∃ c : Byte, (c = 0 ∨ 9 < c.toNat)) ∧
    (∃ (s : State) (i : Nat), s.asks.length ≤ 4 ∧ (∀ d ∈ s.asks, d < 4) ∧ i < s.asks.length) ∧
    (∃ (s : State) (m off n : Nat) (data : List Byte), MemoryCanonical s ∧ off + n ≤ 2 ^ 36 ∧ 0 < n ∧ s.cls (s.apbase.toNat * 2 ^ 36 + off) = .dev ∧
      s.cls (s.apbase.toNat * 2 ^ 36 + off + n - 1) = .dev ∧ s.corrupt (s.apbase.toNat * 2 ^ 36 + off) n = true) ∧
    (∃ (s : State) (m off n : Nat) (data : List Byte), MemoryCanonical s ∧ off + n ≤ 2 ^ 36 ∧ 0 < n ∧ s.cls (s.apbase.toNat * 2 ^ 36 + off) = .dev ∧
      s.cls (s.apbase.toNat * 2 ^ 36 + off + n - 1) = .dev ∧ s.corrupt (s.apbase.toNat * 2 ^ 36 + off) n = false) :=
  ⟨⟨owned, 2, 0x1010, 1, by decide +kernel⟩,
   ⟨owned, 3, 5, by decide +kernel, by decide +kernel, 0x2000, .pwrlimWrite, by decide⟩,
   ⟨owned, 3, 5, by decide +kernel, by decide +kernel, 14, by decide⟩,
   ⟨owned, 3, 5, by decide +kernel, by decide +kernel, 14, 509, by decide⟩,
   ⟨State.reset, 0, 0xFFFF, by decide +kernel⟩,
   ⟨Mailbox.reset, 14, 0, 9, .bindPeer, by decide⟩,
   ⟨Mailbox.reset, 14, 0, 10, by decide⟩,
   ⟨{ State.reset with asks := [3, 0] }, 1, by decide +kernel⟩,
   ⟨{ State.reset with bad := [((2 ^ 36 - 8) / 128, 0)] }, 0, 2 ^ 36 - 8, 8, [1], by unfold MemoryCanonical; decide +kernel, by decide +kernel⟩,
   ⟨State.reset, 0, 2 ^ 36 - 8, 8, [1], by unfold MemoryCanonical; decide +kernel, by decide +kernel⟩⟩

/-- States and operands that meet the hypotheses of each clause of `MailboxesConfigure` (part of `MailboxCommands`). -/
theorem witness_MailboxesConfigure :
    (∃ (s : State) (k : Fin 16) (tag : Byte), ∃ (c : Byte) (asid : BitVec 16) (a b : Nat) (fs : List Nat), (c = 0 ∨ 9 < c.toNat) ∧ Started s k tag c) ∧
    (∃ (s : State) (k : Fin 16) (tag : Byte), ∃ (c : Byte) (asid : BitVec 16) (a b : Nat) (fs : List Nat) (i : Instr) (code : Byte), (i, code) ∈
      [(Instr.setRoot, (3 : Byte)), (.setSavebase, 4), (.release, 5), (.frames, 6), (.resume, 7), (.discard, 8)] ∧ (¬Started s k tag code)) ∧
    (∃ (s : State) (k : Fin 16) (tag : Byte), ∃ (asid : BitVec 16) (p : Nat) (links : BitVec 16) (dev : Word), (¬Started s k tag 9)) ∧
    (∃ (s : State) (k : Fin 16) (tag : Byte), ∃ (c : Byte) (asid : BitVec 16) (a b : Nat) (fs : List Nat), Started s k tag 3) ∧
    (∃ (s : State) (k : Fin 16) (tag : Byte), ∃ (c : Byte) (asid : BitVec 16) (a b : Nat) (fs : List Nat), Started s k tag 4) ∧
    (∃ (s : State) (k : Fin 16) (tag : Byte), ∃ (asid : BitVec 16) (p : Nat) (links : BitVec 16) (dev : Word), Started s k tag 9) ∧
    (∃ (s : State) (k : Fin 16) (tag : Byte), ∃ (c : Byte) (asid : BitVec 16) (d b : Nat) (fs : List Nat), Started s k tag 6) :=
  ⟨⟨begun State.reset 14 10, 14, 0, 10, 0, 0, 0, [], .inr (by decide), by unfold Started; decide +kernel⟩,
   ⟨State.reset, 14, 0, 0, 0, 0, 0, [], .discard, 8, by decide, by unfold Started; decide +kernel⟩,
   ⟨State.reset, 14, 0, 0, 0, 0, 0, by unfold Started; decide +kernel⟩,
   ⟨begun State.reset 14 3, 14, 0, 0, 0, 0, 0, [], by unfold Started; decide +kernel⟩,
   ⟨begun State.reset 14 4, 14, 0, 0, 0, 0, 0, [], by unfold Started; decide +kernel⟩,
   ⟨begun State.reset 14 9, 14, 0, 0, 0, 0, 0, by unfold Started; decide +kernel⟩,
   ⟨begun State.reset 14 6, 14, 0, 0, 0, 0, 0, [], by unfold Started; decide +kernel⟩⟩

/-- States and operands that meet the hypotheses of each clause of `MailboxesRunCommands` (part of `MailboxCommands`). -/
theorem witness_MailboxesRunCommands :
    (∃ (s : State) (k : Fin 16) (tag : Byte), ∃ (off : Nat) (chunk : List Byte) (last : Bool), Started s k tag 1 ∧ k = 0 ∧ s.boot = .fetch ∧ s.tlboot
      = false ∧ off = s.fw.length ∧ last = false) ∧
    (∃ (s : State) (k : Fin 16) (tag : Byte), ∃ (off : Nat) (chunk : List Byte) (last : Bool), Started s k tag 1 ∧ k = 0 ∧ s.boot = .fetch ∧ s.tlboot
      = false ∧ off = s.fw.length ∧ last = true ∧ (Config.firmwareOk (s.fw ++ chunk) = true ∨ Config.firmwareOk (s.fw ++ chunk) = false)) ∧
    (∃ (s : State) (k : Fin 16) (tag : Byte), ∃ (off : Nat) (chunk : List Byte) (last : Bool), Started s k tag 1 ∧ (k ≠ 0 ∨ s.boot ≠ .fetch ∨ s.tlboot
      = true ∨ off ≠ s.fw.length)) ∧
    (∃ (s : State) (k : Fin 16) (tag : Byte), ∃ (off : Nat) (chunk : List Byte) (last : Bool), (¬Started s k tag 1)) ∧
    (∃ (s : State) (k : Fin 16) (tag : Byte), ∃ n : BitVec 256, Started s k tag 2) ∧
    (∃ (s : State) (k : Fin 16) (tag : Byte), ∃ n : BitVec 256, (¬Started s k tag 2)) ∧
    ((∃ (s : State) (k : Fin 16) (tag : Byte), Started s k tag 5 ∧ ∃ asid, ∃ v ∈ s.voyages, v.asid = asid ∧ v.ended = false) ∧ (∃ (s : State) (k : Fin
      16) (tag : Byte), Started s k tag 5 ∧ ∃ asid a, (∀ v ∈ s.voyages, v.asid = asid → v.ended = true) ∧ a % 2 ^ 16 ≠ 0) ∧ (∃ (s : State) (k : Fin
      16) (tag : Byte), Started s k tag 5 ∧ ∃ asid a b, (∀ v ∈ s.voyages, v.asid = asid → v.ended = true) ∧ a % 2 ^ 16 = 0 ∧ a + b * 2 ^ 16 ≤ 2 ^ 55 ∧
      s.finishing asid a b = true) ∧ (∃ (s : State) (k : Fin 16) (tag : Byte), Started s k tag 5 ∧ ∃ asid a b, (∀ v ∈ s.voyages, v.asid = asid →
      v.ended = true) ∧ a % 2 ^ 16 = 0 ∧ a + b * 2 ^ 16 ≤ 2 ^ 55 ∧ s.finishing asid a b = false ∧ b = 1)) ∧
    (∃ (s : State) (k : Fin 16) (tag : Byte), ∃ (c : Byte) (asid : BitVec 16) (a b : Nat) (fs : List Nat) (x : Saved), s.saved.find? (fun e => e.1 ==
      a) = some (a, x) ∧ (∀ v ∈ s.voyages, v.save ≠ a) ∧ Started s k tag 7 ∧ x.complete = true ∧ (∀ l ∈ s.launches, l.resume ≠ some a)) ∧
    (∃ (s : State) (k : Fin 16) (tag : Byte), ∃ (c : Byte) (asid : BitVec 16) (a b : Nat) (fs : List Nat) (x : Saved), s.saved.find? (fun e => e.1 ==
      a) = some (a, x) ∧ (∀ v ∈ s.voyages, v.save ≠ a) ∧ Started s k tag 7 ∧ x.complete = false) ∧
    (∃ (s : State) (k : Fin 16) (tag : Byte), ∃ (c : Byte) (asid : BitVec 16) (a b : Nat) (fs : List Nat) (x : Saved), s.saved.find? (fun e => e.1 ==
      a) = some (a, x) ∧ (∀ v ∈ s.voyages, v.save ≠ a) ∧ Started s k tag 8) ∧
    (∃ (s : State) (k : Fin 16) (tag : Byte), ∃ (c : Byte) (asid : BitVec 16) (a b : Nat) (fs : List Nat) (i : Instr) (code : Byte), ((i, code) =
      (Instr.resume, (7 : Byte)) ∨ (i, code) = (.discard, 8)) ∧ Started s k tag code ∧ (∃ v ∈ s.voyages, v.save = a)) ∧
    (∃ (s : State) (k : Fin 16) (tag : Byte), ∃ (c : Byte) (asid : BitVec 16) (a b : Nat) (fs : List Nat) (i : Instr) (code : Byte), ((i, code) =
      (Instr.resume, (7 : Byte)) ∨ (i, code) = (.discard, 8)) ∧ Started s k tag code ∧ (∀ v ∈ s.voyages, v.save ≠ a) ∧ s.saved.find? (fun e => e.1 ==
      a) = none) :=
  ⟨⟨begun State.reset 0 1, 0, 0, 0, [], false, by unfold Started; decide +kernel, by decide +kernel⟩,
   ⟨begun State.reset 0 1, 0, 0, 0, [], true, by unfold Started; decide +kernel, rfl, rfl, rfl, rfl, rfl, by cases Config.firmwareOk _ <;> simp⟩,
   ⟨begun State.reset 14 1, 14, 0, 0, [], true, by unfold Started; decide +kernel, by decide +kernel⟩,
   ⟨State.reset, 14, 0, 0, [], true, by unfold Started; decide +kernel⟩,
   ⟨begun State.reset 14 2, 14, 0, 0, by unfold Started; decide +kernel⟩,
   ⟨State.reset, 14, 0, 0, by unfold Started; decide +kernel⟩,
   ⟨⟨begun (around tc) 14 5, 14, 0, by unfold Started; decide +kernel, 0, fetchVoyage 0, by decide +kernel⟩, ⟨begun State.reset 14 5, 14, 0,
     by unfold Started; decide +kernel, 0, 1, by decide +kernel⟩, ⟨begun leaving 14 5, 14, 0, by unfold Started; decide +kernel, 0, 0x20000, 1,
     by decide +kernel⟩, ⟨begun State.reset 14 5, 14, 0, by unfold Started; decide +kernel, 0, 2 ^ 55 - 2 ^ 16, 1, by decide +kernel⟩⟩,
   ⟨begun { State.reset with saved := [(0, savedVoyage)] } 14 7, 14, 0, 0, 0, 0, 0, [], savedVoyage, by decide +kernel, by decide +kernel,
     by unfold Started; decide +kernel, by decide +kernel⟩,
   ⟨begun { State.reset with saved := [(0, { savedVoyage with complete := false })] } 14 7, 14, 0, 0, 0, 0, 0, [], { savedVoyage with
     complete := false }, by decide +kernel, by decide +kernel, by unfold Started; decide +kernel, by decide +kernel⟩,
   ⟨begun { State.reset with saved := [(0, savedVoyage)] } 14 8, 14, 0, 0, 0, 0, 0, [], savedVoyage, by decide +kernel, by decide +kernel,
     by unfold Started; decide +kernel⟩,
   ⟨begun (around tc) 14 7, 14, 0, 0, 0, 0, 0, [], .resume, 7, by decide, by unfold Started; decide +kernel, fetchVoyage 0, by decide +kernel⟩,
   ⟨begun State.reset 14 8, 14, 0, 0, 0, 0, 0, [], .discard, 8, by decide, by unfold Started; decide +kernel, by decide +kernel⟩⟩

/-! ### Traverse links -/

/-- Link 0 is up; flits with zero bodies, and one out of sequence; flits that no one has acknowledged. -/
def linked : State := { mapped (around tc) with links := State.reset.links.set 0 { TLink.reset with up := true } }
def flit (t : BitVec 4) (k : BitVec 16) : Flit := ⟨t, 0, k, 0xFFF, List.replicate 116 0⟩
def late6 : Flit := { flit 6 0 with seq := 1 }
def unacked (n : Nat) : State := { linked with links := State.reset.links.set 0 { TLink.reset with up := true, unacked := [flit 1 0], timer := n } }

/-- The inbound edge of key 9 from peer 5, device 7, over output o of `tc`, joined; a join flit for it; an awaited reply. -/
def edgeRoute (o : Fin 8) : Route := { routeOf tc o with cross := some (5, true, 9), joined := true }
def joined (o : Fin 8) : State := { linked with routes := [edgeRoute o], bindings := [⟨0, 5, 1, 7⟩] }
def joinBytes : List Byte := bytesOf 116 (7 + 9 * 2 ^ 64)
def answered (q : Req) : State := { linked with reqs := [q] }

/-- Link 0 has sent a token of that edge, over a binding of some links, of which 0 and 1 are up. -/
def sending (ls : BitVec 16) : State :=
  { joined 0 with
    links := (State.reset.links.set 0 { TLink.reset with up := true, unacked := [flit 1 9] }).set 1 { TLink.reset with up := true }, bindings := [⟨0, 5, ls, 7⟩] }

theorem none_of {α : Type} {x : Option α} (h : x.isNone = true) : x = none := by
  cases x <;> simp_all

theorem some_pair {α β : Type} {x : Option (α × β)} (h : x.isSome = true) : ∃ r u, x = some (r, u) := by
  obtain ⟨⟨r, u⟩, e⟩ := some_of h
  exact ⟨r, u, e⟩

/-- Served, with room on the link for the reply. -/
def replies {α : Type} (n : Fin 16) (x : Option (α × State)) : Bool :=
  match x with
  | some (_, u) => u.links[n].up && u.links[n].waiting.isEmpty && decide (u.links[n].unacked.length < 1024)
  | none => false

theorem serves {α : Type} {x : Option (α × State)} {n : Fin 16} (h : replies n x = true) :
    ∃ r u, x = some (r, u) ∧ u.links[n].up = true ∧ u.links[n].waiting = [] ∧ u.links[n].unacked.length < 1024 := by
  rcases x with _ | ⟨r, u⟩
  · simp [replies] at h
  · simp only [replies, Bool.and_eq_true, List.isEmpty_iff, decide_eq_true_eq] at h
    exact ⟨r, u, rfl, h.1.1, h.1.2, h.2⟩

set_option maxRecDepth 100000 in
/-- States and operands that meet the hypotheses of each clause of `LinksCountAndResend` (part of `TraverseLinks`). -/
theorem witness_LinksCountAndResend :
    (∃ f : Flit, f.body.length = 116) ∧
    (∃ (l : TLink) (typ : BitVec 4) (key : BitVec 16) (body : List Byte), l.unacked.length ≤ 1024 ∧ l.up = true ∧ l.waiting = [] ∧ l.unacked.length <
      1024) ∧
    (∃ (s : State) (n : Fin 16) (w : List Byte) (f : Flit), InSequence s n w f 0) ∧
    (∃ (s : State) (n : Fin 16) (w : List Byte) (i : Instr) (typ : BitVec 4), (i, typ) ∈ flitEvents ∧ ∃ f, Flit.ofWire w = some f ∧ f.typ = typ ∧ Open
      s n ∧ f.seq ≠ s.links[n].expect) ∧
    (∃ (s : State) (n : Fin 16) (w : List Byte) (i : Instr) (typ : BitVec 4), (i, typ) ∈ flitEvents ∧ Flit.ofWire w = none ∧ Open s n) ∧
    (∃ (s : State) (n : Fin 16) (w : List Byte) (i : Instr) (typ : BitVec 4), (i, typ) ∈ flitEvents ∧ (¬Open s n)) ∧
    (∃ (s : State) (n : Fin 16) (w : List Byte), Open s n ∧ (Flit.ofWire w = none ∨ ∃ f, Flit.ofWire w = some f ∧ 7 ≤ f.typ.toNat)) ∧
    (∃ (s : State) (n : Fin 16) (w : List Byte) (f : Flit), InSequence s n w f 4) ∧
    (∃ (s : State) (n : Fin 16), s.links[n].unacked ≠ [] ∧ 8400 ≤ s.links[n].timer) ∧
    (∃ (s : State) (n : Fin 16), s.links[n].unacked ≠ [] ∧ s.links[n].timer < 8400) :=
  ⟨⟨flit 0 0, by decide +kernel⟩,
   ⟨{ TLink.reset with up := true, unacked := List.replicate 1023 (flit 1 0) }, 1, 9, [], by decide +kernel⟩,
   ⟨linked, 0, (flit 0 0).wire, flit 0 0, by unfold InSequence Open; decide +kernel⟩,
   ⟨linked, 0, (late6).wire, .flitBoot, 6, by decide, late6, by decide +kernel, rfl, by unfold Open; decide +kernel, by decide +kernel⟩,
   ⟨linked, 0, [], .flitBoot, 6, by decide, by decide +kernel, by unfold Open; decide +kernel⟩,
   ⟨linked, 3, [], .flitIdle, 0, by decide, by unfold Open; decide +kernel⟩,
   ⟨linked, 0, (flit 7 0).wire, by unfold Open; decide +kernel, .inr ⟨flit 7 0, by decide +kernel, by decide⟩⟩,
   ⟨linked, 0, (flit 4 0).wire, flit 4 0, by unfold InSequence Open; decide +kernel⟩,
   ⟨unacked 8400, 0, by decide +kernel⟩,
   ⟨unacked 8399, 0, by decide +kernel⟩⟩

set_option maxRecDepth 100000 in
/-- States and operands that meet the hypotheses of each clause of `FlitsActAndFlowsMove` (part of `TraverseLinks`). -/
theorem witness_FlitsActAndFlowsMove :
    (∃ (s : State) (n : Fin 16) (w : List Byte) (f : Flit), InSequence s n w f 1 ∧ s.inboundEdge n.val f.key = none) ∧
    ((∃ (s : State) (n : Fin 16) (w : List Byte) (f : Flit), InSequence s n w f 1 ∧ ∃ (r : Route) (h : Hop) (hs : List Hop), s.inboundEdge n.val f.key
      = some r ∧ s.routeId? r.id = some r ∧ r.hops = h :: hs ∧ 0 < h.fifo.room ∧ s.flows r = true) ∧ (∃ (s : State) (n : Fin 16) (w : List Byte) (f :
      Flit), InSequence s n w f 1 ∧ ∃ (r : Route) (h : Hop) (hs : List Hop), s.inboundEdge n.val f.key = some r ∧ s.routeId? r.id = some r ∧ r.hops =
      h :: hs ∧ h.fifo.room = 0)) ∧
    (∃ (s : State) (n : Fin 16) (w : List Byte) (f : Flit) (b : Peer), InSequence s n w f 2 ∧ (s.bindings.find? fun b => b.links.getLsbD n.val &&
      b.peer == fld f.key.toNat 0 7) = some b ∧ (taken s n w f).serveFlit b.asid (ofBytes f.body) = none) ∧
    (∃ (s : State) (n : Fin 16) (w : List Byte) (f : Flit) (b : Peer), InSequence s n w f 2 ∧ (s.bindings.find? fun b => b.links.getLsbD n.val &&
      b.peer == fld f.key.toNat 0 7) = some b ∧ ∃ (r : Except FaultC Nat) (u : State), (taken s n w f).serveFlit b.asid (ofBytes f.body) = some (r, u)
      ∧ u.links[n].up = true ∧ u.links[n].waiting = [] ∧ u.links[n].unacked.length < 1024) ∧
    (∃ (s : State) (asid : BitVec 16) (b : Nat), (fld b 128 8 < 0x40 ∨ 0x42 < fld b 128 8) ∧ ∃ r u, s.serve (flitReq asid b) = some (r, u)) ∧
    (∃ (s : State) (n : Fin 16) (w : List Byte) (f : Flit) (q : Req), InSequence s n w f 3 ∧ (s.reqs.find? fun q => q.stage == .peer (fld (ofBytes
      f.body) 8 8) && q.port == some (fld (ofBytes f.body) 16 2, fld (ofBytes f.body) 0 7)) = some q ∧ Stands s q ∧ fld (ofBytes f.body) 64 8 = 0 ∧
      q.dest ≠ .none ∧ q.op.writes = false ∧ (∀ c m w, q.op ≠ .part c m w)) ∧
    (∃ (s : State) (n : Fin 16) (w : List Byte) (f : Flit) (q : Req), InSequence s n w f 3 ∧ (s.reqs.find? fun q => q.stage == .peer (fld (ofBytes
      f.body) 8 8) && q.port == some (fld (ofBytes f.body) 16 2, fld (ofBytes f.body) 0 7)) = some q ∧ Stands s q ∧ ∃ c m x, fld (ofBytes f.body) 64 8
      = 0 ∧ q.op = .part c m x) ∧
    (∃ (s : State) (n : Fin 16) (w : List Byte) (f : Flit) (q : Req), InSequence s n w f 3 ∧ (s.reqs.find? fun q => q.stage == .peer (fld (ofBytes
      f.body) 8 8) && q.port == some (fld (ofBytes f.body) 16 2, fld (ofBytes f.body) 0 7)) = some q ∧ Stands s q ∧ ∃ t, fld (ofBytes f.body) 64 8 ≠ 0
      ∧ s.station? q.st = some t) ∧
    (∃ (s : State) (n : Fin 16) (w : List Byte) (f : Flit), InSequence s n w f 5 ∧ ∃ r, s.joinRoute f (decide (fld (ofBytes f.body) 80 8 = 0)) = some
      r) ∧
    (∃ (s : State) (n : Fin 16) (w : List Byte) (f : Flit), InSequence s n w f 5 ∧ s.joinRoute f (decide (fld (ofBytes f.body) 80 8 = 0)) = none) ∧
    (∃ (s : State) (w : List Byte) (f : Flit), InSequence s 0 w f 6 ∧ s.tlboot = true ∧ s.boot = .fetch ∧ fld (ofBytes f.body) 0 64 = s.fw.length ∧ 1
      ≤ fld (ofBytes f.body) 64 32 ∧ fld (ofBytes f.body) 64 32 ≤ 96 ∧ (ofBytes f.body).testBit 96 = false) ∧
    (∃ (s : State) (w : List Byte) (f : Flit), InSequence s 0 w f 6 ∧ s.tlboot = true ∧ s.boot = .fetch ∧ (fld (ofBytes f.body) 0 64 ≠ s.fw.length ∨
      fld (ofBytes f.body) 64 32 = 0 ∨ 96 < fld (ofBytes f.body) 64 32)) ∧
    ((∃ (s : State) (n : Fin 16), ∃ r ∈ s.routes, ∃ p x key v, r.cross = some (p, x, key) ∧ r.link = n.val ∧ s.voyage? r.voy = some v ∧ (s.bound
      v.asid p).contains n.val = true) ∧ (∃ (s : State) (n m : Fin 16), m ≠ n ∧ s.links[n].waiting = [] ∧ s.links[n].unacked ≠ [] ∧ ∀ f ∈
      s.links[n].unacked, (((on s (.link n.val)).modLink n.val fun l => { l with up := false }).flitBindings n.val f.typ f.key f.body).findSome? (((on
      s (.link n.val)).modLink n.val fun l => { l with up := false }).takeover n.val) = some m.val) ∧ (∃ (s : State) (n : Fin 16), s.links[n].waiting
      = [] ∧ s.links[n].unacked ≠ [] ∧ ∀ f ∈ s.links[n].unacked, (((on s (.link n.val)).modLink n.val fun l => { l with up := false }).flitBindings
      n.val f.typ f.key f.body).findSome? (((on s (.link n.val)).modLink n.val fun l => { l with up := false }).takeover n.val) = none)) :=
  ⟨⟨linked, 0, (flit 1 9).wire, flit 1 9, by unfold InSequence Open; decide +kernel, by decide +kernel⟩,
   ⟨⟨joined 0, 0, (flit 1 9).wire, flit 1 9, by unfold InSequence Open; decide +kernel, edgeRoute 0, ⟨.mesh, ⟨4, [], 0⟩, 0, false, none⟩, [],
     by decide +kernel⟩, ⟨joined 6, 0, (flit 1 9).wire, flit 1 9, by unfold InSequence Open; decide +kernel, edgeRoute 6, ⟨.mesh, ⟨4, List.replicate 4
     ⟨2, some (Token.scalar 1 ⟨false, 992⟩), false, 0, 0⟩, 0⟩, 0, false, none⟩, [], by decide +kernel⟩⟩,
   ⟨joined 0, 0, ({ flit 2 5 with body := bytesOf 116 (0x40000 + 8 * 2 ^ 144) }).wire, { flit 2 5 with body := bytesOf 116 (0x40000 + 8 * 2 ^ 144) },
     ⟨0, 5, 1, 7⟩, by unfold InSequence Open; decide +kernel, by decide +kernel, none_of (by decide +kernel)⟩,
   ⟨joined 0, 0, ({ flit 2 5 with body := bytesOf 116 (0x200000 + 8 * 2 ^ 144) }).wire, { flit 2 5 with body := bytesOf 116 (0x200000 + 8 * 2 ^ 144)
     }, ⟨0, 5, 1, 7⟩, by unfold InSequence Open; decide +kernel, by decide +kernel, serves (by decide +kernel)⟩,
   ⟨joined 0, 0, 0x200000 + 8 * 2 ^ 144, .inl (by decide +kernel), some_pair (by decide +kernel)⟩,
   ⟨answered (rq (.peer 2)), 0, ({ flit 3 0 with body := bytesOf 116 (3 + 2 * 2 ^ 8) }).wire, { flit 3 0 with body := bytesOf 116 (3 + 2 * 2 ^ 8) },
     rq (.peer 2), by unfold InSequence Open; decide +kernel, by decide +kernel, by unfold Stands; decide +kernel, by decide +kernel, by decide, by
     decide, not_part rfl⟩,
   ⟨answered ({ rq (.peer 2) with op := .part 4 8 false }), 0, ({ flit 3 0 with body := bytesOf 116 (3 + 2 * 2 ^ 8) }).wire, { flit 3 0 with
     body := bytesOf 116 (3 + 2 * 2 ^ 8) }, { rq (.peer 2) with op := .part 4 8 false }, by unfold InSequence Open; decide +kernel, by decide +kernel,
     by unfold Stands; decide +kernel, 4, 8, false, by decide +kernel, rfl⟩,
   ⟨answered (rq (.peer 2)), 0, ({ flit 3 0 with body := bytesOf 116 (3 + 2 * 2 ^ 8 + 2 ^ 64) }).wire, { flit 3 0 with body := bytesOf 116 (3 + 2 * 2
     ^ 8 + 2 ^ 64) }, rq (.peer 2), by unfold InSequence Open; decide +kernel, by decide +kernel, by unfold Stands; decide +kernel, tc,
     by decide +kernel⟩,
   ⟨joined 0, 0, ({ flit 5 0 with body := joinBytes }).wire, { flit 5 0 with body := joinBytes }, by unfold InSequence Open; decide +kernel, edgeRoute
     0, by decide +kernel⟩,
   ⟨linked, 0, ({ flit 5 0 with body := joinBytes }).wire, { flit 5 0 with body := joinBytes }, by unfold InSequence Open; decide +kernel,
     by decide +kernel⟩,
   ⟨{ linked with tlboot := true }, ({ flit 6 0 with body := bytesOf 116 (96 * 2 ^ 64) }).wire, { flit 6 0 with body := bytesOf 116 (96 * 2 ^ 64) },
     by unfold InSequence Open; decide +kernel, by decide +kernel⟩,
   ⟨{ linked with tlboot := true }, (flit 6 0).wire, flit 6 0, by unfold InSequence Open; decide +kernel, by decide +kernel⟩,
   ⟨⟨joined 0, 0, edgeRoute 0, by decide +kernel, 5, true, 9, fetchVoyage 0, by decide +kernel⟩, ⟨sending 3, 0, 1, by decide +kernel⟩, ⟨sending 1, 0,
     by decide +kernel⟩⟩⟩

/-! ### The events, with their arguments -/

theorem ok_keep {α : Type} {x : Except TErr (α × State)} {l : List Station} (h : (match x with | .ok (_, u) => decide (u.stations = l) | _ => false) = true) :
    ∃ a u, x = .ok (a, u) ∧ u.stations = l := by
  rcases x with _ | ⟨a, u⟩
  · simp at h
  · exact ⟨a, u, rfl, of_decide_eq_true h⟩

theorem ins_of {s : State} {b : TBind} {j : TreeJob} {n : Nat} (hs : j.step = .plan) (ho : j.op = .tins n)
    (h : goes b false j.locks ((tinsert b n).run (TW.start s j.memo)) = true) :
    ∃ n y w u ls as, j.step = .plan ∧ j.op = .tins n ∧ (tinsert b n).run (TW.start s j.memo) = .ok (y, w) ∧ w.plan b false j.locks = .go u ls as :=
  let ⟨y, w, u, ls, as, e, f⟩ := goes_of h
  ⟨n, y, w, u, ls, as, hs, ho, e, f⟩

theorem served {s : State} {n : Fin 16} {w : List Byte} {f : Flit} {b : Peer} (hi : InSequence s n w f 2)
    (hb : (s.bindings.find? fun b => b.links.getLsbD n.val && b.peer == fld f.key.toNat 0 7) = some b)
    (h : replies n ((taken s n w f).serveFlit b.asid (ofBytes f.body)) = true) :
    ∃ (x : State) (b : Peer) (r : Except FaultC Nat), InSequence s n w f 2 ∧
      (s.bindings.find? fun b => b.links.getLsbD n.val && b.peer == fld f.key.toNat 0 7) = some b ∧
      (taken s n w f).serveFlit b.asid (ofBytes f.body) = some (r, x) ∧ x.links[n].up = true ∧ x.links[n].waiting = [] ∧ x.links[n].unacked.length < 1024 :=
  let ⟨r, u, e, g⟩ := serves h
  ⟨u, b, r, hi, hb, e, g⟩

/-- A full boot packet. -/
def bootFlit : Flit := { flit 6 0 with body := bytesOf 116 (96 * 2 ^ 64) }

/-- A voyage of two regions, of which the first ends. -/
def twoRegions : Voyage := { fetchVoyage 0 with regions := [fetchRegion, { fetchRegion with idx := 1, px := 9 }] }
def endsOne : State := { around tend with voyages := [twoRegions] }

def savingRegion : Region := { fetchRegion with snap := .saving 0, frozen := true }
def lateSaved : State := { asks late2 with ev := .req 7, saveBases := [(0, 0)] }

/-- A matrix station that takes the last part of its carry-in. -/
def tlast : Station := { tcar with c := tcar.c.set 1 (chanOf { vecTok 42 0 with side := BitVec.ofNat 64 (63 * 2 ^ 13 + 7 * 2 ^ 19) }) }

/-- What a port's translation answers. -/
def ported (q : Req) : State := { asks q with domains := [Domain.fresh 0 0 0 3 .rules 0 false] }
def wholeOf (q : Req) : Whole × State := (on (ported q) (.req 7)).transWhole q (0, 3) (lineParts q.va q.bytes)
def partsIn (x : Whole) : List (Nat × Nat × Nat) := match x with | .ok ps _ _ => ps | _ => []
def opIn (x : Whole) : ReqOp := match x with | .ok _ o _ => o | _ => .mnop
def versIn (x : Whole) : Bool := match x with | .ok _ _ v => v | _ => false

theorem whole_eq {x : Whole × State} (h : (match x.1 with | .ok .. => true | _ => false) = true) :
    x = (.ok (partsIn x.1) (opIn x.1) (versIn x.1), x.2) := by
  rcases x with ⟨_ | _ | _ | _, s⟩ <;> first | rfl | simp at h

/-- The launch that waits, placed. -/
def configured : Placed :=
  (placeState (waits none) (waiter none)).configure (waiter none) (imageOf (placeImg (waits none) (waiter none))) [(0, 0, 0)]
    (placeTab (waits none) (waiter none))

theorem placed_in {c : Placed} (h : (match c with | .ok _ => true | _ => false) = true) : c = .ok (placedIn c) := by
  cases c <;> simp_all [placedIn]

theorem configured_ok : configured = .ok (placedIn configured) := placed_in (by decide +kernel)

/-- Both sides of the piece that a copy moves. -/
def sideVal {α : Type} (x : Side α) (a : α) : α := match x with | .ok v _ => v | _ => a
def sideState {α : Type} (x : Side α) : State := match x with | .ok _ s => s | _ => State.reset

theorem side_eq {α : Type} {x : Side α} {a : α} (h : (match x with | .ok _ _ => true | _ => false) = true) : x = .ok (sideVal x a) (sideState x) := by
  cases x <;> simp_all [sideVal, sideState]

def piece : Side Nat := cp.read (on (copies cp) (.copy 4)) 0x200000 64
def piece2 : Side Unit := cp.write (sideState piece) 0x400000 64 (sideVal piece 0)

/-- The state after a page has been copied on a write, and a task that reads what an earlier one has written. -/
def resolved : State :=
  let q := touches .copyOnWrite 0x20000
  ((on (asks q) (.req 7)).resolve .copyOnWrite q.asid q.va q.bytes q.die q.h.comp q.op.reads q.op.writes).toOption.getD State.reset
def spoiledTask : Task := { task 3 .ready with spoiled := true }

set_option maxRecDepth 100000 in
/-- States and operands that meet the hypotheses of each clause of `UnitEventsComplete` (part of `MachineEventsComplete`). -/
theorem witness_UnitEventsComplete :
    (∃ (s : State) (i : StId) (t : Station) (x : Ss) (d : Fin 16) (c : Fin 8) (p : Nat) (z : ZReg) (ctx : Fin 8) (slot : Fin 32) (sl : Slack) (k :
      Token), s.ev = .st i ∧ s.station? i = some t ∧ t.ss = some x ∧ x.io = some (.sin d c p z ctx slot sl) ∧ t.seen ctx c = some k ∧ Machine.partOk k
      p (some z) = true) ∧
    (∃ (s : State) (i : StId) (t : Station) (x : Ss) (o : Fin 8) (z : ZReg) (p : Nat) (sl : Slack), s.ev = .st i ∧ s.station? i = some t ∧ t.ss = some
      x ∧ x.io = some (.sout o z p sl) ∧ s.outRoom i o 1 = true) ∧
    (∃ (s : State) (i : StId) (t : Station) (x : Nrm) (k : Token) (r : List (Nat × Token)), s.ev = .st i ∧ s.station? i = some t ∧ t.nrm = some x ∧
      x.outs = (0, k) :: r ∧ s.outRoom i x.o 1 = true ∧ t.headEntry x.i = none) ∧
    (∃ (s : State) (i : StId) (t : Station) (x : Nrm) (k : Token), s.ev = .st i ∧ s.station? i = some t ∧ t.nrm = some x ∧ x.outs = [] ∧ t.headEntry
      x.i = some k ∧ k.stop = 0 ∧ k.f = false ∧ k.fmt = 42 ∧ (rowHdr k).row = x.row ∧ (rowHdr k).part = x.part) ∧
    (∃ (s : State) (i : StId) (t : Station) (x : Ctn) (k : Token) (b : Bool) (r : List (Nat × Token × Bool)), s.ev = .st i ∧ s.station? i = some t ∧
      t.ctn = some x ∧ x.outs = (0, k, b) :: r ∧ s.outRoom i x.o 1 = true ∧ t.headEntry x.i = none) ∧
    (∃ (s : State) (i : StId) (t : Station) (x : Ctn) (k : Token), s.ev = .st i ∧ s.station? i = some t ∧ t.ctn = some x ∧ x.outs = [] ∧ t.headEntry
      x.i = some k ∧ k.stop = 0 ∧ k.f = false ∧ k.fmt = x.ifmt ∧ x.rows.length + 1 < x.ifmt.lanes) ∧
    (∃ (s : State) (i : StId) (t : Station) (m : Mat) (n : Fin 4) (c : Fin 8) (k : Token), s.ev = .tile i n ∧ s.station? i = some t ∧ t.mat = some m ∧
      t.matPre = some m ∧ m.t[n].fill = some c ∧ t.headEntry c = some k ∧ m.t[n].parks = [] ∧ m.t[n].fresh = false ∧ k.stop = 0 ∧ k.f = false ∧ k.fmt
      = m.t[n].fmt ∧ (m.t[n].st = .empty ∨ m.t[n].st = .filling)) ∧
    (∃ (s : State) (i : StId) (t : Station) (m : Mat) (x : MatStep) (k : AccCfg), s.ev = .st i ∧ s.station? i = some t ∧ t.mat = some m ∧ m.step =
      some x ∧ x.left = 0 ∧ m.a[x.acc].cfg = some k) ∧
    (∃ (s : State) (i : StId) (t : Station) (m : Mat) (n : Fin 2) (o : Fin 8), s.ev = .acc i n ∧ s.station? i = some t ∧ t.mat = some m ∧ m.drains n =
      some o ∧ s.outRoom i o 1 = true ∧ m.a[n].pos ≤ 511) ∧
    (∃ (s : State) (i : StId) (t : Station) (m : Mat) (n : Fin 2) (q : AccCfg) (c : Fin 8) (k : Token), s.ev = .acc i n ∧ s.station? i = some t ∧
      t.mat = some m ∧ m.a[n].cfg = some q ∧ q.carry = some c ∧ m.a[n].st = .closed ∧ m.a[n].cin < 512 ∧ m.step = none ∧ (∀ e ∈ t.busy, e.1 ≠ .step) ∧
      t.headEntry c = some k ∧ k.stop = 0 ∧ k.f = false ∧ k.fmt = 42 ∧ (rowHdr k).row = m.a[n].cin / 8 ∧ (rowHdr k).part = m.a[n].cin % 8) ∧
    (∃ (s : State) (i : StId) (t : Station) (x : Sd) (j : TreeJob) (b : TBind), s.ev = .st i ∧ Engine s i t x j b ∧ s.treeBusy i = false ∧ j.bad =
      none ∧ s.lockNode b j.memo 0 = .error .retry) ∧
    (∃ (s : State) (i : StId) (t : Station) (x : Sd) (j : TreeJob) (b : TBind), s.ev = .st i ∧ Engine s i t x j b ∧ s.treeBusy i = false ∧ j.bad =
      none ∧ ∃ v u', s.lockNode b j.memo 0 = .ok (v, u') ∧ u'.stations = s.stations) ∧
    (∃ (s : State) (i : StId) (t : Station) (x : Sd) (j : TreeJob) (b : TBind), s.ev = .st i ∧ Engine s i t x j b ∧ s.treeBusy i = false ∧ j.bad =
      none ∧ ∃ n y w u ls as, j.step = .plan ∧ j.op = .tins n ∧ (tinsert b n).run (TW.start s j.memo) = .ok (y, w) ∧ w.plan b false j.locks = .go u ls
      as) ∧
    (∃ (s : State) (i : StId) (t : Station) (x : Sd) (j : TreeJob) (b : TBind), s.ev = .st i ∧ Engine s i t x j b ∧ s.treeBusy i = false ∧ j.bad =
      none ∧ j.op ≠ .walk ∧ j.step = .unlock ∧ j.pages = []) :=
  ⟨⟨on (around (tio (.sin 0 0 1 ⟨0, 1, 4⟩ 0 0 ⟨false, 992⟩) 0x210001)) (.st ts.id), ts.id, tio (.sin 0 0 1 ⟨0, 1, 4⟩ 0 0 ⟨false, 992⟩) 0x210001, ioSs
     (.sin 0 0 1 ⟨0, 1, 4⟩ 0 0 ⟨false, 992⟩), 0, 0, 1, ⟨0, 1, 4⟩, 0, 0, ⟨false, 992⟩, headIn (tio (.sin 0 0 1 ⟨0, 1, 4⟩ 0 0 ⟨false, 992⟩) 0x210001) 0,
     by decide +kernel⟩,
   ⟨on (around (tio (.sout 0 ⟨5, 1, 4⟩ 7 ⟨false, 992⟩) 0)) (.st ts.id), ts.id, tio (.sout 0 ⟨5, 1, 4⟩ 7 ⟨false, 992⟩) 0, ioSs (.sout 0 ⟨5, 1, 4⟩ 7
     ⟨false, 992⟩), 0, ⟨5, 1, 4⟩, 7, ⟨false, 992⟩, by decide +kernel⟩,
   ⟨on (around (tnrm [(0, noVal.tok)])) (.st tc.id), tc.id, tnrm [(0, noVal.tok)], nrm [(0, noVal.tok)], noVal.tok, [], by decide +kernel⟩,
   ⟨on (around (tnrm [])) (.st tc.id), tc.id, tnrm [], nrm [], headIn (tnrm []) 1, by decide +kernel⟩,
   ⟨on (around (tctn [(0, noVal.tok, true)])) (.st tc.id), tc.id, tctn [(0, noVal.tok, true)], ctn [(0, noVal.tok, true)], noVal.tok, true, [],
     by decide +kernel⟩,
   ⟨on (around (tctn [])) (.st tc.id), tc.id, tctn [], ctn [], headIn (tctn []) 1, by decide +kernel⟩,
   ⟨on (around (tfl 1 .filling 63)) (.tile tm.id 3), tm.id, tfl 1 .filling 63, fillAt 1 .filling 63, 3, 1, headIn tm 1, by decide +kernel⟩,
   ⟨on (around tstep) (.st tstep.id), tstep.id, tstep, stepMat, ⟨0, 0, 1, false, false, false, Vector.replicate 64 unitSide, Vector.replicate 64
     unitSide, 0, ⟨false, 992⟩⟩, ⟨8, 0, none, .tile, .g0⟩, by decide +kernel⟩,
   ⟨on (around tdrn) (.acc tdrn.id 0), tdrn.id, tdrn, drainMat, 0, 0, by decide +kernel⟩,
   ⟨on (around tlast) (.acc tcar.id 0), tcar.id, tlast, carryMat, 0, ⟨8, 0, some 1, .tile, .g0⟩, 1, headIn tlast 1, by decide +kernel⟩,
   ⟨on (eng ({ insert5 with memo := [(.lock 0, 1)] })) (.st td.id), td.id, teng ({ insert5 with memo := [(.lock 0, 1)] }), _, { insert5 with
     memo := [(.lock 0, 1)] }, _, rfl, engine_of _ _ (by decide +kernel) rfl, by decide +kernel, rfl, retry_of (by decide +kernel)⟩,
   ⟨on (eng (known (.tins 5))) (.st td.id), td.id, teng (known (.tins 5)), _, known (.tins 5), _, rfl, engine_of _ _ (by decide +kernel) rfl,
     by decide +kernel, rfl, ok_keep (by decide +kernel)⟩,
   ⟨on (eng (known (.tins 5))) (.st td.id), td.id, teng (known (.tins 5)), _, known (.tins 5), _, rfl, engine_of _ _ (by decide +kernel) rfl,
     by decide +kernel, rfl, ins_of rfl rfl (by decide +kernel)⟩,
   ⟨on (eng ({ insert5 with step := .unlock })) (.st td.id), td.id, teng ({ insert5 with step := .unlock }), _, { insert5 with step := .unlock }, _,
     rfl, engine_of _ _ (by decide +kernel) rfl, by decide +kernel, rfl, by decide, rfl, rfl⟩⟩

set_option maxRecDepth 100000 in
/-- States and operands that meet the hypotheses of each clause of `VoyageEventsComplete` (part of `MachineEventsComplete`). -/
theorem witness_VoyageEventsComplete :
    (∃ (s : State) (voy reg : Nat) (v : Voyage) (r : Region), s.ev = .region voy reg ∧ s.voyage? voy = some v ∧ v.region? reg = some r ∧ s.doneStop r
      = true ∧ r.st = .running ∧ v.frozen = false ∧ r.frozen = false ∧ v.ended = false ∧ (∃ q ∈ v.regions, q.idx ≠ reg ∧ q.st ≠ .retired)) ∧
    (∃ (s w x y : State) (n : Nat) (p : Packet) (i : Img) (h : List Nat) (m : Image), s.ev = .queue n ∧ NextPacket s n p w ∧ p.kind = 1 ∧ (¬AcqHolds s
      n p) ∧ w.readLaunch (s.queue n).asid p = .ok (i, h, y) ∧ y.readArgs (s.queue n).asid p = .ok x ∧ i.parse = some m ∧ x.launchError? m p = none) ∧
    (∃ (s w x : State) (id : Nat) (l : Launch) (i : Img) (h : List Nat) (m : Image) (sp : Spots), s.ev = .launch id ∧ s.launches.find? (fun l => l.id
      == id) = some l ∧ l.resume = none ∧ s.blocked l = false ∧ s.readLaunch l.asid l.pkt = .ok (i, h, w) ∧ i.parse = some m ∧ (l.pkt.dies.all
      w.dieReady && w.cutOff m l.pkt.dies) = false ∧ w.spots l m = some sp ∧ w.configure l m sp h = .ok x) ∧
    (∃ (s : State) (l : Launch), s.ev = .launch l.id ∧ l ∈ s.launches ∧ 2 ^ 21 ≤ s.time - l.time) ∧
    (∃ (s w x : State) (id n : Nat) (l : Launch) (k : Saved) (i : Img) (h : List Nat) (m : Image) (a : List (Nat × Nat × Nat × Nat)), s.ev = .launch
      id ∧ s.launches.find? (fun l => l.id == id) = some l ∧ l.resume = some n ∧ s.saved.find? (fun e => e.1 == n) = some (n, k) ∧ k.complete = true ∧
      s.readLaunch l.asid l.pkt = .ok (i, h, w) ∧ i.parse = some m ∧ w.peersReady l.asid m = true ∧ w.resumeSpots l (w.edgesFit m) List.isEmpty m =
      some a ∧ w.reconfigure l k m h a = .ok x) ∧
    (∃ (s : State) (id : Nat) (q : Req) (w : Held) (t : Station) (v : Voyage) (r : Region), s.ev = .req id ∧ s.req? id = some q ∧ s.heldBack q = some
      w ∧ s.station? q.st = some t ∧ s.voyage? q.voy = some v ∧ v.region? q.reg = some r ∧ r.tlim ≤ q.held ∧ r.st ≠ .halted) ∧
    (∃ (s : State) (voy : Nat) (v : Voyage), s.ev = .voyage voy ∧ s.voyage? voy = some v ∧ 4096 ≤ v.quiet ∧ v.dead = false) ∧
    (∃ (s : State) (voy reg : Nat) (v : Voyage) (r : Region), s.ev = .region voy reg ∧ s.voyage? voy = some v ∧ v.region? reg = some r ∧ 4096 ≤
      v.quiet ∧ v.dead = true ∧ r.st = .running ∧ v.ended = false ∧ ∃ t, s.station? (r.at 0 0) = some t) ∧
    (∃ (s : State) (voy reg : Nat) (x : BitVec 128) (v : Voyage) (r : Region), s.ev = .halt voy reg 0x0C x ∧ s.voyage? voy = some v ∧ v.region? reg =
      some r ∧ v.ended = false ∧ r.st = .running) ∧
    (∃ (s : State) (voy : Nat) (x : Byte) (v : Voyage), s.ev = .drain voy x ∧ s.voyage? voy = some v ∧ v.ended = false ∧ v.retired = false ∧ v.halted
      = false ∧ v.drain = none) ∧
    (∃ (s : State) (voy reg : Nat) (v : Voyage) (r : Region), s.ev = .region voy reg ∧ s.voyage? voy = some v ∧ v.region? reg = some r ∧ v.drain =
      none ∧ r.snap = .pending 0 ∧ r.st = .running) ∧
    (∃ (s : State) (voy reg : Nat) (v : Voyage) (r : Region), s.ev = .region voy reg ∧ s.voyage? voy = some v ∧ v.region? reg = some r ∧ r.snap =
      .saving 0 ∧ r.frozen = true ∧ (∀ d, s.saveRegions v [r] 2 (fun _ => 0) (·.gen) ≠ .error (.frames d))) ∧
    (∃ (s : State) (voy : Nat) (v : Voyage) (x : Byte) (n : Nat), s.ev = .voyage voy ∧ s.voyage? voy = some v ∧ v.drain = some (x, n) ∧ v.regions.all
      (fun r => r.st == .retired || (r.snap == .saving 0 && !r.frozen)) = true ∧ v.owed = [] ∧ (∀ d, s.saveRegions v v.regions x.toNat (fun r => if
      r.st == .retired then 1 else 3) (fun r => r.gen + 1) ≠ .error (.frames d))) :=
  ⟨⟨on (endsOne) (.region 0 0), 0, 0, twoRegions, fetchRegion, by decide +kernel⟩,
   ⟨(on (helm (launch) (qq)) (.queue 0)), on (on (helm (launch) (qq)) (.queue 0)) (.queue 0), launchState (on (helm (launch) (qq)) (.queue 0)) launch,
     launchState (on (helm (launch) (qq)) (.queue 0)) launch, 0, launch, launchImg (on (helm (launch) (qq)) (.queue 0)) launch, launchTab (on (helm
     (launch) (qq)) (.queue 0)) launch, imageOf (launchImg (on (helm (launch) (qq)) (.queue 0)) launch), by decide +kernel, next_packet rfl
     (by decide +kernel), by decide +kernel, by unfold AcqHolds; decide +kernel, launch_read (by decide +kernel), rfl, parses (by decide +kernel),
     by decide +kernel⟩,
   ⟨on (waits none) (.launch 3), placeState (waits none) (waiter none), placedIn configured, 3, waiter none, placeImg (waits none) (waiter none),
     placeTab (waits none) (waiter none), imageOf (placeImg (waits none) (waiter none)), [(0, 0, 0)], by decide +kernel, by decide +kernel,
     by decide +kernel, by decide +kernel, place_read (by decide +kernel), parses (by decide +kernel), by decide +kernel, by decide +kernel,
     configured_ok⟩,
   ⟨{ waits none with time := 2 ^ 21, ev := .launch 3 }, waiter none, by decide +kernel⟩,
   ⟨on (waits (some 0)) (.launch 3), placeState (waits (some 0)) (waiter (some 0)), resumed, 3, 0, waiter (some 0), savedVoyage, placeImg (waits (some
     0)) (waiter (some 0)), placeTab (waits (some 0)) (waiter (some 0)), imageOf (placeImg (waits (some 0)) (waiter (some 0))), [(0, 0, 0, 0)],
     by decide +kernel, by decide +kernel, by decide +kernel, by decide +kernel, by decide +kernel, place_read (by decide +kernel), parses
     (by decide +kernel), by decide +kernel, by decide +kernel, resumed_eq⟩,
   ⟨lateSaved, 7, late2, .copyOnWrite, tc, fetchVoyage 0, fetchRegion, by decide +kernel⟩,
   ⟨on (voyaged { fetchVoyage 0 with quiet := 4096 }) (.voyage 0), 0, { fetchVoyage 0 with quiet := 4096 }, by decide +kernel⟩,
   ⟨{ on (voyaged quietDead) (.region 0 0) with stations := [origin] }, 0, 0, quietDead, fetchRegion, by decide +kernel, by decide +kernel,
     by decide +kernel, by decide +kernel, by decide +kernel, by decide +kernel, by decide +kernel, origin, by decide +kernel⟩,
   ⟨on (around tc) (.halt 0 0 0x0C 5), 0, 0, 5, fetchVoyage 0, fetchRegion, by decide +kernel⟩,
   ⟨on (around tc) (.drain 0 1), 0, 1, fetchVoyage 0, by decide +kernel⟩,
   ⟨on (regioned { fetchRegion with snap := .pending 0 }) (.region 0 0), 0, 0, withRegion { fetchRegion with snap := .pending 0 }, { fetchRegion with
     snap := .pending 0 }, by decide +kernel⟩,
   ⟨on (regioned savingRegion) (.region 0 0), 0, 0, withRegion savingRegion, savingRegion, by decide +kernel, by decide +kernel, by decide +kernel,
     by decide +kernel, by decide +kernel, no_frames (by decide +kernel)⟩,
   ⟨on (voyaged drained) (.voyage 0), 0, drained, 0, 5, by decide +kernel, by decide +kernel, by decide +kernel, by decide +kernel, by decide +kernel,
     no_frames (by decide +kernel)⟩⟩

/-- States and operands that meet the hypotheses of each clause of `RequestEventsComplete` (part of `MachineEventsComplete`). -/
theorem witness_RequestEventsComplete :
    (∃ (s : State) (k : Nat) (g : Agen), s.ev = .agen k ∧ s.agens[k]? = some g ∧ g.outq = [] ∧ g.pos < g.total ∧ g.pref = false ∧ 0 ≤ g.addr ∧
      g.h.check g.addr.toNat (if g.wide then 64 else 8) (if g.wide then 64 else 8) = .ok ()) ∧
    (∃ (s : State) (q : Req), s.ev = .req q.id ∧ Stands s q ∧ q.stage = .net 0 ∧ q.h.space ≠ .win ∧ q.op.monitor = false ∧ s.portRoom q = true) ∧
    (∃ (s w : State) (q : Req) (p : Nat × Nat) (ps : List (Nat × Nat × Nat)) (op : ReqOp) (v : Bool), s.ev = .req q.id ∧ Stands s q ∧ s.canRelease q =
      true ∧ s.still q.voy q.reg = false ∧ q.port = some p ∧ q.h.space = .dev ∧ goesHome q = true ∧ q.parts = [] ∧ s.transWhole q p (lineParts q.va
      q.bytes) = (.ok ps op v, w)) ∧
    (∃ (s : State) (q : Req) (pa w : Nat) (sx : Bool), s.ev = .req q.id ∧ q.op = .load w sx ∧ q.dest ≠ .none ∧ AtHome s q pa w) ∧
    (∃ (s : State) (q : Req) (n : Nat) (t : Station), s.ev = .req q.id ∧ Stands s q ∧ q.stage = .room n ∧ s.station? q.st = some t ∧ 65536 ≤ n) ∧
    (∃ (s : State) (q : Req) (v : VReg) (g : Region) (t : Station) (n : Fin 8), s.ev = .req q.id ∧ Stands s q ∧ q.stage = .reply 0 (.ok v) ∧ q.way =
      [] ∧ s.region? q.voy q.reg = some g ∧ g.st ≠ .halted ∧ q.src = .rules ∧ (∀ c n wr, q.op ≠ .part c n wr) ∧ (∀ j x n wr, q.op ≠ .tree j x n wr) ∧
      s.station? q.st = some t ∧ q.dest = .d n) ∧
    (∃ (s : State) (q : Req) (d : Die), s.ev = .req q.id ∧ Stands s q ∧ q.stage = .home 0 ∧ q.way = [] ∧ q.h.space = .dev ∧ s.die? q.homeDie = some d
      ∧ d.epoch ≠ q.epoch) ∧
    (∃ (s : State) (q : Req) (st : StId) (off x : Nat) (t : Station), s.ev = .req q.id ∧ Stands s q ∧ q.stage = .net 0 ∧ paCls q.va = .window st off ∧
      s.station? st = some t ∧ t.voy = q.voy ∧ q.op.writes = false ∧ t.winHeld off false = false ∧ q.credit = false ∧ q.dest ≠ .none ∧ t.winRead off
      q.bytes = some x ∧ t.wornAt off q.bytes = false) ∧
    (∃ (s : State) (q : Req) (o : Nat), s.ev = .req q.id ∧ Stands s q ∧ q.stage = .net 0 ∧ paCls q.va = .mmio o ∧ q.credit = false ∧ q.op.writes =
      false ∧ o + q.bytes ≤ 0x240 ∧ q.dest ≠ .none) ∧
    (∃ (s : State) (asid : BitVec 16) (p : Participant) (m : Mark), s.ev = .mark asid p ∧ m ∈ s.marks ∧ m.asid = asid ∧ m.who = p ∧ m.mark < 2 ^ 52) ∧
    (∃ (s : State) (q : Req) (w : Nat) (sx st : Bool) (x : Nat), s.ev = .req q.id ∧ Stands s q ∧ q.stage = .settle ∧ q.op = .ldt w sx st ∧ q.dest ≠
      .none ∧ q.stamp.toNat < s.watermark q.asid ∧ s.readAll q = .ok x) ∧
    (∃ (s : State) (q : Req) (w : Word), s.ev = .req q.id ∧ Stands s q ∧ q.stage = .hit w ∧ q.dest ≠ .none) :=
  ⟨⟨on (gens (ag 3 [])) (.agen 0), 0, ag 3 [], by decide +kernel, by decide +kernel, by decide +kernel, by decide +kernel, by decide +kernel,
     by decide +kernel, ok_eq (by decide +kernel)⟩,
   ⟨on (asks (rq (.net 0))) (.req 7), (rq (.net 0)), by decide +kernel, by unfold Stands; decide +kernel, rfl, by decide, rfl, by decide +kernel⟩,
   ⟨on (ported req3) (.req 7), (wholeOf req3).2, req3, (0, 3), partsIn (wholeOf req3).1, opIn (wholeOf req3).1, versIn (wholeOf req3).1,
     by decide +kernel, by unfold Stands; decide +kernel, by decide +kernel, rfl, rfl, by decide +kernel, rfl, rfl, whole_eq (by decide +kernel)⟩,
   ⟨on (asks (rq (.home 0))) (.req 7), (rq (.home 0)), 9 * 2 ^ 16, 8, false, by decide +kernel, rfl, by decide,
     by unfold AtHome Stands; decide +kernel⟩,
   ⟨on (asks (rq (.room 65536))) (.req 7), (rq (.room 65536)), 65536, tc, by decide +kernel, by unfold Stands; decide +kernel, rfl, by decide +kernel⟩,
   ⟨on (asks (rq (.reply 0 (.ok (scalarReg 5))))) (.req 7), (rq (.reply 0 (.ok (scalarReg 5)))), scalarReg 5, fetchRegion, tc, 1, by decide +kernel,
     by unfold Stands; decide +kernel, rfl, rfl, by decide +kernel, by decide, rfl, not_part rfl, not_tree rfl, by decide +kernel, rfl⟩,
   ⟨on (asks req24) (.req 7), req24, (mapped State.reset).dies[0], by decide +kernel, by unfold Stands; decide +kernel, rfl, rfl, rfl,
     by decide +kernel, by decide +kernel⟩,
   ⟨on (asks req32) (.req 7), req32, tc.id, 0x38, 64, tc, by decide +kernel, by unfold Stands; decide +kernel, rfl, by decide +kernel,
     by decide +kernel, by decide +kernel, rfl, by decide +kernel, rfl, by decide, by decide +kernel, by decide +kernel⟩,
   ⟨on (asks req36) (.req 7), req36, 0x238, by decide +kernel, by unfold Stands; decide +kernel, rfl, by decide +kernel, rfl, rfl, by decide +kernel,
     by decide⟩,
   ⟨{ State.reset with marks := [⟨0, .sequencer 0 0, 9, 4, some 0⟩], ev := .mark 0 (.sequencer 0 0) }, 0, .sequencer 0 0, ⟨0, .sequencer 0 0, 9, 4,
     some 0⟩, by decide +kernel⟩,
   ⟨on (asks req19) (.req 7), req19, 8, false, false, 0, by decide +kernel, by unfold Stands; decide +kernel, rfl, rfl, by decide, by decide +kernel,
     ok_eq (by decide +kernel)⟩,
   ⟨on (asks req23) (.req 7), req23, 5, by decide +kernel, by unfold Stands; decide +kernel, rfl, by decide⟩⟩

/-- States and operands that meet the hypotheses of each clause of `PageAndTaskEventsComplete` (part of `MachineEventsComplete`). -/
theorem witness_PageAndTaskEventsComplete :
    (∃ (s w x : State) (id : Nat) (k : Copy) (a b : Int) (n v : Nat), s.ev = .copy id ∧ s.copy? id = some k ∧ k.run = true ∧ k.pos < k.total ∧ k.wait
      = none ∧ (∀ q ∈ s.reqs, ∀ m w, q.op ≠ .part k.id m w) ∧ k.src.h.space ≠ .peer ∧ k.dst.h.space ≠ .peer ∧ k.piece = (a, b, n) ∧ k.read s a n = .ok
      v w ∧ k.write w b n v = .ok () x ∧ x.copy? id = some k) ∧
    (∃ (s : State) (id : Nat) (k : Copy) (t : Station), s.ev = .copy id ∧ s.copy? id = some k ∧ k.run = true ∧ k.total ≤ k.pos ∧ s.station? k.st =
      some t) ∧
    (∃ (s w : State) (q : Req) (i : Instr) (why : Held), (i, why) ∈ [(.firstTouch, .firstTouch), (.copyOnWrite, .copyOnWrite), (.decompress,
      .decompress)] ∧ s.ev = .req q.id ∧ Stands s q ∧ q.stage = .withheld why ∧ q.op.monitor = false ∧ q.parts = [] ∧ s.resolve why q.asid q.va
      q.bytes q.die q.h.comp q.op.reads q.op.writes = .ok w) ∧
    (∃ (s : State) (d k : Nat) (x y : Die), s.ev = .die d ∧ s.die? d = some x ∧ x.pool = [] ∧ (s.borrowOrder d).find? (fun k =>
      match s.die? k with | some x => !x.pool.isEmpty | none => false) = some k ∧ s.die? k = some y) ∧
    (∃ (s : State) (asid : BitVec 16) (va a e : Nat) (c : BitVec 3) (slot : BitVec 22), s.ev = .page asid va c slot ∧ s.walk asid va = .leaf a e ∧
      pteKind e ≠ 1 ∧ pteComp e = true ∧ pteVers e = false ∧ 1 ≤ c.toNat ∧ c.toNat ≤ 4 ∧ descScls (s.desc (pteFrame e)) = 0) ∧
    (∃ (s : State) (f : Nat) (slot : BitVec 22), s.ev = .frame f slot ∧ descScls (s.desc f) ≠ 0) ∧
    (∃ (s : State) (k : BarKey) (m : BarMsg) (n : Nat), s.ev = .bar k ∧ (s.barMsgs.filter fun m => m.key == k && m.left == 0 && m.away.isNone) = [m] ∧
      (s.barEntry k).spilled = false ∧ m.op = .arrive n ∧ (s.barEntry k).exp ≠ 0 ∧ (s.barEntry k).exp.toNat ≤ ((s.barEntry k).arr + 1).toNat ∧
      (s.barEntry k).swaps = []) ∧
    (∃ (s : State) (d n : Nat) (t : Task), s.ev = .task d n ∧ s.nextTask d = some t ∧ s.hostsOf t ≠ []) ∧
    (∃ (s : State) (d id : Nat) (t : Task), s.ev = .task d id ∧ s.task? id = some t ∧ s.commits t = true) ∧
    (∃ (s : State) (d id : Nat) (t : Task), s.ev = .task d id ∧ s.task? id = some t ∧ t.spoiled = true) :=
  ⟨⟨on (copies cp) (.copy 4), sideState piece, sideState piece2, 4, cp, 0x200000, 0x400000, 64, sideVal piece 0, by decide +kernel, by decide +kernel,
     by decide +kernel, by decide +kernel, by decide +kernel, no_reqs rfl, by decide, by decide, by decide +kernel, side_eq (by decide +kernel),
     side_eq (a := ()) (by decide +kernel), by decide +kernel⟩,
   ⟨on (copies { cp with pos := 64 }) (.copy 4), 4, { cp with pos := 64 }, tc, by decide +kernel⟩,
   ⟨on (asks (touches .copyOnWrite 0x20000)) (.req 7), resolved, (touches .copyOnWrite 0x20000), .copyOnWrite, .copyOnWrite, by decide,
     by decide +kernel, by unfold Stands; decide +kernel, rfl, rfl, rfl, ok_getD (d := State.reset) (by decide +kernel)⟩,
   ⟨on (mapped State.reset) (.die 1), 1, 0, (mapped State.reset).dies[1], (mapped State.reset).dies[0], by decide +kernel⟩,
   ⟨on (mapped State.reset) (.page 0 0x70000 4 9), 0, 0x70000, 3 * 2 ^ 16 + 56, 0x99 + 15 * 2 ^ 16, 4, 9, by decide +kernel⟩,
   ⟨on (mapped State.reset) (.frame 12 9), 12, 9, by decide +kernel⟩,
   ⟨on (barrier (.arrive 2) 2 1) (.bar barKey), barKey, barMsg (.arrive 2), 2, by decide +kernel⟩,
   ⟨{ tasks .ready none with stations := [thost], ev := .task 0 0 }, 0, 0, task 3 .ready, by decide +kernel⟩,
   ⟨on (tasks .done none) (.task 0 3), 0, 3, task 3 .done, by decide +kernel⟩,
   ⟨{ State.reset with tasks := [spoiledTask], ev := .task 0 3 }, 0, 3, spoiledTask, by decide +kernel⟩⟩

/-- States and operands that meet the hypotheses of each clause of `HardwareEventsComplete` (part of `DeviceEventsComplete`). -/
theorem witness_HardwareEventsComplete :
    (∃ (s : State) (d : Fin 4) (half : Bool), s.ev = .unit (.link d.val false half)) ∧
    (∃ (s : State) (d : Fin 4) (i : Nat), s.ev = .slice d.val i ∧ s.dies[d].slices.getLsbD i = true ∧ 1 < s.dies[d].sliceCount) ∧
    (∃ (s : State) (d : Fin 4), s.ev = .die d.val ∧ s.state ≠ 0) ∧
    (∃ (s : State) (r : Nat), s.ev = .row r) ∧
    (∃ (s : State) (a b x y : Nat), s.ev = .swap a b ∧ a ≠ b ∧ s.remap.find? (fun e => e.1 == a) = some (a, x) ∧ s.remap.find? (fun e => e.1 == b) =
      some (b, y)) ∧
    (∃ (s : State) (d : Fin 4), s.ev = .unit (.helm d.val) ∧ (s.boot = .train ∨ s.boot = .running) ∧ s.dies[d].live = true) ∧
    (∃ s : State, s.ev = .none) ∧
    (∃ s : State, s.boot = .fetch ∧ 2100000000 ≤ s.bootTime) ∧
    (∃ s : State, s.state = 0 ∧ 4200000000 ≤ s.bootTime) ∧
    (∃ (s : State) (k : Nat), s.ev = .core k ∧ s.state = 0) ∧
    (∃ s : State, MemoryCanonical s ∧ s.pwrmir ≠ 0) :=
  ⟨⟨on State.reset (.unit (.link 3 false true)), 3, true, by decide +kernel⟩,
   ⟨on State.reset (.slice 3 95), 3, 95, by decide +kernel⟩,
   ⟨on (around tc) (.die 3), 3, by decide +kernel⟩,
   ⟨on State.reset (.row 9), 9, by decide +kernel⟩,
   ⟨{ State.reset with remap := [(4, 9), (7, 2)], ev := .swap 4 7 }, 4, 7, 9, 2, by decide +kernel⟩,
   ⟨{ State.reset with boot := .train, ev := .unit (.helm 2) }, 2, by decide +kernel⟩,
   ⟨on State.reset .none, by decide +kernel⟩,
   ⟨{ State.reset with bootTime := 2100000000 }, by decide +kernel⟩,
   ⟨{ State.reset with bootTime := 4200000000 }, by decide +kernel⟩,
   ⟨on State.reset (.core 15), 15, by decide +kernel⟩,
   ⟨{ State.reset with pwrmir := 0x20 }, by unfold MemoryCanonical; decide +kernel, by decide +kernel⟩⟩

/-- States and operands that meet the hypotheses of each clause of `OwnerEventsComplete` (part of `DeviceEventsComplete`). -/
theorem witness_OwnerEventsComplete :
    (∃ (s : State) (m : Nat) (p : BitVec 8) (n : BitVec 32), s.ev = .claim m p n ∧ s.owned = false) ∧
    (∃ s : State, s.window = some 0 ∧ s.claims ≠ []) ∧
    (∃ (s : State) (m : Nat) (v : Word), s.ev = .master m v ∧ s.owned = true ∧ s.owner.toNat = m ∧ s.attached.getLsbD (v.toNat % 16) = true) ∧
    (∃ (s : State) (m : Nat) (v : Word), s.ev = .master m v ∧ s.owned = true ∧ s.owner.toNat = m ∧ v.getLsbD 0 = true) ∧
    (∃ (s : State) (m : Nat) (v : Word), s.ev = .master m v ∧ s.owned = true ∧ s.owner.toNat = m ∧ v.getLsbD 1 = true) ∧
    (∃ (s : State) (m : Nat) (v : Word), s.ev = .reg m 0x1020 v ∧ s.owned = true ∧ s.owner.toNat = m) ∧
    (∃ (s : State) (m off n : Nat) (data : List Byte), MemoryCanonical s ∧ s.ev = .access m off n true data ∧ off + n ≤ 2 ^ 36 ∧ 0 < n ∧ s.cls
      (s.apbase.toNat * 2 ^ 36 + off) = .dev ∧ s.cls (s.apbase.toNat * 2 ^ 36 + off + n - 1) = .dev ∧ s.corrupt (s.apbase.toNat * 2 ^ 36 + off) n =
      false) :=
  ⟨⟨on State.reset (.claim 0 0xFF 0xFFFFFFFF), 0, 0xFF, 0xFFFFFFFF, by decide +kernel⟩,
   ⟨{ State.reset with window := some 0, claims := [⟨2, 7, 5⟩, ⟨1, 7, 5⟩] }, by decide +kernel⟩,
   ⟨on owned (.master 3 8), 3, 8, by decide +kernel⟩,
   ⟨on owned (.master 3 1), 3, 1, by decide +kernel⟩,
   ⟨on owned (.master 3 2), 3, 2, by decide +kernel⟩,
   ⟨on owned (.reg 3 0x1020 5), 3, 5, by decide +kernel⟩,
   ⟨on State.reset (.access 0 (2 ^ 36 - 8) 8 true [1]), 0, 2 ^ 36 - 8, 8, [1], by unfold MemoryCanonical; decide +kernel, by decide +kernel⟩⟩

/-- States and operands that meet the hypotheses of each clause of `MailboxEventsComplete` (part of `DeviceEventsComplete`). -/
theorem witness_MailboxEventsComplete :
    (∃ (s : State) (k : Fin 16) (tag : Byte), ∃ chunk, s.ev = .fw k.val tag s.fw.length chunk false ∧ Started s k tag 1 ∧ k = 0 ∧ s.boot = .fetch ∧
      s.tlboot = false) ∧
    (∃ (s : State) (k : Fin 16) (tag : Byte), ∃ n : BitVec 256, s.ev = .nonce k.val tag n ∧ Started s k tag 2) ∧
    (∃ (s : State) (k : Fin 16) (tag : Byte), ∃ asid p links dev, s.ev = .peer k.val tag asid p links dev ∧ Started s k tag 9 ∧ p < 128) ∧
    ((∃ (s : State) (k : Fin 16) (tag : Byte) (c : Byte) (asid : BitVec 16) (a b : Nat) (fs : List Nat), s.ev = .box k.val tag c asid a b fs ∧ (c = 0
      ∨ 9 < c.toNat) ∧ Started s k tag c) ∧ (∃ (s : State) (k : Fin 16) (tag : Byte) (c : Byte) (asid : BitVec 16) (a b : Nat) (fs : List Nat), s.ev =
      .box k.val tag c asid a b fs ∧ Started s k tag 3 ∧ a < s.frames) ∧ (∃ (s : State) (k : Fin 16) (tag : Byte) (c : Byte) (asid : BitVec 16) (a b :
      Nat) (fs : List Nat), s.ev = .box k.val tag c asid a b fs ∧ Started s k tag 4 ∧ a % 2 ^ 31 = 0 ∧ a + 2 ^ 47 ≤ 2 ^ 55) ∧ (∃ (s : State) (k : Fin
      16) (tag : Byte) (c : Byte) (asid : BitVec 16) (a b : Nat) (fs : List Nat), s.ev = .box k.val tag c asid a b fs ∧ Started s k tag 5 ∧ (∀ v ∈
      s.voyages, v.asid = asid → v.ended = true) ∧ a % 2 ^ 16 = 0 ∧ a + b * 2 ^ 16 ≤ 2 ^ 55 ∧ b = 1 ∧ s.finishing asid a b = false) ∧ (∃ (s : State)
      (k : Fin 16) (tag : Byte) (c : Byte) (asid : BitVec 16) (a b : Nat) (fs : List Nat), s.ev = .box k.val tag c asid a b fs ∧ ∃ d : Fin 4, Started
      s k tag 6 ∧ a = d.val ∧ s.dieLive d.val = true ∧ fs.length ≤ 64 ∧ ∀ f ∈ fs, frameHome f = d.val ∧ f < s.frames) ∧ (∃ (s : State) (k : Fin 16)
      (tag : Byte) (c : Byte) (asid : BitVec 16) (a b : Nat) (fs : List Nat), s.ev = .box k.val tag c asid a b fs ∧ ∃ x, s.saved.find? (fun e => e.1
      == a) = some (a, x) ∧ (∀ v ∈ s.voyages, v.save ≠ a) ∧ Started s k tag 7 ∧ x.complete = true ∧ ∀ l ∈ s.launches, l.resume ≠ some a) ∧ (∃ (s :
      State) (k : Fin 16) (tag : Byte) (c : Byte) (asid : BitVec 16) (a b : Nat) (fs : List Nat), s.ev = .box k.val tag c asid a b fs ∧ ∃ x,
      s.saved.find? (fun e => e.1 == a) = some (a, x) ∧ (∀ v ∈ s.voyages, v.save ≠ a) ∧ Started s k tag 8)) :=
  ⟨⟨on (begun State.reset 0 1) (.fw 0 0 0 [1, 2] false), 0, 0, [1, 2], rfl, by unfold Started; decide +kernel, rfl, rfl, rfl⟩,
   ⟨on (begun State.reset 14 2) (.nonce 14 0 5), 14, 0, 5, rfl, by unfold Started; decide +kernel⟩,
   ⟨on (begun State.reset 14 9) (.peer 14 0 0 127 0xFFFF 7), 14, 0, 0, 127, 0xFFFF, 7, rfl, by unfold Started; decide +kernel, by decide⟩,
   ⟨⟨on (begun State.reset 14 10) (.box 14 0 10 0 0 0 []), 14, 0, 10, 0, 0, 0, [], rfl, .inr (by decide), by unfold Started; decide +kernel⟩, ⟨on
     (begun State.reset 14 3) (.box 14 0 3 0 7 0 []), 14, 0, 3, 0, 7, 0, [], rfl, by unfold Started; decide +kernel, by decide +kernel⟩, ⟨on (begun
     State.reset 14 4) (.box 14 0 4 0 (2 ^ 55 - 2 ^ 47) 0 []), 14, 0, 4, 0, (2 ^ 55 - 2 ^ 47), 0, [], rfl, by unfold Started; decide +kernel,
     by decide +kernel, by decide +kernel⟩, ⟨on (begun State.reset 14 5) (.box 14 0 5 0 (2 ^ 55 - 2 ^ 16) 1 []), 14, 0, 5, 0, (2 ^ 55 - 2 ^ 16), 1,
     [], rfl, by unfold Started; decide +kernel, by decide +kernel, by decide +kernel, by decide +kernel, rfl, by decide +kernel⟩, ⟨on (begun
     State.reset 14 6) (.box 14 0 6 0 3 0 [3 * dieFrames]), 14, 0, 6, 0, 3, 0, [3 * dieFrames], rfl, 3, by unfold Started; decide +kernel, rfl,
     by decide +kernel⟩, ⟨on (begun ({ State.reset with saved := [(0, savedVoyage)] }) 14 7) (.box 14 0 7 0 0 0 []), 14, 0, 7, 0, 0, 0, [], rfl,
     savedVoyage, rfl, by decide +kernel, by unfold Started; decide +kernel, by decide +kernel⟩, ⟨on (begun ({ State.reset with saved := [(0,
     savedVoyage)] }) 14 8) (.box 14 0 8 0 0 0 []), 14, 0, 8, 0, 0, 0, [], rfl, savedVoyage, rfl, by decide +kernel,
     by unfold Started; decide +kernel⟩⟩⟩

set_option maxRecDepth 100000 in
/-- States and operands that meet the hypotheses of each clause of `FlitEventsComplete` (part of `DeviceEventsComplete`). -/
theorem witness_FlitEventsComplete :
    (∃ (s : State) (n : Fin 16) (w : List Byte) (f : Flit), s.ev = .flit n.val w ∧ InSequence s n w f 0) ∧
    (∃ (s : State) (n : Fin 16) (w : List Byte) (f : Flit), s.ev = .flit n.val w ∧ ∃ (r : Route) (h : Hop) (hs : List Hop), InSequence s n w f 1 ∧
      s.inboundEdge n.val f.key = some r ∧ s.routeId? r.id = some r ∧ r.hops = h :: hs ∧ s.flows r = true ∧ 0 < h.fifo.room) ∧
    (∃ (s : State) (n : Fin 16) (w : List Byte) (f : Flit), s.ev = .flit n.val w ∧ ∃ (x : State) (b : Peer) (r : Except FaultC Nat), InSequence s n w
      f 2 ∧ (s.bindings.find? fun b => b.links.getLsbD n.val && b.peer == fld f.key.toNat 0 7) = some b ∧ (taken s n w f).serveFlit b.asid (ofBytes
      f.body) = some (r, x) ∧ x.links[n].up = true ∧ x.links[n].waiting = [] ∧ x.links[n].unacked.length < 1024) ∧
    (∃ (s : State) (n : Fin 16) (w : List Byte) (f : Flit), s.ev = .flit n.val w ∧ ∃ q : Req, InSequence s n w f 3 ∧ (s.reqs.find? fun q => q.stage ==
      .peer (fld (ofBytes f.body) 8 8) && q.port == some (fld (ofBytes f.body) 16 2, fld (ofBytes f.body) 0 7)) = some q ∧ fld (ofBytes f.body) 64 8 =
      0 ∧ Stands s q ∧ q.dest ≠ .none ∧ q.op.writes = false ∧ (∀ c m w, q.op ≠ .part c m w)) ∧
    (∃ (s : State) (n : Fin 16) (w : List Byte) (f : Flit), s.ev = .flit n.val w ∧ InSequence s n w f 4) ∧
    (∃ (s : State) (n : Fin 16) (w : List Byte) (f : Flit), s.ev = .flit n.val w ∧ InSequence s n w f 5 ∧ s.joinRoute f (decide (fld (ofBytes f.body)
      80 8 = 0)) = none) ∧
    (∃ (s : State) (n : Fin 16) (w : List Byte) (f : Flit), s.ev = .flit n.val w ∧ n = 0 ∧ InSequence s n w f 6 ∧ s.tlboot = true ∧ s.boot = .fetch ∧
      fld (ofBytes f.body) 0 64 = s.fw.length ∧ 1 ≤ fld (ofBytes f.body) 64 32 ∧ fld (ofBytes f.body) 64 32 ≤ 96 ∧ (ofBytes f.body).testBit 96 =
      false) ∧
    (∃ (s : State) (n : Fin 16) (w : List Byte), s.ev = .flit n.val w ∧ Flit.ofWire w = none ∧ Open s n) ∧
    (∃ (s : State) (n : Fin 16), s.ev = .link n.val ∧ s.links[n].unacked ≠ [] ∧ 8400 ≤ s.links[n].timer) :=
  ⟨⟨on (linked) (.flit 0 (flit 0 0).wire), 0, (flit 0 0).wire, flit 0 0, rfl, by unfold InSequence Open; decide +kernel⟩,
   ⟨on (joined 0) (.flit 0 (flit 1 9).wire), 0, (flit 1 9).wire, flit 1 9, rfl, edgeRoute 0, ⟨.mesh, ⟨4, [], 0⟩, 0, false, none⟩, [],
     by unfold InSequence Open; decide +kernel, by decide +kernel⟩,
   ⟨on (joined 0) (.flit 0 ({ flit 2 5 with body := bytesOf 116 (0x200000 + 8 * 2 ^ 144) }).wire), 0, ({ flit 2 5 with body := bytesOf 116 (0x200000 +
     8 * 2 ^ 144) }).wire, { flit 2 5 with body := bytesOf 116 (0x200000 + 8 * 2 ^ 144) }, rfl, served (b := ⟨0, 5, 1, 7⟩)
     (by unfold InSequence Open; decide +kernel) (by decide +kernel) (by decide +kernel)⟩,
   ⟨on (answered (rq (.peer 2))) (.flit 0 ({ flit 3 0 with body := bytesOf 116 (3 + 2 * 2 ^ 8) }).wire), 0, ({ flit 3 0 with body := bytesOf 116 (3 +
     2 * 2 ^ 8) }).wire, { flit 3 0 with body := bytesOf 116 (3 + 2 * 2 ^ 8) }, rfl, rq (.peer 2), by unfold InSequence Open; decide +kernel,
     by decide +kernel, by decide +kernel, by unfold Stands; decide +kernel, by decide, by decide, not_part rfl⟩,
   ⟨on (linked) (.flit 0 (flit 4 0).wire), 0, (flit 4 0).wire, flit 4 0, rfl, by unfold InSequence Open; decide +kernel⟩,
   ⟨on (linked) (.flit 0 ({ flit 5 0 with body := joinBytes }).wire), 0, ({ flit 5 0 with body := joinBytes }).wire, { flit 5 0 with body := joinBytes
     }, rfl, by unfold InSequence Open; decide +kernel, by decide +kernel⟩,
   ⟨on ({ linked with tlboot := true }) (.flit 0 (bootFlit).wire), 0, (bootFlit).wire, bootFlit, rfl, rfl, by unfold InSequence Open; decide +kernel,
     by decide +kernel⟩,
   ⟨on linked (.flit 0 []), 0, [], rfl, by decide +kernel, by unfold Open; decide +kernel⟩,
   ⟨on (unacked 8400) (.link 0), 0, by decide +kernel⟩⟩

end Sys2Proof.Tests
end

