-- ==== Sys2Proof/Proofs/Cadastre.lean ====
section
/-! SUPPORT. What the Cadastre changes as it resolves a page for a Helm, and so what a read of a Helm leaves alone (R243, R256-R259, R469). -/

namespace Sys2Proof.Machine

open Sys2Proof

/-! ### A relation along a fold -/

/-- A fold whose steps each stay in a reflexive, transitive relation to where they start. -/
theorem foldl_rel {α β : Type} {R : β → β → Prop} (refl : ∀ b, R b b) (trans : ∀ {a b c}, R a b → R b c → R a c) {f : β → α → β}
    (step : ∀ b x, R b (f b x)) (l : List α) (b : β) : R b (l.foldl f b) :=
  List.foldlRecOn l f (motive := R b) (refl b) fun _ h x _ => trans h (step _ x)

/-- The same of a fold that may fail. -/
theorem foldlM_rel {α β ε : Type} {R : β → β → Prop} (refl : ∀ b, R b b) (trans : ∀ {a b c}, R a b → R b c → R a c)
    {f : β → α → Except ε β}
    (step : ∀ {b x c}, f b x = .ok c → R b c) : ∀ (l : List α) {b c : β}, l.foldlM f b = .ok c → R b c
  | [], b, c, h => by cases h; exact refl b
  | x :: l, b, c, h => by
    rw [List.foldlM_cons] at h
    cases hx : f b x with
    | error e => rw [hx] at h; cases h
    | ok d => rw [hx] at h; exact trans (step hx) (foldlM_rel refl trans step l h)

/-- Two accesses in a row: the first has answered. -/
theorem bind_ok {ε α β : Type} {x : Except ε α} {f : α → Except ε β} {b : β} (h : x.bind f = .ok b) : ∃ a, x = .ok a ∧ f a = .ok b := by
  cases x with
  | error e => cases h
  | ok a => exact ⟨a, rfl, h⟩

theorem map_ok {ε α β : Type} {x : Except ε α} {f : α → β} {b : β} (h : x.map f = .ok b) : ∃ a, x = .ok a ∧ f a = b := by
  cases x with
  | error e => cases h
  | ok a => cases h; exact ⟨a, rfl, rfl⟩

/-! ### The frame of a resolution -/

/-- From `s` to `t` nothing changes but what the memory system keeps: bytes of device memory with what L2 holds, frame descriptors, pools, TLBs, settle marks;
and the free values. -/
structure MemFrame (s t : State) : Prop where
  (grade : t.grade = s.grade) (time : t.time = s.time) (nextId : t.nextId = s.nextId) (agenda : t.agenda = s.agenda) (ev : t.ev = s.ev)
  (inputs : t.inputs = s.inputs) (firing : t.firing = s.firing) (stations : t.stations = s.stations) (routes : t.routes = s.routes)
  (agens : t.agens = s.agens) (voyages : t.voyages = s.voyages) (launches : t.launches = s.launches) (queues : t.queues = s.queues)
  (reqs : t.reqs = s.reqs) (paths : t.paths = s.paths) (copies : t.copies = s.copies) (domains : t.domains = s.domains) (bars : t.bars = s.bars)
  (barMsgs : t.barMsgs = s.barMsgs) (tasks : t.tasks = s.tasks) (watermarks : t.watermarks = s.watermarks)
  (cells : t.cells = s.cells) (host : t.host = s.host) (roots : t.roots = s.roots) (saveBases : t.saveBases = s.saveBases)
  (saved : t.saved = s.saved) (bad : t.bad = s.bad) (remap : t.remap = s.remap) (sliceOver : t.sliceOver = s.sliceOver) (state : t.state = s.state)
  (bootrsn : t.bootrsn = s.bootrsn) (failcnt : t.failcnt = s.failcnt) (boot : t.boot = s.boot) (bootTime : t.bootTime = s.bootTime)
  (tlboot : t.tlboot = s.tlboot) (fw : t.fw = s.fw) (log : t.log = s.log) (pilots : t.pilots = s.pilots) (arbiter : t.arbiter = s.arbiter)
  (owned : t.owned = s.owned) (owner : t.owner = s.owner) (herr : t.herr = s.herr) (attached : t.attached = s.attached)
  (claims : t.claims = s.claims) (window : t.window = s.window) (apbase : t.apbase = s.apbase) (sbquery : t.sbquery = s.sbquery)
  (pwrlim : t.pwrlim = s.pwrlim) (pwrnow : t.pwrnow = s.pwrnow) (shares : t.shares = s.shares) (pwrmir : t.pwrmir = s.pwrmir)
  (pwrseq : t.pwrseq = s.pwrseq) (mailboxes : t.mailboxes = s.mailboxes) (asks : t.asks = s.asks) (vectors : t.vectors = s.vectors)
  (answer : t.answer = s.answer) (links : t.links = s.links) (bindings : t.bindings = s.bindings) (joins : t.joins = s.joins)
  (rots : t.rots = s.rots)

theorem MemFrame.refl (s : State) : MemFrame s s := by constructor <;> rfl

theorem MemFrame.trans {s t u : State} (h : MemFrame s t) (k : MemFrame t u) : MemFrame s u := by
  cases h; cases k; constructor <;> simp_all

section
variable (s : State)

theorem State.modDie_memFrame (d : Nat) (f : Die → Die) : MemFrame s (s.modDie d f) := by
  unfold State.modDie
  split
  · constructor <;> rfl
  · exact .refl s

theorem State.remark_memFrame (f : Nat) : MemFrame s (s.remark f) := by constructor <;> rfl
theorem State.setEntry_memFrame (asid : BitVec 16) (va a e : Nat) : MemFrame s (s.setEntry asid va a e) := by constructor <;> rfl
theorem State.zeroFrame_memFrame (f : Nat) : MemFrame s (s.zeroFrame f) := by constructor <;> rfl
theorem State.copyFrame_memFrame (a b : Nat) : MemFrame s (s.copyFrame a b) := by constructor <;> rfl
theorem State.setDesc_memFrame (f w : Nat) : MemFrame s (s.setDesc f w) := by constructor <;> rfl
theorem State.modDesc_memFrame (f : Nat) (g : Nat → Nat) : MemFrame s (s.modDesc f g) := s.setDesc_memFrame f _

theorem State.dropRef_memFrame (f : Nat) : MemFrame s (s.dropRef f) := by
  unfold State.dropRef
  dsimp only
  split
  · exact (((s.remark_memFrame f).trans (State.setDesc_memFrame _ _ _)).trans (State.modDesc_memFrame _ _ _)).trans (State.modDie_memFrame _ _ _)
  · exact (s.remark_memFrame f).trans (State.setDesc_memFrame _ _ _)

theorem State.takeFrame_memFrame {d f : Nat} {t : State} (h : s.takeFrame d = some (f, t)) : MemFrame s t := by
  unfold State.takeFrame at h
  split at h
  · cases h
    exact ((s.modDie_memFrame d _).trans (State.modDesc_memFrame _ _ _)).trans (State.remark_memFrame _ _)
  · cases h

theorem State.frameFor_memFrame {d f : Nat} {t : State} (h : s.frameFor d = .ok (f, t)) : MemFrame s t := by
  unfold State.frameFor at h
  split at h
  · cases h; exact s.takeFrame_memFrame ‹_›
  · cases h

theorem State.firstTouch_memFrame {asid : BitVec 16} {va fb : Nat} {c : Bool} {t : State} (h : s.firstTouch asid va fb c = .ok t) : MemFrame s t := by
  unfold State.firstTouch at h
  dsimp only at h
  split at h
  · split at h
    · cases h; exact .refl s
    · split at h <;> cases h
      exact ((s.frameFor_memFrame ‹_›).trans (State.zeroFrame_memFrame _ _)).trans (State.setEntry_memFrame _ _ _ _ _)
  · cases h; exact .refl s

theorem State.copyOnWrite_memFrame {asid : BitVec 16} {va : Nat} {t : State} (h : s.copyOnWrite asid va = .ok t) : MemFrame s t := by
  unfold State.copyOnWrite at h
  dsimp only at h
  split at h
  · split at h
    · cases h; exact .refl s
    · split at h
      · cases h; exact (s.setEntry_memFrame _ _ _ _).trans (State.remark_memFrame _ _)
      · split at h <;> cases h
        exact ((s.frameFor_memFrame ‹_›).trans (State.copyFrame_memFrame _ _ _)).trans
          ((State.dropRef_memFrame _ _).trans (State.setEntry_memFrame _ _ _ _ _))
  · cases h; exact .refl s

theorem State.decompress_memFrame {asid : BitVec 16} {va : Nat} {t : State} (h : s.decompress asid va = .ok t) : MemFrame s t := by
  unfold State.decompress at h
  dsimp only at h
  split at h
  · split at h
    · cases h; exact .refl s
    · split at h <;> cases h
      exact ((s.frameFor_memFrame ‹_›).trans (State.copyFrame_memFrame _ _ _)).trans
          ((State.dropRef_memFrame _ _).trans (State.setEntry_memFrame _ _ _ _ _))
  · cases h; exact .refl s

/-- The pages that a Helm's access has resolved on its way. -/
theorem State.helmPage_go_memFrame {die : Nat} {asid : BitVec 16} {va : Nat} {wr c : Bool} :
    ∀ (n : Nat) {s t : State} {pa : Nat}, State.helmPage.go die asid va wr c n s = .ok (pa, t) → MemFrame s t
  | 0, s, t, pa, h => by cases h
  | n + 1, s, t, pa, h => by
    have again {r : Except Miss State} (hr : ∀ u, r = .ok u → MemFrame s u)
        (h : (match r with | .ok s => State.helmPage.go die asid va wr c n s | .error (.frames d) => .error (.frames d) | .error _ => .error .fail) =
          Except.ok (pa, t)) : MemFrame s t := by
      cases r with
      | error m => cases m <;> cases h
      | ok u => exact (hr u rfl).trans (State.helmPage_go_memFrame n h)
    rw [State.helmPage.go] at h
    split at h
    · split at h
      · cases h
      · dsimp only at h
        split at h
        · split at h
          · cases h; exact .refl s
          · cases h
        · exact again (fun _ => s.firstTouch_memFrame) h
        · exact again (fun _ => s.copyOnWrite_memFrame) h
        · exact again (fun _ => s.decompress_memFrame) h
        · cases h
    · cases h

theorem State.helmPage_memFrame {die : Nat} {asid : BitVec 16} {va : Nat} {wr c : Bool} {t : State} {pa : Nat}
    (h : s.helmPage die asid va wr c = .ok (pa, t)) : MemFrame s t := by
  unfold State.helmPage at h
  split at h
  · cases h
  · exact State.helmPage_go_memFrame 4 h

theorem State.helmRead_memFrame {die : Nat} {asid : BitVec 16} {va n x : Nat} {c : Bool} {t : State}
    (h : s.helmRead die asid va n c = .ok (x, t)) : MemFrame s t := by
  refine foldlM_rel (R := fun (a b : Nat × State) => MemFrame a.2 b.2) (fun _ => .refl _) (fun h k => h.trans k) ?_ _ h
  rintro ⟨x, s⟩ ⟨a, m⟩ ⟨y, t⟩ h
  obtain ⟨⟨pa, u⟩, hu, h⟩ := bind_ok h
  dsimp only at h
  split at h <;> cases h
  exact s.helmPage_memFrame hu

theorem State.readImage_memFrame {asid : BitVec 16} {va : Nat} {m : Img} {t : State} (h : s.readImage asid va = .ok (m, t)) : MemFrame s t := by
  obtain ⟨⟨x, u⟩, hu, h⟩ := bind_ok h
  obtain ⟨⟨y, w⟩, hw, h⟩ := bind_ok h
  cases h
  exact (s.helmRead_memFrame hu).trans (State.helmRead_memFrame _ hw)

theorem State.raiseMark_memFrame (asid : BitVec 16) (p : Participant) (v : Nat) : MemFrame s (s.raiseMark asid p v) := by
  unfold State.raiseMark
  split
  · constructor <;> rfl
  · exact .refl s

theorem State.leaveMarks_memFrame (v : Voyage) (r : Region) : MemFrame s (s.leaveMarks v r) := by
  have h : MemFrame s ((s.domains.filter fun d => d.voy == v.id && d.reg == r.idx).foldl
      (fun s d => s.raiseMark v.asid (.domain v.id d.num) markAll) s) :=
    foldl_rel .refl .trans (fun s d => s.raiseMark_memFrame _ _ _) _ s
  unfold State.leaveMarks
  dsimp only
  split
  · exact h
  · exact h.trans (State.raiseMark_memFrame _ _ _ _)

theorem State.discardLine_memFrame (n : Nat) : MemFrame s (s.discardLine n) := by
  unfold State.discardLine
  split
  · exact .refl s
  · refine MemFrame.trans ?_ (foldl_rel .refl .trans (fun s i => ?_) _ _)
    · constructor <;> rfl
    · dsimp only
      split
      · constructor <;> rfl
      · constructor <;> rfl

theorem State.discardSpan_memFrame (asid : BitVec 16) (a n : Nat) : MemFrame s (s.discardSpan asid a n) := by
  unfold State.discardSpan
  split
  · split
    · exact .refl s
    · exact foldl_rel .refl .trans (fun s i => s.discardLine_memFrame i) _ _
  · exact .refl s

theorem State.discardPages_memFrame (asid : BitVec 16) (h : HEntry) (a n : Nat) : MemFrame s (s.discardPages asid h a n) := by
  unfold State.discardPages
  dsimp only
  split
  · exact .refl s
  · exact foldl_rel .refl .trans (fun s p => s.discardSpan_memFrame asid p.1 p.2) _ _

end

end Sys2Proof.Machine
end

