-- ==== Sys2Proof/Proofs/Helm.lean ====
section
/-! SUPPORT. What a Helm's writes leave alone, and what a voyage's owed writes come to (R41, R290, R437, R469). -/

namespace Sys2Proof.Machine

open Sys2Proof

/-! ### The frame of a Helm's writes -/

/-- The voyage without the writes that its Helms still owe. -/
def Voyage.unowed (v : Voyage) : Voyage := { v with owed := [] }

section
variable {v w : Voyage} (h : w.unowed = v.unowed)
include h

theorem Voyage.unowed_id : w.id = v.id := (congrArg Voyage.id h :)
theorem Voyage.unowed_queue : w.queue = v.queue := (congrArg Voyage.queue h :)
theorem Voyage.unowed_asid : w.asid = v.asid := (congrArg Voyage.asid h :)
theorem Voyage.unowed_pkt : w.pkt = v.pkt := (congrArg Voyage.pkt h :)
theorem Voyage.unowed_regions : w.regions = v.regions := (congrArg Voyage.regions h :)
theorem Voyage.unowed_pool : w.pool = v.pool := (congrArg Voyage.pool h :)
theorem Voyage.unowed_frozen : w.frozen = v.frozen := (congrArg Voyage.frozen h :)
theorem Voyage.unowed_drain : w.drain = v.drain := (congrArg Voyage.drain h :)
theorem Voyage.unowed_ended : w.ended = v.ended := (congrArg Voyage.ended h :)
theorem Voyage.unowed_halted : w.halted = v.halted := congrArg (List.any · _) (Voyage.unowed_regions h)
theorem Voyage.unowed_retired : w.retired = v.retired := congrArg (List.all · _) (Voyage.unowed_regions h)
theorem Voyage.unowed_region? (k : Nat) : w.region? k = v.region? k := congrArg (List.find? _) (Voyage.unowed_regions h)

end

/-- The same voyages, but for the writes that their Helms owe. -/
def SameVoyages (s t : State) : Prop := t.voyages.map Voyage.unowed = s.voyages.map Voyage.unowed

theorem SameVoyages.refl (s : State) : SameVoyages s s := rfl
theorem SameVoyages.trans {s t u : State} (h : SameVoyages s t) (k : SameVoyages t u) : SameVoyages s u := Eq.trans k h
theorem SameVoyages.of_eq {s t : State} (h : t.voyages = s.voyages) : SameVoyages s t := congrArg (List.map Voyage.unowed) h

/-- A voyage of the later state is one of the earlier. -/
theorem SameVoyages.mem {s t : State} (h : SameVoyages s t) {w : Voyage} (hw : w ∈ t.voyages) : ∃ v ∈ s.voyages, v.unowed = w.unowed :=
  List.mem_map.1 (h ▸ List.mem_map_of_mem hw)

theorem SameVoyages.symm {s t : State} (h : SameVoyages s t) : SameVoyages t s := Eq.symm h

theorem State.unowed_voyage? (s : State) (v : Nat) : (s.voyage? v).map Voyage.unowed = (s.voyages.map Voyage.unowed).find? fun u => u.id == v := by
  rw [List.find?_map]; rfl

/-- A voyage stands in the later state as it stood in the earlier. -/
theorem SameVoyages.voyage? {s t : State} (h : SameVoyages s t) {v : Nat} {u : Voyage} (hu : s.voyage? v = some u) :
    ∃ w, t.voyage? v = some w ∧ w.unowed = u.unowed := by
  have := t.unowed_voyage? v
  rw [show t.voyages.map Voyage.unowed = _ from h, ← s.unowed_voyage? v, hu] at this
  exact Option.map_eq_some_iff.1 this

/-- From `s` to `t` nothing changes but what a Helm's writes do: memory and what resolutions take, monitors that are hit, the polls of dependency waits, the
writes that voyages owe, and what is asked of pools. -/
structure HelmFrame (s t : State) : Prop where
  (grade : t.grade = s.grade) (time : t.time = s.time) (nextId : t.nextId = s.nextId) (ev : t.ev = s.ev) (inputs : t.inputs = s.inputs)
  (firing : t.firing = s.firing) (stations : t.stations = s.stations) (routes : t.routes = s.routes) (agens : t.agens = s.agens)
  (launches : t.launches = s.launches) (paths : t.paths = s.paths) (copies : t.copies = s.copies) (domains : t.domains = s.domains)
  (bars : t.bars = s.bars) (barMsgs : t.barMsgs = s.barMsgs) (tasks : t.tasks = s.tasks) (watermarks : t.watermarks = s.watermarks)
  (cells : t.cells = s.cells) (host : t.host = s.host) (roots : t.roots = s.roots) (saveBases : t.saveBases = s.saveBases)
  (saved : t.saved = s.saved) (bad : t.bad = s.bad) (remap : t.remap = s.remap) (sliceOver : t.sliceOver = s.sliceOver) (state : t.state = s.state)
  (bootrsn : t.bootrsn = s.bootrsn) (failcnt : t.failcnt = s.failcnt) (boot : t.boot = s.boot) (bootTime : t.bootTime = s.bootTime)
  (tlboot : t.tlboot = s.tlboot) (fw : t.fw = s.fw) (log : t.log = s.log) (pilots : t.pilots = s.pilots) (arbiter : t.arbiter = s.arbiter)
  (owned : t.owned = s.owned) (owner : t.owner = s.owner) (herr : t.herr = s.herr) (attached : t.attached = s.attached)
  (claims : t.claims = s.claims) (window : t.window = s.window) (apbase : t.apbase = s.apbase) (sbquery : t.sbquery = s.sbquery)
  (pwrlim : t.pwrlim = s.pwrlim) (pwrnow : t.pwrnow = s.pwrnow) (shares : t.shares = s.shares) (pwrmir : t.pwrmir = s.pwrmir)
  (pwrseq : t.pwrseq = s.pwrseq) (mailboxes : t.mailboxes = s.mailboxes) (asks : t.asks = s.asks) (vectors : t.vectors = s.vectors)
  (answer : t.answer = s.answer) (links : t.links = s.links) (bindings : t.bindings = s.bindings) (joins : t.joins = s.joins)
  (rots : t.rots = s.rots)
  (voyages : SameVoyages s t)
  (reqs : ∀ q ∈ t.reqs, ∃ p ∈ s.reqs, p.voy = q.voy ∧ p.heldBack = q.heldBack)

theorem MemFrame.helm {s t : State} (h : MemFrame s t) : HelmFrame s t :=
  { h with voyages := .of_eq h.voyages, reqs := fun q hq => ⟨q, h.reqs ▸ hq, rfl, rfl⟩ }

theorem HelmFrame.refl (s : State) : HelmFrame s s := (MemFrame.refl s).helm

theorem HelmFrame.trans {s t u : State} (h : HelmFrame s t) (k : HelmFrame t u) : HelmFrame s u := by
  have voyages := h.voyages.trans k.voyages
  have reqs : ∀ q ∈ u.reqs, ∃ p ∈ s.reqs, p.voy = q.voy ∧ p.heldBack = q.heldBack := fun q hq => by
    obtain ⟨p, hp, pv, ph⟩ := k.reqs q hq
    obtain ⟨o, ho, ov, oh⟩ := h.reqs p hp
    exact ⟨o, ho, ov.trans pv, oh.trans ph⟩
  cases h; cases k
  constructor <;> simp_all

section
variable (s : State)

theorem State.soon_helm (i : Instr) (a : EvArg) : HelmFrame s (s.soon i a) := by
  constructor
  case reqs => exact fun q hq => ⟨q, hq, rfl, rfl⟩
  all_goals rfl

/-- A request that a store wakes is neither further from its port nor nearer to it. -/
theorem State.wake_helm (pa n : Nat) : HelmFrame s (s.wake pa n) := by
  constructor
  case reqs =>
    intro q hq
    obtain ⟨p, hp, rfl⟩ := List.mem_map.1 hq
    refine ⟨p, hp, ?_⟩
    split
    · split
      · dsimp only
        split
        · split
          · exact ⟨rfl, rfl⟩
          · simp [Req.heldBack, *]
        · simp [Req.heldBack, *]
      · exact ⟨rfl, rfl⟩
    · exact ⟨rfl, rfl⟩
  all_goals rfl

theorem State.storeHome_helm (pa n x : Nat) : HelmFrame s (s.storeHome pa n x) := by
  unfold State.storeHome
  split
  · exact .refl s
  · refine HelmFrame.trans (MemFrame.helm ?_) (State.wake_helm _ pa n)
    constructor <;> rfl

theorem State.helmStore_helm {die : Nat} {asid : BitVec 16} {va n x : Nat} {t : State} (h : s.helmStore die asid va n x = .ok t) : HelmFrame s t := by
  refine foldlM_rel HelmFrame.refl HelmFrame.trans ?_ _ h
  rintro s ⟨a, m⟩ t h
  obtain ⟨⟨pa, u⟩, hu, h⟩ := bind_ok h
  dsimp only at h
  split at h <;> cases h
  exact (s.helmPage_memFrame hu).helm.trans (State.storeHome_helm _ _ _ _)

/-- Owed writes that perform, wait or are lost. -/
theorem State.flush_helm : ∀ (ws : List Owed) (s : State), HelmFrame s (State.flush ws s).2
  | [], s => .refl s
  | w :: r, s => by
    rw [State.flush]
    split
    · exact (s.helmStore_helm ‹_›).trans (State.flush_helm r _)
    · exact s.soon_helm _ _
    · exact State.flush_helm r s

theorem State.modOwed_helm (v : Nat) (ws : List Owed) : HelmFrame s (s.modVoyage v fun u => { u with owed := ws }) := by
  constructor
  case reqs => exact fun q hq => ⟨q, hq, rfl, rfl⟩
  case voyages =>
    show (s.voyages.map _).map _ = _
    rw [List.map_map]
    refine List.map_congr_left fun u _ => ?_
    show Voyage.unowed (if _ then _ else _) = _
    split <;> rfl
  all_goals rfl

theorem State.owe_helm (v : Nat) (ws : List Owed) : HelmFrame s (s.owe v ws) := by
  unfold State.owe
  split
  · exact .refl s
  · exact (State.flush_helm _ s).trans (State.modOwed_helm _ _ _)

end

end Sys2Proof.Machine
end

