-- ==== Sys2Proof/Proofs/Queues.lean ====
section
/-! SUPPORT. The queue registers after an update, what processing a packet comes to (R38-R43), and the proof that queues read their packets as Table 2.4
says. -/

namespace Sys2Proof.Machine

open Sys2Proof Sys2Proof.Claims

section
variable (s : State) (n : Nat)

/-! ### Reading a queue after writing one -/

theorem State.queue_n : (s.queue n).n = n := by
  unfold State.queue
  cases h : s.queues.find? fun k => k.n == n with
  | none => rfl
  | some k => simpa using List.find?_some h

theorem State.queue_congr {s t : State} (h : t.queues = s.queues) (n : Nat) : t.queue n = s.queue n := by
  unfold State.queue
  rw [h]

/-- The queue that was written, and the others. -/
theorem State.modQueue_queue (f : Queue → Queue) : (s.modQueue n f).queue n = { f (s.queue n) with n := n } := by
  simp [State.queue, State.modQueue]

theorem State.modQueue_queue_ne (f : Queue → Queue) {k : Nat} (h : k ≠ n) : (s.modQueue n f).queue k = s.queue k := by
  have hd : (n == k) = false := by simp [Ne.symm h]
  simp only [State.queue, State.modQueue, List.find?_cons, hd]
  rw [List.find?_filter]
  congr 2
  funext q
  by_cases hq : q.n = k
  · simp [hq, h]
  · simp [hq]

theorem State.stopQueue_queue (c : Byte) : (s.stopQueue n c).queue n = { s.queue n with stop := true, err := c, wait := .none } :=
  (State.modQueue_queue _ n _).trans
    (congrArg (fun m => { s.queue n with n := m, stop := true, err := c, wait := QWait.none }) (s.queue_n n).symm)

theorem State.stopQueue_queue_ne (c : Byte) {k : Nat} (h : k ≠ n) : (s.stopQueue n c).queue k = s.queue k := State.modQueue_queue_ne _ n _ h

theorem State.passPacket_queue : (s.passPacket n).queue n = { s.queue n with rd := (s.queue n).rd + 1, wait := .none } := by
  rw [State.passPacket, State.modQueue_queue]
  simp only [State.queue_n]

theorem State.passPacket_queue_ne {k : Nat} (h : k ≠ n) : (s.passPacket n).queue k = s.queue k := s.modQueue_queue_ne n _ h

end

end Sys2Proof.Machine

namespace Sys2Proof.Claims

open Sys2Proof Sys2Proof.Machine

/-! ### Reading a packet -/

/-- A packet that has been read leaves the queues alone. -/
theorem nextPacket_memFrame {s w : State} {k : Queue} {p : Packet} (h : s.nextPacket k = .packet p w) : MemFrame s w := by
  unfold State.nextPacket at h
  split at h
  · cases h
  · split at h
    · cases h
    · split at h
      · cases h
      · cases h
      · dsimp only at h
        split at h <;> cases h
        exact s.helmRead_memFrame ‹_›

section
variable {s w : State} {n : Nat} {p : Packet} (h : NextPacket s n p w)
include h

theorem NextPacket.read : (on s (.queue n)).nextPacket (s.queue n) = .packet p w := by
  obtain ⟨-, -, -, -, read⟩ := h
  exact read

theorem NextPacket.wait : (s.queue n).wait = .none := by
  obtain ⟨-, -, wait, -, -⟩ := h
  exact wait

theorem NextPacket.queues : w.queues = s.queues := (nextPacket_memFrame h.read).queues

theorem NextPacket.idle : (s.queue n).idle = true := by
  obtain ⟨en, stop, wait, wr, -⟩ := h
  simp [Queue.idle, en, stop, wait, wr]

/-- The next packet is held by ACQ, or, of the kind that is asked for, processed. -/
theorem NextPacket.process {kind : Nat} (hk : p.kind = kind) (f : State → Queue → Packet → State) :
    (on s (.queue n)).process n kind f =
      if p.acq && !(s.queue n).live.isEmpty then w.modQueue n fun k => { k with wait := .acq } else f w (s.queue n) p := by
  have hq : (on s (.queue n)).queue n = s.queue n := rfl
  simp only [State.process, hq, h.idle, h.read, hk]
  simp

theorem NextPacket.process_go {kind : Nat} (hk : p.kind = kind) (ha : ¬AcqHolds s n p) (f : State → Queue → Packet → State) :
    (on s (.queue n)).process n kind f = f w (s.queue n) p := by
  rw [h.process hk, if_neg]
  simpa [AcqHolds] using ha

/-- One with ACQ waits while an earlier packet has not completed. -/
theorem NextPacket.process_acq {kind : Nat} (hk : p.kind = kind) (ha : AcqHolds s n p) (f : State → Queue → Packet → State) :
    (on s (.queue n)).process n kind f = w.modQueue n fun k => { k with wait := .acq } := by
  rw [h.process hk, if_pos]
  simpa [AcqHolds] using ha

end

end Sys2Proof.Claims

namespace Sys2Proof.Proofs

open Sys2Proof Sys2Proof.Machine Sys2Proof.Claims

/-! ### The events of a queue -/

/-- From `s` to `u`, of the queues only `n` changes, and it becomes `k`. -/
def QueueBecomes (s u : State) (n : Nat) (k : Queue) : Prop := (∀ m, m ≠ n → u.queue m = s.queue m) ∧ u.queue n = k

/-- A write of the queue's registers that keeps its number. -/
theorem QueueBecomes.of_mod {s w : State} (h : w.queues = s.queues) (n : Nat) {f : Queue → Queue} (hf : (f (s.queue n)).n = n) :
    QueueBecomes s (w.modQueue n f) n (f (s.queue n)) := by
  refine ⟨fun m hm => (w.modQueue_queue_ne n f hm).trans (State.queue_congr h m), ?_⟩
  rw [State.modQueue_queue, State.queue_congr h]
  exact congrArg (fun i => { f (s.queue n) with n := i }) hf.symm

theorem QueueBecomes.stop (s : State) (n : Nat) (c : Byte) :
    QueueBecomes s (s.stopQueue n c) n { s.queue n with stop := true, err := c, wait := .none } :=
  ⟨fun _ hm => s.stopQueue_queue_ne n c hm, s.stopQueue_queue n c⟩

theorem QueueBecomes.trans {s t u : State} {n : Nat} {j k : Queue} (h : QueueBecomes s t n j) (g : QueueBecomes t u n k) : QueueBecomes s u n k :=
  ⟨fun m hm => (g.1 m hm).trans (h.1 m hm), g.2⟩

/-- The codes of the table as the model tests them. -/
theorem failedPacket_iff (c : Byte) : failedPacket c = true ↔ c ∈ ([0x01, 0x02, 0x03, 0x04, 0x06, 0x08, 0x10] : List Byte) := by
  simp [failedPacket, BitVec.toNat_eq]

/-- An owner's write of QWRIDX sets it, and in minimal mode stops the queue. -/
theorem qwridxWrite_owner (s : State) (n : Nat) (v : BitVec 32) (m : Nat) (h : s.owned = true ∧ s.owner.toNat = m) :
    ∃ u, Gives s .qwridxWrite (.qwr n v m) u ∧ u.mem = s.mem ∧ QueueBecomes s u n
      (if s.state = 2 then { s.queue n with wr := v, stop := true, err := 0x0A, wait := .none } else { s.queue n with wr := v }) := by
  let t := (on s (.qwr n v m)).modQueue n fun k => { k with wr := v }
  have ht : QueueBecomes s t n { s.queue n with wr := v } := .of_mod rfl n (s.queue_n n)
  refine ⟨if s.state = 2 then t.stopQueue n 0x0A else t, ?_, ?_, ?_⟩
  · show execQwridxWrite (on s (.qwr n v m)) = _
    simp [execQwridxWrite, on, h.1, h.2, t]
  · split <;> rfl
  · split
    · simpa [ht.2] using ht.trans (.stop t n 0x0A)
    · exact ht

theorem qwridxWrite_other (s : State) (n : Nat) (v : BitVec 32) (m : Nat) (h : s.owned = false ∨ s.owner.toNat ≠ m) :
    Passes s .qwridxWrite (.qwr n v m) := by
  show execQwridxWrite (on s (.qwr n v m)) = _
  rcases h with h | h <;> simp [execQwridxWrite, on, h]

theorem queueReenable_stopped (s : State) (n : Nat) (en : (s.queue n).en = true) (stop : (s.queue n).stop = true) :
    ∃ u, Gives s .queueReenable (.queue n) u ∧ QueueBecomes s u n { s.queue n with
      stop := false, err := 0, wait := .none,
      rd := if (s.queue n).err ∈ ([0x01, 0x02, 0x03, 0x04, 0x06, 0x08, 0x10] : List Byte) then (s.queue n).rd + 1 else (s.queue n).rd } := by
  have hk : (on s (.queue n)).queue n = s.queue n := rfl
  simp only [← failedPacket_iff]
  refine ⟨_, ?_, .of_mod (w := on s (.queue n)) rfl n
    (f := fun k => { k with stop := false, err := 0, wait := .none, rd := if failedPacket k.err then k.rd + 1 else k.rd }) (s.queue_n n)⟩
  show execQueueReenable (on s (.queue n)) = _
  simp [execQueueReenable, show (on s (.queue n)).ev = .queue n from rfl, hk, en, stop]

/-- A no-op is passed. -/
theorem noOpPacket_passes {s w : State} {n : Nat} {p : Packet} (h : NextPacket s n p w) (hk : p.kind = 0) (ha : ¬AcqHolds s n p) :
    ∃ u, Gives s .noOpPacket (.queue n) u ∧ QueueBecomes s u n { s.queue n with rd := (s.queue n).rd + 1 } := by
  have hw := h.wait
  refine ⟨w.passPacket n, congrArg Host.Outcome.next (h.process_go hk ha _), ?_⟩
  have hp := QueueBecomes.of_mod h.queues n (f := fun k => { k with rd := k.rd + 1, wait := .none }) (s.queue_n n)
  exact ⟨hp.1, hp.2.trans (congrArg (fun x => { s.queue n with rd := (s.queue n).rd + 1, wait := x }) hw.symm)⟩

/-- A dependency wait blocks its queue, and is evaluated at once. -/
theorem dependencyWaitPacket_waits {s w : State} {n : Nat} {p : Packet} (h : NextPacket s n p w) (hk : p.kind = 2) (ha : ¬AcqHolds s n p) :
    ∃ u, Gives s .dependencyWaitPacket (.queue n) u ∧ QueueBecomes s u n { s.queue n with wait := .dep, poll := 0 } :=
  ⟨_, congrArg Host.Outcome.next (h.process_go hk ha _), .of_mod h.queues n (f := fun k => { k with wait := .dep, poll := 0 }) (s.queue_n n)⟩

/-- A packet of any kind with ACQ waits for the earlier ones. -/
theorem acqPacket_waits {s w : State} {n : Nat} {p : Packet} {i : Instr} (h : NextPacket s n p w) (ha : AcqHolds s n p)
    (hi : i = if p.kind = 0 then Instr.noOpPacket else if p.kind = 1 then .voyageLaunchPacket else .dependencyWaitPacket) (hk : p.kind ≤ 2) :
    ∃ u, Gives s i (.queue n) u ∧ QueueBecomes s u n { s.queue n with wait := .acq } := by
  refine ⟨_, ?_, .of_mod h.queues n (f := fun k => { k with wait := .acq }) (s.queue_n n)⟩
  obtain hk | hk | hk : p.kind = 0 ∨ p.kind = 1 ∨ p.kind = 2 := by omega
  all_goals
    rw [hi, hk]
    exact congrArg Host.Outcome.next (h.process_acq hk ha _)

theorem acqPacketRelease_goes (s : State) (n : Nat) (hw : (s.queue n).wait = .acq) (hl : (s.queue n).live = []) :
    ∃ u, Gives s .acqPacketRelease (.queue n) u ∧ QueueBecomes s u n { s.queue n with wait := .none } :=
  ⟨_, congrArg Host.Outcome.next (if_pos ⟨hw, hl⟩), .of_mod rfl n (f := fun k => { k with wait := .none }) (s.queue_n n)⟩

theorem malformedPacket_stops (s : State) (n : Nat) (c : Byte) (hi : (s.queue n).idle = true)
    (hn : (on s (.queue n)).nextPacket (s.queue n) = .stop c) :
    ∃ u, Gives s .malformedPacket (.queue n) u ∧ u.mem = s.mem ∧ QueueBecomes s u n { s.queue n with stop := true, err := c, wait := .none } := by
  refine ⟨(on s (.queue n)).stopQueue n c, ?_, rfl, .stop (on s (.queue n)) n c⟩
  have hk : (on s (.queue n)).queue n = s.queue n := rfl
  show execMalformedPacket (on s (.queue n)) = _
  simp [execMalformedPacket, show (on s (.queue n)).ev = .queue n from rfl, hk, hi, hn]

/-- A dependency wait whose word can be read is passed when its condition holds, and else evaluated again after 4,096 cycles. -/
theorem dependencyRecheck_reads {s w w' : State} {n : Nat} {p : Packet} {x : Nat} (en : (s.queue n).en = true) (stop : (s.queue n).stop = false)
    (hw : (s.queue n).wait = .dep) (hn : (on s (.queue n)).nextPacket (s.queue n) = .packet p w)
    (hr : w.helmRead w.helmDie (s.queue n).asid p[1].toNat 8 false = .ok (x, w')) :
    ∃ u, Gives s .dependencyRecheck (.queue n) u ∧ QueueBecomes s u n
      (if p.satisfied x = true then { s.queue n with rd := (s.queue n).rd + 1, wait := .none } else { s.queue n with poll := 4096 }) := by
  have hq : w'.queues = s.queues := (w.helmRead_memFrame hr).queues.trans (nextPacket_memFrame hn).queues
  refine ⟨if p.satisfied x then w'.passPacket n else w'.modQueue n fun k => { k with poll := 4096 }, ?_, ?_⟩
  · have hk : (on s (.queue n)).queue n = s.queue n := rfl
    show execDependencyRecheck (on s (.queue n)) = _
    simp [execDependencyRecheck, show (on s (.queue n)).ev = .queue n from rfl, hk, en, stop, hw, hn, hr]
  · split
    · exact .of_mod hq n (f := fun k => { k with rd := k.rd + 1, wait := .none }) (s.queue_n n)
    · exact .of_mod hq n (f := fun k => { k with poll := 4096 }) (s.queue_n n)

theorem queuesProcessPackets : StatementPart.QueuesProcessPackets := by
  refine ⟨fun s n v m => ⟨fun h => ?_, qwridxWrite_other s n v m⟩, ?_, ?_, ?_, ?_, ?_, ?_, ?_⟩
  · obtain ⟨u, hu, hm, hk, hn⟩ := qwridxWrite_owner s n v m h
    exact ⟨u, hu, hm, hn, hk⟩
  · exact queueReenable_stopped
  · exact fun s w n p => noOpPacket_passes
  · exact fun s w n p => dependencyWaitPacket_waits
  · exact fun s w n p i => acqPacket_waits
  · exact acqPacketRelease_goes
  · exact fun s n c en stop hw hr => malformedPacket_stops s n c (by simp [Queue.idle, en, stop, hw, hr])
  · exact fun s w w' n p x => dependencyRecheck_reads

/-! ### The errors of a packet -/

/-- The eight words of a packet as they stand in memory. -/
def packetOf (x : Nat) : Packet := Vector.ofFn fun i : Fin 8 => BitVec.ofNat 64 (x / 2 ^ (64 * i.val))

section
variable {s u : State} {k : Queue} {x : Nat} (lo : 4 ≤ k.log) (hi : k.log ≤ 16) (hv : k.valid ≤ 2 ^ k.log)
include lo hi hv

theorem nextPacket_stop {c : Byte} (h : s.helmRead s.helmDie k.asid (k.ring + 64 * (k.rd.toNat % 2 ^ k.log)) 64 false = .ok (x, u))
    (hc : (packetOf x).error? = some c) : s.nextPacket k = .stop c := by
  rw [packetOf] at hc
  rw [State.nextPacket, if_neg (by omega), if_neg (by omega), h]
  simp only [hc]

theorem nextPacket_packet (h : s.helmRead s.helmDie k.asid (k.ring + 64 * (k.rd.toNat % 2 ^ k.log)) 64 false = .ok (x, u))
    (hc : (packetOf x).error? = none) : s.nextPacket k = .packet (packetOf x) u := by
  rw [packetOf] at hc
  rw [State.nextPacket, if_neg (by omega), if_neg (by omega), h]
  simp only [hc, packetOf]

theorem nextPacket_frames {d : Nat} (h : s.helmRead s.helmDie k.asid (k.ring + 64 * (k.rd.toNat % 2 ^ k.log)) 64 false = .error (.frames d)) :
    s.nextPacket k = .frames d := by
  rw [State.nextPacket, if_neg (by omega), if_neg (by omega), h]

theorem nextPacket_unreadable {m : Miss} (h : s.helmRead s.helmDie k.asid (k.ring + 64 * (k.rd.toNat % 2 ^ k.log)) 64 false = .error m)
    (hm : ∀ d, m ≠ .frames d) : s.nextPacket k = .stop 0x06 := by
  rw [State.nextPacket, if_neg (by omega), if_neg (by omega), h]
  cases m with
  | frames d => exact absurd rfl (hm d)
  | fail => rfl
  | corrupt f => rfl

end

theorem packetErrorsHaveTheirCodes : StatementPart.PacketErrorsHaveTheirCodes := by
  intro s k
  refine ⟨fun h => if_pos h, fun lo hi => ⟨fun hv => ?_, fun hv => ⟨fun d => nextPacket_frames lo hi hv, fun m => nextPacket_unreadable lo hi hv,
    fun x u hx => ⟨fun h => nextPacket_stop lo hi hv hx ?_, fun hk hz h => nextPacket_stop lo hi hv hx ?_,
      fun hk hz a b c d e => nextPacket_packet lo hi hv hx ?_⟩⟩⟩⟩
  · exact (if_neg (by simp only [Queue.log]; omega)).trans (if_pos hv)
  all_goals
    generalize hp : (Vector.ofFn fun i : Fin 8 => BitVec.ofNat 64 (x / 2 ^ (64 * i.val)) : Packet) = p at *
    rw [packetOf, hp, Packet.error?]
  · exact if_pos h
  · rw [if_neg (not_or.2 ⟨by omega, by simp [hz]⟩), if_pos h]
  · rw [if_neg (not_or.2 ⟨by omega, by simp [hz]⟩), if_neg (by simp only [not_or]; exact ⟨by omega, by omega, by omega, by omega, fun h => e h.1 h.2⟩)]

/-- Settles O45: each event of a queue by the rule for the packet it reads, and the errors of a packet in the order of the model's tests (log 30). -/
theorem queuesReadPackets : Obligations.QueuesReadPackets := ⟨queuesProcessPackets, packetErrorsHaveTheirCodes⟩

end Sys2Proof.Proofs
end

