-- ==== Sys2Proof/Proofs/Configure.lean ====
section
/-! SUPPORT. Setting up a launch or a saved voyage leaves the voyages as they are, but for the one that it adds (R47, R446); and where either may stand
(R44, R46). -/

namespace Sys2Proof.Machine

open Sys2Proof Sys2Proof.Claims

/-- A fold whose steps leave the voyages alone. -/
theorem foldl_voyages {α : Type} {f : State → α → State} (step : ∀ s x, (f s x).voyages = s.voyages) (l : List α) (s : State) :
    (l.foldl f s).voyages = s.voyages :=
  List.foldlRecOn (motive := fun t : State => t.voyages = s.voyages) l f rfl fun t ht x _ => (step t x).trans ht

section
variable (s : State)

/-! ### Routes, barriers, participants -/

theorem State.addRoute_voyages {m : Image} {sp : Spots} {voy reg : Nat} {r : RegI} {t : RouteI} {u : State}
    (h : s.addRoute m sp voy reg r t = some u) : u.voyages = s.voyages := by
  unfold State.addRoute at h
  dsimp only at h
  split at h
  · cases h
  · cases h; rfl

/-- A placement that has found its routes so far has kept the voyages. -/
def KeepsVoyages (s : State) (r : Option State) : Prop := ∀ u, r = some u → u.voyages = s.voyages

theorem State.addRoutes_voyages {m : Image} {sp : Spots} {voy : Nat} {u : State} (h : s.addRoutes m sp voy = some u) : u.voyages = s.voyages := by
  have one (i : Nat) (g : RegI) (r : Option State) (hr : KeepsVoyages s r) (t : RouteI) :
      KeepsVoyages s (r.bind fun s => s.addRoute m sp voy i g t) := by
    intro u hu
    obtain ⟨v, hv, hu⟩ := Option.bind_eq_some_iff.1 hu
    exact (v.addRoute_voyages hu).trans (hr v hv)
  have all (i : Nat) (g : RegI) (r : Option State) (hr : KeepsVoyages s r) :
      KeepsVoyages s (g.routes.foldl (fun r t => r.bind fun s => s.addRoute m sp voy i g t) r) :=
    List.foldlRecOn (motive := KeepsVoyages s) _ _ hr fun r hr t _ => one i g r hr t
  exact List.foldlRecOn (motive := KeepsVoyages s) _ _ (by rintro _ ⟨⟩; rfl) (fun r hr e _ => all e.2 e.1 r hr) u h

theorem State.addBars_voyages {ks : List BarKey} {t : State} (h : s.addBars ks = .ok t) : SameVoyages s t := by
  refine foldlM_rel SameVoyages.refl SameVoyages.trans ?_ _ h
  intro s k t h
  dsimp only at h
  split at h
  · cases h; rfl
  · split at h
    · cases h
    · obtain ⟨u, hu, rfl⟩ := map_ok h
      exact (s.helmStore_helm hu).voyages

theorem State.join_voyages (asid : BitVec 16) (p : Participant) : (s.join asid p).voyages = s.voyages := by
  unfold State.join
  dsimp only
  split <;> split <;> rfl

theorem State.addMarks_voyages (asid : BitVec 16) (voy : Nat) (m : Image) (sp : Spots) (htab : List Nat) :
    (s.addMarks asid voy m sp htab).voyages = s.voyages := by
  unfold State.addMarks
  exact (foldl_voyages (fun s d => s.join_voyages _ _) _ _).trans (foldl_voyages (fun s d => s.join_voyages _ _) _ _)

/-! ### Edges -/

theorem State.announce_voyages (r : Route) : (s.announce r).voyages = s.voyages := by
  unfold State.announce
  split <;> simp

theorem State.joinEdge_voyages {n : Nat} {f : Flit} {t : State} (h : s.joinEdge n f = some t) : t.voyages = s.voyages := by
  unfold State.joinEdge at h
  dsimp only at h
  split at h
  · cases h
  · split at h <;> cases h
    · simp
    · rfl

theorem State.retryJoins_voyages : s.retryJoins.voyages = s.voyages := by
  refine foldl_voyages (fun s e => ?_) _ s
  dsimp only
  split
  · rename_i u hu
    exact (s.joinEdge_voyages hu :)
  · rfl

/-- The last steps of a configuration: status areas, announcements, edges that wait to join. -/
theorem State.announced_voyages (rs : List Route) : (rs.foldl State.announce s).retryJoins.voyages = s.voyages :=
  (State.retryJoins_voyages _).trans (foldl_voyages (fun s r => s.announce_voyages r) rs s)

/-! ### The voyage of a launch -/

/-- A voyage that was there at one time is there later, whatever its Helms owe. -/
theorem SameVoyages.keeps {s t : State} (h : SameVoyages s t) {v : Voyage} (hv : v ∈ s.voyages) : ∃ w ∈ t.voyages, w.unowed = v.unowed := h.symm.mem hv

theorem State.configure_voyage {l : Launch} {m : Image} {sp : Spots} {htab : List Nat} {t : State} (h : s.configure l m sp htab = .ok t) :
    ∃ voy save, ∃ w ∈ t.voyages, w.unowed = (l.voyage voy save m sp htab).unowed := by
  unfold State.configure at h
  dsimp only at h
  split at h
  · cases h
  · split at h
    · split at h <;> cases h
    · rename_i save _ _ a ha
      split at h <;> cases h
      rename_i b hb
      refine ⟨s.nextId, save, SameVoyages.keeps (v := l.voyage s.nextId save m sp htab) (s := a) ?_ ?_⟩
      · exact (State.addBars_voyages _ hb).trans (.trans (.of_eq (State.addMarks_voyages _ _ _ _ _ _))
          (.trans (State.owe_helm _ _ _).voyages (.of_eq (State.announced_voyages _ _))))
      · rw [State.addRoutes_voyages _ ha]
        exact List.mem_append_right _ (List.mem_singleton_self _)

/-! ### Reading checkpoint images back -/

/-- An access of the walker that has answered kept the voyages. -/
theorem walkerAccess_voyages {old : State × BarEntry} {r : Helm (State × BarEntry)} {t : State × BarEntry}
    (hr : ∀ x, r = .ok x → SameVoyages old.1 x.1) (h : walkerAccess old r = .ok t) : SameVoyages old.1 t.1 := by
  unfold walkerAccess at h
  split at h <;> cases h
  · exact hr _ rfl
  · rfl

theorem State.loadBar_voyages {b : BarEntry} {t : State × BarEntry} (h : s.loadBar b = .ok t) : SameVoyages s t.1 := by
  unfold State.loadBar at h
  split at h
  · refine walkerAccess_voyages (old := (s, b)) (fun x hx => ?_) h
    obtain ⟨⟨y, u⟩, hu, rfl⟩ := map_ok hx
    exact .of_eq (s.helmRead_memFrame hu).voyages
  · cases h; rfl

theorem State.storeBar_voyages {b : BarEntry} {t : State × BarEntry} (h : s.storeBar b = .ok t) : SameVoyages s t.1 := by
  unfold State.storeBar at h
  split at h
  · refine walkerAccess_voyages (old := (s, b)) (fun x hx => ?_) h
    obtain ⟨u, hu, rfl⟩ := map_ok hx
    exact (s.helmStore_helm hu).voyages
  · cases h; rfl

theorem liftWalker_ok {α : Type} {r : Except Nat α} {x : α} (h : liftWalker r = .ok x) : r = .ok x := by
  cases r <;> cases h
  rfl

theorem State.restoreBars_voyages {bs : List BarEntry} {ms : List Move} {t : State} (h : s.restoreBars bs ms = .ok t) : SameVoyages s t := by
  refine foldlM_rel SameVoyages.refl SameVoyages.trans ?_ _ h
  intro s b t h
  obtain ⟨u, hu, rfl⟩ := map_ok h
  exact State.storeBar_voyages (s.setBar _) (liftWalker_ok hu)

theorem State.loadBarEntry_voyages {b : BarEntry} {f : Cell} {t : State} (h : s.loadBarEntry b f = .ok t) : SameVoyages s t := by
  unfold State.loadBarEntry at h
  dsimp only at h
  split at h <;> cases h
  rename_i hu
  exact State.storeBar_voyages (s.setBar _) hu

theorem State.loadBlock_voyages {v : Voyage} {x o : Nat} {t : State} (h : s.loadBlock v x o = .ok t) : SameVoyages s t := by
  obtain ⟨u, hu, h⟩ := bind_ok h
  have hsu : SameVoyages s u := foldlM_rel SameVoyages.refl SameVoyages.trans (fun h => State.loadBarEntry_voyages _ h) _ hu
  cases h
  exact hsu

theorem State.loadChannel_voyages (i : StId) (c : Fin 8) (ks : List Token) : (s.loadChannel i c ks).voyages = s.voyages := by
  unfold State.loadChannel
  split <;> rfl

theorem State.loadChannels_voyages (i : StId) (f : Cell) : (s.loadChannels i f).voyages = s.voyages :=
  List.foldlRecOn (motive := fun p : State × Nat => p.1.voyages = s.voyages) _ _ rfl fun p hp _ _ => (p.1.loadChannel_voyages i _ _).trans hp

theorem State.loadStation_voyages (i o : StId) (x : Nat) (secs : List (Nat × Nat)) : (s.loadStation i o x secs).voyages = s.voyages := by
  refine foldl_voyages (fun s e => ?_) secs s
  split
  · exact s.loadChannels_voyages _ _
  · rfl

theorem State.loadRequests_voyages (origin : StId) (f : Cell) : ∀ (qs : List Req) (o : Nat) (s : State),
    (s.loadRequests origin f qs o).voyages = s.voyages
  | [], _, _ => rfl
  | q :: qs, o, s => by
    rw [State.loadRequests]
    split
    · dsimp only
      split
      · exact State.loadRequests_voyages origin f qs _ _
      · exact State.loadRequests_voyages origin f qs _ _
    · exact State.loadRequests_voyages origin f qs _ _

theorem State.loadList_voyages (v : Voyage) (r : Region) (x o n : Nat) : (s.loadList v r x o n).voyages = s.voyages :=
  State.loadRequests_voyages _ _ _ _ _

theorem State.loadImage_voyages {v : Voyage} {r : Region} {t : State} (h : s.loadImage v r = .ok t) : SameVoyages s t := by
  unfold State.loadImage at h
  split at h
  · cases h; rfl
  · obtain ⟨⟨x, a⟩, ha, h⟩ := bind_ok h
    obtain ⟨⟨y, b⟩, hb, h⟩ := bind_ok h
    have hab : SameVoyages s b := .of_eq ((a.helmRead_memFrame hb).voyages.trans (s.helmRead_memFrame ha).voyages)
    dsimp only at h
    generalize hu : State.loadList _ v r y _ _ = u at h
    have hbu : SameVoyages b u := by
      refine .of_eq ?_
      rw [← hu, State.loadList_voyages]
      exact foldl_voyages (fun s p => s.loadStation_voyages _ _ _ _) _ _
    split at h
    · exact (hab.trans hbu).trans (u.loadBlock_voyages h)
    · cases h
      exact hab.trans hbu

theorem State.loadImages_voyages {voy : Nat} {t : State} (h : s.loadImages voy = .ok t) : SameVoyages s t := by
  unfold State.loadImages at h
  split at h
  · cases h; rfl
  · exact foldlM_rel (R := SameVoyages) SameVoyages.refl SameVoyages.trans (fun {s r t} h => s.loadImage_voyages h) _ h

/-- A resumed voyage: the saved one, held until its start, its regions where they stood in their programs. -/
theorem State.reconfigure_voyage {l : Launch} {k : Saved} {m : Image} {htab : List Nat} {pl : List (Nat × Nat × Nat × Nat)} {t : State}
    (h : s.reconfigure l k m htab pl = .ok t) :
    ∃ w ∈ t.voyages, w.id = k.voy.id ∧ w.frozen = true ∧ w.drain = none ∧ w.regions = k.voy.regions.map (resumeRegion (movesOf k.voy pl)) := by
  unfold State.reconfigure at h
  dsimp only at h
  split at h
  · cases h
  · split at h
    · cases h
    · cases h
    · rename_i u hu _ f hf
      have key (t : State) (ht : SameVoyages u t) : ∃ w ∈ t.voyages,
          w.id = k.voy.id ∧ w.frozen = true ∧ w.drain = none ∧ w.regions = k.voy.regions.map (resumeRegion (movesOf k.voy pl)) := by
        obtain ⟨w, hw, he⟩ := ht.keeps (by rw [State.addRoutes_voyages _ hu]; exact List.mem_append_right _ (List.mem_singleton_self _))
        exact ⟨w, hw, (Voyage.unowed_id he :), (Voyage.unowed_frozen he :), (Voyage.unowed_drain he :), (Voyage.unowed_regions he :)⟩
      cases h
      obtain ⟨⟨bs, a⟩, ha, hf⟩ := bind_ok hf
      obtain ⟨b, hb, hf⟩ := bind_ok hf
      obtain ⟨c, hc, hf⟩ := bind_ok hf
      have hua : SameVoyages u a := foldlM_rel (R := fun p q : List BarEntry × State => SameVoyages p.2 q.2) (fun _ => .refl _) .trans
        (fun {p b q} h => by obtain ⟨x, hx, rfl⟩ := map_ok h; exact p.2.loadBar_voyages (liftWalker_ok hx)) _ ha
      have hbc := (b.restore k.voy.id k (movesOf k.voy pl)).restoreBars_voyages hc
      have huf : SameVoyages u f :=
        hua.trans ((a.addBars_voyages hb).trans (.trans (hbc : SameVoyages b c) (c.loadImages_voyages hf)))
      exact key _ (huf.trans (.trans (f.owe_helm _ _).voyages (.of_eq (State.announced_voyages _ _))))

end

end Sys2Proof.Machine
end

