-- ==== Sys2Proof/Proofs/Launches.lean ====
section
/-! SUPPORT. Where a launch or a saved voyage may stand (R44, R45, R85, R446), and the proof that launches join, wait, are placed and resume. -/

namespace Sys2Proof.Machine

open Sys2Proof Sys2Proof.Claims

/-! ### Fitting -/

theorem mapM_mem {α β : Type} {f : α → Option β} : ∀ {l : List α} {ys : List β}, l.mapM f = some ys → ∀ y ∈ ys, ∃ x ∈ l, f x = some y
  | [], ys, h, y, hy => by
    cases h; cases hy
  | a :: l, ys, h, y, hy => by
    rw [List.mapM_cons] at h
    obtain ⟨b, hb, h⟩ := Option.bind_eq_some_iff.1 h
    obtain ⟨bs, hbs, h⟩ := Option.bind_eq_some_iff.1 h
    cases h
    rcases List.mem_cons.1 hy with rfl | hy
    · exact ⟨a, by simp, hb⟩
    · obtain ⟨x, hx, hf⟩ := mapM_mem hbs y hy
      exact ⟨x, by simp [hx], hf⟩

/-- An origin keeps its rectangle on the die. -/
theorem mem_origins {pw ph x y : Nat} (h : (x, y) ∈ origins pw ph) : x + pw ≤ 14 ∧ y + ph ≤ 10 := by
  simp only [origins, List.mem_flatMap, List.mem_map, List.mem_range, Prod.mk.injEq] at h
  obtain ⟨b, hb, a, ha, rfl, rfl⟩ := h
  omega

/-- What a launch gets on each die of its mask: an origin whose rectangle lies on the die and in no voyage's way. -/
theorem State.spots_free {s : State} {l : Launch} {m : Image} {sp : Spots} (h : s.spots l m = some sp) {d px py : Nat} (hp : (d, px, py) ∈ sp) :
    d ∈ l.pkt.dies ∧ s.occupants d px py l.pkt.pw l.pkt.ph = [] ∧ px + l.pkt.pw ≤ 14 ∧ py + l.pkt.ph ≤ 10 := by
  unfold State.spots at h
  split at h
  · obtain ⟨⟨e, k⟩, he, hf⟩ := mapM_mem h _ hp
    obtain ⟨⟨x, y⟩, ho, hf⟩ := Option.map_eq_some_iff.1 hf
    cases hf
    have hok := List.find?_some ho
    simp only [Bool.and_eq_true, List.isEmpty_iff] at hok
    exact ⟨List.fst_mem_of_mem_zipIdx he, hok.1, mem_origins (List.mem_of_find?_eq_some ho)⟩
  · cases h

/-- A launch without PE has no victims. -/
theorem State.victims_of_not_pe {s : State} {l : Launch} {m : Image} (h : l.pkt.pe = false) : s.victims l m = [] := by
  simp [State.victims, h]

/-- The places of a die slot's regions are on the die that was asked about. -/
theorem State.resumeDie_go_die {s : State} {ok : List Voyage → Bool} {d : Nat} :
    ∀ (rs : List RegI) (used : List (Nat × Nat × Nat)) (gens : List (Nat × Nat)) {ps : List (Nat × Nat × Nat)}, State.resumeDie.go s ok d rs used gens = some ps → ∀ p ∈ ps, p.1 = d
  | [], used, gens, ps, h, p, hp => by
    cases h; cases hp
  | r :: rest, used, gens, ps, h, p, hp => by
    rw [State.resumeDie.go] at h
    obtain ⟨⟨x, y⟩, -, h⟩ := Option.bind_eq_some_iff.1 h
    obtain ⟨more, hm, h⟩ := Option.bind_eq_some_iff.1 h
    cases h
    rcases List.mem_cons.1 hp with rfl | hp
    · rfl
    · exact State.resumeDie_go_die rest _ _ hm p hp

/-- Every place found so far is on a ready die that no starved launch of higher priority waits for. -/
def OpenPlaces (s : State) (l : Launch) (r : Option (List Nat × List (Nat × Nat × Nat × Nat))) : Prop :=
  ∀ x, r = some x → ∀ p ∈ x.2, s.barred l p.2.1 = false ∧ s.dieReady p.2.1 = true

/-- The dies of a resumption are ready, and no starved launch of higher priority waits for them. -/
theorem State.resumeSpots_open {s : State} {l : Launch} {fit : Nat → Nat → Bool} {ok : List Voyage → Bool} {m : Image}
    {a : List (Nat × Nat × Nat × Nat)} (h : s.resumeSpots l fit ok m = some a) : ∀ p ∈ a, s.barred l p.2.1 = false ∧ s.dieReady p.2.1 = true := by
  obtain ⟨x, hx, rfl⟩ := Option.map_eq_some_iff.1 h
  refine List.foldlRecOn (motive := OpenPlaces s l) _ _ (by rintro _ ⟨⟩ p ⟨⟩) (fun r hr k _ => ?_) x hx
  intro y hy p hp
  obtain ⟨⟨used, got⟩, rfl, hy⟩ := Option.bind_eq_some_iff.1 hy
  obtain ⟨⟨d, ps⟩, hd, rfl⟩ := Option.map_eq_some_iff.1 hy
  obtain ⟨e, -, he⟩ := List.exists_of_findSome?_eq_some hd
  split at he
  · cases he
  · rename_i hopen
    obtain ⟨qs, hqs, he⟩ := Option.map_eq_some_iff.1 he
    cases he
    simp only [not_or, Bool.not_eq_true, Bool.not_eq_true', Bool.not_eq_false] at hopen
    rcases List.mem_append.1 hp with hp | hp
    · exact hr _ rfl p hp
    · obtain ⟨⟨g, q⟩, hz, rfl⟩ := List.mem_map.1 hp
      rw [State.resumeDie_go_die _ _ _ hqs q (List.of_mem_zip hz).2]
      exact ⟨hopen.2.2.1, hopen.2.1⟩

/-- What a resumption leaves of a region's record: its number, its cycles, its generation. -/
theorem resumeRegion_kept (ms : List Move) (r : Region) :
    ((resumeRegion ms r).idx, (resumeRegion ms r).clk, (resumeRegion ms r).gen) = (r.idx, r.clk, r.gen) := by
  unfold resumeRegion
  split <;> rfl

end Sys2Proof.Machine

namespace Sys2Proof.Proofs

open Sys2Proof Sys2Proof.Machine Sys2Proof.Claims

/-! ### Launch packets -/

section
variable {s w : State} {n : Nat} {p : Packet} (h : NextPacket s n p w) (hk : p.kind = 1) (ha : ¬AcqHolds s n p)
include h hk ha

/-- A launch packet that has been read is checked, or waits, or stops its queue. -/
theorem launchPacket_checked {x y : State} {i : Img} {t : List Nat} {m : Image} (hr : w.readLaunch (s.queue n).asid p = .ok (i, t, y))
    (hx : y.readArgs (s.queue n).asid p = .ok x) (hm : i.parse = some m) :
    (x.launchError? m p = none → Gives s .voyageLaunchPacket (.queue n) (x.addLaunch n (s.queue n) p)) ∧
    (∀ c, x.launchError? m p = some c → Gives s .voyageLaunchPacket (.queue n) (x.stopQueue n c)) := by
  refine ⟨fun he => ?_, fun c he => ?_⟩
  all_goals
    refine congrArg Host.Outcome.next ((h.process_go hk ha _).trans ?_)
    simp only [hr, hx, Except.bind, Except.map, hm, he]

theorem launchPacket_unread {c : Miss} (hr : w.readLaunch (s.queue n).asid p = .error c) :
    (∀ d, c = .frames d → Gives s .voyageLaunchPacket (.queue n) (w.soon .poolBorrow (.die d))) ∧
    ((∀ d, c ≠ .frames d) → Gives s .voyageLaunchPacket (.queue n) (w.stopQueue n 0x06)) := by
  refine ⟨?_, fun hc => ?_⟩
  · rintro d rfl
    refine congrArg Host.Outcome.next ((h.process_go hk ha _).trans ?_)
    simp only [hr, Except.bind]
  · refine congrArg Host.Outcome.next ((h.process_go hk ha _).trans ?_)
    cases c with
    | frames d => exact absurd rfl (hc d)
    | fail => simp only [hr, Except.bind]
    | corrupt f => simp only [hr, Except.bind]

end

/-- A launch that joins the waiting list. -/
theorem addLaunch_joins (x : State) (n : Nat) (k : Queue) (p : Packet) :
    ∃ l, (x.addLaunch n k p).launches = x.launches ++ [l] ∧ l.pkt = p ∧ l.queue = n ∧ l.asid = k.asid ∧ l.time = x.time ∧ l.resume = none ∧
      l.starve = false ∧ (x.addLaunch n k p).queue n = { x.queue n with wait := .placing l.id } := by
  refine ⟨_, rfl, rfl, rfl, rfl, rfl, rfl, rfl, ?_⟩
  exact (State.modQueue_queue _ n _).trans (congrArg (fun i => { x.queue n with n := i, wait := QWait.placing x.nextId }) (x.queue_n n).symm)

/-! ### Placement -/

section
variable {s w : State} {id : Nat} {l : Launch} {i : Img} {t : List Nat} {m : Image} (hl : s.launches.find? (fun l => l.id == id) = some l)
  (hr : l.resume = none) (hb : s.blocked l = false) (hi : (on s (.launch id)).readLaunch l.asid l.pkt = .ok (i, t, w)) (hm : i.parse = some m)
  (hc : (l.pkt.dies.all w.dieReady && w.cutOff m l.pkt.dies) = false)
include hl hr hb hi hm hc

/-- A launch that fits is configured at its place, leaves the list, and its packet is passed. -/
theorem placement_places {sp : Spots} {x : State} (hs : w.spots l m = some sp) (hx : w.configure l m sp t = .ok x) :
    Gives s .placement (.launch id) ((x.dropLaunch id).passPacket l.queue) := by
  have hb : (on s (.launch id)).blocked l = false := hb
  show execPlacement (on s (.launch id)) = _
  simp [execPlacement, show (on s (.launch id)).ev = .launch id from rfl, show (on s (.launch id)).launches = s.launches from rfl, hl, hr, hb, hi, hm, hc,
    hs, hx]

/-- One that does not fit drains its victims. -/
theorem placement_waits (hs : w.spots l m = none) :
    Gives s .placement (.launch id) ((w.victims l m).foldl (fun s v => s.soon .drain (.drain v 0)) w) := by
  have hb : (on s (.launch id)).blocked l = false := hb
  show execPlacement (on s (.launch id)) = _
  simp [execPlacement, show (on s (.launch id)).ev = .launch id from rfl, show (on s (.launch id)).launches = s.launches from rfl, hl, hr, hb, hi, hm, hc,
    hs]

end

/-- The voyage of a placed launch stands in the machine. -/
theorem placed_voyage {w x : State} {l : Launch} {m : Image} {sp : Spots} {t : List Nat} (h : w.configure l m sp t = .ok x) :
    ∃ v ∈ x.voyages, v.pkt = l.pkt ∧ v.asid = l.asid ∧ v.queue = l.queue ∧ v.frozen = true ∧
      v.pool = sp.flatMap fun (d, x, y) => plats d x y l.pkt.pw l.pkt.ph := by
  obtain ⟨voy, save, v, hv, he⟩ := w.configure_voyage h
  exact ⟨v, hv, Voyage.unowed_pkt he, Voyage.unowed_asid he, Voyage.unowed_queue he, Voyage.unowed_frozen he,
    Voyage.unowed_pool he⟩

theorem not_mem_dropLaunch (x : State) (id : Nat) : ∀ k ∈ (x.dropLaunch id).launches, k.id ≠ id := by
  intro k hk
  simpa using (List.mem_filter.1 hk).2

/-! ### Resumption -/

section
variable {s w : State} {id n : Nat} {l : Launch} {k : Saved} {i : Img} {t : List Nat} {m : Image} (hl : s.launches.find? (fun l => l.id == id) = some l)
  (hr : l.resume = some n) (hk : s.saved.find? (fun e => e.1 == n) = some (n, k)) (hc : k.complete = true)
  (hi : (on s (.launch id)).readLaunch l.asid l.pkt = .ok (i, t, w)) (hm : i.parse = some m) (hp : w.peersReady l.asid m = true)
include hl hr hk hc hi hm hp

/-- A saved voyage that fits is restored at its place and leaves the list. -/
theorem resumePlace_places {a : List (Nat × Nat × Nat × Nat)} {x : State} (ha : w.resumeSpots l (w.edgesFit m) List.isEmpty m = some a)
    (hx : w.reconfigure l k m t a = .ok x) : Gives s .resumePlace (.launch id) (x.dropLaunch id) := by
  show execResumePlace (on s (.launch id)) = _
  simp [execResumePlace, show (on s (.launch id)).ev = .launch id from rfl, show (on s (.launch id)).launches = s.launches from rfl,
    show (on s (.launch id)).saved = s.saved from rfl, hl, hr, hk, hc, hi, hm, hp, ha, hx]

/-- One that does not fit drains its victims. -/
theorem resumePlace_waits (ha : w.resumeSpots l (w.edgesFit m) List.isEmpty m = none) :
    Gives s .resumePlace (.launch id) ((w.resumeVictims l m).foldl (fun s v => s.soon .drain (.drain v 0)) w) := by
  show execResumePlace (on s (.launch id)) = _
  simp [execResumePlace, show (on s (.launch id)).ev = .launch id from rfl, show (on s (.launch id)).launches = s.launches from rfl,
    show (on s (.launch id)).saved = s.saved from rfl, hl, hr, hk, hc, hi, hm, hp, ha]

end

/-- Settles O44: a launch packet is checked and joins the list; a launch that waits starves, is placed where `State.spots` finds room, or drains its victims; a
saved voyage is restored where `State.resumeSpots` finds room. -/
theorem launchesArePlaced : Obligations.LaunchesArePlaced := by
  refine ⟨?_, ?_, ?_, ?_, ?_, ?_⟩
  case refine_1 =>
    intro s w x y n p i t m h hk ha hr hx hm
    obtain ⟨hgo, hstop⟩ := launchPacket_checked h hk ha hr hx hm
    refine ⟨fun he => ?_, fun c he => ⟨_, hstop c he, x.stopQueue_queue n c⟩⟩
    obtain ⟨l, hl⟩ := addLaunch_joins x n (s.queue n) p
    exact ⟨_, l, hgo he, hl⟩
  case refine_2 =>
    intro s w n p c h hk ha hr
    obtain ⟨hwait, hstop⟩ := launchPacket_unread h hk ha hr
    exact ⟨hwait, fun hc => ⟨_, hstop hc, w.stopQueue_queue n 0x06⟩⟩
  case refine_3 => exact fun s id => ⟨_, rfl, rfl, rfl, rfl, rfl⟩
  case refine_4 =>
    intro s w id l i t m hl hr hb hi hm hc
    refine ⟨fun sp x hs hx => ⟨fun d px py hp => State.spots_free hs hp, ?_⟩, fun hs => ?_⟩
    · obtain ⟨v, hv, pkt, asid, queue, frozen, pool⟩ := placed_voyage hx
      exact ⟨_, v, placement_places hl hr hb hi hm hc hs hx, hv, pkt, asid, queue, frozen, pool, not_mem_dropLaunch x id,
        (x.dropLaunch id).passPacket_queue l.queue⟩
    · have hw := placement_waits hl hr hb hi hm hc hs
      exact ⟨hw, fun hpe => by rwa [State.victims_of_not_pe hpe] at hw⟩
  case refine_5 =>
    intro s w x id n l k i t m a hl hr hk hc hi hm hp ha hx
    obtain ⟨v, hv, hid, hf, hd, hrs⟩ := w.reconfigure_voyage hx
    refine ⟨State.resumeSpots_open ha, _, v, resumePlace_places hl hr hk hc hi hm hp ha hx, not_mem_dropLaunch x id, hv, hid, hf, hd, ?_⟩
    rw [hrs, List.map_map]
    exact List.map_congr_left fun r _ => resumeRegion_kept _ r
  case refine_6 => exact fun s w id n l k i t m hl hr hk hc hi hm hp ha => resumePlace_waits hl hr hk hc hi hm hp ha

end Sys2Proof.Proofs
end

