-- ==== Sys2Proof/Proofs/Voyages.lean ====
section
/-! SUPPORT. Looking up a voyage or a region after an update, and what the end of a voyage leaves (R49, R307, R439). -/

namespace Sys2Proof.Machine

open Sys2Proof Sys2Proof.Claims

/-! ### Lookups -/

theorem State.voyage?_id {s : State} {n : Nat} {v : Voyage} (h : s.voyage? n = some v) : v.id = n := by
  simpa using List.find?_some h

theorem Voyage.region?_idx {v : Voyage} {n : Nat} {r : Region} (h : v.region? n = some r) : r.idx = n := by
  simpa using List.find?_some h

theorem Voyage.region?_mem {v : Voyage} {n : Nat} {r : Region} (h : v.region? n = some r) : r ∈ v.regions := List.mem_of_find?_eq_some h

theorem State.region?_of {s : State} {n k : Nat} {v : Voyage} {r : Region} (h : s.voyage? n = some v) (hr : v.region? k = some r) :
    s.region? n k = some r := by
  rw [State.region?, h]; exact hr

/-- A voyage after its record has changed, by a change that keeps its number. -/
theorem State.modVoyage_voyage? {s : State} {n : Nat} {f : Voyage → Voyage} {v : Voyage} (h : s.voyage? n = some v) (hf : ∀ u, u.id = n → (f u).id = n) :
    (s.modVoyage n f).voyage? n = some (f v) := by
  have hp : (fun u : Voyage => u.id == n) ∘ (fun u => if u.id = n then f u else u) = fun u => u.id == n := by
    funext u
    by_cases hu : u.id = n <;> simp [hu, hf]
  simp only [State.voyage?, State.modVoyage, List.find?_map, hp] at h ⊢
  rw [h]
  simp [State.voyage?_id h]

/-- The regions of a voyage, each with that number changed. -/
def Voyage.modRegion (v : Voyage) (n : Nat) (f : Region → Region) : Voyage :=
  { v with regions := v.regions.map fun t => if t.idx = n then f t else t }

theorem State.modRegion_eq (s : State) (n k : Nat) (f : Region → Region) : s.modRegion n k f = s.modVoyage n fun v => v.modRegion k f := rfl

theorem State.modRegion_voyage? {s : State} {n k : Nat} {f : Region → Region} {v : Voyage} (h : s.voyage? n = some v) :
    (s.modRegion n k f).voyage? n = some (v.modRegion k f) :=
  State.modVoyage_voyage? (f := fun v => v.modRegion k f) h fun _ hu => hu

/-- The region that has changed, by a change that keeps its number, and another one. -/
theorem Voyage.modRegion_region? {v : Voyage} {n : Nat} {f : Region → Region} (hf : ∀ t, t.idx = n → (f t).idx = n) (k : Nat) :
    (v.modRegion n f).region? k = (v.region? k).map fun t => if t.idx = n then f t else t := by
  have hp : (fun t : Region => t.idx == k) ∘ (fun t => if t.idx = n then f t else t) = fun t => t.idx == k := by
    funext t
    by_cases ht : t.idx = n <;> simp [ht, hf]
  simp only [Voyage.region?, Voyage.modRegion, List.find?_map, hp]

theorem Voyage.modRegion_region?_self {v : Voyage} {n : Nat} {f : Region → Region} {r : Region} (h : v.region? n = some r)
    (hf : ∀ t, t.idx = n → (f t).idx = n) : (v.modRegion n f).region? n = some (f r) := by
  rw [Voyage.modRegion_region? hf, h]
  simp [Voyage.region?_idx h]

theorem Voyage.modRegion_region?_ne {v : Voyage} {n k : Nat} {f : Region → Region} {r : Region} (h : v.region? k = some r)
    (hf : ∀ t, t.idx = n → (f t).idx = n) (hk : k ≠ n) : (v.modRegion n f).region? k = some r := by
  rw [Voyage.modRegion_region? hf, h]
  simp [Voyage.region?_idx h, hk]

/-! ### The end of a voyage -/

/-- From `s` to `t` a voyage comes to its end: stations, routes, generators and copies stay, requests are held no further, and what is left of the voyage
has ended. -/
structure Ended (s t : State) (n : Nat) : Prop where
  stations : t.stations = s.stations
  routes : t.routes = s.routes
  agens : t.agens = s.agens
  reqs : ∀ q ∈ t.reqs, ∃ p ∈ s.reqs, p.voy = q.voy ∧ p.heldBack = q.heldBack
  voyages : ∀ w ∈ t.voyages, w.id = n → ∃ v ∈ s.voyages, w = { v with ended := true }

section
variable (s : State) (v : Voyage)

/-- No voyage of that number stands in the machine once it is over. -/
theorem State.endVoyage_gone : ∀ w ∈ (s.endVoyage v).voyages, w.id ≠ v.id := fun w hw => by
  simpa using (List.mem_filter.1 hw).2

theorem State.endVoyage_ended {t : State} (stations : t.stations = s.stations) (routes : t.routes = s.routes) (agens : t.agens = s.agens)
    (reqs : ∀ q ∈ t.reqs, ∃ p ∈ s.reqs, p.voy = q.voy ∧ p.heldBack = q.heldBack) : Ended s (t.endVoyage v) v.id :=
  ⟨stations, routes, agens, reqs, fun w hw h => absurd h (t.endVoyage_gone v w hw)⟩

theorem State.modEnded_ended : Ended s (s.modVoyage v.id fun u => { u with ended := true }) v.id := by
  refine ⟨rfl, rfl, rfl, fun q hq => ⟨q, hq, rfl, rfl⟩, fun w hw hid => ?_⟩
  obtain ⟨u, hu, rfl⟩ := List.mem_map.1 hw
  by_cases h : u.id = v.id
  · exact ⟨u, hu, if_pos h⟩
  · exact absurd (by rwa [if_neg h] at hid) h

theorem State.signal_ended : Ended s (s.signal v) v.id := by
  unfold State.signal
  split
  · exact s.endVoyage_ended v rfl rfl rfl fun q hq => ⟨q, hq, rfl, rfl⟩
  · split
    · rename_i t ht
      have hst := s.helmStore_helm ht
      exact s.endVoyage_ended v hst.stations hst.routes hst.agens hst.reqs
    · obtain ⟨a, b, c, d, e⟩ := s.modEnded_ended v
      exact ⟨a, b, c, d, e⟩
    · exact s.endVoyage_ended v rfl rfl rfl fun q hq => ⟨q, hq, rfl, rfl⟩

theorem State.finish_ended : Ended s (s.finish v) v.id := by
  unfold State.finish
  split
  · exact s.modEnded_ended v
  · exact s.signal_ended v

section
variable {s v} (howed : v.owed = []) (hrel : v.pkt.rel = false)
include howed hrel

/-- Nothing holds the completion write of a voyage without REL whose Helms owe nothing. -/
theorem State.finish_signal : s.finish v = s.signal v := by
  simp [State.finish, State.held, howed, hrel]

/-- With no CADDR the voyage is over at once. -/
theorem State.finish_silent (hc : v.pkt.caddr = 0) : ∀ w ∈ (s.finish v).voyages, w.id ≠ v.id := by
  rw [State.finish_signal howed hrel, State.signal, if_pos hc]
  exact s.endVoyage_gone v

/-- With one it is over once its word stands in memory. -/
theorem State.finish_written {t : State} (hc : v.pkt.caddr ≠ 0) (ht : s.helmStore s.helmDie v.asid v.pkt.caddr 8 v.pkt.cval = .ok t) :
    (s.finish v).mem = t.mem ∧ ∀ w ∈ (s.finish v).voyages, w.id ≠ v.id := by
  rw [State.finish_signal howed hrel, State.signal, if_neg hc, ht]
  exact ⟨rfl, t.endVoyage_gone v⟩

end

/-- The plats of a voyage that has left them, and what is left of its record. -/
theorem State.clearVoyage_voyages (n : Nat) {w : Voyage} (hw : w ∈ (s.clearVoyage n).voyages) (hid : w.id = n) :
    ∃ v ∈ s.voyages, w = { v with pool := [] } := by
  obtain ⟨u, hu, rfl⟩ := List.mem_map.1 hw
  by_cases h : u.id = n
  · exact ⟨u, hu, if_pos h⟩
  · exact absurd (by rwa [if_neg h] at hid) h

/-- What stands in the machine after a voyage has left its plats and has come to its end. -/
structure Cleared (s t : State) (n : Nat) : Prop where
  stations : ∀ x ∈ t.stations, x.voy ≠ n
  routes : ∀ x ∈ t.routes, x.voy ≠ n
  agens : ∀ x ∈ t.agens, x.voy ≠ n
  reqs : ∀ q ∈ t.reqs, ∃ p ∈ s.reqs, p.voy = q.voy ∧ p.heldBack = q.heldBack
  voyages : ∀ w ∈ t.voyages, w.id = n → ∃ v ∈ s.voyages, w = { v with pool := [], ended := true }

/-- Memory may change between the two. -/
theorem State.clear_finish {d : State} (h : MemFrame (s.clearVoyage v.id) d) : Cleared s (d.finish v) v.id := by
  obtain ⟨stations, routes, agens, reqs, voyages⟩ := d.finish_ended v
  refine ⟨fun x hx => ?_, fun x hx => ?_, fun x hx => ?_, fun q hq => ?_, fun w hw hid => ?_⟩
  · rw [stations, h.stations] at hx
    simpa using (List.mem_filter.1 hx).2
  · rw [routes, h.routes] at hx
    simpa using (List.mem_filter.1 hx).2
  · rw [agens, h.agens] at hx
    simpa using (List.mem_filter.1 hx).2
  · obtain ⟨p, hp, hpq⟩ := reqs q hq
    rw [h.reqs] at hp
    exact ⟨p, (List.mem_filter.1 hp).1, hpq⟩
  · obtain ⟨u, hu, rfl⟩ := voyages w hw hid
    rw [h.voyages] at hu
    obtain ⟨z, hz, rfl⟩ := s.clearVoyage_voyages v.id hu hid
    exact ⟨z, hz, rfl⟩

theorem State.complete_cleared : Cleared s (s.complete v) v.id :=
  s.clear_finish v (foldl_rel .refl .trans (fun s _ => s.discardPages_memFrame _ _ _ _) _ _)

end

end Sys2Proof.Machine
end

