-- ==== Sys2Proof/Proofs/Retire.lean ====
section
/-! SUPPORT. How a voyage winds up, and the proof that regions retire (R49, R437). -/

namespace Sys2Proof.Machine

open Sys2Proof Sys2Proof.Claims

/-- The region no longer fires. -/
def Region.retire (r : Region) : Region := { r with st := .retired }

section
variable {s : State} {v : Voyage} (he : v.ended = false) (hh : v.halted = false)
include he hh

/-- While a region of the voyage has not retired, winding it up is at most performing what its Helms owe. -/
theorem State.wind_helm (hr : v.retired = false) : HelmFrame s (s.wind v) := by
  unfold State.wind
  split
  · exact s.owe_helm _ _
  · simpa [he, hh, hr] using HelmFrame.refl s

/-- With every region retired, nothing owed and nothing left at work on its plats, it completes. -/
theorem State.wind_complete (hr : v.retired = true) (ho : v.owed = []) (hf : v.frozen = false) (hb : s.busyPlats v.id = false) :
    s.wind v = s.complete v := by
  simp [State.wind, he, hh, hr, ho, hf, hb]

end

theorem Voyage.retired_modRegion {v : Voyage} {n : Nat} :
    (v.modRegion n Region.retire).retired = true ↔ ∀ q ∈ v.regions, q.idx ≠ n → q.st = .retired := by
  simp only [Voyage.retired, Voyage.modRegion, List.all_eq_true, List.forall_mem_map, beq_iff_eq]
  refine forall₂_congr fun q _ => ?_
  by_cases h : q.idx = n <;> simp [h, Region.retire]

theorem Voyage.halted_modRegion {v : Voyage} {n : Nat} (h : ∀ q ∈ v.regions, q.idx ≠ n → q.st ≠ .halted) :
    (v.modRegion n Region.retire).halted = false := by
  simp only [Voyage.halted, Voyage.modRegion, List.any_eq_false, List.forall_mem_map, beq_iff_eq]
  intro q hq
  by_cases hn : q.idx = n
  · simp [hn, Region.retire]
  · simpa [hn] using h q hq hn

end Sys2Proof.Machine

namespace Sys2Proof.Proofs

open Sys2Proof Sys2Proof.Machine Sys2Proof.Claims

/-- The machine once a region has retired and its Helm has recorded it: the stop is consumed, the marks of its domains are all ones. -/
def retiredState (s : State) (voy reg : Nat) (v : Voyage) (r : Region) : State :=
  let x := (((on s (.region voy reg)).modStation (r.at r.dn.1.val r.dn.2.1.val) fun t => t.modC r.dn.2.2 Fifo.pop).modRegion voy reg
    Region.retire).leaveMarks v r
  x.owe voy (x.statusWrites v r 1)

section
variable {s : State} {voy reg : Nat} {v : Voyage} {r : Region} (hv : s.voyage? voy = some v) (hr : v.region? reg = some r)
include hv hr

theorem regionRetire_passes (h : s.doneStop r = false ∨ r.st ≠ .running ∨ v.frozen = true ∨ r.frozen = true) :
    Passes s .regionRetire (.region voy reg) := by
  have hv' : (on s (.region voy reg)).voyage? voy = some v := hv
  have hr' : (on s (.region voy reg)).region? voy reg = some r := State.region?_of hv hr
  have hd : (on s (.region voy reg)).doneStop r = s.doneStop r := rfl
  show execRegionRetire (on s (.region voy reg)) = _
  rcases h with h | h | h | h <;> simp [execRegionRetire, show (on s (.region voy reg)).ev = .region voy reg from rfl, hv', hr', hd, h]

/-- The voyage of a region that has retired, as it is then wound up. -/
theorem regionRetire_winds (hd : s.doneStop r = true) (hst : r.st = .running) (hf : v.frozen = false) (hrf : r.frozen = false) :
    ∃ w, (retiredState s voy reg v r).voyage? voy = some w ∧ w.unowed = (v.modRegion reg Region.retire).unowed ∧
      Gives s .regionRetire (.region voy reg) ((retiredState s voy reg v r).wind w) := by
  have hx : ((((on s (.region voy reg)).modStation (r.at r.dn.1.val r.dn.2.1.val) fun t => t.modC r.dn.2.2 Fifo.pop).modRegion voy reg
      Region.retire).leaveMarks v r).voyage? voy = some (v.modRegion reg Region.retire) := by
    rw [State.voyage?, (State.leaveMarks_memFrame _ v r).voyages]
    exact State.modRegion_voyage? hv
  obtain ⟨w, hw, he⟩ := (State.owe_helm _ voy _).voyages.voyage? hx
  refine ⟨w, hw, he, ?_⟩
  have hv' : (on s (.region voy reg)).voyage? voy = some v := hv
  have hr' : (on s (.region voy reg)).region? voy reg = some r := State.region?_of hv hr
  have hgo : (!(r.st == .running && !v.frozen && !r.frozen && (on s (.region voy reg)).doneStop r)) = false := by
    simp [hst, hf, hrf, show (on s (.region voy reg)).doneStop r = true from hd]
  show execRegionRetire (on s (.region voy reg)) = _
  simp only [execRegionRetire, show (on s (.region voy reg)).ev = .region voy reg from rfl, hv', hr', hgo, Bool.false_eq_true, if_false]
  split
  · rename_i z hz
    cases (hz.symm.trans hw : some z = some w)
    rfl
  · rename_i hz
    cases (hz.symm.trans hw :)

end

theorem regionsRetire : StatementPart.RegionsRetire := by
  intro s voy reg v r hv hr
  refine ⟨regionRetire_passes hv hr, fun hd hst hf hrf he => ?_⟩
  obtain ⟨w, hw, hwu, hgives⟩ := regionRetire_winds hv hr hd hst hf hrf
  have hid : w.id = voy := State.voyage?_id hw
  have hwe : w.ended = false := (Voyage.unowed_ended hwu).trans he
  refine ⟨_, hgives, fun hh hopen => ?_, fun hall hquiet => ?_⟩
  · have hwh : w.halted = false := (Voyage.unowed_halted hwu).trans (Voyage.halted_modRegion fun q hq _ hst => by
      rw [Voyage.halted, List.any_eq_false] at hh
      exact hh q hq (by simp [hst]))
    have hwr : w.retired = false := by
      obtain ⟨q, hq, hqi, hqs⟩ := hopen
      refine (Voyage.unowed_retired hwu).trans (Bool.eq_false_iff.2 fun h => hqs (Voyage.retired_modRegion.1 h q hq hqi))
    obtain ⟨z, hz, hzu⟩ := (State.wind_helm hwe hwh hwr).voyages.voyage? hw
    have hzv := hzu.trans hwu
    have hregion (k : Nat) : z.region? k = (v.modRegion reg Region.retire).region? k := Voyage.unowed_region? hzv k
    refine ⟨z, r.retire, hz, ?_, rfl, (Voyage.unowed_pool hzv :), fun k q hk hq => ?_⟩
    · rw [hregion]; exact Voyage.modRegion_region?_self hr fun _ h => h
    · rw [hregion]; exact Voyage.modRegion_region?_ne hq (fun _ h => h) hk
  · obtain ⟨hbusy, howed⟩ := hquiet
    have ho : w.owed = [] := howed w hw
    have hwh : w.halted = false := (Voyage.unowed_halted hwu).trans (Voyage.halted_modRegion fun q hq hqi hst => by
      rw [hall q hq hqi] at hst; cases hst)
    have hwr : w.retired = true := (Voyage.unowed_retired hwu).trans (Voyage.retired_modRegion.2 hall)
    have hwf : w.frozen = false := (Voyage.unowed_frozen hwu).trans hf
    rw [State.wind_complete hwe hwh hwr ho hwf (by rw [hid]; exact hbusy)]
    obtain ⟨hst', hrt, hag, -, hvs⟩ := State.complete_cleared (retiredState s voy reg v r) w
    rw [hid] at hst' hrt hag hvs
    refine ⟨hst', hrt, hag, fun u hu hui => ?_, fun hrel hc => ?_⟩
    · obtain ⟨_, -, rfl⟩ := hvs u hu hui
      exact ⟨rfl, rfl⟩
    · have hpkt : w.pkt = v.pkt := (Voyage.unowed_pkt hwu :)
      rw [← hid]
      exact State.finish_silent ho (by rw [hpkt, hrel]) (by rw [hpkt, hc])

end Sys2Proof.Proofs
end

