-- ==== Sys2Proof/Proofs/Halt.lean ====
section
/-! SUPPORT. What a halt records and drops, and the proof that regions halt with their codes (R60, R61, R439, R448). -/

namespace Sys2Proof.Machine

open Sys2Proof Sys2Proof.Claims

/-! ### The record of a halt -/

/-- The record of a region at a halt of its voyage. -/
def Region.halt (regs : List Nat) (code : Byte) (payload : BitVec 128) (r : Region) : Region :=
  let r := { r with frozen := false, snap := .none }
  if regs.contains r.idx then { r with st := .halted, code := code, haltRec := payload }
  else if r.st == RSt.retired then r else { r with st := .halted, code := 0, haltRec := 0 }

/-- The record of a voyage at its halt. -/
def Voyage.halt (v : Voyage) (regs : List Nat) (code : Byte) (payload : BitVec 128) : Voyage :=
  { v with
    regions := v.regions.map (Region.halt regs code payload), pkt := v.pkt.set 6 (haltWord code (regs.headD 0) v.save), dead := true, frozen := false,
    drain := none }

/-- The machine once the Helms have recorded a halt, before what goes at once has gone. -/
def State.recordHalt (s : State) (v : Voyage) (regs : List Nat) (code : Byte) (payload : BitVec 128) : State :=
  let w := v.halt regs code payload
  let rs := w.regions.filter fun r => r.st == .halted
  let s := rs.foldl (fun (s : State) r => s.leaveMarks w r) (s.modVoyage v.id fun _ => w)
  s.owe v.id (rs.flatMap fun r => s.statusWrites w r 2 ++ s.saveWrite w r 0x4640 64 (haltRecord r r.haltRec))

theorem State.halting_eq (s : State) (v : Voyage) (regs : List Nat) (code : Byte) (payload : BitVec 128) :
    s.halting v regs code payload =
      let t := s.recordHalt v regs code payload
      let t := { t.dropCopies v.id (fun k => !k.run || k.wait.isSome) with
        saved := (v.save, { t.savedAt (v.halt regs code payload) with held := true }) :: t.saved.filter fun e => e.1 ≠ v.save }
      { t with reqs := t.reqs.filter fun (q : Req) => !(q.voy == v.id && q.heldBack) } := rfl

section
variable (s : State) (v : Voyage) (regs : List Nat) (code : Byte) (payload : BitVec 128)

theorem State.leaveAll_memFrame (rs : List Region) : MemFrame s (rs.foldl (fun (s : State) r => s.leaveMarks v r) s) :=
  foldl_rel .refl .trans (fun s r => s.leaveMarks_memFrame v r) rs s

theorem State.recordHalt_helm : HelmFrame (s.modVoyage v.id fun _ => v.halt regs code payload) (s.recordHalt v regs code payload) :=
  (State.leaveAll_memFrame _ _ _).helm.trans (State.owe_helm _ _ _)

theorem State.halting_voyages : SameVoyages (s.modVoyage v.id fun _ => v.halt regs code payload) (s.halting v regs code payload) :=
  (s.recordHalt_helm v regs code payload).voyages

theorem State.halting_stations : (s.halting v regs code payload).stations = s.stations := (s.recordHalt_helm v regs code payload).stations

theorem State.halting_copies :
    (s.halting v regs code payload).copies = s.copies.filter fun k => !(k.voy == v.id && (!k.run || k.wait.isSome)) := by
  rw [State.halting_eq]
  exact congrArg (List.filter _) (s.recordHalt_helm v regs code payload).copies

/-- Of the voyage's requests only those stay that have been released and that no cell holds for room. -/
theorem State.halting_reqs : ∀ q ∈ (s.halting v regs code payload).reqs, q.voy = v.id → q.heldBack = false := by
  intro q hq hv
  have := (List.mem_filter.1 hq).2
  simpa [hv] using this

/-- The copies that keep the plats at a halt. -/
theorem State.halting_copiesOnPlats : (s.halting v regs code payload).copiesOnPlats v.id = s.copies.any (goesOn v.id) := by
  rw [State.copiesOnPlats, State.halting_copies, List.any_filter]
  congr 1
  funext k
  cases hv : k.voy == v.id <;> cases hr : k.run <;> cases hw : k.wait <;> simp [goesOn, hv, hr, hw]

theorem State.halting_voyage? (hv : s.voyage? v.id = some v) :
    ∃ w, (s.halting v regs code payload).voyage? v.id = some w ∧ w.unowed = (v.halt regs code payload).unowed :=
  (s.halting_voyages v regs code payload).voyage? (State.modVoyage_voyage? (f := fun _ => v.halt regs code payload) hv fun _ _ => rfl)

/-- Every record of the voyage shows the halt. -/
theorem State.halting_mem {w : Voyage} (hw : w ∈ (s.halting v regs code payload).voyages) (hid : w.id = v.id) :
    w.unowed = (v.halt regs code payload).unowed := by
  obtain ⟨u, hu, he⟩ := (s.halting_voyages v regs code payload).mem hw
  obtain ⟨z, -, rfl⟩ := List.mem_map.1 hu
  by_cases hz : z.id = v.id
  · rw [← he, if_pos hz]
  · rw [if_neg hz] at he
    exact absurd ((Voyage.unowed_id he).trans hid) hz

/-! ### Voyages without a save block -/

theorem State.saveWrite_none {s : State} {v : Voyage} (h : ∀ b ∈ s.saveBases, b.1 ≠ v.asid) (r : Region) (off n x : Nat) :
    s.saveWrite v r off n x = [] := by
  have : s.saveBases.find? (fun b => b.1 == v.asid) = none := List.find?_eq_none.2 fun b hb => by simpa using h b hb
  simp [State.saveWrite, State.saveBlock, this]

theorem State.statusWrites_none {s : State} {v : Voyage} (h : ∀ b ∈ s.saveBases, b.1 ≠ v.asid) (r : Region) (st : Nat) : s.statusWrites v r st = [] := by
  simp [State.statusWrites, State.stateWrites, State.counterWrites, State.saveWrite_none h]

/-- Helms that owe nothing, and get nothing to write, owe nothing. -/
theorem State.owe_nothing {s : State} {n : Nat} {v w : Voyage} (h : s.voyage? n = some v) (ho : v.owed = []) (hw : (s.owe n []).voyage? n = some w) :
    w.owed = [] := by
  have he : s.owe n [] = s.modVoyage n fun u => { u with owed := [] } := by
    simp [State.owe, h, ho, State.flush]
  rw [he, State.modVoyage_voyage? (f := fun u => { u with owed := [] }) h fun _ hu => hu] at hw
  cases hw
  rfl

theorem State.halting_owed (hv : s.voyage? v.id = some v) (hb : ∀ b ∈ s.saveBases, b.1 ≠ v.asid) (ho : v.owed = []) {w : Voyage}
    (hw : (s.halting v regs code payload).voyage? v.id = some w) : w.owed = [] := by
  let z := v.halt regs code payload
  let rs := z.regions.filter fun r => r.st == .halted
  let t := rs.foldl (fun (s : State) r => s.leaveMarks z r) (s.modVoyage v.id fun _ => z)
  have ht : MemFrame (s.modVoyage v.id fun _ => z) t := State.leaveAll_memFrame _ _ _
  have htb : ∀ b ∈ t.saveBases, b.1 ≠ z.asid := by rw [ht.saveBases]; exact hb
  have hnil : (rs.flatMap fun r => t.statusWrites z r 2 ++ t.saveWrite z r 0x4640 64 (haltRecord r r.haltRec)) = [] := by
    simp [State.statusWrites_none htb, State.saveWrite_none htb]
  have htv : t.voyage? v.id = some z := by
    rw [State.voyage?, ht.voyages]
    exact State.modVoyage_voyage? (f := fun _ => z) hv fun _ _ => rfl
  refine State.owe_nothing (n := v.id) htv ho ?_
  rw [← hnil]
  exact hw

/-- Once the halt is recorded, the voyage ends as soon as it can leave its plats. -/
theorem State.haltVoyage_eq {w : Voyage} (hw : (s.halting v regs code payload).voyage? v.id = some w) :
    s.haltVoyage v regs code payload = (s.halting v regs code payload).haltEnd w := by
  simp only [State.haltVoyage, hw]

end

end Sys2Proof.Machine

namespace Sys2Proof.Proofs

open Sys2Proof Sys2Proof.Machine Sys2Proof.Claims

/-! ### What a halt is -/

/-- A record that differs from that of the halt in its plats, its end and what is owed. -/
theorem records_halt {v w : Voyage} {reg : Nat} {code : Byte} {x : BitVec 128} {r : Region} (hr : v.region? reg = some r)
    (hregions : w.regions = (v.halt [reg] code x).regions) (hpkt : w.pkt = (v.halt [reg] code x).pkt) : Records w v reg code x := by
  have hw : w.regions = v.regions.map (Region.halt [reg] code x) := hregions
  have hidx (q : Region) : (Region.halt [reg] code x q).idx = q.idx := by
    unfold Region.halt
    dsimp only
    split
    · rfl
    · split <;> rfl
  have hself {q : Region} (h : q.idx = reg) : (Region.halt [reg] code x q).st = .halted ∧ (Region.halt [reg] code x q).code = code ∧
      (Region.halt [reg] code x q).haltRec = x := by
    simp [Region.halt, h]
  refine ⟨?_, ?_, ?_, ?_, ?_⟩
  · rw [Voyage.halted, hw, List.any_map, List.any_eq_true]
    exact ⟨r, Voyage.region?_mem hr, by simp [(hself (Voyage.region?_idx hr)).1]⟩
  · rw [hpkt]
    simp [Voyage.halt, Packet.cval]
  · rw [hw, List.map_map]
    exact List.map_congr_left fun q _ => hidx q
  · intro q hq hi
    rw [hw] at hq
    obtain ⟨p, -, rfl⟩ := List.mem_map.1 hq
    exact hself ((hidx p).symm.trans hi)
  · intro q hq hi
    rw [hw] at hq
    obtain ⟨p, -, rfl⟩ := List.mem_map.1 hq
    rw [hidx] at hi
    by_cases hst : p.st = .retired <;> simp [Region.halt, hi, hst]

/-- A voyage that halts for a region. -/
theorem haltVoyage_halts {s : State} {v : Voyage} {reg : Nat} {r : Region} (hv : s.voyage? v.id = some v) (hr : v.region? reg = some r) (code : Byte)
    (x : BitVec 128) : Halts s (s.haltVoyage v [reg] code x) v reg code x := by
  obtain ⟨w, hw, hwu⟩ := s.halting_voyage? v [reg] code x hv
  have hwid : w.id = v.id := State.voyage?_id hw
  have hpkt : w.pkt = (v.halt [reg] code x).pkt := Voyage.unowed_pkt hwu
  have hplats : (s.halting v [reg] code x).copiesOnPlats w.id = s.copies.any (goesOn v.id) := by
    rw [hwid]; exact s.halting_copiesOnPlats v [reg] code x
  rw [s.haltVoyage_eq v [reg] code x hw]
  cases hgo : s.copies.any (goesOn v.id) with
  | true =>
    rw [State.haltEnd, if_pos (hplats.trans hgo)]
    refine ⟨s.halting_reqs v [reg] code x, fun u hu hid => ?_, fun _ => ⟨s.halting_stations v [reg] code x, w, hw, ?_, ?_⟩, fun h => ?_⟩
    · have hu := s.halting_mem v [reg] code x hu hid
      exact records_halt hr (Voyage.unowed_regions hu) (Voyage.unowed_pkt hu)
    · exact (Voyage.unowed_ended hwu :)
    · exact (Voyage.unowed_pool hwu :)
    · rw [hgo] at h; cases h
  | false =>
    rw [State.haltEnd, if_neg (by rw [hplats, hgo]; decide)]
    obtain ⟨stations, -, -, reqs, voyages⟩ := State.clear_finish (s.halting v [reg] code x) w (.refl _)
    refine ⟨fun q hq hqv => ?_, fun u hu hid => ?_, fun h => ?_, fun _ => ⟨?_, fun u hu hid => ?_, fun hrel ho hb => ?_⟩⟩
    · obtain ⟨p, hp, hpv, hph⟩ := reqs q hq
      exact hph ▸ s.halting_reqs v [reg] code x p hp (hpv.trans hqv)
    · obtain ⟨z, hz, rfl⟩ := voyages u hu (hid.trans hwid.symm)
      have hz := s.halting_mem v [reg] code x hz hid
      exact records_halt hr (Voyage.unowed_regions hz :) (Voyage.unowed_pkt hz :)
    · rw [hgo] at h; cases h
    · rw [← hwid]; exact stations
    · obtain ⟨z, -, rfl⟩ := voyages u hu (hid.trans hwid.symm)
      exact ⟨rfl, rfl⟩
    · have howed : w.owed = [] := s.halting_owed v [reg] code x hv hb ho hw
      have hwrel : w.pkt.rel = false := by
        rw [hpkt, ← hrel]; simp [Voyage.halt, Packet.rel]
      have hcaddr : w.pkt.caddr = v.pkt.caddr := by
        rw [hpkt]; simp [Voyage.halt, Packet.caddr]
      have hcval : w.pkt.cval = (haltWord code reg v.save).toNat := by
        rw [hpkt]; simp [Voyage.halt, Packet.cval]
      have hasid : w.asid = v.asid := (Voyage.unowed_asid hwu :)
      rw [← hwid]
      refine ⟨fun hc => State.finish_silent howed hwrel (hcaddr.trans hc), fun hc z hz => ?_⟩
      refine State.finish_written howed hwrel (by rwa [hcaddr]) ?_
      rw [hcaddr, hcval, hasid]
      exact hz

/-! ### The events of a halt -/

section
variable {s : State} {voy reg : Nat} {v : Voyage} {r : Region} (hv : s.voyage? voy = some v) (hr : v.region? reg = some r)
include hv hr

theorem regionHalt_passes {code : Byte} {x : BitVec 128} (hc : code ≠ 0x0C) (hp : s.haltComes voy reg = true) :
    Passes s .regionHalt (.halt voy reg code x) := by
  have hv' : (on s (.halt voy reg code x)).voyage? voy = some v := hv
  have hr' : (on s (.halt voy reg code x)).region? voy reg = some r := State.region?_of hv hr
  have hstop : (v.ended || !(r.st == .running || r.st == .waiting) || (code != 0x0C && (on s (.halt voy reg code x)).haltComes voy reg)) = true := by
    rw [show (on s (.halt voy reg code x)).haltComes voy reg = true from hp, bne_iff_ne.2 hc, Bool.and_self, Bool.or_true]
  show execRegionHalt (on s (.halt voy reg code x)) = _
  simp only [execRegionHalt, show (on s (.halt voy reg code x)).ev = .halt voy reg code x from rfl, hv', hr', hstop, if_true]

theorem regionHalt_halts {code : Byte} {x : BitVec 128} (he : v.ended = false) (hst : r.st = .running ∨ r.st = .waiting)
    (hp : code = 0x0C ∨ s.haltComes voy reg = false) :
    Gives s .regionHalt (.halt voy reg code x) ((on s (.halt voy reg code x)).haltVoyage v [reg] code x) := by
  have hv' : (on s (.halt voy reg code x)).voyage? voy = some v := hv
  have hr' : (on s (.halt voy reg code x)).region? voy reg = some r := State.region?_of hv hr
  have hgo : (v.ended || !(r.st == .running || r.st == .waiting) || (code != 0x0C && (on s (.halt voy reg code x)).haltComes voy reg)) = false := by
    have hp' : (on s (.halt voy reg code x)).haltComes voy reg = s.haltComes voy reg := rfl
    rcases hst with hst | hst <;> rcases hp with hp | hp <;> simp [he, hst, hp', hp]
  show execRegionHalt (on s (.halt voy reg code x)) = _
  simp only [execRegionHalt, show (on s (.halt voy reg code x)).ev = .halt voy reg code x from rfl, hv', hr', hgo, Bool.false_eq_true, if_false]

theorem deadlockHalt_halts (hq : 4096 ≤ v.quiet) (hd : v.dead = true) (hst : r.st = .running) {t : Station} (ht : s.station? (r.at 0 0) = some t) :
    Gives s .deadlockHalt (.region voy reg)
      ((on s (.region voy reg)).haltVoyage v [reg] 0x09 ((faultPayload t 0 0 ⟨0x09, 0, 0⟩).extractLsb' 0 128)) := by
  have hv' : (on s (.region voy reg)).voyage? voy = some v := hv
  have hr' : (on s (.region voy reg)).region? voy reg = some r := State.region?_of hv hr
  have ht' : (on s (.region voy reg)).station? (r.at 0 0) = some t := ht
  show execDeadlockHalt (on s (.region voy reg)) = _
  simp [execDeadlockHalt, show (on s (.region voy reg)).ev = .region voy reg from rfl, hv', hr', ht', hd, hst, Nat.not_lt.2 hq, deadlockFault]

theorem deadlockHalt_passes (h : v.quiet < 4096 ∨ v.dead = false ∨ r.st ≠ .running) : Passes s .deadlockHalt (.region voy reg) := by
  have hv' : (on s (.region voy reg)).voyage? voy = some v := hv
  have hr' : (on s (.region voy reg)).region? voy reg = some r := State.region?_of hv hr
  have hstop : v.quiet < 4096 ∨ (!v.dead) = true ∨ r.st ≠ .running := by simpa using h
  show execDeadlockHalt (on s (.region voy reg)) = _
  simp only [execDeadlockHalt, show (on s (.region voy reg)).ev = .region voy reg from rfl, hv', hr', if_pos hstop]

end

/-! ### The deadlock fault (R60, R61) -/

/-- The deadlock fault of one region of a voyage. -/
def quietRegion (voy : Nat) (v : Voyage) (s : State) (r : Region) : State :=
  if r.st ≠ .running then s
  else
    let r := { r with code := 0x09 }
    let s := s.modRegion voy r.idx fun _ => r
    let s := s.owe voy (s.occupancyWrites v r)
    match s.station? (r.at 0 0) with
    | none => s
    | some t => s.pushFault voy r.idx (faultToken t 0 0 ⟨false, 0⟩ deadlockFault)

theorem pushFault_voyages (s : State) (voy reg : Nat) (t : Token) : (s.pushFault voy reg t).voyages = s.voyages := by
  unfold State.pushFault
  split
  · rfl
  · split
    · rfl
    · split
      · rfl
      · split <;> rfl

theorem pushFault_stations (s : State) (voy reg : Nat) (t : Token) : (s.pushFault voy reg t).stations.map (·.id) = s.stations.map (·.id) := by
  unfold State.pushFault
  split
  · rfl
  · split
    · rfl
    · split
      · rfl
      · split
        · show (s.stations.map _).map _ = _
          rw [List.map_map]
          refine List.map_congr_left fun u _ => ?_
          show (if _ then _ else _ : Station).id = _
          split <;> rfl
        · rfl

/-- From `s` to `t` no station comes or goes, and a voyage keeps its plats and the numbers of its regions. -/
def Quieted (voy : Nat) (s t : State) : Prop :=
  t.stations.map (·.id) = s.stations.map (·.id) ∧
    ∀ v, s.voyage? voy = some v → ∃ w, t.voyage? voy = some w ∧ w.pool = v.pool ∧ w.regions.map (·.idx) = v.regions.map (·.idx)

/-- The regions of a voyage with that number run, and have the code of the deadlock fault. -/
def Faulted (voy k : Nat) (t : State) : Prop := ∀ w, t.voyage? voy = some w → ∀ p ∈ w.regions, p.idx = k → p.code = 0x09 ∧ p.st = .running

section
variable {voy : Nat} {v : Voyage} (s : State) (r : Region)

/-- A region that does not run takes no fault. -/
theorem quietRegion_still (h : r.st ≠ .running) : quietRegion voy v s r = s := if_pos h

/-- One that runs takes its code, and so does every record of its number. -/
theorem quietRegion_voyage (h : r.st = .running) {u : Voyage} (hu : s.voyage? voy = some u) :
    ∃ w, (quietRegion voy v s r).voyage? voy = some w ∧ w.unowed = (u.modRegion r.idx fun _ => { r with code := 0x09 }).unowed := by
  obtain ⟨w, hw, he⟩ := (State.owe_helm (s.modRegion voy r.idx fun _ => { r with code := 0x09 }) voy
    ((s.modRegion voy r.idx fun _ => { r with code := 0x09 }).occupancyWrites v { r with code := 0x09 })).voyages.voyage? (State.modRegion_voyage? hu)
  refine ⟨w, ?_, he⟩
  rw [quietRegion, if_neg (by simp [h])]
  dsimp only
  split
  · exact hw
  · rw [State.voyage?, pushFault_voyages]; exact hw

theorem quietRegion_stations : (quietRegion voy v s r).stations.map (·.id) = s.stations.map (·.id) := by
  have hs (ws : List Owed) : (((s.modRegion voy r.idx fun _ => { r with code := 0x09 }).owe voy ws).stations) = s.stations :=
    (State.owe_helm _ _ _).stations
  unfold quietRegion
  split
  · rfl
  · dsimp only
    split
    · rw [hs]
    · rw [pushFault_stations, hs]

/-- The regions of a record after one number has been overwritten. -/
theorem mem_modRegion_const {u : Voyage} {n : Nat} {q p : Region} (hp : p ∈ (u.modRegion n fun _ => q).regions) :
    (p ∈ u.regions ∧ p.idx ≠ n) ∨ p = q := by
  obtain ⟨z, hz, rfl⟩ := List.mem_map.1 hp
  by_cases h : z.idx = n
  · exact .inr (if_pos h)
  · rw [if_neg h]; exact .inl ⟨hz, h⟩

theorem quietRegion_quieted : Quieted voy s (quietRegion voy v s r) := by
  refine ⟨quietRegion_stations s r, fun u hu => ?_⟩
  by_cases h : r.st = .running
  · obtain ⟨w, hw, he⟩ := quietRegion_voyage (v := v) s r h hu
    refine ⟨w, hw, (Voyage.unowed_pool he :), ?_⟩
    rw [Voyage.unowed_regions he, Voyage.modRegion, List.map_map]
    refine List.map_congr_left fun t _ => ?_
    by_cases ht : t.idx = r.idx <;> simp [ht]
  · rw [quietRegion_still s r h]
    exact ⟨u, hu, rfl, rfl⟩

theorem quietRegion_faulted (h : r.st = .running) {u : Voyage} (hu : s.voyage? voy = some u) : Faulted voy r.idx (quietRegion voy v s r) := by
  obtain ⟨w, hw, he⟩ := quietRegion_voyage (v := v) s r h hu
  intro z hz p hp hi
  cases hw.symm.trans hz
  rw [Voyage.unowed_regions he] at hp
  rcases mem_modRegion_const hp with ⟨-, hne⟩ | rfl
  · exact absurd hi hne
  · exact ⟨rfl, h⟩

theorem Faulted.keep {k : Nat} (hf : Faulted voy k s) {u : Voyage} (hu : s.voyage? voy = some u) : Faulted voy k (quietRegion voy v s r) := by
  by_cases h : r.st = .running
  · obtain ⟨w, hw, he⟩ := quietRegion_voyage (v := v) s r h hu
    intro z hz p hp hi
    cases hw.symm.trans hz
    rw [Voyage.unowed_regions he] at hp
    rcases mem_modRegion_const hp with ⟨hp, -⟩ | rfl
    · exact hf u hu p hp hi
    · exact ⟨rfl, h⟩
  · rwa [quietRegion_still s r h]

end

theorem Quieted.refl (voy : Nat) (s : State) : Quieted voy s s := ⟨rfl, fun v hv => ⟨v, hv, rfl, rfl⟩⟩

theorem Quieted.trans {voy : Nat} {s t u : State} (h : Quieted voy s t) (k : Quieted voy t u) : Quieted voy s u := by
  refine ⟨k.1.trans h.1, fun v hv => ?_⟩
  obtain ⟨w, hw, hp, hr⟩ := h.2 v hv
  obtain ⟨z, hz, hp', hr'⟩ := k.2 w hw
  exact ⟨z, hz, hp'.trans hp, hr'.trans hr⟩

/-- The deadlock fault of every region in turn. -/
theorem quietRegions_quieted (voy : Nat) (v : Voyage) (rs : List Region) (s : State) : Quieted voy s (rs.foldl (quietRegion voy v) s) :=
  foldl_rel (.refl voy) .trans quietRegion_quieted rs s

theorem quietRegions_faulted {voy : Nat} {v u : Voyage} {s : State} {rs : List Region} {q : Region} (hq : q ∈ rs) (hst : q.st = .running)
    (hu : s.voyage? voy = some u) : Faulted voy q.idx (rs.foldl (quietRegion voy v) s) := by
  obtain ⟨pre, post, rfl⟩ := List.append_of_mem hq
  rw [List.foldl_append, List.foldl_cons]
  obtain ⟨w, hw, -⟩ := (quietRegions_quieted voy v pre s).2 u hu
  have hstart := quietRegion_faulted (v := v) _ q hst hw
  obtain ⟨z, hz, -⟩ := (quietRegion_quieted (v := v) (pre.foldl (quietRegion voy v) s) q).2 w hw
  have hboth := List.foldlRecOn (motive := fun t => Faulted voy q.idx t ∧ ∃ z, t.voyage? voy = some z) post (quietRegion voy v) ⟨hstart, z, hz⟩
    fun t ht r _ => by
      obtain ⟨hf, z, hz⟩ := ht
      obtain ⟨y, hy, -⟩ := (quietRegion_quieted (v := v) t r).2 z hz
      exact ⟨hf.keep t r hz, y, hy⟩
  exact hboth.1

theorem quietDeadlock_passes {s : State} {voy : Nat} {v : Voyage} (hv : s.voyage? voy = some v) (h : v.quiet < 4096 ∨ v.dead = true) :
    Passes s .quietDeadlock (.voyage voy) := by
  have hv' : (on s (.voyage voy)).voyage? voy = some v := hv
  show execQuietDeadlock (on s (.voyage voy)) = _
  simp only [execQuietDeadlock, show (on s (.voyage voy)).ev = .voyage voy from rfl, hv', if_pos h]

theorem quietDeadlock_faults {s : State} {voy : Nat} {v : Voyage} (hv : s.voyage? voy = some v) (hq : 4096 ≤ v.quiet) (hd : v.dead = false) :
    Gives s .quietDeadlock (.voyage voy)
      ((v.regions.foldl (quietRegion voy v) (on s (.voyage voy))).modVoyage voy fun v => { v with quiet := 0, dead := true }) := by
  have hv' : (on s (.voyage voy)).voyage? voy = some v := hv
  have hgo : ¬(v.quiet < 4096 ∨ v.dead = true) := by simp [hd, hq]
  show execQuietDeadlock (on s (.voyage voy)) = _
  simp only [execQuietDeadlock, show (on s (.voyage voy)).ev = .voyage voy from rfl, hv', if_neg hgo]
  rfl

theorem quietDeadlock_records {s : State} {voy : Nat} {v : Voyage} (hv : s.voyage? voy = some v) (hq : 4096 ≤ v.quiet) (hd : v.dead = false) :
    ∃ u w, Gives s .quietDeadlock (.voyage voy) u ∧ u.voyage? voy = some w ∧ w.quiet = 0 ∧ w.dead = true ∧ w.pool = v.pool ∧
      u.stations.map (·.id) = s.stations.map (·.id) ∧
      ∀ q ∈ v.regions, q.st = .running → ∃ r, w.region? q.idx = some r ∧ r.code = 0x09 ∧ r.st = .running := by
  have hv' : (on s (.voyage voy)).voyage? voy = some v := hv
  obtain ⟨hids, hvoy⟩ := quietRegions_quieted voy v v.regions (on s (.voyage voy))
  obtain ⟨w, hw, hpool, hidx⟩ := hvoy v hv'
  refine ⟨_, { w with quiet := 0, dead := true }, quietDeadlock_faults hv hq hd,
    State.modVoyage_voyage? (f := fun v => { v with quiet := 0, dead := true }) hw fun _ h => h, rfl, rfl, hpool, hids, fun q hq hst => ?_⟩
  have hmem : q.idx ∈ w.regions.map (·.idx) := hidx ▸ List.mem_map_of_mem hq
  obtain ⟨p, hp, hpi⟩ := List.mem_map.1 hmem
  obtain ⟨r, hr⟩ := Option.isSome_iff_exists.1 (List.find?_isSome (p := fun t : Region => t.idx == q.idx) |>.2 ⟨p, hp, by simp [hpi]⟩)
  exact ⟨r, hr, quietRegions_faulted hq hst hv' w hw r (List.mem_of_find?_eq_some hr) (by simpa using List.find?_some hr)⟩

theorem regionsHalt : StatementPart.RegionsHalt := by
  refine ⟨fun s voy reg code x v r hv hr he hst => ⟨regionHalt_passes hv hr, fun hp => ?_⟩, fun s voy reg v r hv hr _ hq hd hst t ht => ?_,
    fun s voy reg v r hv hr => deadlockHalt_passes hv hr, fun s voy v hv hq hd => quietDeadlock_records hv hq hd,
    fun s voy v hv => quietDeadlock_passes hv⟩
  · have hid : v.id = voy := State.voyage?_id hv
    exact ⟨_, regionHalt_halts hv hr he hst hp, haltVoyage_halts (s := on s _) (by rw [hid]; exact hv) hr code x⟩
  · have hid : v.id = voy := State.voyage?_id hv
    exact ⟨_, deadlockHalt_halts hv hr hq hd hst ht, haltVoyage_halts (s := on s _) (by rw [hid]; exact hv) hr 0x09 _⟩

end Sys2Proof.Proofs
end

