-- ==== Sys2Proof/Proofs/Limits.lean ====
section
/-! SUPPORT. What a time limit that has run out brings (R256, R292, R454), and the proof that regions end. -/

namespace Sys2Proof.Proofs

open Sys2Proof Sys2Proof.Machine Sys2Proof.Claims

/-! ### The limit of a region -/

section
variable {s : State} {v : Voyage} {r : Region} {voy reg : Nat} (hv : s.voyage? voy = some v) (hr : v.region? reg = some r)
include hv hr

theorem regionHalted_eq : s.regionHalted voy reg = (r.st == .halted) := by
  rw [State.regionHalted, State.region?_of hv hr]
  rfl

/-- A region whose limit has run out takes the class as its code, and its voyage drains, or it halts. -/
theorem expire_expires (hst : r.st ≠ .halted) (t : Station) (ctx : Fin 8) (slot : Fin 32) (f : FaultC) :
    Expires s (s.expire voy reg t ctx slot f) v r t ctx slot f := by
  obtain rfl : v.id = voy := State.voyage?_id hv
  obtain rfl : r.idx = reg := Voyage.region?_idx hr
  have hh : s.regionHalted v.id r.idx = false := by rw [regionHalted_eq hv hr]; simpa using hst
  let u := s.modRegion v.id r.idx fun r => { r with code := BitVec.ofNat 8 f.code }
  have hregion : u.region? v.id r.idx = some { r with code := BitVec.ofNat 8 f.code } :=
    State.region?_of (State.modRegion_voyage? hv) (Voyage.modRegion_region?_self hr fun _ h => h)
  cases hs : s.saveBlock v.asid v.save r.idx with
  | none =>
    have hu : u.saveBlock v.asid v.save r.idx = none := hs
    have he : s.expire v.id r.idx t ctx slot f = u.later .regionHalt
        (.halt v.id r.idx (BitVec.ofNat 8 f.code) ((faultPayload t ctx slot f).extractLsb' 0 128)) := by
      simp only [State.expire, hv, hh, u, hu]
    rw [he]
    exact ⟨hregion, rfl, rfl, rfl, by rw [hs]; rfl⟩
  | some b =>
    have hu : u.saveBlock v.asid v.save r.idx = some b := hs
    have he : s.expire v.id r.idx t ctx slot f = u.soon .drain (.drain v.id 1) := by
      simp only [State.expire, hv, hh, u, hu]
    rw [he]
    exact ⟨hregion, rfl, rfl, rfl, by rw [hs]; rfl⟩

end

/-! ### A withheld request -/

theorem dropReq_req? (s : State) (n : Nat) : (s.dropReq n).req? n = none := by
  refine List.find?_eq_none.2 fun q hq => ?_
  simpa using (List.mem_filter.1 hq).2

/-- A copy that is over is gone, and its request with it. -/
theorem endCopy_gone (s : State) (k : Copy) : (s.endCopy k).copy? k.id = none ∧ (s.endCopy k).req? k.req = none ∧
    ∀ n, s.req? n = none → (s.endCopy k).req? n = none := by
  refine ⟨List.find?_eq_none.2 fun c hc => ?_, dropReq_req? _ _, fun n hn => List.find?_eq_none.2 fun q hq => ?_⟩
  · simpa using (List.mem_filter.1 hc).2
  · exact List.find?_eq_none.1 hn q (List.mem_filter.1 hq).1

section
variable {s : State} {id : Nat} {q : Req} {w : Held} {t : Station} {v : Voyage} {r : Region} (hq : s.req? id = some q)
  (hv : s.voyage? q.voy = some v) (hr : v.region? q.reg = some r)
include hv hr

theorem expireReq_runs (hst : r.st ≠ .halted) :
    Expires s ((on s (.req id)).expireReq w q t) v r t q.ctx q.slot ((on s (.req id)).limitReq w q) := by
  have hh : (on s (.req id)).regionHalted q.voy q.reg = false := by
    rw [regionHalted_eq (s := on s (.req id)) hv hr]; simpa using hst
  rw [State.expireReq, hh]
  exact expire_expires (s := on s (.req id)) hv hr hst t q.ctx q.slot _

include hq

/-- The limit of a withheld request. -/
theorem timeLimit_req (hw : s.heldBack q = some w) (ht : s.station? q.st = some t) : Gives s .timeLimitExpiry (.req id)
    (if r.tlim ≤ q.held then (on s (.req id)).expireReq w q t else on s (.req id)) := by
  have hq' : (on s (.req id)).req? id = some q := hq
  have hw' : (on s (.req id)).heldBack q = some w := hw
  have ht' : (on s (.req id)).station? q.st = some t := ht
  have hr' : (on s (.req id)).region? q.voy q.reg = some r := State.region?_of hv hr
  show execTimeLimitExpiry (on s (.req id)) = _
  simp only [execTimeLimitExpiry, show (on s (.req id)).ev = .req id from rfl, hq', hw', ht', hr']

/-- A request that a halted region has left is dropped, with the copy that it works for. -/
theorem expireReq_drops (hst : r.st = .halted) {u : State} (hu : (on s (.req id)).expireReq w q t = u) :
    u.req? id = none ∧ (∀ c n wr, q.op = .part c n wr → u.copy? c = none) ∧ u.agenda = s.agenda ∧ u.voyages = s.voyages := by
  have hh : (on s (.req id)).regionHalted q.voy q.reg = true := by
    rw [regionHalted_eq (s := on s (.req id)) hv hr]; simpa using hst
  obtain rfl : q.id = id := by simpa using List.find?_some hq
  have hgone := dropReq_req? (on s (.req q.id)) q.id
  simp only [State.expireReq, hh, if_true] at hu
  split at hu
  · rename_i c n wr hop
    split at hu
    · rename_i k hk
      obtain ⟨hcopy, -, hreqs⟩ := endCopy_gone ((on s (.req q.id)).dropReq q.id) k
      obtain rfl : k.id = c := by simpa using List.find?_some hk
      subst hu
      refine ⟨hreqs _ hgone, fun c' n' wr' h => ?_, rfl, rfl⟩
      rw [hop] at h
      cases h
      exact hcopy
    · rename_i hk
      subst hu
      refine ⟨hgone, fun c' n' wr' h => ?_, rfl, rfl⟩
      rw [hop] at h
      cases h
      exact hk
  · rename_i hop
    subst hu
    exact ⟨hgone, fun c n wr h => absurd h (hop c n wr), rfl, rfl⟩

end

/-! ### A withheld copy, a tree engine, an edge that is cut off -/

theorem timeLimit_copy {s : State} {id : Nat} {k : Copy} {w : Held} {t : Station} {v : Voyage} {r : Region} (hk : s.copy? id = some k)
    (hw : k.wait = some w) (ht : s.station? k.st = some t) (hv : s.voyage? k.voy = some v) (hr : v.region? k.reg = some r) :
    Gives s .timeLimitExpiry (.copy id)
      (if r.tlim ≤ k.held then
        (if r.st = .halted then (on s (.copy id)).endCopy k
         else (on s (.copy id)).expire k.voy k.reg t k.ctx k.slot ((on s (.copy id)).limitCopy w k))
       else on s (.copy id)) := by
  have hk' : (on s (.copy id)).copy? id = some k := hk
  have ht' : (on s (.copy id)).station? k.st = some t := ht
  have hr' : (on s (.copy id)).region? k.voy k.reg = some r := State.region?_of hv hr
  have hh : (on s (.copy id)).regionHalted k.voy k.reg = (r.st == .halted) := regionHalted_eq (s := on s (.copy id)) hv hr
  show execTimeLimitExpiry (on s (.copy id)) = _
  simp only [execTimeLimitExpiry, show (on s (.copy id)).ev = .copy id from rfl, hk', hw, ht', hr', hh, beq_iff_eq]

theorem timeLimit_tree {s : State} {i : StId} {t : Station} {j : TreeJob} {w : Held} {va : Nat} {v : Voyage} {r : Region} (ht : s.station? i = some t)
    (hj : t.sd.bind (·.eng) = some j) (hw : j.wait = some (w, va)) (hv : s.voyage? t.voy = some v) (hr : v.region? t.reg = some r) :
    Gives s .timeLimitExpiry (.st i)
      (if r.tlim ≤ j.held then (on s (.st i)).expire t.voy t.reg t j.ctx j.slot ((on s (.st i)).limitFault w v.asid va accTree) else on s (.st i)) := by
  have ht' : (on s (.st i)).station? i = some t := ht
  have hv' : (on s (.st i)).voyage? t.voy = some v := hv
  have hr' : (on s (.st i)).region? t.voy t.reg = some r := State.region?_of hv hr
  show execTimeLimitExpiry (on s (.st i)) = _
  simp only [execTimeLimitExpiry, show (on s (.st i)).ev = .st i from rfl, ht', hj, hw, hv', hr']

theorem timeLimit_route {s : State} {id : Nat} {e : Route} {t : Station} {v : Voyage} {r : Region} (he : s.routeId? id = some e)
    (hc : s.cutEdge e = true) (ht : s.station? e.src = some t) (hv : s.voyage? e.voy = some v) (hr : v.region? e.reg = some r) :
    Gives s .timeLimitExpiry (.route id)
      (if r.tlim ≤ e.held then (on s (.route id)).expire e.voy e.reg t 0 0 (transFault 1 accStore 0) else on s (.route id)) := by
  have he' : (on s (.route id)).routeId? id = some e := he
  have hc' : (on s (.route id)).cutEdge e = true := hc
  have ht' : (on s (.route id)).station? e.src = some t := ht
  have hr' : (on s (.route id)).region? e.voy e.reg = some r := State.region?_of hv hr
  show execTimeLimitExpiry (on s (.route id)) = _
  simp only [execTimeLimitExpiry, show (on s (.route id)).ev = .route id from rfl, he', hc', ht', hr']

/-! ### The class of a limit (Table 10.8) -/

/-- The first piece of an access that is withheld is the one it is judged at. -/
theorem limitIn_first {s : State} {w : Held} {asid : BitVec 16} {va n a acc : Nat} {rd wr : Bool} (h : FirstHeld s asid rd wr (lineParts va n) a) :
    s.limitIn w asid va n rd wr acc = some (s.limitFault w asid a acc) := by
  obtain ⟨pre, m, post, x, hps, hx, hpre⟩ := h
  have hfind : (lineParts va n).find? (fun (p : Nat × Nat) => match s.translate asid p.1 rd wr with | .held _ => true | _ => false) = some (a, m) := by
    rw [hps, List.find?_append, List.find?_eq_none.2, List.find?_cons_of_pos]
    · rfl
    · simp only [hx]
    · intro p hp
      have := hpre p hp
      cases ht : s.translate asid p.1 rd wr <;> simp_all
  unfold State.limitIn
  exact congrArg (Option.map _) hfind

/-- An access of which no piece is withheld. -/
theorem limitIn_none {s : State} {w : Held} {asid : BitVec 16} {va n acc : Nat} {rd wr : Bool}
    (h : ∀ p ∈ lineParts va n, ∀ x, s.translate asid p.1 rd wr ≠ .held x) : s.limitIn w asid va n rd wr acc = none := by
  unfold State.limitIn
  rw [List.find?_eq_none.2]
  · rfl
  · intro p hp
    have := h p hp
    cases ht : s.translate asid p.1 rd wr <;> simp_all

theorem limitFault_class (s : State) (asid : BitVec 16) (va acc d : Nat) {a e : Nat} (h : s.walk asid va = .leaf a e) :
    s.limitFault (.noFrame d) asid va acc =
      if pteKind e = 2 then ⟨0x04, 0, va⟩ else if pteKind e = 0 then ⟨0x04, 1, va⟩ else transFault 1 acc va := by
  simp only [State.limitFault, h]

theorem timeLimitsExpire : StatementPart.TimeLimitsExpire := by
  refine ⟨?_, ?_, ?_, ?_, ?_, ?_, ?_⟩
  case refine_1 =>
    intro s id q w t v r hq hw ht hv hr
    have hgives := timeLimit_req hq hv hr hw ht
    refine ⟨fun h => ?_, fun h hst => ?_, fun h hst => ?_⟩
    · rwa [if_neg (Nat.not_le.2 h)] at hgives
    · rw [if_pos h] at hgives
      exact ⟨_, hgives, expireReq_runs hv hr hst⟩
    · rw [if_pos h] at hgives
      exact ⟨_, hgives, expireReq_drops hq hv hr hst rfl⟩
  case refine_2 =>
    intro s id k w t v r hk hw ht hv hr
    have hgives := timeLimit_copy hk hw ht hv hr
    refine ⟨fun h => ?_, fun h hst => ?_, fun h hst => ?_⟩
    · rwa [if_neg (Nat.not_le.2 h)] at hgives
    · rw [if_pos h, if_neg hst] at hgives
      exact ⟨_, hgives, expire_expires (s := on s (.copy id)) hv hr hst t k.ctx k.slot _⟩
    · rw [if_pos h, if_pos hst] at hgives
      obtain rfl : k.id = id := by simpa using List.find?_some hk
      obtain ⟨hcopy, hreq, -⟩ := endCopy_gone (on s (.copy k.id)) k
      exact ⟨_, hgives, hcopy, hreq, rfl, rfl⟩
  case refine_3 =>
    intro s i t j w va v r ht hj hw hv hr
    have hgives := timeLimit_tree ht hj hw hv hr
    refine ⟨fun h => ?_, fun h hst => ?_⟩
    · rwa [if_neg (Nat.not_le.2 h)] at hgives
    · rw [if_pos h] at hgives
      exact ⟨_, hgives, expire_expires (s := on s (.st i)) hv hr hst t j.ctx j.slot _⟩
  case refine_4 =>
    intro s id e t v r he hc ht hv hr
    have hgives := timeLimit_route he hc ht hv hr
    refine ⟨fun h => ?_, fun h hst => ?_⟩
    · rwa [if_neg (Nat.not_le.2 h)] at hgives
    · rw [if_pos h] at hgives
      exact ⟨_, hgives, expire_expires (s := on s (.route id)) hv hr hst t 0 0 _⟩
  case refine_5 =>
    exact fun s asid va acc d => ⟨rfl, rfl, rfl, rfl, rfl, fun a e h => limitFault_class s asid va acc d h⟩
  case refine_6 =>
    intro s q w a hparts hfirst
    simp only [State.limitReq, hparts, limitIn_first hfirst, Option.getD_some]
  case refine_7 =>
    intro s k w x y n a hpiece
    refine ⟨fun hsrc hfirst => ?_, fun hsrc hdst hfirst => ?_⟩
    · simp [State.limitCopy, hpiece, hsrc, limitIn_first hfirst]
    · by_cases hs : k.src.h.space = .dev
      · simp [State.limitCopy, hpiece, hs, hdst, limitIn_none (hsrc hs), limitIn_first hfirst]
      · simp [State.limitCopy, hpiece, hs, hdst, limitIn_first hfirst]

/-- Settles O47: a region retires through `State.wind`, a halt records and drops what `State.halting` says, and a limit that has run out takes the class of what
withheld the access. -/
theorem regionsEnd : Obligations.RegionsEnd := ⟨regionsRetire, regionsHalt, timeLimitsExpire⟩

end Sys2Proof.Proofs
end

