-- ==== Sys2Proof/Proofs/Stations.lean ====
section
/-! SUPPORT. Looking up a station after an update, and what effects, overdue counts and fault tokens leave of every station: its number and its kind (R161,
R56, R167). -/

namespace Sys2Proof.Machine

open Sys2Proof

/-! ### Lookups -/

/-- The record with a number, after a change of one number's records that keeps it. -/
theorem find?_map_key {α κ : Type} [DecidableEq κ] (key : α → κ) (n : κ) {f : α → α} (hf : ∀ u, key (f u) = key u) (l : List α) (k : κ) :
    (l.map fun u => if key u = n then f u else u).find? (fun u => key u == k) =
      (l.find? fun u => key u == k).map fun u => if key u = n then f u else u := by
  have hp : (fun u => key u == k) ∘ (fun u => if key u = n then f u else u) = fun u => key u == k := by
    funext u
    by_cases hu : key u = n <;> simp [hu, hf]
  rw [List.find?_map, hp]

theorem State.station?_id {s : State} {i : StId} {t : Station} (h : s.station? i = some t) : t.id = i := by
  simpa using List.find?_some h

/-- The stations after a change that keeps their numbers: the one changed, and the others. -/
theorem State.modStation_station? (s : State) (i : StId) {f : Station → Station} (hf : ∀ u, (f u).id = u.id) (j : StId) :
    (s.modStation i f).station? j = (s.station? j).map fun u => if u.id = i then f u else u := find?_map_key Station.id i hf s.stations j

theorem State.modStation_station?_self {s : State} {i : StId} {t : Station} (h : s.station? i = some t) {f : Station → Station}
    (hf : ∀ u, (f u).id = u.id) : (s.modStation i f).station? i = some (f t) := by
  rw [State.modStation_station? s i hf, h]
  simp [State.station?_id h]

theorem State.modStation_station?_ne (s : State) {i j : StId} (hj : j ≠ i) {f : Station → Station} (hf : ∀ u, (f u).id = u.id) :
    (s.modStation i f).station? j = s.station? j := by
  rw [State.modStation_station? s i hf]
  cases h : s.station? j with
  | none => rfl
  | some t => simp [State.station?_id h, hj]

/-! ### Fault tokens and overdue counts -/

/-- A fault token changes at most the channels of a station. -/
theorem State.pushFault_station? {s : State} {i : StId} {t : Station} (h : s.station? i = some t) (voy reg : Nat) (k : Token) :
    ∃ c, (s.pushFault voy reg k).station? i = some { t with c := c } := by
  unfold State.pushFault
  split
  · exact ⟨t.c, h⟩
  · split
    · exact ⟨t.c, h⟩
    · split
      · exact ⟨t.c, h⟩
      next q _ =>
        split
        · refine ⟨if t.id = q.id then t.c.set 7 (t.c[7].push s.nextId (some k) 0) else t.c, ?_⟩
          refine (State.modStation_station? s q.id (f := fun u => u.modC 7 (·.push s.nextId (some k) 0)) (fun _ => rfl) i).trans ?_
          rw [h, Option.map_some]
          split <;> rfl
        · exact ⟨t.c, h⟩

/-- A station counts an overdue token; beside its counter at most its channels change (R56). -/
theorem State.countOverdue_station? {s : State} {i : StId} {t : Station} (h : s.station? i = some t) :
    ∃ c, (s.countOverdue i).station? i = some { t with overdue := t.overdue + 1, c := c } := by
  have hself := State.modStation_station?_self h (f := fun u => { u with overdue := t.overdue + 1 }) fun _ => rfl
  unfold State.countOverdue
  rw [h]
  dsimp only
  split
  · exact ⟨t.c, hself⟩
  · split
    · exact State.pushFault_station? hself _ _ _
    · split
      · exact ⟨t.c, hself⟩
      · exact ⟨t.c, hself⟩

/-! ### The kinds of the stations -/

/-- From `s` to `t` no station comes or goes, and each keeps its kind. -/
def SameKinds (s t : State) : Prop := (t.stations.map fun u => (u.id, u.kind)) = s.stations.map fun u => (u.id, u.kind)

theorem SameKinds.refl (s : State) : SameKinds s s := rfl

theorem SameKinds.trans {s t u : State} (h : SameKinds s t) (k : SameKinds t u) : SameKinds s u := Eq.trans k h

theorem SameKinds.ite {s t u : State} {c : Prop} [Decidable c] (h : SameKinds s t) (k : SameKinds s u) : SameKinds s (if c then t else u) := by
  split
  · exact h
  · exact k

theorem SameKinds.station? {s t : State} (h : SameKinds s t) (i : StId) : (t.station? i).map (·.kind) = (s.station? i).map (·.kind) := by
  have hk (w : State) : (w.station? i).map (·.kind) = ((w.stations.map fun u => (u.id, u.kind)).find? fun p => p.1 == i).map (·.2) := by
    rw [List.find?_map, Option.map_map]
    rfl
  rw [hk, hk, h]

section
variable (s : State)

/-- A change of a station that keeps its number and its kind. -/
theorem State.modStation_kinds (i : StId) {f : Station → Station} (hf : ∀ u, ((f u).id, (f u).kind) = (u.id, u.kind)) :
    SameKinds s (s.modStation i f) := by
  unfold SameKinds State.modStation
  rw [List.map_map]
  refine List.map_congr_left fun u _ => ?_
  dsimp only [Function.comp]
  split
  · exact hf u
  · rfl

theorem State.modFirstHop_kinds (st : StId) (o : Fin 8) (f : Fifo → Fifo) : SameKinds s (s.modFirstHop st o f) := by
  unfold State.modFirstHop
  split
  · exact .refl s
  · split
    · exact .refl s
    · split
      · exact s.modStation_kinds _ fun _ => rfl
      · exact .refl s

theorem State.pushFault_kinds (voy reg : Nat) (k : Token) : SameKinds s (s.pushFault voy reg k) := by
  unfold State.pushFault
  split
  · exact .refl s
  · split
    · exact .refl s
    · split
      · exact .refl s
      · exact .ite (s.modStation_kinds _ fun _ => rfl) (.refl s)

theorem State.countOverdue_kinds (i : StId) : SameKinds s (s.countOverdue i) := by
  unfold State.countOverdue
  split
  · exact .refl s
  · have h (n : BitVec 32) : SameKinds s (s.modStation i fun u => { u with overdue := n }) := s.modStation_kinds i fun _ => rfl
    dsimp only
    split
    · exact h _
    · exact .ite ((h _).trans (State.pushFault_kinds _ _ _ _)) (.ite (h _) (h _))

theorem State.emit_kinds (st : StId) (o : Fin 8) (k : Token) : SameKinds s (s.emit st o k) :=
  have h : SameKinds s (s.place st o k) := s.modFirstHop_kinds st o _
  .ite (h.trans (State.countOverdue_kinds _ _)) h

theorem State.fillOut_kinds (st : StId) (o : Fin 8) (id : Nat) (k : Token) : SameKinds s (s.fillOut st o id k) :=
  have h := s.modFirstHop_kinds st o (·.fill id k)
  .ite (h.trans (State.countOverdue_kinds _ _)) h

theorem State.cancelDest_kinds (st : StId) (r : PReg) : SameKinds s (s.cancelDest st r) :=
  .ite (.refl s) (State.modStation_kinds _ st fun _ => rfl)

theorem State.taskDone_kinds (w : Who) : SameKinds s (s.taskDone w) := by
  unfold State.taskDone
  split
  · exact .refl s
  · exact State.modStation_kinds _ w.st fun _ => rfl

end

theorem Station.settleClaims_kind (n : Fin 16) (l : List HClaim) : ∀ t : Station, ((t.settleClaims n l).id, (t.settleClaims n l).kind) = (t.id, t.kind) := by
  induction l with
  | nil => exact fun _ => rfl
  | cons c r ih =>
    intro t
    rw [Station.settleClaims]
    split
    · split
      · exact ih _
      · rfl
    · exact ih t

theorem Station.putElement_kind (t : Station) (n : Fin 16) (k : BitVec 32) (x : V512) :
    ((t.putElement n k x).id, (t.putElement n k x).kind) = (t.id, t.kind) := by
  unfold Station.putElement
  split <;> rfl

/-- What an effect does in its own station leaves the station's number and kind. -/
theorem Station.apply_kind (w : Who) (e : Effect) (t : Station) : ((t.apply w e).id, (t.apply w e).kind) = (t.id, t.kind) := by
  cases e
  case landElem n id x =>
    show ((t.landElem n id x).id, (t.landElem n id x).kind) = _
    unfold Station.landElem
    split
    · rfl
    · exact (Station.settleClaims_kind n _ _).trans (t.putElement_kind n _ x)
  case pend r => cases r <;> rfl
  case writeLocal sh a n x => cases sh <;> rfl
  all_goals rfl

section
variable (s : State) (w : Who)

/-- One effect of a rule. -/
theorem State.apply_kinds (e : Effect) : SameKinds s (s.apply w e) := by
  cases e
  case emit => exact s.emit_kinds _ _ _
  case setD => exact (s.cancelDest_kinds _ _).trans (State.modStation_kinds _ _ (Station.apply_kind w _))
  case setV => exact (s.cancelDest_kinds _ _).trans (State.modStation_kinds _ _ (Station.apply_kind w _))
  case pend => exact (s.cancelDest_kinds _ _).trans (State.modStation_kinds _ _ (Station.apply_kind w _))
  case claimOut => exact s.modFirstHop_kinds _ _ _
  case fillOut => exact s.fillOut_kinds _ _ _ _
  case faultq =>
    rw [State.apply_faultq]; split
    · exact .refl s
    · exact s.pushFault_kinds _ _ _
  case brk =>
    rw [State.apply_brk]; split
    · exact .refl s
    · exact .refl s
  case halt =>
    rw [State.apply_halt]; split
    · exact .refl s
    · exact .refl s
  case ckpt =>
    rw [State.apply_ckpt]; split
    · exact .refl s
    · exact .refl s
  case req r =>
    rw [State.apply_req]
    have h : SameKinds s ({ s with reqs := s.reqs ++ [r] }.useId r.id) := .refl s
    have h := SameKinds.ite (c := (!r.slack.bg && r.slack.n = 0) = true) (h.trans (State.countOverdue_kinds _ w.st)) h
    have k := SameKinds.ite (c := r.credit = true)
      (h.trans (State.modStation_kinds _ w.st (f := fun t => { t with credits := t.credits + 1 }) fun _ => rfl)) h
    exact .ite (k.trans (State.modStation_kinds _ _ fun _ => rfl)) k
  case bar m =>
    rw [State.apply_bar]; split
    · exact .refl s
    · exact .refl s
    · exact State.modStation_kinds _ w.st fun _ => rfl
  case spawn ts h args =>
    show SameKinds s (match s.station? w.st with | none => s | some u => _)
    split
    · exact .refl s
    · exact .refl s
  case taskDone => exact s.taskDone_kinds w
  case taskFault =>
    rw [State.apply_taskFault]; split
    · exact .refl s
    · split
      · exact s.pushFault_kinds _ _ _
      · exact State.pushFault_kinds _ _ _ _
  case copy => exact State.modStation_kinds _ w.st fun _ => rfl
  case park => exact s.modStation_kinds _ fun _ => rfl
  case parkLands => exact s.modStation_kinds _ fun _ => rfl
  case unpark => exact s.modStation_kinds _ fun _ => rfl
  case dropCache => exact s.modStation_kinds _ fun _ => rfl
  all_goals exact State.modStation_kinds _ w.st (Station.apply_kind w _)

/-- Effects in order. -/
theorem State.applyAll_kinds (es : List Effect) : SameKinds s (s.applyAll w es) :=
  foldl_rel SameKinds.refl SameKinds.trans (State.apply_kinds · w) es s

theorem State.consumeStops_kinds (t : Station) (es : List Effect) : SameKinds s (s.consumeStops w t es) := by
  refine foldl_rel SameKinds.refl SameKinds.trans (fun u e => ?_) es s
  split
  · split
    · exact .ite (.refl u) (u.modStation_kinds _ fun _ => rfl)
    · exact .refl u
  · exact .refl u

theorem State.launch_kinds (n : Nat) (es : List Effect) : SameKinds s (s.launch w n es) :=
  have h : SameKinds s (s.modStation w.st fun t => { t with flights := t.flights ++ [⟨s.nextId, w.ctx, w.slot, n - 1, es⟩] }) :=
    s.modStation_kinds w.st fun _ => rfl
  .ite h h

end

/-- The commit of a firing. -/
theorem commit_kinds (e : Env) (s : State) (x : Fire) : SameKinds s (commit e s x) := by
  have h := (((s.applyAll_kinds e.who x.now).trans (State.modStation_kinds _ e.who.st (f := fun t => t.dropCounters x.now) fun _ => rfl)).trans
    (State.consumeStops_kinds _ e.who e.pre x.now)).trans
    (State.modStation_kinds _ e.who.st (f := fun t => t.modCtx e.who.ctx fun c => c.markFired e.hdr.guard e.slot) fun _ => rfl)
  unfold commit
  dsimp only
  split
  · exact h
  · exact h.trans (State.launch_kinds _ _ _ _)

end Sys2Proof.Machine
end

