-- ==== Sys2Proof/Proofs/Choice.lean ====
section
/-! SUPPORT. What a station cycle chooses: the order of ranks (R57), the slots that fire together (R157, R160) and the contexts that wait (R58); and the
proof that stations choose, and that a slot runs its word. -/

namespace Sys2Proof.Machine

open Sys2Proof Sys2Proof.Claims

/-! ### The order of ranks (R57) -/

theorem lexLt_cons {a b : Nat} {as bs : List Nat} : lexLt (a :: as) (b :: bs) = true ↔ a < b ∨ a = b ∧ lexLt as bs = true := by
  simp [lexLt]

theorem lexLt_irrefl (l : List Nat) : lexLt l l = false := by
  induction l with
  | nil => rfl
  | cons a l ih => simp [lexLt, ih]

theorem lexLt_trans : ∀ {l m n : List Nat}, lexLt l m = true → lexLt m n = true → lexLt l n = true
  | a :: l, b :: m, c :: n, h, k => by
    rw [lexLt_cons] at h k ⊢
    rcases h with h | ⟨rfl, h⟩
    · rcases k with k | ⟨rfl, -⟩
      · exact .inl (h.trans k)
      · exact .inl h
    · rcases k with k | ⟨rfl, k⟩
      · exact .inl k
      · exact .inr ⟨rfl, lexLt_trans h k⟩

theorem lexLt_asymm {l m : List Nat} (h : lexLt l m = true) : lexLt m l = false :=
  Bool.eq_false_iff.2 fun k => by simpa [lexLt_irrefl] using lexLt_trans h k

section
variable {α : Type} (rank : α → List Nat)

/-- The one of two with the lesser rank, the first of equals. -/
def lesser (a b : α) : α := if lexLt (rank b) (rank a) then b else a

/-- The least of a list is a member of it or where the search began, and not behind any of them. -/
theorem foldl_lesser (l : List α) : ∀ x : α, let m := l.foldl (lesser rank) x
    (m = x ∨ lexLt (rank m) (rank x) = true) ∧ m ∈ x :: l ∧ ∀ y ∈ l, lexLt (rank y) (rank m) = false := by
  induction l with
  | nil => exact fun x => ⟨.inl rfl, List.mem_cons_self, by simp⟩
  | cons b l ih =>
    intro x
    obtain ⟨hle, hmem, hleast⟩ := ih (lesser rank x b)
    rw [List.foldl_cons]
    by_cases hb : lexLt (rank b) (rank x) = true
    · have hx : lesser rank x b = b := if_pos hb
      rw [hx] at hle hmem hleast ⊢
      refine ⟨.inr ?_, List.mem_cons_of_mem x hmem, List.forall_mem_cons.2 ⟨?_, hleast⟩⟩
      · rcases hle with hm | hm
        · rw [hm]; exact hb
        · exact lexLt_trans hm hb
      · rcases hle with hm | hm
        · rw [hm]; exact lexLt_irrefl _
        · exact lexLt_asymm hm
    · have hx : lesser rank x b = x := if_neg hb
      rw [hx] at hle hmem hleast ⊢
      refine ⟨hle, ?_, List.forall_mem_cons.2 ⟨?_, hleast⟩⟩
      · rcases List.mem_cons.1 hmem with hm | hm
        · exact List.mem_cons.2 (.inl hm)
        · exact List.mem_cons_of_mem _ (List.mem_cons_of_mem _ hm)
      · rcases hle with hm | hm
        · rw [hm]; exact Bool.eq_false_iff.2 hb
        · exact Bool.eq_false_iff.2 fun k => hb (lexLt_trans k hm)

/-- Some element of a list has the least rank, unless the list is empty. -/
theorem leastBy_least {l : List α} (h : l ≠ []) : ∃ x, leastBy rank l = some x ∧ x ∈ l ∧ ∀ y ∈ l, lexLt (rank y) (rank x) = false := by
  cases l with
  | nil => exact absurd rfl h
  | cons x l =>
    obtain ⟨hle, hmem, hleast⟩ := foldl_lesser rank l x
    refine ⟨l.foldl (lesser rank) x, rfl, hmem, List.forall_mem_cons.2 ⟨?_, hleast⟩⟩
    rcases hle with hm | hm
    · rw [hm]; exact lexLt_irrefl _
    · exact lexLt_asymm hm

end

/-! ### Trying a rule -/

/-- A rule reads the machine, and not which event runs. -/
theorem ruleOf_fire_on (x : Instr) (s : State) (a : EvArg) (t : Station) (f : Firing) (i : Fin 32) (h : Hdr) :
    (ruleOf x).map (·.fire ⟨on s a, t, f, i, h⟩) = (ruleOf x).map (·.fire ⟨s, t, f, i, h⟩) := by
  cases x <;> rfl

theorem Station.ruleAt_fire_on {u : Station} {c : Fin 8} {j : Fin 32} {r : Rule} (hr : u.ruleAt c j = some r) (s : State) (a : EvArg) (t : Station)
    (f : Firing) (i : Fin 32) (h : Hdr) : r.fire ⟨on s a, t, f, i, h⟩ = r.fire ⟨s, t, f, i, h⟩ := by
  obtain ⟨x, -, hx⟩ := Option.bind_eq_some_iff.1 hr
  simpa [hx] using ruleOf_fire_on x s a t f i h

theorem State.tryRule_on (s : State) (a : EvArg) (f : Firing) (used : List FUnit) (i : Fin 32) :
    ((on s a).tryRule f used i).map (·.2.2) = (s.tryRule f used i).map (·.2.2) := by
  have hst : (on s a).station? f.st = s.station? f.st := rfl
  unfold State.tryRule
  rw [hst]
  cases s.station? f.st with
  | none => rfl
  | some t =>
    cases hr : f.pre.ruleAt f.ctx i with
    | none => rfl
    | some r =>
      simp only [Station.ruleAt_fire_on hr]
      split
      · split
        · rfl
        · split <;> rfl
      · rfl

/-- The runnable contexts are those of the machine, whichever event runs. -/
theorem State.runnable_on (s : State) (a : EvArg) (t : Station) : (on s a).runnable t = s.runnable t := by
  have hmap (w : State) (f : Firing) (i : Fin 32) (c : Fin 8) :
      ((w.tryRule f [] i).map fun (_, _, x) => t.reads c i x) = ((w.tryRule f [] i).map (·.2.2)).map (t.reads c i) := by
    rw [Option.map_map]
    rfl
  unfold State.runnable
  simp only [hmap, State.tryRule_on]

/-- A rule that may fire stands in its slot, its guard holds, and a unit is free for it. -/
theorem State.tryRule_some {s : State} {f : Firing} {used : List FUnit} {i : Fin 32} {e : Env} {r : Rule} {x : Fire}
    (h : s.tryRule f used i = some (e, r, x)) : ∃ t, s.station? f.st = some t ∧ f.pre.ruleAt f.ctx i = some r ∧
      f.pre.guard f.ctx i r.hdr.guard = true ∧ f.pre.unitFree (r.cls.unit t.kind) used = true := by
  unfold State.tryRule at h
  cases hs : s.station? f.st with
  | none => simp [hs] at h
  | some t =>
    cases hr : f.pre.ruleAt f.ctx i with
    | none => simp [hs, hr] at h
    | some q =>
      simp only [hs, hr] at h
      split at h
      next hg =>
        rw [Bool.and_eq_true] at hg
        split at h
        · cases h
        · split at h
          · cases h
          · cases h
            exact ⟨t, rfl, rfl, hg.1, hg.2⟩
      · cases h

/-- A free unit is one of which fewer are taken than the station has. -/
theorem Station.unitFree_count {t : Station} {u : FUnit} {used : List FUnit} (h : t.unitFree u used = true) : used.count u < u.count := by
  have hbusy : (t.busy.filter fun b => u.clash.contains b.1).length + (used.filter u.clash.contains).length < u.count := by
    unfold Station.unitFree at h
    exact of_decide_eq_true (Bool.and_eq_true_iff.1 h).1
  have hself : u.clash.contains u = true := by cases u <;> rfl
  have hle : used.count u ≤ (used.filter u.clash.contains).length := by
    rw [List.count, ← List.countP_eq_length_filter]
    exact List.countP_mono_left fun v _ hv => by rw [eq_of_beq hv]; exact hself
  omega

/-! ### The slots that fire together (R157, R160) -/

/-- What the slots chosen so far keep: increasing, without conflict, at most four, each with its guard holding and a unit of its own. -/
structure Chosen (f : Firing) (got : List (Fin 32)) (used : List FUnit) : Prop where
  length : got.length ≤ maxFire
  apart : got.Pairwise fun a b => a < b ∧ f.pre.ctx[f.ctx].conflicts b a = false
  guarded : ∀ j ∈ got, ∃ r, f.pre.ruleAt f.ctx j = some r ∧ f.pre.guard f.ctx j r.hdr.guard = true
  units : ∀ n, (got.filter fun j => unitAt f.pre f.ctx j == some n).length = used.count n
  enough : ∀ n, used.count n ≤ n.count

theorem Chosen.nil (f : Firing) : Chosen f [] [] := ⟨by simp, .nil, by simp, by simp, by simp⟩

/-- One more slot, which the choice has admitted. -/
theorem Chosen.add {f : Firing} {got : List (Fin 32)} {used : List FUnit} {i : Fin 32} {r : Rule} (h : Chosen f got used)
    (hlt : ∀ j ∈ got, j < i) (hlen : got.length < maxFire) (hconf : ∀ j ∈ got, f.pre.ctx[f.ctx].conflicts i j = false)
    (hr : f.pre.ruleAt f.ctx i = some r) (hg : f.pre.guard f.ctx i r.hdr.guard = true)
    (hu : f.pre.unitFree (r.cls.unit f.pre.kind) used = true) : Chosen f (got ++ [i]) (r.cls.unit f.pre.kind :: used) := by
  have hunit : unitAt f.pre f.ctx i = some (r.cls.unit f.pre.kind) := by rw [unitAt, hr]; rfl
  refine ⟨?_, ?_, ?_, fun n => ?_, fun n => ?_⟩
  · simpa using hlen
  · exact List.pairwise_append.2 ⟨h.apart, List.pairwise_singleton _ _, fun j hj k hk => by
      rw [List.mem_singleton.1 hk]
      exact ⟨hlt j hj, hconf j hj⟩⟩
  · intro j hj
    rcases List.mem_append.1 hj with hj | hj
    · exact h.guarded j hj
    · rw [List.mem_singleton.1 hj]
      exact ⟨r, hr, hg⟩
  · rw [List.filter_append, List.length_append, h.units n, List.filter_singleton, hunit, List.count_cons]
    by_cases hn : r.cls.unit f.pre.kind = n <;> simp [hn, beq_eq_false_iff_ne.2]
  · rw [List.count_cons]
    split
    next hn => rw [← eq_of_beq hn]; exact Station.unitFree_count hu
    · exact h.enough n

/-- The choice at a slot: the slot is passed over, or its rule fits what has been chosen and joins it. -/
theorem chooseRules_cons (f : Firing) (i : Fin 32) (is : List (Fin 32)) (s : State) (got : List (Fin 32)) (used : List FUnit) :
    ((got = [] → s.tryRule f used i = none) ∧ chooseRules f (i :: is) s got used = chooseRules f is s got used) ∨
    ∃ e r x, s.tryRule f used i = some (e, r, x) ∧ got.length < maxFire ∧ (∀ j ∈ got, f.pre.ctx[f.ctx].conflicts i j = false) ∧
      chooseRules f (i :: is) s got used = chooseRules f is (commit e s (e.keepInside x)) (got ++ [i]) (r.cls.unit f.pre.kind :: used) := by
  rw [chooseRules]
  split
  next hfit =>
    rw [Bool.and_eq_true, decide_eq_true_eq, Bool.not_eq_true', List.any_eq_false] at hfit
    cases htry : s.tryRule f used i with
    | none => exact .inl ⟨fun _ => rfl, rfl⟩
    | some y => exact .inr ⟨y.1, y.2.1, y.2.2, rfl, hfit.1, fun j hj => Bool.eq_false_iff.2 (hfit.2 j hj), rfl⟩
  next hfit => exact .inl ⟨fun hgot => absurd (by simp [hgot, maxFire]) hfit, rfl⟩

/-- The choice keeps all this, slot by slot, as long as the station is of the kind that it was. -/
theorem chooseRules_chosen (f : Firing) (is : List (Fin 32)) : ∀ {s : State} {got : List (Fin 32)} {used : List FUnit},
    is.Pairwise (· < ·) → (∀ j ∈ got, ∀ i ∈ is, j < i) → (s.station? f.st).map (·.kind) = some f.pre.kind → Chosen f got used →
    ∃ taken, Chosen f (chooseRules f is s got used) taken := by
  induction is with
  | nil => exact fun _ _ _ h => ⟨_, h⟩
  | cons i is ih =>
    intro s got used hord hlt hk h
    obtain ⟨hi, hord⟩ := List.pairwise_cons.1 hord
    have hskip : ∀ j ∈ got, ∀ k ∈ is, j < k := fun j hj k hk => hlt j hj k (List.mem_cons_of_mem i hk)
    rcases chooseRules_cons f i is s got used with ⟨-, heq⟩ | ⟨e, r, x, htry, hlen, hconf, heq⟩
    · rw [heq]
      exact ih hord hskip hk h
    · rw [heq]
      obtain ⟨t, ht, hr, hg, hu⟩ := State.tryRule_some htry
      have hkind : t.kind = f.pre.kind := by simpa [ht] using hk
      rw [hkind] at hu
      refine ih hord (fun j hj k hk => ?_) (((commit_kinds e s _).station? f.st).trans hk)
        (h.add (fun j hj => hlt j hj i List.mem_cons_self) hlen hconf hr hg hu)
      rcases List.mem_append.1 hj with hj | hj
      · exact hskip j hj k hk
      · rw [List.mem_singleton.1 hj]
        exact hi k hk

/-- What has been chosen stays chosen. -/
theorem chooseRules_ne_nil_of_got (f : Firing) (is : List (Fin 32)) : ∀ {s : State} {got : List (Fin 32)} {used : List FUnit},
    got ≠ [] → chooseRules f is s got used ≠ [] := by
  induction is with
  | nil => exact fun h => h
  | cons i is ih =>
    intro s got used h
    rcases chooseRules_cons f i is s got used with ⟨-, heq⟩ | ⟨e, r, x, -, -, -, heq⟩
    · rw [heq]
      exact ih h
    · rw [heq]
      exact ih (by simp)

/-- The first slot whose rule may fire is chosen. -/
theorem chooseRules_ne_nil (f : Firing) (s : State) (is : List (Fin 32)) (h : ∃ i ∈ is, (s.tryRule f [] i).isSome) : chooseRules f is s [] [] ≠ [] := by
  induction is with
  | nil => simp at h
  | cons i is ih =>
    rcases chooseRules_cons f i is s [] [] with ⟨hno, heq⟩ | ⟨e, r, x, -, -, -, heq⟩
    · rw [heq]
      simpa [hno rfl] using ih (by simpa [hno rfl] using h)
    · rw [heq]
      exact chooseRules_ne_nil_of_got f is (by simp)

theorem Ctx.slots_pairwise (c : Ctx) : c.slots.Pairwise (· < ·) := (List.pairwise_lt_finRange 32).filter _

/-! ### Runnable contexts -/

/-- A context is runnable by a rule in one of its slots. -/
theorem State.runnable_tryRule {s : State} {t : Station} {x : Fin 8 × List (Fin 8)} (h : x ∈ s.runnable t) :
    ∃ i ∈ t.ctx[x.1].slots, (s.tryRule ⟨t.id, x.1, t, []⟩ [] i).isSome := by
  obtain ⟨c, -, hc⟩ := List.mem_filterMap.1 h
  split at hc
  · split at hc
    · cases hc
    next rs hrs hne =>
      cases hc
      obtain ⟨r, hr⟩ := List.exists_mem_of_ne_nil _ hne
      obtain ⟨i, hi, hsome⟩ := List.mem_filterMap.1 hr
      exact ⟨i, hi, by simpa using Option.isSome_of_eq_some hsome⟩
  · cases hc

/-- Each context is runnable once. -/
theorem State.runnable_nodup (s : State) (t : Station) : ((s.runnable t).map (·.1)).Nodup := by
  have hfst {c : Fin 8} {x : Fin 8 × List (Fin 8)} {b : Bool} {l : List (List (Fin 8))}
      (h : (if b then (match l with | [] => none | rs => some (c, rs.flatten)) else none) = some x) : x.1 = c := by
    split at h
    · split at h
      · cases h
      · cases h; rfl
    · cases h
  refine List.pairwise_map.2 (List.Pairwise.filterMap _ (fun c d hne x hx y hy => ?_) (List.nodup_finRange 8))
  rw [hfst hx, hfst hy]
  exact hne

/-! ### Contexts that wait (R58) -/

/-- The count of a runnable context after a cycle in which `sel` is selected. -/
def Ctx.waits (sel c : Fin 8) (x : Ctx) : Ctx :=
  if c = sel then { x with wait := 0, aged := false } else { x with wait := x.wait + 1, aged := x.aged || decide (256 ≤ x.wait + 1) }

theorem Station.countWaits_cons (t : Station) (c : Fin 8) (run : List (Fin 8)) (sel : Fin 8) :
    t.countWaits (c :: run) sel = (t.modCtx c (Ctx.waits sel c)).countWaits run sel := rfl

theorem Station.modCtx_ctx (t : Station) (c d : Fin 8) (f : Ctx → Ctx) : (t.modCtx c f).ctx[d] = if d = c then f t.ctx[c] else t.ctx[d] := by
  simp only [Station.modCtx, Fin.getElem_fin, Vector.getElem_set, Fin.val_inj, eq_comm]

/-- Counting waits changes the contexts of the station and nothing else of it. -/
theorem Station.countWaits_eq (run : List (Fin 8)) (sel : Fin 8) : ∀ t : Station, t.countWaits run sel = { t with ctx := (t.countWaits run sel).ctx } := by
  induction run with
  | nil => exact fun _ => rfl
  | cons c run ih => exact fun t => ih (t.modCtx c (Ctx.waits sel c))

/-- Each runnable context is counted, and the others keep their counts. -/
theorem Station.countWaits_ctx (sel d : Fin 8) (run : List (Fin 8)) : ∀ t : Station, run.Nodup →
    (t.countWaits run sel).ctx[d] = if d ∈ run then Ctx.waits sel d t.ctx[d] else t.ctx[d] := by
  induction run with
  | nil => exact fun _ _ => rfl
  | cons c run ih =>
    intro t h
    obtain ⟨hc, hrun⟩ := List.nodup_cons.1 h
    rw [Station.countWaits_cons, ih _ hrun, Station.modCtx_ctx]
    by_cases hd : d = c
    · subst hd
      simp [hc]
    · simp [hd]

end Sys2Proof.Machine

namespace Sys2Proof.Machine

open Sys2Proof Sys2Proof.Claims

/-! ### The cycle of a station -/

/-- The slots that a station chooses in a context. -/
def State.choice (s : State) (t : Station) (c : Fin 8) : List (Fin 32) := chooseRules ⟨t.id, c, t, []⟩ t.ctx[c].slots s [] []

/-- The machine once a station has selected a context and chosen its slots. -/
def State.selecting (s : State) (t : Station) (c : Fin 8) : State :=
  { (s.modStation t.id fun u => u.countWaits ((s.runnable t).map (·.1)) c).stir t.voy with firing := some ⟨t.id, c, t, s.choice t c⟩ }

section
variable {s : State} {t : Station} (ht : s.station? t.id = some t)
include ht

/-- A runnable context has slots to fire, and they fit together. -/
theorem State.choice_chosen {x : Fin 8 × List (Fin 8)} (hx : x ∈ s.runnable t) :
    s.choice t x.1 ≠ [] ∧ ∃ used, Chosen ⟨t.id, x.1, t, []⟩ (s.choice t x.1) used := by
  have hkind : (s.station? t.id).map (·.kind) = some t.kind := by rw [ht]; rfl
  exact ⟨chooseRules_ne_nil _ s _ (State.runnable_tryRule hx), chooseRules_chosen _ _ (Ctx.slots_pairwise _) (by simp) hkind (Chosen.nil _)⟩

/-- The station after the cycle: its contexts have been counted. -/
theorem State.selecting_station? (c : Fin 8) : (s.selecting t c).station? t.id = some (t.countWaits ((s.runnable t).map (·.1)) c) := by
  have hid (u : Station) : (u.countWaits ((s.runnable t).map (·.1)) c).id = u.id := by rw [Station.countWaits_eq]
  exact State.modStation_station?_self ht hid

variable (hev : s.ev = .st t.id)
include hev

theorem execStationCycle_stays (h : s.stationRuns t = false ∨ s.runnable t = []) : execStationCycle s = .next s := by
  simp only [execStationCycle, hev, ht]
  rcases h with h | h
  · rw [h]; rfl
  · split
    · rfl
    · rw [h]; rfl

theorem execStationCycle_selects (hr : s.stationRuns t = true) (hne : s.runnable t ≠ []) :
    ∃ x ∈ s.runnable t, (∀ y ∈ s.runnable t, lexLt (ctxRank t y) (ctxRank t x) = false) ∧ execStationCycle s = .next (s.selecting t x.1) := by
  obtain ⟨x, hx, hmem, hleast⟩ := leastBy_least (ctxRank t) hne
  refine ⟨x, hmem, hleast, ?_⟩
  have hchoice := (State.choice_chosen ht hmem).1
  simp only [execStationCycle, hev, ht, hr, hx]
  unfold State.selecting
  generalize hc : s.choice t x.1 = todo at hchoice ⊢
  unfold State.choice at hc
  rw [hc]
  cases todo with
  | nil => exact absurd rfl hchoice
  | cons j todo => rfl

end

end Sys2Proof.Machine

namespace Sys2Proof.Proofs

open Sys2Proof Sys2Proof.Machine Sys2Proof.Claims

/-- The cycle of a station that runs, with a runnable context. -/
theorem stationCycle_selects {s : State} {t : Station} (ht : s.station? t.id = some t) (hr : s.stationRuns t = true) (hne : s.runnable t ≠ []) :
    ∃ x ∈ s.runnable t, (∀ y ∈ s.runnable t, lexLt (ctxRank t y) (ctxRank t x) = false) ∧
      Gives s .stationCycle (.st t.id) ((on s (.st t.id)).selecting t x.1) := by
  have h := execStationCycle_selects (s := on s (.st t.id)) ht rfl hr (by rwa [State.runnable_on])
  rwa [State.runnable_on] at h

theorem cycleChoosesRules : StatementPart.CycleChoosesRules := by
  intro s i t ht
  obtain rfl : t.id = i := State.station?_id ht
  refine ⟨fun h => ?_, fun hr hne => ?_⟩
  · exact execStationCycle_stays (s := on s (.st t.id)) ht rfl (by rwa [State.runnable_on])
  · obtain ⟨x, hx, hleast, hgives⟩ := stationCycle_selects ht hr hne
    have hx' : x ∈ (on s (.st t.id)).runnable t := by rwa [State.runnable_on]
    obtain ⟨hsome, used, hlength, hapart, hguarded, hunits, henough⟩ := State.choice_chosen (s := on s (.st t.id)) ht hx'
    exact ⟨_, x.1, x.2, _, hgives, rfl, hx, hleast, hsome, hlength, hapart, hguarded, fun n => (hunits n).trans_le (henough n), rfl, rfl, rfl, rfl, rfl⟩

theorem waitingContextsAge : StatementPart.WaitingContextsAge := by
  intro s i t ht hr hne
  obtain rfl : t.id = i := State.station?_id ht
  obtain ⟨x, hx, -, hgives⟩ := stationCycle_selects ht hr hne
  refine ⟨_, x.1, _, hgives, rfl, State.selecting_station? (s := on s (.st t.id)) ht x.1, Station.countWaits_eq _ _ t, fun d => ?_⟩
  rw [State.runnable_on, Station.countWaits_ctx _ _ _ _ (s.runnable_nodup t), Ctx.waits]
  by_cases hd : d = x.1
  · subst hd
    rw [if_pos (List.mem_map_of_mem hx), if_pos rfl, if_pos rfl]
  · rw [if_neg hd, if_neg hd]

/-- Settles O39: a cycle selects a context of least rank and chooses slots by `chooseRules`, and the contexts are counted by `Station.countWaits`. -/
theorem stationsChooseAndContextsAge : Obligations.StationsChooseAndContextsAge := ⟨cycleChoosesRules, waitingContextsAge⟩

/-! ### Running a slot (R160) -/

theorem decode?_of_ok {k : Kind} {w : Word} {x : Instr} (h : decode k w = .ok x) : decode? k w = some x := by
  rw [decode?, h]

/-- Settles O3: the word that `Firing.instr` decodes is the one in the slot. -/
theorem slotRunsItsWord : Obligations.SlotRunsItsWord := by
  intro s f i rest w x hf ht hw hx
  have hi : f.instr i = some x := by rw [Firing.instr, Firing.word, hw, Option.bind_some, decode?_of_ok hx]
  simp only [step, hf, ht, hi]

end Sys2Proof.Proofs
end

