-- ==== Sys2Proof/Proofs/Passing.lean ====
section
/-! SUPPORT. What stands at a place after its slack has changed (R52), and the proof that results land, yields end, counters run out and fault tokens go to
the queue (R56, R161, R166, R170, R195). -/

namespace Sys2Proof.Machine

open Sys2Proof

/-! ### A result that lands (R161, R170) -/

/-- A station without a flight. -/
def Station.unflown (t : Station) (id : Nat) : Station := { t with flights := t.flights.filter fun g => g.id ≠ id }

/-- Cancelling the results owed to a register changes at most the tree engine of the station. -/
theorem State.cancelDest_station? {s : State} {i : StId} {t : Station} (h : s.station? i = some t) (r : PReg) :
    ∃ sd, (s.cancelDest i r).station? i = some { t with sd := sd } := by
  unfold State.cancelDest
  split
  · exact ⟨t.sd, h⟩
  · exact ⟨_, State.modStation_station?_self (s := { s with reqs := _ }) h fun _ => rfl⟩

/-- Cancelling writes in flight keeps the flights' numbers. -/
theorem Station.cancelFlights_ids (t : Station) (r : PReg) (keep : Effect → Bool) :
    (t.cancelFlights r keep).flights.map (·.id) = t.flights.map (·.id) := by
  simp [Station.cancelFlights, Function.comp_def]

/-- A list of flights with the numbers that are left holds none of the number that is gone. -/
theorem Station.unflown_all {t : Station} {id : Nat} {l : List Flight} (h : l.map (·.id) = (t.unflown id).flights.map (·.id)) :
    l.all (fun g => g.id ≠ id) = true := by
  have hall : (l.map (·.id)).all (· ≠ id) = true := by
    rw [h]
    simp [Station.unflown]
  simpa using hall

section
variable {s : State} {i : StId} {t : Station} (h : s.station? i = some t) (w : Who) (hw : w.st = i)
include h hw

/-- A scalar result stands in its register, which is pending no more. -/
theorem State.lands_setD (n : Fin 8) (x : Word) : ∃ v, (s.applyAll w [.setD n x, .unpend (.d n)]).station? i = some v ∧ v.d[n] = x ∧ .d n ∉ v.pend ∧
    v.flights.map (·.id) = t.flights.map (·.id) := by
  subst hw
  obtain ⟨sd, hsd⟩ := State.cancelDest_station? h (.d n)
  have hset := State.modStation_station?_self hsd fun u => congrArg Prod.fst (Station.apply_kind w (.setD n x) u)
  have hland := State.modStation_station?_self hset fun u => congrArg Prod.fst (Station.apply_kind w (.unpend (.d n)) u)
  exact ⟨_, hland, by simp [Station.apply, Station.cancelFlights], by simp [Station.apply], Station.cancelFlights_ids _ _ _⟩

/-- A vector result stands in its register as the register holds it, and is pending no more. -/
theorem State.lands_setV (n : Fin 8) (x : VReg) : ∃ v, (s.applyAll w [.setV n x, .unpend (.v n)]).station? i = some v ∧ v.v[n] = x.held ∧
    .v n ∉ v.pend ∧ v.flights.map (·.id) = t.flights.map (·.id) := by
  subst hw
  obtain ⟨sd, hsd⟩ := State.cancelDest_station? h (.v n)
  have hset := State.modStation_station?_self hsd fun u => congrArg Prod.fst (Station.apply_kind w (.setV n x) u)
  have hland := State.modStation_station?_self hset fun u => congrArg Prod.fst (Station.apply_kind w (.unpend (.v n)) u)
  exact ⟨_, hland, by simp [Station.apply, Station.cancelFlights], by simp [Station.apply], Station.cancelFlights_ids _ _ _⟩

end

/-! ### The tokens of a node -/

theorem modify_append_left {α : Type} (m : List α) (g : α → α) : ∀ {l : List α} {i : Nat}, i < l.length → (l ++ m).modify i g = l.modify i g ++ m
  | _ :: _, 0, _ => rfl
  | a :: _, _ + 1, h => congrArg (a :: ·) (modify_append_left m g (Nat.lt_of_succ_lt_succ h))

theorem modify_append_right {α : Type} {l : List α} {i : Nat} (h : l.length ≤ i) (m : List α) (g : α → α) :
    (l ++ m).modify i g = l ++ m.modify (i - l.length) g := by
  obtain ⟨k, rfl⟩ := Nat.exists_eq_add_of_le h
  rw [Nat.add_sub_cancel_left]
  exact List.modifyTailIdx_add _ k l m

theorem map_modify {α β : Type} {f : α → β} {u : α → α} {g : β → β} (h : ∀ a, f (u a) = g (f a)) (l : List α) (i : Nat) :
    (l.modify i u).map f = (l.map f).modify i g := by
  refine List.ext_getElem? fun j => ?_
  by_cases hj : i = j
  · subst hj
    simp [Function.comp_def, h]
  · simp [hj]

/-- The tokens that a normaliser holds, and one of them changed. -/
def Nrm.toks (x : Nrm) : List Token := x.half.toList ++ x.outs.map (·.2)

def Nrm.modTok (i : Nat) (g : Token → Token) (x : Nrm) : Nrm :=
  if i < x.half.toList.length then { x with half := x.half.map g }
  else { x with outs := x.outs.modify (i - x.half.toList.length) fun e => (e.1, g e.2) }

theorem Nrm.modTok_toks (i : Nat) (g : Token → Token) (x : Nrm) : (x.modTok i g).toks = x.toks.modify i g := by
  unfold Nrm.modTok Nrm.toks
  split
  next h =>
    rw [modify_append_left _ g h]
    cases hx : x.half with
    | none => simp [hx] at h
    | some k =>
      obtain rfl : i = 0 := by simpa [hx] using h
      rfl
  next h =>
    rw [modify_append_right (Nat.le_of_not_lt h)]
    exact congrArg (x.half.toList ++ ·) (map_modify (f := fun e : Nat × Token => e.2) (fun _ => rfl) _ _)

/-- The tokens that a corner-turn node holds, and one of them changed. -/
def Ctn.toks (x : Ctn) : List Token := x.rows ++ x.outs.map (·.2.1)

def Ctn.modTok (i : Nat) (g : Token → Token) (x : Ctn) : Ctn :=
  { x with rows := x.rows.modify i g
           outs := if i < x.rows.length then x.outs else x.outs.modify (i - x.rows.length) fun e => (e.1, g e.2.1, e.2.2) }

theorem Ctn.modTok_toks (i : Nat) (g : Token → Token) (x : Ctn) : (x.modTok i g).toks = x.toks.modify i g := by
  unfold Ctn.modTok Ctn.toks
  by_cases h : i < x.rows.length
  · rw [modify_append_left _ g h]
    simp only [if_pos h]
  · rw [modify_append_right (Nat.le_of_not_lt h), List.modify_eq_self (Nat.le_of_not_lt h)]
    simp only [if_neg h]
    exact congrArg (x.rows ++ ·) (map_modify (f := fun e : Nat × Token × Bool => e.2.1) (fun _ => rfl) _ _)

section
variable (t : Station)

/-- The tokens of the normaliser of a station, and of its corner-turn node. -/
def Station.nrmToks : List Token := match t.nrm with | some x => x.toks | none => []
def Station.ctnToks : List Token := match t.ctn with | some x => x.toks | none => []

theorem Station.nodeToks_eq : t.nodeToks = t.nrmToks ++ t.ctnToks := rfl

theorem Station.modNodeTok_eq (i : Nat) (g : Token → Token) :
    t.modNodeTok i g = if i < t.nrmToks.length then { t with nrm := t.nrm.map (·.modTok i g) }
      else { t with ctn := t.ctn.map (·.modTok (i - t.nrmToks.length) g) } := by
  unfold Station.modNodeTok Station.nrmToks
  cases hn : t.nrm with
  | none => rfl
  | some x =>
    cases hx : x.half with
    | none => simp [hx, Nrm.toks, Nrm.modTok, Ctn.modTok]
    | some k =>
      by_cases hi : i = 0
      · simp [hi, hx, Nrm.toks, Nrm.modTok]
      · simp [hi, hx, Nrm.toks, Nrm.modTok, Ctn.modTok, Nat.add_comm 1]

theorem Station.modNodeTok_id (i : Nat) (g : Token → Token) : (t.modNodeTok i g).id = t.id := by
  rw [Station.modNodeTok_eq]
  split <;> rfl

/-- The tokens of the nodes once the one at a place has changed. -/
theorem Station.modNodeTok_nodeToks (i : Nat) (g : Token → Token) : (t.modNodeTok i g).nodeToks = t.nodeToks.modify i g := by
  rw [Station.nodeToks_eq, Station.nodeToks_eq, Station.modNodeTok_eq]
  split
  next h =>
    rw [modify_append_left _ g h]
    refine congrArg (· ++ t.ctnToks) ?_
    unfold Station.nrmToks
    cases t.nrm with
    | none => simp
    | some x => exact x.modTok_toks i g
  next h =>
    rw [modify_append_right (Nat.le_of_not_lt h)]
    refine congrArg (t.nrmToks ++ ·) ?_
    unfold Station.ctnToks
    cases t.ctn with
    | none => simp
    | some x => exact x.modTok_toks _ g

end
/-! ### Slack at a place (R52) -/

/-- A token with a slack. -/
def Token.withSlack (x : Slack) (k : Token) : Token := { k with bg := x.bg, slack := x.n }

theorem Token.withSlack_slk {y : Slack} (x : Slack) {k : Option Token} (h : k.map Token.slk = some y) : (k.map (·.withSlack x)).map Token.slk = some x := by
  cases k with
  | none => cases h
  | some k => rfl

/-- The slack at a place of a FIFO. -/
theorem Fifo.modAt_slack {f : Fifo} {i : Nat} {y : Slack} (x : Slack) (h : ((f.q[i]?).bind fun e => e.tok.map Token.slk) = some y) :
    (((f.modAt i (·.withSlack x)).q[i]?).bind fun e => e.tok.map Token.slk) = some x := by
  obtain ⟨e, he, hk⟩ := Option.bind_eq_some_iff.1 h
  have hmod : (f.modAt i (·.withSlack x)).q[i]? = some { e with tok := e.tok.map (·.withSlack x) } := by simp [Fifo.modAt, he]
  rw [hmod]
  exact Token.withSlack_slk x hk

theorem modify_withSlack {l : List Token} {i : Nat} {y : Slack} (x : Slack) (h : (l[i]?).map Token.slk = some y) :
    ((l.modify i (·.withSlack x))[i]?).map Token.slk = some x := by
  rw [List.getElem?_modify_eq]
  exact Token.withSlack_slk x h

/-- The route of which one hop has changed. -/
theorem State.modHop_routeId? {s : State} {id k : Nat} {r : Route} (h : s.routeId? id = some r) (f : Hop → Hop) :
    (s.modHop id k f).routeId? id = some { r with hops := r.hops.modify k f } := by
  have hid : r.id = id := by simpa using List.find?_some h
  refine (find?_map_key Route.id id (f := fun r : Route => { r with hops := r.hops.modify k f }) (fun _ => rfl) _ id).trans ?_
  rw [show s.routes.find? (fun r => r.id == id) = some r from h]
  simp [hid]

/-- What stands at a place has the slack that it was given. -/
theorem State.setSlackAt_slackAt {s : State} {l : TokLoc} {y : Slack} (h : s.slackAt l = some y) (x : Slack) : (s.setSlackAt l x).slackAt l = some x := by
  cases l with
  | chan st c i =>
    obtain ⟨t, ht, hk⟩ := Option.bind_eq_some_iff.1 h
    have hmod := State.modStation_station?_self ht (f := fun t => t.modC c (·.modAt i (·.withSlack x))) fun _ => rfl
    refine (congrArg (Option.bind · _) hmod).trans ?_
    simpa [Station.modC] using Fifo.modAt_slack x hk
  | hop r k i =>
    obtain ⟨q, hq, hk⟩ := Option.bind_eq_some_iff.1 h
    obtain ⟨g, hg, hk⟩ := Option.bind_eq_some_iff.1 hk
    refine (congrArg (Option.bind · _) (State.modHop_routeId? hq fun g => { g with fifo := g.fifo.modAt i (·.withSlack x) })).trans ?_
    simpa [hg] using Fifo.modAt_slack x hk
  | req id =>
    obtain ⟨q, hq, hk⟩ := Option.map_eq_some_iff.1 h
    have hid : q.id = id := by simpa using List.find?_some hq
    refine (congrArg (Option.map _) (find?_map_key Req.id id (f := fun q : Req => { q with slack := x }) (fun _ => rfl) _ id)).trans ?_
    simp [hq, hid]
  | agen k i =>
    obtain ⟨g, hg, hk⟩ := Option.bind_eq_some_iff.1 h
    obtain ⟨e, he, hk⟩ := Option.bind_eq_some_iff.1 hk
    simpa [State.slackAt, State.setSlackAt, hg, he, Token.withSlack] using Token.withSlack_slk x hk
  | event v r i =>
    obtain ⟨g, hg, hk⟩ := Option.bind_eq_some_iff.1 h
    obtain ⟨w, hw, hg⟩ := Option.bind_eq_some_iff.1 hg
    have hmod : (s.setSlackAt (.event v r i) x).region? v r = some { g with events := g.events.modify i (·.withSlack x) } :=
      State.region?_of (State.modRegion_voyage? hw) (Voyage.modRegion_region?_self hg fun _ h => h)
    refine (congrArg (Option.bind · _) hmod).trans ?_
    exact modify_withSlack x hk
  | node st i =>
    obtain ⟨t, ht, hk⟩ := Option.bind_eq_some_iff.1 h
    have hmod := State.modStation_station?_self ht (f := fun t => t.modNodeTok i (·.withSlack x)) fun t => t.modNodeTok_id i _
    refine (congrArg (Option.bind · _) hmod).trans ?_
    simpa [Station.modNodeTok_nodeToks] using modify_withSlack x hk

theorem State.setSlackAt_mem (s : State) (l : TokLoc) (x : Slack) : (s.setSlackAt l x).mem = s.mem := by cases l <;> rfl

/-- A background token that is old enough is promoted (R52). -/
theorem Slack.promote_old {x : Slack} (hbg : x.bg = true) (hn : 4096 ≤ x.n) : x.promote = ⟨false, 992⟩ := by
  simp [Slack.promote, hbg, hn]

/-- A port counts an overdue token, and is known from then on. -/
theorem State.countAt_port (s : State) (d i : Nat) : (s.countAt (.port d i)).ports =
    (match s.ports.find? fun p => p.die == d && p.idx == i with
      | some p => { p with overdue := p.overdue + 1 }
      | none => ⟨d, i, [], 1, 0⟩) :: s.ports.filter fun p => !(p.die == d && p.idx == i) := by
  simp only [State.countAt, State.modPort]
  cases s.ports.find? fun p => p.die == d && p.idx == i <;> rfl

/-! ### The events -/

section
variable {s : State}

theorem execResultLands_lands {i : StId} {id : Nat} {t : Station} {f : Flight} (hev : s.ev = .flight i id) (ht : s.station? i = some t)
    (hf : t.flights.find? (fun g => g.id == id) = some f) :
    execResultLands s = .next ((s.modStation i (·.unflown id)).applyAll ⟨i, f.ctx, f.slot⟩ f.effs) := by
  simp only [execResultLands, hev, ht, Option.bind_some, hf]
  rfl

theorem execBackgroundPromote_promotes {l : TokLoc} {x : Slack} (hev : s.ev = .tok l) (hx : s.slackAt l = some x) :
    execBackgroundPromote s = .next (s.setSlackAt l x.promote) := by
  simp only [execBackgroundPromote, hev, hx]

theorem execTokenOverdue_counts {l : TokLoc} {x : Slack} {h : Holder} (hev : s.ev = .tok l) (hx : s.slackAt l = some x) (hbg : x.bg = false)
    (hn : x.n = 0) (hh : s.holderAt l = some h) : execTokenOverdue s = .next (s.countAt h) := by
  simp [execTokenOverdue, hev, hx, hh, hbg, hn]

theorem execFaultTokenRequeue_moves {i : StId} {n : Fin 8} {t : Station} {k : Token} (hev : s.ev = .chan i n) (ht : s.station? i = some t)
    (hk : s.strayFault t n = some k) :
    execFaultTokenRequeue s = .next (((s.modStation i fun t => t.popC n).stir t.voy).pushFault t.voy t.reg k) := by
  simp only [execFaultTokenRequeue, hev, ht, hk]

end

end Sys2Proof.Machine

namespace Sys2Proof.Proofs

open Sys2Proof Sys2Proof.Machine Sys2Proof.Claims

theorem resultsLandAndYieldsEnd : StatementPart.ResultsLandAndYieldsEnd := by
  refine ⟨fun s i t id f ht hf => ?_, fun s i t c ht => ?_⟩
  · have hst := State.modStation_station?_self (s := on s (.flight i id)) ht (f := (·.unflown id)) fun _ => rfl
    refine ⟨_, execResultLands_lands (s := on s (.flight i id)) rfl ht hf, rfl, fun n w r he hr => ?_, fun n w r he hr => ?_⟩
    · rw [he, hr]
      obtain ⟨v, hv, hd, hp, hfl⟩ := State.lands_setD hst ⟨i, f.ctx, f.slot⟩ rfl n w
      exact ⟨v, hv, hd, hp, Station.unflown_all hfl⟩
    · rw [he, hr]
      obtain ⟨v, hv, hd, hp, hfl⟩ := State.lands_setV hst ⟨i, f.ctx, f.slot⟩ rfl n w
      exact ⟨v, hv, hd, hp, Station.unflown_all hfl⟩
  · exact ⟨_, _, rfl, State.modStation_station?_self (s := on s (.ctx i c)) ht fun _ => rfl, rfl, rfl,
      fun j hj => State.modStation_station?_ne (on s (.ctx i c)) hj fun _ => rfl⟩

theorem countersRunOutAndFaultTokensMove : StatementPart.CountersRunOutAndFaultTokensMove := by
  refine ⟨?promote, ?station, ?port, ?slice, ?fault⟩
  case promote =>
    intro s l x hx hbg hn
    have hgives : Gives s .backgroundPromote (.tok l) ((on s (.tok l)).setSlackAt l x.promote) :=
      execBackgroundPromote_promotes (s := on s (.tok l)) rfl hx
    rw [Slack.promote_old hbg hn] at hgives
    exact ⟨_, hgives, State.setSlackAt_slackAt (s := on s (.tok l)) hx _, State.setSlackAt_mem _ _ _⟩
  case station =>
    intro s l x i t hx hbg hn hh ht
    obtain ⟨c, hc⟩ := State.countOverdue_station? (s := on s (.tok l)) ht
    exact ⟨_, _, execTokenOverdue_counts (s := on s (.tok l)) rfl hx hbg hn hh, hc, rfl, rfl, rfl, rfl, rfl⟩
  case port =>
    intro s l x d i hx hbg hn hh
    refine ⟨_, execTokenOverdue_counts (s := on s (.tok l)) rfl hx hbg hn hh, rfl, ?_⟩
    exact State.countAt_port (on s (.tok l)) d i
  case slice =>
    intro s l x d i hx hbg hn hh
    exact ⟨_, _, execTokenOverdue_counts (s := on s (.tok l)) rfl hx hbg hn hh, rfl, rfl, List.find?_cons_of_pos (beq_self_eq_true _), rfl⟩
  case fault =>
    intro s i t n k ht hk
    exact ⟨_, execFaultTokenRequeue_moves (s := on s (.chan i n)) rfl ht hk,
      State.modStation_station?_self (s := on s (.chan i n)) ht fun _ => rfl, by simp [Station.popC, Station.modC, Fifo.pop], rfl, rfl⟩

/-- Settles O40: a result lands by its effects in order, and each counter that runs out is counted where its holder stands. -/
theorem resultsAndCountersRunOut : Obligations.ResultsAndCountersRunOut := ⟨resultsLandAndYieldsEnd, countersRunOutAndFaultTokensMove⟩

end Sys2Proof.Proofs
end

