-- ==== Sys2Proof/Proofs/Firing.lean ====
section
/-! SUPPORT. What a slot that fires does and what one that is not ready does (R160, R161), the commit of a firing without effects, what a good result
comes to (R169), and the proof that `nop` has no effect (R192). -/

namespace Sys2Proof.Machine

open Sys2Proof

/-! ### The commit of a firing without effects -/

theorem State.modStation_same (s : State) (i : StId) : s.modStation i (fun t => t) = s := by
  simp [State.modStation]

/-- A firing that writes no counter of a handle drops no write of one. -/
theorem Station.dropCounters_nil (t : Station) : t.dropCounters [] = t := by
  have hflights : (t.dropCounters []).flights = t.flights := by
    refine (List.map_congr_left fun f _ => ?_).trans (List.map_id _)
    split
    · rw [List.filter_eq_self.2 fun x _ => by cases x <;> rfl]
      rfl
    · rfl
  exact congrArg (fun l => { t with flights := l }) hflights

/-- A firing that does nothing at once sends nothing out of its region and reads no corrupt data. -/
theorem Env.keepInside_of_now_nil (e : Env) (l : Option (Nat × List Effect)) : e.keepInside ⟨[], l⟩ = ⟨[], l⟩ := by
  simp [Env.keepInside, Env.sound, Fire.outs]

theorem commit_nothing (e : Env) (s : State) : commit e s ⟨[], none⟩ =
    s.modStation e.f.st fun t => t.modCtx e.f.ctx fun c => c.markFired e.hdr.guard e.slot := by
  have hdrop : (fun t : Station => t.dropCounters []) = fun t => t := funext Station.dropCounters_nil
  simp only [commit, State.applyAll, State.consumeStops, List.foldl_nil, hdrop, State.modStation_same]
  rfl

theorem Ctx.markFired_eq (c : Ctx) (g : Guard) (sl : Fin 32) :
    c.markFired g sl = if g = .init then { c with fired := c.fired ||| BitVec.twoPow 32 sl.val } else c := by
  cases g <;> rfl

/-! ### Room and results (R159, R169) -/

theorem Env.room_of_outRoom_false {e : Env} {o : Fin 8} {n : Nat} (h : e.s.outRoom e.f.st o n = false) : e.room o n = false := by
  simp [Env.room, h]

section
variable {e : Env} {d : Opd} (hready : e.destReady d = true) (hbad : e.destBad d = false)
include hready hbad

theorem Env.result_ok (lat : Nat) (eff : List Effect) (k : Token) : e.result lat false eff d (.ok k) = some ((e.write lat d k).after eff) := by
  simp [Env.result, hready, hbad]

theorem Env.scalar_ok (lat : Nat) (eff : List Effect) (w : Word) :
    e.scalar lat false eff d w = some ((e.write lat d (Token.scalar w e.sl)).after eff) :=
  Env.result_ok hready hbad lat eff _

end

end Sys2Proof.Machine

namespace Sys2Proof.Claims

open Sys2Proof Sys2Proof.Machine

/-! ### A slot that comes next (R160) -/

section
variable {k : Slot} {s : State} {h : Hdr} (hk : k.Fires s h) {i : Instr} {rule : Env → Option Fire} (hexec : exec i s = runRule h rule s)
include hk hexec

/-- A rule that is ready does what it answers. -/
theorem Slot.Fires.does {x : Fire} (hx : rule (k.env s h) = some x) : k.Does s i h x := by
  obtain ⟨hf, ht, hs, hg⟩ := hk
  rw [Slot.Does, hexec, runRule_next, fireRule_ready s hf ht hs hg hx]
  rfl

/-- A rule that is not ready only takes its slot. -/
theorem Slot.Fires.idles (hx : rule (k.env s h) = none) : exec i s = .next (s.slotTaken k.f k.rest) := by
  obtain ⟨hf, ht, hs, -⟩ := hk
  rw [hexec, runRule_next, fireRule_idle s hf ht hs (.inr hx)]

end

end Sys2Proof.Claims

namespace Sys2Proof.Proofs

open Sys2Proof Sys2Proof.Machine Sys2Proof.Claims

/-- Settles O22: a firing without effects marks at most its slot, and `nop` is of the class of the system rules. -/
theorem nopHasNoEffect : Obligations.NopHasNoEffect := by
  refine ⟨fun k s h hk => ?_, fun h r hr => ?_⟩
  · have hdoes : k.Does s (.nop h) h ⟨[], none⟩ := hk.does rfl rfl
    rw [Slot.Does, Slot.after, Env.keepInside_of_now_nil, commit_nothing] at hdoes
    simp only [Ctx.markFired_eq] at hdoes
    exact hdoes
  · cases hr
    exact ⟨rfl, rfl, rfl, rfl, rfl⟩

end Sys2Proof.Proofs
end

