-- ==== Sys2Proof/Proofs/SplitAndCounts.lean ====
section
/-! SUPPORT. The halves of a token (R184) and the counts of a handle (R153), and the proofs that `split` halves a token and that `hfill` and `hfree` write
their counts (R184, R189). -/

namespace Sys2Proof.Machine

open Sys2Proof

/-! ### A forwarded token (R176) and the halves of a token (R184) -/

section
variable (k : Token) (tag : BitVec 3) (sl : Slack)

@[simp] theorem Token.fwd_fmt : (k.fwd tag sl).fmt = k.fmt := rfl
@[simp] theorem Token.fwd_tag : (k.fwd tag sl).tag = tag := rfl
@[simp] theorem Token.fwd_slk : (k.fwd tag sl).slk = sl := rfl
@[simp] theorem Token.fwd_data : (k.fwd tag sl).data = k.data := rfl
@[simp] theorem Token.fwd_side : (k.fwd tag sl).side = k.side := rfl

end

theorem extractLsb'_zero_setWidth {w v : Nat} (h : w ≤ v) (x : BitVec w) : (x.setWidth v).extractLsb' 0 w = x := by
  rw [BitVec.extractLsb'_setWidth_of_le (by omega), BitVec.extractLsb'_eq_self]

theorem extractLsb'_width_setWidth {w v : Nat} (x : BitVec w) (n : Nat) : (x.setWidth v).extractLsb' w n = 0 := by
  ext i hi
  simp

section
variable (k : Token) (hi : Bool)

@[simp] theorem Token.half_fmt : (k.half hi).fmt = k.fmt := by
  unfold Token.half
  rfl

@[simp] theorem Token.half_data_low : (k.half hi).data.extractLsb' 0 256 = k.data.extractLsb' (if hi then 256 else 0) 256 := by
  rw [show (if hi then 256 else 0) = 256 * (if hi then 1 else 0) by cases hi <;> rfl]
  exact extractLsb'_zero_setWidth (by omega) _

@[simp] theorem Token.half_data_high : (k.half hi).data.extractLsb' 256 256 = 0 := extractLsb'_width_setWidth _ _

@[simp] theorem Token.half_side_low : (k.half hi).side.extractLsb' 0 32 = k.side.extractLsb' (if hi then 32 else 0) 32 := by
  rw [show (if hi then 32 else 0) = 32 * (if hi then 1 else 0) by cases hi <;> rfl]
  simp only [Token.half, BitVec.extractLsb'_or, extractLsb'_zero_setWidth (show 32 ≤ 64 by omega)]
  exact BitVec.or_zero

@[simp] theorem Token.half_side_high : (k.half hi).side.extractLsb' 32 32 = 0x7F7F7F7F := by
  simp only [Token.half, BitVec.extractLsb'_or, extractLsb'_width_setWidth]
  exact BitVec.zero_or

end

section
variable {e : Env} {o : Fin 8} {src : Opd} {tag : BitVec 3} {x : Val}

theorem ruleSplit_of_no_room (h : e.room o 1 = false ∨ e.room (o + 1) 1 = false) : ruleSplit o src tag e = none := by
  have hroom : (e.room o 1 && e.room (o + 1) 1) = false := Bool.and_eq_false_iff.2 h
  simp only [ruleSplit, hroom]
  split <;> rfl

variable (hread : e.read src = some x) (hbad : x.bad = false) (hroom : e.room o 1 = true) (hroom' : e.room (o + 1) 1 = true)
include hread hbad hroom hroom'

theorem ruleSplit_halves (hfmt : x.tok.fmt ≠ 44) : ruleSplit o src tag e =
    some ⟨x.eff ++ [.emit o ((x.tok.half false).fwd tag e.sl), .emit (o + 1) ((x.tok.half true).fwd tag e.sl)], none⟩ := by
  simp only [ruleSplit, hread, hbad, hroom, hroom', if_neg hfmt]
  rfl

theorem ruleSplit_x320 (hfmt : x.tok.fmt = 44) : ruleSplit o src tag e = some (e.fault 1 x.eff (some o) (badTag 44)) := by
  simp only [ruleSplit, hread, hbad, hroom, hroom', if_pos hfmt]
  rfl

end

/-! ### The counts of a handle (R153) -/

/-- The difference of two counters, taken modulo 2^32. -/
theorem HEntry.fill_ring {h : HEntry} (hk : h.kind = .ring) : h.fill = (h.pcnt.toNat + 2 ^ 32 - h.ccnt.toNat) % 2 ^ 32 := by
  simp only [HEntry.fill, hk, BitVec.toNat_sub]
  omega

theorem HEntry.fill_phase {h : HEntry} (hk : h.kind = .phase) : h.fill = Nat.min h.pcnt.toNat (h.size.toNat / 64) := by
  simp only [HEntry.fill, hk, HEntry.nslot]

theorem HEntry.fill_plain {h : HEntry} (hk : h.kind = .plain) : h.fill = 0 := by
  simp only [HEntry.fill, hk]

theorem Station.hfree_plain {t : Station} {n : Fin 16} (hk : t.h[n].kind = .plain) : t.hfree n = 0 := by
  simp only [Station.hfree, hk]

theorem Station.hfree_phase {t : Station} {n : Fin 16} (hk : t.h[n].kind = .phase) :
    t.hfree n = (t.h[n].size.toNat / 64 - Nat.min t.h[n].pcnt.toNat (t.h[n].size.toNat / 64)) % 2 ^ 32 := by
  simp only [Station.hfree, hk, HEntry.fill_phase hk, HEntry.nslot]

theorem Station.hfree_ring {t : Station} {n : Fin 16} (hk : t.h[n].kind = .ring) : t.hfree n =
    (t.h[n].size.toNat / 64 + 2 ^ 33 - (t.h[n].pcnt.toNat + 2 ^ 32 - t.h[n].ccnt.toNat) % 2 ^ 32 - t.claimed n % 2 ^ 32) % 2 ^ 32 := by
  simp only [Station.hfree, hk, HEntry.nslot, BitVec.toNat_sub, BitVec.toNat_ofNat]
  omega

end Sys2Proof.Machine

namespace Sys2Proof.Claims

open Sys2Proof Sys2Proof.Machine

/-- The two instructions that have a count, and the model's counts. -/
theorem handleCount_cases {t : Station} {i : Instr} {r : HRead} {n : Nat} (h : handleCount t i = some (r, n)) :
    (i = .hfill r ∧ n = t.h[r.n].fill) ∨ (i = .hfree r ∧ n = t.hfree r.n) := by
  unfold handleCount at h
  split at h
  case h_1 r' =>
    cases h
    refine .inl ⟨rfl, ?_⟩
    split
    next hk => exact (HEntry.fill_plain hk).symm
    next hk => exact (HEntry.fill_ring hk).symm
    next hk => exact (HEntry.fill_phase hk).symm
  case h_2 r' =>
    cases h
    refine .inr ⟨rfl, ?_⟩
    split
    next hk => exact (Station.hfree_plain hk).symm
    next hk => exact (Station.hfree_ring hk).symm
    next hk => exact (Station.hfree_phase hk).symm
  case h_3 => cases h

end Sys2Proof.Claims

namespace Sys2Proof.Proofs

open Sys2Proof Sys2Proof.Machine Sys2Proof.Claims

/-- Settles O19: the tokens are the two halves of the model's `Token.half`, forwarded. -/
theorem splitHalvesAToken : Obligations.SplitHalvesAToken := by
  refine ⟨?halves, ?noRoom, ?x320⟩
  case halves =>
    intro k s h o src tag x hk hread hbad hfmt hroom hroom'
    refine ⟨_, _, hk.does rfl (ruleSplit_halves hread hbad hroom hroom' hfmt), ?_⟩
    simp
  case noRoom =>
    intro k s h o src tag hk hroom
    exact hk.idles rfl (ruleSplit_of_no_room (hroom.imp Env.room_of_outRoom_false Env.room_of_outRoom_false))
  case x320 =>
    intro k s h o src tag x hk hread hbad hfmt hroom hroom'
    exact hk.does rfl (ruleSplit_x320 hread hbad hroom hroom' hfmt)

/-- Settles O21: the counts of R153 are the differences of the counters as words of 32 bits. -/
theorem handleCounts : Obligations.HandleCounts := by
  intro k s i r n hcount hk hready hbad
  rcases handleCount_cases hcount with ⟨rfl, rfl⟩ | ⟨rfl, rfl⟩ <;>
    exact hk.does rfl (Env.scalar_ok hready hbad 1 [] _)

end Sys2Proof.Proofs
end

