-- ==== Sys2Proof/Proofs/Requests.lean ====
section
/-! SUPPORT. Looking up a request, a copy or a domain after an update, what counting an overdue reply leaves alone (R56), and how a request is answered
(R53, R268). -/

namespace Sys2Proof.Machine

open Sys2Proof

/-! ### Lookups -/

section
variable {α κ : Type} [DecidableEq κ] (key : α → κ) {l : List α} {k : κ} {a : α}

/-- The record with a number, after a change of its own. -/
theorem find?_map_key_self {f : α → α} (hf : ∀ u, key (f u) = key u) (h : l.find? (fun u => key u == k) = some a) :
    (l.map fun u => if key u = k then f u else u).find? (fun u => key u == k) = some (f a) := by
  have hk : key a = k := by simpa using List.find?_some h
  rw [find?_map_key key k hf, h, Option.map_some, if_pos hk]

/-- A record that has been moved to the end. -/
theorem find?_moved (l : List α) (a : α) : (l.filter (fun u => key u ≠ key a) ++ [a]).find? (fun u => key u == key a) = some a := by
  have hgone : (l.filter fun u => key u ≠ key a).find? (fun u => key u == key a) = none :=
    List.find?_eq_none.2 fun u hu => by simpa using (List.mem_filter.1 hu).2
  rw [List.find?_append, hgone]
  simp

end

section
variable {s : State} {id : Nat} {q : Req}

theorem State.req?_congr {t : State} (h : t.reqs = s.reqs) (n : Nat) : t.req? n = s.req? n := congrArg (List.find? _) h

theorem State.modReq_req?_self (h : s.req? id = some q) {f : Req → Req} (hf : ∀ p, (f p).id = p.id) : (s.modReq id f).req? id = some (f q) :=
  find?_map_key_self Req.id hf h

theorem State.sendOut_req? (s : State) (q : Req) : (s.sendOut q).req? q.id = some q := find?_moved Req.id s.reqs q

end

section
variable {s : State} {id : Nat} {k : Copy}

theorem State.copy?_id (h : s.copy? id = some k) : k.id = id := by simpa using List.find?_some h

theorem State.modCopy_copy?_self (h : s.copy? id = some k) {f : Copy → Copy} (hf : ∀ c, (f c).id = c.id) : (s.modCopy id f).copy? id = some (f k) :=
  find?_map_key_self Copy.id hf h

/-- A copy takes its place among the completed ones as it is (R279). -/
theorem State.rankCopy_copy?_self (s : State) (id : Nat) : (s.rankCopy id).copy? id = s.copy? id := by
  unfold State.rankCopy
  split
  next k hk =>
    obtain rfl := State.copy?_id hk
    split
    · exact (find?_moved Copy.id s.copies k).trans hk.symm
    · rfl
  · rfl

/-- It changes nothing but the copies. -/
theorem State.rankCopy_state (s : State) (id : Nat) : ∃ l, s.rankCopy id = { s with copies := l } := by
  unfold State.rankCopy
  split
  · split <;> exact ⟨_, rfl⟩
  · exact ⟨_, rfl⟩

/-- A copy that has done a piece. -/
theorem State.copied_copy? (h : s.copy? id = some k) (n : Nat) :
    (s.copied k n).copy? id = some { k with pos := k.pos + n, wait := none, held := 0 } := by
  obtain rfl := State.copy?_id h
  exact (State.rankCopy_copy?_self _ _).trans (State.modCopy_copy?_self h fun _ => rfl)

end

section
variable {s : State} {q : Req} {d : Domain}

/-- The domain of a request, after a change of that domain that leaves it the request's. -/
theorem State.modDomain_domain? {f : Domain → Domain} (hf : ∀ d, (f d).holds q = d.holds q) (h : s.domain? q = some d) :
    (s.modDomain q f).domain? q = some (f d) := by
  have hp : (fun d => d.holds q) ∘ (fun d => if d.holds q then f d else d) = fun d : Domain => d.holds q := by
    funext d
    by_cases hd : d.holds q <;> simp [hd, hf]
  refine List.find?_map.trans ?_
  rw [hp, show s.domains.find? (fun d => d.holds q) = some d from h]
  have hd : d.holds q = true := List.find?_some (p := fun d : Domain => d.holds q) (show s.domains.find? _ = some d from h)
  simp [hd]

theorem State.domain?_congr {t : State} (h : t.domains = s.domains) (q : Req) : t.domain? q = s.domain? q := congrArg (List.find? _) h

/-- The chain goes on after an ordinary request. -/
theorem State.goOn_domain? (hrel : q.released = false) (hmon : q.op.monitor = false) (h : s.domain? q = some d) :
    (s.goOn q).domain? q = some (d.after q) := by
  simp only [State.goOn, hrel, hmon]
  exact State.modDomain_domain? (fun _ => rfl) h

theorem State.goOn_reqs (s : State) (q : Req) : (s.goOn q).reqs = s.reqs := by
  unfold State.goOn
  split <;> rfl

theorem State.goOn_mem (s : State) (q : Req) : (s.goOn q).mem = s.mem := by
  unfold State.goOn
  split <;> rfl

end

/-! ### The way over the die links (R22) -/

/-- The port whose flow a request belongs to. -/
def Req.flowPort (q : Req) : Nat × Nat := match q.port with | some p => p | none => (q.die, 0)

/-- The direction that the flow of a request has taken, and the one that it takes. -/
def State.flowKept (s : State) (q : Req) : Option Bool := (s.paths.find? fun k => k.port == q.flowPort && k.far == q.homeDie).map (·.cw)
def State.flowDir (s : State) (q : Req) : Bool := s.keptWay q.die q.homeDie (s.flowKept q)

/-- A flow that takes a new direction keeps to it. -/
def State.keepWay (s : State) (q : Req) : State :=
  { s with paths := ⟨q.flowPort, q.homeDie, s.flowDir q⟩ :: s.paths.filter fun k => !(k.port == q.flowPort && k.far == q.homeDie), free := s.free + 1 }

section
variable (s : State) (q : Req) (back : Bool)

theorem State.flowWay_links : (s.flowWay q back).1 =
    if q.die = q.homeDie then [] else wayLinks q.die (s.flowDir q) (ringDies q.die q.homeDie (s.flowDir q)) back := by
  unfold State.flowWay
  dsimp only
  split <;> rfl

theorem State.flowWay_state : (s.flowWay q back).2 =
    if q.die = q.homeDie then s else if s.flowKept q = some (s.flowDir q) then s else s.keepWay q := by
  unfold State.flowWay
  dsimp only
  split <;> rfl

theorem State.flowWay_stations : (s.flowWay q back).2.stations = s.stations := by
  rw [State.flowWay_state]
  split
  · rfl
  · split <;> rfl

/-- The links of a way do not depend on what the running event acts on. -/
theorem State.flowWay_links_on (a : EvArg) : ((Claims.on s a).flowWay q back).1 = (s.flowWay q back).1 := by
  rw [State.flowWay_links, State.flowWay_links]
  rfl

theorem State.flowWay_state_on (a : EvArg) : ((Claims.on s a).flowWay q back).2 = Claims.on (s.flowWay q back).2 a := by
  rw [State.flowWay_state, State.flowWay_state, apply_ite (Claims.on · a), apply_ite (Claims.on · a)]
  rfl

end

/-! ### Counting an overdue reply (R56) -/

/-- From `s` to `t` requests, copies, domains, versioned lines and memory stay as they are. -/
structure CountFrame (s t : State) : Prop where
  (reqs : t.reqs = s.reqs) (copies : t.copies = s.copies) (domains : t.domains = s.domains) (cells : t.cells = s.cells) (mem : t.mem = s.mem)
  (host : t.host = s.host)

theorem CountFrame.refl (s : State) : CountFrame s s := ⟨rfl, rfl, rfl, rfl, rfl, rfl⟩

theorem CountFrame.trans {s t u : State} (h : CountFrame s t) (k : CountFrame t u) : CountFrame s u :=
  ⟨k.reqs.trans h.reqs, k.copies.trans h.copies, k.domains.trans h.domains, k.cells.trans h.cells, k.mem.trans h.mem, k.host.trans h.host⟩

theorem CountFrame.of_rule {s t : State} (h : RuleFrame s t) (reqs : t.reqs = s.reqs) (copies : t.copies = s.copies) : CountFrame s t :=
  ⟨reqs, copies, h.domains, h.cells, h.mem, h.host⟩

theorem CountFrame.ite {s t u : State} {c : Prop} [Decidable c] (h : CountFrame s t) (k : CountFrame s u) : CountFrame s (if c then t else u) := by
  split
  · exact h
  · exact k

section
variable (s : State)

theorem State.modStation_count (i : StId) (f : Station → Station) : CountFrame s (s.modStation i f) :=
  .of_rule (s.modStation_frame i f) rfl rfl

theorem State.pushFault_count (voy reg : Nat) (k : Token) : CountFrame s (s.pushFault voy reg k) := by
  refine .of_rule (s.pushFault_frame voy reg k) ?_ ?_
  all_goals
    unfold State.pushFault
    split
    · rfl
    · split
      · rfl
      · split
        · rfl
        · split <;> rfl

theorem State.countOverdue_count (i : StId) : CountFrame s (s.countOverdue i) := by
  unfold State.countOverdue
  split
  · exact .refl s
  · dsimp only
    split
    · exact s.modStation_count _ _
    · refine .ite ((s.modStation_count _ _).trans (State.pushFault_count _ _ _ _)) (.ite ?_ (s.modStation_count _ _))
      exact (s.modStation_count _ _).trans (.of_rule (State.pushEvent_frame _ _ _ _) rfl rfl)

theorem State.countAt_count (h : Holder) : CountFrame s (s.countAt h) := by
  cases h with
  | station i => exact s.countOverdue_count i
  | port d i => exact ⟨rfl, rfl, rfl, rfl, rfl, rfl⟩
  | slice d i => exact ⟨rfl, rfl, rfl, rfl, rfl, rfl⟩

theorem State.countServed_count (q : Req) : CountFrame s (s.countServed q) := by
  unfold State.countServed
  split
  · split
    · exact s.countAt_count _
    · exact .refl s
  · exact .refl s

theorem State.flowWay_count (q : Req) (back : Bool) : CountFrame s (s.flowWay q back).2 := by
  rw [s.flowWay_state q back]
  exact .ite (.refl s) (.ite (.refl s) ⟨rfl, rfl, rfl, rfl, rfl, rfl⟩)

theorem State.unkept_count (h : HEntry) (pa n : Nat) : CountFrame s (s.unkept h pa n) := by
  unfold State.unkept
  split <;> exact ⟨rfl, rfl, rfl, rfl, rfl, rfl⟩

end

/-! ### Answers (R53, R268) -/

/-- Whether a request goes back with a reply: it always owes one, or faults, or has a destination. -/
def Req.owes (q : Req) (r : Reply) : Bool := q.always || (match r with | .fault _ => true | _ => false) || q.dest ≠ .none

theorem Req.owes_fault (q : Req) (k : Token) : q.owes (.fault k) = true := by simp [Req.owes]

theorem Req.owes_of_dest {q : Req} (h : q.dest ≠ .none) (r : Reply) : q.owes r = true := by simp [Req.owes, h]

theorem Req.owes_of_always {q : Req} (h : q.always = true) (r : Reply) : q.owes r = true := by simp [Req.owes, h]

theorem Req.owes_silent {q : Req} (ha : q.always = false) (h : q.dest = .none) : q.owes .silent = false := by simp [Req.owes, ha, h]

theorem Req.always_agen {q : Req} {side off : Nat} (h : q.src = .agen side off) : q.always = true := by simp [Req.always, h]

theorem Req.always_part {q : Req} {c n : Nat} {wr : Bool} (h : q.op = .part c n wr) : q.always = true := by simp [Req.always, h]

theorem Req.always_tree {q : Req} {j n : Nat} {x : TreeKey} {wr : Bool} (h : q.op = .tree j x n wr) : q.always = true := by simp [Req.always, h]

/-- Any other request owes a reply only as its destination or its result wants one. -/
theorem Req.not_always {q : Req} (hsrc : ∀ side off, q.src ≠ .agen side off) (hpart : ∀ c n wr, q.op ≠ .part c n wr)
    (htree : ∀ j x n wr, q.op ≠ .tree j x n wr) : q.always = false := by
  refine Bool.or_eq_false_iff.2 ⟨?_, ?_⟩
  · split
    · exact absurd ‹_› (hsrc _ _)
    · rfl
  · split
    · exact absurd ‹_› (hpart _ _ _)
    · exact absurd ‹_› (htree _ _ _ _)
    · rfl

/-- A request that goes back, over the given links. -/
def Req.goesBack (r : Reply) (way : List (Nat × Bool)) (q : Req) : Req :=
  { q with stage := .reply Config.replyLatency r, way := way, slack := q.slack.served, credit := false, released := true }

section
variable (s : State) {q : Req} {r : Reply}

theorem State.respond_eq (q : Req) (r : Reply) : s.respond q r =
    if q.owes r then ((s.countServed q).flowWay q true).2.modReq q.id (Req.goesBack r ((s.countServed q).flowWay q true).1) else s.dropReq q.id := rfl

theorem State.respond_owed (h : q.owes r = true) :
    s.respond q r = ((s.countServed q).flowWay q true).2.modReq q.id (Req.goesBack r ((s.countServed q).flowWay q true).1) := by
  rw [State.respond_eq, if_pos h]

theorem State.respond_unowed (h : q.owes r = false) : s.respond q r = s.dropReq q.id := by
  rw [State.respond_eq, h]
  rfl

/-- An answer changes requests, and what counting an overdue reply does. -/
theorem State.respond_state (q : Req) (r : Reply) : ∃ w l, CountFrame s w ∧ s.respond q r = { w with reqs := l } := by
  cases h : q.owes r with
  | false => exact ⟨s, _, .refl s, s.respond_unowed h⟩
  | true => exact ⟨_, _, (s.countServed_count q).trans (State.flowWay_count _ q true), s.respond_owed h⟩

theorem State.respond_domains (q : Req) (r : Reply) : (s.respond q r).domains = s.domains := by
  obtain ⟨w, l, hw, h⟩ := s.respond_state q r
  rw [h]
  exact hw.domains

theorem State.respond_cells (q : Req) (r : Reply) : (s.respond q r).cells = s.cells := by
  obtain ⟨w, l, hw, h⟩ := s.respond_state q r
  rw [h]
  exact hw.cells

theorem State.respond_mem (q : Req) (r : Reply) : (s.respond q r).mem = s.mem := by
  obtain ⟨w, l, hw, h⟩ := s.respond_state q r
  rw [h]
  exact hw.mem

end

end Sys2Proof.Machine

namespace Sys2Proof.Claims

open Sys2Proof Sys2Proof.Machine

section
variable {s u : State} {q : Req} {r : Reply}

theorem Answers.congr (h : Answers s q r) (hreqs : u.reqs = s.reqs) : Answers u q r := by
  obtain ⟨y, k, hy, hrest⟩ := h
  exact ⟨y, k, (State.req?_congr hreqs _).trans hy, hrest⟩

/-- A request that owes a reply is answered. -/
theorem respond_answers (hq : s.req? q.id = some q) (h : q.owes r = true) : Answers (s.respond q r) q r := by
  rw [s.respond_owed h]
  have hreqs := ((s.countServed_count q).trans (State.flowWay_count _ q true)).reqs
  exact ⟨_, _, State.modReq_req?_self ((State.req?_congr hreqs _).trans hq) fun _ => rfl, rfl, rfl, rfl⟩

theorem respond_ends (h : q.owes r = false) : (s.respond q r).req? q.id = none := by
  rw [s.respond_unowed h]
  exact Proofs.dropReq_req? s q.id

/-- A request that faults, seen from its station. -/
theorem faultReq_eq {t : Station} (ht : s.station? q.st = some t) (f : FaultC) :
    s.faultReq q f = s.respond q (.fault (faultToken t q.ctx q.slot q.slack.served f)) := by
  simp only [State.faultReq, ht]

theorem faultReq_answers {t : Station} (hq : s.req? q.id = some q) (ht : s.station? q.st = some t) (f : FaultC) :
    Answers (s.faultReq q f) q (.fault (faultToken t q.ctx q.slot q.slack.served f)) := by
  rw [faultReq_eq ht]
  exact respond_answers hq (q.owes_fault _)

theorem faultReq_mem {t : Station} (ht : s.station? q.st = some t) (f : FaultC) : (s.faultReq q f).mem = s.mem := by
  rw [faultReq_eq ht]
  exact s.respond_mem q _

end

end Sys2Proof.Claims
end

