-- ==== Sys2Proof/Proofs/Ports.lean ====
section
/-! SUPPORT. What a port does with a request that arrives (R230, R232), what becomes of one that its chain lets go (R236, R244, R256), and the proof that
ports take and release requests. -/

namespace Sys2Proof.Machine

open Sys2Proof Sys2Proof.Claims

/-! ### Arrival (R230, R232) -/

/-- The pass of a request that arrives: how many of its OWN have arrived in its domain (R232). -/
def State.passOf (s : State) (q : Req) : Nat := match s.domain? q with | some d => d.arrived q.own | none => 0

/-- A request in the buffer of its port. -/
def Req.buffer (pass arrived : Nat) (q : Req) : Req := { q with stage := .port, pass := pass, credit := false, arrived := arrived }

/-- A request that holds a credit gives it back to its station. -/
def State.creditBack (s : State) (q : Req) : State := if q.credit then s.modStation q.st fun t => { t with credits := t.credits - 1 } else s

section
variable (s : State) (q : Req)

theorem State.creditBack_count : CountFrame s (s.creditBack q) := by
  unfold State.creditBack
  split
  · exact s.modStation_count _ _
  · exact .refl s

theorem State.creditBack_nextId : (s.creditBack q).nextId = s.nextId := by
  unfold State.creditBack
  split <;> rfl

theorem State.creditBack_station? {t : Station} (h : s.station? q.st = some t) :
    ∃ v, (s.creditBack q).station? q.st = some v ∧ v.credits = if q.credit then t.credits - 1 else t.credits := by
  unfold State.creditBack
  split
  · exact ⟨_, State.modStation_station?_self h fun _ => rfl, rfl⟩
  · exact ⟨t, h, rfl⟩

/-- A request that its domain counts changes nothing but the domains. -/
theorem State.countArrival_state (f : Domain → Domain) : ∃ l, (s.withDomain q).modDomain q f = { s with domains := l } := by
  unfold State.withDomain
  split <;> exact ⟨_, rfl⟩

theorem State.withDomain_domain? {d : Domain} (h : s.domain? q = some d) : (s.withDomain q).domain? q = some d := by
  simp [State.withDomain, h]

/-- A domain's first request has pass 0. -/
theorem State.withDomain_passOf : (s.withDomain q).passOf q = s.passOf q := by
  unfold State.withDomain
  split
  next d p hd hp =>
    have hnone : s.domains.find? (fun d => d.holds q) = none := hd
    have hfresh : ({ s with domains := s.domains ++ [Domain.fresh q.voy q.reg d p q.src 0 false] } : State).domain? q =
        some (Domain.fresh q.voy q.reg d p q.src 0 false) := by
      refine List.find?_append.trans ?_
      rw [hnone]
      simp [Domain.holds, Domain.fresh, hp]
    rw [State.passOf, hfresh, State.passOf, hd]
    rfl
  · rfl

end

section
variable {s : State} {q : Req} (hev : s.ev = .req q.id) (hq : s.req? q.id = some q) (hst : q.stage = .net 0)
include hev hq hst

theorem execMemoryRequestIssue_window (hw : q.h.space = .win) : execMemoryRequestIssue s = .next (s.sendWindow q) := by
  simp [execMemoryRequestIssue, hev, hq, hst, hw]

variable (hw : q.h.space ≠ .win)
include hw

theorem execMemoryRequestIssue_monitor (hm : q.op.monitor = true) :
    execMemoryRequestIssue s = .next (s.modReq q.id fun q => { q with stage := .translate }) := by
  simp [execMemoryRequestIssue, hev, hq, hst, hw, hm]

variable (hm : q.op.monitor = false)
include hm

theorem execMemoryRequestIssue_waits (hr : s.portRoom q = false) : execMemoryRequestIssue s = .next s := by
  simp [execMemoryRequestIssue, hev, hq, hst, hw, hm, hr]

/-- A request enters the buffer of its port: its domain counts it, and its credit returns. -/
theorem execMemoryRequestIssue_enters (hr : s.portRoom q = true) : execMemoryRequestIssue s =
    .next ((((s.withDomain q).modDomain q fun d => d.arrive q.own).creditBack q).modReq q.id (Req.buffer (s.passOf q) s.nextId)).fresh := by
  have hid : (((s.withDomain q).modDomain q fun d => d.arrive q.own).creditBack q).nextId = s.nextId := by
    obtain ⟨l, h⟩ := s.countArrival_state q fun d => d.arrive q.own
    rw [State.creditBack_nextId, h]
  rw [← State.withDomain_passOf, ← hid]
  simp only [execMemoryRequestIssue, hev, hq, hst, hw, hm, hr]
  rfl

end

section
variable (s : State) {q : Req}

theorem State.sendWindow_released (h : q.released = true) : s.sendWindow q = s := by simp [State.sendWindow, h]

/-- A request sets out over the given links. -/
def Req.setOut (way : List (Nat × Bool)) (q : Req) : Req := { q with way := way, released := true }

theorem State.sendWindow_sends (h : q.released = false) :
    s.sendWindow q = (s.flowWay q false).2.modReq q.id (Req.setOut (s.flowWay q false).1) := by
  simp only [State.sendWindow, h]
  rfl

end

/-! ### On the way to the home (R22, R236) -/

section
variable (s : State) (q : Req) (ps : List (Nat × Nat × Nat)) (op : ReqOp) (v : Bool)

/-- A participant that joins a space changes its marks and watermarks. -/
theorem State.join_count (asid : BitVec 16) (p : Participant) : CountFrame s (s.join asid p) := by
  unfold State.join
  dsimp only
  split <;> split <;> exact ⟨rfl, rfl, rfl, rfl, rfl, rfl⟩

theorem State.joinBy_mem : (s.joinBy q v).mem = s.mem := by
  unfold State.joinBy
  split
  · split
    · exact (State.join_count _ _ _).mem
    · rfl
  · rfl

/-- A request that leaves its port, translated. -/
def Req.leave (q : Req) (ps : List (Nat × Nat × Nat)) (op : ReqOp) (v : Bool) : Req :=
  { q with parts := ps, op := op, vers := v, released := true, credit := false, held := 0 }

/-- A request n cycles from its home, with links to cross and the slice map that it goes by. -/
def Req.toHome (n : Nat) (way : List (Nat × Bool)) (epoch : Nat) (q : Req) : Req := { q with stage := .home n, way := way, epoch := epoch }

theorem State.sendHome_state : ∃ n e, s.sendHome q ps op v =
    (((s.joinBy q v).flowWay (q.leave ps op v) false).2.sendOut
      ((q.leave ps op v).toHome n ((s.joinBy q v).flowWay (q.leave ps op v) false).1 e)).draw := ⟨_, _, rfl⟩

/-- A request that is out on its way to its home. -/
theorem State.sendHome_req? : ∃ y n, (s.sendHome q ps op v).req? q.id = some y ∧ y.stage = .home n ∧ y.released = true ∧ y.parts = ps ∧ y.op = op ∧
    y.vers = v ∧ y.dest = q.dest ∧ y.stamp = q.stamp := by
  obtain ⟨n, e, h⟩ := s.sendHome_state q ps op v
  rw [h]
  exact ⟨_, n, State.sendOut_req? ((s.joinBy q v).flowWay (q.leave ps op v) false).2 ((q.leave ps op v).toHome n _ e), rfl, rfl, rfl, rfl, rfl, rfl, rfl⟩

theorem State.sendHome_mem : (s.sendHome q ps op v).mem = s.mem := (State.flowWay_count _ _ _).mem.trans (s.joinBy_mem q v)

variable {q}

/-- The domain of a versioned access is a participant from then on (R244, R252). -/
theorem State.joinBy_domain? {d : Domain} (hm : q.op.monitor = false) (hd : s.domain? q = some d) :
    (s.joinBy q v).domain? q = some { d with versioned := d.versioned || v } := by
  simp only [State.joinBy, hd]
  split
  next hv =>
    obtain ⟨⟨hv, -⟩, -⟩ : (v = true ∧ d.versioned = false) ∧ q.op.monitor = false := by simpa using hv
    rw [State.domain?_congr (State.join_count _ _ _).domains, hv, Bool.or_true]
    exact State.modDomain_domain? (fun _ => rfl) hd
  next hv =>
    have hsame : (d.versioned || v) = d.versioned := by
      cases hdv : d.versioned <;> cases v <;> simp_all
    rw [hsame]
    exact hd

theorem State.sendHome_domain? {d : Domain} (hm : q.op.monitor = false) (hd : s.domain? q = some d) :
    (s.sendHome q ps op v).domain? q = some { d with versioned := d.versioned || v } :=
  (State.domain?_congr (State.flowWay_count _ _ _).domains q).trans (s.joinBy_domain? v hm hd)

end

/-! ### Release (R232, R236) -/

/-- The port of a request; one without a port stands at its station's die. -/
def Req.atPort (q : Req) : Nat × Nat := match q.port with | some p => p | none => (q.st.die, 0)

theorem Req.atPort_some {q : Req} {p : Nat × Nat} (h : q.port = some p) : q.atPort = p := by simp [Req.atPort, h]

section
variable {s : State} {q : Req} (hev : s.ev = .req q.id) (hq : s.req? q.id = some q)
include hev hq

theorem execPortRelease_waits (h : s.canRelease q = false ∨ s.still q.voy q.reg = true) : execPortRelease s = .next s := by
  have hwait : (!s.canRelease q || s.still q.voy q.reg) = true := by simpa using h
  simp only [execPortRelease, hev, hq, hwait, if_true]

theorem execPortRelease_releases (hc : s.canRelease q = true) (hs : s.still q.voy q.reg = false) :
    execPortRelease s = .next (s.release q q.atPort) := by
  simp only [execPortRelease, hev, hq, hc, hs]
  rfl

end

/-- What becomes of a request by what the translation of its access comes to. -/
def State.sendWhole (q : Req) : Whole × State → State
  | (.ok ps op v, s) => (s.sendHome q ps op v).goOn q
  | (.fault f, s) => (s.faultReq q f).goOn q
  | (.task a, s) => (s.spoil q a).goOn q
  | (.held w _, s) => s.modReq q.id fun q => { q with stage := .withheld w }

section
variable (s : State) {q : Req} (p : Nat × Nat)

theorem State.release_ends (h : q.op = .mnop ∨ ∃ n, q.op = .pref n) : s.release q p = (s.dropReq q.id).goOn q := by
  rcases h with h | ⟨n, h⟩ <;> simp only [State.release, h]

variable (hg : goesHome q = true)
include hg

/-- An access to device memory goes by its translation (R244). -/
theorem State.release_dev (hd : q.h.space = .dev) (hp : q.parts = []) :
    s.release q p = State.sendWhole q (s.transWhole q p (lineParts q.va q.bytes)) := by
  unfold State.release
  split
  case h_7 =>
    simp only [hd, hp]
    rfl
  all_goals
    rename_i hop
    simp [goesHome, hop] at hg

/-- An access to a peer waits while no link reaches it, and else goes to it as it is (R465). -/
theorem State.release_peer (hd : q.h.space = .peer) :
    (s.boundUp q.asid q.h.peer.toNat = [] → s.release q p = s.modReq q.id fun q => { q with stage := .withheld .noPeer }) ∧
    (s.boundUp q.asid q.h.peer.toNat ≠ [] → s.release q p = (s.sendHome q [(q.va, q.va, q.bytes)] q.op false).goOn q) := by
  unfold State.release
  split
  case h_7 =>
    simp only [hd]
    exact ⟨fun h => if_pos (List.isEmpty_iff.2 h), fun h => if_neg (by simpa using h)⟩
  all_goals
    rename_i hop
    simp [goesHome, hop] at hg

end

end Sys2Proof.Machine

namespace Sys2Proof.Proofs

open Sys2Proof Sys2Proof.Machine Sys2Proof.Claims

/-- A request that is sent home, and the chain that goes on after it. -/
theorem goOn_req? (s : State) (q : Req) (n : Nat) : (s.goOn q).req? n = s.req? n := State.req?_congr (s.goOn_reqs q) n

theorem portsTakeAndRelease : StatementPart.PortsTakeAndRelease := by
  refine ⟨?arrival, ?monitor, ?window, ?waits, ?device, ?peer, ?ends⟩
  case arrival =>
    intro s q hq hst hw hm
    refine ⟨fun hr => execMemoryRequestIssue_waits (s := on s (.req q.id)) rfl hq hst hw hm hr, fun hr => ?_⟩
    let w := ((on s (.req q.id)).withDomain q).modDomain q fun d => d.arrive q.own
    obtain ⟨l, hw'⟩ : ∃ l, w = { on s (.req q.id) with domains := l } := (on s (.req q.id)).countArrival_state q _
    have hcount := w.creditBack_count q
    refine ⟨_, _, execMemoryRequestIssue_enters (s := on s (.req q.id)) rfl hq hst hw hm hr, ?_, ?_, rfl, ?_, ?_⟩
    · refine State.modReq_req?_self ((State.req?_congr hcount.reqs _).trans ?_) fun _ => rfl
      rw [hw']
      exact hq
    · refine hcount.mem.trans ?_
      rw [hw']
      rfl
    · intro d hd
      refine (State.domain?_congr hcount.domains q).trans ?_
      exact State.modDomain_domain? (fun _ => rfl) ((on s (.req q.id)).withDomain_domain? q hd)
    · intro t ht
      refine w.creditBack_station? q ?_
      rw [hw']
      exact ht
  case monitor =>
    intro s q hq hst hw hm
    exact ⟨_, execMemoryRequestIssue_monitor (s := on s (.req q.id)) rfl hq hst hw hm, State.modReq_req?_self hq fun _ => rfl⟩
  case window =>
    intro s q hq hst hw
    have hgives : Gives s .memoryRequestIssue (.req q.id) ((on s (.req q.id)).sendWindow q) :=
      execMemoryRequestIssue_window (s := on s (.req q.id)) rfl hq hst hw
    refine ⟨fun hr => ?_, fun hr => ?_⟩
    · rw [State.sendWindow_released _ hr] at hgives
      exact hgives
    · rw [State.sendWindow_sends _ hr] at hgives
      have hcount := (on s (.req q.id)).flowWay_count q false
      rw [← s.flowWay_links_on q false (.req q.id)]
      exact ⟨_, hgives, hcount.mem, (on s (.req q.id)).flowWay_stations q false,
        State.modReq_req?_self (f := Req.setOut ((on s (.req q.id)).flowWay q false).1) ((State.req?_congr hcount.reqs _).trans hq) fun _ => rfl⟩
  case waits =>
    intro s q hq h
    exact execPortRelease_waits (s := on s (.req q.id)) rfl hq h
  case device =>
    intro s w q p hq hc hs hp hd hg hparts
    have hgives : Gives s .portRelease (.req q.id) (State.sendWhole q ((on s (.req q.id)).transWhole q p (lineParts q.va q.bytes))) := by
      rw [← State.release_dev _ p hg hd hparts, ← Req.atPort_some hp]
      exact execPortRelease_releases (s := on s (.req q.id)) rfl hq hc hs
    refine ⟨fun ps op v h => ?_, fun f t h ht hw => ?_, fun why va h hw => ?_⟩
    all_goals rw [h] at hgives
    · obtain ⟨y, n, hy, hstage, hrel, hps, hop, hv, hdest, hstamp⟩ := w.sendHome_req? q ps op v
      refine ⟨_, y, n, hgives, (goOn_req? _ q _).trans hy, hstage, hrel, hps, hop, hv, hdest, hstamp,
        (State.goOn_mem _ q).trans (w.sendHome_mem q ps op v), ?_⟩
      intro hr hm d hdom
      exact State.goOn_domain? hr hm (w.sendHome_domain? ps op v hm hdom)
    · refine ⟨_, hgives, (faultReq_answers hw ht f).congr (State.goOn_reqs _ q), fun hr hm d hdom => State.goOn_domain? hr hm ?_⟩
      rw [faultReq_eq ht]
      exact (State.domain?_congr (w.respond_domains q _) q).trans hdom
    · exact ⟨_, hgives, State.modReq_req?_self hw fun _ => rfl, rfl⟩
  case peer =>
    intro s q hq hc hs hd hg
    have hgives : Gives s .portRelease (.req q.id) ((on s (.req q.id)).release q q.atPort) :=
      execPortRelease_releases (s := on s (.req q.id)) rfl hq hc hs
    obtain ⟨hwaits, hgoes⟩ := State.release_peer (on s (.req q.id)) q.atPort hg hd
    refine ⟨fun hnone => ?_, fun hsome hr hm => ?_⟩
    · rw [hwaits hnone] at hgives
      exact ⟨_, hgives, State.modReq_req?_self (s := on s (.req q.id)) hq fun _ => rfl, rfl⟩
    · rw [hgoes hsome] at hgives
      obtain ⟨y, n, hy, hstage, hrel, -⟩ := (on s (.req q.id)).sendHome_req? q [(q.va, q.va, q.bytes)] q.op false
      refine ⟨_, y, n, hgives, (goOn_req? _ q _).trans hy, hstage, hrel, fun d hdom => State.goOn_domain? hr hm ?_⟩
      refine (State.sendHome_domain? (on s (.req q.id)) _ q.op false hm hdom).trans ?_
      rw [Bool.or_false]
  case ends =>
    intro s q hq hc hs hr hop
    have hgives : Gives s .portRelease (.req q.id) ((on s (.req q.id)).release q q.atPort) :=
      execPortRelease_releases (s := on s (.req q.id)) rfl hq hc hs
    rw [State.release_ends _ _ hop] at hgives
    have hm : q.op.monitor = false := by rcases hop with h | ⟨n, h⟩ <;> rw [h] <;> rfl
    exact ⟨_, hgives, (goOn_req? _ q _).trans (dropReq_req? _ _), State.goOn_mem _ q, fun d hdom => State.goOn_domain? hr hm hdom⟩

end Sys2Proof.Proofs
end

