-- ==== Sys2Proof/Proofs/Replies.lean ====
section
/-! SUPPORT. What a reply that arrives does (R53, R165, R268, R285, R439), and the proof that requests travel: from their station to their home, and their
replies back. -/

namespace Sys2Proof.Machine

open Sys2Proof

/-! ### Whether a reply lands (R439) -/

section
variable {s : State} {q : Req} {r : Reply} (hq : s.req? q.id = some q) (hst : q.stage = .reply 0 r)
include hq hst

theorem State.replyArrives_far (hway : q.way ≠ []) : s.replyArrives q.id = s := by simp [State.replyArrives, hq, hst, hway]

variable {g : Region} (hway : q.way = []) (hg : s.region? q.voy q.reg = some g)
include hway hg

theorem State.replyArrives_halted (hh : g.st = .halted) (hop : ∀ c n wr, q.op ≠ .part c n wr) : s.replyArrives q.id = s.dropReq q.id := by
  simp only [State.replyArrives, hq, hst, hway, hg, ne_eq, not_true_eq_false, if_false]
  exact if_pos hh

/-- A reply of a region that runs lands, and a piece of a copy in any case. -/
theorem State.replyArrives_lands (h : g.st ≠ .halted ∨ ∃ c n wr, q.op = .part c n wr) : s.replyArrives q.id = s.landReply q (r.aged q.slack) := by
  simp only [State.replyArrives, hq, hst, hway, hg, ne_eq, not_true_eq_false, if_false]
  split
  · rfl
  · exact absurd ‹_› (Option.some_ne_none g)
  next hsome hpart =>
    cases hsome
    exact if_neg (h.resolve_right fun ⟨c, n, wr, hop⟩ => hpart c n wr hop)

end

/-! ### Where a reply lands -/

/-- A monitor that is answered no longer counts at its station. -/
def State.monitorBack (s : State) (q : Req) : State := if q.op.monitor then s.modStation q.st fun t => { t with mons := t.mons - 1 } else s

/-- The elements of an address generator, one of them as its reply brings it. -/
def Agen.arrived (side off : Nat) (q : Req) (r : Reply) (g : Agen) : Agen :=
  if g.die = q.st.die ∧ g.side = side ∧ g.off = off then
    { g with outq := g.outq.map fun (e : Nat × Option Token) => if e.1 = q.id then (e.1, q.element r) else e }
  else g

section
variable (s : State) {q : Req}

theorem State.landReply_agen {side off : Nat} (h : q.src = .agen side off) (r : Reply) :
    s.landReply q r = { s.dropReq q.id with agens := s.agens.map (Agen.arrived side off q r) } := by
  simp only [State.landReply, h]
  rfl

variable (hsrc : ∀ side off, q.src ≠ .agen side off)
include hsrc

theorem State.landReply_written {c n : Nat} {k : Copy} (hop : q.op = .part c n true) (hk : s.copy? c = some k) (v : VReg) :
    s.landReply q (.ok v) = (s.dropReq q.id).copied k n := by
  unfold State.landReply
  split
  · exact absurd ‹_› (hsrc _ _)
  · simp only [hop, hk]
    rfl

theorem State.landReply_read {c n m : Nat} {k : Copy} {a b : Int} (hop : q.op = .part c n false) (hk : s.copy? c = some k) (hp : k.piece = (a, b, m))
    {v : VReg} {x : State} (hput : (s.dropReq q.id).copyPut k b n (v.data.toNat % 2 ^ (8 * n)) = .ok x) : s.landReply q (.ok v) = x := by
  unfold State.landReply
  split
  · exact absurd ‹_› (hsrc _ _)
  · simp only [hop, hk, hp, hput]
    rfl

theorem State.landReply_tree {j n : Nat} {key : TreeKey} {wr : Bool} (hop : q.op = .tree j key n wr) (r : Reply) :
    s.landReply q r = (s.dropReq q.id).treeReply q.st j key r := by
  unfold State.landReply
  split
  · exact absurd ‹_› (hsrc _ _)
  · simp only [hop]

/-- Every other reply lands in the destination of its request. -/
theorem State.landReply_dest (hpart : ∀ c n wr, q.op ≠ .part c n wr) (htree : ∀ j x n wr, q.op ≠ .tree j x n wr) (r : Reply) :
    s.landReply q r = ((s.dropReq q.id).monitorBack q).land q.who q.dest q.slack r := by
  unfold State.landReply
  split
  · exact absurd ‹_› (hsrc _ _)
  · split
    · exact absurd ‹_› (hpart _ _ _)
    · exact absurd ‹_› (hpart _ _ _)
    · exact absurd ‹_› (htree _ _ _ _)
    · rfl

end

/-! ### Registers (R165, R268) -/

section
variable {s : State} {t : Station}

theorem State.monitorBack_station? {q : Req} (h : s.station? q.st = some t) :
    (s.monitorBack q).station? q.st = some { t with mons := if q.op.monitor then t.mons - 1 else t.mons } := by
  unfold State.monitorBack
  split
  · exact State.modStation_station?_self h fun _ => rfl
  · exact h

theorem State.monitorBack_reqs (s : State) (q : Req) : (s.monitorBack q).reqs = s.reqs := by
  unfold State.monitorBack
  split <;> rfl

theorem State.monitorBack_mem (s : State) (q : Req) : (s.monitorBack q).mem = s.mem := by
  unfold State.monitorBack
  split <;> rfl

variable (w : Who)

/-- Cancelling what is owed to a register ends no request and starts none. -/
theorem State.cancelDest_req?_none {n : Nat} (h : s.req? n = none) (i : StId) (p : PReg) : (s.cancelDest i p).req? n = none := by
  unfold State.cancelDest
  split
  · exact h
  · refine List.find?_eq_none.2 fun q hq => ?_
    obtain ⟨o, ho, rfl⟩ := List.mem_map.1 hq
    have hid := List.find?_eq_none.1 h o ho
    split <;> exact hid

/-- A scalar result that lands changes its register, what is pending, and what is owed to the register. -/
theorem State.land_scalar (h : s.station? w.st = some t) (n : Fin 8) (x : Word) : ∃ sd l p,
    (s.applyAll w [.setD n x, .unpend (.d n)]).station? w.st = some { t with sd := sd, flights := l, pend := p, d := t.d.set n x } ∧ .d n ∉ p := by
  obtain ⟨sd, hsd⟩ := State.cancelDest_station? h (.d n)
  have hset := State.modStation_station?_self hsd fun u => congrArg Prod.fst (Station.apply_kind w (.setD n x) u)
  have hland := State.modStation_station?_self hset fun u => congrArg Prod.fst (Station.apply_kind w (.unpend (.d n)) u)
  exact ⟨_, _, _, hland, by simp⟩

/-- The same for a vector. -/
theorem State.land_vector (h : s.station? w.st = some t) (n : Fin 8) (x : VReg) : ∃ sd l p,
    (s.applyAll w [.setV n x, .unpend (.v n)]).station? w.st = some { t with sd := sd, flights := l, pend := p, v := t.v.set n x.held } ∧ .v n ∉ p := by
  obtain ⟨sd, hsd⟩ := State.cancelDest_station? h (.v n)
  have hset := State.modStation_station?_self hsd fun u => congrArg Prod.fst (Station.apply_kind w (.setV n x) u)
  have hland := State.modStation_station?_self hset fun u => congrArg Prod.fst (Station.apply_kind w (.unpend (.v n)) u)
  exact ⟨_, _, _, hland, by simp⟩

/-- A fault without a destination goes to the fault queue of the station's region (R165). -/
theorem State.land_fault (h : s.station? w.st = some t) (sl : Slack) (k : Token) : s.land w .none sl (.fault k) = s.pushFault t.voy t.reg k := by
  refine (s.apply_faultq w k).trans ?_
  rw [h]

end

/-! ### Pieces of a copy (R238) -/

/-- A copy that has done a piece changes nothing but the copies. -/
theorem State.copied_state (s : State) (k : Copy) (n : Nat) : ∃ l, s.copied k n = { s with copies := l } := by
  obtain ⟨l, h⟩ := (s.modCopy k.id fun c => { c with pos := c.pos + n, wait := none, held := 0 }).rankCopy_state k.id
  exact ⟨l, h⟩

/-- A piece that the engine writes itself. -/
theorem State.copyPut_written {s x : State} {k : Copy} {b : Int} {n v : Nat} {y : Unit} (hspace : k.dst.h.space ≠ .peer)
    (h : k.write s b n v = .ok y x) : s.copyPut k b n v = .ok (x.copied k n) := by
  rw [State.copyPut, if_neg hspace, h]

/-! ### What a tree engine has asked for (R383, R390) -/

theorem memoAt_cons_self (k : TreeKey) (x : Nat) (l : List (TreeKey × Nat)) : memoAt ((k, x) :: l) k = some x := by simp [memoAt]

/-- What is kept for the operation of a tree engine, by the key of the request, beside what else its station holds. -/
theorem State.treeReply_keeps {s : State} {i : StId} {t : Station} {d : Sd} {e : TreeJob} {key : TreeKey} (h : s.station? i = some t)
    (hsd : t.sd = some d) (heng : d.eng = some e) (hkey : key ≠ .put) (v : VReg) : ∃ w, (s.treeReply i e.time key (.ok v)).station? i = some w ∧
      ∃ sd l, w = { t with sd := sd, cache := l } ∧ ((sd.bind (·.eng)).bind fun e => memoAt e.memo key) = some v.data.toNat := by
  refine ⟨_, State.modStation_station?_self h fun u => ?id, ?station⟩
  case id =>
    dsimp only
    split
    · rfl
    · split
      · rfl
      · split
        · split
          · rfl
          · split <;> rfl
        · rfl
  case station =>
    simp only [hsd, Option.bind_some, heng, Option.map_some, ne_eq, not_true_eq_false, if_false]
    cases key with
    | put => exact absurd rfl hkey
    | lock n => exact ⟨_, _, rfl, memoAt_cons_self _ _ _⟩
    | take n => exact ⟨_, _, rfl, memoAt_cons_self _ _ _⟩
    | data c again =>
      cases again with
      | true => exact ⟨_, _, rfl, memoAt_cons_self _ _ _⟩
      | false =>
        dsimp only
        split
        · exact ⟨_, _, rfl, memoAt_cons_self _ _ _⟩
        · split <;> exact ⟨_, _, rfl, memoAt_cons_self _ _ _⟩

end Sys2Proof.Machine

namespace Sys2Proof.Proofs

open Sys2Proof Sys2Proof.Machine Sys2Proof.Claims

theorem repliesLand : StatementPart.RepliesLand := by
  refine ⟨fun s q r hq hst hway => ?_, fun s q r g hq hst hway hg => ?_⟩
  · exact congrArg Host.Outcome.next (State.replyArrives_far (s := on s (.req q.id)) hq hst hway)
  have hgives : Gives s .memoryReplyLands (.req q.id) ((on s (.req q.id)).replyArrives q.id) := rfl
  have hlands (h : g.st ≠ .halted ∨ ∃ c n wr, q.op = .part c n wr) :
      Gives s .memoryReplyLands (.req q.id) ((on s (.req q.id)).landReply q (r.aged q.slack)) := by
    rw [← State.replyArrives_lands (s := on s (.req q.id)) hq hst hway hg h]
    exact hgives
  have hgone := dropReq_req? (on s (.req q.id)) q.id
  refine ⟨?halted, ?dest, ?agen, ?written, ?read, ?tree⟩
  case halted =>
    intro hh hop
    rw [State.replyArrives_halted (s := on s (.req q.id)) hq hst hway hg hh hop] at hgives
    exact ⟨_, hgives, hgone, rfl, rfl⟩
  case dest =>
    intro hh hsrc hpart htree t ht
    have hdest := hlands (.inl hh)
    rw [State.landReply_dest _ hsrc hpart htree] at hdest
    let w := ((on s (.req q.id)).dropReq q.id).monitorBack q
    have hw : w.station? q.who.st = some { t with mons := if q.op.monitor then t.mons - 1 else t.mons } :=
      State.monitorBack_station? (s := (on s (.req q.id)).dropReq q.id) ht
    have hnone : w.req? q.id = none := (State.req?_congr (State.monitorBack_reqs _ q) _).trans hgone
    refine ⟨?scalar, ?vector, ?fault⟩
    case scalar =>
      rintro v n rfl hd
      rw [hd] at hdest
      obtain ⟨sd, l, p, hu, hp⟩ := State.land_scalar q.who hw n (v.data.setWidth 64)
      refine ⟨_, _, hdest, State.cancelDest_req?_none hnone _ _, ?_, hu, by simp, hp, rfl, rfl, rfl, fun m hm => ?_, rfl⟩
      · exact (State.applyAll_frame q.who _ w).mem.trans (State.monitorBack_mem _ q)
      · exact Vector.getElem_set_ne n.isLt m.isLt fun h => hm (Fin.ext h.symm)
    case vector =>
      rintro v n rfl hd
      rw [hd] at hdest
      obtain ⟨sd, l, p, hu, hp⟩ := State.land_vector q.who hw n v
      refine ⟨_, _, hdest, State.cancelDest_req?_none hnone _ _, ?_, hu, by simp, hp, rfl, rfl, rfl, fun m hm => ?_⟩
      · exact (State.applyAll_frame q.who _ w).mem.trans (State.monitorBack_mem _ q)
      · exact Vector.getElem_set_ne n.isLt m.isLt fun h => hm (Fin.ext h.symm)
    case fault =>
      rintro k rfl hd hm
      have hw : w = (on s (.req q.id)).dropReq q.id := if_neg (by simp [hm])
      rw [hd, show ((on s (.req q.id)).dropReq q.id).monitorBack q = _ from hw] at hdest
      exact ⟨_, (State.land_fault (s := (on s (.req q.id)).dropReq q.id) q.who ht q.slack _) ▸ hdest, hgone, rfl⟩
  case agen =>
    rintro side off v hh hsrc rfl
    have hagen := hlands (.inl hh)
    rw [State.landReply_agen _ hsrc] at hagen
    exact ⟨_, hagen, hgone, rfl, rfl⟩
  case written =>
    rintro c n k v hsrc hop rfl hk
    have hcopied := hlands (.inr ⟨c, n, true, hop⟩)
    rw [show (Reply.ok v).aged q.slack = .ok v from rfl, State.landReply_written (on s (.req q.id)) hsrc hop hk] at hcopied
    obtain ⟨l, hl⟩ := ((on s (.req q.id)).dropReq q.id).copied_state k n
    refine ⟨_, hcopied, ?_, ?_, State.copied_copy? (s := (on s (.req q.id)).dropReq q.id) hk n⟩
    · rw [hl]
      exact hgone
    · rw [hl]
      rfl
  case read =>
    rintro c n k a b m v w x hsrc hop rfl hk hp hspace hwrite hx
    have hcopied := hlands (.inr ⟨c, n, false, hop⟩)
    rw [show (Reply.ok v).aged q.slack = .ok v from rfl,
      State.landReply_read (on s (.req q.id)) hsrc hop hk hp (State.copyPut_written hspace hwrite)] at hcopied
    obtain ⟨l, hl⟩ := x.copied_state k n
    refine ⟨_, hcopied, State.copied_copy? hx n, ?_, ?_⟩ <;> rw [hl]
  case tree =>
    rintro j key n wr v t d e hh hsrc hop rfl hkey ht hsd heng rfl
    have htree := hlands (.inl hh)
    rw [State.landReply_tree _ hsrc hop] at htree
    obtain ⟨w, hw, sd, l, rfl, hmemo⟩ := State.treeReply_keeps (s := (on s (.req q.id)).dropReq q.id) ht hsd heng hkey v
    exact ⟨_, _, htree, hgone, rfl, hw, hmemo, rfl, rfl, rfl, rfl⟩

/-- Settles O49: what a port does with a request by the chain of its domain, and what a reply does by the operation that it answers. -/
theorem requestsTravel : Obligations.RequestsTravel := ⟨portsTakeAndRelease, repliesLand⟩

end Sys2Proof.Proofs
end

