-- ==== Sys2Proof/Proofs/Homes.lean ====
section
/-! SUPPORT. What a store at its home leaves (R244, R290), what requests of one part do at their home by their operation (R249, R269-R275), and the proof that
requests act at their home or wait there (R252, R253, R261, R272, R435). -/

namespace Sys2Proof.Machine

open Sys2Proof Sys2Proof.Claims

/-! ### A store at its home (R244, R290) -/

/-- A request that a change of all requests leaves as it is, when none changes its number. -/
theorem find?_map_fixed {f : Req → Req} (hf : ∀ r, (f r).id = r.id) {l : List Req} {id : Nat} {q : Req} (h : l.find? (fun r => r.id == id) = some q)
    (hq : f q = q) : (l.map f).find? (fun r => r.id == id) = some q := by
  have hp : (fun r => r.id == id) ∘ f = fun r : Req => r.id == id := funext fun r => congrArg (· == id) (hf r)
  rw [List.find?_map, hp, h, Option.map_some, hq]

section
variable (s : State) (pa n x : Nat)

theorem State.storeHome_mem : (s.storeHome pa n x).mem = Memory.write s.mem pa n x := by
  unfold State.storeHome
  split
  next h => rw [h]; rfl
  · rfl

/-- Only armed monitors see a store. -/
theorem State.wake_req? {q : Req} {id : Nat} (h : s.req? id = some q) (hst : q.stage ≠ .armed) : (s.wake pa n).req? id = some q := by
  refine find?_map_fixed (fun r => ?number) h ?fixed
  case number =>
    split
    · split
      · dsimp only
        split
        · split <;> rfl
        · rfl
      · rfl
    · rfl
  case fixed =>
    split
    · exact absurd ‹_› hst
    · rfl

theorem State.storeHome_req? {q : Req} {id : Nat} (h : s.req? id = some q) (hst : q.stage ≠ .armed) : (s.storeHome pa n x).req? id = some q := by
  unfold State.storeHome
  split
  · exact h
  · exact State.wake_req? (s.storeDev pa n x) pa n h hst

end

/-! ### What a request does, by its operation (R269-R275) -/

/-- What an operation on one part of a page without VERS does: it answers with what it reads; it writes its data; it leaves what an update operation makes of
the old value. `back`: it answers. -/
inductive HomeAct
  | read
  | write (back : Bool)
  | update (op : BitVec 6) (back : Bool)

def ReqOp.act : ReqOp → Option HomeAct
  | .load .. | .loadV _ | .agLoad _ | .part _ _ false | .tree _ (.data ..) _ false | .tree _ (.lock _) _ false => some .read
  | .store _ => some (.write false)
  | .part _ _ true | .tree _ .put _ true => some (.write true)
  | .atom op _ => some (.update op true)
  | .red op _ => some (.update op false)
  | .tree _ (.take _) _ _ => some (.update 13 true)
  | _ => none

end Sys2Proof.Machine

namespace Sys2Proof.Claims

open Sys2Proof Sys2Proof.Machine

section
variable {s : State} {q : Req} {pa n : Nat} (h : AtHome s q pa n)
include h

/-- Device memory holds no part back. -/
theorem AtHome.partHeld (wr : Bool) : (q.parts.any fun (_, pa, _) => s.partHeld q pa wr) = false := by
  obtain ⟨-, -, -, -, hspace, hparts, hcls, -, -⟩ := h
  simp [hparts, State.partHeld, hspace, hcls]

theorem AtHome.spoilt : s.spoilt pa n = none := by
  obtain ⟨-, -, -, -, -, -, -, hcorrupt, -⟩ := h
  simpa [State.corrupt] using hcorrupt

theorem AtHome.badPart : s.badPart q = none := by
  have hspoilt := h.spoilt
  obtain ⟨-, -, -, -, hspace, hparts, hcls, -, -⟩ := h
  simp [State.badPart, hspace, hparts, hcls, hspoilt]

theorem AtHome.readAll : s.readAll q = .ok (Memory.read s.mem pa n) := by
  have hspoilt := h.spoilt
  obtain ⟨-, -, -, -, hspace, hparts, hcls, -, hvers⟩ := h
  have hpart : s.readPart q q.va pa n = .ok (Memory.read s.mem pa n) := by
    simp [State.readPart, hspace, hcls, hspoilt, hvers, State.loadDev]
  simp [State.readAll, hparts, hpart, bind, Except.bind, pure, Except.pure]

theorem AtHome.writeAll (x : Nat) : s.writeAll q x = .ok (s.storeHome pa n (x % 2 ^ (8 * n))) := by
  have hspoilt := h.spoilt
  obtain ⟨-, -, -, -, hspace, hparts, hcls, -, -⟩ := h
  have hpart (y : Nat) : s.writePart q q.va pa n y = .ok (s.storeHome pa n y) := by simp [State.writePart, hspace, hcls, hspoilt]
  simp [State.writeAll, hparts, hpart, bind, Except.bind]

theorem AtHome.performAt_read (hact : q.op.act = some .read) : s.performAt q = some (s.respond q (.ok (q.view (Memory.read s.mem pa n)))) := by
  have hheld := h.partHeld false
  have hread := h.readAll
  obtain ⟨-, -, -, -, hspace, -, -, -, hvers⟩ := h
  unfold ReqOp.act at hact
  split at hact <;> cases hact
  all_goals
    rename_i hop
    simp [State.performAt, hspace, hop, hvers, hheld, hread]

theorem AtHome.performAt_write {back : Bool} (hact : q.op.act = some (.write back)) : s.performAt q =
    some ((s.storeHome pa n (q.data.toNat % 2 ^ (8 * n))).respond q (if back then .ok (q.view 0) else .silent)) := by
  have hheld := h.partHeld true
  have hbad := h.badPart
  have hwrite := h.writeAll q.data.toNat
  obtain ⟨-, -, -, -, hspace, -, -, -, -⟩ := h
  unfold ReqOp.act at hact
  split at hact <;> cases hact
  all_goals
    rename_i hop
    simp [State.performAt, hspace, hop, hheld, hbad, hwrite]

theorem AtHome.performAt_update {op : BitVec 6} {back : Bool} (hact : q.op.act = some (.update op back)) : s.performAt q =
    some ((s.storeHome pa n (applyOp op.toNat (Memory.read s.mem pa n) q.data.toNat q.y.toNat % 2 ^ (8 * n))).respond q
      (if back then .ok (scalarReg (BitVec.ofNat 64 (Memory.read s.mem pa n))) else .silent)) := by
  have hheld := h.partHeld false
  have hread := h.readAll
  have hwrite := h.writeAll
  obtain ⟨-, -, -, -, hspace, -, -, -, -⟩ := h
  unfold ReqOp.act at hact
  split at hact <;> cases hact
  all_goals
    rename_i hop
    simp [State.performAt, hspace, hop, hheld, hread, hwrite]

end

end Sys2Proof.Claims

namespace Sys2Proof.Machine

open Sys2Proof Sys2Proof.Claims

/-! ### Performing (R236, R239) -/

/-- What a request has done stays, whichever lines its handle keeps in L2 (R239). -/
theorem State.perform_done {s w : State} {q : Req} (h : s.performAt q = some w) : ∃ u, s.perform q = some u ∧ CountFrame w u := by
  rw [State.perform, h, Option.map_some]
  refine ⟨_, rfl, .ite ?_ (.refl w)⟩
  exact foldl_rel CountFrame.refl CountFrame.trans (fun s (_, pa, n) => s.unkept_count q.h pa n) _ w

/-- An uncorrectable error on a link (R435). -/
theorem execHomePerform_corrupt {s : State} {q : Req} (hev : s.ev = .tok (.req q.id)) (hq : s.req? q.id = some q) :
    execHomePerform s = .next (s.faultReq q ⟨0x0A, 3, 0⟩) := by
  simp only [execHomePerform, hev, hq]

section
variable {s : State} {q : Req} (hev : s.ev = .req q.id) (hq : s.req? q.id = some q)
include hev hq

theorem execHomePerform_home (hst : q.stage = .home 0) (hway : q.way = []) (hstale : s.stale q = false) :
    execHomePerform s = .next ((s.perform q).getD s) := by
  simp [execHomePerform, hev, hq, hst, hway, hstale]

/-- A request under an old slice map, or one that has links to cross, does not perform yet (R22, R261). -/
theorem execHomePerform_stays (hst : q.stage = .home 0) (h : s.stale q = true ∨ q.way ≠ []) : execHomePerform s = .next s := by
  simp only [execHomePerform, hev, hq, hst, if_pos h]

theorem execHomePerform_copy {k : Nat} (hst : q.stage = .settle) (hop : q.op = .copy k) :
    execHomePerform s = .next ((s.modCopy k fun c => { c with run := true, slack := q.slack }).rankCopy k) := by
  simp only [execHomePerform, hev, hq, hst, hop]

theorem execHomePerform_settle (hst : q.stage = .settle) (hop : q.op = .settle) : execHomePerform s = .next (s.settle q) := by
  simp only [execHomePerform, hev, hq, hst, hop]

theorem execHistoryOverflow_room {n : Nat} (hst : q.stage = .room n) :
    execHistoryOverflow s = .next (if 65536 ≤ n then s.faultReq q ⟨0x05, q.stamp.toNat % 2 ^ 32, q.va⟩ else s) := by
  simp only [execHistoryOverflow, hev, hq, hst]

theorem execMonitorComplete_hit {w : Word} (hst : q.stage = .hit w) : execMonitorComplete s = .next (s.respond q (.ok (scalarReg w))) := by
  simp only [execMonitorComplete, hev, hq, hst]

section
variable {w : Nat} {sx st : Bool} (hst : q.stage = .settle) (hop : q.op = .ldt w sx st)
include hst hop

theorem execSettledLoadRelease_answers {x : Nat} (hw : q.stamp.toNat < s.watermark q.asid) (hx : s.readAll q = .ok x) :
    execSettledLoadRelease s = .next (s.respond q (.ok (q.view x))) := by
  simp only [execSettledLoadRelease, hev, hq, hst, hop, if_pos hw, hx]

theorem execSettledLoadRelease_waits (hw : s.watermark q.asid ≤ q.stamp.toNat) : execSettledLoadRelease s = .next s := by
  simp only [execSettledLoadRelease, hev, hq, hst, hop, if_neg (Nat.not_lt.2 hw)]

end

/-- A request that goes back over its links and comes again for the new map (R261). -/
def Req.again (e : Nat) (way : List (Nat × Bool)) (q : Req) : Req := { q with epoch := e, way := way, stage := .home (2 * Config.homeLatency) }

theorem execRehashBounce_bounces {d : Die} (hst : q.stage = .home 0) (hway : q.way = []) (hstale : s.stale q = true) (hd : s.die? q.homeDie = some d) :
    execRehashBounce s = .next (((s.flowWay q true).2.flowWay q false).2.modReq q.id
      (Req.again d.epoch ((s.flowWay q true).1 ++ ((s.flowWay q true).2.flowWay q false).1))) := by
  simp only [execRehashBounce, hev, hq, hst, hway, hstale, hd]
  rfl

theorem execRehashBounce_stays (hway : q.way ≠ []) : execRehashBounce s = .next s := by
  simp [execRehashBounce, hev, hq, hway]

end

theorem State.stale_of_epoch {s : State} {q : Req} {d : Die} (hs : q.h.space = .dev) (hd : s.die? q.homeDie = some d) (he : d.epoch ≠ q.epoch) :
    s.stale q = true := by
  simp [State.stale, hs, hd, he]

/-! ### Updates of versioned lines (R250, R253) -/

section
variable {s : State} {q : Req} {op : BitVec 6} {n pa : Nat} (hop : q.op = .upd op n) (hspace : q.h.space = .dev) (hparts : q.parts = [(q.va, pa, n)])
  (hbad : s.badPart q = none)
include hop hspace hparts hbad

theorem State.performAt_update_held (h : s.insertEntry q.asid (pa / 128) (q.hist op n pa) = none) : s.performAt q = some (s.modReq q.id Req.holdRoom) := by
  simp [State.performAt, hop, hspace, hparts, hbad, h]

theorem State.performAt_update_enters {w : State} (h : s.insertEntry q.asid (pa / 128) (q.hist op n pa) = some w) :
    s.performAt q = some (w.respond q .silent) := by
  simp [State.performAt, hop, hspace, hparts, hbad, h]

end

end Sys2Proof.Machine

namespace Sys2Proof.Proofs

open Sys2Proof Sys2Proof.Machine Sys2Proof.Claims

/-- A request at its home that has done its work there. -/
theorem homePerform_gives {s w : State} {q : Req} (hq : Stands s q) (hst : q.stage = .home 0) (hway : q.way = []) (hstale : s.stale q = false)
    (h : (on s (.req q.id)).performAt q = some w) : ∃ u, Gives s .homePerform (.req q.id) u ∧ CountFrame w u := by
  obtain ⟨u, hu, hframe⟩ := State.perform_done h
  have hgives : Gives s .homePerform (.req q.id) (((on s (.req q.id)).perform q).getD (on s (.req q.id))) :=
    execHomePerform_home (s := on s (.req q.id)) rfl hq hst hway hstale
  rw [hu] at hgives
  exact ⟨u, hgives, hframe⟩

section
variable {s : State} {q : Req} {pa n : Nat} (h : AtHome s q pa n)
include h

/-- A request of one part that reads, and owes a reply. -/
theorem reads_at_home (hact : q.op.act = some .read) (howes : ∀ r, q.owes r = true) :
    ∃ u, Gives s .homePerform (.req q.id) u ∧ u.mem = s.mem ∧ Answers u q (.ok (q.view (Memory.read s.mem pa n))) := by
  have hperform := AtHome.performAt_read (s := on s (.req q.id)) h hact
  obtain ⟨hq, hst, hway, hstale, -⟩ := h
  obtain ⟨u, hgives, hframe⟩ := homePerform_gives hq hst hway hstale hperform
  exact ⟨u, hgives, hframe.mem.trans (State.respond_mem _ q _), (respond_answers (s := on s (.req q.id)) hq (howes _)).congr hframe.reqs⟩

/-- A request of one part that leaves a value there: it answers where it owes a reply, and else is over. -/
theorem writes_at_home (hmem : MemoryCanonical s) {x : Nat} {r : Reply}
    (hperform : (on s (.req q.id)).performAt q = some (((on s (.req q.id)).storeHome pa n (x % 2 ^ (8 * n))).respond q r)) :
    ∃ u, Gives s .homePerform (.req q.id) u ∧ Memory.read u.mem pa n = x % 2 ^ (8 * n) ∧
      (∀ a : Nat, a < pa ∨ pa + n ≤ a → Memory.get u.mem a = Memory.get s.mem a) ∧
      (q.owes r = true → Answers u q r) ∧ (q.owes r = false → u.req? q.id = none) := by
  obtain ⟨hq, hst, hway, hstale, -⟩ := h
  obtain ⟨u, hgives, hframe⟩ := homePerform_gives hq hst hway hstale hperform
  have hu : u.mem = Memory.write s.mem pa n (x % 2 ^ (8 * n)) := hframe.mem.trans ((State.respond_mem _ q r).trans (State.storeHome_mem _ pa n _))
  have hstands := State.storeHome_req? (on s (.req q.id)) pa n (x % 2 ^ (8 * n)) hq (by simp [hst])
  refine ⟨u, hgives, ?_, fun a ha => ?_, fun ho => (respond_answers hstands ho).congr hframe.reqs,
    fun ho => (State.req?_congr hframe.reqs _).trans (respond_ends ho)⟩
  · rw [hu, Memory.read_write hmem.1, show (256 : Nat) = 2 ^ 8 from rfl, ← Nat.pow_mul, Nat.mod_mod]
  · rw [hu, Memory.get_write hmem.1, if_neg (by omega)]

end

theorem requestsPerform : StatementPart.RequestsPerform := by
  intro s q pa hmem
  refine ⟨?load, ?vector, ?store, ?update, ?reads, ?writes, ?take⟩
  case load =>
    intro w sx hop hd h
    have hview : ∀ x, q.view x = scalarReg (extend sx w x) := fun x => by simp only [Req.view, hop]
    rw [← hview]
    exact reads_at_home h (by rw [hop]; rfl) (Req.owes_of_dest hd)
  case vector =>
    intro n hop hd h
    have hview : ∀ x, q.view x = VReg.plain q.h.fmt x := fun x => by simp only [Req.view, hop]
    rw [← hview]
    exact reads_at_home h (by rw [hop]; rfl) (Req.owes_of_dest hd)
  case store =>
    intro n hop hd hsrc h hn
    obtain ⟨u, hgives, hread, hget, -, hends⟩ := writes_at_home h hmem (AtHome.performAt_write (s := on s (.req q.id)) h (back := false) (by rw [hop]; rfl))
    exact ⟨u, hgives, hends (Req.owes_silent (Req.not_always hsrc (by simp [hop]) (by simp [hop])) hd), hread, hget⟩
  case update =>
    rintro op n (hop | hop) hatom hred hsrc h hn
    · obtain ⟨u, hgives, hread, hget, hanswers, -⟩ :=
        writes_at_home h hmem (AtHome.performAt_update (s := on s (.req q.id)) h (op := op) (back := true) (by rw [hop]; rfl))
      exact ⟨u, hgives, hread, hget, fun _ => hanswers (Req.owes_of_dest (hatom hop) _), by simp [hop]⟩
    · obtain ⟨u, hgives, hread, hget, -, hends⟩ :=
        writes_at_home h hmem (AtHome.performAt_update (s := on s (.req q.id)) h (op := op) (back := false) (by rw [hop]; rfl))
      have howes := Req.owes_silent (Req.not_always hsrc (by simp [hop]) (by simp [hop])) (hred hop)
      exact ⟨u, hgives, hread, hget, by simp [hop], fun _ => hends howes⟩
  case reads =>
    intro n hop hsrc h
    rcases hop with ⟨wide, hop⟩ | ⟨c, m, hop⟩ | ⟨j, c, f, m, hop⟩ | ⟨j, i, m, hop⟩
    · obtain ⟨side, o, hagen⟩ := hsrc.resolve_right fun h => h wide hop
      exact reads_at_home h (by rw [hop]; rfl) (Req.owes_of_always (Req.always_agen hagen))
    · exact reads_at_home h (by rw [hop]; rfl) (Req.owes_of_always (Req.always_part hop))
    · exact reads_at_home h (by rw [hop]; rfl) (Req.owes_of_always (Req.always_tree hop))
    · exact reads_at_home h (by rw [hop]; rfl) (Req.owes_of_always (Req.always_tree hop))
  case writes =>
    intro n hop h hn
    obtain ⟨hact, halways⟩ : q.op.act = some (.write true) ∧ q.always = true := by
      rcases hop with ⟨c, m, hop⟩ | ⟨j, m, hop⟩
      · exact ⟨by rw [hop]; rfl, Req.always_part hop⟩
      · exact ⟨by rw [hop]; rfl, Req.always_tree hop⟩
    obtain ⟨u, hgives, hread, hget, hanswers, -⟩ := writes_at_home h hmem (AtHome.performAt_write (s := on s (.req q.id)) h hact)
    exact ⟨u, hgives, hanswers (Req.owes_of_always halways _), hread, hget⟩
  case take =>
    intro j i m n hop h hn
    obtain ⟨u, hgives, hread, hget, hanswers, -⟩ :=
      writes_at_home h hmem (AtHome.performAt_update (s := on s (.req q.id)) h (op := 13) (back := true) (by rw [hop]; rfl))
    exact ⟨u, hgives, hanswers (Req.owes_of_always (Req.always_tree hop) _), hread, hget⟩

theorem requestsWaitAtTheirHome : StatementPart.RequestsWaitAtTheirHome := by
  refine ⟨?update, ?room, ?settled, ?settle, ?copy, ?hit, ?moved, ?far, ?bad, ?worn, ?link⟩
  case update =>
    intro s q op n pa hop hq hst hway hstale hspace hparts hbad hd hsrc
    refine ⟨fun h => ?_, fun w h => ?_⟩
    · obtain ⟨u, hgives, hframe⟩ := homePerform_gives hq hst hway hstale (State.performAt_update_held (s := on s (.req q.id)) hop hspace hparts hbad h)
      have hroom : q.holdRoom = { q with stage := .room 0 } := by simp [Req.holdRoom, hst]
      have hreq := State.modReq_req?_self (s := on s (.req q.id)) hq (f := Req.holdRoom) fun _ => rfl
      exact ⟨u, hgives, hroom ▸ (State.req?_congr hframe.reqs _).trans hreq, hframe.mem, hframe.cells⟩
    · obtain ⟨u, hgives, hframe⟩ := homePerform_gives hq hst hway hstale (State.performAt_update_enters (s := on s (.req q.id)) hop hspace hparts hbad h)
      have howes := Req.owes_silent (Req.not_always hsrc (by simp [hop]) (by simp [hop])) hd
      exact ⟨u, hgives, (State.req?_congr hframe.reqs _).trans (respond_ends howes), hframe.mem.trans (w.respond_mem q _),
        hframe.cells.trans (w.respond_cells q _)⟩
  case room =>
    intro s q n t hq hst ht
    have hgives := execHistoryOverflow_room (s := on s (.req q.id)) rfl hq hst
    refine ⟨fun hn => ?_, fun hn => ?_⟩
    · rw [if_pos hn] at hgives
      exact ⟨_, hgives, faultReq_mem (s := on s (.req q.id)) ht _, faultReq_answers (s := on s (.req q.id)) hq ht _⟩
    · rw [if_neg (by omega)] at hgives
      exact hgives
  case settled =>
    intro s q w sx st x hq hst hop hd
    have hview : q.view x = scalarReg (extend sx w x) := by simp only [Req.view, hop]
    refine ⟨fun hw hx => ?_, fun hw => execSettledLoadRelease_waits (s := on s (.req q.id)) rfl hq hst hop hw⟩
    rw [← hview]
    exact ⟨_, execSettledLoadRelease_answers (s := on s (.req q.id)) rfl hq hst hop hw hx, State.respond_mem _ q _,
      respond_answers (s := on s (.req q.id)) hq (Req.owes_of_dest hd _)⟩
  case settle =>
    intro s q hq hst hop
    exact execHomePerform_settle (s := on s (.req q.id)) rfl hq hst hop
  case copy =>
    intro s q k c hq hst hop hk
    let w := (on s (.req q.id)).modCopy k fun c => { c with run := true, slack := q.slack }
    obtain ⟨l, hl⟩ := w.rankCopy_state k
    refine ⟨_, execHomePerform_copy (s := on s (.req q.id)) rfl hq hst hop, ?_, ?_⟩
    · rw [hl]
      exact hq
    · exact (w.rankCopy_copy?_self k).trans (State.modCopy_copy?_self (s := on s (.req q.id)) hk fun _ => rfl)
  case hit =>
    intro s q w hq hst hd
    exact ⟨_, execMonitorComplete_hit (s := on s (.req q.id)) rfl hq hst, State.respond_mem _ q _,
      respond_answers (s := on s (.req q.id)) hq (Req.owes_of_dest hd _)⟩
  case moved =>
    intro s q d hq hst hspace hd he
    have hstale := State.stale_of_epoch (s := on s (.req q.id)) hspace hd he
    refine ⟨execHomePerform_stays (s := on s (.req q.id)) rfl hq hst (.inl hstale), fun hway => ?_⟩
    have hgives : Gives s .rehashBounce (.req q.id) _ := execRehashBounce_bounces (s := on s (.req q.id)) rfl hq hst hway hstale hd
    rw [State.flowWay_state_on, State.flowWay_links_on, State.flowWay_links_on] at hgives
    let w := on (s.flowWay q true).2 (.req q.id)
    have hon : CountFrame (s.flowWay q true).2 w := ⟨rfl, rfl, rfl, rfl, rfl, rfl⟩
    have hcount := ((s.flowWay_count q true).trans hon).trans (w.flowWay_count q false)
    exact ⟨_, _, hgives, hcount.mem, State.modReq_req?_self ((State.req?_congr hcount.reqs _).trans hq) fun _ => rfl⟩
  case far =>
    intro s q hway hq hst
    exact ⟨execHomePerform_stays (s := on s (.req q.id)) rfl hq hst (.inr hway), execRehashBounce_stays (s := on s (.req q.id)) rfl hq hway⟩
  case bad =>
    intro s l k a ha
    obtain ⟨rfl, rfl⟩ | ⟨rfl, rfl⟩ : (a = .row l ∧ k = 0) ∨ (a = .line l ∧ k = 1) := by simpa using ha
    · exact ⟨{ on s (.row l) with bad := (l, 0) :: s.bad }, rfl, rfl, by simp, fun b hb => by simp [hb]⟩
    · exact ⟨{ on s (.line l) with bad := (l, 1) :: s.bad }, rfl, rfl, by simp, fun b hb => by simp [hb]⟩
  case worn =>
    intro s i sh a t ht
    exact ⟨_, _, rfl, rfl, State.modStation_station?_self (s := on s (.cell i sh a)) ht fun _ => rfl, rfl⟩
  case link =>
    intro s q t hq ht
    exact ⟨_, execHomePerform_corrupt (s := on s (.tok (.req q.id))) rfl hq, faultReq_mem (s := on s (.tok (.req q.id))) ht _,
      faultReq_answers (s := on s (.tok (.req q.id))) hq ht _⟩

/-- Settles O50: a request performs by the act of its operation on its one part, or waits by what its stage says. -/
theorem requestsActAtTheirHome : Obligations.RequestsActAtTheirHome := ⟨requestsPerform, requestsWaitAtTheirHome⟩

end Sys2Proof.Proofs
end

