-- ==== Sys2Proof/Proofs/Barriers.lean ====
section
/-! SUPPORT. What a mark that reaches the slices leaves (R252), what one message or none does at a barrier entry (R287-R289), what a message to a peer's walker
adds to its link (R288, R464), and the proof that marks and barriers advance. -/

namespace Sys2Proof.Machine

open Sys2Proof Sys2Proof.Claims

/-! ### The watermark of a space (R252) -/

section
variable (s : State) (asid : BitVec 16)

theorem State.dropReaders_state : ∃ l, s.dropReaders asid = { s with cells := l } :=
  foldl_rel (R := fun (t u : State) => ∃ l, u = { t with cells := l }) (fun t => ⟨t.cells, rfl⟩)
    (by rintro t _ _ ⟨l, rfl⟩ ⟨k, rfl⟩; exact ⟨k, rfl⟩) (fun _ _ => ⟨_, rfl⟩) _ s

/-- The least mark of a space that its slices know. -/
def State.leastKnown : Nat := ((s.marks.filter fun m => m.asid == asid).map (·.known)).foldl Nat.min markAll

/-- A watermark, raised to a mark where it is the one of a space. -/
def raised (asid : BitVec 16) (low : Nat) (w : BitVec 16 × Nat) : BitVec 16 × Nat := if w.1 = asid then (asid, Nat.max w.2 low) else w

theorem raised_fst (low : Nat) (w : BitVec 16 × Nat) : (raised asid low w).1 = w.1 := by
  unfold raised
  split
  · exact Eq.symm ‹_›
  · rfl

theorem State.raiseWatermark_state : ∃ l, s.raiseWatermark asid =
    { s with watermarks := s.watermarks.map (raised asid (s.leastKnown asid)), cells := l } :=
  State.dropReaders_state { s with watermarks := s.watermarks.map (raised asid (s.leastKnown asid)) } asid

theorem find?_raised {l : List (BitVec 16 × Nat)} {w : Nat} (low : Nat) (h : l.find? (fun e => e.1 == asid) = some (asid, w)) :
    (l.map (raised asid low)).find? (fun e => e.1 == asid) = some (asid, Nat.max w low) := by
  have hp : (fun e : BitVec 16 × Nat => e.1 == asid) ∘ raised asid low = fun e => e.1 == asid := by
    funext e
    simp only [Function.comp_apply, raised_fst]
  rw [List.find?_map, hp, h]
  simp [raised]

theorem State.watermark_of_find? {w : Nat} (h : s.watermarks.find? (fun e => e.1 == asid) = some (asid, w)) : s.watermark asid = w := by
  simp only [State.watermark, h]

end

/-! ### A mark reaches the slices (R252) -/

/-- The slices know the mark of one participant. -/
def Mark.reach (asid : BitVec 16) (p : Participant) (m : Mark) : Mark := if m.asid = asid ∧ m.who = p then { m with known := m.mark, sent := none } else m

section
variable {asid : BitVec 16} {p : Participant}

theorem Mark.reach_asid (m : Mark) : (m.reach asid p).asid = m.asid := by unfold Mark.reach; split <;> rfl
theorem Mark.reach_who (m : Mark) : (m.reach asid p).who = m.who := by unfold Mark.reach; split <;> rfl

theorem Mark.reach_self {m : Mark} (ha : m.asid = asid) (hw : m.who = p) : m.reach asid p = { m with known := m.mark, sent := none } := if_pos ⟨ha, hw⟩

theorem Mark.reach_known {m : Mark} (ha : m.asid = asid) : (m.reach asid p).known = if m.who = p then m.mark else m.known := by
  by_cases hw : m.who = p
  · rw [Mark.reach_self ha hw, if_pos hw]
  · rw [if_neg hw, Mark.reach, if_neg (hw ·.2)]

/-- The state once the slices of a space know the mark of one participant. -/
def State.reachMark (s : State) (asid : BitVec 16) (p : Participant) : State := { s with marks := s.marks.map (Mark.reach asid p) }

/-- The least mark of the space once that of one participant has reached its slices. -/
theorem leastKnown_reachMark (s : State) : (s.reachMark asid p).leastKnown asid =
    ((s.marks.filter fun m => m.asid == asid).map fun m => if m.who = p then m.mark else m.known).foldl Nat.min (2 ^ 52) := by
  have hfilter : (fun m : Mark => m.asid == asid) ∘ Mark.reach asid p = fun m => m.asid == asid := by
    funext m
    simp only [Function.comp_apply, Mark.reach_asid]
  have hmap : ((s.marks.filter fun m => m.asid == asid).map fun m => (m.reach asid p).known) =
      (s.marks.filter fun m => m.asid == asid).map fun m => if m.who = p then m.mark else m.known :=
    List.map_congr_left fun m hm => Mark.reach_known (by simpa using (List.mem_filter.1 hm).2)
  rw [← hmap, State.leastKnown, State.reachMark, List.filter_map, hfilter, List.map_map]
  rfl

theorem execMarkPropagate_state {s : State} (hev : s.ev = .mark asid p) : ∃ l, execMarkPropagate s =
    .next { s with
      cells := l
      watermarks := s.watermarks.map (raised asid ((s.reachMark asid p).leastKnown asid))
      marks := (s.marks.map (Mark.reach asid p)).filter fun m => !(m.asid == asid && m.who == p && m.known == markAll) } := by
  obtain ⟨l, hl⟩ := (s.reachMark asid p).raiseWatermark_state asid
  refine ⟨l, ?_⟩
  unfold execMarkPropagate
  split
  · next hmark =>
    cases hev.symm.trans hmark
    exact congrArg (fun t : State => Host.Outcome.next
      { t with marks := t.marks.filter fun m => !(m.asid == asid && m.who == p && m.known == markAll) }) hl
  · next hother => exact (hother asid p hev).elim

end

/-! ### Barrier entries (R287) -/

section
variable (s : State) (k : BarKey)

theorem State.barEntry_key : (s.barEntry k).key = k := by
  unfold State.barEntry
  cases h : s.bars.find? fun b => b.key == k with
  | none => rfl
  | some b => simpa using List.find?_some h

theorem State.setBar_barEntry_self {b : BarEntry} (h : b.key = k) : (s.setBar b).barEntry k = b := by simp [State.barEntry, State.setBar, h]

theorem State.setBar_barEntry_ne {b : BarEntry} {j : BarKey} (h : j ≠ b.key) : (s.setBar b).barEntry j = s.barEntry j := by
  have hrest : (s.bars.filter fun c => c.key ≠ b.key).find? (fun c => c.key == j) = s.bars.find? fun c => c.key == j := by
    rw [List.find?_filter]
    congr 1
    funext c
    by_cases hc : c.key = j <;> simp [hc, h]
  have hfirst : (b.key == j) = false := beq_eq_false_iff_ne.2 (Ne.symm h)
  rw [State.barEntry, State.setBar, List.find?_cons, hfirst]
  exact congrArg (Option.getD · _) hrest

theorem State.podWalker_kept (h : (s.barEntry k).spilled = false) : s.podWalker k = none := by simp [State.podWalker, h]

theorem State.loadBar_kept {b : BarEntry} (h : b.spilled = false) : s.loadBar b = .ok (s, b) := by simp [State.loadBar, h]

theorem State.storeBar_kept {b : BarEntry} (h : b.spilled = false) : s.storeBar b = .ok (s, b) := by simp [State.storeBar, h]

end

/-! ### What reaches an entry (R289) -/

/-- The entry after an arrival that it counts. -/
def BarEntry.count (b : BarEntry) (n : BitVec 32) : BarEntry := { b with exp := if b.exp = 0 then n else b.exp, arr := b.arr + 1 }

/-- The entry after the end of a phase. -/
def BarEntry.nextPhase (b : BarEntry) : BarEntry := { b with ph := b.ph + 1, arr := 0, swaps := [] }

section
variable (s : State) (b : BarEntry)

theorem State.completePhase_quiet (hs : b.swaps = []) : s.completePhase b = (s, b.nextPhase) := by
  rw [State.completePhase, hs]
  rfl

theorem State.endPhase_completes {low : Bool} (h : low = true ∨ (b.exp ≠ 0 ∧ b.exp.toNat ≤ b.arr.toNat)) (hs : b.swaps = []) :
    s.endPhase b low = (s, b.nextPhase) := by
  have hend : (low || (b.exp != 0 && decide (b.exp.toNat ≤ b.arr.toNat))) = true := by
    obtain rfl | ⟨h0, hle⟩ := h
    · rfl
    · rw [bne_iff_ne.2 h0, decide_eq_true hle, Bool.true_and, Bool.or_true]
  rw [State.endPhase, if_pos hend, s.completePhase_quiet b hs]

theorem State.endPhase_goes_on (h : b.exp = 0 ∨ b.arr.toNat < b.exp.toNat) : s.endPhase b false = (s, b) := by
  have hstay : (false || (b.exp != 0 && decide (b.exp.toNat ≤ b.arr.toNat))) = false := by
    obtain h0 | hlt := h
    · simp [h0]
    · simp [Nat.not_le.2 hlt]
  rw [State.endPhase, hstay]
  rfl

theorem State.barCycle_nil : s.barCycle b [] = s.endPhase b false := rfl

/-- One arrival that starts a phase or meets one: it is counted, and ends the phase if it is the last. -/
theorem State.barCycle_arrive {m : BarMsg} {n : Nat} (hop : m.op = .arrive n) (h : b.exp ≠ 0 ∨ BitVec.ofNat 32 n ≠ 0) :
    s.barCycle b [m] = (s.settleArr m (some b.ph)).endPhase (b.count (BitVec.ofNat 32 n)) false := by
  have hcounted : ¬(!true || (b.exp == 0 && BitVec.ofNat 32 n == 0)) = true := by
    rw [Bool.not_true, Bool.false_or, Bool.and_eq_true, beq_iff_eq, beq_iff_eq]
    exact fun ⟨h0, hn⟩ => h.elim (· h0) (· hn)
  have harrive : s.arrive b m n none = (s.settleArr m (some b.ph), b.count (BitVec.ofNat 32 n)) := if_neg hcounted
  have hdrops : [m].filter (fun m => m.op == .drop) = [] := by simp [hop]
  simp only [State.barCycle, hdrops, List.foldl_cons, List.foldl_nil, hop, harrive]

theorem State.barCycle_drop {m : BarMsg} (hop : m.op = .drop) : s.barCycle b [m] = s.endPhase b.drop.1 b.drop.2 := by
  have hdrops : [m].filter (fun m => m.op == .drop) = [m] := by simp [hop]
  simp only [State.barCycle, hdrops, List.foldl_cons, List.foldl_nil, hop, Bool.false_or]

theorem BarEntry.drop_zero (h : b.exp = 0) : b.drop = (b, false) := if_pos h

theorem BarEntry.drop_last (h : b.exp = 1) : b.drop = ({ b with exp := 0 }, true) := by simp [BarEntry.drop, h]

theorem BarEntry.drop_more (h : 1 < b.exp.toNat) : b.drop = ({ b with exp := b.exp - 1 }, false) := by
  have h0 : b.exp ≠ 0 := by bv_omega
  have h1 : b.exp ≠ 1 := by bv_omega
  rw [BarEntry.drop, if_neg h0, beq_eq_false_iff_ne.2 h1]

theorem BarEntry.drop_entry : ∃ e, b.drop.1 = { b with exp := e } := by
  unfold BarEntry.drop
  split
  · exact ⟨b.exp, rfl⟩
  · exact ⟨b.exp - 1, rfl⟩

theorem State.endPhase_quiet (low : Bool) (hs : b.swaps = []) : s.endPhase b low = (s, b) ∨ s.endPhase b low = (s, b.nextPhase) := by
  unfold State.endPhase
  split
  · exact .inr (s.completePhase_quiet b hs)
  · exact .inl rfl

/-- A drop where no handle waits to swap changes the entry only. -/
theorem State.barCycle_drop_entry {m : BarMsg} (hop : m.op = .drop) (hs : b.swaps = []) :
    ∃ b', s.barCycle b [m] = (s, b') ∧ b'.key = b.key ∧ b'.spilled = b.spilled := by
  obtain ⟨e, he⟩ := b.drop_entry
  rw [s.barCycle_drop b hop, he]
  obtain h | h := s.endPhase_quiet { b with exp := e } b.drop.2 hs
  · exact ⟨_, h, rfl, rfl⟩
  · exact ⟨_, h, rfl, rfl⟩

theorem State.barCycle_drop_zero {m : BarMsg} (hop : m.op = .drop) (h : b.exp = 0) : s.barCycle b [m] = (s, b) := by
  rw [s.barCycle_drop b hop, b.drop_zero h, s.endPhase_goes_on b (.inl h)]

theorem State.barCycle_drop_last {m : BarMsg} (hop : m.op = .drop) (h : b.exp = 1) (hs : b.swaps = []) :
    s.barCycle b [m] = (s, { b with exp := 0 }.nextPhase) := by
  rw [s.barCycle_drop b hop, b.drop_last h]
  exact s.endPhase_completes _ (.inl rfl) hs

theorem State.barCycle_drop_more {m : BarMsg} (hop : m.op = .drop) (h : 1 < b.exp.toNat) (hlt : b.arr.toNat < b.exp.toNat - 1) :
    s.barCycle b [m] = (s, { b with exp := b.exp - 1 }) := by
  have hless : b.arr.toNat < (b.exp - 1).toNat := by bv_omega
  rw [s.barCycle_drop b hop, b.drop_more h]
  exact s.endPhase_goes_on _ (.inr hless)

end

/-! ### BARRIER_ENTRY_UPDATE at an entry that the Helm holds (R289) -/

/-- A message that has reached the entry of a key. -/
def BarMsg.here (k : BarKey) (m : BarMsg) : Bool := m.key == k && m.left == 0 && m.away.isNone

/-- What BARRIER_ENTRY_UPDATE does at an entry that no peer walks: the entry is loaded, takes the messages of the cycle, and is stored. -/
def State.updateBar (s : State) (k : BarKey) : Except Nat (State × BarEntry) := do
  let (s, b) ← s.loadBar (s.barEntry k)
  let (s, b) := s.barCycle b (s.barMsgs.filter (BarMsg.here k))
  (s.setBar b).storeBar b

theorem execBarrierEntryUpdate_done {s t : State} {k : BarKey} {b : BarEntry} (hev : s.ev = .bar k) (hp : s.podWalker k = none)
    (h : s.updateBar k = .ok (t, b)) : execBarrierEntryUpdate s = .next { t with barMsgs := t.barMsgs.filter fun m => !m.here k } := by
  simp only [execBarrierEntryUpdate, hev, hp]
  split
  · next hr => cases hr.symm.trans h; rfl
  · next hr => cases hr.symm.trans h

theorem State.updateBar_kept {s t : State} {k : BarKey} {b : BarEntry} (hk : (s.barEntry k).spilled = false)
    (hcycle : s.barCycle (s.barEntry k) (s.barMsgs.filter (BarMsg.here k)) = (t, b)) (hb : b.spilled = false) :
    s.updateBar k = .ok (t.setBar b, b) := by
  have hbind : s.updateBar k = (fun x : State × BarEntry => (x.1.setBar x.2).storeBar x.2)
      (s.barCycle (s.barEntry k) (s.barMsgs.filter (BarMsg.here k))) := by
    rw [State.updateBar, s.loadBar_kept hk]
    rfl
  rw [hbind, hcycle]
  exact State.storeBar_kept _ hb

/-- An entry that is not spilled takes what the messages of the cycle make of it, and they are consumed; the other entries stay. -/
theorem barrierEntryUpdate_leaves {s t : State} {k : BarKey} {ms : List BarMsg} {b : BarEntry} (hms : s.barMsgs.filter (BarMsg.here k) = ms)
    (hk : (s.barEntry k).spilled = false) (hcycle : (on s (.bar k)).barCycle (s.barEntry k) ms = (t, b)) (hb : b.spilled = false) (hkey : b.key = k) :
    ∃ u, Gives s .barrierEntryUpdate (.bar k) u ∧ u.mem = t.mem ∧ u.stations = t.stations ∧ u.barEntry k = b ∧
      (∀ j, j ≠ k → u.barEntry j = t.barEntry j) ∧ ∀ x ∈ u.barMsgs, x.key = k → x.left ≠ 0 ∨ x.away.isSome = true := by
  have hdone := State.updateBar_kept (s := on s (.bar k)) hk (hms ▸ hcycle) hb
  refine ⟨_, execBarrierEntryUpdate_done (s := on s (.bar k)) rfl (State.podWalker_kept _ k hk) hdone, rfl, rfl, t.setBar_barEntry_self k hkey,
    fun j hj => t.setBar_barEntry_ne (hkey ▸ hj), ?_⟩
  intro x hx hxk
  have hgone : x.here k = false := by simpa using (List.mem_filter.1 hx).2
  by_cases hleft : x.left = 0
  · right
    simpa [BarMsg.here, hxk, hleft, Option.isSome_iff_ne_none] using hgone
  · exact .inl hleft

/-! ### A message to a peer's walker (R288, R464) -/

/-- The flits of a link that wait or have not been acknowledged. -/
def TLink.kept (l : TLink) : Nat := l.waiting.length + l.unacked.length

theorem TLink.number_kept (x : TLink) (t : BitVec 4) (k : BitVec 16) (b : List Byte) : (x.number t k b).kept = x.kept + 1 := by
  simp only [TLink.kept, TLink.number, List.length_append, List.length_cons, List.length_nil]
  omega

theorem TLink.foldl_kept {α : Type} {f : TLink → α → TLink} (hf : ∀ x a, (f x a).kept = x.kept + 1) (l : List α) :
    ∀ x : TLink, (l.foldl f x).kept = x.kept + l.length := by
  induction l with
  | nil => exact fun x => rfl
  | cons a l ih =>
    intro x
    rw [List.foldl_cons, ih, hf, List.length_cons]
    omega

theorem TLink.pump_kept (x : TLink) : x.pump.kept = x.kept := by
  unfold TLink.pump
  dsimp only
  rw [TLink.foldl_kept fun y (t, k, b) => y.number_kept t k b]
  simp only [TLink.kept, List.length_drop, List.length_take]
  omega

theorem TLink.send_kept (x : TLink) (t : BitVec 4) (k : BitVec 16) (b : List Byte) : (x.send t k b).kept = x.kept + 1 := by
  rw [TLink.send, TLink.pump_kept]
  simp only [TLink.kept, List.length_append, List.length_cons, List.length_nil]
  omega

theorem State.modLink_link?_self {s : State} {l : Nat} {x : TLink} (h : s.link? l = some x) (f : TLink → TLink) : (s.modLink l f).link? l = some (f x) := by
  unfold State.link? at h
  split at h
  · next hl =>
    cases h
    simp [State.link?, State.modLink, hl]
  · cases h

/-- The number of the flit of the next message to a walker. -/
def State.flitNumber (s : State) : Nat := ((List.range 256).find? fun n => !s.barMsgs.any fun x => x.away == some n).getD 0

theorem State.sendBar_arrive {s : State} {p : Peer} {m : BarMsg} {n l va : Nat} {x : TLink} {asid : BitVec 16} (hop : m.op = .arrive n)
    (hl : (s.boundUp p.asid p.peer).head? = some l) (hx : s.link? l = some x) (hroom : x.room = true) (haddr : s.spillAddr m.key = some (asid, va)) :
    s.sendBar p m =
      { s.modLink l fun k => k.send 2 (BitVec.ofNat 16 p.peer) (m.flit va s.flitNumber (s.barHelm m.key)) with
        barMsgs := s.barMsgs.map fun x => if x = m then { x with away := some s.flitNumber } else x } := by
  simp only [State.sendBar, hop, hl, hx, haddr, Option.any_some, hroom]
  rfl

/-- The messages at an entry that a peer walks go to it, with no look of the Helm. -/
theorem execBarrierEntryUpdate_walked {s : State} {k : BarKey} {p : Peer} (hev : s.ev = .bar k) (hp : s.podWalker k = some p)
    (hlook : s.looks.contains k = false) :
    execBarrierEntryUpdate s = .next ((s.barMsgs.filter (BarMsg.here k)).foldl (fun s m => s.sendBar p m) s) := by
  simp only [execBarrierEntryUpdate, hev, hp, hlook]
  rfl

end Sys2Proof.Machine

namespace Sys2Proof.Proofs

open Sys2Proof Sys2Proof.Machine Sys2Proof.Claims

/-- Settles O53: by what a mark leaves of the watermarks, what one message or none does at an entry of the Helm, and what one to a walker adds to its link. -/
theorem marksAndBarriersAdvance : Obligations.MarksAndBarriersAdvance := by
  refine ⟨?mark, ?entry, ?other, ?walker⟩
  case mark =>
    intro s asid p w hw
    obtain ⟨l, hgives⟩ := execMarkPropagate_state (s := on s (.mark asid p)) rfl
    refine ⟨_, hgives, rfl, rfl, fun m hm ha hp => ?_, ?_⟩
    · obtain ⟨m', -, rfl⟩ := List.mem_map.1 (List.mem_filter.1 hm).1
      rw [Mark.reach_self ((Mark.reach_asid m').symm.trans ha) ((Mark.reach_who m').symm.trans hp)]
      exact ⟨rfl, rfl⟩
    · rw [← leastKnown_reachMark]
      exact State.watermark_of_find? _ asid (find?_raised asid _ hw)
  case entry =>
    intro s k m hms hk
    have hkey := s.barEntry_key k
    refine ⟨?first, ?last, ?drop⟩
    case first =>
      intro n hop hexp hn0 hn1 harr
      have hcount : (s.barEntry k).count (BitVec.ofNat 32 n) = { s.barEntry k with exp := BitVec.ofNat 32 n, arr := 1 } := by
        simp [BarEntry.count, hexp, harr]
      have hmore : (1 : BitVec 32).toNat < (BitVec.ofNat 32 n).toNat := by
        generalize BitVec.ofNat 32 n = v at hn0 hn1
        bv_omega
      have hcycle := (on s (.bar k)).barCycle_arrive (s.barEntry k) hop (.inr hn0)
      rw [hcount, State.endPhase_goes_on _ _ (.inr hmore)] at hcycle
      obtain ⟨u, hgives, hmem, -, hentry, -, hconsumed⟩ := barrierEntryUpdate_leaves hms hk hcycle hk hkey
      exact ⟨u, hgives, hmem, hentry, hconsumed⟩
    case last =>
      intro n hop hexp hle hswaps
      have hcount : (s.barEntry k).count (BitVec.ofNat 32 n) = { s.barEntry k with arr := (s.barEntry k).arr + 1 } := by
        rw [BarEntry.count, if_neg hexp]
      have hcycle := (on s (.bar k)).barCycle_arrive (s.barEntry k) hop (.inl hexp)
      rw [hcount, State.endPhase_completes _ { s.barEntry k with arr := (s.barEntry k).arr + 1 } (.inr ⟨hexp, hle⟩) hswaps] at hcycle
      obtain ⟨u, hgives, -, -, hentry, -⟩ := barrierEntryUpdate_leaves hms hk hcycle hk hkey
      exact ⟨u, hgives, hentry⟩
    case drop =>
      intro hop hswaps
      obtain ⟨b, hcycle, hsame, hkept⟩ := (on s (.bar k)).barCycle_drop_entry (s.barEntry k) hop hswaps
      obtain ⟨u, hgives, hmem, -, hentry, -⟩ := barrierEntryUpdate_leaves hms hk hcycle (hkept.trans hk) (hsame.trans hkey)
      have hbecomes {t : State} {c : BarEntry} (h : (on s (.bar k)).barCycle (s.barEntry k) [m] = (t, c)) : u.barEntry k = c :=
        hentry.trans (congrArg Prod.snd (hcycle.symm.trans h))
      exact ⟨u, hgives, hmem, fun h => hbecomes (State.barCycle_drop_zero _ _ hop h), fun h => hbecomes (State.barCycle_drop_last _ _ hop h hswaps),
        fun h hlt => hbecomes (State.barCycle_drop_more _ _ hop h hlt)⟩
  case other =>
    intro s k j hj hms hk hexp
    have hcycle := ((on s (.bar k)).barCycle_nil (s.barEntry k)).trans (State.endPhase_goes_on _ _ (.inl hexp))
    obtain ⟨u, hgives, -, hstations, -, hothers, -⟩ := barrierEntryUpdate_leaves hms hk hcycle hk (s.barEntry_key k)
    exact ⟨u, hgives, hothers j hj, hstations⟩
  case walker =>
    intro s k m p l x asid va n hp hms hop hlook hl hx hroom haddr
    have hgives := execBarrierEntryUpdate_walked (s := on s (.bar k)) rfl hp hlook
    rw [show (on s (.bar k)).barMsgs.filter (BarMsg.here k) = [m] from hms, List.foldl_cons, List.foldl_nil,
      State.sendBar_arrive (s := on s (.bar k)) hop hl hx hroom haddr] at hgives
    have hm : m ∈ s.barMsgs := List.mem_of_mem_filter (hms ▸ List.mem_singleton_self m)
    refine ⟨_, _, _, hgives, State.modLink_bars _ l _, State.modLink_stations _ l _, List.mem_map.2 ⟨m, hm, if_pos rfl⟩,
      State.modLink_link?_self (s := on s (.bar k)) hx _, TLink.send_kept x _ _ _⟩

end Sys2Proof.Proofs
end

