-- ==== Sys2Proof/Proofs/TreeEngine.lean ====
section
/-! SUPPORT. What a tree engine asks for to take and release a LOCK (R383, R390), what its events come to by its operation and its step (R371, R375, R380,
R384, R385, R395), what its completion leaves at the station, and the proof that the tree engine acts. -/

namespace Sys2Proof.Machine

open Sys2Proof

/-! ### Locks (R383, R390) -/

section
variable {s u : State} {b : TBind} {n pa : Nat} (hpage : s.treePage b b.hn (lockVa b n) true = .ok (pa, u))
include hpage

section
variable {memo : List (TreeKey × Nat)} {v : Nat}

theorem State.lockNode_unread (hv : memoAt memo (.lock n) = none) :
    s.lockNode b memo n = .error (.ask u [⟨.lock n, b.hn, lockVa b n, 8, 0, 0, false⟩]) := by
  simp [State.lockNode, hpage, hv, bind, Except.bind, throw, throwThe, MonadExceptOf.throw]

theorem State.lockNode_odd (hv : memoAt memo (.lock n) = some v) (hodd : v % 2 = 1) : s.lockNode b memo n = .error .retry := by
  simp [State.lockNode, hpage, hv, hodd, bind, Except.bind, throw, throwThe, MonadExceptOf.throw]

theorem State.lockNode_untaken (hv : memoAt memo (.lock n) = some v) (heven : v % 2 = 0) (htake : memoAt memo (.take n) = none) :
    s.lockNode b memo n = .error (.ask u [⟨.take n, b.hn, lockVa b n, 8, v + 1, v, true⟩]) := by
  simp [State.lockNode, hpage, hv, heven, htake, bind, Except.bind, throw, throwThe, MonadExceptOf.throw]

theorem State.lockNode_swapped {x : Nat} (hv : memoAt memo (.lock n) = some v) (heven : v % 2 = 0) (htake : memoAt memo (.take n) = some x) :
    s.lockNode b memo n = if x = v then .ok (BitVec.ofNat 64 v, u) else .error .retry := by
  simp [State.lockNode, hpage, hv, heven, htake, bind, Except.bind, throw, throwThe, MonadExceptOf.throw, pure, Except.pure]

end

theorem State.lockAsk_page (v : Word) : s.lockAsk b n v = .ok (⟨.put, b.hn, lockVa b n, 8, v.toNat, 0, true⟩, u) := by
  simp [State.lockAsk, hpage, bind, Except.bind, pure, Except.pure]

theorem State.releaseAsks_one (v : Word) : s.releaseAsks b [(n, v)] = .ok ([⟨.put, b.hn, lockVa b n, 8, (v + 2).toNat, 0, true⟩], u) := by
  simp [State.releaseAsks, State.lockAsk_page hpage, bind, Except.bind, pure, Except.pure]

end

section
variable {b : TBind} {memo : List (TreeKey × Nat)} {n : Nat} (r : List Nat) {s : State} {ls : List (Nat × Word)}

theorem State.takeLocks_held (h : ls.any (fun l => l.1 == n) = true) :
    State.takeLocks b memo (n :: r) s ls = State.takeLocks b memo r s ls := by
  rw [State.takeLocks, if_pos h]

variable (h : ls.any (fun l => l.1 == n) = false)
include h

theorem State.takeLocks_stops {e : TErr} (hn : s.lockNode b memo n = .error e) : State.takeLocks b memo (n :: r) s ls = (s, ls, some e) := by
  rw [State.takeLocks, if_neg (by simp [h]), hn]

theorem State.takeLocks_takes {v : Word} {u : State} (hn : s.lockNode b memo n = .ok (v, u)) :
    State.takeLocks b memo (n :: r) s ls = State.takeLocks b memo r u (ls ++ [(n, v)]) := by
  rw [State.takeLocks, if_neg (by simp [h]), hn]

end

theorem memoAt_filter_none {memo : List (TreeKey × Nat)} {p : TreeKey × Nat → Bool} {k : TreeKey} (hp : ∀ x, p (k, x) = false) :
    memoAt (memo.filter p) k = none := by
  refine Option.map_eq_none_iff.2 (List.find?_eq_none.2 fun e he hk => ?_)
  obtain ⟨k', x⟩ := e
  obtain rfl : k' = k := by simpa using hk
  simpa [hp] using (List.mem_filter.1 he).2

theorem TreeJob.again_lock (j : TreeJob) (n : Nat) : memoAt j.again.memo (.lock n) = none := memoAt_filter_none fun _ => rfl
theorem TreeJob.again_take (j : TreeJob) (n : Nat) : memoAt j.again.memo (.take n) = none := memoAt_filter_none fun _ => rfl

theorem mkStamp_major (major : BitVec 32) (dom : BitVec 12) (minor : BitVec 8) : (mkStamp major dom minor).extractLsb' 20 32 = major := by
  ext k hk
  have hdom : ¬20 + k < 8 := by omega
  have hmajor : ¬20 + k - 8 < 12 := by omega
  rw [BitVec.getElem_extractLsb', mkStamp]
  refine BitVec.getLsbD_append.trans ?_
  rw [if_neg hdom, BitVec.getLsbD_append, if_neg hmajor, ← BitVec.getLsbD_eq_getElem]
  congr 1
  omega

/-! ### A writer (R371, R375, R383, R395, R396) -/

section
variable (s : State) (i : StId) {j : TreeJob} (b : TBind)

theorem State.treeUnlock_releases (k : TreeJob) {locks : List (Nat × Word)} {as : List TAsk} {u : State} (h : s.releaseAsks b locks = .ok (as, u)) :
    s.treeUnlock i k b locks = (u.setEngine i (some k)).askAll i k as := by
  rw [State.treeUnlock, h]

theorem State.treeWrite_bad {f : FaultC} (h : j.bad = some f) : s.treeWrite i j b = s.treeFail i j b f := by
  rw [State.treeWrite, h]

theorem State.treeFail_unlocked (h : j.locks = []) (f : FaultC) : s.treeFail i j b f = s.treeFault i j f := by
  simp [State.treeFail, h]

theorem State.treeFail_locked (h : j.locks ≠ []) (f : FaultC) :
    s.treeFail i j b f = s.treeUnlock i { j with locks := [], bad := some f } b j.locks := by
  simp [State.treeFail, h]

section
variable (hbad : j.bad = none)
include hbad

theorem State.treeWrite_plan (h : j.step = .plan) : s.treeWrite i j b = s.treePlan i j b := by
  rw [State.treeWrite, hbad, h]

theorem State.treeWrite_write (h : j.step = .write) : s.treeWrite i j b = s.treeUnlock i { j with locks := [], step := .unlock } b j.locks := by
  rw [State.treeWrite, hbad, h]

theorem State.treeWrite_unlock (h : j.step = .unlock) : s.treeWrite i j b =
    (j.pages.foldl (fun s pg => s.releasePage b.asid (b.ht.base.toNat + pg * 2 ^ 16)) s).treeDone i j j.res := by
  rw [State.treeWrite, hbad, h]

end

/-- The engine of a writer that has its result and its locks: it issues the writes. -/
def State.issueWrites (u : State) (i : StId) (j : TreeJob) (ls : List (Nat × Word)) (y : Nat) (pages : List Nat) (as : List TAsk) : State :=
  (u.setEngine i (some { j with locks := ls, step := .write, res := y, pages := pages })).askAll i
    { j with locks := ls, step := .write, res := y, pages := pages } as

section
variable {s b} {y : Nat} {w : TW} {u : State} {ls : List (Nat × Word)} {as : List TAsk}

theorem State.treePlan_tins {n : Nat} (hop : j.op = .tins n) (hrun : (tinsert b n).run (TW.start s j.memo) = .ok (y, w))
    (hplan : w.plan b false j.locks = .go u ls as) : s.treePlan i j b = u.issueWrites i j ls y [] as := by
  simp only [State.treePlan, hop, hrun, hplan, State.issueWrites]

theorem State.treePlan_tdrop {n m : Nat} (hop : j.op = .tdrop n m) (hrun : (tdropRange b n m).run (TW.start s j.memo) = .ok (y, w))
    (hplan : w.plan b false j.locks = .go u ls as) : s.treePlan i j b = u.issueWrites i j ls y [] as := by
  simp only [State.treePlan, hop, hrun, hplan, State.issueWrites]

theorem State.treePlan_tseal {n : Nat} {pages : List Nat} (hop : j.op = .tseal n)
    (hrun : (tsealNode b n).run (TW.start s j.memo) = .ok ((y, pages), w)) (hplan : w.plan b true j.locks = .go u ls as) :
    s.treePlan i j b = u.issueWrites i j ls (y % 2 ^ 32 + pages.length % 2 ^ 32 * 2 ^ 32) pages as := by
  simp only [State.treePlan, hop, hrun, hplan, State.issueWrites]

theorem State.treePlan_forkPages {n : Nat} (hop : j.op = .forkPages n)
    (hfork : s.fork b.asid (pagePairs j.h2.base.toNat j.h1.base.toNat n) = .ok (u, y)) : s.treePlan i j b = u.treeDone i j y := by
  simp only [State.treePlan, hop, hfork]

theorem State.treePlan_forkTree {n : Nat} (hop : j.op = .forkTree n) (hfork : s.forkBoth j b n = .ok (y, as, u)) :
    s.treePlan i j b = (u.setEngine i (some { j with step := .unlock, res := y })).askAll i { j with step := .unlock, res := y } as := by
  simp only [State.treePlan, hop, hfork]

end

/-! ### A walk (R380, R384, R385) -/

theorem Walk.atStart_iff (w : Walk) : w.atStart = true ↔ w.frontier = [] ∧ w.kids = [] ∧ w.done = [] ∧ w.leaves = 0 := by
  simp [Walk.atStart, and_assoc]

theorem Walk.discard_acc (p : TPar) (w : Walk) {z : X320} (hz : z ∈ (w.discard p).acc) : z = X320.empty := List.eq_of_mem_replicate hz

section
variable {w : Walk} {q : QReg}

theorem State.treeWalk_bad {f : FaultC} (h : j.bad = some f) : s.treeWalk i j b q w = s.walkFault i j b q f := by
  rw [State.treeWalk, h]

section
variable (hbad : j.bad = none)
include hbad

theorem State.treeWalk_begins (hstart : w.atStart = true) : s.treeWalk i j b q w = s.beginWalk i j b q w := by
  simp only [State.treeWalk, hbad, hstart, if_true]

variable {s b} (hway : ¬w.atStart = true)
include hway

theorem State.treeWalk_moved (hroot : s.sameRoot b j.memo w false = .ok false) : s.treeWalk i j b q w = s.restartWalk i j b q w := by
  simp only [State.treeWalk, hbad, if_neg hway, hroot]

theorem State.treeWalk_faults {y : QReg} {f : FaultC} (hroot : s.sameRoot b j.memo w false = .ok true)
    (hrun : runWalk s b j.memo q w = .fault y f) : s.treeWalk i j b q w = s.walkFault i j b y f := by
  simp only [State.treeWalk, hbad, if_neg hway, hroot, hrun, State.walkEnd]

end

theorem State.restartWalk_unlocked (h : q.rstrt ≠ 3) : s.restartWalk i j b q w =
    (s.setQuery i j.q { q with rstrt := q.rstrt + 1, visits := 0, walk := some (w.discard b.p) }).setEngine i
      (some { j with memo := [], left := 1 }) := by
  have hfew : ¬q.rstrt + 1 = 4 := fun h4 => h (by bv_omega)
  simp only [State.restartWalk, if_neg hfew]

section
variable {s b}

theorem State.beginWalk_asks {l : List TAsk} (h : s.probeNode b j.memo w.locked 0 = .error (.ask l)) :
    s.beginWalk i j b q w = (s.setEngine i (some j)).askAll i j l := by
  rw [State.beginWalk, h]
  rfl

theorem State.beginWalk_busy (h : s.probeNode b j.memo w.locked 0 = .error .busy) :
    s.beginWalk i j b q w = s.setEngine i (some { j with memo := [], left := 64 }) := by
  rw [State.beginWalk, h]
  rfl

theorem State.beginWalk_absent (h : s.probeNode b j.memo w.locked 0 = .ok none) :
    s.beginWalk i j b q w = { s with free := s.free + b.p.d + 3 }.walkNone i j b q (blindWalk b.p s.free) := by
  rw [State.beginWalk, h]

theorem State.beginWalk_empty {root : TNode} (h : s.probeNode b j.memo w.locked 0 = .ok (some root)) (hn : root.n = 0) (hl : w.locked = false) :
    s.beginWalk i j b q w =
      s.walkNone i j b { q with rootver := root.lock, walk := some { w.discard b.p with ver := root.lock } } (emptyWalk b.p) := by
  rw [State.beginWalk, h]
  simp only [hn, hl, if_true, Bool.false_eq_true, if_false]

end

section
variable (hlocks : j.locks = [])
include hlocks

/-- A walk that holds no lock gives none back. -/
theorem State.unlock_nothing : s.unlock i j b = s := by
  rw [State.unlock, hlocks]
  show s.askAll i j [] = s
  unfold State.askAll
  split <;> rfl

theorem State.walkFault_unlocked (f : FaultC) : s.walkFault i j b q f = (s.setQuery i j.q { q with state := 3, stop := 6 }).treeFault i j f := by
  rw [State.walkFault, State.unlock_nothing s i b hlocks]

theorem State.walkNone_unlocked (hfin : q.finite = true) (e : QReg → QReg) :
    s.walkNone i j b q e = (s.setQuery i j.q (e q)).treeDone i j (2 * 2 ^ 32 + q.rstrt.toNat * 2 ^ 36) := by
  rw [State.walkNone, if_pos hfin, State.unlock_nothing s i b hlocks]

end

end

end

/-! ### What a completion leaves (R395) -/

section
variable {s : State} {i : StId} {t : Station}

theorem State.setEngine_station? (h : s.station? i = some t) (j : Option TreeJob) :
    (s.setEngine i j).station? i = some { t with sd := t.sd.map fun d => { d with eng := j } } := State.modStation_station?_self h fun _ => rfl

theorem State.modFirstHop_station? (h : s.station? i = some t) (k : StId) (o : Fin 8) (f : Fifo → Fifo) :
    ∃ c, (s.modFirstHop k o f).station? i = some { t with c := c } := by
  unfold State.modFirstHop
  split
  · exact ⟨t.c, h⟩
  · split
    · exact ⟨t.c, h⟩
    · split
      next d c _ _ =>
        refine ⟨if t.id = d then (t.modC c f).c else t.c, (State.modStation_station? s d (f := (·.modC c f)) (fun _ => rfl) i).trans ?_⟩
        rw [h, Option.map_some]
        split <;> rfl
      · exact ⟨t.c, h⟩

variable {d : Sd} (hsd : t.sd = some d) (heng : d.eng = none)
include hsd heng

/-- A station whose engine is free owes no result of it to a register. -/
theorem State.cancelDest_idle (h : s.station? i = some t) (r : PReg) : (s.cancelDest i r).station? i = some t := by
  unfold State.cancelDest
  split
  · exact h
  · refine (State.modStation_station?_self (s := { s with reqs := _ }) h ?_).trans (congrArg some ?_)
    · exact fun _ => rfl
    obtain ⟨q, eng⟩ := d
    cases heng
    cases t
    cases hsd
    rfl

/-- A result that lands at a station whose engine is free leaves its sounding state, and stands in the d register that it is for. -/
theorem State.landNew_idle (w : Who) (h : s.station? w.st = some t) (e : Dest) (sl : Slack) (x : VReg) :
    ∃ v, (s.landNew w e sl (.ok x)).station? w.st = some v ∧ v.sd = some d ∧ ∀ n, e = .d n → v.d[n] = x.data.setWidth 64 ∧ .d n ∉ v.pend := by
  cases e with
  | none => exact ⟨t, h, hsd, nofun⟩
  | d n =>
    have hset := State.modStation_station?_self (State.cancelDest_idle hsd heng h (.d n)) fun u =>
      congrArg Prod.fst (Station.apply_kind w (.setD n (x.data.setWidth 64)) u)
    have hland := State.modStation_station?_self hset fun u => congrArg Prod.fst (Station.apply_kind w (.unpend (.d n)) u)
    refine ⟨_, hland, hsd, ?_⟩
    rintro _ ⟨⟩
    simp [Station.apply, Station.cancelFlights]
  | v n =>
    have hset := State.modStation_station?_self (State.cancelDest_idle hsd heng h (.v n)) fun u =>
      congrArg Prod.fst (Station.apply_kind w (.setV n x) u)
    have hland := State.modStation_station?_self hset fun u => congrArg Prod.fst (Station.apply_kind w (.unpend (.v n)) u)
    exact ⟨_, hland, hsd, nofun⟩
  | out o id =>
    obtain ⟨c, hc⟩ := State.modFirstHop_station? h w.st o (·.fill id (Token.vec x sl))
    unfold State.landNew
    dsimp only [Reply.token]
    split
    · obtain ⟨c', hc'⟩ := State.countOverdue_station? hc
      exact ⟨_, hc', hsd, nofun⟩
    · exact ⟨_, hc, hsd, nofun⟩

end

/-- A completion frees the engine, leaves the query registers, and writes its payload to a d register. -/
theorem State.treeDone_station? {s : State} {i : StId} {t : Station} {x : Sd} (h : s.station? i = some t) (hsd : t.sd = some x) (j : TreeJob) (y : Nat) :
    ∃ v, (s.treeDone i j y).station? i = some v ∧ v.sd = some { x with eng := none } ∧
      ∀ n, j.dest = .d n → v.d[n] = BitVec.ofNat 64 y ∧ .d n ∉ v.pend := by
  have hfree : (s.setEngine i none).station? i = some { t with sd := some { x with eng := none } } := by
    rw [State.setEngine_station? h, hsd]
    rfl
  obtain ⟨v, hv, hvsd, hd⟩ := State.landNew_idle (d := { x with eng := none }) rfl rfl (j.who i) hfree j.dest j.slack (scalarReg (BitVec.ofNat 64 y))
  refine ⟨v, hv, hvsd, fun n hn => ⟨(hd n hn).1.trans ?_, (hd n hn).2⟩⟩
  simp [scalarReg]

end Sys2Proof.Machine

namespace Sys2Proof.Claims

open Sys2Proof Sys2Proof.Machine

/-! ### The events of an engine -/

section
variable {s : State} {i : StId} {t : Station} {x : Sd} {j : TreeJob} {b : TBind} (h : Engine s i t x j b)
include h

/-- What an event finds at the station of an engine: its job, in place of what it waited for, and its query register. -/
theorem Engine.found : (on s (.st i)).station? i = some t ∧
    ∃ w, t.sd.bind (fun d => d.eng.map fun j => (j, d.q[j.q])) = some ({ j with wait := w }, x.q[j.q]) := by
  obtain ⟨⟨ht, hx⟩, ⟨w, hw⟩, -⟩ := h
  exact ⟨ht, w, by simp [hx, hw]⟩

theorem Engine.job_eq : ({ j with wait := none } : TreeJob) = j := by
  obtain ⟨-, -, hwait, -⟩ := h
  cases j
  cases hwait
  rfl

theorem Engine.bind_eq : jobBind (on s (.st i)) t x.q[j.q] j = b := h.tree.2.symm

theorem Engine.passes (hbusy : (on s (.st i)).treeBusy i = true) : Passes s .treeLockRetry (.st i) ∧ Passes s .treeOpComplete (.st i) := by
  obtain ⟨ht, w, hfound⟩ := h.found
  refine ⟨?_, ?_⟩
  · show execTreeLockRetry (on s (.st i)) = _
    simp only [execTreeLockRetry, show (on s (.st i)).ev = .st i from rfl, ht, hfound, hbusy, if_true]
  · show execTreeOpComplete (on s (.st i)) = _
    simp only [execTreeOpComplete, show (on s (.st i)).ev = .st i from rfl, ht, hfound, hbusy, if_true]

variable (hbusy : (on s (.st i)).treeBusy i = false)
include hbusy

theorem Engine.lockRetry_bad {f : FaultC} (hbad : j.bad = some f) : Gives s .treeLockRetry (.st i) ((on s (.st i)).treeFault i j f) := by
  obtain ⟨ht, w, hfound⟩ := h.found
  show execTreeLockRetry (on s (.st i)) = _
  simp only [execTreeLockRetry, show (on s (.st i)).ev = .st i from rfl, ht, hfound, hbusy, h.job_eq, Bool.false_eq_true, if_false]
  rw [hbad]

theorem Engine.lockRetry_stops (hbad : j.bad = none) {e : TErr} (hlock : (on s (.st i)).lockNode b j.memo 0 = .error e) :
    Gives s .treeLockRetry (.st i) ((on s (.st i)).treeErr i j e) := by
  obtain ⟨ht, w, hfound⟩ := h.found
  show execTreeLockRetry (on s (.st i)) = _
  simp only [execTreeLockRetry, show (on s (.st i)).ev = .st i from rfl, ht, hfound, hbusy, h.job_eq, h.bind_eq, Bool.false_eq_true, if_false]
  rw [hbad, hlock]

theorem Engine.lockRetry_takes (hbad : j.bad = none) {v : Word} {u : State} (hlock : (on s (.st i)).lockNode b j.memo 0 = .ok (v, u)) :
    Gives s .treeLockRetry (.st i) (u.setEngine i (some { j with locks := [(0, v)], memo := [], left := Config.homeLatency })) := by
  obtain ⟨ht, w, hfound⟩ := h.found
  show execTreeLockRetry (on s (.st i)) = _
  simp only [execTreeLockRetry, show (on s (.st i)).ev = .st i from rfl, ht, hfound, hbusy, h.job_eq, h.bind_eq, h.tree.1, Bool.false_eq_true, if_false]
  rw [hbad, hlock]

theorem Engine.writes (hop : j.op ≠ .walk) : Gives s .treeOpComplete (.st i) ((on s (.st i)).treeWrite i j b) := by
  obtain ⟨ht, w, hfound⟩ := h.found
  show execTreeOpComplete (on s (.st i)) = _
  simp only [execTreeOpComplete, show (on s (.st i)).ev = .st i from rfl, ht, hfound, hbusy, h.job_eq, h.bind_eq, Bool.false_eq_true, if_false]

theorem Engine.walks (hop : j.op = .walk) {w : Walk} (hw : x.q[j.q].walk = some w) : Gives s .treeOpComplete (.st i)
    (if x.q[j.q].state = 1 then (on s (.st i)).treeWalk i j b x.q[j.q] w else on s (.st i)) := by
  obtain ⟨ht, v, hfound⟩ := h.found
  show execTreeOpComplete (on s (.st i)) = _
  simp only [execTreeOpComplete, show (on s (.st i)).ev = .st i from rfl, ht, hfound, hbusy, h.job_eq, h.bind_eq, Bool.false_eq_true, if_false]
  rw [hop, hw]

end

end Sys2Proof.Claims

namespace Sys2Proof.Proofs

open Sys2Proof Sys2Proof.Machine Sys2Proof.Claims

theorem treeLocksAreTaken : StatementPart.TreeLocksAreTaken := by
  refine ⟨?node, fun b memo n r s u ls => ?set, ?request⟩
  case node =>
    rintro s u b memo n pa va rfl hpage
    exact ⟨State.lockNode_unread hpage, fun _ => State.lockNode_odd hpage, fun _ => State.lockNode_untaken hpage,
      fun _ _ => State.lockNode_swapped hpage⟩
  case set =>
    exact ⟨State.takeLocks_held r, fun h => ⟨fun _ => State.takeLocks_stops r h, fun _ => State.takeLocks_takes r h⟩⟩
  case request =>
    intro s t j a
    exact ⟨rfl, rfl, rfl, rfl, rfl, rfl, rfl, rfl, rfl, rfl, rfl, rfl, rfl, rfl, mkStamp_major _ _ _⟩

theorem treeWritersWrite : StatementPart.TreeWritersWrite := by
  refine ⟨fun s i t x j b h => ⟨h.passes, fun hbusy => ?lock⟩, fun s i t x j b h hbusy hbad => ?write, fun s i t x j b f h hbusy hbad hop => ?fail,
    fun s b n pa v u hpage => State.releaseAsks_one hpage v, fun s i j y t x ht hx => ?done⟩
  case lock =>
    refine ⟨fun hbad hlock => ?retry, fun u l hbad hlock => h.lockRetry_stops hbusy hbad hlock,
      fun v u hbad hlock => ⟨_, h.lockRetry_takes hbusy hbad hlock⟩, fun f hbad hlock => h.lockRetry_stops hbusy hbad hlock,
      fun f hbad => h.lockRetry_bad hbusy hbad⟩
    case retry =>
      obtain ⟨⟨ht, hx⟩, -⟩ := id h
      refine ⟨_, h.lockRetry_stops hbusy hbad hlock, rfl, rfl, ?_, rfl, j.again_lock 0, j.again_take 0⟩
      refine (State.setEngine_station? (s := on s (.st i)) ht _).trans ?_
      rw [hx]
      rfl
  case write =>
    have hwrites := h.writes hbusy
    refine ⟨fun hstep => ?plan, fun hop hstep u as has => ?unlock, fun hop hstep => ?complete⟩
    case plan =>
      rw [State.treeWrite_plan _ i b hbad hstep] at hwrites
      have hop {o : TreeOp} (ho : j.op = o) (hw : o ≠ .walk) : j.op ≠ .walk := ho ▸ hw
      refine ⟨fun n y w u ls as ho hrun hplan => ?_, fun n m y w u ls as ho hrun hplan => ?_, fun n y pages w u ls as z ho hrun hplan hz => ?_,
        fun n y u ho hfork => ?_, fun n y as u ho hfork => ?_⟩
      · rw [State.treePlan_tins i ho hrun hplan] at hwrites
        exact hwrites (hop ho nofun)
      · rw [State.treePlan_tdrop i ho hrun hplan] at hwrites
        exact hwrites (hop ho nofun)
      · rw [State.treePlan_tseal i ho hrun hplan, ← hz] at hwrites
        exact hwrites (hop ho nofun)
      · rw [State.treePlan_forkPages i ho hfork] at hwrites
        exact hwrites (hop ho nofun)
      · rw [State.treePlan_forkTree i ho hfork] at hwrites
        exact hwrites (hop ho nofun)
    case unlock =>
      rw [State.treeWrite_write _ i b hbad hstep, State.treeUnlock_releases _ i b _ has] at hwrites
      exact hwrites hop
    case complete =>
      rw [State.treeWrite_unlock _ i b hbad hstep] at hwrites
      exact hwrites hop
  case fail =>
    have hfails := h.writes hbusy hop
    rw [State.treeWrite_bad _ i b hbad] at hfails
    refine ⟨fun hlocks => ?unlocked, fun hlocks u as has => ?locked⟩
    case unlocked =>
      rw [State.treeFail_unlocked _ i b hlocks] at hfails
      exact hfails
    case locked =>
      rw [State.treeFail_locked _ i b hlocks, State.treeUnlock_releases _ i b _ has, ← hbad] at hfails
      exact hfails
  case done =>
    obtain ⟨v, hv, hsd, hd⟩ := State.treeDone_station? ht hx j y
    exact ⟨v, _, hv, hsd, rfl, rfl, hd⟩

theorem walksStartAndRestart : StatementPart.WalksStartAndRestart := by
  rintro s i t x j b q w h hbusy hop rfl hw
  have hwalks := h.walks hbusy hop hw
  refine ⟨fun hst => ?stays, fun hst hlocks => ?runs, rfl, rfl, rfl, rfl, rfl, rfl, fun z => w.discard_acc b.p⟩
  case stays =>
    rw [if_neg hst] at hwalks
    exact hwalks
  rw [if_pos hst] at hwalks
  refine ⟨fun f hbad => ?bad, fun hbad hfront hkids hdone hleaves => ?start, fun hbad hreached => ?way⟩
  case bad =>
    rw [State.treeWalk_bad _ i b hbad, State.walkFault_unlocked _ i b hlocks] at hwalks
    exact hwalks
  case start =>
    rw [State.treeWalk_begins _ i b hbad (w.atStart_iff.2 ⟨hfront, hkids, hdone, hleaves⟩)] at hwalks
    refine ⟨fun hfin hroot => ?absent, fun root hfin hroot hn hl => ?empty, fun l hroot => ?asks, fun hroot => ?busy⟩
    case absent =>
      rw [State.beginWalk_absent i hroot, State.walkNone_unlocked _ i b hlocks hfin] at hwalks
      exact hwalks
    case empty =>
      rw [State.beginWalk_empty i hroot hn hl, State.walkNone_unlocked _ i b hlocks] at hwalks
      · exact hwalks
      · exact hfin
    case asks => exact State.beginWalk_asks i hroot ▸ hwalks
    case busy => exact State.beginWalk_busy i hroot ▸ hwalks
  case way =>
    have hway : ¬w.atStart = true := fun hstart => by
      obtain ⟨hfront, -, -, hleaves⟩ := w.atStart_iff.1 hstart
      exact hreached.elim (· hfront) (· hleaves)
    refine ⟨fun hroot hfew => ?restarts, fun y f hroot hrun => ?faults⟩
    case restarts =>
      rw [State.treeWalk_moved i hbad hway hroot, State.restartWalk_unlocked _ i b hfew] at hwalks
      exact hwalks
    case faults =>
      rw [State.treeWalk_faults i hbad hway hroot hrun, State.walkFault_unlocked _ i b hlocks] at hwalks
      exact hwalks

/-- Settles O41: how a LOCK is read, swapped and released, and what an idle engine does by its operation and step, or by where its walk stands. -/
theorem treeEngineActs : Obligations.TreeEngineActs := ⟨treeLocksAreTaken, treeWritersWrite, walksStartAndRestart⟩

end Sys2Proof.Proofs
end
